-- ==== Sys2Proof/Word.lean ====
section
/-! DEFINITION. The word types of the SL9600 (R48, R49) and their plainest arithmetic. -/
namespace Sys2Proof

/-- A 32-bit register element (R49). -/
abbrev Word := BitVec 32
/-- A byte of memory (R74). -/
abbrev Byte := BitVec 8
/-- A 64-bit value: an even/odd register pair, low word first (R49). -/
abbrev DWord := BitVec 64
/-- A set of lanes of one group, bit L for lane L (R25). -/
abbrev Mask := BitVec 32

end Sys2Proof
end

