-- ==== Sys2Proof/Syntax.lean ====
section
/-! DEFINITION. The syntax of Clasum and of the device's own steps: one constructor of `Instr` for each row of the
opcode table. Instructions carry decoded operands (R77 to R97); the rows that have no encoding (from LANE_BLOCK_START
on) are steps of a unit, and their operands name the unit, the group or the access they happen in. -/
namespace Sys2Proof

/-- Integer column of R84. -/
inductive ITy where
  | i32 | n32 | i64 | n64 | i16x2 | n16x2 | i8x4 | n8x4
  deriving DecidableEq, Repr

/-- Float column of R84. -/
inductive FTy where
  | f32 | f16x2 | bf16x2 | e4m3x4 | e5m2x4
  deriving DecidableEq, Repr

/-- Memory column of R84. -/
inductive MTy where
  | b8 | b16 | b32 | b64 | b128 | b256
  deriving DecidableEq, Repr

/-- Atomic types of R186. -/
inductive ATy where
  | i32 | n32 | i64 | n64 | f32 | bf16x2
  deriving DecidableEq, Repr

/-- A type of either the integer or the float column (R163, R168). -/
inductive Ty where
  | int (t : ITy)
  | flt (t : FTy)
  deriving DecidableEq, Repr

/-- Rounding modes of R53 (110 is illegal, R85). -/
inductive Rnd where
  | rn | rz | ru | rd | ra | rs | dyn
  deriving DecidableEq, Repr

/-- Saturation modes of R57. -/
inductive Sat where
  | wrap | clamp | clampNan | unit
  deriving DecidableEq, Repr

/-- Memory orders of R88. -/
inductive MOrd where
  | plain | acq | rel | acqrel
  deriving DecidableEq, Repr

/-- Scopes of R15 and R16. -/
inductive Scope where
  | grp | team | block | die | dev | sys
  deriving DecidableEq, Repr

/-- Cache hints of R86 (7 is reserved). -/
inductive Hint where
  | dflt | stream | keep | nol1 | nol2 | rcopy | inb
  deriving DecidableEq, Repr

/-- Lane operand codes of R79. `imm i` is the immediate i, `none` is 0x7FF. Window handles are `wa`, tiles are `a`. -/
inductive Opnd where
  | v (n : Nat) | s (n : Nat) | c (n : Nat) | sp (n : Nat) | k (n : Nat) | p (n : Nat)
  | a (n : Nat) | wa (n : Nat) | imm (i : Int) | none
  deriving DecidableEq, Repr

/-- What every lane instruction carries: switch marker, regang point and the guard (R77, R78). -/
structure Hdr where
  sw : Bool
  rg : Bool
  gc : Bool
  gp : Nat
  gq : Nat
  deriving DecidableEq, Repr

/-- The completion mechanism of an engine command (R285). -/
inductive Compl where
  | none
  | yield (off : Int)
  | bar (off : Nat)
  | task (id : Nat)
  deriving DecidableEq, Repr

/-- The second source of SSEL (R119). -/
inductive SelSrc where
  | reg (n : Nat)
  | imm (w : Nat)
  deriving DecidableEq, Repr

/-- Widths of SLD and SST (R125). -/
inductive SW where
  | w32 | w8 | w16
  deriving DecidableEq, Repr

/-- Operations of SATOM (R126). -/
inductive SAOp where
  | add | exch | and | or
  deriving DecidableEq, Repr

/-- Operations of ATOM and ARED (R186). -/
inductive AOp where
  | add | min | max | and | or | xor | exch
  deriving DecidableEq, Repr

/-- Block formats of MXQ and MXD (R164). -/
inductive MxFmt where
  | e4m3 | e5m2 | e2m1x
  deriving DecidableEq, Repr

/-- What an outside access through BAR2 or a device link does (R384, R389). -/
inductive ExtOp where
  | read
  | write
  | fetchAdd
  | swap
  | cas (expected : List Byte)
  deriving DecidableEq, Repr

/-- Clasum (the first 188 constructors) and the steps of the device's units (the others), in the order of the
opcode table. A number of a register, predicate, barrier, event and so on is the one the encoding names. -/
inductive Instr where
  -- scalar stream (R114 to R144, and the engine, bundle and synchronisation rows)
  /-- SNOP (R144) -/
  | snop
  /-- SADD (R115) -/
  | sadd (d a b : Nat)
  /-- SSUB (R115) -/
  | ssub (d a b : Nat)
  /-- SMUL (R115) -/
  | smul (d a b : Nat)
  /-- SMULH (R115) -/
  | smulh (d a b : Nat)
  /-- SMULHN (R115) -/
  | smulhn (d a b : Nat)
  /-- SAND (R115) -/
  | sand (d a b : Nat)
  /-- SOR (R115) -/
  | sor (d a b : Nat)
  /-- SXOR (R115) -/
  | sxor (d a b : Nat)
  /-- SSHL (R115) -/
  | sshl (d a b : Nat)
  /-- SSHR (R115) -/
  | sshr (d a b : Nat)
  /-- SSHA (R115) -/
  | ssha (d a b : Nat)
  /-- SMIN (R115) -/
  | smin (d a b : Nat)
  /-- SMAX (R115) -/
  | smax (d a b : Nat)
  /-- SMINN (R115) -/
  | sminn (d a b : Nat)
  /-- SMAXN (R115) -/
  | smaxn (d a b : Nat)
  /-- SADDI (R117) -/
  | saddi (d imm : Nat)
  /-- SMOVI (R117) -/
  | smovi (d imm : Nat)
  /-- SLUI (R117) -/
  | slui (d imm : Nat)
  /-- SANDI (R117) -/
  | sandi (d imm : Nat)
  /-- SORI (R117) -/
  | sori (d imm : Nat)
  /-- SSHLI (R116) -/
  | sshli (d a n : Nat)
  /-- SSHRI (R116) -/
  | sshri (d a n : Nat)
  /-- SSHAI (R116) -/
  | sshai (d a n : Nat)
  /-- SADD64 (R116) -/
  | sadd64 (d a b : Nat)
  /-- SSUB64 (R116) -/
  | ssub64 (d a b : Nat)
  /-- SMOV (R116) -/
  | smov (d a : Nat)
  /-- SMVXF (R121) -/
  | smvxf (d a off : Nat)
  /-- SMVXT (R121) -/
  | smvxt (d a off : Nat)
  /-- SBFX (R118) -/
  | sbfx (d a : Nat) (sx : Bool) (pos len : Nat)
  /-- SPOPC (R116) -/
  | spopc (d a : Nat)
  /-- SCLZ (R116) -/
  | sclz (d a : Nat)
  /-- SCMP (R122) -/
  | scmp (cc q a b : Nat)
  /-- SCMPI (R122) -/
  | scmpi (cc q a imm : Nat)
  /-- SSEL (R119) -/
  | ssel (d a cond : Nat) (src : SelSrc)
  /-- QLOP (R123) -/
  | qlop (t d a b : Nat)
  /-- SLDI (R120) -/
  | sldi (d : Nat) (pair : Bool) (imm : Nat)
  /-- SLD (R125) -/
  | sld (d a : Nat) (w : SW) (o : MOrd) (sc : Scope) (prom : Bool) (off : Int)
  /-- SLD64 (R125) -/
  | sld64 (d a : Nat) (o : MOrd) (sc : Scope) (prom : Bool) (off : Int)
  /-- SST (R125) -/
  | sst (d a : Nat) (w : SW) (o : MOrd) (sc : Scope) (off : Int)
  /-- SST64 (R125) -/
  | sst64 (d a : Nat) (o : MOrd) (sc : Scope) (off : Int)
  /-- SATOM (R126) -/
  | satom (d a : Nat) (op : SAOp) (o : MOrd) (sc : Scope) (prom : Bool) (off : Int)
  /-- SCAS (R127) -/
  | scas (d a : Nat) (o : MOrd) (sc : Scope) (prom : Bool) (off : Int)
  /-- SPFX_PF (R128) -/
  | spfxPf (d a : Nat) (sc : Scope) (off : Int)
  /-- SPFX_WB (R128) -/
  | spfxWb (d a : Nat) (off : Int)
  /-- SPFX_INV (R128) -/
  | spfxInv (d a : Nat) (off : Int)
  /-- SFNC (R129) -/
  | sfnc (o : MOrd) (sc : Scope) (prom : Bool)
  /-- SBR (R131) -/
  | sbr (c : Nat) (off : Int)
  /-- SCALL (R131) -/
  | scall (c : Nat) (off : Int)
  /-- SRET (R132) -/
  | sret
  /-- SJMPR (R132) -/
  | sjmpr (a : Nat)
  /-- SLOOP (R133) -/
  | sloop (d : Nat) (off : Int)
  /-- LGO (R134) -/
  | lgo (a n start : Nat)
  /-- LWAIT (R135) -/
  | lwait
  /-- LGOT (R136) -/
  | lgot (a n start : Nat)
  /-- CPY (R290) -/
  | cpy (a : Nat) (cm : Compl) (g : Nat)
  /-- CPYM (R291) -/
  | cpym (a g m : Nat)
  /-- GATH (R293) -/
  | gath (a : Nat) (cm : Compl) (g : Nat)
  /-- SCAT (R293) -/
  | scat (a : Nat) (cm : Compl) (g : Nat)
  /-- MCAST (R292) -/
  | mcast (a : Nat) (cm : Compl) (g : Nat)
  /-- MMAC (R298) -/
  | mmac (a : Nat)
  /-- MZRO (R301) -/
  | mzro (a : Nat)
  /-- MACC (R301) -/
  | macc (a : Nat)
  /-- MFNC (R296) -/
  | mfnc (d : Nat)
  /-- MWAIT (R297) -/
  | mwait (n : Nat)
  /-- MWAIT_R (R297) -/
  | mwaitR (b : Nat)
  /-- MSND (R304) -/
  | msnd (d a : Nat) (cm : Compl)
  /-- MPST (R305) -/
  | mpst (d a : Nat) (cm : Compl)
  /-- MPRB (R307) -/
  | mprb (d a : Nat)
  /-- RCFNC (R309) -/
  | rcfnc
  /-- BDECL (R231) -/
  | bdecl (d a : Nat) (off : Int)
  /-- BENTER (R235) -/
  | benter (a : Nat)
  /-- BENTER_YIELD (R235) -/
  | benterYield (a : Nat) (off : Int)
  /-- BLEAVE (R242) -/
  | bleave
  /-- BQRY (R243) -/
  | bqry (d a : Nat)
  /-- BFREE (R244) -/
  | bfree (d a : Nat)
  /-- BAR (R321) -/
  | bar (block : Bool) (n : Nat)
  /-- BARP (R325) -/
  | barp (a off : Nat)
  /-- BARA (R325) -/
  | bara (a off : Nat)
  /-- BARW (R326) -/
  | barw (d a off : Nat)
  /-- EVSET (R328) -/
  | evset (n : Nat)
  /-- EVCLR (R328) -/
  | evclr (n : Nat)
  /-- EVWAIT (R328) -/
  | evwait (n : Nat)
  /-- LAUNCH (R332) -/
  | launch (d a : Nat) (off : Int)
  /-- TSIG (R333) -/
  | tsig (id : Nat)
  /-- JRAISE (R335) -/
  | jraise (d a : Nat) (off : Int)
  /-- JDONE (R335) -/
  | jdone (a : Nat) (off : Int)
  /-- YIELD (R336) -/
  | yield
  /-- SLEEPNS (R338) -/
  | sleepns (a : Nat)
  /-- WAITNS (R338) -/
  | waitns (a : Nat)
  /-- PPT (R357) -/
  | ppt (m : Nat)
  /-- SRDS (R137) -/
  | srds (d r : Nat)
  /-- SWRS (R137) -/
  | swrs (r b : Nat)
  /-- TRAP (R140) -/
  | trap (imm : Nat)
  /-- TRET (R142) -/
  | tret
  /-- BKPT (R140) -/
  | bkpt
  /-- EXIT (R143) -/
  | exit
  -- lane stream (R145 to R203, R252 to R276, R302)
  /-- NOP (R172) -/
  | nop (h : Hdr)
  /-- IADD (R150) -/
  | iadd (h : Hdr) (t : ITy) (sat nf : Bool) (a b c : Opnd)
  /-- ISUB (R150) -/
  | isub (h : Hdr) (t : ITy) (sat nf : Bool) (a b c : Opnd)
  /-- IMUL (R150) -/
  | imul (h : Hdr) (t : ITy) (sat nf : Bool) (a b c : Opnd)
  /-- IMULH (R150) -/
  | imulh (h : Hdr) (t : ITy) (a b c : Opnd)
  /-- IMAD (R150) -/
  | imad (h : Hdr) (t : ITy) (sat nf : Bool) (a b c d : Opnd)
  /-- IMIN (R150) -/
  | imin (h : Hdr) (t : ITy) (a b c : Opnd)
  /-- IMAX (R150) -/
  | imax (h : Hdr) (t : ITy) (a b c : Opnd)
  /-- IABS (R150) -/
  | iabs (h : Hdr) (t : ITy) (sat nf : Bool) (a b : Opnd)
  /-- INEG (R150) -/
  | ineg (h : Hdr) (t : ITy) (sat nf : Bool) (a b : Opnd)
  /-- IDOT4 (R151) -/
  | idot4 (h : Hdr) (bs cs sat nf : Bool) (a b c d : Opnd)
  /-- AND (R152) -/
  | and (h : Hdr) (t : ITy) (a b c : Opnd)
  /-- OR (R152) -/
  | or (h : Hdr) (t : ITy) (a b c : Opnd)
  /-- XOR (R152) -/
  | xor (h : Hdr) (t : ITy) (a b c : Opnd)
  /-- NOT (R152) -/
  | not (h : Hdr) (t : ITy) (a b : Opnd)
  /-- SHL (R152) -/
  | shl (h : Hdr) (t : ITy) (a b c : Opnd)
  /-- SHR (R152) -/
  | shr (h : Hdr) (t : ITy) (a b c : Opnd)
  /-- SHA (R152) -/
  | sha (h : Hdr) (t : ITy) (a b c : Opnd)
  /-- ROT (R152) -/
  | rot (h : Hdr) (t : ITy) (a b c : Opnd)
  /-- BFX (R153) -/
  | bfx (h : Hdr) (t : ITy) (a b c d : Opnd)
  /-- BFI (R153) -/
  | bfi (h : Hdr) (t : ITy) (a b c d e : Opnd)
  /-- POPC (R152) -/
  | popc (h : Hdr) (t : ITy) (a b : Opnd)
  /-- CLZ (R152) -/
  | clz (h : Hdr) (t : ITy) (a b : Opnd)
  /-- BREV (R152) -/
  | brev (h : Hdr) (t : ITy) (a b : Opnd)
  /-- LEA (R154) -/
  | lea (h : Hdr) (t : ITy) (a b c d : Opnd)
  /-- ICMP (R155) -/
  | icmp (h : Hdr) (t : ITy) (cc : Nat) (a b c : Opnd)
  /-- FADD (R157) -/
  | fadd (h : Hdr) (t : FTy) (r : Rnd) (sat : Sat) (nf : Bool) (a b c : Opnd)
  /-- FSUB (R157) -/
  | fsub (h : Hdr) (t : FTy) (r : Rnd) (sat : Sat) (nf : Bool) (a b c : Opnd)
  /-- FMUL (R157) -/
  | fmul (h : Hdr) (t : FTy) (r : Rnd) (sat : Sat) (nf : Bool) (a b c : Opnd)
  /-- FFMA (R157) -/
  | ffma (h : Hdr) (t : FTy) (r : Rnd) (sat : Sat) (nf : Bool) (a b c d : Opnd)
  /-- FMIN (R160) -/
  | fmin (h : Hdr) (t : FTy) (nf : Bool) (a b c : Opnd)
  /-- FMAX (R160) -/
  | fmax (h : Hdr) (t : FTy) (nf : Bool) (a b c : Opnd)
  /-- FRCP (R158) -/
  | frcp (h : Hdr) (t : FTy) (r : Rnd) (sat : Sat) (nf : Bool) (a b : Opnd)
  /-- FRSQ (R158) -/
  | frsq (h : Hdr) (t : FTy) (r : Rnd) (sat : Sat) (nf : Bool) (a b : Opnd)
  /-- FSQRT (R158) -/
  | fsqrt (h : Hdr) (t : FTy) (r : Rnd) (sat : Sat) (nf : Bool) (a b : Opnd)
  /-- FEXP2 (R158) -/
  | fexp2 (h : Hdr) (t : FTy) (r : Rnd) (sat : Sat) (nf : Bool) (a b : Opnd)
  /-- FLOG2 (R158) -/
  | flog2 (h : Hdr) (t : FTy) (r : Rnd) (sat : Sat) (nf : Bool) (a b : Opnd)
  /-- FSIN (R158) -/
  | fsin (h : Hdr) (t : FTy) (r : Rnd) (sat : Sat) (nf : Bool) (a b : Opnd)
  /-- FCOS (R158) -/
  | fcos (h : Hdr) (t : FTy) (r : Rnd) (sat : Sat) (nf : Bool) (a b : Opnd)
  /-- FTANH (R158) -/
  | ftanh (h : Hdr) (t : FTy) (r : Rnd) (sat : Sat) (nf : Bool) (a b : Opnd)
  /-- FRND (R159) -/
  | frnd (h : Hdr) (t : FTy) (r : Rnd) (sat : Sat) (nf : Bool) (a b : Opnd)
  /-- FSCL (R157) -/
  | fscl (h : Hdr) (t : FTy) (r : Rnd) (sat : Sat) (nf : Bool) (a b c : Opnd)
  /-- FCLS (R161) -/
  | fcls (h : Hdr) (t : FTy) (a b : Opnd)
  /-- FCMP (R162) -/
  | fcmp (h : Hdr) (nf : Bool) (cc : Nat) (a b c : Opnd)
  /-- FDOT2 (R157) -/
  | fdot2 (h : Hdr) (t : FTy) (r : Rnd) (sat : Sat) (nf : Bool) (a b c d : Opnd)
  /-- CVT (R163) -/
  | cvt (h : Hdr) (dt st : Ty) (r : Rnd) (sat : Sat) (nf : Bool) (a b : Opnd)
  /-- MXQ (R164) -/
  | mxq (h : Hdr) (f : MxFmt) (t : FTy) (nf : Bool) (a b : Opnd)
  /-- MXD (R165) -/
  | mxd (h : Hdr) (f : MxFmt) (t : FTy) (nf : Bool) (a b : Opnd)
  /-- MOV (R166) -/
  | mov (h : Hdr) (w : MTy) (a b : Opnd)
  /-- SEL (R166) -/
  | sel (h : Hdr) (w : MTy) (a b c d : Opnd)
  /-- SHFL (R166) -/
  | shfl (h : Hdr) (w : MTy) (a b c : Opnd)
  /-- SHFLX (R166) -/
  | shflx (h : Hdr) (w : MTy) (a b c : Opnd)
  /-- BCST (R166) -/
  | bcst (h : Hdr) (w : MTy) (a b c : Opnd)
  /-- VOTE (R167) -/
  | vote (h : Hdr) (op : Nat) (a b : Opnd)
  /-- REDL (R168) -/
  | redl (h : Hdr) (t : Ty) (op : Nat) (r : Rnd) (sat : Sat) (nf : Bool) (a b : Opnd)
  /-- SCNL (R168) -/
  | scnl (h : Hdr) (t : Ty) (op : Nat) (excl : Bool) (r : Rnd) (sat : Sat) (nf : Bool) (a b : Opnd)
  /-- GTRN (R169) -/
  | gtrn (h : Hdr) (w : MTy) (a b : Opnd)
  /-- PLOP (R170) -/
  | plop (h : Hdr) (tt : Nat) (a b c : Opnd)
  /-- PMOV (R171) -/
  | pmov (h : Hdr) (frommask : Bool) (a b : Opnd)
  /-- LD (R178) -/
  | ld (h : Hdr) (w : MTy) (sx : Bool) (o : MOrd) (sc : Scope) (prom : Bool) (ch : Hint) (a b : Opnd) (off : Int)
  /-- ST (R180) -/
  | st (h : Hdr) (w : MTy) (o : MOrd) (sc : Scope) (ch : Hint) (seq : Bool) (a b c : Opnd) (off : Int)
  /-- PFX (R184) -/
  | pfx (h : Hdr) (sc : Scope) (ch : Hint) (b : Opnd) (off : Int)
  /-- FENCE (R185) -/
  | fence (h : Hdr) (o : MOrd) (sc : Scope) (prom : Bool)
  /-- ATOM (R187) -/
  | atom (h : Hdr) (op : AOp) (t : ATy) (o : MOrd) (sc : Scope) (prom : Bool) (ch : Hint) (seq : Bool) (a b c : Opnd)
  /-- ACAS (R188) -/
  | acas (h : Hdr) (t : ATy) (o : MOrd) (sc : Scope) (prom : Bool) (ch : Hint) (seq : Bool) (a b c d : Opnd)
  /-- ARED (R189) -/
  | ared (h : Hdr) (op : AOp) (t : ATy) (o : MOrd) (sc : Scope) (ch : Hint) (seq : Bool) (a b c : Opnd)
  /-- BRL (R34) -/
  | brl (h : Hdr) (toff joff : Int)
  /-- JOIN (R35) -/
  | join (sw rg : Bool)
  /-- LEND (R31) -/
  | lend (sw rg : Bool)
  /-- LCALL (R195) -/
  | lcall (h : Hdr) (toff : Int)
  /-- LRET (R196) -/
  | lret (h : Hdr)
  /-- LEXIT (R36) -/
  | lexit (h : Hdr)
  /-- GBEG (R255) -/
  | gbeg (sw rg : Bool) (vw tn : Nat) (poff coff : Int)
  /-- GYLD (R256) -/
  | gyld (h : Hdr) (b : Opnd)
  /-- GNXT (R257) -/
  | gnxt (h : Hdr)
  /-- GDNE (R258) -/
  | gdne (h : Hdr)
  /-- GRCV (R260) -/
  | grcv (h : Hdr) (a : Opnd)
  /-- GRET (R261) -/
  | gret (sw rg : Bool)
  /-- GEND (R263) -/
  | gend (sw rg : Bool)
  /-- WAINI (R269) -/
  | waini (h : Hdr) (op flt : Nat) (a b c : Opnd)
  /-- WAPSH (R271) -/
  | wapsh (h : Hdr) (a b c : Opnd)
  /-- WAQRY (R271) -/
  | waqry (h : Hdr) (a b c : Opnd)
  /-- WAEXP (R271) -/
  | waexp (h : Hdr) (a b : Opnd)
  /-- WAWLN (R271) -/
  | wawln (h : Hdr) (a b : Opnd)
  /-- WARST (R271) -/
  | warst (h : Hdr) (a : Opnd)
  /-- AMOVR (R302) -/
  | amovr (h : Hdr) (w : MTy) (a b c d : Opnd)
  /-- AMOVW (R302) -/
  | amovw (h : Hdr) (w : MTy) (a b c d : Opnd)
  /-- LTRAP (R198) -/
  | ltrap (h : Hdr) (code : Nat)
  /-- LBKPT (R198) -/
  | lbkpt (h : Hdr)
  /-- LRDS (R199) -/
  | lrds (h : Hdr) (w64 : Bool) (a b : Opnd)
  /-- LWRS (R199) -/
  | lwrs (h : Hdr) (a b : Opnd)
  -- steps of the device's units
  /-- LANE_BLOCK_START (R31) -/
  | laneBlockStart (g : Nat)
  /-- LOAD_VALUE_ARRIVAL (R178) -/
  | loadValueArrival (a : Nat) (fromL1 : Bool)
  /-- CORE_ACKNOWLEDGEMENT (R208) -/
  | coreAcknowledgement (a : Nat)
  /-- HOME_ACKNOWLEDGEMENT (R181) -/
  | homeAcknowledgement (a : Nat)
  /-- SLICE_WRITE_PERFORM (R212) -/
  | sliceWritePerform (a : Nat)
  /-- SLICE_READ_ACCEPT (R316) -/
  | sliceReadAccept (a : Nat)
  /-- LINE_DATA_LEAVE (R316) -/
  | lineDataLeave (line : Nat)
  /-- PROMOTION_DRAIN_REQUEST (R219) -/
  | promotionDrainRequest (d core : Nat)
  /-- PROMOTION_DRAIN_REPORT (R219) -/
  | promotionDrainReport (d core : Nat)
  /-- GEN_SWITCH_TO_CONSUMER (R259) -/
  | genSwitchToConsumer (g : Nat)
  /-- GEN_RETURN_TO_PRODUCER (R261) -/
  | genReturnToProducer (g : Nat)
  /-- GEN_DRAIN (R262) -/
  | genDrain (g : Nat)
  /-- RATCHET_PERFORM (R272) -/
  | ratchetPerform (core k : Nat)
  /-- BUNDLE_LEAVE_HANDLE (R237) -/
  | bundleLeaveHandle (p : Nat)
  /-- BUNDLE_ADMISSION_TEST (R238) -/
  | bundleAdmissionTest (p : Nat)
  /-- BUNDLE_EVICT_COMPLETE (R239) -/
  | bundleEvictComplete (id : Nat)
  /-- BUNDLE_FILL_COMPLETE (R240) -/
  | bundleFillComplete (g : Nat)
  /-- HOLD_LIMIT_EXPIRY (R245) -/
  | holdLimitExpiry (g : Nat)
  /-- HOLD_LIMIT_TRAP (R245) -/
  | holdLimitTrap (g : Nat)
  /-- ENGINE_COMMAND_START (R288) -/
  | engineCommandStart (c : Nat)
  /-- ENGINE_COMMAND_COMPLETE (R285) -/
  | engineCommandComplete (c : Nat)
  /-- ENGINE_FAULT (R286) -/
  | engineFault (c k : Nat)
  /-- CPYM_FOLLOW_ON_HANDOFF (R291) -/
  | cpymFollowOnHandoff (c : Nat)
  /-- SEGMENT_SUBRECORD_READ (R300) -/
  | segmentSubrecordRead (c seg : Nat)
  /-- BATCH_COMPLETE (R295) -/
  | batchComplete (g : Nat)
  /-- RECORD_CACHE_EVICT (R308) -/
  | recordCacheEvict (cluster k : Nat)
  /-- MESSAGE_ARRIVAL (R306) -/
  | messageArrival (c : Nat)
  /-- BYTE_BARRIER_ARRIVE (R324) -/
  | byteBarrierArrive (k : Nat)
  /-- BARRIER_RELEASE_WAVE (R322) -/
  | barrierReleaseWave (cluster k : Nat)
  /-- EVENT_VECTOR_UPDATE (R329) -/
  | eventVectorUpdate (ctx : Nat)
  /-- TASK_DECREMENT (R333) -/
  | taskDecrement (k : Nat)
  /-- TIMED_WAIT_EXPIRY (R338) -/
  | timedWaitExpiry (g : Nat)
  /-- ACLOCK_CHANGE (R339) -/
  | aclockChange (pair setting : Nat)
  /-- DISPATCH (R345) -/
  | dispatch
  /-- BLOCK_PLACE (R346) -/
  | blockPlace (l : Nat)
  /-- BALANCE_ACTION (R348) -/
  | balanceAction (pair kind : Nat)
  /-- QUANTUM_EXPIRY (R349) -/
  | quantumExpiry (cluster ctx : Nat)
  /-- PREEMPTION_BEGIN (R349) -/
  | preemptionBegin (cluster ctx : Nat)
  /-- DRAIN_DEADLINE_EXPIRY (R353) -/
  | drainDeadlineExpiry (cluster : Nat)
  /-- GROUP_SAVE (R354) -/
  | groupSave (g : Nat)
  /-- BLOCK_RESUME (R358) -/
  | blockResume (k : Nat)
  /-- CLUSTER_CONTEXT_SWITCH (R359) -/
  | clusterContextSwitch (cluster ctx : Nat)
  /-- CONTEXT_TEARDOWN (R360) -/
  | contextTeardown (ctx : Nat)
  /-- CORE_GATE (R378) -/
  | coreGate (core : Nat)
  /-- INRUSH_STEP (R378) -/
  | inrushStep (sector : Nat)
  /-- TOKEN_INTERVAL (R376) -/
  | tokenInterval
  /-- LEASE_REQUEST (R377) -/
  | leaseRequest (ctx value : Nat)
  /-- LEASE_EXPIRY (R377) -/
  | leaseExpiry (ctx : Nat)
  /-- TAIL_DOORBELL (R341) -/
  | tailDoorbell (ctx q tail : Nat)
  /-- QUEUE_DESCRIPTOR_WRITE (R341) -/
  | queueDescriptorWrite (ctx q value : Nat)
  /-- HOSTDB (R363) -/
  | hostdb (ctx : Nat)
  /-- CTXERR_CLEAR (R365) -/
  | ctxerrClear (ctx : Nat)
  /-- TLBINV (R387) -/
  | tlbinv (ctx value : Nat)
  /-- TLBINV_COMPLETE (R387) -/
  | tlbinvComplete (ctx : Nat)
  /-- CWMASK_WRITE (R375) -/
  | cwmaskWrite (core p value : Nat)
  /-- CWMASK_APPLY (R375) -/
  | cwmaskApply (core p : Nat)
  /-- HISTOGRAM_CLEAR (R380) -/
  | histogramClear (core q : Nat)
  /-- SETOWN (R369) -/
  | setown (fn : Nat)
  /-- SETMEM (R368) -/
  | setmem (fn : Nat)
  /-- SETPART (R367) -/
  | setpart (fn : Nat)
  /-- SETCTX (R367) -/
  | setctx (fn : Nat)
  /-- SETSLEW (R322) -/
  | setslew (fn : Nat)
  /-- PROFGRANT (R379) -/
  | profgrant (fn : Nat)
  /-- ATTEST (R383) -/
  | attest (fn : Nat)
  /-- SETPEER (R389) -/
  | setpeer (fn : Nat)
  /-- SETWIN (R389) -/
  | setwin (fn : Nat)
  /-- MBCMD_UNKNOWN (R367) -/
  | mbcmdUnknown (fn : Nat)
  /-- CLASS_WAY_WRITEBACK (R373) -/
  | classWayWriteback (p c : Nat)
  /-- PEER_ACCESS_INBOUND (R389) -/
  | peerAccessInbound (link addr : Nat) (op : ExtOp) (data : List Byte)
  /-- LINK_FLIT_RETRY (R388) -/
  | linkFlitRetry (link : Nat)
  /-- THERMAL_THROTTLE (R390) -/
  | thermalThrottle (temp : Nat)
  /-- THERMAL_RECOVER (R390) -/
  | thermalRecover (temp : Nat)
  /-- RESET_RELEASE (R390) -/
  | resetRelease
  /-- BOOT_VERIFY (R382) -/
  | bootVerify (anvilOk serviceOk : Bool)
  /-- REGISTER_WRITE (R14): of `size` bytes, 4 or 8 -/
  | registerWrite (fn off size value : Nat)
  /-- HOST_BAR2_ACCESS (R384) -/
  | hostBar2Access (fn addr : Nat) (op : ExtOp) (data : List Byte)
  /-- LINK_TRAINED (R388) -/
  | linkTrained (link : Nat)
  /-- LINK_DOWN (R388) -/
  | linkDown (link : Nat)
  /-- POWER_DOWN (R390) -/
  | powerDown
  /-- SUPPLY_DROOP (R381) -/
  | supplyDroop (pair : Nat)
  deriving DecidableEq, Repr

end Sys2Proof
end

