-- ==== Sys2Proof/Config.lean ====
section
/-! DEFINITION. What is fixed for one device: the counts of its units (R1, R7), and the free values that the manual
leaves open. A free value is an opaque constant with no body, applied to a counter of the state or to the operands it
depends on, so nothing can be proved about which value it is (log 5). -/
namespace Sys2Proof

/-- One choice of which agent moves next, or one input from outside (log 1). A turn that names something that cannot
move leaves the machine as it is. -/
inductive Turn where
  /-- nothing moves -/
  | idle
  /-- the scalar stream of group g -/
  | scalar (g : Nat)
  /-- the gang of group g that holds strand st -/
  | lane (g st : Nat)
  /-- a step of a unit -/
  | event (e : Instr)
  /-- device time runs on by ns nanoseconds (R337) -/
  | elapse (ns : Nat)
  /-- the k-th pending result of group g lands (R39, R40) -/
  | land (g k : Nat)
  /-- command c performs the k-th of the accesses it has left (R285) -/
  | work (c k : Nat)
  /-- the k-th line of the L1 ways and scalar data caches is evicted (R210) -/
  | evictL1 (k : Nat)
  /-- the k-th line of the L2 is evicted, written back if dirty (R8, R212) -/
  | evictL2 (k : Nat)
  /-- the k-th TLB entry is dropped (R387) -/
  | evictTlb (k : Nat)
  /-- core keeps for a launch the code word at physical address pa as it stands now (R76) -/
  | keepCode (core launch pa : Nat)
  /-- the k-th kept code word is dropped (R76) -/
  | dropCode (k : Nat)
  /-- the host stores bytes into its own memory (R204) -/
  | hostStore (addr : Nat) (data : List Byte)
  /-- a peer device stores bytes into its own memory (R204) -/
  | peerStore (addr : Nat) (data : List Byte)
  /-- the data of an 8-byte part of device memory (space 0) or of a core's SRAM (space 16 + core) gains or loses an
  uncorrectable error (R174, R381) -/
  | dataError (space part : Nat) (on : Bool)
  /-- a hardware counter counts on: power-on hours, temperature (R381) -/
  | count (which n : Nat)
  /-- an ECC error of the HBM word at a physical address is corrected (R381) -/
  | corrected (pa : Nat)
  /-- the estimate of a cluster's current over the latest 1 µs becomes n (R348); how activity makes current is not given -/
  | load (cluster n : Nat)
  /-- an A-clock of a core: its count runs on (R138), and the histogram of quadrant i counts the A-clock with the i-th number of
  eligible gangs, stalled for the i-th reason when there is none (R380) -/
  | aclock (core : Nat) (quads : List (Nat × Nat))
  /-- a partition spends n tokens (R376); the energy of an operation is not given -/
  | spend (p n : Nat)
  /-- the pool serves the partitions that have run short (R377) -/
  | draw
  /-- the host changes VF Enable of the endpoint (R365) -/
  | sriov (on : Bool) (vfs : Nat)
  /-- the host sizes BAR2 to 2^n bytes, through its Resizable BAR capability (R384) -/
  | resize (n : Nat)
  /-- the next rail of the power-up order is good (R390) -/
  | rail
  deriving DecidableEq, Repr, Inhabited

namespace Config

/-- Dies of the device (R1). -/
def dies : Nat := 2
/-- HBM4 stacks of the device (R1). -/
def hbmStacks : Nat := 8
/-- Sectors of the device (R1). -/
def sectors : Nat := 6
/-- Cores of the device (R1). -/
def cores : Nat := 432
/-- Clusters of the device (R1). -/
def clusters : Nat := 72
/-- Cluster pairs of the device (R1). -/
def pairs : Nat := 36
/-- L2 slices of the device (R1). -/
def slices : Nat := 96
/-- Regions of 256 MiB of device HBM (R368). -/
def regions : Nat := 2048
/-- Partitions (R363). -/
def partitions : Nat := 16
/-- Contexts (R363). -/
def contexts : Nat := 256

/-- Which agent moves when the agenda names none, by the number of turns taken so (log 1). -/
opaque freeTurn : Nat → Turn
/-- An open 32-bit value. -/
opaque freeWord : Nat → BitVec 32
/-- An open bit. -/
opaque freeBit : Nat → Bool
/-- An open choice among several outcomes. -/
opaque freeNat : Nat → Nat
/-- An open byte. -/
opaque freeByte : Nat → BitVec 8
/-- Where the bytes of device HBM lie: 2^36 of them in each stack, stack after stack (R8). The manual gives no map, so any
arrangement of them may be the machine's. -/
opaque hbmPlace : Equiv.Perm (Fin (2 ^ 39))
/-- The channel of its stack that holds a physical address: the manual gives no map. -/
opaque hbmChannel : Nat → Nat
/-- Byte i of the digest of a configuration that is written out as a list of numbers: the manual does not say how the digest is
made, only of what (R383). -/
opaque freeDigest : List Nat → Nat → BitVec 8
/-- The value of a correctly rounded function where the enclosure of the model does not decide the rounding (log 6):
the function's number, its operand, its destination format. Number 16 stands for the words above the first of a 32-bit
operand that is read under a wider type: the operand, the word (log 8). Number 17 stands for an entry of the constant pool
that cannot be read (log 14). -/
opaque freeFunction : Nat → Nat → Nat → Nat

end Config

end Sys2Proof
end

