-- ==== Sys2Proof/Machine/Checks.lean ====
section
/-! DEFINITION. The decode checks of R98 that look at the instruction alone: `Instr.fieldsOk` is checks 3 and 4 (a
failure is trap 0x01), `Instr.regsOk` the part of check 5 that needs no allocation (a failure is trap 0x02). What needs
the group (privilege, allocation, section bounds) is checked when the instruction executes. -/
namespace Sys2Proof

/-- Does an integer type hold 64-bit elements (R49)? -/
def ITy.is64 : ITy → Bool
  | .i64 | .n64 => true
  | _ => false

/-- Element width of an integer type (R84). -/
def ITy.width : ITy → Nat
  | .i32 | .n32 => 32
  | .i64 | .n64 => 64
  | .i16x2 | .n16x2 => 16
  | .i8x4 | .n8x4 => 8

/-- Is the type signed (R48)? -/
def ITy.signed : ITy → Bool
  | .i32 | .i64 | .i16x2 | .i8x4 => true
  | _ => false

/-- Is the type one of .i32 .n32 .i64 .n64? -/
def ITy.unpacked : ITy → Bool
  | .i32 | .n32 | .i64 | .n64 => true
  | _ => false

/-- Element width of a float type (R47). -/
def FTy.width : FTy → Nat
  | .f32 => 32
  | .f16x2 | .bf16x2 => 16
  | .e4m3x4 | .e5m2x4 => 8

/-- Is the type one of .f32 .f16x2 .bf16x2 (R156, R168)? -/
def FTy.wide : FTy → Bool
  | .f32 | .f16x2 | .bf16x2 => true
  | _ => false

/-- Element width of a type of either column. -/
def Ty.width : Ty → Nat
  | .int t => t.width
  | .flt t => t.width

/-- Registers that an operand of a memory width spans (R81). -/
def MTy.regs : MTy → Nat
  | .b8 | .b16 | .b32 => 1
  | .b64 => 2
  | .b128 => 4
  | .b256 => 8

/-- Bytes of a memory width (R173). -/
def MTy.bytes : MTy → Nat
  | .b8 => 1
  | .b16 => 2
  | .b32 => 4
  | .b64 => 8
  | .b128 => 16
  | .b256 => 32

/-- Does the memory width move one 32-bit register or more whole registers (R166)? -/
def MTy.whole : MTy → Bool
  | .b8 | .b16 => false
  | _ => true

/-- Is an atomic type 64 bits wide (R186)? -/
def ATy.is64 : ATy → Bool
  | .i64 | .n64 => true
  | _ => false

/-- Is an atomic type an integer type (R186)? -/
def ATy.isInt : ATy → Bool
  | .f32 | .bf16x2 => false
  | _ => true

/-- Has the magnitude n at most b significant bits, so that it is exact with b bits of significand (R80)? -/
def sigFits (b n : Nat) : Bool :=
  [0, 1, 2, 3, 4, 5].any fun k => decide (n % 2 ^ k = 0) && decide (n / 2 ^ k < 2 ^ b)

/-- Is the immediate exact in the element format (R80)? -/
def FTy.immExact (t : FTy) (i : Int) : Bool :=
  match t with
  | .f32 | .f16x2 | .bf16x2 => true
  | .e4m3x4 => sigFits 4 i.natAbs
  | .e5m2x4 => sigFits 3 i.natAbs

/-- Is the code one of R79's, with a number in its range? Special registers 0x1C to 0x1F are reserved. -/
def Opnd.inRange : Opnd → Bool
  | .v n => decide (n < 512)
  | .s n => decide (n < 1024)
  | .c n => decide (n < 256)
  | .sp n => decide (n < 28)
  | .k n | .p n | .a n | .wa n => decide (n < 8)
  | .imm i => decide (-63 ≤ i) && decide (i ≤ 63)
  | .none => true

/-- Is the operand an immediate? -/
def Opnd.isImm : Opnd → Bool
  | .imm _ => true
  | _ => false

/-- Is the operand absent (0x7FF)? -/
def Opnd.isNone : Opnd → Bool
  | .none => true
  | _ => false

/-- A vector register. -/
def Opnd.isV : Opnd → Bool
  | .v _ => true
  | _ => false

/-- A predicate code. -/
def Opnd.isP : Opnd → Bool
  | .p _ => true
  | _ => false

/-- A tile that exists (a4 to a7 are reserved: trap 0x02, R79). -/
def Opnd.isTile : Opnd → Bool
  | .a n => decide (n < 4)
  | _ => false

/-- A window handle. -/
def Opnd.isHandle : Opnd → Bool
  | .wa _ => true
  | _ => false

/-- A uniform operand: s, c, k, a special register or an immediate (R166, R269). -/
def Opnd.isUniform : Opnd → Bool
  | .s _ | .c _ | .k _ | .sp _ | .imm _ => true
  | _ => false

/-- An ordinary source: anything but a tile or a handle (R79). -/
def Opnd.isSrc : Opnd → Bool
  | .a _ | .wa _ => false
  | _ => true

/-- Is the register number of a v, s or c operand a multiple of n (R81)? Other operands have no number to align. -/
def Opnd.aligned (n : Nat) : Opnd → Bool
  | .v r | .s r | .c r => decide (r % n = 0)
  | _ => true

/-- A source that spans n registers. -/
def Opnd.srcSpan (n : Nat) (o : Opnd) : Bool := o.isSrc && o.aligned n

/-- A special register that a lane instruction may write: %exec, %flg, %rmode, %lfsr (R82). -/
def Opnd.isSpDst : Opnd → Bool
  | .sp n => n == 8 || n == 9 || n == 10 || n == 19
  | _ => false

/-- A destination of n registers: a vector span, or for a 32-bit result also a writable special register (R82). -/
def Opnd.dst (n : Nat) (o : Opnd) : Bool :=
  match o with
  | .v r => decide (r % n = 0)
  | .sp _ => decide (n = 1) && o.isSpDst
  | _ => false

/-- A destination that must be a vector span of n registers. -/
def Opnd.dstV (n : Nat) (o : Opnd) : Bool :=
  match o with
  | .v r => decide (r % n = 0)
  | _ => false

/-- The base of a lane memory access: an even vector, scalar or constant register (R173). -/
def Opnd.isBase : Opnd → Bool
  | .v r | .s r | .c r => decide (r % 2 = 0)
  | _ => false

/-- Registers of an operand of an integer type. -/
def ITy.regs (t : ITy) : Nat := if t.is64 then 2 else 1

/-- Registers of an operand of an atomic type. -/
def ATy.regs (t : ATy) : Nat := if t.is64 then 2 else 1

/-- Is the guard field pair in range (R77)? -/
def Hdr.ok (h : Hdr) : Bool := decide (h.gp < 16) && decide (h.gq < 16)

/-- The immediate of a float operand is exact (R80). -/
def Opnd.immFits (t : FTy) : Opnd → Bool
  | .imm i => t.immExact i
  | _ => true

/-- A 22-bit offset pair (R83). -/
def off22 (o : Int) : Bool := decide (-2097152 ≤ o) && decide (o ≤ 2097151)
/-- A signed 32-bit immediate. -/
def off32 (o : Int) : Bool := decide (-2147483648 ≤ o) && decide (o ≤ 2147483647)
/-- A signed 20-bit branch offset (R92). -/
def off20 (o : Int) : Bool := decide (-524288 ≤ o) && decide (o ≤ 524287)
/-- A signed 16-bit branch offset (R133). -/
def off16 (o : Int) : Bool := decide (-32768 ≤ o) && decide (o ≤ 32767)
/-- An 8-bit register field of a scalar format (R92). -/
def r8 (n : Nat) : Bool := decide (n < 256)
/-- An operand block of an engine command starts at a multiple of 8, at most 248 (R97). -/
def blk8 (n : Nat) : Bool := decide (n % 8 = 0) && decide (n ≤ 248)

/-- PROM needs acquire or acquire-release order at scope 4 or 5 (R87). -/
def promOk (o : MOrd) (sc : Scope) (prom : Bool) : Bool :=
  !prom || ((o == .acq || o == .acqrel) && (sc == .dev || sc == .sys))

/-- Loads take plain or acquire order (R88). -/
def MOrd.loadOk (o : MOrd) : Bool := o == .plain || o == .acq
/-- Stores take plain or release order (R88). -/
def MOrd.storeOk (o : MOrd) : Bool := o == .plain || o == .rel

/-- The completion operand fits its field (R285). -/
def Compl.ok : Compl → Bool
  | .none => true
  | .yield o => off32 o
  | .bar o => decide (o < 4294967296) && decide (o % 16 = 0)
  | .task id => decide (id < 4294967296)

/-- The operator, type, rounding and saturation of REDL and SCNL are among R168's. -/
def redOk (t : Ty) (op : Nat) (r : Rnd) (sat : Sat) : Bool :=
  match t with
  | .int it => it.unpacked && decide (op ≤ 5) && (r == .rn) && (sat == .wrap || sat == .clamp)
  | .flt ft => ft.wide && decide (op ≤ 3) && (r != .rs) && (op == 0 || op == 3 || r == .rn)

/-- Element count of one CVT (R163). DESIGN CHOICE (log 86): between a 64-bit and an 8-bit type the formula is followed, so the
wide side has eight registers and is aligned to eight, although R163 says that the counts are 1, 2 or 4. -/
def cvtN (dt st : Ty) : Nat := max 1 (max (32 / st.width) (32 / dt.width))
/-- Registers of the source of a CVT. -/
def cvtSrc (dt st : Ty) : Nat := cvtN dt st * st.width / 32
/-- Registers of the destination of a CVT. -/
def cvtDst (dt st : Ty) : Nat := cvtN dt st * dt.width / 32

/-- RND and SAT of a CVT are legal for its kinds (R60, R163). -/
def cvtModes (dt st : Ty) (r : Rnd) (sat : Sat) : Bool :=
  match dt, st with
  | .int _, .int _ => (r == .rn) && (sat == .wrap || sat == .clamp)
  | .int _, .flt _ => sat == .wrap || sat == .clamp
  | .flt _, _ => true

/-- The immediate of a CVT is exact in its source type. -/
def cvtImm (st : Ty) (b : Opnd) : Bool :=
  match st with
  | .int _ => true
  | .flt t => b.immFits t

/-- The operator and type code of a WAINI (R268, R269); 15 is `.unb`. -/
def wainiOk (op flt : Nat) (b c : Opnd) : Bool :=
  if op = 15 then decide (flt = 0) && b.isNone && c.isNone
  else if op ≤ 2 then decide (flt ≤ 1)
  else if op = 3 then decide (flt = 1)
  else if op ≤ 6 then decide (flt = 0)
  else decide (op ≤ 9) && decide (flt = 1)

/-- An atomic op accepts the type (R186). -/
def aopOk (op : AOp) (t : ATy) : Bool :=
  match op with
  | .and | .or | .xor => t.isInt
  | _ => true

/-- The immediate of an atomic operand needs no check: every immediate is exact in FP32 and BF16 (R80). All operands of
the list are in range and none of the destinations is an immediate. -/
def opsOk (dsts srcs : List Opnd) : Bool :=
  dsts.all (fun o => o.inRange && !o.isImm) && srcs.all Opnd.inRange

/-- Checks 3 and 4 of R98, with the ranges of the fields themselves. -/
def Instr.fieldsOk : Instr → Bool
  | .snop | .sret | .lwait | .rcfnc | .bleave | .yield | .tret | .bkpt | .exit => true
  | .sadd d a b | .ssub d a b | .smul d a b | .smulh d a b | .smulhn d a b | .sand d a b | .sor d a b | .sxor d a b
  | .sshl d a b | .sshr d a b | .ssha d a b | .smin d a b | .smax d a b | .sminn d a b | .smaxn d a b
  | .sadd64 d a b | .ssub64 d a b => r8 d && r8 a && r8 b
  | .smvxf d a off | .smvxt d a off => r8 d && r8 a && r8 off
  | .saddi d i | .smovi d i | .slui d i | .sandi d i | .sori d i => r8 d && decide (i < 65536)
  | .sshli d a n | .sshri d a n | .sshai d a n => r8 d && r8 a && decide (n < 32)
  | .smov d a | .spopc d a | .sclz d a => r8 d && r8 a
  | .sbfx d a _ pos len => r8 d && r8 a && decide (1 ≤ len) && decide (pos < 32) && decide (pos + len ≤ 32)
  | .scmp cc q a b => decide (cc < 12) && decide (q < 8) && r8 a && r8 b
  | .scmpi cc q a i => decide (cc < 12) && decide (q < 8) && r8 a && decide (i < 256)
  | .ssel d a c src => r8 d && r8 a && decide (c < 16) &&
      (match src with | .reg n => r8 n | .imm w => decide (w < 4294967296))
  | .qlop t d a b => decide (t < 16) && decide (d < 8) && decide (a < 8) && decide (b < 8)
  | .sldi d _ i => r8 d && decide (i < 4294967296)
  | .sld d a _ o sc prom off => r8 d && r8 a && o.loadOk && promOk o sc prom && off32 off
  | .sld64 d a o sc prom off => r8 d && r8 a && o.loadOk && promOk o sc prom && off32 off
  | .sst d a _ o _ off => r8 d && r8 a && o.storeOk && off32 off
  | .sst64 d a o _ off => r8 d && r8 a && o.storeOk && off32 off
  | .satom d a _ o sc prom off => r8 d && r8 a && promOk o sc prom && off32 off
  | .scas d a o sc prom off => r8 d && r8 a && promOk o sc prom && off32 off
  | .spfxPf d a _ off | .spfxWb d a off | .spfxInv d a off => r8 d && r8 a && off32 off
  | .sfnc o sc prom => (o != .plain) && promOk o sc prom
  | .sbr c off | .scall c off => decide (c < 16) && off20 off
  | .sjmpr a => r8 a
  | .sloop d off => r8 d && off16 off
  | .lgo a n start | .lgot a n start => r8 a && decide (n ≤ 8) && decide (start < 4294967296)
  | .cpy a cm g | .gath a cm g | .scat a cm g | .mcast a cm g => blk8 a && cm.ok && decide (g < 12)
  | .cpym a g m => blk8 a && decide (g < 12) && blk8 m
  | .mmac a | .mzro a | .macc a => blk8 a
  | .mfnc d => r8 d
  | .mwait n => decide (n < 65536)
  | .mwaitR b => r8 b
  | .msnd d a cm | .mpst d a cm => r8 d && blk8 a && cm.ok
  | .mprb d a => r8 d && blk8 a
  | .bdecl d a off => r8 d && r8 a && off32 off
  | .benter a => blk8 a
  | .benterYield a off => blk8 a && off32 off
  | .bqry d a | .bfree d a => r8 d && r8 a
  | .bar _ n => decide (n < 16)
  | .barp a off | .bara a off => r8 a && decide (off < 4294967296) && decide (off % 16 = 0)
  | .barw d a off => r8 d && r8 a && decide (off < 4294967296) && decide (off % 16 = 0)
  | .evset n => decide (n < 248)
  | .evclr n | .evwait n => decide (n < 256)
  | .launch d a off => r8 d && r8 a && off32 off
  | .tsig id => decide (id < 1024)
  | .jraise d a off => r8 d && r8 a && off32 off
  | .jdone a off => r8 a && off32 off
  | .sleepns a | .waitns a => r8 a
  | .ppt m => decide (m < 16)
  | .srds d r => r8 d && decide (r < 32)
  | .swrs r b => r8 b && decide (r < 32)
  | .trap i => decide (i < 65536)
  -- lane stream
  | .nop h | .lret h | .lexit h | .gnxt h | .gdne h | .lbkpt h => h.ok
  | .iadd h _ _ _ a b c | .isub h _ _ _ a b c | .imul h _ _ _ a b c => h.ok && opsOk [a] [b, c]
  | .imulh h t a b c => h.ok && t.unpacked && opsOk [a] [b, c]
  | .imad h _ _ _ a b c d => h.ok && opsOk [a] [b, c, d]
  | .imin h _ a b c | .imax h _ a b c => h.ok && opsOk [a] [b, c]
  | .iabs h t _ _ a b | .ineg h t _ _ a b => h.ok && t.signed && opsOk [a] [b]
  | .idot4 h _ _ _ _ a b c d => h.ok && opsOk [a] [b, c, d]
  | .and h _ a b c | .or h _ a b c | .xor h _ a b c => h.ok && opsOk [a] [b, c]
  | .not h _ a b => h.ok && opsOk [a] [b]
  | .shl h _ a b c | .shr h _ a b c | .sha h _ a b c | .rot h _ a b c => h.ok && opsOk [a] [b, c]
  | .bfx h t a b c d => h.ok && (t == .i32 || t == .n32) && opsOk [a] [b, c, d]
  | .bfi h t a b c d e => h.ok && (t == .i32 || t == .n32) && opsOk [a] [b, c, d, e]
  | .popc h _ a b | .clz h _ a b | .brev h _ a b => h.ok && opsOk [a] [b]
  | .lea h t a b c d => h.ok && (t == .i32 || t == .n32) && opsOk [a] [b, c, d]
  | .icmp h t cc a b c => h.ok && t.unpacked && decide (cc < 8) && opsOk [a] [b, c]
  | .fadd h t _ _ _ a b c | .fsub h t _ _ _ a b c | .fmul h t _ _ _ a b c =>
      h.ok && opsOk [a] [b, c] && b.immFits t && c.immFits t
  | .ffma h t _ _ _ a b c d => h.ok && opsOk [a] [b, c, d] && b.immFits t && c.immFits t && d.immFits t
  | .fmin h t _ a b c | .fmax h t _ a b c => h.ok && opsOk [a] [b, c] && b.immFits t && c.immFits t
  | .frcp h t _ _ _ a b | .frsq h t _ _ _ a b | .fsqrt h t _ _ _ a b | .fexp2 h t _ _ _ a b | .flog2 h t _ _ _ a b
  | .fsin h t _ _ _ a b | .fcos h t _ _ _ a b | .ftanh h t _ _ _ a b => h.ok && t.wide && opsOk [a] [b]
  | .frnd h t _ _ _ a b => h.ok && opsOk [a] [b] && b.immFits t
  | .fscl h t _ _ _ a b c => h.ok && opsOk [a] [b, c] && b.immFits t
  | .fcls h t a b => h.ok && opsOk [a] [b] && b.immFits t
  | .fcmp h _ cc a b c => h.ok && decide (cc < 8) && opsOk [a] [b, c]
  | .fdot2 h t _ _ _ a b c d => h.ok && (t == .f16x2 || t == .bf16x2) && opsOk [a] [b, c, d]
  | .cvt h dt sty r sat _ a b => h.ok && cvtModes dt sty r sat && opsOk [a] [b] && cvtImm sty b
  | .mxq h _ t _ a b | .mxd h _ t _ a b => h.ok && (t == .f32 || t == .bf16x2) && opsOk [a] [b]
  | .mov h w a b => h.ok && w.whole && opsOk [a] [b]
  | .sel h w a b c d => h.ok && w.whole && opsOk [a] [b, c, d]
  | .shfl h w a b c | .shflx h w a b c | .bcst h w a b c => h.ok && w.whole && opsOk [a] [b, c]
  | .vote h op a b => h.ok && decide (op < 4) && opsOk [a] [b]
  | .redl h t op r sat _ a b | .scnl h t op _ r sat _ a b => h.ok && redOk t op r sat && opsOk [a] [b]
  | .gtrn h w a b => h.ok && (w == .b8 || w == .b16 || w == .b32) && opsOk [a] [b]
  | .plop h tt a b c => h.ok && decide (tt < 16) && opsOk [a] [b, c]
  | .pmov h _ a b => h.ok && opsOk [a] [b]
  | .ld h w sx o sc prom _ a b off =>
      h.ok && (!sx || w == .b8 || w == .b16) && o.loadOk && promOk o sc prom && opsOk [a] [b] && off22 off
  | .st h w o _ _ seq a b c off =>
      h.ok && o.storeOk && opsOk [a] [b, c] && off22 off && (seq || a.isNone) &&
        !(c.isImm && (w == .b128 || w == .b256))
  | .pfx h _ _ b off => h.ok && opsOk [] [b] && off22 off
  | .fence h o sc prom => h.ok && (o != .plain) && promOk o sc prom
  | .atom h op t o sc prom _ _ a b c => h.ok && aopOk op t && promOk o sc prom && opsOk [a] [b, c]
  | .acas h t o sc prom _ _ a b c d => h.ok && (t == .n32 || t == .n64) && promOk o sc prom && opsOk [a] [b, c, d]
  | .ared h op t _ _ _ seq a b c =>
      h.ok && aopOk op t && (op != .exch) && opsOk [a] [b, c] && (seq || a.isNone)
  | .brl h t j => h.ok && off22 t && off22 j
  | .join _ _ | .lend _ _ | .gret _ _ | .gend _ _ => true
  | .lcall h t => h.ok && off22 t
  | .gbeg _ _ vw tn p c => decide (vw < 4) && decide (tn < 2) && off22 p && off22 c
  | .gyld h b => h.ok && opsOk [] [b]
  | .grcv h a => h.ok && opsOk [a] []
  | .waini h op flt a b c => h.ok && wainiOk op flt b c && opsOk [a] [b, c]
  | .wapsh h a b c => h.ok && opsOk [] [a, b, c]
  | .waqry h a b c => h.ok && opsOk [a] [b, c]
  | .waexp h a b | .wawln h a b => h.ok && opsOk [] [a, b]
  | .warst h a => h.ok && opsOk [] [a]
  | .amovr h w a b c d | .amovw h w a b c d => h.ok && w.whole && opsOk [a] [b, c, d]
  | .ltrap h code => h.ok && decide (code < 2048)
  | .lrds h w64 a b => h.ok && opsOk [a] [b] && (!w64 || b == .sp 17)
  | .lwrs h a b => h.ok && opsOk [a] [b]
  -- a step of a unit has no encoding
  | .laneBlockStart _ | .loadValueArrival _ _ | .coreAcknowledgement _ | .homeAcknowledgement _ | .sliceWritePerform _
  | .sliceReadAccept _ | .lineDataLeave _ | .promotionDrainRequest _ _ | .promotionDrainReport _ _
  | .genSwitchToConsumer _ | .genReturnToProducer _ | .genDrain _ | .ratchetPerform _ _ | .bundleLeaveHandle _
  | .bundleAdmissionTest _ | .bundleEvictComplete _ | .bundleFillComplete _ | .holdLimitExpiry _ | .holdLimitTrap _
  | .engineCommandStart _ | .engineCommandComplete _ | .engineFault _ _ | .cpymFollowOnHandoff _
  | .segmentSubrecordRead _ _ | .batchComplete _ | .recordCacheEvict _ _ | .messageArrival _ | .byteBarrierArrive _
  | .barrierReleaseWave _ _ | .eventVectorUpdate _ | .taskDecrement _ | .timedWaitExpiry _ | .aclockChange _ _
  | .dispatch | .blockPlace _ | .balanceAction _ _ | .quantumExpiry _ _ | .preemptionBegin _ _ | .drainDeadlineExpiry _
  | .groupSave _ | .blockResume _ | .clusterContextSwitch _ _ | .contextTeardown _ | .coreGate _ | .inrushStep _
  | .tokenInterval | .leaseRequest _ _ | .leaseExpiry _ | .tailDoorbell _ _ _ | .queueDescriptorWrite _ _ _ | .hostdb _
  | .ctxerrClear _ | .tlbinv _ _ | .tlbinvComplete _ | .cwmaskWrite _ _ _ | .cwmaskApply _ _ | .histogramClear _ _
  | .setown _ | .setmem _ | .setpart _ | .setctx _ | .setslew _ | .profgrant _ | .attest _ | .setpeer _ | .setwin _
  | .mbcmdUnknown _ | .classWayWriteback _ _ | .peerAccessInbound _ _ _ _ | .linkFlitRetry _ | .thermalThrottle _
  | .thermalRecover _ | .resetRelease | .bootVerify _ _ | .registerWrite _ _ _ _ | .hostBar2Access _ _ _ _ | .linkTrained _
  | .linkDown _ | .powerDown | .supplyDroop _ => true

/-- The part of check 5 of R98 that depends on the instruction alone: operand kinds, legal destinations, alignment of
pairs and spans (R79, R81, R82, R92 and the entries). DESIGN CHOICE (log 58): GRCV takes its value into vector registers only
(R260), so any other destination, a writable special register with VW = 1 among them, is 0x02. DESIGN CHOICE (log 89): R154 says that B
of LEA names an even register and gives no trap for another kind, so one is accepted. -/
def Instr.regsOk : Instr → Bool
  | .sadd64 d a b | .ssub64 d a b => decide (d % 2 = 0) && decide (a % 2 = 0) && decide (b % 2 = 0)
  | .sldi d pair _ => !pair || decide (d % 2 = 0)
  | .sld _ a _ _ _ _ _ | .sst _ a _ _ _ _ | .satom _ a _ _ _ _ _ => decide (a % 2 = 0)
  | .sld64 d a _ _ _ _ | .sst64 d a _ _ _ | .scas d a _ _ _ _ => decide (d % 2 = 0) && decide (a % 2 = 0)
  | .spfxPf _ a _ _ | .spfxWb _ a _ | .spfxInv _ a _ => decide (a % 2 = 0)
  | .bdecl _ a _ | .launch _ a _ | .jraise _ a _ | .jdone a _ | .waitns a => decide (a % 2 = 0)
  | .bqry d _ => decide (d % 2 = 0)
  | .iadd _ t _ _ a b c | .isub _ t _ _ a b c | .imul _ t _ _ a b c | .imulh _ t a b c | .imin _ t a b c
  | .imax _ t a b c | .and _ t a b c | .or _ t a b c | .xor _ t a b c =>
      a.dst t.regs && b.srcSpan t.regs && c.srcSpan t.regs
  | .imad _ t _ _ a b c d => a.dst t.regs && b.srcSpan t.regs && c.srcSpan t.regs && d.srcSpan t.regs
  | .iabs _ t _ _ a b | .ineg _ t _ _ a b | .not _ t a b | .popc _ t a b | .clz _ t a b | .brev _ t a b =>
      a.dst t.regs && b.srcSpan t.regs
  | .idot4 _ _ _ _ _ a b c d => a.dst 1 && b.isSrc && c.isSrc && d.isSrc
  | .shl _ t a b c | .shr _ t a b c | .sha _ t a b c | .rot _ t a b c => a.dst t.regs && b.srcSpan t.regs && c.isSrc
  | .bfx _ _ a b c d => a.dst 1 && b.isSrc && c.isSrc && d.isSrc
  | .bfi _ _ a b c d e => a.dst 1 && b.isSrc && c.isSrc && d.isSrc && e.isSrc
  | .lea _ _ a b c d => a.dstV 2 && b.srcSpan 2 && c.isSrc && d.isSrc
  | .icmp _ t _ a b c => a.isP && b.srcSpan t.regs && c.srcSpan t.regs
  | .fadd _ _ _ _ _ a b c | .fsub _ _ _ _ _ a b c | .fmul _ _ _ _ _ a b c | .fmin _ _ _ a b c | .fmax _ _ _ a b c
  | .fscl _ _ _ _ _ a b c => a.dst 1 && b.isSrc && c.isSrc
  | .ffma _ _ _ _ _ a b c d | .fdot2 _ _ _ _ _ a b c d => a.dst 1 && b.isSrc && c.isSrc && d.isSrc
  | .frcp _ _ _ _ _ a b | .frsq _ _ _ _ _ a b | .fsqrt _ _ _ _ _ a b | .fexp2 _ _ _ _ _ a b | .flog2 _ _ _ _ _ a b
  | .fsin _ _ _ _ _ a b | .fcos _ _ _ _ _ a b | .ftanh _ _ _ _ _ a b | .frnd _ _ _ _ _ a b => a.dst 1 && b.isSrc
  | .fcls _ _ a b => a.dst 1 && b.isSrc
  | .fcmp _ _ _ a b c => a.isP && b.isSrc && c.isSrc
  | .cvt _ dt sty _ _ _ a b => a.dst (cvtDst dt sty) && b.srcSpan (cvtSrc dt sty)
  | .mxq _ _ _ _ a b | .mxd _ _ _ _ a b => a.isV && b.isV
  | .mov _ w a b => a.dst w.regs && b.srcSpan w.regs
  | .sel _ w a b c d => a.dst w.regs && b.srcSpan w.regs && c.srcSpan w.regs && d.isP
  | .shfl _ w a b c | .shflx _ w a b c => a.dst w.regs && b.dstV w.regs && c.isSrc
  | .bcst _ w a b c => a.dst w.regs && b.dstV w.regs && c.isUniform
  | .vote _ _ a b => (a.isV || a.isP) && b.isP
  | .redl _ t _ _ _ _ a b | .scnl _ t _ _ _ _ _ a b => a.dst ((t.width + 31) / 32) && b.dstV ((t.width + 31) / 32)
  | .gtrn _ _ a b => a.dstV 8 && b.dstV 8
  | .plop _ _ a b c => a.isP && b.isP && c.isP
  | .pmov _ fm a b => if fm then a.isP && b.isSrc else a.dst 1 && b.isP
  | .ld _ w _ _ _ _ _ a b _ =>
      b.isBase && (match a with
        | .s r => (w == .b32) || ((w == .b64) && decide (r % 2 = 0))
        | _ => a.dst w.regs)
  | .st _ w _ _ _ seq a b c _ => (!seq || a.isV) && b.isBase && c.srcSpan w.regs
  | .pfx _ _ _ b _ => b.isBase
  | .atom _ _ t _ _ _ _ seq a b c => (a.dstV t.regs || (a.isNone && !seq)) && b.isBase && c.srcSpan t.regs
  | .acas _ t _ _ _ _ seq a b c d =>
      (a.dstV t.regs || (a.isNone && !seq)) && b.isBase && c.srcSpan t.regs && d.srcSpan t.regs
  | .ared _ _ t _ _ _ seq a b c => (!seq || a.isV) && b.isBase && c.srcSpan t.regs
  | .gyld _ b => b.isV
  | .grcv _ a => a.isV
  | .waini _ op _ a b c => a.isHandle && (op == 15 || (b.isUniform && c.isUniform))
  | .wapsh _ a b c => a.isHandle && b.isSrc && c.isSrc
  | .waqry _ a b c => a.isV && b.isHandle && c.isSrc
  | .waexp _ a b | .wawln _ a b => a.isHandle && b.isUniform
  | .warst _ a => a.isHandle
  | .amovr _ w a b c d => a.dstV w.regs && b.isTile && c.isSrc && d.isSrc
  | .amovw _ w a b c d => a.isTile && b.dstV w.regs && c.isSrc && d.isSrc
  | .lrds _ w64 a b => (if w64 then a.dstV 2 else a.dst 1) && (match b with | .sp _ => true | _ => false)
  | .lwrs _ a b => a.isSpDst && b.isSrc
  | _ => true

/-- Does the instruction belong to the scalar stream, to the lane stream, or is it a step of a unit? -/
inductive Stream where
  | scalar | lane | unit
  deriving DecidableEq, Repr

end Sys2Proof
end

