-- ==== Sys2Proof/Machine/State.lean ====
section
/-! DEFINITION. The state of the SL9600 as plain data: everything the manual gives the machine (INVENTORY.md lists it
with its rule and reset value), and the model's own fields that say which agent moves next and which free value is drawn
next. -/
namespace Sys2Proof.Machine

/-- Why the machine stops with a fault. It has no constructor: the manual ends every error in a trap, a status, a report or
the end of a group, all of which are next states. Nobody raises a fault; that is safe, for nothing is cut short. -/
inductive Fault where
  deriving DecidableEq, Repr

/-- Why an instruction is refused. -/
inductive Refusal where
  /-- An instruction without a meaning: raised by an arm of `exec`; safe. -/
  | notModelled (mnemonic : String)
  /-- `exec` was called on an instruction of a stream in a state whose turn names no resident group: `step` never does
  this; safe. -/
  | noIssuer
  deriving DecidableEq, Repr

/-- A sparse table: pairs of an index and a value, indices strictly rising; an unlisted index has the table's default. -/
abbrev Tbl (α : Type) := List (Nat × α)

/-- Byte memory in canonical form: addresses strictly rising, no entry equal to what an unlisted address reads as. -/
abbrev Memory := List Host.Cell

/-- What an unlisted byte of memory reads as (log 3). -/
def Memory.unlisted : Byte := 0

/-- Where an access goes, after translation (R385). -/
inductive Loc where
  | hbm (pa : Nat)
  | host (pa : Nat)
  | peer (link pa : Nat)
  | scr (core off : Nat)
  | mx (ctx win pa : Nat)
  | mmio (off : Nat)
  deriving DecidableEq, Repr

/-- A register element that a result goes to (R39). -/
inductive Dest where
  | v (reg lane : Nat)
  | p (reg lane : Nat)
  | s (reg : Nat)
  | sp (reg lane : Nat)
  | tile (t row col : Nat)
  deriving DecidableEq, Repr

/-- A result of a lane instruction that has not landed (R39, R40). `own` is the strands of the issuing gang. A flag
result ORs its value in (R59); in `%lfsr` the same mark is that of an advance by draws (R146). -/
structure Res where
  own : BitVec 8
  dest : Dest
  val : Word
  orIn : Bool
  deriving DecidableEq, Repr

/-- What an access does. -/
inductive AccKind where
  | load
  | store
  | rmwLane (op : AOp) (t : ATy)
  | rmwScalar (op : SAOp)
  | cas
  | writeBack
  | invalidate
  deriving DecidableEq, Repr

/-- An access in flight (R178, R181, R208). -/
structure Access where
  id : Nat
  grp : Nat
  core : Nat
  part : Nat
  ctx : Nat
  scalar : Bool
  handler : Bool
  own : BitVec 8
  lane : Nat
  kind : AccKind
  loc : Loc
  size : Nat
  data : List Byte
  data2 : List Byte
  dests : List Dest
  signed : Bool
  tagDest : Option Dest
  /-- the launch and the block of the group that issued it -/
  launch : Nat
  blk : Nat
  ord : MOrd
  sc : Scope
  hint : Hint
  relWait : List Nat
  drain : Option Nat
  coreAck : Bool
  /-- a load: its slice has accepted it (R316); a write: its acknowledgement has returned while its value has not -/
  accepted : Bool
  performed : Bool
  /-- first bytes of the 8-byte parts of a wide store that have been performed (R206) -/
  parts : List Nat
  value : Option (List Byte)
  tag : Nat
  /-- the lines that a range write-back or invalidate has left (R128) -/
  lines : List Loc
  deriving DecidableEq, Repr

/-- What keeps strands from issuing, and which instructions it covers (R37). With `own` empty it is the scalar stream's
own, and covers its memory instructions. -/
structure Hold where
  own : BitVec 8
  /-- every later instruction (a window operation), or only memory instructions (acquire, fence) -/
  all : Bool
  /-- accesses whose values must have arrived -/
  values : List Nat
  /-- writes whose acknowledgement is waited for -/
  acks : List Nat
  sc : Scope
  drain : Option Nat
  /-- invalidate the L1 ways and scalar data cache when the hold ends -/
  acquire : Bool
  /-- the window operation that the Ratchet must have performed -/
  ratchet : Option Nat
  /-- a promotion drain starts once the values and acknowledgements are there (R129, R185) -/
  prom : Bool
  deriving DecidableEq, Repr

/-- A divergence-stack entry (R34). -/
structure StackEnt where
  jpc : Nat
  npc : Nat
  pend : BitVec 4
  save : BitVec 4
  deriving DecidableEq, Repr

/-- A strand's sequencer (R23); strands with the same gang number are one gang (R24). -/
structure Strand where
  pc : Nat
  active : BitVec 4
  stack : List StackEnt
  gang : Nat
  /-- takes part in the running lane block (R31) -/
  part : Bool
  /-- has been found to stand at `LEND` or `GRET` with an empty stack (R31, R261) -/
  reached : Bool
  deriving DecidableEq, Repr

/-- A partial fault of an access whose passing lanes have gone out: the trap that its gang takes once its loads are there
(R43, R175). -/
structure PartFault where
  own : BitVec 8
  cause : Nat
  subc : Nat
  lpc : Nat
  lanes : Mask
  deriving DecidableEq, Repr

/-- The lane side that a trap frame saves (R45): strands, the running block and its k registers, and what its gangs do
on their next instruction. -/
structure Lanes where
  strands : List Strand
  running : Bool
  k : List Word
  /-- after TRET from a faulting access: the strands of a gang and the lanes that execute it again (R175) -/
  replay : List (BitVec 8 × Mask)
  /-- after TRET from a watchpoint trap: the strands whose next instruction is not watched (R192) -/
  wpSkip : BitVec 8
  fault : Option PartFault
  deriving DecidableEq, Repr

/-- An entry of the decision queue: its start word, its copies, and the values that scalar registers held before a write
while it was queued (R30, R33). -/
structure QBlock where
  start : Nat
  k : List Word
  oldS : List (Nat × Word)
  deriving DecidableEq, Repr

/-- Status of a generator frame (R253). -/
inductive FrameStatus where
  | free | fill | ready
  deriving DecidableEq, Repr

/-- Modes of a generator loop (R253). -/
inductive GenMode where
  | producer | consumer | drain
  deriving DecidableEq, Repr

/-- What a generator loop is about to do (R259, R261, R262). -/
inductive GenMove where
  | toConsumer | toProducer | toDrain
  deriving DecidableEq, Repr

/-- An open generator loop (R253). -/
structure Gen where
  owner : List Nat
  vw : Nat
  thr : Nat
  mode : GenMode
  st0 : FrameStatus
  st1 : FrameStatus
  fc : Nat
  ready : List Nat
  cur : Nat
  size : Nat
  pend : Option Mask
  /-- the strands of the gang whose GYLD is interrupted (R257) -/
  yielder : BitVec 8
  done : Mask
  prodPc : Nat
  consPc : Nat
  endPc : Nat
  savedProd : Option Lanes
  outer : List (List StackEnt)
  move : Option GenMove
  /-- control has gone to the GEND at the loop's end (R262) -/
  atEnd : Bool
  slots : Tbl Word
  deriving DecidableEq, Repr

/-- What an interrupted or waiting scalar instruction has done so far (R397). -/
inductive Wait where
  /-- a timed wait with its deadline, in nanoseconds (R338) -/
  | timed (deadline : Nat)
  /-- the deadline, which has come (R338) -/
  | expired (deadline : Nat)
  /-- the phase or batch number that a wait was given when it issued (R297, R326) -/
  | num (n : Nat)
  /-- waits for bit n of the event vector (R328) -/
  | event (n : Nat)
  /-- the bit has been 1 at the end of an F-clock of the wait (R328) -/
  | seen
  /-- loads whose values are waited for, writes waited for, whether a promotion drain comes after them, a drain under
  way, and the operand that the instruction read when it issued (R39, R129) -/
  | sync (values acks : List Nat) (prom : Bool) (drain : Option Nat) (arg : Nat)
  /-- waits for the home slice of a physical address, with the operand that the instruction read when it issued (R39, R335) -/
  | home (pa n : Nat)
  /-- arrived at a block barrier or a team barrier and not released (R321) -/
  | barrier (block : Bool) (n : Nat)
  /-- released from a barrier (R322) -/
  | released
  /-- a BENTER request waits (R235) -/
  | bundle
  /-- the bundle set has been entered (R235) -/
  | entered
  /-- a command with a yield-continuation runs (R285) -/
  | cmd (c : Nat) (target : Nat)
  deriving DecidableEq, Repr

/-- The trap state and frame of a group in a handler (R45). -/
structure Trap where
  cause : Nat
  subc : Nat
  swc : Nat
  spc : Nat
  lpc : Nat
  /-- the lane word that trapped -/
  origin : Nat
  exec : Mask
  fltmask : Mask
  faulted : Mask
  wmask : Mask
  isLane : Bool
  gang : BitVec 8
  frame : Lanes
  dq : List QBlock
  wait : Option Wait
  /-- words of the interrupted scalar instruction (R397) -/
  words : Option (Nat × Nat)
  /-- values that scalar registers held before a write under the interrupted lane block (R33) -/
  oldS : List (Nat × Word)
  spcWritten : Bool
  deriving DecidableEq, Repr

/-- Launch metadata (R19). -/
structure Meta where
  size : Nat
  vregs : Nat
  sregs : Nat
  tiles : Nat
  gen : Bool
  producer : Option Nat
  restart : Bool
  scratch : Nat
  deriving DecidableEq, Repr

/-- Where a group is and what it belongs to (R18, R21). -/
structure Place where
  core : Nat
  quad : Nat
  slot : Nat
  ctx : Nat
  part : Nat
  launch : Nat
  blk : Nat
  team : Nat
  grp : Nat
  flat : Nat
  bx : Nat
  byy : Nat
  bz : Nat
  ngrp : Nat
  deriving DecidableEq, Repr

/-- The registers of a group (R21). Vector registers are keyed 32·reg + lane, tiles 4096·tile + 64·row + col. -/
structure Regs where
  v : Tbl Word
  s : Tbl Word
  tiles : Tbl Word
  /-- p0 to p6, one lane mask each (p7 is hard-wired) -/
  p : Tbl Mask
  /-- q0 to q6 in bits 0 to 6 (q7 is hard-wired) -/
  q : BitVec 7
  flg : Tbl Word
  lfsr : Tbl Word
  rmode : Nat
  live : Mask
  deriving DecidableEq, Repr

/-- A group's entered or saved bundle set (R235, R247). -/
structure BSet where
  ids : List Nat
  age : Nat
  prio : Nat
  deriving DecidableEq, Repr

/-- A hold timer: its start in nanoseconds, and the group and age of the head request that it is about (R245). -/
structure HoldTimer where
  start : Nat
  grp : Nat
  age : Nat
  deriving DecidableEq, Repr

/-- A pending asynchronous fault (R286). -/
structure AsyncFault where
  cause : Nat
  subc : Nat
  lost : Nat
  pos : Nat
  cmdpc : Nat
  vaddr : Nat
  logged : Bool
  deriving DecidableEq, Repr

/-- A resident group. -/
structure Group where
  gid : Nat
  place : Place
  info : Meta
  regs : Regs
  lanes : Lanes
  pend : List Res
  holds : List Hold
  dq : List QBlock
  /-- values that scalar registers held before a write under the running lane block (R33) -/
  oldS : List (Nat × Word)
  spc : Nat
  wait : Option Wait
  /-- words of the scalar instruction that has issued and is not complete (R397) -/
  words : Option (Nat × Nat)
  uas : Nat
  /-- writes of other groups of the core, not home yet, that an acquire of the group has come after (R215) -/
  acquired : List Nat
  nsLatch : Option Word
  trap : Option Trap
  gen : Option Gen
  /-- window handles wa0 to wa7: the scratch offset each is bound to (R269) -/
  wa : Tbl Nat
  /-- the open batch, the latest closed one and the latest completed one, counted without end; their numbers are the counts
  modulo 2^16 (R295) -/
  openBatch : Nat
  batch : Nat
  doneBatch : Nat
  entered : Option BSet
  saved : Option BSet
  holdTrap : Bool
  /-- the pending hold-limit trap comes before either stream issues: the handler's TRET has run (R245) -/
  holdFirst : Bool
  async : Option AsyncFault
  doneList : List Nat
  liveTiles : Nat
  suspended : Bool
  /-- the scalar front-end passes over the group until it has chosen another of its core (R336) -/
  yielded : Bool
  /-- the moment by which the instruction after a timed wait issues (R338) -/
  due : Option Nat
  holdTimer : Option HoldTimer
  deriving DecidableEq, Repr

/-- A launch that has begun dispatching (R331, R343). -/
structure Launch where
  id : Nat
  ctx : Nat
  queue : Nat
  coop : Bool
  argv : Option (List Word)
  info : Meta
  scalVa : Nat
  scalLen : Nat
  laneVa : Nat
  laneLen : Nat
  constVa : Nat
  constN : Nat
  setmask : BitVec 256
  teams : Nat
  groups : Nat
  gx : Nat
  gy : Nat
  gz : Nat
  drainns : Nat
  nextBlk : Nat
  retired : Nat
  packet : List Byte
  /-- the packet has left its queue: every block has been placed once (R345) -/
  left : Bool
  deriving DecidableEq, Repr

/-- A resident team's core and scratch range (R374). -/
structure Team where
  launch : Nat
  blk : Nat
  team : Nat
  core : Nat
  tb : Nat
  size : Nat
  start : Nat
  deriving DecidableEq, Repr

/-- A barrier in use: team barrier when `team` is given, else block barrier (R320). -/
structure Barrier where
  launch : Nat
  blk : Nat
  team : Option Nat
  n : Nat
  arrived : List Nat
  /-- groups released by an opening that have not left in a wave yet -/
  leaving : List Nat
  deriving DecidableEq, Repr

/-- A message that has been matched or waits in an overflow queue (R304 to R306). `holes` are the bytes that
met a fault; `fromQ`: it came from an overflow entry. -/
structure Msg where
  src : Nat
  tag : Nat
  len : Nat
  data : List Byte
  holes : List Nat
  fromQ : Bool
  deriving DecidableEq, Repr

/-- The work of an engine command. The records that it names are in the command. -/
inductive CmdKind where
  /-- destination address, starts and counts of the four dimensions -/
  | copy (dst : Nat) (starts counts : List Nat)
  /-- destination scratch offset, starts, counts, cores -/
  | mcast (off : Nat) (starts counts cores : List Nat)
  /-- dense address, list address, entries, start and count of dimension 0 -/
  | gath (dense list n start count : Nat)
  | scat (dense list n start count : Nat)
  /-- operand block and segment table -/
  | mmac (block : List Word) (segs : List Nat)
  | mzro (mask : Nat)
  | macc (d e : Nat) (int sati : Bool)
  /-- source buffer, length, destination cluster, tag, result register, and whether the message has been answered -/
  | send (src len dst tag sreg : Nat) (told : Bool)
  /-- buffer and its length, source cluster or 0x7F, tag, status record, and the matched message -/
  | recv (buf len src tag status : Nat) (msg : Option Msg)
  deriving DecidableEq, Repr

/-- Where a command stands. -/
inductive CmdState where
  | queued | running | stopped
  deriving DecidableEq, Repr

/-- An inclusive byte range of a footprint; scratch ranges meet only scratch ranges (R287, R288). -/
structure Range where
  scratch : Bool
  lo : Nat
  hi : Nat
  deriving DecidableEq, Repr

/-- Progress of one output element of an MMAC: K-groups done, its old value, and the integer sum (R70, R71). -/
structure MProg where
  out : Nat
  groups : Nat
  old : Word
  sum : Int
  deriving DecidableEq, Repr

/-- An engine command in flight (R284, R285). Its work is in units, numbered from 0; a unit first reads and then writes. -/
structure Cmd where
  id : Nat
  ctx : Nat
  part : Nat
  grp : Nat
  core : Nat
  quad : Nat
  launch : Nat
  blk : Nat
  team : Nat
  /-- scalar word index of the command -/
  pc : Nat
  kind : CmdKind
  compl : Compl
  granule : Nat
  cards : Nat
  recs : List (List Byte)
  reads : List Range
  writes : List Range
  state : CmdState
  /-- units of work, and those that are done -/
  total : Nat
  done : List Nat
  /-- aligned 4-byte parts that the command has read, by virtual address div 4 (R206) -/
  bufs : List (Nat × List Byte)
  /-- parts whose reads are pending at their slices (R316) -/
  asked : List (Nat × Loc)
  /-- parts of the destination written so far that hold a cell not yet written whole -/
  pieces : List Nat
  /-- index entries read so far (R294) -/
  lists : Tbl Nat
  /-- units that met a fault (R286) -/
  faulted : List Nat
  prog : List MProg
  /-- sub-records read, by segment; empty where it met a fault (R300) -/
  subRecs : List (Nat × List Byte)
  batch : Option Nat
  /-- the key ring when the command issued (R282) -/
  ring : List Nat
  /-- earlier commands with which it has an edge (R288) -/
  edges : List Nat
  /-- the copy that a follow-on waits for (R291) -/
  waitsFor : Option Nat
  /-- its block has been discarded: it goes at its next granule boundary (R356) -/
  dropped : Bool
  deriving DecidableEq, Repr

/-- A posted receive (R305). -/
structure Posted where
  cluster : Nat
  cmd : Nat
  ctx : Nat
  part : Nat
  src : Nat
  tag : Nat
  deriving DecidableEq, Repr

/-- An overflow entry (R306). -/
structure Overflow where
  cluster : Nat
  ctx : Nat
  part : Nat
  msg : Msg
  deriving DecidableEq, Repr

/-- A record-cache entry of a cluster (R308). -/
structure RecEnt where
  cluster : Nat
  ctx : Nat
  addr : Nat
  data : List Byte
  /-- aligned 4-byte parts that its fill has not read yet -/
  missing : List Nat
  deriving DecidableEq, Repr

/-- States of a bundle (R233). -/
inductive BState where
  | declared | filling | resident | evicting
  deriving DecidableEq, Repr

/-- A bundle (R233). Lines are line numbers, physical address div 128. -/
structure Bundle where
  id : Nat
  ctx : Nat
  part : Nat
  state : BState
  lines : List Nat
  /-- groups that hold it -/
  entries : Nat
  /-- nanoseconds of the last leave, or of its admission while it has never been left -/
  lastLeave : Nat
  left : Bool
  freed : Bool
  deriving DecidableEq, Repr

/-- A request of the admission queue (R235, R236): `handled` once the Carillon has judged it. -/
structure BReq where
  grp : Nat
  part : Nat
  ids : List Nat
  prio : Nat
  age : Nat
  handled : Bool
  admitted : Bool
  /-- made by a handler's BENTER -/
  handler : Bool
  deriving DecidableEq, Repr

/-- An L2 line: its number, whether it is dirty, and what HBM holds while it is dirty (R224, R240). -/
structure L2Line where
  line : Nat
  dirty : Bool
  backing : List Byte
  /-- its way in its set (R8); none while the access that brings it has not placed it -/
  way : Option Nat
  /-- 0 the first candidate for eviction, 2 the last (R183) -/
  prio : Nat
  deriving DecidableEq, Repr

/-- A line of an MX alias view in the L2: its data and the writes not yet converted, oldest first (R65, R224). -/
structure MxLine where
  ctx : Nat
  win : Nat
  line : Nat
  data : List Byte
  writes : List (Nat × List Byte)
  /-- its way in its set, and its rank for eviction, as of an L2 line -/
  way : Option Nat
  prio : Nat
  deriving DecidableEq, Repr

/-- A line copy in an owner's L1 ways or in a core's scalar data cache (R210). -/
structure L1Line where
  core : Nat
  part : Nat
  scalar : Bool
  loc : Loc
  data : List Byte
  /-- 0 the first candidate for eviction (R183) -/
  prio : Nat
  /-- what has been read past this copy, which is too old for it: a group, strands of it, the first byte and the length
  (R176) -/
  past : List (Nat × BitVec 8 × Nat × Nat)
  deriving DecidableEq, Repr

/-- A copy of a line of device HBM in a slice of a sector that is not its home's (R183, R213), in a way of its set (R8). -/
structure RLine where
  slice : Nat
  line : Nat
  way : Nat
  prio : Nat
  deriving DecidableEq, Repr

/-- A TLB entry (R387): page of 2^bits bytes, its leaf entry. -/
structure TlbEnt where
  core : Nat
  ctx : Nat
  vpn : Nat
  bits : Nat
  pte : Nat
  deriving DecidableEq, Repr

/-- A promotion drain (R219). -/
structure Drain where
  id : Nat
  ctx : Nat
  toReach : List Nat
  waiting : List (Nat × List Nat)
  deriving DecidableEq, Repr

/-- A window operation on a handle (R269, R270), with its operands as read at issue: a component of a push as an integer
and as a float operand gives it. -/
inductive WOp where
  | init (h op flt base cap : Nat)
  | unbind (h : Nat)
  /-- first and second components by lane; `one`: the second source is 0x7FF -/
  | push (h : Nat) (xs ys : List (Word × Word)) (one : Bool)
  /-- n by lane, and the destination register -/
  | query (h : Nat) (n : List Nat) (reg : Nat)
  | expire (h n : Nat)
  | wlen (h w : Nat)
  | reset (h : Nat)
  deriving DecidableEq, Repr

/-- A window operation that has arrived at a core's Ratchet (R272): the strands of the issuing gang, its active lanes and
the lane word. -/
structure WArr where
  id : Nat
  core : Nat
  grp : Nat
  own : BitVec 8
  act : Mask
  pc : Nat
  handler : Bool
  /-- the Ratchet is in its flip (R274) -/
  begun : Bool
  op : WOp
  deriving DecidableEq, Repr

/-- An operation on a byte-count barrier on its way to the bank (R324). -/
structure BArr where
  core : Nat
  addr : Nat
  launch : Nat
  blk : Nat
  team : Nat
  /-- 0 engine arrival, 1 BARA, 2 BARP -/
  cls : Nat
  bytes : Nat
  /-- the group and the scalar word of the command that arrives -/
  grp : Nat
  pc : Nat
  deriving DecidableEq, Repr

/-- A change of an event vector on its way to the dispatcher from a port of the fabric (R315, R329). -/
structure EvOp where
  src : Nat
  set : Bool
  bit : Nat
  deriving DecidableEq, Repr

/-- A host queue descriptor (R341). -/
structure HQueue where
  qbase : Nat
  qlog : Nat
  qdis : Bool
  /-- the latest TAIL was out of range: the queue serves once one within range is written -/
  badTail : Bool
  head : Nat
  tail : Nat
  deriving DecidableEq, Repr

/-- A task table entry (R347): armed or not, its counter and its packet. -/
structure Task where
  armed : Bool
  counter : Nat
  packet : List Byte
  deriving DecidableEq, Repr

/-- CTXERR (R365). -/
structure CtxErr where
  valid : Bool
  kind : Nat
  cause : Nat
  subc : Nat
  lost : Nat
  group : Nat
  deriving DecidableEq, Repr

/-- The registers of R364. -/
structure CtxRegs where
  valid : Bool
  hbase : Nat
  hlen : Nat
  savebase : Nat
  savelen : Nat
  fltlog : Nat
  deriving DecidableEq, Repr

/-- An MX alias window (R63). -/
structure MxWin where
  en : Bool
  fmt : Nat
  abase : Nat
  alen : Nat
  dbase : Nat
  sbase : Nat
  deriving DecidableEq, Repr

/-- A boost lease (R377). -/
structure Lease where
  value : Nat
  active : Bool
  endNs : Nat
  /-- tokens drawn in this interval -/
  drawn : Nat
  deriving DecidableEq, Repr

/-- A context block (R363). -/
structure Ctx where
  part : Nat
  cls : Nat
  prio : Nat
  enabled : Bool
  regs : CtxRegs
  oldRegs : List CtxRegs
  quantum : Nat
  ptroot : Nat
  tlbinv : Nat
  /-- accesses that used an old translation and are still in flight; none when nothing is outstanding -/
  tlbinvWait : Option (List Nat)
  err : CtxErr
  mx : Tbl MxWin
  keys : Tbl Nat
  hq : Tbl HQueue
  dq : List (List Byte)
  lrefused : Word
  ldiscard : Word
  sigdisc : Word
  dlmiss : Word
  lease : Lease
  ev : BitVec 256
  evOps : List EvOp
  tasks : Tbl Task
  /-- packets of started tasks that wait for room in the device queue, first started first (R347) -/
  waiting : List (List Byte)
  /-- torn down (R360) -/
  dead : Bool
  deriving DecidableEq, Repr

/-- A partition block and the Carillon's and token state of a partition (R227, R350, R372, R376). -/
structure Part where
  bways : Nat
  blim : Nat
  bhold : Nat
  bids : Nat
  pdeadline : Nat
  tokalloc : Nat
  tokwt : Nat
  tokused : Nat
  tokleft : Nat
  tokspent : Nat
  masks : Tbl Nat
  /-- old masks of classes whose removed ways are being written back (R373) -/
  oldMasks : Tbl Nat
  /-- mask writes that wait for the write-back before them (R373) -/
  laterMasks : List (Nat × Nat)
  /-- the admission queue -/
  reqs : List BReq
  deriving DecidableEq, Repr

/-- A watchpoint comparator (R191). -/
structure Watch where
  base : Nat
  limit : Nat
  en : Bool
  rd : Bool
  wr : Bool
  ctx : Nat
  deriving DecidableEq, Repr

/-- A core: watchpoints, bank use, gating, A-clock count (R191, R374, R378). -/
structure Core where
  watch : Tbl Watch
  cwmask : Tbl Nat
  /-- CWMASK writes that wait, oldest first: partition and value (R375) -/
  cwPending : List (Nat × Nat)
  clka : Nat
  gated : Bool
  holdEnd : Nat
  /-- a wake request: its priority and its time (R378) -/
  wake : Option (Nat × Nat)
  deriving DecidableEq, Repr

/-- A pre-emption under way on a cluster (R349, R351). -/
structure Preempt where
  ctx : Nat
  start : Nat
  deadline : Nat
  /-- 0 drain, 1 save -/
  choice : Nat
  /-- launch and block of each pre-empted block -/
  blocks : List (Nat × Nat)
  deriving DecidableEq, Repr

/-- A cluster: SLEWLIM, balance counters of its pair (in the even cluster), the context that each partition's services are
given to, the moment from which each context's quantum counts, and pre-emption (R322, R348, R349, R359). -/
structure Cluster where
  wave : Nat
  gap : Nat
  bplace : Nat
  bthrot : Nat
  bfill : Nat
  /-- the estimate of its current (R348) -/
  load : Nat
  /-- the next block placed in the pair's sector is steered to the lighter cluster (in the even cluster) -/
  steer : Bool
  /-- how far the balance actions of the pair have gone: 1 placement, 2 throttle (in the even cluster) -/
  balance : Nat
  /-- its quadrants withhold issue slots (R348) -/
  withhold : Bool
  serves : Tbl Nat
  /-- nanoseconds of loading that are charged to a context's next quantum (R359) -/
  charge : Tbl Nat
  qstart : Tbl Nat
  preempt : List Preempt
  deriving DecidableEq, Repr

/-- A function's mailbox (R367). -/
structure Mailbox where
  args : Tbl Nat
  data : Tbl Byte
  busy : Bool
  status : Nat
  cmd : Nat
  deriving DecidableEq, Repr

/-- An inbound window (R389). -/
structure InWin where
  en : Bool
  links : Nat
  part : Nat
  wbase : Nat
  lbase : Nat
  wlen : Nat
  deriving DecidableEq, Repr

/-- A device link (R366). -/
structure Link where
  up : Bool
  again : Nat
  deriving DecidableEq, Repr

/-- PROFST (R379). -/
structure Prof where
  clklock : Bool
  sched : Bool
  part : Nat
  active : Bool
  deriving DecidableEq, Repr

/-- A block taken off its cores by pre-emption: its groups, teams, scratch contents and stopped commands (R354, R355). -/
structure SavedBlock where
  launch : Nat
  blk : Nat
  ctx : Nat
  groups : List Group
  teams : List Team
  /-- by team number -/
  scratch : List (Nat × Memory)
  cmds : List Cmd
  /-- requests that its groups had waiting (R247) -/
  reqs : List BReq
  /-- when the save began, in nanoseconds -/
  time : Nat
  /-- flat launch index of the group whose record it is, or 0xFFFFFFFF for the block's, first page in the save area, and
  length in pages -/
  pages : List (Nat × Nat × Nat)
  deriving DecidableEq, Repr

/-- The posted receives and overflow entries that a cluster has written to a context's save area (R359). -/
structure Parked where
  cluster : Nat
  ctx : Nat
  posted : List Posted
  overflow : List Overflow
  /-- first page in the save area and length of the record, if it found room -/
  page : Option (Nat × Nat)
  deriving DecidableEq, Repr

/-- Phases of the device from reset on (R382, R390). -/
inductive Boot where
  | held | verifying | running | recovery | off
  deriving DecidableEq, Repr

/-- Memory and what stands between the agents and memory. -/
structure MemSys where
  /-- device HBM as its ordering points give it (R211) -/
  hbm : Memory
  host : Memory
  peer : Memory
  /-- core local SRAM used as scratch, keyed 0x80000·core + bank offset -/
  sram : Memory
  tags : Tbl Nat
  l2 : List L2Line
  mx : List MxLine
  l1 : List L1Line
  rcopy : List RLine
  tlb : List TlbEnt
  /-- code words kept from earlier: core, launch, physical address, word (R76) -/
  code : List (Nat × Nat × Nat × Word)
  flight : List Access
  prom : List (Nat × Nat × List Nat)
  drains : List Drain
  bad : List Nat
  deriving DecidableEq, Repr

/-- The engines, bundles, barriers and launches. -/
structure Units where
  cmds : List Cmd
  posted : List Posted
  overflow : List Overflow
  recs : List RecEnt
  bundles : List Bundle
  launches : List Launch
  teams : List Team
  barriers : List Barrier
  ratchet : List WArr
  arrivals : List BArr
  /-- decrements on their way to the task tables: the port they come from, the context and the task (R315, R333) -/
  decrements : List (Nat × Nat × Nat)
  saved : List SavedBlock
  parked : List Parked
  /-- the queue served last, by priority level: 5·context + queue, plus 1 (R345) -/
  rr : Tbl Nat
  deriving DecidableEq, Repr

/-- System configuration and platform (R363 to R390). -/
structure Plat where
  boot : Boot
  parts : Tbl Part
  ctxs : Tbl Ctx
  clusters : Tbl Cluster
  cores : Tbl Core
  hist : Tbl Nat
  aclk : Tbl Nat
  hot : Bool
  quadOwn : Tbl Nat
  bankOwn : Tbl Nat
  sliceOwn : Tbl Nat
  regionOwn : Tbl Nat
  peers : Tbl Nat
  wins : Tbl InWin
  links : Tbl Link
  prof : Prof
  boxes : Tbl Mailbox
  mbOrder : List Nat
  vfEnable : Bool
  /-- how many virtual functions the endpoint's SR-IOV capability has made (R365) -/
  numVfs : Nat
  /-- BAR2 has 2^bar2 bytes (R384) -/
  bar2 : Nat
  /-- rails that are good, in the order of power-up, and since when the last of them is (R390) -/
  rails : Nat
  railNs : Nat
  msix : List Nat
  /-- start of the token interval, in nanoseconds (R376) -/
  tokenNs : Nat
  pool : Nat
  /-- tokens that only leases may draw in this interval (R377) -/
  headroom : Nat
  life : Tbl Nat
  measures : Tbl Nat
  deriving DecidableEq, Repr

/-- The whole machine. -/
structure State where
  ns : Nat
  mem : MemSys
  units : Units
  plat : Plat
  groups : List Group
  /-- the agent whose turn it is (the model's own, log 1) -/
  turn : Turn
  /-- turns and outside inputs to come, oldest first (the model's own, log 1) -/
  agenda : List Turn
  /-- turns taken that the agenda did not name (the model's own, log 1) -/
  turns : Nat
  /-- free values drawn so far (the model's own, log 5) -/
  draws : Nat
  /-- the next unused identity of an access, command, launch or drain (the model's own) -/
  nextId : Nat
  deriving DecidableEq, Repr

/-! ## Reset -/

/-- CTXERR with nothing recorded (R365). -/
def CtxErr.reset : CtxErr := { valid := false, kind := 0, cause := 0, subc := 0, lost := 0, group := 0 }
/-- The registers of R364 at reset. -/
def CtxRegs.reset : CtxRegs := { valid := false, hbase := 0, hlen := 0, savebase := 0, savelen := 0, fltlog := 0 }
/-- An alias window at reset (R63). -/
def MxWin.reset : MxWin := { en := false, fmt := 0, abase := 0, alen := 0, dbase := 0, sbase := 0 }
/-- A host queue descriptor at reset (R341). -/
def HQueue.reset : HQueue := { qbase := 0, qlog := 0, qdis := false, badTail := false, head := 0, tail := 0 }
/-- A task table entry at reset (R347). -/
def Task.reset : Task := { armed := false, counter := 0, packet := [] }
/-- A context block at reset. -/
def Ctx.reset : Ctx :=
  { part := 0, cls := 0, prio := 0, enabled := false, regs := CtxRegs.reset, oldRegs := [], quantum := 0, ptroot := 0,
    tlbinv := 0, tlbinvWait := none, err := CtxErr.reset, mx := [], keys := [], hq := [], dq := [], lrefused := 0,
    ldiscard := 0, sigdisc := 0, dlmiss := 0, lease := { value := 0, active := false, endNs := 0, drawn := 0 }, ev := 0, evOps := [],
    tasks := [], waiting := [], dead := false }
/-- A partition block at reset (R227, R350, R372, R376). -/
def Part.reset : Part :=
  { bways := 0, blim := 0, bhold := 100000, bids := 0, pdeadline := 1000, tokalloc := 0, tokwt := 1, tokused := 0,
    tokleft := 0, tokspent := 0, masks := [(0, 0xFFFF)], oldMasks := [], laterMasks := [], reqs := [] }
/-- A watchpoint comparator at reset (R191). -/
def Watch.reset : Watch := { base := 0, limit := 0, en := false, rd := false, wr := false, ctx := 0 }
/-- A core at reset. -/
def Core.reset : Core :=
  { watch := [], cwmask := [], cwPending := [], clka := 0, gated := false, holdEnd := 0, wake := none }
/-- A cluster at reset (R322). -/
def Cluster.reset : Cluster :=
  { wave := 15, gap := 0, bplace := 0, bthrot := 0, bfill := 0, load := 0, steer := false, balance := 0, withhold := false,
    serves := [], charge := [], qstart := [], preempt := [] }
/-- A mailbox at reset. -/
def Mailbox.reset : Mailbox := { args := [], data := [], busy := false, status := 0, cmd := 0 }
/-- An inbound window at reset (R389). -/
def InWin.reset : InWin := { en := false, links := 0, part := 0, wbase := 0, lbase := 0, wlen := 0 }
/-- A device link at reset. -/
def Link.reset : Link := { up := false, again := 0 }
/-- The A-clock setting of a cluster pair at reset, in units of 62.5 MHz (log 4). -/
def aclkReset : Nat := 16

/-- Memory at reset. -/
def MemSys.reset : MemSys :=
  { hbm := [], host := [], peer := [], sram := [], tags := [], l2 := [], mx := [], l1 := [], rcopy := [], tlb := [],
    code := [], flight := [], prom := [], drains := [], bad := [] }
/-- The units at reset. -/
def Units.reset : Units :=
  { cmds := [], posted := [], overflow := [], recs := [], bundles := [], launches := [], teams := [], barriers := [],
    ratchet := [], arrivals := [], decrements := [], saved := [], parked := [],
    rr := [] }
/-- The rails: the base-die and HBM auxiliary rails, the fabric rail, and one of each cluster pair (R390). -/
def allRails : Nat := 39
/-- The platform at reset: the boot ROM is about to verify Anvil's image (R382). -/
def Plat.reset : Plat :=
  { boot := .verifying, parts := [], ctxs := [], clusters := [], cores := [], hist := [], aclk := [], hot := false,
    quadOwn := [], bankOwn := [], sliceOwn := [], regionOwn := [], peers := [], wins := [], links := [],
    prof := { clklock := false, sched := false, part := 0, active := false }, boxes := [], mbOrder := [],
    vfEnable := false, numVfs := 0, bar2 := 39, rails := allRails, railNs := 0, msix := [], tokenNs := 0, pool := 0, headroom := 0, life := [], measures := [] }

/-- The machine right after device reset: no group, no launch, nothing in flight, time 0 (R337, R382). -/
def State.reset : State :=
  { ns := 0, mem := MemSys.reset, units := Units.reset, plat := Plat.reset, groups := [], turn := .idle, agenda := [],
    turns := 0, draws := 0, nextId := 0 }

end Sys2Proof.Machine
end

