-- ==== Sys2Proof/Machine/Tables.lean ====
section
/-! DEFINITION. Sparse tables and byte memory: the operations that every unit uses. A table keeps its indices in order;
a memory is kept in the one canonical form that `Memory.wf` states. -/
namespace Sys2Proof.Machine

/-! ## Tables -/

/-- The entry of index `i`, or `d` when none is listed. -/
def tget {α : Type} (d : α) : Tbl α → Nat → α
  | [], _ => d
  | (k, x) :: r, i => if k = i then x else tget d r i

/-- The table with entry `i` set to `x`. -/
def tset {α : Type} : Tbl α → Nat → α → Tbl α
  | [], i, x => [(i, x)]
  | (k, y) :: r, i, x =>
    if i < k then (i, x) :: (k, y) :: r
    else if k = i then (i, x) :: r
    else (k, y) :: tset r i x

/-- The table with entry `i` changed by `f`. -/
def tmod {α : Type} (d : α) (t : Tbl α) (i : Nat) (f : α → α) : Tbl α := tset t i (f (tget d t i))

/-- The table without entry `i`. -/
def tdel {α : Type} (t : Tbl α) (i : Nat) : Tbl α := t.filter fun e => e.1 != i

/-- Sets the entries of a list of pairs, one after another. -/
def tsetAll {α : Type} (t : Tbl α) : List (Nat × α) → Tbl α
  | [] => t
  | (i, x) :: r => tsetAll (tset t i x) r

/-! ## Byte memory -/

/-- The byte at address `a`. -/
def Memory.get : Memory → Nat → Byte
  | [], _ => Memory.unlisted
  | (k, b) :: r, a => if k = a then b else Memory.get r a

/-- Inserts a listed byte in address order. -/
def Memory.insert : Memory → Nat → Byte → Memory
  | [], a, b => [(a, b)]
  | (k, c) :: r, a, b => if a < k then (a, b) :: (k, c) :: r else (k, c) :: Memory.insert r a b

/-- Removes every entry of address `a`. -/
def Memory.erase (m : Memory) (a : Nat) : Memory := m.filter fun e => e.1 != a

/-- The memory after byte `b` is written at address `a`: the byte an unlisted address reads as is not listed. -/
def Memory.set (m : Memory) (a : Nat) (b : Byte) : Memory :=
  if b = Memory.unlisted then m.erase a else (m.erase a).insert a b

/-- Are the addresses of the entries at least `lo` and strictly rising, and no entry one that need not be listed? -/
def Memory.wfFrom : Nat → Memory → Bool
  | _, [] => true
  | lo, (a, b) :: r => decide (lo ≤ a) && (b != Memory.unlisted) && Memory.wfFrom (a + 1) r

/-- The canonical form of a memory: addresses strictly rising, no entry equal to what an unlisted address reads as. -/
def Memory.wf (m : Memory) : Bool := Memory.wfFrom 0 m

/-- The `n` bytes from address `a` on. -/
def Memory.read (m : Memory) (a : Nat) : Nat → List Byte
  | 0 => []
  | n + 1 => m.get a :: Memory.read m (a + 1) n

/-- The memory after the bytes are written from address `a` on. -/
def Memory.write (m : Memory) (a : Nat) : List Byte → Memory
  | [] => m
  | b :: r => Memory.write (m.set a b) (a + 1) r

/-- The memory with addresses `a` to `a + n − 1` reading as unlisted. -/
def Memory.clear (m : Memory) (a n : Nat) : Memory := m.filter fun e => e.1 < a || a + n ≤ e.1

/-- The entries of addresses `a` to `a + n − 1`, moved down to start at 0. -/
def Memory.slice (m : Memory) (a n : Nat) : Memory :=
  (m.filter fun e => a ≤ e.1 && e.1 < a + n).map fun e => (e.1 - a, e.2)

/-- Writes every entry of `part` at its address plus `a`. -/
def Memory.paste (m : Memory) (a : Nat) : Memory → Memory
  | [] => m
  | (k, b) :: r => Memory.paste (m.set (a + k) b) a r

/-! ## Numbers as bytes (R12, R74: little-endian) -/

/-- The number that bytes hold, the first byte lowest. -/
def leNat : List Byte → Nat
  | [] => 0
  | b :: r => b.toNat + 256 * leNat r

/-- The low `n` bytes of a number, the lowest first. -/
def leBytes : Nat → Nat → List Byte
  | 0, _ => []
  | n + 1, v => BitVec.ofNat 8 v :: leBytes n (v / 256)

/-- Bits `lo` to `lo + n − 1` of a number. -/
def bits (v lo n : Nat) : Nat := v / 2 ^ lo % 2 ^ n

/-- Bit `i` of a number. -/
def bit (v i : Nat) : Bool := v / 2 ^ i % 2 == 1

/-- A number with bits `lo` to `lo + n − 1` replaced by those of `x`. -/
def setBits (v lo n x : Nat) : Nat := v % 2 ^ lo + x % 2 ^ n * 2 ^ lo + v / 2 ^ (lo + n) * 2 ^ (lo + n)

/-- The little-endian number in `n` bytes of a byte list from offset `o` on; missing bytes are 0. -/
def leAt (l : List Byte) (o n : Nat) : Nat := leNat ((l.drop o).take n)

/-- A byte list with `n` bytes from offset `o` on replaced by the number `v`. -/
def leSet (l : List Byte) (o n v : Nat) : List Byte := l.take o ++ leBytes n v ++ l.drop (o + n)

/-- The 32-bit word as a number 0 or 1. -/
def boolWord (b : Bool) : Word := if b then 1 else 0

/-- The signed value of a number of `n` bits. -/
def toSigned (n v : Nat) : Int := if v % 2 ^ n < 2 ^ (n - 1) then (v % 2 ^ n : Nat) else (v % 2 ^ n : Nat) - (2 ^ n : Nat)

/-- An integer modulo 2^n. -/
def wrapTo (n : Nat) (v : Int) : Nat := (v % (2 ^ n : Nat)).toNat

/-- The lanes of a mask, lowest first. -/
def lanesOf (m : Mask) : List Nat := (List.range 32).filter fun l => m.getLsbD l

/-- The mask of a list of lanes. -/
def maskOf (l : List Nat) : Mask := l.foldl (fun m i => m ||| (1#32 <<< i)) 0

/-- The lane mask of a set of strands (R23): strand j holds lanes 4j to 4j + 3. -/
def strandLanes (b : BitVec 8) : Mask :=
  (List.range 8).foldl (fun m j => if b.getLsbD j then m ||| (15#32 <<< (4 * j)) else m) 0

/-- The four bits of a lane mask that belong to strand j. -/
def strandBits (m : Mask) (j : Nat) : BitVec 4 := BitVec.ofNat 4 (m.toNat / 2 ^ (4 * j))

/-- The lanes 0 to n − 1. -/
def lowLanes (n : Nat) : Mask := BitVec.ofNat 32 (2 ^ n - 1)

/-- The list with element `i` replaced by `f` of it. -/
def modifyNth {α : Type} (f : α → α) : Nat → List α → List α
  | _, [] => []
  | 0, x :: r => f x :: r
  | n + 1, x :: r => x :: modifyNth f n r

/-- A list without element `i`. -/
def removeNth {α : Type} : Nat → List α → List α
  | _, [] => []
  | 0, _ :: r => r
  | n + 1, x :: r => x :: removeNth n r

end Sys2Proof.Machine
end

