-- ==== Sys2Proof/Machine/Flags.lean ====
section
/-! DEFINITION. Flag sets (R58) and integer arithmetic: elements of packed values (R49), exact results that wrap or clamp
(R57, R150), shifts, bit counts and bit fields (R115 to R118, R151 to R154), comparisons (R93, R155). -/
namespace Sys2Proof.Machine

/-! ## Flags (R58) -/

/-- NX, inexact. -/
def fNX : Nat := 1
/-- UF, underflow. -/
def fUF : Nat := 2
/-- OF, overflow. -/
def fOF : Nat := 4
/-- DZ, division by zero. -/
def fDZ : Nat := 8
/-- NV, invalid. -/
def fNV : Nat := 16
/-- IS, an integer result was clamped. -/
def fIS : Nat := 32

/-- A flag when a condition holds. -/
def flagIf (b : Bool) (f : Nat) : Nat := if b then f else 0

/-- The OR of flag sets. -/
def orAll (l : List Nat) : Nat := l.foldl (· ||| ·) 0

/-! ## Packed elements (R49) -/

/-- Elements of width `w` in `n` registers. -/
def elems (w n v : Nat) : List Nat := (List.range (32 * n / w)).map fun i => bits v (w * i) w

/-- The value made of elements of width `w`, element 0 lowest. -/
def packElems (w : Nat) : List Nat → Nat
  | [] => 0
  | x :: r => x % 2 ^ w + 2 ^ w * packElems w r

/-! ## Exact integer results -/

/-- An element read in the signedness of its type. -/
def readInt (signed : Bool) (w v : Nat) : Int := if signed then toSigned w v else (v % 2 ^ w : Nat)

/-- MIN(t). -/
def intMin (signed : Bool) (w : Nat) : Int := if signed then -((2 ^ (w - 1) : Nat) : Int) else 0

/-- MAX(t). -/
def intMax (signed : Bool) (w : Nat) : Int := if signed then (2 ^ (w - 1) : Nat) - 1 else (2 ^ w : Nat) - 1

/-- Clamps to the range of a type. -/
def intClamp (signed : Bool) (w : Nat) (x : Int) : Int := max (intMin signed w) (min x (intMax signed w))

/-- Wraps or clamps an exact integer result (R57, R150): the element and the flags. -/
def intFinish (sat signed : Bool) (w : Nat) (x : Int) : Nat × Nat :=
  if sat then
    let r := intClamp signed w x
    (wrapTo w r, flagIf (r != x) fIS)
  else (wrapTo w x, 0)

/-- Applies an exact function of three operands to every element, then wraps or clamps: the value and the flags. -/
def intMap (t : ITy) (sat : Bool) (f : Int → Int → Int → Int) (b c d : Nat) : Nat × Nat :=
  let w := t.width
  let rs := (List.range (32 * t.regs / w)).map fun i =>
    intFinish sat t.signed w (f (readInt t.signed w (bits b (w * i) w)) (readInt t.signed w (bits c (w * i) w))
      (readInt t.signed w (bits d (w * i) w)))
  (packElems w (rs.map (·.1)), orAll (rs.map (·.2)))

/-- Applies a function of bit patterns to every element. -/
def bitMap (t : ITy) (f : Nat → Nat → Nat → Nat) (b c : Nat) : Nat :=
  packElems t.width ((List.range (32 * t.regs / t.width)).map fun i =>
    f t.width (bits b (t.width * i) t.width) (bits c (t.width * i) t.width))

/-- IMULH: floor(b·c / 2^w) (R150). -/
def mulHigh (w : Nat) (b c : Int) : Int := b * c / ((2 ^ w : Nat) : Int)

/-! ## Shifts and bit counts on a pattern of `w` bits (R152) -/

/-- Shift left; a count of the width or more gives 0. -/
def shlBits (w b n : Nat) : Nat := if n ≥ w then 0 else b * 2 ^ n % 2 ^ w

/-- Shift right filling with zeros. -/
def shrBits (w b n : Nat) : Nat := if n ≥ w then 0 else b % 2 ^ w / 2 ^ n

/-- Shift right filling with copies of the top bit. -/
def shaBits (w b n : Nat) : Nat :=
  wrapTo w (toSigned w b / ((2 ^ (min n (w - 1)) : Nat) : Int))

/-- Rotate left. -/
def rotBits (w b n : Nat) : Nat :=
  let m := n % w
  (b * 2 ^ m + b % 2 ^ w / 2 ^ (w - m)) % 2 ^ w

/-- The number of 1 bits. -/
def popBits : Nat → Nat → Nat
  | 0, _ => 0
  | w + 1, b => b % 2 + popBits w (b / 2)

/-- The number of leading 0 bits. -/
def clzBits (w b : Nat) : Nat := if b % 2 ^ w = 0 then w else w - 1 - Nat.log2 (b % 2 ^ w)

/-- The bits in the reverse order. -/
def revBits : Nat → Nat → Nat
  | 0, _ => 0
  | w + 1, b => b % 2 * 2 ^ w + revBits w (b / 2)

/-! ## Bit fields (R118, R153) -/

/-- SBFX: the field of `len` bits at `pos`, sign-extended when `sx`. -/
def bitField (a : Nat) (sx : Bool) (pos len : Nat) : Nat :=
  let f := a / 2 ^ pos % 2 ^ len
  if sx && bit f (len - 1) then wrapTo 32 ((f : Int) - (2 ^ len : Nat)) else f

/-- The clamped length of a field. -/
def fieldLen (p n : Nat) : Nat := min n (32 - p)

/-- BFX. -/
def bfxBits (signed : Bool) (b p n : Nat) : Nat :=
  if p ≥ 32 || fieldLen p n = 0 then 0 else bitField b signed p (fieldLen p n)

/-- BFI. -/
def bfiBits (b c p n : Nat) : Nat :=
  if p ≥ 32 then c % 2 ^ 32 else setBits c p (fieldLen p n) b % 2 ^ 32

/-- IDOT4: the exact sum (R151). -/
def dot4 (bs cs : Bool) (b c d : Nat) : Int :=
  (List.range 4).foldl (fun acc j => acc + readInt bs 8 (bits b (8 * j) 8) * readInt cs 8 (bits c (8 * j) 8))
    (toSigned 32 d)

/-! ## Comparisons -/

/-- The conditions of R93 on two words: 0 eq, 1 ne, 2 lt, 3 le, 4 gt, 5 ge (signed), 6 ltn, 7 len, 8 gtn, 9 gen (natural),
10 tst, 11 tstz. -/
def scalarCond (cc : Nat) (a b : Word) : Bool :=
  match cc with
  | 0 => a == b
  | 1 => a != b
  | 2 => a.slt b
  | 3 => a.sle b
  | 4 => b.slt a
  | 5 => b.sle a
  | 6 => a.ult b
  | 7 => a.ule b
  | 8 => b.ult a
  | 9 => b.ule a
  | 10 => a &&& b != 0
  | _ => a &&& b == 0

/-- The conditions of ICMP (R155). -/
def laneCond (cc : Nat) (signed : Bool) (w b c : Nat) : Bool :=
  let x := readInt signed w b
  let y := readInt signed w c
  match cc with
  | 0 => x == y
  | 1 => x != y
  | 2 => decide (x < y)
  | 3 => decide (x ≤ y)
  | 4 => decide (x > y)
  | 5 => decide (x ≥ y)
  | 6 => b &&& c != 0
  | _ => b &&& c == 0

/-- Bit 2·a + b of a four-bit truth table (R93, R170). -/
def tableBit (t : Nat) (a b : Bool) : Bool := bit t ((if a then 2 else 0) + (if b then 1 else 0))

end Sys2Proof.Machine
end

