-- ==== Sys2Proof/Machine/Float.lean ====
section
/-! DEFINITION. The floating-point formats of R47, exact values, the one rounding of R53 to R55 and R398, saturation
(R57), the arithmetic of R157 to R162 and the conversions of R60. A finite value is exact: a sign, a magnitude m and a
power of two. -/
namespace Sys2Proof.Machine

/-! ## Formats and values -/

/-- A format of R47: exponent width, fraction width, bias, and whether it has infinities. -/
structure FFmt where
  ebits : Nat
  fbits : Nat
  bias : Nat
  hasInf : Bool
  deriving DecidableEq, Repr

/-- FP32. -/
def fp32 : FFmt := ⟨8, 23, 127, true⟩
/-- FP16. -/
def fp16 : FFmt := ⟨5, 10, 15, true⟩
/-- BF16. -/
def bf16 : FFmt := ⟨8, 7, 127, true⟩
/-- E4M3. -/
def e4m3 : FFmt := ⟨4, 3, 7, false⟩
/-- E5M2. -/
def e5m2 : FFmt := ⟨5, 2, 15, true⟩

/-- The element format of a float type (R84). -/
def fmtOf : FTy → FFmt
  | .f32 => fp32
  | .f16x2 => fp16
  | .bf16x2 => bf16
  | .e4m3x4 => e4m3
  | .e5m2x4 => e5m2

/-- A value: NaN (signalling or not), infinity, or ±m·2^e. -/
inductive FVal where
  | nan (sig : Bool)
  | inf (neg : Bool)
  | fin (neg : Bool) (m : Nat) (e : Int)
  deriving DecidableEq, Repr

/-- Is the value a NaN? -/
def FVal.isNan : FVal → Bool
  | .nan _ => true
  | _ => false

/-- Is the value a signalling NaN (R52)? -/
def FVal.isSig : FVal → Bool
  | .nan s => s
  | _ => false

/-- Is the value a zero of either sign? -/
def FVal.isZero : FVal → Bool
  | .fin _ m _ => m == 0
  | _ => false

/-- Is the value infinite? -/
def FVal.isInf : FVal → Bool
  | .inf _ => true
  | _ => false

/-- The sign of a value. -/
def FVal.isNeg : FVal → Bool
  | .nan _ => false
  | .inf n => n
  | .fin n _ _ => n

/-- The value with its sign inverted. -/
def FVal.negate : FVal → FVal
  | .nan s => .nan s
  | .inf n => .inf (!n)
  | .fin n m e => .fin (!n) m e

/-- An integer as a value. -/
def FVal.ofInt (i : Int) : FVal := .fin (decide (i < 0)) i.natAbs 0

/-- +0. -/
def FVal.zero : FVal := .fin false 0 0

/-- 2^k for an integer k that is not negative, 1 below. -/
def pow2 (k : Int) : Nat := 2 ^ k.toNat

/-- Compares a·2^i with b·2^j: is the first smaller? -/
def dyLt (a : Nat) (i : Int) (b : Nat) (j : Int) : Bool := decide (a * pow2 (i - j) < b * pow2 (j - i))

/-- The largest finite magnitude of a format. -/
def FFmt.maxM (f : FFmt) : Nat := if f.hasInf then 2 ^ (f.fbits + 1) - 1 else 2 ^ (f.fbits + 1) - 2
/-- The power of two that goes with `FFmt.maxM`. -/
def FFmt.maxE (f : FFmt) : Int := (if f.hasInf then (f.bias : Int) else (f.bias : Int) + 1) - (f.fbits : Int)
/-- The exponent of the subnormal spacing. -/
def FFmt.minE (f : FFmt) : Int := 1 - (f.bias : Int) - (f.fbits : Int)
/-- The width of a format. -/
def FFmt.width (f : FFmt) : Nat := 1 + f.ebits + f.fbits

/-- The value of a pattern (R47). -/
def FFmt.decode (f : FFmt) (v : Nat) : FVal :=
  let neg := bit v (f.ebits + f.fbits)
  let e := bits v f.fbits f.ebits
  let m := bits v 0 f.fbits
  if f.hasInf && e == 2 ^ f.ebits - 1 then
    if m == 0 then .inf neg else .nan (!bit m (f.fbits - 1))
  else if !f.hasInf && e == 2 ^ f.ebits - 1 && m == 2 ^ f.fbits - 1 then .nan false
  else if e == 0 then .fin neg m f.minE
  else .fin neg (2 ^ f.fbits + m) (f.minE + (e : Int) - 1)

/-- The canonical NaN (R52). -/
def FFmt.nan (f : FFmt) : Nat :=
  if f.hasInf then (2 ^ f.ebits - 1) * 2 ^ f.fbits + 2 ^ (f.fbits - 1) else 2 ^ (f.ebits + f.fbits) - 1

/-- The pattern of a value that the format represents; an infinity where the format has none gives NaN (R57). -/
def FFmt.encode (f : FFmt) (v : FVal) : Nat :=
  let sgn (neg : Bool) : Nat := if neg then 2 ^ (f.ebits + f.fbits) else 0
  match v with
  | .nan _ => f.nan
  | .inf neg => if f.hasInf then sgn neg + (2 ^ f.ebits - 1) * 2 ^ f.fbits else f.nan
  | .fin neg m e =>
    if m == 0 then sgn neg
    else
      let top := (Nat.log2 m : Int) + e
      if top < 1 - (f.bias : Int) then sgn neg + m * pow2 (e - f.minE) / pow2 (f.minE - e)
      else
        let k := Nat.log2 m
        let frac := if k ≤ f.fbits then m * 2 ^ (f.fbits - k) else m / 2 ^ (k - f.fbits)
        sgn neg + (top + (f.bias : Int)).toNat * 2 ^ f.fbits + (frac - 2 ^ f.fbits)

/-! ## Rounding (R53, R55, R398) -/

/-- A rounded result: its value, its flags, and whether it used a draw of RS. -/
structure FOut where
  v : FVal
  flags : Nat
  used : Bool
  deriving DecidableEq, Repr

/-- Does the mode round the magnitude n + rem/2^k up? `st` says that the exact value lies strictly above. -/
def roundUp (mode : Rnd) (r : Nat) (neg : Bool) (n rem k : Nat) (st : Bool) : Bool :=
  match mode with
  | .rn => decide (2 * rem > 2 ^ k) || (2 * rem == 2 ^ k && (st || n % 2 == 1))
  | .ra => decide (2 * rem ≥ 2 ^ k)
  | .rz => false
  | .ru => !neg
  | .rd => neg
  | .rs => decide (rem * 2 ^ 32 + r * 2 ^ k ≥ 2 ^ (32 + k))
  | .dyn => false

/-- The value that an overflow delivers (R398). -/
def overflowVal (f : FFmt) (mode : Rnd) (neg : Bool) : FVal :=
  match mode with
  | .rn | .ra => .inf neg
  | .ru => if neg then .fin neg f.maxM f.maxE else .inf neg
  | .rd => if neg then .inf neg else .fin neg f.maxM f.maxE
  | .rz | .rs | .dyn => .fin neg f.maxM f.maxE

/-- Rounds ±m·2^e, or with `st` a value strictly between m·2^e and (m + 1)·2^e, once (R53, R55, R398). -/
def roundTo (f : FFmt) (mode : Rnd) (r : Nat) (neg : Bool) (m : Nat) (e : Int) (st : Bool) : FOut :=
  if m == 0 then ⟨.fin neg 0 0, 0, false⟩
  else
    let q := max ((Nat.log2 m : Int) + e - (f.fbits : Int)) f.minE
    let k := (q - e).toNat
    let n := if e ≥ q then m * pow2 (e - q) else m / 2 ^ k
    let rem := if e ≥ q then 0 else m % 2 ^ k
    let exact := rem == 0 && !st
    let n' := if !exact && roundUp mode r neg n rem k st then n + 1 else n
    if dyLt f.maxM f.maxE n' q then ⟨overflowVal f mode neg, fOF ||| fNX, mode == .rs⟩
    else ⟨.fin neg n' q, flagIf (!exact) fNX ||| flagIf (!exact && n' != 0 && decide (n' < 2 ^ f.fbits)) fUF,
      mode == .rs && !exact⟩

/-- Saturation of a rounded value (R57). -/
def satFloat (f : FFmt) (sat : Sat) (v : FVal) : FVal :=
  match sat with
  | .wrap => v
  | .clamp =>
    match v with
    | .inf n => .fin n f.maxM f.maxE
    | v => v
  | .clampNan =>
    match v with
    | .nan _ => FVal.zero
    | .inf n => .fin n f.maxM f.maxE
    | v => v
  | .unit =>
    match v with
    | .nan _ => FVal.zero
    | .inf n => if n then FVal.zero else .fin false 1 0
    | .fin n m e =>
      if n || m == 0 then FVal.zero else if dyLt 1 0 m e then .fin false 1 0 else .fin false m e

/-! ## Exact results -/

/-- The exact result of an operation: NaN (invalid or not), an infinity (division by zero or not), an exact value, a
value strictly between m·2^e and (m + 1)·2^e, a value strictly between m·2^e and n·2^e, or one that the model cannot
enclose. -/
inductive XVal where
  | nan (nv : Bool)
  | inf (neg dz : Bool)
  | fin (neg : Bool) (m : Nat) (e : Int)
  | above (neg : Bool) (m : Nat) (e : Int)
  | between (neg : Bool) (m n : Nat) (e : Int)
  | unknown
  deriving DecidableEq, Repr

/-- A value as an exact result. -/
def XVal.ofVal : FVal → XVal
  | .nan _ => .nan false
  | .inf n => .inf n false
  | .fin n m e => .fin n m e

/-- Rounds an exact result; `free` is the pattern taken where the enclosure does not decide the rounding (log 6). An infinite
result is exact in every format, so OF and NX stay clear (DESIGN CHOICE where the format has no infinity: log 89). -/
def roundX (f : FFmt) (mode : Rnd) (r free : Nat) (x : XVal) : FOut :=
  match x with
  | .nan nv => ⟨.nan false, flagIf nv fNV, false⟩
  | .inf neg dz => ⟨.inf neg, flagIf dz fDZ, false⟩
  | .fin neg m e => roundTo f mode r neg m e false
  | .above neg m e => roundTo f mode r neg m e true
  | .between neg m n e =>
    let a := roundTo f mode r neg m e true
    if a == roundTo f mode r neg (n - 1) e true then a else ⟨f.decode free, fNX, mode == .rs⟩
  | .unknown => ⟨f.decode free, fNX, mode == .rs⟩

/-- The sum of two signed magnitudes at the smaller exponent. -/
def dyAdd (a b : Bool × Nat × Int) : Int × Int :=
  let e := min a.2.2 b.2.2
  let x : Int := (a.2.1 * pow2 (a.2.2 - e) : Nat)
  let y : Int := (b.2.1 * pow2 (b.2.2 - e) : Nat)
  ((if a.1 then -x else x) + (if b.1 then -y else y), e)

/-- The finite parts of a list of values summed exactly: a signed magnitude and an exponent. -/
def dySum : List FVal → Int × Int
  | [] => (0, 0)
  | .fin n m e :: r =>
    let s := dySum r
    if m == 0 then s else if s.1 == 0 then ((if n then -(m : Int) else (m : Int)), e)
    else dyAdd (n, m, e) (decide (s.1 < 0), s.1.natAbs, s.2)
  | _ :: r => dySum r

/-- The exact sum of terms, with the sign of a zero sum (R157); `bad` says that a term is already invalid. -/
def sumX (mode : Rnd) (bad : Bool) (l : List FVal) : XVal :=
  let pos := l.any fun v => v == .inf false
  let neg := l.any fun v => v == .inf true
  if bad || (pos && neg) then .nan true
  else if l.any FVal.isNan then .nan false
  else if pos || neg then .inf neg false
  else
    let s := dySum l
    if s.1 != 0 then .fin (decide (s.1 < 0)) s.1.natAbs s.2
    else if l.all FVal.isZero && l.all FVal.isNeg then .fin true 0 0
    else if l.all FVal.isZero && l.all (fun v => !v.isNeg) then .fin false 0 0
    else .fin (mode == .rd) 0 0

/-- Is the product 0 · ∞? -/
def badProd (a b : FVal) : Bool := (a.isZero && b.isInf) || (a.isInf && b.isZero)

/-- The exact product of two values; 0 · ∞ gives NaN. -/
def prod (a b : FVal) : FVal :=
  match a, b with
  | .nan _, _ | _, .nan _ => .nan false
  | .inf x, .inf y => .inf (x != y)
  | .inf x, .fin y m _ => if m == 0 then .nan false else .inf (x != y)
  | .fin x m _, .inf y => if m == 0 then .nan false else .inf (x != y)
  | .fin x m e, .fin y n g => .fin (x != y) (m * n) (e + g)

/-- b · 2^c; beyond 4096 binades the result is the same as at 4096. -/
def scaleVal (b : FVal) (c : Int) : FVal :=
  match b with
  | .fin n m e => .fin n m (e + max (-4096) (min c 4096))
  | v => v

/-- Rounds an exact result, saturates it and gives its pattern (R157): the pattern, the flags, and whether a draw was
used. `sig` says that an operand is a signalling NaN. -/
def finishX (f : FFmt) (mode : Rnd) (sat : Sat) (r free : Nat) (sig : Bool) (x : XVal) : Nat × Nat × Bool :=
  let o := roundX f mode r free x
  (f.encode (satFloat f sat o.v), o.flags ||| flagIf sig fNV, o.used)

/-! ## Functions of one operand (R158): integer square roots and enclosures in fixed point -/

/-- The largest s with s² ≤ n, by bits from 2^k down. -/
def isqrtBits : Nat → Nat → Nat → Nat
  | 0, _, s => s
  | k + 1, n, s => isqrtBits k n (if (s + 2 ^ k) * (s + 2 ^ k) ≤ n then s + 2 ^ k else s)

/-- The integer square root. -/
def isqrt (n : Nat) : Nat := isqrtBits (Nat.log2 n / 2 + 1) n 0

/-- Fraction bits of the fixed-point enclosures. -/
def fixP : Nat := 400
/-- 1 in fixed point. -/
def fixOne : Nat := 2 ^ 400
/-- The width of the enclosures about a fixed-point result. -/
def fixMargin : Nat := 2 ^ 24
/-- floor(ln 2 · 2^400). -/
def fixLn2 : Nat := 0xb17217f7d1cf79abc9e3b39803f2f6af40f343267298b62d8a0d175b8baafa2be7b876206debac98559552fb4afa1b10ed2e
/-- floor(π/2 · 2^640). -/
def halfPi640 : Nat := 0x1921fb54442d18469898cc51701b839a252049c1114cf98e804177d4c76273644a29410f31c6809bbdf2a33679a748636605614dbe4be286e9fc26adadaa3848bc90b6aecc4bcfd8de89885d34c6fdad6

/-- Σ x^n/n! from the term `t` on, in fixed point. -/
def expSeries : Nat → Nat → Nat → Nat → Nat
  | 0, _, _, _ => 0
  | k + 1, x, n, t => t + expSeries k x (n + 1) (t * x / fixOne / n)

/-- e^x for 0 ≤ x < 1 in fixed point. -/
def expFix (x : Nat) : Nat := expSeries 100 x 1 fixOne

/-- Σ (−1)^i t·(r²)^i over the factorials from n on, in fixed point. -/
def trigSeries : Nat → Nat → Nat → Int → Int
  | 0, _, _, _ => 0
  | k + 1, r2, n, t => t + trigSeries k r2 (n + 2) (-(t * (r2 : Int) / (fixOne : Int) / ((n * (n + 1) : Nat) : Int)))

/-- Σ w^(2i+1)/(2i+1) in fixed point. -/
def atanhSeries : Nat → Nat → Nat → Nat → Nat
  | 0, _, _, _ => 0
  | k + 1, w2, n, t => t / n + atanhSeries k w2 (n + 2) (t * w2 / fixOne)

/-- A fixed-point result within the margin, as an enclosure. -/
def fixX (v : Int) (e : Int) : XVal :=
  if v.natAbs ≤ fixMargin then .unknown
  else .between (decide (v < 0)) (v.natAbs - fixMargin) (v.natAbs + fixMargin) e

/-- m·2^e in fixed point with p fraction bits, rounded down. -/
def toFix (p m : Nat) (e : Int) : Nat := m * pow2 (e + (p : Int)) / pow2 (-(e + (p : Int)))

/-- 1/b for finite b ≠ 0. -/
def rcpX (neg : Bool) (m : Nat) (e : Int) : XVal :=
  let k := Nat.log2 m + 200
  if 2 ^ k % m == 0 then .fin neg (2 ^ k / m) (-e - (k : Int)) else .above neg (2 ^ k / m) (-e - (k : Int))

/-- √b for finite b > 0. -/
def sqrtX (m : Nat) (e : Int) : XVal :=
  let odd := e % 2 != 0
  let m2 := (if odd then 2 * m else m) * 2 ^ 400
  let e2 := (if odd then e - 1 else e) / 2 - 200
  let s := isqrt m2
  if s * s == m2 then .fin false s e2 else .above false s e2

/-- 1/√b for finite b > 0. -/
def rsqX (m : Nat) (e : Int) : XVal :=
  let odd := e % 2 != 0
  let m1 := if odd then 2 * m else m
  let k := Nat.log2 m1 + 200
  let s := isqrt (2 ^ (2 * k) / m1)
  let e2 := -((if odd then e - 1 else e) / 2) - (k : Int)
  if s * s * m1 == 2 ^ (2 * k) then .fin false s e2 else .above false s e2

/-- 2^b for finite b. -/
def exp2X (neg : Bool) (m : Nat) (e : Int) : XVal :=
  if m == 0 then .fin false 1 0
  else if dyLt 4096 0 m e then .above false 1 (if neg then -4097 else 4096)
  else
    let b : Int := if neg then -((toFix fixP m e : Nat) : Int) else (toFix fixP m e : Nat)
    let i := b / (fixOne : Int)
    let fr := (b % (fixOne : Int)).toNat
    if fr == 0 then .fin false 1 i else fixX (expFix (fr * fixLn2 / fixOne)) (i - 400)

/-- log₂ b for finite b > 0. -/
def log2X (m : Nat) (e : Int) : XVal :=
  let l := Nat.log2 m
  let i : Int := (l : Int) + e
  if m == 2 ^ l then .fin (decide (i < 0)) i.natAbs 0
  else
    let z := toFix fixP m (-(l : Int))
    let w := (z - fixOne) * fixOne / (z + fixOne)
    let ln := 2 * atanhSeries 140 (w * w / fixOne) 1 w
    fixX (i * (fixOne : Int) + ((ln * fixOne / fixLn2 : Nat) : Int)) (-400)

/-- sin x or cos x for finite x ≠ 0 given by its magnitude, before the sign of an odd function. -/
def trigX (cosine : Bool) (m : Nat) (e : Int) : XVal :=
  if dyLt m e 1 (-60) then
    if cosine then .between false (pow2 (-2 * e) - m * m) (pow2 (-2 * e)) (2 * e)
    else .between false (m * pow2 (-2 * e) - m * m * m) (m * pow2 (-2 * e)) (3 * e)
  else
    let x := toFix 640 m e
    let k := x / halfPi640
    let r := x % halfPi640 / 2 ^ 240
    let r2 := r * r / fixOne
    let s := trigSeries 100 r2 2 (r : Int)
    let c := trigSeries 100 r2 1 (fixOne : Int)
    let q := (k + if cosine then 1 else 0) % 4
    fixX (match q with
      | 0 => s
      | 1 => c
      | 2 => -s
      | _ => -c) (-400)

/-- tanh x for finite x ≠ 0 given by its magnitude. -/
def tanhX (m : Nat) (e : Int) : XVal :=
  if dyLt m e 1 (-60) then .between false (m * pow2 (-2 * e) - m * m * m) (m * pow2 (-2 * e)) (3 * e)
  else if dyLt 128 0 m e then .between false (fixOne - 2 ^ 40) fixOne (-400)
  else
    let y := toFix fixP m (e + 1)
    let g := expFix (y % fixLn2) * 2 ^ (y / fixLn2)
    fixX (((g - fixOne) * fixOne / (g + fixOne) : Nat) : Int) (-400)

/-- An exact result with the sign of an odd function's operand. -/
def XVal.withSign (neg : Bool) : XVal → XVal
  | .fin n m e => .fin (n != neg) m e
  | .above n m e => .above (n != neg) m e
  | .between n m k e => .between (n != neg) m k e
  | x => x

/-- The functions of R158. -/
inductive FFun where
  | rcp | rsq | sqrt | exp2 | log2 | sin | cos | tanh
  deriving DecidableEq, Repr

/-- The number of a function, for a value the model leaves free. -/
def FFun.code : FFun → Nat
  | .rcp => 0
  | .rsq => 1
  | .sqrt => 2
  | .exp2 => 3
  | .log2 => 4
  | .sin => 5
  | .cos => 6
  | .tanh => 7

/-- The exact value of a function, with the special operands of R158. -/
def funX (g : FFun) (b : FVal) : XVal :=
  match b with
  | .nan _ => .nan false
  | .inf n =>
    match g with
    | .rcp => .fin n 0 0
    | .rsq => if n then .nan true else .fin false 0 0
    | .sqrt | .log2 => if n then .nan true else .inf false false
    | .exp2 => if n then .fin false 0 0 else .inf false false
    | .sin | .cos => .nan true
    | .tanh => .fin n 1 0
  | .fin n m e =>
    if m == 0 then
      match g with
      | .rcp | .rsq => .inf n true
      | .sqrt | .sin | .tanh => .fin n 0 0
      | .exp2 | .cos => .fin false 1 0
      | .log2 => .inf true true
    else
      match g with
      | .rcp => rcpX n m e
      | .rsq => if n then .nan true else rsqX m e
      | .sqrt => if n then .nan true else sqrtX m e
      | .exp2 => exp2X n m e
      | .log2 => if n then .nan true else log2X m e
      | .sin => (trigX false m e).withSign n
      | .cos => trigX true m e
      | .tanh => (tanhX m e).withSign n

/-! ## Selection, classes and comparison (R160 to R162) -/

/-- The order of values without NaN, −0 below +0. -/
def fLess (a b : FVal) : Bool :=
  match a, b with
  | .inf x, .inf y => x && !y
  | .inf x, _ => x
  | _, .inf y => !y
  | .fin x m e, .fin y n g =>
    if m == 0 && n == 0 then x && !y
    else if x && !y then true
    else if !x && y then false
    else if x then dyLt n g m e
    else dyLt m e n g
  | _, _ => false

/-- Are two values equal, zeros of both signs being equal? -/
def fEq (a b : FVal) : Bool :=
  match a, b with
  | .inf x, .inf y => x == y
  | .fin x m e, .fin y n g => (m == 0 && n == 0) || (x == y && !dyLt m e n g && !dyLt n g m e)
  | _, _ => false

/-- FMIN or FMAX (R160). -/
def fSelect (maxi : Bool) (a b : FVal) : FVal :=
  if a.isNan then (if b.isNan then .nan false else b)
  else if b.isNan then a
  else if maxi then (if fLess a b then b else a)
  else if fLess b a then b else a

/-- The class code of FCLS (R161). -/
def fClass (f : FFmt) (v : FVal) : Nat :=
  match v with
  | .nan s => if s then 0 else 1
  | .inf n => if n then 2 else 9
  | .fin n m e =>
    if m == 0 then (if n then 5 else 6)
    else if dyLt m e 1 (1 - (f.bias : Int)) then (if n then 4 else 7)
    else if n then 3 else 8

/-- The conditions of FCMP (R162). -/
def fCond (cc : Nat) (a b : FVal) : Bool :=
  let un := a.isNan || b.isNan
  let lt := !un && fLess a b && !fEq a b
  match cc with
  | 0 => fEq a b
  | 1 => !fEq a b
  | 2 => lt
  | 3 => lt || fEq a b
  | 4 => !un && !lt && !fEq a b
  | 5 => !un && !lt
  | 6 => un
  | _ => !un

/-! ## Rounding to integers (R60, R159) -/

/-- Rounds a magnitude m·2^e to an integer: the integer, whether it was exact. -/
def roundInt (mode : Rnd) (r : Nat) (neg : Bool) (m : Nat) (e : Int) : Nat × Bool :=
  if e ≥ 0 then (m * pow2 e, true)
  else
    let k := (-e).toNat
    let rem := m % 2 ^ k
    let n := m / 2 ^ k
    if rem == 0 then (n, true) else (if roundUp mode r neg n rem k false then n + 1 else n, false)

/-- Float to integer (R60): pattern, flags, draw used. -/
def floatToInt (signed : Bool) (w : Nat) (mode : Rnd) (r : Nat) (v : FVal) : Nat × Nat × Bool :=
  match v with
  | .nan _ => (0, fNV, false)
  | .inf n => (wrapTo w (if n then intMin signed w else intMax signed w), fNV, false)
  | .fin n m e =>
    let y := roundInt mode r n m e
    let i : Int := if n then -(y.1 : Int) else (y.1 : Int)
    let c := intClamp signed w i
    if c != i then (wrapTo w c, fNV, mode == .rs)
    else (wrapTo w i, flagIf (!y.2) fNX, mode == .rs && !y.2)

/-- FRND (R159): value, flags, draw used. -/
def roundIntegral (mode : Rnd) (r : Nat) (v : FVal) : FOut :=
  match v with
  | .nan s => ⟨.nan false, flagIf s fNV, false⟩
  | .inf n => ⟨.inf n, 0, false⟩
  | .fin n m e =>
    let y := roundInt mode r n m e
    ⟨.fin n y.1 0, flagIf (!y.2) fNX, mode == .rs && !y.2⟩

/-! ## Draws (R56) -/

/-- One step of the LFSR. -/
def lfsrStep (s : Nat) : Nat := if s % 2 == 1 then Nat.xor (s / 2) 0x80200003 else s / 2

/-- n steps of the LFSR. -/
def lfsrSteps : Nat → Nat → Nat
  | 0, s => s
  | n + 1, s => lfsrSteps n (lfsrStep s)

/-- The state after a draw: 32 steps. -/
def lfsrDraw (s : Nat) : Nat := lfsrSteps 32 s

/-- Runs an element operation over elements in ascending order, each with its own draw (R55): the patterns, the flags,
the LFSR state after, and whether any draw was used. -/
def withDraws : (Nat → Nat → Nat × Nat × Bool) → List Nat → Nat → List Nat × Nat × Nat × Bool
  | _, [], s => ([], 0, s, false)
  | g, i :: r, s =>
    let y := g i s
    let z := withDraws g r (if y.2.2 then lfsrDraw s else s)
    (y.1 :: z.1, y.2.1 ||| z.2.1, z.2.2.1, y.2.2 || z.2.2.2)

end Sys2Proof.Machine
end

