-- ==== Sys2Proof/WellFormed.lean ====
section
/-! DEFINITION. Well-formed instructions: those that pass every decode check of R98 that does not depend on the group.
The checks themselves are `Instr.fieldsOk` and `Instr.regsOk` in Sys2Proof/Machine/Checks.lean. -/
namespace Sys2Proof

/-- The instruction breaks no rule of its encoding (R98, checks 1, 3, 4 and the static part of 5). -/
def Instr.WellFormed (i : Instr) : Bool := i.fieldsOk && i.regsOk

end Sys2Proof
end

