-- ==== Sys2Proof/Decode.lean ====
section
/-! DEFINITION. Decoding of the two instruction formats (R74 to R97) and, after it, the encoder written from the same
tables. Decoding is total: a word that is no instruction is `ill 1` (trap 0x01) or `ill 2` (trap 0x02), by the order of
checks of R98. Fields are read with div and mod, so that every bit of a word has one place. -/
namespace Sys2Proof

/-- What the decoder makes of a word: an instruction, or the trap that its first failing static check gives (R98). -/
inductive Decoded where
  | ok (i : Instr)
  | ill (cause : Nat)
  deriving DecidableEq, Repr

/-- The instruction, if there is one. -/
def Decoded.toOption : Decoded → Option Instr
  | .ok i => some i
  | .ill _ => none

/-- The static checks of R98 on a candidate that the fields named: `none` stands for a failed check 1 or 3. -/
def Decoded.ofCandidate : Option Instr → Decoded
  | none => .ill 1
  | some i => if i.fieldsOk then (if i.regsOk then .ok i else .ill 2) else .ill 1

/-- The value of an n-bit field read as two's complement. -/
def sext (n v : Nat) : Int := if v < 2 ^ (n - 1) then (v : Int) else (v : Int) - (2 ^ n : Nat)

/-- The n-bit two's-complement field of an integer. -/
def field (n : Nat) (i : Int) : Nat := (i % (2 ^ n : Nat)).toNat

/-- Codes of the memory orders (R88). -/
def MOrd.ofCode : Nat → Option MOrd
  | 0 => some .plain
  | 1 => some .acq
  | 2 => some .rel
  | 3 => some .acqrel
  | _ => none
/-- The code of a memory order. -/
def MOrd.code : MOrd → Nat
  | .plain => 0
  | .acq => 1
  | .rel => 2
  | .acqrel => 3

/-- Codes of the scopes (R15, R16); 6 and 7 are reserved. -/
def Scope.ofCode : Nat → Option Scope
  | 0 => some .grp
  | 1 => some .team
  | 2 => some .block
  | 3 => some .die
  | 4 => some .dev
  | 5 => some .sys
  | _ => none
/-- The code of a scope. -/
def Scope.code : Scope → Nat
  | .grp => 0
  | .team => 1
  | .block => 2
  | .die => 3
  | .dev => 4
  | .sys => 5

/-- Codes of the rounding modes (R53); 110 is illegal (R85). -/
def Rnd.ofCode : Nat → Option Rnd
  | 0 => some .rn
  | 1 => some .rz
  | 2 => some .ru
  | 3 => some .rd
  | 4 => some .ra
  | 5 => some .rs
  | 7 => some .dyn
  | _ => none
/-- The code of a rounding mode. -/
def Rnd.code : Rnd → Nat
  | .rn => 0
  | .rz => 1
  | .ru => 2
  | .rd => 3
  | .ra => 4
  | .rs => 5
  | .dyn => 7

/-- Codes of the saturation modes (R57). -/
def Sat.ofCode : Nat → Option Sat
  | 0 => some .wrap
  | 1 => some .clamp
  | 2 => some .clampNan
  | 3 => some .unit
  | _ => none
/-- The code of a saturation mode. -/
def Sat.code : Sat → Nat
  | .wrap => 0
  | .clamp => 1
  | .clampNan => 2
  | .unit => 3

/-- Integer column of R84. -/
def ITy.ofCode : Nat → Option ITy
  | 0 => some .i32
  | 1 => some .n32
  | 2 => some .i64
  | 3 => some .n64
  | 4 => some .i16x2
  | 5 => some .n16x2
  | 6 => some .i8x4
  | 7 => some .n8x4
  | _ => none
/-- The TYP code of an integer type. -/
def ITy.code : ITy → Nat
  | .i32 => 0
  | .n32 => 1
  | .i64 => 2
  | .n64 => 3
  | .i16x2 => 4
  | .n16x2 => 5
  | .i8x4 => 6
  | .n8x4 => 7

/-- Float column of R84. -/
def FTy.ofCode : Nat → Option FTy
  | 0 => some .f32
  | 1 => some .f16x2
  | 2 => some .bf16x2
  | 3 => some .e4m3x4
  | 4 => some .e5m2x4
  | _ => none
/-- The TYP code of a float type. -/
def FTy.code : FTy → Nat
  | .f32 => 0
  | .f16x2 => 1
  | .bf16x2 => 2
  | .e4m3x4 => 3
  | .e5m2x4 => 4

/-- Memory column of R84. -/
def MTy.ofCode : Nat → Option MTy
  | 0 => some .b8
  | 1 => some .b16
  | 2 => some .b32
  | 3 => some .b64
  | 4 => some .b128
  | 5 => some .b256
  | _ => none
/-- The TYP code of a memory width. -/
def MTy.code : MTy → Nat
  | .b8 => 0
  | .b16 => 1
  | .b32 => 2
  | .b64 => 3
  | .b128 => 4
  | .b256 => 5

/-- Atomic types (R186). -/
def ATy.ofCode : Nat → Option ATy
  | 0 => some .i32
  | 1 => some .n32
  | 2 => some .i64
  | 3 => some .n64
  | 4 => some .f32
  | 5 => some .bf16x2
  | _ => none
/-- The TYP code of an atomic type. -/
def ATy.code : ATy → Nat
  | .i32 => 0
  | .n32 => 1
  | .i64 => 2
  | .n64 => 3
  | .f32 => 4
  | .bf16x2 => 5

/-- Atomic ops (R186). -/
def AOp.ofCode : Nat → Option AOp
  | 0 => some .add
  | 1 => some .min
  | 2 => some .max
  | 3 => some .and
  | 4 => some .or
  | 5 => some .xor
  | 6 => some .exch
  | _ => none
/-- The E code of an atomic op. -/
def AOp.code : AOp → Nat
  | .add => 0
  | .min => 1
  | .max => 2
  | .and => 3
  | .or => 4
  | .xor => 5
  | .exch => 6

/-- SATOM operations (R126). -/
def SAOp.ofCode : Nat → SAOp
  | 0 => .add
  | 1 => .exch
  | 2 => .and
  | _ => .or
/-- The SUB[1:0] code of a SATOM operation. -/
def SAOp.code : SAOp → Nat
  | .add => 0
  | .exch => 1
  | .and => 2
  | .or => 3

/-- Widths of SLD and SST (R125); 11 is reserved. -/
def SW.ofCode : Nat → Option SW
  | 0 => some .w32
  | 1 => some .w8
  | 2 => some .w16
  | _ => none
/-- The SUB[1:0] code of a scalar width. -/
def SW.code : SW → Nat
  | .w32 => 0
  | .w8 => 1
  | .w16 => 2

/-- Cache hints (R86); 7 is reserved. -/
def Hint.ofCode : Nat → Option Hint
  | 0 => some .dflt
  | 1 => some .stream
  | 2 => some .keep
  | 3 => some .nol1
  | 4 => some .nol2
  | 5 => some .rcopy
  | 6 => some .inb
  | _ => none
/-- The CH code of a hint. -/
def Hint.code : Hint → Nat
  | .dflt => 0
  | .stream => 1
  | .keep => 2
  | .nol1 => 3
  | .nol2 => 4
  | .rcopy => 5
  | .inb => 6

/-- MX block formats (R164); 11 is reserved. -/
def MxFmt.ofCode : Nat → Option MxFmt
  | 0 => some .e4m3
  | 1 => some .e5m2
  | 2 => some .e2m1x
  | _ => none
/-- The SUB[1:0] code of a block format. -/
def MxFmt.code : MxFmt → Nat
  | .e4m3 => 0
  | .e5m2 => 1
  | .e2m1x => 2

/-! ## Scalar words -/

/-- Fields of a scalar word (R92), with the IMM32 of an SX instruction. -/
structure SFields where
  op : Nat
  d : Nat
  a : Nat
  b : Nat
  imm : Nat
  deriving DecidableEq, Repr

/-- The fields of the word w0 followed by w1. -/
def SFields.of (w0 w1 : Nat) : SFields :=
  { op := w0 / 16777216 % 256, d := w0 / 65536 % 256, a := w0 / 256 % 256, b := w0 % 256, imm := w1 % 4294967296 }

/-- IMM16 (R92). -/
def SFields.imm16 (f : SFields) : Nat := f.a * 256 + f.b
/-- OFF20 (R92). -/
def SFields.off20 (f : SFields) : Int := sext 20 (f.d % 16 * 65536 + f.a * 256 + f.b)
/-- IMM32 as a signed offset (R94). -/
def SFields.off (f : SFields) : Int := sext 32 f.imm

/-- The candidate if the condition on its unused fields holds. -/
def onlyIf (c : Bool) (i : Instr) : Option Instr := if c then some i else none

/-- Is the opcode one of the SX format, with a second word (R95)? -/
def isSX (op : Nat) : Bool :=
  [0x1D, 0x22, 0x24, 0x30, 0x31, 0x32, 0x33, 0x34, 0x35, 0x36, 0x37, 0x50, 0x52, 0x60, 0x61, 0x62, 0x63, 0x64, 0x68,
   0x69, 0x6A, 0x6B, 0x6C, 0x70, 0x71, 0x72, 0x74, 0x80, 0x81, 0x90, 0x91, 0x92, 0x93, 0x98, 0x99, 0x9A, 0x9B].elem op

/-- Arithmetic, logic, moves, compares (R115 to R123). -/
def decodeArith (f : SFields) : Option Instr :=
  match f.op with
  | 0x00 => onlyIf (f.d == 0 && f.a == 0 && f.b == 0) .snop
  | 0x01 => some (.sadd f.d f.a f.b)
  | 0x02 => some (.ssub f.d f.a f.b)
  | 0x03 => some (.smul f.d f.a f.b)
  | 0x04 => some (.smulh f.d f.a f.b)
  | 0x05 => some (.smulhn f.d f.a f.b)
  | 0x06 => some (.sand f.d f.a f.b)
  | 0x07 => some (.sor f.d f.a f.b)
  | 0x08 => some (.sxor f.d f.a f.b)
  | 0x09 => some (.sshl f.d f.a f.b)
  | 0x0A => some (.sshr f.d f.a f.b)
  | 0x0B => some (.ssha f.d f.a f.b)
  | 0x0C => some (.smin f.d f.a f.b)
  | 0x0D => some (.smax f.d f.a f.b)
  | 0x0E => some (.sminn f.d f.a f.b)
  | 0x0F => some (.smaxn f.d f.a f.b)
  | 0x10 => some (.saddi f.d f.imm16)
  | 0x11 => some (.smovi f.d f.imm16)
  | 0x12 => some (.slui f.d f.imm16)
  | 0x13 => some (.sandi f.d f.imm16)
  | 0x14 => some (.sori f.d f.imm16)
  | 0x15 => onlyIf (f.b / 32 == 0) (.sshli f.d f.a (f.b % 32))
  | 0x16 => onlyIf (f.b / 32 == 0) (.sshri f.d f.a (f.b % 32))
  | 0x17 => onlyIf (f.b / 32 == 0) (.sshai f.d f.a (f.b % 32))
  | 0x18 => some (.sadd64 f.d f.a f.b)
  | 0x19 => some (.ssub64 f.d f.a f.b)
  | 0x1A => onlyIf (f.b == 0) (.smov f.d f.a)
  | 0x1B => some (.smvxf f.d f.a f.b)
  | 0x1C => some (.smvxt f.d f.a f.b)
  | 0x1D =>
      onlyIf (f.b / 2 == 0 && f.imm / 32 % 8 == 0 && f.imm / 16384 == 0)
        (.sbfx f.d f.a (f.b % 2 == 1) (f.imm % 32) (f.imm / 256 % 64))
  | 0x1E => onlyIf (f.b == 0) (.spopc f.d f.a)
  | 0x1F => onlyIf (f.b == 0) (.sclz f.d f.a)
  | 0x20 => onlyIf (f.d / 8 % 2 == 0) (.scmp (f.d / 16) (f.d % 8) f.a f.b)
  | 0x21 => onlyIf (f.d / 8 % 2 == 0) (.scmpi (f.d / 16) (f.d % 8) f.a f.b)
  | 0x22 =>
      if f.b / 16 % 2 == 0 then onlyIf (f.b / 32 == 0 && f.imm / 256 == 0) (.ssel f.d f.a (f.b % 16) (.reg (f.imm % 256)))
      else onlyIf (f.b / 32 == 0) (.ssel f.d f.a (f.b % 16) (.imm f.imm))
  | 0x23 => onlyIf (f.d / 8 % 2 == 0 && f.a / 8 == 0 && f.b / 8 == 0) (.qlop (f.d / 16) (f.d % 8) (f.a % 8) (f.b % 8))
  | 0x24 => onlyIf (f.a == 0 && f.b / 2 == 0) (.sldi f.d (f.b % 2 == 1) f.imm)
  | _ => none

/-- Scalar memory, branches and dispatch (R94, R96, R124 to R136). DESIGN CHOICE (log 89): with a count of 0, A of LGO and LGOT
names no register that is copied, and R96 does not say that it must then be 0: such a word is accepted, whatever A holds. -/
def decodeMem (f : SFields) : Option Instr :=
  match f.op with
  | 0x30 => do
      let w ← SW.ofCode (f.b % 4); let o ← MOrd.ofCode (f.b / 4 % 4); let sc ← Scope.ofCode (f.b / 16 % 8)
      some (.sld f.d f.a w o sc (f.b / 128 == 1) f.off)
  | 0x31 => do
      let o ← MOrd.ofCode (f.b / 4 % 4); let sc ← Scope.ofCode (f.b / 16 % 8)
      onlyIf (f.b % 4 == 0) (.sld64 f.d f.a o sc (f.b / 128 == 1) f.off)
  | 0x32 => do
      let w ← SW.ofCode (f.b % 4); let o ← MOrd.ofCode (f.b / 4 % 4); let sc ← Scope.ofCode (f.b / 16 % 8)
      onlyIf (f.b / 128 == 0) (.sst f.d f.a w o sc f.off)
  | 0x33 => do
      let o ← MOrd.ofCode (f.b / 4 % 4); let sc ← Scope.ofCode (f.b / 16 % 8)
      onlyIf (f.b % 4 == 0 && f.b / 128 == 0) (.sst64 f.d f.a o sc f.off)
  | 0x34 => do
      let o ← MOrd.ofCode (f.b / 4 % 4); let sc ← Scope.ofCode (f.b / 16 % 8)
      some (.satom f.d f.a (SAOp.ofCode (f.b % 4)) o sc (f.b / 128 == 1) f.off)
  | 0x35 => do
      let o ← MOrd.ofCode (f.b / 4 % 4); let sc ← Scope.ofCode (f.b / 16 % 8)
      onlyIf (f.b % 4 == 0) (.scas f.d f.a o sc (f.b / 128 == 1) f.off)
  | 0x36 => do
      let sc ← Scope.ofCode (f.b / 16 % 8)
      if f.b / 4 % 4 == 0 && f.b / 128 == 0 then
        match f.b % 4 with
        | 0 => some (.spfxPf f.d f.a sc f.off)
        | 1 => onlyIf (sc == .sys) (.spfxWb f.d f.a f.off)
        | 2 => onlyIf (sc == .sys) (.spfxInv f.d f.a f.off)
        | _ => none
      else none
  | 0x37 => do
      let o ← MOrd.ofCode (f.b / 4 % 4); let sc ← Scope.ofCode (f.b / 16 % 8)
      onlyIf (f.d == 0 && f.a == 0 && f.b % 4 == 0 && f.imm == 0) (.sfnc o sc (f.b / 128 == 1))
  | 0x40 => some (.sbr (f.d / 16) f.off20)
  | 0x41 => some (.scall (f.d / 16) f.off20)
  | 0x42 => onlyIf (f.d == 0 && f.a == 0 && f.b == 0) .sret
  | 0x43 => onlyIf (f.d == 0 && f.b == 0) (.sjmpr f.a)
  | 0x44 => some (.sloop f.d (sext 16 f.imm16))
  | 0x50 => onlyIf (f.d == 0 && f.b / 16 == 0) (.lgo f.a (f.b % 16) f.imm)
  | 0x51 => onlyIf (f.d == 0 && f.a == 0 && f.b == 0) .lwait
  | 0x52 => onlyIf (f.d == 0 && f.b / 16 == 0) (.lgot f.a (f.b % 16) f.imm)
  | _ => none

/-- The completion mode in SUB[1:0] with its operand (R285). -/
def Compl.ofCode (m imm : Nat) : Option Compl :=
  match m with
  | 0 => if imm = 0 then some .none else Option.none
  | 1 => some (.yield (sext 32 imm))
  | 2 => some (.bar imm)
  | 3 => some (.task imm)
  | _ => Option.none
/-- SUB[1:0] of a completion mode. -/
def Compl.mode : Compl → Nat
  | .none => 0
  | .yield _ => 1
  | .bar _ => 2
  | .task _ => 3
/-- IMM32 of a completion mode. -/
def Compl.imm : Compl → Nat
  | .none => 0
  | .yield o => field 32 o
  | .bar o => o
  | .task id => id

/-- Engine commands (R97, R284 to R309). -/
def decodeEngine (f : SFields) : Option Instr :=
  match f.op with
  | 0x60 => do
      let cm ← Compl.ofCode (f.b % 4) f.imm
      onlyIf (f.d == 0 && f.b / 4 % 2 == 0 && f.b / 128 == 0) (.cpy f.a cm (f.b / 8 % 16))
  | 0x61 =>
      onlyIf (f.d == 0 && f.b % 8 == 0 && f.b / 128 == 0 && f.imm / 256 == 0)
        (.cpym f.a (f.b / 8 % 16) (f.imm % 256))
  | 0x62 => do
      let cm ← Compl.ofCode (f.b % 4) f.imm
      onlyIf (f.d == 0 && f.b / 4 % 2 == 0 && f.b / 128 == 0) (.gath f.a cm (f.b / 8 % 16))
  | 0x63 => do
      let cm ← Compl.ofCode (f.b % 4) f.imm
      onlyIf (f.d == 0 && f.b / 4 % 2 == 0 && f.b / 128 == 0) (.scat f.a cm (f.b / 8 % 16))
  | 0x64 => do
      let cm ← Compl.ofCode (f.b % 4) f.imm
      onlyIf (f.d == 0 && f.b / 4 % 2 == 0 && f.b / 128 == 0) (.mcast f.a cm (f.b / 8 % 16))
  | 0x68 => onlyIf (f.d == 0 && f.b == 0 && f.imm == 0) (.mmac f.a)
  | 0x69 => onlyIf (f.d == 0 && f.b == 0 && f.imm == 0) (.mzro f.a)
  | 0x6A => onlyIf (f.d == 0 && f.b == 0 && f.imm == 0) (.macc f.a)
  | 0x6B => onlyIf (f.a == 0 && f.b == 0 && f.imm == 0) (.mfnc f.d)
  | 0x6C =>
      if f.b == 0 then onlyIf (f.d == 0 && f.a == 0 && f.imm / 65536 == 0) (.mwait (f.imm % 65536))
      else onlyIf (f.b == 1 && f.d == 0 && f.a == 0 && f.imm / 256 == 0) (.mwaitR (f.imm % 256))
  | 0x70 => do
      let cm ← Compl.ofCode (f.b % 4) f.imm
      onlyIf (f.b / 4 == 0) (.msnd f.d f.a cm)
  | 0x71 => do
      let cm ← Compl.ofCode (f.b % 4) f.imm
      onlyIf (f.b / 4 == 0) (.mpst f.d f.a cm)
  | 0x72 => onlyIf (f.b == 0 && f.imm == 0) (.mprb f.d f.a)
  | 0x74 => onlyIf (f.d == 0 && f.a == 0 && f.b == 0 && f.imm == 0) .rcfnc
  | _ => none

/-- Bundle, synchronisation, scheduling and system instructions (R96). -/
def decodeSystem (f : SFields) : Option Instr :=
  match f.op with
  | 0x80 => onlyIf (f.b == 0) (.bdecl f.d f.a f.off)
  | 0x81 =>
      if f.b == 0 then onlyIf (f.d == 0 && f.imm == 0) (.benter f.a)
      else onlyIf (f.b == 1 && f.d == 0) (.benterYield f.a f.off)
  | 0x82 => onlyIf (f.d == 0 && f.a == 0 && f.b == 0) .bleave
  | 0x83 => onlyIf (f.b == 0) (.bqry f.d f.a)
  | 0x84 => onlyIf (f.b == 0) (.bfree f.d f.a)
  | 0x90 => onlyIf (f.d == 0 && f.a == 0 && (f.b == 1 || f.b == 2)) (.bar (f.b == 2) f.imm)
  | 0x91 => onlyIf (f.d == 0 && f.b == 0) (.barp f.a f.imm)
  | 0x92 => onlyIf (f.d == 0 && f.b == 0) (.bara f.a f.imm)
  | 0x93 => onlyIf (f.b == 0) (.barw f.d f.a f.imm)
  | 0x94 => onlyIf (f.d == 0 && f.a == 0) (.evset f.b)
  | 0x95 => onlyIf (f.d == 0 && f.a == 0) (.evclr f.b)
  | 0x96 => onlyIf (f.d == 0 && f.a == 0) (.evwait f.b)
  | 0x98 => onlyIf (f.b == 0) (.launch f.d f.a f.off)
  | 0x99 => onlyIf (f.d == 0 && f.a == 0 && f.b == 0) (.tsig f.imm)
  | 0x9A => onlyIf (f.b == 0) (.jraise f.d f.a f.off)
  | 0x9B => onlyIf (f.d == 0 && f.b == 0) (.jdone f.a f.off)
  | 0x9C => onlyIf (f.d == 0 && f.a == 0 && f.b == 0) .yield
  | 0x9D => onlyIf (f.d == 0 && f.b == 0) (.sleepns f.a)
  | 0x9E => onlyIf (f.d == 0 && f.b == 0) (.waitns f.a)
  | 0x9F => onlyIf (f.d == 0 && f.a == 0 && f.b / 16 == 0) (.ppt (f.b % 16))
  | 0xC0 => onlyIf (f.b == 0) (.srds f.d f.a)
  | 0xC1 => onlyIf (f.d == 0) (.swrs f.a f.b)
  | 0xC2 => onlyIf (f.d == 0) (.trap f.imm16)
  | 0xC3 => onlyIf (f.d == 0 && f.a == 0 && f.b == 0) .tret
  | 0xC4 => onlyIf (f.d == 0 && f.a == 0 && f.b == 0) .bkpt
  | 0xC5 => onlyIf (f.d == 0 && f.a == 0 && f.b == 0) .exit
  | _ => none

/-- The candidate instruction of a scalar word, before the checks on its operands. -/
def scalarCandidate (f : SFields) : Option Instr :=
  if f.op < 0x30 then decodeArith f
  else if f.op < 0x60 then decodeMem f
  else if f.op < 0x80 then decodeEngine f
  else decodeSystem f

/-- The scalar instruction whose first word is w0 and whose second word, read only in the SX format, is w1. -/
def decodeScalar (w0 w1 : Nat) : Decoded := .ofCandidate (scalarCandidate (SFields.of w0 w1))

/-! ## Lane words -/

/-- Fields of a lane word (R77). -/
structure LFields where
  op : Nat
  sub : Nat
  typ : Nat
  rnd : Nat
  sat : Nat
  nf : Nat
  sw : Nat
  rg : Nat
  ch : Nat
  gc : Nat
  gq : Nat
  gp : Nat
  xt : Nat
  e : Nat
  d : Nat
  c : Nat
  b : Nat
  a : Nat
  deriving DecidableEq, Repr

/-- The fields of a lane word (R77). -/
def LFields.of (w : Nat) : LFields :=
  { op := w / 2 ^ 86 % 1024, sub := w / 2 ^ 82 % 16, typ := w / 2 ^ 79 % 8, rnd := w / 2 ^ 76 % 8,
    sat := w / 2 ^ 74 % 4, nf := w / 2 ^ 73 % 2, sw := w / 2 ^ 72 % 2, rg := w / 2 ^ 71 % 2, ch := w / 2 ^ 68 % 8,
    gc := w / 2 ^ 67 % 2, gq := w / 2 ^ 63 % 16, gp := w / 2 ^ 59 % 16, xt := w / 2 ^ 55 % 16,
    e := w / 2 ^ 44 % 2048, d := w / 2 ^ 33 % 2048, c := w / 2 ^ 22 % 2048, b := w / 2 ^ 11 % 2048, a := w % 2048 }

/-- The lane word of a set of fields (R77). -/
def LFields.word (f : LFields) : Nat :=
  f.op * 2 ^ 86 + f.sub * 2 ^ 82 + f.typ * 2 ^ 79 + f.rnd * 2 ^ 76 + f.sat * 2 ^ 74 + f.nf * 2 ^ 73 + f.sw * 2 ^ 72 +
    f.rg * 2 ^ 71 + f.ch * 2 ^ 68 + f.gc * 2 ^ 67 + f.gq * 2 ^ 63 + f.gp * 2 ^ 59 + f.xt * 2 ^ 55 + f.e * 2 ^ 44 +
    f.d * 2 ^ 33 + f.c * 2 ^ 22 + f.b * 2 ^ 11 + f.a

/-- The operand an operand code names (R79); a reserved code is `none` (trap 0x01). -/
def Opnd.ofCode (n : Nat) : Option Opnd :=
  if n < 0x200 then some (.v n)
  else if n < 0x600 then some (.s (n - 0x200))
  else if n < 0x700 then some (.c (n - 0x600))
  else if n < 0x71C then some (.sp (n - 0x700))
  else if n < 0x720 then Option.none
  else if n < 0x728 then some (.k (n - 0x720))
  else if n < 0x730 then some (.p (n - 0x728))
  else if n < 0x738 then some (.a (n - 0x730))
  else if n < 0x740 then some (.wa (n - 0x738))
  else if n < 0x780 then Option.none
  else if n < 0x7FF then some (.imm ((n : Int) - 0x7BF))
  else some .none

/-- The operand code of an operand (R79). -/
def Opnd.code : Opnd → Nat
  | .v n => n
  | .s n => n + 0x200
  | .c n => n + 0x600
  | .sp n => n + 0x700
  | .k n => n + 0x720
  | .p n => n + 0x728
  | .a n => n + 0x730
  | .wa n => n + 0x738
  | .imm i => (i + 0x7BF).toNat
  | .none => 0x7FF

/-- The 22-bit offset of an offset pair (R83): bits [10:0] in the first field, [21:11] in the second. -/
def offPair (lo hi : Nat) : Int := sext 22 (lo + hi * 2048)

/-- The header of a lane word. -/
def LFields.hdr (f : LFields) : Hdr := { sw := f.sw == 1, rg := f.rg == 1, gc := f.gc == 1, gp := f.gp, gq := f.gq }
/-- The default guard (R78). -/
def LFields.noGuard (f : LFields) : Bool := f.gp == 7 && f.gq == 7 && f.gc == 0
/-- RND, SAT, NF, CH and XT are 0 (R89). -/
def LFields.bare (f : LFields) : Bool := f.rnd == 0 && f.sat == 0 && f.nf == 0 && f.ch == 0 && f.xt == 0
/-- The unused operand fields after the first n are 0x7FF (R79). -/
def LFields.restNone (f : LFields) (n : Nat) : Bool := ([f.a, f.b, f.c, f.d, f.e].drop n).all (· == 0x7FF)

/-- The candidate of an integer instruction (R149). -/
def decodeInt (f : LFields) : Option Instr := do
  let h := f.hdr
  let sat := f.sat == 1
  let nf := f.nf == 1
  let arith := f.rnd == 0 && f.sat < 2 && f.ch == 0 && f.xt == 0
  let a ← Opnd.ofCode f.a; let b ← Opnd.ofCode f.b; let c ← Opnd.ofCode f.c; let d ← Opnd.ofCode f.d
  let e ← Opnd.ofCode f.e
  let t ← ITy.ofCode f.typ
  match f.op with
  | 0x010 => onlyIf (arith && f.sub == 0 && f.restNone 3) (.iadd h t sat nf a b c)
  | 0x011 => onlyIf (arith && f.sub == 0 && f.restNone 3) (.isub h t sat nf a b c)
  | 0x012 => onlyIf (arith && f.sub == 0 && f.restNone 3) (.imul h t sat nf a b c)
  | 0x013 => onlyIf (f.bare && f.sub == 0 && f.restNone 3) (.imulh h t a b c)
  | 0x014 => onlyIf (arith && f.sub == 0 && f.restNone 4) (.imad h t sat nf a b c d)
  | 0x015 => onlyIf (f.bare && f.sub == 0 && f.restNone 3) (.imin h t a b c)
  | 0x016 => onlyIf (f.bare && f.sub == 0 && f.restNone 3) (.imax h t a b c)
  | 0x017 => onlyIf (arith && f.sub == 0 && f.restNone 2) (.iabs h t sat nf a b)
  | 0x018 => onlyIf (arith && f.sub == 0 && f.restNone 2) (.ineg h t sat nf a b)
  | 0x019 =>
      onlyIf (arith && f.sub / 4 == 0 && f.typ == 0 && f.restNone 4)
        (.idot4 h (f.sub % 2 == 1) (f.sub / 2 % 2 == 1) sat nf a b c d)
  | 0x01A => onlyIf (f.bare && f.sub == 0 && f.restNone 3) (.and h t a b c)
  | 0x01B => onlyIf (f.bare && f.sub == 0 && f.restNone 3) (.or h t a b c)
  | 0x01C => onlyIf (f.bare && f.sub == 0 && f.restNone 3) (.xor h t a b c)
  | 0x01D => onlyIf (f.bare && f.sub == 0 && f.restNone 2) (.not h t a b)
  | 0x01E => onlyIf (f.bare && f.sub == 0 && f.restNone 3) (.shl h t a b c)
  | 0x01F => onlyIf (f.bare && f.sub == 0 && f.restNone 3) (.shr h t a b c)
  | 0x020 => onlyIf (f.bare && f.sub == 0 && f.restNone 3) (.sha h t a b c)
  | 0x021 => onlyIf (f.bare && f.sub == 0 && f.restNone 3) (.rot h t a b c)
  | 0x022 => onlyIf (f.bare && f.sub == 0 && f.restNone 4) (.bfx h t a b c d)
  | 0x023 => onlyIf (f.bare && f.sub == 0) (.bfi h t a b c d e)
  | 0x024 => onlyIf (f.bare && f.sub == 0 && f.restNone 2) (.popc h t a b)
  | 0x025 => onlyIf (f.bare && f.sub == 0 && f.restNone 2) (.clz h t a b)
  | 0x026 => onlyIf (f.bare && f.sub == 0 && f.restNone 2) (.brev h t a b)
  | 0x027 => onlyIf (f.bare && f.sub == 0 && f.restNone 4) (.lea h t a b c d)
  | 0x028 => onlyIf (f.bare && f.restNone 3) (.icmp h t f.sub a b c)
  | _ => none

/-- The candidate of a float instruction (R156). -/
def decodeFlt (f : LFields) : Option Instr := do
  let h := f.hdr
  let nf := f.nf == 1
  let a ← Opnd.ofCode f.a; let b ← Opnd.ofCode f.b; let c ← Opnd.ofCode f.c; let d ← Opnd.ofCode f.d
  let t ← FTy.ofCode f.typ; let r ← Rnd.ofCode f.rnd; let sat ← Sat.ofCode f.sat
  let full := f.ch == 0 && f.xt == 0 && f.sub == 0
  let sel := f.rnd == 0 && f.sat == 0 && f.ch == 0 && f.xt == 0
  match f.op with
  | 0x040 => onlyIf (full && f.restNone 3) (.fadd h t r sat nf a b c)
  | 0x041 => onlyIf (full && f.restNone 3) (.fsub h t r sat nf a b c)
  | 0x042 => onlyIf (full && f.restNone 3) (.fmul h t r sat nf a b c)
  | 0x043 => onlyIf (full && f.restNone 4) (.ffma h t r sat nf a b c d)
  | 0x044 => onlyIf (sel && f.sub == 0 && f.restNone 3) (.fmin h t nf a b c)
  | 0x045 => onlyIf (sel && f.sub == 0 && f.restNone 3) (.fmax h t nf a b c)
  | 0x046 => onlyIf (full && f.restNone 2) (.frcp h t r sat nf a b)
  | 0x047 => onlyIf (full && f.restNone 2) (.frsq h t r sat nf a b)
  | 0x048 => onlyIf (full && f.restNone 2) (.fsqrt h t r sat nf a b)
  | 0x049 => onlyIf (full && f.restNone 2) (.fexp2 h t r sat nf a b)
  | 0x04A => onlyIf (full && f.restNone 2) (.flog2 h t r sat nf a b)
  | 0x04B => onlyIf (full && f.restNone 2) (.fsin h t r sat nf a b)
  | 0x04C => onlyIf (full && f.restNone 2) (.fcos h t r sat nf a b)
  | 0x04D => onlyIf (full && f.restNone 2) (.ftanh h t r sat nf a b)
  | 0x04E => onlyIf (full && f.restNone 2) (.frnd h t r sat nf a b)
  | 0x04F => onlyIf (full && f.restNone 3) (.fscl h t r sat nf a b c)
  | 0x050 => onlyIf (f.bare && f.sub == 0 && f.restNone 2) (.fcls h t a b)
  | 0x051 => onlyIf (sel && f.typ == 0 && f.restNone 3) (.fcmp h nf f.sub a b c)
  | 0x052 => onlyIf (full && f.restNone 4) (.fdot2 h t r sat nf a b c d)
  | _ => none

/-- The type that a TYP code names in the column selected by a bit (R163, R168). -/
def Ty.ofCode (isFlt : Bool) (n : Nat) : Option Ty :=
  if isFlt then (FTy.ofCode n).map .flt else (ITy.ofCode n).map .int
/-- The TYP code of a type of either column. -/
def Ty.code : Ty → Nat
  | .int t => t.code
  | .flt t => t.code
/-- 1 for the float column, 0 for the integer column. -/
def Ty.col : Ty → Nat
  | .int _ => 0
  | .flt _ => 1

/-- The candidate of a conversion, movement or predicate instruction (R163 to R171). -/
def decodeMove (f : LFields) : Option Instr := do
  let h := f.hdr
  let nf := f.nf == 1
  let a ← Opnd.ofCode f.a; let b ← Opnd.ofCode f.b; let c ← Opnd.ofCode f.c; let d ← Opnd.ofCode f.d
  let r ← Rnd.ofCode f.rnd; let sat ← Sat.ofCode f.sat
  match f.op with
  | 0x060 => do
      let dt ← Ty.ofCode (f.sub % 2 == 1) f.typ; let sty ← Ty.ofCode (f.sub / 2 % 2 == 1) (f.xt % 8)
      onlyIf (f.sub / 4 == 0 && f.xt / 8 == 0 && f.ch == 0 && f.restNone 2) (.cvt h dt sty r sat nf a b)
  | 0x061 => do
      let m ← MxFmt.ofCode f.sub; let t ← FTy.ofCode f.typ
      onlyIf (f.rnd == 0 && f.sat == 0 && f.ch == 0 && f.xt == 0 && f.restNone 2) (.mxq h m t nf a b)
  | 0x062 => do
      let m ← MxFmt.ofCode f.sub; let t ← FTy.ofCode f.typ
      onlyIf (f.rnd == 0 && f.sat == 0 && f.ch == 0 && f.xt == 0 && f.restNone 2) (.mxd h m t nf a b)
  | 0x070 => do let w ← MTy.ofCode f.typ; onlyIf (f.bare && f.sub == 0 && f.restNone 2) (.mov h w a b)
  | 0x071 => do let w ← MTy.ofCode f.typ; onlyIf (f.bare && f.sub == 0 && f.restNone 4) (.sel h w a b c d)
  | 0x072 => do let w ← MTy.ofCode f.typ; onlyIf (f.bare && f.sub == 0 && f.restNone 3) (.shfl h w a b c)
  | 0x073 => do let w ← MTy.ofCode f.typ; onlyIf (f.bare && f.sub == 0 && f.restNone 3) (.shflx h w a b c)
  | 0x074 => do let w ← MTy.ofCode f.typ; onlyIf (f.bare && f.sub == 0 && f.restNone 3) (.bcst h w a b c)
  | 0x075 => onlyIf (f.bare && f.sub / 4 == 0 && f.typ == 0 && f.restNone 2) (.vote h f.sub a b)
  | 0x076 => do
      let t ← Ty.ofCode (f.sub / 8 == 1) f.typ
      onlyIf (f.ch == 0 && f.xt == 0 && f.restNone 2) (.redl h t (f.sub % 8) r sat nf a b)
  | 0x077 => do
      let t ← Ty.ofCode (f.sub / 8 == 1) f.typ
      onlyIf (f.ch == 0 && f.xt / 2 == 0 && f.restNone 2) (.scnl h t (f.sub % 8) (f.xt == 1) r sat nf a b)
  | 0x078 => do let w ← MTy.ofCode f.typ; onlyIf (f.bare && f.sub == 0 && f.restNone 2) (.gtrn h w a b)
  | 0x080 => onlyIf (f.bare && f.typ == 0 && f.restNone 3) (.plop h f.sub a b c)
  | 0x081 => onlyIf (f.bare && f.sub / 2 == 0 && f.typ == 0 && f.restNone 2) (.pmov h (f.sub == 1) a b)
  | _ => none

/-- The candidate of a memory or atomic instruction (R90, R177, R185, R186). -/
def decodeLaneMem (f : LFields) : Option Instr := do
  let h := f.hdr
  let sc ← Scope.ofCode (f.xt % 8)
  let prom := f.xt / 8 == 1
  let o ← MOrd.ofCode (f.sub / 4)
  let ch ← Hint.ofCode f.ch
  let a ← Opnd.ofCode f.a; let b ← Opnd.ofCode f.b
  let plain := f.rnd == 0 && f.sat == 0 && f.nf == 0
  let off := offPair f.d f.e
  match f.op with
  | 0x100 => do
      let w ← MTy.ofCode f.typ
      onlyIf (plain && f.sub / 2 % 2 == 0 && f.c == 0x7FF) (.ld h w (f.sub % 2 == 1) o sc prom ch a b off)
  | 0x101 => do
      let w ← MTy.ofCode f.typ; let c ← Opnd.ofCode f.c
      onlyIf (plain && f.sub / 2 % 2 == 0 && !prom) (.st h w o sc ch (f.sub % 2 == 1) a b c off)
  | 0x102 => onlyIf (plain && f.sub == 0 && f.typ == 0 && !prom && f.a == 0x7FF && f.c == 0x7FF) (.pfx h sc ch b off)
  | 0x103 => onlyIf (plain && f.sub % 4 == 0 && f.typ == 0 && f.ch == 0 && f.restNone 0) (.fence h o sc prom)
  | 0x110 => do
      let t ← ATy.ofCode f.typ; let c ← Opnd.ofCode f.c; let op ← AOp.ofCode f.e
      onlyIf (plain && f.sub / 2 % 2 == 0 && f.d == 0x7FF) (.atom h op t o sc prom ch (f.sub % 2 == 1) a b c)
  | 0x111 => do
      let t ← ATy.ofCode f.typ; let c ← Opnd.ofCode f.c; let d ← Opnd.ofCode f.d
      onlyIf (plain && f.sub / 2 % 2 == 0 && f.e == 0x7FF) (.acas h t o sc prom ch (f.sub % 2 == 1) a b c d)
  | 0x112 => do
      let t ← ATy.ofCode f.typ; let c ← Opnd.ofCode f.c; let op ← AOp.ofCode f.e
      onlyIf (plain && f.sub / 2 % 2 == 0 && f.d == 0x7FF && !prom) (.ared h op t o sc ch (f.sub % 2 == 1) a b c)
  | _ => none

/-- The candidate of a control, generator, window, tile or system instruction (R193 to R199, R255 to R271, R302). -/
def decodeCtl (f : LFields) : Option Instr := do
  let h := f.hdr
  let sw := f.sw == 1
  let rg := f.rg == 1
  let bare := f.bare && f.sub == 0 && f.typ == 0
  match f.op with
  | 0x000 => onlyIf (bare && f.restNone 0) (.nop h)
  | 0x120 => onlyIf (bare && f.a == 0x7FF) (.brl h (offPair f.b f.c) (offPair f.d f.e))
  | 0x121 => onlyIf (bare && f.noGuard && f.restNone 0) (.join sw rg)
  | 0x122 => onlyIf (bare && f.noGuard && f.restNone 0) (.lend sw rg)
  | 0x123 => onlyIf (bare && f.a == 0x7FF && f.d == 0x7FF && f.e == 0x7FF) (.lcall h (offPair f.b f.c))
  | 0x124 => onlyIf (bare && f.restNone 0) (.lret h)
  | 0x125 => onlyIf (bare && f.restNone 0) (.lexit h)
  | 0x130 =>
      onlyIf (f.bare && f.typ == 0 && f.sub / 8 == 0 && f.noGuard && f.a == 0x7FF)
        (.gbeg sw rg (f.sub % 4) (f.sub / 4 % 2) (offPair f.b f.c) (offPair f.d f.e))
  | 0x131 => do let b ← Opnd.ofCode f.b; onlyIf (bare && f.a == 0x7FF && f.restNone 2) (.gyld h b)
  | 0x132 => onlyIf (bare && f.restNone 0) (.gnxt h)
  | 0x133 => onlyIf (bare && f.restNone 0) (.gdne h)
  | 0x134 => do let a ← Opnd.ofCode f.a; onlyIf (bare && f.restNone 1) (.grcv h a)
  | 0x135 => onlyIf (bare && f.noGuard && f.restNone 0) (.gret sw rg)
  | 0x136 => onlyIf (bare && f.noGuard && f.restNone 0) (.gend sw rg)
  | 0x140 => do
      let a ← Opnd.ofCode f.a; let b ← Opnd.ofCode f.b; let c ← Opnd.ofCode f.c
      onlyIf (f.bare && f.restNone 3) (.waini h f.sub f.typ a b c)
  | 0x141 => do
      let a ← Opnd.ofCode f.a; let b ← Opnd.ofCode f.b; let c ← Opnd.ofCode f.c
      onlyIf (bare && f.restNone 3) (.wapsh h a b c)
  | 0x142 => do
      let a ← Opnd.ofCode f.a; let b ← Opnd.ofCode f.b; let c ← Opnd.ofCode f.c
      onlyIf (bare && f.restNone 3) (.waqry h a b c)
  | 0x143 => do let a ← Opnd.ofCode f.a; let b ← Opnd.ofCode f.b; onlyIf (bare && f.restNone 2) (.waexp h a b)
  | 0x144 => do let a ← Opnd.ofCode f.a; let b ← Opnd.ofCode f.b; onlyIf (bare && f.restNone 2) (.wawln h a b)
  | 0x145 => do let a ← Opnd.ofCode f.a; onlyIf (bare && f.restNone 1) (.warst h a)
  | 0x150 => do
      let w ← MTy.ofCode f.typ; let a ← Opnd.ofCode f.a; let b ← Opnd.ofCode f.b; let c ← Opnd.ofCode f.c
      let d ← Opnd.ofCode f.d
      onlyIf (f.bare && f.sub == 0 && f.restNone 4) (.amovr h w a b c d)
  | 0x151 => do
      let w ← MTy.ofCode f.typ; let a ← Opnd.ofCode f.a; let b ← Opnd.ofCode f.b; let c ← Opnd.ofCode f.c
      let d ← Opnd.ofCode f.d
      onlyIf (f.bare && f.sub == 0 && f.restNone 4) (.amovw h w a b c d)
  | 0x1F0 => onlyIf (bare && f.a == 0x7FF && f.restNone 2) (.ltrap h f.b)
  | 0x1F1 => onlyIf (bare && f.restNone 0) (.lbkpt h)
  | 0x1F2 => do
      let a ← Opnd.ofCode f.a; let b ← Opnd.ofCode f.b
      onlyIf (f.bare && f.typ == 0 && f.sub / 2 == 0 && f.restNone 2) (.lrds h (f.sub == 1) a b)
  | 0x1F3 => do let a ← Opnd.ofCode f.a; let b ← Opnd.ofCode f.b; onlyIf (bare && f.restNone 2) (.lwrs h a b)
  | _ => none

/-- The candidate instruction of a lane word, before the checks on its operands. -/
def laneCandidate (f : LFields) : Option Instr :=
  if f.op = 0 then decodeCtl f
  else if f.op < 0x040 then decodeInt f
  else if f.op < 0x060 then decodeFlt f
  else if f.op < 0x100 then decodeMove f
  else if f.op < 0x120 then decodeLaneMem f
  else decodeCtl f

/-- The lane instruction of a 96-bit lane word. -/
def decodeLane (w : Nat) : Decoded := .ofCandidate (laneCandidate (LFields.of w))

/-- The instruction that the decoder reads from an instruction whose bits are w, numbered as the opcode table numbers
them; a row of more than 64 bits is a lane word. -/
def decodeTableWord (nbits w : Nat) : Option Instr :=
  if nbits ≤ 64 then (decodeScalar (w % 4294967296) (w / 4294967296 % 4294967296)).toOption
  else (decodeLane w).toOption

/-! ## The encoder -/

/-- A scalar word of four bytes (R92). -/
def sword (op d a b : Nat) : Nat := op * 16777216 + d * 65536 + a * 256 + b
/-- A scalar word of the SI format (R92). -/
def siword (op d imm : Nat) : Nat := op * 16777216 + d * 65536 + imm
/-- A scalar word of the SB format (R92). -/
def sbword (op c : Nat) (off : Int) : Nat := op * 16777216 + c * 1048576 + field 20 off
/-- The SUB byte of the scalar memory layout (R94). -/
def memSub (k : Nat) (o : MOrd) (sc : Scope) (prom : Bool) : Nat := k + o.code * 4 + sc.code * 16 + prom.toNat * 128

/-- The words of a scalar instruction: one, or two in the SX format (R92 to R97). -/
def encodeScalar : Instr → List Nat
  | .snop => [0]
  | .sadd d a b => [sword 0x01 d a b]
  | .ssub d a b => [sword 0x02 d a b]
  | .smul d a b => [sword 0x03 d a b]
  | .smulh d a b => [sword 0x04 d a b]
  | .smulhn d a b => [sword 0x05 d a b]
  | .sand d a b => [sword 0x06 d a b]
  | .sor d a b => [sword 0x07 d a b]
  | .sxor d a b => [sword 0x08 d a b]
  | .sshl d a b => [sword 0x09 d a b]
  | .sshr d a b => [sword 0x0A d a b]
  | .ssha d a b => [sword 0x0B d a b]
  | .smin d a b => [sword 0x0C d a b]
  | .smax d a b => [sword 0x0D d a b]
  | .sminn d a b => [sword 0x0E d a b]
  | .smaxn d a b => [sword 0x0F d a b]
  | .saddi d i => [siword 0x10 d i]
  | .smovi d i => [siword 0x11 d i]
  | .slui d i => [siword 0x12 d i]
  | .sandi d i => [siword 0x13 d i]
  | .sori d i => [siword 0x14 d i]
  | .sshli d a n => [sword 0x15 d a n]
  | .sshri d a n => [sword 0x16 d a n]
  | .sshai d a n => [sword 0x17 d a n]
  | .sadd64 d a b => [sword 0x18 d a b]
  | .ssub64 d a b => [sword 0x19 d a b]
  | .smov d a => [sword 0x1A d a 0]
  | .smvxf d a off => [sword 0x1B d a off]
  | .smvxt d a off => [sword 0x1C d a off]
  | .sbfx d a sx pos len => [sword 0x1D d a sx.toNat, pos + len * 256]
  | .spopc d a => [sword 0x1E d a 0]
  | .sclz d a => [sword 0x1F d a 0]
  | .scmp cc q a b => [sword 0x20 (cc * 16 + q) a b]
  | .scmpi cc q a i => [sword 0x21 (cc * 16 + q) a i]
  | .ssel d a c (.reg n) => [sword 0x22 d a c, n]
  | .ssel d a c (.imm w) => [sword 0x22 d a (c + 16), w]
  | .qlop t d a b => [sword 0x23 (t * 16 + d) a b]
  | .sldi d pair i => [sword 0x24 d 0 pair.toNat, i]
  | .sld d a w o sc prom off => [sword 0x30 d a (memSub w.code o sc prom), field 32 off]
  | .sld64 d a o sc prom off => [sword 0x31 d a (memSub 0 o sc prom), field 32 off]
  | .sst d a w o sc off => [sword 0x32 d a (memSub w.code o sc false), field 32 off]
  | .sst64 d a o sc off => [sword 0x33 d a (memSub 0 o sc false), field 32 off]
  | .satom d a op o sc prom off => [sword 0x34 d a (memSub op.code o sc prom), field 32 off]
  | .scas d a o sc prom off => [sword 0x35 d a (memSub 0 o sc prom), field 32 off]
  | .spfxPf d a sc off => [sword 0x36 d a (memSub 0 .plain sc false), field 32 off]
  | .spfxWb d a off => [sword 0x36 d a (memSub 1 .plain .sys false), field 32 off]
  | .spfxInv d a off => [sword 0x36 d a (memSub 2 .plain .sys false), field 32 off]
  | .sfnc o sc prom => [sword 0x37 0 0 (memSub 0 o sc prom), 0]
  | .sbr c off => [sbword 0x40 c off]
  | .scall c off => [sbword 0x41 c off]
  | .sret => [sword 0x42 0 0 0]
  | .sjmpr a => [sword 0x43 0 a 0]
  | .sloop d off => [siword 0x44 d (field 16 off)]
  | .lgo a n start => [sword 0x50 0 a n, start]
  | .lwait => [sword 0x51 0 0 0]
  | .lgot a n start => [sword 0x52 0 a n, start]
  | .cpy a cm g => [sword 0x60 0 a (cm.mode + g * 8), cm.imm]
  | .cpym a g m => [sword 0x61 0 a (g * 8), m]
  | .gath a cm g => [sword 0x62 0 a (cm.mode + g * 8), cm.imm]
  | .scat a cm g => [sword 0x63 0 a (cm.mode + g * 8), cm.imm]
  | .mcast a cm g => [sword 0x64 0 a (cm.mode + g * 8), cm.imm]
  | .mmac a => [sword 0x68 0 a 0, 0]
  | .mzro a => [sword 0x69 0 a 0, 0]
  | .macc a => [sword 0x6A 0 a 0, 0]
  | .mfnc d => [sword 0x6B d 0 0, 0]
  | .mwait n => [sword 0x6C 0 0 0, n]
  | .mwaitR b => [sword 0x6C 0 0 1, b]
  | .msnd d a cm => [sword 0x70 d a cm.mode, cm.imm]
  | .mpst d a cm => [sword 0x71 d a cm.mode, cm.imm]
  | .mprb d a => [sword 0x72 d a 0, 0]
  | .rcfnc => [sword 0x74 0 0 0, 0]
  | .bdecl d a off => [sword 0x80 d a 0, field 32 off]
  | .benter a => [sword 0x81 0 a 0, 0]
  | .benterYield a off => [sword 0x81 0 a 1, field 32 off]
  | .bleave => [sword 0x82 0 0 0]
  | .bqry d a => [sword 0x83 d a 0]
  | .bfree d a => [sword 0x84 d a 0]
  | .bar blk n => [sword 0x90 0 0 (1 + blk.toNat), n]
  | .barp a off => [sword 0x91 0 a 0, off]
  | .bara a off => [sword 0x92 0 a 0, off]
  | .barw d a off => [sword 0x93 d a 0, off]
  | .evset n => [sword 0x94 0 0 n]
  | .evclr n => [sword 0x95 0 0 n]
  | .evwait n => [sword 0x96 0 0 n]
  | .launch d a off => [sword 0x98 d a 0, field 32 off]
  | .tsig id => [sword 0x99 0 0 0, id]
  | .jraise d a off => [sword 0x9A d a 0, field 32 off]
  | .jdone a off => [sword 0x9B 0 a 0, field 32 off]
  | .yield => [sword 0x9C 0 0 0]
  | .sleepns a => [sword 0x9D 0 a 0]
  | .waitns a => [sword 0x9E 0 a 0]
  | .ppt m => [sword 0x9F 0 0 m]
  | .srds d r => [sword 0xC0 d r 0]
  | .swrs r b => [sword 0xC1 0 r b]
  | .trap i => [siword 0xC2 0 i]
  | .tret => [sword 0xC3 0 0 0]
  | .bkpt => [sword 0xC4 0 0 0]
  | .exit => [sword 0xC5 0 0 0]
  | _ => []

/-- Lane fields with a header, an opcode and everything else at its unused value (R79, R89). -/
def lf (op : Nat) (h : Hdr) (ops : List Opnd) : LFields :=
  { op := op, sub := 0, typ := 0, rnd := 0, sat := 0, nf := 0, sw := h.sw.toNat, rg := h.rg.toNat, ch := 0,
    gc := h.gc.toNat, gq := h.gq, gp := h.gp, xt := 0,
    a := ((ops.drop 0).headD .none).code, b := ((ops.drop 1).headD .none).code, c := ((ops.drop 2).headD .none).code,
    d := ((ops.drop 3).headD .none).code, e := ((ops.drop 4).headD .none).code }

/-- The header of an instruction that takes the default guard only (R78). -/
def Hdr.bare (sw rg : Bool) : Hdr := { sw, rg, gc := false, gp := 7, gq := 7 }

/-- Fields of a saturating integer instruction. -/
def lfI (op : Nat) (h : Hdr) (t : ITy) (sat nf : Bool) (ops : List Opnd) : LFields :=
  { lf op h ops with typ := t.code, sat := sat.toNat, nf := nf.toNat }
/-- Fields of an integer instruction without modifiers. -/
def lfP (op : Nat) (h : Hdr) (t : ITy) (ops : List Opnd) : LFields := { lf op h ops with typ := t.code }
/-- Fields of a rounding float instruction. -/
def lfF (op : Nat) (h : Hdr) (t : FTy) (r : Rnd) (sat : Sat) (nf : Bool) (ops : List Opnd) : LFields :=
  { lf op h ops with typ := t.code, rnd := r.code, sat := sat.code, nf := nf.toNat }
/-- Fields of a movement instruction. -/
def lfW (op : Nat) (h : Hdr) (w : MTy) (ops : List Opnd) : LFields := { lf op h ops with typ := w.code }
/-- The two fields of an offset pair (R83). -/
def lfOff (o : Int) : Nat × Nat := (field 22 o % 2048, field 22 o / 2048)

/-- The fields of a lane instruction (R77, R89 to R91). -/
def laneFields : Instr → Option LFields
  | .nop h => some (lf 0x000 h [])
  | .iadd h t s n a b c => some (lfI 0x010 h t s n [a, b, c])
  | .isub h t s n a b c => some (lfI 0x011 h t s n [a, b, c])
  | .imul h t s n a b c => some (lfI 0x012 h t s n [a, b, c])
  | .imulh h t a b c => some (lfP 0x013 h t [a, b, c])
  | .imad h t s n a b c d => some (lfI 0x014 h t s n [a, b, c, d])
  | .imin h t a b c => some (lfP 0x015 h t [a, b, c])
  | .imax h t a b c => some (lfP 0x016 h t [a, b, c])
  | .iabs h t s n a b => some (lfI 0x017 h t s n [a, b])
  | .ineg h t s n a b => some (lfI 0x018 h t s n [a, b])
  | .idot4 h bs cs s n a b c d =>
      some { lfI 0x019 h .i32 s n [a, b, c, d] with sub := bs.toNat + 2 * cs.toNat }
  | .and h t a b c => some (lfP 0x01A h t [a, b, c])
  | .or h t a b c => some (lfP 0x01B h t [a, b, c])
  | .xor h t a b c => some (lfP 0x01C h t [a, b, c])
  | .not h t a b => some (lfP 0x01D h t [a, b])
  | .shl h t a b c => some (lfP 0x01E h t [a, b, c])
  | .shr h t a b c => some (lfP 0x01F h t [a, b, c])
  | .sha h t a b c => some (lfP 0x020 h t [a, b, c])
  | .rot h t a b c => some (lfP 0x021 h t [a, b, c])
  | .bfx h t a b c d => some (lfP 0x022 h t [a, b, c, d])
  | .bfi h t a b c d e => some (lfP 0x023 h t [a, b, c, d, e])
  | .popc h t a b => some (lfP 0x024 h t [a, b])
  | .clz h t a b => some (lfP 0x025 h t [a, b])
  | .brev h t a b => some (lfP 0x026 h t [a, b])
  | .lea h t a b c d => some (lfP 0x027 h t [a, b, c, d])
  | .icmp h t cc a b c => some { lfP 0x028 h t [a, b, c] with sub := cc }
  | .fadd h t r s n a b c => some (lfF 0x040 h t r s n [a, b, c])
  | .fsub h t r s n a b c => some (lfF 0x041 h t r s n [a, b, c])
  | .fmul h t r s n a b c => some (lfF 0x042 h t r s n [a, b, c])
  | .ffma h t r s n a b c d => some (lfF 0x043 h t r s n [a, b, c, d])
  | .fmin h t n a b c => some (lfF 0x044 h t .rn .wrap n [a, b, c])
  | .fmax h t n a b c => some (lfF 0x045 h t .rn .wrap n [a, b, c])
  | .frcp h t r s n a b => some (lfF 0x046 h t r s n [a, b])
  | .frsq h t r s n a b => some (lfF 0x047 h t r s n [a, b])
  | .fsqrt h t r s n a b => some (lfF 0x048 h t r s n [a, b])
  | .fexp2 h t r s n a b => some (lfF 0x049 h t r s n [a, b])
  | .flog2 h t r s n a b => some (lfF 0x04A h t r s n [a, b])
  | .fsin h t r s n a b => some (lfF 0x04B h t r s n [a, b])
  | .fcos h t r s n a b => some (lfF 0x04C h t r s n [a, b])
  | .ftanh h t r s n a b => some (lfF 0x04D h t r s n [a, b])
  | .frnd h t r s n a b => some (lfF 0x04E h t r s n [a, b])
  | .fscl h t r s n a b c => some (lfF 0x04F h t r s n [a, b, c])
  | .fcls h t a b => some (lfF 0x050 h t .rn .wrap false [a, b])
  | .fcmp h n cc a b c => some { lfF 0x051 h .f32 .rn .wrap n [a, b, c] with sub := cc }
  | .fdot2 h t r s n a b c d => some (lfF 0x052 h t r s n [a, b, c, d])
  | .cvt h dt sty r s n a b => some
      { lf 0x060 h [a, b] with
        typ := dt.code, sub := dt.col + 2 * sty.col, xt := sty.code, rnd := r.code, sat := s.code, nf := n.toNat }
  | .mxq h m t n a b => some { lfF 0x061 h t .rn .wrap n [a, b] with sub := m.code }
  | .mxd h m t n a b => some { lfF 0x062 h t .rn .wrap n [a, b] with sub := m.code }
  | .mov h w a b => some (lfW 0x070 h w [a, b])
  | .sel h w a b c d => some (lfW 0x071 h w [a, b, c, d])
  | .shfl h w a b c => some (lfW 0x072 h w [a, b, c])
  | .shflx h w a b c => some (lfW 0x073 h w [a, b, c])
  | .bcst h w a b c => some (lfW 0x074 h w [a, b, c])
  | .vote h op a b => some { lf 0x075 h [a, b] with sub := op }
  | .redl h t op r s n a b => some
      { lf 0x076 h [a, b] with
        typ := t.code, sub := op + 8 * t.col, rnd := r.code, sat := s.code, nf := n.toNat }
  | .scnl h t op ex r s n a b => some
      { lf 0x077 h [a, b] with
        typ := t.code, sub := op + 8 * t.col, xt := ex.toNat, rnd := r.code, sat := s.code, nf := n.toNat }
  | .gtrn h w a b => some (lfW 0x078 h w [a, b])
  | .plop h tt a b c => some { lf 0x080 h [a, b, c] with sub := tt }
  | .pmov h fm a b => some { lf 0x081 h [a, b] with sub := fm.toNat }
  | .ld h w sx o sc prom ch a b off => some
      { lf 0x100 h [a, b] with
        typ := w.code, sub := sx.toNat + 4 * o.code, xt := sc.code + 8 * prom.toNat, ch := ch.code,
        d := (lfOff off).1, e := (lfOff off).2 }
  | .st h w o sc ch seq a b c off => some
      { lf 0x101 h [a, b, c] with
        typ := w.code, sub := seq.toNat + 4 * o.code, xt := sc.code, ch := ch.code,
        d := (lfOff off).1, e := (lfOff off).2 }
  | .pfx h sc ch b off => some
      { lf 0x102 h [.none, b] with xt := sc.code, ch := ch.code, d := (lfOff off).1, e := (lfOff off).2 }
  | .fence h o sc prom => some { lf 0x103 h [] with sub := 4 * o.code, xt := sc.code + 8 * prom.toNat }
  | .atom h op t o sc prom ch seq a b c => some
      { lf 0x110 h [a, b, c] with
        typ := t.code, sub := seq.toNat + 4 * o.code, xt := sc.code + 8 * prom.toNat, ch := ch.code, e := op.code }
  | .acas h t o sc prom ch seq a b c d => some
      { lf 0x111 h [a, b, c, d] with
        typ := t.code, sub := seq.toNat + 4 * o.code, xt := sc.code + 8 * prom.toNat, ch := ch.code }
  | .ared h op t o sc ch seq a b c => some
      { lf 0x112 h [a, b, c] with
        typ := t.code, sub := seq.toNat + 4 * o.code, xt := sc.code, ch := ch.code, e := op.code }
  | .brl h t j => some
      { lf 0x120 h [] with b := (lfOff t).1, c := (lfOff t).2, d := (lfOff j).1, e := (lfOff j).2 }
  | .join sw rg => some (lf 0x121 (Hdr.bare sw rg) [])
  | .lend sw rg => some (lf 0x122 (Hdr.bare sw rg) [])
  | .lcall h t => some { lf 0x123 h [] with b := (lfOff t).1, c := (lfOff t).2 }
  | .lret h => some (lf 0x124 h [])
  | .lexit h => some (lf 0x125 h [])
  | .gbeg sw rg vw tn p c => some
      { lf 0x130 (Hdr.bare sw rg) [] with
        sub := vw + 4 * tn, b := (lfOff p).1, c := (lfOff p).2, d := (lfOff c).1, e := (lfOff c).2 }
  | .gyld h b => some (lf 0x131 h [.none, b])
  | .gnxt h => some (lf 0x132 h [])
  | .gdne h => some (lf 0x133 h [])
  | .grcv h a => some (lf 0x134 h [a])
  | .gret sw rg => some (lf 0x135 (Hdr.bare sw rg) [])
  | .gend sw rg => some (lf 0x136 (Hdr.bare sw rg) [])
  | .waini h op flt a b c => some { lf 0x140 h [a, b, c] with sub := op, typ := flt }
  | .wapsh h a b c => some (lf 0x141 h [a, b, c])
  | .waqry h a b c => some (lf 0x142 h [a, b, c])
  | .waexp h a b => some (lf 0x143 h [a, b])
  | .wawln h a b => some (lf 0x144 h [a, b])
  | .warst h a => some (lf 0x145 h [a])
  | .amovr h w a b c d => some (lfW 0x150 h w [a, b, c, d])
  | .amovw h w a b c d => some (lfW 0x151 h w [a, b, c, d])
  | .ltrap h code => some { lf 0x1F0 h [] with b := code }
  | .lbkpt h => some (lf 0x1F1 h [])
  | .lrds h w64 a b => some { lf 0x1F2 h [a, b] with sub := w64.toNat }
  | .lwrs h a b => some (lf 0x1F3 h [a, b])
  | _ => none

/-- The 32-bit words of an instruction, in the order of their addresses: one or two for a scalar instruction, three for a
lane word, none for a step of a unit (R74). -/
def encode (i : Instr) : List Nat :=
  match laneFields i with
  | some f => [f.word % 4294967296, f.word / 4294967296 % 4294967296, f.word / 18446744073709551616 % 4294967296]
  | none => encodeScalar i

/-- The stream an instruction belongs to. -/
def Instr.stream (i : Instr) : Stream :=
  match laneFields i with
  | some _ => .lane
  | none => if (encodeScalar i).isEmpty then .unit else .scalar

/-- Decoding of the words that `encode` lays out: three words are a lane word. -/
def decodeWords : List Nat → Decoded
  | [w0] => decodeScalar w0 0
  | [w0, w1] => decodeScalar w0 w1
  | [w0, w1, w2] => decodeLane (w0 + w1 * 4294967296 + w2 * 18446744073709551616)
  | _ => .ill 1

end Sys2Proof
end

