-- ==== Sys2Proof/Machine/Mx.lean ====
section
/-! DEFINITION. Microscaled blocks: element values (R50, R51), quantisation (R61, R62), and the conversions of an alias
window (R64, R65). -/
namespace Sys2Proof.Machine

/-- emax of a block format (R61). -/
def mxEmax : MxFmt → Int
  | .e4m3 => 8
  | .e5m2 => 15
  | .e2m1x => 2

/-- Data bytes of a block. -/
def mxDataBytes : MxFmt → Nat
  | .e4m3 | .e5m2 => 32
  | .e2m1x => 16

/-- Bytes of a block's scale entry. -/
def mxScaleBytes : MxFmt → Nat
  | .e4m3 | .e5m2 => 1
  | .e2m1x => 2

/-- The magnitude of an E2M1X code in halves (R50). -/
def e2m1Halves (code : Nat) : Nat :=
  match code % 8 with
  | 0 => 0
  | 1 => 1
  | 2 => 2
  | 3 => 3
  | 4 => 4
  | 5 => 6
  | 6 => 8
  | _ => 12

/-- The value of an element code before the block scale; `x` is the block's extra value. -/
def mxCodeVal (f : MxFmt) (x code : Nat) : FVal :=
  match f with
  | .e4m3 => e4m3.decode code
  | .e5m2 => e5m2.decode code
  | .e2m1x => if code == 8 then e4m3.decode x else .fin (decide (code ≥ 8)) (e2m1Halves code) (-1)

/-- Val(i) of R51: an element code under the block's scale byte and extra value. -/
def mxVal (f : MxFmt) (scale x code : Nat) : FVal :=
  if scale == 255 then .nan false else scaleVal (mxCodeVal f x code) ((scale : Int) - 127)

/-- The codes of a block's data bytes. -/
def mxCodes (f : MxFmt) (data : List Byte) : List Nat :=
  match f with
  | .e4m3 | .e5m2 => data.map (·.toNat)
  | .e2m1x => data.foldr (fun b l => b.toNat % 16 :: b.toNat / 16 :: l) []

/-- Two codes a byte, the even element low (R51). -/
def nibbles : List Nat → List Byte
  | a :: b :: r => BitVec.ofNat 8 (a % 16 + 16 * (b % 16)) :: nibbles r
  | _ => []

/-- The data bytes of a block's codes. -/
def mxData (f : MxFmt) (codes : List Nat) : List Byte :=
  match f with
  | .e4m3 | .e5m2 => codes.map (BitVec.ofNat 8)
  | .e2m1x => nibbles codes

/-- The nearest E2M1X fixed code of a magnitude: a tie goes to the code with M = 0 (R61). -/
def e2m1Nearest (m : Nat) (e : Int) : Nat :=
  ([1, 3, 5, 7, 10, 14, 20].zip [0, 1, 2, 3, 4, 5, 6]).foldl (fun c (t, i) =>
    if i % 2 == 0 then (if dyLt t (-2) m e then c + 1 else c) else (if dyLt m e t (-2) then c else c + 1)) 0

/-- The fixed code nearest to a scaled value, saturating, zero as +0 (R61). -/
def mxFixed (f : MxFmt) (v : FVal) : Nat :=
  let narrow (g : FFmt) : Nat :=
    let c := (finishX g .rn .clamp 0 0 false (XVal.ofVal v)).1
    if (g.decode c).isZero then 0 else c
  match f with
  | .e4m3 => narrow e4m3
  | .e5m2 => narrow e5m2
  | .e2m1x =>
    match v with
    | .fin n m e =>
      let c := e2m1Nearest m e
      if c == 0 then 0 else if n then c + 8 else c
    | .inf n => if n then 15 else 7
    | .nan _ => 0

/-- |a − b| for finite values. -/
def fDist (a b : FVal) : Nat × Int :=
  let s := dySum [a, b.negate]
  (s.1.natAbs, s.2)

/-- The index and size of the first largest distance. -/
def maxDist : List (Nat × Int) → Nat → Nat × Nat × Int → Nat × Nat × Int
  | [], _, best => best
  | (m, e) :: r, i, best => maxDist r (i + 1) (if dyLt best.2.1 best.2.2 m e then (i, m, e) else best)

/-- A quantised block: scale byte, extra value, codes. -/
structure MxBlock where
  scale : Nat
  x : Nat
  codes : List Nat
  deriving DecidableEq, Repr

/-- Quantises 32 values into a block, the scale clamped to [lo, hi] (R61, R62). DESIGN CHOICE (log 20): the x byte is what
R62 computes, which is 0x80 where a negative value rounds to zero, though R61 says that no block written holds −0. -/
def mxQuant (f : MxFmt) (lo hi : Int) (vs : List FVal) : MxBlock :=
  if vs.any fun v => v.isNan || v.isInf then ⟨255, 0, vs.map fun _ => 0⟩
  else if vs.all FVal.isZero then ⟨127, 0, vs.map fun _ => 0⟩
  else
    let tops := vs.filterMap fun v => match v with
      | .fin _ m e => if m == 0 then none else some ((Nat.log2 m : Int) + e)
      | _ => none
    let top := tops.foldl max (-100000)
    let scale := max lo (min (top - mxEmax f + 127) hi)
    let sv := vs.map fun v => scaleVal v (127 - scale)
    let codes := sv.map (mxFixed f)
    match f with
    | .e4m3 | .e5m2 => ⟨scale.toNat, 0, codes⟩
    | .e2m1x =>
      let ds := (sv.zip codes).map fun (v, c) => fDist v (mxCodeVal f 0 c)
      let best := maxDist ds 0 (0, 0, 0)
      if best.2.1 == 0 then ⟨scale.toNat, 0, codes⟩
      else
        let x := (finishX e4m3 .rn .clamp 0 0 false (XVal.ofVal (sv.getD best.1 FVal.zero))).1
        let codes' := (sv.zip (codes.zip ds)).map fun (v, c, d) =>
          let dx := fDist v (e4m3.decode x)
          if dyLt dx.1 dx.2 d.1 d.2 then 8 else c
        ⟨scale.toNat, x, codes'⟩

/-- The flags of MXQ for one block (R164). -/
def mxQuantFlags (f : MxFmt) (vs : List FVal) (b : MxBlock) : Nat :=
  let big : Nat := match f with
    | .e4m3 => 448
    | .e5m2 => 57344
    | .e2m1x => 6
  if vs.any fun v => v.isNan || v.isInf then
    fNV ||| flagIf (vs.any fun v => !(v.isNan || v.isInf)) fNX
  else
    let inexact := (vs.zip b.codes).any fun (v, c) => !fEq v (mxVal f b.scale b.x c)
    let overs := vs.any fun v => match scaleVal v (127 - (b.scale : Int)) with
      | .fin _ m e => dyLt big 0 m e
      | _ => false
    flagIf inexact fNX ||| flagIf overs (fOF ||| fNX)

/-- The byte image of a block: data bytes, scale entry, zero bytes up to a whole word (R164). -/
def mxImage (f : MxFmt) (b : MxBlock) : List Byte :=
  mxData f b.codes ++ (match f with
    | .e2m1x => [BitVec.ofNat 8 b.scale, BitVec.ofNat 8 b.x, 0, 0]
    | _ => [BitVec.ofNat 8 b.scale, 0, 0, 0])

/-- The values of a block image (R165). -/
def mxImageVals (f : MxFmt) (img : List Byte) : List FVal :=
  let n := mxDataBytes f
  let scale := leAt img n 1
  let x := match f with
    | .e2m1x => leAt img (n + 1) 1
    | _ => 0
  (mxCodes f (img.take n)).map (mxVal f scale x)

/-! ## Alias conversion (R64, R65) -/

/-- The block format of a window's FMT field; 2 and 3 are reserved. -/
def aliasFmt (fmt : Nat) : MxFmt := if fmt = 0 then .e4m3 else .e2m1x

/-- The BF16 pattern that an element reads as (R64). -/
def aliasRead (f : MxFmt) (scale x code : Nat) : Nat :=
  if scale < 3 || scale > 0xF6 then 0x7FC0 else bf16.encode (mxVal f scale x code)

/-- Is the distance d1 smaller than d2? -/
def distLt (a b : Nat × Int) : Bool := dyLt a.1 a.2 b.1 b.2

/-- The code for a BF16 element written into part of a block (R65); none when it turns the block into a NaN block. -/
def aliasCode (f : MxFmt) (scale x : Nat) (v : FVal) : Option Nat :=
  match v with
  | .nan _ =>
    match f with
    | .e2m1x => none
    | _ => some 0x7F
  | .inf n =>
    match f with
    | .e2m1x =>
      let xv := e4m3.decode x
      let big : FVal := .fin n 6 0
      some (if !xv.isNan && xv.isNeg == n && (if n then fLess xv big else fLess big xv) then 8
        else if n then 15 else 7)
    | _ => some (if n then 0xFE else 0x7E)
  | .fin .. =>
    let sv := scaleVal v (127 - (scale : Int))
    let c := mxFixed f sv
    match f with
    | .e2m1x =>
      let xv := e4m3.decode x
      if !xv.isNan && distLt (fDist sv xv) (fDist sv (mxCodeVal f 0 c)) then
        some (if xv.isZero then 0 else 8)
      else some c
    | _ => some c

/-- Writes elements (index, BF16 pattern) into part of a block (R65). -/
def aliasPartial (f : MxFmt) (b : MxBlock) : List (Nat × Nat) → MxBlock
  | [] => b
  | (i, v) :: r =>
    if b.scale == 255 then b
    else
      match aliasCode f b.scale b.x (bf16.decode v) with
      | none => ⟨255, 0, b.codes.map fun _ => 0⟩
      | some c => aliasPartial f { b with codes := modifyNth (fun _ => c) i b.codes } r

/-- A whole block written through an alias window (R65). -/
def aliasWhole (f : MxFmt) (vs : List Nat) : MxBlock := mxQuant f 3 0xF6 (vs.map bf16.decode)

end Sys2Proof.Machine
end

