-- ==== Sys2Proof/Machine/Access.lean ====
section
/-! DEFINITION. Named reads and writes of the parts of the state: groups and their registers (R21, R23 to R26, R49), the
register blocks of contexts, partitions, clusters and cores (R363), ownership (R368, R369), and the free values. -/
namespace Sys2Proof.Machine

/-- What a step or an instruction answers. -/
abbrev Out := Host.Outcome State Fault Refusal

/-! ## Free values (log 5) -/

/-- The state after a free value has been drawn. -/
def State.drawn (s : State) : State := { s with draws := s.draws + 1 }
/-- The next free bit. -/
def State.freeBit (s : State) : Bool := Config.freeBit s.draws
/-- The next free choice. -/
def State.freeNat (s : State) : Nat := Config.freeNat s.draws
/-- The next free word. -/
def State.freeWord (s : State) : Word := Config.freeWord s.draws

/-- The next unused identity. -/
def State.bumpId (s : State) : State := { s with nextId := s.nextId + 1 }

/-! ## Nested updates -/

/-- Changes the memory system. -/
def State.modMem (s : State) (f : MemSys → MemSys) : State := { s with mem := f s.mem }
/-- Changes the units. -/
def State.modUnits (s : State) (f : Units → Units) : State := { s with units := f s.units }
/-- Changes the platform. -/
def State.modPlat (s : State) (f : Plat → Plat) : State := { s with plat := f s.plat }

/-- Context block x. -/
def State.ctx (s : State) (x : Nat) : Ctx := tget Ctx.reset s.plat.ctxs x
/-- Changes context block x. -/
def State.modCtx (s : State) (x : Nat) (f : Ctx → Ctx) : State :=
  s.modPlat fun p => { p with ctxs := tmod Ctx.reset p.ctxs x f }
/-- Partition block p. -/
def State.part (s : State) (p : Nat) : Part := tget Part.reset s.plat.parts p
/-- Changes partition block p. -/
def State.modPart (s : State) (p : Nat) (f : Part → Part) : State :=
  s.modPlat fun q => { q with parts := tmod Part.reset q.parts p f }
/-- Cluster block n. -/
def State.cluster (s : State) (n : Nat) : Cluster := tget Cluster.reset s.plat.clusters n
/-- Changes cluster block n. -/
def State.modCluster (s : State) (n : Nat) (f : Cluster → Cluster) : State :=
  s.modPlat fun p => { p with clusters := tmod Cluster.reset p.clusters n f }
/-- Core k. -/
def State.core (s : State) (k : Nat) : Core := tget Core.reset s.plat.cores k
/-- Changes core k. -/
def State.modCore (s : State) (k : Nat) (f : Core → Core) : State :=
  s.modPlat fun p => { p with cores := tmod Core.reset p.cores k f }
/-- The mailbox of a function: 0 the physical function, 1 + p the virtual function of partition p. -/
def State.box (s : State) (fn : Nat) : Mailbox := tget Mailbox.reset s.plat.boxes fn
/-- Changes a mailbox. -/
def State.modBox (s : State) (fn : Nat) (f : Mailbox → Mailbox) : State :=
  s.modPlat fun p => { p with boxes := tmod Mailbox.reset p.boxes fn f }
/-- The device link l. -/
def State.link (s : State) (l : Nat) : Link := tget Link.reset s.plat.links l
/-- Changes link l. -/
def State.modLink (s : State) (l : Nat) (f : Link → Link) : State :=
  s.modPlat fun p => { p with links := tmod Link.reset p.links l f }

/-! ## Unit numbers (R2) -/

/-- The cluster of a core. -/
def clusterOf (core : Nat) : Nat := core / 6
/-- The sector of a core. -/
def sectorOf (core : Nat) : Nat := core / 72
/-- The sector of an L2 slice. -/
def sliceSector (slice : Nat) : Nat := slice / 16
/-- The die of a sector. -/
def dieOf (sector : Nat) : Nat := sector / 3
/-- The die of an HBM4 stack. -/
def stackDie (stack : Nat) : Nat := stack / 4
/-- The HBM4 stack that holds a physical address, and the channel of the stack. -/
def hbmStack (pa : Nat) : Nat × Nat := ((Config.hbmPlace (Fin.ofNat _ pa)).val / 2 ^ 36, Config.hbmChannel pa)
/-- The cluster pair of a cluster, counted over the device. -/
def pairOf (cluster : Nat) : Nat := cluster / 2
/-- The group id (R18). -/
def groupId (core quad slot : Nat) : Nat := 64 * core + 16 * quad + slot

/-! ## Ownership (R368, R369): bits [3:0] the partition, bit [7] assigned -/

/-- Does an ownership byte assign its unit to the partition? -/
def ownedBy (byte part : Nat) : Bool := bit byte 7 && byte % 16 == part % 16

/-- Does the partition own the region of a physical address of device HBM? -/
def State.ownsPa (s : State) (part pa : Nat) : Bool :=
  decide (pa < 2 ^ 39) && ownedBy (tget 0 s.plat.regionOwn (pa / 2 ^ 28)) part

/-- Does the partition own every region that the n bytes from pa on meet? -/
def State.ownsRange (s : State) (part pa n : Nat) : Bool :=
  n == 0 || (decide (pa + n ≤ 2 ^ 39) &&
    (List.range ((pa + n - 1) / 2 ^ 28 + 1 - pa / 2 ^ 28)).all fun i =>
      ownedBy (tget 0 s.plat.regionOwn (pa / 2 ^ 28 + i)) part)

/-- Does the partition own quadrant q of a core? -/
def State.ownsQuad (s : State) (part core q : Nat) : Bool := ownedBy (tget 0 s.plat.quadOwn (4 * core + q)) part
/-- Does the partition own bank i of a core? -/
def State.ownsBank (s : State) (part core i : Nat) : Bool := ownedBy (tget 0 s.plat.bankOwn (16 * core + i)) part
/-- The slices of a partition, in ascending order. -/
def State.slicesOf (s : State) (part : Nat) : List Nat :=
  (List.range Config.slices).filter fun n => ownedBy (tget 0 s.plat.sliceOwn n) part
/-- Does the partition own a quadrant of the core? -/
def State.ownsCore (s : State) (part core : Nat) : Bool := (List.range 4).any fun q => s.ownsQuad part core q

/-- The partition's scratch banks of a core, in ascending order (R374). -/
def State.scratchBanks (s : State) (part core : Nat) : List Nat :=
  (List.range 16).filter fun i => s.ownsBank part core i && bit (tget 0 (s.core core).cwmask part) i

/-- The banks of a core whose use a CWMASK write that waits will change (R375). -/
def State.changingBanks (s : State) (core : Nat) : List Nat :=
  (s.core core).cwPending.flatMap fun (p, v) =>
    (List.range 16).filter fun i => s.ownsBank p core i && bit (tget 0 (s.core core).cwmask p) i != bit v i
/-- Does a write of CWMASK that changes the use of some bank of the core wait (R375)? -/
def State.banksChange (s : State) (core : Nat) : Bool := !(s.changingBanks core).isEmpty
/-- Is a location in a bank whose use is about to change, so that accesses to it stall (R375)? -/
def State.bankStalls (s : State) (l : Loc) : Bool :=
  match l with
  | .scr core off => (s.changingBanks core).contains (off / 32768)
  | _ => false

/-- The place in the core's SRAM of a partition's scratch offset (R374), if the offset lies in its scratch banks. -/
def State.scratchByte (s : State) (part core off : Nat) : Option Nat :=
  match (s.scratchBanks part core)[off / 32768]? with
  | some b => some (b * 32768 + off % 32768)
  | none => none

/-! ## Groups -/

/-- The resident group with a group id. -/
def State.group? (s : State) (gid : Nat) : Option Group := s.groups.find? fun g => g.gid == gid

/-- Puts a group back in its place. -/
def State.setGroup (s : State) (g : Group) : State :=
  { s with groups := s.groups.map fun h => if h.gid == g.gid then g else h }

/-- Changes the resident group with a group id. -/
def State.modGroup (s : State) (gid : Nat) (f : Group → Group) : State :=
  { s with groups := s.groups.map fun h => if h.gid == gid then f h else h }

/-- The launch of an identity. -/
def State.launch? (s : State) (id : Nat) : Option Launch := s.units.launches.find? fun l => l.id == id

/-- Changes a launch. -/
def State.modLaunch (s : State) (id : Nat) (f : Launch → Launch) : State :=
  s.modUnits fun u => { u with launches := u.launches.map fun l => if l.id == id then f l else l }

/-- The team of a group, if it is resident. -/
def State.team? (s : State) (launch blk team : Nat) : Option Team :=
  s.units.teams.find? fun t => t.launch == launch && t.blk == blk && t.team == team

/-- Is the group in a trap handler? -/
def Group.inHandler (g : Group) : Bool := g.trap.isSome

/-! ## Scalar registers (R21, R33, R49) -/

/-- s(n). -/
def Group.getS (g : Group) (n : Nat) : Word := tget 0 g.regs.s n

/-- Every queued block may still read the value that a scalar register held (R33). -/
def keepQueued (n : Nat) (old : Word) (q : List QBlock) : List QBlock :=
  q.map fun b => { b with oldS := (n, old) :: b.oldS }

/-- A value that a scalar register held stays one that a running lane block may still read. -/
def keepRunning (l : Lanes) (n : Nat) (old : Word) (olds : List (Nat × Word)) : List (Nat × Word) :=
  if l.running then (n, old) :: olds else olds

/-- A value that a scalar register held stays one that each queued or running lane block may still read, a handler's own and
those that its trap interrupted; a block dispatched later reads the new value (R33). -/
def Group.keepOld (g : Group) (n : Nat) (old : Word) : Group :=
  { g with
    oldS := keepRunning g.lanes n old g.oldS
    dq := keepQueued n old g.dq
    trap := g.trap.map fun t => { t with oldS := keepRunning t.frame n old t.oldS, dq := keepQueued n old t.dq } }

/-- s(n) written by the scalar stream: under a queued or running lane block the old value stays one that a lane read may
still return (R33). -/
def Group.setS (g : Group) (n : Nat) (w : Word) : Group :=
  { g.keepOld n (g.getS n) with regs := { g.regs with s := tset g.regs.s n w } }

/-- The key under which an old rounding mode is kept beside old scalar values (R54): it is no register number. -/
def rmodeKey : Nat := 2048

/-- The pair s(n), s(n + 1), low word first (R49). -/
def Group.getS64 (g : Group) (n : Nat) : DWord := g.getS (n + 1) ++ g.getS n

/-- Writes a pair. -/
def Group.setS64 (g : Group) (n : Nat) (w : DWord) : Group :=
  (g.setS n (w.setWidth 32)).setS (n + 1) ((w >>> 32).setWidth 32)

/-- q(n): q7 reads as true (R21). -/
def Group.getQ (g : Group) (n : Nat) : Bool := if n < 7 then g.regs.q.getLsbD n else true

/-- Writes q(n): a write to q7 is ignored (R21). -/
def Group.setQ (g : Group) (n : Nat) (b : Bool) : Group :=
  if n < 7 then
    { g with regs := { g.regs with q := (g.regs.q &&& ~~~(1#7 <<< n)) ||| (if b then 1#7 <<< n else 0) } }
  else g

/-! ## Lane registers -/

/-- Element of lane l of v(n). -/
def Group.getV (g : Group) (n l : Nat) : Word := tget 0 g.regs.v (32 * n + l)
/-- Writes an element of v(n). -/
def Group.setV (g : Group) (n l : Nat) (w : Word) : Group :=
  { g with regs := { g.regs with v := tset g.regs.v (32 * n + l) w } }
/-- p(n) as a lane mask: p7 reads as 1 in every lane (R21). -/
def Group.getP (g : Group) (n : Nat) : Mask := if n < 7 then tget 0 g.regs.p n else BitVec.allOnes 32
/-- Writes the bit of lane l of p(n): a write to p7 is ignored (R21). -/
def Group.setP (g : Group) (n l : Nat) (b : Bool) : Group :=
  if n < 7 then
    { g with regs := { g.regs with
        p := tset g.regs.p n ((g.getP n &&& ~~~(1#32 <<< l)) ||| (if b then 1#32 <<< l else 0)) } }
  else g
/-- The flags of lane l. -/
def Group.getFlg (g : Group) (l : Nat) : Word := tget 0 g.regs.flg l
/-- Writes the flags of lane l; bits [31:6] are reserved (R58). -/
def Group.setFlg (g : Group) (l : Nat) (w : Word) : Group :=
  { g with regs := { g.regs with flg := tset g.regs.flg l (w &&& 63) } }
/-- The LFSR state of lane l. -/
def Group.getLfsr (g : Group) (l : Nat) : Word := tget 1 g.regs.lfsr l
/-- Writes the LFSR state of lane l: a write of 0 stores 1 (R56). -/
def Group.setLfsr (g : Group) (l : Nat) (w : Word) : Group :=
  { g with regs := { g.regs with lfsr := tset g.regs.lfsr l (if w = 0 then 1 else w) } }
/-- k(n): a parameter that was not supplied reads 0 (R31). -/
def Group.getK (g : Group) (n : Nat) : Word := g.lanes.k.getD n 0
/-- Element (row, col) of tile t. -/
def Group.getTile (g : Group) (t row col : Nat) : Word := tget 0 g.regs.tiles (4096 * t + 64 * row + col)
/-- Writes an element of tile t. -/
def Group.setTile (g : Group) (t row col : Nat) (w : Word) : Group :=
  { g with regs := { g.regs with tiles := tset g.regs.tiles (4096 * t + 64 * row + col) w } }

/-! ## Strands and masks (R23 to R25) -/

/-- Strands of the group: group size div 4. -/
def Group.strandCount (g : Group) : Nat := g.info.size / 4

/-- EXEC of a list of strands. -/
def activeOf (l : List Strand) : Mask :=
  (l.zip (List.range 8)).foldl (fun m (s, j) => m ||| (s.active.setWidth 32 <<< (4 * j))) 0

/-- EXEC: outside a lane block it is LIVE (R31). -/
def Group.exec (g : Group) : Mask := if g.lanes.running then activeOf g.lanes.strands else g.regs.live

/-- The strands of the gang that holds strand j. -/
def gangOf (l : List Strand) (j : Nat) : BitVec 8 :=
  match l[j]? with
  | none => 0
  | some s => (l.zip (List.range 8)).foldl
      (fun m (t, i) => if t.gang == s.gang && t.part then m ||| (1#8 <<< i) else m) 0

/-- Is strand j in a set of strands? -/
def inGang (b : BitVec 8) (j : Nat) : Bool := b.getLsbD j

/-- Changes the strands of a set. -/
def modStrands (b : BitVec 8) (f : Nat → Strand → Strand) (l : List Strand) : List Strand :=
  (l.zip (List.range 8)).map fun (s, j) => if inGang b j then f j s else s

/-- Numbers the gangs anew so that strands of the set with different PCs are different gangs (R34): the gang number of a
strand is that of the lowest strand of its gang. -/
def regangNumbers (b : BitVec 8) (l : List Strand) : List Strand :=
  modStrands b (fun _ s =>
    { s with gang := ((List.range 8).find? fun i => inGang b i && ((l[i]?).map (·.pc) == some s.pc)).getD 0 }) l

/-! ## The turn -/

/-- The group whose scalar stream has the turn. -/
def State.scalarTurn? (s : State) : Option Group :=
  match s.turn with
  | .scalar g => s.group? g
  | _ => none

/-- The group and the strands of the gang that has the turn. -/
def State.laneTurn? (s : State) : Option (Group × BitVec 8) :=
  match s.turn with
  | .lane g st =>
    match s.group? g with
    | some x => some (x, gangOf x.lanes.strands st)
    | none => none
  | _ => none

/-- Changes what the group waits in, in the handler's frame when the group is in a handler (R397). -/
def Group.mapWait (g : Group) (f : Option Wait → Option Wait) : Group :=
  match g.trap with
  | some t => { g with wait := f g.wait, trap := some { t with wait := f t.wait } }
  | none => { g with wait := f g.wait }

/-- What the group's scalar stream waits in, or was interrupted in. -/
def Group.waitOf (g : Group) : Option Wait :=
  match g.trap with
  | some t => t.wait
  | none => g.wait

/-- The scalar instruction is complete, and the stream goes on at a word. -/
def Group.goTo (g : Group) (n : Nat) : Group := { g with spc := n, wait := none, words := none }

/-- The scalar stream goes on to the word n words further. -/
def Group.advance (g : Group) (n : Nat) : Group := g.goTo (g.spc + n)

end Sys2Proof.Machine
end

