-- ==== Sys2Proof/Machine/Registers.lean ====
section
/-! DEFINITION. The control BAR as it reads (R14, R363 to R367): each block's registers composed from the fields the
state holds. Reserved bits and WO fields read 0. `State.reg` gives the 64-bit word at a multiple of 8. -/
namespace Sys2Proof.Machine

/-- Is event bit 255 of a context held at 1 by another partition's profiler grant (R379)? -/
def State.gong (s : State) (x : Nat) : Bool := s.plat.prof.active && s.plat.prof.part != (s.ctx x).part

/-- The event vector of a context as it reads (R327, R379). -/
def State.eventVector (s : State) (x : Nat) : BitVec 256 :=
  if s.gong x then (s.ctx x).ev ||| (1#256 <<< 255) else (s.ctx x).ev

/-- CTXERR (R365). -/
def CtxErr.word (e : CtxErr) : Nat :=
  (if e.valid then 1 else 0) + 2 * (e.kind % 8) + 2 ^ 8 * (e.cause % 256) + 2 ^ 16 * (e.subc % 256) +
    2 ^ 24 * (e.lost % 256) + 2 ^ 32 * (e.group % 2 ^ 32)

/-- Word i of an alias window descriptor (R63). -/
def MxWin.word (w : MxWin) (i : Nat) : Nat :=
  match i with
  | 0 => (if w.en then 1 else 0) + 2 * (w.fmt % 4) + w.abase
  | 1 => w.alen
  | 2 => w.dbase
  | _ => w.sbase

/-- A host queue descriptor as it reads (R341): TAIL is write only. -/
def HQueue.word (q : HQueue) (i : Nat) : Nat :=
  if i = 0 then q.qbase + q.qlog % 32 + (if q.qdis then 128 else 0) else q.head % 2 ^ 32

/-- CTXCFG (R363). -/
def Ctx.cfg (c : Ctx) : Nat := c.part + 16 * c.cls + 256 * c.prio + (if c.enabled then 2 ^ 31 else 0)

/-- HANDLER (R364). -/
def CtxRegs.handler (r : CtxRegs) : Nat := (if r.valid then 1 else 0) + r.hbase

/-- TLBINV: bit [63] reads 1 when nothing is outstanding (R387). -/
def Ctx.tlbinvWord (c : Ctx) : Nat := c.tlbinv % 2 ^ 63 + (if c.tlbinvWait.isNone then 2 ^ 63 else 0)

/-- Is the lease active: granted, and its end not reached (R377)? -/
def Lease.runs (l : Lease) (ns : Nat) : Bool := l.active && decide (ns < l.endNs)

/-- LEASE: bit [31] reads 1 while the lease is active (R377). -/
def Lease.word (l : Lease) (ns : Nat) : Nat := l.value % 2 ^ 29 + (if l.runs ns then 2 ^ 31 else 0)

/-- A context block (R363). -/
def State.ctxReg (s : State) (x off : Nat) : Nat :=
  let c := s.ctx x
  if off < 0x200 then (tget MxWin.reset c.mx (off / 32)).word (off / 8 % 4)
  else if off < 0x220 then
    tget 0 c.keys ((off - 0x200) / 4) + 2 ^ 32 * tget 0 c.keys ((off - 0x200) / 4 + 1)
  else if 0x400 ≤ off && off < 0x440 then (tget HQueue.reset c.hq ((off - 0x400) / 16)).word (off / 8 % 2)
  else if 0x800 ≤ off && off < 0x820 then bits (s.eventVector x).toNat (8 * (off - 0x800)) 64
  else
    match off with
    | 0x240 => c.cfg
    | 0x248 => c.regs.handler
    | 0x250 => c.regs.savebase
    | 0x258 => c.regs.fltlog
    | 0x260 => c.ptroot
    | 0x268 => c.tlbinvWord
    | 0x270 => c.regs.hlen
    | 0x278 => c.quantum
    | 0x280 => c.err.word
    | 0x288 => c.regs.savelen
    | 0x600 => c.lrefused.toNat + 2 ^ 32 * c.ldiscard.toNat
    | 0x608 => c.sigdisc.toNat + 2 ^ 32 * c.dlmiss.toNat
    | 0x700 => c.lease.word s.ns
    | _ => 0

/-- A partition block (R227, R350, R376, R372). -/
def State.partReg (s : State) (p off : Nat) : Nat :=
  let q := s.part p
  if 0x300 ≤ off && off < 0x320 then
    tget 0 q.masks ((off - 0x300) / 4) + 2 ^ 32 * tget 0 q.masks ((off - 0x300) / 4 + 1)
  else
    match off with
    | 0x000 => q.bways + 2 ^ 32 * q.blim
    | 0x008 => q.bhold + 2 ^ 32 * q.bids
    | 0x100 => q.pdeadline
    | 0x200 => q.tokalloc + 2 ^ 16 * q.tokwt + 2 ^ 32 * (q.tokused % 2 ^ 32)
    | _ => 0

/-- Quadrants of a cluster that a partition owns (R371). -/
def State.quadsIn (s : State) (p cl : Nat) : Nat :=
  ((List.range 24).filter fun i => ownedBy (tget 0 s.plat.quadOwn (24 * cl + i)) p).length

/-- Assigned quadrants of a cluster (R371). -/
def State.quadsAssigned (s : State) (cl : Nat) : Nat :=
  ((List.range 24).filter fun i => bit (tget 0 s.plat.quadOwn (24 * cl + i)) 7).length

/-- The share of a partition in a cluster's 64 receives and 64 overflow entries (R371). Entries left over go to the
partition of lowest number that owns a quadrant of the cluster. -/
def State.recvShare (s : State) (cl p : Nat) : Nat :=
  let q := s.quadsAssigned cl
  if q = 0 then 0
  else
    let floorShare := fun r => 64 * s.quadsIn r cl / q
    let left := 64 - ((List.range 16).map floorShare).foldl (· + ·) 0
    let low := (List.range 16).find? fun r => 0 < s.quadsIn r cl
    floorShare p + (if low = some p then left else 0)

/-- A cluster block (R322, R348, R371). -/
def State.clusterReg (s : State) (n off : Nat) : Nat :=
  let c := s.cluster n
  match off with
  | 0x000 => c.wave + 2 ^ 8 * c.gap
  | 0x010 => if n % 2 = 0 then c.bplace % 2 ^ 48 else 0
  | 0x018 => if n % 2 = 0 then c.bthrot % 2 ^ 48 else 0
  | 0x020 => if n % 2 = 0 then c.bfill % 2 ^ 48 else 0
  | 0x040 => leNat ((List.range 8).map fun p => BitVec.ofNat 8 (s.recvShare n p))
  | 0x048 => leNat ((List.range 8).map fun p => BitVec.ofNat 8 (s.recvShare n (8 + p)))
  | _ => 0

/-- The index of a histogram counter: 0 to 16 a bin, 17 to 32 a stall reason (R380). -/
def histIdx (core q i : Nat) : Nat := 64 * (4 * core + q) + i

/-- A core debug block (R191, R374, R380). -/
def State.coreReg (s : State) (k off : Nat) : Nat :=
  let c := s.core k
  if off < 0x80 then
    let w := tget Watch.reset c.watch (off / 32)
    match off / 8 % 4 with
    | 0 => w.base
    | 1 => w.limit
    | 2 => (if w.en then 1 else 0) + (if w.rd then 2 else 0) + (if w.wr then 4 else 0) + 2 ^ 8 * w.ctx
    | _ => 0
  else if 0x100 ≤ off && off < 0x140 then
    tget 0 c.cwmask ((off - 0x100) / 4) + 2 ^ 32 * tget 0 c.cwmask ((off - 0x100) / 4 + 1)
  else if 0x800 ≤ off then
    let q := (off - 0x800) / 0x200
    let o := (off - 0x800) % 0x200
    if o < 0x88 then tget 0 s.plat.hist (histIdx k q (o / 8))
    else if 0x100 ≤ o && o < 0x180 then tget 0 s.plat.hist (histIdx k q (17 + (o - 0x100) / 8))
    else 0
  else 0

/-- Word i of an inbound window (R389). -/
def InWin.word (w : InWin) (i : Nat) : Nat :=
  match i with
  | 0 => (if w.en then 1 else 0) + 2 ^ 8 * w.links + 2 ^ 16 * w.part
  | 1 => w.wbase
  | 2 => w.lbase
  | _ => w.wlen

/-- Eight consecutive bytes of a table of bytes. -/
def tblBytes (t : Tbl Nat) (i : Nat) : Nat := leNat ((List.range 8).map fun j => BitVec.ofNat 8 (tget 0 t (i + j)))

/-- PROFST (R379). -/
def Prof.word (p : Prof) : Nat :=
  (if p.clklock then 1 else 0) + (if p.sched then 2 else 0) + 16 * p.part + (if p.active then 256 else 0)

/-- The device block as function fn sees it (R366, R367): the tables are seen by the physical function only. -/
def State.devReg (s : State) (fn off : Nat) : Nat :=
  let b := s.box fn
  if 0x08 ≤ off && off < 0x48 then tget 0 b.args ((off - 8) / 8)
  else if off = 0x48 then (if b.busy then 1 else 0) + 2 ^ 8 * b.status
  else if off = 0x100 then s.plat.prof.word
  else if 0x400 ≤ off && off < 0x500 then
    leNat ((List.range 8).map fun j => tget 0 b.data (off - 0x400 + j))
  else if fn != 0 then 0
  else if 0x1000 ≤ off && off < 0x16C0 then tblBytes s.plat.quadOwn (off - 0x1000)
  else if 0x2000 ≤ off && off < 0x3B00 then tblBytes s.plat.bankOwn (off - 0x2000)
  else if 0x4000 ≤ off && off < 0x4060 then tblBytes s.plat.sliceOwn (off - 0x4000)
  else if 0x5000 ≤ off && off < 0x5800 then tblBytes s.plat.regionOwn (off - 0x5000)
  else if 0x6000 ≤ off && off < 0x6800 then tget 0 s.plat.peers ((off - 0x6000) / 8)
  else if 0x7000 ≤ off && off < 0x7200 then
    (tget InWin.reset s.plat.wins ((off - 0x7000) / 32)).word (off / 8 % 4)
  else if 0x8000 ≤ off && off < 0x8040 then
    let l := s.link ((off - 0x8000) / 8)
    (if l.up then 1 else 0) + 2 ^ 16 * min l.again 65535
  else 0

/-- May function fn see the block that holds an offset of the control BAR (R363)? In recovery the physical function sees
only the mailbox (R382). -/
def State.seesBlock (s : State) (fn off : Nat) : Bool :=
  if s.plat.boot == .recovery then fn == 0 && (decide (off < 0x100) || (decide (0x400 ≤ off) && decide (off < 0x500)))
  else if fn == 0 || decide (off < 0x100000) then true
  else if off < 0x200000 then (off - 0x100000) / 0x10000 == fn - 1
  else if off < 0x600000 then (s.ctx ((off - 0x200000) / 0x4000)).part == fn - 1
  else if off < 0x700000 then decide (0 < s.quadsIn (fn - 1) ((off - 0x600000) / 0x1000))
  else if off < 0x8B0000 then s.ownsCore (fn - 1) ((off - 0x700000) / 0x1000)
  else false

/-- The 64-bit word of the control BAR at a multiple of 8, as function fn reads it. -/
def State.reg (s : State) (fn off : Nat) : Nat :=
  if !s.seesBlock fn off then 0
  else if off < 0x100000 then s.devReg fn off
  else if off < 0x200000 then s.partReg ((off - 0x100000) / 0x10000) (off % 0x10000)
  else if off < 0x600000 then s.ctxReg ((off - 0x200000) / 0x4000) (off % 0x4000)
  else if off < 0x700000 then
    if (off - 0x600000) / 0x1000 < Config.clusters then s.clusterReg ((off - 0x600000) / 0x1000) (off % 0x1000) else 0
  else if off < 0x8B0000 then
    if (off - 0x700000) / 0x1000 < Config.cores then s.coreReg ((off - 0x700000) / 0x1000) (off % 0x1000) else 0
  else if 0xC00000 ≤ off && off < 0xC10000 then tget 0 s.plat.life ((off - 0xC00000) / 8)
  else 0

/-- n bytes of the control BAR from an offset on. -/
def State.barBytes (s : State) (fn off n : Nat) : List Byte :=
  (List.range n).map fun i => BitVec.ofNat 8 (s.reg fn ((off + i) / 8 * 8) / 2 ^ (8 * ((off + i) % 8)))

/-- Does a function exist: the physical function 0, or one of the virtual functions that VF Enable has made? -/
def State.hasFn (s : State) (fn : Nat) : Bool := fn == 0 || (s.plat.vfEnable && decide (fn ≤ s.plat.numVfs))

/-- The function through which a context is driven (R365): the virtual function of its partition when VF Enable is set and it
exists, else the physical function. -/
def State.drivingFn (s : State) (x : Nat) : Nat := if s.hasFn (1 + (s.ctx x).part) then 1 + (s.ctx x).part else 0

end Sys2Proof.Machine
end

