-- ==== Sys2Proof/Machine/Memory.lean ====
section
/-! DEFINITION. Memory as the ordering points hold it: locations (R211), lines of the L2 and of alias views (R212, R224),
the reads and writes an ordering point performs, address translation (R385 to R387), and the copies in L1 ways and
scalar data caches (R210). -/
namespace Sys2Proof.Machine

/-! ## Locations -/

/-- A location as a space number and an address in it. -/
def Loc.flat : Loc → Nat × Nat
  | .hbm pa => (0, pa)
  | .host pa => (1, pa)
  | .mmio off => (2, off)
  | .peer link pa => (8 + link, pa)
  | .scr core off => (16 + core, off)
  | .mx ctx win pa => (1024 + 16 * ctx + win, pa)

/-- The key of the 128-byte line that holds a location. -/
def Loc.lineKey (l : Loc) : Nat := l.flat.1 * 2 ^ 60 + l.flat.2 / 128

/-- The location n bytes on. -/
def Loc.plus (l : Loc) (n : Nat) : Loc :=
  match l with
  | .hbm pa => .hbm (pa + n)
  | .host pa => .host (pa + n)
  | .mmio off => .mmio (off + n)
  | .peer link pa => .peer link (pa + n)
  | .scr core off => .scr core (off + n)
  | .mx ctx win pa => .mx ctx win (pa + n)

/-- The first location of the line that holds a location. -/
def Loc.lineStart (l : Loc) : Loc :=
  match l with
  | .hbm pa => .hbm (pa / 128 * 128)
  | .host pa => .host (pa / 128 * 128)
  | .mmio off => .mmio (off / 128 * 128)
  | .peer link pa => .peer link (pa / 128 * 128)
  | .scr core off => .scr core (off / 128 * 128)
  | .mx ctx win pa => .mx ctx win (pa / 128 * 128)

/-- Is the location scratch (types 3 and 4)? -/
def Loc.isScr : Loc → Bool
  | .scr .. => true
  | _ => false

/-- Is the location in the control BAR (type 6)? -/
def Loc.isMmio : Loc → Bool
  | .mmio _ => true
  | _ => false

/-- Do two byte ranges meet? -/
def locMeets (a : Loc) (n : Nat) (b : Loc) (m : Nat) : Bool :=
  a.flat.1 == b.flat.1 && decide (a.flat.2 < b.flat.2 + m) && decide (b.flat.2 < a.flat.2 + n)

/-- The key of core local SRAM (R374). -/
def sramKey (core off : Nat) : Nat := 0x80000 * core + off

/-- The key of a peer device's memory on a link. -/
def peerKey (link pa : Nat) : Nat := 2 ^ 52 * link + pa

/-! ## The L2 and HBM behind it (R212, R224) -/

/-- The L2's entry for a line. -/
def MemSys.l2? (m : MemSys) (line : Nat) : Option L2Line := m.l2.find? fun e => e.line == line

/-- Replaces or adds the entry of a line. -/
def MemSys.setL2 (m : MemSys) (e : L2Line) : MemSys :=
  { m with l2 := e :: m.l2.filter fun x => x.line != e.line }

/-- What HBM itself holds of a line, where the L2 may hold newer data. -/
def MemSys.dramLine (m : MemSys) (line : Nat) : List Byte :=
  match m.l2? line with
  | some e => if e.backing.isEmpty then m.hbm.read (128 * line) 128 else e.backing
  | none => m.hbm.read (128 * line) 128

/-- A byte as HBM itself holds it. -/
def MemSys.dramByte (m : MemSys) (pa : Nat) : Byte :=
  match m.l2? (pa / 128) with
  | some e => if e.backing.isEmpty then m.hbm.get pa else e.backing.getD (pa % 128) 0
  | none => m.hbm.get pa

/-- Bytes as HBM itself holds them. -/
def MemSys.dramRead (m : MemSys) (pa n : Nat) : List Byte := (List.range n).map fun i => m.dramByte (pa + i)

/-- Writes a byte into HBM itself: a line that the L2 holds keeps its own data (R224). -/
def MemSys.dramSet (m : MemSys) (pa : Nat) (b : Byte) : MemSys :=
  match m.l2? (pa / 128) with
  | some e => m.setL2 { e with backing := modifyNth (fun _ => b) (pa % 128) (m.dramLine (pa / 128)) }
  | none => { m with hbm := m.hbm.set pa b }

/-- Writes bytes into HBM itself. -/
def MemSys.dramWrite (m : MemSys) (pa : Nat) : List Byte → MemSys
  | [] => m
  | b :: r => MemSys.dramWrite (m.dramSet pa b) (pa + 1) r

/-- A line of device HBM is filled into the L2 if it is not there. -/
def MemSys.touch (m : MemSys) (line : Nat) : MemSys :=
  match m.l2? line with
  | some _ => m
  | none => m.setL2 { line := line, dirty := false, backing := [], way := none, prio := 1 }

/-- A line becomes dirty in the L2: HBM keeps what it held. -/
def MemSys.dirtyLine (m : MemSys) (line : Nat) : MemSys :=
  match m.l2? line with
  | some e => if e.dirty then m else m.setL2 { e with dirty := true, backing := m.dramLine line }
  | none => m.setL2 { line := line, dirty := true, backing := m.dramLine line, way := none, prio := 1 }

/-- A dirty line is written back and stays valid and clean (R128). -/
def MemSys.cleanLine (m : MemSys) (line : Nat) : MemSys :=
  match m.l2? line with
  | some e => if e.dirty then m.setL2 { e with dirty := false, backing := [] } else m
  | none => m

/-- A line leaves the L2: a dirty one is written back, a clean one is dropped, and HBM's own contents show (R224). -/
def MemSys.dropLine (m : MemSys) (line : Nat) : MemSys :=
  match m.l2? line with
  | some e =>
    let h := if e.dirty || e.backing.isEmpty then m.hbm else m.hbm.write (128 * line) e.backing
    { m with hbm := h, l2 := m.l2.filter fun x => x.line != line }
  | none => m

/-- The home slice performs one write of bytes of one line of device HBM: the line's tag advances (R212), and copies in
other sectors are invalidated (R213). -/
def MemSys.homeWrite (m : MemSys) (pa : Nat) (bs : List Byte) : MemSys :=
  let line := pa / 128
  let m := m.dirtyLine line
  { m with
    hbm := m.hbm.write pa bs
    tags := tset m.tags line ((tget 0 m.tags line + 1) % 65536)
    rcopy := m.rcopy.filter fun e => e.line != line }

/-! ## Alias windows (R63 to R65, R224) -/

/-- The alias window of a context. -/
def State.mxWin (s : State) (x w : Nat) : MxWin := tget MxWin.reset (s.ctx x).mx w

/-- Where block b of a window has its data bytes and its scale entry (R63). -/
def MxWin.dataAt (w : MxWin) (b : Nat) : Nat := w.dbase + mxDataBytes (aliasFmt w.fmt) * b
/-- Where block b of a window has its scale entry. -/
def MxWin.scaleAt (w : MxWin) (b : Nat) : Nat := w.sbase + mxScaleBytes (aliasFmt w.fmt) * b

/-- Block b of a window as HBM holds it. -/
def MemSys.mxBlock (m : MemSys) (w : MxWin) (b : Nat) : MxBlock :=
  let f := aliasFmt w.fmt
  let sc := m.dramRead (w.scaleAt b) (mxScaleBytes f)
  ⟨leAt sc 0 1, leAt sc 1 1, mxCodes f (m.dramRead (w.dataAt b) (mxDataBytes f))⟩

/-- Writes a block to HBM. -/
def MemSys.mxStore (m : MemSys) (w : MxWin) (b : Nat) (k : MxBlock) : MemSys :=
  let f := aliasFmt w.fmt
  (m.dramWrite (w.dataAt b) (mxData f k.codes)).dramWrite (w.scaleAt b)
    (match f with
      | .e2m1x => [BitVec.ofNat 8 k.scale, BitVec.ofNat 8 k.x]
      | _ => [BitVec.ofNat 8 k.scale])

/-- The 64 bytes that block b of a window reads as (R64). -/
def MemSys.mxBlockBytes (m : MemSys) (w : MxWin) (b : Nat) : List Byte :=
  let k := m.mxBlock w b
  k.codes.foldr (fun c l => leBytes 2 (aliasRead (aliasFmt w.fmt) k.scale k.x c) ++ l) []

/-- The alias line in the L2, if it is there. -/
def MemSys.mxLine? (m : MemSys) (x w line : Nat) : Option MxLine :=
  m.mx.find? fun e => e.ctx == x && e.win == w && e.line == line

/-- Replaces or adds an alias line. -/
def MemSys.setMxLine (m : MemSys) (e : MxLine) : MemSys :=
  { m with mx := e :: m.mx.filter fun y => !(y.ctx == e.ctx && y.win == e.win && y.line == e.line) }

/-- The alias line filled from HBM: an alias read converts when the line is filled (R224). The line number counts from
the window's base. -/
def State.mxFill (s : State) (x w line : Nat) : MxLine :=
  match s.mem.mxLine? x w line with
  | some e => e
  | none =>
    let win := s.mxWin x w
    { ctx := x, win := w, line := line,
      data := s.mem.mxBlockBytes win (2 * line) ++ s.mem.mxBlockBytes win (2 * line + 1), writes := [], way := none,
      prio := 1 }

/-- Converts one write to the bytes [o, o + n) of an alias line, block by block (R65). -/
def MemSys.mxConvert (m : MemSys) (win : MxWin) (line : Nat) (o : Nat) (bs : List Byte) : MemSys :=
  let f := aliasFmt win.fmt
  (List.range 2).foldl (fun m h =>
    let lo := max o (64 * h)
    let hi := min (o + bs.length) (64 * h + 64)
    if lo ≥ hi then m
    else
      let els := (List.range ((hi - lo) / 2)).map fun i => ((lo - 64 * h) / 2 + i, leAt bs (lo - o + 2 * i) 2)
      let b := 2 * line + h
      m.mxStore win b (if hi - lo = 64 then aliasWhole f (els.map (·.2)) else aliasPartial f (m.mxBlock win b) els)) m

/-- Converts the writes that an alias line has gathered, in order, as it leaves the L2 (R65, R224). -/
def State.mxFlush (s : State) (e : MxLine) : State :=
  s.modMem fun m => e.writes.foldl (fun m (o, bs) => m.mxConvert (s.mxWin e.ctx e.win) e.line o bs) m

/-! ## Reads and writes at the ordering points (R211) -/

/-- n bytes of a location within one line, as its ordering point gives them now. -/
def State.locRead (s : State) (l : Loc) (n : Nat) : List Byte :=
  match l with
  | .hbm pa => s.mem.hbm.read pa n
  | .host pa => s.mem.host.read pa n
  | .peer link pa => s.mem.peer.read (peerKey link pa) n
  | .scr core off => s.mem.sram.read (sramKey core off) n
  | .mx x w pa => ((s.mxFill x w (pa / 128)).data.drop (pa % 128)).take n
  | .mmio _ => List.replicate n 0

/-- The ordering point performs one write of bytes within one line. A write to MMIO is a register write and is not
performed here. -/
def State.locWrite (s : State) (l : Loc) (bs : List Byte) : State :=
  match l with
  | .hbm pa => s.modMem fun m => m.homeWrite pa bs
  | .host pa => s.modMem fun m => { m with host := m.host.write pa bs }
  | .peer link pa => s.modMem fun m => { m with peer := m.peer.write (peerKey link pa) bs }
  | .scr core off => s.modMem fun m => { m with sram := m.sram.write (sramKey core off) bs }
  | .mx x w pa =>
    let e := s.mxFill x w (pa / 128)
    let o := pa % 128
    s.modMem fun m =>
      let m := m.setMxLine { e with data := e.data.take o ++ bs ++ e.data.drop (o + bs.length),
                                    writes := e.writes ++ [(o, bs)] }
      { m with tags := tset m.tags l.lineKey ((tget 0 m.tags l.lineKey + 1) % 65536) }
  | .mmio _ => s

/-- The line that a read served by a slice leaves in the L2. -/
def State.locTouch (s : State) (l : Loc) : State :=
  match l with
  | .hbm pa => s.modMem fun m => m.touch (pa / 128)
  | .mx x w pa => s.modMem fun m => m.setMxLine (s.mxFill x w (pa / 128))
  | _ => s

/-- The tag that a write just performed carries (R180): 0 for host memory and scratch; a peer's tag is its own (log 5). -/
def State.locTag (s : State) (l : Loc) : Nat :=
  match l with
  | .hbm pa => tget 0 s.mem.tags (pa / 128)
  | .mx .. => tget 0 s.mem.tags l.lineKey
  | .peer .. => s.freeNat % 65536
  | _ => 0

/-- Does the data of a range carry an uncorrectable error (R174, R381)? -/
def State.locBad (s : State) (l : Loc) (n : Nat) : Bool :=
  let hit (sp a n : Nat) : Bool := s.mem.bad.any fun k => decide (sp * 2 ^ 60 + a / 8 ≤ k) && decide (k ≤ sp * 2 ^ 60 + (a + n - 1) / 8)
  match l with
  | .hbm pa => hit 0 pa n
  | .scr core off => hit (16 + core) off n
  | .mx x w pa =>
    let win := s.mxWin x w
    let f := aliasFmt win.fmt
    hit 0 (win.dataAt (pa / 64)) (mxDataBytes f) || hit 0 (win.scaleAt (pa / 64)) (mxScaleBytes f)
  | _ => false

/-! ## Slices, sets and ways (R8, R183, R228, R229, R372) -/

/-- The hash of a physical address: the XOR of six 6-bit fields. -/
def paHash (pa : Nat) : Nat :=
  [17, 23, 29, 35, 41, 47].foldl (fun h i => Nat.xor h (bits (pa % 2 ^ 52) i 6)) 0

/-- The slice of a physical address for a partition: rank (h mod n) of its n slices. -/
def State.homeSlice (s : State) (part pa : Nat) : Nat :=
  let l := s.slicesOf part
  l.getD (paHash pa % l.length) 0

/-- The set of a slice that a line falls into, as one number. -/
def State.setOf (s : State) (part line : Nat) : Nat := 1024 * s.homeSlice part (128 * line) + line % 1024

/-- What a way of the L2 holds: a line of device HBM in its home slice, a line of an alias view, or a copy of a line of device
HBM in a slice of another sector. -/
inductive L2Key where
  | line (n : Nat)
  | mx (ctx win line : Nat)
  | copy (slice line : Nat)
  deriving DecidableEq, Repr

/-- A way in use: what it holds, its number and its rank for eviction. -/
structure L2Row where
  key : L2Key
  way : Nat
  prio : Nat
  deriving DecidableEq, Repr

/-- Is the line held in a bundle way: a line of a resident or filling bundle (R128, R233)? -/
def State.inBundleWay (s : State) (line : Nat) : Bool :=
  s.units.bundles.any fun b => (b.state == .resident || b.state == .filling) && b.lines.contains line

/-- Is it a bundle line? -/
def State.bundleKey (s : State) : L2Key → Bool
  | .line n => s.inBundleWay n
  | .mx .. | .copy .. => false

/-- The partition in whose slices a line lies: the owner of its region, or of its context. -/
def State.keyPart (s : State) : L2Key → Nat
  | .line n | .copy _ n => tget 0 s.plat.regionOwn (n / 2 ^ 21) % 16
  | .mx x _ _ => (s.ctx x).part

/-- The set of a line. -/
def State.keySet (s : State) (k : L2Key) : Nat :=
  match k with
  | .line n => s.setOf (s.keyPart k) n
  | .mx x w l => s.setOf (s.keyPart k) ((s.mxWin x w).abase / 128 + l)
  | .copy sl n => 1024 * sl + n % 1024

/-- The ways of a set in use. -/
def State.rowsOf (s : State) (set : Nat) : List L2Row :=
  (s.mem.l2.filterMap fun e => e.way.bind fun w =>
    if s.keySet (.line e.line) == set then some { key := .line e.line, way := w, prio := e.prio } else none) ++
  (s.mem.mx.filterMap fun e => e.way.bind fun w =>
    if s.keySet (.mx e.ctx e.win e.line) == set then some { key := .mx e.ctx e.win e.line, way := w, prio := e.prio } else none) ++
  s.mem.rcopy.filterMap fun e =>
    if s.keySet (.copy e.slice e.line) == set then some { key := .copy e.slice e.line, way := e.way, prio := e.prio } else none

/-- A line leaves the L2, written back or converted first. -/
def State.dropKey (s : State) : L2Key → State
  | .line n => s.modMem fun m => m.dropLine n
  | .mx x w l =>
    match s.mem.mxLine? x w l with
    | some e => (s.mxFlush e).modMem fun m =>
        { m with mx := m.mx.filter fun y => !(y.ctx == x && y.win == w && y.line == l) }
    | none => s
  | .copy sl n => s.modMem fun m => { m with rcopy := m.rcopy.filter fun e => !(e.slice == sl && e.line == n) }

/-- A line gets a way and a rank. -/
def State.putKey (s : State) (k : L2Key) (way : Option Nat) (prio : Nat) : State :=
  match k with
  | .line n =>
    match s.mem.l2? n with
    | some e => s.modMem fun m => m.setL2 { e with way := way, prio := prio }
    | none => s
  | .mx x w l =>
    match s.mem.mxLine? x w l with
    | some e => s.modMem fun m => m.setMxLine { e with way := way, prio := prio }
    | none => s
  | .copy sl n =>
    match way with
    | some w => (s.dropKey k).modMem fun m => { m with rcopy := { slice := sl, line := n, way := w, prio := prio } :: m.rcopy }
    | none => s.dropKey k

/-- One of several things, by a free choice. -/
def State.pick {α : Type} (s : State) (l : List α) : Option α := l[s.freeNat % l.length]?

/-- The first candidates for eviction among several things of given ranks. -/
def firstOut {α : Type} (rank : α → Nat) (l : List α) : List α :=
  let least := l.foldl (fun m x => min m (rank x)) 9
  l.filter fun x => rank x == least

/-- The rank for eviction under a hint (R183). -/
def hintRank : Hint → Nat
  | .stream => 0
  | .keep => 2
  | _ => 1

/-- A line takes one of several ways: a free one, else that of a first candidate for eviction, which leaves (R8, R373). -/
def State.takeWay (s : State) (k : L2Key) (prio : Nat) (ways : List Nat) : Option State :=
  let rows := s.rowsOf (s.keySet k)
  match s.pick (ways.filter fun w => !rows.any fun r => r.way == w) with
  | some w => some (s.drawn.putKey k (some w) prio)
  | none =>
    (s.pick (firstOut (·.prio) (rows.filter fun r => ways.contains r.way && !s.bundleKey r.key))).map fun r =>
      (s.drawn.dropKey r.key).putKey k (some r.way) prio

/-- A line that an access of a service class brings takes its place: a bundle line in a bundle way; another in a way of the
class above the bundle ways, under the access's hint, but not in one that another class loses and whose dirty lines are not
written back yet; a class with no such way allocates nothing (R183, R228, R372, R373). -/
def State.allot (s : State) (cls : Nat) (h : Hint) (k : L2Key) : State :=
  let p := s.part (s.keyPart k)
  if s.bundleKey k then
    ((s.takeWay k (hintRank h) (List.range p.bways)).orElse fun _ => s.takeWay k (hintRank h) (List.range 16)).getD s
  else if h == .nol2 then s.dropKey k
  else
    let may (w : Nat) : Bool := decide (p.bways ≤ w) && bit (tget 0 p.masks cls) w &&
      p.oldMasks.all fun e => e.1 == cls || !bit e.2 w || bit (tget 0 p.masks e.1) w
    (s.takeWay k (hintRank h) ((List.range 16).filter may)).getD (s.dropKey k)

/-- Every line that has no way yet takes its place. -/
def State.settleL2 (s : State) (cls : Nat) (h : Hint) : State :=
  let new := ((s.mem.l2.filter fun e => e.way.isNone).map fun e => L2Key.line e.line) ++
    (s.mem.mx.filter fun e => e.way.isNone).map fun e => L2Key.mx e.ctx e.win e.line
  new.foldl (fun s k => s.allot cls h k) s

/-- The service class of a context. -/
def State.clsOf (s : State) (x : Nat) : Nat := (s.ctx x).cls

/-- A read of a context under a hint at the slices: the line is filled if it may be. -/
def State.touchBy (s : State) (x : Nat) (h : Hint) (l : Loc) : State := (s.locTouch l).settleL2 (s.clsOf x) h

/-- A store is performed whole, the parts of it that are performed already included, which nothing has overwritten since: it
carries the tag that the line then has (R180, R206). -/
def State.endStore (s : State) (a : Access) : State :=
  let s := (s.locWrite a.loc a.data).settleL2 (s.clsOf a.ctx) a.hint
  let tag := s.locTag a.loc
  s.modMem fun m => { m with flight := m.flight.map fun b => if b.id == a.id then { b with performed := true, tag := tag } else b }

/-- Has a store to the line of a location of device HBM been performed in part? -/
def Access.midStore (a : Access) (l : Loc) : Bool :=
  a.kind == .store && !a.parts.isEmpty && !a.performed && a.loc.lineKey == l.lineKey &&
    (match a.loc with
      | .hbm _ => true
      | _ => false)

/-- Before the home slice performs another write to the line it performs the parts that are left of a store to it, so that
the tags are the order of the line's writes (R206, R212). -/
def State.finishWide (s : State) (l : Loc) : State := (s.mem.flight.filter (·.midStore l)).foldl (fun s a => s.endStore a) s

/-- A write of a context under a hint at an ordering point. -/
def State.writeBy (s : State) (x : Nat) (h : Hint) (l : Loc) (bs : List Byte) : State :=
  ((s.finishWide l).locWrite l bs).settleL2 (s.clsOf x) h

/-- Is a location's line one that an L2 slice holds? -/
def Loc.inSlice : Loc → Bool
  | .hbm _ | .mx .. => true
  | _ => false

/-- Does the L2 hold the line of a location? -/
def State.inL2 (s : State) (l : Loc) : Bool :=
  match l with
  | .hbm pa => (s.mem.l2? (pa / 128)).isSome
  | .mx x w pa => (s.mem.mxLine? x w (pa / 128)).isSome
  | _ => false

/-! ## Range write-back and invalidate at the slices (R128) -/

/-- Every dirty copy of the line that holds a location is written back; it stays valid and clean. -/
def State.lineWriteBack (s : State) (l : Loc) : State :=
  match l with
  | .hbm pa => s.modMem fun m => m.cleanLine (pa / 128)
  | .mx x w pa =>
    match s.mem.mxLine? x w (pa / 128) with
    | some e => (s.mxFlush e).modMem fun m => m.setMxLine { e with writes := [] }
    | none => s
  | _ => s

/-- The line that holds a location is written back and removed from the slices, from remote copies, and from the L1 ways
and scalar data caches of the partition's cores; a bundle line stays (R128). DESIGN CHOICE (log 74): the copies of a bundle
line in other sectors stay with it, and those in L1 ways and scalar data caches go. -/
def State.lineInvalidate (s : State) (part : Nat) (l : Loc) : State :=
  let s := s.lineWriteBack l
  let s := match l with
    | .hbm pa =>
      if s.inBundleWay (pa / 128) then s
      else s.modMem fun m => { m.dropLine (pa / 128) with rcopy := m.rcopy.filter fun e => e.line != pa / 128 }
    | .mx x w pa => s.modMem fun m =>
        { m with mx := m.mx.filter fun e => !(e.ctx == x && e.win == w && e.line == pa / 128) }
    | _ => s
  s.modMem fun m => { m with l1 := m.l1.filter fun c => !(c.part == part && c.loc == l.lineStart) }

/-! ## Translation (R385 to R387) -/

/-- The outcome of a walk: a leaf with its entry and page size in bits, or the code of the fault. -/
inductive Walk where
  | leaf (pte size : Nat)
  | fault (code : Nat)
  deriving DecidableEq, Repr

/-- Is an entry read at a level malformed (R386)? Level 1 is the table at PTROOT. -/
def pteBad (level pte : Nat) : Bool :=
  let isLeaf := bits pte 1 3 != 0
  let ty := bits pte 4 3
  bits pte 8 4 != 0 || bits pte 60 4 != 0
  || (bit pte 7 && !(level == 5 && isLeaf))
  || (!isLeaf && bits pte 52 8 != 0)
  || (isLeaf && bits pte 52 8 != 0 && (ty == 0 || ty == 1 || ty == 3 || ty == 6 || ty == 7))
  || (isLeaf && ty == 3 && bits pte 19 33 != 0)
  || (isLeaf && ty == 4 && bits pte 19 32 != 0)
  || (isLeaf && level == 3 && bits pte 12 18 != 0)
  || (isLeaf && level == 4 && bits pte 12 9 != 0)
  || (isLeaf && level == 5 && bit pte 7 && bits pte 12 4 != 0)
  || (isLeaf && decide (level < 3))
  || (!isLeaf && level == 5)

/-- The page size in bits of a leaf at a level. -/
def leafSize (level pte : Nat) : Nat :=
  if level = 3 then 30 else if level = 4 then 21 else if bit pte 7 then 16 else 12

/-- The walk from a table on; `n` levels are left (R386). The walker reads the tables at their home slices. -/
def State.walkFrom (s : State) (part va : Nat) : Nat → Nat → Walk
  | 0, _ => .fault 0x05
  | n + 1, table =>
    if !s.ownsPa part table then .fault 0x06
    else
      let pte := leNat (s.mem.hbm.read (table + 8 * bits va (12 + 9 * n) 9) 8)
      let level := 5 - n
      if !bit pte 0 then .fault 0x04
      else if pteBad level pte then .fault 0x05
      else if bits pte 1 3 != 0 then .leaf pte (leafSize level pte)
      else State.walkFrom s part va n (bits pte 12 40 * 4096)

/-- A walk of a context's page tables. -/
def State.walk (s : State) (x part va : Nat) : Walk := s.walkFrom part va 5 (s.ctx x).ptroot

/-- Does a TLB entry translate the address for a context? A 64 KiB entry serves the 4 KiB part whose entry it is (R386). -/
def TlbEnt.hits (e : TlbEnt) (x va : Nat) : Bool :=
  e.ctx == x && va / 2 ^ (if e.bits = 16 then 12 else e.bits) == e.vpn

/-- The TLB entry for a leaf. -/
def tlbOf (core x va pte size : Nat) : TlbEnt :=
  { core := core, ctx := x, vpn := va / 2 ^ (if size = 16 then 12 else size), bits := size, pte := pte }

/-- The number of a cluster's second-level TLB: those of the cores come first. -/
def tlb2 (cluster : Nat) : Nat := Config.cores + cluster

/-- An entry enters a TLB of so many entries: in a full one another makes room, by a free choice. -/
def State.addTlb (s : State) (e : TlbEnt) (size : Nat) : State :=
  let mates := s.mem.tlb.filter fun x => x.core == e.core
  let put (old : List TlbEnt) : State := s.modMem fun m => { m with tlb := e :: old }
  if mates.length < size then put s.mem.tlb
  else match s.pick mates with
    | some x => (put (s.mem.tlb.erase x)).drawn
    | none => put s.mem.tlb

/-- Translates an address for a core: its own TLB of 64 entries, then the cluster's second-level TLB of 4,096, then a walk
(R387). The TLBs keep the entry used. -/
def State.translate (s : State) (core x part va : Nat) : State × Walk :=
  match s.mem.tlb.find? fun e => e.core == core && e.hits x va with
  | some e => (s, .leaf e.pte e.bits)
  | none =>
    match s.mem.tlb.find? fun e => e.core == tlb2 (clusterOf core) && e.hits x va with
    | some e => (s.addTlb { e with core := core } 64, .leaf e.pte e.bits)
    | none =>
      match s.walk x part va with
      | .leaf pte size =>
        ((s.addTlb (tlbOf core x va pte size) 64).addTlb (tlbOf (tlb2 (clusterOf core)) x va pte size) 4096, .leaf pte size)
      | .fault c => (s, .fault c)

/-! ## Access checks (R124, R174) -/

/-- Who makes an access. -/
structure Agent where
  core : Nat
  ctx : Nat
  part : Nat
  launch : Nat
  blk : Nat
  team : Nat
  handler : Bool
  deriving DecidableEq, Repr

/-- A group as an agent. -/
def Group.agent (g : Group) : Agent :=
  { core := g.place.core, ctx := g.place.ctx, part := g.place.part, launch := g.place.launch, blk := g.place.blk,
    team := g.place.team, handler := g.inHandler }

/-- What an access does, for its permission and type checks. -/
inductive Want where
  | load
  | store
  | atomic (hostOk : Bool)
  deriving DecidableEq, Repr

/-- The outcome of the checks: where the access goes, or the check that fails and its code. -/
inductive Chk where
  | ok (l : Loc)
  | fail (stage code : Nat)
  deriving DecidableEq, Repr

/-- A team scratch offset as a place in a core's SRAM (R374, R385). -/
def State.teamScratch (s : State) (t : Team) (part off : Nat) : Option Loc :=
  if off < t.size then (s.scratchByte part t.core (t.tb + off)).map (Loc.scr t.core) else none

/-- The team of a launch on a core that a type-4 page reaches: the accessing block's own team there, else any team of the
launch (R385). -/
def State.remoteTeam (s : State) (a : Agent) (core : Nat) : Option Team :=
  match s.units.teams.find? fun t => t.launch == a.launch && t.core == core && t.blk == a.blk with
  | some t => some t
  | none => s.units.teams.find? fun t => t.launch == a.launch && t.core == core

/-- Where a leaf sends an access (R63, R385): none where the target type check fails. The offset in a scratch page of types 3
and 4 is not cut off: one beyond the team's scratch fails. -/
def State.target (s : State) (a : Agent) (pte size va : Nat) : Option Loc :=
  let off := va % 2 ^ size
  let pa := bits pte 12 40 * 4096 + off
  let scratch := bits pte 12 7 * 4096 + off
  let tsel := bits pte 52 8
  match bits pte 4 3 with
  | 0 => if s.ownsPa a.part pa then some (.hbm pa) else none
  | 1 => some (.host pa)
  | 2 =>
    let e := tget 0 s.plat.peers tsel
    if bit e 7 && (s.link (e % 8)).up && s.freeBit then some (.peer (e % 8) pa) else none
  | 3 =>
    match s.team? a.launch a.blk a.team with
    | some t => s.teamScratch t a.part scratch
    | none => none
  | 4 =>
    let core := tsel + 256 * bits pte 51 1
    if core ≥ Config.cores then none
    else
      match s.remoteTeam a core with
      | some t => s.teamScratch t a.part scratch
      | none => none
  | 5 =>
    if tsel ≥ 16 then none
    else
      let w := s.mxWin a.ctx tsel
      if w.en && decide (w.fmt < 2) && decide (w.abase ≤ pa) && decide (pa < w.abase + 4096 * w.alen) &&
          s.ownsPa a.part (w.dataAt ((pa - w.abase) / 64)) && s.ownsPa a.part (w.scaleAt ((pa - w.abase) / 64)) then
        some (.mx a.ctx tsel (pa - w.abase))
      else none
  | 6 => if a.handler then some (.mmio pa) else none
  | _ => none

/-- May the access use its target (check 5 of R174, step 5 of R124)? -/
def targetOk (w : Want) (size : Nat) (l : Loc) : Bool :=
  match l, w with
  | .mx .., .atomic _ => false
  | .mx .., _ => size != 1
  | .mmio _, .atomic _ => false
  | .host _, .atomic h => h
  | _, _ => true

/-- The permission check (check 4 of R174, step 4 of R124). -/
def permOk (w : Want) (pte : Nat) : Bool :=
  match w with
  | .load => bit pte 1
  | .store => bit pte 2
  | .atomic _ => bit pte 1 && bit pte 2

/-- Is the address canonical: bits [63:57] copies of bit 56? -/
def canonical (va : Nat) : Bool := bits va 57 7 == (if bit va 56 then 127 else 0)

/-- Where an access of a canonical address goes, aligned or not: its translation, permission and target. A peer's answer to
an access is its own (a free choice, log 5). -/
def State.placeAt (s : State) (a : Agent) (w : Want) (va size : Nat) : State × Chk :=
  match s.translate a.core a.ctx a.part (va % 2 ^ 57) with
  | (s, .fault c) => (s, .fail (if c = 0x04 then 3 else if c = 0x05 then 4 else 5) c)
  | (s, .leaf pte bits') =>
    let s' := if bits pte 4 3 = 2 then s.drawn else s
    if !permOk w pte then (s', .fail 4 0x05)
    else
      match s.target a pte bits' (va % 2 ^ 57) with
      | none => (s', .fail 5 0x06)
      | some l => if !targetOk w size l then (s', .fail 5 0x06) else (s', .ok l)

/-- Where an access goes: the checks of R124 and R174 on its address, translation, permission and target, in their order;
`stage` of a failure is the step of R174. -/
def State.place (s : State) (a : Agent) (w : Want) (va size : Nat) : State × Chk :=
  if !canonical va then (s, .fail 1 0x05)
  else if va % size != 0 then (s, .fail 2 0x03)
  else s.placeAt a w va size

/-- The checks of R124, and those of R174 but for watchpoints and hints: a place, and data without an uncorrectable error. -/
def State.check (s : State) (a : Agent) (w : Want) (va size : Nat) : State × Chk :=
  match s.place a w va size with
  | (t, .ok l) => (t, if t.locBad l size then .fail 8 0x15 else .ok l)
  | r => r

/-! ## Fetch (R74, R141, R385) -/

/-- The outcome of a fetch: a word, or the code of the trap. -/
inductive Fetch where
  | word (w : Nat)
  | fault (code : Nat)
  deriving DecidableEq, Repr

/-- Fetches the aligned 4-byte part of code at a virtual address: a part that the core keeps is not read again (R76). DESIGN
CHOICE (log 17): only code in device HBM is kept, so code in host memory, a peer, scratch or an alias window shows its newest
contents always. -/
def State.fetch4 (s : State) (a : Agent) (va : Nat) : State × Fetch :=
  if !canonical va then (s, .fault 0x05)
  else
    match s.translate a.core a.ctx a.part (va % 2 ^ 57) with
    | (s, .fault c) => (s, .fault c)
    | (s, .leaf pte size) =>
      if !bit pte 3 then (s, .fault 0x05)
      else
        match s.target a pte size (va % 2 ^ 57) with
        | none => (if bits pte 4 3 = 2 then s.drawn else s, .fault 0x06)
        | some l =>
          let s' := if bits pte 4 3 = 2 then s.drawn else s
          match l with
          | .hbm pa =>
            match s.mem.code.find? fun e => e.1 == a.core && e.2.1 == a.launch && e.2.2.1 == pa with
            | some e => (s', .word e.2.2.2.toNat)
            | none => (s', .word (leNat (s.mem.hbm.read pa 4)))
          | l => (s', .word (leNat (s.locRead l 4)))

/-- Does one of n words of code from a virtual address on lie in a bank that is to change its use, so that its fetch stalls
(R375)? -/
def State.codeStalls (s : State) (a : Agent) (va n : Nat) : Bool :=
  s.banksChange a.core && (List.range n).any fun i =>
    match s.translate a.core a.ctx a.part ((va + 4 * i) % 2 ^ 57) with
    | (_, .fault _) => false
    | (s, .leaf pte size) => (s.target a pte size ((va + 4 * i) % 2 ^ 57)).any s.bankStalls

/-! ## L1 ways and scalar data caches (R210) -/

/-- Are two copies of one cache: one owner's L1 ways on a core, or a core's scalar data cache? -/
def L1Line.mates (c x : L1Line) : Bool :=
  x.core == c.core && x.scalar == c.scalar && (c.scalar || x.part == c.part)

/-- How many lines a copy's cache holds: 16 KiB of scalar data cache; 32 KiB in each bank that the owner uses as an L1 way
(R7, R374). -/
def State.l1Room (s : State) (c : L1Line) : Nat :=
  if c.scalar then 128
  else 256 * ((List.range 16).filter fun i =>
    s.ownsBank c.part c.core i && !bit (tget 0 (s.core c.core).cwmask c.part) i).length

/-- A copy of a line enters its cache in place of an older one of it; in a full cache a first candidate for eviction makes
room. -/
def State.addCopy (s : State) (c : L1Line) : State :=
  let rest := s.mem.l1.filter fun x => !(c.mates x && x.part == c.part && x.loc == c.loc)
  let held := rest.filter c.mates
  if held.length < s.l1Room c then s.modMem fun m => { m with l1 := c :: rest }
  else
    match s.pick (firstOut (·.prio) held) with
    | some v => s.drawn.modMem fun m => { m with l1 := if s.l1Room c = 0 then rest else c :: rest.erase v }
    | none => s.modMem fun m => { m with l1 := rest }

/-- A bank has ceased to be an L1 way of a partition: which copies were in it is a free choice among those that have no room
any more (R375). The number bounds the copies. -/
def State.trimL1 (s : State) (core part : Nat) : Nat → State
  | 0 => s
  | n + 1 =>
    let held := s.mem.l1.filter fun c => c.core == core && !c.scalar && c.part == part
    match held.head? with
    | none => s
    | some c =>
      if held.length ≤ s.l1Room c then s
      else
        match s.pick held with
        | some v => State.trimL1 (s.drawn.modMem fun m => { m with l1 := m.l1.erase v }) core part n
        | none => s

/-- The copies of a line that a core holds go. -/
def State.dropCopies (s : State) (core : Nat) (l : Loc) : State :=
  s.modMem fun m => { m with l1 := m.l1.filter fun c => !(c.core == core && c.loc == l.lineStart) }

/-- The acquire of a core invalidates the owner's L1 ways and the core's scalar data cache (R209). -/
def State.acquireCore (s : State) (core part : Nat) : State :=
  s.modMem fun m => { m with l1 := m.l1.filter fun c => !(c.core == core && (c.scalar || c.part == part)) }

/-- A core's stores update the copies it holds (R210). -/
def updateCopies (core : Nat) (l : Loc) (bs : List Byte) (cs : List L1Line) : List L1Line :=
  let o := l.flat.2 % 128
  cs.map fun c =>
    if c.core == core && c.loc == l.lineStart then
      { c with data := c.data.take o ++ bs ++ c.data.drop (o + bs.length) }
    else c

end Sys2Proof.Machine
end

