-- ==== Sys2Proof/Machine/Ops.lean ====
section
/-! DEFINITION. Shared operations of groups: events and error reports (R327, R365), retirement (R22, R321, R331), taking a
trap and returning from one (R43 to R46, R141, R142), and the frame of every scalar instruction (R29, R114). -/
namespace Sys2Proof.Machine

/-! ## Events and error reports -/

/-- The ports of the fabric from which changes reach the dispatcher: a cluster's own number, the dispatcher itself, the host
and the slices (R315). -/
def dispatcherPort : Nat := 72
/-- The host's port. -/
def hostPort : Nat := 73
/-- A slice's port. -/
def slicePort (n : Nat) : Nat := 128 + n

/-- A set of an event bit goes from a port to the dispatcher (R329). -/
def State.raiseEvent (s : State) (src x b : Nat) : State :=
  s.modCtx x fun c => { c with evOps := c.evOps ++ [{ src := src, set := true, bit := b }] }

/-- Sends event sets for every bit of a mask (R331). -/
def State.raiseMask (s : State) (x : Nat) (m : BitVec 256) : State :=
  s.modCtx x fun c => { c with evOps := c.evOps ++
    ((List.range 248).filter fun b => m.getLsbD b).map fun b => { src := dispatcherPort, set := true, bit := b } }

/-- Records an error that ended a group without EXIT and signals it (R365). -/
def State.recordErr (s : State) (x kind cause subc gid : Nat) : State :=
  if (s.ctx x).err.valid then
    s.modCtx x fun c => { c with err := { c.err with lost := min 255 (c.err.lost + 1) } }
  else
    (s.modCtx x fun c => { c with
      err := { valid := true, kind := kind, cause := cause, subc := subc, lost := 0, group := gid } }).modPlat
        fun p => { p with msix := p.msix ++ [s.drivingFn x] }

/-- The registers of R364 as one use sees them: while an old value may still be seen, each use chooses freely. -/
def State.useRegs (s : State) (x : Nat) : State × CtxRegs :=
  let c := s.ctx x
  match c.oldRegs with
  | [] => (s, c.regs)
  | olds => (s.drawn, (c.regs :: olds).getD (s.freeNat % (olds.length + 1)) c.regs)

/-- Does the context have a resident or saved group (R364)? -/
def State.hasGroups (s : State) (x : Nat) : Bool :=
  (s.groups.any fun g => g.place.ctx == x) || (s.units.saved.any fun b => b.ctx == x)

/-- Once a context has no resident or saved group, every use sees the new registers (R364). -/
def State.settleRegs (s : State) (x : Nat) : State :=
  if s.hasGroups x then s else s.modCtx x fun c => { c with oldRegs := [] }

/-! ## Sections -/

/-- The length in words of the scalar section that the group executes in: the kernel's, or in a handler HLEN (R141). -/
def State.scalarLen (s : State) (g : Group) : State × Nat :=
  if g.inHandler then
    match s.useRegs g.place.ctx with
    | (s, r) => (s, r.hlen)
  else (s, ((s.launch? g.place.launch).map (·.scalLen)).getD 0)

/-- The length in lane words of the group's lane section. -/
def State.laneLen (s : State) (g : Group) : Nat := ((s.launch? g.place.launch).map (·.laneLen)).getD 0

/-! ## Barriers (R321) -/

/-- The groups of a launch's block, resident or saved, that have not retired; with a team, those of the team. -/
def State.expected (s : State) (l b : Nat) (team : Option Nat) : List Nat :=
  let here (g : Group) : Bool :=
    g.place.launch == l && g.place.blk == b && (team == none || team == some g.place.team)
  (s.groups.filter here).map (·.gid) ++ (s.units.saved.flatMap fun k => (k.groups.filter here).map (·.gid))

/-- A barrier whose expected groups have all arrived opens: every arrival is cleared, and the groups leave in waves. -/
def State.openBarrier (s : State) (k : Barrier) : Barrier :=
  let ex := s.expected k.launch k.blk k.team
  if !k.arrived.isEmpty && ex.all k.arrived.contains then
    { k with arrived := [], leaving := k.leaving ++ k.arrived }
  else k

/-- Opens every barrier that can open. -/
def State.openBarriers (s : State) : State :=
  s.modUnits fun u => { u with barriers := u.barriers.map s.openBarrier }

/-! ## Window handles (R267, R269) -/

/-- A 32-bit word of a team's scratch; none where the team has no such scratch. -/
def State.teamWord (s : State) (t : Team) (part off : Nat) : Option Nat :=
  (s.teamScratch t part off).map fun l => leNat (s.locRead l 4)

/-- Writes a word of a team's scratch. -/
def State.setTeamWord (s : State) (t : Team) (part off v : Nat) : State :=
  match s.teamScratch t part off with
  | some l => s.locWrite l (leBytes 4 v)
  | none => s

/-- The handle is unbound: its object has one handle less (R269). DESIGN CHOICE (log 33): a BINDS that a store has made 0 stays 0. -/
def State.waUnbind (s : State) (g : Group) (t : Team) (h : Nat) : State × Group :=
  match g.wa.find? fun e => e.1 == h with
  | none => (s, g)
  | some (_, base) =>
    let s := match s.teamWord t g.place.part (base + 12) with
      | some w => s.setTeamWord t g.place.part (base + 12) (setBits w 0 10 (bits w 0 10 - 1))
      | none => s
    (s, { g with wa := tdel g.wa h })

/-- Every handle of the group is unbound, as at EXIT and termination (R269). -/
def State.unbindAll (s : State) (g : Group) : State :=
  match s.team? g.place.launch g.place.blk g.place.team with
  | none => s
  | some t => ((List.range 8).foldl (fun (e : State × Group) h => e.1.waUnbind e.2 t h) (s, g)).1

/-! ## Retirement (R22, R331) -/

/-- The bundles of a set are left: their entry counts fall, and the time of last leave is recorded (R242). -/
def State.leaveIds (s : State) (ids : List Nat) : State :=
  s.modUnits fun u => { u with
    bundles := u.bundles.map fun b =>
      if ids.contains b.id then { b with entries := b.entries - 1, lastLeave := s.ns, left := true } else b }

/-- The group's entered bundle set is left (R237, R242). -/
def State.leaveSet (s : State) (g : Group) : State :=
  match g.entered with
  | none => s
  | some b => s.leaveIds b.ids

/-- The issuer of accesses, commands and requests whose group has gone: nothing is delivered to it. -/
def noGroup : Nat := 0xFFFFFFFF

/-- Bundle requests of the group that meet a test are withdrawn; one that is admitted goes on filling for no group (R397). -/
def State.withdrawIf (s : State) (g : Group) (f : BReq → Bool) : State :=
  s.modPart g.place.part fun p =>
    { p with reqs := (p.reqs.filter fun r => r.grp != g.gid || !f r || r.admitted).map fun r =>
        if r.grp == g.gid && f r then { r with grp := noGroup } else r }

/-- Every bundle request of the group is withdrawn. -/
def State.withdraw (s : State) (g : Group) : State := s.withdrawIf g fun _ => true

/-- Is a request the one that asks again for a saved set (R247)? -/
def BReq.asksFor (r : BReq) (b : BSet) : Bool := !r.handler && r.ids == b.ids && r.age == b.age

/-- Groups of a launch. -/
def Launch.total (l : Launch) : Nat := l.gx * l.gy * l.gz * l.teams * l.groups

/-- Does an access count in `%uas`: every store, atomic, range write-back and range invalidate? -/
def AccKind.counts : AccKind → Bool
  | .load => false
  | _ => true

/-- Does an access write memory? -/
def AccKind.writes : AccKind → Bool
  | .load | .writeBack | .invalidate => false
  | _ => true

/-- Is an access an atomic? -/
def AccKind.isAtomic : AccKind → Bool
  | .rmwLane _ _ | .rmwScalar _ | .cas => true
  | _ => false

/-- Is a command a receive that no message has reached? -/
def Cmd.openRecv (c : Cmd) : Bool :=
  match c.kind with
  | .recv _ _ _ _ _ none => true
  | _ => false

/-- Is every write of a launch acknowledged at home and every engine command of it complete (R220, R331)? A receive of a run
that has been discarded, which stays posted, is none of them (R305). -/
def State.launchQuiet (s : State) (id : Nat) : Bool :=
  !(s.mem.flight.any fun a => a.launch == id && a.kind.counts && !a.accepted) &&
    !s.units.cmds.any fun c => c.launch == id && !(c.dropped && c.openRecv)

/-- A launch whose last group has retired, and whose writes are all home, is complete: its SETMASK bits are set (R331). -/
def State.launchDone (s : State) (id : Nat) : State :=
  match s.launch? id with
  | none => s
  | some l =>
    if l.retired ≥ l.total && s.launchQuiet id then
      ((s.modUnits fun u => { u with launches := u.launches.filter fun m => m.id != id }).modMem
        fun m => { m with code := m.code.filter fun e => e.2.1 != id }).raiseMask l.ctx l.setmask
    else s

/-- Every launch that has become complete is. -/
def State.finishLaunches (s : State) : State := s.units.launches.foldl (fun s l => s.launchDone l.id) s

/-- What the accesses and loads of a group that has gone deliver is lost; they still complete. -/
def MemSys.orphan (m : MemSys) (gid : Nat) : MemSys :=
  { m with flight := m.flight.map fun a =>
      if a.grp == gid then { a with grp := noGroup, dests := [], tagDest := none } else a }

/-- The group leaves its core: its registers, tiles, generator reservation and slot are free, the team's scratch with its
last group, and barriers that waited only for it open (R22, R321). -/
def State.retire (s : State) (g : Group) : State :=
  let s := ((s.unbindAll g).leaveSet g).withdraw g
  let s := { s with groups := s.groups.filter fun h => h.gid != g.gid }
  let p := g.place
  let s := s.modUnits fun u => { u with
    teams := if (s.expected p.launch p.blk (some p.team)).isEmpty then
        u.teams.filter fun t => !(t.launch == p.launch && t.blk == p.blk && t.team == p.team)
      else u.teams
    barriers := u.barriers.map fun k =>
      if k.launch == p.launch && k.blk == p.blk then
        { k with arrived := k.arrived.filter (· != g.gid), leaving := k.leaving.filter (· != g.gid) }
      else k
    ratchet := u.ratchet.filter fun w => w.grp != g.gid
    arrivals := u.arrivals.map fun b => if b.grp == g.gid then { b with grp := noGroup } else b
    cmds := u.cmds.map fun c => if c.grp == g.gid then { c with grp := noGroup } else c }
  let s := (s.openBarriers).modMem fun m => m.orphan g.gid
  let s := s.modLaunch p.launch fun l => { l with retired := l.retired + 1 }
  (s.launchDone p.launch).settleRegs p.ctx

/-- A group is ended without the waits of EXIT, and the context's error report records it (R46, R365). -/
def State.terminate (s : State) (g : Group) (kind cause subc : Nat) : State :=
  (s.recordErr g.place.ctx kind cause subc g.gid).retire g

/-! ## Traps (R43 to R46, R139 to R142) -/

/-- What a trap reports. -/
structure TrapReq where
  cause : Nat
  subc : Nat
  swc : Nat
  /-- the scalar word that TRET resumes at -/
  spc : Nat
  /-- the lane word of the faulting or stopped instruction, 0xFFFFFFFF for a scalar trap -/
  lpc : Nat
  /-- active mask of the faulting gang -/
  exec : Mask
  fltmask : Mask
  wmask : Mask
  /-- strands of the faulting gang, none for a scalar trap -/
  gang : BitVec 8
  deriving DecidableEq, Repr

/-- No lanes: nothing dispatched, nothing running. -/
def Lanes.idle : Lanes := { strands := [], running := false, k := [], replay := [], wpSkip := 0, fault := none }

/-- The group in the handler's first word, its trap frame saved (R45, R141). -/
def Group.enterHandler (g : Group) (t : TrapReq) : Group :=
  { g with
    trap := some { cause := t.cause, subc := t.subc, swc := t.swc, spc := t.spc, lpc := t.lpc, origin := t.lpc,
                   exec := t.exec, fltmask := t.fltmask, faulted := t.fltmask, wmask := t.wmask,
                   isLane := t.lpc != 0xFFFFFFFF, gang := t.gang, frame := g.lanes, dq := g.dq, wait := g.wait,
                   words := g.words, oldS := g.oldS, spcWritten := false }
    lanes := Lanes.idle
    dq := []
    oldS := []
    spc := 0
    wait := none
    words := none
    due := none
    holdFirst := false }

/-- Taking a trap: a trap in a handler is a double fault; with no handler installed, or none whose first word can be
fetched, the group is ended; else its frame is saved and the handler starts at scalar word 0 (R45, R46, R141). -/
def State.takeTrap (s : State) (g : Group) (t : TrapReq) : State :=
  if g.inHandler then s.terminate g 1 t.cause t.subc
  else
    match s.useRegs g.place.ctx with
    | (s, r) =>
      if !r.valid then s.terminate g 2 t.cause t.subc
      else
        match s.fetch4 { g.agent with handler := true } r.hbase with
        | (s, .fault _) => s.terminate g 2 t.cause t.subc
        | (s, .word _) => s.setGroup (g.enterHandler t)

/-- A trap of the scalar stream, before the instruction at the scalar PC, which executes from its start after TRET (R43). -/
def State.scalarTrap (s : State) (g : Group) (cause subc : Nat) : State :=
  s.takeTrap { g with wait := none, words := none }
    { cause := cause, subc := subc, swc := 0, spc := g.spc, lpc := 0xFFFFFFFF, exec := 0, fltmask := 0, wmask := 0, gang := 0 }

/-- LEXIT's removal of lanes from a strand (R36). -/
def Strand.dropLanes (live : BitVec 4) (s : Strand) : Strand :=
  { s with
    active := s.active &&& live
    stack := s.stack.map fun e => { e with pend := e.pend &&& live, save := e.save &&& live } }

/-- The lanes that LEXIT removed leave every saved mask of a set of strands (R36, R201). -/
def dropDead (live : Mask) (l : List Strand) : List Strand :=
  (l.zip (List.range 8)).map fun (s, j) => s.dropLanes (strandBits live j)

/-- Lanes after a handler has ended lanes for good: a strand with no lane of `left` takes no part, and with no live lane left
there is no running block (R31, R36). In a producer the done lanes are not left, and strands of done lanes alone wait for
the drain (R258). -/
def Lanes.prune (live left : Mask) (x : Lanes) : Lanes :=
  let l := (dropDead live x.strands).zip (List.range 8)
  let l := l.map fun (s, j) => { s with part := s.part && strandBits left j != 0 }
  if x.running && l.all (fun s => !s.part) && left == live then Lanes.idle else { x with strands := l }

/-- The live lanes that a loop's producer has left: those that are not done (R258). -/
def Gen.left (n : Gen) (live : Mask) : Mask := if n.mode == .producer then live &&& ~~~n.done else live

/-- The lanes that the group's block has left in it. -/
def Group.lanesLeft (g : Group) : Mask :=
  match g.gen with
  | some n => n.left g.regs.live
  | none => g.regs.live

/-- A loop whose producer has lost its last lanes that were not done drains (R262). -/
def Gen.afterLoss (n : Gen) (live : Mask) : Gen :=
  if n.mode == .producer && n.left live == 0 then { n with move := some .toDrain, pend := none } else n

/-- Which lanes execute the instruction at a gang's lane PC again: after a partial fault those that the handler left in
`%fltmask`; none where the handler moved `%lpc` (R175, R137). -/
def Trap.replay (t : Trap) : List (BitVec 8 × Mask) :=
  let others := t.frame.replay.filter fun e => e.1 &&& t.gang == 0
  if !t.isLane then t.frame.replay
  else if t.lpc != t.origin then others
  else if t.faulted != 0 then (t.gang, t.fltmask) :: others
  else t.frame.replay

/-- The lanes that TRET restores: the faulting gang stands at `%lpc`, and after a watchpoint trap its instruction is not
watched once, where the handler has not moved it (R142, R175, R192). -/
def Trap.lanes (t : Trap) : Lanes :=
  { t.frame with
    strands := modStrands t.gang (fun _ x => { x with pc := t.lpc, reached := false }) t.frame.strands
    replay := t.replay
    wpSkip := if t.isLane && t.cause == 0x10 && t.lpc == t.origin then t.frame.wpSkip ||| t.gang
      else t.frame.wpSkip &&& ~~~t.gang }

/-- Has a scalar instruction begun to wait, so that TRET goes on in it (R397)? LWAIT and EXIT wait without other state. -/
def waitsOn (w : Option Wait) (words : Option (Nat × Nat)) : Bool :=
  w.isSome || words.any fun (w0, w1) => match decodeScalar w0 w1 with
    | .ok .lwait | .ok .exit => true
    | _ => false

/-- Returning from a trap: the frame is restored, and the scalar stream resumes at `%spc`, in the wait it was in unless the
handler wrote `%spc` (R142, R397). -/
def State.trapReturn (s : State) (g : Group) (t : Trap) : State :=
  let lanes := t.lanes.prune g.regs.live g.lanesLeft
  let s := if t.spcWritten then s.withdraw g else s
  s.setGroup { g with
    trap := none
    lanes := lanes
    gen := if t.frame.running && !lanes.running then none else g.gen.map fun n => n.afterLoss g.regs.live
    dq := t.dq
    oldS := if lanes.running then t.oldS else []
    spc := t.spc
    holdFirst := g.holdTrap
    wait := if t.spcWritten then none else t.wait
    words := if !t.spcWritten && waitsOn t.wait t.words then t.words else none }

/-! ## Scalar instructions -/

/-- Does a command still owe its status to the register (R304)? -/
def Cmd.owes (c : Cmd) (r : Nat) : Bool :=
  match c.kind with
  | .send _ _ _ _ sreg told => sreg == r && !told
  | _ => false

/-- Does an earlier scalar load or atomic, or a message, still owe a value to the register (R29, R304)? -/
def State.scalarBusy (s : State) (g : Group) (r : Nat) : Bool :=
  (s.mem.flight.any fun a => a.grp == g.gid && a.scalar && a.dests.contains (.s r)) ||
    s.units.cmds.any fun c => c.grp == g.gid && c.owes r

/-- The frame of a scalar instruction that names the registers `regs`: a register beyond the allocation traps (R20, R98),
and one that an earlier load still owes a value to stalls the stream (R29, R114). -/
def scalarInstr (s : State) (regs : List Nat) (k : Group → Out) : Out :=
  match s.scalarTurn? with
  | none => .refused .noIssuer
  | some g =>
    if regs.any fun r => decide (r ≥ g.info.sregs) then .next (s.scalarTrap g 0x02 0)
    else if regs.any (s.scalarBusy g) then .next s
    else k g

/-- An instruction of `words` words that changes the group alone and goes on to the next word. -/
def scalarOp (s : State) (regs : List Nat) (words : Nat) (f : Group → Group) : Out :=
  scalarInstr s regs fun g => .next (s.setGroup ((f g).advance words))

/-- The frame of a privileged scalar instruction: outside a handler it traps (R98). -/
def privileged (s : State) (regs : List Nat) (k : Group → Trap → Out) : Out :=
  match s.scalarTurn? with
  | none => .refused .noIssuer
  | some g =>
    match g.trap with
    | none => .next (s.scalarTrap g 0x01 0)
    | some t => scalarInstr s regs fun g => k g t

/-- The registers n to n + k − 1. -/
def regSpan (n k : Nat) : List Nat := (List.range k).map (n + ·)

/-- A scalar branch taken to a word index: a target outside the section traps (R131 to R133). -/
def State.scalarJump (s : State) (g : Group) (target : Int) : State :=
  match s.scalarLen g with
  | (s, n) =>
    if target < 0 || target ≥ (n : Int) then s.scalarTrap g 0x01 0
    else s.setGroup (g.goTo target.toNat)

/-- The sub-code that a pending fault shows: bit 7 says that others were lost (R310). -/
def AsyncFault.subcode (a : AsyncFault) : Nat := a.subc + if a.lost > 0 then 128 else 0

/-- A pending asynchronous engine fault is taken at a wait instruction outside a handler, before it has any effect
(R286). -/
def takeAsync (s : State) (g : Group) (spc : Nat) (k : Out) : Out :=
  match g.async with
  | some a =>
    if g.inHandler then k
    else .next (s.takeTrap { g with async := none }
      { cause := a.cause, subc := a.subcode, swc := 0, spc := spc, lpc := 0xFFFFFFFF, exec := 0, fltmask := 0, wmask := 0,
        gang := 0 })
  | none => k

/-- The stream waits in an instruction: it is executed again later (R397). -/
def State.waitIn (s : State) (g : Group) (w : Wait) : State := s.setGroup { g with wait := some w }

/-! ## Results of the lane stream (R39, R40) -/

/-- Writes a landed result into the group. -/
def Group.land (g : Group) (d : Dest) (w : Word) (orIn : Bool) : Group :=
  match d with
  | .v r l => g.setV r l w
  | .p r l => g.setP r l (w != 0)
  | .s r => { g with regs := { g.regs with s := tset g.regs.s r w } }
  | .sp 9 l => if orIn then g.setFlg l (g.getFlg l ||| w) else g.setFlg l w
  | .sp 10 _ => { g with regs := { g.regs with rmode := w.toNat % 8 } }
  | .sp 19 l => g.setLfsr l w
  | .sp _ _ => g
  | .tile t r c => g.setTile t r c w

/-- Lands a list of results in order. -/
def Group.landAll (g : Group) : List Res → Group
  | [] => g
  | r :: rs => Group.landAll (g.land r.dest r.val r.orIn) rs

/-- All pending results of the gangs that meet a set of strands land. -/
def Group.landOf (g : Group) (own : BitVec 8) : Group :=
  { g.landAll (g.pend.filter fun r => r.own &&& own != 0) with pend := g.pend.filter fun r => r.own &&& own == 0 }

/-- Every pending result lands. -/
def Group.landEvery (g : Group) : Group := { g.landAll g.pend with pend := [] }

end Sys2Proof.Machine
end

