-- ==== Sys2Proof/Machine/Operands.lean ====
section
/-! DEFINITION. The frame of every lane instruction: guard and active lanes (R77, R78), regang points (R37), switch markers
and scoreboard waits (R38 to R40), operand forms (R79 to R81, R199), destinations and pending results (R39, R82), and the
lane trap (R43). -/
namespace Sys2Proof.Machine

/-! ## Guards -/

/-- One term of a guard as a lane mask: bit 3 inverts, bits [2:0] name p0 to p7 (R78). -/
def Group.guardTerm (g : Group) (n : Nat) : Mask := if bit n 3 then ~~~(g.getP (n % 8)) else g.getP (n % 8)

/-- The lanes in which the guard holds. -/
def Group.guard (g : Group) (h : Hdr) : Mask :=
  if h.gc then g.guardTerm h.gp ||| g.guardTerm h.gq else g.guardTerm h.gp &&& g.guardTerm h.gq

/-! ## What a lane instruction works on -/

/-- A lane instruction at issue: the state, the issuing group and gang, the lane word, and its active lanes. -/
structure Lane where
  s : State
  g : Group
  gang : BitVec 8
  pc : Nat
  act : Mask
  deriving DecidableEq, Repr

/-- The lanes of the gang. -/
def Lane.lanes (c : Lane) : Mask := strandLanes c.gang

/-- The lowest strand of a set. -/
def lowStrand (b : BitVec 8) : Nat := ((List.range 8).find? fun j => b.getLsbD j).getD 0

/-- The lane PC of a gang. -/
def Group.pcOf (g : Group) (b : BitVec 8) : Nat := ((g.lanes.strands[lowStrand b]?).map (·.pc)).getD 0

/-- The depth that every strand of a set has, if they have one. -/
def depthOf (l : List Strand) (b : BitVec 8) : Option Nat :=
  match l[lowStrand b]? with
  | none => none
  | some s =>
    if (l.zip (List.range 8)).all fun (t, j) => !inGang b j || t.stack.length == s.stack.length then some s.stack.length
    else none

/-- Regang (R37): every gang at the same lane PC whose strands have the same stack depth merges with the issuing gang. -/
def Group.regang (g : Group) (b : BitVec 8) : Group × BitVec 8 :=
  let l := g.lanes.strands
  let joins (t : Strand) (j : Nat) : Bool :=
    t.part && t.pc == g.pcOf b && (depthOf l b).isSome && depthOf l (gangOf l j) == depthOf l b
  let m := (l.zip (List.range 8)).foldl (fun m (t, j) => if joins t j then m ||| (1#8 <<< j) else m) b
  let n := ((l[lowStrand b]?).map (·.gang)).getD 0
  ({ g with lanes := { g.lanes with strands := modStrands m (fun _ t => { t with gang := n }) l } }, m)

/-! ## Waits at issue -/

/-- Loads and atomics of the gang whose values or tags have not arrived (R39). -/
def State.gangLoads (s : State) (g : Group) (b : BitVec 8) : List Access :=
  s.mem.flight.filter fun a =>
    a.grp == g.gid && !a.scalar && a.own &&& b != 0 && (!a.dests.isEmpty || a.tagDest.isSome)

/-- Is the register element the pending destination of an atomic's value or of a tag (R40)? -/
def State.scoreboard (s : State) (g : Group) (b : BitVec 8) (r : Nat) : Bool :=
  (s.gangLoads g b).any fun a =>
    let hit (d : Dest) : Bool := match d with
      | .v n l => n == r && (strandLanes b).getLsbD l
      | _ => false
    (a.tagDest.map hit).getD false || (a.kind != .load && a.dests.any hit)

/-- Does a source operand of n registers wait for an atomic's value or a tag? -/
def State.srcBusy (s : State) (g : Group) (b : BitVec 8) (o : Opnd × Nat) : Bool :=
  match o.1 with
  | .v r => (List.range o.2).any fun i => s.scoreboard g b (r + i)
  | _ => false

/-- Is every register of an operand within the allocation (R20, R81)? -/
def Group.allocated (g : Group) (o : Opnd × Nat) : Bool :=
  match o.1 with
  | .v r => decide (r + o.2 ≤ g.info.vregs)
  | .s r => decide (r + o.2 ≤ g.info.sregs)
  | .a t => decide (t < g.info.tiles)
  | _ => true

/-- Is the operand a special register that only a handler block may read (R199)? -/
def handlerOnly (o : Opnd) : Bool :=
  match o with
  | .sp n => decide (11 ≤ n) && decide (n ≤ 15)
  | _ => false

/-! ## Lane traps (R43) -/

/-- Does the access deliver into %rmode, where an invalid mode traps (R54)? -/
def Access.setsMode (a : Access) : Bool :=
  a.dests.any fun d => match d with
    | .sp 10 _ => true
    | _ => false

/-- May a lane instruction of the group that issued before the identity `id` still turn out to fault: a window operation
that the Ratchet has not performed (R276), or a load of a rounding mode (R54)? The earlier-issued fault is the one taken
(R44). -/
def State.mayFault (s : State) (g : Group) (id : Nat) : Bool :=
  (s.units.ratchet.any fun w => w.grp == g.gid && w.handler == g.inHandler && decide (w.id < id)) ||
    s.mem.flight.any fun a => a.grp == g.gid && !a.scalar && a.handler == g.inHandler && a.setsMode && decide (a.id < id)

/-- Does a trap of the gang wait: for its earlier results (R43), or for an earlier-issued instruction that may fault
(R44)? -/
def Lane.trapWaits (c : Lane) (id : Nat) : Bool := !(c.s.gangLoads c.g c.gang).isEmpty || c.s.mayFault c.g id

/-- The state after a trap of the lane stream at a lane word has been taken (R43, R45). -/
def Lane.taken? (c : Lane) (cause subc swc lpc : Nat) (flt wm : Mask) : State :=
  c.s.takeTrap (c.g.landOf c.gang)
    { cause := cause, subc := subc, swc := swc, spc := c.g.spc, lpc := lpc,
      exec := activeOf c.g.lanes.strands &&& c.lanes, fltmask := flt, wmask := wm, gang := c.gang }

/-- A trap of the lane stream at a lane word, once nothing keeps it waiting. -/
def Lane.trapAt (c : Lane) (cause subc swc lpc : Nat) (flt wm : Mask) : Out :=
  .next (if c.trapWaits c.s.nextId then c.s else c.taken? cause subc swc lpc flt wm)

/-- A fault of the lane instruction itself, which executes again after TRET. -/
def Lane.trap (c : Lane) (cause : Nat) : Out := c.trapAt cause 0 0 c.pc 0 0

/-- Puts the strands of an instruction that has issued back on its lane word, where strands of their gang may have gone on
with others. -/
def rewindStrands (own : BitVec 8) (pc : Nat) (l : List Strand) : List Strand :=
  regangNumbers (gangOf l (lowStrand own)) (modStrands own (fun _ x => { x with pc := pc, reached := false }) l)

/-- A trap that a lane instruction turns out to take after it has issued; `gone` is the state without the instruction. It is
precise, with the instruction's gang on its word (R43). When the group is in a handler already, the instruction is
cancelled and executes again after TRET (R44). -/
def State.lateTrap (s gone : State) (g : Group) (own : BitVec 8) (pc id : Nat) (handler : Bool) (cause subc : Nat) :
    State :=
  let c : Lane := { s := gone, g := g, gang := own, pc := pc, act := 0 }
  match g.trap with
  | some t =>
    if handler then (if c.trapWaits id then s else c.taken? cause subc 0 pc 0 0)
    else
      let frame := { t.frame with strands := rewindStrands own pc t.frame.strands }
      gone.setGroup { g with trap := some { t with frame := frame } }
  | none =>
    if c.trapWaits id then s
    else
      let lanes := { g.lanes with strands := rewindStrands own pc g.lanes.strands, fault := none }
      { c with g := { g with lanes := lanes } }.taken? cause subc 0 pc 0 0

/-- A partial fault whose passing lanes have gone out is taken (R175). -/
def State.takePartFault (s : State) (g : Group) (f : PartFault) : State :=
  let g := { g with lanes := { g.lanes with fault := none } }
  let c : Lane := { s := s, g := g, gang := f.own, pc := f.lpc, act := f.lanes }
  if c.trapWaits s.nextId then s else c.taken? f.cause f.subc 0 f.lpc f.lanes 0

/-- ACT of a gang: its active lanes in which the guard holds; in an access that executes again after a fault, the strands
of the faulting gang execute in the lanes left to them (R78, R175). -/
def Group.actOf (g : Group) (b : BitVec 8) (guard : Mask) : Mask :=
  g.lanes.replay.foldl (fun act (o, m) =>
      (act &&& ~~~(strandLanes (o &&& b))) ||| (m &&& g.regs.live &&& strandLanes (o &&& b)))
    (activeOf g.lanes.strands &&& strandLanes b &&& guard)

/-- The group once its gang's instruction has used up the lanes that an access left to execute again (R175). -/
def Group.replayUsed (g : Group) (b : BitVec 8) : Group :=
  { g with lanes := { g.lanes with replay := g.lanes.replay.filter fun e => e.1 &&& b == 0 } }

/-- Is a gang held from issuing anything (R273, and a load of %exec or %rmode)? -/
def Group.allHeld (g : Group) (b : BitVec 8) : Bool := g.holds.any fun h => h.all && h.own &&& b != 0

/-- The frame of every lane instruction: `rg` is its regang point, `sw` its switch marker. Destinations and sources are
operands with the number of registers each spans. DESIGN CHOICE: of a register beyond the allocation (0x02) and a
handler-only register read outside a handler (0x01), for which R98 gives no order, the first is reported (log 58). -/
def laneFrame (s : State) (rg sw : Bool) (h : Option Hdr) (dsts srcs : List (Opnd × Nat)) (k : Lane → Out) : Out :=
  match s.laneTurn? with
  | none => .refused .noIssuer
  | some (g, b) =>
    let m := if rg then g.regang b else (g, b)
    let g := m.1
    let b := m.2
    let s := s.setGroup g
    if g.allHeld b || (sw && !(s.gangLoads g b).isEmpty) || srcs.any (s.srcBusy g b) then .next s
    else
      let g := if sw then g.landOf b else g
      let guard := match h with
        | some h => g.guard h
        | none => BitVec.allOnes 32
      let c : Lane := { s := s, g := g, gang := b, pc := g.pcOf b,
                        act := g.actOf b guard }
      if !(dsts ++ srcs).all g.allocated then c.trap 0x02
      else if (srcs.any fun o => handlerOnly o.1) && !g.inHandler then c.trap 0x01
      else k { c with g := g.replayUsed b }

/-- The frame of a lane instruction with a header. -/
def laneInstr (s : State) (h : Hdr) (dsts srcs : List (Opnd × Nat)) (k : Lane → Out) : Out :=
  laneFrame s h.rg h.sw (some h) dsts srcs k

/-! ## Operand values -/

/-- n registers of a lane as one value, register order upward. -/
def spanVal (f : Nat → Word) : Nat → Nat
  | 0 => 0
  | n + 1 => (f 0).toNat + 2 ^ 32 * spanVal (fun i => f (i + 1)) n

/-- A scalar register as a lane reads it: an old value may still be seen (R33). -/
def Lane.readS (c : Lane) (l r : Nat) : Word :=
  match c.g.oldS.filter fun e => e.1 == r with
  | [] => c.g.getS r
  | olds => (c.g.getS r :: olds.map (·.2)).getD
      (Config.freeNat (2 ^ 60 + 2 ^ 40 * c.s.draws + 2 ^ 16 * l + r) % (olds.length + 1)) 0

/-- A constant-pool entry (R79): a launch argument, or the word of the constant section; an entry that the image does not
set reads 0, and what one that cannot be read gives is open (log 14). -/
def State.readC (s : State) (g : Group) (n : Nat) : Word :=
  match s.launch? g.place.launch with
  | none => 0
  | some la =>
    match la.argv with
    | some a => if n ≥ 224 then a.getD (n - 224) 0 else fromPool la
    | none => fromPool la
where
  fromPool (la : Launch) : Word :=
    if n ≥ la.constN then 0
    else
      match (s.check { g.agent with handler := false } .load (la.constVa + 4 * n) 4).2 with
      | .ok l => BitVec.ofNat 32 (leNat (s.locRead l 4))
      | .fail _ _ => BitVec.ofNat 32 (Config.freeFunction 17 n s.draws)

/-- Does a constant of the group's image lie in a bank that is to change its use? Its lane stream stalls, as those instructions
do that read the constant (R375). -/
def State.constsStall (s : State) (g : Group) : Bool :=
  s.banksChange g.place.core && (s.launch? g.place.launch).any fun la => (List.range la.constN).any fun n =>
    match (s.check { g.agent with handler := false } .load (la.constVa + 4 * n) 4).2 with
    | .ok l => s.bankStalls l
    | .fail .. => false

/-- %genst of the running block's loop (R254). FILL without a fill frame is undefined, and OLD and CUR are not stated
in the producer: `free` gives those bits (log 5). A frame that the consumer reads keeps the status ready until GRET frees
it, so NRDY counts it, and it is the oldest; OLD reads 0 with no ready frame (log 71). -/
def Group.genst (g : Group) (free : Nat) : Word :=
  match g.gen with
  | none => 0
  | some n =>
    let fv := n.st0 == .fill || n.st1 == .fill
    let fill := if fv then (if n.st1 == .fill then 1 else 0) else free % 2
    let cur := if n.mode == .producer then free / 2 % 2 else n.cur
    let nrdy := (if n.st0 == .ready then 1 else 0) + if n.st1 == .ready then 1 else 0
    let reading := n.mode != .producer && (if n.cur = 0 then n.st0 else n.st1) == .ready
    let old := if reading then n.cur else n.ready.headD 0
    BitVec.ofNat 32 ((match n.mode with
      | .producer => 1
      | .consumer => 2
      | .drain => 3)
      + 2 ^ 2 * n.vw + 2 ^ 4 * n.thr + 2 ^ 5 * fill + (if fv then 2 ^ 6 else 0) + 2 ^ 7 * nrdy
      + 2 ^ 9 * old + 2 ^ 10 * cur + 2 ^ 11 * n.fc + 2 ^ 17 * n.size + (if n.pend.isSome then 2 ^ 23 else 0))

/-- The value of a special register in a lane (R199). -/
def Lane.readSp (c : Lane) (l n : Nat) : Word :=
  let g := c.g
  let p := g.place
  let t (f : Trap → Word) : Word := (g.trap.map f).getD 0
  let num (i : Nat) : Word := BitVec.ofNat 32 i
  match n with
  | 0 => num l
  | 1 => num (l / 4)
  | 2 => num p.grp
  | 3 => num p.team
  | 4 => num p.bx
  | 5 => num p.byy
  | 6 => num p.bz
  | 7 => num p.ngrp
  | 8 => activeOf g.lanes.strands &&& c.lanes
  | 9 => g.getFlg l
  | 10 => num g.regs.rmode
  | 11 => t (·.fltmask)
  | 12 => t (·.wmask)
  | 13 => t fun t => num (t.cause + 2 ^ 8 * t.subc + 2 ^ 16 * t.swc)
  | 14 => t fun t => num t.spc
  | 15 => t fun t => num t.lpc
  | 16 => num (c.s.core p.core).clka
  | 17 => num c.s.ns
  | 18 => num (c.s.ns / 2 ^ 32)
  | 19 => g.getLfsr l
  | 20 => num p.core
  | 21 => num (clusterOf p.core)
  | 22 => num (sectorOf p.core)
  | 23 => num p.part
  | 24 => num p.ctx
  | 25 => g.genst (Config.freeNat (2 ^ 61 + c.s.draws))
  | 26 => num (g.batch % 65536)
  | 27 => num g.uas
  | _ => 0

/-- An immediate as an element pattern of width w, in every element of n registers (R80). -/
def immInt (w n : Nat) (i : Int) : Nat := packElems w (List.replicate (32 * n / w) (wrapTo w i))

/-- An immediate in a float format, in every element (R80). -/
def immFlt (f : FFmt) (i : Int) : Nat :=
  packElems f.width (List.replicate (32 / f.width) (f.encode (FVal.ofInt i)))

/-- A 32-bit value where an operand of n registers is read: the manual does not state the words above the first, and they are
free (log 8). -/
def widen (n : Nat) (w : Word) : Nat :=
  spanVal (fun i => if i = 0 then w else BitVec.ofNat 32 (Config.freeFunction 16 w.toNat i)) n

/-- A source operand of n registers as a lane reads it; `imm` converts an immediate, and 0x7FF reads as zero (R79). A special
register or parameter has one word, and a predicate is the number 0 or 1. -/
def Lane.read (c : Lane) (n : Nat) (imm : Int → Nat) (o : Opnd) (l : Nat) : Nat :=
  match o with
  | .v r => spanVal (fun i => c.g.getV (r + i) l) n
  | .s r => spanVal (fun i => c.readS l (r + i)) n
  | .c r => spanVal (fun i => c.s.readC c.g (r + i)) n
  | .sp r => widen n (c.readSp l r)
  | .k r => widen n (c.g.getK r)
  | .p r => if (c.g.getP r).getLsbD l then 1 else 0
  | .a _ | .wa _ => 0
  | .imm i => imm i
  | .none => 0

/-- A 32-bit operand read as an integer. -/
def Lane.read32 (c : Lane) (o : Opnd) (l : Nat) : Nat := c.read 1 (immInt 32 1) o l

/-- An operand of an integer type. -/
def Lane.readIntOp (c : Lane) (t : ITy) (o : Opnd) (l : Nat) : Nat := c.read t.regs (immInt t.width t.regs) o l

/-- An operand of a float type. -/
def Lane.readFlt (c : Lane) (t : FTy) (o : Opnd) (l : Nat) : Nat := c.read 1 (immFlt (fmtOf t)) o l

/-- An immediate of a memory width: its 32-bit pattern, sign-extended for `.b64` (R80); wider, the words above the first are
not stated (log 8). -/
def immMem (n : Nat) (i : Int) : Nat := if n ≤ 2 then wrapTo (32 * n) i else widen n (BitVec.ofInt 32 i)

/-- An operand of a memory width. -/
def Lane.readMem (c : Lane) (w : MTy) (o : Opnd) (l : Nat) : Nat := c.read w.regs (immMem w.regs) o l

/-- The bit of a predicate operand in a lane. -/
def Lane.readP (c : Lane) (o : Opnd) (l : Nat) : Bool :=
  match o with
  | .p r => (c.g.getP r).getLsbD l
  | _ => false

/-! ## Destinations and the end of an instruction -/

/-- The results of a lane's value for a destination of n registers (R39, R82). -/
def resOf (own : BitVec 8) (d : Opnd) (n l v : Nat) : List Res :=
  match d with
  | .v r => (List.range n).map fun i =>
      { own := own, dest := .v (r + i) l, val := BitVec.ofNat 32 (v / 2 ^ (32 * i)), orIn := false }
  | .s r => (List.range n).map fun i =>
      { own := own, dest := .s (r + i), val := BitVec.ofNat 32 (v / 2 ^ (32 * i)), orIn := false }
  | .p r => [{ own := own, dest := .p r l, val := BitVec.ofNat 32 v, orIn := false }]
  | .sp 9 => [{ own := own, dest := .sp 9 l, val := BitVec.ofNat 32 v, orIn := false }]
  | .sp 10 => [{ own := own, dest := .sp 10 l, val := BitVec.ofNat 32 v, orIn := false }]
  | .sp 19 => [{ own := own, dest := .sp 19 l, val := BitVec.ofNat 32 v, orIn := false }]
  | _ => []

/-- A flag update of a lane (R59). -/
def flagRes (own : BitVec 8) (l f : Nat) : List Res :=
  if f = 0 then [] else [{ own := own, dest := .sp 9 l, val := BitVec.ofNat 32 f, orIn := true }]

/-- A write of %exec by the lowest active lane: it governs the gang's next instruction (R26, R200). -/
def Group.writeExec (g : Group) (b : BitVec 8) (w : Mask) : Group :=
  { g with lanes := { g.lanes with
      strands := modStrands b (fun j t => { t with active := strandBits (w &&& g.regs.live) j }) g.lanes.strands } }

/-- The gang goes on to the next lane word. -/
def Group.laneNext (g : Group) (b : BitVec 8) : Group :=
  { g with lanes := { g.lanes with strands := modStrands b (fun _ t => { t with pc := t.pc + 1 }) g.lanes.strands } }

/-- The state after the free choices that an instruction's operands may make. -/
def Lane.spent (c : Lane) : State := if c.g.oldS.isEmpty && c.g.gen.isNone then c.s else c.s.drawn

/-- The end of an instruction: its results are pending and the gang goes on. -/
def Lane.finish (c : Lane) (rs : List Res) : Out :=
  .next (c.spent.setGroup ({ c.g with pend := c.g.pend ++ rs }.laneNext c.gang))

/-- The lowest lane of a mask. -/
def lowLane (m : Mask) : Option Nat := (List.range 32).find? fun l => m.getLsbD l

/-- Writes values of n registers, one for each active lane, with their flags and further results. A write of %rmode with
an invalid mode traps (R54); a write of %exec takes effect at once (R26). DESIGN CHOICE (log 70): several active lanes that
write different values to %rmode, held once for the group, leave one pending result each, which land in any order. -/
def Lane.writeAnd (c : Lane) (d : Opnd) (n : Nat) (f : Nat → Nat × Nat) (more : List Res) : Out :=
  let ls := lanesOf c.act
  let rest := ls.flatMap (fun l => flagRes c.gang l (f l).2) ++ more
  match d with
  | .sp 8 =>
    match ls with
    | [] => c.finish []
    | l :: _ => { c with g := c.g.writeExec c.gang (BitVec.ofNat 32 (f l).1) }.finish rest
  | .sp 10 =>
    if ls.any fun l => decide ((f l).1 % 8 ≥ 6) then c.trap 0x01
    else c.finish (ls.flatMap (fun l => resOf c.gang d n l (f l).1) ++ rest)
  | d => c.finish (ls.flatMap (fun l => resOf c.gang d n l (f l).1) ++ rest)

/-- Writes values with their flags. -/
def Lane.write (c : Lane) (d : Opnd) (n : Nat) (f : Nat → Nat × Nat) : Out := c.writeAnd d n f []

/-- Writes values without flags. -/
def Lane.put (c : Lane) (d : Opnd) (n : Nat) (f : Nat → Nat) : Out := c.write d n fun l => (f l, 0)

/-- Flags that NF keeps back (R59). -/
def nfFlags (nf : Bool) (f : Nat) : Nat := if nf then 0 else f

/-! ## Cross-lane reads (R46, R148) -/

/-- May a source lane deliver its register: in a strand of the gang, live, inside the group? -/
def Lane.delivers (c : Lane) (l : Nat) : Bool :=
  decide (l < c.g.info.size) && c.lanes.getLsbD l && c.g.regs.live.getLsbD l

/-- A source register span of another lane, 0 where it delivers nothing. -/
def Lane.cross (c : Lane) (n : Nat) (o : Opnd) (l : Nat) : Nat :=
  if c.delivers l then c.read n (fun _ => 0) o l else 0

end Sys2Proof.Machine
end

