-- ==== Sys2Proof/Machine/Accesses.lean ====
section
/-! DEFINITION. Issuing accesses and waiting for them: the records of accesses in flight, `%uas` (R124, R181), what a
release waits for and an acquire does (R129, R182, R185, R209), and remote-scope promotion (R218, R219). -/
namespace Sys2Proof.Machine

/-! ## Accesses in flight -/

/-- The access with an identity. -/
def State.acc? (s : State) (id : Nat) : Option Access := s.mem.flight.find? fun a => a.id == id

/-- Changes an access in flight. -/
def State.modAcc (s : State) (id : Nat) (f : Access → Access) : State :=
  s.modMem fun m => { m with flight := m.flight.map fun a => if a.id == id then f a else a }

/-- Removes an access that is complete. -/
def State.dropAcc (s : State) (id : Nat) : State :=
  s.modMem fun m => { m with flight := m.flight.filter fun a => a.id != id }

/-- Identities of the writes of a group that are not acknowledged (R124, R181): an atomic whose value has not arrived may
already be. -/
def State.groupWrites (s : State) (gid : Nat) : List Nat :=
  (s.mem.flight.filter fun a => a.grp == gid && a.kind.counts && !a.accepted).map (·.id)

/-- A plain access of a group's scalar stream; the caller fills in what it does. -/
def Group.access (g : Group) (id : Nat) (kind : AccKind) (l : Loc) (size : Nat) : Access :=
  { id := id, grp := g.gid, core := g.place.core, part := g.place.part, ctx := g.place.ctx, scalar := true,
    handler := g.inHandler, own := 0, lane := 0, kind := kind, loc := l, size := size, data := [], data2 := [],
    dests := [], signed := false, tagDest := none, launch := g.place.launch, blk := g.place.blk, ord := .plain, sc := .grp, hint := .dflt, relWait := [],
    drain := none, coreAck := false, accepted := false, performed := false, parts := [], value := none, tag := 0, lines := [] }

/-- Issues an access: it is in flight, and `%uas` counts it if it writes. -/
def State.issueAcc (s : State) (g : Group) (a : Access) : State × Group :=
  ((s.modMem fun m => { m with flight := m.flight ++ [a] }).bumpId,
    if a.kind.counts then { g with uas := g.uas + 1 } else g)

/-- The bytes of a location as the core sees them: the writes that its store path has acknowledged and that are not
performed lie over what is below (R208). -/
def State.coreView (s : State) (core : Nat) (l : Loc) (bs : List Byte) : List Byte :=
  s.mem.flight.foldl (fun bs w =>
    if w.core == core && w.kind == .store && w.coreAck && !w.performed && locMeets w.loc w.size l bs.length then
      (List.range bs.length).map fun i =>
        let at' := l.flat.2 + i
        if w.loc.flat.2 ≤ at' && at' < w.loc.flat.2 + w.size then w.data.getD (at' - w.loc.flat.2) 0 else bs.getD i 0
    else bs) bs

/-! ## Reads at the ordering points (R183, R210, R213, R316) -/

/-- Is the line of an access one that the L1 ways and scalar data caches hold? -/
def cacheable : Loc → Bool
  | .hbm _ | .host _ | .peer _ _ | .mx _ _ _ => true
  | _ => false

/-- A copy of a line as a core's L1 ways or scalar data cache take it. -/
def State.copyOf (s : State) (core part : Nat) (scalar : Bool) (h : Hint) (l : Loc) : L1Line :=
  { core := core, part := part, scalar := scalar, loc := l.lineStart,
    data := s.coreView core l.lineStart (s.locRead l.lineStart 128), prio := min 1 (hintRank h), past := [] }

/-- Is the load one that is performed at the home slice: it has acquire order at scope 2 or wider (R210)? -/
def Access.readsHome (a : Access) : Bool :=
  (a.ord == .acq || a.ord == .acqrel) && !(a.sc == .grp || a.sc == .team)

/-- A line homed in another sector may be copied into a slice of the issuing sector, in a way of its class there (R183, R213,
R372). Which slice of the partition in that sector takes it is a free choice. -/
def State.fillRemote (s : State) (a : Access) : State :=
  match a.loc with
  | .hbm pa =>
    if a.hint == .rcopy && s.homeSlice a.part pa / 16 != sectorOf a.core then
      match s.pick ((s.slicesOf a.part).filter fun n => sliceSector n == sectorOf a.core) with
      | some n => s.drawn.allot (s.clsOf a.ctx) a.hint (.copy n (pa / 128))
      | none => s
    else s
  | _ => s

/-- A plain load that allocates no copy has read its bytes past the copy that its core holds: the copy is too old for later
loads of its strands from them (R176, R183). -/
def State.passCopy (s : State) (a : Access) : State :=
  s.modMem fun m => { m with l1 := m.l1.map fun c =>
    if c.core == a.core && c.part == a.part && c.scalar == a.scalar && c.loc == a.loc.lineStart then
      { c with past := (a.grp, a.own, a.loc.flat.2 % 128, a.size) :: c.past }
    else c }

/-- What a load leaves behind: the line in its slice, a copy in its core's caches, and a copy in a slice of its sector (R183,
R210, R213). An acquire that fills no copy leaves none behind that is older than what it read (R211). -/
def State.fill (s : State) (a : Access) : State :=
  let s := (s.touchBy a.ctx a.hint a.loc).fillRemote a
  if !cacheable a.loc then s
  else if (a.hint == .nol1 && !a.scalar) || a.readsHome then
    if a.ord == .plain then s.passCopy a else s.dropCopies a.core a.loc
  else s.addCopy (s.copyOf a.core a.part a.scalar a.hint a.loc)

/-- What a write of a lane under CH 1 leaves in the L1 ways: its line as a first candidate for eviction, as a load does (R183). -/
def State.fillWrite (s : State) (a : Access) : State :=
  if a.hint == .stream && !a.scalar && cacheable a.loc then s.addCopy (s.copyOf a.core a.part false a.hint a.loc) else s

/-- The value that a load finds at its ordering point: one that is performed at the home slice gets what that slice has
performed (R210), another what its core's store path holds over it (R208, R211). -/
def State.loadValue (s : State) (a : Access) : List Byte :=
  match a.loc with
  | .mmio off => s.barBytes (s.drivingFn a.ctx) off a.size
  | l => if a.readsHome then s.locRead l a.size else s.coreView a.core l (s.locRead l a.size)

/-- A load that its slice has accepted gets its value. -/
def State.serve (s : State) (a : Access) : State :=
  let bs := s.loadValue a
  (s.fill a).modAcc a.id fun a => { a with value := some bs }

/-- The core-acknowledged writes of an access's core that were acknowledged before it. -/
def ackedBefore (id : Nat) : List Access → List Access
  | [] => []
  | b :: r => if b.id == id then [] else b :: ackedBefore id r

/-- The writes of store paths, in the order of their acknowledgements, that an atomic with PROM holds up: the atomic itself,
and what comes behind one of them at some of the same bytes. -/
def promQueue : List Access → List Access → List Access
  | held, [] => held
  | held, b :: r =>
    let behind := held.any fun x => x.core == b.core && x.part == b.part && locMeets b.loc b.size x.loc x.size
    promQueue (if b.kind.writes && b.coreAck && !b.performed && (behind || (b.kind.isAtomic && b.drain.isSome)) then b :: held else held) r

/-- Does an atomic with PROM hold up a write in its core's store path? -/
def State.promStuck (s : State) (w : Access) : Bool := (promQueue [] s.mem.flight).any fun b => b.id == w.id

/-- Does an acquire with PROM wait, so that it synchronises with whatever release it reads from (R219): has another core of
its context promotion pending, with writes that are not home? Those that an acquire with PROM holds up do not count: no
release comes after them yet (log 85). -/
def State.promHeld (s : State) (a : Access) : Bool :=
  a.drain.isSome && s.mem.prom.any fun e =>
    e.2.1 == a.ctx && e.1 != a.core && e.2.2.any fun i =>
      (s.acc? i).any fun w => w.coreAck && !w.accepted && !s.promStuck w

/-- The loads of a line that its slice has accepted and not served, and that may be served. -/
def State.loadsAt (s : State) (line : Nat) : List Access :=
  s.mem.flight.filter fun a =>
    a.kind == .load && a.accepted && a.value.isNone && a.loc.lineKey == line && !s.promHeld a

/-- A command gets the parts that it has asked of a line (R206, R316). -/
def State.answerCmd (s : State) (line : Nat) (c : Cmd) : Cmd :=
  let got := c.asked.filter fun e => e.2.lineKey == line
  { c with bufs := got.map (fun e => (e.1, s.locRead e.2 4)) ++ c.bufs
           asked := c.asked.filter fun e => e.2.lineKey != line }

/-- The data of a line leaves its slice: every read of it that is pending there, a load's or an engine's, gets the value that
the line then holds, and the data goes once to all who wait (R316, R318). -/
def State.lineLeaves (s : State) (line : Nat) : State :=
  let s := (s.loadsAt line).foldl (fun s a => s.serve a) s
  let asks := s.units.cmds.flatMap fun c => (c.asked.filter fun e => e.2.lineKey == line).map fun e => (c.ctx, e.2)
  let s := asks.foldl (fun s e => s.touchBy e.1 .dflt e.2) s
  s.modUnits fun u => { u with cmds := u.cmds.map (s.answerCmd line) }

/-- Is a fill of the line pending at its slice: a read that the L2 cannot serve has been accepted and its data has not left
(R316)? A write that reaches the slice waits behind it. -/
def State.fillPending (s : State) (l : Loc) : Bool :=
  l.inSlice && !s.inL2 l &&
    (!(s.loadsAt l.lineKey).isEmpty ||
      s.units.cmds.any fun c => c.asked.any fun e => e.2.lineKey == l.lineKey)

/-! ## Releases and acquires -/

/-- Has the order a release part? -/
def ordRel (o : MOrd) : Bool := o == .rel || o == .acqrel
/-- Has the order an acquire part? -/
def ordAcq (o : MOrd) : Bool := o == .acq || o == .acqrel
/-- Is the scope 0 or 1, for which a core acknowledgement suffices (R209)? -/
def coreLevel (sc : Scope) : Bool := sc == .grp || sc == .team

/-- Have accesses come as far as a release at the scope waits for: writes acknowledged (R209), loads performed (R215)? A core
acknowledgement counts for scopes 0 and 1 once no acquire with PROM holds the write up, which may itself wait for other releases
(R219, log 85). -/
def State.acked (s : State) (ids : List Nat) (sc : Scope) : Bool :=
  ids.all fun i =>
    match s.acc? i with
    | none => true
    | some a => if a.kind.counts then a.accepted || (coreLevel sc && a.coreAck && !s.promStuck a) else a.value.isSome

/-- The loads and atomics of an agent whose values have not arrived: of the scalar stream, or of the strands `own`. -/
def State.valuesOf (s : State) (gid : Nat) (own : BitVec 8) : List Nat :=
  (s.mem.flight.filter fun a => a.grp == gid && (if own == 0 then a.scalar else !a.scalar && a.own &&& own != 0) &&
    (a.kind == .load || a.kind.isAtomic)).map (·.id)

/-- Loads and atomics of the gang whose values have not arrived: an acquire fence orders them before later accesses
(R214, R215, log 9). -/
def State.gangValues (s : State) (g : Group) (b : BitVec 8) : List Nat := s.valuesOf g.gid b

/-- What a release at a scope comes after (R182, R185, R129): every write of the group, the agent's own earlier loads
(R215), and, at a scope wider than the core, the writes of the core's groups that an acquire of the group has come after
and that are not home yet (R215's transitive order, log 73). -/
def State.releaseIds (s : State) (g : Group) (own : BitVec 8) (sc : Scope) : List Nat :=
  s.groupWrites g.gid ++ s.valuesOf g.gid own ++ if coreLevel sc then [] else g.acquired

/-- The writes of a core for a context that its store path has acknowledged and that are not home: those of other groups that
an acquire there comes after are among them (R208, R209). -/
def State.coreOwed (s : State) (core x : Nat) : List Nat :=
  (s.mem.flight.filter fun a => a.core == core && a.ctx == x && a.coreAck && a.kind.counts && !a.accepted).map (·.id)

/-- The group after an acquire at team scope or wider: its later releases come after what the acquire came after (R215). -/
def Group.acquires (g : Group) (s : State) : Group :=
  { g with acquired := (g.acquired.filter fun i => (s.acc? i).any fun a => !a.accepted) ++ s.coreOwed g.place.core g.place.ctx }

/-- Have the values of loads and atomics arrived (R182)? -/
def State.arrived (s : State) (ids : List Nat) : Bool :=
  ids.all fun i =>
    match s.acc? i with
    | none => true
    | some a => a.kind.isAtomic && a.performed && a.dests.isEmpty

/-- Has a promotion drain ended, or is there none? -/
def State.drained (s : State) (d : Option Nat) : Bool :=
  match d with
  | none => true
  | some i => !(s.mem.drains.any fun x => x.id == i)

/-- A release at scope 0 or 1 sets the core's promotion-pending state for its context, until every write that the
context's groups on the core had issued has its home acknowledgement (R218). -/
def State.setPromotion (s : State) (g : Group) (o : MOrd) (sc : Scope) : State :=
  if ordRel o && coreLevel sc then
    let core := g.place.core
    let x := g.place.ctx
    let ids := (s.mem.flight.filter fun a => a.core == core && a.ctx == x && a.kind.counts && !a.accepted).map (·.id)
    s.modMem fun m =>
      { m with prom := (m.prom.filter fun e => !(e.1 == core && e.2.1 == x)) ++
                       (if ids.isEmpty then [] else [(core, x, ids)]) }
  else s

/-- Starts a promotion drain when PROM asks for one: the request goes to the context's cores (R219). -/
def State.startDrain (s : State) (x : Nat) (prom : Bool) : State × Option Nat :=
  if prom then
    let cores := ((s.groups.filter fun g => g.place.ctx == x).map (·.place.core) ++
      (s.mem.prom.filter fun e => e.2.1 == x).map (·.1)).eraseDups
    if cores.isEmpty then (s, none)
    else
      ((s.modMem fun m => { m with
        drains := m.drains ++ [{ id := s.nextId, ctx := x, toReach := cores, waiting := [] }] }).bumpId, some s.nextId)
  else (s, none)

/-- Has everything that a hold waits for come about (R182, R185, R273)? -/
def State.holdOver (s : State) (h : Hold) : Bool :=
  s.arrived h.values && s.acked h.acks h.sc && !h.prom && s.drained h.drain &&
    (match h.ratchet with
      | none => true
      | some r => !(s.units.ratchet.any fun w => w.id == r))

/-- Is it time for the promotion drain of a fence: its release and the earlier reads are done (R185, R219)? -/
def State.drainDue (s : State) (h : Hold) : Bool := h.prom && s.arrived h.values && s.acked h.acks h.sc

/-- Starts the promotion drains that are due. -/
def State.startDrains (s : State) (g : Group) : State :=
  if g.holds.any s.drainDue then
    match s.startDrain g.place.ctx true with
    | (t, d) => t.modGroup g.gid fun g => { g with
        holds := g.holds.map fun h => if s.drainDue h then { h with prom := false, drain := d } else h }
  else s

/-- Ends the holds that are over: an acquire invalidates at that moment (R182). -/
def State.settleGroup (s : State) (g : Group) : State :=
  let s := s.startDrains g
  let g := (s.group? g.gid).getD g
  let overs := g.holds.filter s.holdOver
  if overs.isEmpty then s
  else
    let s := s.modGroup g.gid fun g => { g with holds := g.holds.filter fun h => !s.holdOver h }
    if overs.any (·.acquire) then (s.acquireCore g.place.core g.place.part).modGroup g.gid fun g => g.acquires s else s

/-- After any acknowledgement, arrival or report: promotion-pending states clear, drains end, holds end. -/
def State.settle (s : State) : State :=
  let s := s.modMem fun m => { m with
    prom := m.prom.filter fun e => e.2.2.any fun i => m.flight.any fun a => a.id == i && !a.accepted
    drains := m.drains.filter fun d => !(d.toReach.isEmpty && d.waiting.isEmpty) }
  (s.groups.foldl (fun s g => s.settleGroup g) s).finishLaunches

/-- Is the scalar stream held from issuing memory instructions by an acquire? -/
def Group.scalarHeld (g : Group) : Bool := g.holds.any fun h => h.own == 0

/-- Is a gang held from issuing memory instructions (R182, R185)? -/
def Group.memHeld (g : Group) (b : BitVec 8) : Bool := g.holds.any fun h => h.own &&& b != 0

/-- The hold of an acquire on the values of accesses. -/
def acquireHold (own : BitVec 8) (values : List Nat) (sc : Scope) : Hold :=
  { own := own, all := false, values := values, acks := [], sc := sc, drain := none,
    acquire := sc != .grp, ratchet := none, prom := false }

/-! ## Synchronising instructions of the scalar stream (R129) -/

/-- The reads that a scalar acquire comes after: those of the scalar stream (R214, R215, log 9), and at team scope or wider
with a release those of the group's lane blocks (R130). -/
def State.acquireReads (s : State) (g : Group) (o : MOrd) (sc : Scope) : List Nat :=
  s.valuesOf g.gid 0 ++ if o == .acqrel && sc != .grp then s.valuesOf g.gid 0xFF else []

/-- The operand of an instruction that waits: it was read when the instruction issued (R39). -/
def Group.operand (g : Group) (now : Nat) : Nat :=
  match g.wait with
  | some (.sync _ _ _ _ n) => n
  | _ => now

/-- Has the instruction begun to wait, so that its checks are past (R397)? -/
def Group.begun (g : Group) : Bool :=
  match g.wait with
  | some (.sync ..) | some (.home ..) | some (.num _) => true
  | _ => false

/-- Runs a synchronisation of the scalar stream for an instruction with an operand: it begins once, and then waits in
`sync`, first for the release and the loads, then for the promotion drain; then the acquire part is done and the instruction
goes on as `k` says. -/
def State.syncWith (s : State) (g : Group) (o : MOrd) (sc : Scope) (prom : Bool) (arg : Nat) (k : State → Group → Out) :
    Out :=
  let m := match g.wait with
    | some (.sync v a p d _) => (s, v, a, p, d)
    | _ => (s.setPromotion g o sc, if ordAcq o then s.acquireReads g o sc else [],
        if ordRel o then s.releaseIds g 0 sc else [], prom && ordAcq o, none)
  let s := m.1
  let ready := s.arrived m.2.1 && s.acked m.2.2.1 sc
  let n := if ready && m.2.2.2.1 then s.startDrain g.place.ctx true else (s, m.2.2.2.2)
  let s := n.1
  if ready && s.drained n.2 then
    if ordAcq o && sc != .grp then k (s.acquireCore g.place.core g.place.part) (g.acquires s) else k s g
  else .next (s.waitIn g (.sync m.2.1 m.2.2.1 (m.2.2.2.1 && !ready) n.2 (g.operand arg)))

/-- Has an earlier access taken effect as far as a later one of its core is concerned? A store to a register has when the
register is written. -/
def Access.tookEffect (a : Access) : Bool :=
  a.performed || (match a.kind with
    | .load => a.value.isSome
    | .store => a.coreAck && !a.loc.isMmio
    | .writeBack | .invalidate => true
    | _ => false)

/-- A synchronisation of an instruction without an operand. -/
def State.syncThen (s : State) (g : Group) (o : MOrd) (sc : Scope) (prom : Bool) (k : State → Group → Out) : Out :=
  s.syncWith g o sc prom 0 k

end Sys2Proof.Machine
end

