-- ==== Sys2Proof/Machine/ScalarArith.lean ====
section
/-! DEFINITION. Scalar arithmetic, logic, moves and compares (R115 to R123, R144). -/
namespace Sys2Proof.Machine

/-- The S3 form: s(D) := f of the group; the three registers may coincide (R115). -/
def s3 (s : State) (d a b : Nat) (f : Group → Word) : Out :=
  scalarOp s [d, a, b] 1 fun g => g.setS d (f g)

/-- Bits [63:32] of a product (R115). -/
def mulHighWord (signed : Bool) (a b : Word) : Word :=
  BitVec.ofInt 32 (mulHigh 32 (readInt signed 32 a.toNat) (readInt signed 32 b.toNat))

/-- A 16-bit immediate, sign-extended (R117). -/
def signExt16 (imm : Nat) : Word := BitVec.ofInt 32 (toSigned 16 imm)

/-- A select or branch condition: bit 3 inverts, bits [2:0] name q0 to q7 (R119). -/
def selCond (g : Group) (c : Nat) : Bool := g.getQ (c % 8) != bit c 3

/-- SADD (R115). -/
def execSadd (d a b : Nat) (s : State) : Out :=
  s3 s d a b fun g => g.getS a + g.getS b

/-- SSUB (R115). -/
def execSsub (d a b : Nat) (s : State) : Out :=
  s3 s d a b fun g => g.getS a - g.getS b

/-- SMUL (R115). -/
def execSmul (d a b : Nat) (s : State) : Out :=
  s3 s d a b fun g => g.getS a * g.getS b

/-- SMULH: the high word of the signed product (R115). -/
def execSmulh (d a b : Nat) (s : State) : Out :=
  s3 s d a b fun g => mulHighWord true (g.getS a) (g.getS b)

/-- SMULHN: the high word of the natural product (R115). -/
def execSmulhn (d a b : Nat) (s : State) : Out :=
  s3 s d a b fun g => mulHighWord false (g.getS a) (g.getS b)

/-- SAND (R115). -/
def execSand (d a b : Nat) (s : State) : Out :=
  s3 s d a b fun g => g.getS a &&& g.getS b

/-- SOR (R115). -/
def execSor (d a b : Nat) (s : State) : Out :=
  s3 s d a b fun g => g.getS a ||| g.getS b

/-- SXOR (R115). -/
def execSxor (d a b : Nat) (s : State) : Out :=
  s3 s d a b fun g => g.getS a ^^^ g.getS b

/-- SSHL: the count is the whole of s(B) (R115). -/
def execSshl (d a b : Nat) (s : State) : Out :=
  s3 s d a b fun g => g.getS a <<< (g.getS b).toNat

/-- SSHR (R115). -/
def execSshr (d a b : Nat) (s : State) : Out :=
  s3 s d a b fun g => g.getS a >>> (g.getS b).toNat

/-- SSHA (R115). -/
def execSsha (d a b : Nat) (s : State) : Out :=
  s3 s d a b fun g => (g.getS a).sshiftRight (g.getS b).toNat

/-- SMIN: signed minimum (R115). -/
def execSmin (d a b : Nat) (s : State) : Out :=
  s3 s d a b fun g => if (g.getS b).slt (g.getS a) then g.getS b else g.getS a

/-- SMAX: signed maximum (R115). -/
def execSmax (d a b : Nat) (s : State) : Out :=
  s3 s d a b fun g => if (g.getS a).slt (g.getS b) then g.getS b else g.getS a

/-- SMINN: natural minimum (R115). -/
def execSminn (d a b : Nat) (s : State) : Out :=
  s3 s d a b fun g => if (g.getS b).ult (g.getS a) then g.getS b else g.getS a

/-- SMAXN: natural maximum (R115). -/
def execSmaxn (d a b : Nat) (s : State) : Out :=
  s3 s d a b fun g => if (g.getS a).ult (g.getS b) then g.getS b else g.getS a

/-- SADDI (R117). -/
def execSaddi (d imm : Nat) (s : State) : Out :=
  scalarOp s [d] 1 fun g => g.setS d (g.getS d + signExt16 imm)

/-- SMOVI (R117). -/
def execSmovi (d imm : Nat) (s : State) : Out :=
  scalarOp s [d] 1 fun g => g.setS d (signExt16 imm)

/-- SLUI (R117). -/
def execSlui (d imm : Nat) (s : State) : Out :=
  scalarOp s [d] 1 fun g => g.setS d (BitVec.ofNat 32 (imm * 65536))

/-- SANDI (R117). -/
def execSandi (d imm : Nat) (s : State) : Out :=
  scalarOp s [d] 1 fun g => g.setS d (g.getS d &&& BitVec.ofNat 32 imm)

/-- SORI (R117). -/
def execSori (d imm : Nat) (s : State) : Out :=
  scalarOp s [d] 1 fun g => g.setS d (g.getS d ||| BitVec.ofNat 32 imm)

/-- SSHLI (R116). -/
def execSshli (d a n : Nat) (s : State) : Out :=
  scalarOp s [d, a] 1 fun g => g.setS d (g.getS a <<< n)

/-- SSHRI (R116). -/
def execSshri (d a n : Nat) (s : State) : Out :=
  scalarOp s [d, a] 1 fun g => g.setS d (g.getS a >>> n)

/-- SSHAI (R116). -/
def execSshai (d a n : Nat) (s : State) : Out :=
  scalarOp s [d, a] 1 fun g => g.setS d ((g.getS a).sshiftRight n)

/-- SADD64: both pairs are read before the destination is written (R116). -/
def execSadd64 (d a b : Nat) (s : State) : Out :=
  scalarOp s [d, d + 1, a, a + 1, b, b + 1] 1 fun g => g.setS64 d (g.getS64 a + g.getS64 b)

/-- SSUB64 (R116). -/
def execSsub64 (d a b : Nat) (s : State) : Out :=
  scalarOp s [d, d + 1, a, a + 1, b, b + 1] 1 fun g => g.setS64 d (g.getS64 a - g.getS64 b)

/-- SMOV (R116). -/
def execSmov (d a : Nat) (s : State) : Out :=
  scalarOp s [d, a] 1 fun g => g.setS d (g.getS a)

/-- SMVXF: an index at or beyond the allocation traps (R121). -/
def execSmvxf (d a off : Nat) (s : State) : Out :=
  scalarInstr s [d, a] fun g =>
    let i := (g.getS a).toNat + off
    if i ≥ g.info.sregs then .next (s.scalarTrap g 0x02 0)
    else scalarOp s [i] 1 fun g => g.setS d (g.getS i)

/-- SMVXT: s(D) is the index (R121). -/
def execSmvxt (d a off : Nat) (s : State) : Out :=
  scalarInstr s [d, a] fun g =>
    let i := (g.getS d).toNat + off
    if i ≥ g.info.sregs then .next (s.scalarTrap g 0x02 0)
    else scalarOp s [i] 1 fun g => g.setS i (g.getS a)

/-- SBFX (R118). -/
def execSbfx (d a : Nat) (sx : Bool) (pos len : Nat) (s : State) : Out :=
  scalarOp s [d, a] 2 fun g => g.setS d (BitVec.ofNat 32 (bitField (g.getS a).toNat sx pos len))

/-- SPOPC (R116). -/
def execSpopc (d a : Nat) (s : State) : Out :=
  scalarOp s [d, a] 1 fun g => g.setS d (BitVec.ofNat 32 (popBits 32 (g.getS a).toNat))

/-- SCLZ (R116). -/
def execSclz (d a : Nat) (s : State) : Out :=
  scalarOp s [d, a] 1 fun g => g.setS d (BitVec.ofNat 32 (clzBits 32 (g.getS a).toNat))

/-- SCMP: a write to q7 is ignored (R122). -/
def execScmp (cc q a b : Nat) (s : State) : Out :=
  scalarOp s [a, b] 1 fun g => g.setQ q (scalarCond cc (g.getS a) (g.getS b))

/-- SCMPI: the immediate is sign-extended from 8 bits (R122). -/
def execScmpi (cc q a imm : Nat) (s : State) : Out :=
  scalarOp s [a] 1 fun g => g.setQ q (scalarCond cc (g.getS a) (BitVec.ofInt 32 (toSigned 8 imm)))

/-- SSEL (R119). -/
def execSsel (d a cond : Nat) (src : SelSrc) (s : State) : Out :=
  scalarOp s (match src with
    | .reg n => [d, a, n]
    | .imm _ => [d, a]) 2 fun g =>
      g.setS d (if selCond g cond then g.getS a else
        match src with
        | .reg n => g.getS n
        | .imm w => BitVec.ofNat 32 w)

/-- QLOP (R123). -/
def execQlop (t d a b : Nat) (s : State) : Out :=
  scalarOp s [] 1 fun g => g.setQ d (tableBit t (g.getQ a) (g.getQ b))

/-- SLDI (R120). -/
def execSldi (d : Nat) (pair : Bool) (imm : Nat) (s : State) : Out :=
  if pair then scalarOp s [d, d + 1] 2 fun g => g.setS64 d ((BitVec.ofNat 32 imm).signExtend 64)
  else scalarOp s [d] 2 fun g => g.setS d (BitVec.ofNat 32 imm)

/-- SNOP changes nothing but the scalar PC (R144). -/
def execSnop (s : State) : Out :=
  scalarOp s [] 1 fun g => g

end Sys2Proof.Machine
end

