-- ==== Sys2Proof/Machine/ScalarControl.lean ====
section
/-! DEFINITION. Scalar branches, lane-block dispatch, special registers, traps and EXIT (R131 to R143). -/
namespace Sys2Proof.Machine

/-! ## Branches and loops -/

/-- Is a branch with a condition field taken (R131)? -/
def branchTaken (g : Group) (c : Nat) : Bool := c == 7 || (c != 15 && selCond g c)

/-- SBR (R131). -/
def execSbr (c : Nat) (off : Int) (s : State) : Out :=
  scalarInstr s [] fun g =>
    if branchTaken g c then .next (s.scalarJump g ((g.spc : Int) + off)) else .next (s.setGroup (g.advance 1))

/-- SCALL: s63 is the link register (R131). -/
def execScall (c : Nat) (off : Int) (s : State) : Out :=
  scalarInstr s [63] fun g =>
    if branchTaken g c then
      match s.scalarLen g with
      | (s, n) =>
        let t := (g.spc : Int) + off
        if t < 0 || t ≥ (n : Int) then .next (s.scalarTrap g 0x01 0)
        else
          .next (s.setGroup ((g.setS 63 (BitVec.ofNat 32 (g.spc + 1))).goTo t.toNat))
    else .next (s.setGroup (g.advance 1))

/-- SRET (R132). -/
def execSret (s : State) : Out :=
  scalarInstr s [63] fun g => .next (s.scalarJump g ((g.getS 63).toNat : Int))

/-- SJMPR (R132). -/
def execSjmpr (a : Nat) (s : State) : Out :=
  scalarInstr s [a] fun g => .next (s.scalarJump g ((g.getS a).toNat : Int))

/-- SLOOP: the range check applies to a taken branch, and a trap leaves the counter (R133). -/
def execSloop (d : Nat) (off : Int) (s : State) : Out :=
  scalarInstr s [d] fun g =>
    let n := g.getS d - 1
    if n = 0 then .next (s.setGroup ((g.setS d n).advance 1))
    else
      match s.scalarLen g with
      | (s, len) =>
        let t := (g.spc : Int) + off
        if t < 0 || t ≥ (len : Int) then .next (s.scalarTrap g 0x01 0)
        else .next (s.setGroup ((g.setS d n).goTo t.toNat))

/-! ## Dispatch of lane blocks -/

/-- The eight copies of a dispatch: s(a) to s(a + n − 1), then 0 (R134). -/
def lgoCopies (g : Group) (a n : Nat) : List Word := (List.range 8).map fun i => if i < n then g.getS (a + i) else 0

/-- The registers that a dispatch checks: A + n − 1 must lie within the allocation, with no register to copy too
(R134). -/
def lgoRegs (a n : Nat) : List Nat := if n = 0 then (if a = 0 then [] else [a - 1]) else regSpan a n

/-- LGO: in a handler it faults; with a full decision queue the stream stalls (R30, R134). -/
def execLgo (a n start : Nat) (s : State) : Out :=
  match s.scalarTurn? with
  | none => .refused .noIssuer
  | some g =>
    if g.inHandler then .next (s.scalarTrap g 0x01 0)
    else
      scalarInstr s (lgoRegs a n) fun g =>
        if start ≥ s.laneLen g then .next (s.scalarTrap g 0x01 0)
        else if g.dq.length ≥ 16 then .next s
        else .next (s.setGroup ({ g with dq := g.dq ++ [QBlock.mk start (lgoCopies g a n) []] }.advance 2))

/-- Is a destination one whose new value is there after LWAIT: a scalar register or a special register, which the scalar
stream reads (R33, R59), or a tile element, which its matrix commands read (R303)? -/
def scalarSees (d : Dest) : Bool :=
  match d with
  | .s _ | .sp _ _ | .tile _ _ _ => true
  | _ => false

/-- Lane loads of the group that will write such a destination (R33, R59, R179): in a handler, those of its own lane blocks
(R135). -/
def State.owesScalar (s : State) (g : Group) : Bool :=
  s.mem.flight.any fun a => a.grp == g.gid && !a.scalar && (a.handler || !g.inHandler) && a.dests.any scalarSees

/-- The lane results that are there after LWAIT land (R33, R135, R303). -/
def Group.landScalar (g : Group) : Group :=
  { g.landAll (g.pend.filter fun r => scalarSees r.dest) with pend := g.pend.filter fun r => !scalarSees r.dest }

/-- Has everything that LWAIT waits for ended (R32)? In a handler that is the handler's lane blocks. -/
def State.lanesDone (s : State) (g : Group) : Bool :=
  !g.lanes.running && (g.inHandler || g.dq.isEmpty) && !s.owesScalar g

/-- LWAIT (R135): a wait instruction. -/
def execLwait (s : State) : Out :=
  scalarInstr s [] fun g =>
    takeAsync s g g.spc (if s.lanesDone g then .next (s.setGroup (g.landScalar.advance 1)) else .next s)

/-- The strands of a lane block that starts at a word: one converged gang of the strands in `part` with live lanes, each
active in its share of the mask (R31, R46). -/
def startStrands (n start : Nat) (mask : Mask) : List Strand :=
  (List.range n).map fun j =>
    { pc := start, active := strandBits mask j, stack := [], gang := 0, part := strandBits mask j != 0, reached := false }

/-- The lanes of a block that starts at a word on the strands of a mask (R31, R46). -/
def Lanes.start (n start : Nat) (mask : Mask) (k : List Word) : Lanes :=
  { Lanes.idle with strands := startStrands n start mask, running := mask != 0, k := k }

/-- LGOT: it waits for an earlier handler block, then its block starts at once on the live lanes of the faulting gang; with
no such lane the block ends at once (R136, R46). -/
def execLgot (a n start : Nat) (s : State) : Out :=
  privileged s (lgoRegs a n) fun g t =>
    if start ≥ s.laneLen g then .next (s.scalarTrap g 0x01 0)
    else if g.lanes.running then .next s
    else
      let mask := g.regs.live &&& strandLanes t.gang
      .next (s.setGroup ({ g with lanes := Lanes.start g.strandCount start mask (lgoCopies g a n) }.advance 2))

/-! ## Special registers (R137 to R139) -/

/-- The OR of the flags of the live lanes (R59). -/
def Group.flgOr (g : Group) : Word := (lanesOf g.regs.live).foldl (fun w l => w ||| g.getFlg l) 0

/-- The value that SRDS reads, or none where the use traps (R137). -/
def State.srdsValue (s : State) (g : Group) (r : Nat) : Option Word :=
  let p := g.place
  let num (i : Nat) : Option Word := some (BitVec.ofNat 32 i)
  match r with
  | 0x02 => num p.grp
  | 0x03 => num p.team
  | 0x04 => num p.bx
  | 0x05 => num p.byy
  | 0x06 => num p.bz
  | 0x07 => num p.ngrp
  | 0x08 =>
    match g.trap with
    | none => some g.regs.live
    | some t => some t.exec
  | 0x09 => some g.flgOr
  | 0x0A => num g.regs.rmode
  | 0x0B => g.trap.map (·.fltmask)
  | 0x0C => g.trap.map (·.wmask)
  | 0x0D => g.trap.map fun t => BitVec.ofNat 32 (t.cause + 2 ^ 8 * t.subc + 2 ^ 16 * t.swc)
  | 0x0E => g.trap.map fun t => BitVec.ofNat 32 t.spc
  | 0x0F => g.trap.map fun t => BitVec.ofNat 32 t.lpc
  | 0x10 => num (s.core p.core).clka
  | 0x11 => num s.ns
  | 0x12 =>
    match g.nsLatch with
    | some w => some w
    | none => num (s.ns / 2 ^ 32)
  | 0x14 => num p.core
  | 0x15 => num (clusterOf p.core)
  | 0x16 => num (sectorOf p.core)
  | 0x17 => num p.part
  | 0x18 => num p.ctx
  | 0x19 => some (g.genst (Config.freeNat (2 ^ 61 + s.draws)))
  | 0x1A => num (g.batch % 65536)
  | 0x1B => num g.uas
  | _ => none

/-- SRDS: a use that the table of R137 marks as a trap comes before the checks of the registers (R98); reading 0x11 keeps the
high word of the same instant for a read of 0x12 that follows (R138). -/
def execSrds (d r : Nat) (s : State) : Out :=
  scalarInstr s [] fun g =>
    match s.srdsValue g r with
    | none => .next (s.scalarTrap g 0x01 0)
    | some w => scalarInstr s [d] fun g =>
      let latch := if r = 0x11 then some (BitVec.ofNat 32 (s.ns / 2 ^ 32)) else none
      let s := if r = 0x19 then s.drawn else s
      .next (s.setGroup ({ g.setS d w with nsLatch := latch }.advance 1))

/-- Writes %rmode from the scalar stream (R54). -/
def Group.setRmode (g : Group) (w : Word) : Group :=
  { g.keepOld rmodeKey (BitVec.ofNat 32 g.regs.rmode) with regs := { g.regs with rmode := w.toNat % 8 } }

/-- May SWRS write the register: the handler-only ones in a handler (R137)? -/
def Group.mayWriteSp (g : Group) (r : Nat) : Bool :=
  r == 0x09 || r == 0x0A || (g.inHandler && (r == 0x0B || r == 0x0E || r == 0x0F))

/-- SWRS (R137): a use that the table marks as a trap, and an invalid rounding mode, trap. -/
def execSwrs (r b : Nat) (s : State) : Out :=
  scalarInstr s [] fun g => if !g.mayWriteSp r then .next (s.scalarTrap g 0x01 0) else scalarInstr s [b] fun g =>
    let w := g.getS b
    let inTrap (f : Trap → Trap) : Out :=
      match g.trap with
      | none => .next (s.scalarTrap g 0x01 0)
      | some t => .next (s.setGroup ({ g with trap := some (f t) }.advance 1))
    match r with
    | 0x09 => .next (s.setGroup (((lanesOf g.regs.live).foldl (fun g l => g.setFlg l w) g).advance 1))
    | 0x0A =>
      if w.toNat % 8 ≥ 6 then .next (s.scalarTrap g 0x01 0) else .next (s.setGroup ((g.setRmode w).advance 1))
    | 0x0B => inTrap fun t => { t with fltmask := w &&& t.faulted }
    | 0x0E => inTrap fun t => { t with spc := w.toNat, spcWritten := true }
    | 0x0F => inTrap fun t => if t.isLane then { t with lpc := w.toNat } else t
    | _ => .next (s.scalarTrap g 0x01 0)

/-! ## Traps and the end of a group (R140 to R143) -/

/-- A trap that a scalar instruction raises as its effect: `%spc` is the word after it (R140). -/
def State.softTrap (s : State) (g : Group) (cause swc : Nat) : State :=
  s.takeTrap g { cause := cause, subc := 0, swc := swc, spc := g.spc + 1, lpc := 0xFFFFFFFF, exec := 0, fltmask := 0,
                 wmask := 0, gang := 0 }

/-- TRAP (R140). -/
def execTrap (imm : Nat) (s : State) : Out := scalarInstr s [] fun g => .next (s.softTrap g 0x11 imm)

/-- BKPT (R140). -/
def execBkpt (s : State) : Out := scalarInstr s [] fun g => .next (s.softTrap g 0x12 0)

/-- TRET (R142): it waits for the handler's lane blocks, checks the resume points against the kernel's sections, and
restores the frame. -/
def execTret (s : State) : Out :=
  privileged s [] fun g t =>
    if g.lanes.running then .next s
    else
      let scal := ((s.launch? g.place.launch).map (·.scalLen)).getD 0
      if t.spc ≥ scal || (t.isLane && decide (t.lpc ≥ s.laneLen g)) then .next (s.scalarTrap g 0x01 0)
      else .next (s.trapReturn g t)

/-- Engine commands of a group that are not complete (R143). -/
def State.groupCmds (s : State) (g : Group) : List Cmd :=
  s.units.cmds.filter fun c =>
    c.grp == g.gid && c.launch == g.place.launch && c.blk == g.place.blk && c.team == g.place.team

/-- EXIT (R143, R22): a wait instruction. In a handler it waits for the handler's lane blocks only, and takes no pending
fault. -/
def execExit (s : State) : Out :=
  scalarInstr s [] fun g =>
    takeAsync s g g.spc
      (if s.lanesDone g && (s.groupCmds g).isEmpty && g.uas == 0 then .next (s.retire g) else .next s)

end Sys2Proof.Machine
end

