-- ==== Sys2Proof/Machine/ScalarMem.lean ====
section
/-! DEFINITION. Scalar memory instructions and the scalar fence (R124 to R130). -/
namespace Sys2Proof.Machine

/-- The effective address of a scalar access (R124). -/
def scalarEa (g : Group) (a : Nat) (off : Int) : Nat := (g.getS64 a + BitVec.ofInt 64 off).toNat

/-- The frame of a scalar load, store or atomic: registers, holds, the checks of R124 in order, then the access that
`mk` makes with its order, its drain and its hold (R182). The first failing check decides the trap. An access to a bank that
is to change its use stalls (R375). -/
def scalarAccess (s : State) (regs : List Nat) (a : Nat) (off : Int) (w : Want) (size : Nat) (o : MOrd) (sc : Scope)
    (prom : Bool) (mk : Group → Access → Access) : Out :=
  scalarInstr s (regs ++ [a, a + 1]) fun g =>
    if g.scalarHeld then .next s
    else
      match s.check g.agent w (scalarEa g a off) size with
      | (s, .fail _ c) => .next (s.scalarTrap g c 0)
      | (s', .ok l) =>
        if s'.bankStalls l then .next s else
        match (s'.setPromotion g o sc).startDrain g.place.ctx (prom && ordAcq o) with
        | (s, d) =>
          let base := { g.access s.nextId .load l size with
            ord := o, sc := sc, relWait := if ordRel o then s.releaseIds g 0 sc else [], drain := d }
          let acc := mk g base
          let g := if ordAcq o then { g with holds := g.holds ++ [acquireHold 0 [acc.id] sc] } else g
          match s.issueAcc g acc with
          | (s, g) => .next (s.setGroup (g.advance 2))

/-- Bytes of a scalar width. -/
def swBytes : SW → Nat
  | .w32 => 4
  | .w8 => 1
  | .w16 => 2

/-- SLD (R125). -/
def execSld (d a : Nat) (w : SW) (o : MOrd) (sc : Scope) (prom : Bool) (off : Int) (s : State) : Out :=
  scalarAccess s [d] a off .load (swBytes w) o sc prom fun _ x => { x with dests := [.s d] }

/-- SLD64: the pair, low word first (R125). -/
def execSld64 (d a : Nat) (o : MOrd) (sc : Scope) (prom : Bool) (off : Int) (s : State) : Out :=
  scalarAccess s [d, d + 1] a off .load 8 o sc prom fun _ x => { x with dests := [.s d, .s (d + 1)] }

/-- SST (R125). -/
def execSst (d a : Nat) (w : SW) (o : MOrd) (sc : Scope) (off : Int) (s : State) : Out :=
  scalarAccess s [d] a off .store (swBytes w) o sc false fun g x =>
    { x with kind := .store, data := leBytes (swBytes w) (g.getS d).toNat }

/-- SST64 (R125). -/
def execSst64 (d a : Nat) (o : MOrd) (sc : Scope) (off : Int) (s : State) : Out :=
  scalarAccess s [d, d + 1] a off .store 8 o sc false fun g x =>
    { x with kind := .store, data := leBytes 8 (g.getS64 d).toNat }

/-- Does host memory accept a scalar atomic (R190)? -/
def saopHost : SAOp → Bool
  | .add | .exch => true
  | .and | .or => false

/-- SATOM (R126). -/
def execSatom (d a : Nat) (op : SAOp) (o : MOrd) (sc : Scope) (prom : Bool) (off : Int) (s : State) : Out :=
  scalarAccess s [d] a off (.atomic (saopHost op)) 4 o sc prom fun g x =>
    { x with kind := .rmwScalar op, data := leBytes 4 (g.getS d).toNat, dests := [.s d] }

/-- SCAS: s(D) is the expected value and s(D + 1) the new one (R127). -/
def execScas (d a : Nat) (o : MOrd) (sc : Scope) (prom : Bool) (off : Int) (s : State) : Out :=
  scalarAccess s [d, d + 1] a off (.atomic true) 4 o sc prom fun g x =>
    { x with kind := .cas, data := leBytes 4 (g.getS d).toNat, data2 := leBytes 4 (g.getS (d + 1)).toNat,
             dests := [.s d] }

/-- A plain scalar read of bytes of one line, as the core sees them (R124, R210). -/
def State.coreRead (s : State) (g : Group) (l : Loc) (n : Nat) : State × List Byte :=
  let p := g.place
  match l with
  | .mmio off => (s, s.barBytes (s.drivingFn p.ctx) off n)
  | _ =>
    match s.mem.l1.find? fun c => c.core == p.core && c.part == p.part && c.scalar && c.loc == l.lineStart with
    | some c =>
      let old := (c.data.drop (l.flat.2 % 128)).take n
      (s.drawn, s.coreView p.core l (if s.freeBit then old else s.locRead l n))
    | none => (s.touchBy p.ctx .dflt l, s.coreView p.core l (s.locRead l n))

/-- Does the group's scalar stream still have a write to the bytes on its way that a plain read comes after, or the core an
atomic that it has acknowledged (R130, R208)? -/
def State.scalarOwes (s : State) (g : Group) (l : Loc) (n : Nat) : Bool :=
  s.mem.flight.any fun a =>
    !a.performed && locMeets a.loc a.size l n &&
      ((a.grp == g.gid && a.scalar && a.kind.writes && !a.coreAck) ||
        (a.core == g.place.core && a.kind.isAtomic && a.coreAck))

/-- Does something come before a read-modify-write of the scalar stream at the home slice: what a plain read waits for, a
write that the core has acknowledged, or a fill (R176, R208, R316)? -/
def State.homeOwes (s : State) (g : Group) (l : Loc) (n : Nat) : Bool :=
  s.scalarOwes g l n || s.fillPending l ||
    s.mem.flight.any fun a =>
      a.core == g.place.core && a.kind.writes && a.coreAck && !a.performed && locMeets a.loc a.size l n

/-! ## Ranges of lines (R128) -/

/-- The virtual addresses of the 128-byte lines that meet [ea, ea + len). DESIGN CHOICE (log 89): a range that runs past 2^64
goes on at address 0, for a line's address is not reduced here and is looked up modulo 2^57; R128 does not say. -/
def linesOf (ea len : Nat) : List Nat :=
  if len = 0 then []
  else (List.range ((ea + len - 1) / 128 + 1 - ea / 128)).map fun i => (ea / 128 + i) * 128

/-- Where a line lies in the check of a range operation, whatever its data or an alias's access size say. -/
def State.lineLoc (s : State) (a : Agent) (va : Nat) : State × Chk :=
  if !canonical va then (s, .fail 1 0x05)
  else
    match s.translate a.core a.ctx a.part (va % 2 ^ 57) with
    | (s, .fault c) => (s, .fail 3 c)
    | (s, .leaf pte size) =>
      let s' := if bits pte 4 3 = 2 then s.drawn else s
      if !(bit pte 1 || bit pte 2) then (s', .fail 4 0x05)
      else
        match s.target a pte size (va % 2 ^ 57) with
        | none => (s', .fail 5 0x06)
        | some l => (s', .ok l)

/-- The lines of a range that can be handled: a later line that would fault is skipped. -/
def State.lineLocs (s : State) (a : Agent) : List Nat → State × List Loc
  | [] => (s, [])
  | va :: r =>
    match s.lineLoc a va with
    | (s, .fail _ _) => State.lineLocs s a r
    | (s, .ok l) =>
      match State.lineLocs s a r with
      | (s, ls) => (s, l.lineStart :: ls)

/-- SPFX.wb and SPFX.inv: a fault on the first line traps, later ones are skipped; the instruction counts in `%uas` until
every line is handled (R128). -/
def rangeOp (s : State) (d a : Nat) (off : Int) (kind : AccKind) : Out :=
  scalarInstr s [d, a, a + 1] fun g =>
    if g.scalarHeld then .next s
    else
      let ea := scalarEa g a off
      match linesOf ea (g.getS d).toNat with
      | [] => .next (s.setGroup (g.advance 2))
      | v :: vs =>
        match s.lineLoc g.agent ea with
        | (s, .fail _ c) => .next (s.scalarTrap g c 0)
        | (s, .ok l) =>
          match s.lineLocs g.agent (v :: vs) with
          | (s, ls) =>
            match s.issueAcc g { g.access s.nextId kind l 1 with lines := ls } with
            | (s, g) => .next (s.setGroup (g.advance 2))

/-- SPFX.wb (R128). -/
def execSpfxWb (d a : Nat) (off : Int) (s : State) : Out := rangeOp s d a off .writeBack

/-- SPFX.inv (R128). -/
def execSpfxInv (d a : Nat) (off : Int) (s : State) : Out := rangeOp s d a off .invalidate

/-- May a line be prefetched: a target of type 0, 1, 2 or 5 outside alias windows, with R (R128, R184)? -/
def prefetchable : Loc → Bool
  | .hbm _ | .host _ | .peer _ _ => true
  | _ => false

/-- Starts the fill of one line, with a copy in the core's cache at scope 0 or 1; a line that would fault is skipped. -/
def State.prefetch (s : State) (a : Agent) (scalar : Bool) (sc : Scope) (va : Nat) : State :=
  match s.check a .load va 1 with
  | (s, .fail _ _) => s
  | (s, .ok l) =>
    if prefetchable l then
      let s := s.touchBy a.ctx .dflt l
      if coreLevel sc then s.addCopy (s.copyOf a.core a.part scalar .dflt l) else s
    else s

/-- SPFX.pf: it never faults and has no result (R128). -/
def execSpfxPf (d a : Nat) (sc : Scope) (off : Int) (s : State) : Out :=
  scalarInstr s [d, a, a + 1] fun g =>
    if g.scalarHeld then .next s
    else
      let s := (linesOf (scalarEa g a off) (g.getS d).toNat).foldl (fun s va => s.prefetch g.agent true sc va) s
      .next (s.setGroup (g.advance 2))

/-- SFNC (R129). -/
def execSfnc (o : MOrd) (sc : Scope) (prom : Bool) (s : State) : Out :=
  scalarInstr s [] fun g => s.syncThen g o sc prom fun s g => .next (s.setGroup (g.advance 2))

end Sys2Proof.Machine
end

