-- ==== Sys2Proof/Machine/Records.lean ====
section
/-! DEFINITION. Tensor records (R278 to R283), the record cache of a cluster (R308), and the reads and writes that engines
make at home slices and banks (R221, R286, R310). -/
namespace Sys2Proof.Machine

/-! ## Records (R278) -/

/-- A tensor record as its 64 bytes give it; `resv` holds the fields that must be 0. -/
structure TRec where
  base : Nat
  scale : Nat
  ext : List Nat
  step : List Nat
  fmt : Nat
  blk : Nat
  permit : Bool
  indexed : Bool
  segrows : Nat
  owner : Nat
  kr : Bool
  kw : Bool
  nsub : Nat
  resv : Nat
  deriving DecidableEq, Repr

/-- The record in 64 bytes. -/
def TRec.ofBytes (l : List Byte) : TRec :=
  let f := leAt l 0x2C 4
  let k := leAt l 0x30 4
  { base := leAt l 0 8, scale := leAt l 8 8,
    ext := [leAt l 0x10 4, leAt l 0x14 4, leAt l 0x18 4, leAt l 0x1C 4],
    step := [leAt l 0x20 4, leAt l 0x24 4, leAt l 0x28 4],
    fmt := bits f 0 4, blk := bits f 4 4, permit := bit f 8, indexed := bit f 9, segrows := bits f 16 16,
    owner := bits k 0 16, kr := bit k 16, kw := bit k 17, nsub := leAt l 0x34 4,
    resv := bits f 10 6 + bits k 18 14 + leAt l 0x38 8 }

/-- Bytes of an element; an E2M1X element is half a byte, and two of them are handled as one byte. -/
def TRec.cell (r : TRec) : Nat :=
  match r.fmt with
  | 0 | 8 => 4
  | 1 | 2 | 9 => 2
  | _ => 1

/-- Elements in one handled cell. -/
def TRec.perCell (r : TRec) : Nat := if r.fmt = 5 then 2 else 1

/-- The block length of FMT.BLK. -/
def TRec.blkLen (r : TRec) : Nat := if r.blk = 1 then 16 else if r.blk = 2 then 32 else 0

/-- Is FMT.BLK legal for the format (R278)? -/
def TRec.blkOk (r : TRec) : Bool :=
  match r.fmt with
  | 3 | 4 => decide (r.blk ≤ 2)
  | 5 => r.blk == 2
  | _ => r.blk == 0

/-- The matrix class of the format (R278); 0 is none. -/
def TRec.mclass (r : TRec) : Nat :=
  match r.fmt with
  | 1 | 2 => 1
  | 3 | 4 => 2
  | 5 => 3
  | 6 | 7 => 4
  | _ => 0

/-- Is a record that is not indexed valid (R280)? -/
def TRec.plainOk (r : TRec) : Bool :=
  decide (r.fmt ≤ 9) && r.blkOk && r.resv == 0 && !r.indexed && (r.ext.all fun e => decide (1 ≤ e)) &&
    (r.blk == 0 || (r.ext.getD 0 0 % r.blkLen == 0 && r.step.all fun s => s % r.blkLen == 0)) &&
    (r.fmt != 5 || r.step.all fun s => s % 2 == 0) && r.base % r.cell == 0

/-- Is an indexed record valid (R280, R283)? -/
def TRec.indexedOk (r : TRec) : Bool :=
  decide (r.fmt ≤ 9) && r.blkOk && r.resv == 0 && r.indexed && r.base == 0 && (r.ext.all (· == 0)) &&
    (r.step.all (· == 0)) && r.scale % 64 == 0 && decide (1 ≤ r.nsub) && decide (1 ≤ r.segrows)

/-- Is a record valid where an indexed one may stand (R283)? -/
def TRec.okAsB (r : TRec) : Bool := if r.indexed then r.indexedOk else r.plainOk

/-- The owner keys of a context's key ring (R282). -/
def State.ring (s : State) (x : Nat) : List Nat := (List.range 8).map fun i => bits (tget 0 (s.ctx x).keys i) 0 16

/-- Does a record pass its key check against a ring (R282)? -/
def TRec.keyOk (r : TRec) (ring : List Nat) (write : Bool) : Bool :=
  r.owner != 0 && (if write then r.kw else r.kr) && ring.contains r.owner

/-- The extent of a dimension in cells. -/
def TRec.cellExt (r : TRec) (i : Nat) : Nat := r.ext.getD i 0 / (if i = 0 then r.perCell else 1)

/-- The stride of a dimension in cells. -/
def TRec.cellStep (r : TRec) (i : Nat) : Nat := if i = 0 then 1 else r.step.getD (i - 1) 0 / r.perCell

/-- The sum of coordinates times strides, from dimension i on. -/
def TRec.cellOff (r : TRec) (i : Nat) : List Nat → Nat
  | [] => 0
  | d :: ds => d * r.cellStep i + TRec.cellOff r (i + 1) ds

/-- The virtual address of the cell at coordinates (R279). DESIGN CHOICE (log 87): the spec does not say what lies past 2^64, so
addresses are taken modulo 2^64. -/
def TRec.cellAt (r : TRec) (ds : List Nat) : Nat := (r.base + r.cellOff 0 ds * r.cell) % 2 ^ 64

/-- Are the coordinates, in cells, inside the extents? -/
def TRec.inside (r : TRec) (ds : List Nat) : Bool :=
  (ds.zip (List.range 4)).all fun (d, i) => decide (d < r.cellExt i)

/-- The element offset of the coordinates (R279). -/
def TRec.elemOff (r : TRec) : List Nat → Nat
  | [] => 0
  | d :: ds => d + ((ds.zip r.step).map fun (x, s) => x * s).foldl (· + ·) 0

/-- Are element coordinates inside the extents? -/
def TRec.insideElem (r : TRec) (ds : List Nat) : Bool := (ds.zip r.ext).all fun (d, e) => decide (d < e)

/-- The inclusive byte range that the cells of a box touch (R287): none when no cell is inside. -/
def TRec.boxRange (r : TRec) (starts counts : List Nat) : List Range :=
  let z := (starts.zip counts).zip (List.range 4)
  if z.any fun ((t, c), i) => c == 0 || decide (t ≥ r.cellExt i) then []
  else
    let top := z.map fun ((t, c), i) => min (t + c - 1) (r.cellExt i - 1)
    [{ scratch := false, lo := r.base + r.cellOff 0 starts * r.cell,
       hi := r.base + r.cellOff 0 top * r.cell + r.cell - 1 }]

/-- The inclusive byte range that the elements of a box touch: an E2M1X box may start or end within a byte (R51, R287). -/
def TRec.elemRange (r : TRec) (starts counts : List Nat) : List Range :=
  match starts, counts with
  | t :: ts, c :: cs =>
    r.boxRange (t / r.perCell :: ts) ((if c = 0 then 0 else (t + c - 1) / r.perCell + 1 - t / r.perCell) :: cs)
  | _, _ => []

/-- The byte range of the whole tensor. -/
def TRec.wholeRange (r : TRec) : List Range := r.boxRange [0, 0, 0, 0] ((List.range 4).map r.cellExt)

/-- The byte range of the scale array of a blocked record, which is in no footprint (R279, R287). -/
def TRec.scaleRange (r : TRec) : List Range :=
  if r.blk = 0 then []
  else
    let n := if r.fmt = 5 then 2 else 1
    [{ scratch := false, lo := r.scale, hi := r.scale + n * (r.elemOff (r.ext.map (· - 1)) / r.blkLen + 1) - 1 }]

/-- A dense byte range. -/
def denseRange (scratch : Bool) (lo n : Nat) : List Range :=
  if n = 0 then [] else [{ scratch := scratch, lo := lo, hi := lo + n - 1 }]

/-- Do two ranges meet (R288)? -/
def Range.meets (a b : Range) : Bool := a.scratch == b.scratch && decide (a.lo ≤ b.hi) && decide (b.lo ≤ a.hi)

/-! ## Engine accesses (R221, R286) -/

/-- The outcome of an engine access: bytes, or the sub-code of fault 0x0F. -/
inductive ERes where
  | ok (bs : List Byte)
  | fault (subc : Nat)
  deriving DecidableEq, Repr

/-- The sub-code for a failing check (R310). -/
def engineSubc (stage code : Nat) : Nat :=
  if stage = 8 then 0x07 else if code = 0x04 then 0x04 else if code = 0x05 then 0x05 else 0x06

/-- Where an engine access of a cell of `size` bytes finds n bytes of one line: an engine has no alignment rule of its own.
DESIGN CHOICE (log 75): an odd byte of an alias window is no place for one. -/
def State.engPlace (s : State) (a : Agent) (w : Want) (va n size : Nat) : State × Except Nat Loc :=
  let va := va % 2 ^ 64
  if !canonical va then (s, .error 0x05)
  else
    match s.placeAt { a with handler := false } w va size with
    | (s, .fail st c) => (s, .error (engineSubc st c))
    | (s, .ok l) =>
      let odd := match l with
        | .mx .. => va % 2 != 0 || n % 2 != 0
        | _ => false
      (s, if odd then .error 0x06 else if s.locBad l n then .error 0x07 else .ok l)

/-- An engine read of n bytes of one line, at once: it merges with the reads of the line that are pending (R316). -/
def State.engRead (s : State) (a : Agent) (va n : Nat) : State × ERes :=
  match s.engPlace a .load va n n with
  | (s, .error f) => (s, .fault f)
  | (s, .ok l) => ((s.touchBy a.ctx .dflt l).lineLeaves l.lineKey, .ok (s.locRead l n))

/-- An engine read of n single bytes, one after another. -/
def State.engBytes (s : State) (a : Agent) (va : Nat) : Nat → State × ERes
  | 0 => (s, .ok [])
  | n + 1 =>
    match s.engRead a va 1 with
    | (s, .fault f) => (s, .fault f)
    | (s, .ok b) =>
      match State.engBytes s a (va + 1) n with
      | (s, .fault f) => (s, .fault f)
      | (s, .ok r) => (s, .ok (b ++ r))

/-! ## The record cache (R281, R308) -/

/-- The outcome of a record read: its bytes, the code of the trap, or a fill that is not complete. -/
inductive RRes where
  | ok (bs : List Byte)
  | trap (code : Nat)
  | wait
  deriving DecidableEq, Repr

/-- The fill of an entry reads some of the aligned 4-byte parts that it lacks, at least one, by a free choice (R206, R308). -/
def State.fillRec (s : State) (e : RecEnt) (l : Loc) : State × RecEnt :=
  let now := e.missing.filter fun i => e.missing.head? == some i || bit s.freeNat i
  (s.drawn, { e with
    data := (List.range 16).flatMap fun i =>
      if now.contains i then s.locRead (l.plus (4 * i)) 4 else (e.data.drop (4 * i)).take 4
    missing := e.missing.filter fun i => !now.contains i })

/-- All-zero bits. -/
def zeros (n : Nat) : List Byte := List.replicate n 0

/-- The 64 bytes of a record, through the record cache of the agent's cluster: the checks of R281, then the cached copy or
a fill. -/
def State.readRecord (s : State) (a : Agent) (va : Nat) : State × RRes :=
  if !canonical va then (s, .trap 0x05)
  else if va % 64 != 0 then (s, .trap 0x03)
  else
    match s.translate a.core a.ctx a.part (va % 2 ^ 57) with
    | (s, .fault c) => (s, .trap c)
    | (s, .leaf pte size) =>
      if !bit pte 1 then (s, .trap 0x05)
      else
        let ty := bits pte 4 3
        match if ty = 0 || ty = 3 || ty = 4 then s.target { a with handler := false } pte size (va % 2 ^ 57) else none with
        | none => (s, .trap 0x06)
        | some l =>
          let cl := clusterOf a.core
          let have? (e : RecEnt) : Bool := e.cluster == cl && e.ctx == a.ctx && e.addr == va
          let new : RecEnt := { cluster := cl, ctx := a.ctx, addr := va, data := zeros 64, missing := List.range 16 }
          let e := (s.units.recs.find? have?).getD new
          if e.missing.isEmpty then (s, .ok e.data)
          else if s.bankStalls l then (s, .wait)
          else if s.locBad l 64 then (s, .trap 0x15)
          else
            match ((s.touchBy a.ctx .dflt l).lineLeaves l.lineKey).fillRec e l with
            | (s, e) =>
              let own := s.units.recs.filter fun e => e.cluster == cl && !have? e
              let keep := s.units.recs.filter fun e => e.cluster != cl
              (s.modUnits fun u => { u with recs := e :: own.take 63 ++ keep },
                if e.missing.isEmpty then .ok e.data else .wait)

/-! ## Element values (R51, R279) -/

/-- The bytes that an element's value takes: its data, then its scale entry. -/
structure ElemBytes where
  data : List Byte
  scale : List Byte
  deriving DecidableEq, Repr

/-- Reads an element of a record: its data byte or bytes and, for a blocked format, its scale entry. -/
def State.elemBytes (s : State) (a : Agent) (r : TRec) (o : Nat) : State × Option ElemBytes × Nat × Nat :=
  let va := (r.base + o / r.perCell * r.cell) % 2 ^ 64
  match s.engRead a va r.cell with
  | (s, .fault f) => (s, none, f, va)
  | (s, .ok d) =>
    if r.blk = 0 then (s, some ⟨d, []⟩, 0, 0)
    else
      let n := if r.fmt = 5 then 2 else 1
      let sa := (r.scale + n * (o / r.blkLen)) % 2 ^ 64
      match s.engBytes a sa n with
      | (s, .fault f) => (s, none, f, sa)
      | (s, .ok sc) => (s, some ⟨d, sc⟩, 0, 0)

/-- An element as a float value (R51, R279). -/
def TRec.fltVal (r : TRec) (o : Nat) (b : ElemBytes) : FVal :=
  let v := leNat b.data
  let sc := leAt b.scale 0 1
  match r.fmt with
  | 0 => fp32.decode v
  | 1 => bf16.decode v
  | 2 => fp16.decode v
  | 3 => if r.blk = 0 then e4m3.decode v else mxVal .e4m3 sc 0 v
  | 4 => if r.blk = 0 then e5m2.decode v else mxVal .e5m2 sc 0 v
  | _ => mxVal .e2m1x sc (leAt b.scale 1 1) (if o % 2 = 0 then v % 16 else v / 16)

/-- An element as an integer: I8 signed, N8 natural (R299). -/
def TRec.intVal (r : TRec) (b : ElemBytes) : Int := readInt (r.fmt == 6) 8 (leNat b.data)

end Sys2Proof.Machine
end

