-- ==== Sys2Proof/Machine/Engines.lean ====
section
/-! DEFINITION. Engine commands at issue (R284 to R309): their checks in the order of R284, footprints and job cards (R287),
completion modes (R285), matrix batches (R295 to R297), and the record fence (R309). -/
namespace Sys2Proof.Machine

/-! ## Asynchronous faults (R286, R306) -/

/-- A fault of an engine: the group's log entry, if it may be written, event EFLT for fault 0x0F, and the group's pending
fault; a fault beside a pending one is only counted. -/
def State.asyncFault (s : State) (gid : Nat) (cause subc pos cmdpc vaddr : Nat) : State :=
  match s.group? gid with
  | none => s
  | some g =>
    match s.useRegs g.place.ctx with
    | (s, r) =>
      let at' := r.fltlog + 32 * gid
      let mine := s.ownsRange g.place.part at' 32
      let word (s : State) (o v n : Nat) : State := if mine then s.writeBy g.place.ctx .dflt (.hbm (at' + o)) (leBytes n v) else s
      match g.async with
      | some f => (word s 0x18 (f.lost + 1) 4).setGroup { g with async := some { f with lost := f.lost + 1 } }
      | none =>
        let s := [(0x00, gid, 4), (0x04, cmdpc, 4), (0x08, subc, 4), (0x0C, pos, 4), (0x10, vaddr, 8), (0x18, 0, 4),
          (0x1C, 0, 4)].foldl (fun s (o, v, n) => word s o v n) s
        let s := if cause = 0x0F then s.raiseEvent (clusterOf g.place.core) g.place.ctx 249 else s
        s.setGroup { g with async := some { cause := cause, subc := subc, lost := 0, pos := pos, cmdpc := cmdpc,
                                            vaddr := vaddr, logged := mine } }

/-! ## The frame of an engine command -/

/-- Is the command in flight: on its engine, or stopped with a saved block? -/
def State.cmdLive (s : State) (c : Nat) : Bool :=
  (s.units.cmds.any fun x => x.id == c) || s.units.saved.any fun b => b.cmds.any fun x => x.id == c

/-- The end of a yield-continuation's wait: an acquire at scope 1, then a pending fault is taken with `%spc` at the
continuation, else the stream resumes there (R223, R285, R286). -/
def State.continueAt (s : State) (g : Group) (target : Nat) : Out :=
  let s := s.acquireCore g.place.core g.place.part
  let g := { g.acquires s with wait := none }
  takeAsync s g target (.next (s.setGroup (g.goTo target)))

/-- An engine instruction with an operand block at s(a): a stream that waits for its own command goes on here (R97, R285). -/
def engineInstr (s : State) (regs : List Nat) (a : Nat) (k : Group → List Word → Out) : Out :=
  match s.scalarTurn?.bind (·.wait) with
  | some (.cmd c t) =>
    scalarInstr s [] fun g => if s.cmdLive c then .next s else s.continueAt g t
  | _ => scalarInstr s (regs ++ regSpan a 8) fun g => k g ((List.range 8).map fun i => g.getS (a + i))

/-- Register i of an operand block as a number. -/
def blkWord (b : List Word) (i : Nat) : Nat := (b.getD i 0).toNat
/-- The 64-bit value at an even offset of a block. -/
def blkAddr (b : List Word) (i : Nat) : Nat := blkWord b i + 2 ^ 32 * blkWord b (i + 1)

/-- The target of a yield-continuation, inside the section (R285): the section's length is used once, with whatever choice that
makes (R364). -/
def yieldTarget (s : State) (g : Group) (cm : Compl) : State × Option Nat :=
  match cm with
  | .yield off =>
    let t := (g.spc : Int) + off
    match s.scalarLen g with
    | (s, n) => (s, if 0 ≤ t && t < (n : Int) then some t.toNat else none)
  | _ => (s, some 0)

/-- A trap if the condition fails. -/
def need (ok : Bool) (code : Nat) : Option Nat := if ok then none else some code

/-- The first of several checks of one step that fails. -/
def firstOf (l : List (Option Nat)) : Option Nat := l.findSome? id

/-- The team of the group. -/
def State.teamOf (s : State) (g : Group) : Option Team := s.team? g.place.launch g.place.blk g.place.team

/-- Is a 16-byte barrier at a scratch offset inside a team's scratch? -/
def State.barInside (s : State) (t : Option Team) (part off : Nat) : Bool :=
  match t with
  | none => false
  | some t => decide (off + 16 ≤ t.size) && (s.teamScratch t part off).isSome

/-- Step 8 for a completion operand: a barrier must be inside every destination team's scratch (R284). -/
def State.complInside (s : State) (teams : List (Option Team)) (part : Nat) (cm : Compl) : Bool :=
  match cm with
  | .bar off => teams.all fun t => s.barInside t part off
  | _ => true

/-- Job cards in use in a cluster (R287). -/
def State.cardsUsed (s : State) (cl : Nat) : Nat :=
  ((s.units.cmds.filter fun c => clusterOf c.core == cl).map (·.cards)).foldl (· + ·) 0

/-- Commands in a quadrant's matrix queue (R295). -/
def State.queueUsed (s : State) (core quad : Nat) : Nat :=
  (s.units.cmds.filter fun c => c.core == core && c.quad == quad && c.batch.isSome).length

/-- Are the job cards and matrix-queue entries that a command takes free (R284)? -/
def State.roomFor (s : State) (g : Group) (cards entries : Nat) : Bool :=
  decide (s.cardsUsed (clusterOf g.place.core) + cards ≤ 64) &&
    decide (s.queueUsed g.place.core g.place.quad + entries ≤ 16)

/-- A command of a group that is about to issue. -/
def Group.command (g : Group) (id : Nat) (kind : CmdKind) (cm : Compl) (gran total : Nat) : Cmd :=
  { id := id, ctx := g.place.ctx, part := g.place.part, grp := g.gid, core := g.place.core, quad := g.place.quad,
    launch := g.place.launch, blk := g.place.blk, team := g.place.team, pc := g.spc, kind := kind, compl := cm,
    granule := gran, cards := 1, recs := [], reads := [], writes := [], state := .queued, total := total, done := [],
    bufs := [], asked := [], pieces := [], lists := [], faulted := [], prog := [], subRecs := [], batch := none, ring := [],
    edges := [], waitsFor := none, dropped := false }

/-- Has a command an edge with an earlier one: of its context, in its cluster, with footprints that meet (R288)? -/
def Cmd.edgeWith (c y : Cmd) : Bool :=
  y.ctx == c.ctx && clusterOf y.core == clusterOf c.core &&
    ((c.reads.any fun r => y.writes.any r.meets) ||
      (c.writes.any fun w => y.reads.any w.meets || y.writes.any w.meets))

/-- The commands in flight that a new one is compared with: those of engines, and those that are stopped with groups of a block
that is not saved whole yet (R288, R354). -/
def State.inFlight (s : State) : List Cmd :=
  s.units.cmds ++ (s.units.saved.filter fun k =>
    s.groups.any fun g => g.place.launch == k.launch && g.place.blk == k.blk).flatMap (·.cmds)

/-- Puts a command in flight, with its edges and the key ring as they are when it issues (R282, R288). -/
def State.addCmd (s : State) (c : Cmd) : State :=
  let c := { c with ring := s.ring c.ctx, edges := (s.inFlight.filter c.edgeWith).map (·.id) }
  (s.modUnits fun u => { u with cmds := u.cmds ++ [c] }).bumpId

/-- After issue the stream goes on, or waits for the command's completion (R285). -/
def Group.issued (g : Group) (cm : Compl) (c target : Nat) : Group :=
  match cm with
  | .yield _ => { g with wait := some (.cmd c target) }
  | _ => g.advance 2

/-- The outcome of a check that stands for no trap: a record's fill is not complete, and the stream stalls in it (R308). -/
def stallCode : Nat := 0x100

/-- A command whose checks have all been made, step 1 with the target of its continuation among them: the first that failed
traps; without room the stream stalls; else the command is in flight (R284). -/
def State.engineIssue (s : State) (g : Group) (target : Option Nat) (checks : List (Option Nat)) (cm : Compl) (c : Cmd)
    (entries : Nat) : Out :=
  match target, firstOf checks with
  | none, _ => .next (s.scalarTrap g 0x01 0)
  | some _, some code => .next (if code = stallCode then s else s.scalarTrap g code 0)
  | some t, none =>
    if !s.roomFor g c.cards entries then .next s
    else .next ((s.addCmd c).setGroup (g.issued cm c.id t))

/-- The agent of a group's commands: type 6 is closed to engines. -/
def Group.engineAgent (g : Group) : Agent := { g.agent with handler := false }

/-- The bytes that a record read delivered, and the trap it met. -/
def RRes.parts : RRes → List Byte × Option Nat
  | .ok b => (b, none)
  | .trap c => ([], some c)
  | .wait => ([], some stallCode)

/-! ## Boxes (R290 to R292) -/

/-- Starts and counts of a box in cells. -/
def cellBox (r : TRec) (l : List Nat) : List Nat :=
  match l with
  | x :: xs => x / r.perCell :: xs
  | [] => []

/-- Is a box inside the extents, or are coordinates outside them permitted? An empty box addresses none. -/
def boxOk (r : TRec) (starts counts : List Nat) : Bool :=
  r.permit || counts.any (· == 0) ||
    ((starts.zip counts).zip r.ext).all fun ((t, c), e) => decide (t + c ≤ e)

/-- Step 3 for a completion: a task id that TSIG would refuse (R285, R333). -/
def taskOk (cm : Compl) : Option Nat :=
  match cm with
  | .task id => need (decide (id < 1024)) 0x01
  | _ => none

/-- The product of counts. -/
def product (l : List Nat) : Nat := l.foldl (· * ·) 1

/-- Low and high halves of two block registers. -/
def halves (b : List Word) (i j : Nat) : List Nat :=
  [blkWord b i % 65536, blkWord b i / 65536, blkWord b j % 65536, blkWord b j / 65536]

/-- Is the group the team's producer (R284 step 2)? -/
def Group.isProducer (g : Group) : Bool := g.info.producer == some g.place.grp

/-- The checks of a copy block, steps 2 to 8, and the command. -/
def State.copyChecks (s : State) (g : Group) (b : List Word) (cm : Compl) (gran : Nat) :
    State × List (Option Nat) × Cmd :=
  match s.readRecord g.engineAgent (blkAddr b 0) with
  | (s, rr) =>
    let r := TRec.ofBytes rr.parts.1
    let starts := halves b 4 5
    let counts := halves b 6 7
    let n := product (cellBox r counts)
    let dst := blkAddr b 2
    (s, [need g.isProducer 0x0A, taskOk cm, firstOf [rr.parts.2, need (dst % r.cell == 0) 0x03], need (r.keyOk (s.ring g.place.ctx) false) 0x07,
        firstOf [need r.plainOk 0x08,
          need (r.fmt != 5 || (starts.getD 0 0 % 2 == 0 && counts.getD 0 0 % 2 == 0)) 0x01],
        need (boxOk r starts counts) 0x09, need (s.complInside [s.teamOf g] g.place.part cm) 0x06],
      { g.command s.nextId (.copy dst (cellBox r starts) (cellBox r counts)) cm gran n with
        recs := [rr.parts.1], reads := r.boxRange (cellBox r starts) (cellBox r counts),
        writes := denseRange false dst (n * r.cell) })

/-- CPY (R290). -/
def execCpy (a : Nat) (cm : Compl) (gran : Nat) (s : State) : Out :=
  engineInstr s [] a fun g b =>
    match yieldTarget s g cm with
    | (s, t) =>
      match s.copyChecks g b cm gran with
      | (s, checks, c) => s.engineIssue g t checks cm c 0

/-! ## Matrix commands (R295 to R301) -/

/-- Rows or columns of an M or N code. -/
def mnSize (code : Nat) : Nat := 16 * 2 ^ code

/-- The segment table of an indexed B: its entries in the team's scratch (R300). DESIGN CHOICE (log 87): no check of its bytes for
an uncorrectable error is stated, and none is made. -/
def State.segTable (s : State) (t : Option Team) (part off n : Nat) : Option (List Nat) :=
  match t with
  | none => none
  | some t =>
    if off + 2 * n > t.size then none
    else (List.range n).mapM fun i => (s.teamScratch t part (off + 2 * i)).map fun l => leNat (s.locRead l 2)

/-- The checks of an MMAC block, steps 2 to 8, and the command (R298 to R300). -/
def State.mmacChecks (s : State) (g : Group) (b : List Word) : State × List (Option Nat) × Cmd :=
  match s.readRecord g.engineAgent (blkAddr b 0) with
  | (s, ra) =>
    match s.readRecord g.engineAgent (blkAddr b 2) with
    | (s, rb) =>
      let x := TRec.ofBytes ra.parts.1
      let y := TRec.ofBytes rb.parts.1
      let w := blkWord b 4
      let m := mnSize (bits w 2 2)
      let n := mnSize (bits w 4 2)
      let k := bits w 16 16
      let row0 := blkWord b 5 % 65536
      let ka0 := blkWord b 5 / 65536
      let kb0 := blkWord b 6 % 65536
      let col0 := blkWord b 6 / 65536
      let w7 := blkWord b 7
      let cnt := bits w7 20 8
      let segs := s.segTable (s.teamOf g) g.place.part (bits w7 0 20) cnt
      let bStart := if bit w 7 then [kb0, col0] else [col0, kb0]
      let bCount := if bit w 7 then [k, n] else [n, k]
      let bRange := if y.indexed then [{ scratch := false, lo := 0, hi := 2 ^ 64 - 1 }]
        else y.elemRange (bStart ++ [0, 0]) (bCount ++ [1, 1])
      (s, [none,
          firstOf [need (bits w 2 2 != 3 && bits w 4 2 != 3 && bits w 13 3 == 0 && decide (bits w 8 4 < 12) &&
              k != 0 && k % 32 == 0) 0x01, need (decide (bits w 0 2 < g.info.tiles)) 0x02],
          firstOf [ra.parts.2, rb.parts.2],
          firstOf [need (x.keyOk (s.ring g.place.ctx) false) 0x07, need (y.keyOk (s.ring g.place.ctx) false) 0x07],
          firstOf [need (x.plainOk && y.okAsB) 0x08, need (x.mclass != 0 && x.mclass == y.mclass) 0x08,
            need (!bit w 12 || x.mclass == 4) 0x01,
            need (if y.indexed then w7 % 2 == 0 && cnt != 0 && bits w7 28 4 == 0 else w7 == 0) 0x01],
          firstOf [need (boxOk x [ka0, row0] [k, m]) 0x09,
            need (if y.indexed then decide (cnt * y.segrows ≥ m) else boxOk y bStart bCount) 0x09],
          firstOf [need (!y.indexed || !s.banksChange g.place.core) stallCode, need (!y.indexed || segs.isSome) 0x06]],
        { g.command s.nextId (.mmac b (segs.getD [])) .none (bits w 8 4) (m * n) with
          recs := [ra.parts.1, rb.parts.1],
          reads := x.elemRange [ka0, row0, 0, 0] [k, m, 1, 1] ++ bRange,
          batch := some g.openBatch })

/-- MMAC (R298). -/
def execMmac (a : Nat) (s : State) : Out :=
  engineInstr s [] a fun g b =>
    match s.mmacChecks g b with
    | (s, checks, c) => s.engineIssue g (some 0) checks .none c 1

/-- The tiles of a mask. -/
def tilesIn (mask : Nat) : List Nat := (List.range 4).filter fun t => bit mask t

/-- MZRO (R301). -/
def execMzro (a : Nat) (s : State) : Out :=
  engineInstr s [] a fun g b =>
    let w := blkWord b 0
    let c := { g.command s.nextId (.mzro w) .none 0 (4096 * (tilesIn w).length) with
      cards := 0, batch := some g.openBatch }
    s.engineIssue g (some 0) [need (decide (w < 16) && (b.drop 1).all (· == 0)) 0x01,
      need ((tilesIn w).all fun t => decide (t < g.info.tiles)) 0x02] .none c 1

/-- MACC (R301). -/
def execMacc (a : Nat) (s : State) : Out :=
  engineInstr s [] a fun g b =>
    let w := blkWord b 0
    let d := bits w 0 2
    let e := bits w 2 2
    let c := { g.command s.nextId (.macc d e (bit w 4) (bit w 5)) .none 0 4096 with
      cards := 0, batch := some g.openBatch }
    s.engineIssue g (some 0) [need (decide (w < 64) && !(bit w 5 && !bit w 4) && (b.drop 1).all (· == 0)) 0x01,
      need (decide (d < g.info.tiles) && decide (e < g.info.tiles)) 0x02] .none c 1

/-- CPYM: the steps of R284 are made across the two blocks; the follow-on joins the open batch (R291). -/
def execCpym (a gran m : Nat) (s : State) : Out :=
  engineInstr s (regSpan m 8) a fun g b =>
    match s.copyChecks g b .none gran with
    | (s, ck, c) =>
      match s.mmacChecks g ((List.range 8).map fun i => g.getS (m + i)) with
      | (s, mk, f) =>
        match firstOf ((ck.zip mk).flatMap fun (x, y) => [x, y]) with
        | some code => .next (if code = stallCode then s else s.scalarTrap g code 0)
        | none =>
          if !s.roomFor g 2 1 then .next s
          else
            let s := s.addCmd c
            .next ((s.addCmd { f with id := s.nextId, waitsFor := some c.id }).setGroup (g.advance 2))

/-- MFNC: the open batch is closed (R296). -/
def execMfnc (d : Nat) (s : State) : Out :=
  scalarOp s [d] 2 fun g =>
    { g.setS d (BitVec.ofNat 32 (g.openBatch % 65536)) with batch := g.openBatch, openBatch := g.openBatch + 1 }

/-- The batch number that a wait for n waits for: one that is not closed stands for `%batch` (R297). -/
def Group.waitBatch (g : Group) (n : Nat) : Nat :=
  let d := (n + 65536 - g.batch % 65536) % 65536
  if 1 ≤ d && d ≤ 32767 then g.batch % 65536 else n

/-- The numbers of the closed batches that have not completed, oldest first. -/
def Group.openWork (g : Group) : List Nat :=
  (List.range (g.batch - g.doneBatch)).map fun i => (g.doneBatch + 1 + i) % 65536

/-- Has every closed batch numbered n or lower completed (R295, R297)? -/
def Group.batchDone (g : Group) (n : Nat) : Bool :=
  g.openWork.all fun b => decide (32768 ≤ (n % 65536 + 65536 - b) % 65536)

/-- The wait of MWAIT, a wait instruction: the batch number is fixed when it issues. -/
def matrixWait (s : State) (regs : List Nat) (n : Group → Nat) : Out :=
  scalarInstr s regs fun g =>
    takeAsync s g g.spc
      (let k := match g.wait with
        | some (.num k) => k
        | _ => g.waitBatch (n g)
      if g.batchDone k then .next (s.setGroup (g.advance 2)) else .next (s.waitIn g (.num k)))

/-- MWAIT (R297). -/
def execMwait (n : Nat) (s : State) : Out := matrixWait s [] fun _ => n

/-- MWAIT.r (R297). -/
def execMwaitR (b : Nat) (s : State) : Out := matrixWait s [b] fun g => (g.getS b).toNat % 65536

/-! ## Multicast (R292) -/

/-- The cores of a multicast mask: bit i names core 72·g + i of the issuing cluster's sector. -/
def maskCores (g : Group) (mask : Nat) : List Nat :=
  ((List.range 72).filter fun i => bit mask i).map fun i => 72 * sectorOf g.place.core + i

/-- The team that a multicast reaches on a core: on the issuing core the issuing team, elsewhere a team of the launch. -/
def State.castTeam (s : State) (a : Agent) (core : Nat) : Option Team :=
  if core = a.core then s.team? a.launch a.blk a.team else s.remoteTeam a core

/-- MCAST (R292). -/
def execMcast (a : Nat) (cm : Compl) (gran : Nat) (s : State) : Out :=
  engineInstr s [] a fun g b =>
    match yieldTarget s g cm with
    | (s, target) =>
    match s.readRecord g.engineAgent (blkAddr b 0) with
    | (s, rr) =>
      let r := TRec.ofBytes rr.parts.1
      let off := blkWord b 2 % 2 ^ 20
      let starts := [blkWord b 3 % 65536, blkWord b 3 / 65536, 0, 0]
      let counts := [blkWord b 4 % 65536, blkWord b 4 / 65536, 1, 1]
      let mask := blkWord b 5 + 2 ^ 32 * blkWord b 6 + 2 ^ 64 * (blkWord b 7 % 256)
      let cores := maskCores g mask
      let teams := cores.map (s.castTeam g.engineAgent)
      let cells := product (cellBox r counts)
      let n := if cores.isEmpty then 0 else cells
      let checks := [need g.isProducer 0x0A, firstOf [need (decide (blkWord b 2 < 2 ^ 20) && decide (blkWord b 7 < 256)) 0x01, taskOk cm],
        firstOf [rr.parts.2, need (off % r.cell == 0) 0x03], need (r.keyOk (s.ring g.place.ctx) false) 0x07,
        firstOf [need r.plainOk 0x08,
          need (r.fmt != 5 || (starts.getD 0 0 % 2 == 0 && counts.getD 0 0 % 2 == 0)) 0x01],
        need (boxOk r starts counts) 0x09,
        need (teams.all (fun t => (t.map fun t => decide (off + n * r.cell ≤ t.size)).getD false) &&
          s.complInside teams g.place.part cm) 0x06]
      let c := { g.command s.nextId (.mcast off (cellBox r starts) (cellBox r counts) cores) cm gran (n * cores.length) with
        recs := [rr.parts.1], reads := if n = 0 then [] else r.boxRange (cellBox r starts) (cellBox r counts),
        writes := denseRange true off (n * r.cell) }
      s.engineIssue g target checks cm c 0

/-! ## Gather and scatter (R293) -/

/-- The checks and the command of GATH or SCAT. -/
def indexedCopy (s : State) (a : Nat) (cm : Compl) (gran : Nat) (scatter : Bool) : Out :=
  engineInstr s [] a fun g b =>
    match yieldTarget s g cm with
    | (s, target) =>
    match s.readRecord g.engineAgent (blkAddr b 0) with
    | (s, rr) =>
      let r := TRec.ofBytes rr.parts.1
      let dense := blkAddr b 2
      let list := blkAddr b 4
      let n := blkWord b 6
      let t0 := blkWord b 7 % 65536
      let c0 := blkWord b 7 / 65536
      let cc := c0 / r.perCell
      let checks := [firstOf [need (decide (n ≤ 2 ^ 24)) 0x01, taskOk cm],
        firstOf [rr.parts.2, need (list % 4 == 0) 0x03], need (r.keyOk (s.ring g.place.ctx) scatter) 0x07,
        firstOf [need r.plainOk 0x08, need (r.fmt != 5 || (t0 % 2 == 0 && c0 % 2 == 0)) 0x01],
        need (r.permit || decide (t0 + c0 ≤ r.ext.getD 0 0)) 0x09,
        need (s.complInside [s.teamOf g] g.place.part cm) 0x06]
      let span := denseRange false dense (n * cc * r.cell)
      let lists := denseRange false list (4 * n)
      let kind := if scatter then CmdKind.scat dense list n (t0 / r.perCell) cc
        else CmdKind.gath dense list n (t0 / r.perCell) cc
      let c := { g.command s.nextId kind cm gran (n + n * cc) with
        recs := [rr.parts.1], reads := (if scatter then span else r.wholeRange) ++ lists,
        writes := if scatter then r.wholeRange else span }
      s.engineIssue g target checks cm c 0

/-- GATH (R293). -/
def execGath (a : Nat) (cm : Compl) (gran : Nat) (s : State) : Out := indexedCopy s a cm gran false

/-- SCAT (R293). -/
def execScat (a : Nat) (cm : Compl) (gran : Nat) (s : State) : Out := indexedCopy s a cm gran true

/-! ## Messages (R304 to R307) -/

/-- MSND (R304): s(D) is owed until the message is answered. -/
def execMsnd (d a : Nat) (cm : Compl) (s : State) : Out :=
  engineInstr s [d] a fun g b =>
    let len := blkWord b 2
    let c := { g.command s.nextId (.send (blkAddr b 0) len (blkWord b 3) (blkWord b 4) d false) cm 0 len with
      reads := denseRange false (blkAddr b 0) len }
    match yieldTarget s g cm with
    | (s, target) =>
    s.engineIssue g target [need (decide (1 ≤ len) && decide (len ≤ 4096) && decide (blkWord b 3 ≤ 71) &&
      decide (blkWord b 4 < 65536) && (b.drop 5).all (· == 0)) 0x01, taskOk cm,
      need (s.complInside [s.teamOf g] g.place.part cm) 0x06] cm c 0

/-- Does a message match a receive (R305, R306)? -/
def msgMatches (src tag : Nat) (m : Msg) : Bool := m.tag == tag && (src == 0x7F || m.src == src)

/-- The overflow entries of a cluster and context, oldest arrival first. -/
def State.overflowOf (s : State) (cl x : Nat) : List Overflow :=
  s.units.overflow.filter fun o => o.cluster == cl && o.ctx == x

/-- Are the source and tag fields of a receive legal? -/
def recvFields (b : List Word) : Bool :=
  (decide (blkWord b 3 ≤ 71) || blkWord b 3 == 0x7F) && decide (blkWord b 4 < 65536)

/-- MPST (R305): an overflow entry is delivered at once; a full share of posted receives refuses. DESIGN CHOICE (log 87): the
stream of an MPST.yield that is refused, which has no completion, goes on at the next instruction. -/
def execMpst (d a : Nat) (cm : Compl) (s : State) : Out :=
  engineInstr s [d] a fun g b =>
    let p := g.place
    let cl := clusterOf p.core
    let len := blkWord b 2
    let src := blkWord b 3
    let tag := blkWord b 4
    let status := blkAddr b 5
    match yieldTarget s g cm with
    | (s, target) =>
    match firstOf [need target.isSome 0x01, need (decide (1 ≤ len) && decide (len ≤ 4096) && recvFields b && blkWord b 7 == 0) 0x01, taskOk cm,
      need (status % 16 == 0) 0x03, need (s.complInside [s.teamOf g] p.part cm) 0x06] with
    | some code => .next (s.scalarTrap g code 0)
    | none =>
      if !s.roomFor g 1 0 then .next s
      else
        let got := (s.overflowOf cl p.ctx).find? fun o => msgMatches src tag o.msg
        let mk (m : Option Msg) : Cmd :=
          { g.command s.nextId (.recv (blkAddr b 0) len src tag status m) cm 0
              ((m.map fun m => min m.len len + 4).getD 0) with
            writes := denseRange false (blkAddr b 0) len }
        let target := target.getD 0
        match got with
        | some o =>
          let s' := s.modUnits fun u => { u with overflow := u.overflow.erase o }
          .next ((s'.addCmd (mk (some { o.msg with fromQ := true }))).setGroup ((g.setS d 1).issued cm s.nextId target))
        | none =>
          if (s.units.posted.filter fun r => r.cluster == cl && r.part == p.part).length ≥ s.recvShare cl p.part then
            .next (s.setGroup ((g.setS d 0x80000001).advance 2))
          else
            let r : Posted := { cluster := cl, cmd := s.nextId, ctx := p.ctx, part := p.part, src := src, tag := tag }
            let s' := s.modUnits fun u => { u with posted := u.posted ++ [r] }
            .next ((s'.addCmd (mk none)).setGroup ((g.setS d 0).issued cm s.nextId target))

/-- MPRB: the length of the oldest matching overflow entry (R307). -/
def execMprb (d a : Nat) (s : State) : Out :=
  engineInstr s [d] a fun g b =>
    if recvFields b && ([0, 1, 2, 5, 6, 7].all fun i => blkWord b i == 0) then
      let e := (s.overflowOf (clusterOf g.place.core) g.place.ctx).find? fun o =>
        msgMatches (blkWord b 3) (blkWord b 4) o.msg
      .next (s.setGroup ((g.setS d (match e with
        | some o => BitVec.ofNat 32 o.msg.len
        | none => 0xFFFFFFFF)).advance 2))
    else .next (s.scalarTrap g 0x01 0)

/-! ## The record fence (R309) -/

/-- RCFNC: a release at scope 2, then every entry of the context leaves the record caches of the block's clusters. -/
def execRcfnc (s : State) : Out :=
  scalarInstr s [] fun g =>
    s.syncThen g .rel .block false fun s g =>
      let p := g.place
      let cls := (s.units.teams.filter fun t => t.launch == p.launch && t.blk == p.blk).map fun t => clusterOf t.core
      let s := s.modUnits fun u => { u with
        recs := u.recs.filter fun e => !(e.ctx == p.ctx && cls.contains e.cluster) }
      .next (s.setGroup (g.advance 2))

end Sys2Proof.Machine
end

