-- ==== Sys2Proof/Machine/Sync.lean ====
section
/-! DEFINITION. Barriers, byte-count barriers, events, device launches, tasks, job control blocks and timed waits (R319 to
R340, R357), with the steps of the units behind them. -/
namespace Sys2Proof.Machine

/-! ## Barriers (R320 to R322) -/

/-- Is a barrier record barrier n of the group's team, or of its block? -/
def Barrier.isOf (k : Barrier) (g : Group) (block : Bool) (n : Nat) : Bool :=
  k.launch == g.place.launch && k.blk == g.place.blk && k.n == n &&
    k.team == (if block then none else some g.place.team)

/-- The group arrives at a barrier once; what it had to leave from an earlier opening is past. -/
def Barrier.arrive (k : Barrier) (gid : Nat) : Barrier :=
  { k with
    arrived := if k.arrived.contains gid then k.arrived else k.arrived ++ [gid]
    leaving := k.leaving.filter (· != gid) }

/-- The group is recorded as arrived (R321). -/
def State.arriveAt (s : State) (g : Group) (block : Bool) (n : Nat) : State :=
  s.modUnits fun u => { u with
    barriers :=
      if u.barriers.any (·.isOf g block n) then
        u.barriers.map fun k => if k.isOf g block n then k.arrive g.gid else k
      else u.barriers ++
        [{ launch := g.place.launch, blk := g.place.blk, team := if block then none else some g.place.team, n := n,
           arrived := [g.gid], leaving := [] }] }

/-- BAR (R320, R321): the release, the arrival, the wait for the opening, and when the group is released the acquire. -/
def execBar (block : Bool) (n : Nat) (s : State) : Out :=
  scalarInstr s [] fun g =>
    match g.wait with
    | some (.barrier _ _) => .next s
    | some .released =>
      if s.arrived (s.valuesOf g.gid 0) then
        .next ((s.acquireCore g.place.core g.place.part).setGroup ((g.acquires s).advance 2))
      else .next s
    | _ =>
      s.syncThen g .rel (if block then .block else .team) false fun s g =>
        .next (((s.arriveAt g block n).openBarriers).setGroup { g with wait := some (.barrier block n) })

/-- BARRIER_RELEASE_WAVE (R322): one cluster releases its next WAVE + 1 groups of an opened barrier, in the order of their
arrival. A suspended group leaves in a wave after its resume (R321). -/
def execBarrierReleaseWave (cluster k : Nat) (s : State) : Out :=
  match s.units.barriers[k]? with
  | none => .next s
  | some b =>
    let here (gid : Nat) : Bool :=
      (s.group? gid).any fun g => clusterOf g.place.core == cluster && !g.suspended &&
        g.place.launch == b.launch && g.place.blk == b.blk
    let out := (b.leaving.filter here).take ((s.cluster cluster).wave + 1)
    let f (g : Group) : Group :=
      if out.contains g.gid then
        g.mapWait fun w => if w == some (.barrier b.team.isNone b.n) then some .released else w
      else g
    let b' : Barrier := { b with leaving := b.leaving.filter fun i => !out.contains i }
    let s := s.modUnits fun u => { u with
      barriers := if b'.arrived.isEmpty && b'.leaving.isEmpty then removeNth k u.barriers
        else modifyNth (fun _ => b') k u.barriers }
    .next { s with groups := s.groups.map f }

/-! ## Byte-count barriers (R323 to R326) -/

/-- Sends an operation of a group to a byte-count barrier of its team. -/
def State.sendBar (s : State) (g : Group) (off cls bytes : Nat) : State :=
  s.modUnits fun u => { u with
    arrivals := u.arrivals ++ [{ core := g.place.core, addr := off, launch := g.place.launch, blk := g.place.blk,
                                 team := g.place.team, cls := cls, bytes := bytes, grp := g.gid, pc := g.spc }] }

/-- The checks of BARP and BARA, in their order: the code of the first that fails (R325). -/
def State.barCheck (s : State) (g : Group) (off : Nat) (countOk : Bool) : Option Nat :=
  if off % 16 != 0 then some 0x01
  else if !s.barInside (s.teamOf g) g.place.part off then some 0x06
  else if !countOk then some 0x01
  else none

/-- BARP (R325): it orders no access, and no earlier access of its stream orders it, not even to the barrier's bytes (R395,
log 42). -/
def execBarp (a off : Nat) (s : State) : Out :=
  scalarInstr s [a] fun g =>
    let n := (g.getS a).toNat
    match s.barCheck g off (decide (1 ≤ n) && decide (n ≤ 2 ^ 30)) with
    | some code => .next (s.scalarTrap g code 0)
    | none => .next ((s.sendBar g off 2 n).setGroup (g.advance 2))

/-- BARA: its checks are made, and its count is read, before its release (R39, R325). -/
def execBara (a off : Nat) (s : State) : Out :=
  scalarInstr s [a] fun g =>
    let n := g.operand (g.getS a).toNat
    match (if g.begun then none else s.barCheck g off (decide (n ≤ 2 ^ 30))) with
    | some code => .next (s.scalarTrap g code 0)
    | none =>
      s.syncWith g .rel .team false n fun s g =>
        .next ((if n = 0 then s else s.sendBar g off 1 n).setGroup (g.advance 2))

/-- Has phase p completed, by the phase number that a barrier shows (R326)? -/
def phaseDone (phase p : Nat) : Bool :=
  let d := (phase + 65536 - p % 65536) % 65536
  decide (1 ≤ d) && decide (d ≤ 32767)

/-- BARW: a wait instruction; the phase is fixed when it issues (R326). It does not read a bank that is to change its use
(R375). -/
def execBarw (d a off : Nat) (s : State) : Out :=
  scalarInstr s [d, a] fun g =>
    takeAsync s g g.spc
      (match (if g.begun then none else s.barCheck g off true) with
      | some code => .next (s.scalarTrap g code 0)
      | none =>
        let p := match g.wait with
          | some (.num p) => p
          | _ => (g.getS a).toNat % 65536
        let w := ((s.teamOf g).bind fun t => s.teamWord t g.place.part (off + 4)).getD 0
        let stalls := ((s.teamOf g).bind fun t => s.teamScratch t g.place.part (off + 4)).any s.bankStalls
        if phaseDone (w % 65536) p && !stalls then
          .next ((s.acquireCore g.place.core g.place.part).setGroup (((g.acquires s).setS d (BitVec.ofNat 32 w)).advance 2))
        else .next (s.waitIn g (.num p)))

/-- A byte-count barrier: COUNT, PHASE, POSTED, OVR, LASTPOST. -/
structure ByteBar where
  count : Nat
  phase : Nat
  posted : Bool
  ovr : Bool
  last : Nat
  deriving DecidableEq, Repr

/-- The barrier in 16 bytes. -/
def ByteBar.ofBytes (l : List Byte) : ByteBar :=
  let w := leAt l 4 4
  { count := leAt l 0 4, phase := bits w 0 16, posted := bit w 16, ovr := bit w 17, last := leAt l 8 4 }

/-- The 16 bytes of a barrier: ignored fields are written 0 (R323). -/
def ByteBar.bytes (b : ByteBar) : List Byte :=
  leBytes 4 b.count ++
    leBytes 4 (b.phase + (if b.posted then 2 ^ 16 else 0) + (if b.ovr then 2 ^ 17 else 0)) ++ leBytes 4 b.last ++ leBytes 4 0

/-- A posted phase whose count is not positive completes (R324). -/
def ByteBar.complete (b : ByteBar) : ByteBar :=
  if b.posted && decide (toSigned 32 b.count ≤ 0) then
    { b with ovr := decide (toSigned 32 b.count < 0), phase := (b.phase + 1) % 65536, posted := false, last := 0 }
  else b

/-- n bytes arrive (R324). -/
def ByteBar.arrive (b : ByteBar) (n : Nat) : ByteBar :=
  { b with count := wrapTo 32 ((b.count : Int) - n) }.complete

/-- n bytes are posted (R324). -/
def ByteBar.post (b : ByteBar) (n : Nat) : ByteBar :=
  { b with count := (b.count + n) % 2 ^ 32, last := (b.last + n) % 2 ^ 32, posted := true }.complete

/-- BYTE_BARRIER_ARRIVE (R324): the bank performs one operation whole; those that a core sends reach it in the order in which
they were sent (R315). An arrival of an engine at a barrier outside its team's
scratch is not made, and is a fault (R285). -/
def execByteBarrierArrive (k : Nat) (s : State) : Out :=
  match s.units.arrivals[k]? with
  | none => .next s
  | some a =>
    if s.banksChange a.core || (a.cls != 0 && (s.units.arrivals.take k).any (fun b => b.cls != 0 && b.core == a.core)) then
      .next s
    else
    let s := s.modUnits fun u => { u with arrivals := removeNth k u.arrivals }
    let team := s.units.teams.find? fun t => t.launch == a.launch && t.blk == a.blk && t.core == a.core
    let part := ((s.launch? a.launch).map fun l => (s.ctx l.ctx).part).getD 0
    match (if s.barInside team part a.addr then team.bind fun t => s.teamScratch t part a.addr else none) with
    | some l =>
      let b := ByteBar.ofBytes (s.locRead l 16)
      .next (s.locWrite l (if a.cls = 2 then b.post a.bytes else b.arrive a.bytes).bytes)
    | none => .next (if a.cls = 0 then s.asyncFault a.grp 0x0F 0x06 0 a.pc 0 else s)

/-! ## Events (R327 to R329) -/

/-- EVSET (R328). -/
def execEvset (n : Nat) (s : State) : Out :=
  scalarInstr s [] fun g =>
    if n ≥ 248 then .next (s.scalarTrap g 0x01 0)
    else s.syncThen g .rel .dev false fun s g => .next ((s.raiseEvent (clusterOf g.place.core) g.place.ctx n).setGroup (g.advance 1))

/-- EVCLR (R328). -/
def execEvclr (n : Nat) (s : State) : Out :=
  scalarInstr s [] fun g =>
    let s := s.modCtx g.place.ctx fun c => { c with evOps := c.evOps ++
      [{ src := clusterOf g.place.core, set := false, bit := n }] }
    .next (s.setGroup (g.advance 1))

/-- EVWAIT: a wait instruction (R328). -/
def execEvwait (n : Nat) (s : State) : Out :=
  scalarInstr s [] fun g =>
    takeAsync s g g.spc
      (if g.wait == some .seen || (s.eventVector g.place.ctx).getLsbD n then
        .next ((s.acquireCore g.place.core g.place.part).setGroup ((g.acquires s).advance 1))
      else .next (s.waitIn g (.event n)))

/-- One change of a vector. -/
def evApply (v : BitVec 256) (o : EvOp) : BitVec 256 :=
  if o.set then v ||| (1#256 <<< o.bit) else v &&& ~~~(1#256 <<< o.bit)

/-- A group of the context that waits for a bit that is 1 has seen it (R328); a suspended one looks again on resume (R319). -/
def State.showEvents (s : State) (x : Nat) : State :=
  let v := s.eventVector x
  let f (g : Group) : Group :=
    if g.place.ctx == x && !g.suspended then
      g.mapWait fun w => match w with
        | some (.event n) => if v.getLsbD n then some .seen else w
        | w => w
    else g
  { s with groups := s.groups.map f }

/-- How many changes of a vector have reached the dispatcher from each port: a free number, as each port's stand in the order
in which they were sent (R315). -/
def State.evQuota (s : State) (ops : List EvOp) (src : Nat) : Nat :=
  let srcs := (ops.map (·.src)).eraseDups
  Config.freeNat (s.draws + srcs.idxOf src) % ((ops.filter fun o => o.src == src).length + 1)

/-- Has the i-th change reached the dispatcher? -/
def State.evHere (s : State) (ops : List EvOp) (o : EvOp) (i : Nat) : Bool :=
  decide (((ops.take i).filter fun e => e.src == o.src).length < s.evQuota ops o.src)

/-- The changes of a vector that have reached the dispatcher, or those that have not. -/
def State.evSplit (s : State) (ops : List EvOp) (here : Bool) : List EvOp :=
  (ops.zip (List.range ops.length)).filterMap fun (o, i) => if s.evHere ops o i == here then some o else none

/-- EVENT_VECTOR_UPDATE (R315, R329): the changes that have reached the dispatcher apply, clears before sets, and waiters see
the vector as it then stands. -/
def execEventVectorUpdate (x : Nat) (s : State) : Out :=
  let c := s.ctx x
  let now := s.evSplit c.evOps true
  let v := ((now.filter fun o => !o.set) ++ now.filter (·.set)).foldl evApply c.ev
  let s' := { s with draws := s.draws + c.evOps.length }
  .next ((s'.modCtx x fun c => { c with ev := v, evOps := s.evSplit c.evOps false }).showEvents x)

/-! ## Launches and tasks (R332, R333) -/

/-- A launch packet's fields before IMAGE that R330 makes illegal: SETMASK[255:248] or 0x40[7:1]. -/
def packetBad (p : List Byte) : Bool := p.getD 0x3F 0 != 0 || bits (leAt p 0x40 1) 1 7 != 0

/-- LAUNCH (R332): the release, the read at the address that it formed at issue (R39), and the packet's fate. A launch that a
tear-down discards counts in LDISCARD (R360). -/
def execLaunch (d a : Nat) (off : Int) (s : State) : Out :=
  scalarInstr s [d, a, a + 1] fun g =>
    if g.scalarHeld && !g.begun then .next s
    else
      let ea := g.operand (scalarEa g a off)
      s.syncWith g .rel .dev false ea fun s g =>
        match s.check g.agent .load ea 256 with
        | (s, .fail _ c) => .next (s.scalarTrap g c 0)
        | (s', .ok l) =>
          if s'.bankStalls l || s'.bankStalls (l.plus 128) then .next s else
          match s'.coreRead g l 128 with
          | (s, lo) =>
            match s.coreRead g (l.plus 128) 128 with
            | (s, hi) =>
              let put (s : State) (w : Word) : Out := .next (s.setGroup ((g.setS d w).advance 2))
              let x := g.place.ctx
              if packetBad (lo ++ hi) then put s 2
              else if (s.ctx x).dead then put (s.modCtx x fun c => { c with ldiscard := c.ldiscard + 1 }) 3
              else if (s.ctx x).dq.length ≥ 64 then put s 1
              else put (s.modCtx x fun c => { c with dq := c.dq ++ [lo ++ hi] }) 0

/-- TSIG (R333). -/
def execTsig (id : Nat) (s : State) : Out :=
  scalarInstr s [] fun g =>
    if id ≥ 1024 then .next (s.scalarTrap g 0x01 0)
    else
      s.syncThen g .rel .dev false fun s g =>
        .next ((s.modUnits fun u => { u with decrements := u.decrements ++
          [(clusterOf g.place.core, g.place.ctx, id)] }).setGroup (g.advance 2))

/-- The entry becomes unarmed; its packet, with ARM read as 0, goes to the device queue if that has room, and else waits
(R347). -/
def startTask (c : Ctx) (id : Nat) : Ctx :=
  let t := tget Task.reset c.tasks id
  let packet := leSet t.packet 0x60 4 (setBits (leAt t.packet 0x60 4) 10 1 0)
  let c := { c with tasks := tdel c.tasks id }
  if c.dq.length < 64 && c.waiting.isEmpty then { c with dq := c.dq ++ [packet] }
  else { c with waiting := c.waiting ++ [packet] }

/-- TASK_DECREMENT (R315, R333, R347): the k-th decrement under way is performed, after those that its port sent before it; one of a counter that is not armed is counted as
discarded. -/
def execTaskDecrement (k : Nat) (s : State) : Out :=
  match s.units.decrements[k]? with
  | none => .next s
  | some (src, x, id) =>
    if (s.units.decrements.take k).any fun e => e.1 == src then .next s
    else
    let s := s.modUnits fun u => { u with decrements := removeNth k u.decrements }
    .next (s.modCtx x fun c =>
      let t := tget Task.reset c.tasks id
      if !t.armed || t.counter == 0 then { c with sigdisc := c.sigdisc + 1 }
      else if t.counter = 1 then startTask c id
      else { c with tasks := tset c.tasks id { t with counter := t.counter - 1 } })

/-! ## Job control blocks (R334, R335) -/

/-- A job control block. -/
structure Job where
  expect : Nat
  count : Nat
  evbit : Nat
  fired : Bool
  /-- no reserved bit is set, and EVBIT is at most 247 -/
  valid : Bool
  deriving DecidableEq, Repr

/-- The block in 64 bytes. -/
def Job.ofBytes (l : List Byte) : Job :=
  let w := leAt l 8 4
  { expect := leAt l 0 4, count := leAt l 4 4, evbit := bits w 0 8, fired := bit w 8,
    valid := bits w 9 23 == 0 && decide (bits w 0 8 ≤ 247) && (l.drop 12).all (· == 0) }

/-- The 64 bytes of a valid block. -/
def Job.bytes (j : Job) : List Byte :=
  leBytes 4 j.expect ++ leBytes 4 j.count ++ leBytes 4 (j.evbit + if j.fired then 256 else 0) ++ List.replicate 52 0

/-- The block that an instruction addresses: the checks of R124 as an atomic of size 64, and target type 0. -/
def jobAt (s : State) (g : Group) (ea : Nat) (k : State → Nat → Out) : Out :=
  match s.check g.agent (.atomic true) ea 64 with
  | (s, .fail _ c) => .next (s.scalarTrap g c 0)
  | (s, .ok (.hbm pa)) => k s pa
  | (s, .ok _) => .next (s.scalarTrap g 0x06 0)

/-- A job control block is written at its home slice. -/
def State.putJob (s : State) (x core pa : Nat) (j : Job) : State :=
  (s.writeBy x .dflt (.hbm pa) j.bytes).dropCopies core (.hbm pa)

/-- The block at its home slice, which performs first what is left of a store to its line (R212). -/
def State.atJob (s : State) (pa : Nat) (k : State → Job → Out) : Out :=
  let s := s.finishWide (.hbm pa)
  k s (Job.ofBytes (s.locRead (.hbm pa) 64))

/-- JRAISE at the home slice: the stream waits for it with the address and the amount that it had at issue (R39, R335). -/
def State.raiseJob (s : State) (g : Group) (pa n : Nat) : Out :=
  if s.homeOwes g (.hbm pa) 64 then .next (s.waitIn g (.home pa n))
  else
    s.atJob pa fun s j =>
      if !j.valid || j.expect + n ≥ 2 ^ 32 then .next (s.scalarTrap g 0x14 0x05)
      else if j.fired then .next (s.scalarTrap g 0x14 0x03)
      else .next ((s.putJob g.place.ctx g.place.core pa { j with expect := j.expect + n }).setGroup (g.advance 2))

/-- JRAISE (R335). -/
def execJraise (d a : Nat) (off : Int) (s : State) : Out :=
  scalarInstr s [d, a, a + 1] fun g =>
    match g.wait with
    | some (.home pa n) => s.raiseJob g pa n
    | _ =>
      if g.scalarHeld then .next s
      else
        jobAt s g (scalarEa g a off) fun s pa =>
          if g.doneList.contains pa then .next (s.scalarTrap g 0x14 0x01) else s.raiseJob g pa (g.getS d).toNat

/-- A completion is counted; the block fires when COUNT reaches EXPECT (R334). -/
def State.jobDone (s : State) (x core pa : Nat) (j : Job) : State :=
  let fires := j.count + 1 == j.expect
  let s := s.putJob x core pa { j with count := j.count + 1, fired := fires }
  if fires then s.raiseEvent (slicePort (s.homeSlice (s.ctx x).part pa)) x j.evbit else s

/-- JDONE at the home slice, its release performed (R335). -/
def State.completeJob (s : State) (g : Group) (pa : Nat) : Out :=
  if s.fillPending (.hbm pa) then .next (s.waitIn g (.home pa 0))
  else
    s.atJob pa fun s j =>
      if !j.valid then .next (s.scalarTrap g 0x14 0x05)
      else if j.fired then .next (s.scalarTrap g 0x14 0x03)
      else if j.count == j.expect then .next (s.scalarTrap g 0x14 0x06)
      else
        .next ((s.jobDone g.place.ctx g.place.core pa j).setGroup ({ g with doneList := g.doneList ++ [pa] }.advance 2))

/-- JDONE: its checks are made, and its address is formed, before its release (R39, R335). -/
def execJdone (a : Nat) (off : Int) (s : State) : Out :=
  scalarInstr s [a, a + 1] fun g =>
    let release (s : State) (pa : Nat) : Out := s.syncWith g .rel .dev false pa fun s g => s.completeJob g pa
    match g.wait with
    | some (.home pa _) => s.completeJob g pa
    | some (.sync _ _ _ _ pa) => release s pa
    | _ =>
      if g.scalarHeld then .next s
      else
        jobAt s g (scalarEa g a off) fun s pa =>
          if g.doneList.contains pa then .next (s.scalarTrap g 0x14 0x02)
          else if g.doneList.length ≥ 16 then .next (s.scalarTrap g 0x14 0x04)
          else release s pa

/-! ## Yield, timed waits, tiles (R336 to R339, R357) -/

/-- Has the group nothing of its lane stream, that which a trap interrupted too, or of its engines under way (R353)? -/
def State.atRest (s : State) (g : Group) : Bool :=
  let idle (dq : List QBlock) (l : Lanes) : Bool := dq.isEmpty && !l.running
  idle g.dq g.lanes && g.trap.all (fun t => idle t.dq t.frame) && !s.units.cmds.any fun c => c.grp == g.gid

/-- Is a pre-emption of the group's block under way that has made a choice: 0 drain, 1 save (R351)? -/
def State.preempted (s : State) (g : Group) (choice : Nat) : Bool :=
  s.plat.clusters.any fun e => e.2.preempt.any fun p =>
    p.ctx == g.place.ctx && p.choice == choice && p.blocks.contains (g.place.launch, g.place.blk)

/-- YIELD (R336): the front-end passes over the group once. A group that drains stops before it, to be saved (R353). -/
def execYield (s : State) : Out :=
  scalarInstr s [] fun g =>
    if s.preempted g 0 && s.atRest g then .next s
    else .next (s.setGroup ({ g with yielded := true }.advance 1))

/-- The A-clock of a core's cluster pair, in units of 62.5 MHz: its setting, or 1.0 GHz while the junction is too hot (R4,
R390). -/
def State.aclkOf (s : State) (core : Nat) : Nat :=
  if s.plat.hot then 16 else tget aclkReset s.plat.aclk (pairOf (clusterOf core))

/-- The latest moment within one A-clock period and 2 ns of a deadline (R338). A period of setting f is 16 / f ns. -/
def State.lateBy (s : State) (core t : Nat) : Nat := (t * s.aclkOf core + 16) / s.aclkOf core + 2

/-- The timed wait for a deadline is over, and the next instruction is due (R338). -/
def State.timedEnd (s : State) (g : Group) (t : Nat) : State :=
  s.setGroup ({ g with due := some (s.lateBy g.place.core t) }.advance 1)

/-- A timed wait: a deadline that has passed at issue ends it; else it waits for its expiry (R338). -/
def timedWait (s : State) (regs : List Nat) (deadline : Group → Nat) : Out :=
  scalarInstr s regs fun g =>
    match g.wait with
    | some (.expired t) => .next (s.timedEnd g t)
    | some (.timed _) => .next s
    | _ =>
      if deadline g ≤ s.ns then .next (s.timedEnd g s.ns) else .next (s.waitIn g (.timed (deadline g)))

/-- SLEEPNS (R338). -/
def execSleepns (a : Nat) (s : State) : Out := timedWait s [a] fun g => s.ns + (g.getS a).toNat

/-- WAITNS (R338). -/
def execWaitns (a : Nat) (s : State) : Out := timedWait s [a, a + 1] fun g => (g.getS64 a).toNat

/-- Has a deadline come within one A-clock period and 2 ns (R338)? A period of setting f is 16 / f ns. -/
def State.timeUp (s : State) (core t : Nat) : Bool := decide (t * s.aclkOf core ≤ (s.ns + 2) * s.aclkOf core + 16)

/-- A timed wait whose group could not issue until moment n: it ends then if its deadline may end it and has passed. -/
def Wait.endAt (ends : Bool) (n : Nat) (w : Wait) : Wait :=
  match w with
  | .timed t => if ends && decide (t ≤ n) then .expired n else w
  | .expired t => .expired (max t n)
  | w => w

/-- A group that could not issue until moment n has one A-clock period and 2 ns from then on (R338, log 44). -/
def State.lateGroup (s : State) (ends : Bool) (n : Nat) (g : Group) : Group :=
  { g with wait := g.wait.map (Wait.endAt ends n), due := g.due.map fun d => max d (s.lateBy g.place.core n) }

/-- TIMED_WAIT_EXPIRY (R338, R339). -/
def execTimedWaitExpiry (gid : Nat) (s : State) : Out :=
  .next (s.modGroup gid fun g => g.mapWait fun w => match w with
    | some (.timed t) => if !g.suspended && s.timeUp g.place.core t then some (.expired t) else w
    | w => w)

/-- The groups of a context that have resumed look again at what they wait for: event bits, and deadlines that have passed
(R319, R339), whose waits end now. Other waits are evaluated whenever their instruction is. -/
def State.lookAgain (s : State) (x : Nat) : State :=
  let f (g : Group) : Group :=
    if g.place.ctx == x && !g.suspended then
      g.mapWait fun w => match w with
        | some (.timed t) => if t ≤ s.ns then some (.expired s.ns) else w
        | w => w
    else g
  { (s.showEvents x) with groups := (s.showEvents x).groups.map f }

/-- PPT (R357). -/
def execPpt (m : Nat) (s : State) : Out :=
  scalarInstr s [] fun g =>
    if (tilesIn m).any fun t => decide (t ≥ g.info.tiles) then .next (s.scalarTrap g 0x02 0)
    else .next (s.setGroup ({ g with liveTiles := m }.advance 1))

end Sys2Proof.Machine
end

