-- ==== Sys2Proof/Machine/Bundles.lean ====
section
/-! DEFINITION. Bundles and the Carillon (R227 to R248): placement, declaration, entering and leaving, admission, eviction
and the hold limit. -/
namespace Sys2Proof.Machine

/-! ## Placement (R229) -/

/-- How many of the lines fall into each set stays within the bundle ways? -/
def waysOk (sets : List Nat) (ways : Nat) : Bool := sets.eraseDups.all fun k => decide (sets.count k ≤ ways)

/-! ## Bundles -/

/-- The bundle with an id. -/
def State.bundle? (s : State) (id : Nat) : Option Bundle := s.units.bundles.find? fun b => b.id == id

/-- Changes a bundle. -/
def State.modBundle (s : State) (id : Nat) (f : Bundle → Bundle) : State :=
  s.modUnits fun u => { u with bundles := u.bundles.map fun b => if b.id == id then f b else b }

/-- The distinct lines of a set of bundles. -/
def State.linesOfIds (s : State) (ids : List Nat) : List Nat :=
  ((s.units.bundles.filter fun b => ids.contains b.id).flatMap (·.lines)).eraseDups

/-- Does the bundle occupy bundle ways: resident or filling (R233)? -/
def Bundle.occupies (b : Bundle) : Bool := b.state == .resident || b.state == .filling

/-- The distinct lines that bundles of a partition occupy, but for the bundles of a list (R233, R238). -/
def State.occupied (s : State) (part : Nat) (without : List Nat) : List Nat :=
  ((s.units.bundles.filter fun b => b.part == part && b.occupies && !without.contains b.id).flatMap (·.lines)).eraseDups

/-- Does a set of lines fit the partition's settings by itself (R232, R235)? -/
def State.fitsAlone (s : State) (part : Nat) (lines : List Nat) : Bool :=
  decide (lines.length ≤ (s.part part).blim) && waysOk (lines.map (s.setOf part)) (s.part part).bways

/-- Is some bundle held in a group's saved set (R247)? -/
def State.inSaved (s : State) (id : Nat) : Bool :=
  (s.groups.any fun g => (g.saved.map fun b => b.ids.contains id).getD false) ||
    s.units.saved.any fun k => k.groups.any fun g => (g.saved.map fun b => b.ids.contains id).getD false

/-- Does a waiting request name the bundle, of a resident group or of a saved one (R243, R247)? -/
def State.requested (s : State) (part id : Nat) : Bool :=
  ((s.part part).reqs.any fun r => r.grp != noGroup && r.ids.contains id) ||
    s.units.saved.any fun k => k.reqs.any fun r => r.ids.contains id

/-! ## Declaration (R230 to R232) -/

/-- The physical lines of n virtual lines from an address on; none when a line is bad (R231, R232). DESIGN
CHOICE (log 89): a line whose leaf is of type 0 but whose region the partition does not own is bad, which R232 does not list. -/
def State.extentLines (s : State) (a : Agent) (va : Nat) : Nat → Option (List Nat)
  | 0 => some []
  | n + 1 =>
    if !canonical va then none
    else
      match (s.translate a.core a.ctx a.part (va % 2 ^ 57)).2 with
      | .fault _ => none
      | .leaf pte size =>
        if !(bit pte 1 || bit pte 2) then none
        else
          match s.target a pte size (va % 2 ^ 57), State.extentLines s a (va + 128) n with
          | some (.hbm pa), some r => some (pa / 128 :: r)
          | _, _ => none

/-- The lines of a declaration; none when an extent is bad. -/
def State.declared (s : State) (a : Agent) (rec : List Byte) : Option (List Nat) :=
  let ext : List (Nat × Nat × Nat) := (List.range 8).map fun i => (leAt rec (16 * i) 8, leAt rec (16 * i + 8) 4, leAt rec (16 * i + 12) 4)
  if ext.any fun (base, _, pad) => pad != 0 || base % 128 != 0 then none
  else if ext.all fun (_, len, _) => len == 0 then none
  else
    match (ext.filter fun e => e.2.1 != 0).mapM fun e => s.extentLines a e.1 e.2.1 with
    | some l => some l.flatten.eraseDups
    | none => none

/-- The lowest id that is free device-wide. -/
def State.freeBundleId (s : State) : Option Nat :=
  (List.range 4096).find? fun i => (s.bundle? i).isNone

/-- Makes a bundle, or the code of the test that fails (R232). -/
def State.declare (s : State) (g : Group) (rec : List Byte) : State × Word :=
  let p := g.place.part
  let fail (c : Nat) : State × Word := (s, BitVec.ofNat 32 (0x80000000 + c))
  match s.declared { g.agent with handler := false } rec with
  | none => fail 4
  | some lines =>
    if lines.length > (s.part p).blim then fail 1
    else if !waysOk (lines.map (s.setOf p)) (s.part p).bways then fail 2
    else if (s.units.bundles.filter fun b => b.part == p).length ≥ (s.part p).bids then fail 3
    else
      match s.freeBundleId with
      | none => fail 3
      | some id =>
        let b : Bundle := { id := id, ctx := g.place.ctx, part := p, state := .declared, lines := lines, entries := 0,
                            lastLeave := 0, left := false, freed := false }
        (s.modUnits fun u => { u with bundles := u.bundles ++ [b] }, BitVec.ofNat 32 id)

/-- BDECL (R231). -/
def execBdecl (d a : Nat) (off : Int) (s : State) : Out :=
  scalarInstr s [d, a, a + 1] fun g =>
    if g.scalarHeld then .next s
    else
      match s.check g.agent .load (scalarEa g a off) 128 with
      | (s, .fail _ c) => .next (s.scalarTrap g c 0)
      | (s, .ok l) =>
        if s.scalarOwes g l 128 || s.bankStalls l then .next s
        else
          match s.coreRead g l 128 with
          | (s, rec) =>
            match s.declare g rec with
            | (s, w) => .next (s.setGroup ((g.setS d w).advance 2))

/-! ## Entering and leaving (R234, R235, R242) -/

/-- Does a request of the group come from the stream as it runs now, in its handler or outside one? -/
def BReq.isOf (r : BReq) (g : Group) : Bool := r.grp == g.gid && r.handler == g.inHandler

/-- The BENTER that made a request goes on: that of the handler, or that which the trap interrupted (R235, R397). -/
def Group.entersBy (g : Group) (r : BReq) : Group :=
  let on (w : Option Wait) : Option Wait := if w == some .bundle then some .entered else w
  if r.isOf g then { g with wait := on g.wait } else { g with trap := g.trap.map fun t => { t with wait := on t.wait } }

/-- The group enters a set: entry counts rise, and it goes on in the BENTER that asked, or resumes and looks again at what it
waits for (R235, R247, R319). Where it has entered another set since it asked, its set is both (DESIGN CHOICE, log 41). -/
def State.enterSet (s : State) (r : BReq) : State :=
  match s.group? r.grp with
  | none => s
  | some g =>
    let old := (g.entered.map (·.ids)).getD []
    let new := r.ids.filter fun i => !old.contains i
    let s := s.modUnits fun u => { u with
      bundles := u.bundles.map fun b => if new.contains b.id then { b with entries := b.entries + 1 } else b }
    let h := { g with entered := some { ids := old ++ new, age := r.age, prio := r.prio } }
    if g.saved.any r.asksFor then (s.setGroup { h with saved := none, suspended := false }).lookAgain g.place.ctx
    else s.setGroup (h.entersBy r)

/-- Is every bundle of a set resident? -/
def State.allResident (s : State) (ids : List Nat) : Bool :=
  ids.all fun i => (s.bundle? i).any fun b => b.state == .resident

/-- Has a class no way of a partition to allocate in: the bits of bundle ways are ignored (R235, R248, R372)? -/
def Part.noWays (p : Part) (cls : Nat) : Bool := tget 0 p.masks cls % 2 ^ 16 / 2 ^ p.bways == 0

/-- Why a set may not be entered, as a sub-code of trap 0x0B (R235). DESIGN CHOICE (log 41): a bundle that `BFREE` has freed
may not be entered, though BQRY shows it filling or evicting until it is gone. -/
def State.enterFault (s : State) (g : Group) (ids : List Nat) : Option Nat :=
  let p := g.place
  if g.entered.isSome || g.saved.isSome then some 0x01
  else if !(ids.all fun i => (s.bundle? i).any fun b => b.ctx == p.ctx && !b.freed) then some 0x02
  else if (s.part p.part).noWays (s.ctx p.ctx).cls then some 0x04
  else if !s.fitsAlone p.part (s.linesOfIds ids) then some 0x03
  else none

/-- The ids that a BENTER block names. -/
def blockIds (b : List Word) : List Nat :=
  (((List.range 4).filter fun i => bit (b.getD 0 0).toNat i).map fun i => (b.getD (i + 1) 0).toNat).eraseDups

/-- Is a BENTER block legal (R234)? -/
def blockOk (b : List Word) : Bool :=
  let w (i : Nat) : Nat := (b.getD i 0).toNat
  w 0 != 0 && decide (w 0 < 16) && ([1, 2, 3, 4].all fun i => decide (w i < 4096)) && [5, 6, 7].all fun i => w i == 0

/-- Does a continuation lie outside the section that the stream executes in? It is looked at once, when the instruction
issues. -/
def State.strays (s : State) (g : Group) (off : Option Int) : State × Bool :=
  match off with
  | none => (s, false)
  | some d =>
    match s.scalarLen g with
    | (s, len) => (s, decide ((g.spc : Int) + d < 0) || decide ((g.spc : Int) + d ≥ (len : Int)))

/-- BENTER: it queues a request and waits until the set is entered; then it goes on, or resumes at its continuation (R235).
DESIGN CHOICE (log 41): the trap for a set that new settings leave no room for is that of a group in its BENTER; a resumed
group, which waits for its saved set outside one, goes on waiting. -/
def enterBundles (s : State) (a : Nat) (off : Option Int) : Out :=
  scalarInstr s (regSpan a 8) fun g =>
    let target : Int := (g.spc : Int) + off.getD 2
    let b := (List.range 8).map fun i => g.getS (a + i)
    match g.wait with
    | some .entered => .next (s.setGroup (g.goTo target.toNat))
    | some .bundle =>
      match (s.part g.place.part).reqs.find? fun r => r.isOf g with
      | none => .next s
      | some r =>
        if r.admitted || s.fitsAlone g.place.part (s.linesOfIds r.ids) then .next s
        else .next ((s.withdraw g).scalarTrap g 0x0B 0x03)
    | _ =>
      match s.strays g off with
      | (s, true) => .next (s.scalarTrap g 0x01 0)
      | (s, false) =>
        if !blockOk b then .next (s.scalarTrap g 0x01 0)
        else
          match s.enterFault g (blockIds b) with
          | some subc => .next (s.scalarTrap g 0x0B subc)
          | none =>
            let r : BReq := { grp := g.gid, part := g.place.part, ids := blockIds b, prio := (s.ctx g.place.ctx).prio,
                              age := s.ns, handled := false, admitted := false, handler := g.inHandler }
            .next ((s.modPart g.place.part fun p => { p with reqs := p.reqs ++ [r] }).setGroup
              { g with wait := some .bundle })

/-- BENTER (R235). -/
def execBenter (a : Nat) (s : State) : Out := enterBundles s a none

/-- BENTER.yield: after entry the stream resumes at PC + IMM32 (R235). -/
def execBenterYield (a : Nat) (off : Int) (s : State) : Out := enterBundles s a (some off)

/-- BLEAVE: it takes effect when it issues (R242). -/
def execBleave (s : State) : Out :=
  scalarInstr s [] fun g => .next ((s.leaveSet g).setGroup
    ({ g with entered := none, holdTimer := none }.advance 1))

/-- The code of a state (R243). -/
def BState.code : BState → Nat
  | .declared => 1
  | .filling => 2
  | .resident => 3
  | .evicting => 4

/-- BQRY (R243). -/
def execBqry (d a : Nat) (s : State) : Out :=
  scalarInstr s [d, d + 1, a] fun g =>
    let r : Nat × Nat :=
      match s.bundle? (g.getS a).toNat with
      | none => (0, 0)
      | some b =>
        if b.ctx != g.place.ctx then (0, 0)
        else
          (b.state.code + (if s.requested b.part b.id then 8 else 0) + 2 ^ 16 * (b.entries % 65536), b.lines.length)
    .next (s.setGroup (((g.setS d (BitVec.ofNat 32 r.1)).setS (d + 1) (BitVec.ofNat 32 r.2)).advance 1))

/-- The lines of a bundle that no other bundle holds in a bundle way. -/
def State.ownLines (s : State) (b : Bundle) : List Nat := b.lines.filter fun l => !s.inBundleWay l

/-- Is the line dirty in the L2? -/
def State.dirtyInL2 (s : State) (l : Nat) : Bool := (s.mem.l2? l).any (·.dirty)

/-- Ids of freed bundles are free once the bundles are in state declared (R244). -/
def State.freeIds (s : State) : State :=
  s.modUnits fun u => { u with bundles := u.bundles.filter fun b => !(b.freed && b.state == .declared) }

/-- A bundle is evicted (R239): the lines that no other bundle holds in a bundle way are invalidated, the dirty ones once they
have been written back; until then the bundle is evicting. -/
def State.evictBundle (s : State) (id : Nat) : State :=
  let s := s.modBundle id fun b => { b with state := .evicting }
  match s.bundle? id with
  | none => s
  | some b =>
    let l := s.ownLines b
    let s := (l.filter fun x => !s.dirtyInL2 x).foldl (fun s x => s.modMem fun m => m.dropLine x) s
    if l.any s.dirtyInL2 then s else (s.modBundle id fun b => { b with state := .declared }).freeIds

/-- A bundle is freed (R244): a resident one is evicted. -/
def State.freeBundle (s : State) (id : Nat) : State :=
  let s := s.modBundle id fun b => { b with freed := true }
  if (s.bundle? id).any fun b => b.state == .resident then s.evictBundle id else s.freeIds

/-- BFREE (R244). -/
def execBfree (d a : Nat) (s : State) : Out :=
  scalarInstr s [d, a] fun g =>
    let put (s : State) (w : Word) : Out := .next (s.setGroup ((g.setS d w).advance 1))
    match s.bundle? (g.getS a).toNat with
    | none => put s 2
    | some b =>
      if b.ctx != g.place.ctx then put s 2
      else if b.freed then put s 0
      else if b.entries > 0 || s.inSaved b.id then put s 1
      else if s.requested b.part b.id then put s 3
      else put (s.freeBundle b.id) 0

/-! ## The Carillon (R236 to R240) -/

/-- Is request a ahead of b in the queue: higher priority, or equal and older (R236)? -/
def BReq.ahead (a b : BReq) : Bool := decide (a.prio > b.prio) || (a.prio == b.prio && decide (a.age < b.age))

/-- The head of a queue: of equals the one that came first. -/
def headOf : List BReq → Option BReq
  | [] => none
  | r :: rs =>
    match headOf rs with
    | none => some r
    | some h => if h.ahead r then some h else some r

/-- Requests into wholly resident sets enter at once; the others wait in the queue from now on (R235, R237). -/
def State.handleRequests (s : State) (p : Nat) : List BReq → State
  | [] => s
  | r :: rs =>
    let rest (s : State) (f : List BReq → List BReq) : State := s.modPart p fun q => { q with reqs := f q.reqs }
    if r.admitted then State.handleRequests s p rs
    else if s.allResident r.ids then
      State.handleRequests ((rest s fun l => l.erase r).enterSet r) p rs
    else
      State.handleRequests (rest s fun l => l.map fun x =>
        if x == r then { x with handled := true, age := if x.handled then x.age else s.ns } else x) p rs

/-- BUNDLE_LEAVE_HANDLE (R237, steps 1 to 3). -/
def execBundleLeaveHandle (p : Nat) (s : State) : Out := .next (s.handleRequests p (s.part p).reqs)

/-- Does the head's set fit once the bundles of a list are gone (R238)? -/
def State.fitsAfter (s : State) (p : Nat) (missing gone : List Nat) : Bool :=
  let now := s.occupied p gone ++ missing
  waysOk (now.map (s.setOf p)) (s.part p).bways && decide (now.length ≤ (s.part p).blim)

/-- Sets that hold too many lines. -/
def State.overFull (s : State) (p : Nat) (missing gone : List Nat) : List Nat :=
  let sets := (s.occupied p gone ++ missing).map (s.setOf p)
  sets.eraseDups.filter fun k => decide (sets.count k > (s.part p).bways)

/-- Does a request ahead of the head name the bundle: one that is admitted, or one of a higher place in the queue (R238)? -/
def State.namedAhead (s : State) (p : Nat) (head : BReq) (id : Nat) : Bool :=
  (s.part p).reqs.any fun r => r != head && r.grp != noGroup && r.ids.contains id && (r.admitted || r.ahead head)

/-- May the bundle be evicted for a head (R238)? With `force`, holders do not keep it. -/
def State.evictable (s : State) (p : Nat) (head : BReq) (force : Bool) (b : Bundle) : Bool :=
  b.part == p && b.state == .resident && !head.ids.contains b.id && (force || (b.entries == 0 && !s.inSaved b.id)) &&
    !s.namedAhead p head b.id

/-- The bundle left least recently; of equals the lowest id. -/
def leastLeft : List Bundle → Option Bundle
  | [] => none
  | b :: bs =>
    match leastLeft bs with
    | none => some b
    | some c =>
      if c.lastLeave < b.lastLeave || (c.lastLeave == b.lastLeave && decide (c.id < b.id)) then some c else some b

/-- The bundles that the admission test evicts: grown one by one while the set does not fit (R238). The count bounds the
number of rounds. -/
def State.evictions (s : State) (p : Nat) (head : BReq) (missing : List Nat) (force : Bool) : Nat → List Nat → List Nat
  | 0, e => e
  | n + 1, e =>
    if s.fitsAfter p missing e then e
    else
      let overs := s.overFull p missing e
      let many := decide ((s.occupied p e ++ missing).length > (s.part p).blim)
      match leastLeft (s.units.bundles.filter fun b => s.evictable p head force b && !e.contains b.id &&
          (many || b.lines.any fun l => overs.contains (s.setOf p l))) with
      | none => e
      | some b => State.evictions s p head missing force n (b.id :: e)

/-- The result of the admission test of a request: the bundles to evict, if the set then fits. -/
def State.admission (s : State) (p : Nat) (head : BReq) (force : Bool) : Option (List Nat) :=
  let missing := (s.linesOfIds head.ids).filter fun l => !(s.occupied p []).contains l
  let e := s.evictions p head missing force s.units.bundles.length []
  if s.fitsAfter p missing e then some e else none

/-- The set that a group holds: entered or saved. -/
def Group.holds? (g : Group) : List Nat := ((g.entered.map (·.ids)).getD []) ++ ((g.saved.map (·.ids)).getD [])

/-- The head of a partition's queue: of the requests that the Carillon has judged and not admitted. -/
def State.headReq (s : State) (p : Nat) : Option BReq := headOf ((s.part p).reqs.filter fun r => r.handled && !r.admitted)

/-- Does a group block the head: it holds a bundle that the test with no entry counts would evict, and the test fails (R245)? -/
def State.blocks (s : State) (p : Nat) (head : BReq) (g : Group) : Bool :=
  g.place.part == p && (s.admission p head false).isNone &&
    g.holds?.any ((s.admission p head true).getD []).contains

/-- A group's hold timer: started when the group blocks the head, kept while it blocks the same head (R245). -/
def State.timerOf (s : State) (p : Nat) (g : Group) : Option HoldTimer :=
  match s.headReq p with
  | none => none
  | some r =>
    if !s.blocks p r g then none
    else
      match g.holdTimer with
      | some t => some (if t.grp == r.grp && t.age == r.age then t else { start := s.ns, grp := r.grp, age := r.age })
      | none => some { start := s.ns, grp := r.grp, age := r.age }

/-- Starts and stops the hold timers of a partition's groups, saved ones too (R245). -/
def State.holdTimers (s : State) (p : Nat) : State :=
  let f (g : Group) : Group := if g.place.part == p then { g with holdTimer := s.timerOf p g } else g
  { (s.modUnits fun u => { u with saved := u.saved.map fun k => { k with groups := k.groups.map f } }) with
    groups := s.groups.map f }

/-- Lines that are in the L2 move into bundle ways, as bundle lines (R233, R240). -/
def State.moveLines (s : State) (lines : List Nat) : State :=
  lines.foldl (fun s l =>
    match s.mem.l2? l with
    | some e => if e.way.any fun w => decide (w < (s.part (s.keyPart (.line l))).bways) then s
      else (s.putKey (.line l) none e.prio).allot 0 .dflt (.line l)
    | none => s) s

/-- Bundles of a set that are not resident begin to fill (R240). -/
def State.startFill (s : State) (ids : List Nat) : State :=
  let f (b : Bundle) : Bundle :=
    if ids.contains b.id && b.state == .declared then
      { b with state := .filling, lastLeave := if b.left then b.lastLeave else s.ns }
    else b
  (s.modUnits fun u => { u with bundles := u.bundles.map f }).moveLines (s.linesOfIds ids)

/-- BUNDLE_ADMISSION_TEST (R237 steps 3 and 4, R238, R240, R245): sets that are wholly resident enter; then the head's set is
admitted if it fits once evictable bundles are gone, and the groups that alone keep it out are timed. -/
def execBundleAdmissionTest (p : Nat) (s : State) : Out :=
  let s := s.handleRequests p (s.part p).reqs
  match s.headReq p with
  | none => .next (s.holdTimers p)
  | some r =>
    if r.ids.any fun i => (s.bundle? i).any fun b => b.state == .evicting then .next (s.holdTimers p)
    else
      match s.admission p r false with
      | some e =>
        let s := (e.reverse.foldl (fun s i => s.evictBundle i) s).startFill r.ids
        let s := s.modPart p fun q => { q with reqs := q.reqs.map fun x => if x == r then { x with admitted := true } else x }
        .next (s.holdTimers p)
      | none => .next (s.holdTimers p)

/-- Writes back and invalidates the lines of a bundle that no other bundle holds in a bundle way (R239). -/
def State.evictLines (s : State) (b : Bundle) : State :=
  (s.ownLines b).foldl (fun s l => s.modMem fun m => m.dropLine l) s

/-- BUNDLE_EVICT_COMPLETE (R239, R244). -/
def execBundleEvictComplete (id : Nat) (s : State) : Out :=
  match s.bundle? id with
  | none => .next s
  | some b =>
    if b.state != .evicting then .next s
    else
      .next ((s.evictLines b).modBundle id fun b => { b with state := .declared }).freeIds

/-- Do write-backs of an evicting bundle still hold up fills into the sets of some lines (R240)? -/
def State.fillBlocked (s : State) (p : Nat) (lines : List Nat) : Bool :=
  let sets := lines.map (s.setOf p)
  s.units.bundles.any fun b => b.part == p && b.state == .evicting &&
    (s.ownLines b).any fun l => s.dirtyInL2 l && sets.contains (s.setOf p l)

/-- Every line of a set is in its place in a bundle way. -/
def State.fillLines (s : State) (lines : List Nat) : State :=
  lines.foldl (fun s l => ((s.modMem fun m => m.touch l).settleL2 0 .dflt).moveLines [l]) s

/-- The filling bundles of a set are resident; one freed meanwhile is evicted (R240, R244). -/
def State.endFill (s : State) (ids : List Nat) : State :=
  let done := (s.units.bundles.filter fun b => ids.contains b.id && b.state == .filling).map (·.id)
  let f (b : Bundle) : Bundle := if done.contains b.id then { b with state := .resident } else b
  let s := s.modUnits fun u => { u with bundles := u.bundles.map f }
  (done.filter fun i => (s.bundle? i).any (·.freed)).foldl (fun s i => s.evictBundle i) s

/-- BUNDLE_FILL_COMPLETE (R240): every line of an admitted set is in place; the bundles are resident and the group enters. A
request of which a bundle has left its bundle ways since then goes back to the queue. -/
def execBundleFillComplete (gid : Nat) (s : State) : Out :=
  match (s.plat.parts.flatMap fun e => e.2.reqs).find? fun r => r.grp == gid && r.admitted with
  | none => .next s
  | some r =>
    let lines := s.linesOfIds r.ids
    if s.fillBlocked r.part lines then .next s
    else if r.grp != noGroup && !r.ids.all (fun i => (s.bundle? i).any Bundle.occupies) then
      .next (s.modPart r.part fun q => { q with reqs := q.reqs.map fun x => if x == r then { x with admitted := false } else x })
    else
      let s := (s.fillLines (lines.filter s.inBundleWay)).endFill r.ids
      .next ((s.modPart r.part fun q => { q with reqs := q.reqs.erase r }).enterSet r)

/-! ## The hold limit (R245) -/

/-- HOLD_LIMIT_EXPIRY: the timers are those of the present head; the set of a group whose timer has run out is released at
once, and the trap becomes pending; a suspended group loses its saved set, resumes without it, and looks again at what it
waits for (R319, R339). -/
def execHoldLimitExpiry (gid : Nat) (s : State) : Out :=
  let s := s.plat.parts.foldl (fun s e => s.holdTimers e.1) s
  let due (g : Group) : Bool :=
    g.gid == gid && (g.holdTimer.any fun t => decide (s.ns ≥ t.start + (s.part g.place.part).bhold))
  match s.groups.find? due with
  | some g =>
    let s := match g.saved with
      | some b => s.withdrawIf g fun r => r.asksFor b
      | none => s
    let s := (s.leaveSet g).setGroup { g with entered := none, saved := none, holdTimer := none, holdTrap := true,
                                              suspended := g.suspended && g.saved.isNone }
    .next (if g.suspended && g.saved.isSome then s.lookAgain g.place.ctx else s)
  | none =>
    let f (g : Group) : Group := if due g then { g with saved := none, holdTimer := none, holdTrap := true } else g
    .next (s.modUnits fun u => { u with saved := u.saved.map fun k => { k with groups := k.groups.map f } })

/-- HOLD_LIMIT_TRAP: at an instruction boundary outside a handler; a wait goes on after TRET (R245, R397). -/
def execHoldLimitTrap (gid : Nat) (s : State) : Out :=
  match s.group? gid with
  | none => .next s
  | some g =>
    if g.holdTrap && !g.inHandler && !g.suspended then
      .next (s.takeTrap { g with holdTrap := false, holdFirst := false }
        { cause := 0x0B, subc := 0x05, swc := 0, spc := g.spc, lpc := 0xFFFFFFFF, exec := 0, fltmask := 0, wmask := 0,
          gang := 0 })
    else .next s

end Sys2Proof.Machine
end

