-- ==== Sys2Proof/Machine/EngineSteps.lean ====
section
/-! DEFINITION. What the engines do with commands in flight: the units of work of each command, and the steps that start,
fault, hand on and complete commands, deliver messages, and complete batches (R285 to R310). -/
namespace Sys2Proof.Machine

/-- The agent of a command. -/
def Cmd.agent (c : Cmd) : Agent :=
  { core := c.core, ctx := c.ctx, part := c.part, launch := c.launch, blk := c.blk, team := c.team, handler := false }

/-- The command in flight with an identity. -/
def State.cmd? (s : State) (id : Nat) : Option Cmd := s.units.cmds.find? fun c => c.id == id

/-- Puts a command back. -/
def State.setCmd (s : State) (c : Cmd) : State :=
  s.modUnits fun u => { u with cmds := u.cmds.map fun x => if x.id == c.id then c else x }

/-- Record i of a command. -/
def Cmd.record (c : Cmd) (i : Nat) : TRec := TRec.ofBytes (c.recs.getD i [])

/-- An aligned 4-byte part that the command has read, by address div 4. -/
def Cmd.buf? (c : Cmd) (q : Nat) : Option (List Byte) := (c.bufs.find? fun e => e.1 == q).map (·.2)

/-- The bytes of a cell, once every part that it meets has been read. -/
def Cmd.cellAt? (c : Cmd) (va n : Nat) : Option (List Byte) :=
  (List.range n).mapM fun i => (c.buf? ((va + i) / 4)).map fun bs => bs.getD ((va + i) % 4) 0

/-- Is the unit done? -/
def Cmd.isDone (c : Cmd) (k : Nat) : Bool := c.done.contains k

/-! ## Units -/

/-- Coordinates of the n-th cell of a box with the given counts, dimension 0 fastest. -/
def unravel : List Nat → Nat → List Nat
  | [], _ => []
  | c :: cs, n => n % c :: unravel cs (n / c)

/-- Coordinates plus starts. -/
def addStarts (starts ds : List Nat) : List Nat := (starts.zip ds).map fun (x, y) => x + y

/-- The destination bytes of a unit and the core whose barrier they arrive at (R285). -/
def Cmd.unitBytes (c : Cmd) (k : Nat) : Nat × Nat :=
  match c.kind with
  | .copy .. => (c.core, (c.record 0).cell)
  | .mcast _ _ _ cores => (cores.getD (k % cores.length) 0, (c.record 0).cell)
  | .gath _ _ n .. | .scat _ _ n .. => (c.core, if k < n then 0 else (c.record 0).cell)
  | .recv .. => (c.core, if 0 < k && k + 4 < c.total then 1 else 0)
  | _ => (c.core, 0)

/-- The bytes that arrive when the command completes and not before: those of a message, which its destination then has, and
the first of a receive, whose status record is then written (R285, R305). -/
def Cmd.lastBytes (c : Cmd) : Nat :=
  match c.kind with
  | .send _ len _ _ _ _ => len
  | .recv .. => 1
  | _ => 0

/-- The block and team whose barrier a command arrives at on a core: a multicast's own destination there (R285, R292). -/
def State.arriveTeam (s : State) (c : Cmd) (core : Nat) : Nat × Nat :=
  match c.kind with
  | .mcast .. => ((s.castTeam c.agent core).map fun t => (t.blk, t.team)).getD (c.blk, c.team)
  | _ => (c.blk, c.team)

/-- Bytes arrive at the completion's byte-count barrier on a core (R285). -/
def State.arriveBytes (s : State) (c : Cmd) (core n : Nat) : State :=
  match c.compl with
  | .bar off =>
    let t := s.arriveTeam c core
    if n = 0 then s
    else s.modUnits fun u => { u with
      arrivals := u.arrivals ++ [{ core := core, addr := off, launch := c.launch, blk := t.1, team := t.2, cls := 0,
                                   bytes := n, grp := c.grp, pc := c.pc }] }
  | _ => s

/-- The bytes of a unit arrive. -/
def State.arriveUnit (s : State) (c : Cmd) (k : Nat) : State := s.arriveBytes c (c.unitBytes k).1 (c.unitBytes k).2

/-- Units are done: their bytes arrive. -/
def State.unitsDone (s : State) (c : Cmd) : List Nat → State
  | [] => s.setCmd c
  | k :: ks =>
    if c.isDone k then State.unitsDone s c ks
    else State.unitsDone (s.arriveUnit c k) { c with done := k :: c.done } ks

/-- What a unit of work does next: a step, a fault of a unit, or nothing yet. -/
inductive UOut where
  | step (s : State)
  | fault (s : State) (unit subc pos va : Nat)
  | idle
  deriving DecidableEq, Repr

/-- The aligned parts of n bytes that a cell meets, by address div n. -/
def partsOf (n va cell : Nat) : List Nat := [va / n, (va + cell - 1) / n].eraseDups

/-- The location of the aligned 4-byte part that holds one. -/
def Loc.part4 (l : Loc) : Loc :=
  match l with
  | .hbm pa => .hbm (pa / 4 * 4)
  | .host pa => .host (pa / 4 * 4)
  | .mmio off => .mmio (off / 4 * 4)
  | .peer link pa => .peer link (pa / 4 * 4)
  | .scr core off => .scr core (off / 4 * 4)
  | .mx ctx win pa => .mx ctx win (pa / 4 * 4)

/-- The next read of the cell of a unit: an aligned 4-byte part of it that the command has not read (R206). A slice accepts
the read and answers it when the data leaves (R316); another endpoint answers at once. -/
def State.readPart (s : State) (c : Cmd) (unit va cell pos : Nat) : UOut :=
  match (partsOf 4 va cell).find? fun q => (c.buf? q).isNone && !c.asked.any fun e => e.1 == q with
  | none => .idle
  | some q =>
    let at' := max va (4 * q)
    match s.engPlace c.agent .load at' (min (va + cell) (4 * q + 4) - at') cell with
    | (s, .error f) => .fault s unit f pos va
    | (s, .ok l) =>
      .step (s.setCmd (if l.inSlice then { c with asked := c.asked ++ [(q, l.part4)] }
        else { c with bufs := (q, s.locRead l.part4 4) :: c.bufs }))

/-- Units whose cells may share an aligned part of n bytes with unit k of a dense span. -/
def nearUnits (n k total : Nat) : List Nat :=
  (List.range (2 * n + 1)).filterMap fun i => if n ≤ k + i && k + i - n < total then some (k + i - n) else none

/-- How a command moves cells: their size, the units near unit k, where each has its destination, what it writes once that
is known, how it comes to know it, and where a destination byte lies. -/
structure Move where
  cell : Nat
  pos : Nat
  near : List Nat
  dst : Nat → Option Nat
  val : Nat → Option (List Byte)
  read : Nat → UOut
  place : State → Nat → Nat → State × Except Nat Loc

/-- Runs of bytes at consecutive addresses. -/
def runsOf : List (Nat × Byte) → List (Nat × List Byte)
  | [] => []
  | (a, b) :: r =>
    match runsOf r with
    | [] => [(a, [b])]
    | (a', bs) :: rs => if a' = a + 1 then (a, b :: bs) :: rs else (a, [b]) :: (a', bs) :: rs

/-- Writes runs of bytes of one aligned part in one step; nothing where a place fails or a fill is pending (R316). -/
def State.writeRuns (s : State) (c : Cmd) (m : Move) (k : Nat) : List (Nat × List Byte) → UOut
  | [] => .step s
  | (a, bs) :: r =>
    match m.place s a bs.length with
    | (s, .error f) => .fault s k f m.pos a
    | (s, .ok l) => if s.fillPending l then .idle else State.writeRuns (s.writeBy c.ctx .dflt l bs) c m k r

/-- The bytes that several units write into part p of n bytes: of two units of one byte the later. -/
def Move.bytes (m : Move) (n p : Nat) (us : List Nat) : List (Nat × Byte) :=
  (List.range n).filterMap fun i =>
    let b := p * n + i
    (us.reverse.findSome? fun j => (m.dst j).bind fun a =>
      if a ≤ b && b < a + m.cell then (m.val j).bind fun v => v[b - a]? else none).map fun x => (b, x)

/-- The units near that have bytes in part p of n bytes and are not done. -/
def Move.sharing (m : Move) (c : Cmd) (n p : Nat) : List Nat :=
  m.near.filter fun j => !c.isDone j && (m.dst j).any fun a => (partsOf n a m.cell).contains p

/-- The destination parts of a cell lie where the command may write, every one of them. -/
def Move.faultOf (m : Move) (s : State) (n j : Nat) : Option Nat :=
  match m.dst j with
  | none => none
  | some a =>
    if (partsOf n a m.cell).length = 1 then none
    else
      match (m.place s (a + m.cell - 1) 1).2 with
      | .error f => some f
      | .ok _ => none

/-- Unit k of a command makes its next access: it writes an aligned part of n bytes together with the other units that have
bytes there, once all of them have their data (R206); a unit is done when all its bytes are written. -/
def State.moveUnit (s : State) (c : Cmd) (m : Move) (n k : Nat) : UOut :=
  match (m.dst k).bind fun a => (partsOf n a m.cell).find? fun p => !c.pieces.contains p with
  | none => .idle
  | some p =>
    let us := m.sharing c n p
    match us.find? fun j => (m.val j).isNone with
    | some j => m.read j
    | none =>
      match us.findSome? fun j => (m.faultOf s n j).map fun f => (j, f) with
      | some (j, f) => .fault s j f m.pos ((m.dst j).getD 0)
      | none =>
        match s.writeRuns c m k (runsOf (m.bytes n p us)) with
        | .step s =>
          let whole (j : Nat) : Bool := (m.dst j).all fun a => (partsOf n a m.cell).all fun q => q == p || c.pieces.contains q
          let open' := us.filter fun j => !whole j
          let pieces := (p :: c.pieces).filter fun q =>
            !(m.sharing c n q).isEmpty && ((m.sharing c n q).any fun j => !us.contains j || open'.contains j)
          .step (s.unitsDone { c with pieces := pieces } (us.filter whole))
        | o => o

/-- Where a command's destination at an address lies. -/
def Cmd.storePlace (c : Cmd) (cell : Nat) (s : State) (va n : Nat) : State × Except Nat Loc :=
  s.engPlace c.agent .store va n cell

/-- The parts in which a destination is written: of an alias window whole blocks, else 4 bytes (R65, R206). -/
def State.partBytes (s : State) (c : Cmd) (va cell : Nat) : Nat :=
  match (c.storePlace cell s va cell).2 with
  | .ok (.mx ..) => 64
  | _ => 4

/-- Cell k of a box copy (R290). -/
def State.copyUnit (s : State) (c : Cmd) (dst : Nat) (starts counts : List Nat) (k : Nat) : UOut :=
  let r := c.record 0
  let src (j : Nat) : List Nat := addStarts starts (unravel counts j)
  let dstAt (j : Nat) : Nat := (dst + j * r.cell) % 2 ^ 64
  let n := s.partBytes c (dstAt k) r.cell
  s.moveUnit c { cell := r.cell, pos := 0, near := nearUnits n k c.total, dst := fun j => some (dstAt j)
                 val := fun j => if r.inside (src j) then c.cellAt? (r.cellAt (src j)) r.cell else some (zeros r.cell)
                 read := fun j => s.readPart c j (r.cellAt (src j)) r.cell 0
                 place := c.storePlace r.cell } n k

/-- The place of an offset in the scratch of a multicast's team on a core. -/
def Cmd.castPlace (c : Cmd) (core : Nat) (s : State) (off _n : Nat) : State × Except Nat Loc :=
  match (s.castTeam c.agent core).bind fun t => s.teamScratch t c.part off with
  | some l => (s, .ok l)
  | none => (s, .error 0x06)

/-- Cell k div n for the (k mod n)-th of the n cores of a multicast: the box is read once (R292). -/
def State.mcastUnit (s : State) (c : Cmd) (off : Nat) (starts counts cores : List Nat) (k : Nat) : UOut :=
  let r := c.record 0
  let w := cores.length
  let src (j : Nat) : List Nat := addStarts starts (unravel counts (j / w))
  s.moveUnit c { cell := r.cell, pos := 0
                 near := (nearUnits 4 (k / w) (c.total / w)).map fun u => u * w + k % w
                 dst := fun j => some (off + j / w * r.cell)
                 val := fun j => if r.inside (src j) then c.cellAt? (r.cellAt (src j)) r.cell else some (zeros r.cell)
                 read := fun j => s.readPart c j (r.cellAt (src j)) r.cell 0
                 place := c.castPlace (cores.getD (k % w) 0) } 4 k

/-- The row that an index names, if it is in range (R293). -/
def TRec.row (r : TRec) (i : Nat) : Option (List Nat) :=
  let e1 := r.ext.getD 1 0
  let e2 := r.ext.getD 2 0
  if i < e1 * e2 * r.ext.getD 3 0 then some [i % e1, i / e1 % e2, i / (e1 * e2)] else none

/-- Reads index entry j: exactly once. A skipped entry, and one that a scatter drops, needs no further work; one out of range
without PERMIT is a fault (R294). -/
def State.indexUnit (s : State) (c : Cmd) (scatter : Bool) (list n cc j : Nat) : UOut :=
  let r := c.record 0
  match s.engRead c.agent ((list + 4 * j) % 2 ^ 64) 4 with
  | (s, .fault f) => .fault s j f j ((list + 4 * j) % 2 ^ 64)
  | (s, .ok bs) =>
    let i := leNat bs
    let c := { c with lists := tset c.lists j i }
    let all := j :: (List.range cc).map fun e => n + j * cc + e
    if i = 0xFFFFFFFF then .step (s.unitsDone c all)
    else if (r.row i).isSome then .step (s.unitsDone c [j])
    else if !r.permit then .fault s j 0x01 j 0
    else .step (s.unitsDone c (if scatter then all else [j]))

/-- Has a position above j with the same index written element e (R294: the highest position's data remains)? -/
def Cmd.overtaken (c : Cmd) (n cc j e i : Nat) : Bool :=
  c.lists.any fun (j', i') => i' == i && decide (j < j') && c.isDone (n + j' * cc + e)

/-- The coordinates of a data unit of a gather or scatter, once its index has been read: none where nothing lies there. -/
def Cmd.rowCell (c : Cmd) (n start cc k : Nat) : Option (Option (List Nat)) :=
  let r := c.record 0
  (c.lists.find? fun x => x.1 == (k - n) / cc).map fun x =>
    let ds := (r.row x.2).map fun row => (start + (k - n) % cc) :: row
    if (ds.map r.inside).getD false then ds else none

/-- A data unit of a gather: one cell of a row to its place in the dense span (R293, R294). -/
def State.gathUnit (s : State) (c : Cmd) (dense list n start cc k : Nat) : UOut :=
  let r := c.record 0
  let dstAt (j : Nat) : Nat := (dense + (j - n) * r.cell) % 2 ^ 64
  let w := s.partBytes c (dstAt k) r.cell
  s.moveUnit c { cell := r.cell, pos := (k - n) / cc
                 near := (nearUnits w k c.total).filter fun j => decide (n ≤ j)
                 dst := fun j => some (dstAt j)
                 val := fun j =>
                   match c.rowCell n start cc j with
                   | none => none
                   | some none => some (zeros r.cell)
                   | some (some ds) => c.cellAt? (r.cellAt ds) r.cell
                 read := fun j =>
                   match c.rowCell n start cc j with
                   | none => s.indexUnit c false list n cc ((j - n) / cc)
                   | some none => .idle
                   | some (some ds) => s.readPart c j (r.cellAt ds) r.cell ((j - n) / cc)
                 place := c.storePlace r.cell } w k

/-- A data unit of a scatter: one cell of the dense span to its row; it is dropped outside the tensor, and under a higher
list position that has the same index (R293, R294). -/
def State.scatUnit (s : State) (c : Cmd) (dense n start cc k : Nat) : UOut :=
  let r := c.record 0
  let at' (j : Nat) : Option Nat :=
    match c.rowCell n start cc j with
    | some (some ds) =>
      if c.overtaken n cc ((j - n) / cc) ((j - n) % cc) (tget 0 c.lists ((j - n) / cc)) then none else some (r.cellAt ds)
    | _ => none
  let from' (j : Nat) : Nat := (dense + (j - n) * r.cell) % 2 ^ 64
  match c.rowCell n start cc k, at' k with
  | none, _ => .idle
  | some _, none => .step (s.unitsDone c [k])
  | some _, some a =>
    let w := s.partBytes c a r.cell
    s.moveUnit c { cell := r.cell, pos := (k - n) / cc
                   near := (nearUnits w k c.total).filter fun j => decide (n ≤ j)
                   dst := at', val := fun j => c.cellAt? (from' j) r.cell
                   read := fun j => s.readPart c j (from' j) r.cell ((j - n) / cc)
                   place := c.storePlace r.cell } w k

/-! ## Matrix units (R70, R71, R299 to R301) -/

/-- An operand element as a matrix command reads it: outside the extents it is 0. -/
inductive EV where
  | zero
  | val (o : Nat) (b : ElemBytes)
  | fault (subc va : Nat)
  deriving DecidableEq, Repr

/-- Reads the element at coordinates. -/
def State.readElem (s : State) (a : Agent) (r : TRec) (ds : List Nat) : State × EV :=
  if !r.insideElem ds then (s, .zero)
  else
    match s.elemBytes a r (r.elemOff ds) with
    | (s, some b, _, _) => (s, .val (r.elemOff ds) b)
    | (s, none, f, va) => (s, .fault f va)

/-- Reads a list of pairs of elements; a fault ends it. -/
def State.readPairs (s : State) (a : Agent) (x y : TRec) :
    List (List Nat × List Nat) → State × List (EV × EV) × Option (Nat × Nat)
  | [] => (s, [], none)
  | (dx, dy) :: r =>
    match s.readElem a x dx with
    | (s, .fault f va) => (s, [], some (f, va))
    | (s, ex) =>
      match s.readElem a y dy with
      | (s, .fault f va) => (s, [], some (f, va))
      | (s, ey) =>
        match State.readPairs s a x y r with
        | (s, l, f) => (s, (ex, ey) :: l, f)

/-- The float value of an element. -/
def EV.flt (r : TRec) : EV → FVal
  | .val o b => r.fltVal o b
  | _ => FVal.zero

/-- The integer value of an element. -/
def EV.int (r : TRec) : EV → Int
  | .val _ b => r.intVal b
  | _ => 0

/-- The sum of two f32 words, rounded once in RN (R70, R301). -/
def addF32 (a b : FVal) : Word :=
  BitVec.ofNat 32 (fp32.encode (roundX fp32 .rn 0 0 (sumX .rn false [a, b])).v)

/-- One K-group of a float matrix command added to an accumulator (R70). -/
def macGroup (x y : TRec) (acc : FVal) (l : List (EV × EV)) : Word :=
  let vs := l.map fun (a, b) => (a.flt x, b.flt y)
  let sum := sumX .rn (vs.any fun (a, b) => badProd a b) (vs.map fun (a, b) => prod a b)
  addF32 acc (roundX fp32 .rn 0 0 sum).v

/-- The write-back of an integer total (R71, R301). -/
def int32Back (sati : Bool) (x : Int) : Word := BitVec.ofInt 32 (if sati then intClamp true 32 x else x)

/-- The tiles that a matrix command names. -/
def Cmd.tiles (c : Cmd) : List Nat :=
  match c.kind with
  | .mmac b _ => [blkWord b 4 % 4]
  | .mzro m => tilesIn m
  | .macc d e _ _ => [d, e]
  | _ => []

/-- The number of the segment of an output row (R300). -/
def Cmd.segOf (c : Cmd) (row : Nat) : Nat := row / (c.record 1).segrows

/-- The B record of an output row: none while a segment's sub-record has not been read; with `skip` set the row is left
unchanged (R300). -/
def Cmd.bRecord (c : Cmd) (segs : List Nat) (row : Nat) : Option (TRec × Bool) :=
  let y := c.record 1
  if !y.indexed then some (y, false)
  else if segs.getD (c.segOf row) 0xFFFF = 0xFFFF then some (y, true)
  else
    match c.subRecs.find? fun e => e.1 == c.segOf row with
    | none => none
    | some (_, []) => some (y, true)
    | some (_, bs) => some (TRec.ofBytes bs, false)

/-- The next K-group of output k of an MMAC (R70, R71, R299). -/
def State.mmacUnit (s : State) (c : Cmd) (b : List Word) (segs : List Nat) (k : Nat) : UOut :=
  let w := blkWord b 4
  let n := mnSize (bits w 4 2)
  let i := k / n
  let j := k % n
  match s.group? c.grp, c.bRecord segs i with
  | none, _ | _, some (_, true) => .step (s.unitsDone c [k])
  | _, none => .idle
  | some g, some (y, false) =>
    let x := c.record 0
    let tile := w % 4
    let cur := g.getTile tile i j
    let p := (c.prog.find? fun p => p.out == k).getD { out := k, groups := 0, old := cur, sum := 0 }
    let row0 := blkWord b 5 % 65536
    let ka0 := blkWord b 5 / 65536
    let kb0 := blkWord b 6 % 65536
    let col0 := blkWord b 6 / 65536
    let pairs := (List.range 32).map fun e =>
      let kk := 32 * p.groups + e
      ([ka0 + kk, row0 + i, 0, 0], if bit w 7 then [kb0 + kk, col0 + j, 0, 0] else [col0 + j, kb0 + kk, 0, 0])
    match s.readPairs c.agent x y pairs with
    | (s, _, some (f, va)) => .fault s k f 0 va
    | (s, l, none) =>
      let last := p.groups + 1 = bits w 16 16 / 32
      let overs := bit w 6
      let sum := p.sum + (l.map fun (a, b) => a.int x * b.int y).foldl (· + ·) 0
      let val : Word :=
        if x.mclass = 4 then
          if last then int32Back (bit w 12) ((if overs then 0 else cur.toInt) + sum) else cur
        else macGroup x y (if overs && p.groups == 0 then .fin true 0 0 else fp32.decode cur.toNat) l
      let rest := c.prog.filter fun q => q.out != k
      let s := s.setGroup (g.setTile tile i j val)
      if last then .step (s.unitsDone { c with prog := rest } [k])
      else .step (s.setCmd { c with prog := { p with groups := p.groups + 1, sum := sum } :: rest })

/-- Element k of MZRO. -/
def State.mzroUnit (s : State) (c : Cmd) (mask k : Nat) : UOut :=
  match s.group? c.grp with
  | none => .step (s.unitsDone c [k])
  | some g =>
    .step ((s.setGroup (g.setTile ((tilesIn mask).getD (k / 4096) 0) (k / 64 % 64) (k % 64) 0)).unitsDone c [k])

/-- Element k of MACC. -/
def State.maccUnit (s : State) (c : Cmd) (d e : Nat) (int sati : Bool) (k : Nat) : UOut :=
  match s.group? c.grp with
  | none => .step (s.unitsDone c [k])
  | some g =>
    let x := g.getTile d (k / 64) (k % 64)
    let y := g.getTile e (k / 64) (k % 64)
    let v := if int then int32Back sati (x.toInt + y.toInt) else addF32 (fp32.decode x.toNat) (fp32.decode y.toNat)
    .step ((s.setGroup (g.setTile d (k / 64) (k % 64) v)).unitsDone c [k])

/-! ## Messages -/

/-- Byte k of a message is read, with the other bytes of its aligned 4-byte part (R206, R304). -/
def State.sendUnit (s : State) (c : Cmd) (src k : Nat) : UOut :=
  if (c.cellAt? ((src + k) % 2 ^ 64) 1).isSome then .step (s.unitsDone c [k])
  else s.readPart c k ((src + k) % 2 ^ 64) 1 0

/-- The status record of a receive (R305). -/
def recvStatus (m : Msg) (buflen got : Nat) : List Byte :=
  leBytes 4 got ++ leBytes 4 m.len ++ leBytes 4 (m.src + 65536 * m.tag) ++
    leBytes 4 ((if m.len > buflen then 1 else 0) + if m.fromQ then 2 else 0)

/-- Byte k of a receive, and after all bytes the four words of its status record (R206, R305). -/
def State.recvUnit (s : State) (c : Cmd) (buf len status : Nat) (m : Msg) (k : Nat) : UOut :=
  let n := min m.len len
  let dstAt (j : Nat) : Nat := (buf + j) % 2 ^ 64
  if k < n then
    if m.holes.contains k then .step (s.unitsDone c [k])
    else
      let w := s.partBytes c (dstAt k) 1
      s.moveUnit c { cell := 1, pos := 0, near := (nearUnits w k n).filter fun j => !m.holes.contains j
                     dst := fun j => some (dstAt j), val := fun j => some [m.data.getD j 0], read := fun _ => .idle
                     place := c.storePlace 1 } w k
  else if (List.range n).all c.isDone then
    let lost := ((List.range n).filter fun i => m.holes.contains i || c.faulted.contains i).length
    s.moveUnit c { cell := 4, pos := 0, near := [k], dst := fun j => some ((status + 4 * (j - n)) % 2 ^ 64)
                   val := fun j => some (((recvStatus m len (n - lost)).drop (4 * (j - n))).take 4), read := fun _ => .idle
                   place := c.storePlace 4 } 4 k
  else .idle

/-! ## One unit of work -/

/-- The next step of unit k of a command. -/
def State.unitStep (s : State) (c : Cmd) (k : Nat) : UOut :=
  if c.state != .running || k ≥ c.total || c.isDone k then .idle
  else
    match c.kind with
    | .copy dst starts counts => s.copyUnit c dst starts counts k
    | .mcast off starts counts cores => s.mcastUnit c off starts counts cores k
    | .gath dense list n start cc =>
      if k < n then s.indexUnit c false list n cc k else s.gathUnit c dense list n start cc k
    | .scat dense list n start cc =>
      if k < n then s.indexUnit c true list n cc k else s.scatUnit c dense n start cc k
    | .mmac b segs => s.mmacUnit c b segs k
    | .mzro m => s.mzroUnit c m k
    | .macc d e int sati => s.maccUnit c d e int sati k
    | .send src _ _ _ _ _ => s.sendUnit c src k
    | .recv buf len _ _ status msg =>
      match msg with
      | some m => s.recvUnit c buf len status m k
      | none => .idle

/-- The place in SRAM that a page of a virtual address reaches, where its target is scratch. -/
def State.scratchPage (s : State) (c : Cmd) (va : Nat) : Option (Nat × Nat) :=
  match s.walk c.ctx c.part (va % 2 ^ 57) with
  | .fault _ => none
  | .leaf pte size =>
    let ty := bits pte 4 3
    if ty = 3 || ty = 4 then
      match s.target c.agent pte size (va % 2 ^ 57) with
      | some (.scr k off) => some (k, off / 32768)
      | _ => none
    else none

/-- Does a range of virtual addresses meet some banks of a core? One too long to be looked through counts as meeting them. -/
def State.rangeIn (s : State) (core : Nat) (banks : List Nat) (c : Cmd) (r : Range) : Bool :=
  !r.scratch && (decide (r.hi - r.lo ≥ 2 ^ 40) ||
    (List.range (r.hi / 4096 + 1 - r.lo / 4096)).any fun i =>
      (s.scratchPage c ((r.lo / 4096 + i) * 4096)).any fun (k, b) => k == core && banks.contains b)

/-- Everything that a command may read besides records: its read ranges and the scale arrays of a matrix command's operands. -/
def Cmd.readsFrom (c : Cmd) : List Range :=
  match c.kind with
  | .mmac .. => c.reads ++ (c.record 0).scaleRange ++ (c.record 1).scaleRange
  | _ => c.reads

/-- Does a command, once it works, write into one of some banks of a core? -/
def State.reaches (s : State) (core : Nat) (banks : List Nat) (c : Cmd) : Bool :=
  let inBanks (e : Option (Nat × Nat)) : Bool := e.any fun (k, b) => k == core && banks.contains b
  match c.kind with
  | .mcast off _ _ cores =>
    cores.contains core &&
      (c.writes.any fun r => (List.range ((r.hi - r.lo) / 4096 + 2)).any fun i =>
        inBanks (((s.castTeam c.agent core).bind fun t => s.teamScratch t c.part (min (off + 4096 * i) (off + (r.hi - r.lo)))).bind
          fun l => match l with
            | .scr k o => some (k, o / 32768)
            | _ => none))
  | .copy .. | .gath .. | .scat .. | .recv .. => c.writes.any (s.rangeIn core banks c)
  | _ => false

/-- Is a command a copy, a multicast, a gather or a delivery of a message that is in flight (R375)? -/
def Cmd.delivering (c : Cmd) : Bool :=
  c.state == .running &&
    (match c.kind with
      | .copy .. | .mcast .. | .gath .. => true
      | .recv _ _ _ _ _ msg => msg.isSome
      | _ => false)

/-- Does a command in flight deliver into one of some banks of a core (R375)? -/
def State.delivers (s : State) (core : Nat) (banks : List Nat) (c : Cmd) : Bool := c.delivering && s.reaches core banks c

/-- Does a command write into a bank whose use is about to change, or read from one (R375)? -/
def State.cmdStalls (s : State) (c : Cmd) : Bool :=
  s.plat.cores.any fun e => s.banksChange e.1 &&
    (s.reaches e.1 (s.changingBanks e.1) c || c.readsFrom.any (s.rangeIn e.1 (s.changingBanks e.1) c))

/-- Is a command one that a change of banks waits for (R375)? -/
def State.awaited (s : State) (c : Cmd) : Bool :=
  s.plat.cores.any fun e => s.banksChange e.1 && s.delivers e.1 (s.changingBanks e.1) c

/-- Command c makes the next access of unit k; a unit that would fault waits for its fault to be reported. A command for
which a change of banks does not wait stalls before the banks that it writes or reads (R375). -/
def State.work (s : State) (c k : Nat) : State :=
  match s.cmd? c with
  | none => s
  | some x =>
    if !s.awaited x && s.cmdStalls x then s
    else
      match s.unitStep x k with
      | .step s => s
      | _ => s

/-! ## Steps of the engines -/

/-- Is the command held: by an earlier command with which it has an edge, on its engine or saved (R288); by an earlier
command on one of its tiles (R295); by the copy before it (R291); by a change of the banks that it delivers into (R375);
or by a range invalidate of its group that was issued before it and has not handled every line (R224)? -/
def State.cmdHeld (s : State) (c : Cmd) : Bool :=
  c.waitsFor.isSome || c.edges.any s.cmdLive ||
    (s.units.cmds.any fun y => decide (y.id < c.id) && y.grp == c.grp && y.grp != noGroup && c.tiles.any y.tiles.contains) ||
    s.cmdStalls c || s.mem.flight.any fun a => a.grp == c.grp && a.kind == .invalidate && decide (a.id < c.id) && !a.performed

/-- ENGINE_COMMAND_START (R288, R295): the command begins to access memory. -/
def execEngineCommandStart (c : Nat) (s : State) : Out :=
  match s.cmd? c with
  | none => .next s
  | some x => if x.state == .queued && !s.cmdHeld x then .next (s.setCmd { x with state := .running }) else .next s

/-- Has a command done all its work (R285)? -/
def Cmd.finished (c : Cmd) : Bool :=
  c.state == .running && c.done.length == c.total &&
    (match c.kind with
      | .send _ _ _ _ _ told => told
      | .recv _ _ _ _ _ msg => msg.isSome
      | _ => true)

/-- ENGINE_COMMAND_COMPLETE (R285): the command leaves its engine, and its completion mechanism fires: a task decrement is
sent; the last bytes arrive, where the others have arrived one by one; a continuation sees that the command is gone. -/
def execEngineCommandComplete (c : Nat) (s : State) : Out :=
  match s.cmd? c with
  | none => .next s
  | some x =>
    if x.finished then
      .next ((s.arriveBytes x x.core x.lastBytes).modUnits fun u => { u with
        cmds := u.cmds.filter fun y => y.id != c
        decrements := match x.compl with
          | .task id => u.decrements ++ [(clusterOf x.core, x.ctx, id)]
          | _ => u.decrements }).finishLaunches
    else .next s

/-- The units that a fault of unit k leaves unwritten. -/
def Cmd.lostUnits (c : Cmd) (k : Nat) : List Nat :=
  match c.kind with
  | .mcast _ st ct cores =>
    let n := cores.length
    let ds := addStarts st (unravel ct (k / n))
    let r := c.record 0
    if !r.inside ds || (c.cellAt? (r.cellAt ds) r.cell).isSome then [k]
    else (List.range n).map fun i => k / n * n + i
  | .gath _ _ n _ cc | .scat _ _ n _ cc =>
    if k < n then k :: (List.range cc).map fun e => n + k * cc + e else [k]
  | _ => [k]

/-- An output of an MMAC that depends on a faulting element keeps its old value (R299). -/
def State.restoreOut (s : State) (c : Cmd) (k : Nat) : State :=
  match c.kind, s.group? c.grp, c.prog.find? fun p => p.out == k with
  | .mmac b _, some g, some p =>
    let n := mnSize (bits (blkWord b 4) 4 2)
    s.setGroup (g.setTile (blkWord b 4 % 4) (k / n) (k % n) p.old)
  | _, _, _ => s

/-- ENGINE_FAULT (R286, R310): unit k of a command meets a fault: it is left unwritten and counts as arrived, and the group
gets a pending fault. -/
def execEngineFault (c k : Nat) (s : State) : Out :=
  match s.cmd? c with
  | none => .next s
  | some x =>
    if (s.part x.part).tokleft = 0 || (!s.awaited x && s.cmdStalls x) then .next s
    else
    match s.unitStep x k with
    | .fault s u subc pos va =>
      let lost := x.lostUnits u
      let s := (s.restoreOut x u).unitsDone { x with faulted := lost ++ x.faulted,
                                                     prog := x.prog.filter fun p => p.out != u } lost
      .next (s.asyncFault x.grp 0x0F subc pos x.pc va)
    | _ => .next s

/-- CPYM_FOLLOW_ON_HANDOFF (R291): once the copy has landed, the follow-on goes to the matrix unit. -/
def execCpymFollowOnHandoff (c : Nat) (s : State) : Out :=
  match s.cmd? c with
  | none => .next s
  | some x =>
    match x.waitsFor with
    | none => .next s
    | some i => if s.cmdLive i then .next s else .next (s.setCmd { x with waitsFor := none })

/-- The outputs of the rows of a segment (R300). -/
def segUnits (segrows m n seg : Nat) : List Nat :=
  (((List.range m).filter fun i => i / segrows == seg)).flatMap fun i => (List.range n).map fun j => i * n + j

/-- SEGMENT_SUBRECORD_READ (R300): the sub-record of a segment is read once and checked; a fault leaves the segment's rows
unchanged. -/
def execSegmentSubrecordRead (c seg : Nat) (s : State) : Out :=
  match s.cmd? c with
  | none => .next s
  | some x =>
    match x.kind with
    | .mmac b segs =>
      let y := x.record 1
      let e := segs.getD seg 0xFFFF
      let w := blkWord b 4
      let m := mnSize (bits w 2 2)
      let n := mnSize (bits w 4 2)
      if x.state != .running || (s.part x.part).tokleft == 0 || !y.indexed || e == 0xFFFF || decide (seg * y.segrows ≥ m) ||
          x.subRecs.any (fun q => q.1 == seg) then .next s
      else
        let bad (s : State) (subc va : Nat) : Out :=
          .next ((s.unitsDone { x with subRecs := (seg, []) :: x.subRecs } (segUnits y.segrows m n seg)).asyncFault x.grp 0x0F
            subc seg x.pc va)
        if e ≥ y.nsub then bad s 0x03 0
        else
          let va := (y.scale + 64 * e) % 2 ^ 64
          match s.readRecord x.agent va with
          | (s, .wait) => .next s
          | (s, .trap _) => bad s 0x02 va
          | (s, .ok bs) =>
            let r := TRec.ofBytes bs
            let st := if bit w 7 then [blkWord b 6 % 65536, blkWord b 6 / 65536] else [blkWord b 6 / 65536, blkWord b 6 % 65536]
            let ct := if bit w 7 then [bits w 16 16, n] else [n, bits w 16 16]
            if !r.keyOk x.ring false then bad s 0x02 0
            else if !r.plainOk || r.fmt != y.fmt || r.blk != y.blk then bad s 0x03 0
            else if !boxOk r st ct then bad s 0x08 0
            else .next (s.setCmd { x with subRecs := (seg, bs) :: x.subRecs })
    | _ => .next s

/-- BATCH_COMPLETE (R295): the next closed batch of a group completes when no command of it is left. -/
def execBatchComplete (gid : Nat) (s : State) : Out :=
  match s.group? gid with
  | none => .next s
  | some g =>
    let b := g.doneBatch + 1
    if decide (g.batch < b) || s.units.cmds.any (fun c => c.grp == gid && c.batch == some b) then .next s
    else .next (s.setGroup { g with doneBatch := b })

/-- RECORD_CACHE_EVICT (R308). -/
def execRecordCacheEvict (cluster k : Nat) (s : State) : Out :=
  match (s.units.recs.filter fun e => e.cluster == cluster)[k]? with
  | none => .next s
  | some e => .next (s.modUnits fun u => { u with recs := u.recs.erase e })

/-- Writes the status of a message into the sender's register (R304). -/
def State.tellSender (s : State) (c : Cmd) (status : Nat) : State :=
  match c.kind with
  | .send src len dst tag sreg _ =>
    let s := s.setCmd { c with kind := .send src len dst tag sreg true }
    match s.group? c.grp with
    | some g => s.setGroup (g.setS sreg (BitVec.ofNat 32 status))
    | none => s
  | _ => s

/-- Is an earlier message from the same cluster to the same cluster with the same tag still on its way (R304)? -/
def State.sendsBefore (s : State) (c : Cmd) (dst tag : Nat) : Bool :=
  s.units.cmds.any fun y =>
    decide (y.id < c.id) && y.ctx == c.ctx && clusterOf y.core == clusterOf c.core &&
      (match y.kind with
        | .send _ _ d t _ told => d == dst && t == tag && !told
        | _ => false)

/-- Fault 0x0E for every group of a context on a cluster (R306). -/
def State.refuseFaults (s : State) (cl x pos : Nat) : State :=
  (s.groups.filter fun g => g.place.ctx == x && clusterOf g.place.core == cl).foldl
    (fun s g => s.asyncFault g.gid 0x0E 0 pos 0 0) s

/-- MESSAGE_ARRIVAL (R304, R306): a message whose bytes have all been read reaches its cluster: the oldest matching receive
takes it, or the overflow queue, or it is refused. -/
def execMessageArrival (c : Nat) (s : State) : Out :=
  match s.cmd? c with
  | none => .next s
  | some x =>
    match x.kind with
    | .send src len dst tag _ told =>
      if told || x.state != .running || x.done.length != len || s.sendsBefore x dst tag then .next s
      else
        let from' := clusterOf x.core
        let m : Msg := { src := from', tag := tag, len := len, fromQ := false, holes := x.faulted,
                         data := (List.range len).map fun k => ((x.cellAt? ((src + k) % 2 ^ 64) 1).getD []).getD 0 0 }
        if !(s.groups.any fun g => g.place.ctx == x.ctx && clusterOf g.place.core == dst) then .next (s.tellSender x 3)
        else
          match s.units.posted.find? fun p => p.cluster == dst && p.ctx == x.ctx && msgMatches p.src p.tag m with
          | some p =>
            let give (y : Cmd) : Cmd :=
              match y.kind with
              | .recv buf blen src t status _ =>
                if y.id == p.cmd then
                  { y with kind := .recv buf blen src t status (some m), total := min len blen + 4 }
                else y
              | _ => y
            let s := s.modUnits fun u => { u with
              posted := u.posted.erase p
              cmds := u.cmds.map give
              saved := u.saved.map fun k => { k with cmds := k.cmds.map give } }
            .next (s.tellSender x 0)
          | none =>
            if (s.units.overflow.filter fun o => o.cluster == dst && o.part == x.part).length < s.recvShare dst x.part then
              let o : Overflow := { cluster := dst, ctx := x.ctx, part := x.part, msg := m }
              .next (((s.modUnits fun u => { u with overflow := u.overflow ++ [o] }).raiseEvent dst x.ctx 250).tellSender x 1)
            else
              .next (((s.refuseFaults dst x.ctx (65536 * from' + tag)).raiseEvent dst x.ctx 251).tellSender x 2)
    | _ => .next s

end Sys2Proof.Machine
end

