-- ==== Sys2Proof/Machine/Issue.lean ====
section
/-! DEFINITION. Fetching and decoding the instruction that a stream issues next (R28, R74 to R76, R141, R385, R396). -/
namespace Sys2Proof.Machine

/-- What a stream is about to issue: an instruction, or a state in which it traps or waits instead. -/
inductive Issue where
  | instr (s : State) (i : Instr)
  | other (s : State)
  deriving DecidableEq, Repr

/-- Has the group's partition tokens left in the interval (R376)? -/
def State.hasTokens (s : State) (g : Group) : Bool := decide (0 < (s.part g.place.part).tokleft)

/-- The virtual base of the scalar section that the group executes in. -/
def State.scalarBase (s : State) (g : Group) : State × Nat :=
  if g.inHandler then
    match s.useRegs g.place.ctx with
    | (s, r) => (s, r.hbase)
  else (s, ((s.launch? g.place.launch).map (·.scalVa)).getD 0)

/-- What a decoded scalar word does at issue. The words are kept until the instruction is complete, so that one which waits
is not fetched again: no scalar trap is taken inside it (R397). -/
def State.scalarDecoded (s : State) (g : Group) (w0 w1 : Nat) : Issue :=
  match decodeScalar w0 w1 with
  | .ok i => .instr (s.setGroup { g with words := some (w0, w1) }) i
  | .ill c => .other (s.scalarTrap g c 0)

/-- Is a wait that of an instruction which has translated its address and not reached the home slice: a JRAISE or JDONE that
waits there, or a JDONE in its release (R335)? -/
def waitHasPa (w : Option Wait) (words : Option (Nat × Nat)) : Bool :=
  match w, words with
  | some (.home _ _), _ => true
  | some (.sync _ _ _ _ _), some (w0, w1) =>
    (match decodeScalar w0 w1 with
      | .ok (.jdone _ _) => true
      | _ => false)
  | _, _ => false

/-- Is the group's scalar stream not waiting, or is what it waited for there? -/
def Group.ready (g : Group) : Bool :=
  match g.wait with
  | none | some .released | some .seen | some .entered | some (.expired _) => true
  | _ => false

/-- May the front-end choose the group's scalar stream now, as far as the model can tell? -/
def State.mayChoose (s : State) (g : Group) : Bool :=
  !g.suspended && g.ready && !g.holdFirst && g.lanes.fault.isNone && s.hasTokens g

/-- Does the front-end pass over the group: it has yielded, and another group of the core is ready, which is not passed over
itself (R336)? -/
def State.passedOver (s : State) (g : Group) : Bool :=
  g.yielded && s.groups.any fun h => h.gid != g.gid && h.place.core == g.place.core && !h.yielded && s.mayChoose h

/-- The front-end has chosen a group that is ready: it passes over no other of the core any more (R336). -/
def State.chosen (s : State) (g : Group) : State :=
  let skips (h : Group) : Bool := h.yielded && h.gid != g.gid && h.place.core == g.place.core
  if s.mayChoose g && s.groups.any skips then
    { s with groups := s.groups.map fun h => if skips h then { h with yielded := false } else h }
  else s

/-- The next instruction of a group's scalar stream. A pending hold-limit trap comes first (R245). -/
def State.scalarIssue (s : State) (gid : Nat) : Issue :=
  match s.group? gid with
  | none => .other s
  | some g =>
    if g.suspended || !s.hasTokens g || g.lanes.fault.isSome || g.holdFirst ||
        (g.holdTrap && !g.inHandler && g.wait.isNone) || s.passedOver g then .other s
    else
    let s := s.chosen g
    let g := { g with due := none }
    match g.words with
    | some (w0, w1) => s.scalarDecoded g w0 w1
    | none =>
      match s.scalarLen g with
      | (s, len) =>
        if g.spc ≥ len then .other (s.scalarTrap g 0x01 0)
        else
          match s.scalarBase g with
          | (s, base) =>
            if s.codeStalls g.agent (base + 4 * g.spc) 1 then .other s else
            match s.fetch4 g.agent (base + 4 * g.spc) with
            | (s, .fault c) => .other (s.scalarTrap g c 0)
            | (s, .word w0) =>
              if !isSX (w0 / 2 ^ 24) then s.scalarDecoded g w0 0
              else if g.spc + 1 ≥ len then .other (s.scalarTrap g 0x01 0)
              else if s.codeStalls g.agent (base + 4 * g.spc + 4) 1 then .other s
              else
                match s.fetch4 g.agent (base + 4 * g.spc + 4) with
                | (s, .fault c) => .other (s.scalarTrap g c 0)
                | (s, .word w1) => s.scalarDecoded g w0 w1

/-- Fetches n consecutive 4-byte parts of code as one number. -/
def State.fetchParts (s : State) (a : Agent) (va : Nat) : Nat → State × Fetch
  | 0 => (s, .word 0)
  | n + 1 =>
    match s.fetch4 a va with
    | (s, .fault c) => (s, .fault c)
    | (s, .word w) =>
      match State.fetchParts s a (va + 4) n with
      | (s, .fault c) => (s, .fault c)
      | (s, .word r) => (s, .word (w + 2 ^ 32 * r))

/-- The state in which a gang traps before the instruction at its lane PC. -/
def State.laneFault (s : State) (g : Group) (b : BitVec 8) (cause : Nat) : State :=
  let c : Lane := { s := s, g := g, gang := b, pc := g.pcOf b, act := 0 }
  match c.trap cause with
  | .next s => s
  | _ => s

/-- Does one of some strands still take part in the block? -/
def Group.takesPart (g : Group) (b : BitVec 8) : Bool :=
  (g.lanes.strands.zip (List.range 8)).any fun (x, j) => x.part && inGang b j

/-- Does an open generator loop keep a gang from issuing: a switch has been decided (R259), or another gang's interrupted
GYLD executes first, be it for no live lane (R257, R261)? A handler block is no body of the loop. -/
def Group.genHeld (g : Group) (b : BitVec 8) : Bool :=
  match g.gen with
  | none => false
  | some n =>
    !g.inHandler && (n.move.isSome ||
      (n.mode == .producer && n.pend.isSome && g.takesPart n.yielder && n.yielder &&& b == 0))

/-- The next instruction of the gang of a group that holds a strand. -/
def State.laneIssue (s : State) (gid st : Nat) : Issue :=
  match s.group? gid with
  | none => .other s
  | some g =>
    let b := gangOf g.lanes.strands st
    if !g.lanes.running || b == 0 || g.suspended || !s.hasTokens g || g.holdFirst ||
        (s.cluster (clusterOf g.place.core)).withhold then .other s
    else match g.lanes.fault with
    | some f => .other (s.takePartFault g f)
    | none =>
    if g.genHeld b || g.allHeld b then .other s
    else
      let pc := g.pcOf b
      if pc ≥ s.laneLen g then .other (s.laneFault g b 0x01)
      else
        let va := ((s.launch? g.place.launch).map (·.laneVa)).getD 0 + 12 * pc
        if s.codeStalls g.agent va 3 || s.constsStall g then .other s else
        match s.fetchParts g.agent va 3 with
        | (s, .fault c) => .other (s.laneFault g b c)
        | (s, .word w) =>
          match decodeLane w with
          | .ok i => .instr s i
          | .ill c => .other (s.laneFault g b c)

end Sys2Proof.Machine
end

