-- ==== Sys2Proof/Machine/LaneMem.lean ====
section
/-! DEFINITION. Lane loads, stores, prefetches, fences and atomics (R173 to R192). -/
namespace Sys2Proof.Machine

/-! ## Checks of one lane (R174, R192) -/

/-- The comparators that match an access of a group, as a mask (R192). -/
def State.watchHits (s : State) (g : Group) (w : Want) (ea size : Nat) : Nat :=
  if g.inHandler then 0
  else
    ((List.range 4).filter fun n =>
      let c := tget Watch.reset (s.core g.place.core).watch n
      c.en && c.ctx == g.place.ctx && decide (c.base ≤ c.limit) &&
        (match w with
          | .load => c.rd
          | .store => c.wr
          | .atomic _ => c.rd || c.wr) &&
        decide (ea % 2 ^ 57 ≤ c.limit) && decide (c.base ≤ ea % 2 ^ 57 + size - 1)).foldl (fun m n => m + 2 ^ n) 0

/-- The hint that an access of a location follows: through an alias window 1 to 6 act as 0 (R64), and host memory, peer
memory and scratch ignore 1 to 5 (R183). -/
def hintOn (l : Loc) (h : Hint) : Hint :=
  match l, h with
  | .mx _ _ _, _ => .dflt
  | .hbm _, h => h
  | _, .inb => .inb
  | _, _ => .dflt

/-- Is the line in a bundle that the group has entered (check 7 of R174)? -/
def State.inEntered (s : State) (g : Group) (l : Loc) : Bool :=
  match l, g.entered with
  | .hbm pa, some b => s.units.bundles.any fun k => b.ids.contains k.id && k.lines.contains (pa / 128)
  | _, _ => false

/-- The outcome of one lane's checks: the location, or the failing step and its code; with the comparators matched. -/
structure LaneChk where
  lane : Nat
  chk : Chk
  hits : Nat
  deriving DecidableEq, Repr

/-- Does a lane reach a bank that is to change its use, so that the access stalls (R375)? -/
def LaneChk.stalls (r : LaneChk) (s : State) : Bool :=
  match r.chk with
  | .ok l => s.bankStalls l
  | .fail .. => false

/-- All the checks of R174 for one lane, in order. DESIGN CHOICE (log 89): a lane that fails one of steps 1 to 5 is matched by no
comparator, which R192 leaves open. -/
def State.laneCheck (s : State) (g : Group) (noWatch : Bool) (w : Want) (hint : Hint) (ea size l : Nat) :
    State × LaneChk :=
  match s.place g.agent w ea size with
  | (s, .fail n c) => (s, ⟨l, .fail n c, 0⟩)
  | (s, .ok loc) =>
    let hits := if noWatch then 0 else s.watchHits g w ea size
    (s, ⟨l,
      if hits != 0 then .fail 6 0x10
      else if hintOn loc hint == Hint.inb && !s.inEntered g loc then .fail 7 0x0B
      else if s.locBad loc size then .fail 8 0x15
      else .ok loc,
      hits⟩)

/-- The checks of a list of lanes. -/
def State.laneChecks (s : State) (g : Group) (noWatch : Bool) (w : Want) (hint : Hint) (ea : Nat → Nat) (size : Nat) :
    List Nat → State × List LaneChk
  | [] => (s, [])
  | l :: ls =>
    match s.laneCheck g noWatch w hint (ea l) size l with
    | (s, r) =>
      match State.laneChecks s g noWatch w hint ea size ls with
      | (s, rs) => (s, r :: rs)

/-- The step at which a lane failed, if it did. -/
def LaneChk.stage (r : LaneChk) : Nat :=
  match r.chk with
  | .ok _ => 9
  | .fail n _ => n

/-- The fault code of a lane. -/
def LaneChk.code (r : LaneChk) : Nat :=
  match r.chk with
  | .ok _ => 0
  | .fail _ c => c

/-- Is a failing step one that stops the whole instruction (R174)? -/
def stopping (stage : Nat) : Bool := stage != 3 && stage != 8 && stage != 9

/-! ## The frame of a lane access -/

/-- What a lane memory instruction does: its width, kind of check, order, scope, PROM, hint, and whether its gang issues
nothing further until its values have arrived. -/
structure MemOp where
  size : Nat
  want : Want
  ord : MOrd
  sc : Scope
  prom : Bool
  hint : Hint
  stays : Bool

/-- Issues the accesses of the lanes that passed, in ascending lane order (R176): the state, the group with `%uas`
counted, and the identities. -/
def State.issueLanes (s : State) (g : Group) (mk : Nat → Loc → Nat → Access) :
    List LaneChk → State × Group × List Nat
  | [] => (s, g, [])
  | r :: rs =>
    match r.chk with
    | .ok l =>
      match s.issueAcc g (mk r.lane l s.nextId) with
      | (s1, g1) =>
        match State.issueLanes s1 g1 mk rs with
        | (s2, g2, ids) => (s2, g2, s.nextId :: ids)
    | .fail _ _ => State.issueLanes s g mk rs

/-- The cause and sub-code of a partial fault (R175). -/
def partCause (rs : List LaneChk) : Nat × Nat :=
  if rs.any fun r => r.stage == 8 then (0x15, if rs.any fun r => r.stage == 3 then 1 else 0) else (0x04, 0)

/-- The holds that an instruction with these accesses puts its gang under (R182, R26, R54). -/
def MemOp.holds (op : MemOp) (own : BitVec 8) (ids : List Nat) : List Hold :=
  if ids.isEmpty then []
  else
    (if ordAcq op.ord then [acquireHold own ids op.sc] else []) ++
      if op.stays then [{ acquireHold own ids op.sc with all := true, acquire := false }] else []

/-- Issues the accesses of the lanes that passed their checks (R176, R182). -/
def Lane.issue (c : Lane) (op : MemOp) (rs : List LaneChk) (mk : Nat → Access → Access) : Lane :=
  let rel := if ordRel op.ord then c.s.releaseIds c.g c.gang op.sc else []
  match (c.s.setPromotion c.g op.ord op.sc).startDrain c.g.place.ctx (op.prom && ordAcq op.ord) with
  | (s, d) =>
    let base (l : Nat) (loc : Loc) (id : Nat) : Access :=
      mk l { c.g.access id .load loc op.size with
        scalar := false, own := c.gang, lane := l, ord := op.ord, sc := op.sc, hint := hintOn loc op.hint, relWait := rel, drain := d }
    match s.issueLanes c.g base rs with
    | (s, g, ids) =>
      { c with
        s := s
        g := { g with
          lanes := { g.lanes with wpSkip := g.lanes.wpSkip &&& ~~~c.gang }
          holds := g.holds ++ op.holds c.gang ids } }

/-- Checks and issues the accesses of a list of lanes (R174 to R176, R182). A stopping fault commits nothing. A partial
fault commits the lanes that pass, and its trap is taken before anything else of the group issues (R43, R175). An instruction
that reaches a bank which is to change its use stalls, unless it faults (R375). -/
def Lane.access (c : Lane) (op : MemOp) (lanes : List Nat) (ea : Nat → Nat) (mk : Nat → Access → Access) : Out :=
  if c.g.memHeld c.gang then .next c.s
  else
    match c.s.laneChecks c.g (c.g.lanes.wpSkip &&& c.gang != 0) op.want op.hint ea op.size lanes with
    | (s, rs) =>
      let stage := (rs.map (·.stage)).foldl min 9
      let failed := maskOf ((rs.filter fun r => r.stage != 9).map (·.lane))
      if rs.any fun r => stopping r.stage then
        let code := ((rs.find? fun r => r.stage == stage).map (·.code)).getD 0
        let hits := (rs.map (·.hits)).foldl (· ||| ·) 0
        let subc := if stage = 6 then hits else if stage = 7 then 0x08 else 0
        let g := { c.g with lanes := { c.g.lanes with replay := (c.gang, c.act) :: c.g.lanes.replay } }
        { c with s := s, g := g }.trapAt code subc 0 c.pc 0
          (maskOf ((rs.filter fun (r : LaneChk) => r.hits != 0).map fun (r : LaneChk) => r.lane))
      else if rs.any fun r => r.stalls s then .next c.s
      else if failed = 0 then ({ c with s := s }.issue op rs mk).finish []
      else if rs.all fun r => r.stage != 9 then
        { c with s := s }.trapAt (partCause rs).1 (partCause rs).2 0 c.pc failed 0
      else if c.s.mayFault c.g c.s.nextId then .next c.s
      else
        let d := { c with s := s }.issue op rs mk
        let f : PartFault :=
          { own := c.gang, cause := (partCause rs).1, subc := (partCause rs).2, lpc := c.pc, lanes := failed }
        .next (d.s.setGroup { d.g with lanes := { d.g.lanes with fault := some f } })

/-- The address of each lane (R173). -/
def Lane.ea (c : Lane) (b : Opnd) (off : Int) (l : Nat) : Nat := wrapTo 64 ((c.read 2 (fun _ => 0) b l : Nat) + off)

/-! ## Loads, stores, prefetch (R177 to R184) -/

/-- The registers that a load delivers into in a lane: the low word first (R178, R179). -/
def loadDests (a : Opnd) (n l : Nat) : List Dest :=
  match a with
  | .v r => (List.range n).map fun i => .v (r + i) l
  | .s r => (List.range n).map fun i => .s (r + i)
  | .sp r => [.sp r l]
  | _ => []

/-- Is one access made, for the lowest active lane: to a scalar register (R179)? -/
def oneLane (a : Opnd) : Bool :=
  match a with
  | .s _ => true
  | _ => false

/-- Must a loaded value be there before the gang goes on: a mask governs its next instruction (R26, R200), and a rounding
mode may turn out to be invalid, which is a precise trap (R54, log 72)? -/
def loadStays (a : Opnd) : Bool :=
  match a with
  | .sp 8 | .sp 10 => true
  | _ => false

/-- What a load delivers in a lane: %exec takes the value of the lowest lane of ACT alone (R26). -/
def ldDests (act : Mask) (a : Opnd) (n l : Nat) : List Dest :=
  match a with
  | .sp 8 => if lowLane act == some l then [.sp 8 l] else []
  | a => loadDests a n l

/-- LD (R178, R179). -/
def execLd (h : Hdr) (w : MTy) (sx : Bool) (o : MOrd) (sc : Scope) (prom : Bool) (ch : Hint) (a b : Opnd) (off : Int)
    (s : State) : Out :=
  laneInstr s h [(a, w.regs)] [(b, 2)] fun c =>
    let lanes := if oneLane a then (lanesOf c.act).take 1 else lanesOf c.act
    c.access ⟨w.bytes, .load, o, sc, prom, ch, loadStays a⟩ lanes (c.ea b off) fun l x =>
      { x with dests := ldDests c.act a w.regs l, signed := sx }

/-- The vector element that receives a tag (R180, R187). -/
def tagDest (seq : Bool) (a : Opnd) (n l : Nat) : Option Dest :=
  match a with
  | .v r => if seq then some (.v (r + n) l) else none
  | _ => none

/-- ST (R180). -/
def execSt (h : Hdr) (w : MTy) (o : MOrd) (sc : Scope) (ch : Hint) (seq : Bool) (a b d : Opnd) (off : Int) (s : State) :
    Out :=
  laneInstr s h [(a, 1)] [(b, 2), (d, w.regs)] fun c =>
    c.access ⟨w.bytes, .store, o, sc, false, ch, false⟩ (lanesOf c.act) (c.ea b off) fun l x =>
      { x with kind := .store, data := leBytes w.bytes (c.readMem w d l), tagDest := tagDest seq a 0 l }

/-- PFX: a lane that would fault is skipped, and nothing is ordered or counted (R184). -/
def execPfx (h : Hdr) (sc : Scope) (_ch : Hint) (b : Opnd) (off : Int) (s : State) : Out :=
  laneInstr s h [] [(b, 2)] fun c =>
    if c.g.memHeld c.gang then .next c.s
    else
      { c with s := (lanesOf c.act).foldl (fun s l => s.prefetch c.g.agent false sc (c.ea b off l)) c.s }.finish []

/-! ## Fence (R185) -/

/-- FENCE: it acts for the gang whatever its lanes, and holds the gang's later memory instructions until it completes
(R27, R185): the release first, then the promotion drain, then the invalidation. -/
def execFence (h : Hdr) (o : MOrd) (sc : Scope) (prom : Bool) (s : State) : Out :=
  laneInstr s h [] [] fun c =>
    if c.g.memHeld c.gang then .next c.s
    else
      let hold : Hold :=
        { own := c.gang, all := false, values := if ordAcq o then c.s.gangValues c.g c.gang else [],
          acks := if ordRel o then c.s.releaseIds c.g c.gang sc else [], sc := sc, drain := none,
          acquire := ordAcq o && sc != .grp, ratchet := none, prom := prom && ordAcq o }
      match { c with s := c.s.setPromotion c.g o sc, g := { c.g with holds := c.g.holds ++ [hold] } }.finish [] with
      | .next t => .next t.settle
      | o => o

/-! ## Atomics (R186 to R190) -/

/-- Does host memory accept the atomic (R190)? -/
def aopHost (op : AOp) (t : ATy) : Bool :=
  match op with
  | .add | .exch => t.isInt
  | _ => false

/-- An atomic operand as a lane reads it: an immediate converts to the type (R80). -/
def Lane.readAty (c : Lane) (t : ATy) (o : Opnd) (l : Nat) : Nat :=
  match t with
  | .i32 | .n32 => c.read 1 (immInt 32 1) o l
  | .i64 | .n64 => c.read 2 (immInt 64 2) o l
  | .f32 => c.read 1 (immFlt fp32) o l
  | .bf16x2 => c.read 1 (immFlt bf16) o l

/-- ATOM (R187). -/
def execAtom (h : Hdr) (op : AOp) (t : ATy) (o : MOrd) (sc : Scope) (prom : Bool) (ch : Hint) (seq : Bool)
    (a b d : Opnd) (s : State) : Out :=
  laneInstr s h [(a, t.regs + if seq then 1 else 0)] [(b, 2), (d, t.regs)] fun c =>
    c.access ⟨4 * t.regs, .atomic (aopHost op t), o, sc, prom, ch, false⟩ (lanesOf c.act) (c.ea b 0) fun l x =>
      { x with kind := .rmwLane op t, data := leBytes (4 * t.regs) (c.readAty t d l), dests := loadDests a t.regs l,
               tagDest := tagDest seq a t.regs l }

/-- ACAS: C is the expected value and D the new one (R188). -/
def execAcas (h : Hdr) (t : ATy) (o : MOrd) (sc : Scope) (prom : Bool) (ch : Hint) (seq : Bool) (a b d e : Opnd)
    (s : State) : Out :=
  laneInstr s h [(a, t.regs + if seq then 1 else 0)] [(b, 2), (d, t.regs), (e, t.regs)] fun c =>
    c.access ⟨4 * t.regs, .atomic true, o, sc, prom, ch, false⟩ (lanesOf c.act) (c.ea b 0) fun l x =>
      { x with kind := .cas, data := leBytes (4 * t.regs) (c.readAty t d l),
               data2 := leBytes (4 * t.regs) (c.readAty t e l), dests := loadDests a t.regs l,
               tagDest := tagDest seq a t.regs l }

/-- ARED: no value is returned, only a tag with `.seq` (R189). -/
def execAred (h : Hdr) (op : AOp) (t : ATy) (o : MOrd) (sc : Scope) (ch : Hint) (seq : Bool) (a b d : Opnd)
    (s : State) : Out :=
  laneInstr s h [(a, 1)] [(b, 2), (d, t.regs)] fun c =>
    c.access ⟨4 * t.regs, .atomic (aopHost op t), o, sc, false, ch, false⟩ (lanesOf c.act) (c.ea b 0) fun l x =>
      { x with kind := .rmwLane op t, data := leBytes (4 * t.regs) (c.readAty t d l), tagDest := tagDest seq a 0 l }

end Sys2Proof.Machine
end

