-- ==== Sys2Proof/Machine/LaneControl.lean ====
section
/-! DEFINITION. Control steps of the lane stream: branches and joins, calls, the end of a lane block and of lanes, and
lane traps (R31, R34 to R37, R83, R195 to R198, R264). -/
namespace Sys2Proof.Machine

/-- Changes the strands of the group. -/
def Group.modLanes (g : Group) (f : List Strand → List Strand) : Group :=
  { g with lanes := { g.lanes with strands := f g.lanes.strands } }

/-- The running lane block ends (R31): EXEC becomes LIVE, and the old values of scalar registers that it might still have
read are gone (R33). -/
def Group.endBlock (g : Group) : Group := { g with lanes := Lanes.idle, oldS := [] }

/-- The group with the strands of the gang marked as standing at `LEND` or `GRET` (R31, R261). -/
def Lane.reach (c : Lane) : Group := c.g.modLanes (modStrands c.gang fun _ x => { x with reached := true })

/-- Has every participating strand been found at `LEND` or `GRET`? -/
def Group.allReached (g : Group) : Bool := g.lanes.strands.all fun x => !x.part || x.reached

/-- The strands of the gang, with their numbers. -/
def Lane.strands (c : Lane) : List (Strand × Nat) :=
  (c.g.lanes.strands.zip (List.range 8)).filter fun e => inGang c.gang e.2

/-- Is a lane word index inside the lane section (R83)? -/
def Lane.inSection (c : Lane) (target : Int) : Bool := decide (0 ≤ target) && decide (target < (c.s.laneLen c.g : Nat))

/-- A control step: every strand of the gang moves as `f` says; strands with different new PCs become separate gangs
(R34). -/
def Lane.control (c : Lane) (f : Nat → Strand → Strand) : Out :=
  .next (c.spent.setGroup (c.g.modLanes fun l => regangNumbers c.gang (modStrands c.gang f l)))

/-- The active lanes of a strand in which the guard holds, as its four bits. -/
def Lane.taken (c : Lane) (j : Nat) : BitVec 4 := strandBits c.act j

/-- BRL (R34): the overflow check covers every strand before any changes. -/
def execBrl (h : Hdr) (toff joff : Int) (s : State) : Out :=
  laneInstr s h [] [] fun c =>
    let target : Int := c.pc + toff
    let join : Int := c.pc + joff
    if !(c.inSection target && c.inSection join) then c.trap 0x01
    else if c.strands.any fun (x, j) => c.taken j != x.active && c.taken j != 0 && x.stack.length == 8 then c.trap 0x17
    else
      c.control fun j x =>
        let t := c.taken j
        if t == x.active then { x with pc := target.toNat }
        else if t == 0 then { x with pc := c.pc + 1 }
        else
          { x with
            active := t
            pc := target.toNat
            stack := { jpc := join.toNat, npc := c.pc + 1, pend := x.active &&& ~~~t, save := x.active } :: x.stack }

/-- JOIN on one strand at word `pc` (R35). -/
def Strand.join (live : BitVec 4) (pc : Nat) (x : Strand) : Strand :=
  match x.stack with
  | e :: r =>
    if e.jpc == pc then
      if e.pend != 0 then { x with active := e.pend &&& live, pc := e.npc, stack := { e with pend := 0 } :: r }
      else { x with active := e.save &&& live, pc := pc + 1, stack := r }
    else { x with pc := pc + 1 }
  | [] => { x with pc := pc + 1 }

/-- JOIN: always a regang point (R35, R37). -/
def execJoin (sw _rg : Bool) (s : State) : Out :=
  laneFrame s true sw none [] [] fun c => c.control fun j x => x.join (strandBits c.g.regs.live j) c.pc

/-- Is the group in a body of an open generator loop (R264)? -/
def Group.inLoop (g : Group) : Bool := g.gen.isSome && !g.inHandler

/-- LEND: a strand that reaches it in an open loop or with a non-empty stack traps; it ends the block when every
participating strand has reached one, at whatever word (R31, R36, R37, R264). -/
def execLend (sw _rg : Bool) (s : State) : Out :=
  laneFrame s true sw none [] [] fun c =>
    if c.g.inLoop then c.trapAt 0x0C 0x07 0 c.pc 0 0
    else if c.strands.any fun (x, _) => !x.stack.isEmpty then c.trap 0x01
    else .next (c.s.setGroup (if c.reach.allReached then c.reach.endBlock else c.reach))

/-- The join point that marks a call entry (R195). -/
def callMark : Nat := 0x3FFFFF

/-- LCALL (R195). -/
def execLcall (h : Hdr) (toff : Int) (s : State) : Out :=
  laneInstr s h [] [] fun c =>
    let target : Int := c.pc + toff
    if !c.inSection target then c.trap 0x01
    else if c.strands.any fun (x, j) => c.taken j != 0 && x.stack.length == 8 then c.trap 0x17
    else
      c.control fun j x =>
        if c.taken j == 0 then { x with pc := c.pc + 1 }
        else
          { x with
            active := c.taken j
            pc := target.toNat
            stack := { jpc := callMark, npc := c.pc + 1, pend := 0, save := x.active } :: x.stack }

/-- LRET on one strand (R196). -/
def Strand.callReturn (live : BitVec 4) (x : Strand) : Strand :=
  match x.stack with
  | e :: r => { x with active := e.save &&& live, pc := e.npc, stack := r }
  | [] => x

/-- Is a call entry on top of the strand's stack? -/
def Strand.inCall (x : Strand) : Bool :=
  match x.stack with
  | e :: _ => e.jpc == callMark
  | [] => false

/-- LRET: the guard does not matter (R196). -/
def execLret (h : Hdr) (s : State) : Out :=
  laneInstr s h [] [] fun c =>
    if c.strands.any fun (x, _) => !x.inCall then c.trap 0x01
    else c.control fun j x => x.callReturn (strandBits c.g.regs.live j)

/-- What accesses of lanes that have ended would deliver is lost; the accesses still complete (R197). -/
def MemSys.loseLanes (m : MemSys) (gid : Nat) (dead : Mask) : MemSys :=
  { m with flight := m.flight.map fun a =>
      if a.grp == gid && !a.scalar && dead.getLsbD a.lane then { a with dests := [], tagDest := none } else a }

/-- LEXIT: the active lanes leave LIVE, EXEC and the saved masks for good; a strand with no live lane takes no further part,
and with no participating strand left the block ends at once (R36, R197, R201, R264). -/
def execLexit (h : Hdr) (s : State) : Out :=
  laneInstr s h [] [] fun c =>
    if c.g.inLoop then c.trapAt 0x0C 0x07 0 c.pc 0 0
    else
      let live := c.g.regs.live &&& ~~~c.act
      let out (j : Nat) (x : Strand) : Strand :=
        { x.dropLanes (strandBits live j) with pc := c.pc + 1, part := x.part && strandBits live j != 0 }
      let g := { c.g with regs := { c.g.regs with live := live } }.modLanes (modStrands c.gang out)
      let g := if g.lanes.strands.all fun x => !x.part then g.endBlock else g
      .next ((c.s.modMem fun m => m.loseLanes c.g.gid c.act).setGroup g)

/-- LTRAP: only with an active lane; `%lpc` is the word after it (R198). -/
def execLtrap (h : Hdr) (code : Nat) (s : State) : Out :=
  laneInstr s h [] [] fun c => if c.act = 0 then c.finish [] else c.trapAt 0x11 0 code (c.pc + 1) 0 0

/-- LBKPT (R198). -/
def execLbkpt (h : Hdr) (s : State) : Out :=
  laneInstr s h [] [] fun c => if c.act = 0 then c.finish [] else c.trapAt 0x12 0 0 (c.pc + 1) 0 0

end Sys2Proof.Machine
end

