-- ==== Sys2Proof/Machine/Generators.lean ====
section
/-! DEFINITION. Generators (R252 to R266): the loop state, the producer's and the consumer's instructions, and the steps
that switch between the two sides. -/
namespace Sys2Proof.Machine

/-! ## Frames (R253) -/

/-- The status of frame f. -/
def Gen.status (n : Gen) (f : Nat) : FrameStatus := if f = 0 then n.st0 else n.st1

/-- Sets the status of frame f. -/
def Gen.setStatus (n : Gen) (f : Nat) (x : FrameStatus) : Gen := if f = 0 then { n with st0 := x } else { n with st1 := x }

/-- The frame with status fill. -/
def Gen.fill? (n : Gen) : Option Nat := if n.st0 == .fill then some 0 else if n.st1 == .fill then some 1 else none

/-- The key of word w of slot j of frame f. -/
def slotKey (f j w : Nat) : Nat := 128 * f + 4 * j + w

/-- The slot number of a lane: its place among the live lanes at GBEG. -/
def Gen.slotOf (n : Gen) (l : Nat) : Option Nat := n.owner.findIdx? (· == l)

/-- Places one value in the next slot of the fill frame f; a full frame becomes ready (R256). -/
def Gen.place (n : Gen) (f : Nat) (ws : List Word) : Gen :=
  let n := { n with
    slots := tsetAll n.slots ((ws.zip (List.range ws.length)).map fun (w, i) => (slotKey f n.fc i, w))
    fc := n.fc + 1 }
  if n.fc = n.size then
    let n := { n.setStatus f .ready with ready := n.ready ++ [f], fc := 0 }
    if n.status (1 - f) == .free then n.setStatus (1 - f) .fill else n
  else n

/-- Places the values of lanes in order; the lanes that find no fill frame are left (R256). -/
def Gen.yieldAll (val : Nat → List Word) : Gen → List Nat → Gen × List Nat
  | n, [] => (n, [])
  | n, l :: ls =>
    match n.fill? with
    | none => (n, l :: ls)
    | some f => Gen.yieldAll val (n.place f (val l)) ls

/-- The frame is free; with no fill frame it becomes the fill frame (R261). -/
def Gen.freeFrame (n : Gen) (f : Nat) : Gen :=
  let n := n.setStatus f .free
  if n.fill?.isNone then { n.setStatus f .fill with fc := 0 } else n

/-! ## The two sides -/

/-- The whole group as one gang at a lane word, with empty stacks and the given lanes active (R31, R259, R262). What the gangs
had left to do on their next instruction is not the new gang's. -/
def Group.converge (g : Group) (pc : Nat) (m : Mask) : Group :=
  ({ g with lanes := { g.lanes with replay := [], wpSkip := 0 } } : Group).modLanes fun l => (l.zip (List.range 8)).map fun (_, j) =>
    { pc := pc, active := strandBits (m &&& g.regs.live) j, stack := [], gang := 0,
      part := strandBits g.regs.live j != 0, reached := false }

/-- The consumer starts on frame f, of which k slots hold values (R259, R261, R262). -/
def Group.consume (g : Group) (n : Gen) (f k : Nat) : Group :=
  { g.converge n.consPc (maskOf (n.owner.take k)) with gen := some { n with cur := f } }

/-- Control goes to the GEND at the loop's end (R262). -/
def Group.toEnd (g : Group) (n : Gen) : Group :=
  { g.converge n.endPc g.regs.live with gen := some { n with atEnd := true } }

/-- What a drain does next: the oldest ready frame, then the fill frame if it holds a value, then the loop's end
(R261, R262). -/
def Group.drainNext (g : Group) (n : Gen) : Group :=
  match n.ready with
  | f :: r => g.consume { n with ready := r } f n.size
  | [] =>
    match n.fill? with
    | some f => if n.fc > 0 then g.consume n f n.fc else g.toEnd n
    | none => g.toEnd n

/-- A lane instruction of a generator in its own mode: in a handler block it is a double fault (R265), a group without a
reservation traps (R252), and where `ok` does not hold it takes trap 0x0C. -/
def Lane.inMode (c : Lane) (ok : Gen → Bool) (subc : Nat) (k : Gen → Out) : Out :=
  if c.g.inHandler then c.trapAt 0x0C 0x09 0 c.pc 0 0
  else if !c.g.info.gen then c.trapAt 0x0C 0x06 0 c.pc 0 0
  else
    match c.g.gen with
    | some n => if ok n then k n else c.trapAt 0x0C subc 0 c.pc 0 0
    | none => c.trapAt 0x0C subc 0 c.pc 0 0

/-- Is the loop in the producer? -/
def Gen.producing (n : Gen) : Bool := n.mode == .producer

/-- The registers of a value in the group's open loop; 1 with no loop. -/
def State.genWords (s : State) : Nat :=
  match s.laneTurn? with
  | some (g, _) => (g.gen.map fun n => n.vw + 1).getD 1
  | none => 1

/-! ## Instructions -/

/-- Does the lane word hold GEND (R255)? DESIGN CHOICE (log 71): a word that cannot be fetched, or that is no legal GEND, does not:
check 5 of GBEG fails. -/
def State.holdsGend (s : State) (g : Group) (pc : Nat) : Bool :=
  let va := ((s.launch? g.place.launch).map (·.laneVa)).getD 0 + 12 * pc
  decide (pc < s.laneLen g) &&
    (match (s.fetchParts g.agent va 3).2 with
      | .fault _ => false
      | .word w =>
        match decodeLane w with
        | .ok (.gend _ _) => true
        | _ => false)

/-- Is the gang the group's only gang, with every live lane active (R255)? -/
def Lane.wholeGroup (c : Lane) : Bool :=
  (c.g.lanes.strands.zip (List.range 8)).all (fun (x, j) => !x.part || inGang c.gang j) && c.g.exec == c.g.regs.live

/-- The loop that GBEG opens (R255). -/
def Lane.newGen (c : Lane) (vw tn : Nat) (prod cons : Nat) : Gen :=
  let owner := lanesOf c.g.regs.live
  { owner := owner, vw := vw, thr := tn, mode := .producer, st0 := .fill, st1 := .free, fc := 0, ready := [], cur := 0,
    size := owner.length, pend := none, yielder := 0, done := 0, prodPc := prod, consPc := cons, endPc := c.pc + 1, savedProd := none,
    outer := c.g.lanes.strands.map (·.stack), move := none, atEnd := false, slots := [] }

/-- GBEG (R255): its checks in order, then each strand goes to the producer with an empty stack. -/
def execGbeg (sw rg : Bool) (vw tn : Nat) (poff coff : Int) (s : State) : Out :=
  laneFrame s rg sw none [] [] fun c =>
    let prod : Int := c.pc + poff
    let cons : Int := c.pc + coff
    if !(c.inSection prod && c.inSection cons) then c.trap 0x01
    else if c.g.inHandler then c.trapAt 0x0C 0x09 0 c.pc 0 0
    else if !c.g.info.gen then c.trapAt 0x0C 0x06 0 c.pc 0 0
    else if c.g.gen.isSome then c.trapAt 0x0C 0x01 0 c.pc 0 0
    else if !c.wholeGroup then c.trapAt 0x0C 0x05 0 c.pc 0 0
    else if !c.s.holdsGend c.g (c.pc + 1) then c.trapAt 0x0C 0x04 0 c.pc 0 0
    else
      let g := c.g.modLanes fun l => l.map fun x => { x with stack := [], pc := prod.toNat }
      .next (c.spent.setGroup { g with gen := some (c.newGen vw tn prod.toNat cons.toNat) })

/-- The lanes that a GYLD yields: those of the pending mask that live, and no others, when it executes again (R256, R257). -/
def Lane.yielding (c : Lane) (n : Gen) : Mask :=
  match n.pend with
  | some m => if n.yielder &&& c.gang != 0 then m &&& c.g.regs.live else c.act
  | none => c.act

/-- GYLD (R256): with lanes left and no frame to fill, the group switches to the consumer (R257). -/
def execGyld (h : Hdr) (b : Opnd) (s : State) : Out :=
  laneInstr s h [] [(b, s.genWords)] fun c =>
    c.inMode Gen.producing 0x02 fun n =>
      let val (l : Nat) : List Word :=
        (List.range (n.vw + 1)).map fun i => BitVec.ofNat 32 (c.read (n.vw + 1) (fun _ => 0) b l / 2 ^ (32 * i))
      match n.yieldAll val (lanesOf (c.yielding n)) with
      | (m, []) => { c with g := { c.g with gen := some { m with pend := none } } }.finish []
      | (m, l :: ls) =>
        .next (c.spent.setGroup { c.g with
          gen := some { m with pend := some (maskOf (l :: ls)), yielder := c.gang, move := some .toConsumer } })

/-- GNXT (R257): it checks the rule even with no active lane. -/
def execGnxt (h : Hdr) (s : State) : Out :=
  laneInstr s h [] [] fun c =>
    c.inMode Gen.producing 0x02 fun n =>
      let move := if n.ready.length ≥ n.thr + 1 then some GenMove.toConsumer else none
      { c with g := { c.g with gen := some { n with move := move } } }.finish []

/-- GDNE: its active lanes are done and leave the producer's masks; a strand with no lane that is not done stops, and
when every live lane is done the loop drains (R257, R258, R262). -/
def execGdne (h : Hdr) (s : State) : Out :=
  laneInstr s h [] [] fun c =>
    c.inMode Gen.producing 0x02 fun n =>
      let done := n.done ||| c.act
      let left := c.g.regs.live &&& ~~~done
      let out (j : Nat) (x : Strand) : Strand :=
        { x.dropLanes (~~~(c.taken j)) with pc := c.pc + 1, part := x.part && strandBits left j != 0 }
      let g := c.g.modLanes (modStrands c.gang out)
      .next (c.spent.setGroup { g with
        gen := some { n with done := done, move := if left = 0 then some .toDrain else none } })

/-- The slots that the current frame holds for this consumer pass (R260). -/
def Gen.held (n : Gen) : Nat := if n.status n.cur == .ready then n.size else n.fc

/-- GRCV (R260). -/
def execGrcv (h : Hdr) (a : Opnd) (s : State) : Out :=
  laneInstr s h [(a, s.genWords)] [] fun c =>
    c.inMode (fun n => !n.producing) 0x03 fun n =>
      c.finish ((lanesOf c.act).flatMap fun l =>
        match n.slotOf l with
        | none => []
        | some j =>
          if j < n.held then
            resOf c.gang a (n.vw + 1) l (spanVal (fun i => tget 0 n.slots (slotKey n.cur j i)) (n.vw + 1))
          else [])

/-- GRET (R261): it issues when every strand has reached it. -/
def execGret (sw rg : Bool) (s : State) : Out :=
  laneFrame s rg sw none [] [] fun c =>
    c.inMode (fun n => !n.producing) 0x03 fun n =>
      if c.strands.any fun (x, _) => !x.stack.isEmpty then c.trapAt 0x0C 0x08 0 c.pc 0 0
      else if !c.reach.allReached then .next (c.s.setGroup c.reach)
      else
        let n := n.freeFrame n.cur
        .next (c.spent.setGroup
          (match n.mode, n.ready with
            | .consumer, f :: r => c.g.consume { n with ready := r } f n.size
            | .consumer, [] => { c.g with gen := some { n with move := some .toProducer } }
            | _, _ => c.g.drainNext n))

/-- GEND: only as the destination of a drain; the outer stacks come back and the loop is closed (R263). -/
def execGend (sw rg : Bool) (s : State) : Out :=
  laneFrame s rg sw none [] [] fun c =>
    c.inMode (fun n => n.atEnd && n.endPc == c.pc) 0x04 fun n =>
      let g := c.g.converge (c.pc + 1) c.g.regs.live
      let g := g.modLanes fun l => (l.zip n.outer).map fun (x, st) => { x with stack := st }
      .next (c.spent.setGroup { g.modLanes (dropDead g.regs.live) with gen := none })

/-! ## Switches (R259, R261, R262) -/

/-- A switch that group `gid` has decided on completes: every result of the side that stops has landed first, and a trap is
taken first (R259). -/
def genSwitch (gid : Nat) (m : GenMove) (s : State) (k : Group → Gen → Group) : Out :=
  match s.group? gid with
  | none => .next s
  | some g =>
    match g.gen with
    | none => .next s
    | some n =>
      if n.move == some m && !g.inHandler && !g.suspended && g.lanes.fault.isNone && (s.gangLoads g 0xFF).isEmpty &&
          !s.mayFault g s.nextId then
        .next (s.setGroup (k g.landEvery { n with move := none }))
      else .next s

/-- GEN_SWITCH_TO_CONSUMER: the producer is saved and the consumer starts on the oldest ready frame (R259). -/
def execGenSwitchToConsumer (gid : Nat) (s : State) : Out :=
  genSwitch gid .toConsumer s fun g n =>
    match n.ready with
    | f :: r => g.consume { n with mode := .consumer, savedProd := some g.lanes, ready := r } f n.size
    | [] => { g with gen := some n }

/-- GEN_RETURN_TO_PRODUCER: the producer comes back with its gangs (R261). -/
def execGenReturnToProducer (gid : Nat) (s : State) : Out :=
  genSwitch gid .toProducer s fun g n =>
    let n' := n.savedProd
    let n := { n with mode := .producer, savedProd := none }
    let back := (n'.map fun l => { l with k := g.lanes.k }).getD g.lanes
    let lanes := back.prune g.regs.live (n.left g.regs.live)
    { g with
      lanes := lanes
      gen := if lanes.running then some (n.afterLoss g.regs.live) else none }

/-- GEN_DRAIN: the frames that hold values are consumed, then control goes to the loop's end (R262). -/
def execGenDrain (gid : Nat) (s : State) : Out :=
  genSwitch gid .toDrain s fun g n => g.drainNext { n with mode := .drain }

end Sys2Proof.Machine
end

