-- ==== Sys2Proof/Machine/LaneFloat.lean ====
section
/-! DEFINITION. Lane floating-point instructions and conversions (R156 to R165). -/
namespace Sys2Proof.Machine

/-- The mode of an instruction: DYN takes %rmode, or an old value that a scalar write under the block left possible
(R53, R54). -/
def Lane.mode (c : Lane) (r : Rnd) : Rnd :=
  match r with
  | .dyn =>
    let olds := (c.g.oldS.filter fun e => e.1 == rmodeKey).map (·.2.toNat)
    let m := match olds with
      | [] => c.g.regs.rmode
      | _ => (c.g.regs.rmode :: olds).getD (Config.freeNat (2 ^ 60 + 2 ^ 40 * c.s.draws + rmodeKey) % (olds.length + 1)) 0
    (Rnd.ofCode m).getD .rn
  | r => r

/-- Writes n elements of width w, each computed with the lane's next draw (R55, R146), into `regs` registers. -/
def Lane.roundedN (c : Lane) (d : Opnd) (regs n w : Nat) (nf : Bool) (f : Nat → Nat → Nat → Nat × Nat × Bool) : Out :=
  let run (l : Nat) := withDraws (fun i st => f l i st) (List.range n) (c.g.getLfsr l).toNat
  c.writeAnd d regs (fun l => (packElems w (run l).1, nfFlags nf (run l).2.1))
    ((lanesOf c.act).flatMap fun l =>
      if (run l).2.2.2 then
        [{ own := c.gang, dest := .sp 19 l, val := BitVec.ofNat 32 (run l).2.2.1, orIn := true }]
      else [])

/-- Writes one register of elements of a float format. -/
def Lane.rounded (c : Lane) (d : Opnd) (regs : Nat) (g : FFmt) (nf : Bool)
    (f : Nat → Nat → Nat → Nat × Nat × Bool) : Out :=
  c.roundedN d regs (32 * regs / g.width) g.width nf f

/-- One exact value per element of up to three operands, rounded once (R157). -/
def fltOp (s : State) (h : Hdr) (t : FTy) (r : Rnd) (sat : Sat) (nf : Bool) (a b c d : Opnd)
    (x : Rnd → FVal → FVal → FVal → XVal) : Out :=
  laneInstr s h [(a, 1)] [(b, 1), (c, 1), (d, 1)] fun k =>
    let f := fmtOf t
    let val (o : Opnd) (l i : Nat) : FVal := f.decode (bits (k.readFlt t o l) (f.width * i) f.width)
    k.rounded a 1 f nf fun l i st =>
      finishX f (k.mode r) sat st 0 ((val b l i).isSig || (val c l i).isSig || (val d l i).isSig)
        (x (k.mode r) (val b l i) (val c l i) (val d l i))

/-- A correctly rounded function of one operand (R158). -/
def funOp (s : State) (h : Hdr) (t : FTy) (r : Rnd) (sat : Sat) (nf : Bool) (a b : Opnd) (g : FFun) : Out :=
  laneInstr s h [(a, 1)] [(b, 1)] fun k =>
    let f := fmtOf t
    k.rounded a 1 f nf fun l i st =>
      let p := bits (k.readFlt t b l) (f.width * i) f.width
      finishX f (k.mode r) sat st (Config.freeFunction g.code p t.code) (f.decode p).isSig (funX g (f.decode p))

/-! ## Conversions -/

/-- One element of CVT (R60): the pattern, the flags, whether a draw was used. DESIGN CHOICE (log 89): an infinite value that
becomes E4M3, which has no infinity, raises no flag, for R60 and R163 state its result alone. -/
def cvtElem (dt st : Ty) (m : Rnd) (sat : Sat) (w v : Nat) : Nat × Nat × Bool :=
  match dt, st with
  | .int d, .int t =>
    let r := intFinish (sat == .clamp) d.signed d.width (readInt t.signed t.width v)
    (r.1, r.2, false)
  | .int d, .flt t => floatToInt d.signed d.width m w ((fmtOf t).decode v)
  | .flt d, .int t => finishX (fmtOf d) m sat w 0 false (XVal.ofVal (FVal.ofInt (readInt t.signed t.width v)))
  | .flt d, .flt t =>
    let x := (fmtOf t).decode v
    finishX (fmtOf d) m sat w 0 x.isSig (XVal.ofVal x)

/-- An immediate source of CVT, converted to the source type in every element (R80, R163). -/
def cvtImmVal (st : Ty) (n : Nat) (i : Int) : Nat :=
  match st with
  | .int t => immInt t.width n i
  | .flt t => packElems 32 (List.replicate n (immFlt (fmtOf t) i))

/-! ## Microscaled blocks (R164, R165) -/

/-- The sizes of an MXQ or MXD: group size, values per word, blocks, words per block image, and the registers that the
values and the images span. -/
structure MxShape where
  g : Nat
  e : Nat
  nb : Nat
  words : Nat
  valueRegs : Nat
  imageRegs : Nat
  deriving DecidableEq, Repr

/-- The sizes for a group of g lanes. -/
def mxSizes (g : Nat) (f : MxFmt) (t : FTy) : MxShape :=
  let e := if t == .f32 then 1 else 2
  let nb := max 1 (g * e / 32)
  let words := match f with
    | .e2m1x => 5
    | _ => 9
  { g := g, e := e, nb := nb, words := words, valueRegs := (32 * nb / e + g - 1) / g,
    imageRegs := (nb * words + g - 1) / g }

/-- The sizes for the issuing group. -/
def mxShape (s : State) (f : MxFmt) (t : FTy) : MxShape :=
  mxSizes (match s.laneTurn? with
    | some (g, _) => g.info.size
    | none => 32) f t

/-- Word w of a stream at a vector operand, as R148 delivers it: lane w mod G of the register w div G further on. -/
def Lane.streamWord (c : Lane) (g : Nat) (o : Opnd) (w : Nat) : Nat :=
  match o with
  | .v r => c.cross 1 (.v (r + w / g)) (w % g)
  | _ => 0

/-- Value j of a stream of values. -/
def Lane.mxValue (c : Lane) (sh : MxShape) (t : FTy) (o : Opnd) (j : Nat) : FVal :=
  (fmtOf t).decode (bits (c.streamWord sh.g o (j / sh.e)) ((fmtOf t).width * (j % sh.e)) (fmtOf t).width)

/-- FADD (R157). -/
def execFadd (h : Hdr) (t : FTy) (r : Rnd) (sat : Sat) (nf : Bool) (a b c : Opnd) (s : State) : Out :=
  fltOp s h t r sat nf a b c .none fun m x y _ => sumX m false [x, y]

/-- FSUB: the sum b + (−c) (R157). -/
def execFsub (h : Hdr) (t : FTy) (r : Rnd) (sat : Sat) (nf : Bool) (a b c : Opnd) (s : State) : Out :=
  fltOp s h t r sat nf a b c .none fun m x y _ => sumX m false [x, y.negate]

/-- FMUL (R157). -/
def execFmul (h : Hdr) (t : FTy) (r : Rnd) (sat : Sat) (nf : Bool) (a b c : Opnd) (s : State) : Out :=
  fltOp s h t r sat nf a b c .none fun m x y _ => sumX m (badProd x y) [prod x y]

/-- FFMA: rounded once; 0 · ∞ is invalid even when d is NaN (R157). -/
def execFfma (h : Hdr) (t : FTy) (r : Rnd) (sat : Sat) (nf : Bool) (a b c d : Opnd) (s : State) : Out :=
  fltOp s h t r sat nf a b c d fun m x y z => sumX m (badProd x y) [prod x y, z]

/-- FMIN (R160). -/
def execFmin (h : Hdr) (t : FTy) (nf : Bool) (a b c : Opnd) (s : State) : Out :=
  fltOp s h t .rn .wrap nf a b c .none fun _ x y _ => XVal.ofVal (fSelect false x y)

/-- FMAX (R160). -/
def execFmax (h : Hdr) (t : FTy) (nf : Bool) (a b c : Opnd) (s : State) : Out :=
  fltOp s h t .rn .wrap nf a b c .none fun _ x y _ => XVal.ofVal (fSelect true x y)

/-- FRCP (R158). -/
def execFrcp (h : Hdr) (t : FTy) (r : Rnd) (sat : Sat) (nf : Bool) (a b : Opnd) (s : State) : Out :=
  funOp s h t r sat nf a b .rcp

/-- FRSQ (R158). -/
def execFrsq (h : Hdr) (t : FTy) (r : Rnd) (sat : Sat) (nf : Bool) (a b : Opnd) (s : State) : Out :=
  funOp s h t r sat nf a b .rsq

/-- FSQRT (R158). -/
def execFsqrt (h : Hdr) (t : FTy) (r : Rnd) (sat : Sat) (nf : Bool) (a b : Opnd) (s : State) : Out :=
  funOp s h t r sat nf a b .sqrt

/-- FEXP2 (R158). -/
def execFexp2 (h : Hdr) (t : FTy) (r : Rnd) (sat : Sat) (nf : Bool) (a b : Opnd) (s : State) : Out :=
  funOp s h t r sat nf a b .exp2

/-- FLOG2 (R158). -/
def execFlog2 (h : Hdr) (t : FTy) (r : Rnd) (sat : Sat) (nf : Bool) (a b : Opnd) (s : State) : Out :=
  funOp s h t r sat nf a b .log2

/-- FSIN (R158). -/
def execFsin (h : Hdr) (t : FTy) (r : Rnd) (sat : Sat) (nf : Bool) (a b : Opnd) (s : State) : Out :=
  funOp s h t r sat nf a b .sin

/-- FCOS (R158). -/
def execFcos (h : Hdr) (t : FTy) (r : Rnd) (sat : Sat) (nf : Bool) (a b : Opnd) (s : State) : Out :=
  funOp s h t r sat nf a b .cos

/-- FTANH (R158). -/
def execFtanh (h : Hdr) (t : FTy) (r : Rnd) (sat : Sat) (nf : Bool) (a b : Opnd) (s : State) : Out :=
  funOp s h t r sat nf a b .tanh

/-- FRND (R159). -/
def execFrnd (h : Hdr) (t : FTy) (r : Rnd) (sat : Sat) (nf : Bool) (a b : Opnd) (s : State) : Out :=
  laneInstr s h [(a, 1)] [(b, 1)] fun c =>
    let f := fmtOf t
    c.rounded a 1 f nf fun l i st =>
      let o := roundIntegral (c.mode r) st (f.decode (bits (c.readFlt t b l) (f.width * i) f.width))
      (f.encode (satFloat f sat o.v), o.flags, o.used)

/-- FSCL: c is a signed 32-bit value for every element (R157). -/
def execFscl (h : Hdr) (t : FTy) (r : Rnd) (sat : Sat) (nf : Bool) (a b c : Opnd) (s : State) : Out :=
  laneInstr s h [(a, 1)] [(b, 1), (c, 1)] fun x =>
    let f := fmtOf t
    x.rounded a 1 f nf fun l i st =>
      let v := f.decode (bits (x.readFlt t b l) (f.width * i) f.width)
      finishX f (x.mode r) sat st 0 v.isSig (XVal.ofVal (scaleVal v (toSigned 32 (x.read32 c l))))

/-- FCLS: a class code in bits [4i+3:4i] for element i (R161). -/
def execFcls (h : Hdr) (t : FTy) (a b : Opnd) (s : State) : Out :=
  laneInstr s h [(a, 1)] [(b, 1)] fun c =>
    let f := fmtOf t
    c.put a 1 fun l => packElems 4 ((elems f.width 1 (c.readFlt t b l)).map fun v => fClass f (f.decode v))

/-- FCMP: only a signalling NaN sets NV (R162). -/
def execFcmp (h : Hdr) (nf : Bool) (cc : Nat) (a b c : Opnd) (s : State) : Out :=
  laneInstr s h [(a, 1)] [(b, 1), (c, 1)] fun x =>
    x.write a 1 fun l =>
      let u := fp32.decode (x.readFlt .f32 b l)
      let v := fp32.decode (x.readFlt .f32 c l)
      (if fCond cc u v then 1 else 0, nfFlags nf (flagIf (u.isSig || v.isSig) fNV))

/-- FDOT2: two products of elements and an `.f32` addend, rounded once to `.f32` (R157). -/
def execFdot2 (h : Hdr) (t : FTy) (r : Rnd) (sat : Sat) (nf : Bool) (a b c d : Opnd) (s : State) : Out :=
  laneInstr s h [(a, 1)] [(b, 1), (c, 1), (d, 1)] fun x =>
    let f := fmtOf t
    x.rounded a 1 fp32 nf fun l _ st =>
      let b0 := f.decode (bits (x.readFlt t b l) 0 16)
      let b1 := f.decode (bits (x.readFlt t b l) 16 16)
      let c0 := f.decode (bits (x.readFlt t c l) 0 16)
      let c1 := f.decode (bits (x.readFlt t c l) 16 16)
      let z := fp32.decode (x.readFlt .f32 d l)
      finishX fp32 (x.mode r) sat st 0 ([b0, b1, c0, c1, z].any FVal.isSig)
        (sumX (x.mode r) (badProd b0 c0 || badProd b1 c1) [prod b0 c0, prod b1 c1, z])

/-- CVT: N elements at once, each converted under R60 (R163). -/
def execCvt (h : Hdr) (dt st : Ty) (r : Rnd) (sat : Sat) (nf : Bool) (a b : Opnd) (s : State) : Out :=
  laneInstr s h [(a, cvtDst dt st)] [(b, cvtSrc dt st)] fun c =>
    c.roundedN a (cvtDst dt st) (cvtN dt st) dt.width nf fun l i w =>
      cvtElem dt st (c.mode r) sat w (bits (c.read (cvtSrc dt st) (cvtImmVal st (cvtSrc dt st)) b l) (st.width * i) st.width)

/-- MXQ (R164): blocks are made from the whole gang's values, and each active lane receives its word of the block images. -/
def execMxq (h : Hdr) (f : MxFmt) (t : FTy) (nf : Bool) (a b : Opnd) (s : State) : Out :=
  let sh := mxShape s f t
  laneInstr s h [(a, sh.imageRegs)] [(b, sh.valueRegs)] fun c =>
    let blocks := (List.range sh.nb).map fun k => mxQuant f 0 0xFE ((List.range 32).map fun j => c.mxValue sh t b (32 * k + j))
    let image := blocks.flatMap fun k => (mxImage f k).take (4 * sh.words)
    let flags := orAll ((blocks.zip (List.range sh.nb)).map fun (k, i) =>
      mxQuantFlags f ((List.range 32).map fun j => c.mxValue sh t b (32 * i + j)) k)
    c.write a sh.imageRegs fun l =>
      (spanVal (fun i => BitVec.ofNat 32 (leAt image (4 * (i * sh.g + l)) 4)) sh.imageRegs, nfFlags nf flags)

/-- MXD (R165): each active lane receives its values, with the flags of those values only. DESIGN CHOICE (log 86): an infinite
E5M2 element gives an infinity and raises no flag. -/
def execMxd (h : Hdr) (f : MxFmt) (t : FTy) (nf : Bool) (a b : Opnd) (s : State) : Out :=
  let sh := mxShape s f t
  laneInstr s h [(a, sh.valueRegs)] [(b, sh.imageRegs)] fun c =>
    let g := fmtOf t
    let blocks := (List.range sh.nb).map fun k => mxImageVals f ((List.range sh.words).flatMap fun w =>
      leBytes 4 (c.streamWord sh.g b (k * sh.words + w)))
    let vals := blocks.flatMap fun k => k.map fun v => finishX g .rn .wrap 0 0 false (XVal.ofVal v)
    c.write a sh.valueRegs fun l =>
      let mine := (List.range sh.valueRegs).map fun i => (List.range sh.e).map fun j =>
        vals.getD ((i * sh.g + l) * sh.e + j) (0, 0, false)
      (packElems 32 (mine.map fun es => packElems g.width (es.map (·.1))),
        nfFlags nf (orAll (mine.flatMap fun es => es.map (·.2.1))))

end Sys2Proof.Machine
end

