-- ==== Sys2Proof/Machine/LaneInt.lean ====
section
/-! DEFINITION. Lane integer, logic, shift, bit-field and compare instructions (R149 to R155, R170, R172). -/
namespace Sys2Proof.Machine

/-- An exact integer function of up to three operands, wrapped or clamped in every element (R150). -/
def intOp (s : State) (h : Hdr) (t : ITy) (sat nf : Bool) (a b c d : Opnd) (f : Int → Int → Int → Int) : Out :=
  laneInstr s h [(a, t.regs)] [(b, t.regs), (c, t.regs), (d, t.regs)] fun x =>
    x.write a t.regs fun l =>
      let r := intMap t sat f (x.readIntOp t b l) (x.readIntOp t c l) (x.readIntOp t d l)
      (r.1, nfFlags nf r.2)

/-- A function of the patterns of two operands' elements; it is given the width (R152). -/
def bitOp (s : State) (h : Hdr) (t : ITy) (a b c : Opnd) (f : Nat → Nat → Nat → Nat) : Out :=
  laneInstr s h [(a, t.regs)] [(b, t.regs), (c, t.regs)] fun x =>
    x.put a t.regs fun l => bitMap t f (x.readIntOp t b l) (x.readIntOp t c l)

/-- A shift: the count is element i of c; for a 64-bit type c is one 32-bit operand (R152). -/
def shiftOp (s : State) (h : Hdr) (t : ITy) (a b c : Opnd) (f : Nat → Nat → Nat → Nat) : Out :=
  laneInstr s h [(a, t.regs)] [(b, t.regs), (c, 1)] fun x =>
    x.put a t.regs fun l =>
      bitMap t f (x.readIntOp t b l) (if t.is64 then x.read32 c l else x.readIntOp t c l)

/-- IADD (R150). -/
def execIadd (h : Hdr) (t : ITy) (sat nf : Bool) (a b c : Opnd) (s : State) : Out :=
  intOp s h t sat nf a b c .none fun x y _ => x + y

/-- ISUB (R150). -/
def execIsub (h : Hdr) (t : ITy) (sat nf : Bool) (a b c : Opnd) (s : State) : Out :=
  intOp s h t sat nf a b c .none fun x y _ => x - y

/-- IMUL (R150). -/
def execImul (h : Hdr) (t : ITy) (sat nf : Bool) (a b c : Opnd) (s : State) : Out :=
  intOp s h t sat nf a b c .none fun x y _ => x * y

/-- IMULH: the high half of the product (R150). -/
def execImulh (h : Hdr) (t : ITy) (a b c : Opnd) (s : State) : Out :=
  intOp s h t false true a b c .none fun x y _ => mulHigh t.width x y

/-- IMAD: formed exactly before the one wrap or clamp (R150). -/
def execImad (h : Hdr) (t : ITy) (sat nf : Bool) (a b c d : Opnd) (s : State) : Out :=
  intOp s h t sat nf a b c d fun x y z => x * y + z

/-- IMIN (R150). -/
def execImin (h : Hdr) (t : ITy) (a b c : Opnd) (s : State) : Out :=
  intOp s h t false true a b c .none fun x y _ => min x y

/-- IMAX (R150). -/
def execImax (h : Hdr) (t : ITy) (a b c : Opnd) (s : State) : Out :=
  intOp s h t false true a b c .none fun x y _ => max x y

/-- IABS (R150). -/
def execIabs (h : Hdr) (t : ITy) (sat nf : Bool) (a b : Opnd) (s : State) : Out :=
  intOp s h t sat nf a b .none .none fun x _ _ => x.natAbs

/-- INEG (R150). -/
def execIneg (h : Hdr) (t : ITy) (sat nf : Bool) (a b : Opnd) (s : State) : Out :=
  intOp s h t sat nf a b .none .none fun x _ _ => -x

/-- IDOT4: the exact sum, wrapped or clamped once (R151). -/
def execIdot4 (h : Hdr) (bs cs sat nf : Bool) (a b c d : Opnd) (s : State) : Out :=
  laneInstr s h [(a, 1)] [(b, 1), (c, 1), (d, 1)] fun x =>
    x.write a 1 fun l =>
      let r := intFinish sat true 32 (dot4 bs cs (x.read32 b l) (x.read32 c l) (x.read32 d l))
      (r.1, nfFlags nf r.2)

/-- AND (R152). -/
def execAnd (h : Hdr) (t : ITy) (a b c : Opnd) (s : State) : Out :=
  bitOp s h t a b c fun _ x y => x &&& y

/-- OR (R152). -/
def execOr (h : Hdr) (t : ITy) (a b c : Opnd) (s : State) : Out :=
  bitOp s h t a b c fun _ x y => x ||| y

/-- XOR (R152). -/
def execXor (h : Hdr) (t : ITy) (a b c : Opnd) (s : State) : Out :=
  bitOp s h t a b c fun _ x y => Nat.xor x y

/-- NOT (R152). -/
def execNot (h : Hdr) (t : ITy) (a b : Opnd) (s : State) : Out :=
  bitOp s h t a b .none fun w x _ => 2 ^ w - 1 - x

/-- SHL (R152). -/
def execShl (h : Hdr) (t : ITy) (a b c : Opnd) (s : State) : Out :=
  shiftOp s h t a b c shlBits

/-- SHR (R152). -/
def execShr (h : Hdr) (t : ITy) (a b c : Opnd) (s : State) : Out :=
  shiftOp s h t a b c shrBits

/-- SHA (R152). -/
def execSha (h : Hdr) (t : ITy) (a b c : Opnd) (s : State) : Out :=
  shiftOp s h t a b c shaBits

/-- ROT (R152). -/
def execRot (h : Hdr) (t : ITy) (a b c : Opnd) (s : State) : Out :=
  shiftOp s h t a b c rotBits

/-- BFX (R153). -/
def execBfx (h : Hdr) (t : ITy) (a b c d : Opnd) (s : State) : Out :=
  laneInstr s h [(a, 1)] [(b, 1), (c, 1), (d, 1)] fun x =>
    x.put a 1 fun l => bfxBits (t == .i32) (x.read32 b l) (x.read32 c l) (x.read32 d l)

/-- BFI: the low bits of b go into c (R153). -/
def execBfi (h : Hdr) (_t : ITy) (a b c d e : Opnd) (s : State) : Out :=
  laneInstr s h [(a, 1)] [(b, 1), (c, 1), (d, 1), (e, 1)] fun x =>
    x.put a 1 fun l => bfiBits (x.read32 b l) (x.read32 c l) (x.read32 d l) (x.read32 e l)

/-- POPC (R152). -/
def execPopc (h : Hdr) (t : ITy) (a b : Opnd) (s : State) : Out :=
  bitOp s h t a b .none fun w x _ => popBits w x

/-- CLZ (R152). -/
def execClz (h : Hdr) (t : ITy) (a b : Opnd) (s : State) : Out :=
  bitOp s h t a b .none fun w x _ => clzBits w x

/-- BREV (R152). -/
def execBrev (h : Hdr) (t : ITy) (a b : Opnd) (s : State) : Out :=
  bitOp s h t a b .none fun w x _ => revBits w x

/-- LEA: pair(B) plus c extended and shifted by d[5:0] (R154). DESIGN CHOICE (log 89): a B that is no register, which R154 does
not speak of, is read as 64 bits, an immediate sign-extended. -/
def execLea (h : Hdr) (t : ITy) (a b c d : Opnd) (s : State) : Out :=
  laneInstr s h [(a, 2)] [(b, 2), (c, 1), (d, 1)] fun x =>
    x.put a 2 fun l =>
      let k := readInt t.signed 32 (x.read32 c l) * ((2 ^ (x.read32 d l % 64) : Nat) : Int)
      wrapTo 64 ((x.read 2 (wrapTo 64) b l : Nat) + k)

/-- ICMP (R155). -/
def execIcmp (h : Hdr) (t : ITy) (cc : Nat) (a b c : Opnd) (s : State) : Out :=
  laneInstr s h [(a, 1)] [(b, t.regs), (c, t.regs)] fun x =>
    x.put a 1 fun l => if laneCond cc t.signed t.width (x.readIntOp t b l) (x.readIntOp t c l) then 1 else 0

/-- PLOP (R170). -/
def execPlop (h : Hdr) (tt : Nat) (a b c : Opnd) (s : State) : Out :=
  laneInstr s h [(a, 1)] [(b, 1), (c, 1)] fun x =>
    x.put a 1 fun l => if tableBit tt (x.readP b l) (x.readP c l) then 1 else 0

/-- NOP: its switch marker and regang point act, nothing else (R172). -/
def execNop (h : Hdr) (s : State) : Out :=
  laneInstr s h [] [] fun x => x.finish []

end Sys2Proof.Machine
end

