-- ==== Sys2Proof/Machine/LaneMove.lean ====
section
/-! DEFINITION. Movement between registers and lanes, votes, reductions and scans, transposes, predicate moves and the
special-register instructions of the lane stream (R166 to R171, R199). -/
namespace Sys2Proof.Machine

/-- MOV (R166): it may also write %exec, %flg, %rmode and %lfsr (R82). -/
def execMov (h : Hdr) (w : MTy) (a b : Opnd) (s : State) : Out :=
  laneInstr s h [(a, w.regs)] [(b, w.regs)] fun c => c.put a w.regs fun l => c.readMem w b l

/-- SEL (R166). -/
def execSel (h : Hdr) (w : MTy) (a b c d : Opnd) (s : State) : Out :=
  laneInstr s h [(a, w.regs)] [(b, w.regs), (c, w.regs), (d, 1)] fun x =>
    x.put a w.regs fun l => if x.readP d l then x.readMem w b l else x.readMem w c l

/-- SHFL (R166). -/
def execShfl (h : Hdr) (w : MTy) (a b c : Opnd) (s : State) : Out :=
  laneInstr s h [(a, w.regs)] [(b, w.regs), (c, 1)] fun x =>
    x.put a w.regs fun l => x.cross w.regs b (x.read32 c l)

/-- SHFLX (R166). -/
def execShflx (h : Hdr) (w : MTy) (a b c : Opnd) (s : State) : Out :=
  laneInstr s h [(a, w.regs)] [(b, w.regs), (c, 1)] fun x =>
    x.put a w.regs fun l => x.cross w.regs b (Nat.xor l (x.read32 c l % 32))

/-- BCST (R166). -/
def execBcst (h : Hdr) (w : MTy) (a b c : Opnd) (s : State) : Out :=
  laneInstr s h [(a, w.regs)] [(b, w.regs), (c, 1)] fun x =>
    x.put a w.regs fun l => x.cross w.regs b (x.read32 c l)

/-- The lanes of ACT in which a predicate holds (R167). -/
def Lane.voteMask (c : Lane) (o : Opnd) : Mask := maskOf ((lanesOf c.act).filter fun l => c.readP o l)

/-- The value of a vote (R167). -/
def voteValue (op : Nat) (m act : Mask) : Word :=
  match op with
  | 0 => m
  | 1 => boolWord (m != 0)
  | 2 => boolWord (m == act)
  | _ => boolWord (m == 0 || m == act)

/-- VOTE: to a predicate, the bit is whether the value is not 0 (R167). -/
def execVote (h : Hdr) (op : Nat) (a b : Opnd) (s : State) : Out :=
  laneInstr s h [(a, 1)] [(b, 1)] fun c => c.put a 1 fun _ => (voteValue op (c.voteMask b) c.act).toNat

/-- PMOV (R171). -/
def execPmov (h : Hdr) (frommask : Bool) (a b : Opnd) (s : State) : Out :=
  laneInstr s h [(a, 1)] [(b, 1)] fun c =>
    c.put a 1 fun l =>
      if frommask then (if bit (c.read32 b l) l then 1 else 0)
      else (maskOf ((List.range 32).filter fun k => c.delivers k && c.readP b k)).toNat

/-! ## Reductions and scans (R68, R69, R168) -/

/-- A value in a reduction tree: an exact integer, or a rounded float with the flags of the steps that made it. -/
inductive RVal where
  | int (i : Int)
  | flt (v : FVal) (flags : Nat)
  deriving DecidableEq, Repr

/-- The identity of an operator (R168). -/
def redIdentity (t : Ty) (op : Nat) : RVal :=
  match t with
  | .int it =>
    match op with
    | 1 => .int (intMax it.signed it.width)
    | 2 => .int (intMin it.signed it.width)
    | 3 => .int (readInt it.signed it.width (2 ^ it.width - 1))
    | _ => .int 0
  | .flt _ =>
    match op with
    | 0 => .flt (.fin true 0 0) 0
    | 1 => .flt (.inf false) 0
    | 2 => .flt (.inf true) 0
    | _ => .flt (.fin false 1 0) 0

/-- One combining step; a float step rounds in the mode and its flags are gathered (R59, R68). DESIGN CHOICE (log 82): where
RND = 111 takes mode 101 from `%rmode`, which the manual gives no trap here, the draw of every step is 0. -/
def redStep (t : Ty) (op : Nat) (m : Rnd) (a b : RVal) : RVal :=
  match t, a, b with
  | .int it, .int x, .int y =>
    let p := wrapTo it.width x
    let q := wrapTo it.width y
    .int (match op with
      | 0 => x + y
      | 1 => min x y
      | 2 => max x y
      | 3 => readInt it.signed it.width (p &&& q)
      | 4 => readInt it.signed it.width (p ||| q)
      | _ => readInt it.signed it.width (Nat.xor p q))
  | .flt ft, .flt x fx, .flt y fy =>
    let f := fmtOf ft
    let o := match op with
      | 0 => roundX f m 0 0 (sumX m false [x, y])
      | 3 => roundX f m 0 0 (sumX m (badProd x y) [prod x y])
      | _ => roundX f .rn 0 0 (XVal.ofVal (fSelect (op == 2) x y))
    .flt o.v (fx ||| fy ||| o.flags ||| flagIf (x.isSig || y.isSig) fNV)
  | _, a, _ => a

/-- One level of the tree: neighbours combined (R68). -/
def redLevel (t : Ty) (op : Nat) (m : Rnd) : List RVal → List RVal
  | a :: b :: r => redStep t op m a b :: redLevel t op m r
  | l => l

/-- The levels of the tree over a list, the leaves first. -/
def redLevels (t : Ty) (op : Nat) (m : Rnd) : Nat → List RVal → List (List RVal)
  | 0, l => [l]
  | k + 1, l => l :: redLevels t op m k (redLevel t op m l)

/-- The spans of [0, n): aligned power-of-two spans from the highest binary digit of n, as (level, index) (R69). -/
def scanSpans : Nat → Nat → Nat → List (Nat × Nat)
  | 0, n, at' => if n % 2 = 1 then [(0, at')] else []
  | k + 1, n, at' =>
    if n ≥ 2 ^ (k + 1) then (k + 1, at' / 2 ^ (k + 1)) :: scanSpans k (n - 2 ^ (k + 1)) (at' + 2 ^ (k + 1))
    else scanSpans k n at'

/-- The prefix over positions 0 to n − 1: the span values folded left to right, oldest first (R69). -/
def scanPrefix (t : Ty) (op : Nat) (m : Rnd) (levels : List (List RVal)) (n : Nat) : RVal :=
  match (scanSpans 5 n 0).map fun (k, i) => (levels.getD k []).getD i (redIdentity t op) with
  | [] => redIdentity t op
  | v :: vs => vs.foldl (redStep t op m) v

/-- The flags that a tree value carries. -/
def RVal.flags : RVal → Nat
  | .int _ => 0
  | .flt _ f => f

/-- The final value of a lane: SAT acts once (R68, R168): the pattern and its own flags. -/
def redFinal (t : Ty) (op : Nat) (sat : Sat) (v : RVal) : Nat × Nat :=
  match t, v with
  | .int it, .int i => intFinish (sat == .clamp && op == 0) it.signed it.width i
  | .flt ft, .flt x _ => ((fmtOf ft).encode (satFloat (fmtOf ft) sat x), 0)
  | _, _ => (0, 0)

/-- Element i of each lane of the group, or the identity where a lane is not in ACT (R68, R148). -/
def Lane.redLeaves (c : Lane) (t : Ty) (op : Nat) (b : Opnd) (i : Nat) : List RVal :=
  (List.range c.g.info.size).map fun l =>
    if c.act.getLsbD l then
      let v := bits (c.read ((t.width + 31) / 32) (fun _ => 0) b l) (t.width * i) t.width
      match t with
      | .int it => .int (readInt it.signed it.width v)
      | .flt ft => .flt ((fmtOf ft).decode v) 0
    else redIdentity t op

/-- Registers of an element type's value. -/
def tyRegs (t : Ty) : Nat := (t.width + 31) / 32

/-- REDL or SCNL over each element: `pre` gives the number of positions that a lane's value covers. Flags go into every
active lane (R59, R168). DESIGN CHOICE (log 26): the steps of SCNL that count are those of the values of all lanes of the
group, which in the exclusive form leaves out the step that completes the last one. DESIGN CHOICE (log 82): mode 101 that
comes from `%rmode` advances no `%lfsr` and takes no trap. -/
def reduceOp (s : State) (h : Hdr) (t : Ty) (op : Nat) (r : Rnd) (sat : Sat) (nf : Bool) (a b : Opnd)
    (pre : Nat → Nat → Nat) : Out :=
  laneInstr s h [(a, tyRegs t)] [(b, tyRegs t)] fun c =>
    let m := c.mode r
    let n := c.g.info.size
    let els := List.range (32 * tyRegs t / t.width)
    let trees := els.map fun i => redLevels t op m 5 (c.redLeaves t op b i)
    let val (l i : Nat) : RVal := scanPrefix t op m (trees.getD i []) (pre n l)
    let steps := orAll ((List.range n).flatMap fun l => els.map fun i => (val l i).flags)
    let fins (l : Nat) := els.map fun i => redFinal t op sat (val l i)
    let clamps := orAll ((lanesOf c.act).flatMap fun l => (fins l).map (·.2))
    c.write a (tyRegs t) fun l => (packElems t.width ((fins l).map (·.1)), nfFlags nf (steps ||| clamps))

/-- REDL: every active lane receives the value of the whole tree (R68, R168). -/
def execRedl (h : Hdr) (t : Ty) (op : Nat) (r : Rnd) (sat : Sat) (nf : Bool) (a b : Opnd) (s : State) : Out :=
  reduceOp s h t op r sat nf a b fun n _ => n

/-- SCNL: lane L receives P(L), or P(L − 1) in the exclusive form (R69, R168). -/
def execScnl (h : Hdr) (t : Ty) (op : Nat) (excl : Bool) (r : Rnd) (sat : Sat) (nf : Bool) (a b : Opnd) (s : State) :
    Out :=
  reduceOp s h t op r sat nf a b fun _ l => if excl then l else l + 1

/-! ## Transpose (R169) -/

/-- Element (row, col) of block q of a span of eight registers, 0 where the lane delivers nothing: `contrib` says which
lanes do. -/
def Lane.gtrnElem (c : Lane) (w : Nat) (o : Opnd) (q row col : Nat) : Nat :=
  let m := 32 / w
  let k := 8 / m
  let l := k * q + col / m
  match o with
  | .v r => if c.act.getLsbD l then bits (c.g.getV (r + row) l).toNat (w * (col % m)) w else 0
  | _ => 0

/-- GTRN: a group smaller than a block's lanes traps (R169). DESIGN CHOICE (log 58): the traps 0x02 of A and B come before this
0x01, which R98 does not place. -/
def execGtrn (h : Hdr) (w : MTy) (a b : Opnd) (s : State) : Out :=
  laneInstr s h [(a, 8)] [(b, 8)] fun c =>
    let wd := 8 * w.bytes
    let m := 32 / wd
    let k := 8 / m
    if c.g.info.size < k then c.trap 0x01
    else
      c.put a 8 fun l =>
        packElems 32 ((List.range 8).map fun row => packElems wd ((List.range m).map fun e =>
          c.gtrnElem wd b (l / k) (l % k * m + e) row))

/-! ## Special registers (R199) -/

/-- LRDS: `.w64` reads both words of one instant of %nstime. -/
def execLrds (h : Hdr) (w64 : Bool) (a b : Opnd) (s : State) : Out :=
  if w64 then laneInstr s h [(a, 2)] [(b, 1)] fun c => c.put a 2 fun _ => c.s.ns
  else laneInstr s h [(a, 1)] [(b, 1)] fun c => c.put a 1 fun l => c.read32 b l

/-- LWRS: the value goes into the special register that A names (R54, R56, R199, R200). -/
def execLwrs (h : Hdr) (a b : Opnd) (s : State) : Out :=
  laneInstr s h [(a, 1)] [(b, 1)] fun c => c.put a 1 fun l => c.read32 b l

end Sys2Proof.Machine
end

