-- ==== Sys2Proof/Machine/LaneTiles.lean ====
section
/-! DEFINITION. Moves between tiles and vector registers (R302). -/
namespace Sys2Proof.Machine

/-- A tile's number. -/
def tileOf (o : Opnd) : Nat :=
  match o with
  | .a t => t
  | _ => 0

/-- The row and column of register i of a lane (R302); none outside the tile. -/
def Lane.tileSpot (c : Lane) (row col : Opnd) (l i : Nat) : Option (Nat × Nat) :=
  let r := c.read32 row l
  let q := c.read32 col l + l + c.g.info.size * i
  if r < 64 && q < 64 then some (r, q) else none

/-- AMOVR: outside the tile a register receives 0. -/
def execAmovr (h : Hdr) (w : MTy) (a b d e : Opnd) (s : State) : Out :=
  laneInstr s h [(a, w.regs)] [(b, 1), (d, 1), (e, 1)] fun c =>
    c.put a w.regs fun l =>
      spanVal (fun i =>
        match c.tileSpot d e l i with
        | some (r, q) => c.g.getTile (tileOf b) r q
        | none => 0) w.regs

/-- The results of a list with those of an element that a later one of the list also writes left out. -/
def lastWrites : List Res → List Res
  | [] => []
  | r :: rs => if rs.any fun x => x.dest == r.dest then lastWrites rs else r :: lastWrites rs

/-- AMOVW: when several registers name one element, the highest lane, and then the highest register, remains. -/
def execAmovw (h : Hdr) (w : MTy) (a b d e : Opnd) (s : State) : Out :=
  laneInstr s h [(a, 1)] [(b, w.regs), (d, 1), (e, 1)] fun c =>
    c.finish (lastWrites ((lanesOf c.act).flatMap fun l => (List.range w.regs).flatMap fun i =>
      match c.tileSpot d e l i with
      | some (r, q) =>
        [{ own := c.gang, dest := .tile (tileOf a) r q,
           val := BitVec.ofNat 32 (c.read w.regs (fun _ => 0) b l / 2 ^ (32 * i)), orIn := false }]
      | none => []))

end Sys2Proof.Machine
end

