-- ==== Sys2Proof/Machine/Placement.lean ====
section
/-! DEFINITION. Launches and their placement (R17 to R21, R330, R341 to R347, R374, R399): packets and image headers, the
resources of cores, new groups, and the dispatcher's steps. -/
namespace Sys2Proof.Machine

/-! ## Packets (R330, R342) -/

/-- A launch packet's fields. -/
structure Packet where
  waitmask : BitVec 256
  setmask : BitVec 256
  consume : Bool
  coop : Bool
  args : Bool
  teams : Nat
  groups : Nat
  gx : Nat
  gy : Nat
  gz : Nat
  drainns : Nat
  image : Nat
  taskid : Nat
  arm : Bool
  tcount : Nat
  /-- every field that must be 0 is 0, and SETMASK names no bit above 247 -/
  clean : Bool
  deriving DecidableEq, Repr

/-- The packet in 256 bytes. -/
def Packet.ofBytes (p : List Byte) : Packet :=
  let f := leAt p 0x44 4
  let t := leAt p 0x60 4
  { waitmask := BitVec.ofNat 256 (leAt p 0 32), setmask := BitVec.ofNat 256 (leAt p 0x20 32),
    consume := bit (leAt p 0x40 1) 0, coop := bit f 0, args := bit f 1, teams := bits f 16 4, groups := bits f 20 7,
    gx := leAt p 0x48 4, gy := leAt p 0x4C 4, gz := leAt p 0x50 4, drainns := leAt p 0x54 4, image := leAt p 0x58 8,
    taskid := bits t 0 10, arm := bit t 10, tcount := leAt p 0x64 4,
    clean := bits (leAt p 0x40 4) 1 31 == 0 && bits f 2 14 == 0 && bits f 27 5 == 0 && bits t 11 21 == 0 &&
      ((p.drop 0x68).take 24).all (· == 0) && !packetBad p }

/-- The launch arguments of a packet. -/
def packetArgs (p : List Byte) : List Word := (List.range 32).map fun i => BitVec.ofNat 32 (leAt p (0x80 + 4 * i) 4)

/-! ## Image headers (R112, R343) -/

/-- The physical address of a virtual one for the dispatcher: a readable page of device HBM that the partition owns. -/
def State.headerPa (s : State) (x va : Nat) : Option Nat :=
  if !canonical va then none
  else
    let part := (s.ctx x).part
    match s.walk x part (va % 2 ^ 57) with
    | .fault _ => none
    | .leaf pte size =>
      let pa := bits pte 12 40 * 4096 + va % 2 ^ size
      if bit pte 1 && bits pte 4 3 == 0 && s.ownsPa part pa && !s.locBad (.hbm pa) 64 then some pa else none

/-- The 128 bytes of an image header. -/
def State.readHeader (s : State) (x va : Nat) : Option (List Byte) :=
  match s.headerPa x va, s.headerPa x ((va + 64) % 2 ^ 64) with
  | some a, some b => some (s.mem.hbm.read a 64 ++ s.mem.hbm.read b 64)
  | _, _ => none

/-- The metadata of a header (R19, R112). -/
def headerMeta (h : List Byte) : Meta :=
  { size := leAt h 8 1, vregs := leAt h 0x0C 2, sregs := leAt h 0x0E 2, tiles := leAt h 9 1, gen := bit (leAt h 6 2) 0,
    producer := if leAt h 0x0A 1 = 0xFF then none else some (leAt h 0x0A 1), restart := bit (leAt h 6 2) 1,
    scratch := leAt h 0x10 4 }

/-- Are the metadata inside the ranges of R19? -/
def Meta.ok (m : Meta) : Bool :=
  [4, 8, 16, 32].contains m.size && decide (32 ≤ m.vregs) && decide (m.vregs ≤ 512) && m.vregs % 32 == 0 &&
    decide (64 ≤ m.sregs) && decide (m.sregs ≤ 1024) && m.sregs % 64 == 0 && decide (m.tiles ≤ 4) &&
    (match m.producer with
      | some p => decide (p < 64)
      | none => true)

/-- Is every fixed field of a header as R112 gives it? DESIGN CHOICE (log 47): a section base that is not a multiple of 64 is
accepted, for R74 states the alignment and R343 no refusal for it. -/
def headerOk (h : List Byte) : Bool :=
  h.take 4 == [0x45, 0x42, 0x49, 0x01] && leAt h 4 2 == 1 && bits (leAt h 6 2) 2 14 == 0 && leAt h 0x0B 1 == 0 &&
    leAt h 0x14 4 == 0 && decide (leAt h 0x2C 4 ≤ 256) && (h.drop 0x48).all (· == 0)

/-- The launch that a packet and its header make, or none where R342, R343 or R17 refuses it: its producer group is one of the
team's (R19). -/
def State.launchOf (s : State) (x q : Nat) (raw : List Byte) : Option Launch :=
  let p := Packet.ofBytes raw
  let dim (n : Nat) : Bool := decide (1 ≤ n) && decide (n ≤ 65535)
  if !p.clean || p.image % 64 != 0 then none
  else
    match s.readHeader x p.image with
    | none => none
    | some h =>
      let m := headerMeta h
      let va (o : Nat) : Nat := (p.image + leAt h o 4) % 2 ^ 64
      if headerOk h && m.ok && m.producer.all (fun g => decide (g < p.groups)) && decide (1 ≤ p.teams) && decide (p.teams ≤ 8) && decide (1 ≤ p.groups) &&
          decide (p.groups ≤ 64) && dim p.gx && dim p.gy && dim p.gz && decide (p.groups * m.size ≤ 2048) &&
          decide (p.teams * p.groups * m.size ≤ 16384) && (!p.args || decide (leAt h 0x2C 4 ≤ 224)) then
        some { id := s.nextId, ctx := x, queue := q, coop := p.coop, argv := if p.args then some (packetArgs raw) else none,
               info := m, scalVa := va 0x18, scalLen := leAt h 0x1C 4 / 4, laneVa := va 0x20, laneLen := leAt h 0x24 4 / 12,
               constVa := va 0x28, constN := leAt h 0x2C 4, setmask := p.setmask, teams := p.teams, groups := p.groups,
               gx := p.gx, gy := p.gy, gz := p.gz, drainns := p.drainns, nextBlk := 0, retired := 0, packet := raw,
               left := false }
      else none

/-! ## Resources (R19, R346, R374) -/

/-- What a quadrant has in use. -/
structure QuadUse where
  quad : Nat
  slots : List Nat
  rows : Nat
  tiles : Nat
  gen : Nat
  deriving DecidableEq, Repr

/-- Bytes that a group of a launch takes of the generator pool. -/
def Meta.genBytes (m : Meta) : Nat := if m.gen then 32 * m.size else 0

/-- The sum of a list. -/
def sumOf (l : List Nat) : Nat := l.foldl (· + ·) 0

/-- The use of a quadrant by the resident groups. -/
def State.quadUse (s : State) (core q : Nat) : QuadUse :=
  let l := s.groups.filter fun g => g.place.core == core && g.place.quad == q
  { quad := q, slots := l.map (·.place.slot), rows := sumOf (l.map (·.info.vregs)),
    tiles := sumOf (l.map (·.info.tiles)), gen := sumOf (l.map (·.info.genBytes)) }

/-- Can the quadrant take one more group? -/
def QuadUse.fits (u : QuadUse) (m : Meta) : Bool :=
  decide (u.slots.length < 16) && decide (u.rows + m.vregs ≤ 1024) && decide (u.tiles + m.tiles ≤ 4) &&
    decide (u.gen + m.genBytes ≤ 16384)

/-- The lowest free residency slot. -/
def QuadUse.slot (u : QuadUse) : Nat := ((List.range 16).find? fun i => !u.slots.contains i).getD 0

/-- The quadrant with one group more. -/
def QuadUse.add (u : QuadUse) (m : Meta) : QuadUse :=
  { u with slots := u.slot :: u.slots, rows := u.rows + m.vregs, tiles := u.tiles + m.tiles, gen := u.gen + m.genBytes }

/-- Spreads n groups round-robin over quadrants: one that cannot take the next group is passed over (R346). The first number
bounds the steps. -/
def spread (m : Meta) : Nat → Nat → List QuadUse → Option (List (Nat × Nat))
  | _, 0, _ => some []
  | 0, _, _ => none
  | _, _, [] => none
  | f + 1, n + 1, u :: us =>
    if u.fits m then (spread m f n (us ++ [u.add m])).map fun r => (u.quad, u.slot) :: r
    else spread m f (n + 1) us

/-- Inserts a quadrant in the order in which the round begins: more free slots first, then the lower number. -/
def insertQuad (u : QuadUse) : List QuadUse → List QuadUse
  | [] => [u]
  | w :: r => if w.slots.length < u.slots.length then w :: insertQuad u r else u :: w :: r

/-- Where a team would go on a core: its scratch range and its groups' quadrants and slots. -/
structure Seat where
  core : Nat
  tb : Nat
  size : Nat
  at' : List (Nat × Nat)
  deriving DecidableEq, Repr

/-- SCRATCH rounded up to 4 KiB (R374). -/
def scratchSize (n : Nat) : Nat := (n + 4095) / 4096 * 4096

/-- The lowest free contiguous range of the partition's scratch on a core (R374). -/
def State.freeRange (s : State) (part core size : Nat) : Option Nat :=
  let cap := 32768 * (s.scratchBanks part core).length
  let used := s.units.teams.filter fun t => t.core == core && (s.launch? t.launch).any fun l => (s.ctx l.ctx).part == part
  if size = 0 then some 0
  else
    ((List.range (cap / 4096)).map (4096 * ·)).find? fun x =>
      decide (x + size ≤ cap) && used.all fun t => decide (x + size ≤ t.tb) || decide (t.tb + t.size ≤ x)

/-- The seat of a team of n groups on a core, if it fits there now (R19, R346). -/
def State.seat (s : State) (part : Nat) (m : Meta) (n core : Nat) : Option Seat :=
  let quads := (List.range 4).filter fun q => s.ownsQuad part core q
  let words := sumOf ((s.groups.filter fun g => g.place.core == core).map (·.info.sregs))
  let size := scratchSize m.scratch
  if quads.isEmpty || words + n * m.sregs > 16384 || (s.core core).gated then none
  else
    match s.freeRange part core size, spread m (n + 4) n ((quads.map (s.quadUse core)).foldr insertQuad []) with
    | some tb, some l => some { core := core, tb := tb, size := size, at' := l }
    | _, _ => none

/-- The machine with nothing resident, as far as placement goes. -/
def State.emptied (s : State) : State :=
  { (s.modUnits fun u => { u with teams := [] }).modPlat fun p =>
      { p with cores := p.cores.map fun e => (e.1, { e.2 with gated := false }) } with groups := [] }

/-! ## New groups (R21, R56) -/

/-- The seed of a lane (R56). -/
def lfsrSeed (flat l : Nat) : Word :=
  let x := 0x6C8E9CF5#32 ^^^ BitVec.ofNat 32 (32 * flat + l)
  if x = 0 then 1 else x

/-- A new group in its place (R21). -/
def Group.fresh (m : Meta) (p : Place) : Group :=
  { gid := groupId p.core p.quad p.slot, place := p, info := m,
    regs := { v := [], s := [], tiles := [], p := [], q := 0, flg := [],
              lfsr := (List.range m.size).map fun l => (l, lfsrSeed p.flat l), rmode := 0, live := lowLanes m.size },
    lanes := Lanes.idle, pend := [], holds := [], dq := [], oldS := [], spc := 0, wait := none, words := none,
    uas := 0, acquired := [], nsLatch := none, trap := none, gen := none, wa := [], openBatch := 1, batch := 0, doneBatch := 0,
    entered := none, saved := none, holdTrap := false, holdFirst := false, async := none, doneList := [], liveTiles := 2 ^ m.tiles - 1,
    suspended := false, yielded := false, due := none, holdTimer := none }

/-- The quantum of a context on a cluster counts from its first block there; the time for which the cluster loaded the
context is charged to it (R349, R359). A cluster that has given its services to no context of the partition gives them to
this one. -/
def State.startQuantum (s : State) (x core : Nat) : State :=
  let n := clusterOf core
  let part := (s.ctx x).part
  if s.groups.any fun g => g.place.ctx == x && clusterOf g.place.core == n then s
  else s.modCluster n fun c => { c with
    serves := if c.serves.any fun e => e.1 == part then c.serves else tset c.serves part x
    qstart := tset c.qstart x (s.ns - tget 0 c.charge x)
    charge := tdel c.charge x }

/-- Places team t of block b of a launch: its groups begin with an acquire at scope 4 (R331). -/
def State.placeTeam (s : State) (l : Launch) (b t : Nat) (k : Seat) : State :=
  let part := (s.ctx l.ctx).part
  let s := s.startQuantum l.ctx k.core
  let mk (e : (Nat × Nat) × Nat) : Group :=
    Group.fresh l.info
      { core := k.core, quad := e.1.1, slot := e.1.2, ctx := l.ctx, part := part, launch := l.id, blk := b, team := t,
        grp := e.2, flat := (b * l.teams + t) * l.groups + e.2, bx := b % l.gx, byy := b / l.gx % l.gy,
        bz := b / (l.gx * l.gy), ngrp := l.groups }
  let s := s.modUnits fun u => { u with teams := u.teams ++
    [{ launch := l.id, blk := b, team := t, core := k.core, tb := k.tb, size := k.size, start := s.ns }] }
  { s with groups := s.groups ++ (k.at'.zip (List.range 64)).map mk }.acquireCore k.core part

/-- Places the teams of a block in their seats. -/
def State.placeTeams (s : State) (l : Launch) (b : Nat) : Nat → List Seat → State
  | _, [] => s
  | t, k :: ks => State.placeTeams (s.placeTeam l b t k) l b (t + 1) ks

/-- Is a pre-emption of a context under way that concerns a cluster: one that it began, or one of a block that it holds
(R349, R353)? -/
def State.preempting (s : State) (n x : Nat) : Bool :=
  s.plat.clusters.any fun e => e.2.preempt.any fun p =>
    p.ctx == x && s.groups.any fun g =>
      p.blocks.contains (g.place.launch, g.place.blk) && (e.1 == n || clusterOf g.place.core == n)

/-- May a block of the context go on a core: no pre-emption of the context is under way on its cluster (R353), and the
cluster gives its services to no other context of the partition (R359)? -/
def State.mayPlace (s : State) (x core : Nat) : Bool :=
  let n := clusterOf core
  !s.preempting n x && (s.cluster n).serves.all fun e => e.1 != (s.ctx x).part || e.2 == x

/-! ## Choosing cores (R346, R348) -/

/-- Teams of a launch that fit on a core at once, at most the first number. -/
def State.capacity (s : State) (l : Launch) (core : Nat) : Nat → Nat
  | 0 => 0
  | f + 1 =>
    match s.seat (s.ctx l.ctx).part l.info l.groups core with
    | none => 0
    | some k => State.capacity (s.placeTeam l 0 f k) l core f + 1

/-- How a plan chooses among the cores that fit: the first, the one with room for most teams, or freely. -/
inductive Chooser where
  | first
  | widest
  | free (seed : Nat)
  deriving DecidableEq, Repr

/-- The chooser of the k-th of several plans. -/
def Chooser.nth (c : Chooser) (k : Nat) : Chooser :=
  match c with
  | .free seed => .free (seed + k)
  | c => c

/-- The k-th choice of a plan among some outcomes. -/
def Chooser.pick {α : Type} (c : Chooser) (k : Nat) (l : List α) : Option α :=
  match c with
  | .free seed => l[Config.freeNat (2 ^ 62 + 64 * seed + k) % l.length]?
  | _ => l.head?

/-- The k-th seat of a plan. -/
def State.choose (s : State) (c : Chooser) (l : Launch) (k : Nat) (fit : List Seat) : Option Seat :=
  match c with
  | .widest => (fit.foldl (fun (b : Option (Nat × Seat)) x =>
      let n := s.capacity l x.core 64
      if b.all fun y => decide (y.1 < n) then some (n, x) else b) none).map (·.2)
  | c => c.pick k fit

/-- The lighter cluster of a pair whose estimates differ by more than 10 % of the larger (R3, R348). -/
def State.lighter (s : State) (pair : Nat) : Option Nat :=
  let a := (s.cluster (2 * pair)).load
  let b := (s.cluster (2 * pair + 1)).load
  if 10 * (max a b - min a b) > max a b then some (if a < b then 2 * pair else 2 * pair + 1) else none

/-- The clusters to which a sector's next block is steered (R348). -/
def State.steered (s : State) (sector : Nat) : List Nat :=
  ((List.range 6).map (6 * sector + ·)).filterMap fun p => if (s.cluster (2 * p)).steer then s.lighter p else none

/-- Seats for teams with the given numbers of groups on distinct cores of a list; the first goes to a steered cluster if one
fits (R346, R348). -/
def State.seats (s : State) (c : Chooser) (l : Launch) (near : List Nat) : List Nat → List Nat → Option (List Seat)
  | _, [] => some []
  | cores, n :: ns =>
    let fit := cores.filterMap (s.seat (s.ctx l.ctx).part l.info n)
    let by' := fit.filter fun k => near.contains (clusterOf k.core)
    match s.choose c l (ns.length + 1) (if by'.isEmpty then fit else by') with
    | none => none
    | some k => (State.seats s c l [] (cores.filter (· != k.core)) ns).map (k :: ·)

/-- Seats for the teams of a block, largest first, on distinct cores of one sector (R346). -/
def State.plan (s : State) (c : Chooser) (l : Launch) (sizes : List Nat) (may : Nat → Bool) : Option (List Seat) :=
  c.pick 0 ((List.range Config.sectors).filterMap fun i =>
    s.seats c l (s.steered i) (((List.range 72).map (72 * i + ·)).filter may) sizes)

/-- A block has been placed: what was steered to a lighter cluster of its sector counts (R348). -/
def State.steerDone (s : State) (l : List Seat) : State :=
  match l.head? with
  | none => s
  | some k =>
    ((List.range 6).map (6 * sectorOf k.core + ·)).foldl (fun s p =>
      if (s.cluster (2 * p)).steer then
        let hit := (s.lighter p).any fun n => l.any fun k => clusterOf k.core == n
        s.modCluster (2 * p) fun c =>
          { c with steer := false, bplace := if hit then (c.bplace + 1) % 2 ^ 48 else c.bplace }
      else s) s

/-- Places the next block of a launch, if it fits. -/
def State.placeNext (s : State) (c : Chooser) (id : Nat) : Option State :=
  match s.launch? id with
  | none => none
  | some l =>
    match s.plan c l (List.replicate l.teams l.groups) (s.mayPlace l.ctx) with
    | none => none
    | some seats =>
      some (((s.steerDone seats).placeTeams l l.nextBlk 0 seats).modLaunch id fun l => { l with nextBlk := l.nextBlk + 1 })

/-- Places n blocks in one step, or none. -/
def State.placeMany (s : State) (c : Chooser) (id : Nat) : Nat → Option State
  | 0 => some s
  | n + 1 => (s.placeNext (c.nth n) id).bind fun s => State.placeMany s c id n

/-- Blocks of a launch. -/
def Launch.blocks (l : Launch) : Nat := l.gx * l.gy * l.gz

/-- Blocks of a launch that fit in a sector at once, at most n: b blocks fit where the cores, each of them with at most one
team of a block, have room for b times the teams of a block. -/
def State.sectorRoom (s : State) (l : Launch) (may : Nat → Bool) (n sector : Nat) : Nat :=
  let caps := (((List.range 72).map (72 * sector + ·)).filter may).map fun k => s.capacity l k 64
  ((List.range (min n 4608 + 1)).filter fun b => decide (b * l.teams ≤ sumOf (caps.map (min b)))).foldl max 0

/-- Do n blocks of a launch fit at once? -/
def State.allFit (s : State) (l : Launch) (may : Nat → Bool) (n : Nat) : Bool :=
  decide (n ≤ sumOf ((List.range Config.sectors).map (s.sectorRoom l may n)))

/-- Could the launch ever be placed (R344)? -/
def State.placeable (s : State) (l : Launch) : Bool :=
  let e := s.emptied
  (e.plan .first l (List.replicate l.teams l.groups) fun _ => true).isSome &&
    (!l.coop || e.allFit l (fun _ => true) l.blocks)

/-! ## Queues (R341, R345) -/

/-- Packets that a host queue holds: none when it is disabled, or waits for a TAIL within range. -/
def HQueue.count (q : HQueue) : Nat :=
  let n := (q.tail + 2 ^ 32 - q.head) % 2 ^ 32
  if q.qdis || q.badTail || q.qlog < 4 || q.qlog > 16 || n > 2 ^ q.qlog then 0 else n

/-- The head packet of a queue: 0 to 3 a host queue, 4 the device queue. The read of a packet in a region that the partition
does not own is refused (R368): the queue then shows no packet (DESIGN CHOICE, log 83). -/
def State.headPacket (s : State) (x q : Nat) : Option (List Byte) :=
  let c := s.ctx x
  if !c.enabled || c.dead then none
  else if q = 4 then c.dq.head?
  else
    let h := tget HQueue.reset c.hq q
    let pa := h.qbase + 256 * (h.head % 2 ^ h.qlog)
    if h.count = 0 || !s.ownsRange c.part pa 256 then none else some (s.mem.hbm.read pa 256)

/-- Is a launch still placing its blocks at the head of its queue (R345)? -/
def Launch.placing (l : Launch) : Bool := decide (l.nextBlk < l.blocks)

/-- Is the head of the queue a packet whose launch has begun? -/
def State.headTaken (s : State) (x q : Nat) : Bool :=
  s.units.launches.any fun l => l.ctx == x && l.queue == q && l.placing

/-- The head packet leaves its queue; a started task's packet that waits for room goes in first (R347). -/
def popQueue (q : Nat) (c : Ctx) : Ctx :=
  if q = 4 then
    match c.waiting with
    | p :: ps => { c with dq := c.dq.drop 1 ++ [p], waiting := ps }
    | [] => { c with dq := c.dq.drop 1 }
  else { c with hq := tmod HQueue.reset c.hq q fun h => { h with head := (h.head + 1) % 2 ^ 32 } }

/-- Is the head of a queue eligible (R331, R399)? -/
def State.eligible (s : State) (x q : Nat) : Bool :=
  if s.headTaken x q then false
  else
    match s.headPacket x q with
    | none => false
    | some raw =>
      let p := Packet.ofBytes raw
      p.arm || p.waitmask &&& s.eventVector x == p.waitmask

/-- The queues with an eligible head, as 5·context + queue. -/
def State.readyQueues (s : State) : List Nat :=
  (s.plat.ctxs.map (·.1)).flatMap fun x => ((List.range 5).filter fun q => s.eligible x q).map (5 * x + ·)

/-- The queue that the dispatcher serves: the highest level, in it the next in round-robin order (R345). -/
def State.chosenQueue (s : State) : Option Nat :=
  let l := s.readyQueues
  let prio (k : Nat) : Nat := (s.ctx (k / 5)).prio
  let top := (l.map prio).foldl max 0
  let l := l.filter fun k => prio k == top
  match l.find? fun k => decide (k ≥ tget 0 s.units.rr top) with
  | some k => some k
  | none => l.head?

/-- A refused launch (R344). -/
def State.refuse (s : State) (x q : Nat) : State :=
  (s.modCtx x fun c => { popQueue q c with lrefused := c.lrefused + 1 }).raiseEvent dispatcherPort x 248

/-- Arms a task (R347): an entry that is armed already, or a bad count, refuses the packet. -/
def State.armTask (s : State) (x q : Nat) (raw : List Byte) (p : Packet) : State :=
  if !p.clean || p.tcount = 0 || p.tcount > 65535 || (tget Task.reset (s.ctx x).tasks p.taskid).armed then s.refuse x q
  else
    s.modCtx x fun c =>
      { popQueue q c with tasks := tset c.tasks p.taskid { armed := true, counter := p.tcount, packet := raw } }

/-- The dispatcher handles the head packet of a queue (R343 to R345, R347, R399). -/
def State.dispatchFrom (s : State) (x q : Nat) : State :=
  match s.headPacket x q with
  | none => s
  | some raw =>
    let p := Packet.ofBytes raw
    if p.arm then s.armTask x q raw p
    else
      let s := if p.consume then s.modCtx x fun c => { c with ev := c.ev &&& ~~~p.waitmask } else s
      match s.launchOf x q raw with
      | none => s.refuse x q
      | some l =>
        if s.placeable l then (s.modUnits fun u => { u with launches := u.launches ++ [l] }).bumpId
        else s.refuse x q

/-- DISPATCH (R345): at most one queue is served. -/
def execDispatch (s : State) : Out :=
  match s.chosenQueue with
  | none => .next s
  | some k =>
    let s' := s.dispatchFrom (k / 5) (k % 5)
    .next (s'.modUnits fun u => { u with rr := tset u.rr (s.ctx (k / 5)).prio (k + 1) })

/-- A launch whose blocks have all been placed leaves its queue. -/
def State.leaveQueue (s : State) (id : Nat) : State :=
  match s.launch? id with
  | none => s
  | some l =>
    if l.placing || l.left then s
    else (s.modCtx l.ctx (popQueue l.queue)).modLaunch id fun l => { l with left := true }

/-! ## Resuming comes first (R358) -/

/-- Is every group of a saved block saved, and every team with its scratch, and is every write of the block, those of groups
that have ended too, home (R225)? -/
def State.wholeSaved (s : State) (k : SavedBlock) : Bool :=
  !(s.groups.any fun g => g.place.launch == k.launch && g.place.blk == k.blk) &&
    !(s.units.teams.any fun t => t.launch == k.launch && t.blk == k.blk) &&
    !s.mem.flight.any fun a => a.launch == k.launch && a.blk == k.blk && a.kind.counts && !a.accepted

/-- Has a command of a saved block stopped in mid-course, so that the block keeps its cores (R358)? A receive that no
message has reached has not begun. -/
def SavedBlock.stays (k : SavedBlock) : Bool :=
  k.cmds.any fun c => c.state == .stopped && (match c.kind with
    | .recv _ _ _ _ _ msg => msg.isSome
    | _ => true)

/-- The saved groups of a team. -/
def SavedBlock.sizeOf (k : SavedBlock) (t : Team) : Nat := (k.groups.filter fun g => g.place.team == t.team).length

/-- Inserts a team before those with fewer saved groups. -/
def SavedBlock.insertTeam (k : SavedBlock) (t : Team) : List Team → List Team
  | [] => [t]
  | u :: r => if k.sizeOf u > k.sizeOf t then u :: k.insertTeam t r else t :: u :: r

/-- Seats for the teams of a saved block. -/
def State.resumePlan (s : State) (c : Chooser) (k : SavedBlock) : Option (List (Team × Seat)) :=
  match s.launch? k.launch with
  | none => none
  | some l =>
    let part := (s.ctx k.ctx).part
    let teams := k.teams.foldr k.insertTeam []
    let seats :=
      if k.stays then
        teams.mapM fun t => if s.mayPlace k.ctx t.core then s.seat part l.info (k.sizeOf t) t.core else none
      else s.plan c l (teams.map k.sizeOf) (s.mayPlace k.ctx)
    seats.map fun l => teams.zip l

/-- Does a saved block of the partition go ahead of a launch: it has at least the priority, and could resume now? -/
def State.resumeFirst (s : State) (l : Launch) : Bool :=
  s.units.saved.any fun k =>
    (s.ctx k.ctx).part == (s.ctx l.ctx).part && decide ((s.ctx k.ctx).prio ≥ (s.ctx l.ctx).prio) && s.wholeSaved k &&
      (s.resumePlan .first k).isSome

/-- Is another launch before this one at the head of its queue? -/
def State.behind (s : State) (l : Launch) : Bool :=
  match s.units.launches.find? fun m => m.ctx == l.ctx && m.queue == l.queue && m.placing with
  | some m => m.id != l.id
  | none => false

/-- The wake request of a core once another has come: that of the highest priority, and of equals the oldest (R378). -/
def Core.asked (c : Core) (prio now : Nat) : Core :=
  if c.wake.all fun w => decide (w.1 < prio) then { c with wake := some (prio, now) } else c

/-- Work that finds no room asks for the gated cores of its partition (R378). -/
def State.askWake (s : State) (x : Nat) : State :=
  let p := (s.ctx x).part
  s.modPlat fun q => { q with cores := q.cores.map fun (k, c) =>
    (k, if c.gated && s.ownsCore p k then c.asked (s.ctx x).prio s.ns else c) }

/-- A launch none of whose blocks has been placed, and none can be even with every unit free, is refused (R344). -/
def State.waitOrRefuse (s : State) (l : Launch) : State :=
  if l.nextBlk = 0 && l.retired = 0 && !l.left && !s.placeable l then
    (s.modUnits fun u => { u with launches := u.launches.filter fun m => m.id != l.id }).refuse l.ctx l.queue
  else s.askWake l.ctx

/-- Is what a discarded run of a launch left behind over: its writes, commands and barrier arrivals (R356)? -/
def State.lastRunOver (s : State) (id : Nat) : Bool :=
  s.launchQuiet id && !s.units.arrivals.any fun b => b.launch == id

/-- BLOCK_PLACE (R344 to R346): the next block of a launch is placed; a co-operative launch places all its blocks or none.
DESIGN CHOICE (log 77): the first block of a launch that has been discarded waits until what its last run left is over. -/
def execBlockPlace (id : Nat) (s : State) : Out :=
  match s.launch? id with
  | none => .next s
  | some l =>
    if !l.placing || (s.ctx l.ctx).dead || s.behind l || s.resumeFirst l || (l.nextBlk == 0 && !s.lastRunOver id) then .next s
    else
      let n := if l.coop then l.blocks - l.nextBlk else 1
      match s.placeMany (.free s.draws) id n with
      | some t => .next ((t.leaveQueue id).drawn)
      | none =>
        match s.placeMany .widest id n with
        | some t => .next (t.leaveQueue id)
        | none => .next (s.waitOrRefuse l)

end Sys2Proof.Machine
end

