-- ==== Sys2Proof/Machine/Preempt.lean ====
section
/-! DEFINITION. Balance, pre-emption, save, discard, resume, context switch and tear-down (R42, R225, R247, R289, R348 to
R361). -/
namespace Sys2Proof.Machine

/-! ## Balance (R348) -/

/-- BALANCE_ACTION (R348): while the estimates of a pair differ by more than 10 % of the larger, the next block of its sector
is steered to the lighter cluster (0), the heavier cluster's quadrants withhold an A-clock's issue slots (1), or the
lighter cluster runs an A-clock of filler, which changes no other visible state (2). Each action begins after the one before
it has. -/
def execBalanceAction (pair kind : Nat) (s : State) : Out :=
  match s.lighter pair with
  | none => .next s
  | some n =>
    .next (if kind > (s.cluster (2 * pair)).balance then s
    else match kind with
    | 0 => s.modCluster (2 * pair) fun c => { c with steer := true, balance := max 1 c.balance }
    | 1 => (s.modCluster (4 * pair + 1 - n) fun c => { c with withhold := true }).modCluster (2 * pair) fun c =>
        { c with bthrot := (c.bthrot + 1) % 2 ^ 48, balance := 2 }
    | _ => s.modCluster (2 * pair) fun c => { c with bfill := (c.bfill + 1) % 2 ^ 48 })

/-! ## Stopping commands (R289) -/

/-- Cores to which a command delivers each cell. -/
def Cmd.fanout (c : Cmd) : Nat :=
  match c.kind with
  | .mcast _ _ _ cores => max 1 cores.length
  | _ => 1

/-- Units of a granule of a copy: 2^(g + 11) destination bytes, in each core for a multicast. -/
def Cmd.granUnits (c : Cmd) : Nat := 2 ^ (c.granule + 11) / (c.record 0).cell * c.fanout

/-- Units that only read an index list come before those that move data. -/
def Cmd.listUnits (c : Cmd) : Nat :=
  match c.kind with
  | .gath _ _ n .. | .scat _ _ n .. => n
  | _ => 0

/-- Data units that are done. -/
def Cmd.dataDone (c : Cmd) : List Nat := (c.done.filter fun k => decide (c.listUnits ≤ k)).map (· - c.listUnits)

/-- Does a unit move data: it has met no fault, its index entry is not skipped, and a scatter has a row for it (R293, R310)? -/
def Cmd.moves (c : Cmd) (k : Nat) : Bool :=
  !c.faulted.contains k &&
    match c.kind with
    | .gath _ _ n _ cc => !c.lists.contains ((k - n) / cc, 0xFFFFFFFF)
    | .scat _ _ n start cc => !(c.rowCell n start cc k == some none)
    | _ => true

/-- The granules that a copy has begun: data has been moved in them. What was settled without moving any begins none. -/
def Cmd.begun (c : Cmd) : List Nat :=
  ((c.done.filter fun k => decide (c.listUnits ≤ k) && c.moves k).map fun k => (k - c.listUnits) / c.granUnits).eraseDups

/-- K-groups that an output of a matrix command has behind it. -/
def Cmd.groupsOf (c : Cmd) (total k : Nat) : Nat :=
  if c.isDone k then total else ((c.prog.find? fun p => p.out == k).map (·.groups)).getD 0

/-- Is an output of a matrix command one that it computes: its row is not left unchanged, and it has met no fault (R299, R300)? -/
def Cmd.computes (c : Cmd) (b : List Word) (segs : List Nat) (k : Nat) : Bool :=
  !c.faulted.contains k && (match c.bRecord segs (k / mnSize (bits (blkWord b 4) 4 2)) with
    | some (_, true) => false
    | _ => true)

/-- The K-groups of a matrix command, and those that each output which it computes has behind it. -/
def Cmd.depths (c : Cmd) (b : List Word) (segs : List Nat) : Nat × List Nat :=
  let total := bits (blkWord b 4) 16 16 / 32
  (total, ((List.range c.total).filter (c.computes b segs)).map (c.groupsOf total))

/-- The data units of granule i of a copy that are still to do. -/
def Cmd.granLeft (c : Cmd) (done : List Nat) (i : Nat) : Nat :=
  min c.granUnits (c.total - c.listUnits - i * c.granUnits) - (done.filter fun k => k / c.granUnits == i).length

/-- Does a command stand at a granule boundary, where it may stop (R289, R354)? A queued one does, and a receive that no
message has reached. -/
def Cmd.atBoundary (c : Cmd) : Bool :=
  if c.state == .queued then true
  else
    match c.kind with
    | .recv _ _ _ _ _ msg => msg.isNone
    | .copy .. | .mcast .. | .gath .. | .scat .. =>
      c.granule != 0 && c.pieces.isEmpty &&
        c.begun.all fun i => c.granLeft c.dataDone i == 0
    | .mmac b segs =>
      c.granule != 0 &&
        (let (total, l) := c.depths b segs
        l.all fun n => n == l.headD 0 && (n == total || n % 2 ^ (c.granule - 1) == 0))
    | _ => false

/-! ## Estimates (R352) -/

/-- Tiles that a save of the group stores (R357). -/
def State.savedTiles (s : State) (g : Group) : List Nat :=
  (List.range g.info.tiles).filter fun t =>
    bit g.liveTiles t || s.units.cmds.any fun c => c.grp == g.gid && c.batch.isSome && c.tiles.contains t

/-- The state bytes of a group without its team's scratch. -/
def State.stateBytes (s : State) (g : Group) : Nat :=
  128 * g.info.vregs + 4 * g.info.sregs + 1024 + 16384 * (s.savedTiles g).length + g.info.genBytes

/-- The resident groups of a block. -/
def State.blockGroups (s : State) (k : Nat × Nat) : List Group :=
  s.groups.filter fun g => g.place.launch == k.1 && g.place.blk == k.2

/-- The teams of a block. -/
def State.blockTeams (s : State) (k : Nat × Nat) : List Team :=
  s.units.teams.filter fun t => t.launch == k.1 && t.blk == k.2

/-- The bytes that a save of a block moves. -/
def State.saveBytes (s : State) (k : Nat × Nat) : Nat :=
  sumOf ((s.blockGroups k).map s.stateBytes) +
    ((s.launch? k.1).map (·.info.scratch)).getD 0 * (s.blockTeams k).length

/-- 512 times the nanoseconds that a command in flight takes to a point where it may stop. -/
def State.stopTime (s : State) (c : Cmd) : Nat :=
  let cell := (c.record 0).cell
  match c.kind with
  | .copy .. | .mcast .. | .gath .. | .scat .. =>
    let done := c.dataDone
    let left := if c.granule = 0 then c.total - c.listUnits - done.length
      else sumOf (c.begun.map (c.granLeft done))
    left * cell / c.fanout
  | .mmac b segs =>
    let w := blkWord b 4
    let (total, l) := c.depths b segs
    let g := 2 ^ (c.granule - 1)
    let aim := if c.granule = 0 then total else min total ((l.foldl max 0 + g - 1) / g * g)
    let left := (l.map (aim - ·)).foldl max 0
    let rate := match (c.record 0).mclass with
      | 1 => 1
      | 3 => 4
      | _ => 2
    1024 * left * mnSize (bits w 2 2) * mnSize (bits w 4 2) / (rate * s.aclkOf c.core)
  | _ => 0

/-- Does E_save stay within a deadline in nanoseconds (R351, R352)? -/
def State.saveInTime (s : State) (blocks : List (Nat × Nat)) (d : Nat) : Bool :=
  let r := ((s.units.cmds.filter fun c => c.state == .running && blocks.contains (c.launch, c.blk)).map s.stopTime).foldl
    max 0
  decide (sumOf (blocks.map s.saveBytes) + r ≤ 512 * d)

/-- Does E_drain stay within a deadline? A block keeps the start that it had through saves: t is the time since then (R352). -/
def State.drainInTime (s : State) (blocks : List (Nat × Nat)) (d : Nat) : Bool :=
  blocks.all fun k =>
    match s.launch? k.1 with
    | none => true
    | some l =>
      let t := s.ns - (((s.blockTeams k).map (·.start)).foldl max 0)
      l.drainns != 0 && decide (l.drainns - t ≤ d)

/-! ## Discard (R356) -/

/-- A command whose work is for nobody any more: it signals nothing. -/
def Cmd.forNobody (c : Cmd) : Cmd := { c with dropped := true, compl := .none }

/-- What a command of a launch that is dropped still does: nothing where it stands at a boundary, else its work up to the
next one (R356). A receive stays posted until it is matched (R305). -/
def Cmd.drop (c : Cmd) : Option Cmd := if c.atBoundary && !c.openRecv then none else some c.forNobody

/-- Is the command a receive, which is not split? -/
def Cmd.isRecv (c : Cmd) : Bool :=
  match c.kind with
  | .recv .. => true
  | _ => false

/-- A command of a saved block goes on for no group. -/
def Cmd.unowned (c : Cmd) : Cmd :=
  { c with grp := noGroup, state := if c.state == .stopped then .queued else c.state }

/-- Pre-emptions of the blocks that meet a test are over (R349). -/
def State.endPreempt (s : State) (f : Nat × Nat → Bool) : State :=
  let keep (p : Preempt) : Option Preempt :=
    let l := p.blocks.filter fun k => !f k
    if l.isEmpty then none else some { p with blocks := l }
  s.modPlat fun q => { q with clusters := q.clusters.map fun e => (e.1, { e.2 with preempt := e.2.preempt.filterMap keep }) }

/-- Everything of a launch goes: its groups end without the waits of EXIT, and its saved blocks, teams and barriers are
dropped (R356). Its receives stay posted until they are matched (R305). -/
def State.dropLaunch (s : State) (id : Nat) : State :=
  match s.launch? id with
  | none => s
  | some l =>
    let posted := ((s.units.saved.filter fun k => k.launch == id).flatMap (·.cmds)).filter Cmd.isRecv
    let s := (s.endPreempt fun k => k.1 == id).modUnits fun u => { u with
      launches := u.launches.filter fun l => l.id != id
      saved := u.saved.filter fun k => k.launch != id }
    let s := (s.groups.filter fun g => g.place.launch == id).foldl (fun s g => s.retire g) s
    let s := s.modUnits fun u => { u with
      teams := u.teams.filter fun t => t.launch != id
      barriers := u.barriers.filter fun b => b.launch != id
      cmds := (u.cmds.filterMap fun c => if c.launch == id then c.drop else some c) ++
        posted.map fun c => c.unowned.forNobody }
    s.settleRegs l.ctx

/-- A launch is discarded: it stands at the head of its queue again and runs from its first block (R356). -/
def State.discard (s : State) (id : Nat) : State :=
  match s.launch? id with
  | none => s
  | some l =>
    ((s.dropLaunch id).modUnits fun u => { u with launches := { l with nextBlk := 0, retired := 0 } :: u.launches }).modCtx
      l.ctx fun c => { c with ldiscard := c.ldiscard + 1 }

/-! ## Pre-emption (R349 to R353) -/

/-- The block's first cluster: that of its lowest team. -/
def State.firstCluster (s : State) (k : Nat × Nat) : Option Nat :=
  match s.blockTeams k with
  | [] => none
  | t :: r => some (clusterOf (r.foldl (fun a b => if b.team < a.team then b else a) t).core)

/-- Blocks of a context that a cluster holds. -/
def State.heldBlocks (s : State) (n x : Nat) : List (Nat × Nat) :=
  ((s.groups.filter fun g => g.place.ctx == x && clusterOf g.place.core == n).map fun g =>
    (g.place.launch, g.place.blk)).eraseDups

/-- Is a pre-emption of a block under way? -/
def State.blockGoing (s : State) (x : Nat) (k : Nat × Nat) : Bool :=
  s.plat.clusters.any fun e => e.2.preempt.any fun p => p.ctx == x && p.blocks.contains k

/-- A cluster makes its choice for blocks of a context whose first cluster it is (R351). -/
def State.preemptFrom (s : State) (n x : Nat) (blocks : List (Nat × Nat)) : State :=
  let d := (s.part (s.ctx x).part).pdeadline * 1000
  let start (s : State) (choice : Nat) (blocks : List (Nat × Nat)) : State :=
    s.modCluster n fun c => { c with
      preempt := (c.preempt.filter fun p => p.blocks.any fun k => !(s.blockGroups k).isEmpty) ++
        [{ ctx := x, start := s.ns, deadline := s.ns + d, choice := choice, blocks := blocks }] }
  if s.drainInTime blocks d then start s 0 blocks
  else if s.saveInTime blocks d then start s 1 blocks
  else
    let again (k : Nat × Nat) : Bool := (s.launch? k.1).any (·.info.restart)
    let keep := blocks.filter fun k => !again k
    let s := ((blocks.filter again).map (·.1)).eraseDups.foldl (fun s id => s.discard id) s
    if keep.isEmpty then s
    else (start s 1 keep).modCtx x fun c => { c with dlmiss := c.dlmiss + 1 }

/-- A cluster begins to pre-empt a context: each block that it holds is handled with the choice of the block's first cluster,
and the others follow (R349). -/
def State.preempt (s : State) (n x : Nat) : State :=
  let blocks := (s.heldBlocks n x).filter fun k => !s.blockGoing x k
  ((blocks.filterMap s.firstCluster).eraseDups).foldl
    (fun s m => s.preemptFrom m x (blocks.filter fun k => s.firstCluster k == some m)) s

/-- PREEMPTION_BEGIN (R349): work of a higher priority waits, or system software asks for it. -/
def execPreemptionBegin (cluster x : Nat) (s : State) : Out := .next (s.preempt cluster x)

/-- Does a context of at least the priority wait for the cluster: with a launch that has blocks to place, or a saved block? -/
def State.waitsFor (s : State) (x y : Nat) : Bool :=
  y != x && (s.ctx y).part == (s.ctx x).part && decide ((s.ctx y).prio ≥ (s.ctx x).prio) &&
    ((s.units.launches.any fun l => l.ctx == y && l.placing) || s.units.saved.any fun k => k.ctx == y)

/-- QUANTUM_EXPIRY (R349): the quantum of a context on a cluster has ended while another waits. -/
def execQuantumExpiry (cluster x : Nat) (s : State) : Out :=
  let q := (s.ctx x).quantum
  let start := tget s.ns (s.cluster cluster).qstart x
  if q != 0 && decide (s.ns ≥ start + 1000 * q) && (s.plat.ctxs.any fun e => s.waitsFor x e.1) then
    .next (s.preempt cluster x)
  else .next s

/-- DRAIN_DEADLINE_EXPIRY (R353): the cluster switches to save for the groups that remain. -/
def execDrainDeadlineExpiry (cluster : Nat) (s : State) : Out :=
  .next (s.modCluster cluster fun c => { c with
    preempt := c.preempt.map fun p => if p.choice = 0 && s.ns ≥ p.deadline then { p with choice := 1 } else p })

/-! ## Save (R354, R355) -/

/-- Pages of a record of n bytes after the header. -/
def pagesFor (n : Nat) : Nat := (n + 64 + 4095) / 4096

/-- The key of a record that belongs to no group, and what its header gives as GROUP (R355). -/
def noFlat : Nat := 0xFFFFFFFF

/-- Does a saved block still hold a record: that of a group which is saved or may still be, or of the block? -/
def State.holdsPage (s : State) (k : SavedBlock) (key : Nat) : Bool :=
  if key = noFlat then !k.cmds.isEmpty || !s.wholeSaved k
  else (k.groups ++ s.blockGroups (k.launch, k.blk)).any fun g => g.place.flat == key

/-- Pages of a context's save area that records hold. -/
def State.usedPages (s : State) (x : Nat) : List (Nat × Nat) :=
  ((s.units.saved.filter fun k => k.ctx == x).flatMap fun k =>
    (k.pages.filter fun e => s.holdsPage k e.1).map (·.2)) ++
  (s.units.parked.filter fun p => p.ctx == x).filterMap (·.page)

/-- The lowest run of n free pages in a save area of `cap` pages. -/
def freePages (used : List (Nat × Nat)) (cap n : Nat) : Option Nat :=
  (List.range cap).find? fun i => decide (i + n ≤ cap) && used.all fun (b, m) => decide (i + n ≤ b) || decide (b + m ≤ i)

/-- Finds room for records of the given lengths. -/
def takePages (used : List (Nat × Nat)) (cap : Nat) : List Nat → Option (List (Nat × Nat))
  | [] => some []
  | n :: ns =>
    match freePages used cap n with
    | none => none
    | some i => (takePages ((i, n) :: used) cap ns).map fun r => (i, n) :: r

/-- The groups of a team that are resident or saved. -/
def State.teamGroups (s : State) (launch blk team : Nat) : List Group :=
  (s.groups ++ s.units.saved.flatMap (·.groups)).filter fun h =>
    h.place.launch == launch && h.place.blk == blk && h.place.team == team

/-- Is the group the lowest-numbered of its team, in whose record the scratch goes (R355)? -/
def State.leadsTeam (s : State) (g : Group) : Bool :=
  (s.teamGroups g.place.launch g.place.blk g.place.team).all fun h => decide (g.place.grp ≤ h.place.grp)

/-- Pages of the record of a group. -/
def State.groupPages (s : State) (g : Group) : Nat :=
  pagesFor (s.stateBytes g + if s.leadsTeam g then ((s.launch? g.place.launch).map (·.info.scratch)).getD 0 else 0)

/-- The records of a block: one for each group, and one for the remaining work of stopped commands. -/
def State.recordsOf (s : State) (k : Nat × Nat) : List (Nat × Nat) :=
  (s.blockGroups k).map (fun g => (g.place.flat, s.groupPages g)) ++ [(noFlat, 1)]

/-- SAVEBASE as one use sees it (R364). -/
def State.saveBase (s : State) (x : Nat) : State × Nat :=
  match s.useRegs x with
  | (s, r) => (s, r.savebase)

/-- The length of the save area in pages, as one use sees it (R364). -/
def State.saveCap (s : State) (x : Nat) : State × Nat :=
  match s.useRegs x with
  | (s, r) => (s, r.savelen / 4096)

/-- Writes the header of a save record, where it lies in memory that the partition owns (R355, R364). -/
def State.writeHeader (s : State) (x : Nat) (page : Nat × Nat) (kind blk flat time : Nat) : State :=
  match s.saveBase x with
  | (s, base) =>
    let pa := base + 4096 * page.1
    if s.ownsRange (s.ctx x).part pa 64 then
      s.writeBy x .dflt (.hbm pa)
        (leBytes 4 kind ++ leBytes 4 page.2 ++ leBytes 4 blk ++ leBytes 4 flat ++ leBytes 8 time ++ List.replicate 40 0)
    else s

/-- Changes the record of a block. -/
def State.modSaved (s : State) (launch blk : Nat) (f : SavedBlock → SavedBlock) : State :=
  s.modUnits fun u => { u with saved := u.saved.map fun k => if k.launch == launch && k.blk == blk then f k else k }

/-- The record of a key takes n pages, where it has its room or in other free pages, and its header is written; false where
there is no such room (R355). -/
def State.fitRecord (s : State) (launch blk key n : Nat) : State × Bool :=
  match s.units.saved.find? fun k => k.launch == launch && k.blk == blk with
  | none => (s, true)
  | some k =>
    match k.pages.find? fun e => e.1 == key with
    | none => (s, true)
    | some (_, p, m) =>
      match s.saveCap k.ctx with
      | (s, cap) =>
        match (if n ≤ m then some p else freePages ((s.usedPages k.ctx).erase (p, m)) cap n) with
        | none => (s, false)
        | some i =>
          let s := s.modSaved launch blk fun k =>
            { k with pages := k.pages.map fun e => if e.1 == key then (key, i, n) else e }
          (s.writeHeader k.ctx (i, n) (if key = noFlat then 2 else 1) blk key k.time, true)

/-- A saved block's record, before any of its groups is in it. -/
def State.openSave (s : State) (k : Nat × Nat) (x : Nat) (pages : List (Nat × Nat × Nat)) : State :=
  s.modUnits fun u => { u with saved := u.saved ++
    [{ launch := k.1, blk := k.2, ctx := x, groups := [], teams := [], scratch := [], cmds := [], reqs := [], time := s.ns,
       pages := pages }] }

/-- The group of a list with the lowest flat launch index. -/
def firstGroup : List Group → Option Group
  | [] => none
  | g :: gs =>
    match firstGroup gs with
    | none => some g
    | some h => if h.place.flat < g.place.flat then some h else some g

/-- A save that finds too little room saves nothing of the block: it is discarded, or ended as a double fault ends it, with
what had been saved of it (R355). The error names the block's first group (R365). -/
def State.saveFails (s : State) (k : Nat × Nat) (x : Nat) : State :=
  if (s.launch? k.1).any (·.info.restart) then s.discard k.1
  else
    let mine (b : SavedBlock) : Bool := b.launch == k.1 && b.blk == k.2
    let gs := s.blockGroups k
    let old := s.units.saved.filter mine
    let away := old.flatMap (·.groups)
    let s := s.recordErr x 3 0 0 (((firstGroup (gs ++ away)).map (·.gid)).getD 0)
    let s := (s.endPreempt fun b => b == k).modUnits fun u => { u with
      saved := u.saved.filter fun b => !mine b
      cmds := u.cmds ++ (old.flatMap (·.cmds)).map Cmd.unowned }
    let s := gs.foldl (fun s g => s.retire g) s
    let s := s.modUnits fun u => { u with
      teams := u.teams.filter fun t => !(t.launch == k.1 && t.blk == k.2)
      barriers := u.barriers.filter fun b => !(b.launch == k.1 && b.blk == k.2) }
    ((s.modLaunch k.1 fun l => { l with retired := l.retired + away.length }).launchDone k.1).settleRegs x

/-- Does something in flight still reach a team's scratch: an access (R225), or a multicast that does not itself stop with
the team's block (R292)? -/
def State.scratchBusy (s : State) (t : Team) (part : Nat) : Bool :=
  let banks := s.scratchBanks part t.core
  let inTeam (l : Loc) : Bool :=
    match l with
    | .scr core off =>
      let o := 32768 * banks.idxOf (off / 32768) + off % 32768
      core == t.core && decide (t.tb ≤ o) && decide (o < t.tb + t.size)
    | _ => false
  (s.mem.flight.any fun a => !a.performed && a.value.isNone && inTeam a.loc) ||
    s.units.cmds.any fun c =>
      (match c.kind with
        | .mcast _ _ _ cores => c.state == .running && cores.contains t.core && s.castTeam c.agent t.core == some t &&
            !(c.launch == t.launch && c.blk == t.blk && c.atBoundary)
        | _ => false)

/-- Has every access, window operation and barrier operation of the group been completed, does nothing in flight reach its
team's scratch, and do its commands stand where they may stop (R354)? -/
def State.quiet (s : State) (g : Group) : Bool :=
  g.uas == 0 && g.holds.isEmpty && !(s.mem.flight.any fun a => a.grp == g.gid) && !(s.units.ratchet.any fun w => w.grp == g.gid) &&
    !(s.units.arrivals.any fun b => b.launch == g.place.launch && b.blk == g.place.blk) &&
    (s.team? g.place.launch g.place.blk g.place.team).all (fun t => !s.scratchBusy t g.place.part) &&
    s.units.cmds.all fun c => c.grp != g.gid || c.atBoundary

/-- What a group waits in when it is saved: a JRAISE or JDONE that has not reached its home slice begins again on resume, so
that no translation outlasts a save (R319, R335, R387). -/
def waitToSave (w : Option Wait) (words : Option (Nat × Nat)) : Option Wait := if waitHasPa w words then none else w

/-- A group as it is saved: its results have landed, its set is the saved set (R247, R354). The front-end that would pass over
it has it no more (R336). -/
def Group.toSave (g : Group) (tiles : List Nat) : Group :=
  { g.landEvery with
    holds := []
    saved := match g.entered with
      | some b => some b
      | none => g.saved
    entered := none
    yielded := false
    wait := waitToSave g.wait g.words
    trap := g.landEvery.trap.map fun t => { t with wait := waitToSave t.wait t.words }
    regs := { g.landEvery.regs with tiles := g.landEvery.regs.tiles.filter fun e => tiles.contains (e.1 / 4096) }
    liveTiles := g.liveTiles }

/-- A command as it is kept: what it has read beyond its boundary is read again. One that has done part of its work has
stopped in mid-course, be it that it waits to go on after an earlier stop. -/
def Cmd.stop (c : Cmd) : Cmd :=
  { c with state := if c.state == .queued && c.done.isEmpty && c.prog.isEmpty then .queued else .stopped
           bufs := [], asked := [] }

/-- Moves a group, its commands and its requests into its block's record; false where its record finds no room. A group that
has yet to enter its saved set again asks for it on resume, so its request is not kept (R247). -/
def State.moveToSave (s : State) (g : Group) : State × Bool :=
  let p := g.place
  let mine := (s.units.cmds.filter fun c => c.grp == g.gid).map Cmd.stop
  let saved := g.toSave (s.savedTiles g)
  let reqs := ((s.part p.part).reqs.filter fun r => r.grp == g.gid && !g.saved.any r.asksFor).map fun r =>
    { r with handled := false, admitted := false }
  let n := s.groupPages g
  let s := s.modSaved p.launch p.blk fun k =>
    { k with groups := k.groups ++ [saved], cmds := k.cmds ++ mine, reqs := k.reqs ++ reqs }
  let s := s.modUnits fun u => { u with cmds := u.cmds.filter fun c => c.grp != g.gid }
  let s := (s.leaveSet g).withdraw g
  let s := { s with groups := s.groups.filter fun h => h.gid != g.gid }
  match s.fitRecord p.launch p.blk p.flat n with
  | (s, false) => (s, false)
  | (s, true) => if mine.isEmpty then (s, true) else s.fitRecord p.launch p.blk noFlat 1

/-- May a team leave its core: none of its groups is resident, some are saved, nothing reaches its scratch, and its scratch is
not to change (R375)? -/
def State.teamLeaves (s : State) (t : Team) : Bool :=
  let here (g : Group) : Bool := g.place.launch == t.launch && g.place.blk == t.blk && g.place.team == t.team
  !(s.groups.any here) && (s.units.saved.any fun k => k.groups.any here) &&
    !s.banksChange t.core && (s.launch? t.launch).all fun l => !s.scratchBusy t (s.ctx l.ctx).part

/-- A team goes into its block's record with its scratch, which the record of its lowest-numbered saved group holds; where that
finds no room, the save of the block fails (R354, R355). -/
def State.stowTeam (s : State) (t : Team) : State :=
  match s.teamGroups t.launch t.blk t.team with
  | [] => s
  | g :: gs =>
    let lead := gs.foldl (fun a b => if b.place.grp < a.place.grp then b else a) g
    let mem : Memory := (List.range t.size).foldl (fun (m : Memory) i => match s.teamScratch t lead.place.part i with
      | some l => m.set i ((s.locRead l 1).headD 0)
      | none => m) []
    let n := s.groupPages lead
    let s := s.modSaved t.launch t.blk fun k => { k with teams := k.teams ++ [t], scratch := k.scratch ++ [(t.team, mem)] }
    let s := s.modUnits fun u => { u with
      teams := u.teams.filter fun v => !(v.launch == t.launch && v.blk == t.blk && v.team == t.team) }
    match s.fitRecord t.launch t.blk lead.place.flat n with
    | (s, true) => s
    | (s, false) => s.saveFails (t.launch, t.blk) lead.place.ctx

/-- Every team that may leave its core does. -/
def State.stowTeams (s : State) : State :=
  (s.units.teams.filter s.teamLeaves).foldl (fun s t => s.stowTeam t) s

/-- Is the group drained: about to issue a YIELD with nothing of its lane stream or engines under way (R353)? -/
def State.atYield (s : State) (g : Group) : Bool :=
  s.atRest g && (match s.scalarIssue g.gid with
    | .instr _ .yield => true
    | _ => false)

/-- Is a pre-emption of the group's block to save it now? -/
def State.toBeSaved (s : State) (g : Group) : Bool := s.preempted g 1 || (s.preempted g 0 && s.atYield g)

/-- A group goes to the save area, and every team that may leave follows; where there is too little room the save of its block
fails (R355). -/
def State.saveGroup (s : State) (g : Group) : State :=
  match s.moveToSave g with
  | (s, true) => s.stowTeams
  | (s, false) => s.saveFails (g.place.launch, g.place.blk) g.place.ctx

/-- GROUP_SAVE (R354, R355): a group that is to be saved, and is quiet, goes to the save area; the first of its block finds
the room for all. -/
def execGroupSave (gid : Nat) (s : State) : Out :=
  match s.group? gid with
  | none => .next s
  | some g =>
    let k := (g.place.launch, g.place.blk)
    let x := g.place.ctx
    if !s.toBeSaved g || !s.quiet g then .next s
    else if s.units.saved.any fun b => b.launch == k.1 && b.blk == k.2 then .next (s.saveGroup g)
    else
      match s.saveCap x with
      | (s, cap) =>
        let recs := s.recordsOf k
        match takePages (s.usedPages x) cap (recs.map (·.2)) with
        | none => .next (s.saveFails k x)
        | some pages => .next ((s.openSave k x ((recs.map (·.1)).zip pages)).saveGroup g)

/-! ## Resume (R358) -/

/-- Free values for the elements of a tile that was not saved (R357). -/
def freeTile (seed t : Nat) : Tbl Word :=
  (List.range 4096).map fun i => (4096 * t + i, Config.freeWord (2 ^ 62 + 65536 * seed + 4096 * t + i))

/-- The group in its new place, with what was not saved undefined. -/
def Group.restored (g : Group) (seed core quad slot : Nat) (saved : List Nat) : Group :=
  let tile (t : Nat) : Tbl Word :=
    if saved.contains t then g.regs.tiles.filter fun e => e.1 / 4096 == t else freeTile seed t
  { g with
    gid := groupId core quad slot
    place := { g.place with core := core, quad := quad, slot := slot }
    regs := { g.regs with tiles := (List.range g.info.tiles).flatMap tile }
    suspended := g.saved.isSome }

/-- A command that comes back has edges with the commands that it meets in its cluster: those issued before it, and those that
have started meanwhile (R288, R358). -/
def Cmd.rejoin (c : Cmd) (l : List Cmd) : Cmd :=
  let new := (l.filter fun y => (y.state == .running || decide (y.id < c.id)) && c.edgeWith y).map (·.id)
  { c with edges := (c.edges ++ new).eraseDups }

/-- A command that has not started has edges with those that come back and were issued before it. -/
def Cmd.meet (c : Cmd) (l : List Cmd) : Cmd :=
  if c.state != .queued then c
  else { c with edges := (c.edges ++ (l.filter fun y => decide (y.id < c.id) && c.edgeWith y).map (·.id)).eraseDups }

/-- Puts a receive in its place in a list that is in posting order, the order in which the commands were issued (R306). -/
def Posted.into (p : Posted) (l : List Posted) : List Posted :=
  l.takeWhile (fun q => decide (q.cmd < p.cmd)) ++ p :: l.dropWhile fun q => decide (q.cmd < p.cmd)

/-- Receives in posting order (R306). -/
def inPostingOrder (l : List Posted) : List Posted := l.foldr Posted.into []

/-- Puts the groups of a saved team in a seat. DESIGN CHOICE (log 87): the receives that the block has posted move with it to
its new cluster. There they stand in posting order among the others (R306). -/
def State.seatTeam (s : State) (k : SavedBlock) (t : Team) (seat : Seat) : State :=
  let part := (s.ctx k.ctx).part
  let t' : Team := { t with core := seat.core, tb := seat.tb }
  let s := s.startQuantum k.ctx seat.core
  let s := s.modUnits fun u => { u with teams := u.teams ++ [t'] }
  let mem : Memory := ((k.scratch.find? fun e => e.1 == t.team).map (·.2)).getD []
  let s := (List.range t.size).foldl (fun s i => match s.teamScratch t' part i with
    | some l => s.locWrite l [mem.get i]
    | none => s) s
  let tilesOf (g : Group) : List Nat := (List.range 4).filter fun i =>
    bit g.liveTiles i || k.cmds.any fun c => c.grp == g.gid && c.tiles.contains i
  let gs := (k.groups.filter fun g => g.place.team == t.team).zip seat.at'
  let back (e : Group × Nat × Nat) : Group :=
    s.lateGroup false s.ns (e.1.restored (s.draws + e.1.place.grp) seat.core e.2.1 e.2.2 (tilesOf e.1))
  let s := { s with groups := s.groups ++ gs.map back }
  let rename (i : Nat) : Nat :=
    ((gs.find? fun (g, _) => g.gid == i).map fun (_, q, sl) => groupId seat.core q sl).getD i
  let mine (i : Nat) : Bool := gs.any fun (g, _) => g.gid == i
  let quadOf (i : Nat) : Nat := ((gs.find? fun (g, _) => g.gid == i).map fun (_, q, _) => q).getD 0
  let back (c : Cmd) : Cmd :=
    ({ c with grp := rename c.grp, core := seat.core, quad := quadOf c.grp,
              state := if c.state == CmdState.stopped then CmdState.queued else c.state }).rejoin s.inFlight
  let mineBack := (k.cmds.filter fun c => mine c.grp).map back
  let own (p : Posted) : Bool := k.cmds.any fun c => c.id == p.cmd && mine c.grp
  let move (p : Posted) : Posted := if own p then { p with cluster := clusterOf seat.core } else p
  let s := s.modUnits fun u => { u with
    cmds := u.cmds.map (·.meet mineBack) ++ mineBack
    posted := inPostingOrder ((u.posted ++ u.parked.flatMap fun e => e.posted.filter own).map move)
    parked := u.parked.map fun e => { e with posted := e.posted.filter fun p => !own p } }
  let ask : List BReq := gs.filterMap fun (g, q, sl) => g.saved.map fun b =>
    { grp := groupId seat.core q sl, part := part, ids := b.ids, prio := b.prio, age := b.age, handled := true,
      admitted := false, handler := false }
  let kept := (k.reqs.filter fun r => mine r.grp).map fun r => { r with grp := rename r.grp, handled := true }
  let s := s.modPart part fun p => { p with reqs := p.reqs ++ ask ++ kept }
  if seat.core == t.core then s else s.acquireCore seat.core part

/-- Seats every team of a saved block. -/
def State.seatTeams (s : State) (k : SavedBlock) : List (Team × Seat) → State
  | [] => s
  | (t, seat) :: r => State.seatTeams (s.seatTeam k t seat) k r

/-- The barriers of a block name its groups by their new ids. -/
def State.renameBarriers (s : State) (k : SavedBlock) (seats : List (Team × Seat)) : State :=
  let pairs := seats.flatMap fun (t, seat) =>
    ((k.groups.filter fun g => g.place.team == t.team).zip seat.at').map fun (g, q, sl) => (g.gid, groupId seat.core q sl)
  let f (i : Nat) : Nat := ((pairs.find? fun e => e.1 == i).map (·.2)).getD i
  let g (b : Barrier) : Barrier :=
    if b.launch == k.launch && b.blk == k.blk then { b with arrived := b.arrived.map f, leaving := b.leaving.map f } else b
  s.modUnits fun u => { u with barriers := u.barriers.map g }

/-- Resumes a saved block in the seats found for it. Event RSUM is set before a stream issues (R358). Its pre-emption is over
(R349), what was steered to a lighter cluster counts (R348), and its groups look again at what they wait for (R319). -/
def State.resume (s : State) (k : SavedBlock) (l : List (Team × Seat)) : State :=
  let s := (s.endPreempt fun b => b == (k.launch, k.blk)).modUnits fun u => { u with saved := u.saved.erase k }
  let s := if k.stays then s else s.steerDone (l.map (·.2))
  let s := (s.renameBarriers k l).seatTeams k l
  let s := s.modCtx k.ctx fun c => { c with ev := evApply c.ev { src := dispatcherPort, set := true, bit := 253 } }
  (s.lookAgain k.ctx).drawn

/-- Could the next block of a launch, or all of a co-operative one, be placed now? -/
def State.couldPlace (s : State) (l : Launch) : Bool :=
  l.placing && !s.behind l && !(s.ctx l.ctx).dead && (l.nextBlk != 0 || s.lastRunOver l.id) &&
    if l.coop then s.allFit l (s.mayPlace l.ctx) (l.blocks - l.nextBlk)
    else (s.plan .first l (List.replicate l.teams l.groups) (s.mayPlace l.ctx)).isSome

/-- Does other work of the partition go ahead of a saved block: a launch or another saved block of higher priority that could
be placed now (R358)? -/
def State.resumeLater (s : State) (k : SavedBlock) : Bool :=
  let ahead (x : Nat) : Bool := (s.ctx x).part == (s.ctx k.ctx).part && decide ((s.ctx x).prio > (s.ctx k.ctx).prio)
  (s.units.launches.any fun l => ahead l.ctx && s.couldPlace l) ||
    s.units.saved.any fun b => ahead b.ctx && s.wholeSaved b && (s.resumePlan .first b).isSome

/-- BLOCK_RESUME (R358): the k-th saved block, when its teams can be placed, and no scratch is to change where they are (R375). -/
def execBlockResume (k : Nat) (s : State) : Out :=
  let s := s.stowTeams
  match s.units.saved[k]? with
  | none => .next s
  | some b =>
    if !s.wholeSaved b || s.resumeLater b then .next s
    else
      match s.resumePlan (.free s.draws) b with
      | some l => if l.any fun e => s.banksChange e.2.core then .next s else .next (s.resume b l)
      | none => .next (s.askWake b.ctx)

/-! ## Context switch and tear-down (R359 to R361) -/

/-- The outgoing context's posted receives and overflow entries of a cluster go to its save area, in a record of their own
(R355, R359). DESIGN CHOICE (log 78): where the area has no free page they are kept without one. -/
def State.park (s : State) (n x : Nat) : State :=
  let posted := s.units.posted.filter fun p => p.cluster == n && p.ctx == x
  let overs := s.units.overflow.filter fun o => o.cluster == n && o.ctx == x
  if posted.isEmpty && overs.isEmpty then s
  else
    match s.saveCap x with
    | (s, cap) =>
      let page := (freePages (s.usedPages x) cap 1).map fun i => (i, 1)
      let s := s.modUnits fun u => { u with
        posted := u.posted.filter fun p => !(p.cluster == n && p.ctx == x)
        overflow := u.overflow.filter fun o => !(o.cluster == n && o.ctx == x)
        parked := u.parked ++ [{ cluster := n, ctx := x, posted := posted, overflow := overs, page := page }] }
      match page with
      | some e => s.writeHeader x e 3 0 noFlat s.ns
      | none => s

/-- The incoming context's posted receives and overflow entries of a cluster come back, in posting order and before what has
arrived meanwhile (R306, R359). -/
def State.unpark (s : State) (n x : Nat) : State :=
  let mine (p : Parked) : Bool := p.cluster == n && p.ctx == x
  s.modUnits fun u => { u with
    posted := inPostingOrder (u.posted ++ (u.parked.filter mine).flatMap (·.posted))
    overflow := (u.parked.filter mine).flatMap (·.overflow) ++ u.overflow
    parked := u.parked.filter fun p => !mine p }

/-- CLUSTER_CONTEXT_SWITCH (R359): once the outgoing context has no group and no command on the cluster, its receives are put
away, the incoming context's are loaded, and the record cache is flushed. The time of the load, at most 8 µs, is charged to
the incoming context's quantum; it is a free value. -/
def execClusterContextSwitch (cluster x : Nat) (s : State) : Out :=
  let part := (s.ctx x).part
  let switch (s : State) : State :=
    (((s.unpark cluster x).modUnits fun u => { u with recs := u.recs.filter fun e => e.cluster != cluster }).modCluster
      cluster fun c => { c with serves := tset c.serves part x, charge := tset c.charge x (s.freeNat % 8001) }).drawn
  match (s.cluster cluster).serves.find? fun e => e.1 == part with
  | none => .next (switch s)
  | some (_, y) =>
    if y == x || (s.groups.any fun g => g.place.ctx == y && clusterOf g.place.core == cluster) ||
        (s.units.cmds.any fun c => c.ctx == y && clusterOf c.core == cluster && !(c.dropped && c.openRecv)) then .next s
    else .next (switch (s.park cluster y))

/-- Launch packets that a tear-down discards: launches under way, and packets in queues that have not begun (R360). -/
def State.packetsOf (s : State) (x : Nat) : Nat :=
  let c := s.ctx x
  let begun (q : Nat) : Nat := if s.units.launches.any fun l => l.ctx == x && l.queue == q && !l.left then 1 else 0
  let queued := sumOf ((List.range 4).map fun q => (tget HQueue.reset c.hq q).count - begun q) + (c.dq.length - begun 4) +
    c.waiting.length
  (s.units.launches.filter fun l => l.ctx == x).length + queued

/-! ## Lifetime counters and leases (R377, R381) -/

/-- Adds to a lifetime counter. By number: 0 power-on hours, 1 to 16 the temperature histogram, 17 to 52 droop events of a
pair, 53 to 88 balance excursions of a pair, 89 boost-lease µs, from 96 on corrected errors of an HBM stack and channel
(log 4). -/
def State.lifeAdd (s : State) (i n : Nat) : State :=
  s.modPlat fun p => { p with life := tset p.life i ((tget 0 p.life i + n) % 2 ^ 64) }

/-- A lease ends: event LEASE is set, and its time is counted (R377, R381). -/
def State.endLease (s : State) (x : Nat) : State :=
  let l := (s.ctx x).lease
  if l.active then
    let used := bits l.value 16 13 - (l.endNs - s.ns) / 1000
    ((s.modCtx x fun c => { c with lease := { c.lease with active := false } }).raiseEvent dispatcherPort x 252).lifeAdd 89 used
  else s

/-! ## Tear-down (R360) -/

/-- CONTEXT_TEARDOWN (R360). -/
def execContextTeardown (x : Nat) (s : State) : Out :=
  let n := s.packetsOf x
  let s := s.endLease x
  let s := ((s.units.launches.filter fun l => l.ctx == x).map (·.id)).foldl (fun s id => s.dropLaunch id) s
  let ids := (s.units.bundles.filter fun b => b.ctx == x && !b.freed).map (·.id)
  let s := ids.foldl (fun s i => s.freeBundle i) s
  let s := s.modUnits fun u => { u with
    cmds := u.cmds.filter fun c => !(c.ctx == x && c.openRecv)
    posted := u.posted.filter fun p => p.ctx != x
    overflow := u.overflow.filter fun o => o.ctx != x
    parked := u.parked.filter fun p => p.ctx != x }
  let s := s.modCtx x fun c =>
    { c with
      dead := true, dq := [], waiting := [], tasks := [], ldiscard := c.ldiscard + BitVec.ofNat 32 n
      hq := c.hq.map fun e => (e.1, { e.2 with tail := e.2.head }) }
  .next s

end Sys2Proof.Machine
end

