-- ==== Sys2Proof/Machine/Windows.lean ====
section
/-! DEFINITION. Window accumulators (R72, R73, R267 to R276): objects in team scratch, the window operations at issue, and
the Ratchet that performs them. -/
namespace Sys2Proof.Machine

/-! ## Combining steps (R73) -/

/-- A contribution: its first and its second component; single operators use the first alone. -/
abbrev WVal := Word × Word

/-- An f32 result. -/
def f32Word (v : FVal) : Word := BitVec.ofNat 32 (fp32.encode v)
/-- A word as an f32 value. -/
def f32Val (w : Word) : FVal := fp32.decode w.toNat
/-- A sum of products, formed exactly and rounded once in RN. -/
def f32Sum (l : List (FVal × FVal)) : FVal :=
  (roundX fp32 .rn 0 0 (sumX .rn (l.any fun (a, b) => badProd a b) (l.map fun (a, b) => prod a b))).v
/-- The value 1. -/
def FVal.one : FVal := .fin false 1 0
/-- The identity of a sum: −0. -/
def FVal.negZero : FVal := .fin true 0 0

/-- 2^(lo − hi) rounded to f32 in RN, for lo < hi (R73). -/
def expGap (lo hi : FVal) (free : Nat) : FVal :=
  match sumX .rn false [lo, hi.negate] with
  | .fin n m e => (roundX fp32 .rn 0 free (exp2X n m e)).v
  | _ => FVal.zero

/-- LSE: older on the left. -/
def lseStep (a b : WVal) : WVal :=
  let m1 := f32Val a.1
  let m2 := f32Val b.1
  let s1 := f32Val a.2
  let s2 := f32Val b.2
  if m1 == .inf true && m2 == .inf true then (f32Word (.inf true), f32Word (f32Sum [(s1, FVal.one), (s2, FVal.one)]))
  else
    let up := fLess m1 m2
    let same := fEq m1 m2
    let free := Config.freeFunction 8 (2 ^ 32 * a.1.toNat + b.1.toNat) 0
    let e := if same then FVal.one else if up then expGap m1 m2 free else expGap m2 m1 free
    (f32Word (fSelect true m1 m2),
      f32Word (if up && !same then f32Sum [(s2, FVal.one), (s1, e)] else f32Sum [(s1, FVal.one), (s2, e)]))

/-- AFF: older on the left. -/
def affStep (a b : WVal) : WVal :=
  (f32Word (f32Sum [(f32Val b.1, f32Val a.1)]),
    f32Word (f32Sum [(f32Val b.1, f32Val a.2), (f32Val b.2, FVal.one)]))

/-- Is a component of either operand a NaN? -/
def anyNan (a b : WVal) (pair : Bool) : Bool :=
  (f32Val a.1).isNan || (f32Val b.1).isNan || (pair && ((f32Val a.2).isNan || (f32Val b.2).isNan))

/-- ARGMAX's comparison: a NaN counts as larger than every number. -/
def argLess (a b : FVal) : Bool := if a.isNan then false else b.isNan || (fLess a b && !fEq a b)

/-- The combining step of an operator: the older operand stands on the left (R72, R73). DESIGN CHOICE (log 81): ARGMAX
gives the selected pair as it is (R73), a NaN's payload in it, where R52 makes a NaN that an operation produces canonical. -/
def waStep (op : Nat) (flt : Bool) (a b : WVal) : WVal :=
  let nan : Word := BitVec.ofNat 32 fp32.nan
  let ints (f : Int → Int → Int) : WVal := (BitVec.ofInt 32 (f a.1.toInt b.1.toInt), 0)
  let flts (v : FVal) : WVal := if anyNan a b false then (nan, 0) else (f32Word v, 0)
  match op with
  | 0 => if flt then flts (f32Sum [(f32Val a.1, FVal.one), (f32Val b.1, FVal.one)]) else ints fun x y => x + y
  | 1 => if flt then flts (fSelect true (f32Val a.1) (f32Val b.1)) else ints fun x y => max x y
  | 2 => if flt then flts (fSelect false (f32Val a.1) (f32Val b.1)) else ints fun x y => min x y
  | 3 => flts (f32Sum [(f32Val a.1, f32Val b.1)])
  | 4 => (a.1 &&& b.1, 0)
  | 5 => (a.1 ||| b.1, 0)
  | 6 => (a.1 ^^^ b.1, 0)
  | 7 => if argLess (f32Val a.1) (f32Val b.1) then b else a
  | 8 => if anyNan a b true then (nan, nan) else lseStep a b
  | _ => if anyNan a b true then (nan, nan) else affStep a b

/-- The identity of an operator (R268). -/
def waIdentity (op : Nat) (flt : Bool) : WVal :=
  match op with
  | 0 => (if flt then f32Word FVal.negZero else 0, 0)
  | 1 => (if flt then f32Word (.inf true) else 0x80000000, 0)
  | 2 => (if flt then f32Word (.inf false) else 0x7FFFFFFF, 0)
  | 3 => (f32Word FVal.one, 0)
  | 4 => (0xFFFFFFFF, 0)
  | 5 | 6 => (0, 0)
  | 7 => (f32Word (.inf true), 0xFFFFFFFF)
  | 8 => (f32Word (.inf true), 0)
  | _ => (f32Word FVal.one, 0)

/-- Is the operator one on pairs? -/
def waPair (op : Nat) : Bool := decide (7 ≤ op)
/-- The element size in bytes. -/
def waElem (op : Nat) : Nat := if waPair op then 8 else 4
/-- The size of an object in bytes (R267). -/
def waSize (op cap : Nat) : Nat := 64 + 32 * cap * 2 * waElem op
/-- Is a capacity within its limits (R268)? -/
def waCapOk (op cap : Nat) : Bool := decide (1 ≤ cap) && decide (cap ≤ if waPair op then 128 else 256)

/-! ## Objects in scratch (R267) -/

/-- The header of an object. `resv` is the OR of the reserved fields. -/
structure WaHdr where
  op : Nat
  flt : Nat
  cap : Nat
  w : Nat
  fd : Nat
  bd : Nat
  binds : Nat
  pushes : Nat
  resv : Nat
  deriving DecidableEq, Repr

/-- The header of the object at a scratch offset; none where it lies beyond the team's scratch. -/
def State.waHdr (s : State) (t : Team) (part base : Nat) : Option WaHdr :=
  match (List.range 16).mapM fun i => s.teamWord t part (base + 4 * i) with
  | none => none
  | some ws =>
    let w (i : Nat) : Nat := ws.getD i 0
    some { op := bits (w 0) 0 4, flt := bits (w 0) 4 1, cap := bits (w 0) 8 9, w := bits (w 1) 0 9,
           fd := bits (w 2) 0 9, bd := bits (w 2) 9 9, binds := bits (w 3) 0 10, pushes := w 4,
           resv := orAll ([bits (w 0) 5 3, bits (w 0) 17 15, bits (w 1) 9 23, bits (w 2) 18 14, bits (w 3) 10 22] ++
             ws.drop 5) }

/-- Is a header invalid (R275)? -/
def WaHdr.invalid (h : WaHdr) : Bool :=
  h.resv != 0 || h.op == 15 || !wainiOk h.op h.flt .none .none || !waCapOk h.op h.cap || h.w == 0 ||
    decide (h.w > h.cap) || decide (h.fd + h.bd > h.w) || h.binds == 0

/-- An object that an operation works on. -/
structure Wa where
  s : State
  t : Team
  part : Nat
  base : Nat
  h : WaHdr

/-- Writes the header back; a whole header when an object is created, else the fields that operations change. -/
def Wa.putHdr (a : Wa) (whole : Bool) : State :=
  let put (s : State) (e : Nat × Nat) : State := s.setTeamWord a.t a.part (a.base + 4 * e.1) e.2
  let h := a.h
  let ws := [(1, h.w), (2, h.fd + 2 ^ 9 * h.bd), (3, h.binds), (4, h.pushes % 2 ^ 32)]
  let all := if whole then
      (0, h.op + 2 ^ 4 * h.flt + 2 ^ 8 * h.cap) :: ws ++ (List.range 11).map fun i => (5 + i, 0)
    else ws
  all.foldl put a.s

/-- The scratch offset of entry k of window i. -/
def Wa.entryAt (a : Wa) (i k : Nat) : Nat := a.base + 64 + i * (2 * a.h.cap * waElem a.h.op) + k * (2 * waElem a.h.op)

/-- A value at an offset of the region. -/
def Wa.val (a : Wa) (off : Nat) : WVal :=
  let w (o : Nat) : Word := BitVec.ofNat 32 ((a.s.teamWord a.t a.part o).getD 0)
  (w off, if waPair a.h.op then w (off + 4) else 0)

/-- Writes a value at an offset of the region. -/
def Wa.setVal (a : Wa) (off : Nat) (v : WVal) : Wa :=
  let s := a.s.setTeamWord a.t a.part off v.1.toNat
  { a with s := if waPair a.h.op then s.setTeamWord a.t a.part (off + 4) v.2.toNat else s }

/-- The contribution of entry k of window i. -/
def Wa.contrib (a : Wa) (i k : Nat) : WVal := a.val (a.entryAt i k)
/-- The aggregate of entry k of window i. -/
def Wa.agg (a : Wa) (i k : Nat) : WVal := a.val (a.entryAt i k + waElem a.h.op)
/-- Writes entry k of window i. -/
def Wa.setEntry (a : Wa) (i k : Nat) (c g : WVal) : Wa :=
  (a.setVal (a.entryAt i k) c).setVal (a.entryAt i k + waElem a.h.op) g

/-- The object's combining step. -/
def Wa.step (a : Wa) (x y : WVal) : WVal := waStep a.h.op (a.h.flt == 1) x y

/-- Front entries from index k on, newest first: each aggregate is its contribution with the one before on the right. -/
def Wa.fillFront (a : Wa) (i k : Nat) (prev : Option WVal) : List WVal → Wa
  | [] => a
  | c :: cs =>
    let g := match prev with
      | some p => a.step c p
      | none => c
    Wa.fillFront (a.setEntry i k c g) i (k + 1) (some g) cs

/-- A flip: the back stack of every window becomes its front stack (R271). -/
def Wa.flip (a : Wa) : Wa :=
  let b := (List.range 32).foldl (fun (b : Wa) i =>
    b.fillFront i 0 none ((List.range a.h.bd).map fun k => b.contrib i (a.h.cap - a.h.bd + k))) a
  { b with h := { b.h with fd := a.h.bd, bd := 0 } }

/-- expire1 (R271). -/
def Wa.expire1 (a : Wa) : Wa :=
  if a.h.fd + a.h.bd = 0 then a
  else
    let a := if a.h.fd = 0 then a.flip else a
    { a with h := { a.h with fd := a.h.fd - 1 } }

/-- n contributions expire. -/
def Wa.expire (a : Wa) : Nat → Wa
  | 0 => a
  | n + 1 => Wa.expire a.expire1 n

/-- WAPSH: `c` gives the contribution of each window (R271). -/
def Wa.push (a : Wa) (c : Nat → WVal) : Wa :=
  let a := if a.h.fd + a.h.bd = a.h.w then a.expire1 else a
  let b := (List.range 32).foldl (fun (b : Wa) i =>
    b.setEntry i (a.h.cap - (a.h.bd + 1)) (c i)
      (if a.h.bd = 0 then c i else b.step (b.agg i (a.h.cap - a.h.bd)) (c i))) a
  { b with h := { b.h with bd := a.h.bd + 1, pushes := (a.h.pushes + 1) % 2 ^ 32 } }

/-- WAQRY of n contributions of window l (R271). -/
def Wa.query (a : Wa) (l n : Nat) : WVal :=
  let h := a.h
  let m := min n (h.fd + h.bd)
  if m = 0 then waIdentity h.op (h.flt == 1)
  else if m ≤ h.bd then
    match (List.range m).map fun i => a.contrib l (h.cap - (h.bd - m + 1 + i)) with
    | [] => waIdentity h.op (h.flt == 1)
    | x :: xs => xs.foldl a.step x
  else
    let f := a.agg l (m - h.bd - 1)
    if h.bd = 0 then f else a.step f (a.agg l (h.cap - h.bd))

/-! ## The Ratchet (R269, R271, R272) -/

/-- What an operation does: the state and the group, or the cause and sub-code of its trap. -/
inductive WaOut where
  | ok (s : State) (g : Group)
  | trap (cause subc : Nat)
  deriving DecidableEq, Repr

/-- Is the region of an object within the team's scratch? -/
def State.waInside (s : State) (t : Team) (part base size : Nat) : Bool :=
  decide (base + size ≤ t.size) &&
    (List.range ((size + 63) / 64)).all fun i => (s.teamScratch t part (base + 64 * i)).isSome

/-- WAINI: every check comes before any change (R269). -/
def State.waInit (s : State) (g : Group) (t : Team) (h op flt base cap : Nat) : WaOut :=
  let part := g.place.part
  let own := if g.wa.contains (h, base) then 1 else 0
  if base % 64 != 0 then .trap 0x03 0
  else if !waCapOk op cap then .trap 0x0D 0x03
  else if !s.waInside t part base (waSize op cap) then .trap 0x06 0
  else
    match s.waHdr t part base with
    | none => .trap 0x06 0
    | some d =>
      let same := d.op == op && d.flt == flt && d.cap == cap
      if d.binds - own > 0 && d.invalid then .trap 0x0D 0x04
      else if d.binds - own > 0 && !same then .trap 0x0D 0x02
      else if own == 1 && same then .ok s g
      else
        match s.waUnbind g t h with
        | (s, g) =>
          let binds := ((s.waHdr t part base).map (·.binds)).getD 0
          let a : Wa := { s := s, t := t, part := part, base := base, h := d }
          let s := if binds = 0 then
              { a with h := { op := op, flt := flt, cap := cap, w := cap, fd := 0, bd := 0, binds := 1, pushes := 0,
                              resv := 0 } }.putHdr true
            else s.setTeamWord t part (base + 12) ((binds + 1) % 1024)
          .ok s { g with wa := tset g.wa h base }

/-- An operation on the object that a handle is bound to, after its checks in the order of R270. -/
def State.waOn (s : State) (g : Group) (t : Team) (h : Nat) (k : Wa → WaOut) : WaOut :=
  match g.wa.find? fun e => e.1 == h with
  | none => .trap 0x0D 0x01
  | some (_, base) =>
    match s.waHdr t g.place.part base with
    | none => .trap 0x06 0
    | some d =>
      if d.invalid then .trap 0x0D 0x04
      else if !s.waInside t g.place.part base (waSize d.op d.cap) then .trap 0x06 0
      else k { s := s, t := t, part := g.place.part, base := base, h := d }

/-- One window operation as the Ratchet performs it, whole (R271, R272). -/
def State.waRun (s : State) (g : Group) (t : Team) (act : Mask) (op : WOp) : WaOut :=
  match op with
  | .init h op flt base cap => s.waInit g t h op flt base cap
  | .unbind h =>
    match s.waUnbind g t h with
    | (s, g) => .ok s g
  | .push h xs ys one =>
    s.waOn g t h fun a =>
      if !waPair a.h.op && !one then .trap 0x01 0
      else
        let flt := a.h.flt == 1
        let pick (e : Word × Word) (f : Bool) : Word := if f then e.2 else e.1
        let c (i : Nat) : WVal :=
          if act.getLsbD i then
            (pick (xs.getD i (0, 0)) flt, if waPair a.h.op then pick (ys.getD i (0, 0)) (a.h.op != 7) else 0)
          else waIdentity a.h.op flt
        .ok ((a.push c).putHdr false) g
  | .query h n reg =>
    s.waOn g t h fun a =>
      let pair := waPair a.h.op
      if pair && (reg % 2 == 1 || decide (reg + 2 > g.info.vregs)) then .trap 0x02 0
      else
        .ok s ((lanesOf act).foldl (fun g l =>
          let r := a.query l (n.getD l 0)
          let g := g.setV reg l r.1
          if pair then g.setV (reg + 1) l r.2 else g) g)
  | .expire h n => s.waOn g t h fun a => .ok ((a.expire (min n (a.h.fd + a.h.bd))).putHdr false) g
  | .wlen h w =>
    s.waOn g t h fun a =>
      if w = 0 || w > a.h.cap then .trap 0x0D 0x03
      else
        let a := { a with h := { a.h with w := w } }
        .ok ((a.expire (a.h.fd + a.h.bd - w)).putHdr false) g
  | .reset h => s.waOn g t h fun a => .ok ({ a with h := { a.h with fd := 0, bd := 0, pushes := 0 } }.putHdr false) g

/-- The Ratchet's trap (R276). -/
def State.waTrap (s : State) (g : Group) (a : WArr) (cause subc : Nat) : State :=
  s.lateTrap (s.modUnits fun u => { u with ratchet := u.ratchet.filter fun w => w.id != a.id }) g a.own a.pc a.id a.handler
    cause subc

/-- Does an older access of the operation's gang to the team's scratch still have to be performed (R176, R273), or do banks of the
core change their use (R375)? -/
def State.waBlocked (s : State) (a : WArr) : Bool :=
  s.banksChange a.core ||
  s.mem.flight.any fun f =>
    f.grp == a.grp && !f.scalar && f.own &&& a.own != 0 && f.id < a.id &&
      (match f.loc with
        | .scr core _ => core == a.core && !(f.performed || (f.kind == .load && f.value.isSome))
        | _ => false)

/-- Does something keep the Ratchet from performing an operation: an access before it, or the suspension of its group? -/
def State.waHeld (s : State) (a : WArr) : Bool := s.waBlocked a || (s.group? a.grp).any (·.suspended)

/-- Is the Ratchet in the flip of another operation, which it performs first (R272, R274)? -/
def State.waTaken (s : State) (a : WArr) : Bool :=
  s.units.ratchet.any fun b => b.core == a.core && b.begun && b.id != a.id && !s.waHeld b

/-- RATCHET_PERFORM: the k-th operation that has arrived at a core's Ratchet is performed whole, and its gang goes on
(R272, R273). -/
def execRatchetPerform (core k : Nat) (s : State) : Out :=
  match (s.units.ratchet.filter fun a => a.core == core)[k]? with
  | none => .next s
  | some a =>
    match s.group? a.grp with
    | none => .next s
    | some g =>
      match s.team? g.place.launch g.place.blk g.place.team with
      | none => .next s
      | some t =>
        if s.waHeld a || s.waTaken a then .next s
        else
          match s.waRun g t a.act a.op with
          | .ok s g =>
            let s := s.modUnits fun u => { u with ratchet := u.ratchet.filter fun w => w.id != a.id }
            .next (s.setGroup g).settle
          | .trap cause subc => .next (s.waTrap g a cause subc).settle

/-- Would an operation flip an object that has such a header (R271)? -/
def WOp.flips (op : WOp) (d : WaHdr) : Bool :=
  match op with
  | .push .. => d.fd == 0 && d.bd != 0 && d.bd == d.w
  | .expire _ n => decide (d.fd < min n (d.fd + d.bd))
  | .wlen _ w => decide (d.fd < d.fd + d.bd - w)
  | _ => false

/-- The object that an operation acts on at a flip: that of its handle, where the Ratchet performs it without a trap. -/
def State.waTarget (s : State) (a : WArr) : Option WaHdr :=
  let on (h : Nat) : Option WaHdr :=
    (s.group? a.grp).bind fun g => (s.team? g.place.launch g.place.blk g.place.team).bind fun t =>
      match s.waRun g t a.act a.op with
      | .ok _ _ => (g.wa.find? fun e => e.1 == h).bind fun e => s.waHdr t g.place.part e.2
      | .trap _ _ => none
  match a.op with
  | .push h .. | .expire h _ | .wlen h _ => on h
  | _ => none

/-- May the Ratchet of its core be in the flip of an operation (R274)? -/
def State.mayFlip (s : State) (a : WArr) : Bool := !s.waHeld a && !s.waTaken a && (s.waTarget a).any a.op.flips

/-- Does a group cause the flip that its core's Ratchet is in, or may be in (R274)? -/
def State.flipOf (s : State) (g : Group) : Bool :=
  s.units.ratchet.any fun a => a.core == g.place.core && a.grp == g.gid && s.mayFlip a

/-- The Ratchet is in a flip of the group's, so it performs nothing else before it (R274). -/
def State.beginFlip (s : State) (g : Group) : State :=
  match s.units.ratchet.find? fun a => a.core == g.place.core && a.grp == g.gid && s.mayFlip a with
  | some a => s.modUnits fun u => { u with ratchet := u.ratchet.map fun b => if b.id == a.id then { b with begun := true } else b }
  | none => s

/-! ## Instructions -/

/-- A handle's number. -/
def waHandle (o : Opnd) : Nat :=
  match o with
  | .wa h => h
  | _ => 0

/-- The value of a uniform operand, read in the lowest active lane. -/
def Lane.uniform (c : Lane) (o : Opnd) : Nat := c.read32 o ((lowLane c.act).getD 0)

/-- A component of a push in every lane, as an integer and as a float operand gives it (R80, R270). -/
def Lane.component (c : Lane) (o : Opnd) : List (Word × Word) :=
  (List.range 32).map fun l => (BitVec.ofNat 32 (c.read32 o l), BitVec.ofNat 32 (c.readFlt .f32 o l))

/-- The frame of a window operation: with no active lane it does nothing; else, once the acquires and fences before it are over
(R183, R273), it goes to the Ratchet, and its gang issues nothing until it is performed (R27, R271, R273). -/
def windowOp (s : State) (h : Hdr) (dsts srcs : List (Opnd × Nat)) (mk : Lane → WOp) : Out :=
  laneInstr s h dsts srcs fun c =>
    if c.act = 0 then c.finish []
    else if c.g.memHeld c.gang then .next c.s
    else
      let id := c.s.nextId
      let a : WArr := { id := id, core := c.g.place.core, grp := c.g.gid, own := c.gang, act := c.act, pc := c.pc,
                        handler := c.g.inHandler, begun := false, op := mk c }
      let hold : Hold := { own := c.gang, all := true, values := [], acks := [], sc := .grp, drain := none,
                           acquire := false, ratchet := some id, prom := false }
      { c with
        s := (c.s.modUnits fun u => { u with ratchet := u.ratchet ++ [a] }).bumpId
        g := { c.g with holds := c.g.holds ++ [hold] } }.finish []

/-- WAINI (R269). -/
def execWaini (h : Hdr) (op flt : Nat) (a b c : Opnd) (s : State) : Out :=
  windowOp s h [] [(b, 1), (c, 1)] fun x =>
    if op = 15 then .unbind (waHandle a) else .init (waHandle a) op flt (x.uniform b) (x.uniform c)

/-- WAPSH (R270, R271). -/
def execWapsh (h : Hdr) (a b c : Opnd) (s : State) : Out :=
  windowOp s h [] [(b, 1), (c, 1)] fun x => .push (waHandle a) (x.component b) (x.component c) (c == .none)

/-- WAQRY: a single result needs one register, a pair two (R270, R271). -/
def execWaqry (h : Hdr) (a b c : Opnd) (s : State) : Out :=
  windowOp s h [(a, 1)] [(c, 1)] fun x =>
    .query (waHandle b) ((List.range 32).map fun l => x.read32 c l) (match a with
      | .v r => r
      | _ => 0)

/-- WAEXP (R270, R271). -/
def execWaexp (h : Hdr) (a b : Opnd) (s : State) : Out :=
  windowOp s h [] [(b, 1)] fun x => .expire (waHandle a) (x.uniform b)

/-- WAWLN (R270, R271). -/
def execWawln (h : Hdr) (a b : Opnd) (s : State) : Out :=
  windowOp s h [] [(b, 1)] fun x => .wlen (waHandle a) (x.uniform b)

/-- WARST (R270, R271). -/
def execWarst (h : Hdr) (a : Opnd) (s : State) : Out := windowOp s h [] [] fun _ => .reset (waHandle a)

end Sys2Proof.Machine
end

