-- ==== Sys2Proof/Machine/Power.lean ====
section
/-! DEFINITION. Power, clocks, links and the phases of the device (R4, R337, R339, R376 to R382, R388, R390). -/
namespace Sys2Proof.Machine

/-! ## Lifetime counters (R381) -/

/-- The counter of corrected errors of a channel of an HBM stack. -/
def eccCounter (stack channel : Nat) : Nat := 96 + stack + Config.hbmStacks * channel

/-- A corrected error of the HBM word at a physical address is counted for its stack and channel (R381). -/
def State.corrected (s : State) (pa : Nat) : State := s.lifeAdd (eccCounter (hbmStack pa).1 (hbmStack pa).2) 1

/-- SUPPLY_DROOP (R381). -/
def execSupplyDroop (pair : Nat) (s : State) : Out :=
  .next (if pair < Config.pairs then s.lifeAdd (17 + pair) 1 else s)

/-! ## Charge balance (R3, R348) -/

/-- The estimate of a cluster's current becomes n. A difference in its pair that comes to exceed 10 % is an excursion and
counts; once the difference is back within 10 %, the balance actions are over (R3, R348, R381). -/
def State.setLoad (s : State) (cluster n : Nat) : State :=
  let p := cluster / 2
  let t := s.modCluster cluster fun c => { c with load := n }
  if cluster ≥ Config.clusters then s
  else if (t.lighter p).isSome then (if (s.lighter p).isSome then t else t.lifeAdd (53 + p) 1)
  else (t.modCluster (2 * p) fun c => { c with withhold := false, steer := false, balance := 0 }).modCluster (2 * p + 1) fun c =>
    { c with withhold := false }

/-! ## Clocks (R4, R339, R379, R390) -/

/-- Are the A-clocks of a pair locked: a profiler grant with CLKLOCK, to a partition with a quadrant in the pair (R379)? -/
def State.clockLocked (s : State) (pair : Nat) : Bool :=
  s.plat.prof.active && s.plat.prof.clklock &&
    (decide (0 < s.quadsIn s.plat.prof.part (2 * pair)) || decide (0 < s.quadsIn s.plat.prof.part (2 * pair + 1)))

/-- ACLOCK_CHANGE (R4, R339): from 1.0 to 4.0 GHz in steps of 62.5 MHz; above 105 °C the clocks stay at 1.0 GHz. Timed waits
keep their deadlines. -/
def execAclockChange (pair setting : Nat) (s : State) : Out :=
  if pair < Config.pairs && 16 ≤ setting && setting ≤ 64 && !s.plat.hot && !s.clockLocked pair then
    .next (s.modPlat fun p => { p with aclk := tset p.aclk pair setting })
  else .next s

/-- THERMAL_THROTTLE (R390): above 105 °C every A-clock goes to 1.0 GHz, whatever its setting. -/
def execThermalThrottle (temp : Nat) (s : State) : Out :=
  .next (if temp > 105 then s.modPlat fun p => { p with hot := true } else s)

/-- THERMAL_RECOVER (R390): below 95 °C every A-clock is again what it was set to. -/
def execThermalRecover (temp : Nat) (s : State) : Out :=
  .next (if temp < 95 then s.modPlat fun p => { p with hot := false } else s)

/-! ## Gating (R378) -/

/-- CORE_GATE (R378): a core with no resident team and no command in flight loses its SRAM, caches and TLB. -/
def execCoreGate (core : Nat) (s : State) : Out :=
  if core ≥ Config.cores || (s.core core).gated || (s.units.teams.any fun t => t.core == core) ||
      (s.units.cmds.any fun c => c.core == core) then .next s
  else
    let s := s.modMem fun m => { m with
      sram := m.sram.clear (sramKey core 0) 0x80000
      l1 := m.l1.filter fun c => c.core != core
      tlb := m.tlb.filter fun e => e.core != core
      code := m.code.filter fun e => e.1 != core }
    .next (s.modCore core fun c => { c with gated := true, holdEnd := s.ns + 2000, wake := none })

/-- Is wake request a served before b: by priority, then age? -/
def wakeBefore (a b : Nat × Nat × Nat) : Bool :=
  decide (a.2.1 > b.2.1) || (a.2.1 == b.2.1 && decide (a.2.2 < b.2.2))

/-- Puts a wake request in its place. -/
def insertWake (a : Nat × Nat × Nat) : List (Nat × Nat × Nat) → List (Nat × Nat × Nat)
  | [] => [a]
  | b :: r => if wakeBefore b a then b :: insertWake a r else a :: b :: r

/-- INRUSH_STEP (R378): up to two cores of a sector whose hold is over are powered up. -/
def execInrushStep (sector : Nat) (s : State) : Out :=
  let asks := s.plat.cores.filterMap fun (k, c) =>
    match c.wake with
    | some (prio, at') => if sectorOf k == sector && c.gated && c.holdEnd ≤ s.ns then some (k, prio, at') else none
    | none => none
  let up := ((asks.foldr insertWake []).take 2).map (·.1)
  .next (up.foldl (fun s k => s.modCore k fun c => { c with gated := false, wake := none }) s)

/-! ## Tokens and leases (R376, R377) -/

/-- Contexts with an active lease, in descending priority. -/
def State.leases (s : State) : List Nat :=
  let l := s.plat.ctxs.filter fun e => e.2.lease.runs s.ns
  ((List.range 32).reverse).flatMap fun p => (l.filter fun e => e.2.prio == p).map (·.1)

/-- Tokens spent and granted in the interval, with the device reserve. -/
def State.granted (s : State) : Nat := 3000 + sumOf (s.plat.parts.map fun e => e.2.tokspent + e.2.tokleft)

/-- The room under the ceiling of the interval. -/
def State.tokenRoom (s : State) : Nat := (if s.leases.isEmpty then 16000 else 20000) - s.granted

/-- Is a context suspended: nothing of it is on the device that would spend tokens (R377)? -/
def State.ctxIdle (s : State) (x : Nat) : Bool :=
  !(s.groups.any fun g => g.place.ctx == x) && !(s.units.cmds.any fun c => c.ctx == x)

/-- One lease draws for its partition, up to its rate: from the headroom first. What a suspended context leaves unspent stays
in the pool (R377). -/
def State.drawLease (s : State) (x : Nat) : State :=
  let c := s.ctx x
  if (s.part c.part).tokleft != 0 || s.ctxIdle x then s
  else
    let n := min (bits c.lease.value 0 16 - c.lease.drawn) (min (s.plat.pool + s.plat.headroom) s.tokenRoom)
    let h := min n s.plat.headroom
    let s := s.modPlat fun p => { p with headroom := p.headroom - h, pool := p.pool - (n - h) }
    (s.modPart c.part fun p => { p with tokleft := p.tokleft + n }).modCtx x fun c =>
      { c with lease := { c.lease with drawn := c.lease.drawn + n } }

/-- Has a partition run short: no token is left, and it has groups or commands that want some (R376, R377)? -/
def State.ranShort (s : State) (p : Nat) : Bool :=
  (s.part p).tokleft == 0 && ((s.groups.any fun g => g.place.part == p) || s.units.cmds.any fun c => c.part == p)

/-- The pool serves leases, then the partitions that ran short by weight (R377). -/
def State.drawPool (s : State) : State :=
  let s := s.leases.foldl (fun s x => s.drawLease x) s
  let short := (List.range Config.partitions).filter s.ranShort
  let weight := sumOf (short.map fun p => (s.part p).tokwt)
  let pool := s.plat.pool
  if weight = 0 then s
  else
    short.foldl (fun s p =>
      let n := min (pool * (s.part p).tokwt / weight) s.tokenRoom
      (s.modPlat fun r => { r with pool := r.pool - n }).modPart p fun q => { q with tokleft := q.tokleft + n }) s

/-- Is the token interval of 1 µs over (R376)? -/
def State.intervalOver (s : State) : Bool := decide (1000 ≤ (s.ns + 2 ^ 64 - s.plat.tokenNs) % 2 ^ 64)

/-- TOKEN_INTERVAL (R376, R377): at the end of an interval the tokens left join the pool of the next one, whose allocations are
granted. -/
def execTokenInterval (s : State) : Out :=
  if !s.intervalOver then .next s
  else
  let left := sumOf (s.plat.parts.map (·.2.tokleft))
  let s := s.modPlat fun p => { p with
    tokenNs := (p.tokenNs + 1000) % 2 ^ 64
    pool := left
    headroom := if s.leases.isEmpty then 0 else 4000
    parts := p.parts.map fun e => (e.1, { e.2 with tokused := e.2.tokspent, tokspent := 0, tokleft := e.2.tokalloc })
    ctxs := p.ctxs.map fun e => (e.1, { e.2 with lease := { e.2.lease with drawn := 0 } }) }
  .next s

/-- LEASE_REQUEST (R377): granted at once, or refused for its length or when the device holds 4 leases. The lease
that the register held before ends. -/
def execLeaseRequest (x value : Nat) (s : State) : Out :=
  let v := value % 2 ^ 29
  let s := s.endLease x
  let ok := decide (bits v 16 13 ≤ 5000) && decide (s.leases.length < 4)
  .next (s.modCtx x fun c => { c with
    lease := { value := v, active := ok, endNs := s.ns + 1000 * bits v 16 13, drawn := 0 } })

/-- LEASE_EXPIRY (R377). -/
def execLeaseExpiry (x : Nat) (s : State) : Out :=
  .next (if (s.ctx x).lease.active && s.ns ≥ (s.ctx x).lease.endNs then s.endLease x else s)

/-! ## Histograms (R380) -/

/-- The counters of a quadrant's histogram go (R380). -/
def State.clearHistogram (s : State) (core q : Nat) : State :=
  s.modPlat fun p => { p with
    hist := p.hist.filter fun e => e.1 < histIdx core q 0 || histIdx core q 64 ≤ e.1 }

/-- HISTOGRAM_CLEAR (R380). -/
def execHistogramClear (core q : Nat) (s : State) : Out := .next (s.clearHistogram core q)

/-- The source operands of a lane instruction, as far as they are registers: the codes of its B to E fields, where those name
operands. -/
def sourceCodes (f : LFields) : List Nat :=
  if f.op < 0x100 then [f.b, f.c, f.d, f.e]
  else if f.op ≤ 0x112 || f.op == 0x131 || (0x140 ≤ f.op && f.op ≤ 0x151) then [f.b, f.c]
  else []

/-- Does an instruction wait at its switch marker, or for a source that the scoreboard marks (R38, R40)? -/
def State.markWaits (s : State) (g : Group) (b : BitVec 8) (i : Instr) : Bool :=
  (laneFields i).any fun f =>
    (f.sw == 1 && !(s.gangLoads g b).isEmpty) ||
      (sourceCodes f).any fun n => (Opnd.ofCode n).any fun o => s.srcBusy g b (o, 1)

/-- May the gang of a group be eligible: nothing that R38 names holds its next instruction, which may or may not have been
fetched? -/
def State.gangMay (s : State) (g : Group) (b : BitVec 8) : Bool :=
  !g.genHeld b && !g.allHeld b && (match s.laneIssue g.gid (lowStrand b) with
    | .instr s i => !s.markWaits g b i
    | .other _ => g.lanes.fault.isNone && !g.suspended && s.hasTokens g && !g.holdFirst &&
        !(s.cluster (clusterOf g.place.core)).withhold)

/-- The gangs of a group's running lane block that may be eligible (R38). -/
def State.gangsOf (s : State) (g : Group) : Nat :=
  let masks := ((List.range 8).map (gangOf g.lanes.strands)).eraseDups.filter (· != 0)
  if g.lanes.running then (masks.filter (s.gangMay g)).length else 0

/-- The scalar instruction that a group is in (R397). -/
def Group.inside (g : Group) : Option Instr :=
  g.words.bind fun w => (decodeScalar w.1 w.2).toOption

/-- The job cards and the matrix-queue entries that an engine command takes when it issues (R284, R287). -/
def takesRoom : Instr → Option (Nat × Nat)
  | .cpym .. => some (2, 1)
  | .mmac .. | .mzro .. | .macc .. => some (1, 1)
  | .cpy .. | .gath .. | .scat .. | .mcast .. | .msnd .. | .mpst .. => some (1, 0)
  | _ => none

/-- The reason that a stall of the scalar stream is charged to, as the entry of the instruction names it (R235, R284, R297,
R304, R320, R321, R326, R328, R332, R335, R338); 3 for what a release, an acknowledgement, a load or a record's fill keeps
waiting (R319), and 15 for an EXIT that waits for commands (R143). -/
def State.waitReason (s : State) (g : Group) : Option Nat :=
  match g.inside with
  | some (.launch ..) => some 15
  | some (.jraise ..) | some (.jdone ..) => some 3
  | some (.bar ..) => some 4
  | some .lwait | some .exit =>
    if g.lanes.running || !g.dq.isEmpty then none
    else if s.owesScalar g || (s.groupCmds g).isEmpty then some 3 else some 15
  | i =>
    match g.wait with
    | none => match i.bind takesRoom with
      | some (cards, entries) => some (if s.roomFor g cards entries then 3 else 15)
      | none => if g.scalarHeld then some 3 else none
    | some (.timed _) | some (.expired _) => some 13
    | some (.barrier _ _) | some .released => some 4
    | some .bundle | some .entered => some 5
    | some (.sync ..) | some (.home ..) => some 3
    | some (.cmd _ _) => some 14
    | some (.num _) =>
      some (match i with
        | some (.mwait _) | some (.mwaitR _) => 6
        | _ => 4)
    | some (.event _) | some .seen => some 15

/-- The reason that keeps a gang of a running lane block from being eligible: a generator switch, a window operation or a load
of %exec or %rmode, a switch marker, the scoreboard, a fence or an acquire before a memory instruction, a trap that is to be
taken, and, where none of these holds it, the fetch of its instruction (R38, R380). -/
def State.gangReason (s : State) (g : Group) (b : BitVec 8) : Nat :=
  if g.genHeld b then 7
  else if g.allHeld b then 15
  else
    match s.laneIssue g.gid (lowStrand b) with
    | .other _ => 12
    | .instr s i =>
      (laneFields i).elim 11 fun f =>
        if f.sw == 1 && !(s.gangLoads g b).isEmpty then 1
        else if s.markWaits g b i then 15
        else if 0x100 ≤ f.op && f.op ≤ 0x112 && g.memHeld b then 3
        else 11

/-- The reasons that may stall a group in an A-clock in which its quadrant issues nothing (R380): where several of its streams
and gangs stall, which of their reasons it is is open (log 80). -/
def State.stallReasons (s : State) (g : Group) : List Nat :=
  if !s.hasTokens g then [10]
  else if g.suspended then [5]
  else
    let masks := ((List.range 8).map (gangOf g.lanes.strands)).eraseDups.filter (· != 0)
    (if g.inHandler then [12] else []) ++ (if s.flipOf g then [8] else []) ++ (s.waitReason g).toList ++
    (if (s.cluster (clusterOf g.place.core)).withhold then [9]
    else if g.lanes.running then masks.map (s.gangReason g)
    else if !g.dq.isEmpty then [11]
    else if (s.waitReason g).isSome then [] else [2, 11])

/-- The oldest resident group of a quadrant (R380). -/
def State.oldestOn (s : State) (core q : Nat) : Option Group :=
  (s.groups.filter fun g => g.place.core == core && g.place.quad == q).head?

/-- May a quadrant have an A-clock with n eligible gangs, at most those that nothing but their fetch can hold (R38), or with none
for a reason that stalls its oldest resident group (R380)? -/
def State.clockMay (s : State) (core q n r : Nat) : Bool :=
  let here := s.groups.filter fun g => g.place.core == core && g.place.quad == q
  decide (n ≤ sumOf (here.map s.gangsOf)) && (n != 0 || (match s.oldestOn core q with
    | none => [0]
    | some g => s.stallReasons g).contains r)

/-- The histogram of a quadrant counts an A-clock (R380); counters saturate. -/
def histAdd (core q n r : Nat) (t : Tbl Nat) : Tbl Nat :=
  let add (t : Tbl Nat) (i : Nat) : Tbl Nat :=
    tset t (histIdx core q i) (min (2 ^ 48 - 1) (tget 0 t (histIdx core q i) + 1))
  if n = 0 then add (add t 0) (17 + r) else add t (min n 16)

/-- An A-clock of a core: its count and the histograms of its quadrants count it (R138, R380). A gated core has none (R378). -/
def State.countClock (s : State) (core : Nat) (quads : List (Nat × Nat)) : State :=
  let qs := quads.zip (List.range 4)
  let flips := qs.filter fun e => e.1 == (0, 8)
  if core ≥ Config.cores || (s.core core).gated || quads.length != 4 || !(qs.all fun e => s.clockMay core e.2 e.1.1 e.1.2) ||
      decide (1 < flips.length) then s
  else
    let s := flips.foldl (fun s e => (s.oldestOn core e.2).elim s s.beginFlip) s
    (s.modPlat fun p => { p with hist := qs.foldl (fun t e => histAdd core e.2 e.1.1 e.1.2 t) p.hist }).modCore core fun c =>
    { c with clka := (c.clka + 1) % 2 ^ 32 }

/-! ## Links (R366, R388) -/

/-- LINK_FLIT_RETRY (R366, R388). -/
def execLinkFlitRetry (l : Nat) (s : State) : Out :=
  .next (if l < 8 then s.modLink l fun k => { k with again := min 65535 (k.again + 1) } else s)

/-- LINK_TRAINED (R366). -/
def execLinkTrained (l : Nat) (s : State) : Out := .next (if l < 8 then s.modLink l fun k => { k with up := true } else s)

/-- LINK_DOWN (R388). -/
def execLinkDown (l : Nat) (s : State) : Out := .next (if l < 8 then s.modLink l fun k => { k with up := false } else s)

/-! ## Phases of the device (R382, R390) -/

/-- The device as reset leaves it, with what lies outside it and what is never reset. -/
def State.afterReset (s : State) (b : Boot) : State :=
  { State.reset with
    mem := { MemSys.reset with host := s.mem.host, peer := s.mem.peer }
    plat := { Plat.reset with boot := b, life := s.plat.life, vfEnable := s.plat.vfEnable, numVfs := s.plat.numVfs, bar2 := s.plat.bar2 }
    turn := s.turn, agenda := s.agenda, turns := s.turns, draws := s.draws, nextId := s.nextId }

/-- POWER_DOWN (R390): the device stops, and the last rail of the power-up order that is still good goes; the other rails go one
by one, each in a step of its own. -/
def execPowerDown (s : State) : Out :=
  .next ((s.afterReset .off).modPlat fun p => { p with rails := s.plat.rails - 1 })

/-- The next rail of the power-up order is good; the device is held in reset meanwhile (R390). A device that powers down comes up
again once every rail has gone. -/
def State.railUp (s : State) : State :=
  if ((s.plat.boot == .off && s.plat.rails == 0) || s.plat.boot == .held) && s.plat.rails < allRails then
    s.modPlat fun p => { p with boot := .held, rails := p.rails + 1, railNs := s.ns }
  else s

/-- May reset be released: every rail has been good for 1 ms (R390)? -/
def State.mayRelease (s : State) : Bool :=
  s.plat.boot == .held && s.plat.rails == allRails && decide (s.plat.railNs + 1000000 ≤ s.ns)

/-- RESET_RELEASE (R390): the boot ROM begins to verify. -/
def execResetRelease (s : State) : Out := .next (if s.mayRelease then s.afterReset .verifying else s)

/-- 32 bytes of a measured image, which are not known here (R382, R383). -/
def measure (seed which : Nat) : List (Nat × Nat) :=
  (List.range 32).map fun i => (32 * which + i, (Config.freeByte (2 ^ 40 * (which + 1) + 64 * seed + i)).toNat)

/-- BOOT_VERIFY (R382): with a bad image of Anvil the device stays in recovery; else both images are measured. -/
def execBootVerify (anvilOk _serviceOk : Bool) (s : State) : Out :=
  if s.plat.boot != .verifying then .next s
  else if !anvilOk then .next (s.modPlat fun p => { p with boot := .recovery })
  else
    .next ((s.modPlat fun p => { p with boot := .running, measures := measure s.draws 0 ++ measure s.draws 1 }).drawn)

end Sys2Proof.Machine
end

