-- ==== Sys2Proof/Machine/Platform.lean ====
section
/-! DEFINITION. The control BAR as it is written (R14, R63, R191, R282, R341, R363 to R367, R374, R375, R387), Anvil's
mailbox commands (R368 to R373, R379, R383, R389), and accesses from outside (R384, R389). -/
namespace Sys2Proof.Machine

/-! ## Host queues, events and errors (R327, R341, R365) -/

/-- TAIL_DOORBELL (R341): a TAIL too far ahead of HEAD disables the queue; once QDIS has been cleared, it serves again from the
next TAIL within range on. DESIGN CHOICE (log 87): while QLOG is outside 4 to 16 the queue serves nothing and has no range, so no
TAIL is too far ahead; the TAIL is kept for a QLOG written later. -/
def execTailDoorbell (x q tail : Nat) (s : State) : Out :=
  let h := tget HQueue.reset (s.ctx x).hq q
  let t := tail % 2 ^ 32
  let bad := decide (4 ≤ h.qlog) && decide (h.qlog ≤ 16) && decide ((t + 2 ^ 32 - h.head) % 2 ^ 32 > 2 ^ h.qlog)
  let s := s.modCtx x fun c => { c with hq := tset c.hq q { h with tail := t, qdis := h.qdis || bad, badTail := h.qdis || bad } }
  .next (if bad then s.raiseEvent dispatcherPort x 248 else s)

/-- QUEUE_DESCRIPTOR_WRITE (R341): QBASE and QLOG; QDIS is cleared. -/
def execQueueDescriptorWrite (x q value : Nat) (s : State) : Out :=
  .next (s.modCtx x fun c => { c with hq := tmod HQueue.reset c.hq q fun h =>
    { h with qbase := bits value 8 44 * 256, qlog := bits value 0 5, qdis := false } })

/-- HOSTDB (R363): event bit 254. -/
def execHostdb (x : Nat) (s : State) : Out := .next (s.raiseEvent hostPort x 254)

/-- CTXERR_CLEAR (R365). -/
def execCtxerrClear (x : Nat) (s : State) : Out := .next (s.modCtx x fun c => { c with err := CtxErr.reset })

/-! ## Translations (R387) -/

/-- Does a TLB entry belong to the leaf that translates a page address: of a 64 KiB leaf, which has entries for its parts of
4 KiB, any of them (R386, R387)? -/
def TlbEnt.covers (e : TlbEnt) (page : Nat) : Bool :=
  if e.bits = 16 then page % 2 ^ 57 / 2 ^ 16 == e.vpn / 16 else page % 2 ^ 57 / 2 ^ e.bits == e.vpn

/-- Does a JRAISE or JDONE wait, here or where a trap has interrupted it, with the address that it has translated (R335)? -/
def Group.hasPa (g : Group) : Bool :=
  waitHasPa g.wait g.words || g.trap.any fun t => waitHasPa t.wait t.words

/-- Accesses of a context in flight whose value or write is not performed, commands with reads that are pending, and groups
that wait with a translated address. Ids of accesses and commands are given as even numbers, group ids as odd ones. -/
def State.unperformed (s : State) (x : Nat) : List Nat :=
  (s.mem.flight.filter fun a => a.ctx == x && !a.performed && a.value.isNone).map (2 * ·.id) ++
    (s.units.cmds.filter fun c => c.ctx == x && !c.asked.isEmpty).map (2 * ·.id) ++
    (s.groups.filter fun g => g.place.ctx == x && g.hasPa).map fun g => 2 * g.gid + 1

/-- TLBINV (R387): translations of the page, or with bit 0 all of the context, go; bit 63 reads 0 until the accesses that used
them are performed. -/
def execTlbinv (x value : Nat) (s : State) : Out :=
  let gone (e : TlbEnt) : Bool := e.ctx == x && (bit value 0 || e.covers (bits value 12 45 * 4096))
  let ids := s.unperformed x
  let s := s.modMem fun m => { m with tlb := m.tlb.filter fun e => !gone e }
  .next (s.modCtx x fun c => { c with
    tlbinv := bits value 0 1 + bits value 12 45 * 4096
    tlbinvWait := some ((c.tlbinvWait.getD []) ++ ids) })

/-- TLBINV_COMPLETE (R387). -/
def execTlbinvComplete (x : Nat) (s : State) : Out :=
  .next (match (s.ctx x).tlbinvWait with
    | some l =>
      let left := l.filter (s.unperformed x).contains
      s.modCtx x fun c => { c with tlbinvWait := if left.isEmpty then none else some left }
    | none => s)

/-! ## Scratch banks (R374, R375) -/

/-- CWMASK_WRITE (R375): the write waits, after those to the same mask that wait already. -/
def execCwmaskWrite (core p value : Nat) (s : State) : Out :=
  .next (s.modCore core fun c => { c with cwPending := c.cwPending ++ [(p, value % 65536)] })

/-- A bank of a core reads as zero (R375). -/
def State.zeroBank (s : State) (core b : Nat) : State :=
  s.modMem fun m => { m with sram := m.sram.clear (sramKey core (32768 * b)) 32768 }

/-- Is a location in one of some banks of a core? -/
def Loc.inBanks (l : Loc) (core : Nat) (banks : List Nat) : Bool :=
  match l with
  | .scr k off => k == core && banks.contains (off / 32768)
  | _ => false

/-- CWMASK_APPLY (R375): the oldest write of a partition's mask that waits takes effect once nothing in flight delivers into a
bank whose use changes. DESIGN CHOICE (log 88): what groups had issued to such a bank before the write, and so with checks
against the old size, is performed before it too. Then banks that become scratch read as zero, and the lines that they held as L1 ways are gone. -/
def execCwmaskApply (core p : Nat) (s : State) : Out :=
  match (s.core core).cwPending.find? fun e => e.1 == p with
  | none => .next s
  | some (_, v) =>
    let old := tget 0 (s.core core).cwmask p
    let banks := (List.range 16).filter fun i => bit old i != bit v i && s.ownsBank p core i
    if s.units.cmds.any (s.delivers core banks) || s.mem.flight.any (fun a => !a.tookEffect && a.loc.inBanks core banks) then
      .next s
    else
      let s := (banks.filter fun i => bit v i).foldl (fun s i => s.zeroBank core i) s
      let s := s.modCore core fun c => { c with cwmask := tset c.cwmask p v, cwPending := c.cwPending.erase (p, v) }
      .next (s.trimL1 core p s.mem.l1.length)

/-! ## Anvil's mailbox (R367) -/

/-- The command at the head of the mailboxes, when it is function fn's. -/
def State.mailArgs? (s : State) (fn : Nat) : Option (Nat × (Nat → Nat)) :=
  if s.plat.boot != .running || s.plat.mbOrder.head? != some fn then none
  else some ((s.box fn).cmd, fun i => tget 0 (s.box fn).args i)

/-- The command is complete (R367). -/
def State.mailDone (s : State) (fn status : Nat) : State :=
  (s.modPlat fun p => { p with mbOrder := p.mbOrder.drop 1 }).modBox fn fun b => { b with busy := false, status := status }

/-- A command with its code that Anvil performs for function fn: a virtual function may only ask for ATTEST. -/
def mailCmd (s : State) (fn code : Nat) (k : (Nat → Nat) → State × Nat) : Out :=
  match s.mailArgs? fn with
  | none => .next s
  | some (c, arg) =>
    if c != code then .next s
    else if fn != 0 && code != 7 then .next (s.mailDone fn 5)
    else .next ((k arg).1.mailDone fn (k arg).2)

/-- Partitions that own a byte's unit: none when it is not assigned. -/
def ownerOf (b : Nat) : List Nat := if bit b 7 then [b % 16] else []

/-- Is a partition at work anywhere: a resident group, a command, or a posted receive (R370)? -/
def State.atWork (s : State) (p : Nat) : Bool :=
  (s.groups.any fun g => g.place.part == p) || (s.units.cmds.any fun c => c.part == p) ||
    s.units.posted.any fun r => r.part == p

/-- Is a partition at work on a quadrant, or on a core when no quadrant is given (R370)? -/
def State.atWorkOn (s : State) (p core : Nat) (q : Option Nat) : Bool :=
  let here (k r : Nat) : Bool := k == core && (q.isNone || q == some r)
  (s.groups.any fun g => g.place.part == p && here g.place.core g.place.quad) ||
    (s.units.cmds.any fun c => c.part == p && here c.core c.quad) ||
    s.units.posted.any fun r => r.part == p && r.cluster == clusterOf core

/-- Do the ownership tables keep the rules of R369? -/
def State.ownersOk (s : State) : Bool :=
  (s.plat.bankOwn.all fun e => (ownerOf e.2).all fun p => s.ownsCore p (e.1 / 16)) &&
    (List.range 16).all fun p =>
      !(s.plat.quadOwn.any fun e => ownedBy e.2 p) || s.plat.sliceOwn.any fun e => ownedBy e.2 p

/-- Every line of device HBM of some partitions leaves the L2; their bundles go to state declared (R370). -/
def State.flushParts (s : State) (ps : List Nat) : State :=
  let mine (line : Nat) : Bool := ps.any fun p => s.ownsPa p (128 * line)
  let s := (s.mem.mx.filter fun e => ps.contains (s.ctx e.ctx).part).foldl (fun s e => s.mxFlush e) s
  let s := s.modMem fun m => { m with mx := m.mx.filter fun e => !ps.contains (s.ctx e.ctx).part }
  let s := ((s.mem.l2.map (·.line)).filter mine).foldl (fun s l => s.modMem fun m => m.dropLine l) s
  let down (b : Bundle) : Bundle := if ps.contains b.part then { b with state := .declared } else b
  (s.modMem fun m => { m with rcopy := m.rcopy.filter fun e => !mine e.line }).modUnits fun u => { u with
    bundles := (u.bundles.map down).filter fun b => !(b.freed && b.state == .declared) }

/-- Is an ownership byte legal: bits [6:4] are 0? -/
def ownByteOk (b : Nat) : Bool := decide (b < 256) && bits b 4 3 == 0

/-- SETOWN on a quadrant. -/
def State.ownQuad (s : State) (i b : Nat) : State × Nat :=
  if i ≥ 4 * Config.cores then (s, 4)
  else
    let t := s.modPlat fun p => { p with quadOwn := tset p.quadOwn i b }
    if !t.ownersOk then (s, 1)
    else if (ownerOf (tget 0 s.plat.quadOwn i)).any fun p => s.atWorkOn p (i / 4) (some (i % 4)) then (s, 2)
    else (t, 0)

/-- SETOWN on a bank: its contents go. -/
def State.ownBank (s : State) (i b : Nat) : State × Nat :=
  if i ≥ 16 * Config.cores then (s, 4)
  else
    let t := s.modPlat fun p => { p with bankOwn := tset p.bankOwn i b }
    if !t.ownersOk then (s, 1)
    else if (ownerOf (tget 0 s.plat.bankOwn i)).any fun p => s.atWorkOn p (i / 16) none then (s, 2)
    else
      let t := t.zeroBank (i / 16) (i % 16)
      ((ownerOf (tget 0 s.plat.bankOwn i)).foldl (fun t p => t.trimL1 (i / 16) p t.mem.l1.length) t, 0)

/-- SETOWN on a slice: both partitions' lines are flushed first (R370). -/
def State.ownSlice (s : State) (i b : Nat) : State × Nat :=
  if i ≥ Config.slices then (s, 4)
  else
    let ps := ownerOf (tget 0 s.plat.sliceOwn i) ++ ownerOf b
    let set (s : State) : State := s.modPlat fun p => { p with sliceOwn := tset p.sliceOwn i b }
    if !(set s).ownersOk then (s, 1)
    else if ps.any s.atWork then (s, 2)
    else (set (s.flushParts ps), 0)

/-- SETOWN (R369, R370). -/
def execSetown (fn : Nat) (s : State) : Out :=
  mailCmd s fn 1 fun a =>
    if !ownByteOk (a 2) then (s, 4)
    else
      match a 0 with
      | 0 => s.ownQuad (a 1) (a 2)
      | 1 => s.ownBank (a 1) (a 2)
      | 2 => s.ownSlice (a 1) (a 2)
      | _ => (s, 4)

/-- SETMEM (R368): the losing partition's lines of the region are written back and invalidated first; a bundle that holds one
of them is resident no more (R241), and the rest of its lines go with it. -/
def execSetmem (fn : Nat) (s : State) : Out :=
  mailCmd s fn 2 fun a =>
    let r := a 0
    if r ≥ Config.regions || !ownByteOk (a 1) then (s, 4)
    else
      let lose := ownerOf (tget 0 s.plat.regionOwn r)
      if lose.any fun p => (s.groups.any fun g => g.place.part == p) || s.units.cmds.any fun c => c.part == p then (s, 2)
      else
        let s := (s.mem.mx.filter fun e => lose.contains (s.ctx e.ctx).part).foldl (fun s e => s.mxFlush e) s
        let s := s.modMem fun m => { m with mx := m.mx.filter fun e => !lose.contains (s.ctx e.ctx).part }
        let here (l : Nat) : Bool := l / 2 ^ 21 == r
        let hit (b : Bundle) : Bool := b.state != .declared && b.lines.any here
        let gone := (s.units.bundles.filter hit).flatMap (·.lines)
        let s := s.modUnits fun u => { u with bundles := u.bundles.map fun b => if hit b then { b with state := .declared } else b }
        let s := s.freeIds
        let lines := (s.mem.l2.map (·.line)).filter fun l => here l || (gone.contains l && !s.inBundleWay l)
        let s := lines.foldl (fun s l => s.modMem fun m => m.dropLine l) s
        let s := s.modMem fun m => { m with rcopy := m.rcopy.filter fun e => e.line / 2 ^ 21 != r }
        (s.modPlat fun p => { p with regionOwn := tset p.regionOwn r (a 1) }, 0)

/-- A class mask is written (R372, R373): one that removes ways is under way until their dirty lines are written back, and a
later write to it waits. -/
def writeMask (q : Part) (c v : Nat) : Part :=
  if q.oldMasks.any fun e => e.1 == c then { q with laterMasks := q.laterMasks ++ [(c, v)] }
  else
    let old := tget 0 q.masks c
    { q with
      masks := tset q.masks c v
      oldMasks := if (List.range 16).any fun i => bit old i && !bit v i then tset q.oldMasks c old else q.oldMasks }

/-- Writes to a class mask that wait are made in their order, up to one that removes ways (R373). The list bounds them. -/
def Part.later (q : Part) (c : Nat) : List (Nat × Nat) → Part
  | [] => q
  | (d, v) :: r =>
    if d != c || q.oldMasks.any fun e => e.1 == c then Part.later q c r
    else Part.later (writeMask { q with laterMasks := q.laterMasks.erase (d, v) } c v) c r

/-- The device's TOKALLOC sum, without one partition. -/
def State.allocOthers (s : State) (p : Nat) : Nat :=
  sumOf ((s.plat.parts.filter fun e => e.1 != p).map (·.2.tokalloc))

/-- SETPART (R227, R350, R372, R376): the word at an offset of a partition block. DESIGN CHOICE (log 41): ordinary lines in ways
that BWAYS makes bundle ways stay there until they are displaced. -/
def execSetpart (fn : Nat) (s : State) : Out :=
  mailCmd s fn 3 fun a =>
    let p := a 0
    let off := a 1
    let v := a 2 % 2 ^ 32
    let put (f : Part → Part) : State × Nat := (s.modPart p f, 0)
    if p ≥ Config.partitions then (s, 4)
    else if 0x300 ≤ off && off < 0x320 && off % 4 = 0 then put fun q => writeMask q ((off - 0x300) / 4) (v % 65536)
    else
      match off with
      | 0x000 => put fun q => { q with bways := min 12 (v % 16) }
      | 0x004 => put fun q => { q with blim := v % 2 ^ 21 }
      | 0x008 => put fun q => { q with bhold := max 1000 v }
      | 0x00C => put fun q => { q with bids := min 4096 (v % 2 ^ 13) }
      | 0x100 => put fun q => { q with pdeadline := min 10000 (max 1 (v % 2 ^ 24)) }
      | 0x200 =>
        if s.allocOthers p + v % 65536 + 3000 > 16000 then (s, 3)
        else put fun q => { q with tokalloc := v % 65536, tokwt := bits v 16 8 }
      | _ => (s, 4)

/-- The dirty lines of a partition in some ways of its slices are written back; they stay valid (R373). -/
def State.cleanWays (s : State) (p : Nat) (ways : List Nat) : State :=
  let there (k : L2Key) (w : Option Nat) : Bool := s.keyPart k == p && w.any ways.contains
  let plain := (s.mem.l2.filter fun e => there (.line e.line) e.way).map (·.line)
  let views := s.mem.mx.filter fun e => there (.mx e.ctx e.win e.line) e.way
  let s := plain.foldl (fun s n => s.modMem fun m => m.cleanLine n) s
  views.foldl (fun s e => (s.mxFlush e).modMem fun m => m.setMxLine { e with writes := [] }) s

/-- CLASS_WAY_WRITEBACK (R373): the dirty lines in the ways that a class has lost are written back, and the writes to the mask that
wait are applied. -/
def execClassWayWriteback (p c : Nat) (s : State) : Out :=
  let lost := match (s.part p).oldMasks.find? fun e => e.1 == c with
    | some (_, old) => (List.range 16).filter fun w => bit old w && !bit (tget 0 (s.part p).masks c) w
    | none => []
  .next ((s.cleanWays p lost).modPart p fun q =>
    if q.oldMasks.any fun e => e.1 == c then
      Part.later { q with oldMasks := tdel q.oldMasks c } c q.laterMasks
    else q)

/-- SETCTX (R363, R364): CTXCFG or QUANTUM. Enabling a context that was torn down makes a new one, with its counters
cleared (R361). -/
def execSetctx (fn : Nat) (s : State) : Out :=
  mailCmd s fn 4 fun a =>
    let x := a 0
    let v := a 2
    if x ≥ Config.contexts then (s, 4)
    else
      match a 1 with
      | 0x240 =>
        if bits v 8 5 > 23 || bits v 7 1 != 0 || bits v 13 18 != 0 || bits v 32 32 != 0 then (s, 4)
        else
          (s.modCtx x fun c =>
            let c := { c with part := bits v 0 4, cls := bits v 4 3, prio := bits v 8 5, enabled := bit v 31 }
            if c.dead && c.enabled then { c with dead := false, lrefused := 0, ldiscard := 0, sigdisc := 0, dlmiss := 0 }
            else c, 0)
      | 0x278 => (s.modCtx x fun c => { c with quantum := v % 2 ^ 32 }, 0)
      | _ => (s, 4)

/-- SETSLEW (R322). -/
def execSetslew (fn : Nat) (s : State) : Out :=
  mailCmd s fn 5 fun a =>
    if a 0 ≥ Config.clusters then (s, 4)
    else (s.modCluster (a 0) fun c => { c with wave := bits (a 1) 0 4, gap := bits (a 1) 8 10 }, 0)

/-- Groups that wait for a bit that is 1 now have seen it, in every context (R328). -/
def State.showAll (s : State) : State := (s.plat.ctxs.map (·.1)).foldl (fun s x => s.showEvents x) s

/-- A grant ends: what event bit 255 then holds in contexts of other partitions is open (log 5). -/
def State.revoke (s : State) : State :=
  let p := s.plat.prof.part
  let f (e : Nat × Ctx) : Nat × Ctx :=
    if e.2.part == p then e
    else (e.1, { e.2 with ev := evApply e.2.ev { src := dispatcherPort, set := Config.freeBit (2 ^ 62 + 256 * s.draws + e.1), bit := 255 } })
  (s.modPlat fun q => { q with
    prof := { clklock := false, sched := false, part := 0, active := false }
    ctxs := if s.plat.prof.active then q.ctxs.map f else q.ctxs }).drawn.showAll

/-- PROFGRANT (R379): at most one grant is held. -/
def execProfgrant (fn : Nat) (s : State) : Out :=
  mailCmd s fn 6 fun a =>
    let v := a 0
    if v ≥ 1024 || bits v 1 3 != 0 then (s, 4)
    else if !bit v 0 then (s.revoke, 0)
    else if s.plat.prof.active then (s, 1)
    else
      ((s.modPlat fun p => { p with
        prof := { clklock := bit v 8, sched := bit v 9, part := bits v 4 4, active := true } }).showAll, 0)

/-- A sparse table, whose other entries are 0, as a list of numbers that depends on what the table holds alone. -/
def tblWords (t : Tbl Nat) : List Nat :=
  let l := t.filter fun e => e.2 != 0
  l.length :: l.flatMap fun e => [e.1, e.2]

/-- The settings of a partition. -/
def Part.settings (p : Part) : List Nat :=
  [p.bways, p.blim, p.bhold, p.bids, p.pdeadline, p.tokalloc, p.tokwt] ++ (List.range 8).map (tget 0 p.masks)

/-- The ownership tables and the partition settings (R368, R369, R383). -/
def State.settings (s : State) : List Nat :=
  tblWords s.plat.regionOwn ++ tblWords s.plat.quadOwn ++ tblWords s.plat.bankOwn ++ tblWords s.plat.sliceOwn ++
    (List.range Config.partitions).flatMap fun p => (s.part p).settings

/-- Byte i of an attestation report (R383): the nonce, the measured images, the digest of the settings as they stand, and what
only Anvil can compute. -/
def State.reportByte (s : State) (b : Mailbox) (i : Nat) : Byte :=
  if i < 0x20 then tget 0 b.data i
  else if i < 0x60 then BitVec.ofNat 8 (tget 0 s.plat.measures (i - 0x20))
  else if i < 0x80 then Config.freeDigest s.settings (i - 0x60)
  else if i < 0x90 then Config.freeByte (2 ^ 41 + i)
  else Config.freeByte (2 ^ 42 + 256 * s.draws + i)

/-- ATTEST (R383): the report goes to MBDATA. -/
def execAttest (fn : Nat) (s : State) : Out :=
  mailCmd s fn 7 fun _ =>
    ((s.modBox fn fun b => { b with
      data := tsetAll b.data ((List.range 208).map fun i => (i, s.reportByte b i)) }).drawn, 0)

/-- SETPEER (R389). -/
def execSetpeer (fn : Nat) (s : State) : Out :=
  mailCmd s fn 8 fun a =>
    if a 0 ≥ 256 then (s, 4)
    else (s.modPlat fun p => { p with peers := tset p.peers (a 0) (bits (a 1) 0 3 + 128 * bits (a 1) 7 1) }, 0)

/-- SETWIN (R389): a window that would reach regions its partition does not own is refused. -/
def execSetwin (fn : Nat) (s : State) : Out :=
  mailCmd s fn 9 fun a =>
    let w : InWin := { en := bit (a 1) 0, links := bits (a 1) 8 8, part := bits (a 1) 16 4, wbase := bits (a 2) 12 40 * 4096,
                       lbase := bits (a 3) 12 40 * 4096, wlen := bits (a 4) 0 28 }
    if a 0 ≥ 16 then (s, 4)
    else if w.en && !s.ownsRange w.part w.lbase (4096 * w.wlen) then (s, 1)
    else (s.modPlat fun p => { p with wins := tset p.wins (a 0) w }, 0)

/-- MBCMD_UNKNOWN (R367). -/
def execMbcmdUnknown (fn : Nat) (s : State) : Out :=
  match s.mailArgs? fn with
  | none => .next s
  | some (c, _) =>
    if 1 ≤ c && c ≤ 9 then .next s else .next (s.mailDone fn (if fn != 0 then 5 else 4))

/-! ## Writing the control BAR (R14, R363 to R366) -/

/-- The state of an answer. -/
def outState (s : State) (o : Out) : State :=
  match o with
  | .next t => t
  | _ => s

/-- A word of a function's mailbox (R367). -/
def State.writeBox (s : State) (fn off v : Nat) (lo : Bool) : State :=
  if off = 0 then
    if lo && !(s.box fn).busy then
      (s.modBox fn fun b => { b with busy := true, cmd := v % 256 }).modPlat fun p => { p with mbOrder := p.mbOrder ++ [fn] }
    else s
  else if off < 0x48 then s.modBox fn fun b => { b with args := tset b.args ((off - 8) / 8) v }
  else if 0x400 ≤ off && off < 0x500 then
    s.modBox fn fun b => { b with
      data := tsetAll b.data ((List.range 8).map fun j => (off - 0x400 + j, BitVec.ofNat 8 (v / 2 ^ (8 * j)))) }
  else s

/-- Word i of an alias window is written (R63). -/
def MxWin.put (w : MxWin) (i v : Nat) : MxWin :=
  match i with
  | 0 => { w with en := bit v 0, fmt := bits v 1 2, abase := bits v 12 40 * 4096 }
  | 1 => { w with alen := bits v 0 28 }
  | 2 => { w with dbase := bits v 0 52 }
  | _ => { w with sbase := bits v 0 52 }

/-- The registers of R364 are written: while the context has a group, a use may still see the values before. -/
def State.putRegs (s : State) (x : Nat) (f : CtxRegs → CtxRegs) : State :=
  s.modCtx x fun c => { c with
    regs := f c.regs
    oldRegs := if s.hasGroups x then c.regs :: c.oldRegs else [] }

/-- A word of a context block is written by the host; `lo` and `hi` say which 32-bit halves. -/
def State.writeCtx (s : State) (x off v : Nat) (lo hi : Bool) : State :=
  if off < 0x200 then
    s.modCtx x fun c => { c with mx := tmod MxWin.reset c.mx (off / 32) fun w => w.put (off / 8 % 4) v }
  else if off < 0x220 then
    let i := (off - 0x200) / 4
    s.modCtx x fun c => { c with keys := tset (tset c.keys i (v % 65536)) (i + 1) (bits v 32 16) }
  else if 0x400 ≤ off && off < 0x440 then
    let q := (off - 0x400) / 16
    if off % 16 = 0 then outState s (execQueueDescriptorWrite x q v s)
    else if hi then outState s (execTailDoorbell x q (v / 2 ^ 32) s)
    else s
  else
    match off with
    | 0x248 => s.putRegs x fun r => { r with valid := bit v 0, hbase := bits v 6 51 * 64 }
    | 0x250 => s.putRegs x fun r => { r with savebase := bits v 12 40 * 4096 }
    | 0x258 => s.putRegs x fun r => { r with fltlog := bits v 6 46 * 64 }
    | 0x260 => s.modCtx x fun c => { c with ptroot := bits v 12 40 * 4096 }
    | 0x268 => outState s (execTlbinv x v s)
    | 0x270 => s.putRegs x fun r => { r with hlen := bits v 0 24 }
    | 0x280 => if lo && bit v 0 then outState s (execCtxerrClear x s) else s
    | 0x288 => s.putRegs x fun r => { r with savelen := bits v 12 40 * 4096 }
    | 0x500 => outState s (execHostdb x s)
    | 0x700 => if lo then outState s (execLeaseRequest x v s) else s
    | _ => s

/-- A word of a watchpoint comparator is written (R191). -/
def Watch.put (w : Watch) (i v : Nat) : Watch :=
  match i with
  | 0 => { w with base := v % 2 ^ 57 }
  | 1 => { w with limit := v % 2 ^ 57 }
  | 2 => { w with en := bit v 0, rd := bit v 1, wr := bit v 2, ctx := bits v 8 8 }
  | _ => w

/-- A word of a core debug block is written (R191, R374, R380). -/
def State.writeCore (s : State) (k off v : Nat) (lo hi : Bool) : State :=
  if off < 0x80 then
    s.modCore k fun c => { c with watch := tmod Watch.reset c.watch (off / 32) fun w => w.put (off / 8 % 4) v }
  else if 0x100 ≤ off && off < 0x140 then
    let p := (off - 0x100) / 4
    let s := if lo then outState s (execCwmaskWrite k p v s) else s
    if hi then outState s (execCwmaskWrite k (p + 1) (v / 2 ^ 32) s) else s
  else if 0x800 ≤ off && (off - 0x800) % 0x200 = 0x1F8 && lo && bit v 0 then s.clearHistogram k ((off - 0x800) / 0x200)
  else s

/-- A write of the halves `lo` and `hi` of the 64-bit word at a multiple of 8, by function fn: a block that it does not see, and
registers marked Anvil or read-only, ignore it (R14, R363, R366). -/
def State.writeWord (s : State) (fn off v : Nat) (lo hi : Bool) : State :=
  if !s.hasFn fn || !s.seesBlock fn off || (s.plat.boot != .running && s.plat.boot != .recovery) then s
  else if off < 0x100000 then s.writeBox fn off v lo
  else if 0x200000 ≤ off && off < 0x600000 then s.writeCtx ((off - 0x200000) / 0x4000) (off % 0x4000) v lo hi
  else if 0x700000 ≤ off && off < 0x8B0000 && (off - 0x700000) / 0x1000 < Config.cores then
    s.writeCore ((off - 0x700000) / 0x1000) (off % 0x1000) v lo hi
  else s

/-- What a write leaves in the bytes of a word that it does not touch: what the word reads as, and 0 in CTXERR, where a 1 would
clear (R365). -/
def State.keptWord (s : State) (fn base : Nat) : Nat :=
  if 0x200000 ≤ base && base < 0x600000 && base % 0x4000 = 0x280 then 0 else s.reg fn base

/-- A write of n bytes to the control BAR: the bytes of the word that it does not touch keep what they hold. -/
def State.writeBar (s : State) (fn off n v : Nat) : State :=
  let base := off / 8 * 8
  let at' := off % 8
  let word := setBits (s.keptWord fn base) (8 * at') (8 * n) v
  s.writeWord fn base word (decide (at' < 4)) (decide (at' + n > 4))

/-- REGISTER_WRITE (R14, R363): an aligned write of 1, 2, 4 or 8 bytes. -/
def execRegisterWrite (fn off size value : Nat) (s : State) : Out :=
  .next (if (size = 1 || size = 2 || size = 4 || size = 8) && off % size = 0 then s.writeBar fn off size value else s)

/-! ## Accesses from outside (R190, R384, R389) -/

/-- Bytes of an outside access, cut at line boundaries: the first address of each part and its bytes. -/
def lineParts (pa : Nat) (l : List Byte) : Nat → List (Nat × List Byte)
  | 0 => []
  | n + 1 =>
    let k := 128 - pa % 128
    if l.isEmpty then [] else (pa, l.take k) :: lineParts (pa + k) (l.drop k) n

/-- An outside access at the home slices of device HBM: a read fills lines, a write is performed line by line, and an atomic in
one step (R190, R211); what has been performed of a wide store to a line that it changes is finished first (R212). DESIGN
CHOICE (log 79): it allocates as service class 0 does. -/
def State.outside (s : State) (pa : Nat) (op : ExtOp) (data : List Byte) : State :=
  let n := data.length
  let s := if op == .read then s else (lineParts pa data (n / 128 + 2)).foldl (fun s e => s.finishWide (.hbm e.1)) s
  let old := leNat (s.mem.hbm.read pa n)
  let put (v : Nat) : State := s.modMem fun m => m.homeWrite pa (leBytes n v)
  let done : State := match op with
  | .read => (lineParts pa data (n / 128 + 2)).foldl (fun s e => s.modMem fun m => m.touch (e.1 / 128)) s
  | .write => (lineParts pa data (n / 128 + 2)).foldl (fun s e => s.modMem fun m => m.homeWrite e.1 e.2) s
  | .fetchAdd => put ((old + leNat data) % 2 ^ (8 * n))
  | .swap => put (leNat data)
  | .cas expected => if old = leNat expected then put (leNat data) else s
  done.settleL2 0 .dflt

/-- Is the shape of an outside access legal: an atomic is of 4 or 8 aligned bytes? -/
def outsideOk (pa : Nat) (op : ExtOp) (data : List Byte) : Bool :=
  match op with
  | .read | .write => true
  | .fetchAdd | .swap => (data.length == 4 || data.length == 8) && pa % data.length == 0
  | .cas expected =>
    (data.length == 4 || data.length == 8) && pa % data.length == 0 && expected.length == data.length

/-- HOST_BAR2_ACCESS (R384): a virtual function reaches its partition's regions only. -/
def execHostBar2Access (fn addr : Nat) (op : ExtOp) (data : List Byte) (s : State) : Out :=
  let n := data.length
  let ok := s.hasFn fn && s.plat.boot == .running && decide (addr + n ≤ 2 ^ s.plat.bar2) && (fn == 0 || s.ownsRange (fn - 1) addr n)
  .next (if ok && outsideOk addr op data then s.outside addr op data else s)

/-- The window that accepts an access on a link, the lowest-numbered one (R389). -/
def State.window? (s : State) (link addr : Nat) : Option InWin :=
  ((List.range 16).map fun i => tget InWin.reset s.plat.wins i).find? fun w =>
    w.en && bit w.links link && decide (w.wbase ≤ addr) && decide (addr < w.wbase + 4096 * w.wlen)

/-- PEER_ACCESS_INBOUND (R389): an access that no window accepts is refused. -/
def execPeerAccessInbound (link addr : Nat) (op : ExtOp) (data : List Byte) (s : State) : Out :=
  match s.window? link addr with
  | none => .next s
  | some w =>
    let pa := w.lbase + (addr - w.wbase)
    let inside := decide (addr + data.length ≤ w.wbase + 4096 * w.wlen) && s.ownsRange w.part pa data.length
    .next (if inside && (s.link link).up && outsideOk pa op data then s.outside pa op data else s)

end Sys2Proof.Machine
end

