-- ==== Sys2Proof/Machine/MemEvents.lean ====
section
/-! DEFINITION. The steps that move accesses on: core and home acknowledgements, writes and reads at the ordering points,
values that arrive, and promotion drains (R124 to R130, R176 to R190, R206 to R219, R316); and the start of lane blocks
(R31). -/
namespace Sys2Proof.Machine

/-! ## Order among accesses (R130, R176, R205, R208) -/

/-- Are two accesses of one scalar stream, or of strands that are in both gangs? -/
def sameStream (a b : Access) : Bool :=
  a.grp == b.grp && a.scalar == b.scalar && (a.scalar || a.own &&& b.own != 0)

/-- Does an earlier access of the same stream to some of the same bytes still come first (R130, R176), or a range
invalidate of the group that has not handled the line (R224)? -/
def State.orderedAfter (s : State) (a : Access) : Bool :=
  s.mem.flight.any fun b =>
    decide (b.id < a.id) &&
      ((sameStream a b && locMeets a.loc a.size b.loc b.size && !b.tookEffect) ||
        (b.grp == a.grp && b.kind == .invalidate && b.lines.any fun l => locMeets a.loc a.size l 128))

/-- Is a write in a core's store path one that a load of the core waits for: it has its core acknowledgement and is not
performed (R208), and is not of another partition and held up there (R226)? -/
def State.loadWaitsFor (s : State) (a b : Access) : Bool :=
  b.core == a.core && b.coreAck && !b.performed && locMeets a.loc a.size b.loc b.size && (b.part == a.part || !s.promStuck b)

/-- Does an atomic of the core that has its core acknowledgement and is not performed meet the bytes (R208)? -/
def State.atomicPending (s : State) (a : Access) : Bool := s.mem.flight.any fun b => b.kind.isAtomic && s.loadWaitsFor a b

/-- Does the core's store path still hold a store to bytes that a load reads at the home slice (R208, R210)? -/
def State.storePending (s : State) (a : Access) : Bool :=
  a.readsHome && s.mem.flight.any fun b => b.kind == .store && s.loadWaitsFor a b

/-- May a load be performed: its promotion drain is over, and nothing that it comes after is still on its way? -/
def State.loadReady (s : State) (a : Access) : Bool :=
  a.kind == .load && a.value.isNone && s.drained a.drain && !s.promHeld a && !s.orderedAfter a && !s.atomicPending a && !s.storePending a

/-! ## Values (R125, R178, R179, R187) -/

/-- The words that an access delivers, by destination. -/
def Access.words (a : Access) (bs : List Byte) : List (Dest × Word) :=
  let v := leNat bs
  if a.size < 4 then
    let w := if a.signed then wrapTo 32 (toSigned (8 * a.size) v) else v
    (a.dests.take 1).map fun d => (d, BitVec.ofNat 32 w)
  else a.dests.zip ((List.range 8).map fun i => BitVec.ofNat 32 (v / 2 ^ (32 * i)))

/-- A loaded mask governs the gang that loaded it: the running block's, or one that a handler has interrupted (R26,
R201). -/
def Group.execArrives (g : Group) (a : Access) (w : Word) : Group :=
  match g.trap with
  | some t =>
    if a.handler then g.writeExec a.own w
    else
      let l := modStrands a.own (fun j x => { x with active := strandBits (w &&& g.regs.live) j }) t.frame.strands
      { g with trap := some { t with frame := { t.frame with strands := l } } }
  | none => g.writeExec a.own w

/-- A delivered word is written: a scalar load's as the scalar stream writes it (R33), and %exec for the gang (R26). A lane
load's is a result of its gang (R39). -/
def Group.deliver (g : Group) (a : Access) (d : Dest) (w : Word) : Group :=
  match d with
  | .s r => if a.scalar then g.setS r w else g.land d w false
  | .sp 8 _ => g.execArrives a w
  | d => g.land d w false

/-- The value of an access arrives in its registers. -/
def State.deliver (s : State) (a : Access) (bs : List Byte) : State :=
  s.modGroup a.grp fun g => (a.words bs).foldl (fun g (d, w) => g.deliver a d w) g

/-- The accesses of the lanes of one load of the rounding mode. -/
def State.modeLoads (s : State) (a : Access) : List Access :=
  s.mem.flight.filter fun b => b.grp == a.grp && b.setsMode && b.own == a.own && b.handler == a.handler

/-- A value of a load of the rounding mode arrives. When every lane's has, they are pending results of the gang (R54), or,
with an invalid mode among them, the load takes trap 0x01 at its own word and has no effect (R54, R43, log 72). -/
def State.arriveMode (s : State) (a : Access) (bs : List Byte) : State :=
  let s := s.modAcc a.id fun a => { a with value := some bs }
  let ms := s.modeLoads a
  match s.group? a.grp with
  | none => s.dropAcc a.id
  | some g =>
    if ms.any fun m => m.value.isNone then s
    else
      let ws := ms.flatMap fun m => (m.words (m.value.getD [])).map (·.2)
      let gone := ms.foldl (fun s m => s.dropAcc m.id) s
      if ws.any fun w => decide (w.toNat % 8 ≥ 6) then
        let l := match g.trap with
          | some t => if a.handler then g.lanes else t.frame
          | none => g.lanes
        let pc := ((l.strands[lowStrand a.own]?).map (·.pc)).getD 0 - 1
        s.lateTrap gone g a.own pc a.id a.handler 0x01 0
      else
        gone.setGroup { g with
          pend := g.pend ++ ws.map fun w => { own := a.own, dest := .sp 10 0, val := w, orIn := false } }

/-- The value of a load arrives. -/
def State.arrive (s : State) (a : Access) (bs : List Byte) : State :=
  if a.setsMode then s.arriveMode a bs else (s.deliver a bs).dropAcc a.id

/-- Is a copy older than what an earlier load of the access's strands has read at its bytes (R176)? -/
def L1Line.tooOld (c : L1Line) (a : Access) : Bool :=
  c.past.any fun (g, own, o, n) =>
    g == a.grp && own &&& a.own != 0 && decide (o < a.loc.flat.2 % 128 + a.size) && decide (a.loc.flat.2 % 128 < o + n)

/-- A copy that a load may return (R210). -/
def State.loadCopy (s : State) (a : Access) : Option (List Byte) :=
  if a.readsHome then none
  else
    (s.mem.l1.find? fun c =>
      c.core == a.core && c.part == a.part && c.scalar == a.scalar && c.loc == a.loc.lineStart && !c.tooOld a).map fun c =>
        s.coreView a.core a.loc ((c.data.drop (a.loc.flat.2 % 128)).take a.size)

/-- LOAD_VALUE_ARRIVAL (R178, R187): the value of a load or an atomic reaches its registers; `fromL1` says that a load returns
a copy held in the core (R210). -/
def execLoadValueArrival (id : Nat) (fromL1 : Bool) (s : State) : Out :=
  match s.acc? id with
  | none => .next s
  | some a =>
    let s' : Option State :=
      match a.kind with
      | .load =>
        if fromL1 then
          if s.loadReady a then (s.loadCopy a).map (s.arrive a) else none
        else a.value.map (s.arrive a)
      | _ =>
        if a.dests.isEmpty then none
        else a.value.map fun bs =>
          let s := s.deliver a bs
          if a.accepted then s.dropAcc id else s.modAcc id fun a => { a with dests := [] }
    .next (match s' with
      | some t => t.settle
      | none => s)

/-! ## Reads at the ordering points (R316) -/

/-- SLICE_READ_ACCEPT (R316). -/
def execSliceReadAccept (id : Nat) (s : State) : Out :=
  match s.acc? id with
  | none => .next s
  | some a => .next (if s.loadReady a && !a.accepted then s.modAcc id fun a => { a with accepted := true } else s)

/-- LINE_DATA_LEAVE (R316, R318): every accepted read of the line gets the value that the line then holds. -/
def execLineDataLeave (line : Nat) (s : State) : Out := .next (s.lineLeaves line)

/-! ## Writes (R176, R180, R206 to R212) -/

/-- CORE_ACKNOWLEDGEMENT (R208): a write whose release has been waited for (R182) enters the store path, behind what the core
has acknowledged before. -/
def execCoreAcknowledgement (id : Nat) (s : State) : Out :=
  match s.acc? id with
  | none => .next s
  | some a =>
    if !a.kind.writes || a.coreAck || a.loc.isScr || !s.acked a.relWait a.sc || !s.drained a.drain || s.orderedAfter a then
      .next s
    else
      let a := { a with coreAck := true }
      let s := s.modMem fun m => { m with
        flight := (m.flight.filter fun b => b.id != id) ++ [a]
        l1 := if a.kind == .store then updateCopies a.core a.loc a.data m.l1 else m.l1 }
      .next (if a.kind == .store then s.fillWrite a else s.dropCopies a.core a.loc).settle

/-- Does another write to some of the same bytes come first at the ordering point (R176, R208)? Writes of another partition
never come first (R226). -/
def State.writeBehind (s : State) (a : Access) : Bool :=
  (s.mem.flight.any fun b => decide (b.id < a.id) && sameStream a b && locMeets a.loc a.size b.loc b.size && !b.performed &&
      (if b.kind == .load then b.value.isNone else b.kind.writes)) ||
    (ackedBefore a.id s.mem.flight).any fun b =>
      b.core == a.core && b.part == a.part && b.kind.writes && b.coreAck && !b.performed && locMeets a.loc a.size b.loc b.size

/-- An atomic's result on a float type (R160, R186). -/
def atomFloat (f : FFmt) (op : AOp) (old x : Nat) : Nat :=
  let a := f.decode old
  let b := f.decode x
  match op with
  | .add => f.encode (roundX f .rn 0 0 (sumX .rn false [a, b])).v
  | .min => f.encode (fSelect false a b)
  | .max => f.encode (fSelect true a b)
  | _ => x

/-- An atomic's result on an integer type (R186). -/
def atomInt (signed : Bool) (w : Nat) (op : AOp) (old x : Nat) : Nat :=
  let i (v : Nat) : Int := readInt signed w v
  match op with
  | .add => (old + x) % 2 ^ w
  | .min => if i x < i old then x else old
  | .max => if i old < i x then x else old
  | .and => Nat.land old x
  | .or => Nat.lor old x
  | .xor => Nat.xor old x
  | .exch => x

/-- op(old, x) of a lane atomic (R186). -/
def atomOp (op : AOp) (t : ATy) (old x : Nat) : Nat :=
  match t with
  | .i32 => atomInt true 32 op old x
  | .n32 => atomInt false 32 op old x
  | .i64 => atomInt true 64 op old x
  | .n64 => atomInt false 64 op old x
  | .f32 => if op == .exch then x else atomFloat fp32 op old x
  | .bf16x2 =>
    if op == .exch then x
    else packElems 16 [atomFloat bf16 op (bits old 0 16) (bits x 0 16), atomFloat bf16 op (bits old 16 16) (bits x 16 16)]

/-- op(old, d) of SATOM (R126). -/
def satomOp (op : SAOp) (old d : Nat) : Nat :=
  match op with
  | .add => (old + d) % 2 ^ 32
  | .exch => d
  | .and => Nat.land old d
  | .or => Nat.lor old d

/-- What an atomic writes over an old value: nothing where a compare fails (R127, R188). -/
def Access.update (a : Access) (old : Nat) : Option Nat :=
  let x := leNat a.data
  match a.kind with
  | .rmwLane op t => some (atomOp op t old x)
  | .rmwScalar op => some (satomOp op old x)
  | .cas => if old = x then some (leNat a.data2) else none
  | _ => none

/-- Part of a wide store is performed, after the parts that are left of another store to its line: the line is stamped with
the whole store (R180, R206). -/
def State.writePart (s : State) (a : Access) (l : Loc) (bs : List Byte) : State :=
  match l with
  | .hbm pa =>
    let s := (s.mem.flight.filter fun b => b.id != a.id && b.midStore l).foldl (fun s b => s.endStore b) s
    let s := s.modMem fun m =>
      let m := m.dirtyLine (pa / 128)
      { m with hbm := m.hbm.write pa bs, rcopy := m.rcopy.filter fun e => e.line != pa / 128 }
    s.settleL2 (s.clsOf a.ctx) a.hint
  | l => s.writeBy a.ctx a.hint l bs

/-- The 8-byte parts of a store that are not performed (R206): a store through an alias window is performed whole. -/
def Access.partsLeft (a : Access) : List Nat :=
  match a.loc with
  | .mx _ _ _ | .mmio _ => [0]
  | _ => if a.size ≤ 8 then [0] else ((List.range (a.size / 8)).map (8 * ·)).filter fun o => !a.parts.contains o

/-- A write is performed: it carries the tag that the line then has (R180, R188). -/
def State.performed (s : State) (a : Access) (value : Option (List Byte)) : State :=
  let tag := s.locTag a.loc
  let s := match a.loc with
    | .peer _ _ => s.drawn
    | _ => s
  s.modAcc a.id fun a => { a with performed := true, value := value, tag := tag }

/-- A store, or one part of it, is performed. -/
def State.performStore (s : State) (a : Access) : State :=
  match a.loc with
  | .mmio off => (s.writeBar (s.drivingFn a.ctx) off a.size (leNat a.data)).performed a none
  | l =>
    match a.partsLeft with
    | [] => s
    | [o] =>
      if a.midStore l then s.endStore a
      else (s.writeBy a.ctx a.hint (l.plus o) (if a.parts.isEmpty then a.data else (a.data.drop o).take 8)).performed a none
    | p =>
      let o := p.getD (s.freeNat % p.length) 0
      ((s.drawn).writePart a (l.plus o) ((a.data.drop o).take 8)).modAcc a.id fun a => { a with parts := o :: a.parts }

/-- One line of a range write-back or invalidate is handled (R128). -/
def State.performLine (s : State) (a : Access) : State :=
  match a.lines with
  | [] => s.performed a none
  | l :: ls =>
    let s := if a.kind == .invalidate then s.lineInvalidate a.part l else s.lineWriteBack l
    s.modAcc a.id fun a => { a with lines := ls }

/-- Is an earlier write of the core and partition to the next line of a range operation not performed? -/
def State.lineBehind (s : State) (a : Access) : Bool :=
  match a.lines with
  | [] => false
  | l :: _ => s.mem.flight.any fun b =>
      decide (b.id < a.id) && b.core == a.core && b.part == a.part && b.kind.writes && !b.performed && locMeets l 128 b.loc b.size

/-- SLICE_WRITE_PERFORM (R211, R212): the ordering point performs a write, part of a wide store, an atomic, or one line of a
range operation. A write to scratch has both its acknowledgements from its bank (R208). -/
def execSliceWritePerform (id : Nat) (s : State) : Out :=
  match s.acc? id with
  | none => .next s
  | some a =>
    if a.performed then .next s
    else
      match a.kind with
      | .load => .next s
      | .writeBack | .invalidate => .next (if s.lineBehind a then s else s.performLine a)
      | k =>
        let ready := if a.loc.isScr then s.acked a.relWait a.sc && s.drained a.drain else a.coreAck
        if !ready || s.writeBehind a || s.fillPending a.loc || s.promHeld a then .next s
        else if k == .store then .next (s.performStore a)
        else
          let s := s.finishWide a.loc
          let old := s.locRead a.loc a.size
          let s := match a.update (leNat old) with
            | some v => s.writeBy a.ctx a.hint a.loc (leBytes a.size v)
            | none => s.touchBy a.ctx a.hint a.loc
          .next (((s.dropCopies a.core a.loc).fillWrite a).performed a (some old)).settle

/-- HOME_ACKNOWLEDGEMENT (R181): `%uas` falls by one, and a sequence tag is delivered. -/
def execHomeAcknowledgement (id : Nat) (s : State) : Out :=
  match s.acc? id with
  | none => .next s
  | some a =>
    if !a.kind.counts || !a.performed || a.accepted then .next s
    else
      let s := s.modGroup a.grp fun g =>
        let g := match a.tagDest with
          | some d => g.land d (BitVec.ofNat 32 a.tag) false
          | none => g
        { g with uas := g.uas - 1 }
      let s := if a.kind.isAtomic && !a.dests.isEmpty then s.modAcc id fun a => { a with accepted := true, tagDest := none }
        else s.dropAcc id
      .next s.settle

/-! ## Promotion drains (R219) -/

/-- PROMOTION_DRAIN_REQUEST: a core with promotion pending waits for the writes that the context's groups on it have issued. -/
def execPromotionDrainRequest (d core : Nat) (s : State) : Out :=
  let f (x : Drain) : Drain :=
    if x.id == d && x.toReach.contains core then
      let ids := (s.mem.flight.filter fun a => a.core == core && a.ctx == x.ctx && a.kind.counts && !a.accepted).map (·.id)
      { x with
        toReach := x.toReach.filter (· != core)
        waiting := if s.mem.prom.any fun e => e.1 == core && e.2.1 == x.ctx then x.waiting ++ [(core, ids)] else x.waiting }
    else x
  .next (s.modMem fun m => { m with drains := m.drains.map f }).settle

/-- PROMOTION_DRAIN_REPORT: a core whose writes have all been acknowledged reports; the drain ends with the last report. -/
def execPromotionDrainReport (d core : Nat) (s : State) : Out :=
  let f (x : Drain) : Drain :=
    if x.id == d then
      { x with waiting := x.waiting.filter fun e => !(e.1 == core && s.acked e.2 .dev) }
    else x
  .next (s.modMem fun m => { m with drains := m.drains.map f }).settle

/-! ## Lane blocks (R31) -/

/-- LANE_BLOCK_START: with no block running, the oldest entry of the decision queue starts converged; with no live lane it
ends at once. -/
def execLaneBlockStart (gid : Nat) (s : State) : Out :=
  match s.group? gid with
  | none => .next s
  | some g =>
    match g.dq with
    | [] => .next s
    | b :: r =>
      if g.lanes.running || g.suspended then .next s
      else
        let g := { g with
          dq := r
          oldS := b.oldS
          lanes := Lanes.start g.strandCount b.start g.regs.live b.k }
        .next (s.setGroup (if g.regs.live = 0 then g.endBlock else g))

end Sys2Proof.Machine
end

