-- ==== Sys2Proof/Machine/Dispatch.lean ====
section
/-! DEFINITION. The meaning of every instruction of the opcode table: one arm for each constructor of `Instr`. -/
namespace Sys2Proof.Machine

/-- Executes one instruction, or one step of a unit, in a state. -/
def exec (i : Instr) (s : State) : Host.Outcome State Fault Refusal :=
  match i with
  | .snop => Sys2Proof.Machine.execSnop s
  | .sadd d a b => Sys2Proof.Machine.execSadd d a b s
  | .ssub d a b => Sys2Proof.Machine.execSsub d a b s
  | .smul d a b => Sys2Proof.Machine.execSmul d a b s
  | .smulh d a b => Sys2Proof.Machine.execSmulh d a b s
  | .smulhn d a b => Sys2Proof.Machine.execSmulhn d a b s
  | .sand d a b => Sys2Proof.Machine.execSand d a b s
  | .sor d a b => Sys2Proof.Machine.execSor d a b s
  | .sxor d a b => Sys2Proof.Machine.execSxor d a b s
  | .sshl d a b => Sys2Proof.Machine.execSshl d a b s
  | .sshr d a b => Sys2Proof.Machine.execSshr d a b s
  | .ssha d a b => Sys2Proof.Machine.execSsha d a b s
  | .smin d a b => Sys2Proof.Machine.execSmin d a b s
  | .smax d a b => Sys2Proof.Machine.execSmax d a b s
  | .sminn d a b => Sys2Proof.Machine.execSminn d a b s
  | .smaxn d a b => Sys2Proof.Machine.execSmaxn d a b s
  | .saddi d imm => Sys2Proof.Machine.execSaddi d imm s
  | .smovi d imm => Sys2Proof.Machine.execSmovi d imm s
  | .slui d imm => Sys2Proof.Machine.execSlui d imm s
  | .sandi d imm => Sys2Proof.Machine.execSandi d imm s
  | .sori d imm => Sys2Proof.Machine.execSori d imm s
  | .sshli d a n => Sys2Proof.Machine.execSshli d a n s
  | .sshri d a n => Sys2Proof.Machine.execSshri d a n s
  | .sshai d a n => Sys2Proof.Machine.execSshai d a n s
  | .sadd64 d a b => Sys2Proof.Machine.execSadd64 d a b s
  | .ssub64 d a b => Sys2Proof.Machine.execSsub64 d a b s
  | .smov d a => Sys2Proof.Machine.execSmov d a s
  | .smvxf d a off => Sys2Proof.Machine.execSmvxf d a off s
  | .smvxt d a off => Sys2Proof.Machine.execSmvxt d a off s
  | .sbfx d a sx pos len => Sys2Proof.Machine.execSbfx d a sx pos len s
  | .spopc d a => Sys2Proof.Machine.execSpopc d a s
  | .sclz d a => Sys2Proof.Machine.execSclz d a s
  | .scmp cc q a b => Sys2Proof.Machine.execScmp cc q a b s
  | .scmpi cc q a imm => Sys2Proof.Machine.execScmpi cc q a imm s
  | .ssel d a cond src => Sys2Proof.Machine.execSsel d a cond src s
  | .qlop t d a b => Sys2Proof.Machine.execQlop t d a b s
  | .sldi d pair imm => Sys2Proof.Machine.execSldi d pair imm s
  | .sld d a w o sc prom off => Sys2Proof.Machine.execSld d a w o sc prom off s
  | .sld64 d a o sc prom off => Sys2Proof.Machine.execSld64 d a o sc prom off s
  | .sst d a w o sc off => Sys2Proof.Machine.execSst d a w o sc off s
  | .sst64 d a o sc off => Sys2Proof.Machine.execSst64 d a o sc off s
  | .satom d a op o sc prom off => Sys2Proof.Machine.execSatom d a op o sc prom off s
  | .scas d a o sc prom off => Sys2Proof.Machine.execScas d a o sc prom off s
  | .spfxPf d a sc off => Sys2Proof.Machine.execSpfxPf d a sc off s
  | .spfxWb d a off => Sys2Proof.Machine.execSpfxWb d a off s
  | .spfxInv d a off => Sys2Proof.Machine.execSpfxInv d a off s
  | .sfnc o sc prom => Sys2Proof.Machine.execSfnc o sc prom s
  | .sbr c off => Sys2Proof.Machine.execSbr c off s
  | .scall c off => Sys2Proof.Machine.execScall c off s
  | .sret => Sys2Proof.Machine.execSret s
  | .sjmpr a => Sys2Proof.Machine.execSjmpr a s
  | .sloop d off => Sys2Proof.Machine.execSloop d off s
  | .lgo a n start => Sys2Proof.Machine.execLgo a n start s
  | .lwait => Sys2Proof.Machine.execLwait s
  | .lgot a n start => Sys2Proof.Machine.execLgot a n start s
  | .cpy a cm g => Sys2Proof.Machine.execCpy a cm g s
  | .cpym a g m => Sys2Proof.Machine.execCpym a g m s
  | .gath a cm g => Sys2Proof.Machine.execGath a cm g s
  | .scat a cm g => Sys2Proof.Machine.execScat a cm g s
  | .mcast a cm g => Sys2Proof.Machine.execMcast a cm g s
  | .mmac a => Sys2Proof.Machine.execMmac a s
  | .mzro a => Sys2Proof.Machine.execMzro a s
  | .macc a => Sys2Proof.Machine.execMacc a s
  | .mfnc d => Sys2Proof.Machine.execMfnc d s
  | .mwait n => Sys2Proof.Machine.execMwait n s
  | .mwaitR b => Sys2Proof.Machine.execMwaitR b s
  | .msnd d a cm => Sys2Proof.Machine.execMsnd d a cm s
  | .mpst d a cm => Sys2Proof.Machine.execMpst d a cm s
  | .mprb d a => Sys2Proof.Machine.execMprb d a s
  | .rcfnc => Sys2Proof.Machine.execRcfnc s
  | .bdecl d a off => Sys2Proof.Machine.execBdecl d a off s
  | .benter a => Sys2Proof.Machine.execBenter a s
  | .benterYield a off => Sys2Proof.Machine.execBenterYield a off s
  | .bleave => Sys2Proof.Machine.execBleave s
  | .bqry d a => Sys2Proof.Machine.execBqry d a s
  | .bfree d a => Sys2Proof.Machine.execBfree d a s
  | .bar block n => Sys2Proof.Machine.execBar block n s
  | .barp a off => Sys2Proof.Machine.execBarp a off s
  | .bara a off => Sys2Proof.Machine.execBara a off s
  | .barw d a off => Sys2Proof.Machine.execBarw d a off s
  | .evset n => Sys2Proof.Machine.execEvset n s
  | .evclr n => Sys2Proof.Machine.execEvclr n s
  | .evwait n => Sys2Proof.Machine.execEvwait n s
  | .launch d a off => Sys2Proof.Machine.execLaunch d a off s
  | .tsig id => Sys2Proof.Machine.execTsig id s
  | .jraise d a off => Sys2Proof.Machine.execJraise d a off s
  | .jdone a off => Sys2Proof.Machine.execJdone a off s
  | .yield => Sys2Proof.Machine.execYield s
  | .sleepns a => Sys2Proof.Machine.execSleepns a s
  | .waitns a => Sys2Proof.Machine.execWaitns a s
  | .ppt m => Sys2Proof.Machine.execPpt m s
  | .srds d r => Sys2Proof.Machine.execSrds d r s
  | .swrs r b => Sys2Proof.Machine.execSwrs r b s
  | .trap imm => Sys2Proof.Machine.execTrap imm s
  | .tret => Sys2Proof.Machine.execTret s
  | .bkpt => Sys2Proof.Machine.execBkpt s
  | .exit => Sys2Proof.Machine.execExit s
  | .nop h => Sys2Proof.Machine.execNop h s
  | .iadd h t sat nf a b c => Sys2Proof.Machine.execIadd h t sat nf a b c s
  | .isub h t sat nf a b c => Sys2Proof.Machine.execIsub h t sat nf a b c s
  | .imul h t sat nf a b c => Sys2Proof.Machine.execImul h t sat nf a b c s
  | .imulh h t a b c => Sys2Proof.Machine.execImulh h t a b c s
  | .imad h t sat nf a b c d => Sys2Proof.Machine.execImad h t sat nf a b c d s
  | .imin h t a b c => Sys2Proof.Machine.execImin h t a b c s
  | .imax h t a b c => Sys2Proof.Machine.execImax h t a b c s
  | .iabs h t sat nf a b => Sys2Proof.Machine.execIabs h t sat nf a b s
  | .ineg h t sat nf a b => Sys2Proof.Machine.execIneg h t sat nf a b s
  | .idot4 h bs cs sat nf a b c d => Sys2Proof.Machine.execIdot4 h bs cs sat nf a b c d s
  | .and h t a b c => Sys2Proof.Machine.execAnd h t a b c s
  | .or h t a b c => Sys2Proof.Machine.execOr h t a b c s
  | .xor h t a b c => Sys2Proof.Machine.execXor h t a b c s
  | .not h t a b => Sys2Proof.Machine.execNot h t a b s
  | .shl h t a b c => Sys2Proof.Machine.execShl h t a b c s
  | .shr h t a b c => Sys2Proof.Machine.execShr h t a b c s
  | .sha h t a b c => Sys2Proof.Machine.execSha h t a b c s
  | .rot h t a b c => Sys2Proof.Machine.execRot h t a b c s
  | .bfx h t a b c d => Sys2Proof.Machine.execBfx h t a b c d s
  | .bfi h t a b c d e => Sys2Proof.Machine.execBfi h t a b c d e s
  | .popc h t a b => Sys2Proof.Machine.execPopc h t a b s
  | .clz h t a b => Sys2Proof.Machine.execClz h t a b s
  | .brev h t a b => Sys2Proof.Machine.execBrev h t a b s
  | .lea h t a b c d => Sys2Proof.Machine.execLea h t a b c d s
  | .icmp h t cc a b c => Sys2Proof.Machine.execIcmp h t cc a b c s
  | .fadd h t r sat nf a b c => Sys2Proof.Machine.execFadd h t r sat nf a b c s
  | .fsub h t r sat nf a b c => Sys2Proof.Machine.execFsub h t r sat nf a b c s
  | .fmul h t r sat nf a b c => Sys2Proof.Machine.execFmul h t r sat nf a b c s
  | .ffma h t r sat nf a b c d => Sys2Proof.Machine.execFfma h t r sat nf a b c d s
  | .fmin h t nf a b c => Sys2Proof.Machine.execFmin h t nf a b c s
  | .fmax h t nf a b c => Sys2Proof.Machine.execFmax h t nf a b c s
  | .frcp h t r sat nf a b => Sys2Proof.Machine.execFrcp h t r sat nf a b s
  | .frsq h t r sat nf a b => Sys2Proof.Machine.execFrsq h t r sat nf a b s
  | .fsqrt h t r sat nf a b => Sys2Proof.Machine.execFsqrt h t r sat nf a b s
  | .fexp2 h t r sat nf a b => Sys2Proof.Machine.execFexp2 h t r sat nf a b s
  | .flog2 h t r sat nf a b => Sys2Proof.Machine.execFlog2 h t r sat nf a b s
  | .fsin h t r sat nf a b => Sys2Proof.Machine.execFsin h t r sat nf a b s
  | .fcos h t r sat nf a b => Sys2Proof.Machine.execFcos h t r sat nf a b s
  | .ftanh h t r sat nf a b => Sys2Proof.Machine.execFtanh h t r sat nf a b s
  | .frnd h t r sat nf a b => Sys2Proof.Machine.execFrnd h t r sat nf a b s
  | .fscl h t r sat nf a b c => Sys2Proof.Machine.execFscl h t r sat nf a b c s
  | .fcls h t a b => Sys2Proof.Machine.execFcls h t a b s
  | .fcmp h nf cc a b c => Sys2Proof.Machine.execFcmp h nf cc a b c s
  | .fdot2 h t r sat nf a b c d => Sys2Proof.Machine.execFdot2 h t r sat nf a b c d s
  | .cvt h dt st r sat nf a b => Sys2Proof.Machine.execCvt h dt st r sat nf a b s
  | .mxq h f t nf a b => Sys2Proof.Machine.execMxq h f t nf a b s
  | .mxd h f t nf a b => Sys2Proof.Machine.execMxd h f t nf a b s
  | .mov h w a b => Sys2Proof.Machine.execMov h w a b s
  | .sel h w a b c d => Sys2Proof.Machine.execSel h w a b c d s
  | .shfl h w a b c => Sys2Proof.Machine.execShfl h w a b c s
  | .shflx h w a b c => Sys2Proof.Machine.execShflx h w a b c s
  | .bcst h w a b c => Sys2Proof.Machine.execBcst h w a b c s
  | .vote h op a b => Sys2Proof.Machine.execVote h op a b s
  | .redl h t op r sat nf a b => Sys2Proof.Machine.execRedl h t op r sat nf a b s
  | .scnl h t op excl r sat nf a b => Sys2Proof.Machine.execScnl h t op excl r sat nf a b s
  | .gtrn h w a b => Sys2Proof.Machine.execGtrn h w a b s
  | .plop h tt a b c => Sys2Proof.Machine.execPlop h tt a b c s
  | .pmov h frommask a b => Sys2Proof.Machine.execPmov h frommask a b s
  | .ld h w sx o sc prom ch a b off => Sys2Proof.Machine.execLd h w sx o sc prom ch a b off s
  | .st h w o sc ch seq a b c off => Sys2Proof.Machine.execSt h w o sc ch seq a b c off s
  | .pfx h sc ch b off => Sys2Proof.Machine.execPfx h sc ch b off s
  | .fence h o sc prom => Sys2Proof.Machine.execFence h o sc prom s
  | .atom h op t o sc prom ch seq a b c => Sys2Proof.Machine.execAtom h op t o sc prom ch seq a b c s
  | .acas h t o sc prom ch seq a b c d => Sys2Proof.Machine.execAcas h t o sc prom ch seq a b c d s
  | .ared h op t o sc ch seq a b c => Sys2Proof.Machine.execAred h op t o sc ch seq a b c s
  | .brl h toff joff => Sys2Proof.Machine.execBrl h toff joff s
  | .join sw rg => Sys2Proof.Machine.execJoin sw rg s
  | .lend sw rg => Sys2Proof.Machine.execLend sw rg s
  | .lcall h toff => Sys2Proof.Machine.execLcall h toff s
  | .lret h => Sys2Proof.Machine.execLret h s
  | .lexit h => Sys2Proof.Machine.execLexit h s
  | .gbeg sw rg vw tn poff coff => Sys2Proof.Machine.execGbeg sw rg vw tn poff coff s
  | .gyld h b => Sys2Proof.Machine.execGyld h b s
  | .gnxt h => Sys2Proof.Machine.execGnxt h s
  | .gdne h => Sys2Proof.Machine.execGdne h s
  | .grcv h a => Sys2Proof.Machine.execGrcv h a s
  | .gret sw rg => Sys2Proof.Machine.execGret sw rg s
  | .gend sw rg => Sys2Proof.Machine.execGend sw rg s
  | .waini h op flt a b c => Sys2Proof.Machine.execWaini h op flt a b c s
  | .wapsh h a b c => Sys2Proof.Machine.execWapsh h a b c s
  | .waqry h a b c => Sys2Proof.Machine.execWaqry h a b c s
  | .waexp h a b => Sys2Proof.Machine.execWaexp h a b s
  | .wawln h a b => Sys2Proof.Machine.execWawln h a b s
  | .warst h a => Sys2Proof.Machine.execWarst h a s
  | .amovr h w a b c d => Sys2Proof.Machine.execAmovr h w a b c d s
  | .amovw h w a b c d => Sys2Proof.Machine.execAmovw h w a b c d s
  | .ltrap h code => Sys2Proof.Machine.execLtrap h code s
  | .lbkpt h => Sys2Proof.Machine.execLbkpt h s
  | .lrds h w64 a b => Sys2Proof.Machine.execLrds h w64 a b s
  | .lwrs h a b => Sys2Proof.Machine.execLwrs h a b s
  | .laneBlockStart g => Sys2Proof.Machine.execLaneBlockStart g s
  | .loadValueArrival a fromL1 => Sys2Proof.Machine.execLoadValueArrival a fromL1 s
  | .coreAcknowledgement a => Sys2Proof.Machine.execCoreAcknowledgement a s
  | .homeAcknowledgement a => Sys2Proof.Machine.execHomeAcknowledgement a s
  | .sliceWritePerform a => Sys2Proof.Machine.execSliceWritePerform a s
  | .sliceReadAccept a => Sys2Proof.Machine.execSliceReadAccept a s
  | .lineDataLeave line => Sys2Proof.Machine.execLineDataLeave line s
  | .promotionDrainRequest d core => Sys2Proof.Machine.execPromotionDrainRequest d core s
  | .promotionDrainReport d core => Sys2Proof.Machine.execPromotionDrainReport d core s
  | .genSwitchToConsumer g => Sys2Proof.Machine.execGenSwitchToConsumer g s
  | .genReturnToProducer g => Sys2Proof.Machine.execGenReturnToProducer g s
  | .genDrain g => Sys2Proof.Machine.execGenDrain g s
  | .ratchetPerform core k => Sys2Proof.Machine.execRatchetPerform core k s
  | .bundleLeaveHandle p => Sys2Proof.Machine.execBundleLeaveHandle p s
  | .bundleAdmissionTest p => Sys2Proof.Machine.execBundleAdmissionTest p s
  | .bundleEvictComplete id => Sys2Proof.Machine.execBundleEvictComplete id s
  | .bundleFillComplete g => Sys2Proof.Machine.execBundleFillComplete g s
  | .holdLimitExpiry g => Sys2Proof.Machine.execHoldLimitExpiry g s
  | .holdLimitTrap g => Sys2Proof.Machine.execHoldLimitTrap g s
  | .engineCommandStart c => Sys2Proof.Machine.execEngineCommandStart c s
  | .engineCommandComplete c => Sys2Proof.Machine.execEngineCommandComplete c s
  | .engineFault c k => Sys2Proof.Machine.execEngineFault c k s
  | .cpymFollowOnHandoff c => Sys2Proof.Machine.execCpymFollowOnHandoff c s
  | .segmentSubrecordRead c seg => Sys2Proof.Machine.execSegmentSubrecordRead c seg s
  | .batchComplete g => Sys2Proof.Machine.execBatchComplete g s
  | .recordCacheEvict cluster k => Sys2Proof.Machine.execRecordCacheEvict cluster k s
  | .messageArrival c => Sys2Proof.Machine.execMessageArrival c s
  | .byteBarrierArrive k => Sys2Proof.Machine.execByteBarrierArrive k s
  | .barrierReleaseWave cluster k => Sys2Proof.Machine.execBarrierReleaseWave cluster k s
  | .eventVectorUpdate ctx => Sys2Proof.Machine.execEventVectorUpdate ctx s
  | .taskDecrement k => Sys2Proof.Machine.execTaskDecrement k s
  | .timedWaitExpiry g => Sys2Proof.Machine.execTimedWaitExpiry g s
  | .aclockChange pair setting => Sys2Proof.Machine.execAclockChange pair setting s
  | .dispatch => Sys2Proof.Machine.execDispatch s
  | .blockPlace l => Sys2Proof.Machine.execBlockPlace l s
  | .balanceAction pair kind => Sys2Proof.Machine.execBalanceAction pair kind s
  | .quantumExpiry cluster ctx => Sys2Proof.Machine.execQuantumExpiry cluster ctx s
  | .preemptionBegin cluster ctx => Sys2Proof.Machine.execPreemptionBegin cluster ctx s
  | .drainDeadlineExpiry cluster => Sys2Proof.Machine.execDrainDeadlineExpiry cluster s
  | .groupSave g => Sys2Proof.Machine.execGroupSave g s
  | .blockResume k => Sys2Proof.Machine.execBlockResume k s
  | .clusterContextSwitch cluster ctx => Sys2Proof.Machine.execClusterContextSwitch cluster ctx s
  | .contextTeardown ctx => Sys2Proof.Machine.execContextTeardown ctx s
  | .coreGate core => Sys2Proof.Machine.execCoreGate core s
  | .inrushStep sector => Sys2Proof.Machine.execInrushStep sector s
  | .tokenInterval => Sys2Proof.Machine.execTokenInterval s
  | .leaseRequest ctx value => Sys2Proof.Machine.execLeaseRequest ctx value s
  | .leaseExpiry ctx => Sys2Proof.Machine.execLeaseExpiry ctx s
  | .tailDoorbell ctx q tail => Sys2Proof.Machine.execTailDoorbell ctx q tail s
  | .queueDescriptorWrite ctx q value => Sys2Proof.Machine.execQueueDescriptorWrite ctx q value s
  | .hostdb ctx => Sys2Proof.Machine.execHostdb ctx s
  | .ctxerrClear ctx => Sys2Proof.Machine.execCtxerrClear ctx s
  | .tlbinv ctx value => Sys2Proof.Machine.execTlbinv ctx value s
  | .tlbinvComplete ctx => Sys2Proof.Machine.execTlbinvComplete ctx s
  | .cwmaskWrite core p value => Sys2Proof.Machine.execCwmaskWrite core p value s
  | .cwmaskApply core p => Sys2Proof.Machine.execCwmaskApply core p s
  | .histogramClear core q => Sys2Proof.Machine.execHistogramClear core q s
  | .setown fn => Sys2Proof.Machine.execSetown fn s
  | .setmem fn => Sys2Proof.Machine.execSetmem fn s
  | .setpart fn => Sys2Proof.Machine.execSetpart fn s
  | .setctx fn => Sys2Proof.Machine.execSetctx fn s
  | .setslew fn => Sys2Proof.Machine.execSetslew fn s
  | .profgrant fn => Sys2Proof.Machine.execProfgrant fn s
  | .attest fn => Sys2Proof.Machine.execAttest fn s
  | .setpeer fn => Sys2Proof.Machine.execSetpeer fn s
  | .setwin fn => Sys2Proof.Machine.execSetwin fn s
  | .mbcmdUnknown fn => Sys2Proof.Machine.execMbcmdUnknown fn s
  | .classWayWriteback p c => Sys2Proof.Machine.execClassWayWriteback p c s
  | .peerAccessInbound link addr op data => Sys2Proof.Machine.execPeerAccessInbound link addr op data s
  | .linkFlitRetry link => Sys2Proof.Machine.execLinkFlitRetry link s
  | .thermalThrottle temp => Sys2Proof.Machine.execThermalThrottle temp s
  | .thermalRecover temp => Sys2Proof.Machine.execThermalRecover temp s
  | .resetRelease => Sys2Proof.Machine.execResetRelease s
  | .bootVerify anvilOk serviceOk => Sys2Proof.Machine.execBootVerify anvilOk serviceOk s
  | .registerWrite fn off size value => Sys2Proof.Machine.execRegisterWrite fn off size value s
  | .hostBar2Access fn addr op data => Sys2Proof.Machine.execHostBar2Access fn addr op data s
  | .linkTrained link => Sys2Proof.Machine.execLinkTrained link s
  | .linkDown link => Sys2Proof.Machine.execLinkDown link s
  | .powerDown => Sys2Proof.Machine.execPowerDown s
  | .supplyDroop pair => Sys2Proof.Machine.execSupplyDroop pair s

end Sys2Proof.Machine
end

