-- ==== Sys2Proof/Machine/Turns.lean ====
section
/-! DEFINITION. The turns that are no instruction and no unit step of the opcode table: results that land, engine work,
evictions, the passing of time, counters that count, and what the host and peer devices store (log 1). -/
namespace Sys2Proof.Machine

/-- The deadline of a timed wait that a group is in. -/
def Group.deadline? (g : Group) : Option Nat :=
  match g.wait with
  | some (.timed t) => some t
  | some (.expired t) => some t
  | _ => none

/-- Is a group kept from issuing by more than its own wait or the choice of the front-end: it is suspended, a trap comes
first, or its partition has no tokens (log 44)? -/
def State.keptBack (s : State) (g : Group) : Bool :=
  g.suspended || g.lanes.fault.isSome || g.holdFirst || (g.holdTrap && !g.inHandler && g.wait.isNone) || !s.hasTokens g

/-- The latest moment, in nanoseconds, at which a group that may issue issues the instruction after a timed wait: the wait's
deadline, one A-clock period and 2 ns (R338). Where that moment has passed, as when the A-clock has become faster, it issues
before time runs on. -/
def State.waitBound (s : State) (g : Group) : Option Nat :=
  if s.keptBack g then none else ((g.deadline?.map (s.lateBy g.place.core)).orElse fun _ => g.due).map (max s.ns)

/-- A group after time has run on to moment n: what is kept back meanwhile, here or in the frame that a handler keeps, has its
one A-clock period and 2 ns from then on (R338, log 44). The deadline of a suspended group is looked at when it resumes
(R339). -/
def State.waitsTo (s : State) (n : Nat) (g : Group) : Group :=
  let g := { g with trap := g.trap.map fun t => { t with wait := t.wait.map (Wait.endAt (!g.suspended) n) } }
  if s.keptBack g then s.lateGroup (!g.suspended) n g else g

/-- Device time runs on (R337), not past the end of a timed wait: `%nstime` counts nanoseconds modulo 2^64. The A-clocks for
which quadrants withheld issue slots are over (R348). -/
def State.elapse (s : State) (n : Nat) : State :=
  let ns := ((s.groups.filterMap s.waitBound).foldl min (s.ns + n)) % 2 ^ 64
  { s with
    ns := ns
    groups := s.groups.map (s.waitsTo ns)
    plat := { s.plat with clusters := s.plat.clusters.map fun e => (e.1, { e.2 with withhold := false }) } }

/-- Is the result an advance of `%lfsr` by draws? -/
def Res.advances (r : Res) : Bool :=
  r.orIn && (match r.dest with
    | .sp 19 _ => true
    | _ => false)

/-- What is left pending once the k-th result has landed: an advance of `%lfsr` stands over what was issued before it
(R146). -/
def pendAfter (k : Nat) (r : Res) (l : List Res) : List Res :=
  if r.advances then ((l.take k).filter fun e => e.dest != r.dest) ++ l.drop (k + 1) else removeNth k l

/-- One pending result of a group lands; results of one run of instructions land in any order (R39, R40). -/
def State.landOne (s : State) (gid k : Nat) : State :=
  s.modGroup gid fun g =>
    match g.pend[k]? with
    | some r => { g.land r.dest r.val r.orIn with pend := pendAfter k r g.pend }
    | none => g

/-- A command whose block has been discarded goes at its granule boundary (R356); a receive stays until it is matched (R305). -/
def State.dropAtBoundary (s : State) (c : Nat) : State :=
  if (s.cmd? c).any fun x => x.dropped && x.atBoundary && !x.openRecv then
    (s.modUnits fun u => { u with cmds := u.cmds.filter fun x => x.id != c }).finishLaunches
  else s

/-- An engine command works on while its partition has tokens (R285, R376). -/
def State.workTurn (s : State) (c k : Nat) : State :=
  match s.cmd? c with
  | some x => if (s.part x.part).tokleft = 0 then s else (s.work c k).dropAtBoundary c
  | none => s

/-- A line leaves the L2 if its set holds no earlier candidate for eviction (R183). -/
def State.evictKey (s : State) (k : L2Key) (prio : Nat) : State :=
  if (s.rowsOf (s.keySet k)).any fun r => decide (r.prio < prio) && !s.bundleKey r.key then s else s.dropKey k

/-- The k-th line of the L2 leaves it: a line of a bundle way stays (R128, R233), an alias line is converted (R224), and a copy
of another sector's line is dropped. -/
def State.evictL2 (s : State) (k : Nat) : State :=
  match s.mem.l2[k]? with
  | some e => if s.inBundleWay e.line then s else s.evictKey (.line e.line) e.prio
  | none =>
    match s.mem.mx[k - s.mem.l2.length]? with
    | some e => s.evictKey (.mx e.ctx e.win e.line) e.prio
    | none =>
      match s.mem.rcopy[k - s.mem.l2.length - s.mem.mx.length]? with
      | some e => s.evictKey (.copy e.slice e.line) e.prio
      | none => s

/-- The k-th copy in L1 ways and scalar data caches goes, if its cache holds no earlier candidate (R183, R210). -/
def State.evictL1 (s : State) (k : Nat) : State :=
  match s.mem.l1[k]? with
  | none => s
  | some c =>
    if s.mem.l1.any fun x => c.mates x && decide (x.prio < c.prio) then s
    else s.modMem fun m => { m with l1 := removeNth k m.l1 }

/-- A core keeps a code word of a launch as it stands now (R76). -/
def State.keepCode (s : State) (core launch pa : Nat) : State :=
  if (s.launch? launch).isNone then s
  else s.modMem fun m => { m with
    code := (core, launch, pa, BitVec.ofNat 32 (leNat (m.hbm.read pa 4))) ::
      m.code.filter fun e => !(e.1 == core && e.2.1 == launch && e.2.2.1 == pa) }

/-- The data of an 8-byte part gains or loses an uncorrectable error (R174). DESIGN CHOICE (log 76): an access whose checks
have found its data good finds it so when it is performed. -/
def State.dataError (s : State) (space part : Nat) (on : Bool) : State :=
  let k := space * 2 ^ 60 + part
  let t := s.modMem fun m => { m with bad := if on then k :: m.bad.erase k else m.bad.erase k }
  let hurt (l : Loc) (n : Nat) : Bool := t.locBad l n && !s.locBad l n
  if (s.mem.flight.any fun a => !a.performed && a.value.isNone && a.lines.isEmpty && hurt a.loc a.size) ||
      (s.units.cmds.any fun c => c.asked.any fun e => hurt e.2 4) then s
  else t

/-- May a lifetime counter count of itself: hours and temperature (R381, log 4)? -/
def countsAlone (i : Nat) : Bool := decide (i ≤ 16)

/-- A partition is charged n tokens, at most those that it has left (R376). -/
def State.spend (s : State) (p n : Nat) : State :=
  if p ≥ Config.partitions then s
  else s.modPart p fun q =>
    { q with tokleft := q.tokleft - n, tokspent := q.tokspent + min n q.tokleft }

/-- The host may change its own memory at any time, and a peer device its own (R204). -/
def MemSys.outside (m : MemSys) (host : Bool) (addr : Nat) (data : List Byte) : MemSys :=
  if host then { m with host := m.host.write addr data } else { m with peer := m.peer.write addr data }

/-- A turn that issues no instruction and steps no unit of the opcode table. -/
def State.other (s : State) (t : Turn) : State :=
  match t with
  | .idle => s
  | .scalar _ => s
  | .lane _ _ => s
  | .event _ => s
  | .elapse n => s.elapse n
  | .land g k => s.landOne g k
  | .work c k => s.workTurn c k
  | .evictL1 k => s.evictL1 k
  | .evictL2 k => s.evictL2 k
  | .evictTlb k => s.modMem fun m => { m with tlb := removeNth k m.tlb }
  | .keepCode core launch pa => s.keepCode core launch pa
  | .dropCode k => s.modMem fun m => { m with code := removeNth k m.code }
  | .hostStore addr data => s.modMem fun m => m.outside true addr data
  | .peerStore addr data => s.modMem fun m => m.outside false addr data
  | .dataError space part on => s.dataError space part on
  | .count i n => if countsAlone i then s.lifeAdd i n else s
  | .aclock core quads => s.countClock core quads
  | .corrected pa => s.corrected pa
  | .load cluster n => s.setLoad cluster n
  | .spend p n => s.spend p n
  | .draw => s.drawPool
  | .sriov on n => s.modPlat fun p =>
    { p with vfEnable := on, numVfs := if p.vfEnable then p.numVfs else min 16 n }
  | .resize n => if 28 ≤ n && n ≤ 39 then s.modPlat fun p => { p with bar2 := n } else s
  | .rail => s.railUp

end Sys2Proof.Machine
end

