-- ==== Sys2Proof/Machine/Step.lean ====
section
/-! DEFINITION. The step: the next turn of the agenda, or a free choice of one, is taken (log 1); and the state in which a
given instruction is fetched next (log 2). -/
namespace Sys2Proof.Machine

/-- The turn that comes next: the oldest of the agenda, else a free choice (log 1). -/
def State.nextTurn (s : State) : Turn :=
  match s.agenda with
  | [] => Config.freeTurn s.turns
  | t :: _ => t

/-- The state in which that turn is taken. -/
def State.begin (s : State) : State :=
  match s.agenda with
  | [] => { s with turn := Config.freeTurn s.turns, turns := s.turns + 1 }
  | t :: r => { s with turn := t, agenda := r }

/-- What a stream was about to issue is executed, or the state in which it traps or waits instead. -/
def Issue.run : Issue → Out
  | .instr s i => exec i s
  | .other s => .next s

/-- One turn is taken: a stream issues an instruction, a unit takes a step of the opcode table, or something else moves. -/
def State.take (s : State) (t : Turn) : Out :=
  match t with
  | .scalar g => (s.scalarIssue g).run
  | .lane g st => (s.laneIssue g st).run
  | .event e =>
    match e.stream with
    | .unit => exec e s
    | _ => .next s
  | t => .next (s.other t)

/-- One step of the machine. -/
def step (s : State) : Out := s.begin.take s.nextTurn

/-! ## An instruction placed where it is fetched next (log 2) -/

/-- The launch that a placed instruction belongs to: one block of one team of one group. -/
def probeLaunch (id : Nat) : Launch :=
  { id := id, ctx := 0, queue := 0, coop := false, argv := none,
    info := { size := 32, vregs := 512, sregs := 1024, tiles := 4, gen := true, producer := some 0, restart := false,
              scratch := 0 },
    scalVa := 0x1000, scalLen := 2, laneVa := 0x1800, laneLen := 1, constVa := 0, constN := 0, setmask := 0, teams := 1,
    groups := 1, gx := 1, gy := 1, gz := 1, drainns := 0, nextBlk := 1, retired := 0, packet := [], left := true }

/-- Its group, at slot 0 of quadrant 0 of core 0, as a new group starts (R21), with a lane block running at lane word 0 when
the instruction is a lane word (R31). -/
def probeGroup (id : Nat) (lane : Bool) : Group :=
  let g := Group.fresh (probeLaunch id).info
    { core := 0, quad := 0, slot := 0, ctx := 0, part := 0, launch := id, blk := 0, team := 0, grp := 0, flat := 0, bx := 0,
      byy := 0, bz := 0, ngrp := 1 }
  if lane then { g with lanes := Lanes.start 8 0 g.regs.live [] } else g

/-- The state with an instruction of `nbits` bits placed as the next one fetched: the whole of what the loading of a
program would have brought about, a resident group whose sections are on one page of device HBM owned by its partition.
Unit steps have no bits. -/
def State.withFetchWord (s : State) (nbits w : Nat) : State :=
  let lane := decide (64 < nbits)
  let id := s.nextId
  let core : Core := { s.core 0 with gated := false }
  { s with
    nextId := id + 1
    agenda := [if lane then .lane 0 0 else .scalar 0]
    groups := probeGroup id lane :: s.groups.filter fun g => g.gid != 0
    mem := { s.mem with
      hbm := s.mem.hbm.write (if lane then 0x1800 else 0x1000) (leBytes (if lane then 12 else 8) w)
      tlb := { core := 0, ctx := 0, vpn := 1, bits := 12, pte := 0x100F } :: s.mem.tlb }
    units := { s.units with
      launches := probeLaunch id :: s.units.launches
      teams := { launch := id, blk := 0, team := 0, core := 0, tb := 0, size := 0, start := s.ns } :: s.units.teams }
    plat := { s.plat with
      boot := .running
      ctxs := tmod Ctx.reset s.plat.ctxs 0 fun c => { c with part := 0, enabled := true }
      parts := tmod Part.reset s.plat.parts 0 fun p => { p with tokleft := max 1 p.tokleft }
      quadOwn := tset s.plat.quadOwn 0 0x80
      regionOwn := tset s.plat.regionOwn 0 0x80
      cores := tset s.plat.cores 0 core
      clusters := tmod Cluster.reset s.plat.clusters 0 fun c => { c with withhold := false } } }

end Sys2Proof.Machine
end

