-- ==== Sys2Proof/Safety.lean ====
section
/-! DEFINITION. The words in which statements about the machine are made: when an instruction of a stream may go on, what
its completion leaves, which bytes of memory a state shows, and the forms and invariants that a state keeps. -/
namespace Sys2Proof

/-- What a scalar instruction that computes on registers alone writes and names: the scalar registers it writes, and those
that its fields name (R115 to R123, R144). -/
def Instr.scalarShape (i : Instr) : Option (List Nat × List Nat) :=
  match i with
  | .snop | .qlop _ _ _ _ => some ([], [])
  | .sadd d a b | .ssub d a b | .smul d a b | .smulh d a b | .smulhn d a b | .sand d a b | .sor d a b | .sxor d a b
  | .sshl d a b | .sshr d a b | .ssha d a b | .smin d a b | .smax d a b | .sminn d a b | .smaxn d a b =>
    some ([d], [d, a, b])
  | .saddi d _ | .smovi d _ | .slui d _ | .sandi d _ | .sori d _ => some ([d], [d])
  | .sshli d a _ | .sshri d a _ | .sshai d a _ | .smov d a | .spopc d a | .sclz d a | .sbfx d a _ _ _ => some ([d], [d, a])
  | .sadd64 d a b | .ssub64 d a b => some ([d, d + 1], [d, d + 1, a, a + 1, b, b + 1])
  | .scmp _ _ a b => some ([], [a, b])
  | .scmpi _ _ a _ => some ([], [a])
  | .ssel d a _ src =>
    match src with
    | .reg n => some ([d], [d, a, n])
    | .imm _ => some ([d], [d, a])
  | .sldi d pair _ => if pair then some ([d, d + 1], [d, d + 1]) else some ([d], [d])
  | _ => none

end Sys2Proof

namespace Sys2Proof.Machine

/-! ## Scalar instructions -/

/-- The state in which the front-end executes two words for a group that it has chosen: the words stay with the group until
the instruction is complete (R336, R397). -/
def State.issuing (s : State) (g : Group) (w0 w1 : Nat) : State :=
  (s.chosen g).setGroup { g with due := none, words := some (w0, w1) }

/-- May a group's scalar stream issue: it is resident and not suspended, its partition has tokens, no partial fault or
hold-limit trap comes first (R175, R245, R376), and the front-end does not pass over it (R336)? -/
def State.scalarMayIssue (s : State) (g : Group) : Prop :=
  g.suspended = false ∧ s.hasTokens g = true ∧ g.lanes.fault = none ∧ g.holdFirst = false ∧
    (g.holdTrap && !g.inHandler && g.wait.isNone) = false ∧ s.passedOver g = false

/-- May a gang issue: its block runs, the group is not suspended and has tokens, no fault or trap comes first, and neither
the power model, an open generator loop nor a load of its mask or mode holds it? -/
def State.laneMayIssue (s : State) (g : Group) (b : BitVec 8) : Prop :=
  g.lanes.running = true ∧ b ≠ 0 ∧ g.suspended = false ∧ s.hasTokens g = true ∧ g.lanes.fault = none ∧
    g.holdFirst = false ∧ (s.cluster (clusterOf g.place.core)).withhold = false ∧ g.genHeld b = false ∧ g.allHeld b = false

/-- A queued lane block without the record of values overwritten since it was dispatched (R33). -/
def QBlock.noOld (q : QBlock) : QBlock := { q with oldS := [] }

/-- A trap frame without the record of overwritten values that its lane block may still read (R33). -/
def Trap.noOld (t : Trap) : Trap := { t with oldS := [], dq := t.dq.map QBlock.noOld }

/-- The group whose scalar stream has the turn, when an instruction that names the registers goes on there: each is
allocated (R20), and no earlier load or message owes it a value (R29, R304). -/
def State.scalarReady (s : State) (regs : List Nat) : Option Group :=
  match s.scalarTurn? with
  | none => none
  | some g => if regs.all fun r => decide (r < g.info.sregs) && !s.scalarBusy g r then some g else none

/-- The next state of a scalar instruction that leaves its group as `h` and goes on `words` words further. -/
def State.scalarDone (s : State) (h : Group) (words : Nat) : State := s.setGroup (h.advance words)

/-- The machine when a scalar access of an order and scope issues: a release at scope 0 or 1 sets the promotion-pending state
(R218), and PROM starts a promotion drain, which is the second component (R219). -/
def State.ordered (s : State) (g : Group) (o : MOrd) (sc : Scope) (prom : Bool) : State × Option Nat :=
  (s.setPromotion g o sc).startDrain g.place.ctx (prom && ordAcq o)

/-- The scalar access that then issues; a release waits for what it comes after (R209, R215). -/
def Group.scalarAcc (g : Group) (p : State × Option Nat) (o : MOrd) (sc : Scope) (k : AccKind) (l : Loc) (n : Nat) : Access :=
  { g.access p.1.nextId k l n with
    ord := o, sc := sc, relWait := if ordRel o then p.1.releaseIds g 0 sc else [], drain := p.2 }

/-- The next state of a scalar access: it is in flight, `%uas` counts it unless it is a load (R124), an acquire holds the
stream's later accesses (R182), and the stream is at the next instruction. -/
def State.sent (s : State) (g : Group) (a : Access) : State :=
  (s.modMem fun m => { m with flight := m.flight ++ [a] }).bumpId.setGroup ({ g with
    uas := if a.kind.counts then g.uas + 1 else g.uas
    holds := if ordAcq a.ord then g.holds ++ [acquireHold 0 [a.id] a.sc] else g.holds }.advance 2)

/-! ## Engine commands -/

/-- The eight registers of an operand block (R97). -/
def Group.block (g : Group) (a : Nat) : List Word := (List.range 8).map fun i => g.getS (a + i)

/-- A group whose scalar stream can issue an engine command with its operand block at s(a), beside other registers: it is
not waiting for a command of its own. -/
def State.engineReady (s : State) (regs : List Nat) (a : Nat) : Option Group :=
  (s.scalarReady (regs ++ regSpan a 8)).filter fun g =>
    match g.wait with
    | some (.cmd _ _) => false
    | _ => true

/-- From one state to the next a group issues a command: it is in flight, of a kind, with a completion and a number of
units, queued, and the stream is at the next instruction, or waits for a yield-continuation at `target` (R285). -/
def State.issuesCmd (s t : State) (g : Group) (kind : CmdKind) (cm : Compl) (total target : Nat) : Prop :=
  ∃ c : Cmd, t = (s.addCmd c).setGroup (g.issued cm c.id target) ∧ c.id = s.nextId ∧ c.kind = kind ∧ c.compl = cm ∧
    c.total = total ∧ c.state = .queued ∧ c.grp = g.gid ∧ c.done = []

/-! ## Traps -/

/-- The state in which a trap of a group enters its context's handler: the group is in none, one is installed, and its first
word can be fetched (R141). -/
def State.handlerReady (s : State) (g : Group) : Option State :=
  if g.inHandler then none
  else
    match s.useRegs g.place.ctx with
    | (s, r) =>
      if !r.valid then none
      else
        match s.fetch4 { g.agent with handler := true } r.hbase with
        | (_, .fault _) => none
        | (s, .word _) => some s

/-- The trap of the scalar stream before the instruction at its PC (R43). -/
def Group.scalarReq (g : Group) (cause subc : Nat) : TrapReq :=
  { cause := cause, subc := subc, swc := 0, spc := g.spc, lpc := 0xFFFFFFFF, exec := 0, fltmask := 0, wmask := 0, gang := 0 }

/-- The trap of a gang before its lane instruction (R43). -/
def Lane.laneReq (c : Lane) (cause subc : Nat) : TrapReq :=
  { cause := cause, subc := subc, swc := 0, spc := c.g.spc, lpc := c.pc, exec := activeOf c.g.lanes.strands &&& c.lanes,
    fltmask := 0, wmask := 0, gang := c.gang }

/-! ## Lane instructions -/

/-- What a lane instruction works on when its gang has the turn: gangs merge at a regang point (R37), a switch marker lands
the gang's results (R40), the guard decides ACT (R78), and lanes left by a faulting access are used up (R175). -/
def State.laneWork (s : State) (rg sw : Bool) (h : Option Hdr) : Option Lane :=
  match s.laneTurn? with
  | none => none
  | some (g, b) =>
    let m := if rg then g.regang b else (g, b)
    let g := if sw then m.1.landOf m.2 else m.1
    some { s := s.setGroup m.1, gang := m.2, pc := g.pcOf m.2
           act := g.actOf m.2 ((h.map g.guard).getD (BitVec.allOnes 32))
           g := g.replayUsed m.2 }

/-- May the instruction go on: nothing holds the gang, a switch marker has no load to wait for (R40), no source waits for an
atomic's value or a tag (R40), every operand is allocated (R20), and handler-only registers are read in a handler (R199)? -/
def Lane.mayGo (c : Lane) (sw : Bool) (dsts srcs : List (Opnd × Nat)) : Bool :=
  !c.g.allHeld c.gang && !(sw && !(c.s.gangLoads c.g c.gang).isEmpty) &&
    !srcs.any (c.s.srcBusy c.g c.gang) && (dsts ++ srcs).all c.g.allocated &&
    !((srcs.any fun o => handlerOnly o.1) && !c.g.inHandler)

/-- The work of a lane instruction that goes on now. -/
def State.laneReady (s : State) (rg sw : Bool) (h : Option Hdr) (dsts srcs : List (Opnd × Nat)) : Option Lane :=
  (s.laneWork rg sw h).filter fun c => c.mayGo sw dsts srcs

/-- The header of a lane instruction with operands, and its destinations and sources with the number of registers that each
spans (R20, R49, R81, R82). -/
def State.laneShape (s : State) (i : Instr) : Option (Hdr × List (Opnd × Nat) × List (Opnd × Nat)) :=
  match i with
  | .iadd h t _ _ a b c | .isub h t _ _ a b c | .imul h t _ _ a b c | .imulh h t a b c | .imin h t a b c | .imax h t a b c
  | .and h t a b c | .or h t a b c | .xor h t a b c => some (h, [(a, t.regs)], [(b, t.regs), (c, t.regs)])
  | .imad h t _ _ a b c d => some (h, [(a, t.regs)], [(b, t.regs), (c, t.regs), (d, t.regs)])
  | .iabs h t _ _ a b | .ineg h t _ _ a b | .not h t a b | .popc h t a b | .clz h t a b
  | .brev h t a b => some (h, [(a, t.regs)], [(b, t.regs)])
  | .shl h t a b c | .shr h t a b c | .sha h t a b c | .rot h t a b c => some (h, [(a, t.regs)], [(b, t.regs), (c, 1)])
  | .idot4 h _ _ _ _ a b c d | .bfx h _ a b c d | .ffma h _ _ _ _ a b c d | .fdot2 h _ _ _ _ a b c d =>
    some (h, [(a, 1)], [(b, 1), (c, 1), (d, 1)])
  | .bfi h _ a b c d e => some (h, [(a, 1)], [(b, 1), (c, 1), (d, 1), (e, 1)])
  | .lea h _ a b c d => some (h, [(a, 2)], [(b, 2), (c, 1), (d, 1)])
  | .icmp h t _ a b c => some (h, [(a, 1)], [(b, t.regs), (c, t.regs)])
  | .fadd h _ _ _ _ a b c | .fsub h _ _ _ _ a b c | .fmul h _ _ _ _ a b c | .fmin h _ _ a b c | .fmax h _ _ a b c
  | .fscl h _ _ _ _ a b c | .fcmp h _ _ a b c | .plop h _ a b c => some (h, [(a, 1)], [(b, 1), (c, 1)])
  | .frcp h _ _ _ _ a b | .frsq h _ _ _ _ a b | .fsqrt h _ _ _ _ a b | .fexp2 h _ _ _ _ a b | .flog2 h _ _ _ _ a b
  | .fsin h _ _ _ _ a b | .fcos h _ _ _ _ a b | .ftanh h _ _ _ _ a b | .frnd h _ _ _ _ a b | .fcls h _ a b | .vote h _ a b
  | .pmov h _ a b | .lwrs h a b => some (h, [(a, 1)], [(b, 1)])
  | .lrds h w64 a b => some (h, [(a, if w64 then 2 else 1)], [(b, 1)])
  | .cvt h dt st _ _ _ a b => some (h, [(a, cvtDst dt st)], [(b, cvtSrc dt st)])
  | .mxq h f t _ a b => some (h, [(a, (mxShape s f t).imageRegs)], [(b, (mxShape s f t).valueRegs)])
  | .mxd h f t _ a b => some (h, [(a, (mxShape s f t).valueRegs)], [(b, (mxShape s f t).imageRegs)])
  | .mov h w a b => some (h, [(a, w.regs)], [(b, w.regs)])
  | .sel h w a b c d => some (h, [(a, w.regs)], [(b, w.regs), (c, w.regs), (d, 1)])
  | .shfl h w a b c | .shflx h w a b c | .bcst h w a b c => some (h, [(a, w.regs)], [(b, w.regs), (c, 1)])
  | .redl h t _ _ _ _ a b | .scnl h t _ _ _ _ _ a b => some (h, [(a, tyRegs t)], [(b, tyRegs t)])
  | .gtrn h _ a b => some (h, [(a, 8)], [(b, 8)])
  | .amovr h w a b c d => some (h, [(a, w.regs)], [(b, 1), (c, 1), (d, 1)])
  | .amovw h w a b c d => some (h, [(a, 1)], [(b, w.regs), (c, 1), (d, 1)])
  | .ld h w _ _ _ _ _ a b _ => some (h, [(a, w.regs)], [(b, 2)])
  | .st h w _ _ _ _ a b c _ => some (h, [(a, 1)], [(b, 2), (c, w.regs)])
  | .pfx h _ _ b _ => some (h, [], [(b, 2)])
  | .atom h _ t _ _ _ _ seq a b c => some (h, [(a, t.regs + if seq then 1 else 0)], [(b, 2), (c, t.regs)])
  | .acas h t _ _ _ _ seq a b c d => some (h, [(a, t.regs + if seq then 1 else 0)], [(b, 2), (c, t.regs), (d, t.regs)])
  | .ared h _ t _ _ _ _ a b c => some (h, [(a, 1)], [(b, 2), (c, t.regs)])
  | .gyld h b => some (h, [], [(b, s.genWords)])
  | .grcv h a => some (h, [(a, s.genWords)], [])
  | .waini h _ _ _ b c | .wapsh h _ b c => some (h, [], [(b, 1), (c, 1)])
  | .waqry h a _ c => some (h, [(a, 1)], [(c, 1)])
  | .waexp h _ b | .wawln h _ b => some (h, [], [(b, 1)])
  | _ => none

/-- The next state of a lane instruction with some results: they are pending, and the gang is at the next word (R39). -/
def Lane.done (c : Lane) (rs : List Res) : State :=
  c.spent.setGroup ({ c.g with pend := c.g.pend ++ rs }.laneNext c.gang)

/-- The flag results of the active lanes (R59). -/
def Lane.flagResults (c : Lane) (fl : Nat → Nat) : List Res := (lanesOf c.act).flatMap fun l => flagRes c.gang l (fl l)

/-- The results of an instruction that gives each active lane a value of n registers and flags. -/
def Lane.results (c : Lane) (d : Opnd) (n : Nat) (val fl : Nat → Nat) : List Res :=
  ((lanesOf c.act).flatMap fun l => resOf c.gang d n l (val l)) ++ c.flagResults fl

/-- The next state of such an instruction, which may have further results: a write of %exec takes the value of the lowest
active lane at once (R26), every other destination gets a result for each active lane. -/
def Lane.afterAnd (c : Lane) (d : Opnd) (n : Nat) (val fl : Nat → Nat) (more : List Res) : State :=
  match d with
  | .sp 8 =>
    match lanesOf c.act with
    | [] => c.done []
    | l :: _ => { c with g := c.g.writeExec c.gang (BitVec.ofNat 32 (val l)) }.done (c.flagResults fl ++ more)
  | d => c.done (c.results d n val fl ++ more)

/-- The next state of an instruction with no results but its values and flags. -/
def Lane.after (c : Lane) (d : Opnd) (n : Nat) (val fl : Nat → Nat) : State := c.afterAnd d n val fl []

/-- Is no active lane's value an invalid rounding mode for %rmode (R54)? -/
def Lane.modeOk (c : Lane) (d : Opnd) (val : Nat → Nat) : Bool :=
  match d with
  | .sp 10 => (lanesOf c.act).all fun l => decide (val l % 8 < 6)
  | _ => true

/-- No flags. -/
def noFlags : Nat → Nat := fun _ => 0

/-- The instruction at the state writes, in each active lane, a value of n registers and flags that satisfy P, which is given
the lane, the value and the flags (R39, R59). -/
def Lane.writes (c : Lane) (s : State) (i : Instr) (d : Opnd) (n : Nat) (P : Nat → Nat → Nat → Prop) : Prop :=
  ∃ val fl : Nat → Nat, (∀ l ∈ lanesOf c.act, P l (val l) (fl l)) ∧
    (c.modeOk d val = true → exec i s = .next (c.after d n val fl))

/-- A lane's n elements in order, each with the lane's next draw (R55): patterns, flags, LFSR state after, draw used. -/
def Lane.draws (c : Lane) (n : Nat) (f : Nat → Nat → Nat → Nat × Nat × Bool) (l : Nat) : List Nat × Nat × Nat × Bool :=
  withDraws (fun i st => f l i st) (List.range n) (c.g.getLfsr l).toNat

/-- The instruction at the state writes, in each active lane, n elements of width w in `regs` registers, each rounded as `f`
says, with their flags unless NF keeps them back, and the LFSR state of a lane that has used a draw (R55, R59, R157). -/
def Lane.rounds (c : Lane) (s : State) (i : Instr) (d : Opnd) (regs n w : Nat) (nf : Bool)
    (f : Nat → Nat → Nat → Nat × Nat × Bool) : Prop :=
  let val (l : Nat) : Nat := packElems w (c.draws n f l).1
  let lfsr (l : Nat) : List Res :=
    if (c.draws n f l).2.2.2 then
      [{ own := c.gang, dest := .sp 19 l, val := BitVec.ofNat 32 (c.draws n f l).2.2.1, orIn := true }]
    else []
  c.modeOk d val = true → exec i s =
    .next (c.afterAnd d regs val (fun l => if nf then 0 else (c.draws n f l).2.1) ((lanesOf c.act).flatMap lfsr))

/-- Element i, of width w, of a packed value as a bit pattern. -/
def elemBits (w v i : Nat) : BitVec w := BitVec.ofNat w (v / 2 ^ (w * i))

/-- An element as an integer, by the signedness of its type (R48). -/
def elemInt (t : ITy) (v i : Nat) : Int :=
  if t.signed then (elemBits t.width v i).toInt else (elemBits t.width v i).toNat

/-- The elements that a value of an integer type has in its registers (R49). -/
def elemCount (t : ITy) : Nat := 32 * t.regs / t.width

/-- Does an exact integer lie in the range of a type? -/
def inTypeRange (t : ITy) (x : Int) : Bool := decide (intMin t.signed t.width ≤ x) && decide (x ≤ intMax t.signed t.width)

/-- An exact integer result wrapped, or clamped to the type's range (R57, R150). -/
def intResult (t : ITy) (sat : Bool) (x : Int) : BitVec t.width :=
  BitVec.ofInt t.width (if sat then max (intMin t.signed t.width) (min x (intMax t.signed t.width)) else x)

/-- The next state of a control step: each strand of the gang as `f` leaves it, those with different lane PCs as gangs of
their own (R34). -/
def Lane.moved (c : Lane) (f : Nat → Strand → Strand) : State :=
  c.spent.setGroup (c.g.modLanes fun l => regangNumbers c.gang (modStrands c.gang f l))

/-! ## Memory as it is seen -/

/-- Does a location with n bytes from it on lie in device HBM, host memory, a peer's memory or a core's SRAM? -/
def Loc.real (l : Loc) (n : Nat) : Bool :=
  match l with
  | .hbm _ | .host _ => true
  | .peer _ pa => decide (pa + n ≤ 2 ^ 52)
  | .scr _ off => decide (off + n ≤ 0x80000)
  | .mx .. | .mmio _ => false

/-- Does a byte lie outside the n bytes from a location on? -/
def Loc.outside (b a : Loc) (n : Nat) : Bool :=
  b.flat.1 != a.flat.1 || decide (b.flat.2 < a.flat.2) || decide (a.flat.2 + n ≤ b.flat.2)

/-- Every byte of memory reads in t as in s. -/
def State.sameBytes (s t : State) : Prop := ∀ l : Loc, l.real 1 = true → t.locRead l 1 = s.locRead l 1

/-- Every byte of memory outside n bytes from a location on reads in t as in s. -/
def State.sameBytesOutside (s t : State) (a : Loc) (n : Nat) : Prop :=
  ∀ l : Loc, l.real 1 = true → l.outside a n = true → t.locRead l 1 = s.locRead l 1

/-- Does the L2 owe a byte of device HBM a conversion of writes to an alias line (R65, R224)? -/
def State.aliasPends (s : State) (l : Loc) : Bool :=
  match l with
  | .hbm pa => s.mem.mx.any fun e => !e.writes.isEmpty && [2 * e.line, 2 * e.line + 1].any fun b =>
      let w := s.mxWin e.ctx e.win
      let f := aliasFmt w.fmt
      (decide (w.dataAt b ≤ pa) && decide (pa < w.dataAt b + mxDataBytes f)) ||
        (decide (w.scaleAt b ≤ pa) && decide (pa < w.scaleAt b + mxScaleBytes f))
  | _ => false

/-- Does the L2 hold a clean line over newer contents of HBM, which show when the line leaves (R224)? -/
def State.lineStale (s : State) (l : Loc) : Bool :=
  match l with
  | .hbm pa => s.mem.l2.any fun e => e.line == pa / 128 && !e.dirty && !e.backing.isEmpty
  | _ => false

/-- Every byte of memory reads in t as in s, but those that alias writes reach when a line leaves the L2 (R224). -/
def State.sameSettled (s t : State) : Prop :=
  ∀ l : Loc, l.real 1 = true → s.aliasPends l = false → s.lineStale l = false → t.locRead l 1 = s.locRead l 1

/-- The same of every byte outside n bytes from a location on. -/
def State.sameSettledOutside (s t : State) (a : Loc) (n : Nat) : Prop :=
  ∀ l : Loc, l.real 1 = true → l.outside a n = true → s.aliasPends l = false → s.lineStale l = false →
    t.locRead l 1 = s.locRead l 1

/-- The physical address of code that a group fetches through its core's TLB: a page of device HBM that its partition owns,
with X, of which the core keeps no older word (R74, R76, R385). -/
def State.codeAt (s : State) (g : Group) (va : Nat) : Option Nat :=
  if !canonical va then none
  else
    match s.mem.tlb.find? fun e => e.core == g.place.core && e.hits g.place.ctx (va % 2 ^ 57) with
    | none => none
    | some e =>
      let pa := bits e.pte 12 40 * 4096 + va % 2 ^ 57 % 2 ^ e.bits
      if bit e.pte 3 && bits e.pte 4 3 == 0 && s.ownsPa g.place.part pa &&
          !(s.mem.code.any fun k => k.1 == g.place.core && k.2.1 == g.place.launch && k.2.2.1 == pa) then some pa
      else none

/-- The 32-bit word of code at a physical address. -/
def State.codeWord (s : State) (pa : Nat) : Nat := leNat (s.mem.hbm.read pa 4)

/-! ## Invariants -/

/-- The memories are in canonical form. -/
def State.memCanonical (s : State) : Bool := s.mem.hbm.wf && s.mem.host.wf && s.mem.peer.wf && s.mem.sram.wf

/-- EXEC is a part of LIVE, and neither has a bit at or above the group size (R25). -/
def Group.masksOk (g : Group) : Bool :=
  g.exec &&& ~~~g.regs.live == 0 && g.regs.live &&& ~~~(lowLanes g.info.size) == 0

/-- The masks of every group are well formed, of the resident groups and of those that a pre-emption has saved (R25). -/
def State.masksOk (s : State) : Bool :=
  s.groups.all Group.masksOk && s.units.saved.all fun k => k.groups.all Group.masksOk

end Sys2Proof.Machine
end

