-- ==== Sys2Proof/Laws/Ops.lean ====
section
/-! SUPPORT. What the frames of scalar and lane instructions do when the instruction goes on: one lemma for each shared
operation. -/
namespace Sys2Proof.Machine

/-- A scalar instruction that goes on is what its meaning does with the group. -/
theorem scalarInstr_ready {s : State} {regs : List Nat} {g : Group} (k : Group → Out)
    (h : s.scalarReady regs = some g) : scalarInstr s regs k = k g := by
  unfold State.scalarReady at h
  unfold scalarInstr
  cases hg : s.scalarTurn? with
  | none => simp [hg] at h
  | some g' =>
    simp only [hg] at h ⊢
    split at h
    · rename_i ha
      cases h
      have h1 : (regs.any fun r => decide (r ≥ g.info.sregs)) = false := by
        simp only [List.any_eq_false, List.all_eq_true, Bool.and_eq_true, decide_eq_true_eq, Bool.not_eq_true'] at ha ⊢
        intro r hr
        have := (ha r hr).1
        omega
      have h2 : regs.any (s.scalarBusy g) = false := by
        simp only [List.any_eq_false, List.all_eq_true, Bool.and_eq_true, decide_eq_true_eq, Bool.not_eq_true'] at ha ⊢
        intro r hr
        simp [(ha r hr).2]
      simp [h1, h2]
    · cases h

/-- The group that goes on has the turn. -/
theorem scalarReady_turn {s : State} {regs : List Nat} {g : Group} (h : s.scalarReady regs = some g) :
    s.scalarTurn? = some g := by
  unfold State.scalarReady at h
  split at h
  · cases h
  · rename_i g' hg
    split at h
    · cases h; exact hg
    · cases h

/-- A group that may name some registers may name some of them. -/
theorem scalarReady_mono {s : State} {regs some' : List Nat} {g : Group} (h : s.scalarReady regs = some g)
    (hs : ∀ r ∈ some', r ∈ regs) : s.scalarReady some' = some g := by
  unfold State.scalarReady at *
  cases hg : s.scalarTurn? with
  | none => simp [hg] at h
  | some g' =>
    simp only [hg, Option.ite_none_right_eq_some] at h ⊢
    refine ⟨?_, h.2⟩
    simp only [List.all_eq_true] at h ⊢
    exact fun r hr => h.1 r (hs r hr)

/-- An instruction that changes the group alone: its next state. -/
theorem scalarOp_ready {s : State} {regs : List Nat} {g : Group} {words : Nat} (f : Group → Group)
    (h : s.scalarReady regs = some g) : scalarOp s regs words f = .next (s.scalarDone (f g) words) :=
  scalarInstr_ready _ h

/-- A privileged instruction that goes on in a handler. -/
theorem privileged_ready {s : State} {regs : List Nat} {g : Group} {t : Trap} (k : Group → Trap → Out)
    (h : s.scalarReady regs = some g) (ht : g.trap = some t) : privileged s regs k = k g t := by
  unfold privileged
  rw [scalarReady_turn h]
  simp only [ht]
  exact scalarInstr_ready _ h

/-- Outside a handler a privileged instruction traps (R98). -/
theorem privileged_outside {s : State} {regs : List Nat} {g : Group} (k : Group → Trap → Out)
    (h : s.scalarTurn? = some g) (ht : g.trap = none) : privileged s regs k = .next (s.scalarTrap g 0x01 0) := by
  unfold privileged
  simp only [h, ht]

/-! ## Landing leaves everything but registers alone -/

/-- What `land` changes is in the registers. -/
theorem Group.land_eq (g : Group) (d : Dest) (w : Word) (o : Bool) :
    g.land d w o = { g with regs := (g.land d w o).regs } := by
  cases d with
  | v => rfl
  | p r l => simp only [Group.land, Group.setP]; split <;> rfl
  | s => rfl
  | tile => rfl
  | sp n l =>
    unfold Group.land
    split <;> first
      | rfl
      | (split <;> rfl)
      | (simp only [Group.setP]; split <;> rfl)

/-- Landing a list of results changes registers only. -/
theorem Group.landAll_eq (g : Group) (rs : List Res) : g.landAll rs = { g with regs := (g.landAll rs).regs } := by
  induction rs generalizing g with
  | nil => rfl
  | cons r rs ih =>
    rw [Group.landAll, ih, Group.land_eq]

/-- Landing a gang's results leaves the parts of a group other than registers and pending results. -/
theorem Group.landOf_eq (g : Group) (b : BitVec 8) :
    g.landOf b = { g with regs := (g.landOf b).regs, pend := (g.landOf b).pend } := by
  unfold Group.landOf
  rw [Group.landAll_eq]

/-! ## Lane instructions -/

/-- A lane instruction that goes on is what its meaning does with its work. -/
theorem laneFrame_ready {s : State} {rg sw : Bool} {h : Option Hdr} {dsts srcs : List (Opnd × Nat)} {c : Lane}
    (k : Lane → Out) (hc : s.laneReady rg sw h dsts srcs = some c) : laneFrame s rg sw h dsts srcs k = k c := by
  unfold State.laneReady State.laneWork at hc
  unfold laneFrame
  cases ht : s.laneTurn? with
  | none => simp [ht] at hc
  | some e =>
    obtain ⟨g, b⟩ := e
    simp only [ht] at hc ⊢
    generalize (if rg = true then g.regang b else (g, b)) = m at hc ⊢
    rw [Option.filter_some, Option.ite_none_right_eq_some, Option.some.injEq] at hc
    obtain ⟨hm, rfl⟩ := hc
    have hl : ∀ x : Group, (if sw = true then x.landOf m.2 else x) =
        { x with regs := (if sw = true then x.landOf m.2 else x).regs,
                 pend := (if sw = true then x.landOf m.2 else x).pend } := by
      intro x
      cases sw
      · rfl
      · exact Group.landOf_eq x m.2
    unfold Lane.mayGo at hm
    simp only [Bool.and_eq_true, Bool.not_eq_true'] at hm
    obtain ⟨⟨⟨⟨h1, h2⟩, h3⟩, h4⟩, h5⟩ := hm
    rw [hl] at h1 h2 h3 h4 h5
    have h1' : m.1.allHeld m.2 = false := h1
    have h2' : (sw && !((s.setGroup m.1).gangLoads m.1 m.2).isEmpty) = false := h2
    have h3' : (srcs.any ((s.setGroup m.1).srcBusy m.1 m.2)) = false := h3
    have h4' : (dsts ++ srcs).all (if sw = true then m.1.landOf m.2 else m.1).allocated = true := by
      rw [hl]; exact h4
    have h5' : ((srcs.any fun o => handlerOnly o.1) && !(if sw = true then m.1.landOf m.2 else m.1).inHandler) = false := by
      rw [hl]; exact h5
    rw [if_neg (by rw [h1', h2', h3']; decide)]
    rw [if_neg (by rw [h4']; decide), if_neg (by rw [h5']; decide)]
    generalize (if sw = true then m.1.landOf m.2 else m.1) = x
    have hg : (match h with
        | some h => x.guard h
        | none => BitVec.allOnes 32) = ((Option.map x.guard h).getD (BitVec.allOnes 32)) := by
      cases h <;> rfl
    exact hg ▸ rfl

/-- A lane instruction with a header that goes on. -/
theorem laneInstr_ready {s : State} {h : Hdr} {dsts srcs : List (Opnd × Nat)} {c : Lane} (k : Lane → Out)
    (hc : s.laneReady h.rg h.sw (some h) dsts srcs = some c) : laneInstr s h dsts srcs k = k c :=
  laneFrame_ready k hc

/-- What writing values, flags and further results comes to. -/
theorem Lane.writeAnd_eq (c : Lane) (d : Opnd) (n : Nat) (f : Nat → Nat × Nat) (more : List Res)
    (hm : c.modeOk d (fun l => (f l).1) = true) :
    c.writeAnd d n f more = .next (c.afterAnd d n (fun l => (f l).1) (fun l => (f l).2) more) := by
  unfold Lane.writeAnd Lane.afterAnd
  split
  · cases hl : lanesOf c.act with
    | nil => simp [Lane.finish, Lane.done]
    | cons l ls => simp [Lane.finish, Lane.done, Lane.flagResults, hl, Lane.spent, Group.writeExec]
  · have : ((lanesOf c.act).any fun l => decide ((f l).1 % 8 ≥ 6)) = false := by
      simp only [Lane.modeOk, List.all_eq_true, decide_eq_true_eq] at hm
      simp only [List.any_eq_false, decide_eq_true_eq]
      intro l hl
      have := hm l hl
      omega
    simp only [this]
    simp [Lane.finish, Lane.done, Lane.results, Lane.flagResults]
  · simp [Lane.finish, Lane.done, Lane.results, Lane.flagResults]

/-- What writing values and flags comes to. -/
theorem Lane.write_eq (c : Lane) (d : Opnd) (n : Nat) (f : Nat → Nat × Nat)
    (hm : c.modeOk d (fun l => (f l).1) = true) :
    c.write d n f = .next (c.after d n (fun l => (f l).1) (fun l => (f l).2)) := Lane.writeAnd_eq c d n f [] hm

/-- What writing values comes to. -/
theorem Lane.put_eq (c : Lane) (d : Opnd) (n : Nat) (f : Nat → Nat) (hm : c.modeOk d f = true) :
    c.put d n f = .next (c.after d n f noFlags) := Lane.write_eq c d n (fun l => (f l, 0)) hm

end Sys2Proof.Machine
end

