-- ==== Sys2Proof/Certificates/Slice0/Obligations.lean ====
section
/-! DEFINITION. The statements for the provers, one proposition each. -/

open Sys2Proof Sys2Proof.Machine

/-! ## The machine as a whole -/

/-- A step of a scalar stream whose code at the scalar PC decodes to an instruction is that instruction's meaning (R28, R74,
R385), in the state in which the front-end has chosen the group and keeps the instruction's words; an SX instruction takes
the next word with it (R95). `n` and `base` are the length and the place of the section that the group executes in: the
kernel's, or in a handler the handler's (R141). An instruction that waits is executed again from its words (R397). -/
def Obligations.ScalarStepRunsTheDecodedInstruction : Prop :=
  (∀ (s : State) (gid : Nat) (g : Group) (n base pa w1 : Nat) (i : Instr),
    s.nextTurn = .scalar gid → s.begin.group? gid = some g → s.begin.scalarMayIssue g → g.words = none →
    s.begin.scalarLen g = (s.begin, n) → s.begin.scalarBase g = (s.begin, base) → g.spc < n →
    s.begin.codeAt g (base + 4 * g.spc) = some pa →
    (if isSX (s.begin.codeWord pa / 2 ^ 24) then
        g.spc + 1 < n ∧ (s.begin.codeAt g (base + 4 * g.spc + 4)).map s.begin.codeWord = some w1
      else w1 = 0) →
    decodeScalar (s.begin.codeWord pa) w1 = .ok i →
    step s = exec i (s.begin.issuing g (s.begin.codeWord pa) w1)) ∧
  ∀ (s : State) (gid : Nat) (g : Group) (w0 w1 : Nat) (i : Instr),
    s.nextTurn = .scalar gid → s.begin.group? gid = some g → s.begin.scalarMayIssue g → g.words = some (w0, w1) →
    decodeScalar w0 w1 = .ok i → step s = exec i (s.begin.issuing g w0 w1)

/-- A step of a gang whose code at its lane PC decodes to an instruction is that instruction's meaning (R74, R77), and a step
of a unit is the unit's meaning. While a bank that holds a kernel constant of its launch changes its use, a gang stalls before
it issues (log 88). -/
def Obligations.LaneStepRunsTheDecodedInstruction : Prop :=
  (∀ (s : State) (gid st : Nat) (g : Group) (l : Launch) (p0 p1 p2 : Nat) (i : Instr),
    s.nextTurn = .lane gid st → s.begin.group? gid = some g → s.begin.launch? g.place.launch = some l →
    s.begin.laneMayIssue g (gangOf g.lanes.strands st) → s.begin.constsStall g = false →
    g.pcOf (gangOf g.lanes.strands st) < l.laneLen →
    s.begin.codeAt g (l.laneVa + 12 * g.pcOf (gangOf g.lanes.strands st)) = some p0 →
    s.begin.codeAt g (l.laneVa + 12 * g.pcOf (gangOf g.lanes.strands st) + 4) = some p1 →
    s.begin.codeAt g (l.laneVa + 12 * g.pcOf (gangOf g.lanes.strands st) + 8) = some p2 →
    decodeLane (s.begin.codeWord p0 + 2 ^ 32 * s.begin.codeWord p1 + 2 ^ 64 * s.begin.codeWord p2) = .ok i →
    step s = exec i s.begin) ∧
  ∀ (s : State) (e : Instr), s.nextTurn = .event e → e.stream = .unit → step s = exec e s.begin

/-- A word of the scalar section or of the lane section that breaks a rule of its encoding traps before it has any effect
(R98): its step is the trap with the code, 0x01 or 0x02, of the check that fails first. A scalar PC or a lane PC outside its
section traps with 0x01 (R28, R34). A lane word's trap waits for the gang's loads (R43), and for an earlier-issued instruction
that may still fault (R44), and lands the gang's results. A gang stalls, trap and all, while a bank that holds a kernel
constant of its launch changes its use (log 88). -/
def Obligations.IllegalWordsTrap : Prop :=
  (∀ (s : State) (gid : Nat) (g : Group) (n base pa w1 c : Nat),
    s.nextTurn = .scalar gid → s.begin.group? gid = some g → s.begin.scalarMayIssue g → g.words = none →
    s.begin.scalarLen g = (s.begin, n) → s.begin.scalarBase g = (s.begin, base) → g.spc < n →
    s.begin.codeAt g (base + 4 * g.spc) = some pa →
    (if isSX (s.begin.codeWord pa / 2 ^ 24) then
        g.spc + 1 < n ∧ (s.begin.codeAt g (base + 4 * g.spc + 4)).map s.begin.codeWord = some w1
      else w1 = 0) →
    decodeScalar (s.begin.codeWord pa) w1 = .ill c →
    step s = .next ((s.begin.chosen g).scalarTrap { g with due := none } c 0)) ∧
  (∀ (s : State) (gid : Nat) (g : Group) (n : Nat),
    s.nextTurn = .scalar gid → s.begin.group? gid = some g → s.begin.scalarMayIssue g → g.words = none →
    s.begin.scalarLen g = (s.begin, n) → n ≤ g.spc →
      step s = .next ((s.begin.chosen g).scalarTrap { g with due := none } 0x01 0)) ∧
  ∀ (s : State) (gid st : Nat) (g : Group) (l : Launch) (p0 p1 p2 : Nat),
    s.nextTurn = .lane gid st → s.begin.group? gid = some g → s.begin.launch? g.place.launch = some l →
    s.begin.laneMayIssue g (gangOf g.lanes.strands st) →
    let b := gangOf g.lanes.strands st
    let k : Lane := { s := s.begin, g := g, gang := b, pc := g.pcOf b, act := 0 }
    let traps (c : Nat) : Prop :=
      (k.trapWaits s.begin.nextId = true → step s = .next s.begin) ∧
      ∀ s' : State, k.trapWaits s.begin.nextId = false → s.begin.handlerReady (g.landOf b) = some s' →
        step s = .next (s'.setGroup ((g.landOf b).enterHandler (k.laneReq c 0)))
    (l.laneLen ≤ k.pc → traps 0x01) ∧
    ∀ c : Nat, s.begin.constsStall g = false → k.pc < l.laneLen → s.begin.codeAt g (l.laneVa + 12 * k.pc) = some p0 →
      s.begin.codeAt g (l.laneVa + 12 * k.pc + 4) = some p1 → s.begin.codeAt g (l.laneVa + 12 * k.pc + 8) = some p2 →
      decodeLane (s.begin.codeWord p0 + 2 ^ 32 * s.begin.codeWord p1 + 2 ^ 64 * s.begin.codeWord p2) = .ill c → traps c

/-- The words that the manual writes out decode to the instructions that it writes beside them. -/
def Obligations.WordsOfTheManualDecode : Prop :=
  let h : Hdr := { sw := false, rg := false, gc := false, gp := 7, gq := 7 }
  decodeWords [0x01050607] = .ok (.sadd 5 6 7) ∧
  decodeWords [0x40AFFFFD] = .ok (.sbr 10 (-3)) ∧
  decodeWords [0x20220409] = .ok (.scmp 2 2 4 9) ∧
  decodeWords [0x23430102] = .ok (.qlop 4 3 1 2) ∧
  decodeWords [0x1D040501, 0x00000C08] = .ok (.sbfx 4 5 true 8 12) ∧
  decodeWords [0x300A0244, 0x00000040] = .ok (.sld 10 2 .w32 .acq .dev false 0x40) ∧
  decodeWords [0x340C024D, 0] = .ok (.satom 12 2 .exch .acqrel .dev false 0) ∧
  decodeWords [0x37000058, 0] = .ok (.sfnc .rel .sys false) ∧
  decodeWords [0x4407FFFC] = .ok (.sloop 7 (-4)) ∧
  decodeWords [0xC1000A04] = .ok (.swrs 10 4) ∧
  decodeWords [0xC200002A] = .ok (.trap 0x2A) ∧
  decodeWords [0x00800803, 0xB87FF006, 0x10C01703] =
    .ok (.ffma { h with sw := true } .f32 .rz .clamp true (.v 3) (.v 1) (.v 2) (.v 3)) ∧
  decodeWords [0xF0002004, 0xB87FFFFF, 0x04000003] = .ok (.iadd h .i32 false false (.v 4) (.v 4) (.imm 1)) ∧
  decodeWords [0x00C01729, 0xB87FFFFE, 0x0A080003] = .ok (.icmp h .i32 2 (.p 1) (.v 2) (.v 3)) ∧
  decodeWords [0xFFC0580A, 0xB87FFFFF, 0x1DA00003] = .ok (.redl h (.flt .f32) 0 .rn .wrap false (.v 10) (.v 11)) ∧
  decodeWords [0xFFC04000, 0xB97FFFFF, 0x180C0003] = .ok (.cvt h (.flt .f32) (.flt .bf16x2) .rn .wrap false (.v 0) (.v 8)) ∧
  decodeWords [0x0140A006, 0xBA000010, 0x40650003] =
    .ok (.st h .b32 .rel .dev .dflt true (.v 6) (.v 20) (.v 5) 8) ∧
  decodeWords [0xF000A008, 0xBA000FFF, 0x44308003] =
    .ok (.atom h .add .n32 .acqrel .dev false .dflt false (.v 8) (.v 20) (.imm 1)) ∧
  decodeWords [0xFFFFFFFF, 0xBE7FFFFF, 0x40D00003] = .ok (.fence h .acq .dev true) ∧
  decodeWords [0x00012FFF, 0xB87FFFFE, 0x48C00003] = .ok (.lcall h 37)

/-- No bit of an encoding is dropped: the words that the encoder lays out for a well-formed instruction of either stream
decode to that instruction, with every operand at every value that its encoding admits. -/
def Obligations.DecodeOfEncodeIsTheInstruction : Prop :=
  ∀ i : Instr, i.WellFormed = true → i.stream ≠ .unit → decodeWords (encode i) = .ok i

/-- Every step keeps the memories in canonical form (the model's own form of memory, log 3). -/
def Obligations.EveryStepKeepsMemoryCanonical : Prop :=
  ∀ s t : State, s.memCanonical = true → step s = .next t → t.memCanonical = true

/-- Every step keeps the masks of every group well formed, resident or saved by pre-emption: EXEC is a part of LIVE, and neither
has a bit at or above the group size (R25). -/
def Obligations.EveryStepKeepsExecWithinLive : Prop :=
  ∀ s t : State, s.masksOk = true → step s = .next t → t.masksOk = true

/-- Device reset leaves the registers of the control BAR at the reset values of their tables, as the physical function reads
them: in each partition the Carillon settings (R227), PDEADLINE (R350), the token registers (R376) and the class masks (R372),
SLEWLIM in each cluster (R322), in each context HANDLER, HLEN, QUANTUM (R364) and host queue 0 (R341), in each core a watchpoint
comparator's control word (R191) and CWMASK of a partition (R374); device time is 0, no group is resident, and the boot ROM is about to
verify Anvil's image (R382). The memories are in canonical form (the model's own form of memory, log 3), and the invariant of
R25 holds. -/
def Obligations.ResetLeavesTheManualsValues : Prop :=
  let r : Nat → Nat := State.reset.reg 0
  State.reset.memCanonical = true ∧ State.reset.masksOk = true ∧ State.reset.groups = [] ∧ State.reset.ns = 0 ∧ State.reset.plat.boot = .verifying ∧
  (∀ p < 16, r (0x100000 + 0x10000 * p) = 0 ∧ r (0x100008 + 0x10000 * p) = 100000 ∧ r (0x100100 + 0x10000 * p) = 1000 ∧
    r (0x100200 + 0x10000 * p) = 2 ^ 16 ∧ r (0x100300 + 0x10000 * p) = 0xFFFF ∧ r (0x100308 + 0x10000 * p) = 0) ∧
  (∀ n < 72, r (0x600000 + 0x1000 * n) = 15) ∧
  (∀ x < 256, r (0x200248 + 0x4000 * x) = 0 ∧ r (0x200270 + 0x4000 * x) = 0 ∧ r (0x200278 + 0x4000 * x) = 0 ∧
    r (0x200400 + 0x4000 * x) = 0) ∧
  (∀ k < 432, r (0x700010 + 0x1000 * k) = 0 ∧ r (0x700100 + 0x1000 * k) = 0)

/-- A new group reads zero in every register and tile, false in p0 to p6 and q0 to q6, with clear flags, RN, an empty decision
queue, an idle lane stream, scalar PC 0, and LIVE and EXEC covering its lanes; a lane's LFSR holds the seed of its place in the
launch (R21, R56). p7 reads as 1 in every lane and q7 as true, whatever is written to them; the other predicates hold what was
written (R21, R122). -/
def Obligations.NewGroupsAndHardwiredPredicates : Prop :=
  (∀ (m : Meta) (p : Place), m.size ≤ 32 →
    (∀ n l, (Group.fresh m p).getV n l = 0) ∧ (∀ n, (Group.fresh m p).getS n = 0) ∧
    (∀ t r c, (Group.fresh m p).getTile t r c = 0) ∧
    (∀ n < 7, (Group.fresh m p).getP n = 0 ∧ (Group.fresh m p).getQ n = false) ∧
    (∀ l, (Group.fresh m p).getFlg l = 0) ∧ (Group.fresh m p).regs.rmode = 0 ∧ (Group.fresh m p).dq = [] ∧
    (Group.fresh m p).lanes.running = false ∧ (Group.fresh m p).spc = 0 ∧
    (∀ l, (Group.fresh m p).regs.live.getLsbD l = decide (l < m.size) ∧
      (Group.fresh m p).exec.getLsbD l = decide (l < m.size)) ∧
    ∀ l < m.size, (Group.fresh m p).getLfsr l =
      if 0x6C8E9CF5#32 ^^^ BitVec.ofNat 32 (32 * p.flat + l) = 0 then 1
      else 0x6C8E9CF5#32 ^^^ BitVec.ofNat 32 (32 * p.flat + l)) ∧
  ∀ (g : Group) (l : Nat) (b : Bool),
    g.getQ 7 = true ∧ g.setQ 7 b = g ∧ g.getP 7 = BitVec.allOnes 32 ∧ g.setP 7 l b = g ∧
    (∀ n < 7, ∀ k < 8, (g.setQ n b).getQ k = if k = n then b else g.getQ k) ∧
    (∀ n < 7, ∀ k < 8, ∀ j < 32, l < 32 →
      ((g.setP n l b).getP k).getLsbD j = if k = n ∧ j = l then b else (g.getP k).getLsbD j)

/-! ## Traps -/

/-- A trap enters the handler of the context (R45, R141): it starts at scalar word 0 with no lane block running, the group's
registers as they were, the trap state in the special registers, and the frame saved; a trap of the scalar stream leaves `%spc`
on the instruction that raised it, which is executed from its start again, and no lane word in `%lpc` (R43). A trap in a handler, and one with no handler to enter, end
the group: it leaves its core, and the context's error report records the cause, or counts it when one is recorded already (R46,
R141, R365). -/
def Obligations.TrapsEnterTheHandlerOrEndTheGroup : Prop :=
  (∀ (s s' : State) (g : Group) (t : TrapReq), s.handlerReady g = some s' →
    let h := g.enterHandler t
    let sp (r : Nat) : Option Word := s'.srdsValue h r
    s.takeTrap g t = s'.setGroup h ∧ h.inHandler = true ∧ h.spc = 0 ∧ h.lanes.running = false ∧ h.dq = [] ∧
    h.regs = g.regs ∧ h.pend = g.pend ∧ h.uas = g.uas ∧
    sp 0x08 = some t.exec ∧ sp 0x0B = some t.fltmask ∧ sp 0x0C = some t.wmask ∧
    sp 0x0D = some (BitVec.ofNat 32 (t.cause + 2 ^ 8 * t.subc + 2 ^ 16 * t.swc)) ∧
    sp 0x0E = some (BitVec.ofNat 32 t.spc) ∧ sp 0x0F = some (BitVec.ofNat 32 t.lpc) ∧
    (∃ f, h.trap = some f ∧ f.frame = g.lanes ∧ f.dq = g.dq ∧ f.wait = g.wait ∧ f.words = g.words ∧ f.gang = t.gang) ∧
    ∀ cause subc, s.scalarTrap g cause subc =
      s'.setGroup (Group.enterHandler { g with wait := none, words := none } (g.scalarReq cause subc))) ∧
  ∀ (s : State) (g : Group) (t : TrapReq), s.handlerReady g = none →
    ∃ s' : State, s.takeTrap g t = s'.terminate g (if g.inHandler then 1 else 2) t.cause t.subc ∧ s'.groups = s.groups ∧
      s'.plat = s.plat ∧
      (s.takeTrap g t).groups = s.groups.filter (fun h => h.gid != g.gid) ∧
      ((s.takeTrap g t).ctx g.place.ctx).err =
        if (s.ctx g.place.ctx).err.valid then
          { (s.ctx g.place.ctx).err with lost := min 255 ((s.ctx g.place.ctx).err.lost + 1) }
        else { valid := true, kind := if g.inHandler then 1 else 2, cause := t.cause, subc := t.subc, lost := 0, group := g.gid }

/-- The trap instructions take their trap: TRAP with its software code, BKPT, and in a gang with an active lane LTRAP and
LBKPT. The stream resumes after them; the lane forms wait for the gang's loads and do nothing without an active lane (R140,
R198); the trap of a gang also waits for an earlier-issued instruction that may still fault (R44). -/
def Obligations.SoftwareTrapsEnterTheHandler : Prop :=
  (∀ (s s' : State) (g : Group) (imm : Nat), s.scalarReady [] = some g → s.handlerReady g = some s' →
    exec (.trap imm) s =
      .next (s'.setGroup (g.enterHandler { g.scalarReq 0x11 0 with swc := imm, spc := g.spc + 1 })) ∧
    exec .bkpt s = .next (s'.setGroup (g.enterHandler { g.scalarReq 0x12 0 with spc := g.spc + 1 }))) ∧
  ∀ (s s' : State) (h : Hdr) (c : Lane) (code : Nat), s.laneReady h.rg h.sw (some h) [] [] = some c →
    (c.act = 0 → exec (.ltrap h code) s = .next (c.done []) ∧ exec (.lbkpt h) s = .next (c.done [])) ∧
    (c.act ≠ 0 → c.trapWaits c.s.nextId = false → c.s.handlerReady (c.g.landOf c.gang) = some s' →
      exec (.ltrap h code) s = .next (s'.setGroup ((c.g.landOf c.gang).enterHandler
        { c.laneReq 0x11 0 with swc := code, lpc := c.pc + 1 })) ∧
      exec (.lbkpt h) s = .next (s'.setGroup ((c.g.landOf c.gang).enterHandler { c.laneReq 0x12 0 with lpc := c.pc + 1 }))) ∧
    (c.act ≠ 0 → c.trapWaits c.s.nextId = true → exec (.ltrap h code) s = .next c.s ∧ exec (.lbkpt h) s = .next c.s)

/-- TRET restores the frame and resumes at %spc and %lpc (R142): the gang that trapped stands at %lpc, the lanes left in
%fltmask execute a faulting access again and no others (R175), a watchpoint's access goes on unwatched (R192), and lanes that
ended in the handler stay ended (R36). A wait goes on with the words of its instruction unless the handler wrote %spc (R397). -/
def Obligations.TretRestoresTheFrame : Prop :=
  ∀ (s : State) (g : Group) (t : Trap) (l : Launch), s.scalarReady [] = some g → g.trap = some t →
    g.lanes.running = false → s.launch? g.place.launch = some l → t.spc < l.scalLen →
    (t.isLane = true → t.lpc < l.laneLen) →
    ∃ h : Group, exec .tret s = .next ((if t.spcWritten then s.withdraw g else s).setGroup h) ∧ h.trap = none ∧
      h.spc = t.spc ∧ h.dq = t.dq ∧ h.regs = g.regs ∧ h.pend = g.pend ∧ h.gid = g.gid ∧
      h.wait = (if t.spcWritten then none else t.wait) ∧
      (t.spcWritten = true → h.words = none) ∧ (t.spcWritten = false → t.wait ≠ none → h.words = t.words) ∧ h.holdFirst = g.holdTrap ∧
      ∃ (r : List (BitVec 8 × Mask)) (w : BitVec 8),
        h.lanes = Lanes.prune g.regs.live g.lanesLeft { t.frame with
          strands := modStrands t.gang (fun _ x => { x with pc := t.lpc, reached := false }) t.frame.strands
          replay := r
          wpSkip := w } ∧
        (t.gang ≠ 0 → ∀ e, e.1 &&& t.gang = 0 → (e ∈ r ↔ e ∈ t.frame.replay)) ∧
        (t.isLane = true → t.lpc = t.origin → t.faulted ≠ 0 →
          ∀ e ∈ r, e.1 &&& t.gang ≠ 0 → e = (t.gang, t.fltmask)) ∧
        (t.isLane = true → t.lpc = t.origin → t.faulted ≠ 0 → (t.gang, t.fltmask) ∈ r) ∧
        (t.isLane = true → t.lpc ≠ t.origin → ∀ e ∈ r, e.1 &&& t.gang = 0) ∧
        (w &&& t.gang = if t.isLane && t.cause == 0x10 && t.lpc == t.origin then t.gang else 0)

/-- Uses that only a handler may make trap outside one, LGO traps inside one, and the uses that the table of special registers
marks as a trap always do (R98, R134, R137). That SRDS and SWRS take this trap before their register operand is checked is the
model's choice (log 58). -/
def Obligations.IllegalUsesTrap : Prop :=
  ∀ (s : State) (g : Group), s.scalarTurn? = some g →
    (g.trap = none →
      (∀ a n start, exec (.lgot a n start) s = .next (s.scalarTrap g 0x01 0)) ∧
      exec .tret s = .next (s.scalarTrap g 0x01 0) ∧
      (∀ d, ∀ r ∈ [0x0B, 0x0C, 0x0D, 0x0E, 0x0F], exec (.srds d r) s = .next (s.scalarTrap g 0x01 0)) ∧
      ∀ b, ∀ r ∈ [0x0B, 0x0E, 0x0F], exec (.swrs r b) s = .next (s.scalarTrap g 0x01 0)) ∧
    (g.trap ≠ none → ∀ a n start, exec (.lgo a n start) s = .next (s.scalarTrap g 0x01 0)) ∧
    (∀ d, ∀ r ∈ [0x00, 0x01, 0x13, 0x1C, 0x1D, 0x1E, 0x1F], exec (.srds d r) s = .next (s.scalarTrap g 0x01 0)) ∧
    ∀ b, ∀ r < 32, r ∉ [0x09, 0x0A, 0x0B, 0x0E, 0x0F] → exec (.swrs r b) s = .next (s.scalarTrap g 0x01 0)

/-- A register beyond the group's allocation traps with code 0x02: a scalar computation that names one, an indexed move that
reaches one, and, once the gang's loads are in, a lane instruction of any form that has such an operand, each operand taken with
all the registers that it spans (R20, R81, R98, R121). That 0x02 comes before the trap 0x01 of a handler-only special register named
outside a handler, and in GTRN before that of a group that is too small, is the model's choice, for R98 orders neither (log 58). -/
def Obligations.UnallocatedRegistersTrap : Prop :=
  (∀ (s : State) (g : Group) (i : Instr) (w n : List Nat), s.scalarTurn? = some g → i.scalarShape = some (w, n) →
    (∃ r ∈ n, g.info.sregs ≤ r) → exec i s = .next (s.scalarTrap g 0x02 0)) ∧
  (∀ (s : State) (g : Group) (d a off : Nat), s.scalarReady [d, a] = some g →
    (g.info.sregs ≤ (g.getS a).toNat + off → exec (.smvxf d a off) s = .next (s.scalarTrap g 0x02 0)) ∧
    (g.info.sregs ≤ (g.getS d).toNat + off → exec (.smvxt d a off) s = .next (s.scalarTrap g 0x02 0))) ∧
  ∀ (s s' : State) (i : Instr) (h : Hdr) (c : Lane) (dsts srcs : List (Opnd × Nat)), s.laneShape i = some (h, dsts, srcs) →
    s.laneReady h.rg h.sw (some h) [] [] = some c → c.trapWaits c.s.nextId = false →
    c.s.handlerReady (c.g.landOf c.gang) = some s' → (dsts ++ srcs).all c.g.allocated = false →
    ∃ r, exec i s =
      .next (s'.setGroup (({ c.g with lanes := { c.g.lanes with replay := r } }.landOf c.gang).enterHandler
        (c.laneReq 0x02 0)))

/-! ## The scalar stream -/

/-- The three-register instructions write s(D) as the table of R115 says, with a and b the values of s(A) and s(B) before,
whichever of the three coincide. -/
def Obligations.ScalarThreeRegister : Prop :=
  ∀ (s : State) (g : Group) (d x y : Nat), s.scalarReady [d, x, y] = some g →
    let a := g.getS x
    let b := g.getS y
    let r (w : Word) : Out := .next (s.scalarDone (g.setS d w) 1)
    exec (.sadd d x y) s = r (a + b) ∧ exec (.ssub d x y) s = r (a - b) ∧ exec (.smul d x y) s = r (a * b) ∧
    exec (.smulh d x y) s = r (((a.signExtend 64 * b.signExtend 64) >>> 32).setWidth 32) ∧
    exec (.smulhn d x y) s = r (((a.setWidth 64 * b.setWidth 64) >>> 32).setWidth 32) ∧
    exec (.sand d x y) s = r (a &&& b) ∧ exec (.sor d x y) s = r (a ||| b) ∧ exec (.sxor d x y) s = r (a ^^^ b) ∧
    exec (.sshl d x y) s = r (if 32 ≤ b.toNat then 0 else a <<< b) ∧
    exec (.sshr d x y) s = r (if 32 ≤ b.toNat then 0 else a >>> b) ∧
    exec (.ssha d x y) s =
      r (if 32 ≤ b.toNat then (if a.msb then BitVec.allOnes 32 else 0) else a.sshiftRight b.toNat) ∧
    exec (.smin d x y) s = r (BitVec.ofInt 32 (min a.toInt b.toInt)) ∧
    exec (.smax d x y) s = r (BitVec.ofInt 32 (max a.toInt b.toInt)) ∧
    exec (.sminn d x y) s = r (BitVec.ofNat 32 (min a.toNat b.toNat)) ∧
    exec (.smaxn d x y) s = r (BitVec.ofNat 32 (max a.toNat b.toNat))

/-- The instructions with one source, a pair or a count field (R116: the 64-bit forms read both pairs before they write) and
those with an immediate, which act on their destination in place (R117). -/
def Obligations.ScalarPairsAndImmediates : Prop :=
  (∀ (s : State) (g : Group) (d x n : Nat), s.scalarReady [d, x] = some g →
    let a := g.getS x
    let r (w : Word) : Out := .next (s.scalarDone (g.setS d w) 1)
    exec (.sshli d x n) s = r (a <<< n) ∧ exec (.sshri d x n) s = r (a >>> n) ∧
    exec (.sshai d x n) s = r (a.sshiftRight n) ∧ exec (.smov d x) s = r a ∧
    exec (.spopc d x) s = r (BitVec.ofNat 32 ((List.range 32).filter a.getLsbD).length) ∧
    ∃ z ≤ 32, exec (.sclz d x) s = r (BitVec.ofNat 32 z) ∧ (∀ i < z, a.getLsbD (31 - i) = false) ∧
      (z < 32 → a.getLsbD (31 - z) = true)) ∧
  (∀ (s : State) (g : Group) (d x y : Nat), s.scalarReady [d, d + 1, x, x + 1, y, y + 1] = some g →
    let a := g.getS (x + 1) ++ g.getS x
    let b := g.getS (y + 1) ++ g.getS y
    let r (w : DWord) : Out :=
      .next (s.scalarDone ((g.setS d (w.setWidth 32)).setS (d + 1) ((w >>> 32).setWidth 32)) 1)
    exec (.sadd64 d x y) s = r (a + b) ∧ exec (.ssub64 d x y) s = r (a - b)) ∧
  ∀ (s : State) (g : Group) (x i : Nat), s.scalarReady [x] = some g → i < 65536 →
    let d := g.getS x
    let sx := (BitVec.ofNat 16 i).signExtend 32
    let zx := (BitVec.ofNat 16 i).setWidth 32
    let r (w : Word) : Out := .next (s.scalarDone (g.setS x w) 1)
    exec (.saddi x i) s = r (d + sx) ∧ exec (.smovi x i) s = r sx ∧ exec (.slui x i) s = r (zx <<< 16) ∧
    exec (.sandi x i) s = r (d &&& zx) ∧ exec (.sori x i) s = r (d ||| zx)

/-- SBFX, SSEL, SLDI and the indexed moves (R118 to R121). -/
def Obligations.ScalarFieldsSelectAndIndexedMoves : Prop :=
  (∀ (s : State) (g : Group) (d x pos len : Nat) (sx : Bool), s.scalarReady [d, x] = some g → 1 ≤ len → pos + len ≤ 32 →
    let f := (g.getS x >>> pos) &&& BitVec.ofNat 32 (2 ^ len - 1)
    exec (.sbfx d x sx pos len) s =
      .next (s.scalarDone (g.setS d (if sx && f.getLsbD (len - 1) then f - BitVec.ofNat 32 (2 ^ len) else f)) 2)) ∧
  (∀ (s : State) (g : Group) (d x y c w : Nat),
    let cond := g.getQ (c % 8) != c.testBit 3
    (s.scalarReady [d, x, y] = some g → exec (.ssel d x c (.reg y)) s =
      .next (s.scalarDone (g.setS d (if cond then g.getS x else g.getS y)) 2)) ∧
    (s.scalarReady [d, x] = some g → exec (.ssel d x c (.imm w)) s =
      .next (s.scalarDone (g.setS d (if cond then g.getS x else BitVec.ofNat 32 w)) 2))) ∧
  (∀ (s : State) (g : Group) (d w : Nat),
    (s.scalarReady [d] = some g → exec (.sldi d false w) s = .next (s.scalarDone (g.setS d (BitVec.ofNat 32 w)) 2)) ∧
    (s.scalarReady [d, d + 1] = some g → exec (.sldi d true w) s =
      .next (s.scalarDone ((g.setS d (BitVec.ofNat 32 w)).setS (d + 1) (if w.testBit 31 then BitVec.allOnes 32 else 0)) 2))) ∧
  ∀ (s : State) (g : Group) (d x off i : Nat), s.scalarReady [d, x, i] = some g →
    (i = (g.getS x).toNat + off → exec (.smvxf d x off) s = .next (s.scalarDone (g.setS d (g.getS i)) 1)) ∧
    (i = (g.getS d).toNat + off → exec (.smvxt d x off) s = .next (s.scalarDone (g.setS i (g.getS x)) 1))

/-- The compares and QLOP write the predicate that they name, with R93's conditions; QLOP's result is bit 2·qa + qb of its
table, and SNOP changes nothing but the PC (R93, R122, R123, R144). -/
def Obligations.ScalarPredicates : Prop :=
  ∀ (s : State) (g : Group) (x y i : Nat),
    let conds (a b : Word) : List Bool :=
      [decide (a = b), decide (a ≠ b), decide (a.toInt < b.toInt), decide (a.toInt ≤ b.toInt), decide (b.toInt < a.toInt),
       decide (b.toInt ≤ a.toInt), decide (a.toNat < b.toNat), decide (a.toNat ≤ b.toNat), decide (b.toNat < a.toNat),
       decide (b.toNat ≤ a.toNat), decide (a &&& b ≠ 0), decide (a &&& b = 0)]
    (s.scalarReady [x, y] = some g → ∀ cc < 12, ∀ q < 8,
      exec (.scmp cc q x y) s = .next (s.scalarDone (g.setQ q ((conds (g.getS x) (g.getS y)).getD cc false)) 1)) ∧
    (s.scalarReady [x] = some g → i < 256 → ∀ cc < 12, ∀ q < 8, exec (.scmpi cc q x i) s = .next (s.scalarDone
      (g.setQ q ((conds (g.getS x) ((BitVec.ofNat 8 i).signExtend 32)).getD cc false)) 1)) ∧
    (s.scalarReady [] = some g →
      (∀ t d a b, exec (.qlop t d a b) s =
        .next (s.scalarDone (g.setQ d (t.testBit (2 * (g.getQ a).toNat + (g.getQ b).toNat))) 1)) ∧
      exec .snop s = .next (s.scalarDone g 1))

/-- Scalar control flow. A branch not taken goes on; taken it goes to PC + OFF20, and SCALL leaves the word after it in s63
(R131). SRET goes to s63 and SJMPR to s(A) (R132). SLOOP counts s(D) down and branches while it is not 0, so a counter of 0
wraps and branches (R133). A target outside the section traps with 0x01, and nothing is written. -/
def Obligations.ScalarControlFlow : Prop :=
  ∀ (s s' : State) (g : Group) (c a d n : Nat) (off : Int), s.scalarLen g = (s', n) →
    let taken : Prop := c = 7 ∨ (c ≠ 15 ∧ g.getQ (c % 8) ≠ c.testBit 3)
    let go (g' : Group) (t : Int) : Out :=
      if 0 ≤ t ∧ t < n then .next (s'.setGroup (g'.goTo t.toNat)) else .next (s'.scalarTrap g 0x01 0)
    (s.scalarReady [] = some g →
      (taken → exec (.sbr c off) s = go g (g.spc + off)) ∧ (¬ taken → exec (.sbr c off) s = .next (s.scalarDone g 1))) ∧
    (s.scalarReady [63] = some g →
      (taken → exec (.scall c off) s = go (g.setS 63 (BitVec.ofNat 32 (g.spc + 1))) (g.spc + off)) ∧
      (¬ taken → exec (.scall c off) s = .next (s.scalarDone g 1)) ∧ exec .sret s = go g (g.getS 63).toNat) ∧
    (s.scalarReady [a] = some g → exec (.sjmpr a) s = go g (g.getS a).toNat) ∧
    (s.scalarReady [d] = some g →
      (g.getS d = 1 → exec (.sloop d off) s = .next (s.scalarDone (g.setS d 0) 1)) ∧
      (g.getS d ≠ 1 → exec (.sloop d off) s = go (g.setS d (g.getS d - 1)) (g.spc + off)))

/-- LGO checks that A + n − 1 is allocated, copies s(A) to s(A + n − 1) and appends its block to the decision queue, or waits while the queue holds 16 (R30, R134); LGOT
starts a handler block on the live lanes of the faulting gang at once when no handler block runs (R136); LWAIT completes when no
block of the group is queued or running and no lane load still owes a register or tile element that the scalar stream sees; the results that it then
sees land (R32, R33, R59, R135, R303). Which results LWAIT waits for and lands, vector and predicate results staying pending, is
the model's choice (log 23). -/
def Obligations.LaneBlocksAndLwait : Prop :=
  ((∀ (s : State) (g : Group) (a n start : Nat), s.scalarReady (lgoRegs a n) = some g → g.trap = none →
    start < s.laneLen g → n ≤ 8 →
    let e : QBlock := { start := start, k := (List.range 8).map fun i => if i < n then g.getS (a + i) else 0, oldS := [] }
    exec (.lgo a n start) s =
      if g.dq.length < 16 then .next (s.scalarDone { g with dq := g.dq ++ [e] } 2) else .next s) ∧
  ∀ (s : State) (g : Group) (t : Trap) (a n start : Nat), s.scalarReady (lgoRegs a n) = some g →
    g.trap = some t → start < s.laneLen g → n ≤ 8 → g.lanes.running = false →
    ∃ x : Lanes, exec (.lgot a n start) s = .next (s.scalarDone { g with lanes := x } 2) ∧
      (x.running = true ↔ g.regs.live &&& strandLanes t.gang ≠ 0) ∧
      (∀ e ∈ x.strands, e.pc = start ∧ e.stack = [] ∧ e.gang = 0) ∧
      (∀ l < 4 * g.strandCount, (g.regs.live &&& strandLanes t.gang).getLsbD l =
        ((x.strands[l / 4]?).map fun e => e.active.getLsbD (l % 4)).getD false) ∧
      (∀ i < 8, x.k.getD i 0 = if i < n then g.getS (a + i) else 0)) ∧
  ∀ (s : State) (g : Group), s.scalarReady [] = some g → (g.async = none ∨ g.trap ≠ none) →
    g.lanes.running = false → (g.trap = none → g.dq = []) →
    (∀ a ∈ s.mem.flight, a.grp = g.gid → a.scalar = false → (a.handler = true ∨ g.trap = none) →
      ∀ d ∈ a.dests, scalarSees d = false) →
    ∃ h : Group, exec .lwait s = .next (s.scalarDone h 1) ∧ h.pend = g.pend.filter (fun r => !scalarSees r.dest) ∧
      h = { g with regs := h.regs, pend := h.pend } ∧ (∀ n l, h.getV n l = g.getV n l) ∧
      ∀ n, (∀ r ∈ g.pend, r.dest ≠ .s n) → h.getS n = g.getS n

/-- SRDS gives the value that R137's table names, with the frame that it changes nothing else; reading the low word of device
time keeps the high word of the same instant for the read that follows (R138). `%genst` is 0 with no loop open, and else holds
the fields of R254, for a loop whose numbers fit their fields; FILL with no fill frame and CUR in the producer are open. That a
frame which the consumer reads still counts as ready, and is the oldest, is the model's choice (log 71). -/
def Obligations.SpecialRegisterReads : Prop :=
  ∀ (s : State) (g : Group) (d : Nat), s.scalarReady [d] = some g →
    let rd (r : Nat) (w : Word) : Prop := exec (.srds d r) s = .next (s.scalarDone { g.setS d w with nsLatch := none } 1)
    let num (n : Nat) : Word := BitVec.ofNat 32 n
    rd 0x02 (num g.place.grp) ∧ rd 0x03 (num g.place.team) ∧ rd 0x04 (num g.place.bx) ∧ rd 0x05 (num g.place.byy) ∧
    rd 0x06 (num g.place.bz) ∧ rd 0x07 (num g.place.ngrp) ∧
    rd 0x08 (match g.trap with | none => g.regs.live | some t => t.exec) ∧
    (∃ w, rd 0x09 w ∧ ∀ b < 32, w.getLsbD b = true ↔ ∃ l < 32, g.regs.live.getLsbD l = true ∧ (g.getFlg l).getLsbD b = true) ∧
    rd 0x0A (num g.regs.rmode) ∧
    (∀ t, g.trap = some t → rd 0x0B t.fltmask ∧ rd 0x0C t.wmask ∧
      rd 0x0D (num (t.cause + 2 ^ 8 * t.subc + 2 ^ 16 * t.swc)) ∧ rd 0x0E (num t.spc) ∧ rd 0x0F (num t.lpc)) ∧
    rd 0x10 (num (s.core g.place.core).clka) ∧
    exec (.srds d 0x11) s =
      .next (s.scalarDone { g.setS d (num s.ns) with nsLatch := some (num (s.ns / 2 ^ 32)) } 1) ∧
    rd 0x12 (g.nsLatch.getD (num (s.ns / 2 ^ 32))) ∧
    rd 0x14 (num g.place.core) ∧ rd 0x15 (num (clusterOf g.place.core)) ∧ rd 0x16 (num (sectorOf g.place.core)) ∧
    rd 0x17 (num g.place.part) ∧ rd 0x18 (num g.place.ctx) ∧ rd 0x1A (num (g.batch % 65536)) ∧ rd 0x1B (num g.uas) ∧
    ∃ w, exec (.srds d 0x19) s = .next (s.drawn.scalarDone { g.setS d w with nsLatch := none } 1) ∧
      (g.gen = none → w = 0) ∧
      ∀ n, g.gen = some n → n.vw < 4 → n.thr < 2 → n.cur < 2 → n.fc < 64 → n.size < 64 → n.ready.headD 0 < 2 →
        let nrdy := (if n.st0 = .ready then 1 else 0) + if n.st1 = .ready then 1 else 0
        let reading := n.mode ≠ .producer ∧ (if n.cur = 0 then n.st0 else n.st1) = .ready
        w.toNat % 4 = (match n.mode with | .producer => 1 | .consumer => 2 | .drain => 3) ∧
        w.toNat / 4 % 4 = n.vw ∧ w.toNat / 16 % 2 = n.thr ∧
        (w.getLsbD 6 = true ↔ n.st0 = .fill ∨ n.st1 = .fill) ∧
        (w.getLsbD 6 = true → (w.getLsbD 5 = true ↔ n.st1 = .fill)) ∧
        w.toNat / 2 ^ 7 % 4 = nrdy ∧
        (0 < nrdy → w.toNat / 2 ^ 9 % 2 = if reading then n.cur else n.ready.headD 0) ∧
        (n.mode ≠ .producer → w.toNat / 2 ^ 10 % 2 = n.cur) ∧
        w.toNat / 2 ^ 11 % 64 = n.fc ∧ w.toNat / 2 ^ 17 % 64 = n.size ∧ w.getLsbD 23 = n.pend.isSome ∧ w.toNat < 2 ^ 24

/-- SWRS completes for every register that it may write, and writes the flags of every live lane, the rounding mode, and in a
handler `%fltmask` (the lanes that faulted only), `%spc` and `%lpc`; an invalid rounding mode traps (R54, R58, R59, R137). -/
def Obligations.SpecialRegisterWrites : Prop :=
  ∀ (s : State) (g : Group) (b : Nat), s.scalarReady [b] = some g →
    let w := g.getS b
    (∀ r, r = 0x09 ∨ (r = 0x0A ∧ w.toNat % 8 < 6) ∨ (g.trap ≠ none ∧ (r = 0x0B ∨ r = 0x0E ∨ r = 0x0F)) →
      ∃ h : Group, exec (.swrs r b) s = .next (s.scalarDone h 1) ∧ h.regs.s = g.regs.s ∧ h.regs.v = g.regs.v ∧
        h.regs.live = g.regs.live ∧ h.lanes = g.lanes ∧ h.gid = g.gid ∧ s.sameBytes (s.scalarDone h 1)) ∧
    (∃ h : Group, exec (.swrs 0x09 b) s = .next (s.scalarDone h 1) ∧ h = { g with regs := { g.regs with flg := h.regs.flg } } ∧
      ∀ l < 32, h.getFlg l = if g.regs.live.getLsbD l then w &&& 63 else g.getFlg l) ∧
    (6 ≤ w.toNat % 8 → exec (.swrs 0x0A b) s = .next (s.scalarTrap g 0x01 0)) ∧
    (w.toNat % 8 < 6 → ∃ h : Group, exec (.swrs 0x0A b) s = .next (s.scalarDone h 1) ∧ h.regs.rmode = w.toNat % 8 ∧
      h = { g with regs := { g.regs with rmode := h.regs.rmode }, oldS := h.oldS, dq := h.dq, trap := h.trap } ∧
      h.dq.map (·.noOld) = g.dq.map (·.noOld) ∧ h.trap.map (·.noOld) = g.trap.map (·.noOld)) ∧
    ∀ t, g.trap = some t →
      exec (.swrs 0x0B b) s = .next (s.scalarDone { g with trap := some { t with fltmask := w &&& t.faulted } } 1) ∧
      exec (.swrs 0x0E b) s = .next (s.scalarDone { g with trap := some { t with spc := w.toNat, spcWritten := true } } 1) ∧
      exec (.swrs 0x0F b) s =
        .next (s.scalarDone { g with trap := some (if t.isLane then { t with lpc := w.toNat } else t) } 1)

/-- EXIT completes when the group's lane blocks, its commands and its acknowledgements are done: the group leaves its core,
and no other group changes (R22, R143). While one of them is outstanding it waits and changes nothing; in a handler the lane blocks
are the handler's alone. -/
def Obligations.ExitRetiresTheGroup : Prop :=
  ∀ (s : State) (g : Group), s.scalarReady [] = some g → (g.async = none ∨ g.trap ≠ none) →
    (((∃ c ∈ s.units.cmds, c.grp = g.gid ∧ c.launch = g.place.launch ∧ c.blk = g.place.blk ∧ c.team = g.place.team) ∨
        g.uas ≠ 0 ∨ g.lanes.running = true ∨ (g.trap = none ∧ g.dq ≠ []) ∨
        ∃ a ∈ s.mem.flight, a.grp = g.gid ∧ a.scalar = false ∧ (a.handler = true ∨ g.trap = none) ∧
          ∃ d ∈ a.dests, scalarSees d = true) → exec .exit s = .next s) ∧
    (s.lanesDone g = true → s.groupCmds g = [] → g.uas = 0 →
    ∃ t : State, exec .exit s = .next t ∧ t.groups = s.groups.filter (fun h => h.gid != g.gid) ∧
      (∀ a ∈ t.mem.flight, a.grp = g.gid → g.gid = noGroup) ∧
      (∀ k ∈ t.units.barriers, k.launch = g.place.launch → k.blk = g.place.blk → g.gid ∉ k.arrived) ∧
      t.ns = s.ns ∧ t.mem.hbm = s.mem.hbm)

/-- The frame of the scalar instructions that compute on registers alone: the group's next state differs from its state in
the registers they write, its predicates and PC, and the model's record of overwritten values (R33); no byte of memory
changes. -/
def Obligations.ScalarComputationFrame : Prop :=
  ∀ (s : State) (g : Group) (i : Instr) (w n : List Nat), i.scalarShape = some (w, n) → s.scalarReady n = some g →
    ∃ h : Group, exec i s = .next (s.setGroup h) ∧
      h = { g with
        regs := { g.regs with s := h.regs.s, q := h.regs.q }
        spc := h.spc
        wait := h.wait
        words := h.words
        oldS := h.oldS
        dq := h.dq
        trap := h.trap } ∧
      h.dq.map (·.noOld) = g.dq.map (·.noOld) ∧ h.trap.map (·.noOld) = g.trap.map (·.noOld) ∧
      (∀ r, r ∉ w → h.getS r = g.getS r) ∧ (w ≠ [] → h.regs.q = g.regs.q) ∧ s.sameBytes (s.setGroup h)

/-- A scalar load, store or atomic that passes its checks issues its access at the effective address, with its width, data
and destinations (R124 to R127); no byte of memory changes and no register but the PC and `%uas`. One to a scratch bank that is to
change its use stalls (R375). -/
def Obligations.ScalarAccessesIssue : Prop :=
  ∀ (s s' : State) (g : Group) (d a : Nat) (o : MOrd) (sc : Scope) (prom : Bool) (off : Int) (l : Loc),
    (∀ h ∈ g.holds, h.own ≠ 0) →
    let issues (i : Instr) (rs : List Nat) (w : Want) (n : Nat) (prom : Bool) (k : AccKind) (f : Access → Access) : Prop :=
      s.scalarReady (rs ++ [a, a + 1]) = some g →
      s.check g.agent w (g.getS64 a + BitVec.ofInt 64 off).toNat n = (s', .ok l) →
        (s'.bankStalls l = true → exec i s = .next s) ∧ (s'.bankStalls l = false →
        let p := s'.ordered g o sc prom
        let t := p.1.sent g (f (g.scalarAcc p o sc k l n))
        exec i s = .next t ∧ s.sameBytes t)
    (∀ w : SW, issues (.sld d a w o sc prom off) [d] .load (swBytes w) prom .load fun x => { x with dests := [.s d] }) ∧
    issues (.sld64 d a o sc prom off) [d, d + 1] .load 8 prom .load (fun x => { x with dests := [.s d, .s (d + 1)] }) ∧
    (∀ w : SW, issues (.sst d a w o sc off) [d] .store (swBytes w) false .store fun x =>
      { x with data := leBytes (swBytes w) (g.getS d).toNat }) ∧
    issues (.sst64 d a o sc off) [d, d + 1] .store 8 false .store (fun x =>
      { x with data := leBytes 4 (g.getS d).toNat ++ leBytes 4 (g.getS (d + 1)).toNat }) ∧
    (∀ op, issues (.satom d a op o sc prom off) [d] (.atomic (op == .add || op == .exch)) 4 prom (.rmwScalar op) fun x =>
      { x with data := leBytes 4 (g.getS d).toNat, dests := [.s d] }) ∧
    issues (.scas d a o sc prom off) [d, d + 1] (.atomic true) 4 prom .cas fun x =>
      { x with data := leBytes 4 (g.getS d).toNat, data2 := leBytes 4 (g.getS (d + 1)).toNat, dests := [.s d] }

/-- The checks of an access before its data come in R124's order: canonical form 0x05, alignment 0x03, translation 0x04,
permission 0x05, target 0x06; a failing one traps with its code and issues nothing. Where neither TLB has an entry a walk that meets
an entry with V = 0 is a missing translation, a malformed entry fails the permission check, and a table outside the partition's memory
the target check (R386). The target check turns away types 6 and 7, memory of another partition, an offset beyond the team's scratch,
and atomics and bytes where they may not go. -/
def Obligations.AccessChecksTrap : Prop :=
  (∀ (s s' : State) (g : Group) (d a st c : Nat) (o : MOrd) (sc : Scope) (prom : Bool) (off : Int),
    (∀ h ∈ g.holds, h.own ≠ 0) →
    let traps (i : Instr) (rs : List Nat) (w : Want) (n : Nat) : Prop :=
      s.scalarReady (rs ++ [a, a + 1]) = some g →
      s.check g.agent w (g.getS64 a + BitVec.ofInt 64 off).toNat n = (s', .fail st c) → exec i s = .next (s'.scalarTrap g c 0)
    (∀ w : SW, traps (.sld d a w o sc prom off) [d] .load (swBytes w)) ∧
    traps (.sld64 d a o sc prom off) [d, d + 1] .load 8 ∧
    (∀ w : SW, traps (.sst d a w o sc off) [d] .store (swBytes w)) ∧
    traps (.sst64 d a o sc off) [d, d + 1] .store 8 ∧
    (∀ op, traps (.satom d a op o sc prom off) [d] (.atomic (op == .add || op == .exch)) 4) ∧
    traps (.scas d a o sc prom off) [d, d + 1] (.atomic true) 4) ∧
  ∀ (s : State) (x : Agent) (w : Want) (va n : Nat), 0 < n →
    (BitVec.ofNat 7 (va / 2 ^ 57) ≠ (if va.testBit 56 then BitVec.allOnes 7 else 0) → s.check x w va n = (s, .fail 1 0x05)) ∧
    (BitVec.ofNat 7 (va / 2 ^ 57) = (if va.testBit 56 then BitVec.allOnes 7 else 0) → va % n ≠ 0 →
      s.check x w va n = (s, .fail 2 0x03)) ∧
    (BitVec.ofNat 7 (va / 2 ^ 57) = (if va.testBit 56 then BitVec.allOnes 7 else 0) → va % n = 0 →
      (∀ e ∈ s.mem.tlb, e.core = x.core ∨ e.core = tlb2 (clusterOf x.core) → e.hits x.ctx (va % 2 ^ 57) = false) →
      let root := (s.ctx x.ctx).ptroot
      let entry := leNat (s.mem.hbm.read (root + 8 * bits (va % 2 ^ 57) 48 9) 8)
      (∀ c, s.walk x.ctx x.part (va % 2 ^ 57) = .fault c →
        s.check x w va n = (s, .fail (if c = 0x04 then 3 else if c = 0x05 then 4 else 5) c)) ∧
      (s.ownsPa x.part root = false → s.check x w va n = (s, .fail 5 0x06)) ∧
      (s.ownsPa x.part root = true → entry.testBit 0 = false → s.check x w va n = (s, .fail 3 0x04)) ∧
      (s.ownsPa x.part root = true → entry.testBit 0 = true → (bits entry 1 3 ≠ 0 ∨ bits entry 52 8 ≠ 0 ∨ entry.testBit 7 = true) →
        s.check x w va n = (s, .fail 4 0x05))) ∧
    (BitVec.ofNat 7 (va / 2 ^ 57) = (if va.testBit 56 then BitVec.allOnes 7 else 0) → va % n = 0 →
      ∀ s' pte k, s.translate x.core x.ctx x.part (va % 2 ^ 57) = (s', .leaf pte k) →
        (permOk w pte = false → (s.check x w va n).2 = .fail 4 0x05) ∧
        (permOk w pte = true →
          (s'.target x pte k (va % 2 ^ 57) = none → (s.check x w va n).2 = .fail 5 0x06) ∧
          ∀ l, s'.target x pte k (va % 2 ^ 57) = some l →
            (targetOk w n l = false → (s.check x w va n).2 = .fail 5 0x06) ∧
            (targetOk w n l = true → s.check x w va n = ((s.check x w va n).1, if (s.check x w va n).1.locBad l n then .fail 8 0x15 else .ok l)))) ∧
    (∀ pte k, (bits pte 4 3 = 7 ∨ (bits pte 4 3 = 6 ∧ x.handler = false) ∨
        (bits pte 4 3 = 0 ∧ s.ownsPa x.part (bits pte 12 40 * 4096 + va % 2 ^ 57 % 2 ^ k) = false) ∨
        (bits pte 4 3 = 3 ∧ ∀ t, s.team? x.launch x.blk x.team = some t → t.size ≤ bits pte 12 7 * 4096 + va % 2 ^ 57 % 2 ^ k)) →
      s.target x pte k (va % 2 ^ 57) = none) ∧
    (∀ h c y pa, targetOk (.atomic h) n (.mx c y pa) = false ∧ targetOk (.atomic h) n (.mmio pa) = false ∧
      targetOk w 1 (.mx c y pa) = false ∧ targetOk (.atomic h) n (.host pa) = h) ∧
    ∀ pte, permOk .load pte = pte.testBit 1 ∧ permOk .store pte = pte.testBit 2 ∧
      ∀ h, permOk (.atomic h) pte = (pte.testBit 1 && pte.testBit 2)

/-- SPFX with length 0 does nothing but go on; `.wb` and `.inv` issue one access over the range's lines that counts in `%uas`,
after the check of its first line, whose fault traps; a later line that would fault is skipped; `.pf` fills copies and changes no byte but those that a line leaving the L2 settles (R128,
R224). SFNC completes at once when nothing that it
covers is outstanding, or once all that it has waited for has come about, and then, with acquire order at team scope or wider, the owner's L1 copies and the scalar data cache of
the core are gone; a release waits for the group's unacknowledged writes (R129). -/
def Obligations.ScalarPrefetchRangesAndFence : Prop :=
  (∀ (s : State) (g : Group) (d a : Nat) (sc : Scope) (off : Int), s.scalarReady [d, a, a + 1] = some g →
    (∀ h ∈ g.holds, h.own ≠ 0) →
    (g.getS d = 0 → exec (.spfxWb d a off) s = .next (s.scalarDone g 2) ∧ exec (.spfxInv d a off) s = .next (s.scalarDone g 2) ∧
      exec (.spfxPf d a sc off) s = .next (s.scalarDone g 2)) ∧
    (∃ t : State, exec (.spfxPf d a sc off) s = .next (t.scalarDone g 2) ∧ t.groups = s.groups ∧ s.sameSettled t ∧
      t.mem.host = s.mem.host ∧ t.mem.peer = s.mem.peer ∧ t.mem.sram = s.mem.sram ∧ t.mem.flight = s.mem.flight) ∧
    ∀ (s' : State) (l : Loc), g.getS d ≠ 0 → s.lineLoc g.agent (scalarEa g a off) = (s', .ok l) →
      ∀ k ∈ [(Instr.spfxWb d a off, AccKind.writeBack), (.spfxInv d a off, .invalidate)],
        ∃ (t : State) (acc : Access), exec k.1 s = .next (t.setGroup ({ g with uas := g.uas + 1 }.advance 2)) ∧
          t.mem.flight = s.mem.flight ++ [acc] ∧ acc.kind = k.2 ∧ acc.grp = g.gid ∧ acc.scalar = true ∧ t.groups = s.groups ∧
          acc.lines = (s'.lineLocs g.agent (linesOf (scalarEa g a off) (g.getS d).toNat)).2 ∧
          t.mem.hbm = s.mem.hbm ∧ t.mem.host = s.mem.host ∧ t.mem.peer = s.mem.peer ∧ t.mem.sram = s.mem.sram) ∧
  (∀ (s s' : State) (g : Group) (d a st c : Nat) (off : Int), s.scalarReady [d, a, a + 1] = some g →
    (∀ h ∈ g.holds, h.own ≠ 0) → g.getS d ≠ 0 → s.lineLoc g.agent (scalarEa g a off) = (s', .fail st c) →
    exec (.spfxWb d a off) s = .next (s'.scalarTrap g c 0) ∧ exec (.spfxInv d a off) s = .next (s'.scalarTrap g c 0)) ∧
  (∀ (s s' : State) (x : Agent) (va : Nat), canonical va = true →
    (∀ c, s.translate x.core x.ctx x.part (va % 2 ^ 57) = (s', .fault c) → s.lineLoc x va = (s', .fail 3 c)) ∧
    (∀ pte k, s.translate x.core x.ctx x.part (va % 2 ^ 57) = (s', .leaf pte k) → pte.testBit 1 = false → pte.testBit 2 = false →
      (s.lineLoc x va).2 = .fail 4 0x05)) ∧
  (∀ (ea len : Nat), (∀ v ∈ linesOf ea len, v % 128 = 0) ∧ (linesOf ea len).Nodup ∧
    ∀ b, ea ≤ b → b < ea + len → b / 128 * 128 ∈ linesOf ea len) ∧
  (∀ (s s' : State) (x : Agent) (va : Nat) (vs : List Nat) (l : Loc) (st c : Nat),
    (s.lineLoc x va = (s', .ok l) → (s.lineLocs x (va :: vs)).2 = l.lineStart :: (s'.lineLocs x vs).2) ∧
    (s.lineLoc x va = (s', .fail st c) → (s.lineLocs x (va :: vs)).2 = (s'.lineLocs x vs).2)) ∧
  ∀ (s : State) (g : Group) (o : MOrd) (sc : Scope), s.scalarReady [] = some g →
    let ends (i : Instr) : Prop := ∃ t : State, exec i s = .next (t.scalarDone g 2) ∧
      t.groups = s.groups ∧ t.mem.hbm = s.mem.hbm ∧ t.mem.flight = s.mem.flight ∧
      ((o = .acq ∨ o = .acqrel) → sc ≠ .grp → ∀ c ∈ t.mem.l1, c.core = g.place.core →
        c.scalar = false ∧ c.part ≠ g.place.part)
    (∀ v as d x prom, g.wait = some (.sync v as false d x) → s.arrived v = true → s.acked as sc = true → s.drained d = true →
      ends (.sfnc o sc prom)) ∧
    (g.wait = none → (ordAcq o = true → s.arrived (s.acquireReads g o sc) = true) →
      (ordRel o = true → s.acked (s.releaseIds g 0 sc) sc = true) → ends (.sfnc o sc false)) ∧
    (g.wait = none → (o = .rel ∨ o = .acqrel) → ∀ a ∈ s.mem.flight, a.grp = g.gid → a.kind = .store → a.accepted = false → a.coreAck = false →
      (∀ b ∈ s.mem.flight, b.id = a.id → b = a) →
      ∃ (t : State) (v as : List Nat),
        exec (.sfnc o sc false) s = .next (t.setGroup { g with wait := some (.sync v as false none 0) }) ∧ a.id ∈ as)

/-! ## Units reached from the scalar stream -/

/-- CPY, MCAST, GATH and SCAT issue when the checks of R284 pass and a job card is free: the command is in flight with its
data accesses still to come, no byte of memory changes but those that a line leaving the L2 settles (R224), and the stream goes on or waits as the completion says (R285). -/
def Obligations.CopyCommandsIssue : Prop :=
  ∀ (s s0 s' : State) (g : Group) (a gran target : Nat) (cm : Compl) (bs : List Byte), s.engineReady [] a = some g →
    let b := g.block a
    yieldTarget s g cm = (s0, some target) → s0.readRecord g.engineAgent (blkAddr b 0) = (s', .ok bs) →
    s'.roomFor g 1 0 = true → taskOk cm = none →
    let r := TRec.ofBytes bs
    let lo (i : Nat) : Nat := blkWord b i % 65536
    let hi (i : Nat) : Nat := blkWord b i / 65536
    let issues (i : Instr) (kind : CmdKind) (n : Nat) : Prop :=
      ∃ t : State, exec i s = .next t ∧ s'.issuesCmd t g kind cm n target ∧ s.sameSettled t
    (g.isProducer = true → blkAddr b 2 % r.cell = 0 → r.keyOk (s'.ring g.place.ctx) false = true → r.plainOk = true →
      (r.fmt = 5 → lo 4 % 2 = 0 ∧ lo 6 % 2 = 0) → boxOk r (halves b 4 5) (halves b 6 7) = true →
      s'.complInside [s'.teamOf g] g.place.part cm = true →
      issues (.cpy a cm gran) (.copy (blkAddr b 2) [lo 4 / r.perCell, hi 4, lo 5, hi 5] [lo 6 / r.perCell, hi 6, lo 7, hi 7])
        (lo 6 / r.perCell * hi 6 * lo 7 * hi 7)) ∧
    (g.isProducer = true → blkWord b 2 < 2 ^ 20 → blkWord b 7 < 256 → blkWord b 2 % r.cell = 0 →
      r.keyOk (s'.ring g.place.ctx) false = true → r.plainOk = true → (r.fmt = 5 → lo 3 % 2 = 0 ∧ lo 4 % 2 = 0) →
      boxOk r [lo 3, hi 3, 0, 0] [lo 4, hi 4, 1, 1] = true →
      let cores := maskCores g (blkWord b 5 + 2 ^ 32 * blkWord b 6 + 2 ^ 64 * blkWord b 7)
      let n := lo 4 / r.perCell * hi 4
      (∀ k ∈ cores, ∃ t, s'.castTeam g.engineAgent k = some t ∧ blkWord b 2 + n * r.cell ≤ t.size) →
      s'.complInside (cores.map (s'.castTeam g.engineAgent)) g.place.part cm = true →
      issues (.mcast a cm gran) (.mcast (blkWord b 2) [lo 3 / r.perCell, hi 3, 0, 0] [lo 4 / r.perCell, hi 4, 1, 1] cores)
        (n * cores.length)) ∧
    ∀ scatter : Bool, blkWord b 6 ≤ 2 ^ 24 → blkAddr b 4 % 4 = 0 →
      r.keyOk (s'.ring g.place.ctx) scatter = true → r.plainOk = true → (r.fmt = 5 → lo 7 % 2 = 0 ∧ hi 7 % 2 = 0) →
      (r.permit = true ∨ lo 7 + hi 7 ≤ r.ext.getD 0 0) →
      s'.complInside [s'.teamOf g] g.place.part cm = true →
      let n := blkWord b 6
      let c := hi 7 / r.perCell
      if scatter then issues (.scat a cm gran) (.scat (blkAddr b 2) (blkAddr b 4) n (lo 7 / r.perCell) c) (n + n * c)
      else issues (.gath a cm gran) (.gath (blkAddr b 2) (blkAddr b 4) n (lo 7 / r.perCell) c) (n + n * c)

/-- Matrix commands (R291, R295 to R301): MZRO and MACC issue with legal block fields and tiles, MMAC and CPYM when their
checks pass, each into the group's open batch; an illegal field traps with 0x01, a tile beyond the allocation with 0x02, and
a group that is not the producer cannot issue CPY, CPYM or MCAST, with any completion whose target is legal (R284). -/
def Obligations.MatrixCommandsIssue : Prop :=
  ∀ (s : State) (g : Group) (a m gran : Nat),
    let b := g.block a
    let fields (b : List Word) : Prop :=
      let w := blkWord b 4
      bits w 2 2 ≠ 3 ∧ bits w 4 2 ≠ 3 ∧ bits w 13 3 = 0 ∧ bits w 8 4 ≤ 11 ∧ bits w 16 16 ≠ 0 ∧ bits w 16 16 % 32 = 0
    (s.engineReady [] a = some g →
      (∀ s' ck c, s.mmacChecks g b = (s', ck, c) → (∀ x ∈ ck, x = none) → s'.roomFor g 1 1 = true →
        exec (.mmac a) s = .next ((s'.addCmd c).setGroup (g.advance 2)) ∧ c.batch = some g.openBatch) ∧
      (blkWord b 0 < 16 → (∀ i < 7, b.getD (i + 1) 0 = 0) → (∀ t < 4, (blkWord b 0).testBit t = true → t < g.info.tiles) →
        s.roomFor g 0 1 = true → ∃ t : State, exec (.mzro a) s = .next t ∧
          s.issuesCmd t g (.mzro (blkWord b 0)) .none (4096 * ((List.range 4).filter fun t => (blkWord b 0).testBit t).length) 0 ∧
          ∀ c ∈ t.units.cmds, c.id = s.nextId → (∀ c ∈ s.units.cmds, c.id ≠ s.nextId) → c.batch = some g.openBatch) ∧
      (¬ (blkWord b 0 < 16 ∧ ∀ i < 7, b.getD (i + 1) 0 = 0) → exec (.mzro a) s = .next (s.scalarTrap g 0x01 0)) ∧
      (blkWord b 0 < 16 → (∀ i < 7, b.getD (i + 1) 0 = 0) → (∃ t < 4, (blkWord b 0).testBit t = true ∧ g.info.tiles ≤ t) →
        exec (.mzro a) s = .next (s.scalarTrap g 0x02 0)) ∧
      (blkWord b 0 < 64 → ((blkWord b 0).testBit 5 = true → (blkWord b 0).testBit 4 = true) →
        (∀ i < 7, b.getD (i + 1) 0 = 0) → blkWord b 0 % 4 < g.info.tiles → blkWord b 0 / 4 % 4 < g.info.tiles →
        s.roomFor g 0 1 = true → ∃ t : State, exec (.macc a) s = .next t ∧
          s.issuesCmd t g (.macc (blkWord b 0 % 4) (blkWord b 0 / 4 % 4) ((blkWord b 0).testBit 4) ((blkWord b 0).testBit 5))
            .none 4096 0 ∧
          ∀ c ∈ t.units.cmds, c.id = s.nextId → (∀ c ∈ s.units.cmds, c.id ≠ s.nextId) → c.batch = some g.openBatch) ∧
      (let w := blkWord b 0
      let legal := w < 64 ∧ (w.testBit 5 = true → w.testBit 4 = true) ∧ ∀ i < 7, b.getD (i + 1) 0 = 0
      (¬ legal → exec (.macc a) s = .next (s.scalarTrap g 0x01 0)) ∧
      (legal → (g.info.tiles ≤ w % 4 ∨ g.info.tiles ≤ w / 4 % 4) → exec (.macc a) s = .next (s.scalarTrap g 0x02 0))) ∧
      (¬ fields b → exec (.mmac a) s = .next ((s.mmacChecks g b).1.scalarTrap g 0x01 0)) ∧
      (fields b → g.info.tiles ≤ blkWord b 4 % 4 → exec (.mmac a) s = .next ((s.mmacChecks g b).1.scalarTrap g 0x02 0))) ∧
    (s.engineReady (regSpan m 8) a = some g → ∀ s' s'' ck mk c f, s.copyChecks g b .none gran = (s', ck, c) →
      s'.mmacChecks g (g.block m) = (s'', mk, f) → (∀ x ∈ ck ++ mk, x = none) → s''.roomFor g 2 1 = true →
      exec (.cpym a gran m) s =
        .next (((s''.addCmd c).addCmd { f with id := (s''.addCmd c).nextId, waitsFor := some c.id }).setGroup (g.advance 2)) ∧
        c.batch = none ∧ f.batch = some g.openBatch) ∧
    (s.engineReady (regSpan m 8) a = some g →
      let t := ((s.copyChecks g b .none gran).1.mmacChecks g (g.block m)).1
      (g.isProducer = false → exec (.cpym a gran m) s = .next (t.scalarTrap g 0x0A 0)) ∧
      (g.isProducer = true → ¬ fields (g.block m) → exec (.cpym a gran m) s = .next (t.scalarTrap g 0x01 0)) ∧
      (g.isProducer = true → fields (g.block m) → g.info.tiles ≤ blkWord (g.block m) 4 % 4 →
        exec (.cpym a gran m) s = .next (t.scalarTrap g 0x02 0))) ∧
    (g.isProducer = false → s.engineReady [] a = some g → ∀ cm s0 target, yieldTarget s g cm = (s0, some target) →
      ∀ i ∈ [Instr.cpy a cm gran, .mcast a cm gran],
        exec i s = .next ((s0.readRecord g.engineAgent (blkAddr b 0)).1.scalarTrap g 0x0A 0))

/-- MFNC gives the number of the open batch modulo 2^16, which becomes `%batch`, and opens the next; MWAIT goes on once every
closed batch up to the one that it waits for is complete, a number that is not closed standing for `%batch` (R296, R297). A
closed batch that is not complete is never passed over, however many are closed behind it. -/
def Obligations.MatrixBatches : Prop :=
  ∀ (s : State) (g : Group),
    (∀ d, s.scalarReady [d] = some g →
      exec (.mfnc d) s = .next (s.scalarDone { g.setS d (BitVec.ofNat 32 (g.openBatch % 65536)) with
        batch := g.openBatch, openBatch := g.openBatch + 1 } 2)) ∧
    ((g.async = none ∨ g.trap ≠ none) → (∀ k, g.wait ≠ some (.num k)) →
      let goes (i : Instr) (n : Nat) : Prop :=
        let ahead := (n + 65536 - g.batch % 65536) % 65536
        let k := if 1 ≤ ahead ∧ ahead ≤ 32767 then g.batch % 65536 else n
        exec i s = if g.batchDone k then .next (s.scalarDone g 2) else .next (s.setGroup { g with wait := some (.num k) })
      (∀ n, s.scalarReady [] = some g → goes (.mwait n) n) ∧
      ∀ b, s.scalarReady [b] = some g → goes (.mwaitR b) ((g.getS b).toNat % 65536)) ∧
    (g.batch ≤ g.doneBatch → ∀ k, g.batchDone k = true) ∧
    ∀ n, g.doneBatch < n → n ≤ g.batch → g.batchDone (n % 65536) = false

/-- MSND issues a message of 1 to 4,096 bytes; MPST posts a receive, delivers the oldest matching overflow entry at once, or
refuses with 0x80000001 when its partition's share is posted; MPRB reads the length of the oldest matching entry; RCFNC takes
the context's records out of the caches of the block's clusters (R304 to R309). -/
def Obligations.MessagesAndRecords : Prop :=
  ∀ (s s0 : State) (g : Group) (d a target : Nat) (cm : Compl),
    let b := g.block a
    let p := g.place
    let cl := clusterOf p.core
    let hit := (s.overflowOf cl p.ctx).find? fun o => msgMatches (blkWord b 3) (blkWord b 4) o.msg
    (s.engineReady [d] a = some g → yieldTarget s g cm = (s0, some target) → taskOk cm = none →
      s0.complInside [s0.teamOf g] p.part cm = true →
      1 ≤ blkWord b 2 → blkWord b 2 ≤ 4096 → blkWord b 4 < 65536 → s0.roomFor g 1 0 = true →
      (blkWord b 3 ≤ 71 → (∀ i ∈ [5, 6, 7], b.getD i 0 = 0) → ∃ t : State, exec (.msnd d a cm) s = .next t ∧
        s0.issuesCmd t g (.send (blkAddr b 0) (blkWord b 2) (blkWord b 3) (blkWord b 4) d false) cm (blkWord b 2) target) ∧
      ((blkWord b 3 ≤ 71 ∨ blkWord b 3 = 0x7F) → b.getD 7 0 = 0 → blkAddr b 5 % 16 = 0 →
        let kind (m : Option Msg) : CmdKind := .recv (blkAddr b 0) (blkWord b 2) (blkWord b 3) (blkWord b 4) (blkAddr b 5) m
        let post : Posted :=
          { cluster := cl, cmd := s.nextId, ctx := p.ctx, part := p.part, src := blkWord b 3, tag := blkWord b 4 }
        let posts := s.units.posted.filter fun r => r.cluster == cl && r.part == p.part
        (∀ o, hit = some o → ∃ t : State, exec (.mpst d a cm) s = .next t ∧
          (s0.modUnits fun u => { u with overflow := u.overflow.erase o }).issuesCmd t (g.setS d 1)
            (kind (some { o.msg with fromQ := true })) cm (min o.msg.len (blkWord b 2) + 4) target) ∧
        (hit = none → posts.length < s.recvShare cl p.part → ∃ t : State, exec (.mpst d a cm) s = .next t ∧
          (s0.modUnits fun u => { u with posted := u.posted ++ [post] }).issuesCmd t (g.setS d 0) (kind none) cm 0 target) ∧
        (hit = none → s.recvShare cl p.part ≤ posts.length →
          exec (.mpst d a cm) s = .next (s0.scalarDone (g.setS d 0x80000001) 2)))) ∧
    (s.engineReady [d] a = some g → (blkWord b 3 ≤ 71 ∨ blkWord b 3 = 0x7F) → blkWord b 4 < 65536 →
      (∀ i ∈ [0, 1, 2, 5, 6, 7], b.getD i 0 = 0) →
      exec (.mprb d a) s = .next (s.scalarDone (g.setS d
        (match hit with | some o => BitVec.ofNat 32 o.msg.len | none => 0xFFFFFFFF)) 2)) ∧
    (s.scalarReady [] = some g → g.wait = none → s.acked (s.releaseIds g 0 .block) .block = true → ∃ t : State,
      exec .rcfnc s = .next (t.scalarDone g 2) ∧ t.groups = s.groups ∧
      t.units = { s.units with recs := s.units.recs.filter fun e => !(e.ctx == p.ctx && (s.units.teams.any fun t =>
        t.launch == p.launch && t.blk == p.blk && clusterOf t.core == e.cluster)) })

/-- A fault that an engine has left pending for a group is taken at its next wait instruction outside a handler, whatever its
operands, before the instruction has any effect, with `%spc` on it; and where a command with a yield-continuation has completed, by
the stream's resumption, with `%spc` at the continuation (R285, R286). -/
def Obligations.AsyncFaultsAreTakenAtWaits : Prop :=
  ∀ (s : State) (g : Group) (f : AsyncFault), g.async = some f →
    let subc := f.subc + if f.lost > 0 then 128 else 0
    (∀ s', s.handlerReady g = some s' →
      let takes (i : Instr) (rs : List Nat) : Prop := s.scalarReady rs = some g →
        exec i s = .next (s'.setGroup ({ g with async := none }.enterHandler (g.scalarReq f.cause subc)))
      takes .lwait [] ∧ takes .exit [] ∧ (∀ n, takes (.mwait n) []) ∧ (∀ b, takes (.mwaitR b) [b]) ∧
        (∀ d a off, takes (.barw d a off) [d, a]) ∧ ∀ n, takes (.evwait n) []) ∧
    ∀ k target, s.scalarReady [] = some g → g.wait = some (.cmd k target) → s.cmdLive k = false →
      let u := s.acquireCore g.place.core g.place.part
      let h : Group := { g.acquires u with wait := none }
      ∀ s', u.handlerReady h = some s' → ∀ d a gran m cm,
        ∀ i ∈ [Instr.cpy a cm gran, .mcast a cm gran, .gath a cm gran, .scat a cm gran, .cpym a gran m, .msnd d a cm, .mpst d a cm],
          exec i s = .next (s'.setGroup ({ h with async := none }.enterHandler { h.scalarReq f.cause subc with spc := target }))

/-- Bundle instructions (R231 to R235, R242 to R244): BDECL makes a bundle with the lowest free id in state declared, or gives
the code of the test that fails; BENTER queues a request for a legal set and goes on once the set is entered; BLEAVE leaves
it; BQRY and BFREE answer. That a bundle which BFREE has freed shows in BQRY while it fills or evicts is the model's choice (log 41).
That BDECL reads its whole record at once when it issues, and that BFREE takes effect when it issues,
are the model's choices (log 40). -/
def Obligations.BundleInstructions : Prop :=
  ∀ (s : State) (g : Group),
    (∀ d a off, s.scalarReady [d, a, a + 1] = some g → (∀ h ∈ g.holds, h.own ≠ 0) → ∀ s' l,
      s.check g.agent .load (scalarEa g a off) 128 = (s', .ok l) → s'.scalarOwes g l 128 = false →
      s'.bankStalls l = false →
      let r := s'.coreRead g l 128
      exec (.bdecl d a off) s = .next ((r.1.declare g r.2).1.setGroup ((g.setS d (r.1.declare g r.2).2).advance 2))) ∧
    (∀ lines rec id, s.declared { g.agent with handler := false } rec = some lines → lines.length ≤ (s.part g.place.part).blim →
      (∀ k, (lines.map (s.setOf g.place.part)).count k ≤ (s.part g.place.part).bways) →
      (s.units.bundles.filter fun b => b.part == g.place.part).length < (s.part g.place.part).bids →
      id < 4096 → (∀ b ∈ s.units.bundles, b.id ≠ id) → (∀ i < id, ∃ b ∈ s.units.bundles, b.id = i) →
      ∃ b : Bundle, s.declare g rec = (s.modUnits fun u => { u with bundles := u.bundles ++ [b] }, BitVec.ofNat 32 id) ∧
        b.id = id ∧ b.state = .declared ∧ b.lines = lines ∧ b.ctx = g.place.ctx ∧ b.entries = 0) ∧
    (∀ rec,
      let p := s.part g.place.part
      let fails (code : Nat) : Prop := s.declare g rec = (s, BitVec.ofNat 32 (2 ^ 31 + code))
      (s.declared { g.agent with handler := false } rec = none → fails 4) ∧
      ∀ lines, s.declared { g.agent with handler := false } rec = some lines →
        let many := ∃ k, p.bways < (lines.map (s.setOf g.place.part)).count k
        (p.blim < lines.length → fails 1) ∧ (lines.length ≤ p.blim → many → fails 2) ∧
        (lines.length ≤ p.blim → ¬ many → (p.bids ≤ (s.units.bundles.filter fun b => b.part == g.place.part).length ∨
          ∀ i < 4096, ∃ b ∈ s.units.bundles, b.id = i) → fails 3)) ∧
    (∀ (x : Agent) (rec : List Byte),
      let base (i : Nat) := leAt rec (16 * i) 8
      let len (i : Nat) := leAt rec (16 * i + 8) 4
      (((∀ i < 8, len i = 0) ∨ ∃ i < 8, base i % 128 ≠ 0 ∨ leAt rec (16 * i + 12) 4 ≠ 0 ∨
        ∃ k < len i, s.extentLines x (base i + 128 * k) 1 = none) → s.declared x rec = none)) ∧
    (∀ (x : Agent) (va : Nat), (canonical va = false ∨ (∃ c, (s.translate x.core x.ctx x.part (va % 2 ^ 57)).2 = .fault c) ∨
      ∃ pte k, (s.translate x.core x.ctx x.part (va % 2 ^ 57)).2 = .leaf pte k ∧
        ((pte.testBit 1 = false ∧ pte.testBit 2 = false) ∨ bits pte 4 3 ≠ 0)) → s.extentLines x va 1 = none) ∧
    (∀ a off n, s.scalarReady (regSpan a 8) = some g → (s.scalarLen g).2 = n →
      (g.wait = none → blockOk (g.block a) = true → s.enterFault g (blockIds (g.block a)) = none →
        let r : BReq :=
          { grp := g.gid, part := g.place.part, ids := blockIds (g.block a), prio := (s.ctx g.place.ctx).prio, age := s.ns,
            handled := false, admitted := false, handler := g.inHandler }
        let t := (s.modPart g.place.part fun p => { p with reqs := p.reqs ++ [r] }).setGroup { g with wait := some .bundle }
        exec (.benter a) s = .next t ∧ (0 ≤ (g.spc : Int) + off → (g.spc : Int) + off < n → exec (.benterYield a off) s = .next t)) ∧
      (g.wait = some .entered →
        exec (.benter a) s = .next (s.scalarDone g 2) ∧
        (0 ≤ (g.spc : Int) + off → (g.spc : Int) + off < n → exec (.benterYield a off) s =
          .next (s.setGroup (g.goTo ((g.spc : Int) + off).toNat)))) ∧
      ∀ c, g.wait = none → blockOk (g.block a) = true → s.enterFault g (blockIds (g.block a)) = some c →
        exec (.benter a) s = .next (s.scalarTrap g 0x0B c)) ∧
    (s.scalarReady [] = some g → ∃ t : State, exec .bleave s = .next (t.setGroup ({ g with entered := none, holdTimer := none }.advance 1)) ∧
      t.groups = s.groups ∧ t.mem = s.mem ∧ ∀ id b, s.bundle? id = some b →
        ((t.bundle? id).map (·.entries)) =
          some (if (g.entered.any fun e => e.ids.contains b.id) then b.entries - 1 else b.entries)) ∧
    (∀ d a, s.scalarReady [d, d + 1, a] = some g →
      let put (w v : Nat) : Out :=
        .next (s.scalarDone ((g.setS d (BitVec.ofNat 32 w)).setS (d + 1) (BitVec.ofNat 32 v)) 1)
      (∀ b, s.bundle? (g.getS a).toNat = some b → b.ctx = g.place.ctx → exec (.bqry d a) s =
        put (b.state.code + (if s.requested b.part b.id then 8 else 0) + 2 ^ 16 * (b.entries % 65536)) b.lines.length) ∧
      ((∀ b, s.bundle? (g.getS a).toNat = some b → b.ctx ≠ g.place.ctx) → exec (.bqry d a) s = put 0 0)) ∧
    ∀ d a, s.scalarReady [d, a] = some g →
      let put (w : Word) : Out := .next (s.scalarDone (g.setS d w) 1)
      ((∀ b, s.bundle? (g.getS a).toNat = some b → b.ctx ≠ g.place.ctx) → exec (.bfree d a) s = put 2) ∧
      ∀ b, s.bundle? (g.getS a).toNat = some b → b.ctx = g.place.ctx → b.freed = false →
        ((b.entries > 0 ∨ s.inSaved b.id = true) → exec (.bfree d a) s = put 1) ∧
        (b.entries = 0 → s.inSaved b.id = false → s.requested b.part b.id = true → exec (.bfree d a) s = put 3) ∧
        (b.entries = 0 → s.inSaved b.id = false → s.requested b.part b.id = false →
          exec (.bfree d a) s = .next ((s.freeBundle b.id).scalarDone (g.setS d 0) 1))

/-- Barriers (R320 to R326): BAR arrives once what its release waits for is done, and goes on once released; BARP and BARA send
their count to the bank after their checks, which trap for a misplaced barrier and for a count that R325 does not allow; BARW
goes on with the phase word once its phase is complete, and its bank is not to change its use (R375). -/
def Obligations.BarrierInstructions : Prop :=
  ∀ (s : State) (g : Group), (g.wait = none ∨ g.wait = some .released) →
    (s.scalarReady [] = some g → ∀ block n,
      let sc : Scope := if block then .block else .team
      (g.wait = none → s.acked (s.releaseIds g 0 sc) sc = true → ∃ t : State, exec (.bar block n) s = .next (t.setGroup { g with wait := some (.barrier block n) }) ∧
        t.groups = s.groups ∧ ∃ k ∈ t.units.barriers, k.launch = g.place.launch ∧ k.blk = g.place.blk ∧ k.n = n ∧
          k.team = (if block then none else some g.place.team) ∧ (g.gid ∈ k.arrived ∨ g.gid ∈ k.leaving)) ∧
      (g.wait = some .released → s.arrived (s.valuesOf g.gid 0) = true → exec (.bar block n) s =
        .next ((s.acquireCore g.place.core g.place.part).scalarDone (g.acquires s) 2))) ∧
    (∀ a off, s.scalarReady [a] = some g → off % 16 ≠ 0 →
      exec (.barp a off) s = .next (s.scalarTrap g 0x01 0) ∧ exec (.bara a off) s = .next (s.scalarTrap g 0x01 0)) ∧
    (∀ a off, s.scalarReady [a] = some g → g.wait = none → off % 16 = 0 →
      s.barInside (s.teamOf g) g.place.part off = true →
      let n := (g.getS a).toNat
      (1 ≤ n → n ≤ 2 ^ 30 → exec (.barp a off) s = .next ((s.sendBar g off 2 n).scalarDone g 2)) ∧
      ((n = 0 ∨ 2 ^ 30 < n) → exec (.barp a off) s = .next (s.scalarTrap g 0x01 0)) ∧
      (2 ^ 30 < n → exec (.bara a off) s = .next (s.scalarTrap g 0x01 0)) ∧
      (n ≤ 2 ^ 30 → s.acked (s.releaseIds g 0 .team) .team = true → ∃ t : State, exec (.bara a off) s = .next (t.scalarDone g 2) ∧ t.groups = s.groups ∧
        t.units = (if n = 0 then s else s.sendBar g off 1 n).units)) ∧
    (∀ a off, s.scalarReady [a] = some g → off % 16 = 0 → s.barInside (s.teamOf g) g.place.part off = false →
      exec (.barp a off) s = .next (s.scalarTrap g 0x06 0) ∧ exec (.bara a off) s = .next (s.scalarTrap g 0x06 0)) ∧
    ∀ d a off w tm, s.scalarReady [d, a] = some g → (g.async = none ∨ g.trap ≠ none) → g.wait = none → off % 16 = 0 →
      s.barInside (s.teamOf g) g.place.part off = true → s.teamOf g = some tm → s.teamWord tm g.place.part (off + 4) = some w →
      let k := (w % 65536 + 65536 - (g.getS a).toNat % 65536) % 65536
      let stalls := (s.teamScratch tm g.place.part (off + 4)).any s.bankStalls
      (1 ≤ k → k ≤ 32767 → stalls = false → exec (.barw d a off) s =
        .next ((s.acquireCore g.place.core g.place.part).scalarDone ((g.acquires s).setS d (BitVec.ofNat 32 w)) 2)) ∧
      ((k = 0 ∨ 32767 < k ∨ stalls = true) → exec (.barw d a off) s = .next (s.setGroup { g with wait := some (.num ((g.getS a).toNat % 65536)) }))

/-- Events, timed waits, YIELD and PPT (R328, R336, R338, R357): EVSET and EVCLR send their change to the dispatcher; EVWAIT goes
on when its bit is 1; SLEEPNS and WAITNS wait for a deadline ahead and go on with one that has passed, with their next
instruction due within an A-clock and 2 ns; YIELD goes on, but for a group that drains and stops before it to be saved (R353);
PPT names live tiles and traps for one beyond the allocation. -/
def Obligations.EventsAndWaits : Prop :=
  ∀ (s : State) (g : Group),
    let v := s.eventVector g.place.ctx
    let sent (t : State) (o : EvOp) : Prop := t.groups = s.groups ∧ t.mem.hbm = s.mem.hbm ∧
      (t.ctx g.place.ctx).evOps = (s.ctx g.place.ctx).evOps ++ [o] ∧ (t.ctx g.place.ctx).ev = (s.ctx g.place.ctx).ev
    (s.scalarReady [] = some g → ∀ n,
      (n < 248 → g.wait = none → s.acked (s.releaseIds g 0 .dev) .dev = true →
        ∃ t : State, exec (.evset n) s = .next (t.scalarDone g 1) ∧ sent t { src := clusterOf g.place.core, set := true, bit := n }) ∧
      (∃ t : State, exec (.evclr n) s = .next (t.scalarDone g 1) ∧ sent t { src := clusterOf g.place.core, set := false, bit := n }) ∧
      ((g.async = none ∨ g.trap ≠ none) →
        ((v.getLsbD n = true ∨ g.wait = some .seen) → exec (.evwait n) s =
          .next ((s.acquireCore g.place.core g.place.part).scalarDone (g.acquires s) 1)) ∧
        (v.getLsbD n = false → g.wait ≠ some .seen →
          exec (.evwait n) s = .next (s.setGroup { g with wait := some (.event n) }))) ∧
      ((s.preempted g 0 = false ∨ s.atRest g = false) → exec .yield s = .next (s.scalarDone { g with yielded := true } 1)) ∧
      (s.preempted g 0 = true → s.atRest g = true → exec .yield s = .next s) ∧
      ((∀ t < 4, n.testBit t = true → t < g.info.tiles) →
        exec (.ppt n) s = .next (s.scalarDone { g with liveTiles := n } 1)) ∧
      ((∃ t < 4, n.testBit t = true ∧ g.info.tiles ≤ t) → exec (.ppt n) s = .next (s.scalarTrap g 0x02 0))) ∧
    ∀ a deadline i, (i = .sleepns a ∧ deadline = s.ns + (g.getS a).toNat ∧ s.scalarReady [a] = some g ∨
        i = .waitns a ∧ deadline = (g.getS a).toNat + 2 ^ 32 * (g.getS (a + 1)).toNat ∧ s.scalarReady [a, a + 1] = some g) →
      (g.wait = none → s.ns < deadline → exec i s = .next (s.setGroup { g with wait := some (.timed deadline) })) ∧
      let goesOn (t : Nat) : Prop :=
        exec i s = .next (s.scalarDone { g with due := some (s.lateBy g.place.core t) } 1)
      (g.wait = none → deadline ≤ s.ns → goesOn s.ns) ∧ ∀ t, g.wait = some (.expired t) → goesOn t

/-- Launches, tasks and jobs (R332 to R335): LAUNCH reads its packet and writes the status of the launch to s(D): 2 for an
illegal packet, 3 in a context that is torn down, which counts the launch in LDISCARD (R360), 1 for a full device queue, and 0
for a launch that is in the queue. TSIG sends a decrement. JRAISE and JDONE change a valid job control block, or trap with 0x14
and the sub-code of R335; the block fires its event when COUNT reaches EXPECT. LAUNCH reading its whole packet when its release
is done (log 40), and JRAISE and JDONE changing the block in one step (log 45), are the model's choices. -/
def Obligations.LaunchesTasksAndJobs : Prop :=
  ∀ (s : State) (g : Group), g.wait = none → (∀ h ∈ g.holds, h.own ≠ 0) →
    (s.acked (s.releaseIds g 0 .dev) .dev = true →
      (∀ d a off, s.scalarReady [d, a, a + 1] = some g → ∀ s' l,
        s.check g.agent .load (scalarEa g a off) 256 = (s', .ok l) →
        s'.bankStalls l = false → s'.bankStalls (l.plus 128) = false →
        let lo := s'.coreRead g l 128
        let hi := lo.1.coreRead g (l.plus 128) 128
        let packet := lo.2 ++ hi.2
        let c := s.ctx g.place.ctx
        let w := if packetBad packet then 2 else if c.dead then 3 else if 64 ≤ c.dq.length then 1 else 0
        ∃ t : State, exec (.launch d a off) s = .next (t.scalarDone (g.setS d (BitVec.ofNat 32 w)) 2) ∧
          (t.ctx g.place.ctx).dq = (if w = 0 then c.dq ++ [packet] else c.dq) ∧
          (t.ctx g.place.ctx).ldiscard = if w = 3 then c.ldiscard + 1 else c.ldiscard) ∧
      ∀ id < 1024, s.scalarReady [] = some g → ∃ t : State, exec (.tsig id) s = .next (t.scalarDone g 2) ∧
        t.units = { s.units with decrements := s.units.decrements ++ [(clusterOf g.place.core, g.place.ctx, id)] }) ∧
    (∀ d a off, s.scalarReady [d, a, a + 1] = some g → ∀ s' pa,
      s.check g.agent (.atomic true) (scalarEa g a off) 64 = (s', .ok (.hbm pa)) →
      let s2 := s'.finishWide (.hbm pa)
      let j := Job.ofBytes (s2.locRead (.hbm pa) 64)
      let sum := j.expect + (g.getS d).toNat
      (pa ∈ g.doneList → exec (.jraise d a off) s = .next (s'.scalarTrap g 0x14 0x01)) ∧
      (pa ∉ g.doneList → s'.homeOwes g (.hbm pa) 64 = false →
        ((j.valid = false ∨ 2 ^ 32 ≤ sum) → exec (.jraise d a off) s = .next (s2.scalarTrap g 0x14 0x05)) ∧
        (j.valid = true → sum < 2 ^ 32 → j.fired = true → exec (.jraise d a off) s = .next (s2.scalarTrap g 0x14 0x03)) ∧
        (j.valid = true → sum < 2 ^ 32 → j.fired = false → exec (.jraise d a off) s =
          .next ((s2.putJob g.place.ctx g.place.core pa { j with expect := sum }).scalarDone g 2)))) ∧
    ∀ a off, s.scalarReady [a, a + 1] = some g → ∀ s' pa,
      s.check g.agent (.atomic true) (scalarEa g a off) 64 = (s', .ok (.hbm pa)) →
      let s2 := s'.finishWide (.hbm pa)
      let j := Job.ofBytes (s2.locRead (.hbm pa) 64)
      (pa ∈ g.doneList → exec (.jdone a off) s = .next (s'.scalarTrap g 0x14 0x02)) ∧
      (pa ∉ g.doneList → 16 ≤ g.doneList.length → exec (.jdone a off) s = .next (s'.scalarTrap g 0x14 0x04)) ∧
      (pa ∉ g.doneList → g.doneList.length < 16 → s.acked (s.releaseIds g 0 .dev) .dev = true →
        s'.fillPending (.hbm pa) = false →
        (j.valid = false → exec (.jdone a off) s = .next (s2.scalarTrap g 0x14 0x05)) ∧
        (j.valid = true → j.fired = true → exec (.jdone a off) s = .next (s2.scalarTrap g 0x14 0x03)) ∧
        (j.valid = true → j.fired = false → j.count = j.expect →
          exec (.jdone a off) s = .next (s2.scalarTrap g 0x14 0x06)) ∧
        (j.valid = true → j.fired = false → j.count ≠ j.expect → ∃ t : State,
          exec (.jdone a off) s = .next (t.scalarDone { g with doneList := g.doneList ++ [pa] } 2) ∧
          ((∀ i < 64, s2.aliasPends (.hbm (pa + i)) = false) →
            t.locRead (.hbm pa) 64 = { j with count := j.count + 1, fired := j.count + 1 == j.expect : Job }.bytes) ∧
          s2.sameSettledOutside t (.hbm pa) 64 ∧
          (t.ctx g.place.ctx).evOps = (s.ctx g.place.ctx).evOps ++
            if j.count + 1 = j.expect then
              [{ src := slicePort (s.homeSlice (s.ctx g.place.ctx).part pa), set := true, bit := j.evbit }]
            else []))

/-! ## The lane stream -/

/-- Integer arithmetic (R150, R151): each element of each active lane is the exact result, wrapped or clamped once; IS is set
when a clamp changes an element and NF does not keep it back; no inactive lane is written. -/
def Obligations.LaneIntegerArithmetic : Prop :=
  ∀ (s : State) (h : Hdr) (c : Lane) (t : ITy) (sat nf : Bool) (a b d e : Opnd),
    let r := t.regs
    let ready (srcs : List (Opnd × Nat)) : Prop := s.laneReady h.rg h.sw (some h) [(a, r)] srcs = some c
    let el (o : Opnd) (l i : Nat) : Int := elemInt t (c.readIntOp t o l) i
    let is (sat nf : Bool) (x : Nat → Nat → Int) (l v f : Nat) : Prop :=
      (∀ i < elemCount t, elemBits t.width v i = intResult t sat (x l i)) ∧
      f = if sat && !nf && (List.range (elemCount t)).any fun i => !inTypeRange t (x l i) then 32 else 0
    (ready [(b, r), (d, r)] →
      c.writes s (.iadd h t sat nf a b d) a r (is sat nf fun l i => el b l i + el d l i) ∧
      c.writes s (.isub h t sat nf a b d) a r (is sat nf fun l i => el b l i - el d l i) ∧
      c.writes s (.imul h t sat nf a b d) a r (is sat nf fun l i => el b l i * el d l i) ∧
      c.writes s (.imulh h t a b d) a r (is false true fun l i => (el b l i * el d l i) / 2 ^ t.width) ∧
      c.writes s (.imin h t a b d) a r (is false true fun l i => min (el b l i) (el d l i)) ∧
      c.writes s (.imax h t a b d) a r (is false true fun l i => max (el b l i) (el d l i))) ∧
    (ready [(b, r)] →
      c.writes s (.iabs h t sat nf a b) a r (is sat nf fun l i => ((el b l i).natAbs : Int)) ∧
      c.writes s (.ineg h t sat nf a b) a r (is sat nf fun l i => -el b l i)) ∧
    (ready [(b, r), (d, r), (e, r)] →
      c.writes s (.imad h t sat nf a b d e) a r (is sat nf fun l i => el b l i * el d l i + el e l i)) ∧
    (s.laneReady h.rg h.sw (some h) [(a, 1)] [(b, 1), (d, 1), (e, 1)] = some c → ∀ bs cs : Bool,
      let byte (sg : Bool) (o : Opnd) (l j : Nat) : Int :=
        if sg then (elemBits 8 (c.read32 o l) j).toInt else (elemBits 8 (c.read32 o l) j).toNat
      let sum (l : Nat) : Int := (elemBits 32 (c.read32 e l) 0).toInt + byte bs b l 0 * byte cs d l 0 +
        byte bs b l 1 * byte cs d l 1 + byte bs b l 2 * byte cs d l 2 + byte bs b l 3 * byte cs d l 3
      c.writes s (.idot4 h bs cs sat nf a b d e) a 1 fun l v f =>
        elemBits 32 v 0 = intResult .i32 sat (sum l) ∧
        f = if sat && !nf && !inTypeRange .i32 (sum l) then 32 else 0)

/-- Logic, shifts and bit counts work on the pattern of each element; a shift by the width or more gives zeros or copies of the
top bit, a rotate takes its count modulo the width; no flag is set (R152). -/
def Obligations.LaneLogicAndShifts : Prop :=
  ∀ (s : State) (h : Hdr) (c : Lane) (t : ITy) (a b d : Opnd),
    let r := t.regs
    let w := t.width
    let el (o : Opnd) (l i : Nat) : BitVec w := elemBits w (c.readIntOp t o l) i
    let is (x : Nat → Nat → BitVec w) (l v f : Nat) : Prop := (∀ i < elemCount t, elemBits w v i = x l i) ∧ f = 0
    (s.laneReady h.rg h.sw (some h) [(a, r)] [(b, r), (d, r)] = some c →
      c.writes s (.and h t a b d) a r (is fun l i => el b l i &&& el d l i) ∧
      c.writes s (.or h t a b d) a r (is fun l i => el b l i ||| el d l i) ∧
      c.writes s (.xor h t a b d) a r (is fun l i => el b l i ^^^ el d l i)) ∧
    (s.laneReady h.rg h.sw (some h) [(a, r)] [(b, r)] = some c →
      c.writes s (.not h t a b) a r (is fun l i => ~~~(el b l i)) ∧
      c.writes s (.popc h t a b) a r
        (is fun l i => BitVec.ofNat w ((List.range w).filter (el b l i).getLsbD).length) ∧
      c.writes s (.clz h t a b) a r (fun l v f => f = 0 ∧ ∀ i < elemCount t, ∃ z ≤ w, elemBits w v i = BitVec.ofNat w z ∧
        (∀ j < z, (el b l i).getMsbD j = false) ∧ (z < w → (el b l i).getMsbD z = true)) ∧
      c.writes s (.brev h t a b) a r
        (fun l v f => f = 0 ∧ ∀ i < elemCount t, ∀ j < w, (elemBits w v i).getLsbD j = (el b l i).getMsbD j)) ∧
    (s.laneReady h.rg h.sw (some h) [(a, r)] [(b, r), (d, 1)] = some c →
      let n (l i : Nat) : Nat := if t.is64 then c.read32 d l else (el d l i).toNat
      c.writes s (.shl h t a b d) a r (is fun l i => el b l i <<< n l i) ∧
      c.writes s (.shr h t a b d) a r (is fun l i => el b l i >>> n l i) ∧
      c.writes s (.sha h t a b d) a r (is fun l i => (el b l i).sshiftRight (n l i)) ∧
      c.writes s (.rot h t a b d) a r (is fun l i => (el b l i).rotateLeft (n l i)))

/-- BFX takes a bit field and BFI places one, LEA adds a scaled offset to a 64-bit base, ICMP writes one predicate by its
condition, and PLOP applies a truth table to two predicates (R153 to R155, R170). -/
def Obligations.LaneFieldsAndCompares : Prop :=
  ∀ (s : State) (h : Hdr) (c : Lane) (t : ITy) (a b d e x : Opnd),
    let ready (n : Nat) (srcs : List (Opnd × Nat)) : Prop := s.laneReady h.rg h.sw (some h) [(a, n)] srcs = some c
    let w32 (o : Opnd) (l : Nat) : BitVec 32 := BitVec.ofNat 32 (c.read32 o l)
    let mask (n : Nat) : BitVec 32 := BitVec.ofNat 32 (2 ^ n - 1)
    (ready 1 [(b, 1), (d, 1), (e, 1)] → (t = .i32 ∨ t = .n32) → c.writes s (.bfx h t a b d e) a 1 fun l v f =>
      let p := c.read32 d l
      let n := min (c.read32 e l) (32 - p)
      let y := (w32 b l >>> p) &&& mask n
      f = 0 ∧ BitVec.ofNat 32 v =
        if 32 ≤ p ∨ n = 0 then 0 else if t = .i32 ∧ y.getLsbD (n - 1) = true then y - BitVec.ofNat 32 (2 ^ n) else y) ∧
    (ready 1 [(b, 1), (d, 1), (e, 1), (x, 1)] → (t = .i32 ∨ t = .n32) → c.writes s (.bfi h t a b d e x) a 1 fun l v f =>
      let p := c.read32 e l
      let m := mask (min (c.read32 x l) (32 - p)) <<< p
      f = 0 ∧ BitVec.ofNat 32 v = (w32 d l &&& ~~~m) ||| ((w32 b l <<< p) &&& m)) ∧
    (ready 2 [(b, 2), (d, 1), (e, 1)] → c.writes s (.lea h t a b d e) a 2 fun l v f =>
      f = 0 ∧ BitVec.ofNat 64 v = BitVec.ofNat 64 (c.read 2 (wrapTo 64) b l) +
        ((if t.signed then (w32 d l).signExtend 64 else (w32 d l).setWidth 64) <<< (c.read32 e l % 64))) ∧
    (s.laneReady h.rg h.sw (some h) [(a, 1)] [(b, t.regs), (d, t.regs)] = some c → t.unpacked = true → ∀ cc < 8,
      c.writes s (.icmp h t cc a b d) a 1 fun l v f =>
        let y := elemInt t (c.readIntOp t b l) 0
        let z := elemInt t (c.readIntOp t d l) 0
        let m := elemBits t.width (c.readIntOp t b l) 0 &&& elemBits t.width (c.readIntOp t d l) 0
        f = 0 ∧ v = ([decide (y = z), decide (y ≠ z), decide (y < z), decide (y ≤ z), decide (z < y), decide (z ≤ y),
          decide (m ≠ 0), decide (m = 0)].getD cc false).toNat) ∧
    (ready 1 [(b, 1), (d, 1)] → ∀ tt, c.writes s (.plop h tt a b d) a 1 fun l v f =>
      f = 0 ∧ v = (tt.testBit (2 * (c.readP b l).toNat + (c.readP d l).toNat)).toNat)

/-- Float arithmetic (R157, R160): one exact value per element, rounded once in the instruction's mode and then saturated; a
signalling NaN sets NV; FMIN and FMAX select without rounding. -/
def Obligations.LaneFloatArithmetic : Prop :=
  ∀ (s : State) (h : Hdr) (c : Lane) (t : FTy) (r : Rnd) (sat : Sat) (nf : Bool) (a b d e : Opnd),
    let ready (srcs : List (Opnd × Nat)) : Prop := s.laneReady h.rg h.sw (some h) [(a, 1)] srcs = some c
    let f := fmtOf t
    let m := c.mode r
    let w := f.width
    let el (o : Opnd) (l i : Nat) : FVal := f.decode (elemBits w (c.readFlt t o l) i).toNat
    let gives (i : Instr) (sat : Sat) (m : Rnd) (os : List Opnd) (x : List FVal → XVal) : Prop :=
      ready (os.map fun o => (o, 1)) → c.rounds s i a 1 (32 / w) w nf fun l k st =>
        let vs := os.map fun o => el o l k
        finishX f m sat st 0 (vs.any FVal.isSig) (x vs)
    let p (vs : List FVal) (i j : Nat) : FVal := prod (vs.getD i .zero) (vs.getD j .zero)
    let bad (vs : List FVal) (i j : Nat) : Bool := badProd (vs.getD i .zero) (vs.getD j .zero)
    gives (.fadd h t r sat nf a b d) sat m [b, d] (fun vs => sumX m false vs) ∧
    gives (.fsub h t r sat nf a b d) sat m [b, d] (fun vs => sumX m false [vs.getD 0 .zero, (vs.getD 1 .zero).negate]) ∧
    gives (.fmul h t r sat nf a b d) sat m [b, d] (fun vs => sumX m (bad vs 0 1) [p vs 0 1]) ∧
    gives (.ffma h t r sat nf a b d e) sat m [b, d, e] (fun vs => sumX m (bad vs 0 1) [p vs 0 1, vs.getD 2 .zero]) ∧
    gives (.fmin h t nf a b d) .wrap .rn [b, d] (fun vs => XVal.ofVal (fSelect false (vs.getD 0 .zero) (vs.getD 1 .zero))) ∧
    gives (.fmax h t nf a b d) .wrap .rn [b, d] (fun vs => XVal.ofVal (fSelect true (vs.getD 0 .zero) (vs.getD 1 .zero))) ∧
    (ready [(b, 1), (d, 1)] → c.rounds s (.fscl h t r sat nf a b d) a 1 (32 / w) w nf fun l k st =>
      finishX f m sat st 0 (el b l k).isSig (XVal.ofVal (scaleVal (el b l k) (BitVec.ofNat 32 (c.read32 d l)).toInt))) ∧
    (ready [(b, 1), (d, 1), (e, 1)] → (t = .f16x2 ∨ t = .bf16x2) → c.rounds s (.fdot2 h t r sat nf a b d e) a 1 1 32 nf
      fun l _ st =>
        let z := fp32.decode (c.readFlt .f32 e l)
        finishX fp32 m sat st 0 ((el b l 0).isSig || (el b l 1).isSig || (el d l 0).isSig || (el d l 1).isSig || z.isSig)
          (sumX m (badProd (el b l 0) (el d l 0) || badProd (el b l 1) (el d l 1))
            [prod (el b l 0) (el d l 0), prod (el b l 1) (el d l 1), z]))

/-- Functions of one operand, FRND, FCLS, FCMP, CVT and the microscaled conversions (R158 to R165). Where the enclosure of a
function does not decide its rounding the value is free (log 6). The element counts of a CVT between a 64-bit and an 8-bit type, and
that an infinite value which becomes E4M3 raises no flag, are the model's choices (logs 86 and 89), as are the x byte of a block and the
code of a negative zero in MXQ (log 20). -/
def Obligations.LaneFloatFunctionsAndConversions : Prop :=
  ∀ (s : State) (h : Hdr) (c : Lane) (t : FTy) (r : Rnd) (sat : Sat) (nf : Bool) (a b d : Opnd),
    let ready (n : Nat) (srcs : List (Opnd × Nat)) : Prop := s.laneReady h.rg h.sw (some h) [(a, n)] srcs = some c
    let f := fmtOf t
    let w := f.width
    let bp (l i : Nat) : Nat := (elemBits w (c.readFlt t b l) i).toNat
    (ready 1 [(b, 1)] → ∀ k ∈ [(Instr.frcp h t r sat nf a b, FFun.rcp), (.frsq h t r sat nf a b, .rsq),
        (.fsqrt h t r sat nf a b, .sqrt), (.fexp2 h t r sat nf a b, .exp2), (.flog2 h t r sat nf a b, .log2),
        (.fsin h t r sat nf a b, .sin), (.fcos h t r sat nf a b, .cos), (.ftanh h t r sat nf a b, .tanh)],
      c.rounds s k.1 a 1 (32 / w) w nf fun l i st => finishX f (c.mode r) sat st (Config.freeFunction k.2.code (bp l i) t.code)
        (f.decode (bp l i)).isSig (funX k.2 (f.decode (bp l i)))) ∧
    (ready 1 [(b, 1)] → c.rounds s (.frnd h t r sat nf a b) a 1 (32 / w) w nf fun l i st =>
      let o := roundIntegral (c.mode r) st (f.decode (bp l i))
      (f.encode (satFloat f sat o.v), o.flags, o.used)) ∧
    (ready 1 [(b, 1)] → c.writes s (.fcls h t a b) a 1 fun l v fl => fl = 0 ∧
      (∀ i < 32 / w, (elemBits 4 v i).toNat = fClass f (f.decode (bp l i))) ∧ v < 2 ^ (4 * (32 / w))) ∧
    (ready 1 [(b, 1), (d, 1)] → ∀ cc, c.writes s (.fcmp h nf cc a b d) a 1 fun l v fl =>
      let x := fp32.decode (c.readFlt .f32 b l)
      let y := fp32.decode (c.readFlt .f32 d l)
      v = (fCond cc x y).toNat ∧ fl = if !nf && (x.isSig || y.isSig) then 16 else 0) ∧
    (∀ dt sty : Ty, ready (cvtDst dt sty) [(b, cvtSrc dt sty)] →
      c.rounds s (.cvt h dt sty r sat nf a b) a (cvtDst dt sty) (cvtN dt sty) dt.width nf fun l i st =>
        cvtElem dt sty (c.mode r) sat st
          (elemBits sty.width (c.read (cvtSrc dt sty) (cvtImmVal sty (cvtSrc dt sty)) b l) i).toNat) ∧
    ∀ mf : MxFmt,
      let sh := mxShape s mf t
      (ready sh.imageRegs [(b, sh.valueRegs)] →
        let block (k : Nat) : List FVal := (List.range 32).map fun j => c.mxValue sh t b (32 * k + j)
        let words : List Byte := (List.range sh.nb).flatMap fun k => (mxImage mf (mxQuant mf 0 0xFE (block k))).take (4 * sh.words)
        c.writes s (.mxq h mf t nf a b) a sh.imageRegs fun l v fl =>
          (∀ i < sh.imageRegs, (elemBits 32 v i).toNat = leAt words (4 * (i * sh.g + l)) 4) ∧
          fl = if nf then 0 else orAll ((List.range sh.nb).map fun k => mxQuantFlags mf (block k) (mxQuant mf 0 0xFE (block k)))) ∧
      (ready sh.valueRegs [(b, sh.imageRegs)] →
        let value (j : Nat) : FVal := (mxImageVals mf ((List.range sh.words).flatMap fun w =>
          leBytes 4 (c.streamWord sh.g b (j / 32 * sh.words + w)))).getD (j % 32) .zero
        c.writes s (.mxd h mf t nf a b) a sh.valueRegs fun l v _ => ∀ i < sh.valueRegs, ∀ e < sh.e,
          (i * sh.g + l) * sh.e + e < 32 * sh.nb →
          (elemBits w (elemBits 32 v i).toNat e).toNat =
            (finishX f .rn .wrap 0 0 false (XVal.ofVal (value ((i * sh.g + l) * sh.e + e)))).1)

/-- The one rounding of the float operations, on every exact magnitude x = m·2^e and in every mode of R53. A value that the
format represents comes out as it is, with no flag and no draw, and its pattern is the one that it is read from (R47, R55).
Any other x up to the largest finite goes to one of its two neighbours: down or up as the mode directs, to the nearer one with
R53's ties, or, in RS, up exactly when the draw r carries (R55); NX is set, and UF with it when the result is tiny. Beyond the
largest finite the value is rounded as if the exponent range were unbounded: when that rounding goes past the largest finite
it overflows, delivers R398's value for the mode and sets OF and NX, else it delivers the largest finite with NX alone.
Infinite results pass through, and encode as NaN in E4M3 (R398). -/
def Obligations.RoundingFollowsTheMode : Prop :=
  (∀ f ∈ [fp32, fp16, bf16, e4m3, e5m2], ∀ v < 2 ^ f.width, (f.decode v).isNan = false →
    f.encode (f.decode v) = v ∧ ∀ mode r free,
      let o := roundX f mode r free (XVal.ofVal (f.decode v))
      f.encode o.v = v ∧ o.flags = 0 ∧ o.used = false) ∧
  (∀ f ∈ [fp32, fp16, bf16, e4m3, e5m2], ∀ (mode : Rnd) (r free m : Nat) (neg : Bool) (e : Int), mode ≠ .dyn → r < 2 ^ 32 →
    let mag (v : Nat) (y : ℚ) : Prop := ∃ (k : Nat) (q : Int), f.decode v = .fin false k q ∧ y = k * 2 ^ q
    let has (y : ℚ) : Prop := ∃ v < 2 ^ f.width, mag v y
    let even (y : ℚ) : Prop := ∃ v < 2 ^ f.width, v % 2 = 0 ∧ mag v y
    let x : ℚ := m * 2 ^ e
    let o := roundX f mode r free (.fin neg m e)
    let is (y : ℚ) : Prop := ∃ (k : Nat) (q : Int), o.v = .fin neg k q ∧ (k : ℚ) * 2 ^ q = y
    let down : Prop := mode = .rz ∨ (mode = .ru ∧ neg = true) ∨ (mode = .rd ∧ neg = false)
    let up : Prop := (mode = .ru ∧ neg = false) ∨ (mode = .rd ∧ neg = true)
    let nearest : Prop := mode = .rn ∨ mode = .ra
    let big : ℚ := f.maxM * 2 ^ f.maxE
    let gap : ℚ := 2 ^ f.maxE
    let overflows (v : FVal) : Prop := o.v = v ∧ o.flags = fOF ||| fNX
    let stays : Prop := is big ∧ o.flags = fNX
    (has big ∧ ∀ y, has y → y ≤ big) ∧
    (x ≤ big → ∀ lo hi : ℚ, (has lo ∧ lo ≤ x ∧ ∀ y, has y → y ≤ x → y ≤ lo) → (has hi ∧ x ≤ hi ∧ ∀ y, has y → x ≤ y → hi ≤ y) →
      (down → is lo) ∧ (up → is hi) ∧
      (nearest → (x - lo < hi - x → is lo) ∧ (hi - x < x - lo → is hi)) ∧
      (mode = .ra → hi - x = x - lo → is hi) ∧
      (mode = .rn → lo < hi → hi - x = x - lo → ∃ y, (y = lo ∨ y = hi) ∧ even y ∧ is y) ∧
      (mode = .rs → if hi - lo ≤ x - lo + r * (hi - lo) / 2 ^ 32 then is hi else is lo) ∧
      ∀ y, is y → (o.flags = if lo = hi then 0 else fNX ||| (if 0 < y ∧ y < 2 ^ (f.minE + f.fbits) then fUF else 0)) ∧
        o.used = (mode == .rs && decide (lo ≠ hi))) ∧
    (big < x →
      (down → if big + gap ≤ x then overflows (.fin neg f.maxM f.maxE) else stays) ∧
      (up → overflows (.inf neg)) ∧
      (nearest → (x < big + gap / 2 → stays) ∧ (big + gap / 2 < x → overflows (.inf neg)) ∧
        (x = big + gap / 2 → (mode = .rn ∧ even big → stays) ∧ (¬(mode = .rn ∧ even big) → overflows (.inf neg)))) ∧
      (mode = .rs → if big + gap ≤ x + r * gap / 2 ^ 32 then overflows (.fin neg f.maxM f.maxE) else stays) ∧
      o.used = (mode == .rs))) ∧
  (∀ f ∈ [fp32, fp16, bf16, e4m3, e5m2], ∀ mode r free neg, (roundX f mode r free (.inf neg false)).v = .inf neg) ∧
  ∀ neg, e4m3.encode (.inf neg) = e4m3.nan ∧ (e4m3.decode e4m3.nan).isNan = true

/-- Moves (R166, R171, R172, R199): MOV, SEL and LWRS copy, a cross-lane move takes the source lane's register or 0 where that
lane delivers nothing (R148), VOTE combines the active lanes' predicates, LRDS reads special registers, and NOP only goes on;
an invalid rounding mode for %rmode traps (R54). -/
def Obligations.LaneMovesAndVotes : Prop :=
  ∀ (s : State) (h : Hdr) (c : Lane) (w : MTy) (a b d e : Opnd),
    let ready (n : Nat) (srcs : List (Opnd × Nat)) : Prop := s.laneReady h.rg h.sw (some h) [(a, n)] srcs = some c
    let same (f : Nat → Nat) (l v fl : Nat) : Prop := v = f l ∧ fl = 0
    let cross (k : Nat → Nat) (l : Nat) : Nat :=
      if k l < c.g.info.size ∧ (strandLanes c.gang).getLsbD (k l) = true ∧ c.g.regs.live.getLsbD (k l) = true then
        c.read w.regs (fun _ => 0) b (k l) else 0
    let P (l : Nat) : Bool := c.readP b l
    (ready w.regs [(b, w.regs)] → c.writes s (.mov h w a b) a w.regs (same (c.readMem w b))) ∧
    (ready w.regs [(b, w.regs)] → (∃ l ∈ lanesOf c.act, 6 ≤ c.readMem w b l % 8) → a = .sp 10 →
      exec (.mov h w a b) s = c.trap 0x01) ∧
    (ready w.regs [(b, w.regs), (d, w.regs), (e, 1)] → c.writes s (.sel h w a b d e) a w.regs
      (same fun l => if c.readP e l then c.readMem w b l else c.readMem w d l)) ∧
    (ready w.regs [(b, w.regs), (d, 1)] →
      c.writes s (.shfl h w a b d) a w.regs (same (cross (c.read32 d))) ∧
      c.writes s (.bcst h w a b d) a w.regs (same (cross (c.read32 d))) ∧
      c.writes s (.shflx h w a b d) a w.regs (same (cross fun l => l ^^^ (c.read32 d l % 32)))) ∧
    (ready 1 [(b, 1)] →
      let act := lanesOf c.act
      c.writes s (.vote h 0 a b) a 1 (fun _ v fl => fl = 0 ∧ ∀ l < 32, v.testBit l = (c.act.getLsbD l && P l)) ∧
      c.writes s (.vote h 1 a b) a 1 (same fun _ => if ∃ l ∈ act, P l = true then 1 else 0) ∧
      c.writes s (.vote h 2 a b) a 1 (same fun _ => if ∀ l ∈ act, P l = true then 1 else 0) ∧
      c.writes s (.vote h 3 a b) a 1 (same fun _ => if (∀ l ∈ act, P l = true) ∨ (∀ l ∈ act, P l = false) then 1 else 0) ∧
      c.writes s (.pmov h true a b) a 1 (same fun l => ((c.read32 b l).testBit l).toNat) ∧
      c.writes s (.pmov h false a b) a 1 (fun _ v fl => fl = 0 ∧ ∀ k < 32, v.testBit k =
        (decide (k < c.g.info.size) && (strandLanes c.gang).getLsbD k && c.g.regs.live.getLsbD k && P k)) ∧
      c.writes s (.lrds h false a b) a 1 (same (c.read32 b)) ∧
      c.writes s (.lwrs h a b) a 1 (same (c.read32 b))) ∧
    (ready 2 [(b, 1)] → c.writes s (.lrds h true a b) a 2 (same fun _ => c.s.ns)) ∧
    (s.laneReady h.rg h.sw (some h) [] [] = some c → exec (.nop h) s = .next (c.done []))

/-- Reductions, scans, transposes and tile moves (R68, R69, R168, R169, R302): an integer REDL gives every active lane the
operator over the active lanes, its float form and SCNL the fold over R69's spans; GTRN transposes the active lanes' elements,
and AMOVR and AMOVW move the elements that lie inside the tile. For the dynamic rounding under a stochastic `%rmode`, REDL and
SCNL round with draw 0: the model's choice (log 82). -/
def Obligations.LaneReductionsTransposesTiles : Prop :=
  ∀ (s : State) (h : Hdr) (c : Lane) (a b d e : Opnd),
    let ready (n : Nat) (srcs : List (Opnd × Nat)) : Prop := s.laneReady h.rg h.sw (some h) [(a, n)] srcs = some c
    (∀ (t : ITy) (nf : Bool), t.unpacked = true → c.g.info.size ≤ 32 → ready t.regs [(b, t.regs)] →
      let xs : List (BitVec t.width) := ((List.range c.g.info.size).filter c.act.getLsbD).map fun l =>
        elemBits t.width (c.read t.regs (fun _ => 0) b l) 0
      let red (op : Nat) (f : BitVec t.width → BitVec t.width → BitVec t.width) (z : BitVec t.width) : Prop :=
        c.writes s (.redl h (.int t) op .rn .wrap nf a b) a t.regs fun _ v fl => elemBits t.width v 0 = xs.foldl f z ∧ fl = 0
      red 0 (· + ·) 0 ∧ red 3 (· &&& ·) (BitVec.allOnes _) ∧ red 4 (· ||| ·) 0 ∧ red 5 (· ^^^ ·) 0) ∧
    (∀ (t : Ty) (op : Nat) (excl : Bool) (r : Rnd) (sat : Sat) (nf : Bool), ready (tyRegs t) [(b, tyRegs t)] →
      let tree (i : Nat) : List (List RVal) := redLevels t op (c.mode r) 5 (c.redLeaves t op b i)
      let is (n : Nat → Nat) (l v _ : Nat) : Prop := ∀ i < 32 * tyRegs t / t.width, (elemBits t.width v i).toNat =
        (redFinal t op sat (scanPrefix t op (c.mode r) (tree i) (n l))).1 % 2 ^ t.width
      c.writes s (.redl h t op r sat nf a b) a (tyRegs t) (is fun _ => c.g.info.size) ∧
      c.writes s (.scnl h t op excl r sat nf a b) a (tyRegs t) (is fun l => if excl then l else l + 1)) ∧
    (∀ w : MTy, w = .b8 ∨ w = .b16 ∨ w = .b32 → ready 8 [(b, 8)] → ∀ v0, b = .v v0 →
      let m := 4 / w.bytes
      let k := 8 / m
      let src (q row col : Nat) : Nat := if c.act.getLsbD (k * q + col / m) then
        (elemBits (8 * w.bytes) (c.g.getV (v0 + row) (k * q + col / m)).toNat (col % m)).toNat else 0
      (k ≤ c.g.info.size → c.writes s (.gtrn h w a b) a 8 fun l v fl => fl = 0 ∧ ∀ row < 8, ∀ j < m,
        (elemBits (8 * w.bytes) (elemBits 32 v row).toNat j).toNat = src (l / k) (l % k * m + j) row) ∧
      (c.g.info.size < k → exec (.gtrn h w a b) s = c.trap 0x01)) ∧
    ∀ w : MTy, w.whole = true →
      let spot (l i : Nat) : Nat × Nat := (c.read32 d l, c.read32 e l + l + c.g.info.size * i)
      (∀ t, b = .a t → ready w.regs [(b, 1), (d, 1), (e, 1)] → c.writes s (.amovr h w a b d e) a w.regs fun l v fl => fl = 0 ∧
        ∀ i < w.regs, elemBits 32 v i =
          if (spot l i).1 < 64 ∧ (spot l i).2 < 64 then c.g.getTile t (spot l i).1 (spot l i).2 else 0) ∧
      ∀ t, a = .a t → ready 1 [(b, w.regs), (d, 1), (e, 1)] → ∃ rs, exec (.amovw h w a b d e) s = .next (c.done rs) ∧
        (∀ x ∈ rs, ∃ l ∈ lanesOf c.act, ∃ i < w.regs, (spot l i).1 < 64 ∧ (spot l i).2 < 64 ∧
          x = { own := c.gang, dest := .tile t (spot l i).1 (spot l i).2, val := elemBits 32 (c.read w.regs (fun _ => 0) b l) i,
                orIn := false }) ∧
        (∀ l ∈ lanesOf c.act, ∀ i < w.regs, (spot l i).1 < 64 → (spot l i).2 < 64 →
          ∃ x ∈ rs, x.dest = .tile t (spot l i).1 (spot l i).2) ∧ (rs.map (·.dest)).Nodup

/-- What a lane instruction's results show once they have landed (R39, R59): each active lane's registers hold its value, its
flags are ORed in, and nothing else of the group's registers has changed. A result for a scalar register, for a tile element, for
`%flg`, `%rmode` or `%lfsr` lands there and nowhere else; bits [31:6] of `%flg` and [31:3] of `%rmode` stay 0 (R54, R58), and a 0
written to `%lfsr` is stored as 1 (R56). -/
def Obligations.LaneResultsLand : Prop :=
  (∀ (g : Group) (own : BitVec 8) (v : Word) (l r : Nat), g.pend = [] → own ≠ 0 →
    let land (d : Dest) : Group := { g with pend := [{ own := own, dest := d, val := v, orIn := false }] }.landOf own
    (let h := land (.s r)
    h = { g with regs := { g.regs with s := h.regs.s } } ∧ ∀ k, h.getS k = if k = r then v else g.getS k) ∧
    (∀ t row col, row < 64 → col < 64 →
      let h := land (.tile t row col)
      h = { g with regs := { g.regs with tiles := h.regs.tiles } } ∧ ∀ t' row' col', row' < 64 → col' < 64 →
        h.getTile t' row' col' = if t' = t ∧ row' = row ∧ col' = col then v else g.getTile t' row' col') ∧
    (let h := land (.sp 9 l)
    h = { g with regs := { g.regs with flg := h.regs.flg } } ∧ ∀ k, h.getFlg k = if k = l then v &&& 63 else g.getFlg k) ∧
    land (.sp 10 l) = { g with regs := { g.regs with rmode := v.toNat % 8 } } ∧
    (let h := land (.sp 19 l)
    h = { g with regs := { g.regs with lfsr := h.regs.lfsr } } ∧
      ∀ k, h.getLfsr k = if k = l then (if v = 0 then 1 else v) else g.getLfsr k)) ∧
  ∀ (c : Lane) (r n : Nat) (val fl : Nat → Nat), c.g.pend = [] → c.gang ≠ 0 →
    let land (d : Opnd) : Group := { c.g with pend := c.results d n val fl }.landOf c.gang
    let flags (g : Group) : Prop := ∀ l < 32, g.getFlg l =
      if c.act.getLsbD l ∧ fl l ≠ 0 then (c.g.getFlg l ||| BitVec.ofNat 32 (fl l)) &&& 63 else c.g.getFlg l
    let g := land (.v r)
    let p := land (.p r)
    (∀ q < 32, ∀ k, g.getV k q =
      if c.act.getLsbD q ∧ r ≤ k ∧ k < r + n then BitVec.ofNat 32 (val q / 2 ^ (32 * (k - r))) else c.g.getV k q) ∧
    flags g ∧ g = { c.g with regs := { c.g.regs with v := g.regs.v, flg := g.regs.flg } } ∧
    (r < 7 → ∀ q < 32, (p.getP r).getLsbD q = if c.act.getLsbD q then decide (BitVec.ofNat 32 (val q) ≠ 0) else (c.g.getP r).getLsbD q) ∧
    (∀ k, k ≠ r → p.getP k = c.g.getP k) ∧ flags p ∧
    p = { c.g with regs := { c.g.regs with p := p.regs.p, flg := p.regs.flg } }

/-- A lane access that passes its checks in every lane issues one access for each lane, in lane order, with its address, data,
destinations and the hint that its kind of line heeds (R64, R173 to R189); no byte of memory and no register changes yet, and `%uas` counts the writes. PFX and FENCE go
on as well (R184, R185). -/
def Obligations.LaneAccessesIssue : Prop :=
  ∀ (s s' : State) (h : Hdr) (c : Lane) (ck : List LaneChk) (w : MTy) (ty : ATy) (aop : AOp) (sx prom seq : Bool) (o : MOrd)
    (sc : Scope) (hint : Hint) (a b d e : Opnd) (off : Int), (∀ x ∈ c.g.holds, x.own &&& c.gang = 0) →
    let issues (i : Instr) (dsts srcs : List (Opnd × Nat)) (lanes : List Nat) (want : Want) (n : Nat) (off : Int)
        (k : AccKind) (f : Nat → Access → Access) : Prop :=
      s.laneReady h.rg h.sw (some h) dsts srcs = some c →
      c.s.laneChecks c.g (c.g.lanes.wpSkip &&& c.gang != 0) want hint (fun l => wrapTo 64 ((c.read 2 (fun _ => 0) b l : Nat) + off)) n
        lanes = (s', ck) →
      (∀ x ∈ ck, ∃ l, x.chk = .ok l ∧ s'.bankStalls l = false) →
      ∃ (t : State) (g : Group) (accs : List Access), exec i s = .next (t.setGroup (g.laneNext c.gang)) ∧
        t.groups = c.s.groups ∧ t.mem.flight = s'.mem.flight ++ accs ∧ accs.length = lanes.length ∧ s.sameBytes t ∧
        g.regs = c.g.regs ∧ g.lanes = { c.g.lanes with wpSkip := c.g.lanes.wpSkip &&& ~~~c.gang } ∧ g.pend = c.g.pend ∧
        g.uas = c.g.uas + (if k.counts then lanes.length else 0) ∧
        ∀ (j l : Nat) (loc : Loc) (hits : Nat), ck[j]? = some ⟨l, .ok loc, hits⟩ → ∃ id rel drain,
          accs[j]? = some (f l { c.g.access id k loc n with
            scalar := false, own := c.gang, lane := l, ord := o, sc := sc, hint := hintOn loc hint, relWait := rel, drain := drain })
    let act := lanesOf c.act
    issues (.ld h w sx o sc prom hint a b off) [(a, w.regs)] [(b, 2)]
      (if oneLane a then act.take 1 else act) .load w.bytes off .load
      (fun l x => { x with dests := ldDests c.act a w.regs l, signed := sx }) ∧
    issues (.st h w o sc hint seq a b d off) [(a, 1)] [(b, 2), (d, w.regs)] act .store w.bytes off .store
      (fun l x => { x with data := leBytes w.bytes (c.readMem w d l), tagDest := tagDest seq a 0 l }) ∧
    issues (.atom h aop ty o sc prom hint seq a b d) [(a, ty.regs + if seq then 1 else 0)] [(b, 2), (d, ty.regs)] act
      (.atomic (aopHost aop ty)) (4 * ty.regs) 0 (.rmwLane aop ty)
      (fun l x => { x with data := leBytes (4 * ty.regs) (c.readAty ty d l), dests := loadDests a ty.regs l,
                           tagDest := tagDest seq a ty.regs l }) ∧
    issues (.acas h ty o sc prom hint seq a b d e) [(a, ty.regs + if seq then 1 else 0)]
      [(b, 2), (d, ty.regs), (e, ty.regs)] act (.atomic true) (4 * ty.regs) 0 .cas
      (fun l x => { x with data := leBytes (4 * ty.regs) (c.readAty ty d l), data2 := leBytes (4 * ty.regs) (c.readAty ty e l),
                           dests := loadDests a ty.regs l, tagDest := tagDest seq a ty.regs l }) ∧
    issues (.ared h aop ty o sc hint seq a b d) [(a, 1)] [(b, 2), (d, ty.regs)] act (.atomic (aopHost aop ty)) (4 * ty.regs) 0
      (.rmwLane aop ty)
      (fun l x => { x with data := leBytes (4 * ty.regs) (c.readAty ty d l), tagDest := tagDest seq a 0 l }) ∧
    (s.laneReady h.rg h.sw (some h) [] [(b, 2)] = some c → ∃ t : State,
      exec (.pfx h sc hint b off) s = .next ({ c with s := t }.done []) ∧ t.groups = c.s.groups ∧ s.sameSettled t ∧
        t.mem.flight = s.mem.flight) ∧
    (s.laneReady h.rg h.sw (some h) [] [] = some c → ∃ (t : State) (g : Group),
      exec (.fence h o sc prom) s = .next ({ c with s := t, g := g }.done []).settle ∧ t.groups = c.s.groups ∧ s.sameBytes t ∧
        g = { c.g with holds := g.holds })

/-- Faults of lane accesses (R174, R175), of loads, stores and atomics with every order, scope, hint and destination. When a
lane fails at a step that stops the instruction, nothing is issued, and the trap has the code of the earliest step that a lane
fails, with R192's `%wmask` and SUBC at step 6 and SUBC 0x08 at step 7. A lane that fails one of steps 1 to 5 counts as
matched by no comparator: the model's choice (log 89). When lanes fail at steps 3 and 8 only, the accesses of the lanes that
pass go out in one issue, in lane order, and the others are left to execute again: the trap has 0x15 if a lane fails step 8,
with SUBC[0] set when one fails step 3 too, else 0x04, and `%fltmask` names the lanes that fail. That trap is kept as the next
that the group's lane stream does (R43); that no gang issues before it is the model's choice (log 12). -/
def Obligations.LaneAccessFaults : Prop :=
  (∀ (s s' s'' : State) (h : Hdr) (c : Lane) (ck : List LaneChk) (w : MTy) (ty : ATy) (aop : AOp) (sx prom seq : Bool) (o : MOrd)
      (sc : Scope) (hint : Hint) (a b d e : Opnd) (off : Int), (∀ x ∈ c.g.holds, x.own &&& c.gang = 0) →
    let faults (i : Instr) (dsts srcs : List (Opnd × Nat)) (lanes : List Nat) (want : Want) (n : Nat) (off : Int) (counts : Bool) :
        Prop :=
      s.laneReady h.rg h.sw (some h) dsts srcs = some c →
      c.s.laneChecks c.g (c.g.lanes.wpSkip &&& c.gang != 0) want hint (fun l => wrapTo 64 ((c.read 2 (fun _ => 0) b l : Nat) + off)) n
        lanes = (s', ck) →
      let fails (st : Nat) : Prop := ∃ x ∈ ck, x.stage = st
      let traps (g : Group) (r : TrapReq) : Prop :=
        ({ c with s := s' }.trapWaits s'.nextId = true → exec i s = .next s') ∧
        ({ c with s := s' }.trapWaits s'.nextId = false → s'.handlerReady (c.g.landOf c.gang) = some s'' →
          exec i s = .next (s''.setGroup ((g.landOf c.gang).enterHandler r)) ∧ s''.mem.flight = s'.mem.flight)
      let cause := if ck.any fun x => x.stage == 8 then 0x15 else 0x04
      let subc := if (ck.any fun x => x.stage == 8) && (ck.any fun x => x.stage == 3) then 1 else 0
      let bad := maskOf ((ck.filter fun x => x.stage != 9).map (·.lane))
      let pass := ck.filter fun x => x.stage == 9
      (∀ x ∈ ck, ∀ st code, x.chk = .fail st code →
        (∃ y ∈ ck, y.stage ∈ [1, 2, 4, 5, 6, 7]) →
        (∀ y ∈ ck, ∀ st' code', y.chk = .fail st' code' → st ≤ st' ∧ (st = st' → code' = code)) →
        (st = 6 → code = 0x10) ∧ (st = 7 → code = 0x0B) ∧
        traps { c.g with lanes := { c.g.lanes with replay := (c.gang, c.act) :: c.g.lanes.replay } }
          { c.laneReq code (if st = 6 then (ck.map (·.hits)).foldl (· ||| ·) 0 else if st = 7 then 0x08 else 0) with
            wmask := maskOf ((ck.filter fun x => x.hits != 0).map (·.lane)) }) ∧
      ((∀ x ∈ ck, x.stage = 3 ∨ x.stage = 8) → ck ≠ [] →
        traps c.g { c.laneReq cause subc with fltmask := maskOf lanes }) ∧
      ((∀ x ∈ ck, x.stage = 3 ∨ x.stage = 8 ∨ x.stage = 9) → fails 9 → fails 3 ∨ fails 8 → (∀ x ∈ ck, x.stalls s' = false) →
        (c.s.mayFault c.g c.s.nextId = true → exec i s = .next c.s) ∧
        (c.s.mayFault c.g c.s.nextId = false → ∃ (t : State) (g : Group) (accs : List Access), exec i s = .next (t.setGroup g) ∧
          t.groups = c.s.groups ∧ s.sameBytes t ∧ g.regs = c.g.regs ∧
          g.lanes = { c.g.lanes with
            wpSkip := c.g.lanes.wpSkip &&& ~~~c.gang
            fault := some { own := c.gang, cause := cause, subc := subc, lpc := c.pc, lanes := bad } } ∧
          g.uas = c.g.uas + (if counts then pass.length else 0) ∧ t.mem.flight = s'.mem.flight ++ accs ∧
          accs.map (·.lane) = pass.map (·.lane) ∧ ∀ x ∈ accs, x.own = c.gang))
    let act := lanesOf c.act
    faults (.ld h w sx o sc prom hint a b off) [(a, w.regs)] [(b, 2)] (if oneLane a then act.take 1 else act) .load w.bytes off
      false ∧
    faults (.st h w o sc hint seq a b d off) [(a, 1)] [(b, 2), (d, w.regs)] act .store w.bytes off true ∧
    faults (.atom h aop ty o sc prom hint seq a b d) [(a, ty.regs + if seq then 1 else 0)] [(b, 2), (d, ty.regs)] act
      (.atomic (aopHost aop ty)) (4 * ty.regs) 0 true ∧
    faults (.acas h ty o sc prom hint seq a b d e) [(a, ty.regs + if seq then 1 else 0)] [(b, 2), (d, ty.regs), (e, ty.regs)] act
      (.atomic true) (4 * ty.regs) 0 true ∧
    faults (.ared h aop ty o sc hint seq a b d) [(a, 1)] [(b, 2), (d, ty.regs)] act (.atomic (aopHost aop ty)) (4 * ty.regs) 0
      true) ∧
  ∀ (s s'' : State) (gid st : Nat) (g : Group) (f : PartFault),
    s.nextTurn = .lane gid st → s.begin.group? gid = some g → g.lanes.running = true → gangOf g.lanes.strands st ≠ 0 →
    g.suspended = false → s.begin.hasTokens g = true → g.holdFirst = false →
    (s.begin.cluster (clusterOf g.place.core)).withhold = false → g.lanes.fault = some f →
    let c : Lane := { s := s.begin, g := { g with lanes := { g.lanes with fault := none } }, gang := f.own, pc := f.lpc,
                      act := f.lanes }
    (c.trapWaits s.begin.nextId = false → s.begin.handlerReady (c.g.landOf f.own) = some s'' →
      step s = .next (s''.setGroup ((c.g.landOf f.own).enterHandler { c.laneReq f.cause f.subc with fltmask := f.lanes }))) ∧
    (c.trapWaits s.begin.nextId = true → step s = .next s.begin)

/-- Branches, joins, calls and ends of lanes (R31, R34 to R37, R195 to R197): each strand of the gang moves by its own active
lanes and stack; strands that part are gangs of their own; LEND ends the block once every participating strand has reached one; LEXIT
takes its lanes out of LIVE, and ends the block when no strand is left. That LEND counts a strand at whichever LEND word it has
reached and marks it (log 30), and that gangs gather again by the depth of their stacks (log 18), are the model's choices. -/
def Obligations.LaneControlFlow : Prop :=
  ∀ (s : State) (h : Hdr) (c : Lane),
    (s.laneReady h.rg h.sw (some h) [] [] = some c →
      let t (j : Nat) : BitVec 4 := strandBits c.act j
      (∀ toff joff : Int, let target := (c.pc : Int) + toff
        let join := (c.pc : Int) + joff
        0 ≤ target → target < c.s.laneLen c.g → 0 ≤ join → join < c.s.laneLen c.g →
        (∀ e ∈ c.strands, t e.2 ≠ e.1.active → t e.2 ≠ 0 → e.1.stack.length ≠ 8) →
        exec (.brl h toff joff) s = .next (c.moved fun j x =>
          if t j = x.active then { x with pc := target.toNat }
          else if t j = 0 then { x with pc := c.pc + 1 }
          else
            { x with
              active := t j
              pc := target.toNat
              stack := { jpc := join.toNat, npc := c.pc + 1, pend := x.active &&& ~~~(t j), save := x.active } :: x.stack })) ∧
      (∀ toff : Int, let target := (c.pc : Int) + toff
        0 ≤ target → target < c.s.laneLen c.g → (∀ e ∈ c.strands, t e.2 ≠ 0 → e.1.stack.length ≠ 8) →
        exec (.lcall h toff) s = .next (c.moved fun j x =>
          if t j = 0 then { x with pc := c.pc + 1 }
          else
            { x with
              active := t j
              pc := target.toNat
              stack := { jpc := 0x3FFFFF, npc := c.pc + 1, pend := 0, save := x.active } :: x.stack })) ∧
      ((∀ e ∈ c.strands, ∃ k r, e.1.stack = k :: r ∧ k.jpc = 0x3FFFFF) →
        exec (.lret h) s = .next (c.moved fun j x =>
          match x.stack with
          | k :: r => { x with active := k.save &&& strandBits c.g.regs.live j, pc := k.npc, stack := r }
          | [] => x)) ∧
      ((c.g.gen = none ∨ c.g.trap ≠ none) → ∃ (t : State) (g : Group),
        exec (.lexit h) s = .next (t.setGroup g) ∧ t.groups = c.s.groups ∧ s.sameBytes t ∧
        g.regs = { c.g.regs with live := c.g.regs.live &&& ~~~c.act } ∧
        let out := modStrands c.gang (fun j x => { x.dropLanes (strandBits g.regs.live j) with
          pc := c.pc + 1, part := x.part && strandBits g.regs.live j != 0 }) c.g.lanes.strands
        g.lanes = if out.all fun x => !x.part then Lanes.idle
          else { c.g.lanes with strands := out })) ∧
    ∀ sw rg, s.laneReady true sw none [] [] = some c →
      exec (.join sw rg) s = .next (c.moved fun j x =>
        match x.stack with
        | e :: r =>
          if e.jpc ≠ c.pc then { x with pc := c.pc + 1 }
          else if e.pend ≠ 0 then
            { x with active := e.pend &&& strandBits c.g.regs.live j, pc := e.npc, stack := { e with pend := 0 } :: r }
          else { x with active := e.save &&& strandBits c.g.regs.live j, pc := c.pc + 1, stack := r }
        | [] => { x with pc := c.pc + 1 }) ∧
      ((c.g.gen = none ∨ c.g.trap ≠ none) → (∀ e ∈ c.strands, e.1.stack = []) → exec (.lend sw rg) s =
        let g := c.g.modLanes (modStrands c.gang fun _ x => { x with reached := true })
        .next (c.s.setGroup (if g.lanes.strands.all fun x => !x.part || x.reached then g.endBlock else g)))

/-- Generators (R253 to R263): GBEG opens a loop after its checks; GYLD places the values of its lanes in lane order in the fill
frame, which becomes ready when it is full, and without a fill frame the group switches; GNXT applies the threshold; GDNE retires
its lanes; GRCV reads the current frame; GRET frees it and goes on once every strand has reached one; GEND closes the loop; the
three switches change sides, and a producer that comes back with no lane left to go on drains (R262). That strands may reach GRET at
different words (log 30), that a switch waits for the loads of the side that stops (log 31), and that the loop closes when no strand
is left (log 32), are the model's choices. -/
def Obligations.Generators : Prop :=
  (∀ (s : State) (c : Lane) (sw rg : Bool) (vw tn : Nat) (poff coff : Int), s.laneReady rg sw none [] [] = some c →
    let prod := (c.pc : Int) + poff
    let cons := (c.pc : Int) + coff
    0 ≤ prod → prod < c.s.laneLen c.g → 0 ≤ cons → cons < c.s.laneLen c.g → c.g.trap = none → c.g.info.gen = true →
    c.g.gen = none → c.wholeGroup = true → c.s.holdsGend c.g (c.pc + 1) = true → ∃ (g : Group) (n : Gen),
      exec (.gbeg sw rg vw tn poff coff) s = .next (c.spent.setGroup g) ∧ g.gen = some n ∧ n.mode = .producer ∧
      n.owner = lanesOf c.g.regs.live ∧ n.size = (lanesOf c.g.regs.live).length ∧ n.st0 = .fill ∧ n.st1 = .free ∧ n.fc = 0 ∧
      n.vw = vw ∧ n.thr = tn ∧ n.consPc = cons.toNat ∧ n.endPc = c.pc + 1 ∧ g.regs = c.g.regs ∧
      ∀ x ∈ g.lanes.strands, x.pc = prod.toNat ∧ x.stack = []) ∧
  (∀ (s : State) (h : Hdr) (c : Lane) (n : Gen), c.g.trap = none → c.g.info.gen = true → c.g.gen = some n →
    (n.mode = .producer →
      (∀ b, s.laneReady h.rg h.sw (some h) [] [(b, s.genWords)] = some c → n.pend = none →
        let ls := lanesOf c.act
        let gone (m : Gen) : Prop :=
          exec (.gyld h b) s = .next ({ c with g := { c.g with gen := some m } }.done [])
        let placed (m : Gen) (f : Nat) : Prop :=
          (∀ i < ls.length, ∀ w ≤ n.vw, tget 0 m.slots (slotKey f (n.fc + i) w) =
            BitVec.ofNat 32 (c.read (n.vw + 1) (fun _ => 0) b (ls.getD i 0) / 2 ^ (32 * w))) ∧
          ∀ k, (∀ i < ls.length, ∀ w ≤ n.vw, k ≠ slotKey f (n.fc + i) w) → tget 0 m.slots k = tget 0 n.slots k
        (∀ f, n.fill? = some f → n.vw < 4 → n.size ≤ 32 → n.fc + ls.length < n.size → ∃ m : Gen, gone m ∧ placed m f ∧
          m = { n with slots := m.slots, fc := n.fc + ls.length }) ∧
        (∀ f, n.fill? = some f → n.vw < 4 → n.size ≤ 32 → ls ≠ [] → n.fc + ls.length = n.size → ∃ m : Gen, gone m ∧
          placed m f ∧ m.status f = .ready ∧ m.ready = n.ready ++ [f] ∧ m.fc = 0 ∧
          m.status (1 - f) = if n.status (1 - f) = .free then .fill else n.status (1 - f)) ∧
        (n.fill? = none → ls ≠ [] → exec (.gyld h b) s = .next (c.spent.setGroup
          { c.g with gen := some { n with pend := some c.act, yielder := c.gang, move := some .toConsumer } }))) ∧
      (s.laneReady h.rg h.sw (some h) [] [] = some c →
        exec (.gnxt h) s = .next ({ c with g := { c.g with gen := some { n with
          move := if n.thr + 1 ≤ n.ready.length then some .toConsumer else none } } }.done []) ∧
        ∃ g : Group, exec (.gdne h) s = .next (c.spent.setGroup g) ∧ g.regs = c.g.regs ∧
          (let done := n.done ||| c.act
          let left := c.g.regs.live &&& ~~~done
          g.gen = some { n with done := done, move := if left = 0 then some .toDrain else none } ∧
          g.lanes = { c.g.lanes with strands := modStrands c.gang (fun j x => { x.dropLanes (~~~(strandBits c.act j)) with
            pc := c.pc + 1, part := x.part && strandBits left j != 0 }) c.g.lanes.strands }))) ∧
    (n.mode ≠ .producer → (∀ a, s.laneReady h.rg h.sw (some h) [(a, s.genWords)] [] = some c →
      exec (.grcv h a) s = .next (c.done ((lanesOf c.act).flatMap fun l =>
        match n.owner.findIdx? (· == l) with
        | none => []
        | some j =>
          if j < (if n.status n.cur = .ready then n.size else n.fc) then
            resOf c.gang a (n.vw + 1) l (spanVal (fun i => tget 0 n.slots (slotKey n.cur j i)) (n.vw + 1))
          else [])))) ∧
    ∀ sw rg, s.laneReady rg sw none [] [] = some c →
      (n.mode ≠ .producer → (∀ e ∈ c.strands, e.1.stack = []) →
        let marked := c.g.modLanes (modStrands c.gang fun _ x => { x with reached := true })
        let all := marked.lanes.strands.all fun x => !x.part || x.reached
        let m := n.freeFrame n.cur
        let goes (g : Group) : Prop := exec (.gret sw rg) s = .next (c.spent.setGroup g)
        (all = false → exec (.gret sw rg) s = .next (c.s.setGroup marked)) ∧
        (all = true → n.mode = .consumer → ∀ f r, n.ready = f :: r → goes (c.g.consume { m with ready := r } f n.size)) ∧
        (all = true → n.mode = .consumer → n.ready = [] → goes { c.g with gen := some { m with move := some .toProducer } }) ∧
        (all = true → n.mode = .drain → goes (c.g.drainNext m))) ∧
      (n.atEnd = true → n.endPc = c.pc → ∃ g : Group, exec (.gend sw rg) s = .next (c.spent.setGroup g) ∧ g.gen = none ∧
        g.regs = c.g.regs ∧ ∀ (j : Nat) (x : Strand), g.lanes.strands[j]? = some x →
          let live := strandBits c.g.regs.live j
          x.pc = c.pc + 1 ∧ x.active = live ∧ x.gang = 0 ∧ ∃ st, n.outer[j]? = some st ∧
            x.stack = st.map fun e => { e with pend := e.pend &&& live, save := e.save &&& live })) ∧
  (∀ (g : Group) (n : Gen) (f k : Nat), (g.consume n f k).gen = some { n with cur := f } ∧
    ∀ (j : Nat) (x : Strand), (g.consume n f k).lanes.strands[j]? = some x → x.pc = n.consPc ∧ x.stack = [] ∧ x.gang = 0 ∧
      x.active = strandBits (maskOf (n.owner.take k) &&& g.regs.live) j) ∧
  ∀ (s : State) (gid : Nat) (g : Group) (n : Gen), s.group? gid = some g → g.gen = some n → g.trap = none →
    g.suspended = false →
    let h := g.landEvery
    let m := { n with move := none }
    (s.gangLoads g 0xFF = [] → g.lanes.fault = none → s.mayFault g s.nextId = false →
      (n.move = some .toConsumer → ∀ f r, n.ready = f :: r → exec (.genSwitchToConsumer gid) s = .next (s.setGroup
        (h.consume { m with mode := .consumer, savedProd := some g.lanes, ready := r } f n.size))) ∧
      (n.move = some .toProducer → ∀ l, n.savedProd = some l →
        let m := { m with mode := .producer, savedProd := none }
        let l := { l with k := g.lanes.k }.prune h.regs.live (m.left h.regs.live)
        exec (.genReturnToProducer gid) s = .next (s.setGroup { h with
          lanes := l
          gen := if l.running then some (m.afterLoss h.regs.live) else none })) ∧
      (n.move = some .toDrain →
        exec (.genDrain gid) s = .next (s.setGroup (h.drainNext { m with mode := .drain })))) ∧
    ((s.gangLoads g 0xFF ≠ [] ∨ g.lanes.fault ≠ none ∨ s.mayFault g s.nextId = true ∨ n.move = none) → ∀ e ∈ [Instr.genSwitchToConsumer gid, .genReturnToProducer gid, .genDrain gid],
      exec e s = .next s)

/-- Window operations (R269 to R276): with an active lane an operation goes to its core's Ratchet and its gang waits, once no
acquire holds the gang's memory instructions (R273); with none it does nothing. The Ratchet performs the operations; an unbound
handle and an invalid object trap, at the operation's word and after what issued before it (R44, R276); expiry, pushes, queries
and the reset change the window's depths as the manual counts them. That a uniform operand is the lowest active lane's value, and
that the Ratchet performs an operation whole in one step, are the model's choices (log 33). It performs nothing while another
operation that may go on is in its flip (R274). -/
def Obligations.WindowOperations : Prop :=
  (∀ (s : State) (h : Hdr) (c : Lane),
    let goes (i : Instr) (op : WOp) : Prop := exec i s =
      if c.act = 0 then .next (c.done [])
      else if c.g.memHeld c.gang = true then .next c.s
      else
        let a : WArr := { id := c.s.nextId, core := c.g.place.core, grp := c.g.gid, own := c.gang, act := c.act, pc := c.pc,
                          handler := c.g.inHandler, begun := false, op := op }
        let hold : Hold := { own := c.gang, all := true, values := [], acks := [], sc := .grp, drain := none,
                             acquire := false, ratchet := some c.s.nextId, prom := false }
        .next ({ c with
          s := (c.s.modUnits fun u => { u with ratchet := u.ratchet ++ [a] }).bumpId
          g := { c.g with holds := c.g.holds ++ [hold] } }.done [])
    let ready (dsts srcs : List (Opnd × Nat)) : Prop := s.laneReady h.rg h.sw (some h) dsts srcs = some c
    let low := (lowLane c.act).getD 0
    ∀ (n op flt : Nat) (b d : Opnd),
      (ready [] [(b, 1), (d, 1)] → goes (.waini h op flt (.wa n) b d)
        (if op = 15 then .unbind n else .init n op flt (c.read32 b low) (c.read32 d low))) ∧
      (ready [] [(b, 1), (d, 1)] → goes (.wapsh h (.wa n) b d) (.push n (c.component b) (c.component d) (d == .none))) ∧
      (∀ r, ready [(.v r, 1)] [(d, 1)] → goes (.waqry h (.v r) (.wa n) d)
        (.query n ((List.range 32).map fun l => c.read32 d l) r)) ∧
      (ready [] [(b, 1)] → goes (.waexp h (.wa n) b) (.expire n (c.read32 b low)) ∧
        goes (.wawln h (.wa n) b) (.wlen n (c.read32 b low))) ∧
      (ready [] [] → goes (.warst h (.wa n)) (.reset n))) ∧
  (∀ (s : State) (core k : Nat) (a : WArr) (g : Group) (t : Team),
    (s.units.ratchet.filter fun a => a.core == core)[k]? = some a → s.group? a.grp = some g →
    s.team? g.place.launch g.place.blk g.place.team = some t →
    let gone (s : State) : State := s.modUnits fun u => { u with ratchet := u.ratchet.filter fun w => w.id != a.id }
    ((s.waBlocked a = true ∨ g.suspended = true ∨ s.waTaken a = true) → exec (.ratchetPerform core k) s = .next s) ∧
    (s.waBlocked a = false → g.suspended = false → s.waTaken a = false →
      (∀ s' g', s.waRun g t a.act a.op = .ok s' g' →
        exec (.ratchetPerform core k) s = .next ((gone s').setGroup g').settle) ∧
      (∀ cause subc, s.waRun g t a.act a.op = .trap cause subc → g.trap = none →
        let c : Lane := { s := gone s, g := g, gang := a.own, pc := a.pc, act := 0 }
        (c.trapWaits a.id = true → exec (.ratchetPerform core k) s = .next s.settle) ∧
        (c.trapWaits a.id = false →
          let c : Lane := { c with
            g := { g with lanes := { g.lanes with strands := rewindStrands a.own a.pc g.lanes.strands, fault := none } } }
          ∀ s', (gone s).handlerReady (c.g.landOf a.own) = some s' →
          exec (.ratchetPerform core k) s =
            .next (s'.setGroup ((c.g.landOf a.own).enterHandler (c.laneReq cause subc))).settle)))) ∧
  (∀ (s : State) (g : Group) (t : Team) (act : Mask) (n : Nat), (∀ e ∈ g.wa, e.1 ≠ n) →
    ∀ op ∈ [WOp.push n [] [] true, .query n [] 0, .expire n 1, .wlen n 1, .reset n], s.waRun g t act op = .trap 0x0D 1) ∧
  (∀ (s : State) (g : Group) (t : Team) (act : Mask) (n base : Nat) (d : WaHdr),
    (g.wa.find? fun e => e.1 == n) = some (n, base) → s.waHdr t g.place.part base = some d →
    let a : Wa := { s := s, t := t, part := g.place.part, base := base, h := d }
    (d.invalid = true → ∀ m, s.waRun g t act (.expire n m) = .trap 0x0D 4) ∧
    (d.invalid = false → s.waInside t g.place.part base (waSize d.op d.cap) = true →
      s.waRun g t act (.reset n) = .ok ({ a with h := { d with fd := 0, bd := 0, pushes := 0 } }.putHdr false) g ∧
      (∀ m, s.waRun g t act (.expire n m) = .ok ((a.expire (min m (d.fd + d.bd))).putHdr false) g) ∧
      ∀ w, (w = 0 ∨ d.cap < w) → s.waRun g t act (.wlen n w) = .trap 0x0D 3)) ∧
  ∀ (a : Wa) (n l : Nat) (f : Nat → WVal) (x y u v : Word),
    (a.expire n).h.fd + (a.expire n).h.bd = a.h.fd + a.h.bd - n ∧
    (a.h.w ≠ 0 → a.h.fd + a.h.bd ≤ a.h.w → (a.push f).h.fd + (a.push f).h.bd = min (a.h.fd + a.h.bd + 1) a.h.w ∧
      (a.push f).h.pushes = (a.h.pushes + 1) % 2 ^ 32) ∧
    ((n = 0 ∨ a.h.fd + a.h.bd = 0) → a.query l n = waIdentity a.h.op (a.h.flt == 1)) ∧
    waStep 0 false (x, u) (y, v) = (x + y, 0) ∧ waStep 4 false (x, u) (y, v) = (x &&& y, 0)

/-! ## Units -/

/-- Writes and acknowledgements (R176, R180, R181, R186 to R188, R206 to R212): a core acknowledgement changes no byte; the ordering
point performs a store, an 8-byte part of a wide store, or an atomic, which change the bytes that they name and no others but those
that a line leaving the L2 settles (R224), where no other wide store to the line is in its course; a home acknowledgement takes
one off `%uas`. -/
def Obligations.WritesReachMemory : Prop :=
  ∀ (s : State) (id : Nat) (a : Access), s.acc? id = some a →
    (a.kind.writes = true → a.coreAck = false → a.loc.isScr = false → s.acked a.relWait a.sc = true →
      s.drained a.drain = true → s.orderedAfter a = false → ∃ t : State, exec (.coreAcknowledgement id) s = .next t ∧
        s.sameBytes t ∧ t.acc? id = some { a with coreAck := true }) ∧
    (a.performed = false → a.kind.writes = true → a.loc.real a.size = true → a.data.length = a.size →
      s.writeBehind a = false → s.fillPending a.loc = false → s.promHeld a = false →
      (∀ b ∈ s.mem.flight, b.midStore a.loc = true → a.kind = .store ∧ 8 < a.size ∧ b.id = a.id) → a.loc.flat.2 % 128 + a.size ≤ 128 →
      (∀ i < a.size, s.aliasPends (a.loc.plus i) = false) →
      (if a.loc.isScr then s.acked a.relWait a.sc = true ∧ s.drained a.drain = true else a.coreAck = true) →
      (a.kind = .store → a.size ≤ 8 → ∃ (t : State) (tag : Nat), exec (.sliceWritePerform id) s = .next t ∧
        t.locRead a.loc a.size = a.data ∧ s.sameSettledOutside t a.loc a.size ∧
        t.acc? id = some { a with performed := true, value := none, tag := tag } ∧
        ∀ pa, a.loc = .hbm pa → tag = (tget 0 s.mem.tags (pa / 128) + 1) % 65536) ∧
      (a.kind = .store → (a.size = 16 ∨ a.size = 32) → a.partsLeft ≠ [] → ∃ (t : State) (o : Nat),
        exec (.sliceWritePerform id) s = .next t ∧ o ∈ a.partsLeft ∧
        t.locRead (a.loc.plus o) 8 = (a.data.drop o).take 8 ∧ s.sameSettledOutside t a.loc a.size ∧
        (a.partsLeft ≠ [o] → s.sameSettledOutside t (a.loc.plus o) 8) ∧
        (t.acc? id).map (·.performed) = some (a.partsLeft == [o])) ∧
      (a.kind.isAtomic = true → (a.update (leNat (s.locRead a.loc a.size)) = none → s.lineStale a.loc = false) → ∃ t : State, exec (.sliceWritePerform id) s = .next t ∧
        let old := s.locRead a.loc a.size
        t.locRead a.loc a.size = (match a.update (leNat old) with
          | some v => leBytes a.size v
          | none => old) ∧
        s.sameSettledOutside t a.loc a.size ∧
        (t.acc? id).map (fun x => (x.performed, x.value)) = some (true, some old))) ∧
    (a.performed = false → (a.kind = .writeBack ∨ a.kind = .invalidate) → s.lineBehind a = false →
      (a.lines = [] → ∃ t : State, exec (.sliceWritePerform id) s = .next t ∧ s.sameBytes t ∧
        (t.acc? id).map (·.performed) = some true) ∧
      ∀ pa ls, a.lines = .hbm pa :: ls → ∃ t : State, exec (.sliceWritePerform id) s = .next t ∧
        t.acc? id = some { a with lines := ls } ∧ (a.kind = .writeBack → s.sameBytes t)) ∧
    (a.kind.counts = true → a.performed = true → a.accepted = false → ∃ t : State,
      exec (.homeAcknowledgement id) s = .next t ∧ s.sameBytes t ∧
      (∀ g, s.group? a.grp = some g → ((t.group? a.grp).map (·.uas)) = some (g.uas - 1)) ∧
      ((a.kind.isAtomic = false ∨ a.dests = []) → t.acc? id = none)) ∧
    ∀ (old x : Nat) (r : Option Nat), a.data = leBytes a.size x → x < 256 ^ a.size → a.update old = r →
      (a.kind = .rmwScalar .add → r = some ((old + x) % 2 ^ 32)) ∧ (a.kind = .rmwLane .exch .f32 → r = some x) ∧
      (a.kind = .rmwLane .max .n64 → a.size = 8 → old < 2 ^ 64 → r = some (max old x)) ∧
      (a.kind = .cas → r = if old = x then some (leNat a.data2) else none)

/-- Loads, promotion drains and the start of lane blocks (R31, R178, R187, R210, R219, R316): an accepted load gets the bytes of its
location as its core sees them, or, where it is performed at the home slice, as that slice holds them; its value then reaches its
registers and the access is over, a rounding mode as a result that lands (R54); a promotion drain asks cores and hears from them;
the oldest queued lane block starts converged. -/
def Obligations.LoadsDrainsAndBlockStarts : Prop :=
  (∀ (s : State) (id : Nat) (a : Access), s.acc? id = some a →
    (s.loadReady a = true → a.accepted = false →
      exec (.sliceReadAccept id) s = .next (s.modAcc id fun a => { a with accepted := true })) ∧
    (a.kind = .load → a.setsMode = false → ∀ bs, a.value = some bs →
      exec (.loadValueArrival id false) s = .next ((s.deliver a bs).dropAcc id).settle) ∧
    (s.loadReady a = true → a.setsMode = false → ∀ bs, s.loadCopy a = some bs →
      exec (.loadValueArrival id true) s = .next ((s.deliver a bs).dropAcc id).settle) ∧
    (a.kind = .load → a.setsMode = true → ∀ bs g, a.value = some bs → s.group? a.grp = some g →
      s.mem.flight.filter (fun b => b.grp == a.grp && b.setsMode && b.own == a.own && b.handler == a.handler) = [a] →
      (∀ w ∈ (a.words bs).map (·.2), w.toNat % 8 < 6) → exec (.loadValueArrival id false) s = .next (((s.modAcc id fun a =>
        { a with value := some bs }).dropAcc id).setGroup { g with pend := g.pend ++ ((a.words bs).map (·.2)).map fun w =>
          { own := a.own, dest := .sp 10 0, val := w, orIn := false } }).settle) ∧
    (a.kind ≠ .load → a.dests ≠ [] → ∀ bs, a.value = some bs → exec (.loadValueArrival id false) s =
      .next (if a.accepted then (s.deliver a bs).dropAcc id
        else (s.deliver a bs).modAcc id fun a => { a with dests := [] }).settle) ∧
    ∀ (d e : Dest) (bs : List Byte),
      (a.dests = [d] → a.size = 4 → a.words bs = [(d, BitVec.ofNat 32 (leNat bs))]) ∧
      (a.dests = [d, e] → a.size = 8 →
        a.words bs = [(d, BitVec.ofNat 32 (leNat bs)), (e, BitVec.ofNat 32 (leNat bs / 2 ^ 32))]) ∧
      (a.dests = [d] → a.size = 1 → leNat bs < 256 → a.words bs = [(d, if a.signed then
        (BitVec.ofNat 8 (leNat bs)).signExtend 32 else BitVec.ofNat 32 (leNat bs))])) ∧
  (∀ (s : State) (line : Nat), ∃ t : State, exec (.lineDataLeave line) s = .next t ∧ s.sameSettled t ∧
    t.groups = s.groups ∧
    (∀ x ∈ t.mem.flight, x.kind = .load → x.accepted = true → x.loc.lineKey = line → s.promHeld x = false →
      x.value ≠ none) ∧
    ∀ a : Access, (s.mem.flight.filter fun x =>
        x.kind == .load && x.accepted && x.value.isNone && x.loc.lineKey == line && !s.promHeld x) = [a] → a.loc.real a.size = true →
      s.acc? a.id = some a →
      let home := s.locRead a.loc a.size
      t.acc? a.id = some { a with value := some (if a.readsHome then home else s.coreView a.core a.loc home) }) ∧
  (∀ (s : State) (d core : Nat),
    let asks (x : Drain) : Drain :=
      if x.id = d ∧ core ∈ x.toReach then
        let ids := (s.mem.flight.filter fun a =>
          a.core == core && a.ctx == x.ctx && a.kind.counts && !a.accepted).map (·.id)
        { x with
          toReach := x.toReach.filter (· != core)
          waiting := if s.mem.prom.any fun e => e.1 == core && e.2.1 == x.ctx then x.waiting ++ [(core, ids)] else x.waiting }
      else x
    let hears (x : Drain) : Drain :=
      if x.id = d then { x with waiting := x.waiting.filter fun e => !(e.1 == core && s.acked e.2 .dev) } else x
    exec (.promotionDrainRequest d core) s =
      .next (s.modMem fun m => { m with drains := m.drains.map asks }).settle ∧
    exec (.promotionDrainReport d core) s =
      .next (s.modMem fun m => { m with drains := m.drains.map hears }).settle) ∧
  ∀ (s : State) (gid : Nat) (g : Group) (b : QBlock) (r : List QBlock),
    s.group? gid = some g → g.dq = b :: r → g.suspended = false →
    (g.lanes.running = true → exec (.laneBlockStart gid) s = .next s) ∧
    (g.lanes.running = false → ∃ h : Group, exec (.laneBlockStart gid) s = .next (s.setGroup h) ∧ h.dq = r ∧
      h.regs = g.regs ∧ h.spc = g.spc ∧ (g.regs.live = 0 → h.lanes.running = false) ∧
      (g.regs.live ≠ 0 → h.lanes.running = true ∧ h.lanes.k = b.k ∧ h.oldS = b.oldS ∧ h.lanes.strands.length = g.strandCount ∧
        ∀ (j : Nat) (x : Strand), h.lanes.strands[j]? = some x → x =
          { pc := b.start, active := strandBits g.regs.live j, stack := [], gang := 0,
            part := strandBits g.regs.live j != 0, reached := false }))

/-- The Carillon (R236 to R240, R245): a request for a wholly resident set enters at once and any other waits; the head is admitted
when its set fits once evictable bundles are gone; evicted bundles are declared again, filled ones resident; a set that blocks the
head for BHOLD nanoseconds is released, and its group traps; a group that was suspended for a saved set resumes without it and looks
again at what it waits for (R319, R339). That a head which names an evicting bundle waits, and that a request
whose set has lost a bundle goes back to the queue, are the model's choices (log 41). -/
def Obligations.TheCarillonAdmitsAndEvicts : Prop :=
  (∀ (s : State) (p : Nat) (r : BReq), (s.part p).reqs = [r] → r.admitted = false → exec (.bundleLeaveHandle p) s = .next
    (if r.ids.all fun i => (s.bundle? i).any fun b => b.state == .resident then
      (s.modPart p fun q => { q with reqs := [] }).enterSet r
    else s.modPart p fun q => { q with reqs := [{ r with handled := true, age := if r.handled then r.age else s.ns }] })) ∧
  (∀ (s : State) (p : Nat), (s.part p).reqs = [] → exec (.bundleLeaveHandle p) s = .next s) ∧
  (∀ (s₀ : State) (p : Nat) (r : BReq), let s := s₀.handleRequests p (s₀.part p).reqs
    headOf ((s.part p).reqs.filter fun r => r.handled && !r.admitted) = some r →
    (∀ i ∈ r.ids, ∀ b, s.bundle? i = some b → b.state ≠ .evicting) →
    let missing := (s.linesOfIds r.ids).filter fun l => !(s.occupied p []).contains l
    (∀ e, s.admission p r false = some e → ∃ t : State, exec (.bundleAdmissionTest p) s₀ = .next t ∧
      (t.part p).reqs = ((s.part p).reqs.map fun x => if x = r then { x with admitted := true } else x) ∧
      (∀ i b, s.bundle? i = some b → b.freed = false →
        (i ∈ e → ∃ x, t.bundle? i = some x ∧ (x.state = .evicting ∨ x.state = .declared) ∧ x = { b with state := x.state }) ∧
        (i ∉ e → t.bundle? i = some (if i ∈ r.ids ∧ b.state = .declared then
            { b with state := .filling, lastLeave := if b.left then b.lastLeave else s.ns }
          else b))) ∧
      (∀ g ∈ t.groups, g.place.part = p → g.holdTimer ≠ none → t.headReq p ≠ none) ∧ s.fitsAfter p missing e = true ∧
      ∀ i ∈ e, ∃ b ∈ s.units.bundles, b.id = i ∧ b.part = p ∧ b.state = .resident ∧ b.entries = 0 ∧ i ∉ r.ids ∧
        s.inSaved i = false ∧ ∀ q ∈ (s.part p).reqs, q ≠ r → q.grp ≠ noGroup → i ∈ q.ids → q.admitted = false ∧ q.ahead r = false) ∧
    (s.fitsAfter p missing [] = true → s.admission p r false = some []) ∧
    (s.admission p r false = none → ∃ t : State, exec (.bundleAdmissionTest p) s₀ = .next t ∧ t.units.bundles =
      s.units.bundles ∧ (t.part p).reqs = (s.part p).reqs ∧ t.mem = s.mem)) ∧
  (∀ (s : State) (id : Nat) (b : Bundle), s.bundle? id = some b → b.state = .evicting → ∃ t : State,
    exec (.bundleEvictComplete id) s = .next t ∧ t.groups = s.groups ∧
    (b.freed = false → t.bundle? id = some { b with state := .declared }) ∧
    (∀ x ∈ t.units.bundles, x.id = id → x.freed = false) ∧
    ∀ l ∈ b.lines, s.inBundleWay l = false → t.mem.l2? l = none) ∧
  (∀ (s : State) (gid : Nat) (r : BReq),
    ((s.plat.parts.flatMap fun e => e.2.reqs).find? fun r => r.grp == gid && r.admitted) = some r →
    (s.fillBlocked r.part (s.linesOfIds r.ids) = true → exec (.bundleFillComplete gid) s = .next s) ∧
    let here := r.grp = noGroup ∨ ∀ i ∈ r.ids, ∃ b, s.bundle? i = some b ∧ (b.state = .resident ∨ b.state = .filling)
    (s.fillBlocked r.part (s.linesOfIds r.ids) = false → ¬ here → exec (.bundleFillComplete gid) s = .next
      (s.modPart r.part fun q => { q with reqs := q.reqs.map fun x => if x = r then { x with admitted := false } else x })) ∧
    (s.fillBlocked r.part (s.linesOfIds r.ids) = false → here → ∃ t : State, exec (.bundleFillComplete gid) s = .next t ∧
      s.sameSettled t ∧ (t.part r.part).reqs = (s.part r.part).reqs.erase r ∧
      (∀ g, s.group? gid = some g → g.entered = none → g.saved = none → g.trap = none → r.handler = false → (t.group? gid).map (fun h => (h.entered, h.wait)) =
        some (some { ids := r.ids, age := r.age, prio := r.prio },
          if g.wait = some .bundle then some .entered else g.wait)) ∧
      ((∀ g, s.group? gid = some g → g.entered = none) →
        ∀ i b, s.bundle? i = some b → b.freed = false → t.bundle? i = some (if i ∈ r.ids then
          { b with
            state := if b.state = .filling then .resident else b.state
            entries := if (s.group? gid).isSome then b.entries + 1 else b.entries }
          else b)))) ∧
  ∀ (s₀ s s' : State) (gid : Nat) (g : Group),
    (s.group? gid = some g → s = s₀.plat.parts.foldl (fun s e => s.holdTimers e.1) s₀ →
      ∀ h, g.holdTimer = some h → h.start + (s.part g.place.part).bhold ≤ s.ns → g.saved = none →
      exec (.holdLimitExpiry gid) s₀ =
        .next ((s.leaveSet g).setGroup { g with entered := none, holdTimer := none, holdTrap := true })) ∧
    (s.group? gid = some g → s = s₀.plat.parts.foldl (fun s e => s.holdTimers e.1) s₀ →
      ∀ h b, g.holdTimer = some h → h.start + (s.part g.place.part).bhold ≤ s.ns → g.saved = some b → g.suspended = true →
      g.trap = none → ∃ (t : State) (x : Group), exec (.holdLimitExpiry gid) s₀ = .next t ∧ t.group? gid = some x ∧
        x.suspended = false ∧ x.saved = none ∧ x.entered = none ∧ x.holdTrap = true ∧ x.regs = g.regs ∧
        ∀ d, g.wait = some (.timed d) → x.wait = some (if d ≤ s.ns then .expired s.ns else .timed d)) ∧
    (s.group? gid = some g → g.holdTrap = true → g.suspended = false → s.handlerReady g = some s' →
      exec (.holdLimitTrap gid) s =
        .next (s'.setGroup ({ g with holdTrap := false, holdFirst := false }.enterHandler (g.scalarReq 0x0B 5))))

/-- Steps of the engines (R285, R286, R288, R291, R295, R300, R304 to R306, R308): commands start when nothing holds them and leave when
they are done, with a task decrement where they name one; a fault leaves its units unwritten and is pending for the group, or is
counted; messages are taken by a posted receive, kept, or refused, and the sender reads which. Counting each further unit of one
command that faults as a lost fault (log 62), and deciding holes and room when the message arrives (log 35), are the model's
choices. -/
def Obligations.EnginesStepOn : Prop :=
  (∀ (s : State) (id : Nat) (c : Cmd), s.cmd? id = some c →
    (c.state = .queued → exec (.engineCommandStart id) s =
      .next (if s.cmdHeld c then s else s.setCmd { c with state := .running })) ∧
    (c.finished = true → ∃ t : State, exec (.engineCommandComplete id) s = .next t ∧ t.cmd? id = none ∧
      t.groups = s.groups ∧ t.mem = { s.mem with code := t.mem.code } ∧
      t.units.decrements = s.units.decrements ++ (match c.compl with
        | .task k => [(clusterOf c.core, c.ctx, k)]
        | _ => [])) ∧
    (∀ k u s' subc pos va, (s.part c.part).tokleft ≠ 0 → (s.awaited c = true ∨ s.cmdStalls c = false) →
      s.unitStep c k = .fault s' u subc pos va → ∃ t : State, exec (.engineFault id k) s = .next t ∧
      (∃ x : Cmd, t.cmd? id = some x ∧ ∀ j ∈ c.lostUnits u, j ∈ x.done ∧ j ∈ x.faulted) ∧
      ∀ g, s'.group? c.grp = some g → ∃ h : Group, t.group? c.grp = some h ∧ h.spc = g.spc ∧ h.trap = g.trap ∧
        (∀ f, g.async = some f → h.async = some { f with lost := f.lost + 1 }) ∧
        (g.async = none → ∃ f : AsyncFault, h.async = some f ∧ f.cause = 0x0F ∧ f.subc = subc ∧ f.pos = pos ∧
          f.cmdpc = c.pc ∧ f.vaddr = va ∧ f.lost = 0)) ∧
    (∀ i, c.waitsFor = some i → exec (.cpymFollowOnHandoff id) s =
      .next (if s.cmdLive i then s else s.setCmd { c with waitsFor := none })) ∧
    ∀ b segs seg s' bs, c.kind = .mmac b segs → c.state = .running → (s.part c.part).tokleft ≠ 0 →
      let y := c.record 1
      let w := blkWord b 4
      let e := segs.getD seg 0xFFFF
      y.indexed = true → e ≠ 0xFFFF → seg * y.segrows < mnSize (bits w 2 2) → (∀ q ∈ c.subRecs, q.1 ≠ seg) → e < y.nsub →
      s.readRecord c.agent ((y.scale + 64 * e) % 2 ^ 64) = (s', .ok bs) →
      let r := TRec.ofBytes bs
      r.keyOk c.ring false = true → r.plainOk = true → r.fmt = y.fmt → r.blk = y.blk →
      (if bit w 7 then boxOk r [blkWord b 6 % 65536, blkWord b 6 / 65536] [bits w 16 16, mnSize (bits w 4 2)] = true
        else boxOk r [blkWord b 6 / 65536, blkWord b 6 % 65536] [mnSize (bits w 4 2), bits w 16 16] = true) →
      exec (.segmentSubrecordRead id seg) s = .next (s'.setCmd { c with subRecs := (seg, bs) :: c.subRecs })) ∧
  (∀ (s : State) (gid : Nat) (g : Group), s.group? gid = some g →
    let b := g.doneBatch + 1
    (g.doneBatch < g.batch → (∀ c ∈ s.units.cmds, c.grp = gid → c.batch ≠ some b) →
      exec (.batchComplete gid) s = .next (s.setGroup { g with doneBatch := b })) ∧
    ((g.batch ≤ g.doneBatch ∨ ∃ c ∈ s.units.cmds, c.grp = gid ∧ c.batch = some b) →
      exec (.batchComplete gid) s = .next s)) ∧
  (∀ (s : State) (cluster k : Nat) (e : RecEnt), (s.units.recs.filter fun e => e.cluster == cluster)[k]? = some e →
    exec (.recordCacheEvict cluster k) s = .next (s.modUnits fun u => { u with recs := u.recs.erase e })) ∧
  ∀ (s : State) (id : Nat) (c : Cmd) (src len dst tag reg : Nat), s.cmd? id = some c →
    c.kind = .send src len dst tag reg false → c.state = .running → c.done.length = len → s.sendsBefore c dst tag = false →
    let m : Msg := { src := clusterOf c.core, tag := tag, len := len, fromQ := false, holes := c.faulted,
                     data := (List.range len).map fun k => ((c.cellAt? ((src + k) % 2 ^ 64) 1).getD []).getD 0 0 }
    let here := s.groups.any fun g => g.place.ctx == c.ctx && clusterOf g.place.core == dst
    let post := s.units.posted.find? fun p => p.cluster == dst && p.ctx == c.ctx && msgMatches p.src p.tag m
    let kept := (s.units.overflow.filter fun o => o.cluster == dst && o.part == c.part).length
    let told (status : Nat) (t : State) : Prop := exec (.messageArrival id) s = .next t ∧
      t.cmd? id = some { c with kind := .send src len dst tag reg true } ∧
      ∀ g, s.group? c.grp = some g → (t.group? c.grp).map (·.getS reg) = some (BitVec.ofNat 32 status)
    (here = false → ∃ t : State, told 3 t ∧ t.units.posted = s.units.posted ∧ t.units.overflow = s.units.overflow) ∧
    (here = true → ∀ p, post = some p → ∃ t : State, told 0 t ∧ t.units.posted = s.units.posted.erase p ∧
      ∀ y buf blen rs rt st m', s.cmd? p.cmd = some y → y.kind = .recv buf blen rs rt st m' →
        t.cmd? p.cmd = some { y with kind := .recv buf blen rs rt st (some m), total := min len blen + 4 }) ∧
    (here = true → post = none → kept < s.recvShare dst c.part → ∃ t : State, told 1 t ∧
      t.units.overflow = s.units.overflow ++ [{ cluster := dst, ctx := c.ctx, part := c.part, msg := m }] ∧
      (t.ctx c.ctx).evOps = (s.ctx c.ctx).evOps ++ [{ src := dst, set := true, bit := 250 }]) ∧
    (here = true → post = none → s.recvShare dst c.part ≤ kept → ∃ t : State, told 2 t ∧
      t.units.overflow = s.units.overflow ∧
      (t.ctx c.ctx).evOps = (s.ctx c.ctx).evOps ++ [{ src := dst, set := true, bit := 251 }] ∧
      ∀ g ∈ t.groups, g.place.ctx = c.ctx → clusterOf g.place.core = dst → g.async ≠ none)

/-- Synchronisation steps (R321 to R324, R328, R329, R333, R338, R347): the bank performs arrivals and posts and completes phases, those of a core in the order in which it sent them (R315) and none while a change of its scratch banks waits (R375); a
wave releases groups from a barrier; changes of the event vector that have reached the dispatcher apply with sets winning, those of a port in order; a task counter
falls and starts its task at 0; a timed wait ends at its deadline. Stalling the arrivals at every barrier of the core while a change
of its banks waits is the model's choice (log 56): R375 speaks of the banks that change. -/
def Obligations.SynchronisationStepsOn : Prop :=
  (∀ (s : State) (k : Nat) (a : BArr) (tm : Team) (l : Loc), s.units.arrivals[k]? = some a →
    (s.units.teams.find? fun t => t.launch == a.launch && t.blk == a.blk && t.core == a.core) = some tm →
    let part := ((s.launch? a.launch).map fun l => (s.ctx l.ctx).part).getD 0
    s.barInside (some tm) part a.addr = true → s.teamScratch tm part a.addr = some l →
    let b := ByteBar.ofBytes (s.locRead l 16)
    let first := s.banksChange a.core = false ∧ (a.cls = 0 ∨ ∀ b ∈ s.units.arrivals.take k, b.cls = 0 ∨ b.core ≠ a.core)
    (¬ first → exec (.byteBarrierArrive k) s = .next s) ∧
    (first → exec (.byteBarrierArrive k) s = .next ((s.modUnits fun u => { u with arrivals := removeNth k u.arrivals }).locWrite l
      (if a.cls = 2 then b.post a.bytes else b.arrive a.bytes).bytes))) ∧
  (∀ (b : ByteBar) (n : Nat), n ≤ 2 ^ 30 → b.count ≤ 2 ^ 30 →
    (b.posted = true → n < b.count → b.arrive n = { b with count := b.count - n }) ∧
    (b.posted = true → n = b.count → b.arrive n =
      { b with count := 0, ovr := false, phase := (b.phase + 1) % 65536, posted := false, last := 0 }) ∧
    (b.posted = false → n ≤ b.count → b.arrive n = { b with count := b.count - n }) ∧
    (b.posted = false → b.count < n → b.arrive n = { b with count := 2 ^ 32 + b.count - n }) ∧
    (b.posted = true → b.count < n → b.arrive n =
      { b with count := 2 ^ 32 + b.count - n, ovr := true, phase := (b.phase + 1) % 65536, posted := false, last := 0 }) ∧
    (1 ≤ n → b.count + n < 2 ^ 31 → b.last < 2 ^ 31 → b.post n = { b with count := b.count + n, last := b.last + n, posted := true }) ∧
    ∀ k, 1 ≤ k → k ≤ 2 ^ 30 →
      let e : ByteBar := { b with count := 2 ^ 32 - k, posted := false, last := 0 }
      let next : ByteBar := { b with phase := (b.phase + 1) % 65536, posted := false, last := 0 }
      (n = k → e.post n = { next with count := 0, ovr := false }) ∧
      (n < k → e.post n = { next with count := 2 ^ 32 + n - k, ovr := true }) ∧
      (k < n → e.post n = { e with count := n - k, last := n, posted := true })) ∧
  (∀ (s : State) (cluster k : Nat) (b : Barrier), s.units.barriers[k]? = some b →
    let here (gid : Nat) : Bool := (s.group? gid).any fun g => clusterOf g.place.core == cluster && !g.suspended &&
      g.place.launch == b.launch && g.place.blk == b.blk
    let out := (b.leaving.filter here).take ((s.cluster cluster).wave + 1)
    ∃ t : State, exec (.barrierReleaseWave cluster k) s = .next t ∧ t.mem = s.mem ∧ out.length ≤ (s.cluster cluster).wave + 1 ∧
      t.groups = s.groups.map fun g =>
        if g.gid ∈ out then
          g.mapWait fun w => if w = some (.barrier b.team.isNone b.n) then some .released else w
        else g) ∧
  (∀ (s : State) (x : Nat), ∃ t : State, exec (.eventVectorUpdate x) s = .next t ∧ t.mem = s.mem ∧
    let now := s.evSplit (s.ctx x).evOps true
    (∀ p, (now.filter fun o => o.src == p) ++ ((t.ctx x).evOps.filter fun o => o.src == p) =
      (s.ctx x).evOps.filter fun o => o.src == p) ∧
    (∀ n < 256, (t.ctx x).ev.getLsbD n =
      ((now.any fun o => o.set && o.bit == n) || ((s.ctx x).ev.getLsbD n && !(now.any fun o => !o.set && o.bit == n)))) ∧
    ∀ g ∈ t.groups, g.place.ctx = x → g.suspended = false → ∀ n, g.wait = some (.event n) → (t.eventVector x).getLsbD n = false) ∧
  (∀ (s : State) (k src x id : Nat), s.units.decrements[k]? = some (src, x, id) →
    (∀ e ∈ s.units.decrements.take k, e.1 ≠ src) →
    let c := s.ctx x
    let e := tget Task.reset c.tasks id
    ∃ t : State, exec (.taskDecrement k) s = .next t ∧ t.groups = s.groups ∧ t.mem = s.mem ∧
      t.units.decrements = removeNth k s.units.decrements ∧
      (e.armed = false → t.ctx x = { c with sigdisc := c.sigdisc + 1 }) ∧
      (e.armed = true → 1 < e.counter → t.ctx x = { c with tasks := tset c.tasks id { e with counter := e.counter - 1 } }) ∧
      (e.armed = true → e.counter = 1 → c.dq.length < 64 → c.waiting = [] → ∃ packet,
        t.ctx x = { c with tasks := tdel c.tasks id, dq := c.dq ++ [packet] })) ∧
  ∀ (s : State) (gid d : Nat) (g : Group), s.group? gid = some g → g.wait = some (.timed d) → g.suspended = false →
    g.trap = none → ∃ t : State, exec (.timedWaitExpiry gid) s = .next t ∧ t.mem = s.mem ∧
      (t.group? gid).map (·.wait) = some (some (if d * s.aclkOf g.place.core ≤ (s.ns + 2) * s.aclkOf g.place.core + 16
        then .expired d else .timed d))

/-- Launches and blocks (R343 to R347, R399): the dispatcher serves the chosen queue: a good packet begins a launch, one with ARM arms a
task, any other is refused and counted; a block that fits is placed in fresh groups; BALANCE_ACTION acts while the estimates of a
pair differ by more than 10 %, each action after the one before it has begun, and counts. Testing a packet with ARM = 1 only for its
must-be-zero fields, TCOUNT and its entry (log 47), and the order of the places that a block tries (log 46), are the model's
choices. -/
def Obligations.LaunchesAreDispatchedAndPlaced : Prop :=
  (∀ (s : State), s.chosenQueue = none → exec .dispatch s = .next s) ∧
  (∀ (s : State) (x q : Nat) (raw : List Byte), q < 5 → s.chosenQueue = some (5 * x + q) → s.headPacket x q = some raw →
    let p := Packet.ofBytes raw
    let c := s.ctx x
    let s' := if p.consume then s.modCtx x fun c => { c with ev := c.ev &&& ~~~p.waitmask } else s
    let refused (t : State) : Prop := exec .dispatch s = .next t ∧ t.units.launches = s.units.launches ∧
      (t.ctx x).lrefused = c.lrefused + 1 ∧ (t.ctx x).evOps = c.evOps ++ [{ src := dispatcherPort, set := true, bit := 248 }]
    (p.arm = false → ∀ l, s'.launchOf x q raw = some l →
      (s'.placeable l = true → ∃ t : State, exec .dispatch s = .next t ∧ t.units.launches = s.units.launches ++ [l] ∧
        t.groups = s.groups ∧ t.mem = s.mem ∧ (t.ctx x).ev = if p.consume then c.ev &&& ~~~p.waitmask else c.ev) ∧
      (s'.placeable l = false → ∃ t : State, refused t)) ∧
    (p.arm = false → s'.launchOf x q raw = none → ∃ t : State, refused t) ∧
    (p.arm = true → p.clean = true → 1 ≤ p.tcount → p.tcount ≤ 65535 → (tget Task.reset c.tasks p.taskid).armed = false →
      ∃ t : State, exec .dispatch s = .next t ∧ t.units.launches = s.units.launches ∧ (t.ctx x).ev = c.ev ∧
        tget Task.reset (t.ctx x).tasks p.taskid = { armed := true, counter := p.tcount, packet := raw }) ∧
    (p.arm = true → ¬(p.clean = true ∧ 1 ≤ p.tcount ∧ p.tcount ≤ 65535 ∧ (tget Task.reset c.tasks p.taskid).armed = false) →
      ∃ t : State, refused t)) ∧
  (∀ (s : State) (id : Nat) (l : Launch), s.launch? id = some l → l.nextBlk < l.blocks → (s.ctx l.ctx).dead = false →
    s.behind l = false → s.resumeFirst l = false → (l.nextBlk = 0 → s.lastRunOver id = true) →
    let n := if l.coop then l.blocks - l.nextBlk else 1
    let fits := (s.placeMany (.free s.draws) id n).isSome || (s.placeMany .widest id n).isSome
    (fits = false → exec (.blockPlace id) s = .next (s.waitOrRefuse l)) ∧
    (fits = true → ∃ t : State, exec (.blockPlace id) s = .next t ∧
      (t.launch? id).map (·.nextBlk) = some (l.nextBlk + n) ∧ (∀ g ∈ s.groups, g ∈ t.groups) ∧
      ∀ g ∈ t.groups, g ∈ s.groups ∨ ∃ p : Place, g = Group.fresh l.info p ∧ p.launch = id ∧ p.ctx = l.ctx ∧
        l.nextBlk ≤ p.blk ∧ p.blk < l.nextBlk + n)) ∧
  (∀ (s : State) (pair kind : Nat), s.lighter pair = none → exec (.balanceAction pair kind) s = .next s) ∧
  ∀ (s : State) (pair kind n : Nat), s.lighter pair = some n → ∃ t : State, exec (.balanceAction pair kind) s = .next t ∧
    t.mem = s.mem ∧ t.groups = s.groups ∧
    let a := s.cluster (2 * pair)
    let b := t.cluster (2 * pair)
    (a.balance < kind → t = s) ∧
    (kind = 0 → b = { a with steer := true, balance := max 1 a.balance }) ∧
    (kind = 1 → 1 ≤ a.balance → b.balance = 2 ∧ b.bthrot = (a.bthrot + 1) % 2 ^ 48 ∧ ∃ m, (m = 2 * pair ∨ m = 2 * pair + 1) ∧ m ≠ n ∧
      (s.cluster n).load < (s.cluster m).load ∧ (t.cluster m).withhold = true) ∧
    (kind = 2 → 2 ≤ a.balance → b = { a with bfill := (a.bfill + 1) % 2 ^ 48 })

/-- Pre-emption and contexts (R349 to R360): a cluster chooses drain, else save, else discards what may restart; at the deadline a
drain turns into a save; a quiet group is saved with its block, or its block's save fails where a record finds no room, and a saved
block resumes with event RSUM; a cluster switches contexts when the outgoing one is gone from it; a tear-down leaves nothing of a
context. Which pages the records take and when the room is looked for (log 28), what a discard drops at once (log 48), and when a
group is quiet enough to be saved (log 49), are the model's choices. -/
def Obligations.PreemptionAndContexts : Prop :=
  (∀ (s : State) (n m x : Nat),
    let blocks := (s.heldBlocks n x).filter fun k => !s.blockGoing x k
    blocks ≠ [] → (∀ k ∈ blocks, s.firstCluster k = some m) →
    let d := (s.part (s.ctx x).part).pdeadline * 1000
    let live (p : Preempt) : Bool := p.blocks.any fun k => !(s.blockGroups k).isEmpty
    let start (choice : Nat) : State := s.modCluster m fun c => { c with
      preempt := c.preempt.filter live ++
        [{ ctx := x, start := s.ns, deadline := s.ns + d, choice := choice, blocks := blocks }] }
    (s.drainInTime blocks d = true → exec (.preemptionBegin n x) s = .next (start 0)) ∧
    (s.drainInTime blocks d = false → s.saveInTime blocks d = true → exec (.preemptionBegin n x) s = .next (start 1)) ∧
    (s.drainInTime blocks d = false → s.saveInTime blocks d = false →
      (∀ k, blocks = [k] → (∃ l, s.launch? k.1 = some l ∧ l.info.restart = true) →
        exec (.preemptionBegin n x) s = .next (s.discard k.1)) ∧
      ((∀ k ∈ blocks, ∀ l, s.launch? k.1 = some l → l.info.restart = false) → exec (.preemptionBegin n x) s =
        .next ((start 1).modCtx x fun c => { c with dlmiss := c.dlmiss + 1 })))) ∧
  (∀ (s : State) (n x : Nat),
    let q := (s.ctx x).quantum
    exec (.quantumExpiry n x) s =
      if q ≠ 0 ∧ tget s.ns (s.cluster n).qstart x + 1000 * q ≤ s.ns ∧ (∃ e ∈ s.plat.ctxs, s.waitsFor x e.1 = true) then
        exec (.preemptionBegin n x) s
      else .next s) ∧
  (∀ (s : State) (n : Nat), ∃ t : State, exec (.drainDeadlineExpiry n) s = .next t ∧ t.groups = s.groups ∧
    (t.cluster n).preempt.length = (s.cluster n).preempt.length ∧ ∀ p ∈ (s.cluster n).preempt,
      { p with choice := if p.choice = 0 ∧ p.deadline ≤ s.ns then 1 else p.choice } ∈ (t.cluster n).preempt) ∧
  (∀ (s : State) (gid : Nat) (g : Group), s.group? gid = some g → s.toBeSaved g = true → s.quiet g = true →
    let open' := s.units.saved.any fun b => b.launch == g.place.launch && b.blk == g.place.blk
    let a := s.saveCap g.place.ctx
    let recs := a.1.recordsOf (g.place.launch, g.place.blk)
    let pages := takePages (a.1.usedPages g.place.ctx) a.2 (recs.map (·.2))
    let saves (v : State) : Prop := ∃ (t : State) (room : Bool), v.moveToSave g = (t, room) ∧
      exec (.groupSave gid) s =
        .next (if room then t.stowTeams else t.saveFails (g.place.launch, g.place.blk) g.place.ctx) ∧
      (∀ h ∈ t.groups, h.gid ≠ gid) ∧ (∀ h ∈ s.groups, h.gid ≠ gid → h ∈ t.groups) ∧
      ∃ b ∈ t.units.saved, b.launch = g.place.launch ∧ b.blk = g.place.blk ∧
        ∃ h ∈ b.groups, h.place = g.place ∧ h.spc = g.spc ∧ h.lanes = g.lanes ∧ h.yielded = false ∧
          h.wait = (if waitHasPa g.wait g.words then none else g.wait) ∧
          h.trap = (g.trap.map fun t => { t with wait := if waitHasPa t.wait t.words then none else t.wait }) ∧
          h.gen = g.gen ∧ h.pend = [] ∧ h.regs.s = g.landEvery.regs.s ∧ h.regs.v = g.landEvery.regs.v
    (open' = true → saves s) ∧
    (open' = false → ∀ ps, pages = some ps →
      saves (a.1.openSave (g.place.launch, g.place.blk) g.place.ctx ((recs.map (·.1)).zip ps))) ∧
    (open' = false → pages = none → exec (.groupSave gid) s =
      .next (a.1.saveFails (g.place.launch, g.place.blk) g.place.ctx))) ∧
  (∀ (s : State) (gid : Nat) (g : Group), s.group? gid = some g → (s.toBeSaved g = false ∨ s.quiet g = false) →
    exec (.groupSave gid) s = .next s) ∧
  (∀ (s : State) (k : Nat) (b : SavedBlock), s.stowTeams.units.saved[k]? = some b → s.stowTeams.wholeSaved b = true →
    let u := s.stowTeams
    let plan := u.resumePlan (.free u.draws) b
    (u.resumeLater b = true → exec (.blockResume k) s = .next u) ∧
    (u.resumeLater b = false → ∀ l, plan = some l → (∃ e ∈ l, u.banksChange e.2.core = true) →
      exec (.blockResume k) s = .next u) ∧
    (u.resumeLater b = false → ∀ l, plan = some l → (∀ e ∈ l, u.banksChange e.2.core = false) →
      ∃ t : State, exec (.blockResume k) s = .next t ∧
      t.units.saved = u.units.saved.erase b ∧ (t.ctx b.ctx).ev.getLsbD 253 = true ∧
      ∀ g ∈ u.groups, ∃ h ∈ t.groups, h.gid = g.gid ∧ h.place = g.place ∧ h.regs = g.regs ∧ h.spc = g.spc) ∧
    (u.resumeLater b = false → plan = none → exec (.blockResume k) s = .next (u.askWake b.ctx))) ∧
  (∀ (s : State) (n x : Nat),
    let part := (s.ctx x).part
    let old := (s.cluster n).serves.find? fun e => e.1 == part
    (∀ e, old = some e → e.2 ≠ x ∧ (∀ g ∈ s.groups, g.place.ctx = e.2 → clusterOf g.place.core ≠ n) ∧
        ∀ c ∈ s.units.cmds, c.ctx = e.2 → clusterOf c.core ≠ n ∨ (c.dropped = true ∧ c.openRecv = true)) →
      ∃ t : State, exec (.clusterContextSwitch n x) s = .next t ∧ tget 0 (t.cluster n).serves part = x ∧
        (∀ e ∈ t.units.recs, e.cluster ≠ n) ∧ t.groups = s.groups ∧ (old = none → t.mem = s.mem) ∧
        tget 0 (t.cluster n).charge x ≤ 8000 ∧
        ∀ p ∈ t.units.posted, (p ∈ s.units.posted ∧ ∀ e, old = some e → p.cluster = n → p.ctx ≠ e.2) ∨
          ∃ k ∈ s.units.parked, k.cluster = n ∧ k.ctx = x ∧ p ∈ k.posted) ∧
  ∀ (s : State) (x : Nat), ∃ t : State, exec (.contextTeardown x) s = .next t ∧
    let c := t.ctx x
    c.dead = true ∧ c.dq = [] ∧ c.waiting = [] ∧ c.tasks = [] ∧ c.lease.active = false ∧
    c.ldiscard = (s.ctx x).ldiscard + BitVec.ofNat 32 (s.packetsOf x) ∧ (∀ l ∈ t.units.launches, l.ctx ≠ x) ∧
    (∀ g ∈ t.groups, ∀ l ∈ s.units.launches, l.ctx = x → g.place.launch ≠ l.id) ∧
    (∀ q, (tget HQueue.reset c.hq q).count = 0) ∧ (∀ p ∈ t.units.posted, p.ctx ≠ x) ∧ (∀ o ∈ t.units.overflow, o.ctx ≠ x) ∧
    (∀ c ∈ t.units.cmds, c.ctx = x → c.openRecv = false) ∧ ∀ b ∈ t.units.bundles, b.ctx = x → b.freed = true

/-- Clocks, power and phases (R4, R339, R366, R376 to R382, R388, R390): an A-clock changes within its range unless heat or a
profiler lock holds it, and every A-clock is 1.0 GHz while the device is hot; a droop is counted; an idle core loses its SRAM and caches when it is gated, and at most two cores of a
sector wake in one step; a token interval that is over grants the allocations; leases begin and end; a histogram is cleared; links count
retries, come up and go down; power-down, which takes a rail in each step, reset once every rail has been good for 1 ms, and the check
of Anvil's image move the device through its phases. What reset and power-down keep (log 54), the numbers of the lifetime counters and
values at reset that no table gives (log 4), the clocks that come back after heat (log 80), and the rails at reset (log 84), are the
model's choices. -/
def Obligations.PowerClocksAndPhases : Prop :=
  (∀ (s : State) (pair setting : Nat),
    (pair < 36 → 16 ≤ setting → setting ≤ 64 → s.plat.hot = false → s.clockLocked pair = false → ∃ t : State,
      exec (.aclockChange pair setting) s = .next t ∧ tget 16 t.plat.aclk pair = setting ∧ t.groups = s.groups ∧
      (∀ k, k ≠ pair → tget 16 t.plat.aclk k = tget 16 s.plat.aclk k)) ∧
    (¬(pair < 36 ∧ 16 ≤ setting ∧ setting ≤ 64 ∧ s.plat.hot = false ∧ s.clockLocked pair = false) →
      exec (.aclockChange pair setting) s = .next s)) ∧
  (∀ (s : State) (temp : Nat),
    (105 < temp → ∃ t : State, exec (.thermalThrottle temp) s = .next t ∧ t.plat.hot = true ∧
      (∀ core, t.aclkOf core = 16) ∧ t.plat.aclk = s.plat.aclk) ∧
    (temp < 95 → ∃ t : State, exec (.thermalRecover temp) s = .next t ∧ t.plat.hot = false ∧ t.plat.aclk = s.plat.aclk) ∧
    (temp ≤ 105 → exec (.thermalThrottle temp) s = .next s) ∧ (95 ≤ temp → exec (.thermalRecover temp) s = .next s)) ∧
  (∀ (s : State) (pair : Nat), pair < 36 → ∃ t : State, exec (.supplyDroop pair) s = .next t ∧
    (∀ i, tget 0 t.plat.life i = if i = 17 + pair then (tget 0 s.plat.life i + 1) % 2 ^ 64 else tget 0 s.plat.life i)) ∧
  (∀ (s : State) (core : Nat), core < 432 → (s.core core).gated = false → (∀ t ∈ s.units.teams, t.core ≠ core) →
    (∀ c ∈ s.units.cmds, c.core ≠ core) → ∃ t : State, exec (.coreGate core) s = .next t ∧ (t.core core).gated = true ∧
      (t.core core).holdEnd = s.ns + 2000 ∧ (∀ off < 0x80000, t.locRead (.scr core off) 1 = [0]) ∧
      (∀ k, k ≠ core → ∀ off < 0x80000, t.locRead (.scr k off) 1 = s.locRead (.scr k off) 1) ∧
      (∀ c ∈ t.mem.l1, c.core ≠ core) ∧ (∀ e ∈ t.mem.tlb, e.core ≠ core) ∧ t.mem.hbm = s.mem.hbm) ∧
  (∀ (s : State) (sector : Nat),
    let asks (e : Nat × Core) : Prop :=
      e.2.wake ≠ none ∧ sectorOf e.1 = sector ∧ e.2.gated = true ∧ e.2.holdEnd ≤ s.ns
    ∃ (t : State) (up : List Nat), exec (.inrushStep sector) s = .next t ∧ up.length ≤ 2 ∧ t.mem = s.mem ∧
      (∀ k ∈ up, (t.core k).gated = false ∧ ∃ e ∈ s.plat.cores, e.1 = k ∧ asks e) ∧
      (∀ k, k ∉ up → t.core k = s.core k) ∧ ((∃ e ∈ s.plat.cores, asks e) → up ≠ [])) ∧
  (∀ (s : State), s.intervalOver = true → ∃ t : State, exec .tokenInterval s = .next t ∧
    t.plat.pool = sumOf (s.plat.parts.map (·.2.tokleft)) ∧ ∀ p, (t.part p).tokused = (s.part p).tokspent ∧
      (t.part p).tokspent = 0 ∧ (t.part p).tokleft = (s.part p).tokalloc ∧ (t.part p).tokalloc = (s.part p).tokalloc) ∧
  (∀ (s : State), s.intervalOver = false → exec .tokenInterval s = .next s) ∧
  (∀ (s : State) (x value : Nat), (s.ctx x).lease.active = false →
    let v := value % 2 ^ 29
    (∃ t : State, exec (.leaseRequest x value) s = .next t ∧ (t.ctx x).lease =
      { value := v, active := decide (bits v 16 13 ≤ 5000) && decide (s.leases.length < 4),
        endNs := s.ns + 1000 * bits v 16 13, drawn := 0 }) ∧ exec (.leaseExpiry x) s = .next s) ∧
  (∀ (s : State) (x : Nat), (s.ctx x).lease.active = true →
    ((s.ctx x).lease.endNs ≤ s.ns → ∃ t : State, exec (.leaseExpiry x) s = .next t ∧ (t.ctx x).lease.active = false ∧
      (t.ctx x).evOps = (s.ctx x).evOps ++ [{ src := dispatcherPort, set := true, bit := 252 }]) ∧
    (s.ns < (s.ctx x).lease.endNs → exec (.leaseExpiry x) s = .next s)) ∧
  (∀ (s : State) (core q : Nat), ∃ t : State, exec (.histogramClear core q) s = .next t ∧
    (∀ i < 64, tget 0 t.plat.hist (histIdx core q i) = 0) ∧
    (∀ j, (j < histIdx core q 0 ∨ histIdx core q 64 ≤ j) → tget 0 t.plat.hist j = tget 0 s.plat.hist j) ∧
    t.groups = s.groups) ∧
  (∀ (s : State) (l : Nat), l < 8 →
    (∃ t : State, exec (.linkFlitRetry l) s = .next t ∧ t.link l = { s.link l with again := min 65535 ((s.link l).again + 1) }) ∧
    (∃ t : State, exec (.linkTrained l) s = .next t ∧ t.link l = { s.link l with up := true }) ∧
    (∃ t : State, exec (.linkDown l) s = .next t ∧ t.link l = { s.link l with up := false })) ∧
  ∀ (s : State),
    (∃ t : State, exec .powerDown s = .next t ∧ t.plat.boot = .off ∧ t.plat.rails = s.plat.rails - 1 ∧ t.groups = [] ∧ t.mem.hbm = [] ∧
      t.mem.host = s.mem.host ∧ t.plat.life = s.plat.life) ∧
    (s.plat.boot = .held → s.plat.rails = allRails → s.plat.railNs + 1000000 ≤ s.ns → ∃ t : State, exec .resetRelease s = .next t ∧ t.plat.boot = .verifying ∧
      t.groups = [] ∧ t.mem.hbm = [] ∧ t.plat.ctxs = [] ∧ t.plat.life = s.plat.life) ∧
    ((s.plat.boot ≠ .held ∨ s.plat.rails ≠ allRails ∨ s.ns < s.plat.railNs + 1000000) → exec .resetRelease s = .next s) ∧
    (s.plat.boot = .verifying → ∀ ok ok' : Bool, ∃ t : State, exec (.bootVerify ok ok') s = .next t ∧
      t.plat.boot = (if ok then .running else .recovery) ∧ t.groups = s.groups) ∧
    (s.plat.boot ≠ .verifying → ∀ ok ok' : Bool, exec (.bootVerify ok ok') s = .next s)

/-- What the host and peers do (R341, R363 to R365, R373 to R375, R384, R387, R389): a doorbell moves a tail or disables its queue; a
descriptor write sets the base and size; HOSTDB, CTXERR, TLBINV and CWMASK act as their registers say, and banks that become scratch
read zero; a BAR2 access that is allowed reads, writes or updates device HBM as bytes and one that is not does nothing; a peer's
write goes through the window that accepts it. An aligned 8-byte write of function 0 to a writable register of a context block, of a
core's debug block or of its mailbox has that register's effect (R14, R63, R191, R282, R363, R364, R367, R374). That a write of another shape changes nothing (log 60), which shapes an outside atomic
may have (log 67), the size of BAR2 (log 84), and that the clearing of a bank is one step (log 56), are the model's choices. -/
def Obligations.HostRegistersAndOutsideAccesses : Prop :=
  (∀ (s : State) (x q v : Nat),
    let c := s.ctx x
    let h := tget HQueue.reset c.hq q
    let t' := v % 2 ^ 32
    let bad := decide (4 ≤ h.qlog) && decide (h.qlog ≤ 16) && decide (2 ^ h.qlog < (t' + 2 ^ 32 - h.head) % 2 ^ 32)
    (∃ t : State, exec (.tailDoorbell x q v) s = .next t ∧ t.mem = s.mem ∧
      tget HQueue.reset (t.ctx x).hq q = { h with tail := t', qdis := h.qdis || bad, badTail := h.qdis || bad } ∧
      (t.ctx x).evOps = c.evOps ++ if bad then [{ src := dispatcherPort, set := true, bit := 248 }] else []) ∧
    (∃ t : State, exec (.queueDescriptorWrite x q v) s = .next t ∧ t.mem = s.mem ∧
      tget HQueue.reset (t.ctx x).hq q = { h with qbase := bits v 8 44 * 256, qlog := bits v 0 5, qdis := false }) ∧
    (∃ t : State, exec (.hostdb x) s = .next t ∧ (t.ctx x).evOps = c.evOps ++ [{ src := hostPort, set := true, bit := 254 }]) ∧
    (∃ t : State, exec (.ctxerrClear x) s = .next t ∧ t.ctx x = { c with err := CtxErr.reset }) ∧
    (∃ t : State, exec (.tlbinv x v) s = .next t ∧ (∀ e ∈ s.mem.tlb, e.ctx ≠ x → e ∈ t.mem.tlb) ∧
      (bit v 0 = true → ∀ e ∈ t.mem.tlb, e.ctx ≠ x) ∧
      (∀ e ∈ t.mem.tlb, e.ctx = x → e.bits = 12 → bits v 12 45 ≠ e.vpn) ∧
      (∀ e ∈ t.mem.tlb, e.ctx = x → e.bits = 16 → bits v 16 41 ≠ e.vpn / 16) ∧
      (t.ctx x).tlbinvWait = some ((c.tlbinvWait.getD []) ++ s.unperformed x)) ∧
    (∀ l, c.tlbinvWait = some l → (∀ i ∈ l, i ∉ s.unperformed x) → ∃ t : State, exec (.tlbinvComplete x) s = .next t ∧
      (t.ctx x).tlbinvWait = none ∧ t.mem = s.mem) ∧
    (∀ l, c.tlbinvWait = some l → (∃ i ∈ l, i ∈ s.unperformed x) → ∃ t : State, exec (.tlbinvComplete x) s = .next t ∧
      (t.ctx x).tlbinvWait = some (l.filter (s.unperformed x).contains) ∧ t.mem = s.mem)) ∧
  (∀ (s : State) (core p v : Nat),
    let k := s.core core
    (∃ t : State, exec (.cwmaskWrite core p v) s = .next t ∧
      t.core core = { k with cwPending := k.cwPending ++ [(p, v % 65536)] }) ∧
    ∀ w, (k.cwPending.find? fun e => e.1 == p) = some (p, w) →
      let old := tget 0 k.cwmask p
      let banks := (List.range 16).filter fun i => bit old i != bit w i && s.ownsBank p core i
      let busy (a : Access) : Prop := a.tookEffect = false ∧ a.loc.inBanks core banks = true
      (((∃ c ∈ s.units.cmds, s.delivers core banks c = true) ∨ ∃ a ∈ s.mem.flight, busy a) →
        exec (.cwmaskApply core p) s = .next s) ∧
      ((∀ c ∈ s.units.cmds, s.delivers core banks c = false) → (∀ a ∈ s.mem.flight, ¬ busy a) → ∃ t : State, exec (.cwmaskApply core p) s = .next t ∧
        tget 0 (t.core core).cwmask p = w ∧ (t.core core).cwPending = k.cwPending.erase (p, w) ∧
        (∀ i ∈ banks, bit w i = true → ∀ off < 32768, t.locRead (.scr core (32768 * i + off)) 1 = [0]) ∧
        (∀ l : Loc, l.real 1 = true → (∀ i ∈ banks, bit w i = true → l.outside (.scr core (32768 * i)) 32768 = true) →
          t.locRead l 1 = s.locRead l 1))) ∧
  (∀ (s : State) (p c : Nat), (s.part p).laterMasks = [] → ∃ t : State, exec (.classWayWriteback p c) s = .next t ∧
    t.part p = { s.part p with oldMasks := (s.part p).oldMasks.filter fun e => e.1 != c } ∧ s.sameSettled t ∧
    t.groups = s.groups) ∧
  (∀ (s : State) (fn off size v : Nat), ((size ≠ 1 ∧ size ≠ 2 ∧ size ≠ 4 ∧ size ≠ 8) ∨ off % size ≠ 0) →
    exec (.registerWrite fn off size v) s = .next s) ∧
  (∀ (s : State) (x v : Nat), x < 256 → v < 2 ^ 64 → s.plat.boot = .running →
    let writes (off : Nat) (e : State → Prop) : Prop := ∃ t : State,
      exec (.registerWrite 0 (0x200000 + 0x4000 * x + off) 8 v) s = .next t ∧ t.mem = s.mem ∧ t.groups = s.groups ∧ e t
    let acts (off : Nat) (i : Instr) : Prop := exec (.registerWrite 0 (0x200000 + 0x4000 * x + off) 8 v) s = exec i s
    let c := s.ctx x
    writes 0x248 (fun t => (t.ctx x).regs = { c.regs with valid := bit v 0, hbase := bits v 6 51 * 64 }) ∧
    writes 0x250 (fun t => (t.ctx x).regs = { c.regs with savebase := bits v 12 40 * 4096 }) ∧
    writes 0x258 (fun t => (t.ctx x).regs = { c.regs with fltlog := bits v 6 46 * 64 }) ∧
    writes 0x260 (fun t => t.ctx x = { c with ptroot := bits v 12 40 * 4096 }) ∧
    writes 0x270 (fun t => (t.ctx x).regs = { c.regs with hlen := bits v 0 24 }) ∧
    writes 0x288 (fun t => (t.ctx x).regs = { c.regs with savelen := bits v 12 40 * 4096 }) ∧
    acts 0x268 (.tlbinv x v) ∧ acts 0x500 (.hostdb x) ∧ acts 0x700 (.leaseRequest x v) ∧
    (bit v 0 = true → acts 0x280 (.ctxerrClear x)) ∧ (bit v 0 = false → writes 0x280 (fun t => t = s)) ∧
    (∀ q < 4, acts (0x400 + 16 * q) (.queueDescriptorWrite x q v) ∧ acts (0x408 + 16 * q) (.tailDoorbell x q (v / 2 ^ 32))) ∧
    (∀ i < 16,
      let w := tget MxWin.reset c.mx i
      let puts (j : Nat) (w' : MxWin) : Prop := writes (32 * i + 8 * j) (fun t => tget MxWin.reset (t.ctx x).mx i = w')
      puts 0 { w with en := bit v 0, fmt := bits v 1 2, abase := bits v 12 40 * 4096 } ∧
      puts 1 { w with alen := bits v 0 28 } ∧ puts 2 { w with dbase := bits v 0 52 } ∧ puts 3 { w with sbase := bits v 0 52 }) ∧
    ∀ i < 4, writes (0x200 + 8 * i) (fun t => ∀ k, tget 0 (t.ctx x).keys k =
      if k = 2 * i then v % 65536 else if k = 2 * i + 1 then bits v 32 16 else tget 0 c.keys k)) ∧
  (∀ (s : State) (k v : Nat), k < 432 → v < 2 ^ 64 → s.plat.boot = .running →
    let writes (off : Nat) (e : Core → Prop) : Prop := ∃ t : State,
      exec (.registerWrite 0 (0x700000 + 0x1000 * k + off) 8 v) s = .next t ∧ t.mem = s.mem ∧ t.groups = s.groups ∧ e (t.core k)
    let c := s.core k
    (∀ i < 4,
      let w := tget Watch.reset c.watch i
      let puts (j : Nat) (w' : Watch) : Prop := writes (32 * i + 8 * j) (fun u => tget Watch.reset u.watch i = w')
      puts 0 { w with base := v % 2 ^ 57 } ∧ puts 1 { w with limit := v % 2 ^ 57 } ∧
      puts 2 { w with en := bit v 0, rd := bit v 1, wr := bit v 2, ctx := bits v 8 8 }) ∧
    (∀ p < 16, p % 2 = 0 → writes (0x100 + 4 * p) (fun u => u =
      { c with cwPending := c.cwPending ++ [(p, v % 65536), (p + 1, v / 2 ^ 32 % 65536)] })) ∧
    ∀ q < 4, bit v 0 = true →
      exec (.registerWrite 0 (0x700000 + 0x1000 * k + 0x9F8 + 0x200 * q) 8 v) s = exec (.histogramClear k q) s) ∧
  (∀ (s : State) (v : Nat), v < 2 ^ 64 → s.plat.boot = .running →
    let writes (off : Nat) (e : State → Prop) : Prop := ∃ t : State,
      exec (.registerWrite 0 off 8 v) s = .next t ∧ t.mem = s.mem ∧ t.groups = s.groups ∧ e t
    let b := s.box 0
    (b.busy = false → writes 0 (fun t => t.box 0 = { b with busy := true, cmd := v % 256 } ∧
      t.plat.mbOrder = s.plat.mbOrder ++ [0])) ∧
    (b.busy = true → writes 0 (fun t => t = s)) ∧
    (∀ i < 8, tget 0 b.args i < 2 ^ 64 → writes (8 + 8 * i) (fun t => ∀ j, tget 0 (t.box 0).args j = if j = i then v else tget 0 b.args j)) ∧
    ∀ i < 32, writes (0x400 + 8 * i) (fun t => ∀ j, tget 0 (t.box 0).data j =
      if 8 * i ≤ j ∧ j < 8 * i + 8 then BitVec.ofNat 8 (v / 2 ^ (8 * (j - 8 * i))) else tget 0 b.data j)) ∧
  (∀ (s : State) (fn addr : Nat) (data exp : List Byte), s.plat.boot = .running →
    let n := data.length
    let a := Loc.hbm addr
    addr + n ≤ 2 ^ s.plat.bar2 → (fn = 0 ∨ (s.hasFn fn = true ∧ s.ownsRange (fn - 1) addr n = true)) →
    let holds (t : State) (v : Nat) : Prop :=
      (∀ i < n, s.aliasPends (.hbm (addr + i)) = false) → leNat (t.locRead a n) = v
    (∃ t : State, exec (.hostBar2Access fn addr .read data) s = .next t ∧ s.sameSettled t) ∧
    (∃ t : State, exec (.hostBar2Access fn addr .write data) s = .next t ∧ holds t (leNat data) ∧
      s.sameSettledOutside t a n) ∧
    ((n = 4 ∨ n = 8) → addr % n = 0 →
      let old := leNat (s.locRead a n)
      (∃ t : State, exec (.hostBar2Access fn addr .fetchAdd data) s = .next t ∧ s.sameSettledOutside t a n ∧
        holds t ((old + leNat data) % 2 ^ (8 * n))) ∧
      (∃ t : State, exec (.hostBar2Access fn addr .swap data) s = .next t ∧ s.sameSettledOutside t a n ∧
        holds t (leNat data)) ∧
      (exp.length = n → ∃ t : State, exec (.hostBar2Access fn addr (.cas exp) data) s = .next t ∧
        s.sameSettledOutside t a n ∧ (old = leNat exp → holds t (leNat data)) ∧ (old ≠ leNat exp → s.sameSettled t)))) ∧
  (∀ (s : State) (fn addr : Nat) (op : ExtOp) (data : List Byte), 0 < data.length →
    (s.plat.boot ≠ .running ∨ 2 ^ s.plat.bar2 < addr + data.length ∨ (fn ≠ 0 ∧ s.ownsRange (fn - 1) addr data.length = false)) →
    exec (.hostBar2Access fn addr op data) s = .next s) ∧
  ∀ (s : State) (link addr : Nat) (data : List Byte),
    (∀ op, s.window? link addr = none → exec (.peerAccessInbound link addr op data) s = .next s) ∧
    ∀ w, s.window? link addr = some w → (s.link link).up = true → addr + data.length ≤ w.wbase + 4096 * w.wlen →
      let pa := w.lbase + (addr - w.wbase)
      s.ownsRange w.part pa data.length = true → ∃ t : State, exec (.peerAccessInbound link addr .write data) s = .next t ∧
        ((∀ i < data.length, s.aliasPends (.hbm (pa + i)) = false) → t.locRead (.hbm pa) data.length = data) ∧
        s.sameSettledOutside t (.hbm pa) data.length

/-- Anvil's commands (R322, R350, R363, R367 to R372, R376, R379, R383, R389): the command at the head of the mailboxes completes with
its status; each changes what it names when its arguments are legal, and gives the code of what is wrong otherwise. The order of
SETOWN's status codes, the zeroed bank, status 1 for PROFGRANT while a grant is held and SETPART's clamps (log 51), and what enabling
a torn-down context again clears (log 50), are the model's choices. -/
def Obligations.MailboxCommands : Prop :=
  ∀ (s : State) (fn code : Nat) (a : Nat → Nat), s.mailArgs? fn = some (code, a) →
    let done (t : State) (status : Nat) : Prop :=
      (t.box fn).busy = false ∧ (t.box fn).status = status ∧ t.plat.mbOrder = s.plat.mbOrder.drop 1 ∧
      (code ≠ 6 → t.groups = s.groups) ∧ t.groups.map (·.gid) = s.groups.map (·.gid)
    let gives (i : Instr) (status : Nat) (P : State → Prop) : Prop := ∃ t : State, exec i s = .next t ∧ done t status ∧ P t
    let any : State → Prop := fun _ => True
    (code = 7 → gives (.attest fn) 0 fun t => ∀ i < 0x60, tget 0 (t.box fn).data i =
      if i < 0x20 then tget 0 (s.box fn).data i else BitVec.ofNat 8 (tget 0 s.plat.measures (i - 0x20))) ∧
    (fn ≠ 0 → ∀ e ∈ [(1, Instr.setown fn), (2, .setmem fn), (3, .setpart fn), (4, .setctx fn), (5, .setslew fn),
      (6, .profgrant fn), (8, .setpeer fn), (9, .setwin fn)], code = e.1 → gives e.2 5 any) ∧
    ((code = 0 ∨ 9 < code) → gives (.mbcmdUnknown fn) (if fn = 0 then 4 else 5) any) ∧
    (fn = 0 →
      (code = 1 → (a 2 < 256 ∧ bits (a 2) 4 3 = 0) →
        (a 0 = 0 → a 1 < 1728 →
          let t' := s.modPlat fun p => { p with quadOwn := tset p.quadOwn (a 1) (a 2) }
          let busy := (ownerOf (tget 0 s.plat.quadOwn (a 1))).any fun p => s.atWorkOn p (a 1 / 4) (some (a 1 % 4))
          (t'.ownersOk = false → gives (.setown fn) 1 any) ∧
          (t'.ownersOk = true → busy = true → gives (.setown fn) 2 any) ∧
          (t'.ownersOk = true → busy = false → gives (.setown fn) 0 fun t =>
            tget 0 t.plat.quadOwn (a 1) = a 2 ∧ t.plat.bankOwn = s.plat.bankOwn)) ∧
        (a 0 = 1 → a 1 < 6912 →
          (s.modPlat fun p => { p with bankOwn := tset p.bankOwn (a 1) (a 2) }).ownersOk = true →
          (∀ p ∈ ownerOf (tget 0 s.plat.bankOwn (a 1)), s.atWorkOn p (a 1 / 16) none = false) →
          gives (.setown fn) 0 fun t => tget 0 t.plat.bankOwn (a 1) = a 2 ∧
            ∀ off < 32768, t.locRead (.scr (a 1 / 16) (32768 * (a 1 % 16) + off)) 1 = [0]) ∧
        (a 0 = 2 → a 1 < 96 →
          (s.modPlat fun p => { p with sliceOwn := tset p.sliceOwn (a 1) (a 2) }).ownersOk = true →
          (∀ p ∈ ownerOf (tget 0 s.plat.sliceOwn (a 1)) ++ ownerOf (a 2), s.atWork p = false) →
          gives (.setown fn) 0 fun t => tget 0 t.plat.sliceOwn (a 1) = a 2)) ∧
      (code = 2 → a 0 < 2048 → a 1 < 256 → bits (a 1) 4 3 = 0 →
        let lose := ownerOf (tget 0 s.plat.regionOwn (a 0))
        let busy := lose.any fun p => (s.groups.any fun g => g.place.part == p) || s.units.cmds.any fun c => c.part == p
        (busy = true → gives (.setmem fn) 2 any) ∧
        (busy = false → gives (.setmem fn) 0 fun t => tget 0 t.plat.regionOwn (a 0) = a 1 ∧
          ∀ e ∈ t.mem.l2, e.line / 2 ^ 21 ≠ a 0)) ∧
      (code = 3 → a 0 < 16 →
        let v := a 2 % 2 ^ 32
        let sets (P : Part → Prop) : Prop := gives (.setpart fn) 0 fun t => P (t.part (a 0)) ∧ t.mem = s.mem
        (a 1 = 0 → sets fun p => p.bways = min 12 (v % 16)) ∧ (a 1 = 4 → sets fun p => p.blim = v % 2 ^ 21) ∧
        (a 1 = 8 → sets fun p => p.bhold = max 1000 v) ∧ (a 1 = 12 → sets fun p => p.bids = min 4096 (v % 2 ^ 13)) ∧
        (a 1 = 0x100 → sets fun p => p.pdeadline = min 10000 (max 1 (v % 2 ^ 24))) ∧
        (a 1 = 0x200 →
          (s.allocOthers (a 0) + v % 65536 + 3000 ≤ 16000 →
            sets fun p => p.tokalloc = v % 65536 ∧ p.tokwt = bits v 16 8) ∧
          (16000 < s.allocOthers (a 0) + v % 65536 + 3000 → gives (.setpart fn) 3 any)) ∧
        (∀ c < 8, a 1 = 0x300 + 4 * c → (s.part (a 0)).oldMasks = [] → sets fun p => tget 0 p.masks c = v % 65536)) ∧
      (code = 4 → a 0 < 256 →
        (a 1 = 0x240 → bits (a 2) 8 5 ≤ 23 → bits (a 2) 7 1 = 0 → bits (a 2) 13 18 = 0 → bits (a 2) 32 32 = 0 →
          gives (.setctx fn) 0 fun t =>
            let c := t.ctx (a 0)
            c.part = bits (a 2) 0 4 ∧ c.cls = bits (a 2) 4 3 ∧ c.prio = bits (a 2) 8 5 ∧ c.enabled = bit (a 2) 31 ∧
            c.dead = ((s.ctx (a 0)).dead && !bit (a 2) 31)) ∧
        (a 1 = 0x240 → 23 < bits (a 2) 8 5 → gives (.setctx fn) 4 fun t => t.ctx (a 0) = s.ctx (a 0)) ∧
        (a 1 = 0x278 → gives (.setctx fn) 0 fun t => (t.ctx (a 0)).quantum = a 2 % 2 ^ 32)) ∧
      (code = 5 →
        (a 0 < 72 → gives (.setslew fn) 0 fun t =>
          (t.cluster (a 0)).wave = bits (a 1) 0 4 ∧ (t.cluster (a 0)).gap = bits (a 1) 8 10) ∧
        (72 ≤ a 0 → gives (.setslew fn) 4 any)) ∧
      (code = 6 → a 0 < 1024 → bits (a 0) 1 3 = 0 →
        (bit (a 0) 0 = true → s.plat.prof.active = false → gives (.profgrant fn) 0 fun t => t.plat.prof =
          { clklock := bit (a 0) 8, sched := bit (a 0) 9, part := bits (a 0) 4 4, active := true }) ∧
        (bit (a 0) 0 = true → s.plat.prof.active = true → gives (.profgrant fn) 1 any) ∧
        (bit (a 0) 0 = false → gives (.profgrant fn) 0 fun t => t.plat.prof.active = false)) ∧
      (code = 8 → a 0 < 256 → gives (.setpeer fn) 0 fun t =>
        tget 0 t.plat.peers (a 0) = bits (a 1) 0 3 + 128 * bits (a 1) 7 1) ∧
      (code = 9 → a 0 < 16 →
        let w : InWin := { en := bit (a 1) 0, links := bits (a 1) 8 8, part := bits (a 1) 16 4,
                           wbase := bits (a 2) 12 40 * 4096, lbase := bits (a 3) 12 40 * 4096, wlen := bits (a 4) 0 28 }
        ((w.en = false ∨ s.ownsRange w.part w.lbase (4096 * w.wlen) = true) →
          gives (.setwin fn) 0 fun t => tget InWin.reset t.plat.wins (a 0) = w) ∧
        (w.en = true → s.ownsRange w.part w.lbase (4096 * w.wlen) = false → gives (.setwin fn) 1 any)))
end

