-- ==== Sys2Proof/Laws/Memory.lean ====
section
/-! SUPPORT. Tables and byte memory: reads after writes, and the canonical form that every memory operation keeps; and what
a fetch of code gives. -/
namespace Sys2Proof.Machine

/-! ## Tables -/

/-- Reading an entry after it is set. -/
@[simp] theorem tget_tset_same {α : Type} (d x : α) (t : Tbl α) (i : Nat) : tget d (tset t i x) i = x := by
  induction t with
  | nil => simp [tset, tget]
  | cons e r ih =>
    obtain ⟨k, y⟩ := e
    unfold tset
    split
    · simp [tget]
    · split
      · simp [tget]
      · rename_i h; simp [tget, h, ih]

/-- Reading another entry than the one that is set. -/
theorem tget_tset_ne {α : Type} (d x : α) (t : Tbl α) {i j : Nat} (h : i ≠ j) :
    tget d (tset t i x) j = tget d t j := by
  induction t with
  | nil => simp [tset, tget, h]
  | cons e r ih =>
    obtain ⟨k, y⟩ := e
    unfold tset
    split
    · simp [tget, h]
    · split
      · rename_i h2; subst h2; simp [tget, h]
      · simp only [tget, ih]

/-- Reading any entry after one is set. -/
theorem tget_tset {α : Type} (d x : α) (t : Tbl α) (i j : Nat) :
    tget d (tset t i x) j = if i = j then x else tget d t j := by
  split
  · rename_i h; subst h; simp
  · rename_i h; exact tget_tset_ne d x t h

/-! ## Byte memory -/

/-- A byte below the addresses of a memory's entries is not listed. -/
theorem Memory.get_below {m : Memory} {lo a : Nat} (h : m.wfFrom lo = true) (ha : a < lo) : m.get a = Memory.unlisted := by
  induction m generalizing lo with
  | nil => rfl
  | cons e r ih =>
    obtain ⟨k, b⟩ := e
    simp only [Memory.wfFrom, Bool.and_eq_true, decide_eq_true_eq] at h
    simp only [Memory.get]
    rw [if_neg (by omega)]
    exact ih h.2 (by omega)

/-- A memory whose addresses are at least `lo` is one whose addresses are at least any smaller number. -/
theorem Memory.wfFrom_mono {m : Memory} {lo lo' : Nat} (h : m.wfFrom lo = true) (hl : lo' ≤ lo) : m.wfFrom lo' = true := by
  cases m with
  | nil => rfl
  | cons e r =>
    obtain ⟨k, b⟩ := e
    simp only [Memory.wfFrom, Bool.and_eq_true, decide_eq_true_eq] at h ⊢
    exact ⟨⟨by omega, h.1.2⟩, h.2⟩

/-- Leaving entries out keeps the canonical form. -/
theorem Memory.wfFrom_filter {m : Memory} {lo : Nat} (p : Host.Cell → Bool) (h : m.wfFrom lo = true) :
    Memory.wfFrom lo (m.filter p) = true := by
  induction m generalizing lo with
  | nil => rfl
  | cons e r ih =>
    obtain ⟨k, b⟩ := e
    simp only [Memory.wfFrom, Bool.and_eq_true, decide_eq_true_eq] at h
    rw [List.filter_cons]
    split
    · simp only [Memory.wfFrom, Bool.and_eq_true, decide_eq_true_eq]
      exact ⟨h.1, ih h.2⟩
    · exact Memory.wfFrom_mono (ih h.2) (by omega)

/-- Inserting a byte at an address that no entry has keeps the canonical form. -/
theorem Memory.wfFrom_insert {m : Memory} {lo a : Nat} {b : Byte} (h : m.wfFrom lo = true) (hb : b ≠ Memory.unlisted)
    (ha : ∀ e ∈ m, e.1 ≠ a) (hl : lo ≤ a) : (m.insert a b).wfFrom lo = true := by
  induction m generalizing lo with
  | nil => simp [Memory.insert, Memory.wfFrom, hl, hb]
  | cons e r ih =>
    obtain ⟨k, c⟩ := e
    simp only [Memory.wfFrom, Bool.and_eq_true, decide_eq_true_eq] at h
    have hk : k ≠ a := ha (k, c) (by simp)
    unfold Memory.insert
    split
    · simp only [Memory.wfFrom, Bool.and_eq_true, decide_eq_true_eq, bne_iff_ne, ne_eq]
      exact ⟨⟨hl, hb⟩, ⟨⟨by omega, by simpa using h.1.2⟩, h.2⟩⟩
    · simp only [Memory.wfFrom, Bool.and_eq_true, decide_eq_true_eq]
      exact ⟨h.1, ih h.2 (fun e he => ha e (by simp [he])) (by omega)⟩

/-- Writing a byte keeps the canonical form. -/
theorem Memory.wf_set {m : Memory} (a : Nat) (b : Byte) (h : m.wf = true) : (m.set a b).wf = true := by
  unfold Memory.set Memory.wf Memory.erase at *
  split
  · exact Memory.wfFrom_filter _ h
  · rename_i hb
    refine Memory.wfFrom_insert (Memory.wfFrom_filter _ h) hb ?_ (Nat.zero_le _)
    intro e he
    simp only [List.mem_filter, bne_iff_ne, ne_eq] at he
    exact he.2

/-- Writing bytes keeps the canonical form. -/
theorem Memory.wf_write {m : Memory} (a : Nat) (bs : List Byte) (h : m.wf = true) : (m.write a bs).wf = true := by
  induction bs generalizing m a with
  | nil => exact h
  | cons b r ih => exact ih (a + 1) (Memory.wf_set a b h)

/-- Clearing a range keeps the canonical form. -/
theorem Memory.wf_clear {m : Memory} (a n : Nat) (h : m.wf = true) : (m.clear a n).wf = true :=
  Memory.wfFrom_filter _ h

/-- Pasting entries keeps the canonical form. -/
theorem Memory.wf_paste {m : Memory} (a : Nat) (p : Memory) (h : m.wf = true) : (m.paste a p).wf = true := by
  induction p generalizing m with
  | nil => exact h
  | cons e r ih => exact ih (Memory.wf_set _ _ h)

/-- Reading a byte that no entry lists. -/
theorem Memory.get_of_not_mem {m : Memory} {a : Nat} (h : ∀ e ∈ m, e.1 ≠ a) : m.get a = Memory.unlisted := by
  induction m with
  | nil => rfl
  | cons e r ih =>
    obtain ⟨k, b⟩ := e
    have hk : k ≠ a := h (k, b) (by simp)
    simp only [Memory.get, hk, if_false]
    exact ih fun e he => h e (by simp [he])

/-- Erasing an address leaves every other byte. -/
theorem Memory.get_erase_ne {m : Memory} {a c : Nat} (h : c ≠ a) : (m.erase a).get c = m.get c := by
  induction m with
  | nil => rfl
  | cons e r ih =>
    obtain ⟨k, b⟩ := e
    unfold Memory.erase at *
    rw [List.filter_cons]
    split
    · simp only [Memory.get, ih]
    · rename_i hk
      simp only [bne_iff_ne, ne_eq, Decidable.not_not] at hk
      subst hk
      rw [ih, Memory.get, if_neg (fun h2 => h h2.symm)]

/-- An inserted byte is read at its address, and every other byte is as before. -/
theorem Memory.get_insert {m : Memory} {a c : Nat} {b : Byte} (h : ∀ e ∈ m, e.1 ≠ a) :
    (m.insert a b).get c = if c = a then b else m.get c := by
  induction m with
  | nil =>
    simp only [Memory.insert, Memory.get]
    by_cases hc : c = a
    · simp [hc]
    · rw [if_neg hc, if_neg fun h => hc h.symm]
  | cons e r ih =>
    obtain ⟨k, x⟩ := e
    have hk : k ≠ a := h (k, x) (by simp)
    unfold Memory.insert
    split
    · simp only [Memory.get]
      by_cases hc : c = a
      · simp [hc]
      · rw [if_neg hc, if_neg fun h => hc h.symm]
    · simp only [Memory.get, ih fun e he => h e (by simp [he])]
      by_cases hc : c = a
      · subst hc; simp [hk]
      · simp [hc]

/-- Reading a byte after a byte is written. -/
theorem Memory.get_set (m : Memory) (a c : Nat) (b : Byte) : (m.set a b).get c = if c = a then b else m.get c := by
  have hne : ∀ e ∈ m.erase a, e.1 ≠ a := by
    intro e he
    simp only [Memory.erase, List.mem_filter, bne_iff_ne, ne_eq] at he
    exact he.2
  unfold Memory.set
  split
  · rename_i hb
    by_cases hc : c = a
    · subst hc; rw [Memory.get_of_not_mem hne, hb]; simp
    · simp [hc, Memory.get_erase_ne hc]
  · rw [Memory.get_insert hne]
    by_cases hc : c = a
    · simp [hc]
    · simp [hc, Memory.get_erase_ne hc]

/-- Reading a byte after bytes are written. -/
theorem Memory.get_write (m : Memory) (a c : Nat) (bs : List Byte) :
    (m.write a bs).get c = if a ≤ c ∧ c < a + bs.length then bs.getD (c - a) 0 else m.get c := by
  induction bs generalizing m a with
  | nil => simp only [Memory.write, List.length_nil]; rw [if_neg (by omega)]
  | cons b r ih =>
    rw [Memory.write, ih]
    simp only [List.length_cons]
    by_cases h1 : a + 1 ≤ c ∧ c < a + 1 + r.length
    · have : c - a = (c - (a + 1)) + 1 := by omega
      rw [if_pos h1, if_pos (by omega), this, List.getD_cons_succ]
    · rw [if_neg h1, Memory.get_set]
      by_cases hc : c = a
      · subst hc
        rw [if_pos rfl, if_pos (by omega)]
        simp
      · rw [if_neg hc, if_neg (by omega)]

/-! ## Fetching code -/

/-- A fetch of code through an entry of the core's own TLB gives the word in device HBM, and changes nothing. -/
theorem fetch4_codeAt {s : State} {g : Group} {va pa : Nat} (h : s.codeAt g va = some pa) :
    s.fetch4 g.agent va = (s, .word (s.codeWord pa)) := by
  unfold State.codeAt at h
  unfold State.fetch4
  split at h
  · cases h
  · rename_i hc
    simp only [Bool.not_eq_true] at hc
    rw [if_neg (by simp [hc])]
    split at h
    · cases h
    · rename_i e he
      simp only [Option.ite_none_right_eq_some, Bool.and_eq_true, Option.some.injEq, beq_iff_eq, Bool.not_eq_true',
        List.any_eq_false] at h
      obtain ⟨⟨⟨⟨h1, h2⟩, h3⟩, h4⟩, rfl⟩ := h
      have ht : s.target g.agent e.pte e.bits (va % 2 ^ 57) = some (.hbm (bits e.pte 12 40 * 4096 + va % 2 ^ 57 % 2 ^ e.bits)) := by
        unfold State.target
        simp only [h2, Group.agent, h3, if_true]
      have hk : (s.mem.code.find? fun k => k.1 == g.agent.core && k.2.1 == g.agent.launch &&
          k.2.2.1 == bits e.pte 12 40 * 4096 + va % 2 ^ 57 % 2 ^ e.bits) = none := by
        rw [List.find?_eq_none]
        simpa [Group.agent] using h4
      have htr : s.translate g.agent.core g.agent.ctx g.agent.part (va % 2 ^ 57) = (s, .leaf e.pte e.bits) := by
        unfold State.translate
        simp only [Group.agent, he]
      rw [htr]
      simp only [h1, Bool.not_true, Bool.false_eq_true, if_false, ht, h2, hk]
      rfl

/-- Code in device HBM lies in no bank of SRAM, so its fetch stalls for none. -/
theorem codeStalls_codeAt {s : State} {g : Group} {va n : Nat} (h : ∀ i < n, ∃ pa, s.codeAt g (va + 4 * i) = some pa) :
    s.codeStalls g.agent va n = false := by
  unfold State.codeStalls
  refine Bool.and_eq_false_imp.mpr fun _ => List.any_eq_false.mpr fun i hi => ?_
  obtain ⟨pa, h⟩ := h i (List.mem_range.mp hi)
  unfold State.codeAt at h
  split at h
  · cases h
  · split at h
    · cases h
    · rename_i e he
      simp only [Option.ite_none_right_eq_some, Bool.and_eq_true, Option.some.injEq, beq_iff_eq, Bool.not_eq_true',
        List.any_eq_false] at h
      obtain ⟨⟨⟨⟨-, h2⟩, h3⟩, -⟩, rfl⟩ := h
      have htr : s.translate g.agent.core g.agent.ctx g.agent.part ((va + 4 * i) % 2 ^ 57) = (s, .leaf e.pte e.bits) := by
        unfold State.translate
        simp only [Group.agent, he]
      have ht : s.target g.agent e.pte e.bits ((va + 4 * i) % 2 ^ 57) =
          some (.hbm (bits e.pte 12 40 * 4096 + (va + 4 * i) % 2 ^ 57 % 2 ^ e.bits)) := by
        unfold State.target
        simp only [h2, Group.agent, h3, if_true]
      simp only [htr, ht, Option.any_some, State.bankStalls, Bool.false_eq_true, not_false_eq_true]

end Sys2Proof.Machine
end

