-- ==== Sys2Proof/Laws/State.lean ====
section
/-! SUPPORT. What each update of the state leaves in each field: one lemma per field per update, so that no proof unfolds a
record update. -/
namespace Sys2Proof.Machine

/-! ## Updates of the state -/

@[simp] theorem State.modMem_ns (s : State) (f : MemSys → MemSys) : (s.modMem f).ns = s.ns := rfl
@[simp] theorem State.modMem_mem (s : State) (f : MemSys → MemSys) : (s.modMem f).mem = f s.mem := rfl
@[simp] theorem State.modMem_units (s : State) (f : MemSys → MemSys) : (s.modMem f).units = s.units := rfl
@[simp] theorem State.modMem_plat (s : State) (f : MemSys → MemSys) : (s.modMem f).plat = s.plat := rfl
@[simp] theorem State.modMem_groups (s : State) (f : MemSys → MemSys) : (s.modMem f).groups = s.groups := rfl
@[simp] theorem State.modMem_turn (s : State) (f : MemSys → MemSys) : (s.modMem f).turn = s.turn := rfl
@[simp] theorem State.modMem_agenda (s : State) (f : MemSys → MemSys) : (s.modMem f).agenda = s.agenda := rfl
@[simp] theorem State.modMem_turns (s : State) (f : MemSys → MemSys) : (s.modMem f).turns = s.turns := rfl
@[simp] theorem State.modMem_draws (s : State) (f : MemSys → MemSys) : (s.modMem f).draws = s.draws := rfl
@[simp] theorem State.modMem_nextId (s : State) (f : MemSys → MemSys) : (s.modMem f).nextId = s.nextId := rfl

@[simp] theorem State.modUnits_ns (s : State) (f : Units → Units) : (s.modUnits f).ns = s.ns := rfl
@[simp] theorem State.modUnits_mem (s : State) (f : Units → Units) : (s.modUnits f).mem = s.mem := rfl
@[simp] theorem State.modUnits_units (s : State) (f : Units → Units) : (s.modUnits f).units = f s.units := rfl
@[simp] theorem State.modUnits_plat (s : State) (f : Units → Units) : (s.modUnits f).plat = s.plat := rfl
@[simp] theorem State.modUnits_groups (s : State) (f : Units → Units) : (s.modUnits f).groups = s.groups := rfl
@[simp] theorem State.modUnits_turn (s : State) (f : Units → Units) : (s.modUnits f).turn = s.turn := rfl
@[simp] theorem State.modUnits_agenda (s : State) (f : Units → Units) : (s.modUnits f).agenda = s.agenda := rfl
@[simp] theorem State.modUnits_turns (s : State) (f : Units → Units) : (s.modUnits f).turns = s.turns := rfl
@[simp] theorem State.modUnits_draws (s : State) (f : Units → Units) : (s.modUnits f).draws = s.draws := rfl
@[simp] theorem State.modUnits_nextId (s : State) (f : Units → Units) : (s.modUnits f).nextId = s.nextId := rfl

@[simp] theorem State.modPlat_ns (s : State) (f : Plat → Plat) : (s.modPlat f).ns = s.ns := rfl
@[simp] theorem State.modPlat_mem (s : State) (f : Plat → Plat) : (s.modPlat f).mem = s.mem := rfl
@[simp] theorem State.modPlat_units (s : State) (f : Plat → Plat) : (s.modPlat f).units = s.units := rfl
@[simp] theorem State.modPlat_plat (s : State) (f : Plat → Plat) : (s.modPlat f).plat = f s.plat := rfl
@[simp] theorem State.modPlat_groups (s : State) (f : Plat → Plat) : (s.modPlat f).groups = s.groups := rfl
@[simp] theorem State.modPlat_turn (s : State) (f : Plat → Plat) : (s.modPlat f).turn = s.turn := rfl
@[simp] theorem State.modPlat_agenda (s : State) (f : Plat → Plat) : (s.modPlat f).agenda = s.agenda := rfl
@[simp] theorem State.modPlat_turns (s : State) (f : Plat → Plat) : (s.modPlat f).turns = s.turns := rfl
@[simp] theorem State.modPlat_draws (s : State) (f : Plat → Plat) : (s.modPlat f).draws = s.draws := rfl
@[simp] theorem State.modPlat_nextId (s : State) (f : Plat → Plat) : (s.modPlat f).nextId = s.nextId := rfl

@[simp] theorem State.drawn_ns (s : State) : (s.drawn).ns = s.ns := rfl
@[simp] theorem State.drawn_mem (s : State) : (s.drawn).mem = s.mem := rfl
@[simp] theorem State.drawn_units (s : State) : (s.drawn).units = s.units := rfl
@[simp] theorem State.drawn_plat (s : State) : (s.drawn).plat = s.plat := rfl
@[simp] theorem State.drawn_groups (s : State) : (s.drawn).groups = s.groups := rfl
@[simp] theorem State.drawn_turn (s : State) : (s.drawn).turn = s.turn := rfl
@[simp] theorem State.drawn_agenda (s : State) : (s.drawn).agenda = s.agenda := rfl
@[simp] theorem State.drawn_turns (s : State) : (s.drawn).turns = s.turns := rfl
@[simp] theorem State.drawn_draws (s : State) : (s.drawn).draws = s.draws + 1 := rfl
@[simp] theorem State.drawn_nextId (s : State) : (s.drawn).nextId = s.nextId := rfl

@[simp] theorem State.bumpId_ns (s : State) : (s.bumpId).ns = s.ns := rfl
@[simp] theorem State.bumpId_mem (s : State) : (s.bumpId).mem = s.mem := rfl
@[simp] theorem State.bumpId_units (s : State) : (s.bumpId).units = s.units := rfl
@[simp] theorem State.bumpId_plat (s : State) : (s.bumpId).plat = s.plat := rfl
@[simp] theorem State.bumpId_groups (s : State) : (s.bumpId).groups = s.groups := rfl
@[simp] theorem State.bumpId_turn (s : State) : (s.bumpId).turn = s.turn := rfl
@[simp] theorem State.bumpId_agenda (s : State) : (s.bumpId).agenda = s.agenda := rfl
@[simp] theorem State.bumpId_turns (s : State) : (s.bumpId).turns = s.turns := rfl
@[simp] theorem State.bumpId_draws (s : State) : (s.bumpId).draws = s.draws := rfl
@[simp] theorem State.bumpId_nextId (s : State) : (s.bumpId).nextId = s.nextId + 1 := rfl

@[simp] theorem State.setGroup_ns (s : State) (g : Group) : (s.setGroup g).ns = s.ns := rfl
@[simp] theorem State.setGroup_mem (s : State) (g : Group) : (s.setGroup g).mem = s.mem := rfl
@[simp] theorem State.setGroup_units (s : State) (g : Group) : (s.setGroup g).units = s.units := rfl
@[simp] theorem State.setGroup_plat (s : State) (g : Group) : (s.setGroup g).plat = s.plat := rfl
@[simp] theorem State.setGroup_groups (s : State) (g : Group) :
    (s.setGroup g).groups = s.groups.map fun h => if h.gid == g.gid then g else h := rfl
@[simp] theorem State.setGroup_turn (s : State) (g : Group) : (s.setGroup g).turn = s.turn := rfl
@[simp] theorem State.setGroup_agenda (s : State) (g : Group) : (s.setGroup g).agenda = s.agenda := rfl
@[simp] theorem State.setGroup_turns (s : State) (g : Group) : (s.setGroup g).turns = s.turns := rfl
@[simp] theorem State.setGroup_draws (s : State) (g : Group) : (s.setGroup g).draws = s.draws := rfl
@[simp] theorem State.setGroup_nextId (s : State) (g : Group) : (s.setGroup g).nextId = s.nextId := rfl

@[simp] theorem State.modGroup_ns (s : State) (i : Nat) (f : Group → Group) : (s.modGroup i f).ns = s.ns := rfl
@[simp] theorem State.modGroup_mem (s : State) (i : Nat) (f : Group → Group) : (s.modGroup i f).mem = s.mem := rfl
@[simp] theorem State.modGroup_units (s : State) (i : Nat) (f : Group → Group) :
    (s.modGroup i f).units = s.units := rfl
@[simp] theorem State.modGroup_plat (s : State) (i : Nat) (f : Group → Group) : (s.modGroup i f).plat = s.plat := rfl
@[simp] theorem State.modGroup_groups (s : State) (i : Nat) (f : Group → Group) :
    (s.modGroup i f).groups = s.groups.map fun h => if h.gid == i then f h else h := rfl
@[simp] theorem State.modGroup_turn (s : State) (i : Nat) (f : Group → Group) : (s.modGroup i f).turn = s.turn := rfl
@[simp] theorem State.modGroup_agenda (s : State) (i : Nat) (f : Group → Group) :
    (s.modGroup i f).agenda = s.agenda := rfl
@[simp] theorem State.modGroup_turns (s : State) (i : Nat) (f : Group → Group) :
    (s.modGroup i f).turns = s.turns := rfl
@[simp] theorem State.modGroup_draws (s : State) (i : Nat) (f : Group → Group) :
    (s.modGroup i f).draws = s.draws := rfl
@[simp] theorem State.modGroup_nextId (s : State) (i : Nat) (f : Group → Group) :
    (s.modGroup i f).nextId = s.nextId := rfl

@[simp] theorem State.modCtx_ns (s : State) (x : Nat) (f : Ctx → Ctx) : (s.modCtx x f).ns = s.ns := rfl
@[simp] theorem State.modCtx_mem (s : State) (x : Nat) (f : Ctx → Ctx) : (s.modCtx x f).mem = s.mem := rfl
@[simp] theorem State.modCtx_units (s : State) (x : Nat) (f : Ctx → Ctx) : (s.modCtx x f).units = s.units := rfl
@[simp] theorem State.modCtx_plat (s : State) (x : Nat) (f : Ctx → Ctx) :
    (s.modCtx x f).plat = { s.plat with ctxs := tmod Ctx.reset s.plat.ctxs x f } := rfl
@[simp] theorem State.modCtx_groups (s : State) (x : Nat) (f : Ctx → Ctx) : (s.modCtx x f).groups = s.groups := rfl
@[simp] theorem State.modCtx_turn (s : State) (x : Nat) (f : Ctx → Ctx) : (s.modCtx x f).turn = s.turn := rfl
@[simp] theorem State.modCtx_agenda (s : State) (x : Nat) (f : Ctx → Ctx) : (s.modCtx x f).agenda = s.agenda := rfl
@[simp] theorem State.modCtx_turns (s : State) (x : Nat) (f : Ctx → Ctx) : (s.modCtx x f).turns = s.turns := rfl
@[simp] theorem State.modCtx_draws (s : State) (x : Nat) (f : Ctx → Ctx) : (s.modCtx x f).draws = s.draws := rfl
@[simp] theorem State.modCtx_nextId (s : State) (x : Nat) (f : Ctx → Ctx) : (s.modCtx x f).nextId = s.nextId := rfl

@[simp] theorem State.modPart_ns (s : State) (p : Nat) (f : Part → Part) : (s.modPart p f).ns = s.ns := rfl
@[simp] theorem State.modPart_mem (s : State) (p : Nat) (f : Part → Part) : (s.modPart p f).mem = s.mem := rfl
@[simp] theorem State.modPart_units (s : State) (p : Nat) (f : Part → Part) : (s.modPart p f).units = s.units := rfl
@[simp] theorem State.modPart_plat (s : State) (p : Nat) (f : Part → Part) :
    (s.modPart p f).plat = { s.plat with parts := tmod Part.reset s.plat.parts p f } := rfl
@[simp] theorem State.modPart_groups (s : State) (p : Nat) (f : Part → Part) :
    (s.modPart p f).groups = s.groups := rfl
@[simp] theorem State.modPart_turn (s : State) (p : Nat) (f : Part → Part) : (s.modPart p f).turn = s.turn := rfl
@[simp] theorem State.modPart_agenda (s : State) (p : Nat) (f : Part → Part) :
    (s.modPart p f).agenda = s.agenda := rfl
@[simp] theorem State.modPart_turns (s : State) (p : Nat) (f : Part → Part) : (s.modPart p f).turns = s.turns := rfl
@[simp] theorem State.modPart_draws (s : State) (p : Nat) (f : Part → Part) : (s.modPart p f).draws = s.draws := rfl
@[simp] theorem State.modPart_nextId (s : State) (p : Nat) (f : Part → Part) :
    (s.modPart p f).nextId = s.nextId := rfl

@[simp] theorem State.modCluster_ns (s : State) (n : Nat) (f : Cluster → Cluster) :
    (s.modCluster n f).ns = s.ns := rfl
@[simp] theorem State.modCluster_mem (s : State) (n : Nat) (f : Cluster → Cluster) :
    (s.modCluster n f).mem = s.mem := rfl
@[simp] theorem State.modCluster_units (s : State) (n : Nat) (f : Cluster → Cluster) :
    (s.modCluster n f).units = s.units := rfl
@[simp] theorem State.modCluster_plat (s : State) (n : Nat) (f : Cluster → Cluster) :
    (s.modCluster n f).plat = { s.plat with clusters := tmod Cluster.reset s.plat.clusters n f } := rfl
@[simp] theorem State.modCluster_groups (s : State) (n : Nat) (f : Cluster → Cluster) :
    (s.modCluster n f).groups = s.groups := rfl
@[simp] theorem State.modCluster_turn (s : State) (n : Nat) (f : Cluster → Cluster) :
    (s.modCluster n f).turn = s.turn := rfl
@[simp] theorem State.modCluster_agenda (s : State) (n : Nat) (f : Cluster → Cluster) :
    (s.modCluster n f).agenda = s.agenda := rfl
@[simp] theorem State.modCluster_turns (s : State) (n : Nat) (f : Cluster → Cluster) :
    (s.modCluster n f).turns = s.turns := rfl
@[simp] theorem State.modCluster_draws (s : State) (n : Nat) (f : Cluster → Cluster) :
    (s.modCluster n f).draws = s.draws := rfl
@[simp] theorem State.modCluster_nextId (s : State) (n : Nat) (f : Cluster → Cluster) :
    (s.modCluster n f).nextId = s.nextId := rfl

@[simp] theorem State.modCore_ns (s : State) (k : Nat) (f : Core → Core) : (s.modCore k f).ns = s.ns := rfl
@[simp] theorem State.modCore_mem (s : State) (k : Nat) (f : Core → Core) : (s.modCore k f).mem = s.mem := rfl
@[simp] theorem State.modCore_units (s : State) (k : Nat) (f : Core → Core) : (s.modCore k f).units = s.units := rfl
@[simp] theorem State.modCore_plat (s : State) (k : Nat) (f : Core → Core) :
    (s.modCore k f).plat = { s.plat with cores := tmod Core.reset s.plat.cores k f } := rfl
@[simp] theorem State.modCore_groups (s : State) (k : Nat) (f : Core → Core) :
    (s.modCore k f).groups = s.groups := rfl
@[simp] theorem State.modCore_turn (s : State) (k : Nat) (f : Core → Core) : (s.modCore k f).turn = s.turn := rfl
@[simp] theorem State.modCore_agenda (s : State) (k : Nat) (f : Core → Core) :
    (s.modCore k f).agenda = s.agenda := rfl
@[simp] theorem State.modCore_turns (s : State) (k : Nat) (f : Core → Core) : (s.modCore k f).turns = s.turns := rfl
@[simp] theorem State.modCore_draws (s : State) (k : Nat) (f : Core → Core) : (s.modCore k f).draws = s.draws := rfl
@[simp] theorem State.modCore_nextId (s : State) (k : Nat) (f : Core → Core) :
    (s.modCore k f).nextId = s.nextId := rfl

@[simp] theorem State.modBox_ns (s : State) (n : Nat) (f : Mailbox → Mailbox) : (s.modBox n f).ns = s.ns := rfl
@[simp] theorem State.modBox_mem (s : State) (n : Nat) (f : Mailbox → Mailbox) : (s.modBox n f).mem = s.mem := rfl
@[simp] theorem State.modBox_units (s : State) (n : Nat) (f : Mailbox → Mailbox) :
    (s.modBox n f).units = s.units := rfl
@[simp] theorem State.modBox_plat (s : State) (n : Nat) (f : Mailbox → Mailbox) :
    (s.modBox n f).plat = { s.plat with boxes := tmod Mailbox.reset s.plat.boxes n f } := rfl
@[simp] theorem State.modBox_groups (s : State) (n : Nat) (f : Mailbox → Mailbox) :
    (s.modBox n f).groups = s.groups := rfl
@[simp] theorem State.modBox_turn (s : State) (n : Nat) (f : Mailbox → Mailbox) : (s.modBox n f).turn = s.turn := rfl
@[simp] theorem State.modBox_agenda (s : State) (n : Nat) (f : Mailbox → Mailbox) :
    (s.modBox n f).agenda = s.agenda := rfl
@[simp] theorem State.modBox_turns (s : State) (n : Nat) (f : Mailbox → Mailbox) :
    (s.modBox n f).turns = s.turns := rfl
@[simp] theorem State.modBox_draws (s : State) (n : Nat) (f : Mailbox → Mailbox) :
    (s.modBox n f).draws = s.draws := rfl
@[simp] theorem State.modBox_nextId (s : State) (n : Nat) (f : Mailbox → Mailbox) :
    (s.modBox n f).nextId = s.nextId := rfl

@[simp] theorem State.modLink_ns (s : State) (l : Nat) (f : Link → Link) : (s.modLink l f).ns = s.ns := rfl
@[simp] theorem State.modLink_mem (s : State) (l : Nat) (f : Link → Link) : (s.modLink l f).mem = s.mem := rfl
@[simp] theorem State.modLink_units (s : State) (l : Nat) (f : Link → Link) : (s.modLink l f).units = s.units := rfl
@[simp] theorem State.modLink_plat (s : State) (l : Nat) (f : Link → Link) :
    (s.modLink l f).plat = { s.plat with links := tmod Link.reset s.plat.links l f } := rfl
@[simp] theorem State.modLink_groups (s : State) (l : Nat) (f : Link → Link) :
    (s.modLink l f).groups = s.groups := rfl
@[simp] theorem State.modLink_turn (s : State) (l : Nat) (f : Link → Link) : (s.modLink l f).turn = s.turn := rfl
@[simp] theorem State.modLink_agenda (s : State) (l : Nat) (f : Link → Link) :
    (s.modLink l f).agenda = s.agenda := rfl
@[simp] theorem State.modLink_turns (s : State) (l : Nat) (f : Link → Link) : (s.modLink l f).turns = s.turns := rfl
@[simp] theorem State.modLink_draws (s : State) (l : Nat) (f : Link → Link) : (s.modLink l f).draws = s.draws := rfl
@[simp] theorem State.modLink_nextId (s : State) (l : Nat) (f : Link → Link) :
    (s.modLink l f).nextId = s.nextId := rfl

/-! ## Blocks read after they are changed -/

@[simp] theorem State.ctx_modCtx (s : State) (x y : Nat) (f : Ctx → Ctx) :
    (s.modCtx x f).ctx y = if x = y then f (s.ctx x) else s.ctx y := by
  simp only [State.ctx, State.modCtx, State.modPlat, tmod, tget_tset]
@[simp] theorem State.part_modPart (s : State) (x y : Nat) (f : Part → Part) :
    (s.modPart x f).part y = if x = y then f (s.part x) else s.part y := by
  simp only [State.part, State.modPart, State.modPlat, tmod, tget_tset]
@[simp] theorem State.cluster_modCluster (s : State) (x y : Nat) (f : Cluster → Cluster) :
    (s.modCluster x f).cluster y = if x = y then f (s.cluster x) else s.cluster y := by
  simp only [State.cluster, State.modCluster, State.modPlat, tmod, tget_tset]
@[simp] theorem State.core_modCore (s : State) (x y : Nat) (f : Core → Core) :
    (s.modCore x f).core y = if x = y then f (s.core x) else s.core y := by
  simp only [State.core, State.modCore, State.modPlat, tmod, tget_tset]
@[simp] theorem State.box_modBox (s : State) (x y : Nat) (f : Mailbox → Mailbox) :
    (s.modBox x f).box y = if x = y then f (s.box x) else s.box y := by
  simp only [State.box, State.modBox, State.modPlat, tmod, tget_tset]
@[simp] theorem State.link_modLink (s : State) (x y : Nat) (f : Link → Link) :
    (s.modLink x f).link y = if x = y then f (s.link x) else s.link y := by
  simp only [State.link, State.modLink, State.modPlat, tmod, tget_tset]
@[simp] theorem State.ctx_modMem (s : State) (f : MemSys → MemSys) (x : Nat) : (s.modMem f).ctx x = s.ctx x := rfl
@[simp] theorem State.ctx_modUnits (s : State) (f : Units → Units) (x : Nat) : (s.modUnits f).ctx x = s.ctx x := rfl
@[simp] theorem State.ctx_drawn (s : State) (x : Nat) : (s.drawn).ctx x = s.ctx x := rfl
@[simp] theorem State.ctx_bumpId (s : State) (x : Nat) : (s.bumpId).ctx x = s.ctx x := rfl
@[simp] theorem State.ctx_setGroup (s : State) (g : Group) (x : Nat) : (s.setGroup g).ctx x = s.ctx x := rfl
@[simp] theorem State.ctx_modGroup (s : State) (i : Nat) (f : Group → Group) (x : Nat) : (s.modGroup i f).ctx x = s.ctx x := rfl
@[simp] theorem State.part_modMem (s : State) (f : MemSys → MemSys) (x : Nat) : (s.modMem f).part x = s.part x := rfl
@[simp] theorem State.part_modUnits (s : State) (f : Units → Units) (x : Nat) : (s.modUnits f).part x = s.part x := rfl
@[simp] theorem State.part_drawn (s : State) (x : Nat) : (s.drawn).part x = s.part x := rfl
@[simp] theorem State.part_bumpId (s : State) (x : Nat) : (s.bumpId).part x = s.part x := rfl
@[simp] theorem State.part_setGroup (s : State) (g : Group) (x : Nat) : (s.setGroup g).part x = s.part x := rfl
@[simp] theorem State.part_modGroup (s : State) (i : Nat) (f : Group → Group) (x : Nat) : (s.modGroup i f).part x = s.part x := rfl
@[simp] theorem State.cluster_modMem (s : State) (f : MemSys → MemSys) (x : Nat) : (s.modMem f).cluster x = s.cluster x := rfl
@[simp] theorem State.cluster_modUnits (s : State) (f : Units → Units) (x : Nat) : (s.modUnits f).cluster x = s.cluster x := rfl
@[simp] theorem State.cluster_drawn (s : State) (x : Nat) : (s.drawn).cluster x = s.cluster x := rfl
@[simp] theorem State.cluster_bumpId (s : State) (x : Nat) : (s.bumpId).cluster x = s.cluster x := rfl
@[simp] theorem State.cluster_setGroup (s : State) (g : Group) (x : Nat) : (s.setGroup g).cluster x = s.cluster x := rfl
@[simp] theorem State.cluster_modGroup (s : State) (i : Nat) (f : Group → Group) (x : Nat) : (s.modGroup i f).cluster x = s.cluster x := rfl
@[simp] theorem State.core_modMem (s : State) (f : MemSys → MemSys) (x : Nat) : (s.modMem f).core x = s.core x := rfl
@[simp] theorem State.core_modUnits (s : State) (f : Units → Units) (x : Nat) : (s.modUnits f).core x = s.core x := rfl
@[simp] theorem State.core_drawn (s : State) (x : Nat) : (s.drawn).core x = s.core x := rfl
@[simp] theorem State.core_bumpId (s : State) (x : Nat) : (s.bumpId).core x = s.core x := rfl
@[simp] theorem State.core_setGroup (s : State) (g : Group) (x : Nat) : (s.setGroup g).core x = s.core x := rfl
@[simp] theorem State.core_modGroup (s : State) (i : Nat) (f : Group → Group) (x : Nat) : (s.modGroup i f).core x = s.core x := rfl
@[simp] theorem State.box_modMem (s : State) (f : MemSys → MemSys) (x : Nat) : (s.modMem f).box x = s.box x := rfl
@[simp] theorem State.box_modUnits (s : State) (f : Units → Units) (x : Nat) : (s.modUnits f).box x = s.box x := rfl
@[simp] theorem State.box_drawn (s : State) (x : Nat) : (s.drawn).box x = s.box x := rfl
@[simp] theorem State.box_bumpId (s : State) (x : Nat) : (s.bumpId).box x = s.box x := rfl
@[simp] theorem State.box_setGroup (s : State) (g : Group) (x : Nat) : (s.setGroup g).box x = s.box x := rfl
@[simp] theorem State.box_modGroup (s : State) (i : Nat) (f : Group → Group) (x : Nat) : (s.modGroup i f).box x = s.box x := rfl
@[simp] theorem State.link_modMem (s : State) (f : MemSys → MemSys) (x : Nat) : (s.modMem f).link x = s.link x := rfl
@[simp] theorem State.link_modUnits (s : State) (f : Units → Units) (x : Nat) : (s.modUnits f).link x = s.link x := rfl
@[simp] theorem State.link_drawn (s : State) (x : Nat) : (s.drawn).link x = s.link x := rfl
@[simp] theorem State.link_bumpId (s : State) (x : Nat) : (s.bumpId).link x = s.link x := rfl
@[simp] theorem State.link_setGroup (s : State) (g : Group) (x : Nat) : (s.setGroup g).link x = s.link x := rfl
@[simp] theorem State.link_modGroup (s : State) (i : Nat) (f : Group → Group) (x : Nat) : (s.modGroup i f).link x = s.link x := rfl

/-! ## Updates of a group -/

@[simp] theorem Group.advance_gid (g : Group) (n : Nat) : (g.advance n).gid = g.gid := rfl
@[simp] theorem Group.advance_place (g : Group) (n : Nat) : (g.advance n).place = g.place := rfl
@[simp] theorem Group.advance_info (g : Group) (n : Nat) : (g.advance n).info = g.info := rfl
@[simp] theorem Group.advance_regs (g : Group) (n : Nat) : (g.advance n).regs = g.regs := rfl
@[simp] theorem Group.advance_lanes (g : Group) (n : Nat) : (g.advance n).lanes = g.lanes := rfl
@[simp] theorem Group.advance_pend (g : Group) (n : Nat) : (g.advance n).pend = g.pend := rfl
@[simp] theorem Group.advance_holds (g : Group) (n : Nat) : (g.advance n).holds = g.holds := rfl
@[simp] theorem Group.advance_dq (g : Group) (n : Nat) : (g.advance n).dq = g.dq := rfl
@[simp] theorem Group.advance_oldS (g : Group) (n : Nat) : (g.advance n).oldS = g.oldS := rfl
@[simp] theorem Group.advance_spc (g : Group) (n : Nat) : (g.advance n).spc = g.spc + n := rfl
@[simp] theorem Group.advance_wait (g : Group) (n : Nat) : (g.advance n).wait = none := rfl
@[simp] theorem Group.advance_words (g : Group) (n : Nat) : (g.advance n).words = none := rfl
@[simp] theorem Group.advance_uas (g : Group) (n : Nat) : (g.advance n).uas = g.uas := rfl
@[simp] theorem Group.advance_acquired (g : Group) (n : Nat) : (g.advance n).acquired = g.acquired := rfl
@[simp] theorem Group.advance_nsLatch (g : Group) (n : Nat) : (g.advance n).nsLatch = g.nsLatch := rfl
@[simp] theorem Group.advance_trap (g : Group) (n : Nat) : (g.advance n).trap = g.trap := rfl
@[simp] theorem Group.advance_gen (g : Group) (n : Nat) : (g.advance n).gen = g.gen := rfl
@[simp] theorem Group.advance_wa (g : Group) (n : Nat) : (g.advance n).wa = g.wa := rfl
@[simp] theorem Group.advance_openBatch (g : Group) (n : Nat) : (g.advance n).openBatch = g.openBatch := rfl
@[simp] theorem Group.advance_batch (g : Group) (n : Nat) : (g.advance n).batch = g.batch := rfl
@[simp] theorem Group.advance_doneBatch (g : Group) (n : Nat) : (g.advance n).doneBatch = g.doneBatch := rfl
@[simp] theorem Group.advance_entered (g : Group) (n : Nat) : (g.advance n).entered = g.entered := rfl
@[simp] theorem Group.advance_saved (g : Group) (n : Nat) : (g.advance n).saved = g.saved := rfl
@[simp] theorem Group.advance_holdTrap (g : Group) (n : Nat) : (g.advance n).holdTrap = g.holdTrap := rfl
@[simp] theorem Group.advance_holdFirst (g : Group) (n : Nat) : (g.advance n).holdFirst = g.holdFirst := rfl
@[simp] theorem Group.advance_async (g : Group) (n : Nat) : (g.advance n).async = g.async := rfl
@[simp] theorem Group.advance_doneList (g : Group) (n : Nat) : (g.advance n).doneList = g.doneList := rfl
@[simp] theorem Group.advance_liveTiles (g : Group) (n : Nat) : (g.advance n).liveTiles = g.liveTiles := rfl
@[simp] theorem Group.advance_suspended (g : Group) (n : Nat) : (g.advance n).suspended = g.suspended := rfl
@[simp] theorem Group.advance_yielded (g : Group) (n : Nat) : (g.advance n).yielded = g.yielded := rfl
@[simp] theorem Group.advance_due (g : Group) (n : Nat) : (g.advance n).due = g.due := rfl
@[simp] theorem Group.advance_holdTimer (g : Group) (n : Nat) : (g.advance n).holdTimer = g.holdTimer := rfl

@[simp] theorem Group.setS_gid (g : Group) (n : Nat) (w : Word) : (g.setS n w).gid = g.gid := rfl
@[simp] theorem Group.setS_place (g : Group) (n : Nat) (w : Word) : (g.setS n w).place = g.place := rfl
@[simp] theorem Group.setS_info (g : Group) (n : Nat) (w : Word) : (g.setS n w).info = g.info := rfl
@[simp] theorem Group.setS_regs (g : Group) (n : Nat) (w : Word) :
    (g.setS n w).regs = { g.regs with s := tset g.regs.s n w } := rfl
@[simp] theorem Group.setS_lanes (g : Group) (n : Nat) (w : Word) : (g.setS n w).lanes = g.lanes := rfl
@[simp] theorem Group.setS_pend (g : Group) (n : Nat) (w : Word) : (g.setS n w).pend = g.pend := rfl
@[simp] theorem Group.setS_holds (g : Group) (n : Nat) (w : Word) : (g.setS n w).holds = g.holds := rfl
@[simp] theorem Group.setS_dq (g : Group) (n : Nat) (w : Word) : (g.setS n w).dq = keepQueued n (g.getS n) g.dq := rfl
@[simp] theorem Group.setS_oldS (g : Group) (n : Nat) (w : Word) :
    (g.setS n w).oldS = keepRunning g.lanes n (g.getS n) g.oldS := rfl
@[simp] theorem Group.setS_spc (g : Group) (n : Nat) (w : Word) : (g.setS n w).spc = g.spc := rfl
@[simp] theorem Group.setS_wait (g : Group) (n : Nat) (w : Word) : (g.setS n w).wait = g.wait := rfl
@[simp] theorem Group.setS_words (g : Group) (n : Nat) (w : Word) : (g.setS n w).words = g.words := rfl
@[simp] theorem Group.setS_uas (g : Group) (n : Nat) (w : Word) : (g.setS n w).uas = g.uas := rfl
@[simp] theorem Group.setS_acquired (g : Group) (n : Nat) (w : Word) : (g.setS n w).acquired = g.acquired := rfl
@[simp] theorem Group.setS_nsLatch (g : Group) (n : Nat) (w : Word) : (g.setS n w).nsLatch = g.nsLatch := rfl
@[simp] theorem Group.setS_trap (g : Group) (n : Nat) (w : Word) :
    (g.setS n w).trap = g.trap.map fun t =>
      { t with oldS := keepRunning t.frame n (g.getS n) t.oldS, dq := keepQueued n (g.getS n) t.dq } := rfl
@[simp] theorem Group.setS_gen (g : Group) (n : Nat) (w : Word) : (g.setS n w).gen = g.gen := rfl
@[simp] theorem Group.setS_wa (g : Group) (n : Nat) (w : Word) : (g.setS n w).wa = g.wa := rfl
@[simp] theorem Group.setS_openBatch (g : Group) (n : Nat) (w : Word) : (g.setS n w).openBatch = g.openBatch := rfl
@[simp] theorem Group.setS_batch (g : Group) (n : Nat) (w : Word) : (g.setS n w).batch = g.batch := rfl
@[simp] theorem Group.setS_doneBatch (g : Group) (n : Nat) (w : Word) : (g.setS n w).doneBatch = g.doneBatch := rfl
@[simp] theorem Group.setS_entered (g : Group) (n : Nat) (w : Word) : (g.setS n w).entered = g.entered := rfl
@[simp] theorem Group.setS_saved (g : Group) (n : Nat) (w : Word) : (g.setS n w).saved = g.saved := rfl
@[simp] theorem Group.setS_holdTrap (g : Group) (n : Nat) (w : Word) : (g.setS n w).holdTrap = g.holdTrap := rfl
@[simp] theorem Group.setS_holdFirst (g : Group) (n : Nat) (w : Word) : (g.setS n w).holdFirst = g.holdFirst := rfl
@[simp] theorem Group.setS_async (g : Group) (n : Nat) (w : Word) : (g.setS n w).async = g.async := rfl
@[simp] theorem Group.setS_doneList (g : Group) (n : Nat) (w : Word) : (g.setS n w).doneList = g.doneList := rfl
@[simp] theorem Group.setS_liveTiles (g : Group) (n : Nat) (w : Word) : (g.setS n w).liveTiles = g.liveTiles := rfl
@[simp] theorem Group.setS_suspended (g : Group) (n : Nat) (w : Word) : (g.setS n w).suspended = g.suspended := rfl
@[simp] theorem Group.setS_yielded (g : Group) (n : Nat) (w : Word) : (g.setS n w).yielded = g.yielded := rfl
@[simp] theorem Group.setS_due (g : Group) (n : Nat) (w : Word) : (g.setS n w).due = g.due := rfl
@[simp] theorem Group.setS_holdTimer (g : Group) (n : Nat) (w : Word) : (g.setS n w).holdTimer = g.holdTimer := rfl

@[simp] theorem Group.setV_gid (g : Group) (n l : Nat) (w : Word) : (g.setV n l w).gid = g.gid := rfl
@[simp] theorem Group.setV_place (g : Group) (n l : Nat) (w : Word) : (g.setV n l w).place = g.place := rfl
@[simp] theorem Group.setV_info (g : Group) (n l : Nat) (w : Word) : (g.setV n l w).info = g.info := rfl
@[simp] theorem Group.setV_regs (g : Group) (n l : Nat) (w : Word) :
    (g.setV n l w).regs = { g.regs with v := tset g.regs.v (32 * n + l) w } := rfl
@[simp] theorem Group.setV_lanes (g : Group) (n l : Nat) (w : Word) : (g.setV n l w).lanes = g.lanes := rfl
@[simp] theorem Group.setV_pend (g : Group) (n l : Nat) (w : Word) : (g.setV n l w).pend = g.pend := rfl
@[simp] theorem Group.setV_holds (g : Group) (n l : Nat) (w : Word) : (g.setV n l w).holds = g.holds := rfl
@[simp] theorem Group.setV_dq (g : Group) (n l : Nat) (w : Word) : (g.setV n l w).dq = g.dq := rfl
@[simp] theorem Group.setV_oldS (g : Group) (n l : Nat) (w : Word) : (g.setV n l w).oldS = g.oldS := rfl
@[simp] theorem Group.setV_spc (g : Group) (n l : Nat) (w : Word) : (g.setV n l w).spc = g.spc := rfl
@[simp] theorem Group.setV_wait (g : Group) (n l : Nat) (w : Word) : (g.setV n l w).wait = g.wait := rfl
@[simp] theorem Group.setV_words (g : Group) (n l : Nat) (w : Word) : (g.setV n l w).words = g.words := rfl
@[simp] theorem Group.setV_uas (g : Group) (n l : Nat) (w : Word) : (g.setV n l w).uas = g.uas := rfl
@[simp] theorem Group.setV_acquired (g : Group) (n l : Nat) (w : Word) : (g.setV n l w).acquired = g.acquired := rfl
@[simp] theorem Group.setV_nsLatch (g : Group) (n l : Nat) (w : Word) : (g.setV n l w).nsLatch = g.nsLatch := rfl
@[simp] theorem Group.setV_trap (g : Group) (n l : Nat) (w : Word) : (g.setV n l w).trap = g.trap := rfl
@[simp] theorem Group.setV_gen (g : Group) (n l : Nat) (w : Word) : (g.setV n l w).gen = g.gen := rfl
@[simp] theorem Group.setV_wa (g : Group) (n l : Nat) (w : Word) : (g.setV n l w).wa = g.wa := rfl
@[simp] theorem Group.setV_openBatch (g : Group) (n l : Nat) (w : Word) :
    (g.setV n l w).openBatch = g.openBatch := rfl
@[simp] theorem Group.setV_batch (g : Group) (n l : Nat) (w : Word) : (g.setV n l w).batch = g.batch := rfl
@[simp] theorem Group.setV_doneBatch (g : Group) (n l : Nat) (w : Word) :
    (g.setV n l w).doneBatch = g.doneBatch := rfl
@[simp] theorem Group.setV_entered (g : Group) (n l : Nat) (w : Word) : (g.setV n l w).entered = g.entered := rfl
@[simp] theorem Group.setV_saved (g : Group) (n l : Nat) (w : Word) : (g.setV n l w).saved = g.saved := rfl
@[simp] theorem Group.setV_holdTrap (g : Group) (n l : Nat) (w : Word) : (g.setV n l w).holdTrap = g.holdTrap := rfl
@[simp] theorem Group.setV_holdFirst (g : Group) (n l : Nat) (w : Word) : (g.setV n l w).holdFirst = g.holdFirst := rfl
@[simp] theorem Group.setV_async (g : Group) (n l : Nat) (w : Word) : (g.setV n l w).async = g.async := rfl
@[simp] theorem Group.setV_doneList (g : Group) (n l : Nat) (w : Word) : (g.setV n l w).doneList = g.doneList := rfl
@[simp] theorem Group.setV_liveTiles (g : Group) (n l : Nat) (w : Word) :
    (g.setV n l w).liveTiles = g.liveTiles := rfl
@[simp] theorem Group.setV_suspended (g : Group) (n l : Nat) (w : Word) :
    (g.setV n l w).suspended = g.suspended := rfl
@[simp] theorem Group.setV_holdTimer (g : Group) (n l : Nat) (w : Word) :
    (g.setV n l w).holdTimer = g.holdTimer := rfl

@[simp] theorem Group.setFlg_gid (g : Group) (l : Nat) (w : Word) : (g.setFlg l w).gid = g.gid := rfl
@[simp] theorem Group.setFlg_place (g : Group) (l : Nat) (w : Word) : (g.setFlg l w).place = g.place := rfl
@[simp] theorem Group.setFlg_info (g : Group) (l : Nat) (w : Word) : (g.setFlg l w).info = g.info := rfl
@[simp] theorem Group.setFlg_regs (g : Group) (l : Nat) (w : Word) :
    (g.setFlg l w).regs = { g.regs with flg := tset g.regs.flg l (w &&& 63) } := rfl
@[simp] theorem Group.setFlg_lanes (g : Group) (l : Nat) (w : Word) : (g.setFlg l w).lanes = g.lanes := rfl
@[simp] theorem Group.setFlg_pend (g : Group) (l : Nat) (w : Word) : (g.setFlg l w).pend = g.pend := rfl
@[simp] theorem Group.setFlg_holds (g : Group) (l : Nat) (w : Word) : (g.setFlg l w).holds = g.holds := rfl
@[simp] theorem Group.setFlg_dq (g : Group) (l : Nat) (w : Word) : (g.setFlg l w).dq = g.dq := rfl
@[simp] theorem Group.setFlg_oldS (g : Group) (l : Nat) (w : Word) : (g.setFlg l w).oldS = g.oldS := rfl
@[simp] theorem Group.setFlg_spc (g : Group) (l : Nat) (w : Word) : (g.setFlg l w).spc = g.spc := rfl
@[simp] theorem Group.setFlg_wait (g : Group) (l : Nat) (w : Word) : (g.setFlg l w).wait = g.wait := rfl
@[simp] theorem Group.setFlg_words (g : Group) (l : Nat) (w : Word) : (g.setFlg l w).words = g.words := rfl
@[simp] theorem Group.setFlg_uas (g : Group) (l : Nat) (w : Word) : (g.setFlg l w).uas = g.uas := rfl
@[simp] theorem Group.setFlg_acquired (g : Group) (l : Nat) (w : Word) : (g.setFlg l w).acquired = g.acquired := rfl
@[simp] theorem Group.setFlg_nsLatch (g : Group) (l : Nat) (w : Word) : (g.setFlg l w).nsLatch = g.nsLatch := rfl
@[simp] theorem Group.setFlg_trap (g : Group) (l : Nat) (w : Word) : (g.setFlg l w).trap = g.trap := rfl
@[simp] theorem Group.setFlg_gen (g : Group) (l : Nat) (w : Word) : (g.setFlg l w).gen = g.gen := rfl
@[simp] theorem Group.setFlg_wa (g : Group) (l : Nat) (w : Word) : (g.setFlg l w).wa = g.wa := rfl
@[simp] theorem Group.setFlg_openBatch (g : Group) (l : Nat) (w : Word) :
    (g.setFlg l w).openBatch = g.openBatch := rfl
@[simp] theorem Group.setFlg_batch (g : Group) (l : Nat) (w : Word) : (g.setFlg l w).batch = g.batch := rfl
@[simp] theorem Group.setFlg_doneBatch (g : Group) (l : Nat) (w : Word) :
    (g.setFlg l w).doneBatch = g.doneBatch := rfl
@[simp] theorem Group.setFlg_entered (g : Group) (l : Nat) (w : Word) : (g.setFlg l w).entered = g.entered := rfl
@[simp] theorem Group.setFlg_saved (g : Group) (l : Nat) (w : Word) : (g.setFlg l w).saved = g.saved := rfl
@[simp] theorem Group.setFlg_holdTrap (g : Group) (l : Nat) (w : Word) : (g.setFlg l w).holdTrap = g.holdTrap := rfl
@[simp] theorem Group.setFlg_holdFirst (g : Group) (l : Nat) (w : Word) : (g.setFlg l w).holdFirst = g.holdFirst := rfl
@[simp] theorem Group.setFlg_async (g : Group) (l : Nat) (w : Word) : (g.setFlg l w).async = g.async := rfl
@[simp] theorem Group.setFlg_doneList (g : Group) (l : Nat) (w : Word) : (g.setFlg l w).doneList = g.doneList := rfl
@[simp] theorem Group.setFlg_liveTiles (g : Group) (l : Nat) (w : Word) :
    (g.setFlg l w).liveTiles = g.liveTiles := rfl
@[simp] theorem Group.setFlg_suspended (g : Group) (l : Nat) (w : Word) :
    (g.setFlg l w).suspended = g.suspended := rfl
@[simp] theorem Group.setFlg_holdTimer (g : Group) (l : Nat) (w : Word) :
    (g.setFlg l w).holdTimer = g.holdTimer := rfl

@[simp] theorem Group.setLfsr_gid (g : Group) (l : Nat) (w : Word) : (g.setLfsr l w).gid = g.gid := rfl
@[simp] theorem Group.setLfsr_place (g : Group) (l : Nat) (w : Word) : (g.setLfsr l w).place = g.place := rfl
@[simp] theorem Group.setLfsr_info (g : Group) (l : Nat) (w : Word) : (g.setLfsr l w).info = g.info := rfl
@[simp] theorem Group.setLfsr_regs (g : Group) (l : Nat) (w : Word) :
    (g.setLfsr l w).regs = { g.regs with lfsr := tset g.regs.lfsr l (if w = 0 then 1 else w) } := rfl
@[simp] theorem Group.setLfsr_lanes (g : Group) (l : Nat) (w : Word) : (g.setLfsr l w).lanes = g.lanes := rfl
@[simp] theorem Group.setLfsr_pend (g : Group) (l : Nat) (w : Word) : (g.setLfsr l w).pend = g.pend := rfl
@[simp] theorem Group.setLfsr_holds (g : Group) (l : Nat) (w : Word) : (g.setLfsr l w).holds = g.holds := rfl
@[simp] theorem Group.setLfsr_dq (g : Group) (l : Nat) (w : Word) : (g.setLfsr l w).dq = g.dq := rfl
@[simp] theorem Group.setLfsr_oldS (g : Group) (l : Nat) (w : Word) : (g.setLfsr l w).oldS = g.oldS := rfl
@[simp] theorem Group.setLfsr_spc (g : Group) (l : Nat) (w : Word) : (g.setLfsr l w).spc = g.spc := rfl
@[simp] theorem Group.setLfsr_wait (g : Group) (l : Nat) (w : Word) : (g.setLfsr l w).wait = g.wait := rfl
@[simp] theorem Group.setLfsr_words (g : Group) (l : Nat) (w : Word) : (g.setLfsr l w).words = g.words := rfl
@[simp] theorem Group.setLfsr_uas (g : Group) (l : Nat) (w : Word) : (g.setLfsr l w).uas = g.uas := rfl
@[simp] theorem Group.setLfsr_acquired (g : Group) (l : Nat) (w : Word) : (g.setLfsr l w).acquired = g.acquired := rfl
@[simp] theorem Group.setLfsr_nsLatch (g : Group) (l : Nat) (w : Word) : (g.setLfsr l w).nsLatch = g.nsLatch := rfl
@[simp] theorem Group.setLfsr_trap (g : Group) (l : Nat) (w : Word) : (g.setLfsr l w).trap = g.trap := rfl
@[simp] theorem Group.setLfsr_gen (g : Group) (l : Nat) (w : Word) : (g.setLfsr l w).gen = g.gen := rfl
@[simp] theorem Group.setLfsr_wa (g : Group) (l : Nat) (w : Word) : (g.setLfsr l w).wa = g.wa := rfl
@[simp] theorem Group.setLfsr_openBatch (g : Group) (l : Nat) (w : Word) :
    (g.setLfsr l w).openBatch = g.openBatch := rfl
@[simp] theorem Group.setLfsr_batch (g : Group) (l : Nat) (w : Word) : (g.setLfsr l w).batch = g.batch := rfl
@[simp] theorem Group.setLfsr_doneBatch (g : Group) (l : Nat) (w : Word) :
    (g.setLfsr l w).doneBatch = g.doneBatch := rfl
@[simp] theorem Group.setLfsr_entered (g : Group) (l : Nat) (w : Word) : (g.setLfsr l w).entered = g.entered := rfl
@[simp] theorem Group.setLfsr_saved (g : Group) (l : Nat) (w : Word) : (g.setLfsr l w).saved = g.saved := rfl
@[simp] theorem Group.setLfsr_holdTrap (g : Group) (l : Nat) (w : Word) : (g.setLfsr l w).holdTrap = g.holdTrap := rfl
@[simp] theorem Group.setLfsr_holdFirst (g : Group) (l : Nat) (w : Word) : (g.setLfsr l w).holdFirst = g.holdFirst := rfl
@[simp] theorem Group.setLfsr_async (g : Group) (l : Nat) (w : Word) : (g.setLfsr l w).async = g.async := rfl
@[simp] theorem Group.setLfsr_doneList (g : Group) (l : Nat) (w : Word) : (g.setLfsr l w).doneList = g.doneList := rfl
@[simp] theorem Group.setLfsr_liveTiles (g : Group) (l : Nat) (w : Word) :
    (g.setLfsr l w).liveTiles = g.liveTiles := rfl
@[simp] theorem Group.setLfsr_suspended (g : Group) (l : Nat) (w : Word) :
    (g.setLfsr l w).suspended = g.suspended := rfl
@[simp] theorem Group.setLfsr_holdTimer (g : Group) (l : Nat) (w : Word) :
    (g.setLfsr l w).holdTimer = g.holdTimer := rfl

@[simp] theorem Group.setTile_gid (g : Group) (t r c : Nat) (w : Word) : (g.setTile t r c w).gid = g.gid := rfl
@[simp] theorem Group.setTile_place (g : Group) (t r c : Nat) (w : Word) : (g.setTile t r c w).place = g.place := rfl
@[simp] theorem Group.setTile_info (g : Group) (t r c : Nat) (w : Word) : (g.setTile t r c w).info = g.info := rfl
@[simp] theorem Group.setTile_regs (g : Group) (t r c : Nat) (w : Word) :
    (g.setTile t r c w).regs = { g.regs with tiles := tset g.regs.tiles (4096 * t + 64 * r + c) w } := rfl
@[simp] theorem Group.setTile_lanes (g : Group) (t r c : Nat) (w : Word) : (g.setTile t r c w).lanes = g.lanes := rfl
@[simp] theorem Group.setTile_pend (g : Group) (t r c : Nat) (w : Word) : (g.setTile t r c w).pend = g.pend := rfl
@[simp] theorem Group.setTile_holds (g : Group) (t r c : Nat) (w : Word) : (g.setTile t r c w).holds = g.holds := rfl
@[simp] theorem Group.setTile_dq (g : Group) (t r c : Nat) (w : Word) : (g.setTile t r c w).dq = g.dq := rfl
@[simp] theorem Group.setTile_oldS (g : Group) (t r c : Nat) (w : Word) : (g.setTile t r c w).oldS = g.oldS := rfl
@[simp] theorem Group.setTile_spc (g : Group) (t r c : Nat) (w : Word) : (g.setTile t r c w).spc = g.spc := rfl
@[simp] theorem Group.setTile_wait (g : Group) (t r c : Nat) (w : Word) : (g.setTile t r c w).wait = g.wait := rfl
@[simp] theorem Group.setTile_words (g : Group) (t r c : Nat) (w : Word) : (g.setTile t r c w).words = g.words := rfl
@[simp] theorem Group.setTile_uas (g : Group) (t r c : Nat) (w : Word) : (g.setTile t r c w).uas = g.uas := rfl
@[simp] theorem Group.setTile_acquired (g : Group) (t r c : Nat) (w : Word) : (g.setTile t r c w).acquired = g.acquired := rfl
@[simp] theorem Group.setTile_nsLatch (g : Group) (t r c : Nat) (w : Word) :
    (g.setTile t r c w).nsLatch = g.nsLatch := rfl
@[simp] theorem Group.setTile_trap (g : Group) (t r c : Nat) (w : Word) : (g.setTile t r c w).trap = g.trap := rfl
@[simp] theorem Group.setTile_gen (g : Group) (t r c : Nat) (w : Word) : (g.setTile t r c w).gen = g.gen := rfl
@[simp] theorem Group.setTile_wa (g : Group) (t r c : Nat) (w : Word) : (g.setTile t r c w).wa = g.wa := rfl
@[simp] theorem Group.setTile_openBatch (g : Group) (t r c : Nat) (w : Word) :
    (g.setTile t r c w).openBatch = g.openBatch := rfl
@[simp] theorem Group.setTile_batch (g : Group) (t r c : Nat) (w : Word) : (g.setTile t r c w).batch = g.batch := rfl
@[simp] theorem Group.setTile_doneBatch (g : Group) (t r c : Nat) (w : Word) :
    (g.setTile t r c w).doneBatch = g.doneBatch := rfl
@[simp] theorem Group.setTile_entered (g : Group) (t r c : Nat) (w : Word) :
    (g.setTile t r c w).entered = g.entered := rfl
@[simp] theorem Group.setTile_saved (g : Group) (t r c : Nat) (w : Word) : (g.setTile t r c w).saved = g.saved := rfl
@[simp] theorem Group.setTile_holdTrap (g : Group) (t r c : Nat) (w : Word) :
    (g.setTile t r c w).holdTrap = g.holdTrap := rfl
@[simp] theorem Group.setTile_async (g : Group) (t r c : Nat) (w : Word) : (g.setTile t r c w).async = g.async := rfl
@[simp] theorem Group.setTile_doneList (g : Group) (t r c : Nat) (w : Word) :
    (g.setTile t r c w).doneList = g.doneList := rfl
@[simp] theorem Group.setTile_liveTiles (g : Group) (t r c : Nat) (w : Word) :
    (g.setTile t r c w).liveTiles = g.liveTiles := rfl
@[simp] theorem Group.setTile_suspended (g : Group) (t r c : Nat) (w : Word) :
    (g.setTile t r c w).suspended = g.suspended := rfl
@[simp] theorem Group.setTile_holdTimer (g : Group) (t r c : Nat) (w : Word) :
    (g.setTile t r c w).holdTimer = g.holdTimer := rfl

@[simp] theorem Group.modLanes_gid (g : Group) (f : List Strand → List Strand) : (g.modLanes f).gid = g.gid := rfl
@[simp] theorem Group.modLanes_place (g : Group) (f : List Strand → List Strand) :
    (g.modLanes f).place = g.place := rfl
@[simp] theorem Group.modLanes_info (g : Group) (f : List Strand → List Strand) : (g.modLanes f).info = g.info := rfl
@[simp] theorem Group.modLanes_regs (g : Group) (f : List Strand → List Strand) : (g.modLanes f).regs = g.regs := rfl
@[simp] theorem Group.modLanes_lanes (g : Group) (f : List Strand → List Strand) :
    (g.modLanes f).lanes = { g.lanes with strands := f g.lanes.strands } := rfl
@[simp] theorem Group.modLanes_pend (g : Group) (f : List Strand → List Strand) : (g.modLanes f).pend = g.pend := rfl
@[simp] theorem Group.modLanes_holds (g : Group) (f : List Strand → List Strand) :
    (g.modLanes f).holds = g.holds := rfl
@[simp] theorem Group.modLanes_dq (g : Group) (f : List Strand → List Strand) : (g.modLanes f).dq = g.dq := rfl
@[simp] theorem Group.modLanes_oldS (g : Group) (f : List Strand → List Strand) : (g.modLanes f).oldS = g.oldS := rfl
@[simp] theorem Group.modLanes_spc (g : Group) (f : List Strand → List Strand) : (g.modLanes f).spc = g.spc := rfl
@[simp] theorem Group.modLanes_wait (g : Group) (f : List Strand → List Strand) : (g.modLanes f).wait = g.wait := rfl
@[simp] theorem Group.modLanes_words (g : Group) (f : List Strand → List Strand) : (g.modLanes f).words = g.words := rfl
@[simp] theorem Group.modLanes_uas (g : Group) (f : List Strand → List Strand) : (g.modLanes f).uas = g.uas := rfl
@[simp] theorem Group.modLanes_acquired (g : Group) (f : List Strand → List Strand) : (g.modLanes f).acquired = g.acquired := rfl
@[simp] theorem Group.modLanes_nsLatch (g : Group) (f : List Strand → List Strand) :
    (g.modLanes f).nsLatch = g.nsLatch := rfl
@[simp] theorem Group.modLanes_trap (g : Group) (f : List Strand → List Strand) : (g.modLanes f).trap = g.trap := rfl
@[simp] theorem Group.modLanes_gen (g : Group) (f : List Strand → List Strand) : (g.modLanes f).gen = g.gen := rfl
@[simp] theorem Group.modLanes_wa (g : Group) (f : List Strand → List Strand) : (g.modLanes f).wa = g.wa := rfl
@[simp] theorem Group.modLanes_openBatch (g : Group) (f : List Strand → List Strand) :
    (g.modLanes f).openBatch = g.openBatch := rfl
@[simp] theorem Group.modLanes_batch (g : Group) (f : List Strand → List Strand) :
    (g.modLanes f).batch = g.batch := rfl
@[simp] theorem Group.modLanes_doneBatch (g : Group) (f : List Strand → List Strand) :
    (g.modLanes f).doneBatch = g.doneBatch := rfl
@[simp] theorem Group.modLanes_entered (g : Group) (f : List Strand → List Strand) :
    (g.modLanes f).entered = g.entered := rfl
@[simp] theorem Group.modLanes_saved (g : Group) (f : List Strand → List Strand) :
    (g.modLanes f).saved = g.saved := rfl
@[simp] theorem Group.modLanes_holdTrap (g : Group) (f : List Strand → List Strand) :
    (g.modLanes f).holdTrap = g.holdTrap := rfl
@[simp] theorem Group.modLanes_async (g : Group) (f : List Strand → List Strand) :
    (g.modLanes f).async = g.async := rfl
@[simp] theorem Group.modLanes_doneList (g : Group) (f : List Strand → List Strand) :
    (g.modLanes f).doneList = g.doneList := rfl
@[simp] theorem Group.modLanes_liveTiles (g : Group) (f : List Strand → List Strand) :
    (g.modLanes f).liveTiles = g.liveTiles := rfl
@[simp] theorem Group.modLanes_suspended (g : Group) (f : List Strand → List Strand) :
    (g.modLanes f).suspended = g.suspended := rfl
@[simp] theorem Group.modLanes_holdTimer (g : Group) (f : List Strand → List Strand) :
    (g.modLanes f).holdTimer = g.holdTimer := rfl

/-! ## Registers read after they are written -/

@[simp] theorem Group.getS_setS (g : Group) (n m : Nat) (w : Word) :
    (g.setS n w).getS m = if n = m then w else g.getS m := by
  simp only [Group.getS, Group.setS, tget_tset]
@[simp] theorem Group.getV_setS (g : Group) (n m l : Nat) (w : Word) : (g.setS n w).getV m l = g.getV m l := rfl
@[simp] theorem Group.getS_setV (g : Group) (n l m : Nat) (w : Word) : (g.setV n l w).getS m = g.getS m := rfl
theorem Group.getV_setV (g : Group) (n l m k : Nat) (w : Word) (hl : l < 32) (hk : k < 32) :
    (g.setV n l w).getV m k = if n = m ∧ l = k then w else g.getV m k := by
  simp only [Group.getV, Group.setV, tget_tset]
  have : (32 * n + l = 32 * m + k) ↔ (n = m ∧ l = k) := by omega
  simp only [this]
@[simp] theorem Group.getQ_setS (g : Group) (n m : Nat) (w : Word) : (g.setS n w).getQ m = g.getQ m := rfl
@[simp] theorem Group.getP_setS (g : Group) (n m : Nat) (w : Word) : (g.setS n w).getP m = g.getP m := rfl
@[simp] theorem Group.getQ_seven (g : Group) : g.getQ 7 = true := rfl
@[simp] theorem Group.setQ_seven (g : Group) (b : Bool) : g.setQ 7 b = g := rfl
@[simp] theorem Group.getP_seven (g : Group) : g.getP 7 = BitVec.allOnes 32 := rfl
@[simp] theorem Group.setP_seven (g : Group) (l : Nat) (b : Bool) : g.setP 7 l b = g := rfl

/-! ## Groups found after they are put back -/

/-- A group that is found has the id that was looked for. -/
theorem State.group?_gid {s : State} {i : Nat} {g : Group} (h : s.group? i = some g) : g.gid = i := by
  have := List.find?_some h
  simpa using this

/-- A resident group that is put back is found. -/
theorem State.group?_setGroup {s : State} {g h : Group} (hg : s.group? g.gid = some h) :
    (s.setGroup g).group? g.gid = some g := by
  unfold State.group? at *
  simp only [State.setGroup]
  generalize s.groups = l at hg
  induction l with
  | nil => simp at hg
  | cons a r ih =>
    simp only [List.map_cons, List.find?_cons] at hg ⊢
    cases ha : a.gid == g.gid with
    | true => simp
    | false =>
      simp only [ha, Bool.false_eq_true, if_false] at hg ⊢
      exact ih hg

/-- Putting a group back leaves the groups of other ids. -/
theorem State.group?_setGroup_ne {s : State} {g : Group} {i : Nat} (h : i ≠ g.gid) :
    (s.setGroup g).group? i = s.group? i := by
  unfold State.group?
  simp only [State.setGroup]
  generalize s.groups = l
  induction l with
  | nil => rfl
  | cons a r ih =>
    simp only [List.map_cons, List.find?_cons]
    cases ha : a.gid == g.gid with
    | true =>
      have h1 : (g.gid == i) = false := by simpa using fun e => h e.symm
      have h2 : (a.gid == i) = false := by
        have e : a.gid = g.gid := by simpa using ha
        rw [e]; exact h1
      simp only [if_true, h1, h2]
      exact ih
    | false =>
      simp only [Bool.false_eq_true, if_false]
      rw [ih]

end Sys2Proof.Machine
end

