-- ==== Sys2Proof/Laws/Traps.lean ====
section
/-! SUPPORT. What the shared operations around traps, holds and accesses do: entering a handler, ending holds, and the
memory operations that steps perform. -/
namespace Sys2Proof.Machine

/-- A use of the registers of a context only draws a free value. -/
theorem State.useRegs_eq (s : State) (x : Nat) : (s.useRegs x).1 = s ∨ (s.useRegs x).1 = s.drawn := by
  unfold State.useRegs
  simp only
  split
  · exact Or.inl rfl
  · exact Or.inr rfl

/-- A trap with a handler to enter enters it. -/
theorem takeTrap_ready {s s' : State} {g : Group} (t : TrapReq) (h : s.handlerReady g = some s') :
    s.takeTrap g t = s'.setGroup (g.enterHandler t) := by
  unfold State.handlerReady at h
  unfold State.takeTrap
  split at h
  · cases h
  · rename_i hg
    simp only [hg, Bool.false_eq_true, if_false]
    generalize s.useRegs g.place.ctx = u at *
    obtain ⟨s1, r⟩ := u
    simp only at h ⊢
    split at h
    · cases h
    · rename_i hv
      simp only [hv]
      generalize s1.fetch4 { g.agent with handler := true } r.hbase = f at *
      obtain ⟨s2, w⟩ := f
      cases w with
      | fault => cases h
      | word => cases h; rfl

/-- The same for a trap of the scalar stream: a wait it was in is over. -/
theorem scalarTrap_ready {s s' : State} {g : Group} (cause subc : Nat)
    (h : s.handlerReady { g with wait := none, words := none } = some s') :
    s.scalarTrap g cause subc =
      s'.setGroup (Group.enterHandler { g with wait := none, words := none } (g.scalarReq cause subc)) := by
  unfold State.scalarTrap
  rw [takeTrap_ready _ h]
  rfl

/-- A gang that nothing keeps waiting takes its trap with its results landed. -/
theorem trapAt_ready {c : Lane} {s' : State} (cause subc : Nat) (hl : c.trapWaits c.s.nextId = false)
    (h : c.s.handlerReady (c.g.landOf c.gang) = some s') :
    c.trapAt cause subc 0 c.pc 0 0 = .next (s'.setGroup ((c.g.landOf c.gang).enterHandler (c.laneReq cause subc))) := by
  unfold Lane.trapAt Lane.taken?
  rw [hl, takeTrap_ready _ h]
  rfl

/-- A gang whose trap waits, for its loads or for an earlier instruction that may fault, stays where it is. -/
theorem trapAt_waits {c : Lane} (cause subc swc lpc : Nat) (f w : Mask) (hl : c.trapWaits c.s.nextId = true) :
    c.trapAt cause subc swc lpc f w = .next c.s := by
  unfold Lane.trapAt
  rw [hl]
  rfl

/-! ## Holds -/

/-- Two states have the same memories, accesses in flight, platform and counters: what changes are holds, drains, copies,
identities, and what the end of a launch brings. -/
def State.keepsMemory (s t : State) : Prop :=
  t.mem.hbm = s.mem.hbm ∧ t.mem.host = s.mem.host ∧ t.mem.peer = s.mem.peer ∧ t.mem.sram = s.mem.sram ∧
    t.mem.flight = s.mem.flight ∧ t.ns = s.ns ∧ t.draws = s.draws

theorem State.keepsMemory.trans {s t u : State} (h : s.keepsMemory t) (k : t.keepsMemory u) : s.keepsMemory u := by
  obtain ⟨a, b, c, d, e, f, g⟩ := h
  obtain ⟨a', b', c', d', e', f', g'⟩ := k
  exact ⟨a'.trans a, b'.trans b, c'.trans c, d'.trans d, e'.trans e, f'.trans f, g'.trans g⟩

theorem State.keepsMemory.refl (s : State) : s.keepsMemory s := ⟨rfl, rfl, rfl, rfl, rfl, rfl, rfl⟩

/-- A fold over steps that keep memory keeps it. -/
theorem State.keepsMemory_foldl {α : Type} {f : State → α → State} (h : ∀ s a, State.keepsMemory s (f s a)) :
    ∀ (l : List α) (s : State), s.keepsMemory (l.foldl f s)
  | [], s => .refl s
  | a :: l, s => (h s a).trans (keepsMemory_foldl h l (f s a))

/-- Starting the promotion drains that are due changes drains, identities and holds. -/
theorem State.startDrains_keepsMemory (s : State) (g : Group) : s.keepsMemory (s.startDrains g) := by
  unfold State.startDrains State.startDrain
  split
  · simp only [if_true]
    split
    · exact .refl _
    · exact ⟨rfl, rfl, rfl, rfl, rfl, rfl, rfl⟩
  · exact .refl _

/-- Ending holds starts drains, ends holds and drops copies. -/
theorem State.settleGroup_keepsMemory (s : State) (g : Group) : s.keepsMemory (s.settleGroup g) := by
  unfold State.settleGroup
  refine (s.startDrains_keepsMemory g).trans ?_
  simp only
  split
  · exact .refl _
  · split <;> exact ⟨rfl, rfl, rfl, rfl, rfl, rfl, rfl⟩

/-- The end of a launch takes it from the list and sets its event bits. -/
theorem State.launchDone_keepsMemory (s : State) (id : Nat) : s.keepsMemory (s.launchDone id) := by
  unfold State.launchDone
  split
  · exact .refl _
  · split
    · exact ⟨rfl, rfl, rfl, rfl, rfl, rfl, rfl⟩
    · exact .refl _

/-- After an acknowledgement, an arrival or a report: memory and the accesses in flight stay. -/
theorem State.settle_keepsMemory (s : State) : s.keepsMemory s.settle := by
  unfold State.settle State.finishLaunches
  refine State.keepsMemory.trans ?_ (keepsMemory_foldl (fun s (l : Launch) => s.launchDone_keepsMemory l.id) _ _)
  exact State.keepsMemory.trans ⟨rfl, rfl, rfl, rfl, rfl, rfl, rfl⟩
    (keepsMemory_foldl (fun s g => s.settleGroup_keepsMemory g) _ _)

/-- No byte of memory changes where the memories stay. -/
theorem State.keepsMemory.sameBytes {s t : State} (h : s.keepsMemory t) : s.sameBytes t := by
  obtain ⟨h1, h2, h3, h4, -⟩ := h
  intro l hl
  cases l with
  | hbm pa => simp only [State.locRead, h1]
  | host pa => simp only [State.locRead, h2]
  | peer k pa => simp only [State.locRead, h3]
  | scr k off => simp only [State.locRead, h4]
  | mx x w pa => simp [Loc.real] at hl
  | mmio off => simp [Loc.real] at hl

/-- No byte of memory changes there. -/
theorem State.settle_sameBytes (s : State) : s.sameBytes s.settle := s.settle_keepsMemory.sameBytes

/-- A completed access and a changed one leave memory as it was. -/
@[simp] theorem State.dropAcc_mem (s : State) (i : Nat) :
    (s.dropAcc i).mem = { s.mem with flight := s.mem.flight.filter fun a => a.id != i } := rfl
@[simp] theorem State.modAcc_mem (s : State) (i : Nat) (f : Access → Access) :
    (s.modAcc i f).mem = { s.mem with flight := s.mem.flight.map fun a => if a.id == i then f a else a } := rfl

/-! ## Canonical memory -/

/-- An update that leaves the four memories leaves them canonical. -/
theorem memCanonical_of_eq {s t : State} (h : s.memCanonical = true) (h1 : t.mem.hbm = s.mem.hbm)
    (h2 : t.mem.host = s.mem.host) (h3 : t.mem.peer = s.mem.peer) (h4 : t.mem.sram = s.mem.sram) :
    t.memCanonical = true := by
  simpa only [State.memCanonical, h1, h2, h3, h4] using h

/-- Lines that become dirty leave the bytes. -/
theorem MemSys.dirtyLine_frame (m : MemSys) (l : Nat) :
    (m.dirtyLine l).hbm = m.hbm ∧ (m.dirtyLine l).host = m.host ∧ (m.dirtyLine l).peer = m.peer ∧
      (m.dirtyLine l).sram = m.sram ∧ (m.dirtyLine l).flight = m.flight ∧ (m.dirtyLine l).tags = m.tags := by
  unfold MemSys.dirtyLine MemSys.setL2
  split
  · split <;> exact ⟨rfl, rfl, rfl, rfl, rfl, rfl⟩
  · exact ⟨rfl, rfl, rfl, rfl, rfl, rfl⟩

/-- A line that is filled leaves the bytes. -/
theorem MemSys.touch_frame (m : MemSys) (l : Nat) :
    (m.touch l).hbm = m.hbm ∧ (m.touch l).host = m.host ∧ (m.touch l).peer = m.peer ∧
      (m.touch l).sram = m.sram ∧ (m.touch l).flight = m.flight := by
  unfold MemSys.touch MemSys.setL2
  split <;> exact ⟨rfl, rfl, rfl, rfl, rfl⟩

/-- A write at an ordering point keeps the canonical form. -/
theorem memCanonical_locWrite {s : State} (h : s.memCanonical = true) (l : Loc) (bs : List Byte) :
    (s.locWrite l bs).memCanonical = true := by
  simp only [State.memCanonical, Bool.and_eq_true] at h ⊢
  obtain ⟨⟨⟨h1, h2⟩, h3⟩, h4⟩ := h
  cases l with
  | hbm pa =>
    obtain ⟨e1, e2, e3, e4, -, -⟩ := s.mem.dirtyLine_frame (pa / 128)
    refine ⟨⟨⟨?_, ?_⟩, ?_⟩, ?_⟩
    · show ((s.mem.dirtyLine (pa / 128)).hbm.write pa bs).wf = true
      rw [e1]; exact Memory.wf_write pa bs h1
    · show (s.mem.dirtyLine (pa / 128)).host.wf = true
      rw [e2]; exact h2
    · show (s.mem.dirtyLine (pa / 128)).peer.wf = true
      rw [e3]; exact h3
    · show (s.mem.dirtyLine (pa / 128)).sram.wf = true
      rw [e4]; exact h4
  | host pa => exact ⟨⟨⟨h1, Memory.wf_write _ bs h2⟩, h3⟩, h4⟩
  | peer k pa => exact ⟨⟨⟨h1, h2⟩, Memory.wf_write _ bs h3⟩, h4⟩
  | scr k off => exact ⟨⟨⟨h1, h2⟩, h3⟩, Memory.wf_write _ bs h4⟩
  | mx x w pa => exact ⟨⟨⟨h1, h2⟩, h3⟩, h4⟩
  | mmio off => exact ⟨⟨⟨h1, h2⟩, h3⟩, h4⟩

end Sys2Proof.Machine
end

