-- ==== Sys2Proof/Machine/AsmChecks.lean ====
section
/-! DEFINITION. What the assembler `priex` checks of a kernel beyond the decode checks (R100, R108 to R111): its registers
against the metadata, switch-marker hazards of the lane section, and the scalar stream against the lane blocks that it
dispatches. -/
namespace Sys2Proof.Machine

/-- The diagnostics of R111. -/
inductive Diag where
  | e101 | e102 | e103 | e104 | w105 | e105 | e106 | e107 | e108 | e109 | e110 | e201 | e202 | e203 | e205 | e301 | w302
  | n301 | e311 | w312 | e401 | e402 | e403
  deriving DecidableEq, Repr

/-- Is it a warning or a note, which does not suppress the image (R99)? -/
def Diag.mild : Diag → Bool
  | .w105 | .w302 | .w312 | .n301 => true
  | _ => false

/-! ## What an instruction reads and writes -/

/-- Destinations of a lane instruction that may be pending (R39, R109), with the registers that each spans: the tag of ST.seq
and the value of an atomic never are. `n` is the group size, `gw` the registers of a generator's value. -/
def laneDsts (n gw : Nat) : Instr → List (Opnd × Nat)
  | .iadd _ t _ _ a _ _ | .isub _ t _ _ a _ _ | .imul _ t _ _ a _ _ | .imulh _ t a _ _ | .imad _ t _ _ a _ _ _
  | .imin _ t a _ _ | .imax _ t a _ _ | .iabs _ t _ _ a _ | .ineg _ t _ _ a _ | .and _ t a _ _ | .or _ t a _ _
  | .xor _ t a _ _ | .not _ t a _ | .shl _ t a _ _ | .shr _ t a _ _ | .sha _ t a _ _ | .rot _ t a _ _
  | .popc _ t a _ | .clz _ t a _ | .brev _ t a _ => [(a, t.regs)]
  | .idot4 _ _ _ _ _ a _ _ _ | .bfx _ _ a _ _ _ | .bfi _ _ a _ _ _ _ | .icmp _ _ _ a _ _ | .fadd _ _ _ _ _ a _ _
  | .fsub _ _ _ _ _ a _ _ | .fmul _ _ _ _ _ a _ _ | .ffma _ _ _ _ _ a _ _ _ | .fmin _ _ _ a _ _ | .fmax _ _ _ a _ _
  | .frcp _ _ _ _ _ a _ | .frsq _ _ _ _ _ a _ | .fsqrt _ _ _ _ _ a _ | .fexp2 _ _ _ _ _ a _ | .flog2 _ _ _ _ _ a _
  | .fsin _ _ _ _ _ a _ | .fcos _ _ _ _ _ a _ | .ftanh _ _ _ _ _ a _ | .frnd _ _ _ _ _ a _ | .fscl _ _ _ _ _ a _ _
  | .fcls _ _ a _ | .fcmp _ _ _ a _ _ | .fdot2 _ _ _ _ _ a _ _ _ | .vote _ _ a _ | .plop _ _ a _ _ | .pmov _ _ a _
  | .lwrs _ a _ | .waqry _ a _ _ | .amovw _ _ a _ _ _ => [(a, 1)]
  | .lea _ _ a _ _ _ => [(a, 2)]
  | .cvt _ dt st _ _ _ a _ => [(a, cvtDst dt st)]
  | .mxq _ f t _ a _ => [(a, (mxSizes n f t).imageRegs)]
  | .mxd _ f t _ a _ => [(a, (mxSizes n f t).valueRegs)]
  | .mov _ w a _ | .sel _ w a _ _ _ | .shfl _ w a _ _ | .shflx _ w a _ _ | .bcst _ w a _ _ | .ld _ w _ _ _ _ _ a _ _
  | .amovr _ w a _ _ _ => [(a, w.regs)]
  | .redl _ t _ _ _ _ a _ | .scnl _ t _ _ _ _ _ a _ => [(a, (t.width + 31) / 32)]
  | .gtrn _ _ a _ => [(a, 8)]
  | .lrds _ w64 a _ => [(a, if w64 then 2 else 1)]
  | .grcv _ a => [(a, gw)]
  | _ => []

/-- Destinations that are never pending: tags and the values of atomics (R40, R109). -/
def laneQuietDsts : Instr → List (Opnd × Nat)
  | .st _ _ _ _ _ _ a _ _ _ | .ared _ _ _ _ _ _ _ a _ _ => [(a, 1)]
  | .atom _ _ t _ _ _ _ q a _ _ | .acas _ t _ _ _ _ q a _ _ _ => [(a, t.regs + if q then 1 else 0)]
  | _ => []

/-- Operands of window instructions that name a handle (R267): a tile number from 4 on in one is beyond every allocation. -/
def laneHandles : Instr → List (Opnd × Nat)
  | .waini _ _ _ a _ _ | .wapsh _ a _ _ | .waexp _ a _ | .wawln _ a _ | .warst _ a => [(a, 1)]
  | .waqry _ _ b _ => [(b, 1)]
  | _ => []

/-- Source operands of a lane instruction, with the registers that each spans. -/
def laneSrcs (n gw : Nat) : Instr → List (Opnd × Nat)
  | .iadd _ t _ _ _ b c | .isub _ t _ _ _ b c | .imul _ t _ _ _ b c | .imulh _ t _ b c | .imin _ t _ b c
  | .imax _ t _ b c | .and _ t _ b c | .or _ t _ b c | .xor _ t _ b c | .icmp _ t _ _ b c => [(b, t.regs), (c, t.regs)]
  | .imad _ t _ _ _ b c d => [(b, t.regs), (c, t.regs), (d, t.regs)]
  | .iabs _ t _ _ _ b | .ineg _ t _ _ _ b | .not _ t _ b | .popc _ t _ b | .clz _ t _ b | .brev _ t _ b => [(b, t.regs)]
  | .shl _ t _ b c | .shr _ t _ b c | .sha _ t _ b c | .rot _ t _ b c => [(b, t.regs), (c, 1)]
  | .idot4 _ _ _ _ _ _ b c d | .bfx _ _ _ b c d | .ffma _ _ _ _ _ _ b c d | .fdot2 _ _ _ _ _ _ b c d =>
      [(b, 1), (c, 1), (d, 1)]
  | .bfi _ _ _ b c d e => [(b, 1), (c, 1), (d, 1), (e, 1)]
  | .lea _ _ _ b c d => [(b, 2), (c, 1), (d, 1)]
  | .fadd _ _ _ _ _ _ b c | .fsub _ _ _ _ _ _ b c | .fmul _ _ _ _ _ _ b c | .fmin _ _ _ _ b c | .fmax _ _ _ _ b c
  | .fscl _ _ _ _ _ _ b c | .fcmp _ _ _ _ b c | .plop _ _ _ b c => [(b, 1), (c, 1)]
  | .frcp _ _ _ _ _ _ b | .frsq _ _ _ _ _ _ b | .fsqrt _ _ _ _ _ _ b | .fexp2 _ _ _ _ _ _ b | .flog2 _ _ _ _ _ _ b
  | .fsin _ _ _ _ _ _ b | .fcos _ _ _ _ _ _ b | .ftanh _ _ _ _ _ _ b | .frnd _ _ _ _ _ _ b | .fcls _ _ _ b
  | .vote _ _ _ b | .pmov _ _ _ b | .lrds _ _ _ b | .lwrs _ _ b | .waexp _ _ b | .wawln _ _ b => [(b, 1)]
  | .cvt _ dt st _ _ _ _ b => [(b, cvtSrc dt st)]
  | .mxq _ f t _ _ b => [(b, (mxSizes n f t).valueRegs)]
  | .mxd _ f t _ _ b => [(b, (mxSizes n f t).imageRegs)]
  | .mov _ w _ b => [(b, w.regs)]
  | .sel _ w _ b c d => [(b, w.regs), (c, w.regs), (d, 1)]
  | .shfl _ w _ b c | .shflx _ w _ b c | .bcst _ w _ b c => [(b, w.regs), (c, 1)]
  | .redl _ t _ _ _ _ _ b | .scnl _ t _ _ _ _ _ _ b => [(b, (t.width + 31) / 32)]
  | .gtrn _ _ _ b => [(b, 8)]
  | .ld _ _ _ _ _ _ _ _ b _ | .pfx _ _ _ b _ => [(b, 2)]
  | .st _ w _ _ _ _ _ b c _ => [(b, 2), (c, w.regs)]
  | .atom _ _ t _ _ _ _ _ _ b c | .ared _ _ t _ _ _ _ _ b c => [(b, 2), (c, t.regs)]
  | .acas _ t _ _ _ _ _ _ b c d => [(b, 2), (c, t.regs), (d, t.regs)]
  | .gyld _ b => [(b, gw)]
  | .waini _ _ _ _ b c | .wapsh _ _ b c => [(b, 1), (c, 1)]
  | .waqry _ _ _ c => [(c, 1)]
  | .amovr _ _ _ b c d => [(b, 1), (c, 1), (d, 1)]
  | .amovw _ w _ b c d => [(b, w.regs), (c, 1), (d, 1)]
  | _ => []

/-- The single registers of operands, with special registers and predicates as they are. -/
def spread1 (l : List (Opnd × Nat)) : List Opnd :=
  l.flatMap fun (o, n) =>
    match o with
    | .v r => (List.range n).map fun i => .v (r + i)
    | .s r => (List.range n).map fun i => .s (r + i)
    | .p r => if r = 7 then [] else [.p r]
    | .sp r => if r == 9 || r == 10 || r == 19 then [.sp r] else []
    | .a r => [.a r]
    | _ => []

/-- The mode of an instruction that rounds. -/
def rndOf : Instr → Option Rnd
  | .fadd _ _ r _ _ _ _ _ | .fsub _ _ r _ _ _ _ _ | .fmul _ _ r _ _ _ _ _ | .ffma _ _ r _ _ _ _ _ _
  | .frcp _ _ r _ _ _ _ | .frsq _ _ r _ _ _ _ | .fsqrt _ _ r _ _ _ _ | .fexp2 _ _ r _ _ _ _ | .flog2 _ _ r _ _ _ _
  | .fsin _ _ r _ _ _ _ | .fcos _ _ r _ _ _ _ | .ftanh _ _ r _ _ _ _ | .frnd _ _ r _ _ _ _ | .fscl _ _ r _ _ _ _ _
  | .fdot2 _ _ r _ _ _ _ _ _ | .cvt _ _ _ r _ _ _ _ | .redl _ _ _ r _ _ _ _ | .scnl _ _ _ _ r _ _ _ _ => some r
  | _ => none

/-- The fields of a lane instruction's word. -/
def fieldsOf (i : Instr) : LFields := (laneFields i).getD (LFields.of 0)

/-- Does the instruction update `%flg` (R59)? The instructions that have the field NF do, where it is 0. -/
def updatesFlg (i : Instr) : Bool :=
  match i with
  | .iadd .. | .isub .. | .imul .. | .imad .. | .iabs .. | .ineg .. | .idot4 .. | .fadd .. | .fsub .. | .fmul .. | .ffma ..
  | .fmin .. | .fmax .. | .frcp .. | .frsq .. | .fsqrt .. | .fexp2 .. | .flog2 .. | .fsin .. | .fcos .. | .ftanh ..
  | .frnd .. | .fscl .. | .fcmp .. | .fdot2 .. | .cvt .. | .mxq .. | .mxd .. | .redl .. | .scnl .. => (fieldsOf i).nf == 0
  | _ => false

/-- Predicates that the guard reads (R78): p7 is never pending. -/
def guardReads (i : Instr) : List Opnd :=
  [(fieldsOf i).gp % 8, (fieldsOf i).gq % 8].filterMap fun n => if n = 7 then none else some (.p n)

/-- Registers that a lane instruction reads (R109). -/
def laneReads (n gw : Nat) (i : Instr) : List Opnd :=
  spread1 (laneSrcs n gw i) ++ guardReads i ++
    (match rndOf i with
      | some .dyn => [.sp 10]
      | some .rs => [.sp 19]
      | _ => [])

/-- Registers that a lane instruction writes and that may then be pending. -/
def laneKeeps (n gw : Nat) (i : Instr) : List Opnd :=
  spread1 (laneDsts n gw i) ++ if rndOf i == some .rs then [.sp 19] else []

/-- Every register that a lane instruction writes: with those also the tags and values that are never pending. -/
def laneWrites (n gw : Nat) (i : Instr) : List Opnd := laneKeeps n gw i ++ spread1 (laneQuietDsts i)

/-- Registers that are pending once a lane instruction has issued: with those that it writes the flags that it ORs in. -/
def lanePends (n gw : Nat) (i : Instr) : List Opnd := laneKeeps n gw i ++ if updatesFlg i then [.sp 9] else []

/-- The switch marker of a lane instruction. -/
def markerOf (i : Instr) : Bool := (fieldsOf i).sw == 1

/-- The instruction with SW set (R109). -/
def withMarker (i : Instr) : Instr := (decodeLane { fieldsOf i with sw := 1 }.word).toOption.getD i

/-! ## Lane paths (R109) -/

/-- A pending set: some registers, or every register after a call has returned. -/
structure Pending where
  all : Bool
  regs : List Opnd
  deriving DecidableEq, Repr

/-- The union of two pending sets. -/
def Pending.join (p q : Pending) : Pending :=
  { all := p.all || q.all, regs := q.regs.foldl (fun l r => if l.contains r then l else l ++ [r]) p.regs }

/-- Is a register pending? -/
def Pending.has (p : Pending) (r : Opnd) : Bool := p.all || p.regs.contains r

/-- No register pending. -/
def Pending.empty : Pending := { all := false, regs := [] }

/-- A lane word that lies an offset from another. -/
def laneAt (pc : Nat) (off : Int) : Nat := ((pc : Int) + off).toNat

/-- A guard that holds in every lane because of p7 (R78). -/
def guardHolds (h : Hdr) : Bool := if h.gc then h.gp == 7 || h.gq == 7 else h.gp == 7 && h.gq == 7

/-- The not-taken words of the branches that join at a word (R34, R35). -/
def joinBacks (code : List Instr) (pc : Nat) : List Nat :=
  (code.zip (List.range code.length)).filterMap fun (i, b) =>
    match i with
    | .brl h _ j => if laneAt b j = pc && !guardHolds h then some (b + 1) else none
    | _ => none

/-- The words that a lane path goes to after one, with its pending set: a branch whose guard always holds is a jump (log 69). -/
def laneGoes (code : List Instr) (pc : Nat) (i : Instr) : List Nat :=
  match i with
  | .brl h t _ => if guardHolds h then [laneAt pc t] else [laneAt pc t, pc + 1]
  | .join _ _ => (pc + 1) :: joinBacks code pc
  | .lcall _ t => [laneAt pc t]
  | .gbeg _ _ _ _ p _ => [laneAt pc p]
  | .lend _ _ | .lret _ | .gret _ _ => []
  | _ => [pc + 1]

/-- Words at which a path starts with an empty set: consumers and the ends of loops. -/
def sideStarts (code : List Instr) : List Nat :=
  (code.zip (List.range code.length)).filterMap fun (i, pc) =>
    match i with
    | .gbeg _ _ _ _ _ c => some (laneAt pc c)
    | .gend _ _ => some pc
    | _ => none

/-- Lane words that an instruction names as targets (R103). -/
def laneTargets (pc : Nat) : Instr → List Nat
  | .brl _ t j => [laneAt pc t, laneAt pc j]
  | .lcall _ t => [laneAt pc t]
  | .gbeg _ _ _ _ p c => [laneAt pc p, laneAt pc c]
  | _ => []

/-- Words that can be reached: `n` bounds the rounds. -/
def reach (go : Nat → List Nat) : Nat → List Nat → List Nat
  | 0, l => l
  | n + 1, l =>
    let new := ((l.flatMap go).eraseDups).filter fun x => !l.contains x
    if new.isEmpty then l else reach go n (l ++ new)

/-- The words of the body of a generator loop: those that its two sides reach before a loop begins or ends. -/
def loopBody (code : List Instr) (sides : List Nat) : List Nat :=
  reach (fun pc => match code[pc]? with
    | none => []
    | some (.gbeg ..) | some (.gend ..) => []
    | some i => laneGoes code pc i ++ (match i with
        | .lcall .. => [pc + 1]
        | _ => [])) code.length sides

/-- Registers of a generator's value at each word: those of the loops in whose bodies it stands, or of the widest of the section
where it stands in none (R255). -/
def genWidths (code : List Instr) : List Nat :=
  let loops := (code.zip (List.range code.length)).filterMap fun (i, pc) => match i with
    | .gbeg _ _ vw _ p c => some (vw + 1, loopBody code [laneAt pc p, laneAt pc c])
    | _ => none
  let most (l : List (Nat × List Nat)) : Nat := (l.map (·.1)).foldl max 1
  (List.range code.length).map fun pc =>
    let here := loops.filter fun e => e.2.contains pc
    if here.isEmpty then most loops else most here

/-- What the marker analysis works on: the group size, the lane section, the registers of a generator's value at each word, the
words at which blocks start, and whether SW is inserted. -/
structure LaneCode where
  size : Nat
  code : List Instr
  widths : List Nat
  starts : List Nat
  ins : Bool
  deriving DecidableEq, Repr

/-- Registers of a generator's value at a word. -/
def LaneCode.gw (l : LaneCode) (pc : Nat) : Nat := l.widths.getD pc 1

/-- The hazard of the instruction at a word with a pending set before it: a read of a pending register, else a second write
(R109). -/
def LaneCode.hazard (l : LaneCode) (pc : Nat) (i : Instr) (p : Pending) : Option Diag :=
  if markerOf i then none
  else if (laneReads l.size (l.gw pc) i).any p.has then some .e301
  else if (laneWrites l.size (l.gw pc) i).any p.has then some .w302
  else none

/-- The set after an instruction: a marker empties it first. So does a read that was refused, and where SW is inserted every
hazard (log 69). -/
def LaneCode.after (l : LaneCode) (pc : Nat) (i : Instr) (p : Pending) : Pending :=
  let empties : Bool := markerOf i || (match l.hazard pc i p with
    | some .e301 => true
    | some _ => l.ins
    | none => false)
  (if empties then Pending.empty else p).join { all := false, regs := lanePends l.size (l.gw pc) i }

/-- The pending set at each word, as far as it is known: none for a word that no path has reached. -/
abbrev PendTbl := List (Option Pending)

/-- Adds a set to a word. -/
def addPend (t : PendTbl) (pc : Nat) (p : Pending) : PendTbl :=
  modifyNth (fun o => match o with
    | none => some p
    | some q => some (q.join p)) pc t

/-- One round: every word that is reached hands its set on. -/
def LaneCode.round (l : LaneCode) (t : PendTbl) : PendTbl :=
  let n := l.code.length
  let t := (sideStarts l.code).foldl (fun t pc => addPend t pc .empty) t
  (l.code.zip (List.range n)).foldl (fun t (i, pc) =>
    match (t[pc]?).getD none with
    | none => t
    | some p =>
      let q := l.after pc i p
      let t := (laneGoes l.code pc i).foldl (fun t x => addPend t x q) t
      match i with
      | .lcall .. => addPend t (pc + 1) { all := true, regs := [] }
      | .lend .. => l.starts.foldl (fun t x => addPend t x q) t
      | _ => t) t

/-- Rounds until nothing changes, at most `n`. -/
def LaneCode.rounds (l : LaneCode) : Nat → PendTbl → PendTbl
  | 0, t => t
  | n + 1, t => if l.round t == t then t else LaneCode.rounds l n (l.round t)

/-- The pending sets of a lane section: each round but the last reaches a word or adds a register to one. -/
def LaneCode.pending (l : LaneCode) : PendTbl :=
  let regs := ((l.code.zip l.widths).map fun (i, w) => (lanePends l.size w i).length).foldl (· + ·) 2
  l.rounds ((l.code.length + 1) * (regs + 1))
    (l.starts.foldl (fun t x => addPend t x .empty) (List.replicate l.code.length none))

/-- The hazards of a lane section, with their words. -/
def LaneCode.hazards (l : LaneCode) : List (Nat × Diag) :=
  ((l.code.zip l.pending).zip (List.range l.code.length)).flatMap fun ((i, p), pc) =>
    match p with
    | some p => ((l.hazard pc i p).map fun d => (pc, d)).toList
    | none => []

/-- Words whose path runs past the end of the section: by falling through, or after a call has returned (R111, E403); a target
there is E108. -/
def LaneCode.runsOut (l : LaneCode) : List (Nat × Diag) :=
  ((l.code.zip l.pending).zip (List.range l.code.length)).flatMap fun ((i, p), pc) =>
    let goes := (laneGoes l.code pc i).filter fun x => !(laneTargets pc i).contains x
    let back := match i with
      | .lcall .. => [pc + 1]
      | _ => []
    if p.isSome && (goes ++ back).any fun x => decide (l.code.length ≤ x) then [(pc, .e403)] else []

/-- Words that name a target after the last word of the section (R100, R111). -/
def LaneCode.farTargets (l : LaneCode) : List (Nat × Diag) :=
  (l.code.zip (List.range l.code.length)).filterMap fun (i, pc) =>
    if (laneTargets pc i).any fun x => decide (l.code.length ≤ x) then some (pc, .e108) else none

/-- Words that a path goes to after one, with the blocks that follow on its LEND (R109). -/
def LaneCode.nexts (l : LaneCode) (pc : Nat) : List Nat :=
  match l.code[pc]? with
  | none => []
  | some (.lend ..) => l.starts
  | some i => laneGoes l.code pc i

/-- Does a register that is pending before a word stay pending after it? -/
def LaneCode.keeps (l : LaneCode) (t : PendTbl) (r : Opnd) (pc : Nat) : Bool :=
  match l.code[pc]?, (t[pc]?).getD none with
  | some i, some p => p.has r && (l.after pc i p).has r
  | _, _ => false

/-- The words that write a register which is still pending at a word. -/
def LaneCode.writers (l : LaneCode) (r : Opnd) (pc : Nat) : List Nat :=
  let t := l.pending
  (List.range l.code.length).filter fun w =>
    ((l.code[w]?).any fun i => (lanePends l.size (l.gw w) i).contains r) &&
      (reach (fun x => if x == pc || !l.keeps t r x then [] else l.nexts x) l.code.length (l.nexts w)).contains pc

/-- The register of the hazard at a word, and the word that writes it: the last before it, or the last of the section. DESIGN
CHOICE (log 68): of several registers and writers these are named. -/
def LaneCode.clash (l : LaneCode) (pc : Nat) (read : Bool) : Option (Opnd × Option Nat) :=
  match l.code[pc]?, (l.pending[pc]?).getD none with
  | some i, some p =>
    ((if read then laneReads l.size (l.gw pc) i else laneWrites l.size (l.gw pc) i).find? p.has).map fun r =>
      let ws := l.writers r pc
      (r, ((ws.filter (· < pc)).getLast?).orElse fun _ => ws.getLast?)
  | _, _ => none

/-- `--markers=insert`: SW is set at every hazard, until there is none; the words that were marked (R109). -/
def LaneCode.insert : Nat → LaneCode → LaneCode × List Nat
  | 0, l => (l, [])
  | n + 1, l =>
    let at' := l.hazards.map (·.1)
    if at'.isEmpty then (l, [])
    else
      let r := LaneCode.insert n { l with code := at'.foldl (fun c pc => modifyNth withMarker pc c) l.code }
      (r.1, at' ++ r.2)

/-- The options of R99 for markers. -/
inductive Markers where
  | check | insert | off
  deriving DecidableEq, Repr

/-- The marker analysis: the section as it is written out, and the diagnostics by word. -/
def LaneCode.markers (l : LaneCode) (m : Markers) : LaneCode × List (Nat × Diag) :=
  match m with
  | .check => (l, l.hazards)
  | .insert =>
    let r := LaneCode.insert (l.code.length + 1) { l with ins := true }
    (r.1, r.2.map fun pc => (pc, .n301))
  | .off => (l, [])

/-! ## The scalar stream against the blocks (R110) -/

/-- Scalar registers that a scalar instruction reads by a number in its fields. -/
def scalarReads : Instr → List Nat
  | .sadd _ a b | .ssub _ a b | .smul _ a b | .smulh _ a b | .smulhn _ a b | .sand _ a b | .sor _ a b | .sxor _ a b
  | .sshl _ a b | .sshr _ a b | .ssha _ a b | .smin _ a b | .smax _ a b | .sminn _ a b | .smaxn _ a b
  | .scmp _ _ a b => [a, b]
  | .saddi d _ | .sandi d _ | .sori d _ | .sloop d _ => [d]
  | .sshli _ a _ | .sshri _ a _ | .sshai _ a _ | .smov _ a | .smvxf _ a _ | .sbfx _ a _ _ _ | .spopc _ a | .sclz _ a
  | .scmpi _ _ a _ | .sjmpr a | .bqry _ a | .bfree _ a | .barp a _ | .bara a _ | .barw _ a _ | .sleepns a => [a]
  | .smvxt d a _ => [d, a]
  | .sadd64 _ a b | .ssub64 _ a b => [a, a + 1, b, b + 1]
  | .ssel _ a _ src => a :: (match src with
      | .reg n => [n]
      | .imm _ => [])
  | .sld _ a _ _ _ _ _ | .sld64 _ a _ _ _ _ | .bdecl _ a _ | .launch _ a _ | .jdone a _ | .waitns a => [a, a + 1]
  | .sst d a _ _ _ _ | .satom d a _ _ _ _ _ | .spfxPf d a _ _ | .spfxWb d a _ | .spfxInv d a _ | .jraise d a _ =>
      [d, a, a + 1]
  | .sst64 d a _ _ _ | .scas d a _ _ _ _ => [d, d + 1, a, a + 1]
  | .sret => [63]
  | .lgo a n _ | .lgot a n _ => (List.range n).map (a + ·)
  | .cpy a _ _ | .gath a _ _ | .scat a _ _ | .mcast a _ _ | .mmac a | .mzro a | .macc a | .msnd _ a _ | .mpst _ a _
  | .mprb _ a | .benter a | .benterYield a _ => (List.range 8).map (a + ·)
  | .cpym a _ m => (List.range 8).map (a + ·) ++ (List.range 8).map (m + ·)
  | .mwaitR b | .swrs _ b => [b]
  | _ => []

/-- Scalar registers that a scalar instruction writes by a number in its fields. -/
def scalarWrites : Instr → List Nat
  | .sadd d _ _ | .ssub d _ _ | .smul d _ _ | .smulh d _ _ | .smulhn d _ _ | .sand d _ _ | .sor d _ _ | .sxor d _ _
  | .sshl d _ _ | .sshr d _ _ | .ssha d _ _ | .smin d _ _ | .smax d _ _ | .sminn d _ _ | .smaxn d _ _ | .saddi d _
  | .smovi d _ | .slui d _ | .sandi d _ | .sori d _ | .sshli d _ _ | .sshri d _ _ | .sshai d _ _ | .smov d _
  | .smvxf d _ _ | .sbfx d _ _ _ _ | .spopc d _ | .sclz d _ | .ssel d _ _ _ | .sld d _ _ _ _ _ _ | .satom d _ _ _ _ _ _
  | .scas d _ _ _ _ _ | .sloop d _ | .mfnc d | .msnd d _ _ | .mpst d _ _ | .mprb d _ | .bdecl d _ _ | .bfree d _
  | .barw d _ _ | .launch d _ _ | .srds d _ => [d]
  | .sldi d pair _ => if pair then [d, d + 1] else [d]
  | .sadd64 d _ _ | .ssub64 d _ _ | .sld64 d _ _ _ _ _ | .bqry d _ => [d, d + 1]
  | .scall _ _ => [63]
  | _ => []

/-- A scalar section: each instruction with its word index, and the words that labels name. -/
structure ScalarCode where
  code : List (Nat × Instr)
  labels : List Nat
  deriving DecidableEq, Repr

/-- The next word after a scalar instruction. -/
def afterWord (e : Nat × Instr) : Nat := e.1 + (encodeScalar e.2).length

/-- Scalar words after each call (R110). -/
def ScalarCode.callSites (c : ScalarCode) : List Nat :=
  c.code.filterMap fun e => match e.2 with
    | .scall _ _ => some (afterWord e)
    | _ => none

/-- Where a command with a yield-continuation goes on. -/
def yieldsTo (pc next : Nat) (cm : Compl) : List Nat :=
  match cm with
  | .yield off => [laneAt pc off]
  | _ => [next]

/-- Scalar words that a path goes to after an instruction; a path ends at LWAIT and EXIT (R110). -/
def ScalarCode.goes (c : ScalarCode) (e : Nat × Instr) : List Nat :=
  let next := afterWord e
  match e.2 with
  | .lwait | .exit | .tret => []
  | .sbr q off => if q = 7 then [laneAt e.1 off] else if q = 15 then [next] else [laneAt e.1 off, next]
  | .scall q off => if q = 7 then [laneAt e.1 off] else if q = 15 then [next] else [laneAt e.1 off, next]
  | .sloop _ off => [laneAt e.1 off, next]
  | .sret => c.callSites
  | .sjmpr _ => c.labels
  | .benterYield _ off => [laneAt e.1 off]
  | .cpy _ cm _ | .gath _ cm _ | .scat _ cm _ | .mcast _ cm _ | .msnd _ _ cm | .mpst _ _ cm => yieldsTo e.1 next cm
  | _ => [next]

/-- Lane words that a block can reach. -/
def laneReach (code : List Instr) (start : Nat) : List Nat :=
  reach (fun pc => match code[pc]? with
    | none => []
    | some i => laneGoes code pc i ++ (match i with
        | .lcall .. => [pc + 1]
        | .gbeg _ _ _ _ _ c => [pc + 1, laneAt pc c]
        | _ => [])) code.length [start]

/-- Scalar registers of a list of operands. -/
def scalarsOf (l : List Opnd) : List Nat :=
  l.filterMap fun o => match o with
    | .s r => some r
    | _ => none

/-- Scalar registers that a block reads (D of R110), and those that it writes. -/
def blockScalars (l : LaneCode) (start : Nat) : List Nat × List Nat :=
  let is := (laneReach l.code start).filterMap fun pc => (l.code[pc]?).map fun i => (i, l.gw pc)
  (scalarsOf (is.flatMap fun e => laneReads l.size e.2 e.1), scalarsOf (is.flatMap fun e => laneWrites l.size e.2 e.1))

/-- The checks of one dispatch: an indexed write is an error where the block reads a register from s256 on (R110, R121). -/
def ScalarCode.checkGo (c : ScalarCode) (l : LaneCode) (e : Nat × Instr) (start : Nat) : List (Nat × Diag) :=
  let d := blockScalars l start
  let go (pc : Nat) : List Nat := ((c.code.find? fun e => e.1 == pc).map c.goes).getD []
  let path := reach go c.code.length [afterWord e]
  (c.code.filter fun e => path.contains e.1).flatMap fun f =>
    let indexed : Bool := match f.2 with
      | .smvxt .. => d.1.any fun r => decide (256 ≤ r)
      | _ => false
    (if indexed || (scalarWrites f.2).any d.1.contains then [(f.1, .e311)] else []) ++
      if (scalarReads f.2).any d.2.contains then [(f.1, .w312)] else []

/-- The register that a scalar word writes (or reads) while a block reads (or writes) it, with the word of the dispatch and the
block's lane word. -/
def ScalarCode.clash (c : ScalarCode) (l : LaneCode) (pc : Nat) (write : Bool) : Option (Nat × Nat × Nat) :=
  let go (pc : Nat) : List Nat := ((c.code.find? fun e => e.1 == pc).map c.goes).getD []
  c.code.findSome? fun e => match e.2 with
    | .lgo _ _ start =>
      let uses (x : Nat) : List Nat := ((l.code[x]?).map fun i =>
        scalarsOf (if write then laneReads l.size (l.gw x) i else laneWrites l.size (l.gw x) i)).getD []
      let block := laneReach l.code start
      let all := block.flatMap uses
      if !(reach go c.code.length [afterWord e]).contains pc then none
      else
        (c.code.find? fun f => f.1 == pc).bind fun f =>
          let mine := (if write then scalarWrites f.2 else scalarReads f.2) ++
            (match f.2 with
              | .smvxt .. => if write then all.filter (256 ≤ ·) else []
              | _ => [])
          (mine.find? all.contains).bind fun r => (block.find? fun x => (uses x).contains r).map fun x => (r, e.1, x)
    | _ => none

/-- Scalar words, and lane words, that an instruction at a word names as targets (R103). -/
def scalTargets (pc : Nat) : Instr → List Nat × List Nat
  | .sbr _ off | .scall _ off | .sloop _ off | .benterYield _ off => ([laneAt pc off], [])
  | .lgo _ _ s | .lgot _ _ s => ([], [s])
  | .cpy _ cm _ | .gath _ cm _ | .scat _ cm _ | .mcast _ cm _ | .msnd _ _ cm | .mpst _ _ cm =>
    (match cm with
      | .yield off => [laneAt pc off]
      | _ => [], [])
  | _ => ([], [])

/-- Words that name a target after the last word of its section (R100, R111). -/
def ScalarCode.farTargets (c : ScalarCode) (lanes : Nat) : List (Nat × Diag) :=
  let words := (c.code.map afterWord).foldl max 0
  c.code.filterMap fun e =>
    let t := scalTargets e.1 e.2
    if (t.1.any fun x => decide (words ≤ x)) || t.2.any fun x => decide (lanes ≤ x) then some (e.1, .e108) else none

/-- The checks of the scalar stream. -/
def ScalarCode.check (c : ScalarCode) (l : LaneCode) : List (Nat × Diag) :=
  (c.code.flatMap fun e => match e.2 with
    | .lgo _ _ start => c.checkGo l e start
    | _ => []).eraseDups

/-! ## Resources (R108), and the decode checks (R100) -/

/-- Registers of operands that lie beyond the allocation, and tiles that do not exist. -/
def beyond (m : Meta) (l : List (Opnd × Nat)) : Bool :=
  l.any fun (o, n) => match o with
    | .v r => decide (m.vregs < r + n)
    | .s r => decide (m.sregs < r + n)
    | .a t => decide (m.tiles ≤ t)
    | _ => false

/-- The first registers of the operand blocks of an engine command or a BENTER. -/
def blocksOf : Instr → List Nat
  | .cpy a _ _ | .gath a _ _ | .scat a _ _ | .mcast a _ _ | .mmac a | .mzro a | .macc a | .msnd _ a _ | .mpst _ a _
  | .mprb _ a | .benter a | .benterYield a _ => [a]
  | .cpym a _ m => [a, m]
  | _ => []

/-- A generator instruction. -/
def isGenerator : Instr → Bool
  | .gbeg .. | .gyld .. | .gnxt .. | .gdne .. | .grcv .. | .gret .. | .gend .. => true
  | _ => false

/-- A streamer command that only the producer may issue (R108). -/
def needsProducer : Instr → Bool
  | .cpy .. | .cpym .. | .mcast .. => true
  | _ => false

/-- An instruction whose order and scope forbid its `.prom` (R87). -/
def promBad : Instr → Bool
  | .sld _ _ _ o sc p _ | .sld64 _ _ o sc p _ | .satom _ _ _ o sc p _ | .scas _ _ o sc p _ | .sfnc o sc p
  | .ld _ _ _ o sc p _ _ _ _ | .fence _ o sc p | .atom _ _ _ o sc p _ _ _ _ _ | .acas _ _ o sc p _ _ _ _ _ _ =>
      !promOk o sc p
  | _ => false

/-- The instruction of the same lane word with one operand field set, and each immediate in another set to 0. -/
def withOperand (i : Instr) (a : Option Nat) : Option Instr :=
  let f := fieldsOf i
  let z (n : Nat) : Nat := if 0x780 ≤ n && n < 0x7FF then 0x7BF else n
  laneCandidate (match a with
    | some n => { f with a := n }
    | none => { f with a := z f.a, b := z f.b, c := z f.c, d := z f.d })

/-- Would another destination make the operands legal (R82)? -/
def dstBad (i : Instr) : Bool :=
  ([.v 0, .p 0, .s 0, .a 0, .wa 0, .sp 8] : List Opnd).any fun o =>
    match withOperand i (some o.code) with
    | some j => j.fieldsOk && j.regsOk
    | none => false

/-- Are the immediates what is wrong with the fields (R80, R177)? -/
def immBad (i : Instr) : Bool :=
  match i with
  | .st _ w _ _ _ _ _ _ c _ => c.isImm && (w == .b128 || w == .b256)
  | _ =>
    match withOperand i none with
    | some j => j.fieldsOk
    | none => false

/-- An instruction of the scalar stream whose order is not one it takes (R88, R125). -/
def orderBad : Instr → Bool
  | .sld _ _ _ o _ _ _ | .sld64 _ _ o _ _ _ => !o.loadOk
  | .sst _ _ _ o _ _ | .sst64 _ _ o _ _ => !o.storeOk
  | .sfnc o _ _ => o == .plain
  | _ => false

/-- The code of R111 for a word that fails a decode check: R98's order of checks. -/
def wordDiag (m : Meta) (gw : Nat) (i : Instr) : List Diag :=
  let dsts := laneDsts m.size gw i ++ laneQuietDsts i
  let srcs := laneSrcs m.size gw i
  let misaligned : Bool := (dsts ++ srcs).any fun e => !e.1.aligned e.2
  if i.fieldsOk && i.regsOk then []
  else if promBad i then [.e205]
  else if (laneFields i).isNone then
    (if i.fieldsOk then [.e106] else if orderBad i then [.e102] else [.e104])
  else if dsts.any fun e => e.1.isImm then [.e107]
  else if !i.fieldsOk then (if immBad i then [.e104] else [.e102])
  else if misaligned then [.e106]
  else if dstBad i then [.e107]
  else [.e103]

/-- The diagnostics of one instruction: the resource checks of R108, and a code of R111 for a word that fails a decode check. -/
def checkInstr (m : Meta) (gw : Nat) (i : Instr) : List Diag :=
  let blocks := blocksOf i
  let scal := scalarWrites i ++ (scalarReads i).filter fun _ => blocks.isEmpty
  let tiles : Bool := match i with
    | .ppt t => decide (2 ^ m.tiles ≤ t) && decide (t < 16)
    | _ => false
  let handle := beyond m (laneHandles i) || (laneHandles i).any fun (o, _) => match o with
    | .a n => decide (4 ≤ n)
    | _ => false
  (if beyond m (laneDsts m.size gw i ++ laneQuietDsts i ++ laneSrcs m.size gw i) || tiles || handle ||
      scal.any (fun r => decide (m.sregs ≤ r)) then [.e105] else []) ++
    (if blocks.any fun a => !blk8 a || decide (m.sregs < a + 8) then [.e201] else []) ++
    (if needsProducer i && m.producer.isNone then [.e202] else []) ++
    (if isGenerator i && !m.gen then [.e203] else []) ++ if handle || blocks.any (fun a => !blk8 a) then [] else wordDiag m gw i

end Sys2Proof.Machine
end

