-- ==== Sys2Proof/Machine/AsmSyntax.lean ====
section
/-! DEFINITION. Instructions as `priex` reads them (R78, R79, R99 to R104): names, expressions, operands, modifiers, the
forms of every mnemonic (R90, R93 to R96 and the entries), and the instruction that a written form stands for. -/
namespace Sys2Proof.Machine

/-! ## Names and expressions (R101, R102) -/

/-- The four sections. -/
inductive Sect where
  | scalar | lane | data | const
  deriving DecidableEq, Repr

/-- Characters of the source: a name, a mnemonic, a modifier. -/
abbrev SymName := List Char

/-- What a name stands for: a label of a section, or with none a constant of `.equ` (R101, R105). -/
structure SymVal where
  sect : Option Sect
  val : Int
  deriving DecidableEq, Repr

/-- Names with what they stand for. -/
abbrev SymTbl := List (SymName × SymVal)

/-- What a name stands for, if it is defined. -/
def lookup (env : SymTbl) (n : SymName) : Option SymVal := (env.find? fun e => e.1 == n).map (·.2)

/-- The binary operators of R102. -/
inductive BinOp where
  | mul | div | rem | add | sub | shl | shr | and | xor | or
  deriving DecidableEq, Repr

/-- An expression (R102). -/
inductive Expr where
  | num (n : Nat)
  | name (n : SymName)
  | neg (e : Expr)
  | not (e : Expr)
  | bin (op : BinOp) (a b : Expr)
  deriving DecidableEq, Repr

/-- A value that fits signed 64-bit integers, or E110. -/
def in64 (v : Int) : Except Diag Int := if -(2 ^ 63) ≤ v && v < 2 ^ 63 then .ok v else .error .e110

/-- A bitwise operator on 64-bit two's complement. -/
def bitwise64 (f : BitVec 64 → BitVec 64 → BitVec 64) (a b : Int) : Int := (f (BitVec.ofInt 64 a) (BitVec.ofInt 64 b)).toInt

/-- A binary operator: overflow, division by zero, and a shift count outside 0 to 63 are E110. -/
def binVal (op : BinOp) (a b : Int) : Except Diag Int :=
  match op with
  | .mul => in64 (a * b)
  | .div => if b = 0 then .error .e110 else in64 (Int.tdiv a b)
  | .rem => if b = 0 then .error .e110 else in64 (Int.tmod a b)
  | .add => in64 (a + b)
  | .sub => in64 (a - b)
  | .shl => if b < 0 || 63 < b then .error .e110 else in64 (a * (2 ^ b.toNat : Nat))
  | .shr => if b < 0 || 63 < b then .error .e110 else in64 (a / (2 ^ b.toNat : Nat))
  | .and => in64 (bitwise64 (· &&& ·) a b)
  | .xor => in64 (bitwise64 (· ^^^ ·) a b)
  | .or => in64 (bitwise64 (· ||| ·) a b)

/-- The value of an expression with the sections of the labels that it uses: an unknown name is E109. -/
def Expr.eval (env : SymTbl) : Expr → Except Diag (Int × List Sect)
  | .num n => (in64 n).map fun v => (v, [])
  | .name n =>
    match lookup env n with
    | none => .error .e109
    | some v => .ok (v.val, v.sect.toList)
  | .neg e =>
    match e.eval env with
    | .error d => .error d
    | .ok (v, l) => (in64 (-v)).map fun w => (w, l)
  | .not e =>
    match e.eval env with
    | .error d => .error d
    | .ok (v, l) => (in64 (-v - 1)).map fun w => (w, l)
  | .bin op a b =>
    match a.eval env, b.eval env with
    | .ok (v, l), .ok (w, k) => (binVal op v w).map fun x => (x, l ++ k)
    | .error d, _ => .error d
    | _, .error d => .error d

/-- A constant: a label in it is E110. -/
def Expr.const (env : SymTbl) (e : Expr) : Except Diag Int :=
  match e.eval env with
  | .error d => .error d
  | .ok (v, l) => if l.isEmpty then .ok v else .error .e110

/-- A constant between two bounds, or E104. -/
def Expr.within (env : SymTbl) (lo hi : Int) (e : Expr) : Except Diag Int :=
  match e.const env with
  | .error d => .error d
  | .ok v => if lo ≤ v && v ≤ hi then .ok v else .error .e104

/-- A 64-bit address, and whether it takes a relocation: one data label may stand in it (R105, R106). -/
def Expr.addr (env : SymTbl) (e : Expr) : Except Diag (Nat × Bool) :=
  match e.eval env with
  | .error d => .error d
  | .ok (v, []) => .ok (wrapTo 64 v, false)
  | .ok (v, [.data]) => .ok (wrapTo 64 v, true)
  | .ok _ => .error .e110

/-! ## Operands (R79, R103) -/

/-- The register names of R79 and R92. -/
inductive RegKind where
  | v | s | c | k | p | a | wa | q
  deriving DecidableEq, Repr

/-- How many registers of a kind there are. -/
def RegKind.count : RegKind → Nat
  | .v => 512
  | .s => 1024
  | .c => 256
  | _ => 8

/-- The prefix of a kind's register names. -/
def RegKind.prefixOf : RegKind → SymName
  | .v => ['v']
  | .s => ['s']
  | .c => ['c']
  | .k => ['k']
  | .p => ['p']
  | .a => ['a']
  | .wa => ['w', 'a']
  | .q => ['q']

/-- Is it a decimal digit? -/
def isDigit (c : Char) : Bool := decide (48 ≤ c.toNat) && decide (c.toNat ≤ 57)

/-- The capital of a letter. -/
def upper (c : Char) : Char := if 97 ≤ c.toNat && c.toNat ≤ 122 then Char.ofNat (c.toNat - 32) else c

/-- The small letter of a capital. -/
def lower (c : Char) : Char := if 65 ≤ c.toNat && c.toNat ≤ 90 then Char.ofNat (c.toNat + 32) else c

/-- Decimal digits as a number. -/
def decimalOf (l : List Char) : Nat := l.foldl (fun n c => 10 * n + (c.toNat - 48)) 0

/-- The register that a name is, in capitals or small letters, if its number exists. -/
def regOf (n : SymName) : Option (RegKind × Nat) :=
  let w := n.map lower
  ([.v, .s, .c, .k, .p, .a, .wa, .q] : List RegKind).findSome? fun r =>
    let ds := w.drop r.prefixOf.length
    if r.prefixOf.isPrefixOf w && !ds.isEmpty && ds.all isDigit && decide (decimalOf ds < r.count) then
      some (r, decimalOf ds)
    else none

/-- Names of the special registers by their numbers (R103, R137). -/
def specialNames : List String :=
  ["lane", "strand", "grp", "team", "bx", "by", "bz", "ngrp", "exec", "flg", "rmode", "fltmask", "wmask", "cause", "spc", "lpc",
    "clka", "nstime", "nstime.hi", "lfsr", "core", "cluster", "sector", "part", "ctx", "genst", "batch", "uas"]

/-- The number of a special register, by its name without the `%`. -/
def specialOf (n : SymName) : Option Nat :=
  let i := specialNames.findIdx fun w => w.toList == n.map lower
  if i < specialNames.length then some i else none

/-- An operand as it is written: a register, a special register by its number, a condition `?qn` or `?!qn`, or an
expression, which a single name may be. -/
inductive OpSrc where
  | reg (r : RegKind) (n : Nat)
  | special (n : Nat)
  | cond (inv : Bool) (n : Nat)
  | expr (e : Expr)
  deriving DecidableEq, Repr

/-- An instruction as it is written: its guard as GP, GQ and GC (R78), the mnemonic in capitals, the modifiers in small
letters, and the operands. -/
structure InsSrc where
  guard : Option (Nat × Nat × Bool)
  mnem : SymName
  mods : List SymName
  ops : List OpSrc
  deriving DecidableEq, Repr

/-- The offset of a label of a section from a word: E103 for what is no name, E109 for an unknown name and E108 for another
section (R83, R103). -/
def OpSrc.offTo (env : SymTbl) (s : Sect) (pc : Nat) : OpSrc → Except Diag Int
  | .expr (.name n) =>
    match lookup env n with
    | none => .error .e109
    | some v => if v.sect == some s then .ok (v.val - pc) else .error .e108
  | _ => .error .e103

/-- The constant that an operand gives, between two bounds. -/
def OpSrc.within (env : SymTbl) (lo hi : Int) : OpSrc → Except Diag Int
  | .expr e => e.within env lo hi
  | _ => .error .e103

/-- The operand code of a lane operand: a label of `.const` is its c register, and another expression an immediate in
−63 to +63 (R79, R103). -/
def OpSrc.laneCode (env : SymTbl) (o : OpSrc) : Except Diag Nat :=
  let reg (r : RegKind) (n : Nat) : Except Diag Nat :=
    if r.count ≤ n then .error .e103
    else
      match r with
      | .v => .ok (Opnd.v n).code
      | .s => .ok (Opnd.s n).code
      | .c => .ok (Opnd.c n).code
      | .k => .ok (Opnd.k n).code
      | .p => .ok (Opnd.p n).code
      | .a => .ok (Opnd.a n).code
      | .wa => .ok (Opnd.wa n).code
      | .q => .error .e103
  let imm (e : Expr) : Except Diag Nat := (e.within env (-63) 63).map fun v => (Opnd.imm v).code
  match o with
  | .reg r n => reg r n
  | .special n => if n < 28 then .ok (Opnd.sp n).code else .error .e103
  | .cond _ _ => .error .e103
  | .expr (.name n) =>
    match lookup env n with
    | some ⟨some .const, v⟩ => reg .c v.toNat
    | _ => imm (.name n)
  | .expr e => imm e

/-! ## Modifiers (R84 to R89, R104) -/

/-- Fields that a modifier or an operand fills: those of R77 and R92, with IMM16 and OFF20 as wholes. -/
inductive Fld where
  | sub | typ | rnd | sat | nf | sw | rg | ch | xt | a | b | c | d | e | imm | imm16 | off20
  deriving DecidableEq, Repr

/-- One kind of modifier: its words with what each puts into a field, the value where no word stands, and the diagnostic
if one must stand. -/
structure Suffix where
  words : List (String × Nat)
  fld : Fld
  dflt : Nat := 0
  need : Option Diag := none
  deriving DecidableEq, Repr

/-- A kind of modifier of which one must stand. -/
def Suffix.must (s : Suffix) : Suffix := { s with need := some .e102 }

/-- Words with their places as codes, times a factor. -/
def coded (m : Nat) (l : List String) : List (String × Nat) := (l.zip (List.range l.length)).map fun e => (e.1, m * e.2)

/-- Integer column of R84. -/
def intWords : List (String × Nat) := coded 1 ["i32", "n32", "i64", "n64", "i16x2", "n16x2", "i8x4", "n8x4"]
/-- Float column of R84. -/
def fltWords : List (String × Nat) := coded 1 ["f32", "f16x2", "bf16x2", "e4m3x4", "e5m2x4"]
/-- Memory column of R84. -/
def memWords : List (String × Nat) := coded 1 ["b8", "b16", "b32", "b64", "b128", "b256"]
/-- Types of R186. -/
def atomWords : List (String × Nat) := coded 1 ["i32", "n32", "i64", "n64", "f32", "bf16x2"]

/-- A type modifier (R84). -/
def typeG (w : List (String × Nat)) : Suffix := { words := w, fld := .typ, need := some .e102 }

/-- Rounding modes (R85). -/
def rndG : Suffix := { words := [("rn", 0), ("rz", 1), ("ru", 2), ("rd", 3), ("ra", 4), ("rs", 5), ("dyn", 7)], fld := .rnd }
/-- Saturation modes (R85). -/
def satG : Suffix := { words := [("sat", 1), ("satf", 2), ("satu", 3)], fld := .sat }
/-- `.nf` (R85). -/
def nfG : Suffix := { words := [("nf", 1)], fld := .nf }
/-- `.sw` (R77). -/
def swG : Suffix := { words := [("sw", 1)], fld := .sw }
/-- `.rg` (R77). -/
def rgG : Suffix := { words := [("rg", 1)], fld := .rg }
/-- Cache hints (R86). -/
def hintG : Suffix :=
  { words := [("stream", 1), ("keep", 2), ("nol1", 3), ("nol2", 4), ("rcopy", 5), ("inb", 6)], fld := .ch }
/-- Memory orders (R88). -/
def orderG : Suffix := { words := [("acq", 4), ("rel", 8), ("acqrel", 12)], fld := .sub }
/-- Scopes by their codes, times a factor (R16). -/
def scopeWords (m : Nat) : List (String × Nat) := coded m ["grp", "team", "block", "die", "dev", "sys"]
/-- The scope (R87): without one it is `.grp` (R104). -/
def scopeG : Suffix := { words := scopeWords 1, fld := .xt }
/-- `.prom` (R87). -/
def promG : Suffix := { words := [("prom", 8)], fld := .xt }
/-- `.seq` (R177). -/
def seqG : Suffix := { words := [("seq", 1)], fld := .sub }

/-- Puts a word into the first kind that has it and is still free: a second word of one kind finds none. -/
def fillOne (w : SymName) : List (Suffix × Option Nat) → Option (List (Suffix × Option Nat))
  | [] => none
  | (g, some v) :: r => (fillOne w r).map ((g, some v) :: ·)
  | (g, none) :: r =>
    match g.words.find? fun e => e.1.toList == w with
    | some e => some ((g, some e.2) :: r)
    | none => (fillOne w r).map ((g, none) :: ·)

/-- The modifiers of an instruction, each in its kind. -/
def fillMods : List SymName → List (Suffix × Option Nat) → Option (List (Suffix × Option Nat))
  | [], t => some t
  | w :: r, t => (fillOne w t).bind (fillMods r)

/-- What the modifiers put into fields: E102 for one that the instruction does not take and for two of one kind (R104). -/
def modVals (gs : List Suffix) (ws : List SymName) : Except Diag (List (Fld × Nat)) :=
  match fillMods ws (gs.map fun g => (g, none)) with
  | none => .error .e102
  | some t =>
    match t.find? fun e => e.2.isNone && e.1.need.isSome with
    | some e => .error (e.1.need.getD .e102)
    | none => .ok (t.map fun e => (e.1.fld, e.2.getD e.1.dflt))

/-! ## Forms of the lane instructions -/

/-- Where an operand of a lane instruction goes: an operand code into a field, a label's offset or a byte offset into a
pair of fields, a literal of 11 bits into B, or a truth table into SUB. -/
inductive LPlace where
  | opnd (x : Fld)
  | target (lo hi : Fld)
  | offset
  | lit
  | table
  deriving DecidableEq, Repr

/-- One form of a lane instruction: its opcode, what SUB holds without modifiers, its modifiers in the order in which a
listing prints them, its operands, whether it may have a guard, and the types of which the first type modifier is one, where
there are two (R104). -/
structure LaneForm where
  name : String
  op : Nat
  sub : Nat
  mods : List Suffix
  places : List LPlace
  guard : Bool
  firstType : List String
  deriving DecidableEq, Repr

/-- Operand codes into A, B, C and so on, in this order (R90). -/
def opsTo (l : List Fld) : List LPlace := l.map .opnd

/-- A form with the modifiers that every lane instruction has beside its own (R104). -/
def laneForm (name : String) (op : Nat) (own : List Suffix) (places : List LPlace) (mem seq : List Suffix := [])
    (sub : Nat := 0) (guard : Bool := true) (firstType : List String := []) : LaneForm :=
  { name := name, op := op, sub := sub, mods := own ++ [rndG, satG, nfG] ++ mem ++ [hintG] ++ seq ++ [swG, rgG],
    places := places, guard := guard, firstType := firstType }

/-- Forms of one shape whose opcodes follow one another. -/
def laneForms (op : Nat) (own : List Suffix) (places : List LPlace) (l : List String) : List LaneForm :=
  (coded 1 l).map fun e => laneForm e.1 (op + e.2) own places

/-- The integer forms (R149, R151, R155). -/
def intForms : List LaneForm :=
  laneForms 0x010 [typeG intWords] (opsTo [.a, .b, .c]) ["IADD", "ISUB", "IMUL", "IMULH"] ++
  laneForms 0x014 [typeG intWords] (opsTo [.a, .b, .c, .d]) ["IMAD"] ++
  laneForms 0x015 [typeG intWords] (opsTo [.a, .b, .c]) ["IMIN", "IMAX"] ++
  laneForms 0x017 [typeG intWords] (opsTo [.a, .b]) ["IABS", "INEG"] ++
  laneForms 0x019 [typeG intWords, { words := coded 1 ["nn", "sn", "ns", "ss"], fld := .sub, dflt := 3 }]
    (opsTo [.a, .b, .c, .d]) ["IDOT4"] ++
  laneForms 0x01A [typeG intWords] (opsTo [.a, .b, .c]) ["AND", "OR", "XOR"] ++
  laneForms 0x01D [typeG intWords] (opsTo [.a, .b]) ["NOT"] ++
  laneForms 0x01E [typeG intWords] (opsTo [.a, .b, .c]) ["SHL", "SHR", "SHA", "ROT"] ++
  laneForms 0x022 [typeG intWords] (opsTo [.a, .b, .c, .d]) ["BFX"] ++
  laneForms 0x023 [typeG intWords] (opsTo [.a, .b, .c, .d, .e]) ["BFI"] ++
  laneForms 0x024 [typeG intWords] (opsTo [.a, .b]) ["POPC", "CLZ", "BREV"] ++
  laneForms 0x027 [typeG intWords] (opsTo [.a, .b, .c, .d]) ["LEA"] ++
  laneForms 0x028 [{ words := coded 1 ["eq", "ne", "lt", "le", "gt", "ge", "tst", "tstz"], fld := .sub : Suffix }.must,
    typeG intWords] (opsTo [.a, .b, .c]) ["ICMP"]

/-- The float forms (R156, R162). -/
def fltForms : List LaneForm :=
  laneForms 0x040 [typeG fltWords] (opsTo [.a, .b, .c]) ["FADD", "FSUB", "FMUL"] ++
  laneForms 0x043 [typeG fltWords] (opsTo [.a, .b, .c, .d]) ["FFMA"] ++
  laneForms 0x044 [typeG fltWords] (opsTo [.a, .b, .c]) ["FMIN", "FMAX"] ++
  laneForms 0x046 [typeG fltWords] (opsTo [.a, .b])
    ["FRCP", "FRSQ", "FSQRT", "FEXP2", "FLOG2", "FSIN", "FCOS", "FTANH", "FRND"] ++
  laneForms 0x04F [typeG fltWords] (opsTo [.a, .b, .c]) ["FSCL"] ++
  laneForms 0x050 [typeG fltWords] (opsTo [.a, .b]) ["FCLS"] ++
  laneForms 0x051 [{ words := coded 1 ["eq", "ne", "lt", "le", "gt", "ge", "uo", "ord"], fld := .sub : Suffix }.must,
    typeG fltWords] (opsTo [.a, .b, .c]) ["FCMP"] ++
  laneForms 0x052 [typeG fltWords] (opsTo [.a, .b, .c, .d]) ["FDOT2"]

/-- CVT with a destination type and a source type of two columns (R89, R163). -/
def cvtForm (dt st : List (String × Nat)) (sub : Nat) : LaneForm :=
  laneForm "CVT" 0x060 [typeG dt, { typeG st with fld := .xt }] (opsTo [.a, .b]) (sub := sub)
    (firstType := dt.map (·.1))

/-- REDL and SCNL with an integer and with a float type (R168). -/
def redForms : List LaneForm :=
  let iop : Suffix := { words := coded 1 ["add", "min", "max", "and", "or", "xor"], fld := .sub }
  let fop : Suffix := { words := coded 1 ["add", "min", "max", "mul"], fld := .sub }
  let excl : Suffix := { words := [("excl", 1)], fld := .xt }
  [laneForm "REDL" 0x076 [typeG intWords, iop.must] (opsTo [.a, .b]),
    laneForm "REDL" 0x076 [typeG fltWords, fop.must] (opsTo [.a, .b]) (sub := 8),
    laneForm "SCNL" 0x077 [typeG intWords, iop.must, excl] (opsTo [.a, .b]),
    laneForm "SCNL" 0x077 [typeG fltWords, fop.must, excl] (opsTo [.a, .b]) (sub := 8)]

/-- Conversions, movement and predicates (R163 to R171). -/
def moveForms : List LaneForm :=
  [cvtForm intWords intWords 0, cvtForm fltWords intWords 1, cvtForm intWords fltWords 2, cvtForm fltWords fltWords 3] ++
  laneForms 0x061 [{ words := coded 1 ["e4m3", "e5m2", "e2m1x"], fld := .sub : Suffix }.must, typeG fltWords]
    (opsTo [.a, .b]) ["MXQ", "MXD"] ++
  laneForms 0x070 [typeG memWords] (opsTo [.a, .b]) ["MOV"] ++
  laneForms 0x071 [typeG memWords] (opsTo [.a, .b, .c, .d]) ["SEL"] ++
  laneForms 0x072 [typeG memWords] (opsTo [.a, .b, .c]) ["SHFL", "SHFLX", "BCST"] ++
  laneForms 0x075 [{ words := coded 1 ["ballot", "any", "all", "uni"], fld := .sub : Suffix }.must] (opsTo [.a, .b])
    ["VOTE"] ++
  redForms ++
  laneForms 0x078 [typeG memWords] (opsTo [.a, .b]) ["GTRN"] ++
  laneForms 0x080 [] (opsTo [.a, .b, .c] ++ [.table]) ["PLOP"] ++
  laneForms 0x081 [{ words := coded 1 ["tomask", "frommask"], fld := .sub : Suffix }.must] (opsTo [.a, .b]) ["PMOV"]

/-- Memory and atomics (R90, R177, R185, R186): where `.seq` is written, ST and ARED have a tag destination. -/
def laneMemForms : List LaneForm :=
  let aop (l : List String) : Suffix := { words := coded 1 l, fld := .e }
  let rmw := ["add", "min", "max", "and", "or", "xor"]
  [laneForm "LD" 0x100 [typeG memWords, { words := [("s", 1)], fld := .sub }] (opsTo [.a, .b] ++ [.offset])
      (mem := [orderG, scopeG, promG]),
    laneForm "ST" 0x101 [typeG memWords] (opsTo [.b, .c] ++ [.offset]) (mem := [orderG, scopeG]),
    laneForm "ST" 0x101 [typeG memWords] (opsTo [.a, .b, .c] ++ [.offset]) (mem := [orderG, scopeG]) (seq := [seqG.must]),
    laneForm "PFX" 0x102 [] (opsTo [.b] ++ [.offset]) (mem := [scopeG]),
    laneForm "FENCE" 0x103 [] [] (mem := [orderG.must, { scopeG with need := some .e103 }, promG]),
    laneForm "ATOM" 0x110 [(aop (rmw ++ ["exch"])).must, typeG atomWords] (opsTo [.a, .b, .c])
      (mem := [orderG, scopeG, promG]) (seq := [seqG]),
    laneForm "ACAS" 0x111 [typeG atomWords] (opsTo [.a, .b, .c, .d]) (mem := [orderG, scopeG, promG]) (seq := [seqG]),
    laneForm "ARED" 0x112 [(aop rmw).must, typeG atomWords] (opsTo [.b, .c]) (mem := [orderG, scopeG]),
    laneForm "ARED" 0x112 [(aop rmw).must, typeG atomWords] (opsTo [.a, .b, .c]) (mem := [orderG, scopeG])
      (seq := [seqG.must])]

/-- Control, generators, windows, tiles and system instructions (R193 to R199, R255 to R271, R302). -/
def ctlForms : List LaneForm :=
  let two : List LPlace := [.target .b .c, .target .d .e]
  let wop (l : List (String × Nat)) : Suffix := { words := l, fld := .sub, need := some .e102 }
  [laneForm "NOP" 0x000 [] [], laneForm "BRL" 0x120 [] two, laneForm "JOIN" 0x121 [] [] (guard := false),
    laneForm "LEND" 0x122 [] [] (guard := false), laneForm "LCALL" 0x123 [] [.target .b .c], laneForm "LRET" 0x124 [] [],
    laneForm "LEXIT" 0x125 [] [],
    laneForm "GBEG" 0x130 [{ words := coded 1 ["v1", "v2", "v3", "v4"], fld := .sub },
      { words := coded 4 ["t1", "t2"], fld := .sub }] two (guard := false),
    laneForm "GYLD" 0x131 [] (opsTo [.b]), laneForm "GNXT" 0x132 [] [], laneForm "GDNE" 0x133 [] [],
    laneForm "GRCV" 0x134 [] (opsTo [.a]), laneForm "GRET" 0x135 [] [] (guard := false),
    laneForm "GEND" 0x136 [] [] (guard := false),
    laneForm "WAINI" 0x140 [wop [("add", 0), ("max", 1), ("min", 2)], typeG [("i32", 0)]] (opsTo [.a, .b, .c]),
    laneForm "WAINI" 0x140 [wop [("add", 0), ("max", 1), ("min", 2), ("mul", 3), ("argmax", 7), ("lse", 8), ("aff", 9)],
      typeG [("f32", 1)]] (opsTo [.a, .b, .c]),
    laneForm "WAINI" 0x140 [wop [("and", 4), ("or", 5), ("xor", 6)], typeG [("b32", 0)]] (opsTo [.a, .b, .c]),
    laneForm "WAINI" 0x140 [wop [("unb", 15)]] (opsTo [.a]),
    laneForm "WAPSH" 0x141 [] (opsTo [.a, .b]), laneForm "WAPSH" 0x141 [] (opsTo [.a, .b, .c]),
    laneForm "WAQRY" 0x142 [] (opsTo [.a, .b, .c]), laneForm "WAEXP" 0x143 [] (opsTo [.a, .b]),
    laneForm "WAWLN" 0x144 [] (opsTo [.a, .b]), laneForm "WARST" 0x145 [] (opsTo [.a])] ++
  laneForms 0x150 [typeG memWords] (opsTo [.a, .b, .c, .d]) ["AMOVR", "AMOVW"] ++
  [laneForm "LTRAP" 0x1F0 [] [.lit], laneForm "LBKPT" 0x1F1 [] [],
    laneForm "LRDS" 0x1F2 [{ words := [("w64", 1)], fld := .sub }] (opsTo [.a, .b]), laneForm "LWRS" 0x1F3 [] (opsTo [.a, .b])]

/-- The forms of the lane instructions (R91). -/
def allLaneForms : List LaneForm := intForms ++ fltForms ++ moveForms ++ laneMemForms ++ ctlForms

/-! ## Forms of the scalar instructions -/

/-- Where an operand of a scalar instruction goes: a register number, a scalar predicate or a condition (times a factor), a
number of some bits between bounds (times a factor), the offset of a scalar label of some bits, a lane label's word index,
or a special register into A. -/
inductive SPlace where
  | reg (x : Fld)
  | pred (x : Fld)
  | cond (x : Fld) (m : Nat)
  | num (x : Fld) (m bits : Nat) (lo hi : Int)
  | target (x : Fld) (bits : Nat)
  | block
  | special
  deriving DecidableEq, Repr

/-- One form of a scalar instruction: its opcode, what fields hold without modifiers and operands, its modifiers, and its
operands. -/
structure ScalForm where
  name : String
  op : Nat
  base : List (Fld × Nat)
  mods : List Suffix
  places : List SPlace
  deriving DecidableEq, Repr

/-- A form whose fields hold 0 at first. -/
def scalForm (name : String) (op : Nat) (places : List SPlace) (mods : List Suffix := []) (base : List (Fld × Nat) := []) :
    ScalForm :=
  { name := name, op := op, base := base, mods := mods, places := places }

/-- Forms of one shape whose opcodes follow one another. -/
def scalForms (op : Nat) (places : List SPlace) (l : List String) : List ScalForm :=
  (coded 1 l).map fun e => scalForm e.1 (op + e.2) places

/-- A signed byte offset in IMM32. -/
def offImm : SPlace := .num .imm 1 32 (-(2 ^ 31)) (2 ^ 31 - 1)
/-- Any 32-bit immediate. -/
def anyImm : SPlace := .num .imm 1 32 (-(2 ^ 31)) (2 ^ 32 - 1)
/-- An IMM32 that is not negative. -/
def natImm : SPlace := .num .imm 1 32 0 (2 ^ 32 - 1)

/-- Arithmetic, moves and compares (R115 to R123). -/
def arithForms : List ScalForm :=
  let cc : Suffix :=
    { words := coded 16 ["eq", "ne", "lt", "le", "gt", "ge", "ltn", "len", "gtn", "gen", "tst", "tstz"], fld := .d }
  [scalForm "SNOP" 0x00 []] ++
  scalForms 0x01 [.reg .d, .reg .a, .reg .b]
    ["SADD", "SSUB", "SMUL", "SMULH", "SMULHN", "SAND", "SOR", "SXOR", "SSHL", "SSHR", "SSHA", "SMIN", "SMAX", "SMINN",
      "SMAXN"] ++
  scalForms 0x10 [.reg .d, .num .imm16 1 16 (-32768) 65535] ["SADDI", "SMOVI", "SLUI", "SANDI", "SORI"] ++
  scalForms 0x15 [.reg .d, .reg .a, .num .b 1 5 0 31] ["SSHLI", "SSHRI", "SSHAI"] ++
  scalForms 0x18 [.reg .d, .reg .a, .reg .b] ["SADD64", "SSUB64"] ++
  scalForms 0x1A [.reg .d, .reg .a] ["SMOV"] ++
  scalForms 0x1B [.reg .d, .reg .a, .num .b 1 8 0 255] ["SMVXF", "SMVXT"] ++
  [scalForm "SBFX" 0x1D [.reg .d, .reg .a, .num .imm 1 5 0 31, .num .imm 256 6 1 32] [{ words := [("s", 1)], fld := .b }]] ++
  scalForms 0x1E [.reg .d, .reg .a] ["SPOPC", "SCLZ"] ++
  [scalForm "SCMP" 0x20 [.pred .d, .reg .a, .reg .b] [cc.must],
    scalForm "SCMPI" 0x21 [.pred .d, .reg .a, .num .b 1 8 (-128) 127] [cc.must],
    scalForm "SSEL" 0x22 [.reg .d, .reg .a, .reg .imm, .cond .b 1],
    scalForm "SSEL" 0x22 [.reg .d, .reg .a, anyImm, .cond .b 1] [] [(.b, 16)],
    scalForm "QLOP" 0x23 [.pred .d, .pred .a, .pred .b, .num .d 16 4 0 15],
    scalForm "SLDI" 0x24 [.reg .d, anyImm] [{ words := [("64", 1)], fld := .b }]]

/-- Scalar memory, branches and dispatch (R94, R125 to R136). -/
def scalMemForms : List ScalForm :=
  let order : Suffix := { orderG with fld := .b }
  let scope : Suffix := { words := scopeWords 16, fld := .b }
  let prom : Suffix := { words := [("prom", 128)], fld := .b }
  let sub (l : List String) : Suffix := { words := coded 1 l, fld := .b }
  let dao : List SPlace := [.reg .d, .reg .a, offImm]
  let jump : List SPlace := [.target .off20 20]
  let args : List SPlace := [.block, .reg .a, .num .b 1 4 1 8]
  [scalForm "SLD" 0x30 dao [sub ["b32", "n8", "n16"], order, scope, prom], scalForm "SLD64" 0x31 dao [order, scope, prom],
    scalForm "SST" 0x32 dao [sub ["b32", "b8", "b16"], order, scope], scalForm "SST64" 0x33 dao [order, scope],
    scalForm "SATOM" 0x34 dao [(sub ["add", "exch", "and", "or"]).must, order, scope, prom],
    scalForm "SCAS" 0x35 dao [order, scope, prom], scalForm "SPFX" 0x36 dao [(sub ["pf", "wb", "inv"]).must, scope],
    scalForm "SFNC" 0x37 [] [order.must, { scope with need := some .e103 }, prom],
    scalForm "SBR" 0x40 jump [] [(.d, 0x70)], scalForm "SBR" 0x40 (.cond .d 16 :: jump),
    scalForm "SCALL" 0x41 jump [] [(.d, 0x70)], scalForm "SCALL" 0x41 (.cond .d 16 :: jump), scalForm "SRET" 0x42 [],
    scalForm "SJMPR" 0x43 [.reg .a], scalForm "SLOOP" 0x44 [.reg .d, .target .imm16 16],
    scalForm "LGO" 0x50 [.block], scalForm "LGO" 0x50 args, scalForm "LWAIT" 0x51 [],
    scalForm "LGOT" 0x52 [.block], scalForm "LGOT" 0x52 args]

/-- A command with each of its completion modes (R285). -/
def modeForms (name : String) (op : Nat) (places : List SPlace) (mods : List Suffix) : List ScalForm :=
  let mode (w : String) (n : Nat) : Suffix := { words := [(w, n)], fld := .b, need := some .e102 }
  [scalForm name op places mods, scalForm name op (places ++ [.target .imm 32]) (mode "yield" 1 :: mods),
    scalForm name op (places ++ [natImm]) (mode "bar" 2 :: mods), scalForm name op (places ++ [natImm]) (mode "task" 3 :: mods)]

/-- Engine commands (R289 to R309). The granules that SUB can hold are written; R289 allows 0 to 11. -/
def engineForms : List ScalForm :=
  let gran : Suffix :=
    { words := coded 8 ["g0", "g1", "g2", "g3", "g4", "g5", "g6", "g7", "g8", "g9", "g10", "g11", "g12", "g13", "g14", "g15"],
      fld := .b }
  modeForms "CPY" 0x60 [.reg .a] [gran] ++ [scalForm "CPYM" 0x61 [.reg .a, .reg .imm] [gran]] ++
  modeForms "GATH" 0x62 [.reg .a] [gran] ++ modeForms "SCAT" 0x63 [.reg .a] [gran] ++
  modeForms "MCAST" 0x64 [.reg .a] [gran] ++ scalForms 0x68 [.reg .a] ["MMAC", "MZRO", "MACC"] ++
  [scalForm "MFNC" 0x6B [.reg .d], scalForm "MWAIT" 0x6C [.num .imm 1 16 0 65535],
    scalForm "MWAIT" 0x6C [.reg .imm] [{ words := [("r", 1)], fld := .b : Suffix }.must]] ++
  modeForms "MSND" 0x70 [.reg .d, .reg .a] [] ++ modeForms "MPST" 0x71 [.reg .d, .reg .a] [] ++
  [scalForm "MPRB" 0x72 [.reg .d, .reg .a], scalForm "RCFNC" 0x74 []]

/-- Bundle, synchronisation, scheduling and system instructions (R96). -/
def systemForms : List ScalForm :=
  [scalForm "BDECL" 0x80 [.reg .d, .reg .a, offImm], scalForm "BENTER" 0x81 [.reg .a],
    scalForm "BENTER" 0x81 [.reg .a, .target .imm 32] [{ words := [("yield", 1)], fld := .b : Suffix }.must],
    scalForm "BLEAVE" 0x82 [], scalForm "BQRY" 0x83 [.reg .d, .reg .a], scalForm "BFREE" 0x84 [.reg .d, .reg .a],
    scalForm "BAR" 0x90 [natImm] [{ words := [("team", 1), ("block", 2)], fld := .b : Suffix }.must],
    scalForm "BARP" 0x91 [.reg .a, natImm], scalForm "BARA" 0x92 [.reg .a, natImm],
    scalForm "BARW" 0x93 [.reg .d, .reg .a, natImm]] ++
  scalForms 0x94 [.num .imm16 1 16 0 255] ["EVSET", "EVCLR", "EVWAIT"] ++
  [scalForm "LAUNCH" 0x98 [.reg .d, .reg .a, offImm], scalForm "TSIG" 0x99 [natImm],
    scalForm "JRAISE" 0x9A [.reg .d, .reg .a, offImm], scalForm "JDONE" 0x9B [.reg .a, offImm], scalForm "YIELD" 0x9C [],
    scalForm "SLEEPNS" 0x9D [.reg .a], scalForm "WAITNS" 0x9E [.reg .a], scalForm "PPT" 0x9F [.num .imm16 1 16 0 15],
    scalForm "SRDS" 0xC0 [.reg .d, .special], scalForm "SWRS" 0xC1 [.special, .reg .b],
    scalForm "TRAP" 0xC2 [.num .imm16 1 16 0 65535]] ++
  scalForms 0xC3 [] ["TRET", "BKPT", "EXIT"]

/-- The forms of the scalar instructions (R95). -/
def allScalForms : List ScalForm := arithForms ++ scalMemForms ++ engineForms ++ systemForms

/-! ## From a written instruction to the instruction -/

/-- How far a form matched before it failed: modifiers, number of operands, kinds of operands, values. -/
abbrev Missed := Nat × Diag

/-- The failure of an operand: E103 comes before the failures of values. -/
def missOp {α : Type} : Except Diag α → Except Missed α
  | .ok a => .ok a
  | .error .e103 => .error (3, .e103)
  | .error d => .error (4, d)

/-- The first form that matches, or the failure of the form that matched furthest; a mnemonic without a form is E101. -/
def firstMatch {α : Type} : List (Except Missed α) → Missed → Except Diag α
  | [], m => .error m.2
  | .ok a :: _, _ => .ok a
  | .error e :: r, m => firstMatch r (if m.1 < e.1 then e else m)

/-- Puts a value into a field of a lane word: an operand field takes it, another field adds it. -/
def laneFld (f : LFields) (x : Fld) (v : Nat) : LFields :=
  match x with
  | .sub => { f with sub := f.sub + v }
  | .typ => { f with typ := f.typ + v }
  | .rnd => { f with rnd := f.rnd + v }
  | .sat => { f with sat := f.sat + v }
  | .nf => { f with nf := f.nf + v }
  | .sw => { f with sw := f.sw + v }
  | .rg => { f with rg := f.rg + v }
  | .ch => { f with ch := f.ch + v }
  | .xt => { f with xt := f.xt + v }
  | .a => { f with a := v }
  | .b => { f with b := v }
  | .c => { f with c := v }
  | .d => { f with d := v }
  | .e => { f with e := v }
  | .imm | .imm16 | .off20 => f

/-- Puts a 22-bit offset into a pair of fields (R83). -/
def laneFldPair (f : LFields) (lo hi : Fld) (v : Int) : LFields :=
  laneFld (laneFld f lo (field 22 v % 2048)) hi (field 22 v / 2048)

/-- Puts a lane operand into its place. -/
def LPlace.put (env : SymTbl) (pc : Nat) (f : LFields) (p : LPlace) (o : OpSrc) : Except Missed LFields :=
  match p with
  | .opnd x => (missOp (o.laneCode env)).map (laneFld f x)
  | .target lo hi =>
    match missOp (o.offTo env .lane pc) with
    | .error e => .error e
    | .ok v => if off22 v then .ok (laneFldPair f lo hi v) else .error (4, .e108)
  | .offset => (missOp (o.within env (-(2 ^ 21)) (2 ^ 21 - 1))).map (laneFldPair f .d .e)
  | .lit => (missOp (o.within env 0 2047)).map fun v => laneFld f .b v.toNat
  | .table => (missOp (o.within env 0 15)).map fun v => laneFld f .sub v.toNat

/-- Puts lane operands into their places, one for one. -/
def putLane (env : SymTbl) (pc : Nat) : LFields → List LPlace → List OpSrc → Except Missed LFields
  | f, [], [] => .ok f
  | f, p :: ps, o :: os => (p.put env pc f o).bind fun f => putLane env pc f ps os
  | _, _, _ => .error (2, .e103)

/-- A lane word with an opcode and nothing else (R78, R79). -/
def bareFields (op sub : Nat) : LFields :=
  { op := op, sub := sub, typ := 0, rnd := 0, sat := 0, nf := 0, sw := 0, rg := 0, ch := 0, gc := 0, gq := 7, gp := 7, xt := 0,
    e := 0x7FF, d := 0x7FF, c := 0x7FF, b := 0x7FF, a := 0x7FF }

/-- Does the first type modifier suit the form? -/
def LaneForm.typesOk (t : LaneForm) (ws : List SymName) : Bool :=
  match ws.find? fun w => (intWords ++ fltWords).any fun e => e.1.toList == w with
  | some w => t.firstType.isEmpty || t.firstType.any fun e => e.toList == w
  | none => true

/-- The instruction that a form gives: a word that fails check 3 of R98 is E102, a guard where none may stand E107. -/
def LaneForm.build (t : LaneForm) (env : SymTbl) (pc : Nat) (i : InsSrc) : Except Missed Instr :=
  match modVals t.mods i.mods with
  | .error d => .error (1, d)
  | .ok vs =>
    if !t.typesOk i.mods then .error (1, .e102)
    else if i.ops.length != t.places.length then .error (2, .e103)
    else
      match putLane env pc (vs.foldl (fun f e => laneFld f e.1 e.2) (bareFields t.op t.sub)) t.places i.ops with
      | .error e => .error e
      | .ok f =>
        if i.guard.isSome && !t.guard then .error (4, .e107)
        else
          let g := i.guard.getD (7, 7, false)
          match laneCandidate { f with gp := g.1, gq := g.2.1, gc := g.2.2.toNat } with
          | none => .error (4, .e102)
          | some j => .ok j

/-- The lane instruction at a word that is written in some way. -/
def InsSrc.lane (i : InsSrc) (env : SymTbl) (pc : Nat) : Except Diag Instr :=
  firstMatch ((allLaneForms.filter fun t => t.name.toList == i.mnem).map fun t => t.build env pc i) (0, .e101)

/-- Adds a value to a field of a scalar word. -/
def scalFld (f : SFields) (x : Fld) (v : Nat) : SFields :=
  match x with
  | .d => { f with d := f.d + v }
  | .a => { f with a := f.a + v }
  | .b => { f with b := f.b + v }
  | .imm => { f with imm := f.imm + v }
  | .imm16 => { f with a := f.a + v / 256, b := f.b + v % 256 }
  | .off20 => { f with d := f.d + v / 65536, a := f.a + v / 256 % 256, b := f.b + v % 256 }
  | _ => f

/-- Puts a scalar operand into its place. -/
def SPlace.put (env : SymTbl) (pc : Nat) (f : SFields) (p : SPlace) (o : OpSrc) : Except Missed SFields :=
  match p, o with
  | .reg x, .reg .s n => if n < 256 then .ok (scalFld f x n) else .error (3, .e103)
  | .pred x, .reg .q n => if n < 8 then .ok (scalFld f x n) else .error (3, .e103)
  | .cond x m, .cond inv n => if n < 8 then .ok (scalFld f x (m * (n + 8 * inv.toNat))) else .error (3, .e103)
  | .num x m bits lo hi, o => (missOp (o.within env lo hi)).map fun v => scalFld f x (m * field bits v)
  | .target x bits, o =>
    match missOp (o.offTo env .scalar pc) with
    | .error e => .error e
    | .ok v =>
      if -(2 ^ (bits - 1) : Nat) ≤ v && v < (2 ^ (bits - 1) : Nat) then .ok (scalFld f x (field bits v)) else .error (4, .e108)
  | .block, o => (missOp (o.offTo env .lane 0)).map fun v => scalFld f .imm v.toNat
  | .special, .special n => if n < 28 then .ok (scalFld f .a n) else .error (3, .e103)
  | _, _ => .error (3, .e103)

/-- Puts scalar operands into their places, one for one. -/
def putScal (env : SymTbl) (pc : Nat) : SFields → List SPlace → List OpSrc → Except Missed SFields
  | f, [], [] => .ok f
  | f, p :: ps, o :: os => (p.put env pc f o).bind fun f => putScal env pc f ps os
  | _, _, _ => .error (2, .e103)

/-- The instruction that a form gives. -/
def ScalForm.build (t : ScalForm) (env : SymTbl) (pc : Nat) (i : InsSrc) : Except Missed Instr :=
  match modVals t.mods i.mods with
  | .error d => .error (1, d)
  | .ok vs =>
    if i.ops.length != t.places.length then .error (2, .e103)
    else
      match putScal env pc ((t.base ++ vs).foldl (fun f e => scalFld f e.1 e.2) ⟨t.op, 0, 0, 0, 0⟩) t.places i.ops with
      | .error e => .error e
      | .ok f =>
        match scalarCandidate f with
        | none => .error (4, .e102)
        | some j => .ok j

/-- The scalar instruction at a word that is written in some way: it takes no guard (R114). -/
def InsSrc.scalar (i : InsSrc) (env : SymTbl) (pc : Nat) : Except Diag Instr :=
  let l := allScalForms.filter fun t => t.name.toList == i.mnem
  if i.guard.isSome && !l.isEmpty then .error .e103
  else firstMatch (l.map fun t => t.build env pc i) (0, .e101)

/-- Is a field of the form the base of an operand block (R97, R235)? -/
def ScalForm.isBlock (t : ScalForm) (x : Fld) : Bool :=
  ((0x60 ≤ t.op && t.op ≤ 0x72) || t.op == 0x81) && (x == .a || (t.op == 0x61 && x == .imm))

/-- Is an operand a register or a tile beyond the allocation? a4 to a7 always are (R108). -/
def OpSrc.unallocated (m : Meta) : OpSrc → Bool
  | .reg .v n => decide (m.vregs ≤ n)
  | .reg .s n => decide (m.sregs ≤ n)
  | .reg .a n => decide (m.tiles ≤ n) || decide (4 ≤ n)
  | _ => false

/-- The code for a register in a place of a scalar form that does not take it: the base of a block lies above s248, and another
register, of a lane or a tile too, may be beyond the allocation (R108). -/
def ScalForm.highReg (t : ScalForm) (m : Meta) (ops : List OpSrc) : Option Diag :=
  if ops.length != t.places.length then none
  else (t.places.zip ops).findSome? fun e =>
    match e with
    | (.reg x, .reg .s n) => if 256 ≤ n && t.isBlock x then some .e201 else if e.2.unallocated m then some .e105 else none
    | (_, o) => if o.unallocated m then some .e105 else none

/-- The lane instruction at a word, in a kernel with some metadata: an operand beyond the allocation is E105 in a place that
takes no register too (R108). -/
def InsSrc.laneIn (i : InsSrc) (m : Meta) (env : SymTbl) (pc : Nat) : Except Diag Instr :=
  match i.lane env pc with
  | .error .e103 =>
    .error (if (allLaneForms.any fun t => t.name.toList == i.mnem && t.places.length == i.ops.length) &&
      i.ops.any (·.unallocated m) then .e105 else .e103)
  | r => r

/-- The scalar instruction at a word, in a kernel with some metadata. -/
def InsSrc.scalarIn (i : InsSrc) (m : Meta) (env : SymTbl) (pc : Nat) : Except Diag Instr :=
  match i.scalar env pc with
  | .error .e103 =>
    .error (((allScalForms.filter fun t => t.name.toList == i.mnem).findSome? fun t => t.highReg m i.ops).getD .e103)
  | r => r

/-- The instruction of a section at a word. -/
def InsSrc.inSect (i : InsSrc) (s : Sect) (m : Meta) (env : SymTbl) (pc : Nat) : Except Diag Instr :=
  match s with
  | .lane => i.laneIn m env pc
  | _ => i.scalarIn m env pc

/-- The section that a mnemonic belongs to. -/
def InsSrc.sect (i : InsSrc) : Sect := if (allLaneForms.any fun t => t.name.toList == i.mnem) then .lane else .scalar

/-- Does the instruction have a diagnostic of its form or of its word (R100)? -/
def InsSrc.has (d : Diag) (i : InsSrc) (s : Sect) (m : Meta) (env : SymTbl) : Bool :=
  match i.inSect s m env 0 with
  | .error e => e == d
  | .ok j => (wordDiag m 1 j).contains d

/-- The modifiers of one kind with a modifier, in the forms of a mnemonic. -/
def likeMods (mnem w : SymName) : List SymName :=
  ((allLaneForms.filter fun t => t.name.toList == mnem).flatMap (·.mods) ++
    (allScalForms.filter fun t => t.name.toList == mnem).flatMap (·.mods)).flatMap fun g =>
      if g.words.any fun e => e.1.toList == w then g.words.map (·.1.toList) else []

/-- The modifier that is at fault in a line with E102: one that the mnemonic does not have, else the last without which the line
has no E102, else the last with another of whose kind in its place it has none. -/
def InsSrc.badMod (i : InsSrc) (s : Sect) (m : Meta) (env : SymTbl) : Option SymName :=
  let ws := ((List.range i.mods.length).zip i.mods).reverse
  let fine (l : List SymName) : Bool := !InsSrc.has .e102 { i with mods := l } s m env
  (i.mods.find? fun w => (likeMods i.mnem w).isEmpty) <|>
    (ws.find? fun e => fine (i.mods.eraseIdx e.1)).map (·.2) <|>
    (ws.find? fun e => (likeMods i.mnem e.2).any fun x => fine (i.mods.set e.1 x)).map (·.2)

/-- The operand that is out of range or not exact, by its place and its value: the first for which the line has E104 with 0 in
place of every other value. -/
def InsSrc.badValue (i : InsSrc) (s : Sect) (m : Meta) (env : SymTbl) : Option (Nat × Int) :=
  let zero (k : Nat) (e : Nat × OpSrc) : OpSrc :=
    match e.2 with
    | .expr (.name n) => .expr (.name n)
    | .expr x => if e.1 == k then .expr x else .expr (.num 0)
    | o => o
  let ops := (List.range i.ops.length).zip i.ops
  ops.findSome? fun (k, o) =>
    match o with
    | .expr x =>
      if InsSrc.has .e104 { i with ops := ops.map (zero k) } s m env then (x.const env).toOption.map fun v => (k, v) else none
    | _ => none

/-- Is the k-th operand of a lane instruction an operand code, in which an immediate lies in −63 to +63 (R103)? -/
def InsSrc.immPlace (i : InsSrc) (k : Nat) : Bool :=
  allLaneForms.any fun t => t.name.toList == i.mnem && t.places.length == i.ops.length &&
    (match t.places[k]? with
      | some (.opnd _) => true
      | _ => false)

/-- The scalar words that a mnemonic takes (R95). -/
def scalWords (m : SymName) : Except Diag Nat :=
  match allScalForms.find? fun t => t.name.toList == m with
  | none => .error .e101
  | some t => .ok (if isSX t.op then 2 else 1)

/-- A name that no symbol may have: a mnemonic's or a register's (R101). -/
def reserved (n : SymName) : Bool :=
  let u := n.map upper
  allLaneForms.any (fun t => t.name.toList == u) || allScalForms.any (fun t => t.name.toList == u) || (regOf n).isSome

/-- The modifiers of a written instruction in the order in which a listing prints them (R104): the words that stand, kind by
kind, and `.sw` where it has been set. -/
def InsSrc.modsListed (i : InsSrc) (s : Sect) (sw : Bool) : List SymName :=
  let ws := if sw && !i.mods.contains ['s', 'w'] then i.mods ++ [['s', 'w']] else i.mods
  let kinds : List (List Suffix) := match s with
    | .lane => (allLaneForms.filter fun t => t.name.toList == i.mnem && t.typesOk ws).map (·.mods)
    | _ => (allScalForms.filter fun t => t.name.toList == i.mnem).map (·.mods)
  match kinds.filterMap fun gs => fillMods ws (gs.map fun g => (g, none)) with
  | [] => ws
  | t :: _ => t.filterMap fun e => e.2.bind fun v => (e.1.words.find? fun w => w.2 == v).map (·.1.toList)

end Sys2Proof.Machine
end

