-- ==== Sys2Proof/Machine/Assembler.lean ====
section
/-! DEFINITION. The assembler `priex` from the lines of a kernel to its image (R99 to R113): directives, tensor
records, label values, the two passes, the checks, the Ebeocen image, and the loader's relocations. Log 68 names what it takes
where the rules leave a choice. -/
namespace Sys2Proof.Machine

/-! ## Decimal values (R105) -/

/-- The decimal value (−1)^neg · m / 10^d rounded to a format in RN, and whether that is inexact. -/
def decimalVal (f : FFmt) (neg : Bool) (m d : Nat) : Nat × Bool :=
  let k := 200 + 4 * d
  let q := m * 2 ^ k / 10 ^ d
  let x : XVal := if m * 2 ^ k % 10 ^ d = 0 then .fin neg q (-k) else .above neg q (-k)
  let r := roundX f .rn 0 0 x
  (f.encode r.v, bit r.flags 0)

/-! ## Tensor records (R106, R278) -/

/-- The operands of `.record`, with their defaults filled in. -/
structure RecSrc where
  base : Expr
  scale : Expr
  ext : List Expr
  step : List Expr
  fmt : Nat
  blk : Expr
  permit : Bool
  indexed : Bool
  segrows : Expr
  key : Expr
  r : Bool
  w : Bool
  nsub : Expr
  deriving DecidableEq, Repr

/-- The first failure of a list of parts, or all of them. -/
def allOk {ε α : Type} : List (Except ε α) → Except ε (List α)
  | [] => .ok []
  | .error d :: _ => .error d
  | .ok a :: r => (allOk r).map (a :: ·)

/-- The 64 bytes of a record, and the offsets in it that take a relocation. -/
def RecSrc.bytes (env : SymTbl) (x : RecSrc) : Except Diag (List Byte × List Nat) :=
  match x.base.addr env, x.scale.addr env,
      allOk (x.ext.map (Expr.within env 1 (2 ^ 32 - 1))), allOk (x.step.map (Expr.within env 0 (2 ^ 32 - 1))),
      allOk [x.blk.const env, x.segrows.within env 0 65535, x.key.within env 0 65535, x.nsub.within env 0 (2 ^ 32 - 1)] with
  | .ok (b, rb), .ok (c, rc), .ok ext, .ok step, .ok [blk, seg, key, nsub] =>
    if ext.length != 4 || step.length != 3 || x.fmt > 9 || !([0, 16, 32].contains blk) then .error .e104
    else
      let fmt := x.fmt + 16 * (blk.toNat / 16) + 256 * x.permit.toNat + 512 * x.indexed.toNat + 65536 * seg.toNat
      .ok (leBytes 8 b ++ leBytes 8 c ++ (ext ++ step).flatMap (fun v => leBytes 4 v.toNat) ++ leBytes 4 fmt ++
          leBytes 4 (key.toNat + 65536 * x.r.toNat + 131072 * x.w.toNat) ++ leBytes 4 nsub.toNat ++ leBytes 8 0,
        (if rb then [0] else []) ++ if rc then [8] else [])
  | .error d, _, _, _, _ => .error d
  | _, .error d, _, _, _ => .error d
  | _, _, .error d, _, _ => .error d
  | _, _, _, .error d, _ => .error d
  | _, _, _, _, .error d => .error d
  | _, _, _, _, _ => .error .e104

/-! ## Lines -/

/-- The directives that set metadata (R105). -/
inductive MetaKey where
  | groupSize | vregs | sregs | tiles | scratch | producer | generator | restartable
  deriving DecidableEq, Repr

/-- A line of a kernel: a label, one directive or one instruction. -/
inductive Line where
  | kernel (name : SymName)
  | done
  | sect (s : Sect)
  | label (n : SymName)
  | md (k : MetaKey) (e : Expr)
  /-- `.word`, `.half`, `.byte` by their bytes -/
  | words (bytes : Nat) (vals : List Expr)
  /-- `.f32`, or with `bf` `.bf16`: sign, digits and decimal places -/
  | decimals (bf : Bool) (vals : List (Bool × Nat × Nat))
  /-- `.addr`, with the label on its line if there is one -/
  | addr (lab : Option SymName) (e : Expr)
  | align (e : Expr)
  | equ (n : SymName) (e : Expr)
  | global (n : SymName)
  | record (n : SymName) (x : RecSrc)
  | ins (i : InsSrc)
  deriving DecidableEq, Repr

/-- Is the value of a metadata directive in its range (R105)? -/
def mdOk (k : MetaKey) (v : Int) : Bool :=
  match k with
  | .groupSize => [4, 8, 16, 32].contains v
  | .vregs => decide (32 ≤ v) && decide (v ≤ 512) && v % 32 == 0
  | .sregs => decide (64 ≤ v) && decide (v ≤ 1024) && v % 64 == 0
  | .tiles => decide (0 ≤ v) && decide (v ≤ 4)
  | .scratch => decide (0 ≤ v) && decide (v ≤ 524288)
  | .producer => decide (0 ≤ v) && decide (v ≤ 63)
  | .generator | .restartable => true

/-- The metadata with one directive's value. -/
def mdPut (m : Meta) (k : MetaKey) (v : Nat) : Meta :=
  match k with
  | .groupSize => { m with size := v }
  | .vregs => { m with vregs := v }
  | .sregs => { m with sregs := v }
  | .tiles => { m with tiles := v }
  | .scratch => { m with scratch := v }
  | .producer => { m with producer := some v }
  | .generator => { m with gen := true }
  | .restartable => { m with restart := true }

/-- The metadata of a kernel that sets none (R105). -/
def mdDefault : Meta :=
  { size := 32, vregs := 32, sregs := 64, tiles := 0, gen := false, producer := none, restart := false, scratch := 0 }

/-! ## The two passes -/

/-- An image (R112, R113): symbols with their kind, and relocations as section number and offset or entry. -/
structure Image where
  name : SymName
  info : Meta
  scalar : List (Nat × Instr)
  lane : List Instr
  const : List Word
  data : List Byte
  syms : List (SymName × Nat × Nat)
  relocs : List (Nat × Nat)
  deriving DecidableEq, Repr

/-- The assembler between two lines. `values` is false in the first pass, which only places things; `num` is the number of
the line, and `laneAt` and `scalAt` are those of the instructions so far. -/
structure Asm where
  values : Bool
  num : Nat
  laneAt : List Nat
  scalAt : List Nat
  started : Bool
  ended : Bool
  cur : Option Sect
  /-- the metadata of the kernel, as the first pass has found them -/
  info : Meta
  sWords : Nat
  seen : List MetaKey
  names : SymTbl
  /-- the names of `.global`, with the numbers of their lines -/
  globals : List (SymName × Nat)
  out : Image
  warn : List (Nat × Diag)
  deriving DecidableEq, Repr

/-- Before the first line of a pass. -/
def Asm.init (values : Bool) (names : SymTbl) (info : Meta) : Asm :=
  { values := values, num := 0, laneAt := [], scalAt := [], started := false, ended := false, cur := none,
    info := info, sWords := 0, seen := [], names := names, globals := [],
    out := { name := [], info := mdDefault, scalar := [], lane := [], const := [], data := [], syms := [], relocs := [] },
    warn := [] }

/-- The value that a label has where the next line of a section goes (R101). -/
def Asm.here (a : Asm) (s : Sect) : Nat :=
  match s with
  | .scalar => a.sWords
  | .lane => a.out.lane.length
  | .data => a.out.data.length
  | .const => a.out.const.length

/-- Defines a name in the first pass: one that stands already is E109. -/
def Asm.define (a : Asm) (n : SymName) (v : SymVal) : Except Diag Asm :=
  if a.values then .ok a
  else if (a.names.any fun e => e.1 == n) || n.isEmpty || reserved n then .error .e109
  else .ok { a with names := a.names ++ [(n, v)] }

/-- Puts bytes into `.data`. -/
def Asm.putData (a : Asm) (l : List Byte) : Asm := { a with out := { a.out with data := a.out.data ++ l } }

/-- Puts entries into `.const`: more than 256 are E402 (R105). -/
def Asm.putConst (a : Asm) (l : List Word) : Except Diag Asm :=
  if a.out.const.length + l.length > 256 then .error .e402
  else .ok { a with out := { a.out with const := a.out.const ++ l } }

/-- A value in the second pass; the first takes 0. -/
def Asm.value {α : Type} (a : Asm) (zero : α) (v : Except Diag α) : Except Diag α := if a.values then v else .ok zero

/-- Values of a data directive, each of some bytes. -/
def Asm.putVals (a : Asm) (bytes : Nat) (vals : List Nat) : Except Diag Asm :=
  match a.cur with
  | some .data => .ok (a.putData (vals.flatMap (leBytes bytes)))
  | some .const => if bytes = 4 then a.putConst (vals.map (BitVec.ofNat 32)) else .error .e402
  | _ => .error .e402

/-- One line (R101, R105, R106): anything before `.kernel` or after `.end`, and a line outside its section, is E402. DESIGN
CHOICE (log 68): the operands of `.equ`, `.align` and the metadata directives are evaluated where they stand, so a name that
is defined only later is E109 there. -/
def Asm.line (a : Asm) (l : Line) : Except Diag Asm :=
  if a.ended then .error .e402
  else if !a.started && (match l with
      | .kernel _ => false
      | _ => true) then .error .e402
  else
    match l with
    | .kernel n =>
      if a.started then .error .e402
      else if reserved n then .error .e109
      else .ok { a with started := true, out := { a.out with name := n } }
    | .done => .ok { a with ended := true }
    | .sect s => .ok { a with cur := some s }
    | .label n =>
      match a.cur with
      | none => .error .e402
      | some s => a.define n ⟨some s, a.here s⟩
    | .md k e =>
      if a.seen.contains k then .error .e401
      else
        match e.const a.names with
        | .error d => .error d
        | .ok v =>
          if mdOk k v then .ok { a with seen := k :: a.seen, out := { a.out with info := mdPut a.out.info k v.toNat } }
          else .error .e401
    | .equ n e =>
      match e.const a.names with
      | .error d => .error d
      | .ok v => a.define n ⟨none, v⟩
    | .global n => .ok { a with globals := a.globals ++ [(n, a.num)] }
    | .words b vals =>
      (a.value (vals.map fun _ => 0) (allOk (vals.map fun e => (e.within a.names (-(2 ^ (8 * b - 1) : Nat))
        (2 ^ (8 * b) - 1)).map (wrapTo (8 * b))))).bind (a.putVals b)
    | .decimals bf vals =>
      if bf && a.cur != some .data then .error .e402
      else
        let f := if bf then bf16 else fp32
        let vs := vals.map fun (n, m, d) => decimalVal f n m d
        let a := if a.values then { a with warn := a.warn ++ (vs.filter (·.2)).map fun _ => (a.num, .w105) } else a
        a.putVals (if bf then 2 else 4) (vs.map (·.1))
    | .addr lab e =>
      let odd : Bool := a.cur == some .const && a.out.const.length % 2 == 1
      let lab' (a : Asm) (s : Sect) : Except Diag Asm :=
        match lab with
        | none => .ok a
        | some n => a.define n ⟨some s, a.here s + odd.toNat⟩
      match a.value (0, false) (e.addr a.names) with
      | .error d => .error d
      | .ok (v, r) =>
        let note (a : Asm) (s i : Nat) : Asm :=
          if r then { a with out := { a.out with relocs := a.out.relocs ++ [(s, i)] } } else a
        match a.cur with
        | some .data => (lab' a .data).map fun a => (note a 3 a.out.data.length).putData (leBytes 8 v)
        | some .const =>
          (lab' a .const).bind fun a => (note a 2 (a.out.const.length + odd.toNat)).putConst
            (List.replicate odd.toNat 0 ++ [BitVec.ofNat 32 v, BitVec.ofNat 32 (v / 2 ^ 32)])
        | _ => .error .e402
    | .align e =>
      if a.cur != some .data then .error .e402
      else
        match e.within a.names 1 4096 with
        | .error d => .error d
        | .ok v =>
          let n := v.toNat
          if 4096 % n != 0 then .error .e104
          else .ok (a.putData (List.replicate ((n - a.out.data.length % n) % n) 0))
    | .record n x =>
      if a.cur != some .data then .error .e402
      else
        let a := a.putData (List.replicate ((64 - a.out.data.length % 64) % 64) 0)
        let at' := a.out.data.length
        match a.define n ⟨some .data, at'⟩, a.value (List.replicate 64 0, []) (x.bytes a.names) with
        | .ok a, .ok (bs, rel) =>
          .ok ({ a with out := { a.out with relocs := a.out.relocs ++ rel.map fun o => (3, at' + o) } }.putData bs)
        | .error d, _ => .error d
        | _, .error d => .error d
    | .ins i =>
      match a.cur with
      | some .scalar =>
        match scalWords i.mnem, a.value .snop (i.scalarIn a.info a.names a.sWords) with
        | .error d, _ => .error d
        | _, .error d => .error d
        | .ok n, .ok j =>
          let out := { a.out with scalar := a.out.scalar ++ [(a.sWords, j)] }
          .ok { a with sWords := a.sWords + n, scalAt := a.scalAt ++ [a.num], out := out }
      | some .lane =>
        (a.value (.nop ⟨false, false, false, 7, 7⟩) (i.laneIn a.info a.names a.out.lane.length)).map fun j =>
          { a with laneAt := a.laneAt ++ [a.num], out := { a.out with lane := a.out.lane ++ [j] } }
      | _ => .error .e402

/-- The lines in order, up to the first error, with its line's number. -/
def Asm.lines (a : Asm) : List Line → Except (Nat × Diag) Asm
  | [] => .ok a
  | l :: r =>
    match a.line l with
    | .error d => .error (a.num, d)
    | .ok a => Asm.lines { a with num := a.num + 1 } r

/-- A symbol's kind (R113). -/
def symKind : Option Sect → Nat
  | some .scalar => 0
  | some .lane => 1
  | some .data => 2
  | some .const => 3
  | none => 4

/-- The symbol table: the kernel's name, and the names that `.global` lists; an unknown one or one of more than 23 characters
is E109 (R105, R113). DESIGN CHOICE (log 68): the kernel's name has kind 0 and value 0, and is cut to 23 characters. -/
def Asm.symbols (a : Asm) : Except (Nat × Diag) (List (SymName × Nat × Nat)) :=
  (allOk (a.globals.map fun (n, at') =>
    match a.names.find? fun e => e.1 == n with
    | some (_, v) => if n.length ≤ 23 then .ok (n, symKind v.sect, wrapTo 32 v.val) else .error (at', .e109)
    | none => .error (at', .e109))).map fun l => (a.out.name.take 23, 0, 0) :: l

/-- What an assembly gives: the image, its diagnostics with the numbers of their lines, the numbers of the lines that the lane and
the scalar instructions stand on, and what the diagnostics speak of: the names, the metadata and the code. -/
structure AsmResult where
  image : Option Image
  diags : List (Nat × Diag)
  laneAt : List Nat
  scalAt : List Nat
  names : SymTbl
  info : Meta
  code : Option (LaneCode × ScalarCode)
  deriving DecidableEq, Repr

/-- A place in a list, or 0. -/
def nth (l : List Nat) (i : Nat) : Nat := l.getD i 0

/-- The code of an image as the analyses take it. -/
def Image.code (g : Image) (labels : List Nat) : LaneCode × ScalarCode :=
  let starts := (g.scalar.filterMap fun e => match e.2 with
    | .lgo _ _ s | .lgot _ _ s => some s
    | _ => none).eraseDups
  ({ size := g.info.size, code := g.lane, widths := genWidths g.lane, starts := starts, ins := false },
    { code := g.scalar, labels := labels })

/-- The checks of an image whose targets are known (R100, R108 to R111), with the word of each diagnostic. -/
def Image.checks (g : Image) (m : Markers) (labels : List Nat) : Image × List ((Sect × Nat) × Diag) :=
  let l := (g.code labels).1
  let c := (g.code labels).2
  let r := l.markers m
  let lane (p : Nat × Diag) : (Sect × Nat) × Diag := ((.lane, p.1), p.2)
  let scal (p : Nat × Diag) : (Sect × Nat) × Diag := ((.scalar, p.1), p.2)
  ({ g with lane := r.1.code },
    (g.scalar.flatMap fun e => (checkInstr g.info 1 e.2).map fun d => scal (e.1, d)) ++
      ((g.lane.zip (List.range g.lane.length)).flatMap fun (i, pc) => (checkInstr g.info (l.gw pc) i).map fun d => lane (pc, d)) ++
      (l.farTargets ++ l.runsOut ++ r.2).map lane ++ (c.farTargets g.lane.length ++ c.check l).map scal)

/-- The number of the line that a word stands on. -/
def Asm.lineOf (a : Asm) (s : Sect) (w : Nat) : Nat :=
  match s with
  | .lane => nth a.laneAt w
  | _ => nth a.scalAt (a.out.scalar.findIdx fun e => e.1 == w)

/-- The names that `-D` defines before the first line, as `.equ` does (R99). -/
def defined (a : Asm) : List (SymName × Expr) → Except Diag Asm
  | [] => .ok a
  | (n, e) :: r =>
    match e.const a.names with
    | .error d => .error d
    | .ok v => (a.define n ⟨none, v⟩).bind fun a => defined a r

/-- `priex` on the lines of a source: two passes, then the checks. An error suppresses the image, and with `werror` a warning
does too; `defs` are the definitions of `-D` (R99). -/
def assemble (m : Markers) (werror : Bool) (defs : List (SymName × Expr)) (src : List Line) : AsmResult :=
  let fail (n : Nat) (d : Diag) (a : Asm) : AsmResult :=
    { image := none, diags := [(n, d)], laneAt := [], scalAt := [], names := a.names, info := a.out.info, code := none }
  let start := Asm.init false [] mdDefault
  match defined start defs with
  | .error d => fail 0 d start
  | .ok a =>
    match a.lines src with
    | .error e => fail e.1 e.2 a
    | .ok a =>
      if !a.ended then fail src.length .e402 a
      else
        match (Asm.init true a.names a.out.info).lines src, a.symbols with
        | .error e, _ => fail e.1 e.2 a
        | _, .error e => fail e.1 e.2 a
        | .ok b, .ok syms =>
          let labels := a.names.filterMap fun e => if e.2.sect == some .scalar then some e.2.val.toNat else none
          let r := { b.out with syms := syms }.checks m labels
          let ds := b.warn ++ r.2.map fun e => (b.lineOf e.1.1 e.1.2, e.2)
          let bad := ds.any fun e => if e.2 == .n301 then false else werror || !e.2.mild
          { image := if bad then none else some r.1, diags := ds, laneAt := b.laneAt, scalAt := b.scalAt,
            names := a.names, info := a.out.info, code := some (b.out.code labels) }

/-! ## The image (R112, R113) -/

/-- Bytes up to the next multiple of 64. -/
def pad64 (l : List Byte) : List Byte := l ++ List.replicate ((64 - l.length % 64) % 64) 0

/-- The sections of an image as bytes, in their order in the file. -/
def Image.sections (g : Image) : List (List Byte) :=
  [g.scalar.flatMap fun e => (encodeScalar e.2).flatMap (leBytes 4), g.lane.flatMap fun i => leBytes 12 (fieldsOf i).word,
    g.const.flatMap fun w => leBytes 4 w.toNat, g.data,
    g.syms.flatMap fun (n, k, v) =>
      n.map (fun c => BitVec.ofNat 8 c.toNat) ++ List.replicate (24 - n.length) 0 ++ leBytes 4 k ++ leBytes 4 v,
    g.relocs.flatMap fun (s, i) => leBytes 4 i ++ leBytes 4 s]

/-- The file offset at which each of some sections starts. -/
def offsets (start : Nat) : List (List Byte) → List Nat
  | [] => []
  | s :: r => start :: offsets (start + (pad64 s).length) r

/-- The 128-byte header. -/
def Image.header (g : Image) : List Byte :=
  let m := g.info
  let ss := g.sections
  let counts := [(ss.getD 0 []).length, (ss.getD 1 []).length, g.const.length, g.data.length, g.syms.length, g.relocs.length]
  [0x45, 0x42, 0x49, 0x01] ++ leBytes 2 1 ++ leBytes 2 (m.gen.toNat + 2 * m.restart.toNat) ++ leBytes 1 m.size ++
    leBytes 1 m.tiles ++ leBytes 1 (m.producer.getD 255) ++ [0] ++ leBytes 2 m.vregs ++ leBytes 2 m.sregs ++
    leBytes 4 m.scratch ++ leBytes 4 0 ++
    ((offsets 128 ss).zip counts).flatMap (fun (o, n) => leBytes 4 o ++ leBytes 4 n) ++ List.replicate 56 0

/-- Sections one after another, each from a multiple of 64 on. -/
def joined : List (List Byte) → List Byte
  | [] => []
  | [s] => s
  | s :: r => pad64 s ++ joined r

/-- The image file. -/
def Image.bytes (g : Image) : List Byte := g.header ++ joined g.sections

/-- The loader: each field that a relocation names gains the address of the data section. -/
def Image.loaded (g : Image) (base : Nat) : Image :=
  g.relocs.foldl (fun g (s, i) =>
    if s = 3 then { g with data := leSet g.data i 8 (leAt g.data i 8 + base) }
    else
      let v := (g.const.getD i 0).toNat + 2 ^ 32 * (g.const.getD (i + 1) 0).toNat + base
      { g with const := (g.const.set i (BitVec.ofNat 32 v)).set (i + 1) (BitVec.ofNat 32 (v / 2 ^ 32)) }) g

end Sys2Proof.Machine
end

