-- ==== Sys2Proof/Machine/AsmText.lean ====
section
/-! DEFINITION. The text of `priex` (R99, R101 to R107, R111): characters to tokens, expressions, operands, directives and
instructions; macros and included files; diagnostics with their places; the listing; and a whole run of `priex`. -/
namespace Sys2Proof.Machine

/-- Characters of the source. -/
abbrev Text := List Char

/-! ## Characters and words (R101) -/

/-- White space within a line. -/
def isSpace (c : Char) : Bool := c == ' ' || c == '\t' || c == '\r'

/-- A character of a name: a letter, a digit, `_` or `.`. -/
def isNameChar (c : Char) : Bool :=
  isDigit c || (97 ≤ (lower c).toNat && (lower c).toNat ≤ 122) || c == '_' || c == '.'

/-- A name does not begin with a digit. -/
def isName (t : Text) : Bool :=
  match t with
  | [] => false
  | c :: _ => !isDigit c && t.all isNameChar

/-- Without white space before it and after it. -/
def trim (t : Text) : Text := ((t.dropWhile isSpace).reverse.dropWhile isSpace).reverse

/-- The first word of a text and what follows it. -/
def cutWord (t : Text) : Text × Text :=
  let s := trim t
  (s.takeWhile fun c => !isSpace c, trim (s.dropWhile fun c => !isSpace c))

/-- A line without its comment. -/
def uncomment : Text → Text
  | [] => []
  | c :: r => if c == ';' || (c == '/' && r.head? == some '/') then [] else c :: uncomment r

/-- Parts between separators outside parentheses: `depth` is how many are open, `cur` the part so far, backwards. -/
def cutAt (sep : Char) : Nat → Text → Text → List Text
  | _, cur, [] => [cur.reverse]
  | depth, cur, c :: r =>
    if c == sep && depth == 0 then cur.reverse :: cutAt sep 0 [] r
    else cutAt sep (if c == '(' then depth + 1 else if c == ')' then depth - 1 else depth) (c :: cur) r

/-- Operands between commas: none for an empty text. -/
def operandsOf (t : Text) : List Text := if (trim t).isEmpty then [] else (cutAt ',' 0 [] t).map trim

/-- The lines of a file. -/
def textLines : Text → Text → List Text
  | cur, [] => [cur.reverse]
  | cur, c :: r => if c == '\n' then cur.reverse :: textLines [] r else textLines (c :: cur) r

/-! ## Expressions (R101, R102) -/

/-- The value of a digit in a base, if it is one. -/
def digitOf (base : Nat) (c : Char) : Option Nat :=
  let n := (lower c).toNat
  let v := if isDigit c then n - 48 else if 97 ≤ n && n ≤ 122 then n - 87 else base
  if v < base then some v else none

/-- Digits of a base, with underscores only between digits. -/
def digits (base : Nat) (t : Text) : Option Nat :=
  let ds := t.filter (· != '_')
  if ds.isEmpty || t.head? == some '_' || t.getLast? == some '_' then none
  else ds.foldl (fun n c => n.bind fun n => (digitOf base c).map fun v => base * n + v) (some 0)

/-- A number: decimal, hexadecimal or binary. -/
def numberOf : Text → Option Nat
  | '0' :: x :: r =>
    if lower x == 'x' then digits 16 r else if lower x == 'b' then digits 2 r else digits 10 ('0' :: x :: r)
  | t => digits 10 t

/-- A token of an expression; `<<` is the operator `<` and `>>` is `>`. -/
inductive Tok where
  | num (n : Nat)
  | name (n : SymName)
  | op (c : Char)
  deriving DecidableEq, Repr

/-- The tokens of a text; `n` bounds how many. -/
def tokens : Nat → Text → Option (List Tok)
  | _, [] => some []
  | 0, _ => none
  | n + 1, c :: r =>
    if isSpace c then tokens n r
    else if isDigit c then
      (numberOf (c :: r.takeWhile isNameChar)).bind fun v => (tokens n (r.dropWhile isNameChar)).map (.num v :: ·)
    else if isNameChar c then (tokens n (r.dropWhile isNameChar)).map (.name (c :: r.takeWhile isNameChar) :: ·)
    else if c == '<' || c == '>' then
      match r with
      | d :: r => if d == c then (tokens n r).map (.op c :: ·) else none
      | [] => none
    else if ['-', '~', '*', '/', '%', '+', '&', '^', '|', '(', ')'].contains c then (tokens n r).map (.op c :: ·)
    else none

/-- A binary operator with its level in R102's table. -/
def opLevel (c : Char) : Option (BinOp × Nat) :=
  ([('*', .mul, 2), ('/', .div, 2), ('%', .rem, 2), ('+', .add, 3), ('-', .sub, 3), ('<', .shl, 4), ('>', .shr, 4),
    ('&', .and, 5), ('^', .xor, 6), ('|', .or, 7)] : List (Char × BinOp × Nat)).lookup c

/-- An expression of a level: from its first operand on, or with `some e` from the operator after e on. -/
def parseLevel : Nat → Nat → Option Expr → List Tok → Option (Expr × List Tok)
  | 0, _, _, _ => none
  | n + 1, l, some e, ts =>
    match ts with
    | .op c :: r =>
      match opLevel c with
      | some (b, k) =>
        if k = l then (parseLevel n (l - 1) none r).bind fun p => parseLevel n l (some (.bin b e p.1)) p.2 else some (e, ts)
      | none => some (e, ts)
    | _ => some (e, ts)
  | n + 1, l, none, ts =>
    if 1 < l then (parseLevel n (l - 1) none ts).bind fun p => parseLevel n l (some p.1) p.2
    else
      match ts with
      | .num v :: r => some (.num v, r)
      | .name x :: r => some (.name x, r)
      | .op c :: r =>
        if c == '-' then (parseLevel n 1 none r).map fun p => (.neg p.1, p.2)
        else if c == '~' then (parseLevel n 1 none r).map fun p => (.not p.1, p.2)
        else if c == '(' then
          match parseLevel n 7 none r with
          | some (e, .op d :: r) => if d == ')' then some (e, r) else none
          | _ => none
        else none
      | [] => none

/-- An expression, or E110. -/
def parseExpr (t : Text) : Except Diag Expr :=
  match tokens (t.length + 1) t with
  | none => .error .e110
  | some ts =>
    match parseLevel (9 * ts.length + 9) 7 none ts with
    | some (e, []) => .ok e
    | _ => .error .e110

/-! ## Instructions (R78, R103, R104) -/

/-- A predicate with or without `!`, as the four bits of a guard or a condition, and what follows it. -/
def predOf (letter : Char) : Text → Option (Nat × Text)
  | '!' :: c :: d :: r => if lower c == letter && isDigit d && d.toNat < 56 then some (d.toNat - 48 + 8, r) else none
  | c :: d :: r => if lower c == letter && isDigit d && d.toNat < 56 then some (d.toNat - 48, r) else none
  | _ => none

/-- A guard prefix: GP, GQ and GC (R78). -/
def guardOf (t : Text) : Except Diag (Nat × Nat × Bool) :=
  match t with
  | '?' :: t =>
    match predOf 'p' t with
    | some (x, []) => .ok (x, 7, false)
    | some (x, c :: r) =>
      match predOf 'p' r with
      | some (y, []) => if c == '&' then .ok (x, y, false) else if c == '|' then .ok (x, y, true) else .error .e103
      | _ => .error .e103
    | none => .error .e103
  | _ => .error .e103

/-- An operand (R103). -/
def parseOperand (t : Text) : Except Diag OpSrc :=
  match t with
  | '%' :: r =>
    match specialOf r with
    | some n => .ok (.special n)
    | none => .error .e103
  | '?' :: r =>
    match predOf 'q' r with
    | some (n, []) => .ok (.cond (decide (8 ≤ n)) (n % 8))
    | _ => .error .e103
  | _ =>
    match regOf t with
    | some (r, n) => .ok (.reg r n)
    | none => (parseExpr t).map .expr

/-- The operands of an instruction: a condition before the first stands between white space and is no operand of its own
between commas (R131). -/
def parseOperands (t : Text) : Except Diag (List OpSrc) :=
  match operandsOf t with
  | ('?' :: r) :: rest =>
    let p := cutWord ('?' :: r)
    if p.2.isEmpty then .error .e103 else allOk ((p.1 :: p.2 :: rest).map parseOperand)
  | l => allOk (l.map parseOperand)

/-- An instruction's guard, mnemonic with modifiers, and operands, as they are written. -/
def insParts (t : Text) : Text × Text × Text :=
  let p := cutWord t
  if p.1.head? == some '?' then
    let q := cutWord p.2
    (p.1, q.1, q.2)
  else ([], p.1, p.2)

/-- An instruction. DESIGN CHOICE (log 68): modifiers are read without regard to case, as mnemonics are. -/
def parseIns (t : Text) : Except Diag InsSrc :=
  let (g, m, os) := insParts t
  let guard : Except Diag (Option (Nat × Nat × Bool)) := if g.isEmpty then .ok none else (guardOf g).map some
  match guard, parseOperands os, cutAt '.' 0 [] m with
  | .ok g, .ok l, n :: ms => .ok { guard := g, mnem := n.map upper, mods := ms.map (·.map lower), ops := l }
  | .error d, _, _ => .error d
  | _, .error d, _ => .error d
  | _, _, [] => .error .e101

/-! ## Directives (R105, R106) -/

/-- A decimal value: its sign, its digits and how many of them stand after the point, with any power of ten worked in. DESIGN
CHOICE (log 68): R105 says only 'decimal values'; a power of ten may follow, as in 1e-3, and the digits before or after the
point may be absent. -/
def decimalText (t : Text) : Except Diag (Bool × Nat × Nat) :=
  let neg := t.head? == some '-'
  let u := if neg || t.head? == some '+' then t.drop 1 else t
  let mant := u.takeWhile fun c => lower c != 'e'
  let exp := u.dropWhile fun c => lower c != 'e'
  let whole := mant.takeWhile (· != '.')
  let frac := (mant.dropWhile (· != '.')).drop 1
  let part (t : Text) : Option Nat := if t.isEmpty then some 0 else digits 10 t
  let n := (frac.filter (· != '_')).length
  let eneg := (exp.drop 1).head? == some '-'
  let e := if exp.isEmpty then some 0 else digits 10 (if eneg || (exp.drop 1).head? == some '+' then exp.drop 2 else exp.drop 1)
  match part whole, part frac, e with
  | some w, some f, some e =>
    let m := w * 10 ^ n + f
    if whole.isEmpty && frac.isEmpty then .error .e104
    else .ok (neg, if eneg then m else m * 10 ^ e, if eneg then n + e else n)
  | _, _, _ => .error .e104

/-- One operand of a directive. -/
def oneOperand (l : List Text) : Except Diag Text :=
  match l with
  | [t] => .ok t
  | _ => .error .e103

/-- At least one operand, each read in some way. -/
def someOperands {α : Type} (f : Text → Except Diag α) (l : List Text) : Except Diag (List α) :=
  if l.isEmpty then .error .e103 else allOk (l.map f)

/-- A value in parentheses as the values between its commas. -/
def tupleOf (t : Text) : Except Diag (List Expr) :=
  match t with
  | '(' :: r => if r.getLast? == some ')' then allOk ((operandsOf r.dropLast).map parseExpr) else .error .e104
  | _ => .error .e104

/-- The formats of `.record` by their codes (R106). -/
def recFormats : List String := ["f32", "bf16", "f16", "e4m3", "e5m2", "e2m1x", "i8", "n8", "i32", "i16"]

/-- The `key=value` pairs of `.record`: an unknown or repeated key is E104, a missing one that is required E103. -/
def recordOf (l : List Text) : Except Diag RecSrc :=
  let kv := l.map fun t => (trim (t.takeWhile (· != '=')), t.contains '=', trim ((t.dropWhile (· != '=')).drop 1))
  let keys := ["base", "scale", "ext", "step", "fmt", "blk", "segrows", "key", "nsub"].map String.toList
  let flags := ["permit", "indexed", "r", "w"].map String.toList
  let known := kv.all fun e => if e.2.1 then keys.contains e.1 else flags.contains e.1
  let has (s : String) : Bool := kv.any fun e => e.1 == s.toList
  let get (s : String) : Option Text := (kv.find? fun e => e.1 == s.toList).map (·.2.2)
  let expr (s : String) : Except Diag Expr := (get s).elim (.ok (.num 0)) parseExpr
  let f := recFormats.findIdx fun w => get "fmt" == some w.toList
  if !known || (kv.map (·.1)).eraseDups.length != kv.length then .error .e104
  else if !(has "base" && has "ext" && has "fmt") then .error .e103
  else if recFormats.length ≤ f then .error .e104
  else
    match allOk (["base", "scale", "blk", "segrows", "key", "nsub"].map expr), (get "ext").elim (.ok []) tupleOf,
        (get "step").elim (.ok [.num 0, .num 0, .num 0]) tupleOf with
    | .ok [b, s, k, g, y, n], .ok ext, .ok step =>
      .ok { base := b, scale := s, ext := ext, step := step, fmt := f, blk := k, permit := has "permit",
            indexed := has "indexed", segrows := g, key := y, r := has "r", w := has "w", nsub := n }
    | .error d, _, _ => .error d
    | _, .error d, _ => .error d
    | _, _, .error d => .error d
    | _, _, _ => .error .e104

/-- A name, or E103. -/
def nameOf (t : Text) : Except Diag SymName := if isName t then .ok t else .error .e103

/-- The directives that set a value. -/
def metaKeys : List (String × MetaKey) :=
  [(".group_size", .groupSize), (".vregs", .vregs), (".sregs", .sregs), (".tiles", .tiles), (".scratch", .scratch),
    (".producer", .producer)]

/-- The directives that take nothing after them. -/
def plainDirectives : List (String × Line) :=
  [(".end", .done), (".scalar", .sect .scalar), (".lane", .sect .lane), (".data", .sect .data), (".const", .sect .const),
    (".generator", .md .generator (.num 1)), (".restartable", .md .restartable (.num 1))]

/-- A word of a table. -/
def wordIn {α : Type} (t : List (String × α)) (w : Text) : Option α := (t.find? fun e => e.1.toList == w).map (·.2)

/-- A directive with the label on its line: any but those of R105 is E101. -/
def parseDirective (lab : Option SymName) (w arg : Text) : Except Diag (List Line) :=
  let l := operandsOf arg
  let before (x : Except Diag Line) : Except Diag (List Line) := x.map fun x => (lab.map Line.label).toList ++ [x]
  let expr : Except Diag Expr := (oneOperand l).bind parseExpr
  let is (s : String) : Bool := w == s.toList
  match wordIn plainDirectives w, wordIn metaKeys w with
  | some x, _ => before (if l.isEmpty then .ok x else .error .e103)
  | _, some k => before (expr.map (.md k))
  | none, none =>
    if is ".kernel" then before (((oneOperand l).bind nameOf).map .kernel)
    else if is ".word" then before ((someOperands parseExpr l).map (.words 4))
    else if is ".half" then before ((someOperands parseExpr l).map (.words 2))
    else if is ".byte" then before ((someOperands parseExpr l).map (.words 1))
    else if is ".f32" then before ((someOperands decimalText l).map (.decimals false))
    else if is ".bf16" then before ((someOperands decimalText l).map (.decimals true))
    else if is ".addr" then expr.map fun e => [.addr lab e]
    else if is ".align" then before (expr.map .align)
    else if is ".global" then before (((oneOperand l).bind nameOf).map .global)
    else if is ".equ" then
      match l with
      | [n, e] => before ((nameOf n).bind fun n => (parseExpr e).map (.equ n))
      | _ => .error .e103
    else if is ".record" then
      match l with
      | n :: r => before ((nameOf n).bind fun n => (recordOf r).map (.record n))
      | [] => .error .e103
    else .error .e101

/-- The label of a line, and what follows it (R101). -/
def labelOf (t : Text) : Option SymName × Text :=
  let s := trim t
  let n := s.takeWhile isNameChar
  match (s.dropWhile isNameChar).dropWhile isSpace with
  | c :: r => if c == ':' && isName n then (some n, trim r) else (none, s)
  | [] => (none, s)

/-- A line of the source. -/
def parseLine (t : Text) : Except Diag (List Line) :=
  let (lab, s) := labelOf (uncomment t)
  let labs := (lab.map Line.label).toList
  match s with
  | [] => .ok labs
  | c :: _ =>
    if c == '.' then
      let p := cutWord s
      parseDirective lab p.1 p.2
    else (parseIns s).map fun i => labs ++ [.ins i]

/-! ## Macros and included files (R105, R107) -/

/-- Where a line stands: its file, its number, the column where its statement begins, and for a line of a macro the places of
the calls, the innermost first. -/
structure SrcPos where
  file : Text
  line : Nat
  col : Nat
  calls : List (Text × Nat)
  deriving DecidableEq, Repr

/-- The column at which the statement of a line begins, after its label. -/
def columnOf (t : Text) : Nat :=
  let s := uncomment t
  let n := (labelOf s).2.length
  if n = 0 then (s.takeWhile isSpace).length + 1 else (s.reverse.dropWhile isSpace).length - n + 1

/-- A macro: its parameters, and the lines of its body with their file and number. -/
structure Macro where
  name : Text
  params : List Text
  body : List (Text × Nat × Text)
  deriving DecidableEq, Repr

/-- The expansion between two lines: the macros, how many calls there were, the macro that is being defined, the lines so
far, and the first error; `started` once `.kernel` has stood, which is the first directive (R105). -/
structure Expansion where
  started : Bool
  macros : List Macro
  calls : Nat
  opened : Option Macro
  out : List (SrcPos × Text)
  err : Option (SrcPos × Diag)
  deriving DecidableEq, Repr

/-- A body line with its arguments: `$p` becomes the argument of the longest parameter p that stands there, and `$$` the
number of the call; `skip` characters have been used. -/
def substitute (args : List (Text × Text)) (num : Text) : Nat → Text → Text
  | _, [] => []
  | k + 1, _ :: r => substitute args num k r
  | 0, c :: r =>
    if c != '$' then c :: substitute args num 0 r
    else if r.head? == some '$' then num ++ substitute args num 1 r
    else
      let best := (args.filter fun e => e.1.isPrefixOf r).foldl (fun (b : Text × Text) e => if b.1.length < e.1.length then e else b)
        ([], ['$'])
      best.2 ++ substitute args num best.1.length r

/-- The directory of a path, with its `/`. -/
def dirOf (p : Text) : Text := (p.reverse.dropWhile (· != '/')).reverse

/-- A file by its path: in the directory of the including file, then in those of `-I` in order (R99). -/
def findFile (files : List (Text × Text)) (dirs : List Text) (here path : Text) : Option (Text × Text) :=
  ((dirOf here ++ path) :: dirs.map fun d => d ++ '/' :: path).findSome? fun p => files.find? fun e => e.1 == p

/-- The path between quotation marks. -/
def quoted (t : Text) : Option Text :=
  match trim t with
  | '"' :: r => if r.getLast? == some '"' then some r.dropLast else none
  | _ => none

/-- Expands one line; the first number bounds the nesting, `incs` and `macs` count it (R105, R107). DESIGN CHOICE (log 68): a
`.macro` in a macro's body and an `.endm` outside one are E402, and a macro's name before the line that defines it is no macro
yet: E101. -/
def expandLine (files : List (Text × Text)) (dirs : List Text) :
    Nat → Nat → Nat → List (Text × Nat) → Expansion → Text × Nat × Text → Expansion
  | 0, _, _, _, x, _ => x
  | n + 1, incs, macs, calls, x, (file, num, t) =>
    let place : SrcPos := { file := file, line := num, col := columnOf t, calls := calls }
    let fail (d : Diag) : Expansion := { x with err := some (place, d) }
    let (lab, rest) := labelOf (uncomment t)
    let w := cutWord rest
    let is (a : String) : Bool := w.1 == a.toList
    let labels : List Text := (lab.map fun l => l ++ [':']).toList
    if x.err.isSome then x
    else
      match x.opened with
      | some m =>
        if is ".endm" then
          { x with opened := none, macros := x.macros ++ [{ m with body := m.body ++ labels.map fun l => (file, num, l) }] }
        else if is ".macro" then fail .e402
        else { x with opened := some { m with body := m.body ++ [(file, num, t)] } }
      | none =>
        if is ".macro" then
          let p := cutWord w.2
          let ps := operandsOf p.2
          if !x.started then fail .e402
          else if !isName p.1 || !ps.all isName then fail .e103
          else if reserved p.1 || x.macros.any fun m => m.name == p.1 then fail .e109
          else { x with opened := some { name := p.1, params := ps, body := [] }
                        out := x.out ++ labels.map fun l => (place, l) }
        else if is ".endm" then fail .e402
        else if is ".include" then
          match (quoted w.2).bind (findFile files dirs file) with
          | none => fail .e402
          | some (path, body) =>
            if !x.started || 16 ≤ incs then fail .e402
            else
              let ls := textLines [] body
              let x := { x with out := x.out ++ labels.map fun l => (place, l) }
              ((List.range ls.length).zip ls).foldl (fun x l => expandLine files dirs n (incs + 1) macs calls x (path, l.1 + 1, l.2)) x
        else
          match x.macros.find? fun m => m.name == w.1 with
          | none => { x with started := x.started || is ".kernel", out := x.out ++ [(place, t)] }
          | some m =>
            let args := operandsOf w.2
            if 16 ≤ macs then fail .e402
            else if args.length != m.params.length then fail .e103
            else
              let k := x.calls + 1
              let x := { x with calls := k, out := x.out ++ labels.map fun l => (place, l) }
              m.body.foldl (fun x l =>
                expandLine files dirs n incs (macs + 1) ((file, num) :: calls) x
                  (l.1, l.2.1, substitute (m.params.zip args) (Nat.toDigits 10 k) 0 l.2.2)) x

/-- The lines of a source after expansion, or the first error: a macro that is left open is E402. -/
def expandAll (files : List (Text × Text)) (dirs : List Text) (path body : Text) : Except (SrcPos × Diag) (List (SrcPos × Text)) :=
  let ls := textLines [] body
  let x := ((List.range ls.length).zip ls).foldl (fun x l => expandLine files dirs 40 0 0 [] x (path, l.1 + 1, l.2))
    { started := false, macros := [], calls := 0, opened := none, out := [], err := none }
  match x.err, x.opened with
  | some e, _ => .error e
  | none, some _ => .error ({ file := path, line := ls.length, col := 1, calls := [] }, .e402)
  | none, none => .ok x.out

/-! ## A run of `priex` (R99, R104, R111) -/

/-- The options of R99. -/
structure Options where
  output : Option Text
  dirs : List Text
  defs : List (Text × Text)
  markers : Markers
  listing : Bool
  werror : Bool
  deriving DecidableEq, Repr

/-- What a run gives: the file that is written, the diagnostics with their places and texts, the listing, and the exit status. -/
structure Report where
  file : Option (Text × List Byte)
  diags : List (SrcPos × Diag × Text)
  listing : List Text
  status : Nat
  deriving DecidableEq, Repr

/-- Hexadecimal digits of some number, in capitals, with an underscore every four digits (R74). -/
def hexWord (n v : Nat) : Text :=
  (List.range n).flatMap fun i =>
    let d := Nat.digitChar (v / 16 ^ (n - 1 - i) % 16)
    if i != 0 && (n - i) % 4 == 0 then ['_', upper d] else [upper d]

/-- The comment of a line. -/
def commentOf (t : Text) : Text := t.drop (uncomment t).length

/-- A listed instruction: section, word index, words, and beside them the source line: the statement with its modifiers in
order, and its comment (R99, R104). -/
def listed (s : Sect) (pc : Nat) (i : Instr) (t : Text) : Text :=
  let (g, _, os) := insParts (labelOf (uncomment t)).2
  let body : Text := match parseIns (labelOf (uncomment t)).2 with
    | .ok j => (if g.isEmpty then [] else g ++ [' ']) ++ j.mnem ++
        ((j.modsListed s (s == .lane && markerOf i)).flatMap fun m => '.' :: m) ++ (if os.isEmpty then [] else ' ' :: os)
    | .error _ => []
  let words : Text := match s with
    | .lane => hexWord 24 (fieldsOf i).word
    | _ => ((encodeScalar i).map (hexWord 8)).intersperse [' '] |>.flatten
  (if s == .lane then "lane ".toList else "scal ".toList) ++ hexWord 4 pc ++ [' ', ' '] ++ words ++ [' ', ' '] ++ body ++ (if (commentOf t).isEmpty then [] else ' ' :: commentOf t)

/-- The name of the image by default: the source's with `.ebi` in place of its extension (R99). -/
def imageName (src : Text) : Text :=
  let d := dirOf src
  let f := src.drop d.length
  let base := if f.contains '.' then ((f.reverse.dropWhile (· != '.')).drop 1).reverse else f
  d ++ base ++ ".ebi".toList

/-- The text of a diagnostic: its meaning in R111's table, and for N301 that of the example. -/
def Diag.text (d : Diag) : Text :=
  (match d with
  | .e101 => "Unknown mnemonic, directive or macro"
  | .e102 => "Modifier not allowed for the instruction, or two of one kind"
  | .e103 => "Wrong number or kind of operands"
  | .e104 => "Immediate or field value out of range, or not exact"
  | .w105 => ".f32 or .bf16 value rounded"
  | .e105 => "Register or tile beyond the allocation"
  | .e106 => "Odd pair or misaligned span"
  | .e107 => "Illegal destination, or a guard on JOIN or LEND"
  | .e108 => "Branch, join or call target out of reach or outside its section"
  | .e109 => "Undefined or redefined symbol"
  | .e110 => "Expression error"
  | .e201 => "Misaligned or unallocated operand block"
  | .e202 => "Streamer command without .producer"
  | .e203 => "Generator instruction without .generator"
  | .e205 => ".prom with an order or scope that is forbidden"
  | .e301 => "Read of a pending register within a switch-marker run"
  | .w302 => "Two writes of one register within a run"
  | .n301 => "SW set"
  | .e311 => "Scalar write to a register that a pending lane block reads"
  | .w312 => "Scalar read of a register that a pending lane block writes"
  | .e401 => "Metadata directive repeated or out of range"
  | .e402 => "Structure of the source"
  | .e403 => "A lane path runs past the end of the lane section without LEND").toList

/-- A number in decimal. -/
def decText (n : Nat) : Text := Nat.toDigits 10 n

/-- A register as it is written (R79, R103). -/
def opndText (o : Opnd) : Text :=
  match o with
  | .v n => 'v' :: decText n
  | .s n => 's' :: decText n
  | .p n => 'p' :: decText n
  | .a n => 'a' :: decText n
  | .sp n => '%' :: (specialNames.getD n "").toList
  | _ => []

/-- What a hazard of the lane section says: the register, and the line that writes it, or a call that may have. -/
def hazardText (read : Bool) (r : Opnd) (line : Option Nat) : Text :=
  opndText r ++ (if read then " is read in the run in which " else " is written in the run in which ").toList ++
    (match line with
      | some n => "line ".toList ++ decText n ++ " writes it".toList
      | none => "a call may have written it".toList)

/-- What a write or a read of a scalar register under a lane block says. -/
def underBlockText (write : Bool) (r go lane : Nat) : Text :=
  's' :: decText r ++ (if write then " is written" else " is read").toList ++ " while the lane block dispatched at line ".toList ++
    decText go ++ (if write then " reads it at line " else " writes it at line ").toList ++ decText lane

/-- What a modifier that is not allowed says, as the example of chapter 07 does (R111). -/
def modText (w mnem : SymName) : Text := "modifier .".toList ++ w ++ " not allowed for ".toList ++ mnem

/-- What a value that is out of range or not exact says. -/
def valueText (imm : Bool) (v : Int) : Text :=
  let n := (if v < 0 then ['-'] else []) ++ decText v.natAbs
  "immediate ".toList ++ n ++
    (if !imm then " is outside its field" else if -63 ≤ v && v ≤ 63 then " is not exact" else " is outside -63..63").toList

/-- Where the k-th operand of a statement begins in its line. -/
def operandColumn (t : Text) (k : Nat) : Nat :=
  let s := uncomment t
  let os := (insParts (labelOf s).2).2.2
  let cuts := cutAt ',' 0 [] os
  let before := ((cuts.take k).map fun x => x.length + 1).foldl (· + ·) 0
  let lead := ((cuts.getD k []).takeWhile isSpace).length
  (s.reverse.dropWhile isSpace).length - os.length + before + lead + 1

/-- A diagnostic with its place and its text: it names registers, lines and values as the examples of chapter 06 do. DESIGN
CHOICE (log 68): the manual gives the wording of E301, E311, N301, of E102 for one modifier and of E104 for an immediate alone;
the others follow it, or give the meaning of R111's table. An operand's own column is given for E104, as in the example; elsewhere it is the
statement's. -/
def AsmResult.say (r : AsmResult) (lineNo : Nat → Nat) (line : Option Line) (t : Text) (p : SrcPos) (n : Nat) (d : Diag) :
    SrcPos × Diag × Text :=
  let plain : SrcPos × Diag × Text := (p, d, d.text)
  let laneLine (w : Nat) : Nat := lineNo (nth r.laneAt w)
  let scalPc (c : ScalarCode) : Nat := ((c.code.zip r.scalAt).find? fun e => e.2 == n).elim 0 fun e => e.1.1
  let scalLine (c : ScalarCode) (w : Nat) : Nat := lineNo (nth r.scalAt (c.code.findIdx fun e => e.1 == w))
  match d, r.code, line with
  | .e301, some (l, _), _ | .w302, some (l, _), _ =>
    (l.clash (r.laneAt.findIdx (· == n)) (d == .e301)).elim plain fun e =>
      (p, d, hazardText (d == .e301) e.1 (e.2.map laneLine))
  | .e311, some (l, c), _ | .w312, some (l, c), _ =>
    (c.clash l (scalPc c) (d == .e311)).elim plain fun e =>
      (p, d, underBlockText (d == .e311) e.1 (scalLine c e.2.1) (laneLine e.2.2))
  | .e104, _, some (.ins i) =>
    (i.badValue i.sect r.info r.names).elim plain fun e =>
      ({ p with col := operandColumn t e.1 }, d, valueText (i.sect == .lane && i.immPlace e.1) e.2)
  | .e102, _, some (.ins i) => (i.badMod i.sect r.info r.names).elim plain fun w => (p, d, modText w i.mnem)
  | _, _, _ => plain

/-- Lines of the expanded text, parsed: each place with its text and its line. -/
def parseAll : List (SrcPos × Text) → Except (SrcPos × Diag) (List ((SrcPos × Text) × Line))
  | [] => .ok []
  | e :: r =>
    match parseLine e.2, parseAll r with
    | .error d, _ => .error (e.1, d)
    | _, .error x => .error x
    | .ok ls, .ok rest => .ok (ls.map (fun l => (e, l)) ++ rest)

/-- `priex` on a source file, given the files that it can read. -/
def priex (files : List (Text × Text)) (o : Options) (src : Text) : Report :=
  let start : SrcPos := { file := src, line := 1, col := 1, calls := [] }
  let plain (e : SrcPos × Diag) : SrcPos × Diag × Text := (e.1, e.2, e.2.text)
  let fail (l : List (SrcPos × Diag × Text)) : Report := { file := none, diags := l, listing := [], status := 1 }
  match files.find? fun e => e.1 == src with
  | none => fail []
  | some (_, body) =>
    match (expandAll files o.dirs src body).bind parseAll, allOk (o.defs.map fun e => (nameOf e.1).bind fun n => (parseExpr e.2).map fun x => (n, x)) with
    | .error e, _ => fail [plain e]
    | _, .error d => fail [plain (start, d)]
    | .ok ls, .ok defs =>
      let place (n : Nat) : SrcPos := ((ls[n]?).map (·.1.1)).getD ((ls.getLast?.map (·.1.1)).getD start)
      let text (n : Nat) : Text := ((ls[n]?).map (·.1.2)).getD []
      let r := assemble o.markers o.werror defs (ls.map (·.2))
      let ds := r.diags.map fun e => r.say (fun n => (place n).line) ((ls[e.1]?).map (·.2)) (text e.1) (place e.1) e.1 e.2
      match r.image with
      | none => fail ds
      | some g =>
        let lanes := ((List.range g.lane.length).zip g.lane).map fun e => listed .lane e.1 e.2 (text (nth r.laneAt e.1))
        let scals := (g.scalar.zip r.scalAt).map fun e => listed .scalar e.1.1 e.1.2 (text e.2)
        { file := some (o.output.getD (imageName src), g.bytes), diags := ds, status := 0,
          listing := if o.listing then lanes ++ scals else [] }

/-- The severity of a diagnostic (R111): `werror` makes a warning an error (R99). -/
def Diag.severity (werror : Bool) (d : Diag) : Text :=
  if d == .n301 then "note".toList else if d.mild && !werror then "warning".toList else "error".toList

/-- The code of a diagnostic (R111). -/
def Diag.code (d : Diag) : Text :=
  (match d with
  | .e101 => "E101" | .e102 => "E102" | .e103 => "E103" | .e104 => "E104" | .w105 => "W105" | .e105 => "E105" | .e106 => "E106"
  | .e107 => "E107" | .e108 => "E108" | .e109 => "E109" | .e110 => "E110" | .e201 => "E201" | .e202 => "E202" | .e203 => "E203"
  | .e205 => "E205" | .e301 => "E301" | .w302 => "W302" | .n301 => "N301" | .e311 => "E311" | .w312 => "W312" | .e401 => "E401"
  | .e402 => "E402" | .e403 => "E403").toList

/-- A diagnostic as it is printed (R111): one inside an expansion names the calling lines after its text (R107). -/
def printed (werror : Bool) (p : SrcPos) (d : Diag) (text : Text) : Text :=
  p.file ++ ':' :: Nat.toDigits 10 p.line ++ ':' :: Nat.toDigits 10 p.col ++ ':' :: ' ' :: d.severity werror ++ ' ' :: d.code ++
    ':' :: ' ' :: text ++ p.calls.flatMap fun c => ", called at ".toList ++ c.1 ++ ':' :: Nat.toDigits 10 c.2

/-! ## The command line (R99) -/

/-- The options of a command line without any: markers are checked. -/
def Options.default : Options :=
  { output := none, dirs := [], defs := [], markers := .check, listing := false, werror := false }

/-- An option that stands alone. -/
def plainOption (o : Options) (w : Text) : Option Options :=
  let is (a : String) : Bool := w == a.toList
  if is "--markers=check" then some { o with markers := .check }
  else if is "--markers=insert" then some { o with markers := .insert }
  else if is "--markers=off" then some { o with markers := .off }
  else if is "--listing" then some { o with listing := true }
  else if is "--werror" then some { o with werror := true }
  else none

/-- An option with the word after it. -/
def wordOption (o : Options) (opt : Char) (v : Text) : Option Options :=
  if opt == 'o' then some { o with output := some v }
  else if opt == 'I' then some { o with dirs := o.dirs ++ [v] }
  else if v.contains '=' then
    some { o with defs := o.defs ++ [(trim (v.takeWhile (· != '=')), (v.dropWhile (· != '=')).drop 1)] }
  else none

/-- The options and the sources of a command line, with the option that waits for its word: none for what R99 does not name. -/
def readArgs (o : Options) (opt : Option Char) : List Text → Option (Options × List Text)
  | [] => if opt.isSome then none else some (o, [])
  | w :: r =>
    match opt with
    | some c => (wordOption o c w).bind fun o => readArgs o none r
    | none =>
      match w with
      | ['-', c] => if ['o', 'I', 'D'].contains c then readArgs o (some c) r else none
      | '-' :: _ => (plainOption o w).bind fun o => readArgs o none r
      | _ => (readArgs o none r).map fun e => (e.1, w :: e.2)

/-- `priex` as it is invoked: one source, and exit status 1 for a command line that R99 does not give a meaning. -/
def priexMain (files : List (Text × Text)) (args : List Text) : Report :=
  match readArgs .default none args with
  | some (o, [src]) => priex files o src
  | _ => { file := none, diags := [], listing := [], status := 1 }

end Sys2Proof.Machine
end

