-- ==== Sys2Proof/Tests/Slice0.lean ====
section
/-! SUPPORT. The model's own tests: ill-formed terms that the checks refuse, words written out from the encoding tables,
one step of instructions on small states, and for every obligation with hypotheses states that meet them. -/
namespace Sys2Proof.Tests
open Sys2Proof.Machine
set_option Elab.async false

/-- The default guard (R78). -/
abbrev h : Hdr := { sw := false, rg := false, gc := false, gp := 7, gq := 7 }
/-- A header with every field away from its default. -/
abbrev h1 : Hdr := { sw := true, rg := true, gc := true, gp := 2, gq := 9 }

/-! ## Terms that are not well formed -/

/-- Scalar terms that break check 3 or 4 of R98 (trap 0x01). -/
theorem test_ill_scalar_fields :
    [Instr.sadd 256 0 0, .saddi 0 65536, .sshli 0 0 32, .sclz 0 256, .sbfx 0 0 false 0 0, .sbfx 0 0 false 30 3, .scmp 12 0 0 0,
      .scmp 0 8 0 0, .scmpi 0 0 0 256, .ssel 0 0 16 (.reg 0), .ssel 0 0 0 (.reg 256), .ssel 0 0 0 (.imm 4294967296),
      .qlop 16 0 0 0, .qlop 0 0 0 8, .sldi 0 false 4294967296, .sld 0 0 .w32 .rel .grp false 0,
      .sld64 0 0 .acq .die true 0, .sst 0 0 .w32 .acq .grp 0, .sst64 0 0 .plain .grp 2147483648,
      .satom 0 0 .add .rel .dev true 0, .scas 0 0 .acq .block true 0, .spfxPf 0 256 .grp 0, .sfnc .plain .grp false,
      .sbr 16 0, .sbr 0 524288, .sloop 0 (-32769), .sjmpr 256, .lgo 0 9 0].all (fun i => !i.fieldsOk) = true := by
  decide +kernel

/-- Engine, bundle, synchronisation and system terms that break check 3 or 4 (trap 0x01). -/
theorem test_ill_system_fields :
    [Instr.cpy 4 .none 0, .cpy 256 .none 0, .cpy 8 .none 12, .cpy 8 (.bar 8) 0, .gath 4 .none 0,
      .scat 8 (.yield 2147483648) 0, .cpym 8 0 4, .mmac 1, .mfnc 256, .mwait 65536, .mwaitR 256, .msnd 0 1 .none,
      .mprb 256 0, .bdecl 0 256 0, .benter 2, .benterYield 8 2147483648, .bqry 256 0, .bar true 16, .barp 0 8,
      .barw 0 0 4294967296, .evset 248, .evclr 256, .launch 256 0 0, .tsig 1024, .jraise 0 0 2147483648, .jdone 256 0,
      .sleepns 256, .ppt 16, .srds 0 32, .swrs 32 0, .trap 65536].all (fun i => !i.fieldsOk) = true := by
  decide +kernel

/-- Lane terms that break check 3 or 4 (trap 0x01). -/
theorem test_ill_lane_fields :
    [Instr.nop { h with gp := 16 }, .iadd h .i32 false false (.imm 1) (.v 0) (.v 0), .iadd h .i32 false false (.v 0) (.sp 28) (.v 0),
      .iadd h .i32 false false (.v 0) (.imm 64) (.v 0), .iadd h .i32 false false (.v 512) (.v 0) (.v 0),
      .imulh h .i8x4 (.v 0) (.v 0) (.v 0), .iabs h .n32 false false (.v 0) (.v 0), .bfx h .i64 (.v 0) (.v 0) (.v 0) (.v 0),
      .bfi h .i64 (.v 0) (.v 0) (.v 0) (.v 0) (.v 0), .lea h .i64 (.v 0) (.v 0) (.v 0) (.v 0), .icmp h .i16x2 0 (.p 0) (.v 0) (.v 0),
      .icmp h .i32 8 (.p 0) (.v 0) (.v 0), .fadd h .e4m3x4 .rn .wrap false (.v 0) (.imm 17) (.v 0),
      .frcp h .e4m3x4 .rn .wrap false (.v 0) (.v 0), .fcmp h false 8 (.p 0) (.v 0) (.v 0),
      .fdot2 h .f32 .rn .wrap false (.v 0) (.v 0) (.v 0) (.v 0), .cvt h (.int .i32) (.int .i32) .rz .wrap false (.v 0) (.v 0),
      .cvt h (.int .i32) (.flt .f32) .rn .unit false (.v 0) (.v 0), .cvt h (.flt .f32) (.flt .e5m2x4) .rn .wrap false (.v 0) (.imm 9),
      .mxq h .e4m3 .f16x2 false (.v 0) (.v 0), .mov h .b8 (.v 0) (.v 0), .sel h .b16 (.v 0) (.v 0) (.v 0) (.p 0),
      .shfl h .b8 (.v 0) (.v 0) (.v 0), .vote h 4 (.v 0) (.p 0), .redl h (.int .i8x4) 0 .rn .wrap false (.v 0) (.v 0),
      .redl h (.int .i32) 6 .rn .wrap false (.v 0) (.v 0), .redl h (.flt .f32) 4 .rn .wrap false (.v 0) (.v 0),
      .redl h (.flt .f32) 0 .rs .wrap false (.v 0) (.v 0), .scnl h (.flt .f32) 1 true .rz .wrap false (.v 0) (.v 0),
      .gtrn h .b64 (.v 0) (.v 0), .plop h 16 (.p 0) (.p 0) (.p 0)].all (fun i => !i.fieldsOk) = true := by
  decide +kernel

/-- Lane memory, control, window and system terms that break check 3 or 4 (trap 0x01). -/
theorem test_ill_lane_memory_fields :
    [Instr.ld h .b32 true .plain .grp false .dflt (.v 0) (.v 0) 0, .ld h .b32 false .rel .grp false .dflt (.v 0) (.v 0) 0,
      .ld h .b32 false .acq .die true .dflt (.v 0) (.v 0) 0, .ld h .b32 false .plain .grp false .dflt (.v 0) (.v 0) 2097152,
      .st h .b32 .acq .grp .dflt false .none (.v 0) (.v 0) 0, .st h .b32 .plain .grp .dflt false (.v 0) (.v 0) (.v 0) 0,
      .st h .b128 .plain .grp .dflt false .none (.v 0) (.imm 1) 0, .pfx h .grp .dflt (.v 0) (-2097153), .fence h .plain .grp false,
      .fence h .rel .sys true, .atom h .and .f32 .plain .grp false .dflt false (.v 0) (.v 0) (.v 0),
      .acas h .i32 .plain .grp false .dflt false (.v 0) (.v 0) (.v 0) (.v 0),
      .ared h .exch .i32 .plain .grp .dflt false .none (.v 0) (.v 0), .ared h .add .i32 .plain .grp .dflt false (.v 0) (.v 0) (.v 0),
      .brl h 2097152 0, .brl h 0 (-2097153), .lcall h 2097152, .gbeg false false 4 0 0 0, .gbeg false false 0 2 0 0,
      .gyld h (.v 512), .waini h 15 1 (.wa 0) .none .none, .waini h 2 2 (.wa 0) (.s 0) (.s 0), .waini h 4 1 (.wa 0) (.s 0) (.s 0),
      .waini h 10 1 (.wa 0) (.s 0) (.s 0), .warst h (.wa 8), .amovr h .b8 (.v 0) (.a 0) (.v 0) (.v 0), .ltrap h 2048,
      .lrds h true (.v 0) (.sp 16)].all (fun i => !i.fieldsOk) = true := by
  decide +kernel

/-- Terms whose fields are legal and that break the static part of check 5 (trap 0x02): odd pairs, unaligned spans, a
register of the wrong kind. -/
theorem test_ill_registers :
    [Instr.sadd64 1 2 4, .ssub64 0 2 5, .sldi 1 true 0, .sld 0 1 .w32 .plain .grp false 0, .sst64 1 2 .plain .grp 0, .scas 0 3 .plain .grp false 0,
      .spfxPf 0 1 .grp 0, .bdecl 0 1 0, .launch 0 1 0, .waitns 1, .bqry 1 0, .iadd h .i64 false false (.v 1) (.v 2) (.v 4),
      .iadd h .i32 false false (.s 0) (.v 0) (.v 0), .iadd h .i32 false false (.sp 0) (.v 0) (.v 0),
      .iadd h .i32 false false (.v 0) (.wa 0) (.v 0), .imad h .i64 false false (.v 0) (.v 0) (.v 0) (.v 1),
      .shl h .i64 (.v 0) (.v 1) (.v 0), .lea h .i32 (.v 1) (.v 0) (.v 0) (.v 0), .icmp h .i32 0 (.v 0) (.v 0) (.v 0),
      .fadd h .f32 .rn .wrap false (.a 0) (.v 0) (.v 0), .fcmp h false 0 (.v 0) (.v 0) (.v 0),
      .cvt h (.flt .f32) (.flt .f16x2) .rn .wrap false (.v 1) (.v 0), .mxq h .e4m3 .f32 false (.s 0) (.v 0), .mov h .b256 (.v 4) (.v 0),
      .sel h .b32 (.v 0) (.v 0) (.v 0) (.v 0), .shfl h .b32 (.v 0) (.s 0) (.v 0), .bcst h .b32 (.v 0) (.v 0) (.v 0),
      .vote h 0 (.v 0) (.v 0), .redl h (.int .i32) 0 .rn .wrap false (.v 0) (.s 0), .gtrn h .b8 (.v 4) (.v 8),
      .plop h 0 (.p 0) (.v 0) (.p 0), .pmov h true (.v 0) (.v 0), .ld h .b32 false .plain .grp false .dflt (.v 0) (.v 1) 0,
      .ld h .b128 false .plain .grp false .dflt (.s 0) (.v 0) 0, .st h .b32 .plain .grp .dflt true (.s 0) (.v 0) (.v 0) 0,
      .pfx h .grp .dflt (.imm 0) 0, .atom h .add .i32 .plain .grp false .dflt true .none (.v 0) (.v 0),
      .acas h .n64 .plain .grp false .dflt false (.v 0) (.v 0) (.v 0) (.v 1),
      .ared h .add .i32 .plain .grp .dflt true (.s 0) (.v 0) (.v 0)].all (fun i => i.fieldsOk && !i.regsOk) = true := by
  decide +kernel

/-- Generator, window, tile and system terms that break the static part of check 5 (trap 0x02). -/
theorem test_ill_other_registers :
    [Instr.gyld h (.s 0), .grcv h (.s 0), .waini h 0 0 (.v 0) (.s 0) (.s 0), .waini h 0 0 (.wa 0) (.v 0) (.s 0), .wapsh h (.v 0) (.v 0) (.v 0),
      .waqry h (.v 0) (.v 0) (.v 0), .waexp h (.wa 0) (.v 0), .warst h (.v 0), .amovr h .b32 (.v 0) (.a 4) (.v 0) (.v 0),
      .amovw h .b64 (.a 0) (.v 1) (.v 0) (.v 0), .lrds h true (.v 1) (.sp 17), .lrds h false (.v 0) (.v 0), .lwrs h (.sp 0) (.v 0)].all
      (fun i => i.fieldsOk && !i.regsOk) = true := by
  decide +kernel

/-! ## Decoding: words written out from the field tables of R77 to R97 -/

/-- Scalar words, by the formats of R92 to R97. -/
theorem test_decode_scalar_arithmetic_1 :
    decodeWords [0x00000000] = .ok (.snop) ∧
    decodeWords [0x0105FA07] = .ok (.sadd 5 250 7) ∧
    decodeWords [0x0205FA08] = .ok (.ssub 5 250 8) ∧
    decodeWords [0x0305FA09] = .ok (.smul 5 250 9) ∧
    decodeWords [0x0405FA0A] = .ok (.smulh 5 250 10) ∧
    decodeWords [0x0505FA0B] = .ok (.smulhn 5 250 11) ∧
    decodeWords [0x0605FA0C] = .ok (.sand 5 250 12) ∧
    decodeWords [0x0705FA0D] = .ok (.sor 5 250 13) ∧
    decodeWords [0x0805FA0E] = .ok (.sxor 5 250 14) ∧
    decodeWords [0x0905FA0F] = .ok (.sshl 5 250 15) ∧
    decodeWords [0x0A05FA10] = .ok (.sshr 5 250 16) ∧
    decodeWords [0x0B05FA11] = .ok (.ssha 5 250 17) ∧
    decodeWords [0x0C05FA12] = .ok (.smin 5 250 18) ∧
    decodeWords [0x0D05FA13] = .ok (.smax 5 250 19) ∧
    decodeWords [0x0E05FA14] = .ok (.sminn 5 250 20) ∧
    decodeWords [0x0F05FA15] = .ok (.smaxn 5 250 21) := by
  decide +kernel

/-- Scalar words, by the formats of R92 to R97. -/
theorem test_decode_scalar_arithmetic_2 :
    decodeWords [0x1009ABC0] = .ok (.saddi 9 0xABC0) ∧
    decodeWords [0x1109ABC1] = .ok (.smovi 9 0xABC1) ∧
    decodeWords [0x1209ABC2] = .ok (.slui 9 0xABC2) ∧
    decodeWords [0x1309ABC3] = .ok (.sandi 9 0xABC3) ∧
    decodeWords [0x1409ABC4] = .ok (.sori 9 0xABC4) ∧
    decodeWords [0x1503041F] = .ok (.sshli 3 4 31) ∧
    decodeWords [0x1603041F] = .ok (.sshri 3 4 31) ∧
    decodeWords [0x1703041F] = .ok (.sshai 3 4 31) ∧
    decodeWords [0x180204FA] = .ok (.sadd64 2 4 250) ∧
    decodeWords [0x190204FA] = .ok (.ssub64 2 4 250) ∧
    decodeWords [0x1AFF0100] = .ok (.smov 255 1) ∧
    decodeWords [0x1B010203] = .ok (.smvxf 1 2 3) ∧
    decodeWords [0x1C010203] = .ok (.smvxt 1 2 3) ∧
    decodeWords [0x1D040501, 0x00000C08] = .ok (.sbfx 4 5 true 8 12) ∧
    decodeWords [0x1E060700] = .ok (.spopc 6 7) ∧
    decodeWords [0x1F060700] = .ok (.sclz 6 7) := by
  decide +kernel

/-- Scalar words, by the formats of R92 to R97. -/
theorem test_decode_scalar_arithmetic_3 :
    decodeWords [0x20B60409] = .ok (.scmp 11 6 4 9) ∧
    decodeWords [0x212104FF] = .ok (.scmpi 2 1 4 0xFF) ∧
    decodeWords [0x2203041A, 0x12345678] = .ok (.ssel 3 4 10 (.imm 0x12345678)) ∧
    decodeWords [0x2203040A, 0x000000C8] = .ok (.ssel 3 4 10 (.reg 200)) ∧
    decodeWords [0x23630102] = .ok (.qlop 6 3 1 2) ∧
    decodeWords [0x24040001, 0x80000001] = .ok (.sldi 4 true 0x80000001) := by
  decide +kernel

/-- Scalar words, by the formats of R92 to R97. -/
theorem test_decode_scalar_memory_and_branches_1 :
    decodeWords [0x300A02D6, 0xFFFFFFFC] = .ok (.sld 10 2 .w16 .acq .sys true (-4)) ∧
    decodeWords [0x310A0200, 0x00000008] = .ok (.sld64 10 2 .plain .grp false 8) ∧
    decodeWords [0x320B0239, 0x00000001] = .ok (.sst 11 2 .w8 .rel .die 1) ∧
    decodeWords [0x330C0218, 0x00000008] = .ok (.sst64 12 2 .rel .team 8) ∧
    decodeWords [0x340B02CF, 0x0000000C] = .ok (.satom 11 2 .or .acqrel .dev true 12) ∧
    decodeWords [0x350A0228, 0x00000004] = .ok (.scas 10 2 .rel .block false 4) ∧
    decodeWords [0x36090230, 0x00000040] = .ok (.spfxPf 9 2 .die 64) ∧
    decodeWords [0x36090251, 0x00000040] = .ok (.spfxWb 9 2 64) ∧
    decodeWords [0x36090252, 0x00000040] = .ok (.spfxInv 9 2 64) ∧
    decodeWords [0x370000DC, 0x00000000] = .ok (.sfnc .acqrel .sys true) ∧
    decodeWords [0x40FFFFFD] = .ok (.sbr 15 (-3)) ∧
    decodeWords [0x41711170] = .ok (.scall 7 70000) ∧
    decodeWords [0x42000000] = .ok (.sret) ∧
    decodeWords [0x43000900] = .ok (.sjmpr 9) ∧
    decodeWords [0x4408FFFE] = .ok (.sloop 8 (-2)) ∧
    decodeWords [0x50001008, 0x00000100] = .ok (.lgo 16 8 0x100) := by
  decide +kernel

/-- Scalar words, by the formats of R92 to R97. -/
theorem test_decode_scalar_memory_and_branches_2 :
    decodeWords [0x51000000] = .ok (.lwait) ∧
    decodeWords [0x52001001, 0x00000002] = .ok (.lgot 16 1 2) := by
  decide +kernel

/-- Scalar words, by the formats of R92 to R97. -/
theorem test_decode_engine_and_bundle_1 :
    decodeWords [0x6000F85A, 0x00000030] = .ok (.cpy 248 (.bar 0x30) 11) ∧
    decodeWords [0x61000818, 0x00000010] = .ok (.cpym 8 3 16) ∧
    decodeWords [0x62000809, 0xFFFFFFF9] = .ok (.gath 8 (.yield (-7)) 1) ∧
    decodeWords [0x63000813, 0x000003FF] = .ok (.scat 8 (.task 1023) 2) ∧
    decodeWords [0x64000800, 0x00000000] = .ok (.mcast 8 .none 0) ∧
    decodeWords [0x68000800, 0x00000000] = .ok (.mmac 8) ∧
    decodeWords [0x69001000, 0x00000000] = .ok (.mzro 16) ∧
    decodeWords [0x6A001800, 0x00000000] = .ok (.macc 24) ∧
    decodeWords [0x6B050000, 0x00000000] = .ok (.mfnc 5) ∧
    decodeWords [0x6C000000, 0x0000FFFF] = .ok (.mwait 65535) ∧
    decodeWords [0x6C000001, 0x000000FF] = .ok (.mwaitR 255) ∧
    decodeWords [0x70030802, 0x00000010] = .ok (.msnd 3 8 (.bar 16)) ∧
    decodeWords [0x71030803, 0x00000007] = .ok (.mpst 3 8 (.task 7)) ∧
    decodeWords [0x72030800, 0x00000000] = .ok (.mprb 3 8) ∧
    decodeWords [0x74000000, 0x00000000] = .ok (.rcfnc) ∧
    decodeWords [0x80010200, 0xFFFFFFF0] = .ok (.bdecl 1 2 (-16)) := by
  decide +kernel

/-- Scalar words, by the formats of R92 to R97. -/
theorem test_decode_engine_and_bundle_2 :
    decodeWords [0x81000800, 0x00000000] = .ok (.benter 8) ∧
    decodeWords [0x81000801, 0x00000005] = .ok (.benterYield 8 5) ∧
    decodeWords [0x82000000] = .ok (.bleave) ∧
    decodeWords [0x83020300] = .ok (.bqry 2 3) ∧
    decodeWords [0x84020300] = .ok (.bfree 2 3) := by
  decide +kernel

/-- Scalar words, by the formats of R92 to R97. -/
theorem test_decode_synchronisation_and_system_1 :
    decodeWords [0x90000001, 0x0000000F] = .ok (.bar false 15) ∧
    decodeWords [0x90000002, 0x00000003] = .ok (.bar true 3) ∧
    decodeWords [0x91000400, 0x00000040] = .ok (.barp 4 0x40) ∧
    decodeWords [0x92000400, 0x00000040] = .ok (.bara 4 0x40) ∧
    decodeWords [0x93050400, 0x00000040] = .ok (.barw 5 4 0x40) ∧
    decodeWords [0x940000F7] = .ok (.evset 247) ∧
    decodeWords [0x950000FF] = .ok (.evclr 255) ∧
    decodeWords [0x96000001] = .ok (.evwait 1) ∧
    decodeWords [0x98010200, 0x00000020] = .ok (.launch 1 2 32) ∧
    decodeWords [0x99000000, 0x000003FF] = .ok (.tsig 1023) ∧
    decodeWords [0x9A010200, 0xFFFFFFFF] = .ok (.jraise 1 2 (-1)) ∧
    decodeWords [0x9B000200, 0x00000040] = .ok (.jdone 2 64) ∧
    decodeWords [0x9C000000] = .ok (.yield) ∧
    decodeWords [0x9D000700] = .ok (.sleepns 7) ∧
    decodeWords [0x9E000800] = .ok (.waitns 8) ∧
    decodeWords [0x9F00000F] = .ok (.ppt 15) := by
  decide +kernel

/-- Scalar words, by the formats of R92 to R97. -/
theorem test_decode_synchronisation_and_system_2 :
    decodeWords [0xC0031B00] = .ok (.srds 3 0x1B) ∧
    decodeWords [0xC1001804] = .ok (.swrs 0x18 4) ∧
    decodeWords [0xC200BEEF] = .ok (.trap 0xBEEF) ∧
    decodeWords [0xC3000000] = .ok (.tret) ∧
    decodeWords [0xC4000000] = .ok (.bkpt) ∧
    decodeWords [0xC5000000] = .ok (.exit) := by
  decide +kernel

/-- Lane words, by the fields of R77 and the operand codes of R79. -/
theorem test_decode_lane_integer_1 :
    decodeWords [0xFFFFFFFF, 0x907FFFFF, 0x0000018C] = .ok (.nop h1) ∧
    decodeWords [0xE02FF9FF, 0xB87FFFFF, 0x04020603] = .ok (.iadd h .i16x2 true true (.v 511) (.s 1023) (.imm (-63))) ∧
    decodeWords [0xC9F7F002, 0x907FFFFF, 0x0441818C] = .ok (.isub h1 .n64 false false (.v 2) (.c 254) (.k 7)) ∧
    decodeWords [0x00C01001, 0xB87FFFFE, 0x04830403] = .ok (.imul h .i8x4 true false (.v 1) (.v 2) (.v 3)) ∧
    decodeWords [0x01802002, 0xB87FFFFE, 0x04C10003] = .ok (.imulh h .i64 (.v 2) (.v 4) (.v 6)) ∧
    decodeWords [0x00C01001, 0xB87FF008, 0x05000203] = .ok (.imad h .i32 false true (.v 1) (.v 2) (.v 3) (.v 4)) ∧
    decodeWords [0xC6C01001, 0xB87FFFFF, 0x05428003] = .ok (.imin h .n16x2 (.v 1) (.v 2) (.sp 27)) ∧
    decodeWords [0xFFB95801, 0xB87FFFFF, 0x05838003] = .ok (.imax h .n8x4 (.v 1) (.p 3) (.imm 63)) ∧
    decodeWords [0xFFC01001, 0xB87FFFFF, 0x05C00403] = .ok (.iabs h .i32 true false (.v 1) (.v 2)) ∧
    decodeWords [0xFFC01001, 0xB87FFFFF, 0x06000003] = .ok (.ineg h .i32 false false (.v 1) (.v 2)) ∧
    decodeWords [0x00C01001, 0xB87FF008, 0x06480603] = .ok (.idot4 h false true true true (.v 1) (.v 2) (.v 3) (.v 4)) ∧
    decodeWords [0x00C01001, 0xB87FFFFE, 0x06808003] = .ok (.and h .n32 (.v 1) (.v 2) (.v 3)) ∧
    decodeWords [0x00C01001, 0xB87FFFFE, 0x06C08003] = .ok (.or h .n32 (.v 1) (.v 2) (.v 3)) ∧
    decodeWords [0x00C01001, 0xB87FFFFE, 0x07008003] = .ok (.xor h .n32 (.v 1) (.v 2) (.v 3)) ∧
    decodeWords [0xFFC01001, 0xB87FFFFF, 0x07408003] = .ok (.not h .n32 (.v 1) (.v 2)) ∧
    decodeWords [0x00C02002, 0xB87FFFFE, 0x07818003] = .ok (.shl h .n64 (.v 2) (.v 4) (.v 3)) := by
  decide +kernel

/-- Lane words, by the fields of R77 and the operand codes of R79. -/
theorem test_decode_lane_integer_2 :
    decodeWords [0x00C02002, 0xB87FFFFE, 0x07C18003] = .ok (.shr h .n64 (.v 2) (.v 4) (.v 3)) ∧
    decodeWords [0x00C02002, 0xB87FFFFE, 0x08018003] = .ok (.sha h .n64 (.v 2) (.v 4) (.v 3)) ∧
    decodeWords [0x00C02002, 0xB87FFFFE, 0x08418003] = .ok (.rot h .n64 (.v 2) (.v 4) (.v 3)) ∧
    decodeWords [0x00C01001, 0xB87FFF86, 0x08808003] = .ok (.bfx h .n32 (.v 1) (.v 2) (.v 3) (.imm 4)) ∧
    decodeWords [0x00C01001, 0xB8005008, 0x08C00003] = .ok (.bfi h .i32 (.v 1) (.v 2) (.v 3) (.v 4) (.v 5)) ∧
    decodeWords [0xFFC01001, 0xB87FFFFF, 0x09008003] = .ok (.popc h .n32 (.v 1) (.v 2)) ∧
    decodeWords [0xFFC01001, 0xB87FFFFF, 0x09408003] = .ok (.clz h .n32 (.v 1) (.v 2)) ∧
    decodeWords [0xFFC01001, 0xB87FFFFF, 0x09808003] = .ok (.brev h .n32 (.v 1) (.v 2)) ∧
    decodeWords [0x00D02002, 0xB87FFF88, 0x09C00003] = .ok (.lea h .i32 (.v 2) (.s 4) (.v 3) (.imm 5)) ∧
    decodeWords [0x00C0172E, 0xB87FFFFE, 0x0A1C8003] = .ok (.icmp h .n32 7 (.p 6) (.v 2) (.v 3)) := by
  decide +kernel

/-- Lane words, by the fields of R77 and the operand codes of R79. -/
theorem test_decode_lane_float_1 :
    decodeWords [0x00C01001, 0xB87FFFFE, 0x10017E03] = .ok (.fadd h .bf16x2 .dyn .unit true (.v 1) (.v 2) (.v 3)) ∧
    decodeWords [0x00C01001, 0xB87FFFFE, 0x10417E03] = .ok (.fsub h .bf16x2 .dyn .unit true (.v 1) (.v 2) (.v 3)) ∧
    decodeWords [0x00C01001, 0xB87FFFFE, 0x10817E03] = .ok (.fmul h .bf16x2 .dyn .unit true (.v 1) (.v 2) (.v 3)) ∧
    decodeWords [0x00C01001, 0x907FF008, 0x10C1D98C] = .ok (.ffma h1 .e4m3x4 .rs .clampNan false (.v 1) (.v 2) (.v 3) (.v 4)) ∧
    decodeWords [0x00C01001, 0xB87FFFFE, 0x11020203] = .ok (.fmin h .e5m2x4 true (.v 1) (.v 2) (.v 3)) ∧
    decodeWords [0x00C01001, 0xB87FFFFE, 0x11420203] = .ok (.fmax h .e5m2x4 true (.v 1) (.v 2) (.v 3)) ∧
    decodeWords [0xFFC01001, 0xB87FFFFF, 0x11808403] = .ok (.frcp h .f16x2 .rn .clamp false (.v 1) (.v 2)) ∧
    decodeWords [0xFFC01001, 0xB87FFFFF, 0x11C09403] = .ok (.frsq h .f16x2 .rz .clamp false (.v 1) (.v 2)) ∧
    decodeWords [0xFFC01001, 0xB87FFFFF, 0x1200A403] = .ok (.fsqrt h .f16x2 .ru .clamp false (.v 1) (.v 2)) ∧
    decodeWords [0xFFC01001, 0xB87FFFFF, 0x1240B403] = .ok (.fexp2 h .f16x2 .rd .clamp false (.v 1) (.v 2)) ∧
    decodeWords [0xFFC01001, 0xB87FFFFF, 0x1280C403] = .ok (.flog2 h .f16x2 .ra .clamp false (.v 1) (.v 2)) ∧
    decodeWords [0xFFC01001, 0xB87FFFFF, 0x12C08403] = .ok (.fsin h .f16x2 .rn .clamp false (.v 1) (.v 2)) ∧
    decodeWords [0xFFC01001, 0xB87FFFFF, 0x13009403] = .ok (.fcos h .f16x2 .rz .clamp false (.v 1) (.v 2)) ∧
    decodeWords [0xFFC01001, 0xB87FFFFF, 0x1340A403] = .ok (.ftanh h .f16x2 .ru .clamp false (.v 1) (.v 2)) ∧
    decodeWords [0xFFC01001, 0xB87FFFFF, 0x1380B403] = .ok (.frnd h .f16x2 .rd .clamp false (.v 1) (.v 2)) ∧
    decodeWords [0xEF801001, 0xB87FFFFF, 0x13C00003] = .ok (.fscl h .f32 .rn .wrap false (.v 1) (.v 2) (.imm (-1))) := by
  decide +kernel

/-- Lane words, by the fields of R77 and the operand codes of R79. -/
theorem test_decode_lane_float_2 :
    decodeWords [0xFFC01001, 0xB87FFFFF, 0x14000003] = .ok (.fcls h .f32 (.v 1) (.v 2)) ∧
    decodeWords [0x00C01728, 0xB87FFFFE, 0x14540203] = .ok (.fcmp h true 5 (.p 0) (.v 2) (.v 3)) ∧
    decodeWords [0x00C01001, 0xB87FF008, 0x14809003] = .ok (.fdot2 h .f16x2 .rz .wrap false (.v 1) (.v 2) (.v 3) (.v 4)) ∧
    decodeWords [0xFFC01001, 0xB8FFFFFF, 0x18042003] = .ok (.cvt h (.flt .f32) (.int .n32) .ru .wrap false (.v 1) (.v 2)) ∧
    decodeWords [0xFFC02002, 0xB97FFFFF, 0x18081603] = .ok (.cvt h (.int .i32) (.flt .bf16x2) .rz .clamp true (.v 2) (.v 4)) ∧
    decodeWords [0xFFC08008, 0xB87FFFFF, 0x18490203] = .ok (.mxq h .e2m1x .bf16x2 true (.v 8) (.v 16)) ∧
    decodeWords [0xFFC08008, 0xB87FFFFF, 0x18840003] = .ok (.mxd h .e5m2 .f32 false (.v 8) (.v 16)) := by
  decide +kernel

/-- Lane words, by the fields of R77 and the operand codes of R79. -/
theorem test_decode_lane_moves_and_memory_1 :
    decodeWords [0xFFD08008, 0xB87FFFFF, 0x1C028003] = .ok (.mov h .b256 (.v 8) (.s 16)) ∧
    decodeWords [0x01001008, 0xB87FFE5E, 0x1C418003] = .ok (.sel h .b64 (.v 8) (.v 2) (.v 4) (.p 7)) ∧
    decodeWords [0x00C02008, 0xB87FFFFE, 0x1C820003] = .ok (.shfl h .b128 (.v 8) (.v 4) (.v 3)) ∧
    decodeWords [0x00C02008, 0xB87FFFFE, 0x1CC20003] = .ok (.shflx h .b128 (.v 8) (.v 4) (.v 3)) ∧
    decodeWords [0xF7802008, 0xB87FFFFF, 0x1D010003] = .ok (.bcst h .b32 (.v 8) (.v 4) (.imm 31)) ∧
    decodeWords [0xFFF95001, 0xB87FFFFF, 0x1D4C0003] = .ok (.vote h 3 (.v 1) (.p 2)) ∧
    decodeWords [0xFFC01001, 0xB87FFFFF, 0x1DAC9E03] = .ok (.redl h (.flt .f16x2) 3 .rz .unit true (.v 1) (.v 2)) ∧
    decodeWords [0xFFC02002, 0xB8FFFFFF, 0x1DD58403] = .ok (.scnl h (.int .n64) 5 true .rn .clamp false (.v 2) (.v 4)) ∧
    decodeWords [0xFFC08008, 0xB87FFFFF, 0x1E008003] = .ok (.gtrn h .b16 (.v 8) (.v 16)) ∧
    decodeWords [0xCAF95729, 0xB87FFFFF, 0x20240003] = .ok (.plop h 9 (.p 1) (.p 2) (.p 3)) ∧
    decodeWords [0xFFC01729, 0xB87FFFFF, 0x20440003] = .ok (.pmov h true (.p 1) (.v 2)) ∧
    decodeWords [0xFFF95001, 0xB87FFFFF, 0x20400003] = .ok (.pmov h false (.v 1) (.p 2)) ∧
    decodeWords [0xFFC01001, 0xBEC00001, 0x40148063] = .ok (.ld h .b16 true .acq .sys true .inb (.v 1) (.v 2) (-2097152)) ∧
    decodeWords [0x01301001, 0xB9BFFFFE, 0x40658013] = .ok (.st h .b64 .rel .die .stream true (.v 1) (.c 2) (.v 4) 2097151) ∧
    decodeWords [0xFFD017FF, 0xBA3FFFFF, 0x40800053] = .ok (.pfx h .dev .rcopy (.s 2) 2097151) ∧
    decodeWords [0xFFFFFFFF, 0xBE7FFFFF, 0x40F00003] = .ok (.fence h .acqrel .dev true) := by
  decide +kernel

/-- Lane words, by the fields of R77 and the operand codes of R79. -/
theorem test_decode_lane_moves_and_memory_2 :
    decodeWords [0x00C01001, 0xB8806FFE, 0x44268033] = .ok (.atom h .exch .bf16x2 .rel .team false .nol1 true (.v 1) (.v 2) (.v 3)) ∧
    decodeWords [0x01802002, 0xB97FF010, 0x44418043] = .ok (.acas h .n64 .plain .block false .nol2 false (.v 2) (.v 4) (.v 6) (.v 8)) ∧
    decodeWords [0x00C017FF, 0xBA005FFE, 0x44B00023] = .ok (.ared h .xor .i32 .acqrel .dev .keep false .none (.v 2) (.v 3)) := by
  decide +kernel

/-- Lane words, by the fields of R77 and the operand codes of R79. -/
theorem test_decode_lane_control_and_system_1 :
    decodeWords [0xFFFFF7FF, 0x9000000B, 0x4800018C] = .ok (.brl h1 (-2) 5) ∧
    decodeWords [0xFFFFFFFF, 0xB87FFFFF, 0x48400103] = .ok (.join true false) ∧
    decodeWords [0xFFFFFFFF, 0xB87FFFFF, 0x48800083] = .ok (.lend false true) ∧
    decodeWords [0x008007FF, 0xB87FFFFE, 0x48C00003] = .ok (.lcall h 4096) ∧
    decodeWords [0xFFFFFFFF, 0xB87FFFFF, 0x49000003] = .ok (.lret h) ∧
    decodeWords [0xFFFFFFFF, 0x907FFFFF, 0x4940018C] = .ok (.lexit h1) ∧
    decodeWords [0x000017FF, 0xB87FFFEE, 0x4C1C0003] = .ok (.gbeg false false 3 1 2 (-9)) ∧
    decodeWords [0xFFC027FF, 0xB87FFFFF, 0x4C400003] = .ok (.gyld h (.v 4)) ∧
    decodeWords [0xFFFFFFFF, 0xB87FFFFF, 0x4C800003] = .ok (.gnxt h) ∧
    decodeWords [0xFFFFFFFF, 0xB87FFFFF, 0x4CC00003] = .ok (.gdne h) ∧
    decodeWords [0xFFFFF805, 0xB87FFFFF, 0x4D000003] = .ok (.grcv h (.v 5)) ∧
    decodeWords [0xFFFFFFFF, 0xB87FFFFF, 0x4D400003] = .ok (.gret false false) ∧
    decodeWords [0xFFFFFFFF, 0xB87FFFFF, 0x4D800183] = .ok (.gend true true) ∧
    decodeWords [0xF090173F, 0xB87FFFFF, 0x50248003] = .ok (.waini h 9 1 (.wa 7) (.s 2) (.imm 3)) ∧
    decodeWords [0x00C01739, 0xB87FFFFE, 0x50400003] = .ok (.wapsh h (.wa 1) (.v 2) (.v 3)) ∧
    decodeWords [0x00F9D001, 0xB87FFFFE, 0x50800003] = .ok (.waqry h (.v 1) (.wa 2) (.v 3)) := by
  decide +kernel

/-- Lane words, by the fields of R77 and the operand codes of R79. -/
theorem test_decode_lane_control_and_system_2 :
    decodeWords [0xFFD01739, 0xB87FFFFF, 0x50C00003] = .ok (.waexp h (.wa 1) (.s 2)) ∧
    decodeWords [0xFFD01739, 0xB87FFFFF, 0x51000003] = .ok (.wawln h (.wa 1) (.s 2)) ∧
    decodeWords [0xFFFFFF39, 0xB87FFFFF, 0x51400003] = .ok (.warst h (.wa 1)) ∧
    decodeWords [0x00B99801, 0xB87FF008, 0x54010003] = .ok (.amovr h .b32 (.v 1) (.a 3) (.v 2) (.v 4)) ∧
    decodeWords [0x00804730, 0xB87FF008, 0x54420003] = .ok (.amovw h .b128 (.a 0) (.v 8) (.v 2) (.v 4)) ∧
    decodeWords [0xFFFFFFFF, 0xB87FFFFF, 0x7C000003] = .ok (.ltrap h 2047) ∧
    decodeWords [0xFFFFFFFF, 0xB87FFFFF, 0x7C400003] = .ok (.lbkpt h) ∧
    decodeWords [0xFFF88802, 0xB87FFFFF, 0x7C840003] = .ok (.lrds h true (.v 2) (.sp 17)) ∧
    decodeWords [0xFFC00F09, 0xB87FFFFF, 0x7CC00003] = .ok (.lwrs h (.sp 9) (.v 1)) := by
  decide +kernel

/-- Words that break a rule of their encoding: trap 0x01 (R79, R84 to R98). -/
theorem test_decode_trap_01 :
    [[0xD0000000],
      [0x25000000],
      [0x00000001],
      [0x15010220],
      [0x1A010201],
      [0x20080102],
      [0x20C00102],
      [0x23000800],
      [0x30010203, 0x00000000],
      [0x30010260, 0x00000000],
      [0x36010203, 0x00000000],
      [0x36010241, 0x00000000],
      [0x60000400, 0x00000000],
      [0x60000804, 0x00000000],
      [0x60000800, 0x00000001],
      [0x90000003, 0x00000000],
      [0x9F000010],
      [0x42000001],
      [0xFFFFFFFF, 0xB87FFFFF, 0x80000003],
      [0xFFFFFFFF, 0xB87FFFFF, 0x00400003],
      [0x00FA0001, 0xB87FFFFE, 0x04000003],
      [0x00F8E001, 0xB87FFFFE, 0x04000003],
      [0x00C01001, 0xB87FFFFE, 0x04001003],
      [0x00C01001, 0xB87FFFFE, 0x04000803],
      [0x00C01001, 0xB87FFFFE, 0x04000013],
      [0x00C01001, 0xB8FFFFFE, 0x04000003],
      [0x00C01001, 0xB87FFFFE, 0x04040003],
      [0x00C01001, 0xB87FF000, 0x04000003],
      [0x00C01001, 0xB87FFFFE, 0x10006003],
      [0x00C01001, 0xB87FFFFE, 0x10028003],
      [0x00C01001, 0xB87FFFFE, 0x04C00203],
      [0xFFFFFFFF, 0x807FFFFF, 0x48400003],
      [0xFFC01001, 0xB8000001, 0x40030003],
      [0xFFC01001, 0xB8000001, 0x40000073],
      [0xFFC01001, 0xBB000001, 0x40000003]].all fun w => decodeWords w == .ill 1 := by
  decide +kernel

/-- Words that break a rule of their encoding: trap 0x02 (R79, R84 to R98). -/
theorem test_decode_trap_02 :
    [[0x18010204],
      [0x31030200, 0x00000000],
      [0x00F98001, 0xB87FFFFE, 0x04000003],
      [0x00F9C001, 0xB87FFFFE, 0x04000003],
      [0x00C01200, 0xB87FFFFE, 0x04000003],
      [0x00B9A001, 0xB87FF006, 0x54010003],
      [0xFFC01001, 0xB87FFFFF, 0x1C018003]].all fun w => decodeWords w == .ill 2 := by
  decide +kernel

/-! ## Small states -/

/-- A handler is installed for context 0 at the page of the placed instruction. -/
def handled (s : State) : State :=
  s.modCtx 0 fun c => { c with regs := { c.regs with valid := true, hbase := 0x1000, hlen := 2 } }
/-- The group of a placed scalar word. -/
def g0 : Group := probeGroup 0 false
/-- The turn of the scalar stream of that group. -/
def s0 : State := handled (State.reset.withFetchWord 32 0).begin
/-- The same with the group changed. -/
def sg (f : Group → Group) : State := s0.setGroup (f g0)
/-- In a handler after a scalar trap, and after a trap of the lane stream on lanes 0 and 1 of gang 0. -/
def gH : Group := g0.enterHandler (g0.scalarReq 0x11 0)
def gL : Group :=
  { (probeGroup 0 true).enterHandler
      { g0.scalarReq 0x05 0 with spc := 0, lpc := 0, exec := 0xFFFFFFFF#32, fltmask := 3, gang := 0xFF } with spc := 1 }
/-- The turn of the gang of a placed lane word. -/
def l0 : State := handled (State.reset.withFetchWord 96 0).begin
/-- The group of a placed lane word. -/
def gl : Group := probeGroup 0 true
def lg (f : Group → Group) : State := l0.setGroup (f gl)
/-- The turn of a unit. -/
def sev (e : Instr) : State := { s0 with agenda := [.event e] }

/-! ## Hypotheses met: the machine and traps -/

theorem wit_scalar_ready : s0.scalarReady [0, 1, 2, 3, 62, 63, 254, 255, 1023] = some g0 := by decide +kernel
theorem wit_scalar_not_allocated : s0.scalarTurn? = some g0 ∧ s0.scalarReady [1024] = none := by decide +kernel
theorem wit_handler_ready : (s0.handlerReady g0).isSome = true ∧ (l0.handlerReady gl).isSome = true := by decide +kernel
theorem wit_no_handler_ready : s0.handlerReady gH = none ∧
    (State.reset.withFetchWord 32 0).begin.handlerReady g0 = none := by decide +kernel
theorem wit_lane_ready : ((l0.laneReady false false (some h) [(.v 1, 2)] [(.v 2, 2), (.s 4, 1)]).any fun c =>
    c.act == BitVec.allOnes 32 && c.gang == 0xFF) = true := by decide +kernel
theorem wit_lane_empty : ((l0.laneReady false false (some { h with gp := 15, gq := 15 }) [] []).any fun c =>
    c.act == 0) = true := by decide +kernel

/-- O1, O3: the bytes at the scalar PC. -/
theorem wit_scalar_step (w : Nat) (hw : w ∈ [0x01050607, 0x300A0244]) :
    let s := State.reset.withFetchWord 64 w
    s.nextTurn = .scalar 0 ∧ s.begin.group? 0 = some g0 ∧ (s.begin.scalarMayIssue g0 ∧ g0.words = none) ∧
    s.begin.scalarLen g0 = (s.begin, 2) ∧ s.begin.scalarBase g0 = (s.begin, 0x1000) ∧ s.begin.codeAt g0 0x1000 = some 0x1000 ∧
    s.begin.codeAt g0 0x1004 = some 0x1004 ∧ s.begin.codeWord 0x1000 = w ∧ s.begin.codeWord 0x1004 = 0 := by
  simp only [List.mem_cons, List.not_mem_nil, or_false] at hw
  unfold State.scalarMayIssue
  rcases hw with rfl | rfl <;> decide +kernel
/-- O1: an instruction that has waited, with its words. -/
theorem wit_waiting_step :
    let g := { g0 with words := some (0x01050607, 0), wait := some (.timed 9) }
    let s := (State.reset.withFetchWord 32 0).setGroup g
    s.nextTurn = .scalar 0 ∧ s.begin.group? 0 = some g ∧ s.begin.scalarMayIssue g := by
  unfold State.scalarMayIssue; decide +kernel

/-- O3: a word that is no instruction, by either cause, and a PC past the section. -/
theorem wit_illegal_words :
    decodeScalar 0xD0000000 0 = .ill 1 ∧ decodeScalar 0x18010204 0 = .ill 2 ∧
    (sg fun g => { g with spc := 2 }).group? 0 = some { g0 with spc := 2 } ∧
    ((State.reset.withFetchWord 64 0xD0000000).begin.codeWord 0x1000 = 0xD0000000) := by decide +kernel

/-- The access of a lane load in flight for the whole gang. -/
def laneLoad (kind : AccKind) : Access :=
  { id := 900, grp := 0, core := 0, part := 0, ctx := 0, scalar := false, handler := false, own := 0xFF, lane := 0, kind := kind, launch := 0,
    loc := .hbm 0x1900, size := 4, data := [1, 2, 3, 4], data2 := [5, 6, 7, 8], dests := [.v 1 0], signed := false,
    tagDest := none, blk := 0, ord := .plain, sc := .grp, hint := .dflt, relWait := [], drain := none, coreAck := false,
    accepted := false, performed := false, parts := [], value := none, tag := 0, lines := [] }
/-- A state with accesses in flight. -/
def flying (s : State) (l : List Access) : State := s.modMem fun m => { m with flight := l }
/-- O3: lane words that are no instruction, by either cause, at a gang that may issue, and a PC past the section; one gang need
not wait and another waits for a load. -/
theorem wit_illegal_lane_words :
    let s := handled (State.reset.withFetchWord 96 0xF8000003B87FFFFFF0002004)
    s.nextTurn = .lane 0 0 ∧ s.begin.group? 0 = some gl ∧ (s.begin.laneMayIssue gl 0xFF ∧ s.begin.constsStall gl = false) ∧
    (decodeLane 0xF8000003B87FFFFFF0002004 = .ill 1 ∧ decodeLane 0x04010003B87FFFFFF0002005 = .ill 2) ∧
    (let k : Lane := { s := s.begin, g := gl, gang := 0xFF, pc := 0, act := 0 }
     k.trapWaits s.begin.nextId = false ∧ (s.begin.handlerReady (gl.landOf 0xFF)).isSome = true ∧
     ({ k with s := s.begin.modMem fun m => { m with flight := [laneLoad .load] } } : Lane).trapWaits 901 = true) ∧
    ((s.begin.launch? 0).any fun l => decide (l.laneLen ≤ 1)) = true := by
  unfold State.laneMayIssue; decide +kernel

/-- O2: the bytes at the lane PC, and the turn of a unit. -/
theorem wit_lane_step :
    let s := State.reset.withFetchWord 96 0x04000003B87FFFFFF0002004
    s.nextTurn = .lane 0 0 ∧ s.begin.group? 0 = some gl ∧ (s.begin.launch? 0).isSome = true ∧ gangOf gl.lanes.strands 0 = 0xFF ∧
    (s.begin.laneMayIssue gl 0xFF ∧ s.begin.constsStall gl = false) ∧ gl.pcOf 0xFF = 0 ∧ s.begin.codeAt gl 0x1800 = some 0x1800 ∧ s.begin.codeAt gl 0x1804 = some 0x1804 ∧
    s.begin.codeAt gl 0x1808 = some 0x1808 ∧ s.begin.codeWord 0x1800 + 2 ^ 32 * s.begin.codeWord 0x1804 +
      2 ^ 64 * s.begin.codeWord 0x1808 = 0x04000003B87FFFFFF0002004 := by
  unfold State.laneMayIssue; decide +kernel
theorem wit_unit_step : (sev .tokenInterval).nextTurn = .event .tokenInterval ∧ Instr.tokenInterval.stream = .unit := by
  decide +kernel

/-- O5: well-formed instructions of both streams. -/
theorem wit_well_formed : (Instr.sbr 15 (-524288)).WellFormed = true ∧ (Instr.sbr 15 (-524288)).stream = .scalar ∧
    (Instr.ltrap h 2047).WellFormed = true ∧ (Instr.ltrap h 2047).stream = .lane := by decide +kernel
/-- O6. -/
theorem wit_canonical : (State.reset.withFetchWord 32 0).memCanonical = true ∧
    (match step (State.reset.withFetchWord 32 0) with | .next _ => true | _ => false) = true := by decide +kernel
/-- O7: a group of the scalar stream and a running lane block, with all lanes and with strands that have parted. -/
theorem wit_masks : (State.reset.withFetchWord 32 0).masksOk = true ∧ (State.reset.withFetchWord 96 0).masksOk = true ∧
    ((State.reset.withFetchWord 96 0).setGroup ({ probeGroup 0 true with
      regs := { (probeGroup 0 true).regs with live := 0xFFFF } }.writeExec 0x0F 0x1234)).masksOk = false ∧
    (({ probeGroup 0 true with regs := { (probeGroup 0 true).regs with live := 0xFFFF } }.writeExec 0xFF 0x1234).masksOk) = true := by
  decide +kernel

/-- O10, O11: an error report that is free, and one that is taken. -/
theorem wit_reports : (s0.ctx 0).err.valid = false ∧ ((s0.recordErr 0 1 2 3 4).ctx 0).err.valid = true := by decide +kernel
/-- O11: a gang with active lanes and no loads; one that waits for a load. -/
theorem wit_lane_trap : ((l0.laneReady false false (some h) [] []).any fun c => c.act != 0 && !c.trapWaits c.s.nextId &&
    (c.s.handlerReady (c.g.landOf c.gang)).isSome) = true := by decide +kernel
theorem wit_lane_trap_waits : (((flying l0 [laneLoad .load]).laneReady false false (some h) [] []).any fun c => c.act != 0 &&
    c.trapWaits c.s.nextId) = true := by decide +kernel
/-- O12: frames of a scalar trap and of a lane trap. -/
theorem wit_tret : (sg fun _ => gH).scalarReady [] = some gH ∧ (gH.trap.any fun t => t.spc < 2 && !t.isLane) = true ∧
    (sg fun _ => gL).scalarReady [] = some gL ∧ gL.lanes.running = false ∧
    (gL.trap.any fun t => t.isLane && t.lpc < 1 && t.lpc == t.origin && t.faulted != 0 && t.gang == 0xFF) = true := by decide +kernel
/-- O13, O14. -/
theorem wit_illegal_uses : s0.scalarTurn? = some g0 ∧ g0.trap = none ∧ (sg fun _ => gH).scalarTurn? = some gH ∧
    gH.trap.isSome = true := by decide +kernel
theorem wit_unallocated : (Instr.sadd 3 4 255).scalarShape = some ([3], [3, 4, 255]) ∧
    (let s := sg fun g => { g with info := { g.info with sregs := 64 } }
     (s.scalarTurn?.map fun g => g.info.sregs) = some 64 ∧
     ((s.scalarReady [3, 4]).any fun g => decide (g.info.sregs ≤ (g.getS 4).toNat + 64)) = true) := by decide +kernel
/-- O14: lane forms of every kind: an access, a conversion, a format image, a generator's value, a window operation. -/
theorem wit_lane_shapes : (l0.laneShape (.acas h .n64 .plain .grp false .dflt true (.v 1) (.v 2) (.v 4) (.v 6))).any
      (fun e => e.2 == ([(.v 1, 3)], [(.v 2, 2), (.v 4, 2), (.v 6, 2)])) = true ∧
    (l0.laneShape (.cvt h (.flt .f32) (.flt .e4m3x4) .rn .wrap false (.v 4) (.v 1))).any (fun e => e.2 == ([(.v 4, 4)], [(.v 1, 1)])) = true ∧
    (l0.laneShape (.grcv h (.v 510))).any (fun e => e.2 == ([(.v 510, 1)], [])) = true ∧
    (l0.laneShape (.waqry h (.v 9) (.wa 1) (.v 3))).any (fun e => e.2 == ([(.v 9, 1)], [(.v 3, 1)])) = true ∧
    l0.laneShape (.nop h) = none := by decide +kernel
theorem wit_lane_unallocated : (((lg fun g => { g with info := { g.info with vregs := 64 } }).laneReady false false (some h) [] []).any
    fun c => !c.trapWaits c.s.nextId && !([(Opnd.v 64, 1)].all c.g.allocated) &&
      (c.s.handlerReady (c.g.landOf c.gang)).isSome) = true := by decide +kernel

/-! ## Hypotheses met: the scalar stream -/

/-- O15 to O18, O21, O22, O24: registers that are ready, at both ends of the fields, with the destination a source. -/
theorem wit_scalar_registers : s0.scalarReady [0, 255, 255] = some g0 ∧ s0.scalarReady [254, 255, 254, 255, 0, 1] = some g0 ∧
    s0.scalarReady [] = some g0 := by decide +kernel
/-- O17: an index inside the allocation, for both indexed moves. -/
theorem wit_indexed : (let g := (g0.setS 2 5).setS 1 1000
    (sg fun _ => g).scalarReady [1, 2, 8] = some g ∧ 8 = (g.getS 2).toNat + 3 ∧ (sg fun _ => g).scalarReady [1, 2, 1023] = some g ∧
    1023 = (g.getS 1).toNat + 23) := by decide +kernel
/-- O19: a group of a launch of two scalar words, at either end of the counter's range. -/
theorem wit_control : (s0.scalarLen g0).2 = 2 ∧ s0.scalarReady [63] = some g0 ∧ g0.getS 8 = 0 ∧
    (g0.setS 8 1).getS 8 = 1 ∧ (sg fun g => g.setS 8 1).scalarReady [8] = some (g0.setS 8 1) := by decide +kernel
/-- O20: LGO outside a handler, with room and with none; LGOT in one; LWAIT with all done. -/
theorem wit_lgo : s0.scalarReady ((List.range 8).map (16 + ·)) = some g0 ∧ g0.trap = none ∧ 0 < s0.laneLen g0 ∧
    (let g := { g0 with dq := List.replicate 16 { start := 0, k := [], oldS := [] } }
     (sg fun _ => g).scalarReady [] = some g ∧ ¬ g.dq.length < 16) := by decide +kernel
theorem wit_lgot : (sg fun _ => gL).scalarReady [16] = some gL ∧ (gL.trap.any fun t => gL.regs.live &&& strandLanes t.gang != 0) = true ∧
    0 < s0.laneLen gL ∧ gL.lanes.running = false := by decide +kernel
theorem wit_lwait : s0.scalarReady [] = some g0 ∧ g0.async = none ∧ g0.lanes.running = false ∧ g0.dq = [] ∧
    s0.mem.flight = [] ∧ (flying s0 [{ laneLoad .load with dests := [.v 1 0] }]).scalarReady [] = some g0 ∧
    scalarSees (.v 1 0) = false := by decide +kernel
/-- O21, O22: a group in a handler, and one with a generator. -/
theorem wit_special : (sg fun _ => gL).scalarReady [5] = some gL ∧ gL.trap.isSome = true ∧
    (sg fun g => g.setS 4 6).scalarReady [4] = some (g0.setS 4 6) ∧ 6 ≤ ((g0.setS 4 6).getS 4).toNat % 8 ∧
    ((g0.setS 4 5).getS 4).toNat % 8 < 6 := by decide +kernel
/-- O21: a loop in its producer with a fill frame, and a consumer on a ready frame, whose numbers fit their fields. -/
theorem wit_genst : (let n : Gen :=
      { owner := List.range 32, vw := 1, thr := 0, mode := .consumer, st0 := .ready, st1 := .fill, fc := 5, ready := [], cur := 0, size := 32,
        pend := none, yielder := 0, done := 0, prodPc := 0, consPc := 0, endPc := 0, savedProd := none, outer := [], move := none, atEnd := false,
        slots := [] }
    (sg fun g => { g with gen := some n }).scalarReady [5] = some { g0 with gen := some n } ∧
    (sg fun g => { g with gen := some { n with mode := .producer } }).scalarReady [5] =
      some { g0 with gen := some { n with mode := .producer } } ∧ n.fc < 64) := by decide +kernel
/-- O23. -/
theorem wit_exit : s0.scalarReady [] = some g0 ∧ g0.async = none ∧ s0.lanesDone g0 = true ∧ s0.groupCmds g0 = [] ∧ g0.uas = 0 := by
  decide +kernel
/-- O24: a shape of each kind. -/
theorem wit_shapes : Instr.snop.scalarShape = some ([], []) ∧ (Instr.sldi 4 true 1).scalarShape = some ([4, 5], [4, 5]) ∧
    (Instr.scmp 0 0 1 2).scalarShape = some ([], [1, 2]) ∧ s0.scalarReady [4, 5] = some g0 := by decide +kernel
/-- The group with an address in s2 and s3. -/
def ga (va : Nat) : Group := (g0.setS 2 (BitVec.ofNat 32 va)).setS 3 (BitVec.ofNat 32 (va / 2 ^ 32))
/-- O25: a load, a store and an atomic that pass their checks, at the last word of a page. -/
theorem wit_access : (let g := ga 0x1FF8
    let s := sg fun _ => g
    g.holds = [] ∧ s.scalarReady ([10, 11] ++ [2, 3]) = some g ∧
    (s.check g.agent .load (g.getS64 2 + BitVec.ofInt 64 4).toNat 4).2 = .ok (.hbm 0x1FFC) ∧
    (s.check g.agent .load (g.getS64 2 + BitVec.ofInt 64 0).toNat 8).2 = .ok (.hbm 0x1FF8)) := by decide +kernel
/-- The same with R, W and X on the page. -/
def writable (s : State) : State := s.modMem fun m => { m with tlb := m.tlb.map fun e => { e with pte := 0x100F } }
theorem wit_access_write : (let g := ga 0x1FF8
    let s := writable (sg fun _ => g)
    s.scalarReady ([10, 11] ++ [2, 3]) = some g ∧
    (s.check g.agent .store (g.getS64 2 + BitVec.ofInt 64 7).toNat 1).2 = .ok (.hbm 0x1FFF) ∧
    (s.check g.agent (.atomic true) (g.getS64 2 + BitVec.ofInt 64 (-8)).toNat 4).2 = .ok (.hbm 0x1FF0)) := by decide +kernel
/-- O26: each check that can fail, at its boundary. -/
theorem wit_access_checks : (let s := s0
    (s.check g0.agent .load (2 ^ 56) 4).2 = .fail 1 0x05 ∧ (s.check g0.agent .load (2 ^ 64 - 2 ^ 56) 4).2 ≠ .fail 1 0x05 ∧
    (s.check g0.agent .load 0x1002 4).2 = .fail 2 0x03 ∧ (s.check g0.agent .load 0x2000 4).2 = .fail 3 0x04) := by decide +kernel
/-- A page without R, W or X. -/
def closed (s : State) : State := s.modMem fun m => { m with tlb := m.tlb.map fun e => { e with pte := 0x1001 } }
theorem wit_access_permission : ((closed s0).check g0.agent .load 0x1004 4).2 = .fail 4 0x05 ∧ permOk .load 0x1001 = false ∧
    ((closed s0).check g0.agent .store 0x1004 4).2 = .fail 4 0x05 := by decide +kernel
/-- O26, O27: a state that reaches them, with and without a length; a store that a release fence waits for. -/
theorem wit_range : (let g := (ga 0x1000).setS 9 256
    let s := writable (sg fun _ => g)
    s.scalarReady [9, 2, 3] = some g ∧ g.getS 9 ≠ 0 ∧ (ga 0x1000).getS 9 = 0 ∧
    (s.lineLoc g.agent (scalarEa g 2 64)).2 = .ok (.hbm 0x1040)) := by decide +kernel
theorem wit_fence : s0.scalarReady [] = some g0 ∧ g0.wait = none ∧ s0.mem.flight = [] ∧
    s0.arrived (s0.acquireReads g0 .acqrel .sys) = true ∧ s0.acked (s0.releaseIds g0 0 .sys) .sys = true ∧
    (let g := { g0 with wait := some (.sync [4] [5] false (some 6) 0) }
     (sg fun _ => g).scalarReady [] = some g ∧ (sg fun _ => g).arrived [4] = true ∧ (sg fun _ => g).acked [5] .dev = true ∧
     (sg fun _ => g).drained (some 6) = true) ∧
    (flying s0 [laneLoad .store]).scalarReady [] = some g0 ∧
    ((flying s0 [laneLoad .store]).mem.flight.all fun a => a.grp == g0.gid && a.kind == .store && !a.accepted && !a.coreAck) = true := by
  decide +kernel

/-! ## Hypotheses met: units reached from the scalar stream -/

/-- Bytes placed at an address of device HBM. -/
def placed (s : State) (pa : Nat) (bs : List Byte) : State := s.modMem fun m => { m with hbm := m.hbm.write pa bs }
/-- A bank of scratch for the placed group's team. -/
def scratched (s : State) : State :=
  (s.modPlat fun p => { p with bankOwn := [(0, 0x80)], cores := tset p.cores 0 { s.core 0 with cwmask := tset (s.core 0).cwmask 0 0xFFFF } }).modUnits
    fun u => { u with teams := u.teams.map fun t => { t with size := 0x1000 } }
/-- A valid record of 32 by 16 elements of a format, whose key is 7 (R278). -/
def rec64 (fmt : Nat) : List Byte :=
  leBytes 8 0x1200 ++ leBytes 8 0 ++ leBytes 4 32 ++ leBytes 4 16 ++ leBytes 4 1 ++ leBytes 4 1 ++ leBytes 4 32 ++ leBytes 4 512 ++
    leBytes 4 512 ++ leBytes 4 fmt ++ leBytes 4 0x30007 ++ leBytes 4 0 ++ leBytes 8 0
/-- The group with an operand block at s8, producer of a team with scratch, its context holding key 7, and the records at
0x1040 and 0x1080 in the record cache. -/
def ge (b : List Nat) : Group :=
  { g0 with regs := { g0.regs with s := (b.zip (List.range 8)).map fun e => (8 + e.2, BitVec.ofNat 32 e.1) } }
def se (b : List Nat) : State :=
  let s := (scratched s0).modCtx 0 fun c => { c with keys := [(0, 7)] }
  let held (va : Nat) : RecEnt := { cluster := 0, ctx := 0, addr := va, data := rec64 1, missing := [] }
  (s.modUnits fun u => { u with recs := [held 0x1040, held 0x1080] }).setGroup (ge b)
/-- Nothing of the outcome of a record read but the bytes. -/
def recOk (s : State) (g : Group) (b : List Word) : Bool :=
  match s.readRecord g.engineAgent (blkAddr b 0) with
  | (s, .ok bs) => (TRec.ofBytes bs).plainOk && (TRec.ofBytes bs).keyOk (s.ring 0) true &&
      (TRec.ofBytes bs).keyOk (s.ring 0) false && s.roomFor g 1 0
  | _ => false

/-- O28: a box on the edge of the extents with each kind of completion, and an empty box. -/
theorem wit_copy : (let b := [0x1040, 0, 0x1400, 0, 0x000F001F, 0, 0x00010001, 0x00010001]
    let g := ge b
    let s := se b
    let r := TRec.ofBytes (rec64 1)
    (s.engineReady [] 8) = some g ∧ recOk s g (g.block 8) = true ∧ yieldTarget s g .none = (s, some 0) ∧
    yieldTarget s g (.yield 1) = (s, some 1) ∧ g.isProducer = true ∧ blkAddr (g.block 8) 2 % r.cell = 0 ∧ r.fmt ≠ 5 ∧
    boxOk r (halves (g.block 8) 4 5) (halves (g.block 8) 6 7) = true ∧ s.complInside [s.teamOf g] 0 (.bar 0xFF0) = true ∧
    s.complInside [s.teamOf g] 0 (.task 7) = true) := by decide +kernel
theorem wit_multicast : (let b := [0x1040, 0, 0x0FC0, 0, 0x00010020, 1, 0, 0]
    let g := ge b
    let s := se b
    (s.engineReady [] 8) = some g ∧ recOk s g (g.block 8) = true ∧ blkWord (g.block 8) 2 < 2 ^ 20 ∧ blkWord (g.block 8) 7 < 256 ∧
    boxOk (TRec.ofBytes (rec64 1)) [0, 0, 0, 0] [32, 1, 1, 1] = true ∧ maskCores g 1 = [0] ∧
    ((s.castTeam g.engineAgent 0).any fun t => decide (0xFC0 + 32 * 2 ≤ t.size)) = true) := by decide +kernel
theorem wit_gather : (let b := [0x1040, 0, 0x1400, 0, 0x1800, 0, 3, 0x0010_0010]
    let g := ge b
    let s := se b
    (s.engineReady [] 8) = some g ∧ recOk s g (g.block 8) = true ∧ blkWord (g.block 8) 6 = 3 ∧
    16 + 16 ≤ (TRec.ofBytes (rec64 1)).ext.getD 0 0 ∧ blkAddr (g.block 8) 4 % 4 = 0) := by decide +kernel
/-- O29: matrix commands that pass their checks, and each that fails one. -/
theorem wit_mmac : (let b := [0x1040, 0, 0x1080, 0, 0x0020_0080, 0, 0, 0]
    let g := ge b
    let s := se b
    (s.engineReady [] 8) = some g ∧ ((s.mmacChecks g (g.block 8)).2.1.all fun x => x == none) = true ∧ s.roomFor g 1 1 = true) := by
  decide +kernel
theorem wit_mzro_macc : (let s := se [15, 0, 0, 0, 0, 0, 0, 0]
    let g := ge [15, 0, 0, 0, 0, 0, 0, 0]
    (s.engineReady [] 8) = some g ∧ blkWord (g.block 8) 0 = 15 ∧ ((g.block 8).drop 1).all (· == 0) = true ∧ s.roomFor g 0 1 = true ∧
    g.info.tiles = 4 ∧ ({ g with info := { g.info with tiles := 3 } } : Group).info.tiles ≤ 3 ∧
    blkWord ((ge [0x3F, 0, 0, 0, 0, 0, 0, 0]).block 8) 0 < 64 ∧ ¬ blkWord ((ge [16, 0, 0, 0, 0, 0, 0, 0]).block 8) 0 < 16) := by
  decide +kernel
theorem wit_cpym : (let b := [0x1040, 0, 0x1400, 0, 0, 0, 0x00010001, 0x00010001]
    let m := [0x1040, 0, 0x1080, 0, 0x0020_0080, 0, 0, 0]
    let g : Group := { ge b with regs := { (ge b).regs with s := ((b ++ m).zip (List.range 16)).map fun e => (8 + e.2, BitVec.ofNat 32 e.1) } }
    let s := (se b).setGroup g
    s.engineReady (regSpan 16 8) 8 = some g ∧ ((s.copyChecks g (g.block 8) .none 0).2.1.all fun x => x == none) = true ∧
    (((s.copyChecks g (g.block 8) .none 0).1.mmacChecks g (g.block 16)).2.1.all fun x => x == none) = true ∧
    s.roomFor g 2 1 = true) := by decide +kernel
theorem wit_not_producer : (let g := { ge [] with info := { g0.info with producer := none } }
    ((se []).setGroup g).engineReady [] 8 = some g ∧ g.isProducer = false) := by decide +kernel
/-- O30: a number that is closed and one that is not, and all batches done. -/
theorem wit_batches : s0.scalarReady [0] = some g0 ∧ g0.async = none ∧ g0.wait = none ∧ g0.doneBatch = g0.batch ∧
    (let n := 65535; 1 ≤ (n + 65536 - g0.batch % 65536) % 65536 ∧ ¬ (n + 65536 - g0.batch % 65536) % 65536 ≤ 32767) := by
  decide +kernel
/-- O31: a message of the largest length; a receive with room, without, and with an entry that matches. -/
def msg : Msg := { src := 3, tag := 9, len := 5, data := [1, 2, 3, 4, 5], holes := [], fromQ := false }
theorem wit_messages : (let b := [0x1400, 0, 4096, 71, 9, 0, 0, 0]
    let g := ge b
    let s := se b
    s.engineReady [0] 8 = some g ∧ yieldTarget s g .none = (s, some 0) ∧ s.complInside [s.teamOf g] 0 .none = true ∧
    blkWord (g.block 8) 2 = 4096 ∧ blkWord (g.block 8) 3 = 71 ∧ blkWord (g.block 8) 4 < 65536 ∧ s.roomFor g 1 0 = true ∧
    ((g.block 8).drop 5).all (· == 0) = true ∧ blkAddr (g.block 8) 5 % 16 = 0) := by decide +kernel
theorem wit_receives : (let b := [0x1400, 0, 16, 0x7F, 9, 0x1600, 0, 0]
    let s := se b
    blkAddr ((ge b).block 8) 5 % 16 = 0 ∧ s.recvShare 0 0 = 64 ∧ (s.overflowOf 0 0).find? (msgMatches 0x7F 9 ·.msg) = none ∧
    ((((s.modUnits fun u => { u with overflow := [{ cluster := 0, ctx := 0, part := 0, msg := msg }] }).overflowOf 0 0).find?
      (msgMatches 0x7F 9 ·.msg)).map (·.msg.len)) = some 5 ∧
    (se [0, 0, 0, 71, 9, 0, 0, 0]).engineReady [0] 8 = some (ge [0, 0, 0, 71, 9, 0, 0, 0])) := by decide +kernel
theorem wit_receives_full : (let post : Posted := { cluster := 0, cmd := 5, ctx := 0, part := 0, src := 1, tag := 1 }
    let s := (se []).modUnits fun u => { u with posted := List.replicate 64 post }
    s.recvShare 0 0 ≤ (s.units.posted.filter fun r => r.cluster == 0 && r.part == 0).length) := by decide +kernel
/-- O32: a fault that is pending. -/
theorem wit_async : (let f : AsyncFault :=
      { cause := 0x0F, subc := 4, lost := 1, pos := 0, cmdpc := 0, vaddr := 0x2000, logged := false }
    let g : Group := { g0 with async := some f }
    (sg fun _ => g).scalarReady [0, 1] = some g ∧ ((sg fun _ => g).handlerReady g).isSome = true) := by decide +kernel

/-- A bundle of the placed group's context. -/
def bun (id : Nat) (entries : Nat) : Bundle :=
  { id := id, ctx := 0, part := 0, state := .resident, lines := [32, 33], entries := entries, lastLeave := 0, left := false,
    freed := false }
/-- Bundles in a partition with ways and ids for them, and classes that may use a way. -/
def bundled (s : State) (l : List Bundle) : State :=
  (s.modUnits fun u => { u with bundles := l }).modPart 0 fun p =>
    { p with bways := 4, blim := 1024, bids := 8, masks := (List.range 8).map fun i => (i, 0xFF) }
/-- O33: a record of one extent, ids that are free at 0 and after 0, a set of one and of four bundles. -/
theorem wit_declare : (let rec' := leBytes 8 0x1000 ++ leBytes 4 2 ++ List.replicate 116 0
    let s := bundled s0 [bun 0 0]
    s.declared { g0.agent with handler := false } rec' = some [32, 33] ∧ [32, 33].length ≤ (s.part 0).blim ∧
    (([32, 33].map (s.setOf 0)).all fun k => decide (([32, 33].map (s.setOf 0)).count k ≤ (s.part 0).bways)) = true ∧
    (s.units.bundles.filter fun b => b.part == 0).length < (s.part 0).bids ∧ (s.bundle? 1).isNone = true ∧
    (s.bundle? 0).isSome = true) := by decide +kernel
theorem wit_bdecl : (let g := ga 0x1F80
    let s := sg fun _ => g
    s.scalarReady [1, 2, 3] = some g ∧ (s.check g.agent .load (scalarEa g 2 0) 128).2 = .ok (.hbm 0x1F80) ∧
    s.scalarOwes g (.hbm 0x1F80) 128 = false) := by decide +kernel
theorem wit_benter : (let g := ge [9, 1, 0, 0, 4095, 0, 0, 0]
    let s := (bundled s0 [bun 1 0, bun 4095 0]).setGroup g
    s.scalarReady (regSpan 8 8) = some g ∧ g.wait = none ∧ blockOk (g.block 8) = true ∧ blockIds (g.block 8) = [1, 4095] ∧
    s.enterFault g (blockIds (g.block 8)) = none ∧ (0 : Int) ≤ (g.spc : Int) + 1 ∧ (g.spc : Int) + 1 < 2 ∧
    (((bundled s0 [bun 1 0]).setGroup g).enterFault g [1, 4095]) = some 0x02) := by decide +kernel
theorem wit_benter_entered : (let g : Group := { ge [1, 1, 0, 0, 0, 0, 0, 0] with wait := some .entered }
    (sg fun _ => g).scalarReady (regSpan 8 8) = some g) := by decide +kernel
theorem wit_bqry_bfree : (let s := bundled s0 [bun 0 0, bun 5 2]
    s.scalarReady [4, 5, 6] = some g0 ∧ s.bundle? 0 = some (bun 0 0) ∧ (bun 0 0).ctx = g0.place.ctx ∧ (bun 0 0).freed = false ∧
    (bun 0 0).entries = 0 ∧ s.inSaved 0 = false ∧ s.requested 0 0 = false ∧ (bun 5 2).entries > 0 ∧ s.bundle? 6 = none) := by decide +kernel
theorem wit_bfree_requested : (let r : BReq :=
      { grp := 0, part := 0, ids := [0], prio := 0, age := 0, handled := false, admitted := false, handler := false }
    ((bundled s0 [bun 0 0]).modPart 0 fun p => { p with reqs := [r] }).requested 0 0 = true) := by decide +kernel
/-- O34: barriers in the team's scratch and beyond it, and every clause's counts and phases. -/
theorem wit_barriers : (let s := scratched s0
    s.scalarReady [4] = some g0 ∧ g0.wait = none ∧ s.mem.flight = [] ∧ 0xFF0 % 16 = 0 ∧ s.barInside (s.teamOf g0) 0 0xFF0 = true ∧
    s.barInside (s.teamOf g0) 0 0x1000 = false ∧ (s.teamOf g0).isSome = true ∧
    ((s.teamOf g0).bind fun t => s.teamWord t 0 0xFF4) = some 0 ∧ g0.getS 4 = 0 ∧
    s.acked (s.releaseIds g0 0 .block) .block = true) := by decide +kernel
theorem wit_barrier_counts : (let g := g0.setS 4 0x40000000
    (scratched (sg fun _ => g)).scalarReady [4] = some g ∧ (g.getS 4).toNat ≤ 2 ^ 30 ∧
    2 ^ 30 < ((g0.setS 4 0x40000001).getS 4).toNat ∧
    (scratched (sg fun g => g.setS 4 0x40000001)).scalarReady [4] = some (g0.setS 4 0x40000001)) := by decide +kernel
theorem wit_barrier_phases : (let k (w p : Nat) : Nat := (w % 65536 + 65536 - p % 65536) % 65536
    k 0 65535 = 1 ∧ k 32767 0 = 32767 ∧ k 0 0 = 0 ∧ k 32768 0 = 32768) := by decide +kernel
theorem wit_barrier_released : (let g : Group := { g0 with wait := some .released }
    (sg fun _ => g).scalarReady [] = some g ∧ (sg fun _ => g).arrived ((sg fun _ => g).valuesOf 0 0) = true) := by decide +kernel
/-- O35: an event bit that is set and one that is not; a tile beyond the allocation; deadlines behind, at and ahead of time. -/
theorem wit_events : (let s := s0.modCtx 0 fun c => { c with ev := 1 }
    s.scalarReady [] = some g0 ∧ s.mem.flight = [] ∧ (s.eventVector 0).getLsbD 0 = true ∧ (s.eventVector 0).getLsbD 247 = false ∧
    g0.info.tiles = 4 ∧ ({ g0 with info := { g0.info with tiles := 1 } } : Group).info.tiles ≤ 1 ∧ Nat.testBit 2 1 = true) := by
  decide +kernel
theorem wit_waits : (let s := { s0 with ns := 5 }
    s.scalarReady [4, 5] = some g0 ∧ g0.getS 4 = 0 ∧ s.ns + 0 ≤ s.ns ∧
    (let g := g0.setS 4 1
     (s.setGroup g).scalarReady [4] = some g ∧ (s.setGroup g).ns < (s.setGroup g).ns + (g.getS 4).toNat) ∧
    (let g : Group := { g0 with wait := some (.expired 3) }
     (s.setGroup g).scalarReady [4, 5] = some g)) := by decide +kernel
/-- O35: a group that drains, at its YIELD with nothing of its own under way; one that does not drain; the next one due. -/
theorem wit_yield_drain : (let s := s0.modCluster 0 fun c => { c with
      preempt := [{ ctx := 0, start := 0, deadline := 1000, choice := 0, blocks := [(0, 0)] }] }
    s.scalarReady [] = some g0 ∧ s.preempted g0 0 = true ∧ s.atRest g0 = true ∧ s0.preempted g0 0 = false ∧
    s.atRest { g0 with dq := [{ start := 0, k := [], oldS := [] }] } = false) := by decide +kernel
/-- O36: a packet that is illegal, a context torn down, a full queue. -/
theorem wit_launch_codes : packetBad (List.replicate 63 0 ++ [1] ++ List.replicate 192 0) = true ∧
    packetBad (List.replicate 256 0) = false ∧ ((s0.modCtx 0 fun c => { c with dead := true }).ctx 0).dead = true ∧
    64 ≤ ((s0.modCtx 0 fun c => { c with dq := List.replicate 64 [] }).ctx 0).dq.length := by decide +kernel
/-- O36: a packet to read, a task id at the end of its range, and job control blocks before, at and after their expected count. -/
def jobAt5 (count : Nat) : State :=
  placed (sg fun _ => (ga 0x1040).setS 9 1) 0x1040 (Job.bytes { expect := 2, count := count, evbit := 247, fired := false, valid := true })
theorem wit_launch : (let g := ga 0x1F00
    let s := sg fun _ => g
    s.scalarReady [1, 2, 3] = some g ∧ g.wait = none ∧ s.acked (s.releaseIds g 0 .dev) .dev = true ∧ g.holds = [] ∧
    (s.check g.agent .load (scalarEa g 2 0) 256).2 = .ok (.hbm 0x1F00)) := by decide +kernel
theorem wit_jobs : (let g := (ga 0x1040).setS 9 1
    let s := jobAt5 1
    s.scalarReady [9, 2, 3] = some g ∧ (s.check g.agent (.atomic true) (scalarEa g 2 0) 64).2 = .ok (.hbm 0x1040) ∧
    g.doneList = [] ∧ s.homeOwes g (.hbm 0x1040) 64 = false ∧ s.fillPending (.hbm 0x1040) = false ∧ s.mem.mx = [] ∧ (let j := Job.ofBytes (s.locRead (.hbm 0x1040) 64)
      s.finishWide (.hbm 0x1040) = s ∧ j.valid = true ∧ j.fired = false ∧ j.expect + (g.getS 9).toNat < 2 ^ 32 ∧ j.count ≠ j.expect ∧ j.count + 1 = j.expect)) := by
  decide +kernel

/-! ## Hypotheses met: the lane stream -/

/-- A lane instruction with some operands goes on, with lanes active. -/
def laneGoes (s : State) (dsts srcs : List (Opnd × Nat)) : Bool :=
  (s.laneReady false false (some h) dsts srcs).any fun c => c.act != 0 && c.g.holds.isEmpty && c.g.pend.isEmpty && c.gang == 0xFF
/-- O37 to O41, O43, O44: operands of one and of two registers, at both ends of the file, a destination that is a source,
an immediate and a constant. -/
theorem wit_lane_one : laneGoes l0 [(.v 511, 1)] [(.v 511, 1), (.imm (-63), 1), (.s 1023, 1), (.v 0, 1)] = true := by decide +kernel
theorem wit_lane_pair : laneGoes l0 [(.v 510, 2)] [(.v 0, 2), (.imm 63, 2), (.s 1022, 2)] = true := by decide +kernel
theorem wit_lane_wide : laneGoes l0 [(.v 504, 8)] [(.v 0, 8), (.s 1016, 8), (.p 7, 1)] = true := by decide +kernel
theorem wit_lane_predicate : laneGoes l0 [(.p 0, 1)] [(.p 7, 1), (.v 3, 1), (.p 6, 1)] = true := by decide +kernel
/-- O43: a source that is an invalid rounding mode. -/
theorem wit_lane_mode : ((l0.laneReady false false (some h) [(.sp 10, 1)] [(.imm 6, 1)]).any fun c =>
    (lanesOf c.act).any fun l => decide (6 ≤ c.readMem .b32 (.imm 6) l % 8)) = true := by decide +kernel
theorem wit_lane_time : laneGoes l0 [(.v 2, 2)] [(.sp 17, 1)] = true := by decide +kernel
/-- O44: a group of 32 lanes, a group too small to transpose bytes, tiles, and an element at the edge of a tile. -/
theorem wit_lane_tiles : laneGoes l0 [(.a 3, 1)] [(.v 0, 8), (.imm 63, 1), (.v 9, 1)] = true ∧
    laneGoes l0 [(.v 0, 8)] [(.a 0, 1), (.v 8, 1), (.v 9, 1)] = true ∧ ITy.n64.unpacked = true ∧ gl.info.size ≤ 32 ∧
    ¬ ({ gl with info := { gl.info with size := 0 } } : Group).info.size ≥ 2 := by decide +kernel
/-- O42: a value of each format. -/
theorem wit_formats : ((fp32.decode 0x3F800001).isNan = false) ∧ (fp16.decode 0x0001).isNan = false ∧ (bf16.decode 0xFF80).isNan = false ∧
    (e4m3.decode 0x7E).isNan = false ∧ (e5m2.decode 0x7C).isNan = false := by decide +kernel
/-- O45. -/
theorem wit_lane_land : (l0.laneWork false false (some h)).any (fun c => c.g.pend.isEmpty && c.gang != 0) = true := by decide +kernel

/-- The lane group with an address below 2^32 in v2 and v3 of every lane. -/
def gla (va : Nat) : Group :=
  { gl with regs := { gl.regs with v := (List.range 32).map fun l => (64 + l, BitVec.ofNat 32 va) } }
/-- The checks of a lane access at that address, or in lane l at `step·l` from it. -/
def laneAccess (va : Nat) (w : Want) (n step : Nat) : List LaneChk :=
  match (l0.setGroup (gla va)).laneReady false false (some h) [(.v 1, 1)] [(.v 2, 2)] with
  | none => []
  | some c => (c.s.laneChecks c.g (c.g.lanes.wpSkip &&& c.gang != 0) w .dflt
      (fun l => wrapTo 64 (((c.read 2 (fun _ => 0) (.v 2) l + step * l : Nat) : Int) + 4)) n (lanesOf c.act)).2
/-- O46: every lane passes, up to the last bytes of the page. -/
theorem wit_lane_access : (laneAccess 0x1FF8 .load 4 0).length = 32 ∧
    ((laneAccess 0x1FF8 .load 4 0).all fun x => x.chk == .ok (.hbm 0x1FFC)) = true ∧
    ((laneAccess 0x1000 .store 4 8).all fun x => match x.chk with | .ok _ => true | _ => false) = true ∧
    ((laneAccess 0x1004 (.atomic true) 8 8).all fun x => match x.chk with | .ok _ => true | _ => false) = true := by decide +kernel
/-- O47: a lane that fails a step that stops the instruction, all lanes without a translation, and some of them. -/
theorem wit_lane_faults : ((laneAccess 0x1001 .load 4 0).all fun x => x.chk == .fail 2 0x03) = true ∧
    ((laneAccess 0x2000 .load 4 0).all fun x => x.chk == .fail 3 0x04) = true ∧ laneAccess 0x2000 .load 4 0 ≠ [] ∧
    ((laneAccess 0x1FBC .load 4 4).all fun x => x.chk == .fail 3 0x04 || match x.chk with | .ok _ => true | _ => false) = true ∧
    ((laneAccess 0x1FBC .load 4 4).any fun x => x.chk == .fail 3 0x04) = true ∧
    ((laneAccess 0x1FBC .load 4 4).any fun x => x.chk == .ok (.hbm 0x1FFC)) = true := by decide +kernel

/-- O36: job control blocks that are not valid, that have fired, and whose count has reached its expectation; a done list that
holds the block, and one that is full. -/
theorem wit_job_traps : (let read (s : State) : Job := Job.ofBytes (s.locRead (.hbm 0x1040) 64)
    let job (j : Job) : State := placed (sg fun _ => ga 0x1040) 0x1040 j.bytes
    let j : Job := { expect := 2, count := 2, evbit := 247, fired := false, valid := true }
    (read (placed s0 0x1040 (leBytes 8 0 ++ leBytes 8 0x200 ++ List.replicate 48 0))).valid = false ∧ (read (job { j with fired := true })).fired = true ∧
    (read (job j)).count = (read (job j)).expect ∧ (job j).acked ((job j).releaseIds g0 0 .dev) .dev = true ∧
    (let g := { ga 0x1040 with doneList := List.range 16 }
     (sg fun _ => g).scalarReady [2, 3] = some g ∧ 0x1040 ∉ g.doneList ∧ 16 ≤ g.doneList.length) ∧
    (let g := { ga 0x1040 with doneList := [0x1040] }
     (sg fun _ => g).scalarReady [9, 2, 3] = some g ∧
       ((sg fun _ => g).check g.agent (.atomic true) (scalarEa g 2 0) 64).2 = .ok (.hbm 0x1040))) := by decide +kernel
/-- O47: a trap of the lane stream need not wait, and nothing issued before may still fault. -/
theorem wit_lane_fault_ready : ((l0.laneReady false false (some h) [(.v 1, 1)] [(.v 2, 2)]).any fun c => !c.trapWaits c.s.nextId &&
    !c.s.mayFault c.g c.s.nextId && (c.s.handlerReady (c.g.landOf c.gang)).isSome) = true := by decide +kernel
/-- O47: the turn of a lane stream whose access has faulted in lanes 0 and 1, with nothing to wait for and with a load. -/
theorem wit_part_fault :
    let f : PartFault := { own := 0xFF, cause := 0x04, subc := 0, lpc := 0, lanes := 3 }
    let g := { gl with lanes := { gl.lanes with fault := some f } }
    let at' (s : State) : Lane := { s := s, g := gl, gang := 0xFF, pc := 0, act := 3 }
    let s := handled ((State.reset.withFetchWord 96 0).setGroup g)
    s.nextTurn = .lane 0 0 ∧ s.begin.group? 0 = some g ∧ g.lanes.running = true ∧ gangOf g.lanes.strands 0 ≠ 0 ∧
    s.begin.hasTokens g = true ∧ g.holdFirst = false ∧ (s.begin.cluster 0).withhold = false ∧
    (at' s.begin).trapWaits s.begin.nextId = false ∧ (s.begin.handlerReady (gl.landOf 0xFF)).isSome = true ∧
    (at' (flying s.begin [laneLoad .load])).trapWaits s.begin.nextId = true := by decide +kernel

/-- The strands of the placed lane group, changed. -/
def strand (f : Nat → Strand → Strand) : Group :=
  { gl with lanes := { gl.lanes with strands := (gl.lanes.strands.zip (List.range 8)).map fun e => f e.2 e.1 } }
/-- The lane work of a group in a state when its gang has the turn. -/
def work (s : State) (rg : Bool) (hd : Option Hdr) : Option Lane := s.laneReady rg false hd [] []
/-- The divergence entry of a call, and of a branch whose join is at the gang's PC. -/
def callEnt : StackEnt := { jpc := 0x3FFFFF, npc := 0, pend := 0, save := 15 }
def joinEnt : StackEnt := { jpc := 0, npc := 0, pend := 8, save := 15 }
/-- O48: branches whose target is the edge of the section, with room on the stack, and without taken lanes; a return; joins with
lanes pending, without, of another branch and without a stack; an end with every strand there, and with one away. -/
theorem wit_branch : ((work l0 false (some h)).any fun c => decide ((c.pc : Int) + 0 < c.s.laneLen c.g) &&
    c.strands.all fun e => decide (e.1.stack.length ≠ 8)) = true ∧
    ((work (l0.setGroup (strand fun _ x => { x with stack := List.replicate 7 joinEnt })) false (some h)).any fun c =>
      c.strands.all fun e => decide (e.1.stack.length ≠ 8)) = true := by decide +kernel
theorem wit_call_return : ((work (l0.setGroup (strand fun _ x => { x with stack := [callEnt] })) false (some h)).any fun c =>
    !c.strands.isEmpty && c.strands.all fun e => (e.1.stack.head?.map (·.jpc)) == some 0x3FFFFF) = true := by decide +kernel
theorem wit_lexit : ((work l0 false (some h)).any fun c => c.g.gen.isNone && c.act != 0) = true ∧
    ((work (lg fun _ => { gL with lanes := gl.lanes }) false (some h)).any fun c => c.g.trap.isSome) = true := by decide +kernel
/-- A stack for each kind of strand that a join meets. -/
def joinStack (j : Nat) : List StackEnt :=
  if j = 0 then [joinEnt] else if j = 1 then [{ joinEnt with pend := 0 }] else if j = 2 then [{ joinEnt with jpc := 9 }] else []
theorem wit_join : ((work (l0.setGroup (strand fun j x => { x with active := if j = 0 then 7 else x.active, stack := joinStack j }))
    true none).any fun c => c.pc == 0 && c.gang == 0xFF) = true := by decide +kernel
theorem wit_lend : ((work l0 true none).any fun c => c.g.gen.isNone && (c.strands.all fun e => e.1.stack.isEmpty) &&
      (modStrands c.gang (fun _ x => { x with reached := true }) c.g.lanes.strands).all fun x => !x.part || x.reached) = true ∧
    ((work (l0.setGroup (strand fun j x => if j = 7 then { x with pc := 5, gang := 7 } else x)) true none).any fun c =>
      !((modStrands c.gang (fun _ x => { x with reached := true }) c.g.lanes.strands).all fun x => !x.part || x.reached)) = true := by
  decide +kernel

/-- O49: a launch of two lane words whose second word is GEND. -/
def lGen : State :=
  (placed l0 0x180C (((encode (.gend false false)).map fun w => leBytes 4 w).flatten)).modUnits fun u =>
    { u with launches := u.launches.map fun x => { x with laneLen := 2 } }
theorem wit_gbeg : ((work lGen false none).any fun c => c.g.trap.isNone && c.g.info.gen && c.g.gen.isNone && c.wholeGroup &&
    c.s.holdsGend c.g (c.pc + 1) && decide ((c.pc : Int) + 1 < c.s.laneLen c.g)) = true := by decide +kernel
/-- An open loop of one-register items, in a mode, with frames as given. -/
def loop (m : GenMode) (st0 st1 : FrameStatus) (fc : Nat) (ready : List Nat) : Gen :=
  { owner := List.range 32, vw := 0, thr := 0, mode := m, st0 := st0, st1 := st1, fc := fc, ready := ready, cur := 0, size := 32,
    pend := none, yielder := 0, done := 0, prodPc := 0, consPc := 0, endPc := 0, savedProd := some gl.lanes, outer := List.replicate 8 [joinEnt],
    move := none, atEnd := true, slots := [] }
def lLoop (n : Gen) : State := lg fun g => { g with gen := some n }
/-- The lane work in a loop. -/
def inLoop (n : Gen) (hd : Option Hdr) (p : Lane → Bool) : Bool := (work (lLoop n) false hd).any fun c => c.g.gen == some n && p c
/-- GYLD with a frame that has room, that it fills exactly, and with no fill frame; GNXT and GDNE in the producer. -/
theorem wit_yield : inLoop { loop .producer .fill .free 0 [] with size := 64 } (some h) (fun c => (lanesOf c.act).length == 32) = true ∧
    inLoop (loop .producer .fill .free 0 []) (some h) (fun c => (lanesOf c.act).length == 32) = true ∧
    (loop .producer .fill .free 0 []).fill? = some 0 ∧ (loop .producer .ready .ready 0 [0, 1]).fill? = none ∧
    inLoop (loop .producer .ready .ready 0 [0, 1]) (some h) (fun c => c.act != 0) = true := by decide +kernel
theorem wit_yield_room : (loop .producer .fill .free 30 []).fc + 1 < 32 ∧
    inLoop (loop .producer .fill .free 31 []) (some { h with gp := 0, gq := 7 }) (fun c => (lanesOf c.act).length == 0) = true := by
  decide +kernel
theorem wit_consumer : inLoop (loop .consumer .ready .ready 0 [1]) none (fun c => c.strands.all fun e => e.1.stack.isEmpty) = true ∧
    inLoop (loop .consumer .ready .ready 0 []) none (fun c => (modStrands c.gang (fun _ x => { x with reached := true }) c.g.lanes.strands).all fun x => !x.part || x.reached) = true ∧
    inLoop (loop .drain .ready .fill 3 []) none (fun c => c.pc == 0) = true ∧
    inLoop (loop .drain .ready .fill 3 []) (some h) (fun c => c.act != 0) = true := by decide +kernel
theorem wit_switches : (let n := { loop .producer .ready .free 0 [0] with move := some .toConsumer }
    let s := lLoop n
    s.group? 0 = some { gl with gen := some n } ∧ s.gangLoads { gl with gen := some n } 0xFF = [] ∧
    s.mayFault { gl with gen := some n } s.nextId = false ∧ gl.lanes.fault = none ∧
    (flying s [laneLoad .load]).gangLoads { gl with gen := some n } 0xFF ≠ []) := by decide +kernel
theorem wit_switches_back : (let n (m : GenMove) := { loop .consumer .free .free 0 [] with move := some m }
    (lLoop (n .toProducer)).group? 0 = some { gl with gen := some (n .toProducer) } ∧ (n .toProducer).savedProd.isSome = true ∧
    (lLoop (n .toDrain)).group? 0 = some { gl with gen := some (n .toDrain) }) := by decide +kernel

/-- An addition object of capacity 8 and window length 4 in the team's scratch, wa2 bound to it (R268). -/
def waObj (w1 w2 : Nat) : State :=
  let s := scratched (lg fun g => { g with wa := [(2, 0)] })
  s.locWrite (.scr 0 0) (leBytes 4 (8 * 256) ++ leBytes 4 w1 ++ leBytes 4 w2 ++ leBytes 4 1 ++ leBytes 4 0)
/-- A window operation that has arrived. -/
def arr (op : WOp) : WArr :=
  { id := 0, core := 0, grp := 0, own := 0xFF, act := 0xFFFFFFFF#32, pc := 0, handler := false, begun := false, op := op }
def arrived (s : State) (op : WOp) : State := s.modUnits fun u => { u with ratchet := [arr op] }
/-- The outcome of an operation: it is performed, or it traps. -/
def waOk (s : State) (op : WOp) : Bool :=
  match s.group? 0, (s.team? 0 0 0) with
  | some g, some t => match s.waRun g t (BitVec.allOnes 32) op with
    | .ok _ _ => true
    | _ => false
  | _, _ => false
def waTrap (s : State) (op : WOp) : Option (Nat × Nat) :=
  match s.group? 0, (s.team? 0 0 0) with
  | some g, some t => match s.waRun g t (BitVec.allOnes 32) op with
    | .trap c d => some (c, d)
    | _ => none
  | _, _ => none
/-- O50: operations with active lanes and without; an arrived operation that is performed, one that traps, one that is held. -/
theorem wit_window_issue : ((l0.laneReady false false (some h) [(.v 1, 1)] [(.imm 3, 1), (.v 4, 1)]).any fun c => c.act != 0) = true ∧
    ((l0.laneReady false false (some { h with gp := 15, gq := 15 }) [] [(.imm 3, 1), (.imm 4, 1)]).any fun c => c.act == 0) = true := by
  decide +kernel
/-- O50: a gang whose memory instructions an acquire holds, and one that is free of it. -/
theorem wit_window_held : (let g : Group := { gl with holds := [acquireHold 0xFF [900] .team] }
    ((l0.setGroup g).laneReady false false (some h) [] [(.imm 3, 1)]).any (fun c => c.act != 0 && c.g.memHeld c.gang) = true) ∧
    gl.memHeld 0xFF = false := by decide +kernel
theorem wit_ratchet : (let s := arrived (waObj 4 0) (.reset 2)
    (s.units.ratchet.filter fun a => a.core == 0)[0]? = some (arr (.reset 2)) ∧ (s.group? 0).isSome = true ∧
    (s.team? 0 0 0).isSome = true ∧ s.waBlocked (arr (.reset 2)) = false ∧ waOk s (.reset 2) = true ∧
    waTrap s (.reset 5) = some (0x0D, 1) ∧ gl.suspended = false ∧
    (let c (s : State) : Lane := { s := s, g := gl, gang := 0xFF, pc := 0, act := 0 }
     (c { s with units := { s.units with ratchet := [] } }).trapWaits 0 = false ∧ (c (flying s [laneLoad .load])).trapWaits 901 = true)) := by
  decide +kernel
theorem wit_ratchet_held : (let s := flying (arrived (waObj 4 0) (.reset 2)) [{ laneLoad .store with id := 0, loc := .scr 0 8 }]
    s.waBlocked { arr (.reset 2) with id := 1 } = true) := by decide +kernel
theorem wit_window_objects : waOk (waObj 4 1) (.expire 2 1) = true ∧ waTrap (waObj 0 0) (.expire 2 1) = some (0x0D, 4) ∧
    waTrap (waObj 4 0) (.wlen 2 0) = some (0x0D, 3) ∧ waTrap (waObj 4 0) (.wlen 2 9) = some (0x0D, 3) := by decide +kernel

/-! ## Hypotheses met: units -/

/-- A scalar store of four bytes in flight at 0x1900, performed or not, and other kinds of access. -/
def acc (k : AccKind) (f : Access → Access) : State := flying s0 [f { laneLoad k with id := 5 }]
/-- O51. -/
theorem wit_core_ack : (let s := acc .store id
    (s.acc? 5).any fun a => a.kind.writes && !a.coreAck && !a.loc.isScr && s.acked a.relWait a.sc && s.drained a.drain &&
      !s.orderedAfter a) = true := by decide +kernel
theorem wit_perform : (let s := acc .store fun a => { a with coreAck := true }
    (s.acc? 5).any fun a => !a.performed && a.loc.real a.size && decide (a.data.length = a.size) && !s.writeBehind a && !s.fillPending a.loc && a.coreAck &&
      !s.promHeld a && (s.mem.flight.all fun b => !b.midStore a.loc)) = true ∧ s0.mem.mx = [] ∧ s0.mem.l2 = [] ∧
    (let s := acc .store fun a => { a with coreAck := true, size := 32, data := List.replicate 32 9, parts := [0, 8, 16] }
     (s.acc? 5).any fun a => !s.writeBehind a && a.partsLeft == [24] && decide (a.data.length = a.size)) = true ∧
    (let s := acc .cas fun a => { a with coreAck := true }
     (s.acc? 5).any fun a => a.kind.isAtomic && !s.writeBehind a) = true ∧
    (let s := acc .store fun a => { a with loc := .scr 0 16 }
     (s.acc? 5).any fun a => a.loc.isScr && a.loc.real 4 && s.acked a.relWait a.sc && s.drained a.drain) = true := by decide +kernel
theorem wit_range_perform : (let s := acc .writeBack fun a => { a with lines := [.hbm 0x1900] }
    (s.acc? 5).any fun a => !a.performed && !s.lineBehind a && a.lines == [.hbm 0x1900]) = true ∧
    (let s := acc .invalidate id
     (s.acc? 5).any fun a => a.lines.isEmpty && !s.lineBehind a) = true := by decide +kernel
theorem wit_home_ack : (let s := acc .store fun a => { a with performed := true }
    (s.acc? 5).any fun a => a.kind.counts && a.performed && !a.accepted && (s.group? a.grp).isSome) = true := by decide +kernel
theorem wit_update : (laneLoad (.rmwScalar .add)).data = leBytes 4 0x04030201 ∧ 0x04030201 < 256 ^ 4 ∧
    (laneLoad .cas).update 0x04030201 = some 0x08070605 ∧ (laneLoad .cas).update 0 = none := by decide +kernel
/-- O52: loads that are ready, accepted and with a value, a copy in the core, and a block to start. -/
theorem wit_loads : (let s := acc .load id
    (s.acc? 5).any fun a => s.loadReady a && !a.accepted && !a.setsMode) = true ∧
    (let s := acc .load fun a => { a with dests := [.sp 10 0], value := some [5, 0, 0, 0] }
     (s.acc? 5).any fun a => a.setsMode && (s.modeLoads a == [a]) && (a.words [5, 0, 0, 0]).map (·.2) == [5]) = true ∧
    (let s := acc .load fun a => { a with accepted := true }
     (s.mem.flight.filter fun x => x.kind == .load && x.accepted && x.value.isNone && x.loc.lineKey == (Loc.hbm 0x1900).lineKey).length == 1) = true ∧
    ((acc .load fun a => { a with value := some [1, 2, 3, 4] }).acc? 5).any (fun a => a.value.isSome) = true ∧
    ((acc .cas fun a => { a with value := some [1, 2, 3, 4], accepted := true }).acc? 5).any (fun a => a.dests != []) = true := by
  decide +kernel
/-- O52: an acquire at device scope, which reads its home slice, and one with PROM that waits for another core's writes. -/
theorem wit_home_loads : (let s := acc .load fun a => { a with ord := .acq, sc := .dev, accepted := true }
    (s.acc? 5).any fun a => a.readsHome && !s.promHeld a) = true ∧
    (let w : Access := { laneLoad .store with id := 7, core := 1, coreAck := true }
     let a : Access := { laneLoad .load with id := 5, ord := .acq, sc := .dev, drain := some 3, accepted := true }
     let s := s0.modMem fun m => { m with flight := [w, a], prom := [(1, 0, [7])] }
     (s.acc? 5).any fun a => s.promHeld a) = true := by decide +kernel
theorem wit_load_copy : (let c : L1Line := { core := 0, part := 0, scalar := false, loc := .hbm 0x1900, data := List.replicate 128 7, prio := 1, past := [] }
    let s := (acc .load id).modMem fun m => { m with l1 := [c] }
    ((s.acc? 5).bind s.loadCopy) = some [7, 7, 7, 7]) := by decide +kernel
theorem wit_block_start : (let q : QBlock := { start := 0, k := [], oldS := [] }
    ((sg fun g => { g with dq := [q] }).group? 0).any (fun g => g.dq == [q] && !g.lanes.running &&
    g.regs.live != 0 && !g.suspended) = true ∧ ((lg fun g => { g with dq := [q] }).group? 0).any (fun g => g.lanes.running) = true) := by
  decide +kernel

/-- O53: a request to a resident set, one to a declared set that fits, and one that cannot. -/
def req (ids : List Nat) (handled admitted : Bool) : BReq :=
  { grp := 0, part := 0, ids := ids, prio := 0, age := 0, handled := handled, admitted := admitted, handler := false }
def reqs (s : State) (l : List BReq) : State := s.modPart 0 fun p => { p with reqs := l }
theorem wit_requests : (let s := reqs (bundled s0 [bun 0 0]) [req [0] false false]
    (s.part 0).reqs = [req [0] false false] ∧ ([0].all fun i => (s.bundle? i).any fun b => b.state == .resident) = true ∧
    (s.part 1).reqs = []) := by decide +kernel
theorem wit_admission : (let s₀ := reqs (bundled s0 [{ bun 0 0 with state := .declared }]) [req [0] true false]
    let s := s₀.handleRequests 0 (s₀.part 0).reqs
    headOf ((s.part 0).reqs.filter fun r => r.handled && !r.admitted) = some (req [0] true false) ∧
    s.admission 0 (req [0] true false) false = some [] ∧ s.fitsAfter 0 [32, 33] [] = true ∧
    ((s.modPart 0 fun p => { p with blim := 1 }).admission 0 (req [0] true false) false) = none) := by decide +kernel
theorem wit_admission_evicts : (let s := (reqs (bundled s0 [{ bun 0 0 with state := .declared, lines := [40, 41] }, bun 1 0])
      [req [0] true false]).modPart 0 fun p => { p with blim := 2 }
    let s := s.handleRequests 0 (s.part 0).reqs
    s.admission 0 (req [0] true false) false = some [1]) := by decide +kernel
theorem wit_evict_fill : (let s := bundled s0 [{ bun 0 0 with state := .evicting }]
    (s.bundle? 0).any (fun b => b.state == .evicting && !b.freed) = true ∧ s.inBundleWay 32 = false) ∧
    (let s := reqs (bundled s0 [{ bun 0 0 with state := .filling }]) [req [0] true true]
     ((s.plat.parts.flatMap fun e => e.2.reqs).find? fun r => r.grp == 0 && r.admitted) = some (req [0] true true) ∧
     s.fillBlocked 0 (s.linesOfIds [0]) = false ∧ (s.bundle? 0).any (fun b => b.state == .filling) = true ∧
     ((bundled s [{ bun 0 0 with state := .declared }]).bundle? 0).any (fun b => b.state == .filling || b.state == .resident) = false) ∧
    (let s := (reqs (bundled s0 [{ bun 0 0 with state := .filling }, { bun 1 0 with state := .evicting, lines := [98336] }])
       [req [0] true true]).modMem fun m => { m with l2 := [{ line := 98336, dirty := true, backing := [], way := some 0, prio := 1 }] }
     s.fillBlocked 0 (s.linesOfIds [0]) = true) := by decide +kernel
theorem wit_hold_limit : (let g := { g0 with holdTimer := some { start := 0, grp := 0, age := 0 }, entered := some { ids := [0], age := 0, prio := 0 } }
    let s := ((bundled (sg fun _ => g) [bun 0 1]).modPart 0 fun p => { p with bhold := 100 })
    let s := reqs s [{ req [1] true false with grp := 1 }]
    ({ s with ns := 100 }).group? 0 = some g ∧ 0 + (s.part 0).bhold ≤ 100 ∧ g.saved = none) ∧
    (let g := { g0 with holdTrap := true }
     ((sg fun _ => g).handlerReady g).isSome = true) := by decide +kernel

/-- O54: commands that are queued, finished, that meet a fault, and messages for each status. -/
def cmd (kind : CmdKind) (total : Nat) (done : List Nat) (st : CmdState) : Cmd :=
  { g0.command 7 kind (.task 3) 0 total with done := done, state := st, recs := [rec64 1] }
def cmds (s : State) (l : List Cmd) : State := s.modUnits fun u => { u with cmds := l }
theorem wit_commands : (cmds s0 [cmd (.mzro 1) 4 [] .queued]).cmd? 7 = some (cmd (.mzro 1) 4 [] .queued) ∧
    (cmds s0 [cmd (.mzro 1) 4 [] .queued]).cmdHeld (cmd (.mzro 1) 4 [] .queued) = false ∧
    (cmd (.mzro 1) 1 [0] .running).finished = true ∧ (cmd (.mzro 1) 1 [0] .running).compl = .task 3 := by decide +kernel
theorem wit_engine_fault : (let c := cmd (.copy 0x5000 [0, 0, 0, 0] [1, 1, 1, 1]) 1 [] .running
    match (cmds s0 [{ c with bufs := [(0x480, [1, 2, 3, 4])] }]).unitStep { c with bufs := [(0x480, [1, 2, 3, 4])] } 0 with
    | .fault s _ _ _ va => va == 0x5000 && (s.group? 0).isSome
    | _ => false) = true := by decide +kernel
theorem wit_follow_on : ({ cmd (.mzro 1) 1 [] .queued with waitsFor := some 6 } : Cmd).waitsFor = some 6 ∧
    (cmds s0 [cmd (.mzro 1) 1 [] .queued]).cmdLive 7 = true ∧ (cmds s0 []).cmdLive 7 = false := by decide +kernel
theorem wit_batch_complete : ((sg fun g => { g with batch := 1 }).group? 0).any (fun g => g.doneBatch != g.batch) = true ∧
    (cmds s0 []).units.cmds = [] ∧ ((cmd (.mzro 1) 1 [] .queued).grp = 0) := by decide +kernel
/-- An indexed right-hand record whose sub-records start at 0x1040 (R283). -/
def recIdx : List Byte :=
  leBytes 8 0 ++ leBytes 8 0x1040 ++ List.replicate 28 0 ++ leBytes 4 (1 + 512 + 16 * 65536) ++ leBytes 4 0x30007 ++ leBytes 4 2 ++ leBytes 8 0
theorem wit_segments : (let b := [0, 0, 0, 0, 0x0020_0080, 0, 0, 0x0010_0000].map (BitVec.ofNat 32)
    let c : Cmd := { cmd (.mmac b [1]) 256 [] .running with recs := [rec64 1, recIdx], ring := [7] }
    let s := cmds (se []) [c]
    (c.record 1).indexed = true ∧ 1 < (c.record 1).nsub ∧ 0 * (c.record 1).segrows < mnSize (bits (blkWord b 4) 2 2) ∧ c.subRecs = [] ∧
    (match s.readRecord c.agent (((c.record 1).scale + 64 * 1) % 2 ^ 64) with
      | (_, .ok bs) => let r := TRec.ofBytes bs
        r.keyOk c.ring false && r.plainOk && r.fmt == (c.record 1).fmt && r.blk == (c.record 1).blk && boxOk r [0, 0] [32, 16]
      | _ => false) = true) := by decide +kernel
theorem wit_record_evict : (let e : RecEnt := { cluster := 3, ctx := 0, addr := 0x1040, data := rec64 1, missing := [] }
    ((s0.modUnits fun u => { u with recs := [e] }).units.recs.filter fun e => e.cluster == 3)[0]? = some e) := by decide +kernel
/-- A message that has left its buffer, to a cluster with a group and to one with none. -/
def sent (dst : Nat) : Cmd :=
  { cmd (.send 0x1400 1 dst 9 4 false) 1 [0] .running with bufs := [(0x500, [5, 0, 0, 0])] }
theorem wit_message_arrival : (let s := cmds s0 [sent 0]
    let m : Msg := { src := 0, tag := 9, len := 1, data := [5], holes := [], fromQ := false }
    let post : Posted := { cluster := 0, cmd := 8, ctx := 0, part := 0, src := 0x7F, tag := 9 }
    s.cmd? 7 = some (sent 0) ∧ s.sendsBefore (sent 0) 0 9 = false ∧ (s.groups.any fun g => g.place.ctx == 0 && clusterOf g.place.core == 0) = true ∧
    (s.groups.any fun g => g.place.ctx == 0 && clusterOf g.place.core == 5) = false ∧ msgMatches post.src post.tag m = true ∧
    (s.units.posted.find? fun p => p.cluster == 0 && p.ctx == 0 && msgMatches p.src p.tag m) = none ∧ 0 < s.recvShare 0 0) := by
  decide +kernel

/-- O55: an arrival in the team's scratch, counts on either side of the pending one, a released barrier, decrements of a counter
of 2 and of 1 and of a task that is not armed, and a timed wait. -/
theorem wit_arrivals : (let a : BArr := { core := 0, addr := 0xFF0, launch := 0, blk := 0, team := 0, cls := 2, bytes := 5, grp := 0, pc := 0 }
    let s := (scratched s0).modUnits fun u => { u with arrivals := [a] }
    s.units.arrivals[0]? = some a ∧ s.units.arrivals.take 0 = [] ∧ (s.units.teams.find? fun t => t.launch == 0 && t.blk == 0 && t.core == 0).any
      (fun t => s.barInside (some t) 0 0xFF0 && (s.teamScratch t 0 0xFF0).isSome) = true) := by decide +kernel
theorem wit_byte_barrier : (let b : ByteBar := { count := 2 ^ 30, phase := 65535, posted := true, ovr := false, last := 0 }
    b.count ≤ 2 ^ 30 ∧ 2 ^ 30 - 1 < b.count ∧ 2 ^ 30 = b.count ∧ b.count + (2 ^ 30 - 1) < 2 ^ 31) ∧
    (let e : ByteBar := { count := 2 ^ 32 - 5, phase := 65535, posted := false, ovr := false, last := 0 }
     (e.post 5).phase = 0 ∧ (e.post 3).ovr = true ∧ (e.post 7).count = 2) := by decide +kernel
theorem wit_wave : (let k : Barrier := { launch := 0, blk := 0, team := none, n := 3, arrived := [], leaving := [0] }
    (s0.modUnits fun u => { u with barriers := [k] }).units.barriers[0]? = some k) := by decide +kernel
theorem wit_decrement : (let t (n : Nat) : Task := { armed := true, counter := n, packet := [] }
    let s := (s0.modCtx 0 fun c => { c with tasks := [(1, t 1), (2, t 2)] }).modUnits fun u => { u with decrements := [(5, 0, 1), (6, 0, 2), (7, 0, 3)] }
    s.units.decrements[2]? = some (7, 0, 3) ∧ ((s.units.decrements.take 2).all fun e => e.1 != 7) = true ∧ (tget Task.reset (s.ctx 0).tasks 3).armed = false ∧ 1 < (tget Task.reset (s.ctx 0).tasks 2).counter ∧
    (tget Task.reset (s.ctx 0).tasks 1).counter = 1 ∧ (s.ctx 0).dq.length < 64 ∧ (s.ctx 0).waiting = []) := by decide +kernel
theorem wit_timed : ((sg fun g => { g with wait := some (.timed 9) }).group? 0).any (fun g => g.wait == some (.timed 9) && !g.suspended &&
    g.trap.isNone) = true := by decide +kernel

/-- Page tables of context 0 at 0x8000 that map the page 0x2000, and an image header there (R112, R386). -/
def image : State :=
  let s := s0.modCtx 0 fun c => { c with ptroot := 0x8000 }
  let s := [(0x8000, 0x9001), (0x9000, 0xA001), (0xA000, 0xB001), (0xB000, 0xC001), (0xC010, 0x200F)].foldl
    (fun s e => placed s e.1 (leBytes 8 e.2)) s
  placed s 0x2000 ([0x45, 0x42, 0x49, 0x01] ++ leBytes 2 1 ++ leBytes 2 0 ++ [4, 0, 0xFF, 0] ++ leBytes 2 32 ++ leBytes 2 64 ++
    leBytes 4 0 ++ leBytes 4 0 ++ leBytes 4 0x80 ++ leBytes 4 8 ++ leBytes 4 0x90 ++ leBytes 4 12)
/-- A packet with some flags, team and group counts, wait mask and task words (R330). -/
def packet (mask flags teams groups task count : Nat) : List Byte :=
  leBytes 32 mask ++ leBytes 32 0 ++ leBytes 4 (flags % 2) ++ leBytes 4 (teams * 2 ^ 16 + groups * 2 ^ 20) ++ leBytes 4 1 ++ leBytes 4 1 ++
    leBytes 4 1 ++ leBytes 4 0 ++ leBytes 8 0x2000 ++ leBytes 4 task ++ leBytes 4 count ++ List.replicate 152 0
def queued (raw : List Byte) : State := image.modCtx 0 fun c => { c with dq := [raw], ev := 1 }
/-- O56: no queue; a packet that launches, one that consumes, one with no team, one that arms a task and one with a bad count. -/
theorem wit_dispatch_none : s0.chosenQueue = none := by decide +kernel
theorem wit_dispatch : (let raw := packet 1 1 1 2 0 0
    let s := queued raw
    s.chosenQueue = some (5 * 0 + 4) ∧ s.headPacket 0 4 = some raw ∧ (Packet.ofBytes raw).consume = true ∧
    (Packet.ofBytes raw).arm = false ∧ ((s.launchOf 0 4 raw).any fun l => l.groups == 2 && l.info.vregs == 32) = true) := by decide +kernel
theorem wit_dispatch_places : (let raw := packet 1 1 1 2 0 0
    ((queued raw).launchOf 0 4 raw).any fun l => (queued raw).placeable l) = true := by decide +kernel
theorem wit_dispatch_too_big : (let raw := packet 0 0 2 2 0 0
    ((queued raw).launchOf 0 4 raw).any fun l => !(queued raw).placeable l) = true := by decide +kernel
theorem wit_dispatch_refuses : (let raw := packet 1 0 0 1 0 0
    (queued raw).chosenQueue = some 4 ∧ (Packet.ofBytes raw).arm = false ∧ (queued raw).launchOf 0 4 raw = none) := by decide +kernel
theorem wit_dispatch_arms : (let raw (n : Nat) := packet 0 0 1 1 (1024 + 5) n
    (queued (raw 1)).chosenQueue = some 4 ∧ (Packet.ofBytes (raw 65535)).arm = true ∧ (Packet.ofBytes (raw 65535)).clean = true ∧
    (Packet.ofBytes (raw 65535)).tcount = 65535 ∧ (tget Task.reset ((queued (raw 1)).ctx 0).tasks 5).armed = false ∧
    (Packet.ofBytes (raw 65536)).tcount = 65536 ∧ (Packet.ofBytes (raw 0)).tcount = 0) := by decide +kernel
/-- A launch with a block to place, where it fits beside the placed group and where it does not. -/
def toPlace (vregs sregs : Nat) : State :=
  s0.modUnits fun u => { u with launches := [{ probeLaunch 9 with nextBlk := 0, info :=
    { (probeLaunch 9).info with vregs := vregs, sregs := sregs, tiles := 0, gen := false } }] }
theorem wit_place : (let s := toPlace 32 64
    (s.launch? 9).any fun l => decide (l.nextBlk < l.blocks) && !(s.ctx l.ctx).dead && !s.behind l && !s.resumeFirst l && s.lastRunOver 9 &&
      (s.placeMany .widest 9 1).isSome) = true := by decide +kernel
theorem wit_place_full : (let s := toPlace 32 32768
    (s.launch? 9).any fun l => decide (l.nextBlk < l.blocks) && !(s.placeMany .widest 9 1).isSome) = true ∧
    ((toPlace 32 32768).placeMany (.free (toPlace 32 32768).draws) 9 1).isSome = false := by decide +kernel

/-- O56: estimates of a pair within 10 % and beyond, either way. -/
theorem wit_balance : (s0.setLoad 0 100).lighter 0 = some 1 ∧ ((s0.setLoad 0 100).setLoad 1 91).lighter 0 = none ∧
    ((s0.setLoad 0 89).setLoad 1 100).lighter 0 = some 0 ∧
    ((s0.modCluster 0 fun c => { c with balance := 2 }).setLoad 0 100).lighter 0 = some 1 := by decide +kernel
/-- O57: a block that is held, each choice, a cluster that pre-empts, a group to be saved with room and without, and saved blocks. -/
def drainable (drain : Nat) (restart : Bool) (deadline : Nat) : State :=
  (s0.modUnits fun u => { u with launches := u.launches.map fun l =>
    { l with drainns := drain, info := { l.info with restart := restart } } }).modPart 0 fun p => { p with pdeadline := deadline }
theorem wit_preempt : (drainable 1000 false 1).heldBlocks 0 0 = [(0, 0)] ∧ (drainable 1000 false 1).blockGoing 0 (0, 0) = false ∧
    (drainable 1000 false 1).firstCluster (0, 0) = some 0 ∧
    (drainable 1000 false 1).drainInTime [(0, 0)] 1000 = true ∧ (drainable 1001 false 1).drainInTime [(0, 0)] 1000 = false ∧
    (drainable 0 false 1).drainInTime [(0, 0)] 1000 = false ∧ (drainable 0 false 10000).saveInTime [(0, 0)] 10000000 = true ∧
    (drainable 0 false 0).saveInTime [(0, 0)] 0 = false ∧
    ((drainable 0 true 0).launch? 0).any (·.info.restart) = true := by decide +kernel
/-- The cluster of the placed group pre-empts it. -/
def saving (choice : Nat) : State :=
  s0.modCluster 0 fun c => { c with preempt := [{ ctx := 0, start := 0, deadline := 1000, choice := choice, blocks := [(0, 0)] }] }
theorem wit_deadline : ((saving 0).cluster 0).preempt ≠ [] := by decide +kernel
theorem wit_save : (let s := (saving 1).modCtx 0 fun c => { c with regs := { c.regs with savebase := 0x10000, savelen := 2 ^ 20 } }
    s.group? 0 = some g0 ∧ s.toBeSaved g0 = true ∧ s.quiet g0 = true ∧
    takePages ((s.saveCap 0).1.usedPages 0) (s.saveCap 0).2 (((s.saveCap 0).1.recordsOf (0, 0)).map (·.2)) ≠ none) := by decide +kernel
/-- O57: a group moved into its block's open record, with room for it and without. -/
theorem wit_moved : (let s := (saving 1).modCtx 0 fun c => { c with regs := { c.regs with savebase := 0x10000, savelen := 2 ^ 20 } }
    let room (n : Nat) : Bool := ((s.openSave (0, 0) 0 [(0, 0, n)]).moveToSave g0).2
    room 8 = true ∧ ((((saving 1).openSave (0, 0) 0 [(0, 0, 0)]).moveToSave g0).2 = false)) := by decide +kernel
theorem wit_save_fails : (let s := saving 1
    s.toBeSaved g0 = true ∧ s.quiet g0 = true ∧ (s.units.saved.any fun b => b.launch == 0 && b.blk == 0) = false ∧
    takePages ((s.saveCap 0).1.usedPages 0) (s.saveCap 0).2 (((s.saveCap 0).1.recordsOf (0, 0)).map (·.2)) = none) := by decide +kernel
theorem wit_save_waits : s0.toBeSaved g0 = false ∧ (flying (saving 1) [laneLoad .load]).quiet g0 = false := by decide +kernel
/-- A block that is saved whole: its group has left, and a command of it has stopped in mid-course. -/
def savedBlock : SavedBlock :=
  { launch := 0, blk := 0, ctx := 0, groups := [g0],
    teams := s0.units.teams, scratch := [], cmds := [cmd (.mzro 1) 4 [0] .stopped], reqs := [], time := 0, pages := [] }
def resumable (gated : Bool) : State :=
  let s := s0.modUnits fun u => { u with saved := [savedBlock], teams := [] }
  { s.modPlat fun p => { p with cores := tset p.cores 0 { s.core 0 with gated := gated } } with groups := [] }
theorem wit_resume : (resumable false).units.saved[0]? = some savedBlock ∧ (resumable false).wholeSaved savedBlock = true ∧
    (resumable false).resumeLater savedBlock = false ∧ (resumable false).stowTeams = resumable false ∧
    (resumable false).resumePlan (.free (resumable false).draws) savedBlock ≠ none := by decide +kernel
theorem wit_resume_waits : (resumable true).resumeLater savedBlock = false ∧
    (resumable true).resumePlan (.free (resumable true).draws) savedBlock = none := by decide +kernel
theorem wit_switch_context : (let s := (s0.modCluster 3 fun c => { c with serves := [(0, 4)] })
    ((s.cluster 3).serves.find? fun e => e.1 == (s.ctx 7).part) = some (0, 4) ∧ (4 : Nat) ≠ 7 ∧
    (s.groups.all fun g => g.place.ctx != 4 || clusterOf g.place.core != 3) = true ∧ s.units.cmds = []) := by decide +kernel

/-- O58. -/
theorem wit_clocks : s0.plat.hot = false ∧ s0.clockLocked 35 = false ∧ (s0.core 431).gated = false ∧
    (s0.units.teams.all fun t => t.core != 431) = true ∧ s0.units.cmds = [] := by decide +kernel
theorem wit_leases : (s0.ctx 0).lease.active = false ∧
    (let l : Lease := { value := 0, active := true, endNs := 10, drawn := 0 }
     let s := s0.modCtx 0 fun c => { c with lease := l }
     (s.ctx 0).lease.active = true ∧ s.ns < (s.ctx 0).lease.endNs ∧ ({ s with ns := 10 }.ctx 0).lease.endNs ≤ 10) := by decide +kernel
theorem wit_wakes : (let k : Core := { s0.core 5 with gated := true, wake := some (3, 0) }
    let s := s0.modPlat fun p => { p with cores := tset p.cores 5 k }
    s.plat.cores.any fun e => e.2.wake.isSome && sectorOf e.1 == 0 && e.2.gated && decide (e.2.holdEnd ≤ s.ns)) = true := by decide +kernel
theorem wit_phases : State.reset.plat.boot = .verifying ∧ s0.plat.boot = .running ∧
    s0.intervalOver = false ∧ ({ s0 with ns := 1000 } : State).intervalOver = true ∧
    (let s : State := { (s0.modPlat fun p => { p with boot := .held }) with ns := 1000000 }
     s.plat.boot = .held ∧ s.plat.rails = allRails ∧ s.plat.railNs + 1000000 ≤ s.ns) := by
  decide +kernel

/-- O59: invalidations that wait and that are complete; masks that wait, with banks of the partition and without commands; an
aligned and a misaligned register write; BAR2 accesses at the end of HBM, and of a function that owns the bytes or does not. -/
theorem wit_tlbinv : (let s := s0.modCtx 0 fun c => { c with tlbinvWait := some [1800] }
    (s.ctx 0).tlbinvWait = some [1800] ∧ s.unperformed 0 = [] ∧ (flying s [laneLoad .store]).unperformed 0 = [1800]) := by decide +kernel
theorem wit_cwmask : (let k : Core := { s0.core 0 with cwPending := [(0, 3)] }
    let s := s0.modPlat fun p => { p with bankOwn := [(0, 0x80), (1, 0x80)], cores := tset p.cores 0 k }
    ((s.core 0).cwPending.find? fun e => e.1 == 0) = some (0, 3) ∧ s.units.cmds = [] ∧ s.ownsBank 0 0 1 = true) := by decide +kernel
theorem wit_cwmask_waits : (let c := cmd (.mzro 0) 1 [] .running
    let c : Cmd := { c with compl := .bar 0, kind := .mcast 0 [0, 0, 0, 0] [1, 1, 1, 1] [0], writes := [{ scratch := true, lo := 0, hi := 1 }] }
    (cmds (scratched s0) [c]).delivers 0 [0] c = true) := by decide +kernel
theorem wit_class_masks : (s0.part 0).laterMasks = [] := by decide +kernel
theorem wit_register_write : (8 = 4 ∨ 8 = 8) ∧ 0x200248 % 8 = 0 ∧ (2 ≠ 4 ∧ 2 ≠ 8) ∧ 0x200244 % 8 ≠ 0 ∧ s0.plat.boot = .running := by decide
theorem wit_bar2 : s0.plat.boot = .running ∧ s0.plat.bar2 = 39 ∧ (2 ^ 39 - 8) + [0, 0, 0, 0, 0, 0, 0, 0].length ≤ 2 ^ 39 ∧ (2 ^ 39 - 8) % 8 = 0 ∧
    ((s0.modPlat fun p => { p with parts := tset p.parts 0 (s0.part 0) }).ownsRange 0 0 8 = true) ∧
    s0.ownsRange 1 0 8 = false ∧ 2 ^ 39 < (2 ^ 39 - 7) + 8 := by decide +kernel
theorem wit_peer : (let w : InWin := { en := true, links := 1, part := 0, wbase := 0x10000, lbase := 0x4000, wlen := 1 }
    let s := s0.modPlat fun p => { p with wins := [(0, w)], links := tset p.links 0 { s0.link 0 with up := true } }
    s.window? 0 0x10FFC = some w ∧ s.window? 0 0x11000 = none ∧ (s.link 0).up = true ∧ 0x10FFC + 4 ≤ w.wbase + 4096 * w.wlen ∧
    s.ownsRange w.part (w.lbase + (0x10FFC - w.wbase)) 4 = true) := by decide +kernel

/-- A command at the head of the mailboxes, on a machine where nothing is resident; partition 0 owns
a slice and quadrants of cores 0 and 431. -/
def mail (s : State) (fn code : Nat) (args : List Nat) : State :=
  { s.modPlat fun p => { p with mbOrder := [fn], sliceOwn := [(0, 0x80)], quadOwn := [(0, 0x80), (1724, 0x80)], boxes :=
      [(fn, { args := (List.range args.length).zip args, data := [], busy := true, status := 0, cmd := code })] } with groups := [] }
/-- The command's code and its first arguments. -/
def mailIs (s : State) (fn code : Nat) (args : List Nat) : Bool :=
  match s.mailArgs? fn with
  | some (c, a) => c == code && ((List.range args.length).map a == args)
  | none => false
/-- O60: each command with arguments at the ends of their ranges, from the physical function and from a virtual one. -/
theorem wit_mail : mailIs (mail s0 3 7 []) 3 7 [] = true ∧ mailIs (mail s0 3 1 [0, 1727, 0x8F]) 3 1 [0, 1727, 0x8F] = true ∧
    mailIs (mail s0 0 10 []) 0 10 [] = true ∧ mailIs (mail s0 0 0 []) 0 0 [] = true ∧ bits 0x8F 4 3 = 0 := by decide +kernel
theorem wit_mail_own : (let s := mail s0 0 1 [0, 1727, 0x80]
    (s.modPlat fun p => { p with quadOwn := tset p.quadOwn 1727 0x80 }).ownersOk = true ∧
    ((ownerOf (tget 0 s.plat.quadOwn 1727)).any fun p => s.atWorkOn p (1727 / 4) (some (1727 % 4))) = false) := by decide +kernel
theorem wit_mail_own_busy : (let s := { mail s0 0 1 [0, 0, 0x80] with groups := [g0] }
    (s.modPlat fun p => { p with quadOwn := tset p.quadOwn 0 0x80 }).ownersOk = true ∧
    ((ownerOf (tget 0 s.plat.quadOwn 0)).any fun p => s.atWorkOn p 0 (some 0)) = true) := by decide +kernel
theorem wit_mail_own_kinds : (let s := mail s0 0 1 [1, 6911, 0x80]
    (s.modPlat fun p => { p with bankOwn := tset p.bankOwn 6911 0x80 }).ownersOk = true ∧
    (s.modPlat fun p => { p with sliceOwn := tset p.sliceOwn 95 0x80 }).ownersOk = true ∧
    ((ownerOf (tget 0 s.plat.sliceOwn 95) ++ ownerOf 0x80).all fun p => !s.atWork p) = true) := by decide +kernel
theorem wit_mail_mem : (let s := mail s0 0 2 [2047, 0x80]
    mailIs s 0 2 [2047, 0x80] = true ∧ (ownerOf (tget 0 s.plat.regionOwn 2047)) = [] ∧
    (ownerOf (tget 0 { s with groups := [g0] }.plat.regionOwn 0)).any
      (fun p => ({ s with groups := [g0] } : State).groups.any fun g => g.place.part == p) = true) := by decide +kernel
theorem wit_mail_part : (let s := mail s0 0 3 [15, 0x200, 13000]
    mailIs s 0 3 [15, 0x200, 13000] = true ∧ s.allocOthers 15 + 13000 % 65536 + 3000 ≤ 16000 ∧
    16000 < s.allocOthers 15 + 13001 % 65536 + 3000 ∧ (s.part 15).oldMasks = []) := by decide +kernel
theorem wit_mail_ctx : (let v := 0x80000000 + 23 * 256 + 7 * 16 + 15
    bits v 8 5 ≤ 23 ∧ bits v 7 1 = 0 ∧ bits v 13 18 = 0 ∧ bits v 32 32 = 0 ∧ 23 < bits (24 * 256) 8 5) := by decide +kernel
theorem wit_mail_prof : (mail s0 0 6 [0x301]).plat.prof.active = false ∧ bit 0x301 0 = true ∧ bits 0x301 1 3 = 0 ∧
    ((mail s0 0 6 [0x301]).modPlat fun p => { p with prof := { p.prof with active := true } }).plat.prof.active = true := by decide +kernel
theorem wit_mail_win : (mail s0 0 9 [15]).ownsRange 0 0x4000 4096 = true ∧ (mail s0 0 9 [15]).ownsRange 1 0x4000 4096 = false := by
  decide +kernel

/-! ## Hypotheses met: waits, stalls and the checks of accesses -/

/-- O23: each thing that EXIT waits for. -/
theorem wit_exit_waits : (sg fun g => { g with uas := 1 }).scalarReady [] = some { g0 with uas := 1 } ∧ gl.lanes.running = true ∧
    (sg fun g => { g with lanes := gl.lanes }).scalarReady [] = some { g0 with lanes := gl.lanes } ∧
    (let q : QBlock := { start := 0, k := [], oldS := [] }
     (sg fun g => { g with dq := [q] }).scalarReady [] = some { g0 with dq := [q] }) ∧
    (flying s0 [{ laneLoad .load with dests := [.s 9] }]).scalarReady [] = some g0 ∧ scalarSees (.s 9) = true ∧
    (s0.addCmd (cmd (.mzro 1) 4 [0] .stopped)).scalarReady [] = some g0 := by decide +kernel
/-- O25, O33, O34, O36: scratch whose bank is to become cache, and whose bank stays. -/
def changing (s : State) : State :=
  let s := scratched s
  s.modPlat fun p => { p with cores := tset p.cores 0 { s.core 0 with cwPending := [(0, 0)] } }
theorem wit_bank_stalls : (changing s0).bankStalls (.scr 0 0x10) = true ∧ (scratched s0).bankStalls (.scr 0 0x10) = false ∧
    (changing s0).bankStalls (.hbm 0x1000) = false ∧
    (let g := ga 0x1FF8
     let s := (changing (sg fun _ => g)).modMem fun m => { m with tlb := m.tlb.map fun e => { e with pte := 0x3F } }
     s.scalarReady ([10, 11] ++ [2, 3]) = some g ∧
     (s.check g.agent .load (g.getS64 2 + BitVec.ofInt 64 0).toNat 8).2 = .ok (.scr 0 0xFF8) ∧
     (s.check g.agent .load (g.getS64 2 + BitVec.ofInt 64 0).toNat 8).1.bankStalls (.scr 0 0xFF8) = true) := by decide +kernel
/-- O26: page tables at 0x8000 whose first entry is given, for an address that no TLB translates. -/
def rooted (root entry : Nat) : State := placed (s0.modCtx 0 fun c => { c with ptroot := root }) 0x8000 (leBytes 8 entry)
theorem wit_access_walks : (s0.mem.tlb.all fun e => e.core == 0 && !e.hits 0 0x2000) = true ∧ (rooted 0x8000 0).ownsPa 0 0x8000 = true ∧
    (rooted (2 ^ 47) 0).ownsPa 0 (2 ^ 47) = false ∧ (leNat ((rooted 0x8000 0).mem.hbm.read 0x8000 8)).testBit 0 = false ∧
    leNat ((rooted 0x8000 0x9003).mem.hbm.read 0x8000 8) = 0x9003 ∧ bits 0x9003 1 3 ≠ 0 ∧ (0x9081).testBit 7 = true ∧
    (rooted 0x8000 0).walk 0 0 0x2000 = .fault 0x04 ∧ (rooted 0x8000 0x9003).walk 0 0 0x2000 = .fault 0x05 ∧
    (rooted (2 ^ 47) 0).walk 0 0 0x2000 = .fault 0x06 := by decide +kernel
/-- The page 0x1000 with a leaf of some type. -/
def leafed (pte : Nat) : State := s0.modMem fun m => { m with tlb := m.tlb.map fun e => { e with pte := pte } }
theorem wit_access_targets : (let a := g0.agent
    let at' (pte : Nat) : Option Loc :=
      let r := (leafed pte).translate a.core a.ctx a.part 0x1004
      match r.2 with
      | .leaf p k => if p == pte && permOk (.atomic false) p then r.1.target a p k 0x1004 else some (.mmio 0)
      | .fault _ => some (.mmio 0)
    at' 0x7F = none ∧ at' 0x6F = none ∧ at' 0x3F = none ∧ at' (2 ^ 51 + 0x0F) = none ∧ at' 0x100F = some (.hbm 0x1004) ∧
    at' 0x101F = some (.host 0x1004) ∧ targetOk (.atomic false) 4 (.host 0x1004) = false ∧ targetOk (.atomic false) 4 (.hbm 0x1004) = true) := by
  decide +kernel
/-- O27: a range whose first line has no translation, and one whose leaf gives no right. -/
theorem wit_range_faults : (let g := (ga 0x2000).setS 9 256
    let s := sg fun _ => g
    s.scalarReady [9, 2, 3] = some g ∧ g.getS 9 ≠ 0 ∧ (s.lineLoc g.agent (scalarEa g 2 0)).2 = .fail 3 0x04 ∧ canonical 0x2000 = true ∧
    (s.translate 0 0 0 0x2000).2 = .fault 0x04 ∧ (leafed 0x1001).translate 0 0 0 0x1000 = (leafed 0x1001, .leaf 0x1001 12) ∧
    (s.lineLoc g.agent 0x1080).2 = .ok (.hbm 0x1080)) := by decide +kernel
/-- O29: blocks that break each check, and those that pass it with a tile beyond the allocation; the producer's and another's. -/
theorem wit_matrix_fields : (let w (b : List Nat) : Nat := blkWord ((ge b).block 8) 0
    let f (x : Nat) : Bool :=
      let w := blkWord ((ge [0, 0, 0, 0, x, 0, 0, 0]).block 8) 4
      bits w 2 2 != 3 && bits w 4 2 != 3 && bits w 13 3 == 0 && decide (bits w 8 4 ≤ 11) && bits w 16 16 != 0 && bits w 16 16 % 32 == 0
    ¬ w [64, 0, 0, 0, 0, 0, 0, 0] < 64 ∧ (w [0x20, 0, 0, 0, 0, 0, 0, 0]).testBit 4 = false ∧ w [0x33, 0, 0, 0, 0, 0, 0, 0] < 64 ∧
    ((ge [0, 0, 0, 0, 0, 0, 0, 1]).block 8).getD 7 0 ≠ 0 ∧ f 0x0020_0083 = true ∧
    ([0x0020_000C, 0x0020_0030, 0x0020_2000, 0x0020_0C00, 0, 0x0010_0000].all fun x => !f x) = true ∧
    ({ ge [] with info := { g0.info with tiles := 3 } } : Group).info.tiles ≤ 3) := by decide +kernel
theorem wit_not_producer_copies : (let b := [0x1040, 0, 0x1400, 0, 0, 0, 0x00010001, 0x00010001]
    let g := { ge b with info := { g0.info with producer := none } }
    let s := (se b).setGroup g
    s.engineReady [] 8 = some g ∧ s.engineReady (regSpan 16 8) 8 = some g ∧ g.isProducer = false ∧ yieldTarget s g .none = (s, some 0) ∧
    yieldTarget s g (.yield 1) = (s, some 1) ∧ yieldTarget s g (.bar 7) = (s, some 0)) := by decide +kernel
/-- O32: a stream whose command with a yield-continuation has completed, with a fault pending. -/
theorem wit_async_resumes : (let f : AsyncFault :=
      { cause := 0x0F, subc := 4, lost := 1, pos := 0, cmdpc := 0, vaddr := 0x2000, logged := false }
    let g : Group := { g0 with async := some f, wait := some (.cmd 9 1) }
    let s := sg fun _ => g
    let u := s.acquireCore g.place.core g.place.part
    s.scalarReady [] = some g ∧ s.cmdLive 9 = false ∧ (u.handlerReady { g.acquires u with wait := none }).isSome = true) := by decide +kernel
/-- O33: a record for each code that a declaration can give, at the edge of the limit. -/
theorem wit_declare_codes : (let rec' (a n pad : Nat) := leBytes 8 a ++ leBytes 4 n ++ leBytes 4 pad ++ List.replicate 112 0
    let x := { g0.agent with handler := false }
    let s := bundled s0 [bun 0 0]
    let p (f : Part → Part) : State := s.modPart 0 f
    s.declared x (rec' 0x1040 1 0) = none ∧ s.declared x (rec' 0x1000 1 1) = none ∧ s.declared x (rec' 0x1000 0 0) = none ∧
    s.declared x (rec' 0x1F80 2 0) = none ∧ s.extentLines x 0x2000 1 = none ∧ s.declared x (rec' 0x1F80 1 0) = some [63] ∧
    ((p fun p => { p with blim := 1 }).part 0).blim < [32, 33].length ∧
    ((p fun p => { p with bways := 0 }).part 0).bways < ([32, 33].map (s.setOf 0)).count (s.setOf 0 32) ∧
    ((p fun p => { p with bids := 1 }).part 0).bids ≤ (s.units.bundles.filter fun b => b.part == 0).length ∧ canonical (2 ^ 56) = false ∧
    (leafed 0x1009).translate 0 0 0 0x1000 = (leafed 0x1009, .leaf 0x1009 12) ∧ bits 0x101F 4 3 ≠ 0) := by decide +kernel
/-- O34: a phase word in a bank that changes its use. -/
theorem wit_barrier_stalls : ((changing s0).teamOf g0).any (fun t => ((changing s0).teamScratch t 0 0xFF4).any (changing s0).bankStalls) = true ∧
    ((scratched s0).teamOf g0).any (fun t => ((scratched s0).teamScratch t 0 0xFF4).any (scratched s0).bankStalls) = false := by
  decide +kernel
/-- O45. -/
theorem wit_group_land : gl.pend = [] ∧ (0xFF : BitVec 8) ≠ 0 := by decide +kernel
/-- O50: an operation in its flip before another of its core. -/
theorem wit_ratchet_taken : (let s := (waObj 4 0).modUnits fun u => { u with ratchet := [{ arr (.reset 2) with begun := true }, { arr (.reset 2) with id := 1 }] }
    s.waTaken { arr (.reset 2) with id := 1 } = true ∧ s.waTaken { arr (.reset 2) with begun := true } = false) := by decide +kernel
/-- O53: a group that is suspended for a saved set whose hold limit has passed, in a timed wait. -/
theorem wit_hold_limit_suspended : (let g := { g0 with
      holdTimer := some { start := 0, grp := 0, age := 0 }, saved := some { ids := [0], age := 0, prio := 0 }, suspended := true,
      wait := some (.timed 100) }
    let s := ((bundled (sg fun _ => g) [bun 0 0]).modPart 0 fun p => { p with bhold := 100 })
    let s := reqs s [{ req [1] true false with grp := 1 }]
    ({ s with ns := 100 }).group? 0 = some g ∧ 0 + (s.part 0).bhold ≤ 100 ∧ g.trap = none) := by decide +kernel
/-- O57: a wait with a translated address, and a core whose bank changes its use. -/
theorem wit_saved_waits : waitHasPa (some (.sync [] [] false none 0x1040)) (some (0x01050607, 0)) = false ∧
    waitHasPa (some (.timed 5)) none = false := by decide +kernel
theorem wit_resume_banks : (let s := resumable false
    (s.resumePlan (.free s.draws) savedBlock).any (fun l => l.all fun e => !s.banksChange e.2.core) = true) ∧
    (let s := (changing (resumable false)).modUnits fun u => { u with saved := [savedBlock] }
     s.banksChange 0 = true ∧ s.resumeLater savedBlock = false) := by decide +kernel
/-- O59: a mask whose bank an access in flight uses; a mailbox that is busy, and one that is not. -/
theorem wit_mask_busy : (let s := flying (changing s0) [{ laneLoad .store with loc := .scr 0 16 }]
    s.mem.flight.any fun a => !a.tookEffect && a.loc.inBanks 0 [0]) = true := by decide +kernel
theorem wit_mailbox : (s0.box 0).busy = false ∧ ((mail s0 0 1 []).box 0).busy = true ∧ s0.plat.boot = .running ∧
    ((List.range 8).all fun i => tget 0 (s0.box 0).args i == 0) = true := by decide +kernel
/-- O47: the checks of a lane access of four bytes in each lane, at `va` and `step` further in each next lane, in a state made
from that of the placed lane word, with a hint. -/
def laneChks (f : State → State) (hint : Hint) (w : Want) (va step : Nat) : List LaneChk :=
  match (f (l0.setGroup (gla va))).laneReady false false (some h) [(.v 1, 1)] [(.v 2, 2), (.v 4, 1)] with
  | none => []
  | some c => (c.s.laneChecks c.g (c.g.lanes.wpSkip &&& c.gang != 0) w hint
      (fun l => wrapTo 64 (((c.read 2 (fun _ => 0) (.v 2) l + step * l : Nat) : Int) + 0)) 4 (lanesOf c.act)).2
/-- The steps of those checks, and the codes. -/
def steps (l : List LaneChk) : List Nat := (l.map (·.stage)).eraseDups
/-- A comparator that watches bytes 0x1004 to 0x1007 for stores; an entered bundle of lines 33 and on; a bad byte at 0x1044. -/
def watched (s : State) : State :=
  s.modCore 0 fun c => { c with watch := [(1, { base := 0x1004, limit := 0x1007, en := true, rd := false, wr := true, ctx := 0 })] }
def poisoned (s : State) : State := s.modMem fun m => { m with bad := [0x1044 / 8] }
theorem wit_lane_steps : steps (laneChks id .dflt .load 0x1000 (2 ^ 56)) = [9, 1] ∧
    steps (laneChks id .dflt .load 0x1000 2) = [9, 2] ∧ steps (laneChks closed .dflt .store 0x1000 4) = [4] ∧
    steps (laneChks watched .dflt .store 0x1000 4) = [9, 6] ∧ steps (laneChks watched .dflt .load 0x1000 4) = [9] ∧
    steps (laneChks watched .dflt (.atomic true) 0x1000 4) = [9, 6] ∧ steps (laneChks id .inb .load 0x1000 4) = [7] ∧
    steps (laneChks poisoned .dflt .load 0x1000 4) = [9, 8] ∧ steps (laneChks poisoned .dflt .load 0x1F00 4) = [9] ∧
    steps (laneChks poisoned .dflt .load 0x1040 0x400) = [8, 9, 3] := by decide +kernel
theorem wit_lane_target : steps (laneChks (fun s => s.modMem fun m => { m with tlb := m.tlb.map fun e => { e with pte := 0x101F } }) .dflt
      (.atomic false) 0x1000 4) = [5] ∧
    ((laneChks poisoned .dflt .load 0x1040 0x400).all fun x => !x.stalls l0) = true ∧
    ((l0.modUnits fun u => { u with ratchet := [arr (.reset 2)] }).mayFault gl 1) = true := by decide +kernel
/-- O47: the operands of each form. -/
theorem wit_lane_fault_forms : laneGoes l0 [(.v 1, 3)] [(.v 2, 2), (.v 4, 2), (.v 6, 2)] = true ∧ laneGoes l0 [(.none, 1)] [(.v 2, 2), (.v 4, 8)] = true ∧
    laneGoes l0 [(.s 7, 1)] [(.v 2, 2)] = true ∧ laneGoes l0 [(.sp 10, 1)] [(.v 2, 2)] = true := by decide +kernel
/-- O42: 2^−10 lies half-way between the neighbours 0 and 2^−9 of E4M3. -/
theorem wit_rounding_neighbours :
    let mag (v : Nat) (y : ℚ) : Prop := ∃ (k : Nat) (q : Int), e4m3.decode v = .fin false k q ∧ y = k * 2 ^ q
    let has (y : ℚ) : Prop := ∃ v < 2 ^ e4m3.width, mag v y
    let x : ℚ := (1 : Nat) * 2 ^ (-10 : Int)
    (has 0 ∧ (0 : ℚ) ≤ x ∧ ∀ y, has y → y ≤ x → y ≤ 0) ∧ (has (2 ^ (-9 : Int)) ∧ x ≤ 2 ^ (-9 : Int) ∧ ∀ y, has y → x ≤ y → 2 ^ (-9 : Int) ≤ y) ∧
    x ≤ e4m3.maxM * 2 ^ e4m3.maxE ∧ (e4m3.maxM * 2 ^ e4m3.maxE : ℚ) < (29 : Nat) * 2 ^ (4 : Int) := by
  intro mag has x
  have key : ∀ v < 2 ^ e4m3.width, (match e4m3.decode v with | .fin false k q => k == 0 || decide ((-9 : Int) ≤ q) | _ => true) = true := by
    decide +kernel
  have pos : ∀ y, has y → y = 0 ∨ (2 : ℚ) ^ (-9 : Int) ≤ y := by
    rintro y ⟨v, hv, k, q, hd, rfl⟩
    have h := key v hv
    simp only [hd, Bool.or_eq_true, beq_iff_eq, decide_eq_true_eq] at h
    rcases Nat.eq_zero_or_pos k with rfl | hk
    · simp
    · have hq : (-9 : Int) ≤ q := h.resolve_left (Nat.pos_iff_ne_zero.mp hk)
      refine .inr ((zpow_le_zpow_right₀ (by norm_num) hq).trans ?_)
      have : (1 : ℚ) ≤ k := by exact_mod_cast hk
      have h2 : (0 : ℚ) < 2 ^ q := by positivity
      nlinarith
  have hz : has 0 := ⟨0, by decide, 0, _, rfl, by simp⟩
  have h1 : has (2 ^ (-9 : Int)) := ⟨1, by decide, 1, -9, by decide +kernel, by simp⟩
  have hm : e4m3.maxM = 14 := rfl
  have he : e4m3.maxE = 5 := rfl
  refine ⟨⟨hz, by norm_num [x], fun y hy hx => ?_⟩, ⟨h1, by norm_num [x], fun y hy hx => ?_⟩, ?_, ?_⟩
  · rcases pos y hy with rfl | h
    · exact le_rfl
    · norm_num [x] at hx h; linarith
  · rcases pos y hy with rfl | h
    · norm_num [x] at hx
    · exact h
  · norm_num [x, hm, he]
  · norm_num [hm, he]

/-! ## One step of instructions: the expected values are worked out by hand from the rule named -/

/-- The next state of an instruction. -/
def after (i : Instr) (s : State) : State :=
  match exec i s with
  | .next t => t
  | _ => s
/-- The scalar registers of the placed group, with values. -/
def gs (l : List (Nat × Nat)) : Group := { g0 with regs := { g0.regs with s := l.map fun e => (e.1, BitVec.ofNat 32 e.2) } }
/-- A scalar register after an instruction, and the PC. -/
def sreg (i : Instr) (l : List (Nat × Nat)) (r : Nat) : Option (Word × Nat) :=
  ((after i (sg fun _ => gs l)).group? 0).map fun g => (g.getS r, g.spc)

theorem test_sadd_wraps : sreg (.sadd 1 1 2) [(1, 0xFFFFFFFF), (2, 2)] 1 = some (1, 1) := by decide +kernel -- R115
theorem test_ssub : sreg (.ssub 3 1 2) [(1, 1), (2, 3)] 3 = some (0xFFFFFFFE, 1) := by decide +kernel -- R115
theorem test_smulh : sreg (.smulh 3 1 2) [(1, 0xFFFFFFFF), (2, 2)] 3 = some (0xFFFFFFFF, 1) := by decide +kernel -- R115: −2 >> 32
theorem test_smulhn : sreg (.smulhn 3 1 2) [(1, 0xFFFFFFFF), (2, 2)] 3 = some (1, 1) := by decide +kernel -- R115
theorem test_sshl_over : sreg (.sshl 3 1 2) [(1, 1), (2, 32)] 3 = some (0, 1) := by decide +kernel -- R115
theorem test_ssha_over : sreg (.ssha 3 1 2) [(1, 0x80000000), (2, 99)] 3 = some (0xFFFFFFFF, 1) := by decide +kernel -- R115
theorem test_smin_smaxn : sreg (.smin 3 1 2) [(1, 0x80000000), (2, 5)] 3 = some (0x80000000, 1) ∧
    sreg (.smaxn 3 1 2) [(1, 0x80000000), (2, 5)] 3 = some (0x80000000, 1) := by decide +kernel -- R115
theorem test_saddi_negative : sreg (.saddi 3 0xFFFF) [(3, 5)] 3 = some (4, 1) := by decide +kernel -- R117
theorem test_slui_sori : sreg (.slui 3 0x8001) [(3, 5)] 3 = some (0x80010000, 1) ∧
    sreg (.sori 3 0x8001) [(3, 0x10000)] 3 = some (0x18001, 1) := by decide +kernel -- R117
theorem test_sadd64_carry : sreg (.sadd64 2 2 4) [(2, 0xFFFFFFFF), (3, 1), (4, 1)] 3 = some (2, 1) ∧
    sreg (.ssub64 4 2 4) [(2, 0), (3, 1), (4, 1)] 4 = some (0xFFFFFFFF, 1) := by decide +kernel -- R116
theorem test_sbfx_signed : sreg (.sbfx 3 1 true 8 12) [(1, 0x000F8000)] 3 = some (0xFFFFFF80, 2) := by decide +kernel -- R118: 0xF80
theorem test_spopc_sclz : sreg (.spopc 3 1) [(1, 0xF000000F)] 3 = some (8, 1) ∧ sreg (.sclz 3 1) [(1, 0)] 3 = some (32, 1) := by
  decide +kernel -- R116
theorem test_sldi_pair : sreg (.sldi 2 true 0x80000000) [] 3 = some (0xFFFFFFFF, 2) := by decide +kernel -- R120
theorem test_smvxf : sreg (.smvxf 3 1 5) [(1, 10), (15, 77)] 3 = some (77, 1) := by decide +kernel -- R121
theorem test_ssel : sreg (.ssel 3 1 8 (.imm 9)) [(1, 10)] 3 = some (10, 2) := by decide +kernel -- R119: q0 is 0, bit 3 inverts
theorem test_scmp_signed : (((after (.scmp 2 5 1 2) (sg fun _ => gs [(1, 0xFFFFFFFF)])).group? 0).map (·.getQ 5)) = some true ∧
    (((after (.scmp 6 5 1 2) (sg fun _ => gs [(1, 0xFFFFFFFF)])).group? 0).map (·.getQ 5)) = some false := by decide +kernel -- R93
theorem test_scmpi_sign_extends : (((after (.scmpi 0 5 1 0xFF) (sg fun _ => gs [(1, 0xFFFFFFFF)])).group? 0).map (·.getQ 5)) = some true := by
  decide +kernel -- R93
theorem test_qlop : (((after (.qlop 2 0 1 7) s0).group? 0).map (·.getQ 0)) = some true := by decide +kernel -- R93: a = 0, b = 1: bit 1
theorem test_scall_links : sreg (.scall 7 1) [] 63 = some (1, 1) := by decide +kernel -- R131
theorem test_sloop_wraps : sreg (.sloop 4 1) [] 4 = some (0xFFFFFFFF, 1) := by decide +kernel -- R133
theorem test_branch_outside_traps : (((after (.sbr 7 2) s0).group? 0).bind (·.trap)).map (·.cause) = some 0x01 := by decide +kernel -- R131
theorem test_trap_frame : (((after (.trap 0x2A) s0).group? 0).bind fun g => g.trap.map fun t => (t.cause, t.swc, t.spc, t.lpc, g.spc)) =
    some (0x11, 0x2A, 1, 0xFFFFFFFF, 0) := by decide +kernel -- R43, R140
theorem test_trap_without_handler : (after (.trap 1) (State.reset.withFetchWord 32 0).begin).groups = [] ∧
    ((after (.trap 1) (State.reset.withFetchWord 32 0).begin).ctx 0).err.kind = 2 := by decide +kernel -- R46, R365
theorem test_tret_outside_traps : (((after .tret s0).group? 0).bind (·.trap)).map (·.cause) = some 0x01 := by decide +kernel -- R98
theorem test_srds_exec : sreg (.srds 3 0x08) [] 3 = some (0xFFFFFFFF, 1) := by decide +kernel -- R137
theorem test_exit_leaves : (after .exit s0).groups = [] := by decide +kernel -- R143
theorem test_store_in_flight : ((after (.sst 4 2 .w16 .plain .grp 2) (sg fun _ => gs [(2, 0x1100), (4, 0xABCD1234)])).mem.flight.map fun a =>
    (a.loc, a.size, a.data)) = [(.hbm 0x1102, 2, [0x34, 0x12])] := by decide +kernel -- R125
theorem test_store_performs : (let s := (acc .store fun a => { a with coreAck := true }).modMem fun m => { m with
      l2 := [{ line := 50, dirty := false, backing := [], way := some 3, prio := 1 }] }
    ((after (.sliceWritePerform 5) s).locRead (.hbm 0x1900) 5)) = [1, 2, 3, 4, 0] := by decide +kernel -- R206
theorem test_load_arrives : (let a : Access := { laneLoad .load with id := 5, scalar := true, dests := [.s 9], size := 2, value := some [0x34, 0x92] }
    (((after (.loadValueArrival 5 false) (flying s0 [a])).group? 0).map (·.getS 9))) = some 0x9234 := by decide +kernel -- R125
theorem test_ev_apply : ([{ src := 1, set := false, bit := 3 }, { src := 0, set := true, bit := 5 }].foldl evApply (8 : BitVec 256)) = 32 := by
  decide +kernel -- R327

/-- The registers of the placed lane group after a lane instruction whose results have landed; lane l of v1 holds `v l`. -/
def vout (i : Instr) (v w : Nat → Nat) : Option Group :=
  let lanes (b : Nat) (f : Nat → Nat) : Tbl Word := (List.range 32).map fun l => (b + l, BitVec.ofNat 32 (f l))
  let g := { gl with regs := { gl.regs with v := lanes 32 v ++ lanes 64 w } }
  ((after i (lg fun _ => g)).group? 0).map fun g => g.landOf 0xFF
/-- A register and the flags of one lane. -/
def vreg (i : Instr) (v w : Nat → Nat) (r l : Nat) : Option (Word × Word) := (vout i v w).map fun g => (g.getV r l, g.getFlg l)
def k (n : Nat) : Nat → Nat := fun _ => n

theorem test_iadd_clamps : vreg (.iadd h .i32 true false (.v 3) (.v 1) (.v 2)) (k 0x7FFFFFFF) (k 1) 3 31 = some (0x7FFFFFFF, 32) := by
  decide +kernel -- R150, R59
theorem test_iadd_packed : vreg (.iadd h .n8x4 false false (.v 3) (.v 1) (.v 2)) (k 0xFF01FF01) (k 0x01010101) 3 0 =
    some (0x00020002, 0) := by decide +kernel -- R150
theorem test_imulh : vreg (.imulh h .i32 (.v 3) (.v 1) (.v 2)) (k 0xFFFFFFFF) (k 2) 3 5 = some (0xFFFFFFFF, 0) := by decide +kernel -- R150
theorem test_iabs_minimum : vreg (.iabs h .i32 true false (.v 3) (.v 1)) (k 0x80000000) (k 0) 3 5 = some (0x7FFFFFFF, 32) := by
  decide +kernel -- R150
theorem test_idot4 : vreg (.idot4 h true false false false (.v 3) (.v 1) (.v 2) (.imm 10)) (k 0xFF020304) (k 0x02010101) 3 0 =
    some (17, 0) := by decide +kernel -- R151: 10 + 4 + 3 + 2 − 2
theorem test_shl_packed_over : vreg (.shl h .n16x2 (.v 3) (.v 1) (.v 2)) (k 0x00010001) (k 0x00100004) 3 0 = some (0x00000010, 0) := by
  decide +kernel -- R152
theorem test_rot : vreg (.rot h .n32 (.v 3) (.v 1) (.v 2)) (k 0x80000001) (k 33) 3 0 = some (3, 0) := by decide +kernel -- R152
theorem test_bfi : vreg (.bfi h .n32 (.v 3) (.v 1) (.v 2) (.imm 8) (.imm 4)) (k 0xA) (k 0xFFFFFFFF) 3 0 = some (0xFFFFFAFF, 0) := by
  decide +kernel -- R153
theorem test_lea : vreg (.lea h .i32 (.v 4) (.imm 16) (.v 1) (.imm 2)) (k 0xFFFFFFFF) (k 0) 4 0 = some (12, 0) := by decide +kernel -- R154
theorem test_icmp : ((vout (.icmp h .i32 2 (.p 1) (.v 1) (.v 2)) (k 0xFFFFFFFF) (k 0)).map (·.getP 1)) = some 0xFFFFFFFF#32 := by
  decide +kernel -- R155
theorem test_fadd : vreg (.fadd h .f32 .rn .wrap false (.v 3) (.v 1) (.v 2)) (k 0x3F800000) (k 0x33800000) 3 0 = some (0x3F800000, 1) := by
  decide +kernel -- R53, R58, R59: 1 + 2^−24 ties to even, inexact
theorem test_fadd_up : vreg (.fadd h .f32 .ru .wrap false (.v 3) (.v 1) (.v 2)) (k 0x3F800000) (k 0x33800000) 3 0 =
    some (0x3F800001, 1) := by decide +kernel -- R53
theorem test_fmul_overflow : vreg (.fmul h .f32 .rn .wrap false (.v 3) (.v 1) (.v 2)) (k 0x7F000000) (k 0x7F000000) 3 0 =
    some (0x7F800000, 5) := by decide +kernel -- R58, R59: OF and NX
theorem test_ffma_once : vreg (.ffma h .f32 .rn .wrap true (.v 3) (.v 1) (.v 1) (.v 2)) (k 0x3F800001) (k 0xBF800002) 3 0 =
    some (0x28800000, 0) := by decide +kernel -- R157: (1 + 2^−23)² − (1 + 2^−22) = 2^−46
theorem test_frcp_zero : vreg (.frcp h .f32 .rn .wrap false (.v 3) (.v 1)) (k 0x80000000) (k 0) 3 0 = some (0xFF800000, 8) := by
  decide +kernel -- R158: DZ
theorem test_fsqrt : vreg (.fsqrt h .f32 .rn .wrap false (.v 3) (.v 1)) (k 0x40800000) (k 0) 3 0 = some (0x40000000, 0) := by
  decide +kernel -- R158
theorem test_fmin_nan : vreg (.fmin h .f32 false (.v 3) (.v 1) (.v 2)) (k 0x7FC00000) (k 0x3F800000) 3 0 = some (0x3F800000, 0) := by
  decide +kernel -- R160
theorem test_cvt_to_integer : vreg (.cvt h (.int .i32) (.flt .f32) .rz .clamp false (.v 3) (.v 1)) (k 0xC0200000) (k 0) 3 0 =
    some (0xFFFFFFFE, 1) := by decide +kernel -- R163: −2.5
theorem test_cvt_to_bf16 : vreg (.cvt h (.flt .f32) (.flt .bf16x2) .rn .wrap false (.v 4) (.v 1)) (k 0x40003F80) (k 0) 5 0 =
    some (0x40000000, 0) := by decide +kernel -- R163
theorem test_shflx : vreg (.shflx h .b32 (.v 3) (.v 1) (.imm 1)) (fun l => l) (k 0) 3 6 = some (7, 0) := by decide +kernel -- R166
theorem test_vote_ballot : vreg (.vote h 0 (.v 3) (.p 7)) (k 0) (k 0) 3 9 = some (0xFFFFFFFF, 0) := by decide +kernel -- R167
theorem test_redl_sum : vreg (.redl h (.int .i32) 0 .rn .wrap false (.v 3) (.v 1)) (fun l => l) (k 0) 3 9 = some (496, 0) := by
  decide +kernel -- R168
theorem test_scnl_exclusive : vreg (.scnl h (.int .i32) 0 true .rn .wrap false (.v 3) (.v 1)) (fun l => l + 1) (k 0) 3 4 = some (10, 0) := by
  decide +kernel -- R168
theorem test_plop : ((vout (.plop h 8 (.p 1) (.p 7) (.p 7)) (k 0) (k 0)).map (·.getP 1)) = some 0xFFFFFFFF#32 := by decide +kernel -- R170
theorem test_pmov_from_mask : ((vout (.pmov h true (.p 2) (.v 1)) (k 0x5) (k 0)).map (·.getP 2)) = some 5#32 := by decide +kernel -- R171
theorem test_brl_diverges : (((after (.brl { h with gp := 1, gq := 7 } 0 0) (lg fun g => (g.setP 1 0 true))).group? 0).map fun g =>
    (g.lanes.strands.map fun x => (x.pc, x.active, x.stack.length)).take 2) = some [(0, 1, 1), (1, 15, 0)] := by decide +kernel -- R34
theorem test_lexit_ends : (((after (.lexit h) l0).group? 0).map fun g => (g.regs.live, g.lanes.running)) = some (0, false) := by
  decide +kernel -- R36
theorem test_lend_ends_block : (((after (.lend false false) l0).group? 0).map fun g => g.lanes.running) = some false := by decide +kernel -- R31
theorem test_lend_at_two_words : (((after (.lend false false) (l0.setGroup (strand fun j x => if j = 7 then
    { x with pc := 5, gang := 7, reached := true } else x))).group? 0).map fun g => g.lanes.running) = some false := by decide +kernel -- R31
theorem test_mask_load_holds : (((after (.ld h .b32 false .plain .grp false .dflt (.sp 8) (.v 2) 0) (l0.setGroup (gla 0x1100))).group? 0).map
    fun g => (g.allHeld 0xFF, g.allHeld 0)) = some (true, false) := by decide +kernel -- R26, R200
theorem test_lane_load_fault : (let s := l0.setGroup (gla 0x2000)
    (((after (.ld h .b32 false .plain .grp false .dflt (.v 1) (.v 2) 0) s).group? 0).bind (·.trap)).map fun t => (t.cause, t.fltmask)) =
    some (0x04, 0xFFFFFFFF#32) := by decide +kernel -- R175
theorem test_lane_store : (let s := l0.setGroup (gla 0x1100)
    ((after (.st h .b8 .plain .grp .dflt false .none (.v 2) (.imm 7) 1) s).mem.flight.map fun a => (a.loc, a.data)).head?) =
    some (.hbm 0x1101, [7]) := by decide +kernel -- R180
theorem test_amovw : ((vout (.amovw h .b32 (.a 0) (.v 1) (.imm 2) (.imm 40)) (fun l => l + 1) (k 0)).map fun g =>
    (g.getTile 0 2 40, g.getTile 0 2 63)) = some (1, 24) := by decide +kernel -- R302
theorem test_window_unbound : waTrap (waObj 4 0) (.push 6 [] [] true) = some (0x0D, 1) := by decide +kernel -- R276
theorem test_mail_unknown : ((after (.mbcmdUnknown 0) (mail s0 0 10 [])).box 0).status = 4 := by decide +kernel -- R367
theorem test_setslew : ((after (.setslew 0) (mail s0 0 5 [71, 0x305])).cluster 71).wave = 5 ∧
    ((after (.setslew 0) (mail s0 0 5 [71, 0x305])).cluster 71).gap = 3 := by decide +kernel -- R322
theorem test_token_interval : ((after .tokenInterval { (s0.modPart 3 fun p => { p with tokalloc := 9, tokspent := 4 }) with ns := 1000 }).part 3).tokused = 4 := by
  decide +kernel -- R376
theorem test_dispatch : (let raw := packet 1 1 1 2 0 0
    let t := after .dispatch (queued raw)
    (t.units.launches.map (·.groups)) = [1, 2] ∧ (t.ctx 0).ev = 0) := by decide +kernel -- R345

/-! ## The assembler: chapter 06's fragment, its faults and its listing -/

/-- The fragment of chapter 06, with or without its line L6. -/
def addone (lwait : Bool) : Text :=
  (".kernel addone\n.group_size 8\n.lane\nblk: LD.b32 v4, v20, 0x10 ; L1\nIADD.i32 v5, v4, s20\nLEND\n.scalar\nSMOVI s20, 5\n" ++
    "LGO blk, s20, 1\n" ++ (if lwait then "LWAIT" else "") ++ "\nSMOVI s20, 9\nEXIT\n.end").toList
/-- A run of `priex` on it. -/
def priexOn (m : Markers) (lwait : Bool) : Report :=
  priex [(['a'], addone lwait)] { output := none, dirs := [], defs := [], markers := m, listing := true, werror := false } ['a']
theorem test_priex_hazard : (priexOn .check true).diags.map (fun e => (e.1.line, e.2.1)) = [(5, .e301)] := by decide +kernel -- R109
theorem test_priex_insert : (priexOn .insert true).diags.map (fun e => (e.1.line, e.2.1)) = [(5, .n301)] ∧
    (priexOn .insert true).listing[1]? = some "lane 0001  0400_0103_B87F_FFFE_8500_2005  IADD.i32.sw v5, v4, s20".toList := by
  decide +kernel -- R109, R104
theorem test_priex_scalar_write : (priexOn .insert false).diags.map (fun e => (e.1.line, e.2.1)) = [(5, .n301), (11, .e311)] := by
  decide +kernel -- R110
theorem test_priex_expression : (match parseExpr "((3-1)<<2|1)*-1".toList with
    | .ok e => (e.const []).toOption
    | .error _ => none) = some (-9) := by decide +kernel -- R102
/-- The fault of chapter 06 in an immediate, in a line with one space after its mnemonic: column 26. -/
theorem test_priex_column : (let line := "        IADD.i32 v5, v4, 64 ; L2".toList
    let src := ".kernel addone\n.group_size 8\n.lane\n".toList ++ line ++ "\nLEND\n.end".toList
    let o : Options := { output := none, dirs := [], defs := [], markers := .check, listing := false, werror := false }
    (priex [(['a'], src)] o ['a']).diags.map (fun e => (e.1.line, e.1.col, e.2.1))) = [(4, 26, .e104)] := by decide +kernel -- R103, R111
theorem test_priex_decimal : (["1_0.5", "1._5", "1_.5", "1.5_"].map fun t => (decimalText t.toList).toOption.isSome) =
    [true, false, false, false] := by decide +kernel -- R101
/-- The diagnostics of one line of a kernel's scalar or lane section. -/
def diagsOf (lane : Bool) (line : String) : List (Nat × Diag × Text) :=
  let head := ".kernel addone\n.group_size 8\n" ++ (if lane then ".lane\n" else ".lane\nLEND\n.scalar\n")
  let src := (head ++ line ++ (if lane then "\nLEND\n.end" else "\nEXIT\n.end")).toList
  let o : Options := { output := none, dirs := [], defs := [], markers := .check, listing := false, werror := false }
  (priex [(['a'], src)] o ['a']).diags.map fun e => (e.1.line, e.2)
theorem test_priex_tiles : (["LTRAP a5", "LD.b32 v4, v20, a5", "PLOP p1, p2, p3, a5"].map fun l => (diagsOf true l).map (·.2.1)) =
    [[.e105], [.e105], [.e105]] := by decide +kernel -- R83, R108
theorem test_priex_modifier : diagsOf false "SLD.rel s10, s2, 0" =
    [(6, .e102, "modifier .rel not allowed for SLD".toList)] := by decide +kernel -- R111, chapter 07

end Sys2Proof.Tests
end

section
/-! SUPPORT. The numbers that scalar instructions compute with, as operations on bit vectors (R48, R93, R115). -/
namespace Sys2Proof.Machine

/-- A number's bit is that of its binary form. -/
theorem bit_eq_testBit (v i : Nat) : bit v i = v.testBit i := by
  rw [Nat.testBit_eq_decide_div_mod_eq]
  rfl

/-- The signed value of a number of `n` bits is that of its pattern. -/
theorem toSigned_eq_toInt (n v : Nat) (hn : 0 < n) : toSigned n v = (BitVec.ofNat n v).toInt := by
  obtain ⟨m, rfl⟩ : ∃ m, n = m + 1 := ⟨n - 1, by omega⟩
  have hp : 2 ^ (m + 1) = 2 * 2 ^ m := Nat.pow_succ'
  rw [BitVec.toInt_eq_toNat_cond, BitVec.toNat_ofNat]
  simp only [toSigned, Nat.add_sub_cancel, hp]
  exact if_congr (by omega) rfl rfl

/-- An immediate of `n` bits, sign-extended to a word (R117, R122). -/
theorem ofInt_toSigned (n v : Nat) (hn : 0 < n) : BitVec.ofInt 32 (toSigned n v) = (BitVec.ofNat n v).signExtend 32 := by
  rw [toSigned_eq_toInt n v hn]
  rfl

/-- A word read as signed, and as natural. -/
theorem readInt_signed (a : Word) : readInt true 32 a.toNat = a.toInt := by
  simp only [readInt, if_true, toSigned_eq_toInt 32 a.toNat (by decide), BitVec.ofNat_toNat, BitVec.setWidth_eq]
theorem readInt_natural (a : Word) : readInt false 32 a.toNat = a.toNat := by
  simp only [readInt, Bool.false_eq_true, if_false, Nat.mod_eq_of_lt a.isLt]

/-- Bits [63:32] of an integer as a 64-bit pattern are those of its quotient by 2^32, rounded down. -/
theorem highWord_ofInt (p : Int) : ((BitVec.ofInt 64 p) >>> 32).setWidth 32 = BitVec.ofInt 32 (p / (2 ^ 32 : Nat)) := by
  apply BitVec.eq_of_toNat_eq
  simp only [BitVec.toNat_setWidth, BitVec.toNat_ushiftRight, BitVec.toNat_ofInt, Nat.shiftRight_eq_div_pow]
  omega

/-- The high word of a signed product is that of the 64-bit product of the sign-extended factors (R115). -/
theorem mulHighWord_signed (a b : Word) :
    mulHighWord true a b = ((a.signExtend 64 * b.signExtend 64) >>> 32).setWidth 32 := by
  have hp : a.signExtend 64 * b.signExtend 64 = BitVec.ofInt 64 (a.toInt * b.toInt) := (BitVec.ofInt_mul ..).symm
  rw [hp, highWord_ofInt]
  simp only [mulHighWord, mulHigh, readInt_signed]

/-- The high word of a natural product is that of the 64-bit product of the zero-extended factors (R115). -/
theorem mulHighWord_natural (a b : Word) :
    mulHighWord false a b = ((a.setWidth 64 * b.setWidth 64) >>> 32).setWidth 32 := by
  have hp : a.setWidth 64 * b.setWidth 64 = BitVec.ofInt 64 (a.toNat * b.toNat) := by
    rw [BitVec.ofInt_mul]
    simp only [BitVec.ofInt_natCast, BitVec.ofNat_toNat]
  rw [hp, highWord_ofInt]
  simp only [mulHighWord, mulHigh, readInt_natural]

/-! ## Shifts by the whole of a register (R115) -/

/-- A left shift by a word that is the width or more leaves no bit. -/
theorem shiftLeft_toNat_eq_ite (a b : Word) : a <<< b.toNat = if 32 ≤ b.toNat then 0 else a <<< b := by
  split
  · exact BitVec.shiftLeft_eq_zero ‹_›
  · rfl

/-- The same of a right shift that fills with zeros. -/
theorem ushiftRight_toNat_eq_ite (a b : Word) : a >>> b.toNat = if 32 ≤ b.toNat then 0 else a >>> b := by
  split
  · exact BitVec.ushiftRight_eq_zero ‹_›
  · rfl

/-- A right shift that fills with copies of the top bit leaves only those where the count is the width or more. -/
theorem sshiftRight_toNat_eq_ite (a b : Word) : a.sshiftRight b.toNat =
    if 32 ≤ b.toNat then (if a.msb then BitVec.allOnes 32 else 0) else a.sshiftRight b.toNat := by
  split
  · rename_i hb
    cases ha : a.msb with
    | true =>
      rw [BitVec.sshiftRight_eq_of_msb_true ha, BitVec.ushiftRight_eq_zero hb]
      rfl
    | false =>
      rw [BitVec.sshiftRight_eq_of_msb_false ha, BitVec.ushiftRight_eq_zero hb]
      rfl
  · rfl

/-! ## Minima and maxima (R115) -/

theorem ite_slt_eq_min (a b : Word) : (if b.slt a then b else a) = BitVec.ofInt 32 (min a.toInt b.toInt) := by
  simp only [min_comm a.toInt, min_def_lt, apply_ite (BitVec.ofInt 32), BitVec.ofInt_toInt, BitVec.slt_iff_toInt_lt]

theorem ite_slt_eq_max (a b : Word) : (if a.slt b then b else a) = BitVec.ofInt 32 (max a.toInt b.toInt) := by
  simp only [max_def_lt, apply_ite (BitVec.ofInt 32), BitVec.ofInt_toInt, BitVec.slt_iff_toInt_lt]

theorem ite_ult_eq_min (a b : Word) : (if b.ult a then b else a) = BitVec.ofNat 32 (min a.toNat b.toNat) := by
  simp only [min_comm a.toNat, min_def_lt, apply_ite (BitVec.ofNat 32), BitVec.ofNat_toNat, BitVec.setWidth_eq,
    BitVec.ult_iff_lt, BitVec.lt_def]

theorem ite_ult_eq_max (a b : Word) : (if a.ult b then b else a) = BitVec.ofNat 32 (max a.toNat b.toNat) := by
  simp only [max_def_lt, apply_ite (BitVec.ofNat 32), BitVec.ofNat_toNat, BitVec.setWidth_eq, BitVec.ult_iff_lt,
    BitVec.lt_def]

/-! ## Conditions and truth tables (R93) -/

/-- The conditions of R93's table on two words, at their codes. -/
def condTable (a b : Word) : List Bool :=
  [decide (a = b), decide (a ≠ b), decide (a.toInt < b.toInt), decide (a.toInt ≤ b.toInt), decide (b.toInt < a.toInt),
   decide (b.toInt ≤ a.toInt), decide (a.toNat < b.toNat), decide (a.toNat ≤ b.toNat), decide (b.toNat < a.toNat),
   decide (b.toNat ≤ a.toNat), decide (a &&& b ≠ 0), decide (a &&& b = 0)]

/-- The model's condition is the one that stands at the code in R93's table. -/
theorem scalarCond_eq_condTable (a b : Word) {cc : Nat} (h : cc < 12) :
    scalarCond cc a b = (condTable a b).getD cc false :=
  match cc, h with
  | 0, _ => rfl
  | 1, _ => (decide_not ..).symm
  | 2, _ => BitVec.slt_eq_decide
  | 3, _ => BitVec.sle_eq_decide
  | 4, _ => BitVec.slt_eq_decide
  | 5, _ => BitVec.sle_eq_decide
  | 6, _ => BitVec.ult_eq_decide
  | 7, _ => BitVec.ule_eq_decide
  | 8, _ => BitVec.ult_eq_decide
  | 9, _ => BitVec.ule_eq_decide
  | 10, _ => (decide_not ..).symm
  | 11, _ => rfl

/-- The bit of a truth table that two predicates choose. -/
theorem tableBit_eq_testBit (t : Nat) (a b : Bool) : tableBit t a b = t.testBit (2 * a.toNat + b.toNat) := by
  cases a <;> cases b <;> exact bit_eq_testBit t _

end Sys2Proof.Machine
end

section
/-! SUPPORT. What the scalar branches do when they go on (R131 to R133). -/
namespace Sys2Proof.Machine

/-- The condition field of a branch, as R131 writes it. -/
theorem branchTaken_iff (g : Group) (c : Nat) :
    branchTaken g c = true ↔ c = 7 ∨ (c ≠ 15 ∧ g.getQ (c % 8) ≠ c.testBit 3) := by
  simp only [branchTaken, selCond, bit_eq_testBit, Bool.or_eq_true, Bool.and_eq_true, beq_iff_eq, bne_iff_ne]

/-- What a taken branch of the group `g` to the word index `t` of a section of `n` words comes to: the group as the branch
leaves it, `h`, goes on there, or a target outside the section traps and nothing of `h` is kept (R131). -/
def State.branchTo (s : State) (n : Nat) (g h : Group) (t : Int) : Out :=
  if 0 ≤ t ∧ t < n then .next (s.setGroup (h.goTo t.toNat)) else .next (s.scalarTrap g 0x01 0)

section
variable {s s' : State} {g : Group} {n : Nat}

/-- The range check that the model writes at each branch is that of `branchTo`. -/
theorem ite_outside_eq_branchTo (h : Group) (t : Int) :
    (if (t < 0 || t ≥ (n : Int)) = true then .next (s.scalarTrap g 0x01 0) else .next (s.setGroup (h.goTo t.toNat))) =
      s.branchTo n g h t := by
  have outside : (t < 0 || t ≥ (n : Int)) = true ↔ ¬ (0 ≤ t ∧ t < n) := by
    simp only [Bool.or_eq_true, decide_eq_true_eq]
    omega
  simp only [outside, State.branchTo, ite_not]

variable (hlen : s.scalarLen g = (s', n))
include hlen

theorem scalarJump_eq_branchTo (t : Int) : .next (s.scalarJump g t) = s'.branchTo n g g t := by
  rw [← ite_outside_eq_branchTo]
  unfold State.scalarJump
  rw [hlen]
  exact apply_ite ..

/-- SBR (R131). -/
theorem exec_sbr (hs : s.scalarReady [] = some g) (c : Nat) (off : Int) : exec (.sbr c off) s =
    if branchTaken g c then s'.branchTo n g g (g.spc + off) else .next (s.scalarDone g 1) := by
  rw [← scalarJump_eq_branchTo hlen]
  exact scalarInstr_ready _ hs

/-- SCALL (R131). -/
theorem exec_scall (hs : s.scalarReady [63] = some g) (c : Nat) (off : Int) : exec (.scall c off) s =
    if branchTaken g c then s'.branchTo n g (g.setS 63 (BitVec.ofNat 32 (g.spc + 1))) (g.spc + off)
    else .next (s.scalarDone g 1) := by
  rw [← ite_outside_eq_branchTo]
  refine (scalarInstr_ready _ hs).trans ?_
  rw [hlen]
  rfl

/-- SRET (R132). -/
theorem exec_sret (hs : s.scalarReady [63] = some g) : exec .sret s = s'.branchTo n g g (g.getS 63).toNat := by
  rw [← scalarJump_eq_branchTo hlen]
  exact scalarInstr_ready _ hs

/-- SJMPR (R132). -/
theorem exec_sjmpr {a : Nat} (hs : s.scalarReady [a] = some g) :
    exec (.sjmpr a) s = s'.branchTo n g g (g.getS a).toNat := by
  rw [← scalarJump_eq_branchTo hlen]
  exact scalarInstr_ready _ hs

/-- SLOOP (R133). -/
theorem exec_sloop {d : Nat} (hs : s.scalarReady [d] = some g) (off : Int) : exec (.sloop d off) s =
    if g.getS d - 1 = 0 then .next (s.scalarDone (g.setS d (g.getS d - 1)) 1)
    else s'.branchTo n g (g.setS d (g.getS d - 1)) (g.spc + off) := by
  rw [← ite_outside_eq_branchTo]
  refine (scalarInstr_ready _ hs).trans ?_
  rw [hlen]
  rfl

end

end Sys2Proof.Machine
end

section
/-! PROOFS. The scalar instructions of chapter 07: three-register arithmetic, predicates, and control flow. -/
namespace Sys2Proof.Machine

/-- What a three-register instruction computes from the values of s(A) and s(B) is what it writes to s(D) (R115). -/
theorem s3_ready {s : State} {g : Group} {d x y : Nat} (h : s.scalarReady [d, x, y] = some g) (f : Group → Word) {w : Word}
    (hw : f g = w) : s3 s d x y f = .next (s.scalarDone (g.setS d w) 1) :=
  hw ▸ scalarOp_ready _ h

/-- Settles O15: each row of R115's table is the group operation of one instruction, read as an operation on words. -/
theorem scalarThreeRegister : Obligations.ScalarThreeRegister := by
  unfold Obligations.ScalarThreeRegister
  intro s g d x y h a b r
  exact ⟨s3_ready h _ rfl, s3_ready h _ rfl, s3_ready h _ rfl, s3_ready h _ (mulHighWord_signed a b),
    s3_ready h _ (mulHighWord_natural a b), s3_ready h _ rfl, s3_ready h _ rfl, s3_ready h _ rfl,
    s3_ready h _ (shiftLeft_toNat_eq_ite a b), s3_ready h _ (ushiftRight_toNat_eq_ite a b),
    s3_ready h _ (sshiftRight_toNat_eq_ite a b), s3_ready h _ (ite_slt_eq_min a b), s3_ready h _ (ite_slt_eq_max a b),
    s3_ready h _ (ite_ult_eq_min a b), s3_ready h _ (ite_ult_eq_max a b)⟩

/-- Settles O18: the conditions are R93's table, SCMPI's immediate is the sign extension of its pattern, and QLOP's bit is
that of its table. -/
theorem scalarPredicates : Obligations.ScalarPredicates := by
  unfold Obligations.ScalarPredicates
  intro s g x y i conds
  refine ⟨fun h cc hcc q _ => ?scmp, fun h _ cc hcc q _ => ?scmpi, fun h => ⟨fun t d a b => ?qlop, scalarOp_ready _ h⟩⟩
  case scmp => exact scalarCond_eq_condTable (g.getS x) (g.getS y) hcc ▸ scalarOp_ready _ h
  case scmpi =>
    rw [show conds = condTable from rfl, ← scalarCond_eq_condTable _ _ hcc, ← ofInt_toSigned 8 i (by decide)]
    exact scalarOp_ready _ h
  case qlop =>
    rw [← tableBit_eq_testBit]
    exact scalarOp_ready _ h

/-- Settles O19: the equation of each branch, with the condition field read as R131 says and SLOOP's counter at its end
exactly where it was 1. -/
theorem scalarControlFlow : Obligations.ScalarControlFlow := by
  unfold Obligations.ScalarControlFlow
  intro s s' g c a d n off hlen taken go
  have notTaken : ¬ taken → ¬ branchTaken g c = true := mt (branchTaken_iff g c).1
  refine ⟨fun h => ⟨fun ht => ?_, fun ht => ?_⟩, fun h => ⟨fun ht => ?_, fun ht => ?_, exec_sret hlen h⟩,
    exec_sjmpr hlen, fun h => ⟨fun hd => ?_, fun hd => ?_⟩⟩
  · exact (exec_sbr hlen h c off).trans (if_pos ((branchTaken_iff g c).2 ht))
  · exact (exec_sbr hlen h c off).trans (if_neg (notTaken ht))
  · exact (exec_scall hlen h c off).trans (if_pos ((branchTaken_iff g c).2 ht))
  · exact (exec_scall hlen h c off).trans (if_neg (notTaken ht))
  · rw [exec_sloop hlen h, hd]
    exact if_pos rfl
  · exact (exec_sloop hlen h off).trans (if_neg (sub_ne_zero.2 hd))

end Sys2Proof.Machine
end

section
/-! SUPPORT. The codes of the operand fields decode to what was encoded (R15, R53, R57, R79, R83, R84, R86, R88, R126, R164). -/
namespace Sys2Proof

@[simp] theorem MOrd.ofCode_code (o : MOrd) : MOrd.ofCode o.code = some o := by cases o <;> rfl
@[simp] theorem Scope.ofCode_code (sc : Scope) : Scope.ofCode sc.code = some sc := by cases sc <;> rfl
@[simp] theorem Rnd.ofCode_code (r : Rnd) : Rnd.ofCode r.code = some r := by cases r <;> rfl
@[simp] theorem Sat.ofCode_code (s : Sat) : Sat.ofCode s.code = some s := by cases s <;> rfl
@[simp] theorem ITy.ofCode_code (t : ITy) : ITy.ofCode t.code = some t := by cases t <;> rfl
@[simp] theorem FTy.ofCode_code (t : FTy) : FTy.ofCode t.code = some t := by cases t <;> rfl
@[simp] theorem MTy.ofCode_code (t : MTy) : MTy.ofCode t.code = some t := by cases t <;> rfl
@[simp] theorem ATy.ofCode_code (t : ATy) : ATy.ofCode t.code = some t := by cases t <;> rfl
@[simp] theorem AOp.ofCode_code (o : AOp) : AOp.ofCode o.code = some o := by cases o <;> rfl
@[simp] theorem SAOp.ofCode_code (o : SAOp) : SAOp.ofCode o.code = o := by cases o <;> rfl
@[simp] theorem SW.ofCode_code (w : SW) : SW.ofCode w.code = some w := by cases w <;> rfl
@[simp] theorem Hint.ofCode_code (h : Hint) : Hint.ofCode h.code = some h := by cases h <;> rfl
@[simp] theorem MxFmt.ofCode_code (f : MxFmt) : MxFmt.ofCode f.code = some f := by cases f <;> rfl
@[simp] theorem Ty.ofCode_code (t : Ty) : Ty.ofCode (t.col == 1) t.code = some t := by
  cases t <;> simp [Ty.ofCode, Ty.col, Ty.code]

theorem MOrd.code_lt (o : MOrd) : o.code < 4 := by cases o <;> decide
theorem Scope.code_lt (sc : Scope) : sc.code < 6 := by cases sc <;> decide
theorem Rnd.code_lt (r : Rnd) : r.code < 8 := by cases r <;> decide
theorem Sat.code_lt (s : Sat) : s.code < 4 := by cases s <;> decide
theorem ITy.code_lt (t : ITy) : t.code < 8 := by cases t <;> decide
theorem FTy.code_lt (t : FTy) : t.code < 8 := by cases t <;> decide
theorem MTy.code_lt (t : MTy) : t.code < 8 := by cases t <;> decide
theorem ATy.code_lt (t : ATy) : t.code < 8 := by cases t <;> decide
theorem Ty.code_lt (t : Ty) : t.code < 8 := match t with
  | .int t => t.code_lt
  | .flt t => t.code_lt
theorem Ty.col_lt (t : Ty) : t.col < 2 := match t with
  | .int _ => Nat.zero_lt_two
  | .flt _ => Nat.one_lt_two
theorem AOp.code_lt (o : AOp) : o.code < 2048 := by cases o <;> decide
theorem SAOp.code_lt (o : SAOp) : o.code < 4 := by cases o <;> decide
theorem SW.code_lt (w : SW) : w.code < 4 := by cases w <;> decide
theorem Hint.code_lt (h : Hint) : h.code < 8 := by cases h <;> decide
theorem MxFmt.code_lt (f : MxFmt) : f.code < 16 := by cases f <;> decide

/-- The operand that an in-range operand's code names is that operand (R79). -/
theorem Opnd.ofCode_code {o : Opnd} (h : o.inRange = true) : Opnd.ofCode o.code = some o := by
  cases o <;> grind [Opnd.ofCode, Opnd.code, Opnd.inRange]

theorem Opnd.code_lt {o : Opnd} (h : o.inRange = true) : o.code < 2048 := by
  cases o <;> simp only [Opnd.inRange, Bool.and_eq_true, decide_eq_true_eq] at h <;> simp only [Opnd.code] <;> omega

/-- A number that fits an n-bit field is read back from it as two's complement (R83, R92, R94). -/
theorem sext_field {n : Nat} {i : Int} (hn : 0 < n) (h : -(2 ^ (n - 1) : Nat) ≤ i ∧ i < (2 ^ (n - 1) : Nat)) :
    sext n (field n i) = i := by
  obtain ⟨m, rfl⟩ : ∃ m, n = m + 1 := ⟨n - 1, by omega⟩
  have hp : 2 ^ (m + 1) = 2 * 2 ^ m := Nat.pow_succ'
  simp only [Nat.add_sub_cancel] at h
  simp only [sext, field, Nat.add_sub_cancel, hp]
  generalize 2 ^ m = p at *
  rcases Int.lt_or_le i 0 with hi | hi
  · have : i % ((2 * p : Nat) : Int) = i + (2 * p : Nat) := by
      rw [← Int.add_emod_right, Int.emod_eq_of_lt (by omega) (by omega)]
    rw [this, if_neg (by omega)]
    omega
  · have : i % ((2 * p : Nat) : Int) = i := Int.emod_eq_of_lt (by omega) (by omega)
    rw [this, if_pos (by omega)]
    omega

theorem field_lt (n : Nat) (i : Int) : field n i < 2 ^ n := by
  have : (0 : Int) < (2 ^ n : Nat) := by exact_mod_cast Nat.two_pow_pos n
  have := Int.emod_lt_of_pos i this
  have := Int.emod_nonneg i (b := ((2 ^ n : Nat) : Int)) (by omega)
  simp only [field]
  omega

end Sys2Proof
end
section
/-! SUPPORT. Scalar words: each format's fields are read back from its word (R92 to R97). -/
namespace Sys2Proof

theorem SFields.of_sword {op d a b w : Nat} (hop : op < 256) (hd : d < 256) (ha : a < 256) (hb : b < 256)
    (hw : w < 4294967296) : SFields.of (sword op d a b) w = { op := op, d := d, a := a, b := b, imm := w } := by
  simp only [SFields.of, sword, SFields.mk.injEq]
  omega

/-- A word whose fields name a candidate decodes to what the static checks make of it (R92, R95). -/
theorem decodeScalar_sword {op d a b w : Nat} {i : Instr}
    (hc : scalarCandidate { op := op, d := d, a := a, b := b, imm := w } = some i)
    (hop : op < 256 := by decide) (hd : d < 256 := by omega) (ha : a < 256 := by omega) (hb : b < 256 := by omega)
    (hw : w < 4294967296 := by omega) : decodeScalar (sword op d a b) w = .ofCandidate (some i) := by
  rw [decodeScalar, SFields.of_sword hop hd ha hb hw, hc]

theorem siword_eq_sword (op d i : Nat) : siword op d i = sword op d (i / 256) (i % 256) := by
  simp only [siword, sword]
  omega

theorem sbword_eq_sword (op c : Nat) (off : Int) : sbword op c off =
    sword op (c * 16 + field 20 off / 65536) (field 20 off / 256 % 256) (field 20 off % 256) := by
  simp only [sbword, sword]
  omega

/-- The three fields of an SB word hold its offset (R92). -/
theorem off20_sbword {op c w : Nat} {off : Int} (h : off20 off = true) :
    SFields.off20 ⟨op, c * 16 + field 20 off / 65536, field 20 off / 256 % 256, field 20 off % 256, w⟩ = off := by
  have := field_lt 20 off
  have hf : (c * 16 + field 20 off / 65536) % 16 * 65536 + field 20 off / 256 % 256 * 256 + field 20 off % 256 =
      field 20 off := by omega
  simp only [SFields.off20, hf]
  simp only [off20, Bool.and_eq_true, decide_eq_true_eq] at h
  exact sext_field (by decide) ⟨h.1, by omega⟩

theorem sext_field32 {off : Int} (h : off32 off = true) : sext 32 (field 32 off) = off := by
  simp only [off32, Bool.and_eq_true, decide_eq_true_eq] at h
  exact sext_field (by decide) ⟨h.1, by omega⟩

/-- A candidate whose unused fields are as they must be. -/
theorem onlyIf_eq_some {c : Bool} {i j : Instr} (hc : c = true) (hi : i = j) : onlyIf c i = some j := by
  rw [onlyIf, if_pos hc, hi]

/-- The completion mode and its operand are read back (R285). -/
theorem Compl.ofCode_mode {cm : Compl} (h : cm.ok = true) : Compl.ofCode cm.mode cm.imm = some cm := by
  cases cm with
  | none | bar | task => rfl
  | yield off => simp only [Compl.mode, Compl.imm, Compl.ofCode, sext_field32 h]

theorem Compl.mode_lt (cm : Compl) : cm.mode < 4 := by cases cm <;> simp [Compl.mode]

theorem Compl.imm_lt {cm : Compl} (h : cm.ok = true) : cm.imm < 4294967296 := by
  cases cm with
  | none => decide
  | yield off => exact field_lt 32 off
  | bar off =>
    simp only [Compl.ok, Bool.and_eq_true, decide_eq_true_eq] at h
    exact h.1
  | task id => exact of_decide_eq_true h

theorem memSub_lt {k : Nat} (hk : k < 4) (o : MOrd) (sc : Scope) (prom : Bool) : memSub k o sc prom < 256 := by
  have := o.code_lt
  have := sc.code_lt
  have := prom.toNat_le
  simp only [memSub]
  omega

/-- The SUB byte of a scalar memory instruction holds a code, the order, the scope and PROM (R94). -/
theorem memSub_fields {k : Nat} (hk : k < 4) (o : MOrd) (sc : Scope) (prom : Bool) :
    memSub k o sc prom % 4 = k ∧ memSub k o sc prom / 4 % 4 = o.code ∧ memSub k o sc prom / 16 % 8 = sc.code ∧
      memSub k o sc prom / 128 = prom.toNat := by
  have := o.code_lt
  have := sc.code_lt
  have := prom.toNat_le
  simp only [memSub]
  omega

@[simp] theorem toNat_beq_one (b : Bool) : (b.toNat == 1) = b := by cases b <;> rfl

end Sys2Proof
end

section
/-! SUPPORT. Lane words: every field of a lane word is read back, and its fields name the instruction (R77, R89 to R91). -/
namespace Sys2Proof

/-- Every field is in the range of its bits (R77). -/
def LFields.fits (f : LFields) : Prop :=
  f.op < 1024 ∧ f.sub < 16 ∧ f.typ < 8 ∧ f.rnd < 8 ∧ f.sat < 4 ∧ f.nf < 2 ∧ f.sw < 2 ∧ f.rg < 2 ∧ f.ch < 8 ∧ f.gc < 2 ∧
    f.gq < 16 ∧ f.gp < 16 ∧ f.xt < 16 ∧ f.e < 2048 ∧ f.d < 2048 ∧ f.c < 2048 ∧ f.b < 2048 ∧ f.a < 2048

/-- The fields of a lane word are those that it is made of (R77). -/
theorem LFields.of_word {f : LFields} (h : f.fits) : LFields.of f.word = f := by
  obtain ⟨op, sub, typ, rnd, sat, nf, sw, rg, ch, gc, gq, gp, xt, e, d, c, b, a⟩ := f
  simp only [LFields.fits] at h
  simp only [LFields.of, LFields.word, LFields.mk.injEq]
  omega

theorem LFields.word_lt {f : LFields} (h : f.fits) : f.word < 2 ^ 96 := by
  simp only [LFields.fits] at h
  simp only [LFields.word]
  omega

theorem decodeWords_lane {i : Instr} {f : LFields} (hi : laneFields i = some f) (h : f.fits)
    (hc : laneCandidate f = some i) : decodeWords (encode i) = .ofCandidate (some i) := by
  have hw : f.word % 4294967296 + f.word / 4294967296 % 4294967296 * 4294967296 +
      f.word / 18446744073709551616 % 4294967296 * 18446744073709551616 = f.word := by
    have := f.word_lt h
    omega
  simp only [encode, hi, decodeWords, hw, decodeLane, LFields.of_word h, hc]

@[simp] theorem Opnd.code_none : Opnd.code .none = 0x7FF := rfl
@[simp] theorem Opnd.ofCode_none : Opnd.ofCode 0x7FF = some .none := rfl
@[simp] theorem onlyIf_true (i : Instr) : onlyIf true i = some i := rfl
@[simp] theorem Rnd.code_rn : Rnd.code .rn = 0 := rfl
@[simp] theorem Sat.code_wrap : Sat.code .wrap = 0 := rfl
@[simp] theorem ITy.code_i32 : ITy.code .i32 = 0 := rfl
@[simp] theorem FTy.code_f32 : FTy.code .f32 = 0 := rfl
@[simp] theorem Rnd.ofCode_zero : Rnd.ofCode 0 = some .rn := rfl
@[simp] theorem Sat.ofCode_zero : Sat.ofCode 0 = some .wrap := rfl
@[simp] theorem ITy.ofCode_zero : ITy.ofCode 0 = some .i32 := rfl
@[simp] theorem FTy.ofCode_zero : FTy.ofCode 0 = some .f32 := rfl
@[simp] theorem Hint.ofCode_zero : Hint.ofCode 0 = some .dflt := rfl
@[simp] theorem MOrd.ofCode_zero : MOrd.ofCode 0 = some .plain := rfl

@[simp] theorem toNat_div_two (b : Bool) : b.toNat / 2 = 0 := by cases b <;> rfl
@[simp] theorem Scope.code_mod_eight (sc : Scope) : sc.code % 8 = sc.code := by cases sc <;> rfl
@[simp] theorem Scope.code_div_eight (sc : Scope) : sc.code / 8 = 0 := by cases sc <;> rfl
@[simp] theorem Ty.col_mod_two (t : Ty) : t.col % 2 = t.col := by cases t <;> rfl
theorem Scope.code_lt_sixteen (sc : Scope) : sc.code < 16 := sc.code_lt.trans (by decide)

theorem toNat_lt_add_two (b : Bool) (n : Nat) : b.toNat < n + 2 := Nat.lt_of_lt_of_le b.toNat_lt (Nat.le_add_left 2 n)

/-- SUB of a memory instruction holds a bit and the order (R90). -/
theorem ordSub_fields (b : Bool) (o : MOrd) : (b.toNat + 4 * o.code) / 4 = o.code ∧ (b.toNat + 4 * o.code) / 2 % 2 = 0 ∧
    (b.toNat + 4 * o.code) % 2 = b.toNat ∧ b.toNat + 4 * o.code < 16 := by
  have := b.toNat_lt
  have := o.code_lt
  omega

/-- XT of a memory instruction holds the scope and PROM (R90). -/
theorem scopeXt_fields (sc : Scope) (b : Bool) : (sc.code + 8 * b.toNat) % 8 = sc.code ∧
    (sc.code + 8 * b.toNat) / 8 = b.toNat ∧ sc.code + 8 * b.toNat < 16 := by
  have := b.toNat_lt
  have := sc.code_lt
  omega

/-- SUB of a reduction holds the operator and the column of the type (R168). -/
theorem redSub_fields {op : Nat} (h : op < 8) (t : Ty) : (op + 8 * t.col) / 8 = t.col ∧ (op + 8 * t.col) % 8 = op ∧
    op + 8 * t.col < 16 := by
  have := t.col_lt
  omega

/-- SUB of a conversion holds the columns of its two types (R163). -/
theorem cvtSub_fields (dt st : Ty) : (dt.col + 2 * st.col) / 4 = 0 ∧ (dt.col + 2 * st.col) / 2 % 2 = st.col ∧
    (dt.col + 2 * st.col) % 2 = dt.col ∧ dt.col + 2 * st.col < 16 := by
  have := dt.col_lt
  have := st.col_lt
  omega

theorem redOk_op_lt {t : Ty} {op : Nat} {r : Rnd} {sat : Sat} (h : redOk t op r sat = true) : op < 8 := by
  cases t <;> simp only [redOk, Bool.and_eq_true, decide_eq_true_eq] at h <;> omega

/-- An offset pair is read back (R83). -/
theorem offPair_lfOff {o : Int} (h : off22 o = true) : offPair (lfOff o).1 (lfOff o).2 = o := by
  simp only [off22, Bool.and_eq_true, decide_eq_true_eq] at h
  have hf : field 22 o % 2048 + field 22 o / 2048 * 2048 = field 22 o := by omega
  simp only [offPair, lfOff, hf]
  exact sext_field (by decide) ⟨h.1, by omega⟩

theorem lfOff_lt (o : Int) : (lfOff o).1 < 2048 ∧ (lfOff o).2 < 2048 := by
  have := field_lt 22 o
  simp only [lfOff]
  omega

theorem wainiOk_lt {op flt : Nat} {b c : Opnd} (h : wainiOk op flt b c = true) : op < 16 ∧ flt < 8 := by
  unfold wainiOk at h
  split_ifs at h <;> simp only [Bool.and_eq_true, decide_eq_true_eq] at h <;> omega

end Sys2Proof
end

section
/-! PROOFS. Decoding undoes encoding (R77, R89 to R97). -/
namespace Sys2Proof

theorem decodeWords_encodeScalar {i : Instr} (h : i.fieldsOk = true) (hs : encodeScalar i ≠ []) :
    decodeWords (encodeScalar i) = .ofCandidate (some i) := by
  have f32 := field_lt 32
  have f20 := field_lt 20
  have f16 := field_lt 16
  have boolLe := Bool.toNat_le
  cases i <;> try exact absurd rfl hs
  all_goals simp only [Instr.fieldsOk, Bool.and_eq_true, decide_eq_true_eq, r8, blk8] at h
  case snop | sret | lwait | bleave | yield | tret | bkpt | exit => rfl
  case sadd | ssub | smul | smulh | smulhn | sand | sor | sxor | sshl | sshr | ssha | smin | smax | sminn | smaxn
    | sadd64 | ssub64 | smvxf | smvxt | smov | spopc | sclz | sjmpr | mmac | mzro | macc | mfnc | mprb | rcfnc | benter
    | bqry | bfree | barp | bara | barw | evset | evclr | evwait | tsig | sleepns | waitns | srds | swrs =>
    exact decodeScalar_sword rfl
  case saddi d i | smovi d i | slui d i | sandi d i | sori d i | trap i =>
    have hi : i / 256 * 256 + i % 256 = i := by omega
    simp only [encodeScalar, decodeWords, siword_eq_sword]
    refine decodeScalar_sword ?_
    simp [scalarCandidate, decodeArith, decodeSystem, onlyIf, SFields.imm16, hi]
  case sshli d a n | sshri d a n | sshai d a n =>
    exact decodeScalar_sword (onlyIf_eq_some (by simp; omega) (by simp; omega))
  case sbfx d a sx pos len =>
    have := boolLe sx
    refine decodeScalar_sword (onlyIf_eq_some ?_ ?_)
    · simp; omega
    · simp [Nat.mod_eq_of_lt (show sx.toNat < 2 by omega)]; omega
  case scmp cc q a b | scmpi cc q a b =>
    exact decodeScalar_sword (onlyIf_eq_some (by simp; omega) (by simp; omega))
  case ssel d a c src =>
    cases src with
    | reg n =>
      simp only [decide_eq_true_eq] at h
      have hc : c % 16 = c ∧ c / 16 % 2 = 0 ∧ c / 32 = 0 ∧ n / 256 = 0 := by omega
      refine decodeScalar_sword ?_
      simp [scalarCandidate, decodeArith, onlyIf, hc]
      omega
    | imm w =>
      simp only [decide_eq_true_eq] at h
      have hc : (c + 16) / 16 % 2 = 1 ∧ (c + 16) % 16 = c ∧ (c + 16) / 32 = 0 := by omega
      refine decodeScalar_sword ?_
      simp [scalarCandidate, decodeArith, onlyIf, hc]
      omega
  case qlop t d a b =>
    exact decodeScalar_sword (onlyIf_eq_some (by simp; omega) (by simp; omega))
  case sldi d pair i =>
    have := boolLe pair
    refine decodeScalar_sword (onlyIf_eq_some ?_ ?_)
    · simp
    · simp [Nat.mod_eq_of_lt (show pair.toNat < 2 by omega)]
  case sld d a w o sc prom off =>
    obtain ⟨e1, e2, e3, e4⟩ := memSub_fields w.code_lt o sc prom
    have := f32 off
    refine decodeScalar_sword ?_ (hb := memSub_lt w.code_lt o sc prom)
    simp [scalarCandidate, decodeMem, SFields.off, e1, e2, e3, e4, sext_field32 h.2]
  case sst d a w o sc off =>
    obtain ⟨e1, e2, e3, e4⟩ := memSub_fields w.code_lt o sc false
    have := f32 off
    refine decodeScalar_sword ?_ (hb := memSub_lt w.code_lt o sc false)
    simp [scalarCandidate, decodeMem, onlyIf, SFields.off, e1, e2, e3, e4, sext_field32 h.2]
  case satom d a op o sc prom off =>
    obtain ⟨e1, e2, e3, e4⟩ := memSub_fields op.code_lt o sc prom
    have := f32 off
    refine decodeScalar_sword ?_ (hb := memSub_lt op.code_lt o sc prom)
    simp [scalarCandidate, decodeMem, SFields.off, e1, e2, e3, e4, sext_field32 h.2]
  case sld64 d a o sc prom off | scas d a o sc prom off =>
    obtain ⟨e1, e2, e3, e4⟩ := memSub_fields (k := 0) (by decide) o sc prom
    have := f32 off
    refine decodeScalar_sword ?_ (hb := memSub_lt (by decide) o sc prom)
    simp [scalarCandidate, decodeMem, onlyIf, SFields.off, e1, e2, e3, e4, sext_field32 h.2]
  case sst64 d a o sc off =>
    obtain ⟨e1, e2, e3, e4⟩ := memSub_fields (k := 0) (by decide) o sc false
    have := f32 off
    refine decodeScalar_sword ?_ (hb := memSub_lt (by decide) o sc false)
    simp [scalarCandidate, decodeMem, onlyIf, SFields.off, e1, e2, e3, e4, sext_field32 h.2]
  case spfxPf d a sc off =>
    obtain ⟨e1, e2, e3, e4⟩ := memSub_fields (k := 0) (by decide) .plain sc false
    have := f32 off
    refine decodeScalar_sword ?_ (hb := memSub_lt (by decide) .plain sc false)
    simp [scalarCandidate, decodeMem, SFields.off, e1, e2, e3, e4, MOrd.code, sext_field32 h.2]
  case spfxWb d a off | spfxInv d a off =>
    have := f32 off
    refine decodeScalar_sword ?_ (hb := memSub_lt (by decide) .plain .sys false)
    simp [scalarCandidate, decodeMem, onlyIf, SFields.off, memSub, MOrd.code, Scope.code, Scope.ofCode, sext_field32 h.2]
  case sfnc o sc prom =>
    obtain ⟨e1, e2, e3, e4⟩ := memSub_fields (k := 0) (by decide) o sc prom
    refine decodeScalar_sword ?_ (hb := memSub_lt (by decide) o sc prom)
    simp [scalarCandidate, decodeMem, onlyIf, e1, e2, e3, e4]
  case sbr c off | scall c off =>
    have := f20 off
    have hc : (c * 16 + field 20 off / 65536) / 16 = c := by omega
    simp only [encodeScalar, decodeWords, sbword_eq_sword]
    refine decodeScalar_sword ?_
    simp [scalarCandidate, decodeMem, hc, off20_sbword h.2]
  case sloop d off =>
    have := f16 off
    have hi : field 16 off / 256 * 256 + field 16 off % 256 = field 16 off := by omega
    have hoff : sext 16 (field 16 off) = off := by
      simp only [off16, Bool.and_eq_true, decide_eq_true_eq] at h
      exact sext_field (by decide) ⟨h.2.1, by omega⟩
    simp only [encodeScalar, decodeWords, siword_eq_sword]
    refine decodeScalar_sword ?_
    simp [scalarCandidate, decodeMem, SFields.imm16, hi, hoff]
  case lgo a n start | lgot a n start =>
    have hn : n / 16 = 0 ∧ n % 16 = n := by omega
    refine decodeScalar_sword ?_
    simp [scalarCandidate, decodeMem, onlyIf, hn]
  case cpy a cm g | gath a cm g | scat a cm g | mcast a cm g =>
    have := cm.mode_lt
    have := Compl.imm_lt h.1.2
    have hm : (cm.mode + g * 8) % 4 = cm.mode := by omega
    have hg : (cm.mode + g * 8) / 8 % 16 = g := by omega
    refine decodeScalar_sword ?_
    simp [scalarCandidate, decodeEngine, onlyIf, hm, hg, Compl.ofCode_mode h.1.2]
    omega
  case cpym a g m =>
    exact decodeScalar_sword (onlyIf_eq_some (by simp; omega) (by simp; omega))
  case msnd d a cm | mpst d a cm =>
    have := cm.mode_lt
    have := Compl.imm_lt h.2
    refine decodeScalar_sword ?_
    simp [scalarCandidate, decodeEngine, onlyIf, Nat.mod_eq_of_lt cm.mode_lt, Compl.ofCode_mode h.2]
    omega
  case mwait n | mwaitR n =>
    refine decodeScalar_sword ?_
    simp [scalarCandidate, decodeEngine, onlyIf]
    omega
  case bdecl d a off | launch d a off | jraise d a off | jdone a off | benterYield a off =>
    have := f32 off
    refine decodeScalar_sword ?_
    simp [scalarCandidate, decodeSystem, onlyIf, SFields.off, sext_field32 h.2]
  case bar block n =>
    have := boolLe block
    refine decodeScalar_sword ?_
    cases block <;> simp [scalarCandidate, decodeSystem, onlyIf]
  case ppt m =>
    exact decodeScalar_sword (onlyIf_eq_some (by simp; omega) (by simp; omega))

theorem laneFields_fits {i : Instr} {f : LFields} (h : i.fieldsOk = true) (hf : laneFields i = some f) : f.fits := by
  cases i <;> simp only [laneFields, Option.some.injEq, reduceCtorEq] at hf <;> subst hf
  all_goals
    simp only [Instr.fieldsOk, Bool.and_eq_true, decide_eq_true_eq, opsOk, List.all_cons, List.all_nil, Hdr.ok] at h
    simp only [LFields.fits, lf, lfI, lfP, lfF, lfW, Hdr.bare]
  case idot4 h bs cs sat nf a b c d =>
    have : bs.toNat + 2 * cs.toNat < 16 := by have := bs.toNat_lt; have := cs.toNat_lt; omega
    simp [Opnd.code_lt, h, Bool.toNat_le, toNat_lt_add_two, this]
  case icmp t cc a b c | fcmp nf cc a b c | vote cc a b =>
    have : cc < 16 := by omega
    simp [Opnd.code_lt, h, Bool.toNat_le, ITy.code_lt, this]
  case cvt dt st r sat nf a b =>
    have := st.code_lt.trans (show 8 < 16 by decide)
    simp [Opnd.code_lt, h, Bool.toNat_le, cvtSub_fields, Rnd.code_lt, Sat.code_lt, Ty.code_lt, this]
  case waini op flt a b c =>
    simp [Opnd.code_lt, h, Bool.toNat_le, wainiOk_lt h.1.2]
  case fence o sc prom =>
    have : 4 * o.code < 16 := by have := o.code_lt; omega
    simp [h, Bool.toNat_le, scopeXt_fields, this]
  case gbeg sw rg vw tn p c =>
    have : vw + 4 * tn < 16 := by omega
    simp [Bool.toNat_le, lfOff_lt, this]
  case st | pfx | ared =>
    simp [Opnd.code_lt, h, Bool.toNat_le, ordSub_fields, lfOff_lt, Hint.code_lt, MTy.code_lt, ATy.code_lt, AOp.code_lt,
      Scope.code_lt_sixteen]
  case redl t op r sat nf a b | scnl t op _ r sat nf a b =>
    simp [Opnd.code_lt, h, Bool.toNat_le, toNat_lt_add_two, redSub_fields (redOk_op_lt h.1.2), Rnd.code_lt, Sat.code_lt,
      Ty.code_lt]
  all_goals
   simp [Opnd.code_lt, h, Bool.toNat_le, toNat_lt_add_two, ordSub_fields, scopeXt_fields, lfOff_lt, Rnd.code_lt, Sat.code_lt,
    ITy.code_lt, FTy.code_lt, MTy.code_lt, ATy.code_lt, AOp.code_lt, Hint.code_lt, MxFmt.code_lt]

theorem laneCandidate_laneFields {i : Instr} {f : LFields} (h : i.fieldsOk = true) (hf : laneFields i = some f) :
    laneCandidate f = some i := by
  cases i <;> simp only [laneFields, Option.some.injEq, reduceCtorEq] at hf <;> subst hf
  all_goals
    simp only [Instr.fieldsOk, Bool.and_eq_true, decide_eq_true_eq, opsOk, List.all_cons, List.all_nil, Bool.and_true] at h
    simp only [lf, lfI, lfP, lfF, lfW, Hdr.bare, laneCandidate]
  case iadd h _ sat _ _ _ _ | isub h _ sat _ _ _ _ | imul h _ sat _ _ _ _ | imad h _ sat _ _ _ _ _ | iabs h _ sat _ _ _
    | ineg h _ sat _ _ _ =>
    simp [decodeInt, LFields.hdr, LFields.restNone, Opnd.ofCode_code, h, sat.toNat_le]
  case idot4 h bs cs sat nf a b c d =>
    have := bs.toNat_lt
    have := cs.toNat_lt
    have e1 : (bs.toNat + 2 * cs.toNat) / 4 = 0 := by omega
    have e2 : (bs.toNat + 2 * cs.toNat) / 2 % 2 = cs.toNat := by omega
    have e3 : bs.toNat % 2 = bs.toNat := by omega
    simp [decodeInt, LFields.hdr, LFields.restNone, Opnd.ofCode_code, h, sat.toNat_le, e1, e2, e3]
  case cvt h dt st r sat nf a b =>
    simp [decodeMove, LFields.hdr, LFields.restNone, Opnd.ofCode_code, h, cvtSub_fields,
      Nat.mod_eq_of_lt st.code_lt, Nat.div_eq_of_lt st.code_lt]
  case redl t op r sat nf a b | scnl t op _ r sat nf a b =>
    simp [decodeMove, LFields.hdr, LFields.restNone, Opnd.ofCode_code, h, redSub_fields (redOk_op_lt h.1.2)]
  case vote h op a b =>
    simp [decodeMove, LFields.hdr, LFields.bare, LFields.restNone, Opnd.ofCode_code, h, Nat.div_eq_of_lt h.1.2]
  case gbeg sw rg vw tn p c =>
    have e1 : (vw + 4 * tn) / 8 = 0 := by omega
    have e2 : (vw + 4 * tn) / 4 % 2 = tn := by omega
    have e3 : vw % 4 = vw := by omega
    simp [decodeCtl, LFields.bare, LFields.noGuard, h, e1, e2, e3, offPair_lfOff]
  all_goals
    simp [decodeInt, decodeFlt, decodeMove, decodeLaneMem, decodeCtl, LFields.hdr, LFields.bare, LFields.restNone,
      LFields.noGuard, Opnd.ofCode_code, h, offPair_lfOff, ordSub_fields, scopeXt_fields]

theorem Decoded.ofCandidate_wellFormed {i : Instr} (h : i.WellFormed = true) : Decoded.ofCandidate (some i) = .ok i := by
  simp only [Instr.WellFormed, Bool.and_eq_true] at h
  simp only [Decoded.ofCandidate, h, if_true]

/-- Settles O5: the fields of each word are read back as they were laid out, and name the instruction again. -/
theorem decodeOfEncodeIsTheInstruction : Obligations.DecodeOfEncodeIsTheInstruction := by
  unfold Obligations.DecodeOfEncodeIsTheInstruction
  intro i hwf hunit
  have hf : i.fieldsOk = true := (Bool.and_eq_true_iff.mp hwf).1
  rw [← Decoded.ofCandidate_wellFormed hwf]
  cases hl : laneFields i with
  | some f => exact decodeWords_lane hl (laneFields_fits hf hl) (laneCandidate_laneFields hf hl)
  | none =>
    have hs : encodeScalar i ≠ [] := fun he => hunit (by simp only [Instr.stream, hl, he, List.isEmpty_nil, if_true])
    simp only [encode, hl]
    exact decodeWords_encodeScalar hf hs

end Sys2Proof
end

section
/-! PROOFS. The state of a new group and the hard-wired predicates (R21, R56, R122). -/
namespace Sys2Proof.Machine

/-- Reading a table that lists a function's values at the numbers below n. -/
theorem tget_map_range {α : Type} (d : α) (f : Nat → α) {n i : Nat} (h : i < n) :
    tget d ((List.range n).map fun l => (l, f l)) i = f i := by
  have key : ∀ (ls : List Nat), i ∈ ls → tget d (ls.map fun l => (l, f l)) i = f i := by
    intro ls
    induction ls with
    | nil => simp
    | cons a r ih =>
      intro hi
      simp only [List.map_cons, tget]
      split
      · rename_i ha
        rw [ha]
      · rename_i ha
        exact ih ((List.mem_cons.mp hi).resolve_left fun e => ha e.symm)
  exact key _ (List.mem_range.mpr h)

/-- The lanes below n, as a mask. -/
theorem getLsbD_lowLanes {n : Nat} (h : n ≤ 32) (l : Nat) : (lowLanes n).getLsbD l = decide (l < n) := by
  simp only [lowLanes, BitVec.getLsbD_ofNat, Nat.testBit_two_pow_sub_one, Bool.and_eq_decide, decide_eq_true_eq,
    decide_eq_decide]
  omega

/-- One bit of a mask written. -/
theorem getLsbD_write_bit {w : Nat} (x : BitVec w) {n : Nat} (hn : n < w) (b : Bool) (k : Nat) :
    ((x &&& ~~~(1#w <<< n)) ||| (if b then 1#w <<< n else 0)).getLsbD k = if k = n then b else x.getLsbD k := by
  have h1 : (1#w <<< n).getLsbD k = decide (k = n) := by
    simp only [BitVec.getLsbD_shiftLeft, BitVec.getLsbD_one, Bool.and_eq_decide, Bool.not_eq_true', decide_eq_true_eq,
      decide_eq_decide, decide_eq_false_iff_not]
    omega
  have h0 : (0 : BitVec w).getLsbD k = false := BitVec.getLsbD_zero
  by_cases hk : k = n
  · subst hk
    cases b <;> simp [h1]
  · by_cases hw : k < w
    · cases b <;> simp only [BitVec.getLsbD_or, BitVec.getLsbD_and, BitVec.getLsbD_not, h1, hk, hw, if_true, if_false,
        Bool.false_eq_true, h0, decide_true, decide_false, Bool.not_false, Bool.and_true, Bool.or_false]
    · cases b <;> simp [h1, hk, BitVec.getLsbD_of_ge x k (by omega)]

/-- Settles O9: a new group's tables are empty, and a predicate's bit is written in its own place. -/
theorem newGroupsAndHardwiredPredicates : Obligations.NewGroupsAndHardwiredPredicates := by
  unfold Obligations.NewGroupsAndHardwiredPredicates
  refine ⟨fun m p hm => ⟨fun _ _ => rfl, fun _ => rfl, fun _ _ _ => rfl, fun n hn => ?_, fun _ => rfl, rfl, rfl, rfl, rfl,
    fun l => ⟨getLsbD_lowLanes hm l, getLsbD_lowLanes hm l⟩, fun l hl => tget_map_range _ _ hl⟩,
    fun g l b => ⟨rfl, rfl, rfl, rfl, fun n hn k hk => ?_, fun n hn k hk j hj hl => ?_⟩⟩
  · exact ⟨if_pos hn, (if_pos hn).trans (BitVec.getLsbD_zero)⟩
  · by_cases hk7 : k < 7
    · simp only [Group.getQ, Group.setQ, if_pos hn, if_pos hk7, getLsbD_write_bit _ hn]
    · have hne : k ≠ n := by omega
      simp only [Group.getQ, Group.setQ, if_pos hn, if_neg hk7, if_neg hne]
  · by_cases hk7 : k < 7
    · simp only [Group.getP, Group.setP, if_pos hn, if_pos hk7, tget_tset]
      by_cases hkn : n = k
      · subst hkn
        simp only [if_true, getLsbD_write_bit _ hl, true_and]
      · have hne : ¬ k = n := fun e => hkn e.symm
        simp only [if_neg hkn, hne, false_and, if_false]
    · have hne : ¬ k = n := by omega
      simp only [Group.getP, Group.setP, if_pos hn, if_neg hk7, hne, false_and, if_false]

end Sys2Proof.Machine
end

section
/-! SUPPORT. What the shared operations of streams leave unchanged: lookups of translations, traps, and the retirement of a
group. -/
namespace Sys2Proof.Machine

/-! ## Lookups: translations, checks and fetches -/

/-- From one state to the next nothing happens but lookups: TLB entries come and go, and free values are drawn. -/
def State.looksUp (s t : State) : Prop := t = { s with mem := { s.mem with tlb := t.mem.tlb }, draws := t.draws }

namespace State.looksUp
variable {s t u : State}

theorem refl (s : State) : s.looksUp s := rfl
theorem drawn (s : State) : s.looksUp s.drawn := rfl
theorem trans (h : s.looksUp t) (k : t.looksUp u) : s.looksUp u := by
  unfold State.looksUp at *
  rw [k, h]
theorem thenDrawn (h : s.looksUp t) : s.looksUp t.drawn := h.trans (drawn t)
theorem groups (h : s.looksUp t) : t.groups = s.groups := (congrArg State.groups h :)
theorem units (h : s.looksUp t) : t.units = s.units := (congrArg State.units h :)
theorem plat (h : s.looksUp t) : t.plat = s.plat := (congrArg State.plat h :)
theorem ns (h : s.looksUp t) : t.ns = s.ns := (congrArg State.ns h :)
theorem turn (h : s.looksUp t) : t.turn = s.turn := (congrArg State.turn h :)
theorem nextId (h : s.looksUp t) : t.nextId = s.nextId := (congrArg State.nextId h :)
theorem mem (h : s.looksUp t) : t.mem = { s.mem with tlb := t.mem.tlb } := (congrArg State.mem h :)
theorem hbm (h : s.looksUp t) : t.mem.hbm = s.mem.hbm := (congrArg MemSys.hbm h.mem :)
theorem host (h : s.looksUp t) : t.mem.host = s.mem.host := (congrArg MemSys.host h.mem :)
theorem peer (h : s.looksUp t) : t.mem.peer = s.mem.peer := (congrArg MemSys.peer h.mem :)
theorem sram (h : s.looksUp t) : t.mem.sram = s.mem.sram := (congrArg MemSys.sram h.mem :)
theorem flight (h : s.looksUp t) : t.mem.flight = s.mem.flight := (congrArg MemSys.flight h.mem :)

end State.looksUp

theorem State.addTlb_looksUp (s : State) (e : TlbEnt) (n : Nat) : s.looksUp (s.addTlb e n) := by
  unfold State.addTlb
  dsimp only
  split
  · rfl
  · split <;> rfl

theorem State.translate_looksUp (s : State) (core x part va : Nat) : s.looksUp (s.translate core x part va).1 := by
  unfold State.translate
  split
  · exact .refl s
  · split
    · exact s.addTlb_looksUp ..
    · split
      · exact (s.addTlb_looksUp ..).trans (State.addTlb_looksUp ..)
      · exact .refl s

theorem State.fetch4_looksUp (s : State) (a : Agent) (va : Nat) : s.looksUp (s.fetch4 a va).1 := by
  unfold State.fetch4
  split
  · exact .refl s
  · have h := s.translate_looksUp a.core a.ctx a.part (va % 2 ^ 57)
    generalize s.translate a.core a.ctx a.part (va % 2 ^ 57) = r at h
    obtain ⟨t, w⟩ := r
    have hd : ∀ c : Prop, [Decidable c] → s.looksUp (if c then t.drawn else t) := by
      intro c _
      split
      · exact h.thenDrawn
      · exact h
    cases w with
    | fault c => exact h
    | leaf pte n =>
      dsimp only
      split
      · exact h
      · split
        · exact hd _
        · split
          · split <;> exact hd _
          · exact hd _

theorem State.placeAt_looksUp (s : State) (a : Agent) (w : Want) (va n : Nat) : s.looksUp (s.placeAt a w va n).1 := by
  unfold State.placeAt
  have h := s.translate_looksUp a.core a.ctx a.part (va % 2 ^ 57)
  generalize s.translate a.core a.ctx a.part (va % 2 ^ 57) = r at h
  obtain ⟨t, w'⟩ := r
  cases w' with
  | fault c => exact h
  | leaf pte k =>
    have hd : s.looksUp (if bits pte 4 3 = 2 then t.drawn else t) := by
      split
      · exact h.thenDrawn
      · exact h
    dsimp only
    split
    · exact hd
    · split
      · exact hd
      · split <;> exact hd

theorem State.place_looksUp (s : State) (a : Agent) (w : Want) (va n : Nat) : s.looksUp (s.place a w va n).1 := by
  unfold State.place
  split
  · exact .refl s
  · split
    · exact .refl s
    · exact s.placeAt_looksUp ..

theorem State.check_looksUp (s : State) (a : Agent) (w : Want) (va n : Nat) : s.looksUp (s.check a w va n).1 := by
  unfold State.check
  have h := s.place_looksUp a w va n
  generalize s.place a w va n = r at h
  obtain ⟨t, c⟩ := r
  cases c <;> exact h

theorem State.useRegs_looksUp (s : State) (x : Nat) : s.looksUp (s.useRegs x).1 := by
  rcases s.useRegs_eq x with h | h <;> rw [h]
  · exact .refl s
  · exact .drawn s

/-! ## Retirement -/

/-- The end of a group's handles writes to scratch alone. -/
theorem State.waUnbind_frame (s : State) (g : Group) (t : Team) (h : Nat) :
    (s.waUnbind g t h).1 = { s with mem := { s.mem with sram := (s.waUnbind g t h).1.mem.sram } } := by
  unfold State.waUnbind
  split
  · rfl
  · dsimp only
    split
    · unfold State.setTeamWord State.teamScratch
      split
      · rename_i l hl
        split at hl
        · cases hp : s.scratchByte g.place.part t.core (t.tb + _) with
          | none =>
            rw [hp] at hl
            cases hl
          | some b =>
            rw [hp] at hl
            cases hl
            rfl
        · cases hl
      · rfl
    · rfl

theorem State.unbindAll_frame (s : State) (g : Group) :
    s.unbindAll g = { s with mem := { s.mem with sram := (s.unbindAll g).mem.sram } } := by
  unfold State.unbindAll
  split
  · rfl
  · rename_i t _
    have key : ∀ (l : List Nat) (e : State × Group), (l.foldl (fun (e : State × Group) h => e.1.waUnbind e.2 t h) e).1 =
        { e.1 with mem := { e.1.mem with
            sram := (l.foldl (fun (e : State × Group) h => e.1.waUnbind e.2 t h) e).1.mem.sram } } := by
      intro l
      induction l with
      | nil => exact fun _ => rfl
      | cons h r ih =>
        intro e
        rw [List.foldl_cons, ih, e.1.waUnbind_frame e.2 t h]
    exact key _ (s, g)

theorem State.leaveSet_frame (s : State) (g : Group) :
    s.leaveSet g = { s with units := { s.units with bundles := (s.leaveSet g).units.bundles } } := by
  unfold State.leaveSet
  split <;> rfl

theorem State.launchDone_frame (s : State) (id : Nat) : s.launchDone id = { s with
    units := { s.units with launches := (s.launchDone id).units.launches }
    mem := { s.mem with code := (s.launchDone id).mem.code }
    plat := { s.plat with ctxs := (s.launchDone id).plat.ctxs } } := by
  unfold State.launchDone
  split
  · rfl
  · split <;> rfl

theorem State.launchDone_err (s : State) (id x : Nat) : ((s.launchDone id).ctx x).err = (s.ctx x).err := by
  unfold State.launchDone State.raiseMask
  split
  · rfl
  · split
    · rw [State.ctx_modCtx]
      split
      · rename_i h
        subst h
        rfl
      · rfl
    · rfl

theorem State.settleRegs_frame (s : State) (x : Nat) :
    s.settleRegs x = { s with plat := { s.plat with ctxs := (s.settleRegs x).plat.ctxs } } := by
  unfold State.settleRegs
  split <;> rfl

theorem State.settleRegs_err (s : State) (x y : Nat) : ((s.settleRegs x).ctx y).err = (s.ctx y).err := by
  unfold State.settleRegs
  split
  · rfl
  · rw [State.ctx_modCtx]
    split
    · rename_i h
      subst h
      rfl
    · rfl

/-! ## The retirement of a group and its end by a trap -/

theorem State.retire_frame (s : State) (g : Group) : s.retire g = { s with
    groups := s.groups.filter fun h => h.gid != g.gid
    units := (s.retire g).units
    mem := { s.mem.orphan g.gid with sram := (s.retire g).mem.sram, code := (s.retire g).mem.code }
    plat := { s.plat with parts := (s.retire g).plat.parts, ctxs := (s.retire g).plat.ctxs } } := by
  unfold State.retire
  dsimp only
  generalize hs : (((s.unbindAll g).leaveSet g).withdraw g) = s1
  have h1 : s1 = { s with
      mem := { s.mem with sram := s1.mem.sram }, units := s1.units, plat := { s.plat with parts := s1.plat.parts } } := by
    rw [← hs]
    unfold State.withdraw State.withdrawIf
    rw [State.leaveSet_frame, s.unbindAll_frame]
    rfl
  rw [State.settleRegs_frame, State.launchDone_frame, h1]
  rfl

theorem State.retire_err (s : State) (g : Group) (x : Nat) : ((s.retire g).ctx x).err = (s.ctx x).err := by
  unfold State.retire
  dsimp only
  rw [State.settleRegs_err, State.launchDone_err]
  show (((s.unbindAll g).leaveSet g).ctx x).err = _
  rw [State.leaveSet_frame, s.unbindAll_frame]
  rfl

theorem State.recordErr_groups (s : State) (x kind cause subc gid : Nat) :
    (s.recordErr x kind cause subc gid).groups = s.groups := by
  unfold State.recordErr
  split <;> rfl

/-- What the context's error report holds after an error (R365). -/
theorem State.recordErr_err (s : State) (x kind cause subc gid : Nat) : ((s.recordErr x kind cause subc gid).ctx x).err =
    if (s.ctx x).err.valid then { (s.ctx x).err with lost := min 255 ((s.ctx x).err.lost + 1) }
    else { valid := true, kind := kind, cause := cause, subc := subc, lost := 0, group := gid } := by
  unfold State.recordErr
  split
  · rw [State.ctx_modCtx, if_pos rfl]
  · unfold State.modPlat State.ctx
    exact congrArg Ctx.err (tget_tset_same ..)

theorem State.terminate_groups (s : State) (g : Group) (kind cause subc : Nat) :
    (s.terminate g kind cause subc).groups = s.groups.filter fun h => h.gid != g.gid := by
  rw [State.terminate, State.retire_frame, State.recordErr_groups]

theorem State.terminate_err (s : State) (g : Group) (kind cause subc : Nat) :
    ((s.terminate g kind cause subc).ctx g.place.ctx).err =
      ((s.recordErr g.place.ctx kind cause subc g.gid).ctx g.place.ctx).err :=
  State.retire_err ..

/-- A trap with no handler to enter ends the group, once the handler's place has been looked up (R46, R141). -/
theorem takeTrap_unready {s : State} {g : Group} (t : TrapReq) (h : s.handlerReady g = none) :
    ∃ s' : State, s.looksUp s' ∧ s.takeTrap g t = s'.terminate g (if g.inHandler then 1 else 2) t.cause t.subc := by
  unfold State.handlerReady at h
  unfold State.takeTrap
  by_cases hg : g.inHandler = true
  · exact ⟨s, .refl s, by rw [if_pos hg, if_pos hg]⟩
  · rw [if_neg hg] at h
    simp only [if_neg hg]
    have hu := s.useRegs_looksUp g.place.ctx
    generalize s.useRegs g.place.ctx = u at *
    obtain ⟨s1, r⟩ := u
    dsimp only at h hu ⊢
    by_cases hv : (!r.valid) = true
    · exact ⟨s1, hu, by rw [if_pos hv]⟩
    · rw [if_neg hv] at h
      rw [if_neg hv]
      have hf := hu.trans (s1.fetch4_looksUp { g.agent with handler := true } r.hbase)
      generalize s1.fetch4 { g.agent with handler := true } r.hbase = f at *
      obtain ⟨s2, w⟩ := f
      cases w with
      | word => cases h
      | fault => exact ⟨s2, hf, rfl⟩

end Sys2Proof.Machine
end

section
/-! PROOFS. Traps enter the handler or end the group (R45, R46, R141, R365). -/
namespace Sys2Proof.Machine

/-- Settles O10: a trap that finds a handler enters it, and any other ends the group after lookups alone. -/
theorem trapsEnterTheHandlerOrEndTheGroup : Obligations.TrapsEnterTheHandlerOrEndTheGroup := by
  unfold Obligations.TrapsEnterTheHandlerOrEndTheGroup
  refine ⟨fun s s' g t h => ⟨takeTrap_ready t h, rfl, rfl, rfl, rfl, rfl, rfl, rfl, rfl, rfl, rfl, rfl, rfl, rfl,
    ⟨_, rfl, rfl, rfl, rfl, rfl, rfl⟩, fun cause subc => scalarTrap_ready cause subc h⟩, fun s g t h => ?_⟩
  obtain ⟨s', hs, ht⟩ := takeTrap_unready t h
  refine ⟨s', ht, hs.groups, hs.plat, ?_, ?_⟩
  · rw [ht, State.terminate_groups, hs.groups]
  · rw [ht, State.terminate_err, State.recordErr_err]
    have hctx : s'.ctx g.place.ctx = s.ctx g.place.ctx := by unfold State.ctx; rw [hs.plat]
    rw [hctx]

end Sys2Proof.Machine
end

section
/-! SUPPORT. Counts and fields of a word's bits, and pairs of registers (R49, R116, R118). -/
namespace Sys2Proof.Machine

/-- A register that a group which goes on may name is allocated (R20). -/
theorem scalarReady_lt {s : State} {regs : List Nat} {g : Group} {r : Nat} (h : s.scalarReady regs = some g)
    (hr : r ∈ regs) : r < g.info.sregs := by
  unfold State.scalarReady at h
  split at h
  · cases h
  · simp only [Option.ite_none_right_eq_some, Option.some.injEq] at h
    obtain ⟨ha, rfl⟩ := h
    have := List.all_eq_true.mp ha r hr
    rw [Bool.and_eq_true, decide_eq_true_eq] at this
    exact this.1

/-- The number of 1 bits is the number of places that hold one. -/
theorem popBits_eq_length (w b : Nat) : popBits w b = ((List.range w).filter fun i => b.testBit i).length := by
  induction w generalizing b with
  | zero => rfl
  | succ w ih =>
    rw [popBits, ih, List.range_succ_eq_map, List.filter_cons, List.filter_map, apply_ite List.length, List.length_cons,
      List.length_map]
    have hf : ((List.range w).filter ((fun i => b.testBit i) ∘ Nat.succ)) =
        (List.range w).filter fun i => (b / 2).testBit i := by
      congr 1
      funext i
      exact Nat.testBit_succ ..
    rw [hf]
    by_cases h : b.testBit 0 = true
    · rw [if_pos h]
      rw [Nat.testBit_zero, decide_eq_true_eq] at h
      omega
    · rw [if_neg h]
      rw [Nat.testBit_zero, decide_eq_true_eq] at h
      omega

/-- The bits above the leading 1, which is at the place that the count leaves, are 0. -/
theorem clzBits_spec (a : Word) : clzBits 32 a.toNat ≤ 32 ∧ (∀ i < clzBits 32 a.toNat, a.getLsbD (31 - i) = false) ∧
    (clzBits 32 a.toNat < 32 → a.getLsbD (31 - clzBits 32 a.toNat) = true) := by
  unfold clzBits
  rw [Nat.mod_eq_of_lt a.isLt]
  split
  case isTrue h => simp [BitVec.getLsbD, h]
  case isFalse h =>
    have hl : Nat.log2 a.toNat < 32 := (Nat.log2_lt h).mpr a.isLt
    refine ⟨by omega, fun i hi => Nat.testBit_lt_two_pow ?_, fun _ => ?_⟩
    · exact Nat.lt_of_lt_of_le Nat.lt_log2_self (Nat.pow_le_pow_right (by decide) (by omega))
    · rw [show 31 - (32 - 1 - Nat.log2 a.toNat) = Nat.log2 a.toNat by omega]
      exact Nat.testBit_log2 h

/-- A field of a word is its bits, shifted down and masked. -/
theorem toNat_field (a : Word) (pos len : Nat) (hl : len ≤ 32) :
    ((a >>> pos) &&& BitVec.ofNat 32 (2 ^ len - 1)).toNat = a.toNat / 2 ^ pos % 2 ^ len := by
  have hp : 2 ^ len ≤ 2 ^ 32 := Nat.pow_le_pow_right (by decide) hl
  rw [BitVec.toNat_and, BitVec.toNat_ushiftRight, BitVec.toNat_ofNat, Nat.shiftRight_eq_div_pow,
    Nat.mod_eq_of_lt (by omega), Nat.and_two_pow_sub_one_eq_mod]

/-- SBFX's field, as an operation on the word (R118). -/
theorem ofNat_bitField (a : Word) (sx : Bool) (pos len : Nat) (hl : len ≤ 32) {f : Word}
    (hf : f = (a >>> pos) &&& BitVec.ofNat 32 (2 ^ len - 1)) : BitVec.ofNat 32 (bitField a.toNat sx pos len) =
      if sx && f.getLsbD (len - 1) then f - BitVec.ofNat 32 (2 ^ len) else f := by
  have hn : f.toNat = a.toNat / 2 ^ pos % 2 ^ len := hf ▸ toNat_field a pos len hl
  unfold bitField
  rw [← hn]
  dsimp only
  rw [bit_eq_testBit]
  change BitVec.ofNat 32 (if (sx && f.getLsbD (len - 1)) = true then _ else _) = _
  split
  · apply BitVec.eq_of_toNat_eq
    rw [wrapTo, BitVec.toNat_ofNat, BitVec.toNat_sub, BitVec.toNat_ofNat]
    have := f.isLt
    omega
  · rw [BitVec.ofNat_toNat, BitVec.setWidth_eq]

/-- A pair of registers that is written holds the sign extension of a word: the word and its sign (R49, R120). -/
theorem Group.setS64_signExtend (g : Group) (d w : Nat) : g.setS64 d ((BitVec.ofNat 32 w).signExtend 64) =
    (g.setS d (BitVec.ofNat 32 w)).setS (d + 1) (if w.testBit 31 then BitVec.allOnes 32 else 0) := by
  have hlow : ((BitVec.ofNat 32 w).signExtend 64).setWidth 32 = BitVec.ofNat 32 w := by
    ext i hi
    rw [BitVec.getElem_setWidth, BitVec.getLsbD_signExtend, if_pos hi, BitVec.getLsbD_eq_getElem hi]
    simp only [show i < 64 by omega, decide_true, Bool.true_and]
  have hhigh : ((BitVec.ofNat 32 w).signExtend 64 >>> 32).setWidth 32 =
      if w.testBit 31 then BitVec.allOnes 32 else 0 := by
    ext i hi
    rw [BitVec.getElem_setWidth, BitVec.getLsbD_ushiftRight, BitVec.getLsbD_signExtend, if_neg (by omega),
      BitVec.msb_eq_getLsbD_last, BitVec.getLsbD_ofNat]
    cases w.testBit 31 with
    | true => simp only [if_true, BitVec.getElem_allOnes]; simp [show 32 + i < 64 by omega]
    | false => simp
  rw [Group.setS64, hlow, hhigh]

end Sys2Proof.Machine
end

section
/-! PROOFS. Scalar pairs, counts, immediates, fields and selects (R116 to R121). -/
namespace Sys2Proof.Machine

/-- Settles O16: each form is one change of the group, and the immediates and counts are those of the manual. -/
theorem scalarPairsAndImmediates : Obligations.ScalarPairsAndImmediates := by
  unfold Obligations.ScalarPairsAndImmediates
  refine ⟨fun s g d x n h => ⟨scalarOp_ready _ h, scalarOp_ready _ h, scalarOp_ready _ h, scalarOp_ready _ h, ?_, ?_⟩,
    fun s g d x y h => ⟨scalarOp_ready _ h, scalarOp_ready _ h⟩, fun s g x i h hi => ⟨?_, ?_, ?_, ?_, ?_⟩⟩
  · refine (scalarOp_ready _ h).trans ?_
    rw [popBits_eq_length]
    rfl
  · obtain ⟨hle, hz, hone⟩ := clzBits_spec (g.getS x)
    exact ⟨_, hle, scalarOp_ready _ h, hz, hone⟩
  · exact (ofInt_toSigned 16 i (by decide)) ▸ scalarOp_ready _ h
  · exact (ofInt_toSigned 16 i (by decide)) ▸ scalarOp_ready _ h
  · have hw : ((BitVec.ofNat 16 i).setWidth 32 : Word) <<< 16 = BitVec.ofNat 32 (i * 65536) := by bv_omega
    exact hw ▸ scalarOp_ready _ h
  · have hw : ((BitVec.ofNat 16 i).setWidth 32 : Word) = BitVec.ofNat 32 i := by bv_omega
    exact hw ▸ scalarOp_ready _ h
  · have hw : ((BitVec.ofNat 16 i).setWidth 32 : Word) = BitVec.ofNat 32 i := by bv_omega
    exact hw ▸ scalarOp_ready _ h

/-- Settles O17: each form is one change of the group; an indexed move has found its index among the allocated registers. -/
theorem scalarFieldsSelectAndIndexedMoves : Obligations.ScalarFieldsSelectAndIndexedMoves := by
  unfold Obligations.ScalarFieldsSelectAndIndexedMoves
  refine ⟨fun s g d x pos len sx h h1 h2 => ?_, fun s g d x y c w => ⟨fun h => ?_, fun h => ?_⟩,
    fun s g d w => ⟨fun h => scalarOp_ready _ h, fun h => ?_⟩, fun s g d x off i h => ⟨fun hi => ?_, fun hi => ?_⟩⟩
  · refine (scalarOp_ready _ h).trans ?_
    rw [ofNat_bitField (g.getS x) sx pos len (by omega) rfl]
  · exact (bit_eq_testBit c 3) ▸ scalarOp_ready _ h
  · exact (bit_eq_testBit c 3) ▸ scalarOp_ready _ h
  · exact (Group.setS64_signExtend g d w) ▸ scalarOp_ready _ h
  · subst hi
    refine (scalarInstr_ready _ (scalarReady_mono h (by simp))).trans ?_
    dsimp only
    rw [if_neg (Nat.not_le.mpr (scalarReady_lt h (by simp))), scalarOp_ready _ (scalarReady_mono h (by simp))]
  · subst hi
    refine (scalarInstr_ready _ (scalarReady_mono h (by simp))).trans ?_
    dsimp only
    rw [if_neg (Nat.not_le.mpr (scalarReady_lt h (by simp))), scalarOp_ready _ (scalarReady_mono h (by simp))]

end Sys2Proof.Machine
end

section
/-! PROOFS. The trap instructions, and the uses of scalar instructions that trap (R98, R134, R137, R140, R198). -/
namespace Sys2Proof.Machine

/-- A gang that nothing keeps waiting takes a trap that its instruction asks for, as the request says. -/
theorem trapAt_taken {c : Lane} {s' : State} (cause subc swc lpc : Nat) (hl : c.trapWaits c.s.nextId = false)
    (h : c.s.handlerReady (c.g.landOf c.gang) = some s') : c.trapAt cause subc swc lpc 0 0 =
      .next (s'.setGroup ((c.g.landOf c.gang).enterHandler { c.laneReq cause subc with swc := swc, lpc := lpc })) := by
  unfold Lane.trapAt Lane.taken?
  rw [hl, takeTrap_ready _ h]
  rfl

/-- LTRAP (R198). -/
theorem exec_ltrap {s : State} {h : Hdr} {c : Lane} (hc : s.laneReady h.rg h.sw (some h) [] [] = some c) (code : Nat) :
    exec (.ltrap h code) s = if c.act = 0 then .next (c.done []) else c.trapAt 0x11 0 code (c.pc + 1) 0 0 := by
  change execLtrap h code s = _
  exact laneInstr_ready _ hc

/-- LBKPT (R198). -/
theorem exec_lbkpt {s : State} {h : Hdr} {c : Lane} (hc : s.laneReady h.rg h.sw (some h) [] [] = some c) :
    exec (.lbkpt h) s = if c.act = 0 then .next (c.done []) else c.trapAt 0x12 0 0 (c.pc + 1) 0 0 := by
  change execLbkpt h s = _
  exact laneInstr_ready _ hc

/-- Settles O11: each instruction is its stream's frame around the one trap that it takes. -/
theorem softwareTrapsEnterTheHandler : Obligations.SoftwareTrapsEnterTheHandler := by
  unfold Obligations.SoftwareTrapsEnterTheHandler
  refine ⟨fun s s' g imm hg h => ⟨?_, ?_⟩, fun s s' h c code hc => ⟨fun ha => ⟨?_, ?_⟩,
    fun ha hl hh => ⟨?_, ?_⟩,
    fun ha hl => ⟨?_, ?_⟩⟩⟩
  · exact (scalarInstr_ready _ hg).trans (congrArg _ (takeTrap_ready _ h))
  · exact (scalarInstr_ready _ hg).trans (congrArg _ (takeTrap_ready _ h))
  · exact (exec_ltrap hc code).trans (if_pos ha)
  · exact (exec_lbkpt hc).trans (if_pos ha)
  · exact (exec_ltrap hc code).trans ((if_neg ha).trans (trapAt_taken _ _ _ _ hl hh))
  · exact (exec_lbkpt hc).trans ((if_neg ha).trans (trapAt_taken _ _ _ _ hl hh))
  · exact (exec_ltrap hc code).trans ((if_neg ha).trans (trapAt_waits _ _ _ _ _ _ hl))
  · exact (exec_lbkpt hc).trans ((if_neg ha).trans (trapAt_waits _ _ _ _ _ _ hl))

/-- Without registers to check, the frame of a scalar instruction is its meaning alone. -/
theorem scalarInstr_turn {s : State} {g : Group} (k : Group → Out) (h : s.scalarTurn? = some g) :
    scalarInstr s [] k = k g := by
  unfold scalarInstr
  rw [h]
  rfl

/-- A special register that the group may not write traps, whatever the operand (R98, R137). -/
theorem exec_swrs_barred {s : State} {g : Group} {r : Nat} (b : Nat) (h : s.scalarTurn? = some g)
    (hr : g.mayWriteSp r = false) : exec (.swrs r b) s = .next (s.scalarTrap g 0x01 0) :=
  (scalarInstr_turn _ h).trans (if_pos (by rw [hr]; rfl))

/-- A special register that the group may not read traps, whatever the destination (R98, R137). -/
theorem exec_srds_barred {s : State} {g : Group} {r : Nat} (d : Nat) (h : s.scalarTurn? = some g)
    (hr : s.srdsValue g r = none) : exec (.srds d r) s = .next (s.scalarTrap g 0x01 0) := by
  refine (scalarInstr_turn _ h).trans ?_
  dsimp only
  rw [hr]

/-- Settles O13: outside a handler the privileged frame traps, LGO in one does, and the table's traps have no value to read or
may not be written. -/
theorem illegalUsesTrap : Obligations.IllegalUsesTrap := by
  unfold Obligations.IllegalUsesTrap
  intro s g h
  refine ⟨fun ht => ⟨fun a n start => privileged_outside _ h ht, privileged_outside _ h ht, fun d r hr => ?_,
      fun b r hr => ?_⟩,
    fun ht a n start => ?_, fun d r hr => ?_, fun b r hr hn => ?_⟩
  · refine exec_srds_barred d h ?_
    simp only [List.mem_cons, List.not_mem_nil, or_false] at hr
    rcases hr with rfl | rfl | rfl | rfl | rfl <;> simp only [State.srdsValue, ht, Option.map_none]
  · refine exec_swrs_barred b h ?_
    simp only [List.mem_cons, List.not_mem_nil, or_false] at hr
    rcases hr with rfl | rfl | rfl <;> simp only [Group.mayWriteSp, Group.inHandler, ht] <;> rfl
  · change execLgo a n start s = _
    unfold execLgo
    simp only [h]
    exact if_pos (Option.isSome_iff_ne_none.mpr ht)
  · refine exec_srds_barred d h ?_
    simp only [List.mem_cons, List.not_mem_nil, or_false] at hr
    rcases hr with rfl | rfl | rfl | rfl | rfl | rfl | rfl <;> rfl
  · refine exec_swrs_barred b h ?_
    simp only [List.mem_cons, List.not_mem_nil, or_false, not_or] at hn
    simp only [Group.mayWriteSp, Bool.or_eq_false_iff, Bool.and_eq_false_iff, beq_eq_false_iff_ne]
    tauto

end Sys2Proof.Machine
end

section
/-! SUPPORT. What the scalar instructions that compute on registers alone write (R33, R115 to R123, R144). -/
namespace Sys2Proof.Machine

theorem keepQueued_noOld (n : Nat) (old : Word) (q : List QBlock) :
    (keepQueued n old q).map (·.noOld) = q.map (·.noOld) := by
  unfold keepQueued
  rw [List.map_map]
  rfl

/-- Keeping an old value changes the records of overwritten values alone (R33). -/
theorem Group.keepOld_noOld (g : Group) (n : Nat) (old : Word) :
    (g.keepOld n old).dq.map (·.noOld) = g.dq.map (·.noOld) ∧
      (g.keepOld n old).trap.map (·.noOld) = g.trap.map (·.noOld) := by
  refine ⟨keepQueued_noOld .., ?_⟩
  cases ht : g.trap with
  | none => simp only [Group.keepOld, ht, Option.map_none]
  | some t =>
    simp only [Group.keepOld, ht, Option.map_some, Trap.noOld, Option.some.injEq]
    rw [show (keepQueued n old t.dq).map QBlock.noOld = t.dq.map QBlock.noOld from keepQueued_noOld ..]

/-- A group becomes another by writes of some scalar registers, or of predicates where it writes none; the values that lane
blocks may still read are kept (R33). -/
structure Group.Computes (w : List Nat) (g h : Group) : Prop where
  frame : h = { g with
    regs := { g.regs with s := h.regs.s, q := h.regs.q }
    oldS := h.oldS
    dq := h.dq
    trap := h.trap }
  dq : h.dq.map (·.noOld) = g.dq.map (·.noOld)
  trap : h.trap.map (·.noOld) = g.trap.map (·.noOld)
  getS : ∀ r, r ∉ w → h.getS r = g.getS r
  q : w ≠ [] → h.regs.q = g.regs.q

namespace Group.Computes
variable {w : List Nat} {g h : Group}

theorem refl (g : Group) : Group.Computes [] g g := ⟨rfl, rfl, rfl, fun _ _ => rfl, fun _ => rfl⟩

theorem setQ (g : Group) (n : Nat) (b : Bool) : Group.Computes [] g (g.setQ n b) := by
  unfold Group.setQ
  split
  · exact ⟨rfl, rfl, rfl, fun _ _ => rfl, fun h => absurd rfl h⟩
  · exact refl g

theorem setS (g : Group) (n : Nat) (x : Word) : Group.Computes [n] g (g.setS n x) where
  frame := rfl
  dq := (g.keepOld_noOld ..).1
  trap := (g.keepOld_noOld ..).2
  getS := fun r hr => by
    rw [Group.getS_setS, if_neg fun h => hr (by simp [h])]
  q := fun _ => rfl

theorem trans {v u : List Nat} {k : Group} (h1 : Group.Computes v g h) (h2 : Group.Computes u h k) (hv : v ≠ [])
    (hu : u ≠ []) :
    Group.Computes (v ++ u) g k where
  frame := by rw [h2.frame, h1.frame]
  dq := h2.dq.trans h1.dq
  trap := h2.trap.trans h1.trap
  getS := fun r hr => by
    rw [List.mem_append, not_or] at hr
    rw [h2.getS r hr.2, h1.getS r hr.1]
  q := fun _ => (h2.q hu).trans (h1.q hv)

theorem setS64 (g : Group) (n : Nat) (x : DWord) : Group.Computes [n, n + 1] g (g.setS64 n x) :=
  (setS g n _).trans (setS _ (n + 1) _) (List.cons_ne_nil _ _) (List.cons_ne_nil _ _)

end Group.Computes

/-- A scalar instruction that computes is its frame over the registers that it names, around one change of the group. -/
theorem exec_of_scalarShape {i : Instr} {w n : List Nat} (h : i.scalarShape = some (w, n)) :
    ∃ words f, (∀ s, exec i s = scalarOp s n words f) ∧ ∀ g : Group, g.Computes w (f g) := by
  cases i
  case snop =>
    cases h
    exact ⟨_, _, fun _ => rfl, .refl⟩
  case qlop | scmp | scmpi =>
    cases h
    exact ⟨_, _, fun _ => rfl, fun _ => .setQ ..⟩
  case sadd64 | ssub64 =>
    cases h
    exact ⟨_, _, fun _ => rfl, fun _ => .setS64 ..⟩
  case ssel src =>
    cases src <;> cases h <;> exact ⟨_, _, fun _ => rfl, fun _ => .setS ..⟩
  case sldi pair _ =>
    cases pair with
    | false =>
      cases h
      exact ⟨_, _, fun _ => rfl, fun _ => .setS ..⟩
    | true =>
      cases h
      exact ⟨_, _, fun _ => rfl, fun _ => .setS64 ..⟩
  case sadd | ssub | smul | smulh | smulhn | sand | sor | sxor | sshl | sshr | ssha | smin | smax | sminn | smaxn | saddi |
      smovi | slui | sandi | sori | sshli | sshri | sshai | smov | spopc | sclz | sbfx =>
    cases h
    exact ⟨_, _, fun _ => rfl, fun _ => .setS ..⟩
  all_goals cases h

/-- A register beyond the allocation traps before the instruction reads one (R20, R98). -/
theorem scalarInstr_unallocated {s : State} {g : Group} {regs : List Nat} (k : Group → Out) (h : s.scalarTurn? = some g)
    (hr : ∃ r ∈ regs, g.info.sregs ≤ r) : scalarInstr s regs k = .next (s.scalarTrap g 0x02 0) := by
  unfold scalarInstr
  rw [h]
  exact if_pos (by simpa using hr)

end Sys2Proof.Machine
end

section
/-! PROOFS. The frame of scalar computations (R33). -/
namespace Sys2Proof.Machine

/-- Settles O24: the instruction is one change of the group, which computes and then goes on to its next word. -/
theorem scalarComputationFrame : Obligations.ScalarComputationFrame := by
  unfold Obligations.ScalarComputationFrame
  intro s g i w n hi hg
  obtain ⟨words, f, hexec, hf⟩ := exec_of_scalarShape hi
  obtain ⟨hframe, hdq, htrap, hs, hq⟩ := hf g
  refine ⟨(f g).advance words, (hexec s).trans (scalarOp_ready _ hg), ?_, hdq, htrap, hs, hq, fun l _ => rfl⟩
  rw [Group.advance, Group.goTo, hframe]

end Sys2Proof.Machine
end

section
/-! PROOFS. Registers beyond the allocation (R20, R81, R98, R121). -/
namespace Sys2Proof.Machine

/-- The state that a trap's handler is entered in depends on the group's place and on its own trap alone (R141). -/
theorem handlerReady_congr (s : State) {g h : Group} (hp : h.place = g.place) (ht : h.trap = g.trap) :
    s.handlerReady h = s.handlerReady g := by
  have ha : h.agent = g.agent := by
    simp only [Group.agent, Group.inHandler, hp, ht]
  unfold State.handlerReady Group.inHandler
  rw [hp, ht, ha]

/-- A gang without loads under way has no source that waits for one. -/
theorem srcBusy_of_noLoads {s : State} {g : Group} {b : BitVec 8} (h : s.gangLoads g b = []) (srcs : List (Opnd × Nat)) :
    srcs.any (s.srcBusy g b) = false := by
  rw [List.any_eq_false]
  rintro ⟨o, n⟩ -
  cases o <;> simp [State.srcBusy, State.scoreboard, h]

/-- What a switch marker lands leaves the group's identity, place, allocation, holds and trap alone (R40). -/
theorem switched_eq (sw : Bool) (g : Group) (b : BitVec 8) : (if sw = true then g.landOf b else g) =
    { g with regs := (if sw = true then g.landOf b else g).regs, pend := (if sw = true then g.landOf b else g).pend } := by
  cases sw
  · rfl
  · exact Group.landOf_eq g b

/-- The handler that a gang's trap enters is the same whichever lanes its instruction has used up. -/
theorem handlerReady_landOf_replayUsed (s : State) (g : Group) (b : BitVec 8) :
    s.handlerReady ((g.replayUsed b).landOf b) = s.handlerReady (g.landOf b) := by
  rw [Group.landOf_eq (g.replayUsed b), Group.landOf_eq g]
  exact handlerReady_congr s rfl rfl

/-- A gang that names a register beyond the allocation traps when its loads are in, whatever the instruction (R20, R98). -/
theorem laneFrame_unallocated {s s' : State} {rg sw : Bool} {h : Option Hdr} {dsts srcs : List (Opnd × Nat)} {c : Lane}
    (k : Lane → Out) (hc : s.laneReady rg sw h [] [] = some c) (hw : c.trapWaits c.s.nextId = false)
    (hh : c.s.handlerReady (c.g.landOf c.gang) = some s') (ha : (dsts ++ srcs).all c.g.allocated = false) :
    ∃ r, laneFrame s rg sw h dsts srcs k =
      .next (s'.setGroup (({ c.g with lanes := { c.g.lanes with replay := r } }.landOf c.gang).enterHandler
        (c.laneReq 0x02 0))) := by
  unfold State.laneReady State.laneWork at hc
  unfold laneFrame
  cases ht : s.laneTurn? with
  | none => simp [ht] at hc
  | some e =>
    obtain ⟨g, b⟩ := e
    simp only [ht] at hc ⊢
    generalize (if rg = true then g.regang b else (g, b)) = m at hc ⊢
    rw [Option.filter_some, Option.ite_none_right_eq_some, Option.some.injEq] at hc
    obtain ⟨hm, rfl⟩ := hc
    have hx := switched_eq sw m.1 m.2
    generalize hxd : (if sw = true then m.1.landOf m.2 else m.1) = x at hm hw hh ha hx ⊢
    have hloads : (s.setGroup m.1).gangLoads m.1 m.2 = [] := by
      have := (Bool.or_eq_false_iff.mp hw).1
      rw [Bool.not_eq_false', List.isEmpty_iff, hx] at this
      exact this
    have hheld : m.1.allHeld m.2 = false := by
      unfold Lane.mayGo at hm
      simp only [Bool.and_eq_true, Bool.not_eq_true'] at hm
      obtain ⟨⟨⟨⟨h1, -⟩, -⟩, -⟩, -⟩ := hm
      rw [hx] at h1
      exact h1
    rw [if_neg (by rw [hheld, hloads, srcBusy_of_noLoads hloads]; cases sw <;> decide)]
    rw [if_pos (by rw [show (dsts ++ srcs).all x.allocated = false from ha]; rfl)]
    rw [handlerReady_landOf_replayUsed] at hh
    exact ⟨x.lanes.replay, trapAt_ready 0x02 0 hw hh⟩

/-! ## Every lane instruction is its frame over its shape -/

/-- An outcome is that of a lane instruction with a header, destinations and sources: of its frame, which may name further
operands that are no registers. -/
def State.Framed (s : State) (o : Out) (h : Hdr) (dsts srcs : List (Opnd × Nat)) : Prop :=
  ∃ (k : Lane → Out) (srcs' : List (Opnd × Nat)), o = laneInstr s h dsts srcs' k ∧
    ∀ g : Group, srcs'.all g.allocated = srcs.all g.allocated

section
variable (s : State) (h : Hdr)

theorem laneInstr_framed (dsts srcs : List (Opnd × Nat)) (k : Lane → Out) :
    s.Framed (laneInstr s h dsts srcs k) h dsts srcs := ⟨k, srcs, rfl, fun _ => rfl⟩

theorem intOp_framed (t : ITy) (sat nf : Bool) (a b c d : Opnd) (f : Int → Int → Int → Int) :
    s.Framed (intOp s h t sat nf a b c d f) h [(a, t.regs)] [(b, t.regs), (c, t.regs), (d, t.regs)] :=
  laneInstr_framed ..

theorem bitOp_framed (t : ITy) (a b c : Opnd) (f : Nat → Nat → Nat → Nat) :
    s.Framed (bitOp s h t a b c f) h [(a, t.regs)] [(b, t.regs), (c, t.regs)] := laneInstr_framed ..

theorem fltOp_framed (t : FTy) (r : Rnd) (sat : Sat) (nf : Bool) (a b c d : Opnd)
    (x : Rnd → FVal → FVal → FVal → XVal) :
    s.Framed (fltOp s h t r sat nf a b c d x) h [(a, 1)] [(b, 1), (c, 1), (d, 1)] := laneInstr_framed ..

theorem shiftOp_framed (t : ITy) (a b c : Opnd) (f : Nat → Nat → Nat → Nat) :
    s.Framed (shiftOp s h t a b c f) h [(a, t.regs)] [(b, t.regs), (c, 1)] := laneInstr_framed ..

theorem funOp_framed (t : FTy) (r : Rnd) (sat : Sat) (nf : Bool) (a b : Opnd) (f : FFun) :
    s.Framed (funOp s h t r sat nf a b f) h [(a, 1)] [(b, 1)] := laneInstr_framed ..

theorem reduceOp_framed (t : Ty) (op : Nat) (r : Rnd) (sat : Sat) (nf : Bool) (a b : Opnd) (pre : Nat → Nat → Nat) :
    s.Framed (reduceOp s h t op r sat nf a b pre) h [(a, tyRegs t)] [(b, tyRegs t)] := laneInstr_framed ..

theorem windowOp_framed (dsts srcs : List (Opnd × Nat)) (mk : Lane → WOp) :
    s.Framed (windowOp s h dsts srcs mk) h dsts srcs := laneInstr_framed ..

/-- Operands that are no registers may be left out of the sources. -/
theorem State.Framed.dropNone {s : State} {h : Hdr} {o : Out} {dsts srcs : List (Opnd × Nat)} {n : Nat}
    (hf : s.Framed o h dsts (srcs ++ [(.none, n)])) : s.Framed o h dsts srcs := by
  obtain ⟨k, srcs', ho, ha⟩ := hf
  refine ⟨k, srcs', ho, fun g => (ha g).trans ?_⟩
  rw [List.all_append]
  exact Bool.and_true _

end

/-- A lane instruction is its frame over the operands of its shape (R20). -/
theorem exec_of_laneShape {s : State} {i : Instr} {h : Hdr} {dsts srcs : List (Opnd × Nat)}
    (hs : s.laneShape i = some (h, dsts, srcs)) : s.Framed (exec i s) h dsts srcs := by
  cases i
  case iadd | isub | imul | imulh | imin | imax =>
    cases hs
    unfold exec
    exact (intOp_framed ..).dropNone (srcs := [_, _])
  case iabs | ineg =>
    cases hs
    unfold exec
    exact ((intOp_framed ..).dropNone (srcs := [_, _])).dropNone (srcs := [_])
  case imad =>
    cases hs
    unfold exec
    exact intOp_framed ..
  case and | or | xor =>
    cases hs
    unfold exec
    exact bitOp_framed ..
  case not | popc | clz | brev =>
    cases hs
    unfold exec
    exact (bitOp_framed ..).dropNone (srcs := [_])
  case fadd | fsub | fmul | fmin | fmax =>
    cases hs
    unfold exec
    exact (fltOp_framed ..).dropNone (srcs := [_, _])
  case ffma =>
    cases hs
    unfold exec
    exact fltOp_framed ..
  case shl | shr | sha | rot =>
    cases hs
    unfold exec
    exact shiftOp_framed ..
  case frcp | frsq | fsqrt | fexp2 | flog2 | fsin | fcos | ftanh =>
    cases hs
    unfold exec
    exact funOp_framed ..
  case redl | scnl =>
    cases hs
    unfold exec
    exact reduceOp_framed ..
  case waini | wapsh | waqry | waexp | wawln =>
    cases hs
    unfold exec
    exact windowOp_framed ..
  case lrds w64 _ _ =>
    unfold exec execLrds
    cases w64 <;> cases hs <;> exact laneInstr_framed ..
  all_goals cases hs
  all_goals
    unfold exec
    exact laneInstr_framed ..

/-- Settles O14: the frames of both streams check the registers before anything else that the statement leaves open. -/
theorem unallocatedRegistersTrap : Obligations.UnallocatedRegistersTrap := by
  unfold Obligations.UnallocatedRegistersTrap
  refine ⟨fun s g i w n hg hi hr => ?_, fun s g d a off hg => ⟨fun hi => ?_, fun hi => ?_⟩,
    fun s s' i h c dsts srcs hs hc hw hh ha => ?_⟩
  · obtain ⟨words, f, hexec, -⟩ := exec_of_scalarShape hi
    exact (hexec s).trans (scalarInstr_unallocated _ hg hr)
  · exact (scalarInstr_ready _ hg).trans (if_pos hi)
  · exact (scalarInstr_ready _ hg).trans (if_pos hi)
  · obtain ⟨k, srcs', hexec, hall⟩ := exec_of_laneShape hs
    rw [hexec]
    refine laneFrame_unallocated k hc hw hh ?_
    rw [List.all_append] at ha ⊢
    rw [hall, ha]

end Sys2Proof.Machine
end

section
/-! PROOFS. The return from a trap (R142, R175, R192, R397). -/
namespace Sys2Proof.Machine

/-- The lanes that gangs apart from the faulting one have left to execute again stay (R175). -/
theorem Trap.mem_replay_apart (t : Trap) (hg : t.gang ≠ 0) {e : BitVec 8 × Mask} (he : e.1 &&& t.gang = 0) :
    e ∈ t.replay ↔ e ∈ t.frame.replay := by
  have hself : e ≠ (t.gang, t.fltmask) := by
    rintro rfl
    exact hg (by simpa using he)
  unfold Trap.replay
  dsimp only
  split_ifs
  · rfl
  · simp [he]
  · simp [he, hself]
  · rfl

/-- After a partial fault whose `%lpc` the handler left alone, the faulting gang has the lanes of `%fltmask` left (R175). -/
theorem Trap.replay_faulted (t : Trap) (hl : t.isLane = true) (hp : t.lpc = t.origin) (hf : t.faulted ≠ 0) :
    t.replay = (t.gang, t.fltmask) :: t.frame.replay.filter fun e => e.1 &&& t.gang == 0 := by
  unfold Trap.replay
  simp [hl, hp, show ¬ t.faulted = 0#32 from hf]

/-- Where the handler moved `%lpc`, the faulting gang has no lanes left to execute again (R137). -/
theorem Trap.replay_moved (t : Trap) (hl : t.isLane = true) (hp : t.lpc ≠ t.origin) :
    t.replay = t.frame.replay.filter fun e => e.1 &&& t.gang == 0 := by
  unfold Trap.replay
  simp [hl, hp]

/-- The faulting gang goes unwatched once after a watchpoint's trap, and after no other (R192). -/
theorem Trap.lanes_wpSkip (t : Trap) : t.lanes.wpSkip &&& t.gang =
    if t.isLane && t.cause == 0x10 && t.lpc == t.origin then t.gang else 0 := by
  unfold Trap.lanes
  dsimp only
  split
  · ext i hi
    simp
    exact fun h => .inr h
  · ext i hi
    simp

/-- Settles O12: TRET passes its checks and restores the frame as `trapReturn` does. -/
theorem tretRestoresTheFrame : Obligations.TretRestoresTheFrame := by
  unfold Obligations.TretRestoresTheFrame
  intro s g t l hg ht hrun hl hs hlane
  have hexec : exec .tret s = .next (s.trapReturn g t) := by
    refine (privileged_ready _ hg ht).trans ?_
    have hlen : s.laneLen g = l.laneLen := by unfold State.laneLen; rw [hl]; rfl
    have hok : (decide (t.spc ≥ l.scalLen) || (t.isLane && decide (t.lpc ≥ s.laneLen g))) = false := by
      rw [hlen]
      cases h : t.isLane
      · simpa using hs
      · simp [hs, hlane h]
    rw [hrun, if_neg (by decide), hl]
    exact if_neg (by rw [show ((some l).map (·.scalLen)).getD 0 = l.scalLen from rfl, hok]; decide)
  refine ⟨_, hexec, rfl, rfl, rfl, rfl, rfl, rfl, rfl, ?_, ?_, rfl, t.replay, t.lanes.wpSkip, rfl, ?_, ?_, ?_, ?_,
    t.lanes_wpSkip⟩
  · intro hw
    simp [hw]
  · intro hw hwait
    simp [hw, waitsOn, Option.isSome_iff_ne_none.mpr hwait]
  · exact fun hgang e he => t.mem_replay_apart hgang he
  · intro hi hp hf e he hne
    rw [t.replay_faulted hi hp hf, List.mem_cons, List.mem_filter] at he
    rcases he with he | ⟨-, he⟩
    · exact he
    · exact absurd (by simpa using he) hne
  · intro hi hp hf
    rw [t.replay_faulted hi hp hf]
    exact List.mem_cons_self
  · intro hi hp e he
    rw [t.replay_moved hi hp, List.mem_filter] at he
    simpa using he.2

end Sys2Proof.Machine
end

section
/-! PROOFS. Writes of special registers (R54, R58, R59, R137). -/
namespace Sys2Proof.Machine

/-- The group with the flags of every live lane written (R59). -/
def Group.setFlags (g : Group) (w : Word) : Group := (lanesOf g.regs.live).foldl (fun g l => g.setFlg l w) g

/-- The lanes of a mask are the numbers of its bits. -/
theorem mem_lanesOf {m : Mask} {l : Nat} : l ∈ lanesOf m ↔ l < 32 ∧ m.getLsbD l = true := by
  simp only [lanesOf, List.mem_filter, List.mem_range]

theorem foldl_setFlg (w : Word) (ls : List Nat) (g : Group) : let h := ls.foldl (fun g l => g.setFlg l w) g
    h = { g with regs := { g.regs with flg := h.regs.flg } } ∧
      ∀ l, h.getFlg l = if l ∈ ls then w &&& 63 else g.getFlg l := by
  induction ls generalizing g with
  | nil => exact ⟨rfl, fun l => (if_neg (List.not_mem_nil)).symm⟩
  | cons k ks ih =>
    obtain ⟨hframe, hget⟩ := ih (g.setFlg k w)
    refine ⟨hframe, fun l => ?_⟩
    rw [List.foldl_cons, hget l]
    have hk : (g.setFlg k w).getFlg l = if k = l then w &&& 63 else g.getFlg l := tget_tset ..
    rw [hk]
    simp only [List.mem_cons, eq_comm (a := k)]
    split_ifs <;> tauto

theorem Group.setFlags_frame (g : Group) (w : Word) :
    g.setFlags w = { g with regs := { g.regs with flg := (g.setFlags w).regs.flg } } := (foldl_setFlg ..).1

theorem Group.getFlg_setFlags (g : Group) (w : Word) {l : Nat} (hl : l < 32) :
    (g.setFlags w).getFlg l = if g.regs.live.getLsbD l then w &&& 63 else g.getFlg l := by
  unfold Group.setFlags
  rw [(foldl_setFlg ..).2]
  simp only [mem_lanesOf, hl, true_and]

/-- In a handler the group may write the trap's registers (R137). -/
theorem Group.mayWriteSp_handler (g : Group) {t : Trap} (ht : g.trap = some t) {r : Nat} :
    g.mayWriteSp r = (r == 0x09 || r == 0x0A || (r == 0x0B || r == 0x0E || r == 0x0F)) := by
  unfold Group.mayWriteSp Group.inHandler
  rw [ht]
  rfl

section
variable {s : State} {g : Group} {b : Nat} (h : s.scalarReady [b] = some g)
include h

/-- SWRS of a register that the group may write reads its operand and goes on (R137). -/
theorem exec_swrs_flg : exec (.swrs 0x09 b) s = .next (s.scalarDone (g.setFlags (g.getS b)) 1) :=
  (scalarInstr_turn _ (scalarReady_turn h)).trans (scalarInstr_ready _ h)

theorem exec_swrs_rmode : exec (.swrs 0x0A b) s = if (g.getS b).toNat % 8 ≥ 6 then .next (s.scalarTrap g 0x01 0)
    else .next (s.scalarDone (g.setRmode (g.getS b)) 1) :=
  (scalarInstr_turn _ (scalarReady_turn h)).trans (scalarInstr_ready _ h)

variable {t : Trap} (ht : g.trap = some t)
include ht

theorem exec_swrs_fltmask : exec (.swrs 0x0B b) s =
    .next (s.scalarDone { g with trap := some { t with fltmask := g.getS b &&& t.faulted } } 1) := by
  refine (scalarInstr_turn _ (scalarReady_turn h)).trans ((if_neg (by simp [g.mayWriteSp_handler ht])).trans
    ((scalarInstr_ready _ h).trans ?_))
  simp only [ht]
  rfl

theorem exec_swrs_spc : exec (.swrs 0x0E b) s =
    .next (s.scalarDone { g with trap := some { t with spc := (g.getS b).toNat, spcWritten := true } } 1) := by
  refine (scalarInstr_turn _ (scalarReady_turn h)).trans ((if_neg (by simp [g.mayWriteSp_handler ht])).trans
    ((scalarInstr_ready _ h).trans ?_))
  simp only [ht]
  rfl

theorem exec_swrs_lpc : exec (.swrs 0x0F b) s =
    .next (s.scalarDone { g with trap := some (if t.isLane then { t with lpc := (g.getS b).toNat } else t) } 1) := by
  refine (scalarInstr_turn _ (scalarReady_turn h)).trans ((if_neg (by simp [g.mayWriteSp_handler ht])).trans
    ((scalarInstr_ready _ h).trans ?_))
  simp only [ht]
  rfl

end

/-- Putting a group back leaves every byte of memory. -/
theorem State.setGroup_sameBytes (s : State) (g : Group) : s.sameBytes (s.setGroup g) := fun _ _ => rfl

/-- Settles O22: each register that may be written is one change of the group's flags, mode or trap. -/
theorem specialRegisterWrites : Obligations.SpecialRegisterWrites := by
  unfold Obligations.SpecialRegisterWrites
  intro s g b h
  have hmode (hw : (g.getS b).toNat % 8 < 6) :
      exec (.swrs 0x0A b) s = .next (s.scalarDone (g.setRmode (g.getS b)) 1) :=
    (exec_swrs_rmode h).trans (if_neg (by omega))
  refine ⟨fun r hr => ?_, ⟨g.setFlags (g.getS b), exec_swrs_flg h, g.setFlags_frame _,
    fun l hl => g.getFlg_setFlags _ hl⟩,
    fun hw => (exec_swrs_rmode h).trans (if_pos hw), fun hw => ⟨_, hmode hw, rfl, rfl, ?_, ?_⟩,
    fun t ht => ⟨exec_swrs_fltmask h ht, exec_swrs_spc h ht, exec_swrs_lpc h ht⟩⟩
  · rcases hr with rfl | ⟨rfl, hw⟩ | ⟨ht, hr⟩
    · refine ⟨_, exec_swrs_flg h, ?_⟩
      rw [g.setFlags_frame]
      exact ⟨rfl, rfl, rfl, rfl, rfl, s.setGroup_sameBytes _⟩
    · exact ⟨_, hmode hw, rfl, rfl, rfl, rfl, rfl, s.setGroup_sameBytes _⟩
    · obtain ⟨t, ht⟩ := Option.ne_none_iff_exists'.mp ht
      rcases hr with rfl | rfl | rfl
      · exact ⟨_, exec_swrs_fltmask h ht, rfl, rfl, rfl, rfl, rfl, s.setGroup_sameBytes _⟩
      · exact ⟨_, exec_swrs_spc h ht, rfl, rfl, rfl, rfl, rfl, s.setGroup_sameBytes _⟩
      · exact ⟨_, exec_swrs_lpc h ht, rfl, rfl, rfl, rfl, rfl, s.setGroup_sameBytes _⟩
  · exact (g.keepOld_noOld ..).1
  · exact (g.keepOld_noOld ..).2

end Sys2Proof.Machine
end

section
/-! PROOFS. EXIT and the retirement of a group (R22, R143). -/
namespace Sys2Proof.Machine

/-- A wait instruction of a group with no fault to take, or of a handler, is its meaning (R286). -/
theorem takeAsync_none {s : State} {g : Group} (h : g.async = none ∨ g.trap ≠ none) (spc : Nat) (k : Out) :
    takeAsync s g spc k = k := by
  unfold takeAsync
  split
  · rename_i a ha
    refine if_pos (Option.isSome_iff_ne_none.mpr (h.resolve_left ?_))
    rw [ha]
    exact Option.some_ne_none a
  · rfl

/-- A barrier that has opened or not holds no group that had not arrived at it. -/
theorem State.not_mem_openBarrier {s : State} {k : Barrier} {i : Nat} (h : i ∉ k.arrived) :
    i ∉ (s.openBarrier k).arrived := by
  unfold State.openBarrier
  dsimp only
  split
  · exact List.not_mem_nil
  · exact h

theorem State.openBarrier_place (s : State) (k : Barrier) :
    (s.openBarrier k).launch = k.launch ∧ (s.openBarrier k).blk = k.blk := by
  unfold State.openBarrier
  dsimp only
  split <;> exact ⟨rfl, rfl⟩

/-- A group that retires is in none of its block's barriers (R321). -/
theorem State.retire_barriers (s : State) (g : Group) {k : Barrier} (hk : k ∈ (s.retire g).units.barriers)
    (hl : k.launch = g.place.launch) (hb : k.blk = g.place.blk) : g.gid ∉ k.arrived := by
  unfold State.retire at hk
  dsimp only at hk
  rw [State.settleRegs_frame, State.launchDone_frame] at hk
  obtain ⟨k1, hk1, rfl⟩ := List.mem_map.mp hk
  obtain ⟨k0, -, rfl⟩ := List.mem_map.mp hk1
  rw [(State.openBarrier_place ..).1] at hl
  rw [(State.openBarrier_place ..).2] at hb
  refine State.not_mem_openBarrier ?_
  split at hl
  · rename_i h
    rw [if_pos h]
    simp
  · rename_i h
    rw [if_neg h] at hb
    exact absurd (by simp [hl, hb]) h

/-- What a group that retires has in flight delivers to no group. -/
theorem State.retire_flight (s : State) (g : Group) {a : Access} (ha : a ∈ (s.retire g).mem.flight) (hg : a.grp = g.gid) :
    g.gid = noGroup := by
  rw [State.retire_frame] at ha
  obtain ⟨a0, -, rfl⟩ := List.mem_map.mp ha
  split at hg
  · exact hg.symm
  · rename_i h
    exact absurd (by simpa using hg) h

/-- EXIT of a group with no fault to take (R143). -/
theorem exec_exit {s : State} {g : Group} (h : s.scalarReady [] = some g) (ha : g.async = none ∨ g.trap ≠ none) :
    exec .exit s =
      if s.lanesDone g && (s.groupCmds g).isEmpty && g.uas == 0 then .next (s.retire g) else .next s :=
  (scalarInstr_ready _ h).trans (takeAsync_none ha _ _)

/-- A group with lane blocks, or loads that the scalar stream awaits, under way is not done with its lanes (R32, R135). -/
theorem State.lanesDone_eq_false {s : State} {g : Group} (h : g.lanes.running = true ∨ (g.trap = none ∧ g.dq ≠ []) ∨
    ∃ a ∈ s.mem.flight, a.grp = g.gid ∧ a.scalar = false ∧ (a.handler = true ∨ g.trap = none) ∧
      ∃ d ∈ a.dests, scalarSees d = true) : s.lanesDone g = false := by
  unfold State.lanesDone
  rcases h with h | ⟨ht, hq⟩ | ⟨a, ha, hg, hs, hh, hd⟩
  · simp [h]
  · simp [Group.inHandler, ht, hq]
  · have : s.owesScalar g = true := by
      unfold State.owesScalar Group.inHandler
      refine List.any_eq_true.mpr ⟨a, ha, ?_⟩
      simpa [hg, hs, List.any_eq_true] using ⟨hh, hd⟩
    simp [this]

/-- Settles O23: EXIT retires the group when nothing of it is outstanding, and else leaves the state as it is. -/
theorem exitRetiresTheGroup : Obligations.ExitRetiresTheGroup := by
  unfold Obligations.ExitRetiresTheGroup
  intro s g hg hasync
  refine ⟨fun h => ?_, fun hl hc hu => ⟨s.retire g, ?_, ?_, fun a ha => s.retire_flight g ha,
    fun k hk => s.retire_barriers g hk, ?_, ?_⟩⟩
  · refine (exec_exit hg hasync).trans (if_neg ?_)
    rcases h with ⟨c, hc, hgid, hlaunch, hblk, hteam⟩ | hu | hl
    · have : (s.groupCmds g).isEmpty = false := by
        rw [List.isEmpty_eq_false_iff_exists_mem]
        exact ⟨c, List.mem_filter.mpr ⟨hc, by simp [hgid, hlaunch, hblk, hteam]⟩⟩
      simp [this]
    · simp [hu]
    · simp [State.lanesDone_eq_false hl]
  · exact (exec_exit hg hasync).trans (if_pos (by simp [hl, hc, hu]))
  · rw [State.retire_frame]
  · rw [State.retire_frame]
  · rw [State.retire_frame]
    rfl

end Sys2Proof.Machine
end

section
/-! PROOFS. Dispatch of lane blocks, and LWAIT (R30 to R33, R134 to R136). -/
namespace Sys2Proof.Machine

/-- LGO outside a handler (R134). -/
theorem exec_lgo {s : State} {g : Group} {a n start : Nat} (h : s.scalarReady (lgoRegs a n) = some g) (ht : g.trap = none)
    (hs : start < s.laneLen g) : exec (.lgo a n start) s =
      if g.dq.length < 16 then
        .next (s.scalarDone { g with dq := g.dq ++ [{ start := start, k := lgoCopies g a n, oldS := [] }] } 2)
      else .next s := by
  change execLgo a n start s = _
  unfold execLgo
  have hin : g.inHandler = false := by rw [Group.inHandler, ht]; rfl
  simp only [scalarReady_turn h, hin, Bool.false_eq_true, if_false]
  rw [scalarInstr_ready _ h, if_neg (Nat.not_le.mpr hs)]
  by_cases hq : g.dq.length < 16
  · rw [if_pos hq, if_neg (Nat.not_le.mpr hq)]
    rfl
  · rw [if_neg hq, if_pos (Nat.le_of_not_lt hq)]

/-- LGOT in a handler with no block running (R136). -/
theorem exec_lgot {s : State} {g : Group} {t : Trap} {a n start : Nat} (h : s.scalarReady (lgoRegs a n) = some g)
    (ht : g.trap = some t) (hs : start < s.laneLen g) (hr : g.lanes.running = false) : exec (.lgot a n start) s =
      .next (s.scalarDone { g with
        lanes := Lanes.start g.strandCount start (g.regs.live &&& strandLanes t.gang) (lgoCopies g a n) } 2) := by
  refine (privileged_ready _ h ht).trans ?_
  rw [if_neg (Nat.not_le.mpr hs), hr]
  rfl

/-- The strands of a block that starts hold the lanes of its mask (R31). -/
theorem getElem?_startStrands (n start : Nat) (mask : Mask) (j : Nat) : (startStrands n start mask)[j]? =
    if j < n then
      some { pc := start, active := strandBits mask j, stack := [], gang := 0, part := strandBits mask j != 0, reached := false }
    else none := by
  unfold startStrands
  rw [List.getElem?_map]
  split
  · rename_i h
    rw [List.getElem?_range h]
    rfl
  · rename_i h
    rw [List.getElem?_eq_none (by simpa using h)]
    rfl

/-- A lane's bit among those of its strand (R23). -/
theorem getLsbD_strandBits (m : Mask) (l : Nat) : (strandBits m (l / 4)).getLsbD (l % 4) = m.getLsbD l := by
  have h4 : l % 4 < 4 := Nat.mod_lt _ (by decide)
  rw [strandBits, BitVec.getLsbD_ofNat, Nat.testBit_div_two_pow, Nat.mod_add_div, decide_eq_true h4, Bool.true_and]
  rfl

/-- Copy i of a dispatch (R134). -/
theorem getD_lgoCopies (g : Group) (a n : Nat) {i : Nat} (hi : i < 8) :
    (lgoCopies g a n).getD i 0 = if i < n then g.getS (a + i) else 0 := by
  unfold lgoCopies
  rw [List.getD_eq_getElem?_getD, List.getElem?_map, List.getElem?_range hi]
  rfl

/-- LWAIT of a group with no fault to take (R135). -/
theorem exec_lwait {s : State} {g : Group} (h : s.scalarReady [] = some g) (ha : g.async = none ∨ g.trap ≠ none) :
    exec .lwait s = if s.lanesDone g then .next (s.scalarDone g.landScalar 1) else .next s :=
  (scalarInstr_ready _ h).trans (takeAsync_none ha _ _)

/-- What the scalar stream sees lands in no vector register. -/
theorem getV_land_of_scalarSees (g : Group) {d : Dest} (hd : scalarSees d = true) (w : Word) (o : Bool) (n l : Nat) :
    (g.land d w o).getV n l = g.getV n l := by
  cases d with
  | v => cases hd
  | p => cases hd
  | s => rfl
  | tile => rfl
  | sp r k =>
    unfold Group.land
    split
    case h_4 => split <;> rfl
    case h_1 | h_2 | h_3 | h_8 => contradiction
    all_goals rfl

/-- A result lands in the scalar register that it names alone. -/
theorem getS_land_ne (g : Group) {d : Dest} {n : Nat} (hd : d ≠ .s n) (w : Word) (o : Bool) :
    (g.land d w o).getS n = g.getS n := by
  cases d with
  | v => rfl
  | p r l =>
    simp only [Group.land, Group.setP]
    split <;> rfl
  | s m => exact tget_tset_ne _ _ _ (fun h => hd (by rw [h]))
  | tile => rfl
  | sp r k =>
    unfold Group.land
    split
    case h_4 => split <;> rfl
    case h_1 | h_2 | h_3 | h_8 => contradiction
    all_goals rfl

/-- Landing results that the scalar stream sees leaves the vector registers, and the scalar registers that none names. -/
theorem landAll_scalar (rs : List Res) (g : Group) (hr : ∀ r ∈ rs, scalarSees r.dest = true) :
    (∀ n l, (g.landAll rs).getV n l = g.getV n l) ∧
      ∀ n, (∀ r ∈ rs, r.dest ≠ .s n) → (g.landAll rs).getS n = g.getS n := by
  induction rs generalizing g with
  | nil => exact ⟨fun _ _ => rfl, fun _ _ => rfl⟩
  | cons r rs ih =>
    obtain ⟨hv, hs⟩ := ih (g.land r.dest r.val r.orIn) fun x hx => hr x (List.mem_cons_of_mem _ hx)
    refine ⟨fun n l => (hv n l).trans (getV_land_of_scalarSees g (hr r List.mem_cons_self) ..), fun n hn => ?_⟩
    exact (hs n fun x hx => hn x (List.mem_cons_of_mem _ hx)).trans (getS_land_ne g (hn r List.mem_cons_self) ..)

/-- A group with no block queued or running, and no load that the scalar stream awaits, is done with its lanes (R32, R135). -/
theorem State.lanesDone_eq_true {s : State} {g : Group} (hr : g.lanes.running = false) (hq : g.trap = none → g.dq = [])
    (hl : ∀ a ∈ s.mem.flight, a.grp = g.gid → a.scalar = false → (a.handler = true ∨ g.trap = none) →
      ∀ d ∈ a.dests, scalarSees d = false) : s.lanesDone g = true := by
  have howes : s.owesScalar g = false := by
    unfold State.owesScalar
    rw [List.any_eq_false]
    intro a ha hc
    simp only [Bool.and_eq_true, beq_iff_eq, Bool.not_eq_true', Bool.or_eq_true, List.any_eq_true] at hc
    obtain ⟨⟨⟨hg, hs⟩, hh⟩, d, hd, hsee⟩ := hc
    have hh' : a.handler = true ∨ g.trap = none := hh.imp id fun h => by simpa [Group.inHandler] using h
    rw [hl a ha hg hs hh' d hd] at hsee
    cases hsee
  have hdq : (g.inHandler || g.dq.isEmpty) = true := by
    cases ht : g.trap with
    | none => simp [hq ht]
    | some t => simp [Group.inHandler, ht]
  simp [State.lanesDone, hr, hdq, howes]

/-- Settles O20: each instruction passes its checks, and LWAIT lands what the scalar stream sees. -/
theorem laneBlocksAndLwait : Obligations.LaneBlocksAndLwait := by
  unfold Obligations.LaneBlocksAndLwait
  refine ⟨⟨fun s g a n start h ht hs _ => exec_lgo h ht hs, fun s g t a n start h ht hs _ hr =>
    ⟨_, exec_lgot h ht hs hr, ?_, ?_, ?_, fun i hi => getD_lgoCopies g a n hi⟩⟩, fun s g h ha hr hq hloads => ?_⟩
  · exact bne_iff_ne
  · intro e he
    obtain ⟨j, -, rfl⟩ := List.mem_map.mp he
    exact ⟨rfl, rfl, rfl⟩
  · intro l hl
    have hj : l / 4 < g.strandCount := by omega
    simp only [Lanes.start, getElem?_startStrands, if_pos hj, Option.map_some, Option.getD_some, getLsbD_strandBits]
  · have hdone : s.lanesDone g = true := State.lanesDone_eq_true hr hq hloads
    obtain ⟨hv, hs⟩ := landAll_scalar (g.pend.filter fun r => scalarSees r.dest) g fun r hr => (List.mem_filter.mp hr).2
    refine ⟨g.landScalar, (exec_lwait h ha).trans (if_pos hdone), rfl, ?_, hv, fun n hn => hs n fun r hr => hn r ?_⟩
    · unfold Group.landScalar
      rw [Group.landAll_eq]
    · exact (List.mem_filter.mp hr).1

end Sys2Proof.Machine
end

section
/-! PROOFS. Reads of special registers (R137, R138, R254). -/
namespace Sys2Proof.Machine

/-- SRDS of a register that the group may read, once its destination may be written (R137, R138). -/
theorem exec_srds {s : State} {g : Group} {d r : Nat} {w : Word} (h : s.scalarReady [d] = some g)
    (hr : s.srdsValue g r = some w) : exec (.srds d r) s =
      .next ((if r = 0x19 then s.drawn else s).scalarDone
        { g.setS d w with nsLatch := if r = 0x11 then some (BitVec.ofNat 32 (s.ns / 2 ^ 32)) else none } 1) := by
  refine (scalarInstr_turn _ (scalarReady_turn h)).trans ?_
  dsimp only
  rw [hr]
  exact scalarInstr_ready _ h

/-- The OR of the flags of some lanes. -/
theorem getLsbD_foldl_or (f : Nat → Word) (ls : List Nat) (w : Word) (b : Nat) :
    (ls.foldl (fun w l => w ||| f l) w).getLsbD b = true ↔ w.getLsbD b = true ∨ ∃ l ∈ ls, (f l).getLsbD b = true := by
  induction ls generalizing w with
  | nil => simp
  | cons l ls ih => simp [ih, or_assoc]

/-- Bit b of `%flg` as the scalar stream reads it (R59). -/
theorem Group.getLsbD_flgOr (g : Group) (b : Nat) :
    g.flgOr.getLsbD b = true ↔ ∃ l < 32, g.regs.live.getLsbD l = true ∧ (g.getFlg l).getLsbD b = true := by
  unfold Group.flgOr
  rw [getLsbD_foldl_or]
  simp only [mem_lanesOf, and_assoc]
  simp

/-- The number whose bit fields `%genst` holds: MODE, VW, THR, FILL, FV, NRDY, OLD, CUR, FC, SIZE and PEND (R254). -/
def genstPack (mode vw thr fill fv nrdy old cur fc size pend : Nat) : Nat :=
  mode + 2 ^ 2 * vw + 2 ^ 4 * thr + 2 ^ 5 * fill + fv + 2 ^ 7 * nrdy + 2 ^ 9 * old + 2 ^ 10 * cur + 2 ^ 11 * fc + 2 ^ 17 * size + pend

/-- Fields that fit their places can be read back. -/
theorem genstPack_fields {mode vw thr fill nrdy old cur fc size : Nat} {fv pend : Bool} (h1 : mode < 4) (h2 : vw < 4)
    (h3 : thr < 2) (h4 : fill < 2) (h5 : nrdy < 4) (h6 : old < 2) (h7 : cur < 2) (h8 : fc < 64) (h9 : size < 64) :
    let x := genstPack mode vw thr fill (if fv then 2 ^ 6 else 0) nrdy old cur fc size (if pend then 2 ^ 23 else 0)
    x < 2 ^ 24 ∧ x % 4 = mode ∧ x / 4 % 4 = vw ∧ x / 16 % 2 = thr ∧ x / 2 ^ 5 % 2 = fill ∧ x / 2 ^ 6 % 2 = fv.toNat ∧
      x / 2 ^ 7 % 4 = nrdy ∧ x / 2 ^ 9 % 2 = old ∧ x / 2 ^ 10 % 2 = cur ∧ x / 2 ^ 11 % 64 = fc ∧ x / 2 ^ 17 % 64 = size ∧
      x / 2 ^ 23 % 2 = pend.toNat := by
  cases fv <;> cases pend <;> simp only [genstPack, if_true, Bool.false_eq_true, if_false, Bool.toNat_true, Bool.toNat_false] <;>
    omega

/-- A bit of a word is the bit of its number. -/
theorem getLsbD_ofNat_iff {x k : Nat} (hx : x < 2 ^ 24) : (BitVec.ofNat 32 x).getLsbD k = true ↔ x / 2 ^ k % 2 = 1 := by
  rw [BitVec.getLsbD, BitVec.toNat_ofNat, Nat.mod_eq_of_lt (by omega), Nat.testBit_eq_decide_div_mod_eq, decide_eq_true_eq]

/-- A bit of a word that holds a Boolean is that Boolean. -/
theorem getLsbD_ofNat_eq {x k : Nat} {b : Bool} (hx : x < 2 ^ 24) (hb : x / 2 ^ k % 2 = b.toNat) :
    (BitVec.ofNat 32 x).getLsbD k = b := by
  cases b with
  | true => exact (getLsbD_ofNat_iff hx).mpr hb
  | false => exact Bool.eq_false_iff.mpr fun h => by simp [(getLsbD_ofNat_iff hx).mp h] at hb

/-- The code of a loop's mode. -/
def Gen.modeCode (n : Gen) : Nat := match n.mode with | .producer => 1 | .consumer => 2 | .drain => 3
/-- Is there a fill frame? -/
def Gen.filling (n : Gen) : Bool := n.st0 == .fill || n.st1 == .fill
/-- FILL, which is open without a fill frame. -/
def Gen.fillBit (n : Gen) (free : Nat) : Nat := if n.filling then (if n.st1 == .fill then 1 else 0) else free % 2
/-- CUR, which is open in the producer. -/
def Gen.curBit (n : Gen) (free : Nat) : Nat := if n.mode == .producer then free / 2 % 2 else n.cur
/-- The frames that count as ready. -/
def Gen.nrdy (n : Gen) : Nat := (if n.st0 == .ready then 1 else 0) + if n.st1 == .ready then 1 else 0
/-- The oldest ready frame (log 71). -/
def Gen.oldBit (n : Gen) : Nat :=
  if n.mode != .producer && (if n.cur = 0 then n.st0 else n.st1) == .ready then n.cur else n.ready.headD 0
/-- The number whose bit fields `%genst` holds for the loop. -/
def Gen.packed (n : Gen) (free : Nat) : Nat :=
  genstPack n.modeCode n.vw n.thr (n.fillBit free) (if n.filling then 2 ^ 6 else 0) n.nrdy n.oldBit (n.curBit free) n.fc n.size
    (if n.pend.isSome then 2 ^ 23 else 0)

theorem Group.genst_eq_packed (g : Group) (free : Nat) {n : Gen} (hn : g.gen = some n) :
    g.genst free = BitVec.ofNat 32 (n.packed free) := by
  unfold Group.genst
  rw [hn]
  rfl

theorem Gen.modeCode_lt (n : Gen) : n.modeCode < 4 := by unfold Gen.modeCode; split <;> decide
theorem Gen.fillBit_lt (n : Gen) (free : Nat) : n.fillBit free < 2 := by unfold Gen.fillBit; split_ifs <;> omega
theorem Gen.nrdy_lt (n : Gen) : n.nrdy < 4 := by unfold Gen.nrdy; split_ifs <;> omega
theorem Gen.curBit_lt (n : Gen) (free : Nat) (h : n.cur < 2) : n.curBit free < 2 := by unfold Gen.curBit; split_ifs <;> omega
theorem Gen.oldBit_lt (n : Gen) (h : n.cur < 2) (hr : n.ready.headD 0 < 2) : n.oldBit < 2 := by
  unfold Gen.oldBit; split_ifs <;> assumption
theorem Gen.nrdy_eq (n : Gen) : n.nrdy = (if n.st0 = .ready then 1 else 0) + if n.st1 = .ready then 1 else 0 := by
  simp only [Gen.nrdy, beq_iff_eq]

theorem Gen.packed_fields (n : Gen) (free : Nat) (hvw : n.vw < 4) (hthr : n.thr < 2) (hcur : n.cur < 2) (hfc : n.fc < 64)
    (hsize : n.size < 64) (hready : n.ready.headD 0 < 2) :
    let x := n.packed free
    x < 2 ^ 24 ∧ x % 4 = n.modeCode ∧ x / 4 % 4 = n.vw ∧ x / 16 % 2 = n.thr ∧ x / 2 ^ 5 % 2 = n.fillBit free ∧
      x / 2 ^ 6 % 2 = n.filling.toNat ∧ x / 2 ^ 7 % 4 = n.nrdy ∧ x / 2 ^ 9 % 2 = n.oldBit ∧ x / 2 ^ 10 % 2 = n.curBit free ∧
      x / 2 ^ 11 % 64 = n.fc ∧ x / 2 ^ 17 % 64 = n.size ∧ x / 2 ^ 23 % 2 = n.pend.isSome.toNat :=
  genstPack_fields n.modeCode_lt hvw hthr (n.fillBit_lt free) n.nrdy_lt (n.oldBit_lt hcur hready) (n.curBit_lt free hcur)
    hfc hsize

/-- `%genst` of an open loop whose numbers fit their fields (R254). -/
theorem Group.genst_fields (g : Group) (free : Nat) {n : Gen} (hn : g.gen = some n) (hvw : n.vw < 4) (hthr : n.thr < 2)
    (hcur : n.cur < 2) (hfc : n.fc < 64) (hsize : n.size < 64) (hready : n.ready.headD 0 < 2) :
    let w := g.genst free
    let nrdy := (if n.st0 = .ready then 1 else 0) + if n.st1 = .ready then 1 else 0
    let reading := n.mode ≠ .producer ∧ (if n.cur = 0 then n.st0 else n.st1) = .ready
    w.toNat % 4 = (match n.mode with | .producer => 1 | .consumer => 2 | .drain => 3) ∧
    w.toNat / 4 % 4 = n.vw ∧ w.toNat / 16 % 2 = n.thr ∧
    (w.getLsbD 6 = true ↔ n.st0 = .fill ∨ n.st1 = .fill) ∧
    (w.getLsbD 6 = true → (w.getLsbD 5 = true ↔ n.st1 = .fill)) ∧
    w.toNat / 2 ^ 7 % 4 = nrdy ∧
    (0 < nrdy → w.toNat / 2 ^ 9 % 2 = if reading then n.cur else n.ready.headD 0) ∧
    (n.mode ≠ .producer → w.toNat / 2 ^ 10 % 2 = n.cur) ∧
    w.toNat / 2 ^ 11 % 64 = n.fc ∧ w.toNat / 2 ^ 17 % 64 = n.size ∧ w.getLsbD 23 = n.pend.isSome ∧ w.toNat < 2 ^ 24 := by
  intro w nrdy reading
  obtain ⟨h24, f1, f2, f3, f4, f5, f6, f7, f8, f9, f10, f11⟩ := n.packed_fields free hvw hthr hcur hfc hsize hready
  have hw : w = BitVec.ofNat 32 (n.packed free) := g.genst_eq_packed free hn
  have hnat : w.toNat = n.packed free := by
    rw [hw, BitVec.toNat_ofNat, Nat.mod_eq_of_lt (by omega)]
  have hfv : w.getLsbD 6 = n.filling := hw ▸ getLsbD_ofNat_eq h24 f5
  rw [hnat]
  refine ⟨f1, f2, f3, ?_, fun h6 => ?_, f6.trans n.nrdy_eq, fun _ => f7.trans ?_, fun hm => f8.trans ?_, f9, f10,
    hw ▸ getLsbD_ofNat_eq h24 f11, h24⟩
  · rw [hfv]
    simp [Gen.filling]
  · have hfill : n.fillBit free = if n.st1 == .fill then 1 else 0 := if_pos (hfv.symm.trans h6)
    rw [hw, getLsbD_ofNat_iff h24, f4, hfill]
    split_ifs with h <;> simpa using h
  · simp [Gen.oldBit, reading]
  · simp [Gen.curBit, hm]

/-- Settles O21: each read gives the value that the model's table names, and `%genst` packs the fields of the loop. -/
theorem specialRegisterReads : Obligations.SpecialRegisterReads := by
  unfold Obligations.SpecialRegisterReads
  intro s g d h
  refine ⟨exec_srds h rfl, exec_srds h rfl, exec_srds h rfl, exec_srds h rfl, exec_srds h rfl, exec_srds h rfl, ?_,
    ⟨_, exec_srds h rfl, fun b hb => g.getLsbD_flgOr b⟩, exec_srds h rfl, fun t ht => ⟨?_, ?_, ?_, ?_, ?_⟩, exec_srds h rfl,
    exec_srds h rfl, ?_, exec_srds h rfl, exec_srds h rfl, exec_srds h rfl, exec_srds h rfl, exec_srds h rfl, exec_srds h rfl,
    exec_srds h rfl, ⟨_, exec_srds h rfl, fun hn => ?_, fun n hn hvw hthr hcur hfc hsize hready =>
      g.genst_fields _ hn hvw hthr hcur hfc hsize hready⟩⟩
  · cases ht : g.trap with
    | none => exact exec_srds h (by simp only [State.srdsValue, ht])
    | some t => exact exec_srds h (by simp only [State.srdsValue, ht])
  · exact exec_srds h (by simp only [State.srdsValue, ht, Option.map_some])
  · exact exec_srds h (by simp only [State.srdsValue, ht, Option.map_some])
  · exact exec_srds h (by simp only [State.srdsValue, ht, Option.map_some])
  · exact exec_srds h (by simp only [State.srdsValue, ht, Option.map_some])
  · exact exec_srds h (by simp only [State.srdsValue, ht, Option.map_some])
  · cases hl : g.nsLatch with
    | none => exact exec_srds h (by simp only [State.srdsValue, hl, Option.getD_none])
    | some w => exact exec_srds h (by simp only [State.srdsValue, hl, Option.getD_some])
  · unfold Group.genst
    rw [hn]

end Sys2Proof.Machine
end

section
/-! SUPPORT. What a stream issues: the words at its PC, or a trap (R28, R34, R74, R95, R98). -/
namespace Sys2Proof.Machine

/-- The choice of a group changes no more than which groups have yielded (R336). -/
theorem State.chosen_eq (s : State) (g : Group) : ∃ gs, s.chosen g = { s with groups := gs } := by
  unfold State.chosen
  dsimp only
  split
  · exact ⟨_, rfl⟩
  · exact ⟨s.groups, rfl⟩

/-- The registers of a context are used alike whichever groups are resident. -/
theorem State.useRegs_setGroups (s : State) (gs : List Group) (x : Nat) :
    State.useRegs { s with groups := gs } x = ({ (s.useRegs x).1 with groups := gs }, (s.useRegs x).2) := by
  unfold State.useRegs
  change (match (s.ctx x).oldRegs with | [] => _ | _ => _) = _
  dsimp only
  cases (s.ctx x).oldRegs <;> rfl

/-- The length and the place of the section that a group executes in are the same whichever groups are resident. -/
theorem State.scalarLen_setGroups {s : State} {g : Group} {n : Nat} (gs : List Group) (h : s.scalarLen g = (s, n)) :
    State.scalarLen { s with groups := gs } { g with due := none } = ({ s with groups := gs }, n) := by
  unfold State.scalarLen Group.inHandler at *
  dsimp only
  split at h
  · rename_i hin
    rw [if_pos hin, State.useRegs_setGroups]
    obtain ⟨h1, h2⟩ := Prod.mk.inj h
    exact Prod.ext (congrArg (fun t : State => { t with groups := gs }) h1) h2
  · rename_i hin
    rw [if_neg hin]
    obtain ⟨-, h2⟩ := Prod.mk.inj h
    exact Prod.ext rfl h2

theorem State.scalarBase_setGroups {s : State} {g : Group} {n : Nat} (gs : List Group) (h : s.scalarBase g = (s, n)) :
    State.scalarBase { s with groups := gs } { g with due := none } = ({ s with groups := gs }, n) := by
  unfold State.scalarBase Group.inHandler at *
  dsimp only
  split at h
  · rename_i hin
    rw [if_pos hin, State.useRegs_setGroups]
    obtain ⟨h1, h2⟩ := Prod.mk.inj h
    exact Prod.ext (congrArg (fun t : State => { t with groups := gs }) h1) h2
  · rename_i hin
    rw [if_neg hin]
    obtain ⟨-, h2⟩ := Prod.mk.inj h
    exact Prod.ext rfl h2

/-- None of the front-end's guards holds a group that may issue. -/
theorem scalarIssue_guard {s : State} {g : Group} (hm : s.scalarMayIssue g) :
    ¬ (g.suspended || !s.hasTokens g || g.lanes.fault.isSome || g.holdFirst ||
      (g.holdTrap && !g.inHandler && g.wait.isNone) || s.passedOver g) = true := by
  obtain ⟨h1, h2, h3, h4, h5, h6⟩ := hm
  rw [h1, h2, h3, h4, h5, h6]
  decide

section
variable {s : State} {gid : Nat} {g : Group} (hg : s.group? gid = some g) (hm : s.scalarMayIssue g)
include hg hm

/-- A stream that waits in an instruction executes it again from the words that it keeps (R397). -/
theorem scalarIssue_words {w0 w1 : Nat} (hw : g.words = some (w0, w1)) :
    s.scalarIssue gid = (s.chosen g).scalarDecoded { g with due := none } w0 w1 := by
  have hwk : ({ g with due := none } : Group).words = some (w0, w1) := hw
  unfold State.scalarIssue
  rw [hg]
  dsimp -proj only
  rw [if_neg (scalarIssue_guard hm)]
  generalize ({ g with due := none } : Group) = k at *
  rw [hwk]

variable {n base : Nat} (hw : g.words = none) (hlen : s.scalarLen g = (s, n))
include hw hlen

/-- A scalar PC outside its section traps (R28). -/
theorem scalarIssue_outside (hn : n ≤ g.spc) :
    s.scalarIssue gid = .other ((s.chosen g).scalarTrap { g with due := none } 0x01 0) := by
  obtain ⟨gs, hgs⟩ := s.chosen_eq g
  have hlen' := State.scalarLen_setGroups gs hlen
  have hwk : ({ g with due := none } : Group).words = none := hw
  have hnk : ({ g with due := none } : Group).spc ≥ n := hn
  unfold State.scalarIssue
  rw [hg]
  dsimp -proj only
  rw [if_neg (scalarIssue_guard hm), hgs]
  generalize ({ g with due := none } : Group) = k at *
  rw [hwk, hlen']
  exact if_pos hnk

/-- A stream fetches the word at its PC, and the next one with it for an SX instruction, and decodes them (R74, R95). -/
theorem scalarIssue_fetched {pa w1 : Nat} (hbase : s.scalarBase g = (s, base)) (hn : g.spc < n)
    (hpa : s.codeAt g (base + 4 * g.spc) = some pa)
    (hx : if isSX (s.codeWord pa / 2 ^ 24) then
        g.spc + 1 < n ∧ (s.codeAt g (base + 4 * g.spc + 4)).map s.codeWord = some w1
      else w1 = 0) :
    s.scalarIssue gid = (s.chosen g).scalarDecoded { g with due := none } (s.codeWord pa) w1 := by
  obtain ⟨gs, hgs⟩ := s.chosen_eq g
  have hlen' := State.scalarLen_setGroups gs hlen
  have hbase' := State.scalarBase_setGroups gs hbase
  have hwk : ({ g with due := none } : Group).words = none := hw
  have hspc : ({ g with due := none } : Group).spc = g.spc := rfl
  have hagent : ({ g with due := none } : Group).agent = g.agent := rfl
  have hfetch {va pa : Nat} (h : s.codeAt g va = some pa) :
      State.codeStalls { s with groups := gs } g.agent va 1 = false ∧
        State.fetch4 { s with groups := gs } g.agent va = ({ s with groups := gs }, .word (s.codeWord pa)) :=
    ⟨codeStalls_codeAt (s := { s with groups := gs }) (g := g) fun i hi => ⟨pa, by rw [show i = 0 by omega]; exact h⟩,
      fetch4_codeAt (s := { s with groups := gs }) (g := g) h⟩
  obtain ⟨hst, hf⟩ := hfetch hpa
  unfold State.scalarIssue
  rw [hg]
  dsimp -proj only
  rw [if_neg (scalarIssue_guard hm), hgs]
  generalize ({ g with due := none } : Group) = k at *
  generalize ({ s with groups := gs } : State) = t at *
  rw [hwk, hlen', hbase', hspc, hagent, hst, hf]
  dsimp only
  rw [if_neg (Nat.not_le.mpr hn), if_neg Bool.false_ne_true]
  by_cases hsx : isSX (s.codeWord pa / 2 ^ 24) = true
  · rw [if_pos hsx] at hx
    obtain ⟨hn1, hx⟩ := hx
    obtain ⟨pb, hpb, rfl⟩ := Option.map_eq_some_iff.mp hx
    obtain ⟨hst', hf'⟩ := hfetch hpb
    rw [hsx, hst', hf', if_neg (by decide), if_neg (Nat.not_le.mpr hn1), if_neg Bool.false_ne_true]
  · rw [if_neg hsx] at hx
    rw [Bool.not_eq_true] at hsx
    rw [hsx, hx]
    rfl

end

/-- A step in a scalar turn. -/
theorem step_scalar {s : State} {gid : Nat} (h : s.nextTurn = .scalar gid) : step s = (s.begin.scalarIssue gid).run := by
  unfold step
  rw [h]
  rfl

theorem run_scalarDecoded_ok {s : State} {g : Group} {w0 w1 : Nat} {i : Instr} (h : decodeScalar w0 w1 = .ok i) :
    ((s.chosen g).scalarDecoded { g with due := none } w0 w1).run = exec i (s.issuing g w0 w1) := by
  unfold State.scalarDecoded
  rw [h]
  rfl

theorem run_scalarDecoded_ill {s : State} {g : Group} {w0 w1 c : Nat} (h : decodeScalar w0 w1 = .ill c) :
    ((s.chosen g).scalarDecoded { g with due := none } w0 w1).run =
      .next ((s.chosen g).scalarTrap { g with due := none } c 0) := by
  unfold State.scalarDecoded
  rw [h]
  rfl

/-! ## Gangs -/

/-- The gang that a lane turn issues for, with its work before the guard (R34). -/
def State.gangWork (s : State) (g : Group) (st : Nat) : Lane :=
  { s := s, g := g, gang := gangOf g.lanes.strands st, pc := g.pcOf (gangOf g.lanes.strands st), act := 0 }

/-- A step in a lane turn. -/
theorem step_lane {s : State} {gid st : Nat} (h : s.nextTurn = .lane gid st) :
    step s = (s.begin.laneIssue gid st).run := by
  unfold step
  rw [h]
  rfl

/-- A gang that traps before its word takes the trap of its work (R43). -/
theorem run_laneFault (s : State) (g : Group) (st cause : Nat) :
    Issue.run (.other (s.laneFault g (gangOf g.lanes.strands st) cause)) = (s.gangWork g st).trap cause := rfl

/-- None of the front-end's guards holds a gang that may issue. -/
theorem laneIssue_guard {s : State} {g : Group} {b : BitVec 8} (hm : s.laneMayIssue g b) :
    ¬ (!g.lanes.running || b == 0 || g.suspended || !s.hasTokens g || g.holdFirst ||
      (s.cluster (clusterOf g.place.core)).withhold) = true ∧ ¬ (g.genHeld b || g.allHeld b) = true := by
  obtain ⟨h1, h2, h3, h4, -, h6, h7, h8, h9⟩ := hm
  rw [h1, h3, h4, h6, h7, h8, h9, beq_eq_false_iff_ne.mpr h2]
  decide

/-- Three words of code in a row are fetched as one number (R74). -/
theorem fetchParts_codeAt {s : State} {g : Group} {va p0 p1 p2 : Nat} (h0 : s.codeAt g va = some p0)
    (h1 : s.codeAt g (va + 4) = some p1) (h2 : s.codeAt g (va + 8) = some p2) : s.fetchParts g.agent va 3 =
      (s, .word (s.codeWord p0 + 2 ^ 32 * s.codeWord p1 + 2 ^ 64 * s.codeWord p2)) := by
  have h2' : s.codeAt g (va + 4 + 4) = some p2 := h2
  simp only [State.fetchParts, fetch4_codeAt h0, fetch4_codeAt h1, fetch4_codeAt h2']
  congr 2
  ring

section
variable {s : State} {gid st : Nat} {g : Group} {l : Launch} (hg : s.group? gid = some g)
  (hl : s.launch? g.place.launch = some l) (hm : s.laneMayIssue g (gangOf g.lanes.strands st))
include hg hl hm

/-- A lane PC outside its section traps (R34). -/
theorem laneIssue_outside (hn : l.laneLen ≤ g.pcOf (gangOf g.lanes.strands st)) :
    (s.laneIssue gid st).run = (s.gangWork g st).trap 0x01 := by
  obtain ⟨h1, h2⟩ := laneIssue_guard hm
  obtain ⟨-, -, -, -, hf, -⟩ := hm
  have hlen : s.laneLen g = l.laneLen := by unfold State.laneLen; rw [hl]; rfl
  unfold State.laneIssue
  rw [hg]
  dsimp only
  rw [if_neg h1, hf]
  dsimp only
  rw [if_neg h2, if_pos (by rw [hlen]; exact hn)]
  exact run_laneFault s g st 0x01

/-- A gang fetches the word at its lane PC and decodes it (R74, R77). -/
theorem laneIssue_fetched {p0 p1 p2 : Nat} (hc : s.constsStall g = false)
    (hn : g.pcOf (gangOf g.lanes.strands st) < l.laneLen)
    (h0 : s.codeAt g (l.laneVa + 12 * g.pcOf (gangOf g.lanes.strands st)) = some p0)
    (h4 : s.codeAt g (l.laneVa + 12 * g.pcOf (gangOf g.lanes.strands st) + 4) = some p1)
    (h8 : s.codeAt g (l.laneVa + 12 * g.pcOf (gangOf g.lanes.strands st) + 8) = some p2) :
    (s.laneIssue gid st).run =
      match decodeLane (s.codeWord p0 + 2 ^ 32 * s.codeWord p1 + 2 ^ 64 * s.codeWord p2) with
      | .ok i => exec i s
      | .ill c => (s.gangWork g st).trap c := by
  obtain ⟨h1, h2⟩ := laneIssue_guard hm
  obtain ⟨-, -, -, -, hf, -⟩ := hm
  have hlen : s.laneLen g = l.laneLen := by unfold State.laneLen; rw [hl]; rfl
  have hst := codeStalls_codeAt (s := s) (g := g) (n := 3) (va := l.laneVa + 12 * g.pcOf (gangOf g.lanes.strands st))
    fun i hi => match i, hi with
      | 0, _ => ⟨p0, h0⟩
      | 1, _ => ⟨p1, h4⟩
      | 2, _ => ⟨p2, h8⟩
  unfold State.laneIssue
  rw [hg]
  dsimp only
  rw [if_neg h1, hf]
  dsimp only
  rw [if_neg h2, if_neg (by rw [hlen]; omega), hl, show ((some l).map (·.laneVa)).getD 0 = l.laneVa from rfl,
    if_neg (by rw [hst, hc]; decide), fetchParts_codeAt h0 h4 h8]
  dsimp only
  cases decodeLane (s.codeWord p0 + 2 ^ 32 * s.codeWord p1 + 2 ^ 64 * s.codeWord p2) with
  | ok i => rfl
  | ill c => exact run_laneFault s g st c

end

end Sys2Proof.Machine
end

section
/-! PROOFS. Steps of the streams: decoded instructions run, illegal words trap (R28, R34, R74, R77, R98). -/
namespace Sys2Proof.Machine

/-- Settles O1: the front-end's guards pass, the words are fetched or kept, and their instruction runs. -/
theorem scalarStepRunsTheDecodedInstruction : Obligations.ScalarStepRunsTheDecodedInstruction := by
  unfold Obligations.ScalarStepRunsTheDecodedInstruction
  refine ⟨fun s gid g n base pa w1 i ht hg hm hw hlen hbase hn hpa hx hd => ?_, fun s gid g w0 w1 i ht hg hm hw hd => ?_⟩
  · rw [step_scalar ht, scalarIssue_fetched hg hm hw hlen hbase hn hpa hx, run_scalarDecoded_ok hd]
  · rw [step_scalar ht, scalarIssue_words hg hm hw, run_scalarDecoded_ok hd]

/-- Settles O2: the same of a gang; a unit's step is what its turn names. -/
theorem laneStepRunsTheDecodedInstruction : Obligations.LaneStepRunsTheDecodedInstruction := by
  unfold Obligations.LaneStepRunsTheDecodedInstruction
  refine ⟨fun s gid st g l p0 p1 p2 i ht hg hl hm hc hn h0 h4 h8 hd => ?_, fun s e ht he => ?_⟩
  · rw [step_lane ht, laneIssue_fetched hg hl hm hc hn h0 h4 h8, hd]
  · unfold step
    rw [ht]
    unfold State.take
    dsimp only
    rw [he]

/-- Settles O3: the decoder's code, and that of a PC outside its section, is the trap that the stream takes instead. -/
theorem illegalWordsTrap : Obligations.IllegalWordsTrap := by
  unfold Obligations.IllegalWordsTrap
  refine ⟨fun s gid g n base pa w1 c ht hg hm hw hlen hbase hn hpa hx hd => ?_, fun s gid g n ht hg hm hw hlen hn => ?_,
    fun s gid st g l p0 p1 p2 ht hg hl hm => ?_⟩
  · rw [step_scalar ht, scalarIssue_fetched hg hm hw hlen hbase hn hpa hx, run_scalarDecoded_ill hd]
  · rw [step_scalar ht, scalarIssue_outside hg hm hw hlen hn]
    rfl
  · intro b k traps
    have htraps {c : Nat} (h : step s = k.trap c) : traps c :=
      ⟨fun hw => h.trans (trapAt_waits _ _ _ _ _ _ hw), fun s' hw hr => h.trans (trapAt_ready _ _ hw hr)⟩
    refine ⟨fun hn => htraps ?_, fun c hc hn h0 h4 h8 hd => htraps ?_⟩
    · exact (step_lane ht).trans (laneIssue_outside hg hl hm hn)
    · rw [step_lane ht, laneIssue_fetched hg hl hm hc hn h0 h4 h8, hd]
      rfl

end Sys2Proof.Machine
end

section
/-! PROOFS. Words of the manual, and the values at reset. -/
namespace Sys2Proof.Machine

/-- Settles O4: the decoder computes each instruction. -/
theorem wordsOfTheManualDecode : Obligations.WordsOfTheManualDecode := by
  unfold Obligations.WordsOfTheManualDecode
  decide +kernel

/-! ## Reset (R191, R227, R322, R341, R350, R364, R372, R374, R376, R382) -/

/-- A partition's registers at reset, as the physical function reads them. -/
theorem reset_reg_partition : ∀ p < 16, State.reset.reg 0 (0x100000 + 0x10000 * p) = 0 ∧
    State.reset.reg 0 (0x100008 + 0x10000 * p) = 100000 ∧ State.reset.reg 0 (0x100100 + 0x10000 * p) = 1000 ∧
    State.reset.reg 0 (0x100200 + 0x10000 * p) = 2 ^ 16 ∧ State.reset.reg 0 (0x100300 + 0x10000 * p) = 0xFFFF ∧
    State.reset.reg 0 (0x100308 + 0x10000 * p) = 0 := by decide +kernel

/-- A cluster's SLEWLIM at reset. -/
theorem reset_reg_cluster : ∀ n < 72, State.reset.reg 0 (0x600000 + 0x1000 * n) = 15 := by decide +kernel

/-- A context's registers at reset. -/
theorem reset_reg_context : ∀ x < 256, State.reset.reg 0 (0x200248 + 0x4000 * x) = 0 ∧
    State.reset.reg 0 (0x200270 + 0x4000 * x) = 0 ∧ State.reset.reg 0 (0x200278 + 0x4000 * x) = 0 ∧
    State.reset.reg 0 (0x200400 + 0x4000 * x) = 0 := by decide +kernel

/-- A core's registers at reset. -/
theorem reset_reg_core : ∀ k < 432, State.reset.reg 0 (0x700010 + 0x1000 * k) = 0 ∧
    State.reset.reg 0 (0x700100 + 0x1000 * k) = 0 := by decide +kernel

/-- Settles O8: the tables of the control BAR are evaluated on the state at reset. -/
theorem resetLeavesTheManualsValues : Obligations.ResetLeavesTheManualsValues :=
  ⟨rfl, rfl, rfl, rfl, rfl, reset_reg_partition, reset_reg_cluster, reset_reg_context, reset_reg_core⟩

end Sys2Proof.Machine
end

section
/-! SUPPORT. The frame of scalar accesses, and what issuing one leaves unchanged (R124, R182, R218, R219). -/
namespace Sys2Proof.Machine

/-- Lookups leave every byte of memory. -/
theorem State.looksUp.sameBytes {s t : State} (h : s.looksUp t) : s.sameBytes t := by
  intro l hl
  cases l with
  | hbm pa => simp only [State.locRead, h.hbm]
  | host pa => simp only [State.locRead, h.host]
  | peer k pa => simp only [State.locRead, h.peer]
  | scr k off => simp only [State.locRead, h.sram]
  | mx x w pa => cases hl
  | mmio off => cases hl

theorem State.sameBytes.trans {s t u : State} (h : s.sameBytes t) (k : t.sameBytes u) : s.sameBytes u :=
  fun l hl => (k l hl).trans (h l hl)

/-- A release at scope 0 or 1 changes which cores are promotion pending, and nothing else (R218). -/
theorem State.setPromotion_frame (s : State) (g : Group) (o : MOrd) (sc : Scope) :
    s.setPromotion g o sc = { s with mem := { s.mem with prom := (s.setPromotion g o sc).mem.prom } } := by
  unfold State.setPromotion
  split <;> rfl

/-- A promotion drain that starts, if one does, and its identity change (R219). -/
theorem State.startDrain_frame (s : State) (x : Nat) (prom : Bool) : (s.startDrain x prom).1 =
    { s with mem := { s.mem with drains := (s.startDrain x prom).1.mem.drains }, nextId := (s.startDrain x prom).1.nextId } := by
  unfold State.startDrain
  split
  · dsimp only
    split <;> rfl
  · rfl

theorem State.ordered_frame (s : State) (g : Group) (o : MOrd) (sc : Scope) (prom : Bool) : (s.ordered g o sc prom).1 =
    { s with
      mem := { s.mem with prom := (s.ordered g o sc prom).1.mem.prom, drains := (s.ordered g o sc prom).1.mem.drains }
      nextId := (s.ordered g o sc prom).1.nextId } := by
  unfold State.ordered
  rw [State.startDrain_frame, State.setPromotion_frame]

/-- Issuing an access leaves every byte of memory. -/
theorem State.ordered_sent_sameBytes (s : State) (g h : Group) (o : MOrd) (sc : Scope) (prom : Bool) (x : Access) :
    s.sameBytes ((s.ordered g o sc prom).1.sent h x) := by
  rw [State.ordered_frame]
  intro l hl
  cases l with
  | hbm | host | peer | scr => rfl
  | mx => cases hl
  | mmio => cases hl

/-- No hold of the scalar stream keeps it from memory where every hold is a gang's. -/
theorem scalarHeld_eq_false {g : Group} (h : ∀ x ∈ g.holds, x.own ≠ 0) : g.scalarHeld = false :=
  List.any_eq_false.mpr fun x hx => by simpa using h x hx

section
variable {s s' : State} {g : Group} {rs : List Nat} {a : Nat} {off : Int} {w : Want} {n : Nat} {o : MOrd} {sc : Scope}
  {prom : Bool} {mk : Group → Access → Access} (hg : s.scalarReady (rs ++ [a, a + 1]) = some g)
  (hh : ∀ x ∈ g.holds, x.own ≠ 0)
include hg hh

/-- A scalar access whose check fails traps with its code and issues nothing (R124). -/
theorem scalarAccess_fail {st c : Nat} (hc : s.check g.agent w (scalarEa g a off) n = (s', .fail st c)) :
    scalarAccess s rs a off w n o sc prom mk = .next (s'.scalarTrap g c 0) := by
  refine (scalarInstr_ready _ hg).trans ?_
  rw [scalarHeld_eq_false hh, hc]
  rfl

variable {l : Loc} (hc : s.check g.agent w (scalarEa g a off) n = (s', .ok l))
include hc

/-- A scalar access to a bank that is to change its use stalls (R375). -/
theorem scalarAccess_stalls (hb : s'.bankStalls l = true) : scalarAccess s rs a off w n o sc prom mk = .next s := by
  refine (scalarInstr_ready _ hg).trans ?_
  rw [scalarHeld_eq_false hh, hc]
  exact if_pos hb

/-- A scalar access that passes its checks issues (R124, R182). -/
theorem scalarAccess_ok (hb : s'.bankStalls l = false) (hord : ∀ x, (mk g x).ord = x.ord ∧ (mk g x).sc = x.sc) :
    scalarAccess s rs a off w n o sc prom mk =
      .next ((s'.ordered g o sc prom).1.sent g (mk g (g.scalarAcc (s'.ordered g o sc prom) o sc .load l n))) := by
  refine (scalarInstr_ready _ hg).trans ?_
  rw [scalarHeld_eq_false hh, hc]
  refine Eq.trans (if_neg (by decide : ¬ false = true)) ?_
  refine (show _ = (if s'.bankStalls l = true then Host.Outcome.next s else _) from rfl).trans ?_
  rw [if_neg (by rw [hb]; decide)]
  unfold State.sent State.ordered State.issueAcc Group.scalarAcc
  rw [(hord _).1, (hord _).2]
  generalize (s'.setPromotion g o sc).startDrain g.place.ctx (prom && ordAcq o) = p
  obtain ⟨t, d⟩ := p
  dsimp only
  generalize mk g _ = x
  generalize x.kind.counts = counts
  cases ordAcq o <;> cases counts <;> rfl

end

/-- The low and the high half of eight bytes (R49). -/
theorem leBytes_getS64 (g : Group) (d : Nat) :
    leBytes 8 (g.getS64 d).toNat = leBytes 4 (g.getS d).toNat ++ leBytes 4 (g.getS (d + 1)).toNat := by
  have hv : (g.getS64 d).toNat = (g.getS (d + 1)).toNat * 2 ^ 32 + (g.getS d).toNat := by
    rw [Group.getS64, BitVec.toNat_append, Nat.shiftLeft_eq, Nat.mul_comm, ← Nat.two_pow_add_eq_or_of_lt (g.getS d).isLt]
  have h1 := (g.getS d).isLt
  have h2 := (g.getS (d + 1)).isLt
  rw [hv]
  simp only [leBytes, List.cons_append, List.nil_append, List.cons.injEq, and_true]
  refine ⟨?_, ?_, ?_, ?_, ?_, ?_, ?_, ?_⟩ <;> apply BitVec.eq_of_toNat_eq <;> simp only [BitVec.toNat_ofNat] <;> omega

end Sys2Proof.Machine
end

section
/-! PROOFS. Scalar loads, stores and atomics (R124 to R127). -/
namespace Sys2Proof.Machine

/-- A scalar load, store or atomic that is the frame of accesses stalls at a bank that is to change its use, and else issues its
access and changes no byte. -/
theorem scalarAccess_issues {s s' : State} {g : Group} {rs : List Nat} {a : Nat} {off : Int} {w : Want} {n : Nat} {o : MOrd}
    {sc : Scope} {prom : Bool} {mk : Group → Access → Access} {l : Loc} {out : Out}
    (hout : out = scalarAccess s rs a off w n o sc prom mk) (hh : ∀ x ∈ g.holds, x.own ≠ 0)
    (hord : ∀ x, (mk g x).ord = x.ord ∧ (mk g x).sc = x.sc) (hg : s.scalarReady (rs ++ [a, a + 1]) = some g)
    (hc : s.check g.agent w (scalarEa g a off) n = (s', .ok l)) :
    (s'.bankStalls l = true → out = .next s) ∧ (s'.bankStalls l = false →
      let p := s'.ordered g o sc prom
      let t := p.1.sent g (mk g (g.scalarAcc p o sc .load l n))
      out = .next t ∧ s.sameBytes t) := by
  subst hout
  refine ⟨fun hb => scalarAccess_stalls hg hh hc hb, fun hb => ⟨scalarAccess_ok hg hh hc hb hord, ?_⟩⟩
  have hs : s.looksUp s' := by simpa only [hc] using s.check_looksUp g.agent w (scalarEa g a off) n
  exact hs.sameBytes.trans (s'.ordered_sent_sameBytes g g o sc prom _)

/-- Settles O25: each form is the frame of scalar accesses with its kind, width, data and destinations. -/
theorem scalarAccessesIssue : Obligations.ScalarAccessesIssue := by
  unfold Obligations.ScalarAccessesIssue
  intro s s' g d a o sc prom off l hh issues
  refine ⟨fun w hg hc => ?_, fun hg hc => ?_, fun w hg hc => ?_, fun hg hc => ?_, fun op hg hc => ?_, fun hg hc => ?_⟩
  · exact scalarAccess_issues (out := execSld d a w o sc prom off s) rfl hh (fun _ => ⟨rfl, rfl⟩) hg hc
  · exact scalarAccess_issues (out := execSld64 d a o sc prom off s) rfl hh (fun _ => ⟨rfl, rfl⟩) hg hc
  · exact scalarAccess_issues (out := execSst d a w o sc off s) rfl hh (fun _ => ⟨rfl, rfl⟩) hg hc
  · rw [← leBytes_getS64]
    exact scalarAccess_issues (out := execSst64 d a o sc off s) rfl hh (fun _ => ⟨rfl, rfl⟩) hg hc
  · cases op <;>
      exact scalarAccess_issues (out := execSatom d a _ o sc prom off s) rfl hh (fun _ => ⟨rfl, rfl⟩) hg hc
  · exact scalarAccess_issues (out := execScas d a o sc prom off s) rfl hh (fun _ => ⟨rfl, rfl⟩) hg hc

end Sys2Proof.Machine
end

section
/-! PROOFS. The checks of an access before its data (R124, R385, R386). -/
namespace Sys2Proof.Machine

/-- The check of canonical form, on the bits of the address (R124). -/
theorem canonical_iff (va : Nat) : canonical va = true ↔
    BitVec.ofNat 7 (va / 2 ^ 57) = (if va.testBit 56 then BitVec.allOnes 7 else 0) := by
  unfold canonical bits
  rw [bit_eq_testBit, beq_iff_eq, BitVec.toNat_inj.symm]
  cases va.testBit 56 <;> simp [BitVec.toNat_ofNat]

section
variable {s : State} {x : Agent} {w : Want} {va n : Nat}

theorem check_notCanonical (h : canonical va = false) : s.check x w va n = (s, .fail 1 0x05) := by
  unfold State.check State.place
  rw [h]
  rfl

theorem check_misaligned (h : canonical va = true) (hn : va % n ≠ 0) : s.check x w va n = (s, .fail 2 0x03) := by
  unfold State.check State.place
  rw [h, if_neg (by decide), if_pos (by simpa using hn)]

variable (h : canonical va = true) (hn : va % n = 0)
include h hn

/-- The place of an access whose address is canonical and aligned. -/
theorem place_eq_placeAt : s.place x w va n = s.placeAt x w va n := by
  unfold State.place
  rw [h, if_neg (by decide), if_neg (by simp [hn])]

/-- A failing check before the data is the outcome of the checks. -/
theorem check_of_placeAt_fail {t : State} {st c : Nat} (hp : s.placeAt x w va n = (t, .fail st c)) :
    s.check x w va n = (t, .fail st c) := by
  unfold State.check
  rw [place_eq_placeAt h hn, hp]

/-- A place that is found passes unless its data carry an error. -/
theorem check_of_placeAt_ok {t : State} {l : Loc} (hp : s.placeAt x w va n = (t, .ok l)) :
    s.check x w va n = (t, if t.locBad l n then .fail 8 0x15 else .ok l) := by
  unfold State.check
  rw [place_eq_placeAt h hn, hp]

/-- The code of a missing, malformed or misplaced translation decides the check that fails (R386). -/
theorem check_of_fault {t : State} {c : Nat} (ht : s.translate x.core x.ctx x.part (va % 2 ^ 57) = (t, .fault c)) :
    s.check x w va n = (t, .fail (if c = 0x04 then 3 else if c = 0x05 then 4 else 5) c) := by
  refine check_of_placeAt_fail h hn ?_
  unfold State.placeAt
  rw [ht]

variable {t : State} {pte k : Nat} (ht : s.translate x.core x.ctx x.part (va % 2 ^ 57) = (t, .leaf pte k))
include ht

/-- A leaf without the permission fails the check (R124). -/
theorem check_notPermitted (hp : permOk w pte = false) : (s.check x w va n).2 = .fail 4 0x05 := by
  refine congrArg Prod.snd (check_of_placeAt_fail h hn (t := if bits pte 4 3 = 2 then t.drawn else t) ?_)
  unfold State.placeAt
  rw [ht]
  dsimp only
  rw [hp]
  rfl

variable (hp : permOk w pte = true)
include hp

/-- A leaf that leads to no target fails the check (R385). -/
theorem check_noTarget (hl : t.target x pte k (va % 2 ^ 57) = none) : (s.check x w va n).2 = .fail 5 0x06 := by
  refine congrArg Prod.snd (check_of_placeAt_fail h hn (t := if bits pte 4 3 = 2 then t.drawn else t) ?_)
  unfold State.placeAt
  rw [ht]
  dsimp only
  rw [hp, if_neg (by decide), hl]

variable {l : Loc} (hl : t.target x pte k (va % 2 ^ 57) = some l)
include hl

/-- A target that the access may not use fails the check (R174). -/
theorem check_wrongTarget (hk : targetOk w n l = false) : (s.check x w va n).2 = .fail 5 0x06 := by
  refine congrArg Prod.snd (check_of_placeAt_fail h hn (t := if bits pte 4 3 = 2 then t.drawn else t) ?_)
  unfold State.placeAt
  rw [ht]
  dsimp only
  rw [hp, if_neg (by decide), hl]
  exact if_pos (by rw [hk]; rfl)

/-- A target that the access may use passes unless its data carry an error (R124). -/
theorem check_rightTarget (hk : targetOk w n l = true) :
    s.check x w va n = ((s.check x w va n).1, if (s.check x w va n).1.locBad l n then .fail 8 0x15 else .ok l) := by
  have hp : s.placeAt x w va n = (if bits pte 4 3 = 2 then t.drawn else t, .ok l) := by
    unfold State.placeAt
    rw [ht]
    dsimp only
    rw [hp, if_neg (by decide), hl]
    exact if_neg (by rw [hk]; decide)
  rw [check_of_placeAt_ok h hn hp]

end

/-- Where neither TLB has an entry the walk decides the translation, and one that faults leaves the state (R386, R387). -/
theorem translate_of_walk_fault {s : State} {core x part va c : Nat}
    (ht : ∀ e ∈ s.mem.tlb, e.core = core ∨ e.core = tlb2 (clusterOf core) → e.hits x va = false)
    (hw : s.walk x part va = .fault c) : s.translate core x part va = (s, .fault c) := by
  have hmiss {k : Nat} (hk : k = core ∨ k = tlb2 (clusterOf core)) :
      s.mem.tlb.find? (fun e => e.core == k && e.hits x va) = none := by
    rw [List.find?_eq_none]
    intro e he hh
    rw [Bool.and_eq_true, beq_iff_eq] at hh
    obtain ⟨rfl, hh⟩ := hh
    rw [ht e he hk] at hh
    cases hh
  unfold State.translate
  rw [hmiss (.inl rfl), hmiss (.inr rfl), hw]

/-- The first level of a walk reads the entry at the root (R386). -/
theorem walk_eq (s : State) (x part va : Nat) : s.walk x part va =
    if !s.ownsPa part (s.ctx x).ptroot then .fault 0x06
    else
      let pte := leNat (s.mem.hbm.read ((s.ctx x).ptroot + 8 * bits va 48 9) 8)
      if !bit pte 0 then .fault 0x04
      else if pteBad 1 pte then .fault 0x05
      else if bits pte 1 3 != 0 then .leaf pte (leafSize 1 pte)
      else s.walkFrom part va 4 (bits pte 12 40 * 4096) := rfl

/-- An entry of the first level that is a leaf, has bits of a leaf's target or is marked as a part of 64 KiB is malformed
(R386). -/
theorem pteBad_root {pte : Nat} (h : bits pte 1 3 ≠ 0 ∨ bits pte 52 8 ≠ 0 ∨ pte.testBit 7 = true) : pteBad 1 pte = true := by
  unfold pteBad
  rw [bit_eq_testBit]
  by_cases hl : bits pte 1 3 = 0
  · rcases h with h | h | h
    · exact absurd hl h
    · simp [hl, h]
    · simp [h]
  · simp [hl]

/-- The target check turns away types 6 outside a handler and 7, memory of another partition, and an offset beyond the team's
scratch (R385). -/
theorem target_eq_none {s : State} {x : Agent} {va pte k : Nat} (h : bits pte 4 3 = 7 ∨ (bits pte 4 3 = 6 ∧ x.handler = false) ∨
    (bits pte 4 3 = 0 ∧ s.ownsPa x.part (bits pte 12 40 * 4096 + va % 2 ^ 57 % 2 ^ k) = false) ∨
    (bits pte 4 3 = 3 ∧ ∀ t, s.team? x.launch x.blk x.team = some t →
      t.size ≤ bits pte 12 7 * 4096 + va % 2 ^ 57 % 2 ^ k)) : s.target x pte k (va % 2 ^ 57) = none := by
  unfold State.target
  rcases h with h | ⟨h, hx⟩ | ⟨h, hx⟩ | ⟨h, hx⟩
  · simp only [h]
  · simp only [h, hx]; rfl
  · simp only [h, hx]; rfl
  · simp only [h]
    cases ht : s.team? x.launch x.blk x.team with
    | none => rfl
    | some t => exact if_neg (Nat.not_lt.mpr (hx t ht))

/-- A scalar load, store or atomic that is the frame of accesses traps with the code of the check that fails (R124). -/
theorem scalarAccess_traps {s s' : State} {g : Group} {rs : List Nat} {a : Nat} {off : Int} {w : Want} {n st c : Nat} {o : MOrd}
    {sc : Scope} {prom : Bool} {mk : Group → Access → Access} {out : Out}
    (hout : out = scalarAccess s rs a off w n o sc prom mk) (hh : ∀ x ∈ g.holds, x.own ≠ 0)
    (hg : s.scalarReady (rs ++ [a, a + 1]) = some g)
    (hc : s.check g.agent w (scalarEa g a off) n = (s', .fail st c)) : out = .next (s'.scalarTrap g c 0) :=
  hout.trans (scalarAccess_fail hg hh hc)

/-- Settles O26: each check that fails is the outcome of the checks, and a scalar access with such an outcome traps. -/
theorem accessChecksTrap : Obligations.AccessChecksTrap := by
  unfold Obligations.AccessChecksTrap
  refine ⟨fun s s' g d a st c o sc prom off hh => ⟨fun w hg hc => ?_, fun hg hc => ?_, fun w hg hc => ?_, fun hg hc => ?_,
    fun op hg hc => ?_, fun hg hc => ?_⟩, fun s x w va n hn => ?_⟩
  · exact scalarAccess_traps (out := execSld d a w o sc prom off s) rfl hh hg hc
  · exact scalarAccess_traps (out := execSld64 d a o sc prom off s) rfl hh hg hc
  · exact scalarAccess_traps (out := execSst d a w o sc off s) rfl hh hg hc
  · exact scalarAccess_traps (out := execSst64 d a o sc off s) rfl hh hg hc
  · cases op <;> exact scalarAccess_traps (out := execSatom d a _ o sc prom off s) rfl hh hg hc
  · exact scalarAccess_traps (out := execScas d a o sc prom off s) rfl hh hg hc
  simp only [← canonical_iff, ne_eq, Bool.not_eq_true]
  refine ⟨check_notCanonical, check_misaligned, fun hc ha ht => ?_, fun hc ha s' pte k htr => ?_, fun pte k => target_eq_none,
    fun h c y pa => ⟨rfl, rfl, ?_, rfl⟩, fun pte => ?_⟩
  · have hfault {c : Nat} (hw : s.walk x.ctx x.part (va % 2 ^ 57) = .fault c) :=
      check_of_fault (w := w) hc ha (translate_of_walk_fault ht hw)
    refine ⟨fun c hw => hfault hw, fun ho => ?_, fun ho hv => ?_, fun ho hv hb => ?_⟩
    · refine hfault (c := 0x06) ?_
      rw [walk_eq, ho]
      rfl
    · refine hfault (c := 0x04) ?_
      rw [walk_eq, ho]
      simp only [bit_eq_testBit, hv]
      rfl
    · refine hfault (c := 0x05) ?_
      rw [walk_eq, ho]
      simp only [bit_eq_testBit, hv, pteBad_root hb]
      rfl
  · exact ⟨check_notPermitted hc ha htr, fun hp => ⟨check_noTarget hc ha htr hp, fun l hl =>
      ⟨check_wrongTarget hc ha htr hp hl, check_rightTarget hc ha htr hp hl⟩⟩⟩
  · cases w <;> rfl
  · simp only [permOk, bit_eq_testBit, and_self, implies_true]

end Sys2Proof.Machine
end

section
/-! SUPPORT. A line of the L2 whose record of what HBM holds is longer than a line. No rule of the model keeps such a record from
a state, and when the line leaves it is written back whole, past the line's end. -/
namespace Sys2Proof.Machine

/-- A clean line at address 640, with one byte of HBM's contents too many: that byte belongs to the next line, at 768. -/
def longLine : L2Line := { line := 5, dirty := false, backing := List.replicate 129 7, way := none, prio := 1 }

/-- The byte of device HBM at an address after an outcome. -/
def hbmAfter (o : Out) (pa : Nat) : Option Byte :=
  match o with
  | .next t => some (t.mem.hbm.get pa)
  | _ => none

/-- Memory that changes a byte to which no write of an MX window and no stale line belongs does not settle as R224 says. -/
theorem not_sameSettled_of_hbmAfter {s t : State} {o : Out} {pa : Nat} {b : Byte} (ho : o = .next t)
    (ha : s.aliasPends (.hbm pa) = false) (hl : s.lineStale (.hbm pa) = false) (ht : hbmAfter o pa = some b)
    (hs : s.mem.hbm.get pa ≠ b) : ¬ s.sameSettled t := by
  intro h
  subst ho
  have hbyte := List.head_eq_of_cons_eq (h (.hbm pa) rfl ha hl)
  exact hs (hbyte.symm.trans (Option.some.inj ht))

/-- A group about to execute a scalar instruction, with a line of HBM at address 0x1000 that it may access, s0 = 1 and
s1 = 0x1000; its partition's masks give no way of the L2 to any class, and the L2 holds the long line. -/
def longLineState : State :=
  let s := State.reset.withFetchWord 64 0
  { s with
    turn := .scalar 0
    groups := s.groups.map fun g => { g with regs := { g.regs with s := [(0, 1), (1, 0x1000)] } }
    mem := { s.mem with l2 := [longLine] }
    plat := { s.plat with parts := tmod Part.reset s.plat.parts 0 fun p => { p with masks := (List.range 16).map fun i => (i, 0) } } }

/-- The group of that state. -/
def longLineGroup : Group :=
  let g := probeGroup State.reset.nextId false
  { g with regs := { g.regs with s := [(0, 1), (1, 0x1000)] } }

end Sys2Proof.Machine
end

section
/-! PROOFS. Scalar prefetch (R128, R224). -/
namespace Sys2Proof.Machine

/-- Refutes O27: a prefetch of the line at 0x1000 by a class without ways makes the long line leave the L2, and the byte at
address 768, which is in no line that the L2 holds, changes from 0 to 7. -/
theorem not_scalarPrefetchRangesAndFence : ¬ Obligations.ScalarPrefetchRangesAndFence := by
  unfold Obligations.ScalarPrefetchRangesAndFence
  intro h
  have hready : longLineState.scalarReady [0, 1, 2] = some longLineGroup := by decide +kernel
  have hholds : ∀ x ∈ longLineGroup.holds, x.own ≠ 0 := by decide +kernel
  obtain ⟨-, ⟨t, ht, -, hsame, -⟩, -⟩ := h.1 longLineState longLineGroup 0 1 .dev 0 hready hholds
  have hbyte : hbmAfter (exec (.spfxPf 0 1 .dev 0) longLineState) 768 = some 7 := by decide +kernel
  have hpends : longLineState.aliasPends (.hbm 768) = false := by decide +kernel
  have hstale : longLineState.lineStale (.hbm 768) = false := by decide +kernel
  have hbefore : longLineState.mem.hbm.get 768 ≠ 7 := by decide +kernel
  exact not_sameSettled_of_hbmAfter ht hpends hstale hbyte hbefore fun l => hsame l

end Sys2Proof.Machine
end

section
/-! PROOFS. Copy commands (R224, R284, R308). -/
namespace Sys2Proof.Machine

/-- The bytes of a record that owner 7 may read: an FP32 element at address 0, coordinates outside it permitted. -/
def oneElementRecord : List Byte :=
  leBytes 16 0 ++ (List.replicate 4 (leBytes 4 1)).flatten ++ leBytes 12 0 ++ leBytes 4 0x100 ++ leBytes 4 0x10007 ++ leBytes 12 0

/-- The state of the long line, in which the record at 0x1000 is cached but for its first part, and key 7 is in the ring. -/
def longLineRecordState : State :=
  { longLineState with
    units := { longLineState.units with
      recs := [{ cluster := 0, ctx := 0, addr := 0x1000, data := oneElementRecord, missing := [0] }] }
    plat := { longLineState.plat with
      ctxs := tmod Ctx.reset longLineState.plat.ctxs 0 fun c => { c with keys := [(0, 7)] } } }

/-- The record cache completes the entry at 0x1000 in one fill. -/
theorem longLineRecordState_readRecord :
    longLineRecordState.readRecord longLineGroup.engineAgent (blkAddr (longLineGroup.block 1) 0) =
      ((longLineRecordState.readRecord longLineGroup.engineAgent (blkAddr (longLineGroup.block 1) 0)).1,
        .ok oneElementRecord) := by
  have hbytes : (longLineRecordState.readRecord longLineGroup.engineAgent (blkAddr (longLineGroup.block 1) 0)).2 =
      .ok oneElementRecord := by decide +kernel
  rw [← hbytes]

/-- A gather of no element issues there, and its fill of the record writes the long line back. -/
theorem longLineRecordState_gath : hbmAfter (exec (.gath 1 .none 0) longLineRecordState) 768 = some 7 := by decide +kernel

/-- Refutes O28: the fill of the record of a GATH, by a class without ways, makes the long line leave the L2, and the byte at
address 768, which is in no line that the L2 holds, changes from 0 to 7. -/
theorem not_copyCommandsIssue : ¬ Obligations.CopyCommandsIssue := by
  unfold Obligations.CopyCommandsIssue
  intro h
  have hready : longLineRecordState.engineReady [] 1 = some longLineGroup := by decide +kernel
  have hroom : (longLineRecordState.readRecord longLineGroup.engineAgent
      (blkAddr (longLineGroup.block 1) 0)).1.roomFor longLineGroup 1 0 = true := by decide +kernel
  have hkey : (TRec.ofBytes oneElementRecord).keyOk ((longLineRecordState.readRecord longLineGroup.engineAgent
      (blkAddr (longLineGroup.block 1) 0)).1.ring longLineGroup.place.ctx) false = true := by decide +kernel
  obtain ⟨-, -, hgath⟩ := h longLineRecordState longLineRecordState _ longLineGroup 1 0 0 .none oneElementRecord hready rfl
    longLineRecordState_readRecord hroom rfl
  have hissue := hgath false (by decide +kernel) (by decide +kernel) hkey (by decide +kernel)
    (fun hfmt => absurd hfmt (by decide +kernel)) (.inl (by decide +kernel)) (by unfold State.complInside; rfl)
  simp only [Bool.false_eq_true, if_false] at hissue
  obtain ⟨t, ht, -, hsame⟩ := hissue
  have hpends : longLineRecordState.aliasPends (.hbm 768) = false := by decide +kernel
  have hstale : longLineRecordState.lineStale (.hbm 768) = false := by decide +kernel
  have hbefore : longLineRecordState.mem.hbm.get 768 ≠ 7 := by decide +kernel
  exact not_sameSettled_of_hbmAfter ht hpends hstale longLineRecordState_gath hbefore fun l => hsame l

end Sys2Proof.Machine
end

section
/-! SUPPORT. Engine commands at issue: the frame of R284 when the group can issue, and its checks. -/
namespace Sys2Proof.Machine

/-- A group that can issue a command runs the rest of the instruction on its operand block. -/
theorem engineInstr_ready {s : State} {regs : List Nat} {a : Nat} {g : Group} (k : Group → List Word → Out)
    (h : s.engineReady regs a = some g) : engineInstr s regs a k = k g (g.block a) := by
  obtain ⟨hready, hwait⟩ := Option.filter_eq_some_iff.mp h
  have hturn := scalarReady_turn hready
  unfold engineInstr
  rw [hturn]
  split
  · next c t hw =>
    have hgw : g.wait = some (.cmd c t) := hw
    rw [hgw] at hwait
    cases hwait
  · exact scalarInstr_ready _ hready

/-- No check fails of those of which none fails. -/
theorem firstOf_eq_none {l : List (Option Nat)} (h : ∀ x ∈ l, x = none) : firstOf l = none :=
  List.findSome?_eq_none_iff.mpr fun x hx => h x hx

/-- A check that holds. -/
theorem need_of_true {ok : Bool} (code : Nat) (h : ok = true) : need ok code = none := if_pos h
/-- A check that fails. -/
theorem need_of_false {ok : Bool} (code : Nat) (h : ok = false) : need ok code = some code := by subst h; rfl

/-- A command whose first failing check has a trap code traps with it. -/
theorem engineIssue_trap {s : State} {g : Group} {t code : Nat} {checks : List (Option Nat)} (cm : Compl) (c : Cmd) (n : Nat)
    (h : firstOf checks = some code) (hc : code ≠ stallCode) :
    s.engineIssue g (some t) checks cm c n = .next (s.scalarTrap g code 0) := by
  unfold State.engineIssue
  rw [h]
  simp only [if_neg hc]

/-- A command that passes its checks and finds room is in flight, and the stream goes on or waits. -/
theorem engineIssue_ok {s : State} {g : Group} {t : Nat} {checks : List (Option Nat)} (cm : Compl) (c : Cmd) (n : Nat)
    (h : firstOf checks = none) (hroom : s.roomFor g c.cards n = true) :
    s.engineIssue g (some t) checks cm c n = .next ((s.addCmd c).setGroup (g.issued cm c.id t)) := by
  unfold State.engineIssue
  rw [h]
  simp only [hroom, Bool.not_true, Bool.false_eq_true, if_false]

/-- The registers of an operand block after the first are zero. -/
theorem block_drop_all_zero (g : Group) (a : Nat) :
    ((g.block a).drop 1).all (· == 0) = true ↔ ∀ i < 7, (g.block a).getD (i + 1) 0 = 0 := by
  have hlen : (g.block a).length = 8 := rfl
  rw [List.all_eq_true, List.forall_mem_iff_getElem]
  simp only [List.getElem_drop, beq_iff_eq, List.length_drop, hlen]
  refine forall₂_congr fun i hi => ?_
  rw [List.getD_eq_getElem _ _ (by omega)]
  simp only [Nat.add_comm]

/-- Every tile of a mask is one that the group has. -/
theorem tilesIn_all_lt (mask n : Nat) :
    ((tilesIn mask).all fun t => decide (t < n)) = true ↔ ∀ t < 4, mask.testBit t = true → t < n := by
  simp only [tilesIn, bit_eq_testBit, List.all_eq_true, List.mem_filter, List.mem_range, decide_eq_true_eq, and_imp]

/-- A command that issues without a completion is in flight as R284 and R285 say. -/
theorem engineIssue_issuesCmd {s : State} {g : Group} {checks : List (Option Nat)} (c : Cmd) (n : Nat)
    (h : firstOf checks = none) (hroom : s.roomFor g c.cards n = true) (hid : c.id = s.nextId) (hcm : c.compl = .none)
    (hst : c.state = .queued) (hgrp : c.grp = g.gid) (hdone : c.done = []) :
    ∃ t : State, s.engineIssue g (some 0) checks .none c n = .next t ∧ s.issuesCmd t g c.kind .none c.total 0 ∧
      ∀ x ∈ t.units.cmds, x.id = s.nextId → (∀ y ∈ s.units.cmds, y.id ≠ s.nextId) → x.batch = c.batch := by
  refine ⟨_, engineIssue_ok .none c n h hroom, ⟨c, rfl, hid, rfl, hcm, rfl, hst, hgrp, hdone⟩, fun x hx hxid hnone => ?_⟩
  rcases List.mem_append.mp (show x ∈ s.units.cmds ++ [_] from hx) with hold | hnew
  · exact absurd hxid (hnone x hold)
  · rw [List.mem_singleton.mp hnew]

end Sys2Proof.Machine
end

section
/-! PROOFS. Matrix commands (R284, R291, R295 to R301). -/
namespace Sys2Proof.Machine

/-- The fields of an MMAC block that must be legal (R298). -/
def mmacFields (b : List Word) : Prop :=
  bits (blkWord b 4) 2 2 ≠ 3 ∧ bits (blkWord b 4) 4 2 ≠ 3 ∧ bits (blkWord b 4) 13 3 = 0 ∧ bits (blkWord b 4) 8 4 ≤ 11 ∧
    bits (blkWord b 4) 16 16 ≠ 0 ∧ bits (blkWord b 4) 16 16 % 32 = 0

/-- The second step of the checks of an MMAC: its fields and its tile. -/
def mmacFieldCheck (g : Group) (b : List Word) : Option Nat :=
  firstOf [need (bits (blkWord b 4) 2 2 != 3 && bits (blkWord b 4) 4 2 != 3 && bits (blkWord b 4) 13 3 == 0 &&
    decide (bits (blkWord b 4) 8 4 < 12) && bits (blkWord b 4) 16 16 != 0 && bits (blkWord b 4) 16 16 % 32 == 0) 0x01,
    need (decide (bits (blkWord b 4) 0 2 < g.info.tiles)) 0x02]

theorem mmacFieldCheck_illegal {g : Group} {b : List Word} (h : ¬ mmacFields b) : mmacFieldCheck g b = some 0x01 := by
  unfold mmacFieldCheck
  rw [need_of_false]
  · rfl
  · rw [Bool.eq_false_iff]
    intro hall
    simp only [Bool.and_eq_true, bne_iff_ne, beq_iff_eq, decide_eq_true_eq] at hall
    exact h ⟨hall.1.1.1.1.1, hall.1.1.1.1.2, hall.1.1.1.2, by omega, hall.1.2, hall.2⟩

theorem mmacFieldCheck_tile {g : Group} {b : List Word} (h : mmacFields b) (ht : g.info.tiles ≤ blkWord b 4 % 4) :
    mmacFieldCheck g b = some 0x02 := by
  obtain ⟨hm, hn, hz, hf, hk, hk32⟩ := h
  have htile : bits (blkWord b 4) 0 2 = blkWord b 4 % 4 := by simp [bits]
  unfold mmacFieldCheck
  rw [need_of_true, need_of_false]
  · rfl
  · simp [htile, ht]
  · simp [hm, hn, hz, hk, hk32]
    omega

/-- The checks of an MMAC begin with its fields and its tile. -/
theorem mmacChecks_shape (s : State) (g : Group) (b : List Word) :
    ∃ l, (s.mmacChecks g b).2.1 = none :: mmacFieldCheck g b :: l := ⟨_, rfl⟩

/-- The command of an MMAC takes one job card and joins the open batch. -/
theorem mmacChecks_cmd (s : State) (g : Group) (b : List Word) :
    (s.mmacChecks g b).2.2.cards = 1 ∧ (s.mmacChecks g b).2.2.batch = some g.openBatch := ⟨rfl, rfl⟩

/-- The checks of a copy begin with the producer's. -/
theorem copyChecks_shape (s : State) (g : Group) (b : List Word) (cm : Compl) (gran : Nat) :
    ∃ l, (s.copyChecks g b cm gran).2.1 = need g.isProducer 0x0A :: taskOk cm :: l := ⟨_, rfl⟩

/-- An MMAC is its checks, and then issues. -/
theorem exec_mmac {s : State} {g : Group} {a : Nat} (h : s.engineReady [] a = some g) :
    exec (.mmac a) s = (s.mmacChecks g (g.block a)).1.engineIssue g (some 0) (s.mmacChecks g (g.block a)).2.1 .none
      (s.mmacChecks g (g.block a)).2.2 1 := by
  change execMmac a s = _
  exact engineInstr_ready _ h

/-- A CPYM is the checks of its two blocks, step by step, and then issues both commands. -/
theorem exec_cpym {s : State} {g : Group} {a gran m : Nat} (h : s.engineReady (regSpan m 8) a = some g)
    {s' s'' : State} {ck mk : List (Option Nat)} {c f : Cmd} (hc : s.copyChecks g (g.block a) .none gran = (s', ck, c))
    (hm : s'.mmacChecks g (g.block m) = (s'', mk, f)) :
    exec (.cpym a gran m) s = match firstOf ((ck.zip mk).flatMap fun (x, y) => [x, y]) with
      | some code => .next (if code = stallCode then s'' else s''.scalarTrap g code 0)
      | none => if !s''.roomFor g 2 1 then .next s''
        else .next (((s''.addCmd c).addCmd { f with id := (s''.addCmd c).nextId, waitsFor := some c.id }).setGroup
          (g.advance 2)) := by
  change execCpym a gran m s = _
  refine (engineInstr_ready _ h).trans ?_
  have hm' : s'.mmacChecks g ((List.range 8).map fun i => g.getS (m + i)) = (s'', mk, f) := hm
  simp only [hc, hm'] <;> rfl

/-- The steps of two blocks are made together: the first of them that fails, where the copy's later steps come after it. -/
theorem firstOf_zip_fields {g : Group} {ck mk : List (Option Nat)} {b : List Word} (hc : ∃ l, ck = need g.isProducer 0x0A :: none :: l)
    (hm : ∃ l, mk = none :: mmacFieldCheck g b :: l) :
    (g.isProducer = false → firstOf ((ck.zip mk).flatMap fun (x, y) => [x, y]) = some 0x0A) ∧
    (g.isProducer = true → ∀ code, mmacFieldCheck g b = some code →
      firstOf ((ck.zip mk).flatMap fun (x, y) => [x, y]) = some code) := by
  obtain ⟨l, rfl⟩ := hc
  obtain ⟨k, rfl⟩ := hm
  constructor
  · intro hp
    simp [firstOf, need, hp]
  · intro hp code hcode
    simp [firstOf, need, hp, hcode]

/-- Of two blocks none of whose checks fails, no step fails. -/
theorem firstOf_zip_eq_none {ck mk : List (Option Nat)} (h : ∀ x ∈ ck ++ mk, x = none) :
    firstOf ((ck.zip mk).flatMap fun (x, y) => [x, y]) = none := by
  refine firstOf_eq_none fun x hx => ?_
  obtain ⟨⟨y, z⟩, hyz, hx⟩ := List.mem_flatMap.mp hx
  obtain ⟨hy, hz⟩ := List.of_mem_zip hyz
  rcases List.mem_cons.mp hx with rfl | hx
  · exact h _ (List.mem_append_left _ hy)
  · rw [List.mem_singleton.mp hx]
    exact h _ (List.mem_append_right _ hz)

/-- An MZRO whose command passes its checks issues it. -/
theorem exec_mzro {s : State} {g : Group} {a : Nat} (h : s.engineReady [] a = some g) :
    exec (.mzro a) s = s.engineIssue g (some 0)
      [need (decide (blkWord (g.block a) 0 < 16) && ((g.block a).drop 1).all (· == 0)) 0x01,
        need ((tilesIn (blkWord (g.block a) 0)).all fun t => decide (t < g.info.tiles)) 0x02] .none
      { g.command s.nextId (.mzro (blkWord (g.block a) 0)) .none 0 (4096 * (tilesIn (blkWord (g.block a) 0)).length) with
        cards := 0, batch := some g.openBatch } 1 := by
  change execMzro a s = _
  exact engineInstr_ready _ h

/-- A MACC whose command passes its checks issues it. -/
theorem exec_macc {s : State} {g : Group} {a : Nat} (h : s.engineReady [] a = some g) :
    exec (.macc a) s = s.engineIssue g (some 0)
      [need (decide (blkWord (g.block a) 0 < 64) && !(bit (blkWord (g.block a) 0) 5 && !bit (blkWord (g.block a) 0) 4) &&
          ((g.block a).drop 1).all (· == 0)) 0x01,
        need (decide (bits (blkWord (g.block a) 0) 0 2 < g.info.tiles) && decide (bits (blkWord (g.block a) 0) 2 2 < g.info.tiles))
          0x02] .none
      { g.command s.nextId (.macc (bits (blkWord (g.block a) 0) 0 2) (bits (blkWord (g.block a) 0) 2 2)
          (bit (blkWord (g.block a) 0) 4) (bit (blkWord (g.block a) 0) 5)) .none 0 4096 with
        cards := 0, batch := some g.openBatch } 1 := by
  change execMacc a s = _
  exact engineInstr_ready _ h

/-- MZRO issues, or traps. -/
theorem mzro_spec {s : State} {g : Group} {a : Nat} (h : s.engineReady [] a = some g) :
    (blkWord (g.block a) 0 < 16 → (∀ i < 7, (g.block a).getD (i + 1) 0 = 0) →
      (∀ t < 4, (blkWord (g.block a) 0).testBit t = true → t < g.info.tiles) → s.roomFor g 0 1 = true →
      ∃ t : State, exec (.mzro a) s = .next t ∧ s.issuesCmd t g (.mzro (blkWord (g.block a) 0)) .none
          (4096 * ((List.range 4).filter fun t => (blkWord (g.block a) 0).testBit t).length) 0 ∧
        ∀ c ∈ t.units.cmds, c.id = s.nextId → (∀ c ∈ s.units.cmds, c.id ≠ s.nextId) → c.batch = some g.openBatch) ∧
    (¬ (blkWord (g.block a) 0 < 16 ∧ ∀ i < 7, (g.block a).getD (i + 1) 0 = 0) →
      exec (.mzro a) s = .next (s.scalarTrap g 0x01 0)) ∧
    (blkWord (g.block a) 0 < 16 → (∀ i < 7, (g.block a).getD (i + 1) 0 = 0) →
      (∃ t < 4, (blkWord (g.block a) 0).testBit t = true ∧ g.info.tiles ≤ t) →
      exec (.mzro a) s = .next (s.scalarTrap g 0x02 0)) := by
  have hbits : (fun t => (blkWord (g.block a) 0).testBit t) = fun t => bit (blkWord (g.block a) 0) t :=
    funext fun t => (bit_eq_testBit _ t).symm
  rw [exec_mzro h]
  refine ⟨fun hw hz ht hroom => ?_, fun hn => ?_, fun hw hz ⟨t, ht4, htb, htile⟩ => ?_⟩
  · rw [need_of_true _ (by rw [(block_drop_all_zero g a).mpr hz, decide_eq_true hw]; rfl),
      need_of_true _ ((tilesIn_all_lt _ _).mpr ht), hbits]
    exact engineIssue_issuesCmd _ 1 rfl hroom rfl rfl rfl rfl rfl
  · rw [need_of_false]
    · exact engineIssue_trap _ _ _ rfl (by decide)
    · rw [Bool.eq_false_iff]
      intro hall
      rw [Bool.and_eq_true, decide_eq_true_eq, block_drop_all_zero] at hall
      exact hn hall
  · rw [need_of_true _ (by rw [(block_drop_all_zero g a).mpr hz, decide_eq_true hw]; rfl), need_of_false]
    · exact engineIssue_trap _ _ _ rfl (by decide)
    · rw [Bool.eq_false_iff]
      intro hall
      exact absurd ((tilesIn_all_lt _ _).mp hall t ht4 htb) (by omega)

end Sys2Proof.Machine
end
section
/-! PROOFS. Matrix commands (R284, R291, R295 to R301). -/
namespace Sys2Proof.Machine

/-- The word of a MACC, and the other registers of its block, are legal (R301). -/
def maccLegal (b : List Word) : Prop :=
  blkWord b 0 < 64 ∧ ((blkWord b 0).testBit 5 = true → (blkWord b 0).testBit 4 = true) ∧ ∀ i < 7, b.getD (i + 1) 0 = 0

/-- The first check of a MACC passes for a legal block. -/
theorem maccCheck_iff (g : Group) (a : Nat) :
    (decide (blkWord (g.block a) 0 < 64) && !(bit (blkWord (g.block a) 0) 5 && !bit (blkWord (g.block a) 0) 4) &&
      ((g.block a).drop 1).all (· == 0)) = true ↔ maccLegal (g.block a) := by
  rw [Bool.and_eq_true, Bool.and_eq_true, decide_eq_true_eq, block_drop_all_zero, bit_eq_testBit, bit_eq_testBit, and_assoc]
  unfold maccLegal
  cases (blkWord (g.block a) 0).testBit 5 <;> cases (blkWord (g.block a) 0).testBit 4 <;> simp

/-- MACC issues, or traps. -/
theorem macc_spec {s : State} {g : Group} {a : Nat} (h : s.engineReady [] a = some g) :
    (maccLegal (g.block a) → blkWord (g.block a) 0 % 4 < g.info.tiles → blkWord (g.block a) 0 / 4 % 4 < g.info.tiles →
      s.roomFor g 0 1 = true → ∃ t : State, exec (.macc a) s = .next t ∧
        s.issuesCmd t g (.macc (blkWord (g.block a) 0 % 4) (blkWord (g.block a) 0 / 4 % 4) ((blkWord (g.block a) 0).testBit 4)
          ((blkWord (g.block a) 0).testBit 5)) .none 4096 0 ∧
        ∀ c ∈ t.units.cmds, c.id = s.nextId → (∀ c ∈ s.units.cmds, c.id ≠ s.nextId) → c.batch = some g.openBatch) ∧
    (¬ maccLegal (g.block a) → exec (.macc a) s = .next (s.scalarTrap g 0x01 0)) ∧
    (maccLegal (g.block a) → (g.info.tiles ≤ blkWord (g.block a) 0 % 4 ∨ g.info.tiles ≤ blkWord (g.block a) 0 / 4 % 4) →
      exec (.macc a) s = .next (s.scalarTrap g 0x02 0)) := by
  have hd : bits (blkWord (g.block a) 0) 0 2 = blkWord (g.block a) 0 % 4 := by simp [bits]
  have he : bits (blkWord (g.block a) 0) 2 2 = blkWord (g.block a) 0 / 4 % 4 := by simp [bits]
  rw [exec_macc h, hd, he, bit_eq_testBit, bit_eq_testBit, ← bit_eq_testBit _ 5, ← bit_eq_testBit _ 4]
  refine ⟨fun hl htd hte hroom => ?_, fun hn => ?_, fun hl ht => ?_⟩
  · rw [need_of_true _ ((maccCheck_iff g a).mpr hl), need_of_true _ (by simp [htd, hte])]
    exact engineIssue_issuesCmd _ 1 rfl hroom rfl rfl rfl rfl rfl
  · rw [need_of_false _ (Bool.eq_false_iff.mpr fun hall => hn ((maccCheck_iff g a).mp hall))]
    exact engineIssue_trap _ _ _ rfl (by decide)
  · rw [need_of_true _ ((maccCheck_iff g a).mpr hl), need_of_false]
    · exact engineIssue_trap _ _ _ rfl (by decide)
    · rw [Bool.eq_false_iff, Ne, Bool.and_eq_true, decide_eq_true_eq, decide_eq_true_eq]
      omega

/-- MMAC traps for an illegal field and for a tile that the group has not. -/
theorem mmac_traps {s : State} {g : Group} {a code : Nat} (h : s.engineReady [] a = some g)
    (hf : mmacFieldCheck g (g.block a) = some code) (hc : code ≠ stallCode) :
    exec (.mmac a) s = .next ((s.mmacChecks g (g.block a)).1.scalarTrap g code 0) := by
  obtain ⟨l, hl⟩ := mmacChecks_shape s g (g.block a)
  rw [exec_mmac h, hl]
  exact engineIssue_trap _ _ _ (by simp [firstOf, hf]) hc

/-- CPYM traps at the first step of the two blocks that fails. -/
theorem cpym_traps {s : State} {g : Group} {a gran m code : Nat} (h : s.engineReady (regSpan m 8) a = some g)
    (hcode : code ≠ stallCode)
    (hf : firstOf (((s.copyChecks g (g.block a) .none gran).2.1.zip
      ((s.copyChecks g (g.block a) .none gran).1.mmacChecks g (g.block m)).2.1).flatMap fun (x, y) => [x, y]) = some code) :
    exec (.cpym a gran m) s =
      .next (((s.copyChecks g (g.block a) .none gran).1.mmacChecks g (g.block m)).1.scalarTrap g code 0) := by
  obtain ⟨⟨s', ck, c⟩, hc⟩ : ∃ x, s.copyChecks g (g.block a) .none gran = x := ⟨_, rfl⟩
  rw [hc] at hf ⊢
  obtain ⟨⟨s'', mk, f⟩, hm⟩ : ∃ x, s'.mmacChecks g (g.block m) = x := ⟨_, rfl⟩
  simp only [hm] at hf ⊢
  rw [exec_cpym h hc hm, hf]
  simp only [if_neg hcode]

/-- CPYM with two blocks that pass their checks issues the copy and its follow-on. -/
theorem cpym_issues {s s' s'' : State} {g : Group} {a gran m : Nat} {ck mk : List (Option Nat)} {c f : Cmd}
    (h : s.engineReady (regSpan m 8) a = some g) (hc : s.copyChecks g (g.block a) .none gran = (s', ck, c))
    (hm : s'.mmacChecks g (g.block m) = (s'', mk, f)) (hnone : ∀ x ∈ ck ++ mk, x = none) (hroom : s''.roomFor g 2 1 = true) :
    exec (.cpym a gran m) s =
      .next (((s''.addCmd c).addCmd { f with id := (s''.addCmd c).nextId, waitsFor := some c.id }).setGroup (g.advance 2)) := by
  rw [exec_cpym h hc hm, firstOf_zip_eq_none hnone]
  simp only [hroom, Bool.not_true, Bool.false_eq_true, if_false]

/-- A group that is not the producer cannot issue a copy. -/
theorem exec_cpy_notProducer {s s0 : State} {g : Group} {a gran target : Nat} {cm : Compl} (h : s.engineReady [] a = some g)
    (hp : g.isProducer = false) (hy : yieldTarget s g cm = (s0, some target)) :
    exec (.cpy a cm gran) s = .next ((s0.readRecord g.engineAgent (blkAddr (g.block a) 0)).1.scalarTrap g 0x0A 0) := by
  change execCpy a cm gran s = _
  refine (engineInstr_ready _ h).trans ?_
  simp only [hy]
  exact engineIssue_trap _ _ _ (by simp [State.copyChecks, firstOf, need, hp]) (by decide)

/-- A group that is not the producer cannot issue a multicast. -/
theorem exec_mcast_notProducer {s s0 : State} {g : Group} {a gran target : Nat} {cm : Compl} (h : s.engineReady [] a = some g)
    (hp : g.isProducer = false) (hy : yieldTarget s g cm = (s0, some target)) :
    exec (.mcast a cm gran) s = .next ((s0.readRecord g.engineAgent (blkAddr (g.block a) 0)).1.scalarTrap g 0x0A 0) := by
  change execMcast a cm gran s = _
  refine (engineInstr_ready _ h).trans ?_
  simp only [hy]
  exact engineIssue_trap _ _ _ (by simp [firstOf, need, hp]) (by decide)

/-- Settles O29: each command is its checks, and then is in flight; the traps are those of the first checks. -/
theorem matrixCommandsIssue : Obligations.MatrixCommandsIssue := by
  unfold Obligations.MatrixCommandsIssue
  intro s g a m gran
  refine ⟨fun h => ⟨?_, ?_, ?_, ?_, ?_, ?_, ?_, ?_⟩, ?_, fun h => ⟨?_, ?_, ?_⟩, ?_⟩
  · intro s' ck c hc hnone hroom
    have hcmd := mmacChecks_cmd s g (g.block a)
    rw [exec_mmac h]
    rw [hc] at hcmd ⊢
    obtain ⟨hcards, hbatch⟩ := hcmd
    exact ⟨engineIssue_ok .none c 1 (firstOf_eq_none hnone) (by rw [hcards]; exact hroom), hbatch⟩
  · exact (mzro_spec h).1
  · exact (mzro_spec h).2.1
  · exact (mzro_spec h).2.2
  · exact fun hw h54 hz => (macc_spec h).1 ⟨hw, h54, hz⟩
  · exact (macc_spec h).2
  · exact fun hn => mmac_traps h (mmacFieldCheck_illegal hn) (by decide)
  · exact fun hf ht => mmac_traps h (mmacFieldCheck_tile hf ht) (by decide)
  · intro h s' s'' ck mk c f hc hm hnone hroom
    refine ⟨cpym_issues h hc hm hnone hroom, ?_, ?_⟩
    · rw [← show (s.copyChecks g (g.block a) .none gran).2.2 = c by rw [hc]]
      rfl
    · rw [← show (s'.mmacChecks g (g.block m)).2.2 = f by rw [hm]]
      rfl
  · exact fun hp => cpym_traps h (by decide)
      ((firstOf_zip_fields (copyChecks_shape s g _ .none gran) (mmacChecks_shape _ g (g.block m))).1 hp)
  · exact fun hp hn => cpym_traps h (by decide)
      ((firstOf_zip_fields (copyChecks_shape s g _ .none gran) (mmacChecks_shape _ g (g.block m))).2 hp _ (mmacFieldCheck_illegal hn))
  · exact fun hp hf ht => cpym_traps h (by decide)
      ((firstOf_zip_fields (copyChecks_shape s g _ .none gran) (mmacChecks_shape _ g (g.block m))).2 hp _ (mmacFieldCheck_tile hf ht))
  · intro hp h cm s0 target hy i hi
    rcases List.mem_cons.mp hi with rfl | hi
    · exact exec_cpy_notProducer h hp hy
    · rw [List.mem_singleton.mp hi]
      exact exec_mcast_notProducer h hp hy

end Sys2Proof.Machine
end

section
/-! PROOFS. Matrix batches (R295 to R297). -/
namespace Sys2Proof.Machine

/-- A wait for batches that no pending fault stops: it goes on once its batch is done. -/
theorem matrixWait_eq {s : State} {regs : List Nat} {g : Group} (n : Group → Nat) (h : s.scalarReady regs = some g)
    (hasync : g.async = none ∨ g.trap ≠ none) (hwait : ∀ k, g.wait ≠ some (.num k)) :
    matrixWait s regs n = if g.batchDone (g.waitBatch (n g)) then .next (s.scalarDone g 2)
      else .next (s.setGroup { g with wait := some (.num (g.waitBatch (n g))) }) := by
  refine (scalarInstr_ready _ h).trans ?_
  rw [takeAsync_none hasync]
  split
  · next k hk => exact absurd hk (hwait k)
  · rfl

/-- A wait names `%batch` for a number that is not closed. -/
theorem waitBatch_eq (g : Group) (n : Nat) :
    g.waitBatch n = if 1 ≤ (n + 65536 - g.batch % 65536) % 65536 ∧ (n + 65536 - g.batch % 65536) % 65536 ≤ 32767 then
      g.batch % 65536 else n := by
  simp only [Group.waitBatch, Bool.and_eq_true, decide_eq_true_eq]

/-- With every closed batch complete no batch is waited for. -/
theorem batchDone_of_le {g : Group} (h : g.batch ≤ g.doneBatch) (k : Nat) : g.batchDone k = true := by
  simp [Group.batchDone, Group.openWork, Nat.sub_eq_zero_of_le h]

/-- A closed batch that is not complete is among the open work. -/
theorem mem_openWork {g : Group} {n : Nat} (hlo : g.doneBatch < n) (hhi : n ≤ g.batch) : n % 65536 ∈ g.openWork := by
  refine List.mem_map.mpr ⟨n - g.doneBatch - 1, List.mem_range.mpr (by omega), ?_⟩
  rw [show g.doneBatch + 1 + (n - g.doneBatch - 1) = n by omega]

/-- Settles O30: the wait's number, and the closed batches that are not complete, which keep it waiting. -/
theorem matrixBatches : Obligations.MatrixBatches := by
  unfold Obligations.MatrixBatches
  intro s g
  refine ⟨fun d h => ?_, fun hasync hwait => ⟨fun n h => ?_, fun b h => ?_⟩, batchDone_of_le, fun n hlo hhi => ?_⟩
  · exact scalarInstr_ready _ h
  · change execMwait n s = _
    rw [← waitBatch_eq]
    exact matrixWait_eq _ h hasync hwait
  · change execMwaitR b s = _
    rw [← waitBatch_eq]
    exact matrixWait_eq _ h hasync hwait
  · refine Bool.eq_false_iff.mpr fun hall => ?_
    have hself := List.all_eq_true.mp hall _ (mem_openWork hlo hhi)
    rw [decide_eq_true_eq] at hself
    omega

end Sys2Proof.Machine
end

section
/-! SUPPORT. Synchronisations that have nothing to wait for, and the lookups of a yield-continuation (R129, R285, R364). -/
namespace Sys2Proof.Machine

/-- Whether accesses are acknowledged is a matter of the accesses in flight. -/
theorem State.acked_congr {s t : State} (h : t.mem.flight = s.mem.flight) (ids : List Nat) (sc : Scope) :
    t.acked ids sc = s.acked ids sc := by
  unfold State.acked State.acc? State.promStuck
  rw [h]

/-- A release that begins with everything acknowledged goes on at once (R129, R209). -/
theorem State.syncWith_released {s : State} {g : Group} {o : MOrd} {sc : Scope} (arg : Nat) (k : State → Group → Out)
    (hw : ∀ v as p d n, g.wait ≠ some (.sync v as p d n)) (ho : o = .rel) (h : s.acked (s.releaseIds g 0 sc) sc = true) :
    s.syncWith g o sc false arg k = k (s.setPromotion g o sc) g := by
  subst ho
  have hacked : (s.setPromotion g .rel sc).acked (s.releaseIds g 0 sc) sc = true := by
    rw [State.acked_congr (by rw [State.setPromotion_frame])]
    exact h
  unfold State.syncWith
  split
  · next v as p d n hg => exact absurd hg (hw v as p d n)
  · generalize s.setPromotion g .rel sc = u at hacked
    simp only [show ordAcq .rel = false from rfl, show ordRel .rel = true from rfl, if_true, Bool.false_eq_true, if_false,
      State.arrived, List.all_nil, hacked, Bool.and_self, Bool.and_false]
    rfl

/-- No release of the whole device or of a block sets the promotion-pending state. -/
theorem State.setPromotion_wide (s : State) (g : Group) (o : MOrd) {sc : Scope} (h : coreLevel sc = false) :
    s.setPromotion g o sc = s := by
  unfold State.setPromotion
  rw [h, Bool.and_false]
  rfl

/-- The section's length is a lookup. -/
theorem State.scalarLen_looksUp (s : State) (g : Group) : s.looksUp (s.scalarLen g).1 := by
  unfold State.scalarLen
  split
  · exact s.useRegs_looksUp _
  · exact .refl s

/-- The target of a continuation is found by a lookup. -/
theorem yieldTarget_looksUp {s s0 : State} {g : Group} {cm : Compl} {t : Option Nat} (h : yieldTarget s g cm = (s0, t)) :
    s.looksUp s0 := by
  unfold yieldTarget at h
  split at h
  · rw [← (Prod.mk.inj h).1]
    exact s.scalarLen_looksUp g
  · rw [← (Prod.mk.inj h).1]
    exact .refl s

/-- A partition's share of receives follows from the assignment of the quadrants. -/
theorem State.recvShare_congr {s t : State} (h : t.plat = s.plat) (cl p : Nat) : t.recvShare cl p = s.recvShare cl p := by
  unfold State.recvShare State.quadsAssigned State.quadsIn
  rw [h]

end Sys2Proof.Machine
end

section
/-! PROOFS. Messages and the record fence (R304 to R309). -/
namespace Sys2Proof.Machine

/-- A command that passes its checks and finds room is in flight as R284 and R285 say. -/
theorem engineIssue_issues {s : State} {g : Group} {cm : Compl} {t : Nat} {checks : List (Option Nat)} (c : Cmd) (n : Nat)
    (h : firstOf checks = none) (hroom : s.roomFor g c.cards n = true) (hid : c.id = s.nextId) (hcm : c.compl = cm)
    (hst : c.state = .queued) (hgrp : c.grp = g.gid) (hdone : c.done = []) :
    ∃ u : State, s.engineIssue g (some t) checks cm c n = .next u ∧ s.issuesCmd u g c.kind cm c.total t :=
  ⟨_, engineIssue_ok cm c n h hroom, c, rfl, hid, rfl, hcm, rfl, hst, hgrp, hdone⟩

/-- The fields of MSND are legal (R304). -/
def msndFields (b : List Word) : Bool :=
  decide (1 ≤ blkWord b 2) && decide (blkWord b 2 ≤ 4096) && decide (blkWord b 3 ≤ 71) && decide (blkWord b 4 < 65536) &&
    (b.drop 5).all (· == 0)

/-- MSND is its checks, and then issues. -/
theorem exec_msnd {s s0 : State} {g : Group} {d a target : Nat} {cm : Compl} (h : s.engineReady [d] a = some g)
    (hy : yieldTarget s g cm = (s0, some target)) :
    exec (.msnd d a cm) s = s0.engineIssue g (some target) [need (msndFields (g.block a)) 0x01, taskOk cm,
      need (s0.complInside [s0.teamOf g] g.place.part cm) 0x06] cm
      { g.command s.nextId (.send (blkAddr (g.block a) 0) (blkWord (g.block a) 2) (blkWord (g.block a) 3)
          (blkWord (g.block a) 4) d false) cm 0 (blkWord (g.block a) 2) with
        reads := denseRange false (blkAddr (g.block a) 0) (blkWord (g.block a) 2) } 0 := by
  change execMsnd d a cm s = _
  refine (engineInstr_ready _ h).trans ?_
  simp only [hy]
  rfl

/-- MSND with legal fields issues its command. -/
theorem msnd_issues {s s0 : State} {g : Group} {d a target : Nat} {cm : Compl} (h : s.engineReady [d] a = some g)
    (hy : yieldTarget s g cm = (s0, some target)) (htask : taskOk cm = none)
    (hin : s0.complInside [s0.teamOf g] g.place.part cm = true) (hroom : s0.roomFor g 1 0 = true)
    (hfields : msndFields (g.block a) = true) :
    ∃ t : State, exec (.msnd d a cm) s = .next t ∧ s0.issuesCmd t g (.send (blkAddr (g.block a) 0) (blkWord (g.block a) 2)
      (blkWord (g.block a) 3) (blkWord (g.block a) 4) d false) cm (blkWord (g.block a) 2) target := by
  rw [exec_msnd h hy, need_of_true _ hfields, htask, need_of_true _ hin]
  exact engineIssue_issues _ 0 rfl hroom (yieldTarget_looksUp hy).nextId.symm rfl rfl rfl rfl

/-- The registers of an operand block from the fifth on are zero. -/
theorem msndFields_of {g : Group} {a : Nat} (hlo : 1 ≤ blkWord (g.block a) 2) (hhi : blkWord (g.block a) 2 ≤ 4096)
    (hsrc : blkWord (g.block a) 3 ≤ 71) (htag : blkWord (g.block a) 4 < 65536)
    (hz : ∀ i ∈ [5, 6, 7], (g.block a).getD i 0 = 0) : msndFields (g.block a) = true := by
  have hdrop : (g.block a).drop 5 = [(g.block a).getD 5 0, (g.block a).getD 6 0, (g.block a).getD 7 0] := rfl
  unfold msndFields
  rw [hdrop, hz 5 (by decide), hz 6 (by decide), hz 7 (by decide)]
  simp [hlo, hhi, hsrc, htag]

/-- The source and tag of a receive are legal (R305). -/
theorem recvFields_of {b : List Word} (hsrc : blkWord b 3 ≤ 71 ∨ blkWord b 3 = 0x7F) (htag : blkWord b 4 < 65536) :
    recvFields b = true := by
  simp [recvFields, hsrc, htag]

/-- The command of MPST, with the message that it delivers at once, if there is one. -/
def Group.recvCommand (g : Group) (id a : Nat) (cm : Compl) (m : Option Msg) : Cmd :=
  { g.command id (.recv (blkAddr (g.block a) 0) (blkWord (g.block a) 2) (blkWord (g.block a) 3) (blkWord (g.block a) 4)
      (blkAddr (g.block a) 5) m) cm 0 ((m.map fun m => min m.len (blkWord (g.block a) 2) + 4).getD 0) with
    writes := denseRange false (blkAddr (g.block a) 0) (blkWord (g.block a) 2) }

/-- The receive that MPST posts. -/
def Group.posting (g : Group) (id a : Nat) : Posted :=
  { cluster := clusterOf g.place.core, cmd := id, ctx := g.place.ctx, part := g.place.part, src := blkWord (g.block a) 3,
    tag := blkWord (g.block a) 4 }

/-- The oldest overflow entry that a receive or a probe with the group's block matches. -/
def State.overflowHit (s : State) (g : Group) (a : Nat) : Option Overflow :=
  (s.overflowOf (clusterOf g.place.core) g.place.ctx).find? fun o =>
    msgMatches (blkWord (g.block a) 3) (blkWord (g.block a) 4) o.msg

/-- MPST whose checks pass and that finds room delivers the oldest matching message, posts its receive, or is refused. -/
theorem exec_mpst {s s0 : State} {g : Group} {d a target : Nat} {cm : Compl} (h : s.engineReady [d] a = some g)
    (hy : yieldTarget s g cm = (s0, some target)) (htask : taskOk cm = none)
    (hin : s0.complInside [s0.teamOf g] g.place.part cm = true) (hroom : s0.roomFor g 1 0 = true)
    (hlo : 1 ≤ blkWord (g.block a) 2) (hhi : blkWord (g.block a) 2 ≤ 4096) (hrecv : recvFields (g.block a) = true)
    (hz : (g.block a).getD 7 0 = 0) (hal : blkAddr (g.block a) 5 % 16 = 0) :
    exec (.mpst d a cm) s = match s0.overflowHit g a with
      | some o => .next (((s0.modUnits fun u => { u with overflow := u.overflow.erase o }).addCmd
          (g.recvCommand s0.nextId a cm (some { o.msg with fromQ := true }))).setGroup
            ((g.setS d 1).issued cm s0.nextId target))
      | none =>
        if (s0.units.posted.filter fun r => r.cluster == clusterOf g.place.core && r.part == g.place.part).length ≥
            s0.recvShare (clusterOf g.place.core) g.place.part then
          .next (s0.setGroup ((g.setS d 0x80000001).advance 2))
        else .next (((s0.modUnits fun u => { u with posted := u.posted ++ [g.posting s0.nextId a] }).addCmd (g.recvCommand s0.nextId a cm none)).setGroup
              ((g.setS d 0).issued cm s0.nextId target)) := by
  have hz7 : blkWord (g.block a) 7 = 0 := by rw [blkWord, hz]; rfl
  change execMpst d a cm s = _
  refine (engineInstr_ready _ h).trans ?_
  simp only [hy]
  rw [need_of_true (ok := (some target).isSome) _ rfl, need_of_true _ (by simp [hlo, hhi, hrecv, hz7]), htask, need_of_true _ (by simp [hal]),
    need_of_true _ hin]
  refine (if_neg (by rw [hroom]; decide)).trans ?_
  rfl

/-- MPRB with legal fields reads the length of the oldest matching message. -/
theorem exec_mprb {s : State} {g : Group} {d a : Nat} (h : s.engineReady [d] a = some g) (hrecv : recvFields (g.block a) = true)
    (hz : ∀ i ∈ [0, 1, 2, 5, 6, 7], (g.block a).getD i 0 = 0) :
    exec (.mprb d a) s = .next (s.scalarDone (g.setS d (match s.overflowHit g a with
      | some o => BitVec.ofNat 32 o.msg.len
      | none => 0xFFFFFFFF)) 2) := by
  change execMprb d a s = _
  refine (engineInstr_ready _ h).trans ((if_pos ?_).trans rfl)
  rw [hrecv, Bool.true_and, List.all_eq_true]
  intro i hi
  rw [blkWord, hz i hi]
  rfl

/-- RCFNC whose release has nothing to wait for takes the context's records out of the caches of the block's clusters. -/
theorem exec_rcfnc {s : State} {g : Group} (h : s.scalarReady [] = some g) (hw : g.wait = none)
    (hacked : s.acked (s.releaseIds g 0 .block) .block = true) :
    exec .rcfnc s = .next ((s.modUnits fun u => { u with recs := u.recs.filter fun e => !(e.ctx == g.place.ctx &&
      ((s.units.teams.filter fun t => t.launch == g.place.launch && t.blk == g.place.blk).map fun t => clusterOf t.core).contains
        e.cluster) }).scalarDone g 2) := by
  change execRcfnc s = _
  refine (scalarInstr_ready _ h).trans ((State.syncWith_released 0 _ (by simp [hw]) rfl hacked).trans ?_)
  rw [State.setPromotion_wide s g .rel rfl]
  rfl

/-- Settles O31: each instruction is its checks, then what it does; a continuation's target is found by a lookup, which changes
neither the units nor the shares. -/
theorem messagesAndRecords : Obligations.MessagesAndRecords := by
  unfold Obligations.MessagesAndRecords
  intro s s0 g d a target cm
  refine ⟨fun h hy htask hin hlo hhi htag hroom => ⟨fun hsrc hz => msnd_issues h hy htask hin hroom
    (msndFields_of hlo hhi hsrc htag hz), fun hsrc hz hal => ?_⟩, fun h hsrc htag hz => exec_mprb h (recvFields_of hsrc htag) hz,
    fun h hw hacked => ⟨_, exec_rcfnc h hw hacked, rfl, ?_⟩⟩
  · have hlook := yieldTarget_looksUp hy
    have hhit : s0.overflowHit g a = s.overflowHit g a := by
      unfold State.overflowHit State.overflowOf
      rw [hlook.units]
    have hexec := exec_mpst h hy htask hin hroom hlo hhi (recvFields_of hsrc htag) hz hal
    rw [hhit] at hexec
    refine ⟨fun o ho => ?_, fun hnone hroomFor => ?_, fun hnone hfull => ?_⟩
    · rw [show s.overflowHit g a = some o from ho] at hexec
      exact ⟨_, hexec, g.recvCommand s0.nextId a cm (some { o.msg with fromQ := true }), rfl, rfl, rfl, rfl, rfl, rfl, rfl, rfl⟩
    · rw [show s.overflowHit g a = none from hnone] at hexec
      simp only [hlook.units, State.recvShare_congr hlook.plat] at hexec
      rw [if_neg (by omega)] at hexec
      refine ⟨_, hexec, g.recvCommand s0.nextId a cm none, ?_, rfl, rfl, rfl, rfl, rfl, rfl, rfl⟩
      rw [hlook.nextId]
      rfl
    · rw [show s.overflowHit g a = none from hnone] at hexec
      simp only [hlook.units, State.recvShare_congr hlook.plat] at hexec
      rw [if_pos (by omega)] at hexec
      exact hexec
  · simp only [State.modUnits, List.contains_eq_any_beq, List.any_map, List.any_filter, Function.comp_def,
      Bool.beq_comm (a := clusterOf _)]

end Sys2Proof.Machine
end

section
/-! PROOFS. Faults of engines that are taken at waits (R285, R286). -/
namespace Sys2Proof.Machine

/-- A group that can enter a handler is in none. -/
theorem handlerReady_trap {s s' : State} {g : Group} (h : s.handlerReady g = some s') : g.inHandler = false := by
  unfold State.handlerReady at h
  split at h
  · cases h
  · next hin => exact Bool.eq_false_iff.mpr hin

/-- A pending fault is taken instead of what would follow. -/
theorem takeAsync_taken {s s' : State} {g : Group} {f : AsyncFault} (hf : g.async = some f) (h : s.handlerReady g = some s')
    (spc : Nat) (k : Out) : takeAsync s g spc k =
      .next (s'.setGroup ({ g with async := none }.enterHandler { g.scalarReq f.cause f.subcode with spc := spc })) := by
  have hin := handlerReady_trap h
  unfold takeAsync
  rw [hf]
  dsimp only
  rw [hin, if_neg Bool.false_ne_true]
  exact congrArg Host.Outcome.next (takeTrap_ready _ ((handlerReady_congr s rfl rfl).trans h))

/-- Settles O32: a wait instruction takes the fault first, and so does a stream that its command's completion resumes. -/
theorem asyncFaultsAreTakenAtWaits : Obligations.AsyncFaultsAreTakenAtWaits := by
  unfold Obligations.AsyncFaultsAreTakenAtWaits
  intro s g f hf
  refine ⟨fun s' hs => ⟨fun h => ?_, fun h => ?_, fun n h => ?_, fun b h => ?_, fun d a off h => ?_, fun n h => ?_⟩,
    fun k target hready hwait hlive s' hs d a gran m cm i hi => ?_⟩
  · exact (scalarInstr_ready _ h).trans (takeAsync_taken hf hs _ _)
  · exact (scalarInstr_ready _ h).trans (takeAsync_taken hf hs _ _)
  · exact (scalarInstr_ready _ h).trans (takeAsync_taken hf hs _ _)
  · exact (scalarInstr_ready _ h).trans (takeAsync_taken hf hs _ _)
  · exact (scalarInstr_ready _ h).trans (takeAsync_taken hf hs _ _)
  · exact (scalarInstr_ready _ h).trans (takeAsync_taken hf hs _ _)
  · have hresume : ∀ regs b c, engineInstr s regs b c = s.continueAt g target := by
      intro regs b c
      unfold engineInstr
      rw [scalarReady_turn hready]
      simp only [Option.bind_some, hwait]
      refine (scalarInstr_ready _ hready).trans (if_neg ?_)
      rw [hlive]
      exact Bool.false_ne_true
    have hasync : ({ g.acquires (s.acquireCore g.place.core g.place.part) with wait := none } : Group).async = some f := hf
    have hout := takeAsync_taken hasync hs target
      (.next ((s.acquireCore g.place.core g.place.part).setGroup
        (({ g.acquires (s.acquireCore g.place.core g.place.part) with wait := none } : Group).goTo target)))
    simp only [List.mem_cons, List.not_mem_nil, or_false] at hi
    rcases hi with rfl | rfl | rfl | rfl | rfl | rfl | rfl
    · change execCpy a cm gran s = _
      exact (hresume _ _ _).trans hout
    · change execMcast a cm gran s = _
      exact (hresume _ _ _).trans hout
    · change indexedCopy s a cm gran false = _
      exact (hresume _ _ _).trans hout
    · change indexedCopy s a cm gran true = _
      exact (hresume _ _ _).trans hout
    · change execCpym a gran m s = _
      exact (hresume _ _ _).trans hout
    · change execMsnd d a cm s = _
      exact (hresume _ _ _).trans hout
    · change execMpst d a cm s = _
      exact (hresume _ _ _).trans hout

end Sys2Proof.Machine
end

section
/-! PROOFS. Bundle instructions (R235, R364). -/
namespace Sys2Proof.Machine

/-- A group in its handler, whose block at s1 names bundle 0. -/
def enteringGroup : Group :=
  let g := probeGroup State.reset.nextId false
  let g := { g with regs := { g.regs with s := [(1, 1)] } }
  g.enterHandler (g.scalarReq 0x11 0)

/-- A declared bundle without lines. -/
def emptyBundle : Bundle :=
  { id := 0, ctx := 0, part := 0, state := .declared, lines := [], entries := 0, lastLeave := 0, left := false, freed := false }

/-- A state in which that group has the turn, with a declared bundle, and its context's handler registers have just been written:
an older value of them may still be used (R364). -/
def enteringState : State :=
  let s := State.reset.withFetchWord 64 0
  let r : CtxRegs := { (s.ctx 0).regs with valid := true, hlen := 8 }
  { s with
    turn := .scalar 0
    groups := [enteringGroup]
    units := { s.units with bundles := [emptyBundle] }
    plat := { s.plat with ctxs := tmod Ctx.reset s.plat.ctxs 0 fun c => { c with regs := r, oldRegs := [r] } } }

/-- A register of the context with one older value, in which both have the same handler length. -/
theorem scalarLen_oneOld {s : State} {g : Group} {old : CtxRegs} {n : Nat} (hin : g.inHandler = true)
    (hold : (s.ctx g.place.ctx).oldRegs = [old]) (hnew : (s.ctx g.place.ctx).regs.hlen = n) (hlen : old.hlen = n) :
    s.scalarLen g = (s.drawn, n) := by
  unfold State.scalarLen State.useRegs
  rw [hin, if_pos rfl]
  dsimp only
  rw [hold]
  rcases Nat.mod_two_eq_zero_or_one s.freeNat with hbit | hbit
  · simp [hbit, hnew]
  · simp [hbit, hlen]

/-- The request of a BENTER. -/
def State.bundleReq (s : State) (g : Group) (a : Nat) : BReq :=
  { grp := g.gid, part := g.place.part, ids := blockIds (g.block a), prio := (s.ctx g.place.ctx).prio, age := s.ns,
    handled := false, admitted := false, handler := g.inHandler }

/-- A BENTER.yield that passes its checks queues its request in the state in which its section's length has been used. -/
theorem exec_benterYield_queues {s : State} {g : Group} {a : Nat} {off : Int} (h : s.scalarReady (regSpan a 8) = some g)
    (hw : g.wait = none) (hlo : 0 ≤ (g.spc : Int) + off) (hhi : (g.spc : Int) + off < (s.scalarLen g).2)
    (hok : blockOk (g.block a) = true) (hfault : (s.scalarLen g).1.enterFault g (blockIds (g.block a)) = none) :
    ∃ t : State, exec (.benterYield a off) s = .next t ∧ t.draws = (s.scalarLen g).1.draws := by
  have hstrays : s.strays g (some off) = ((s.scalarLen g).1, false) := by
    have hout : (decide ((g.spc : Int) + off < 0) || decide ((g.spc : Int) + off ≥ ((s.scalarLen g).2 : Int))) = false := by
      rw [Bool.or_eq_false_iff, decide_eq_false_iff_not, decide_eq_false_iff_not]
      omega
    unfold State.strays
    simp only [hout]
  have hexec : exec (.benterYield a off) s = .next (((s.scalarLen g).1.modPart g.place.part fun p => { p with
      reqs := p.reqs ++ [(s.scalarLen g).1.bundleReq g a] }).setGroup { g with wait := some .bundle }) := by
    change enterBundles s a (some off) = _
    refine (scalarInstr_ready _ h).trans ?_
    simp only [hw, hstrays]
    refine (if_neg (by rw [show blockOk ((List.range 8).map fun i => g.getS (a + i)) = true from hok]; decide)).trans ?_
    change (match (s.scalarLen g).1.enterFault g (blockIds (g.block a)) with | some subc => _ | none => _) = _
    rw [hfault]
    rfl
  exact ⟨_, hexec, rfl⟩

/-- Refutes O33: a BENTER.yield in a handler whose registers have an older value makes the choice of R364 to find the section's
length, which the state that the statement gives has not made. -/
theorem not_bundleInstructions : ¬ Obligations.BundleInstructions := by
  unfold Obligations.BundleInstructions
  intro h
  obtain ⟨-, -, -, -, -, henter, -⟩ := h enteringState enteringGroup
  have hready : enteringState.scalarReady (regSpan 1 8) = some enteringGroup := by decide +kernel
  have hlen : enteringState.scalarLen enteringGroup = (enteringState.drawn, 8) :=
    scalarLen_oneOld (old := (enteringState.ctx 0).regs) (by decide +kernel) (by decide +kernel) (by decide +kernel)
      (by decide +kernel)
  have hok : blockOk (enteringGroup.block 1) = true := by decide +kernel
  have hfault : enteringState.enterFault enteringGroup (blockIds (enteringGroup.block 1)) = none := by decide +kernel
  have hout := ((henter 1 0 8 hready (congrArg Prod.snd hlen)).1 rfl hok hfault).2 (by decide +kernel) (by decide +kernel)
  obtain ⟨t, ht, hdraws⟩ := exec_benterYield_queues (off := 0) hready rfl (by decide +kernel)
    (by rw [hlen]; decide +kernel) hok (by rw [hlen]; decide +kernel)
  rw [hout] at ht
  rw [hlen, ← Host.Outcome.next.inj ht] at hdraws
  exact absurd hdraws (Nat.ne_of_lt (Nat.lt_succ_self _))

end Sys2Proof.Machine
end

section
/-! PROOFS. Barriers (R320 to R326). -/
namespace Sys2Proof.Machine

/-- What opening a barrier leaves of it: its number and its team stay, and who had arrived has arrived still or is leaving. -/
theorem State.openBarrier_frame (s : State) (k : Barrier) {i : Nat} (h : i ∈ k.arrived) :
    (s.openBarrier k).launch = k.launch ∧ (s.openBarrier k).blk = k.blk ∧ (s.openBarrier k).n = k.n ∧
      (s.openBarrier k).team = k.team ∧ (i ∈ (s.openBarrier k).arrived ∨ i ∈ (s.openBarrier k).leaving) := by
  unfold State.openBarrier
  dsimp only
  split
  · exact ⟨rfl, rfl, rfl, rfl, .inr (List.mem_append_right _ h)⟩
  · exact ⟨rfl, rfl, rfl, rfl, .inl h⟩

/-- A group that arrives has arrived. -/
theorem Barrier.mem_arrive (k : Barrier) (i : Nat) : i ∈ (k.arrive i).arrived := by
  unfold Barrier.arrive
  dsimp only
  split
  · next h => exact List.contains_iff_mem.mp h
  · exact List.mem_append_right _ (List.mem_singleton.mpr rfl)

/-- The record of a barrier at which the group is the first to arrive. -/
def Group.newBarrier (g : Group) (block : Bool) (n : Nat) : Barrier :=
  { launch := g.place.launch, blk := g.place.blk, team := if block then none else some g.place.team, n := n
    arrived := [g.gid], leaving := [] }

/-- After an arrival the barrier records it. -/
theorem State.arriveAt_barrier (s : State) (g : Group) (block : Bool) (n : Nat) :
    ∃ k ∈ (s.arriveAt g block n).units.barriers, k.launch = g.place.launch ∧ k.blk = g.place.blk ∧ k.n = n ∧
      k.team = (if block then none else some g.place.team) ∧ g.gid ∈ k.arrived := by
  by_cases h : s.units.barriers.any (·.isOf g block n) = true
  · obtain ⟨k, hk, hof⟩ := List.any_eq_true.mp h
    refine ⟨k.arrive g.gid, ?_, ?_⟩
    · rw [show (s.arriveAt g block n).units.barriers =
        s.units.barriers.map fun k => if k.isOf g block n then k.arrive g.gid else k from if_pos h]
      exact List.mem_map.mpr ⟨k, hk, if_pos hof⟩
    · simp only [Barrier.isOf, Bool.and_eq_true, beq_iff_eq] at hof
      obtain ⟨⟨⟨hl, hb⟩, hn⟩, ht⟩ := hof
      exact ⟨hl, hb, hn, ht, k.mem_arrive _⟩
  · refine ⟨g.newBarrier block n, ?_, rfl, rfl, rfl, rfl, List.mem_singleton.mpr rfl⟩
    rw [show (s.arriveAt g block n).units.barriers = s.units.barriers ++ [g.newBarrier block n] from if_neg h]
    exact List.mem_append_right _ (List.mem_singleton.mpr rfl)

/-- A group that begins to wait at a barrier is recorded there (R320, R321). -/
theorem exec_bar_arrives {s : State} {g : Group} (h : s.scalarReady [] = some g) (hw : g.wait = none) (block : Bool) (n : Nat)
    (hacked : s.acked (s.releaseIds g 0 (if block then .block else .team)) (if block then .block else .team) = true) :
    exec (.bar block n) s = .next ((((s.setPromotion g .rel (if block then .block else .team)).arriveAt g block
      n).openBarriers).setGroup { g with wait := some (.barrier block n) }) := by
  change execBar block n s = _
  refine (scalarInstr_ready _ h).trans ?_
  rw [hw]
  exact State.syncWith_released 0 _ (by simp [hw]) rfl hacked

/-- A group that has been released goes on with an acquire. -/
theorem exec_bar_released {s : State} {g : Group} (h : s.scalarReady [] = some g) (hw : g.wait = some .released) (block : Bool)
    (n : Nat) (harr : s.arrived (s.valuesOf g.gid 0) = true) :
    exec (.bar block n) s = .next ((s.acquireCore g.place.core g.place.part).scalarDone (g.acquires s) 2) := by
  change execBar block n s = _
  refine (scalarInstr_ready _ h).trans ?_
  rw [hw]
  exact if_pos harr

/-- BARP is its checks, then sends its count (R325). -/
theorem exec_barp {s : State} {g : Group} {a : Nat} (off : Nat) (h : s.scalarReady [a] = some g) :
    exec (.barp a off) s = match s.barCheck g off (decide (1 ≤ (g.getS a).toNat) && decide ((g.getS a).toNat ≤ 2 ^ 30)) with
      | some code => .next (s.scalarTrap g code 0)
      | none => .next ((s.sendBar g off 2 (g.getS a).toNat).scalarDone g 2) := by
  change execBarp a off s = _
  exact scalarInstr_ready _ h

/-- BARA that has not begun is its checks, then its release. -/
theorem exec_bara {s : State} {g : Group} {a : Nat} (off : Nat) (h : s.scalarReady [a] = some g)
    (hw : g.wait = none ∨ g.wait = some .released) :
    exec (.bara a off) s = match s.barCheck g off (decide ((g.getS a).toNat ≤ 2 ^ 30)) with
      | some code => .next (s.scalarTrap g code 0)
      | none => s.syncWith g .rel .team false (g.getS a).toNat fun t h =>
          .next ((if (g.getS a).toNat = 0 then t else t.sendBar h off 1 (g.getS a).toNat).scalarDone h 2) := by
  have hbegun : g.begun = false := by
    unfold Group.begun
    rcases hw with hw | hw <;> rw [hw]
  have hop : g.operand (g.getS a).toNat = (g.getS a).toNat := by
    unfold Group.operand
    rcases hw with hw | hw <;> rw [hw]
  change execBara a off s = _
  refine (scalarInstr_ready _ h).trans ?_
  simp only [hbegun, hop, Bool.false_eq_true, if_false]
  rfl

/-- BARW that has not begun, with a legal barrier, and no fault to take. -/
theorem exec_barw {s : State} {g : Group} {d a : Nat} (off : Nat) {w : Nat} {tm : Team} (h : s.scalarReady [d, a] = some g)
    (ha : g.async = none ∨ g.trap ≠ none) (hw : g.wait = none) (hcheck : s.barCheck g off true = none)
    (htm : s.teamOf g = some tm) (hword : s.teamWord tm g.place.part (off + 4) = some w) :
    exec (.barw d a off) s =
      if phaseDone (w % 65536) ((g.getS a).toNat % 65536) && !(s.teamScratch tm g.place.part (off + 4)).any s.bankStalls then
        .next ((s.acquireCore g.place.core g.place.part).scalarDone ((g.acquires s).setS d (BitVec.ofNat 32 w)) 2)
      else .next (s.setGroup { g with wait := some (.num ((g.getS a).toNat % 65536)) }) := by
  have hbegun : g.begun = false := by
    unfold Group.begun
    rw [hw]
  change execBarw d a off s = _
  refine (scalarInstr_ready _ h).trans ((takeAsync_none ha _ _).trans ?_)
  simp only [hbegun, Bool.false_eq_true, if_false, hcheck, hw, htm, Option.bind_some, hword, Option.getD_some]
  rfl

theorem barCheck_misplaced {s : State} {g : Group} {off : Nat} (ok : Bool) (h : off % 16 ≠ 0) :
    s.barCheck g off ok = some 0x01 := by
  simp [State.barCheck, h]

theorem barCheck_outside {s : State} {g : Group} {off : Nat} (ok : Bool) (h : off % 16 = 0)
    (hin : s.barInside (s.teamOf g) g.place.part off = false) : s.barCheck g off ok = some 0x06 := by
  simp [State.barCheck, h, hin]

theorem barCheck_inside {s : State} {g : Group} {off : Nat} (ok : Bool) (h : off % 16 = 0)
    (hin : s.barInside (s.teamOf g) g.place.part off = true) : s.barCheck g off ok = if ok then none else some 0x01 := by
  cases ok <;> simp [State.barCheck, h, hin]

/-- Settles O34: arrivals are recorded before a barrier opens; counts and phases are checked before anything is sent. -/
theorem barrierInstructions : Obligations.BarrierInstructions := by
  unfold Obligations.BarrierInstructions
  intro s g hwait
  refine ⟨fun h block n => ⟨fun hw hacked => ?_, fun hw harr => exec_bar_released h hw block n harr⟩, fun a off h hoff => ⟨?_, ?_⟩,
    fun a off h hw hoff hin => ⟨fun hlo hhi => ?_, fun hbad => ?_, fun hbig => ?_, fun hhi hacked => ?_⟩,
    fun a off h hoff hout => ⟨?_, ?_⟩, fun d a off w tm h ha hw hoff hin htm hword => ⟨fun hlo hhi hst => ?_, fun hno => ?_⟩⟩
  · refine ⟨_, exec_bar_arrives h hw block n hacked, ?_, ?_⟩
    · rw [State.setPromotion_frame]
      rfl
    · obtain ⟨k, hk, hl, hb, hn, ht, harr⟩ := (s.setPromotion g .rel (if block then .block else .team)).arriveAt_barrier g block n
      obtain ⟨hl', hb', hn', ht', hmem⟩ := State.openBarrier_frame
        ((s.setPromotion g .rel (if block then .block else .team)).arriveAt g block n) k harr
      exact ⟨_, List.mem_map.mpr ⟨k, hk, rfl⟩, hl'.trans hl, hb'.trans hb, hn'.trans hn, ht'.trans ht, hmem⟩
  · rw [exec_barp off h, barCheck_misplaced _ hoff]
  · rw [exec_bara off h hwait, barCheck_misplaced _ hoff]
  · rw [exec_barp off h, barCheck_inside _ hoff hin, if_pos (by rw [decide_eq_true hlo, decide_eq_true hhi]; rfl)]
  · rw [exec_barp off h, barCheck_inside _ hoff hin, if_neg (by simp; omega)]
  · rw [exec_bara off h hwait, barCheck_inside _ hoff hin, if_neg (by simp; omega)]
  · have hexec := exec_bara off h hwait
    rw [barCheck_inside _ hoff hin, if_pos (decide_eq_true hhi)] at hexec
    refine ⟨_, hexec.trans (State.syncWith_released _ _ (by simp [hw]) rfl hacked), ?_, ?_⟩
    · rw [State.setPromotion_frame]
      split <;> rfl
    · rw [State.setPromotion_frame]
      split <;> rfl
  · rw [exec_barp off h, barCheck_outside _ hoff hout]
  · rw [exec_bara off h hwait, barCheck_outside _ hoff hout]
  · rw [exec_barw off h ha hw (by rw [barCheck_inside _ hoff hin]; rfl) htm hword, if_pos]
    have hmod : (w % 65536 + 65536 - (g.getS a).toNat % 65536 % 65536) % 65536 =
        (w % 65536 + 65536 - (g.getS a).toNat % 65536) % 65536 := by rw [Nat.mod_mod]
    rw [phaseDone, hmod, hst, decide_eq_true hlo, decide_eq_true hhi]
    rfl
  · rw [exec_barw off h ha hw (by rw [barCheck_inside _ hoff hin]; rfl) htm hword, if_neg]
    simp only [phaseDone, Nat.mod_mod, Bool.and_eq_true, decide_eq_true_eq, Bool.not_eq_true', not_and, and_imp]
    intro hlo hhi hst
    rcases hno with h0 | hbig | hst'
    · omega
    · omega
    · rw [hst'] at hst
      cases hst

end Sys2Proof.Machine
end

section
/-! PROOFS. Events, timed waits, YIELD and PPT (R328, R336, R338, R353, R357). -/
namespace Sys2Proof.Machine

/-- EVSET whose release has nothing to wait for sends its set (R328). -/
theorem exec_evset {s : State} {g : Group} {n : Nat} (h : s.scalarReady [] = some g) (hn : n < 248) (hw : g.wait = none)
    (hacked : s.acked (s.releaseIds g 0 .dev) .dev = true) :
    exec (.evset n) s = .next ((s.raiseEvent (clusterOf g.place.core) g.place.ctx n).scalarDone g 1) := by
  change execEvset n s = _
  refine (scalarInstr_ready _ h).trans ((if_neg (by omega)).trans
    ((State.syncWith_released 0 _ (by simp [hw]) rfl hacked).trans ?_))
  rw [State.setPromotion_wide s g .rel rfl]
  rfl

/-- EVCLR sends its clear (R328). -/
theorem exec_evclr {s : State} {g : Group} (n : Nat) (h : s.scalarReady [] = some g) :
    exec (.evclr n) s = .next ((s.modCtx g.place.ctx fun c => { c with
      evOps := c.evOps ++ [{ src := clusterOf g.place.core, set := false, bit := n }] }).scalarDone g 1) := by
  change execEvclr n s = _
  exact scalarInstr_ready _ h

/-- A change that is sent joins those under way, and the vector is as it was (R329). -/
theorem modCtx_evOps (s : State) (x : Nat) (o : EvOp) :
    ((s.modCtx x fun c => { c with evOps := c.evOps ++ [o] }).ctx x).evOps = (s.ctx x).evOps ++ [o] ∧
      ((s.modCtx x fun c => { c with evOps := c.evOps ++ [o] }).ctx x).ev = (s.ctx x).ev := by
  rw [State.ctx_modCtx, if_pos rfl]
  exact ⟨rfl, rfl⟩

/-- EVWAIT that takes no fault goes on once its bit is 1, or has been seen (R328). -/
theorem exec_evwait {s : State} {g : Group} (n : Nat) (h : s.scalarReady [] = some g) (ha : g.async = none ∨ g.trap ≠ none) :
    exec (.evwait n) s = if g.wait == some .seen || (s.eventVector g.place.ctx).getLsbD n then
        .next ((s.acquireCore g.place.core g.place.part).scalarDone (g.acquires s) 1)
      else .next (s.setGroup { g with wait := some (.event n) }) := by
  change execEvwait n s = _
  exact (scalarInstr_ready _ h).trans (takeAsync_none ha _ _)

/-- YIELD goes on, but for a group that drains and is at rest (R336, R353). -/
theorem exec_yield {s : State} {g : Group} (h : s.scalarReady [] = some g) :
    exec .yield s = if s.preempted g 0 && s.atRest g then .next s else .next (s.scalarDone { g with yielded := true } 1) := by
  change execYield s = _
  exact scalarInstr_ready _ h

/-- PPT names tiles that the group has (R357). -/
theorem exec_ppt {s : State} {g : Group} (n : Nat) (h : s.scalarReady [] = some g) :
    exec (.ppt n) s = if (tilesIn n).any fun t => decide (t ≥ g.info.tiles) then .next (s.scalarTrap g 0x02 0)
      else .next (s.scalarDone { g with liveTiles := n } 1) := by
  change execPpt n s = _
  exact scalarInstr_ready _ h

/-- Some tile of a mask is beyond the group's. -/
theorem tilesIn_any_ge (mask n : Nat) :
    ((tilesIn mask).any fun t => decide (t ≥ n)) = true ↔ ∃ t < 4, mask.testBit t = true ∧ n ≤ t := by
  simp only [tilesIn, bit_eq_testBit, List.any_eq_true, List.mem_filter, List.mem_range, decide_eq_true_eq, and_assoc, ge_iff_le]

/-- What a timed wait with a deadline does, by its group's wait (R338). -/
theorem timedWait_spec {s : State} {g : Group} {regs : List Nat} {deadline : Group → Nat} (h : s.scalarReady regs = some g) :
    (g.wait = none → s.ns < deadline g → timedWait s regs deadline = .next (s.setGroup { g with wait := some (.timed (deadline g)) })) ∧
    (g.wait = none → deadline g ≤ s.ns → timedWait s regs deadline =
      .next (s.scalarDone { g with due := some (s.lateBy g.place.core s.ns) } 1)) ∧
    ∀ t, g.wait = some (.expired t) → timedWait s regs deadline =
      .next (s.scalarDone { g with due := some (s.lateBy g.place.core t) } 1) := by
  refine ⟨fun hw hlt => ?_, fun hw hle => ?_, fun t hw => ?_⟩
  · refine (scalarInstr_ready _ h).trans ?_
    rw [hw]
    exact if_neg (by omega)
  · refine (scalarInstr_ready _ h).trans ?_
    rw [hw]
    exact if_pos hle
  · refine (scalarInstr_ready _ h).trans ?_
    rw [hw]
    rfl

/-- The deadline of WAITNS is a pair of registers, low word first. -/
theorem toNat_getS64 (g : Group) (a : Nat) : (g.getS64 a).toNat = (g.getS a).toNat + 2 ^ 32 * (g.getS (a + 1)).toNat := by
  have hlt := (g.getS a).isLt
  rw [Group.getS64, BitVec.toNat_append, Nat.shiftLeft_eq, Nat.mul_comm, ← Nat.two_pow_add_eq_or_of_lt hlt]
  exact Nat.add_comm _ _

/-- Settles O35: each instruction by the test that it makes. -/
theorem eventsAndWaits : Obligations.EventsAndWaits := by
  unfold Obligations.EventsAndWaits
  intro s g
  refine ⟨fun h n => ⟨fun hn hw hacked => ?_, ?_, fun ha => ⟨fun hseen => ?_, fun hclear hseen => ?_⟩, fun hgo => ?_, fun hp hr => ?_,
    fun hall => ?_, fun hex => ?_⟩, fun a deadline i hi => ?_⟩
  · exact ⟨_, exec_evset h hn hw hacked, rfl, rfl, modCtx_evOps ..⟩
  · exact ⟨_, exec_evclr n h, rfl, rfl, modCtx_evOps ..⟩
  · rw [exec_evwait n h ha, if_pos]
    rcases hseen with hbit | hseen
    · rw [hbit, Bool.or_true]
    · rw [hseen]
      rfl
  · rw [exec_evwait n h ha, if_neg]
    rw [hclear, Bool.or_false, beq_iff_eq]
    exact hseen
  · rw [exec_yield h, if_neg]
    rw [Bool.and_eq_true, not_and, Bool.not_eq_true]
    intro hp
    rcases hgo with hno | hrest
    · rw [hno] at hp
      cases hp
    · exact hrest
  · rw [exec_yield h, if_pos (by rw [hp, hr]; rfl)]
  · rw [exec_ppt n h, if_neg]
    rw [tilesIn_any_ge]
    rintro ⟨t, ht, hbit, hge⟩
    exact absurd (hall t ht hbit) (by omega)
  · rw [exec_ppt n h, if_pos ((tilesIn_any_ge n _).mpr hex)]
  · rcases hi with ⟨rfl, rfl, h⟩ | ⟨rfl, rfl, h⟩
    · exact timedWait_spec (deadline := fun g => s.ns + (g.getS a).toNat) h
    · rw [← toNat_getS64]
      exact timedWait_spec (deadline := fun g => (g.getS64 a).toNat) h

end Sys2Proof.Machine
end

section
/-! PROOFS. Launches, tasks and jobs (R224, R334, R335). -/
namespace Sys2Proof.Machine

/-- The state of the long line, with a job control block at 0x1000 that expects two completions. -/
def longLineJobState : State :=
  { longLineState with mem := { longLineState.mem with hbm := longLineState.mem.hbm.write 0x1000 (leBytes 4 2) } }

/-- The check of a JDONE there. -/
def longLineJobCheck : State × Chk :=
  longLineJobState.check longLineGroup.agent (.atomic true) (scalarEa longLineGroup 1 0) 64

/-- The check passes, and names the block. -/
theorem longLineJobCheck_eq : longLineJobState.check longLineGroup.agent (.atomic true) (scalarEa longLineGroup 1 0) 64 =
    (longLineJobCheck.1, .ok (.hbm 0x1000)) := by
  have hok : longLineJobCheck.2 = .ok (.hbm 0x1000) := by decide +kernel
  rw [← hok]
  rfl

/-- The completion writes the long line back. -/
theorem longLineJobState_jdone : hbmAfter (exec (.jdone 1 0) longLineJobState) 768 = some 7 := by decide +kernel

/-- Memory that changes a byte outside the written ones, to which no write of an MX window and no stale line belongs, does not
settle as R224 says. -/
theorem not_sameSettledOutside_of_hbmAfter {s t : State} {o : Out} {pa n q : Nat} {b : Byte} (ho : o = .next t)
    (hout : (Loc.hbm q).outside (.hbm pa) n = true) (ha : s.aliasPends (.hbm q) = false) (hl : s.lineStale (.hbm q) = false)
    (ht : hbmAfter o q = some b) (hs : s.mem.hbm.get q ≠ b) : ¬ s.sameSettledOutside t (.hbm pa) n := by
  intro h
  subst ho
  have hbyte := List.head_eq_of_cons_eq (h (.hbm q) rfl hout ha hl)
  exact hs (hbyte.symm.trans (Option.some.inj ht))

/-- Refutes O36: the write of a job control block by a class without ways makes the long line leave the L2, and the byte at
address 768, which is in no line that the L2 holds, changes from 0 to 7. -/
theorem not_launchesTasksAndJobs : ¬ Obligations.LaunchesTasksAndJobs := by
  unfold Obligations.LaunchesTasksAndJobs
  intro h
  have hready : longLineJobState.scalarReady [1, 2] = some longLineGroup := by decide +kernel
  have hacked : longLineJobState.acked (longLineJobState.releaseIds longLineGroup 0 .dev) .dev = true := by decide +kernel
  have hfill : longLineJobCheck.1.fillPending (.hbm 0x1000) = false := by decide +kernel
  have hvalid : (Job.ofBytes ((longLineJobCheck.1.finishWide (.hbm 0x1000)).locRead (.hbm 0x1000) 64)).valid = true := by
    decide +kernel
  have hfired : (Job.ofBytes ((longLineJobCheck.1.finishWide (.hbm 0x1000)).locRead (.hbm 0x1000) 64)).fired = false := by
    decide +kernel
  have hcount : (Job.ofBytes ((longLineJobCheck.1.finishWide (.hbm 0x1000)).locRead (.hbm 0x1000) 64)).count ≠
      (Job.ofBytes ((longLineJobCheck.1.finishWide (.hbm 0x1000)).locRead (.hbm 0x1000) 64)).expect := by decide +kernel
  obtain ⟨-, -, hjob⟩ := h longLineJobState longLineGroup rfl (by decide +kernel)
  obtain ⟨-, -, hdone⟩ := hjob 1 0 hready longLineJobCheck.1 0x1000 longLineJobCheck_eq
  obtain ⟨-, -, -, hfires⟩ := hdone List.not_mem_nil (by decide) hacked hfill
  obtain ⟨t, ht, -, hsame, -⟩ := hfires hvalid hfired hcount
  refine not_sameSettledOutside_of_hbmAfter (q := 768) ht rfl ?_ ?_ longLineJobState_jdone ?_ fun l => hsame l
  · decide +kernel
  · decide +kernel
  · decide +kernel

end Sys2Proof.Machine
end

section
/-! SUPPORT. Packed elements and exact integer results (R48, R49, R57, R150). -/
namespace Sys2Proof.Machine

theorem intWidth_pos (t : ITy) : 0 < t.width := by cases t <;> decide

/-- Element i of packed elements is the i-th. -/
theorem elemBits_packElems {w : Nat} (xs : List Nat) {i : Nat} (h : i < xs.length) :
    elemBits w (packElems w xs) i = BitVec.ofNat w xs[i] := by
  induction xs generalizing i with
  | nil => simp at h
  | cons x r ih =>
    have hpos : 0 < 2 ^ w := Nat.two_pow_pos w
    cases i with
    | zero =>
      apply BitVec.eq_of_toNat_eq
      simp [elemBits, packElems]
    | succ i =>
      have hdiv : packElems w (x :: r) / 2 ^ (w * (i + 1)) = packElems w r / 2 ^ (w * i) := by
        rw [show w * (i + 1) = w + w * i by ring, Nat.pow_add, ← Nat.div_div_eq_div_mul, packElems,
          Nat.add_mul_div_left _ _ hpos, Nat.div_eq_of_lt (Nat.mod_lt _ hpos), Nat.zero_add]
      rw [elemBits, hdiv]
      exact ih (by simpa using h)

/-- Element i of elements made for every place below n. -/
theorem elemBits_packElems_range {w n i : Nat} (f : Nat → Nat) (h : i < n) :
    elemBits w (packElems w ((List.range n).map f)) i = BitVec.ofNat w (f i) := by
  rw [elemBits_packElems _ (by simpa using h)]
  simp

/-- A field of a value's bits as an element. -/
theorem ofNat_bits (w v i : Nat) : BitVec.ofNat w (bits v (w * i) w) = elemBits w v i := by
  apply BitVec.eq_of_toNat_eq
  simp [bits, elemBits]

/-- The bits of an element. -/
theorem bits_eq_elemBits (w v i : Nat) : bits v (w * i) w = (elemBits w v i).toNat := by
  simp [bits, elemBits]

/-- A field of a value's bits as an integer. -/
theorem readInt_field (sg : Bool) {w : Nat} (hw : 0 < w) (v i : Nat) : readInt sg w (bits v (w * i) w) =
    if sg then (elemBits w v i).toInt else (elemBits w v i).toNat := by
  unfold readInt
  rw [toSigned_eq_toInt _ _ hw, ofNat_bits, bits_eq_elemBits, Nat.mod_eq_of_lt (elemBits w v i).isLt]

/-- An element as an integer. -/
theorem readInt_bits (t : ITy) (v i : Nat) : readInt t.signed t.width (bits v (t.width * i) t.width) = elemInt t v i :=
  readInt_field t.signed (intWidth_pos t) v i

/-- An integer modulo 2^w as a pattern. -/
theorem ofNat_wrapTo (w : Nat) (x : Int) : BitVec.ofNat w (wrapTo w x) = BitVec.ofInt w x := by
  apply BitVec.eq_of_toNat_eq
  have hpos : (0 : Int) < 2 ^ w := by positivity
  have hnn := Int.emod_nonneg x (ne_of_gt hpos)
  have hlt := Int.emod_lt_of_pos x hpos
  rw [BitVec.toNat_ofNat, BitVec.toNat_ofInt, wrapTo]
  push_cast
  refine Nat.mod_eq_of_lt ?_
  zify
  rw [Int.toNat_of_nonneg hnn]
  exact_mod_cast hlt

/-- A result is the exact value wrapped, or clamped to the type's range. -/
theorem ofNat_intFinish (t : ITy) (sat : Bool) (x : Int) :
    BitVec.ofNat t.width (intFinish sat t.signed t.width x).1 = intResult t sat x := by
  cases sat with
  | false => exact ofNat_wrapTo _ _
  | true => exact ofNat_wrapTo _ _

/-- A type's range is not empty. -/
theorem intMin_le_intMax (t : ITy) : intMin t.signed t.width ≤ intMax t.signed t.width := by cases t <;> decide

/-- IS is set exactly when a clamp changes the value. -/
theorem intFinish_flags (t : ITy) (sat : Bool) (x : Int) :
    (intFinish sat t.signed t.width x).2 = if sat && !inTypeRange t x then fIS else 0 := by
  cases sat with
  | false => rfl
  | true =>
    have hle := intMin_le_intMax t
    have hiff : (intClamp t.signed t.width x != x) = !inTypeRange t x := by
      rw [Bool.eq_iff_iff, bne_iff_ne, inTypeRange, intClamp, Bool.not_eq_true', Bool.and_eq_false_iff, decide_eq_false_iff_not,
        decide_eq_false_iff_not]
      omega
    unfold intFinish flagIf
    simp only [if_true, hiff, Bool.true_and]

/-- The OR of copies of one flag. -/
theorem orAll_ite (l : List Nat) (p : Nat → Bool) (f : Nat) : orAll (l.map fun i => if p i then f else 0) = if l.any p then f else 0 := by
  have hacc : ∀ acc, (acc = 0 ∨ acc = f) → (l.map fun i => if p i then f else 0).foldl (· ||| ·) acc = if l.any p then f else acc := by
    induction l with
    | nil => exact fun acc _ => rfl
    | cons x r ih =>
      intro acc hacc
      rw [List.map_cons, List.foldl_cons, List.any_cons]
      cases hp : p x with
      | true =>
        have hor : acc ||| f = f := by rcases hacc with rfl | rfl <;> simp
        simp only [if_true, Bool.true_or, hor]
        rw [ih f (.inr rfl)]
        split <;> rfl
      | false =>
        simp only [Bool.false_eq_true, if_false, Nat.or_zero, Bool.false_or]
        exact ih acc hacc
  exact hacc 0 (.inl rfl)

/-- What an exact function of three operands gives in every element, and its flags. -/
theorem intMap_spec (t : ITy) (sat nf : Bool) (f : Int → Int → Int → Int) (b c d : Nat) :
    (∀ i < elemCount t, elemBits t.width (intMap t sat f b c d).1 i =
      intResult t sat (f (elemInt t b i) (elemInt t c i) (elemInt t d i))) ∧
    nfFlags nf (intMap t sat f b c d).2 = if sat && !nf && (List.range (elemCount t)).any fun i =>
      !inTypeRange t (f (elemInt t b i) (elemInt t c i) (elemInt t d i)) then 32 else 0 := by
  constructor
  · intro i hi
    unfold intMap
    dsimp only
    rw [List.map_map]
    refine (elemBits_packElems_range _ hi).trans ?_
    simp only [Function.comp_apply, readInt_bits]
    exact ofNat_intFinish ..
  · unfold intMap
    dsimp only
    rw [List.map_map]
    simp only [Function.comp_def, readInt_bits, intFinish_flags, orAll_ite, nfFlags]
    cases nf <;> cases sat <;> simp [elemCount, fIS]

/-- What a function of patterns gives in every element. -/
theorem elemBits_bitMap (t : ITy) (f : Nat → Nat → Nat → Nat) (b c : Nat) {i : Nat} (hi : i < elemCount t) :
    elemBits t.width (bitMap t f b c) i =
      BitVec.ofNat t.width (f t.width (elemBits t.width b i).toNat (bits c (t.width * i) t.width)) := by
  rw [← bits_eq_elemBits]
  exact elemBits_packElems_range _ hi

end Sys2Proof.Machine
end

section
/-! SUPPORT. Lane instructions that write a value in every active lane (R39, R59). -/
namespace Sys2Proof.Machine

/-- An absent operand holds nothing up. -/
theorem laneReady_none {s : State} {rg sw : Bool} {h : Option Hdr} {dsts srcs : List (Opnd × Nat)} {c : Lane} (n : Nat)
    (hc : s.laneReady rg sw h dsts srcs = some c) : s.laneReady rg sw h dsts (srcs ++ [(.none, n)]) = some c := by
  rw [← hc]
  unfold State.laneReady
  congr 1
  funext k
  simp [Lane.mayGo, State.srcBusy, Group.allocated, handlerOnly]

/-- An instruction that goes on and writes a value and flags in every active lane. -/
theorem laneInstr_writes {s : State} {h : Hdr} {dsts srcs : List (Opnd × Nat)} {c : Lane} {i : Instr} {d : Opnd} {n : Nat}
    {f : Lane → Nat → Nat × Nat} {P : Nat → Nat → Nat → Prop} (hc : s.laneReady h.rg h.sw (some h) dsts srcs = some c)
    (hi : exec i s = laneInstr s h dsts srcs fun x => x.write d n (f x)) (hP : ∀ l ∈ lanesOf c.act, P l (f c l).1 (f c l).2) :
    c.writes s i d n P :=
  ⟨fun l => (f c l).1, fun l => (f c l).2, hP, fun hm => hi.trans ((laneInstr_ready _ hc).trans (Lane.write_eq c d n _ hm))⟩

/-- An instruction that goes on and writes a value in every active lane. -/
theorem laneInstr_puts {s : State} {h : Hdr} {dsts srcs : List (Opnd × Nat)} {c : Lane} {i : Instr} {d : Opnd} {n : Nat}
    {f : Lane → Nat → Nat} {P : Nat → Nat → Nat → Prop} (hc : s.laneReady h.rg h.sw (some h) dsts srcs = some c)
    (hi : exec i s = laneInstr s h dsts srcs fun x => x.put d n (f x)) (hP : ∀ l ∈ lanesOf c.act, P l (f c l) 0) :
    c.writes s i d n P := laneInstr_writes hc hi hP

end Sys2Proof.Machine
end

section
/-! PROOFS. Lane integer arithmetic (R150, R151). -/
namespace Sys2Proof.Machine

/-- Integer arithmetic gives the exact result, wrapped or clamped once, in every element of every active lane. -/
theorem intOp_writes {s : State} {h : Hdr} {k : Lane} {t : ITy} {sat nf : Bool} {a b c d : Opnd} {f : Int → Int → Int → Int}
    {i : Instr} (hk : s.laneReady h.rg h.sw (some h) [(a, t.regs)] [(b, t.regs), (c, t.regs), (d, t.regs)] = some k)
    (hi : exec i s = intOp s h t sat nf a b c d f) :
    k.writes s i a t.regs fun l v fl =>
      (∀ j < elemCount t, elemBits t.width v j = intResult t sat (f (elemInt t (k.readIntOp t b l) j)
        (elemInt t (k.readIntOp t c l) j) (elemInt t (k.readIntOp t d l) j))) ∧
      fl = if sat && !nf && (List.range (elemCount t)).any fun j => !inTypeRange t (f (elemInt t (k.readIntOp t b l) j)
        (elemInt t (k.readIntOp t c l) j) (elemInt t (k.readIntOp t d l) j)) then 32 else 0 :=
  laneInstr_writes hk hi fun _ _ => intMap_spec t sat nf f _ _ _

/-- The sum of IDOT4: a word and four products of bytes. -/
theorem dot4_eq (bs cs : Bool) (b c d : Nat) : dot4 bs cs b c d = (elemBits 32 d 0).toInt +
    (if bs then (elemBits 8 b 0).toInt else (elemBits 8 b 0).toNat) * (if cs then (elemBits 8 c 0).toInt else (elemBits 8 c 0).toNat) +
    (if bs then (elemBits 8 b 1).toInt else (elemBits 8 b 1).toNat) * (if cs then (elemBits 8 c 1).toInt else (elemBits 8 c 1).toNat) +
    (if bs then (elemBits 8 b 2).toInt else (elemBits 8 b 2).toNat) * (if cs then (elemBits 8 c 2).toInt else (elemBits 8 c 2).toNat) +
    (if bs then (elemBits 8 b 3).toInt else (elemBits 8 b 3).toNat) * (if cs then (elemBits 8 c 3).toInt else (elemBits 8 c 3).toNat) := by
  have hd : toSigned 32 d = (elemBits 32 d 0).toInt := by
    rw [toSigned_eq_toInt 32 d (by decide)]
    simp [elemBits]
  unfold dot4
  simp only [readInt_field _ (show 0 < 8 by decide), hd]
  rfl

/-- Settles O37: every form is the one exact function, wrapped or clamped once. -/
theorem laneIntegerArithmetic : Obligations.LaneIntegerArithmetic := by
  unfold Obligations.LaneIntegerArithmetic
  intro s h c t sat nf a b d e
  refine ⟨fun hc => ?_, fun hc => ?_, fun hc => intOp_writes (f := fun x y z => x * y + z) hc rfl, fun hc bs cs => ?_⟩
  · have hc' := laneReady_none t.regs hc
    refine ⟨intOp_writes (f := fun x y _ => x + y) hc' rfl, intOp_writes (f := fun x y _ => x - y) hc' rfl,
      intOp_writes (f := fun x y _ => x * y) hc' rfl, ?_, intOp_writes (f := fun x y _ => min x y) hc' rfl,
      intOp_writes (f := fun x y _ => max x y) hc' rfl⟩
    have hhigh := intOp_writes (i := .imulh h t a b d) (f := fun x y _ => mulHigh t.width x y) hc' rfl
    simp only [mulHigh, Nat.cast_pow, Nat.cast_ofNat] at hhigh
    exact hhigh
  · have hc' := laneReady_none t.regs (laneReady_none t.regs hc)
    exact ⟨intOp_writes (f := fun x _ _ => x.natAbs) hc' rfl, intOp_writes (f := fun x _ _ => -x) hc' rfl⟩
  · refine laneInstr_writes (f := fun x l =>
      ((intFinish sat true 32 (dot4 bs cs (x.read32 b l) (x.read32 d l) (x.read32 e l))).1,
        nfFlags nf (intFinish sat true 32 (dot4 bs cs (x.read32 b l) (x.read32 d l) (x.read32 e l))).2)) hc rfl fun l _ => ?_
    dsimp only
    rw [dot4_eq]
    refine ⟨?_, ?_⟩
    · refine Eq.trans ?_ (ofNat_intFinish .i32 sat _)
      simp [elemBits, ITy.width, ITy.signed]
    · rw [show (intFinish sat true 32 _).2 = _ from intFinish_flags .i32 sat _]
      cases nf <;> cases sat <;> simp [nfFlags, fIS]

end Sys2Proof.Machine
end

section
/-! SUPPORT. Functions of bit patterns (R152). -/
namespace Sys2Proof.Machine
variable {w : Nat}

/-- The AND of patterns. -/
theorem ofNat_toNat_and (x y : BitVec w) : BitVec.ofNat w (x.toNat &&& y.toNat) = x &&& y := by
  apply BitVec.eq_of_toNat_eq
  rw [← BitVec.toNat_and, BitVec.ofNat_toNat, BitVec.setWidth_eq]

/-- The OR of patterns. -/
theorem ofNat_toNat_or (x y : BitVec w) : BitVec.ofNat w (x.toNat ||| y.toNat) = x ||| y := by
  apply BitVec.eq_of_toNat_eq
  rw [← BitVec.toNat_or, BitVec.ofNat_toNat, BitVec.setWidth_eq]

/-- The exclusive OR of patterns. -/
theorem ofNat_toNat_xor (x y : BitVec w) : BitVec.ofNat w (Nat.xor x.toNat y.toNat) = x ^^^ y := by
  apply BitVec.eq_of_toNat_eq
  rw [show Nat.xor x.toNat y.toNat = (x ^^^ y).toNat from rfl, BitVec.ofNat_toNat, BitVec.setWidth_eq]

/-- The complement of a pattern. -/
theorem ofNat_toNat_not (x : BitVec w) : BitVec.ofNat w (2 ^ w - 1 - x.toNat) = ~~~x := by
  apply BitVec.eq_of_toNat_eq
  rw [← BitVec.toNat_not, BitVec.ofNat_toNat, BitVec.setWidth_eq]

/-- A left shift of a pattern. -/
theorem ofNat_shlBits (x : BitVec w) (n : Nat) : BitVec.ofNat w (shlBits w x.toNat n) = x <<< n := by
  apply BitVec.eq_of_toNat_eq
  rw [BitVec.toNat_ofNat, BitVec.toNat_shiftLeft, Nat.shiftLeft_eq, shlBits]
  split
  · next h =>
    obtain ⟨k, rfl⟩ := Nat.exists_eq_add_of_le h
    rw [Nat.pow_add, Nat.zero_mod, ← Nat.mul_assoc, Nat.mul_right_comm, Nat.mul_mod_left]
  · rw [Nat.mod_mod]

/-- A right shift of a pattern that fills with zeros. -/
theorem ofNat_shrBits (x : BitVec w) (n : Nat) : BitVec.ofNat w (shrBits w x.toNat n) = x >>> n := by
  apply BitVec.eq_of_toNat_eq
  have hlt := x.isLt
  rw [BitVec.toNat_ofNat, BitVec.toNat_ushiftRight, Nat.shiftRight_eq_div_pow, shrBits, Nat.mod_eq_of_lt hlt]
  split
  · next h =>
    rw [Nat.zero_mod, Nat.div_eq_of_lt (Nat.lt_of_lt_of_le hlt (Nat.pow_le_pow_right (by decide) h))]
  · exact Nat.mod_eq_of_lt (Nat.lt_of_le_of_lt (Nat.div_le_self ..) hlt)

/-- A right shift of a pattern that fills with copies of the top bit. -/
theorem ofNat_shaBits (hw : 0 < w) (x : BitVec w) (n : Nat) : BitVec.ofNat w (shaBits w x.toNat n) = x.sshiftRight n := by
  rw [shaBits, ofNat_wrapTo, toSigned_eq_toInt _ _ hw, BitVec.ofNat_toNat, BitVec.setWidth_eq, BitVec.sshiftRight,
    Int.shiftRight_eq_div_pow]
  congr 1
  by_cases h : n ≤ w - 1
  · rw [Nat.min_eq_left h]
  · have hlo := BitVec.le_toInt x
    have hhi := BitVec.toInt_lt (x := x)
    have hle : (2 : Int) ^ (w - 1) ≤ 2 ^ n := by
      exact_mod_cast Nat.pow_le_pow_right (by decide) (by omega)
    rw [Nat.min_eq_right (by omega)]
    push_cast
    rcases Int.lt_or_le x.toInt 0 with hneg | hpos
    · rw [Int.ediv_eq_neg_one_of_neg_of_le hneg (by omega), Int.ediv_eq_neg_one_of_neg_of_le hneg (by omega)]
    · rw [Int.ediv_eq_zero_of_lt hpos hhi, Int.ediv_eq_zero_of_lt hpos (by omega)]

/-- A left rotation of a pattern. -/
theorem ofNat_rotBits (hw : 0 < w) (x : BitVec w) (n : Nat) : BitVec.ofNat w (rotBits w x.toNat n) = x.rotateLeft n := by
  apply BitVec.eq_of_toNat_eq
  have hlt := x.isLt
  have hm : n % w < w := Nat.mod_lt _ hw
  have hsplit : 2 ^ w = 2 ^ (n % w) * 2 ^ (w - n % w) := by rw [← Nat.pow_add]; congr 1; omega
  have hq : x.toNat / 2 ^ (w - n % w) < 2 ^ (n % w) := by
    rw [Nat.div_lt_iff_lt_mul (Nat.two_pow_pos _), ← hsplit]
    exact hlt
  have hhigh : x.toNat * 2 ^ (n % w) % 2 ^ w = 2 ^ (n % w) * (x.toNat % 2 ^ (w - n % w)) := by
    rw [Nat.mul_comm, hsplit, Nat.mul_mod_mul_left]
  rw [BitVec.toNat_ofNat, BitVec.toNat_rotateLeft, rotBits, Nat.mod_mod, Nat.mod_eq_of_lt hlt, Nat.shiftLeft_eq,
    Nat.shiftRight_eq_div_pow, hhigh, ← Nat.two_pow_add_eq_or_of_lt hq, ← hhigh, Nat.add_mod,
    Nat.mod_eq_of_lt (Nat.lt_of_lt_of_le hq (Nat.pow_le_pow_right (by decide) (Nat.le_of_lt hm)))]
  refine Nat.mod_eq_of_lt ?_
  rw [hhigh, hsplit]
  calc 2 ^ (n % w) * (x.toNat % 2 ^ (w - n % w)) + x.toNat / 2 ^ (w - n % w)
      < 2 ^ (n % w) * (x.toNat % 2 ^ (w - n % w) + 1) := by rw [Nat.mul_add]; omega
    _ ≤ 2 ^ (n % w) * 2 ^ (w - n % w) := Nat.mul_le_mul_left _ (Nat.mod_lt _ (Nat.two_pow_pos _))

/-- The number of ones in a pattern. -/
theorem popBits_toNat (x : BitVec w) : popBits w x.toNat = ((List.range w).filter x.getLsbD).length := popBits_eq_length ..

/-- The bits above the leading 1 of a pattern are 0. -/
theorem clzBits_toNat (x : BitVec w) : clzBits w x.toNat ≤ w ∧ (∀ j < clzBits w x.toNat, x.getMsbD j = false) ∧
    (clzBits w x.toNat < w → x.getMsbD (clzBits w x.toNat) = true) := by
  unfold clzBits
  rw [Nat.mod_eq_of_lt x.isLt]
  split
  case isTrue h =>
    have hx : x = 0 := BitVec.eq_of_toNat_eq (by simpa using h)
    subst hx
    simp
  case isFalse h =>
    have hl : Nat.log2 x.toNat < w := (Nat.log2_lt h).mpr x.isLt
    refine ⟨by omega, fun j hj => ?_, fun _ => ?_⟩
    · rw [BitVec.getMsbD, BitVec.getLsbD, Nat.testBit_lt_two_pow, Bool.and_false]
      exact Nat.lt_of_lt_of_le Nat.lt_log2_self (Nat.pow_le_pow_right (by decide) (by omega))
    · rw [BitVec.getMsbD, BitVec.getLsbD, show w - 1 - (w - 1 - Nat.log2 x.toNat) = Nat.log2 x.toNat by omega,
        Nat.testBit_log2 h, decide_eq_true (by omega), Bool.and_true]

/-- The reversed bits of a number fit its width. -/
theorem revBits_lt (w b : Nat) : revBits w b < 2 ^ w := by
  induction w generalizing b with
  | zero => exact Nat.one_pos
  | succ w ih =>
    have hrest := ih (b / 2)
    have hbit : b % 2 * 2 ^ w ≤ 1 * 2 ^ w := Nat.mul_le_mul_right _ (by omega)
    rw [revBits, Nat.pow_succ]
    omega

/-- A bit of the reversed bits. -/
theorem testBit_revBits (w b : Nat) {j : Nat} (h : j < w) : (revBits w b).testBit j = b.testBit (w - 1 - j) := by
  induction w generalizing b with
  | zero => omega
  | succ w ih =>
    rw [revBits, Nat.mul_comm]
    by_cases hj : j < w
    · rw [Nat.testBit_two_pow_mul_add _ (revBits_lt w _), if_pos hj, ih _ hj, ← Nat.testBit_succ]
      congr 1
      omega
    · rw [Nat.testBit_two_pow_mul_add _ (revBits_lt w _), if_neg hj, show j - w = 0 by omega, show w + 1 - 1 - j = 0 by omega]
      simp

/-- The bits of a pattern in the reverse order. -/
theorem getLsbD_revBits (x : BitVec w) {j : Nat} (h : j < w) :
    (BitVec.ofNat w (revBits w x.toNat)).getLsbD j = x.getMsbD j := by
  rw [BitVec.getLsbD_ofNat, testBit_revBits w _ h, BitVec.getMsbD, BitVec.getLsbD]

end Sys2Proof.Machine
end

section
/-! PROOFS. Lane logic and shifts (R152). -/
namespace Sys2Proof.Machine

/-- What an instruction writes has whatever follows from what is known of it. -/
theorem Lane.writes.mono {c : Lane} {s : State} {i : Instr} {d : Opnd} {n : Nat} {P Q : Nat → Nat → Nat → Prop}
    (h : c.writes s i d n P) (hPQ : ∀ l v f, P l v f → Q l v f) : c.writes s i d n Q := by
  obtain ⟨val, fl, hP, hexec⟩ := h
  exact ⟨val, fl, fun l hl => hPQ l _ _ (hP l hl), hexec⟩

variable {s : State} {h : Hdr} {k : Lane} {t : ITy} {a b c : Opnd} {i : Instr} {f : Nat → Nat → Nat → Nat}

/-- A function of the patterns of two operands in every element, without flags. -/
theorem bitOp_writes (hk : s.laneReady h.rg h.sw (some h) [(a, t.regs)] [(b, t.regs), (c, t.regs)] = some k)
    (hi : exec i s = bitOp s h t a b c f) : k.writes s i a t.regs fun l v fl =>
      (∀ j < elemCount t, elemBits t.width v j = BitVec.ofNat t.width (f t.width (elemBits t.width (k.readIntOp t b l) j).toNat
        (elemBits t.width (k.readIntOp t c l) j).toNat)) ∧ fl = 0 :=
  laneInstr_puts hk hi fun l _ => ⟨fun j hj => by rw [elemBits_bitMap t f _ _ hj, bits_eq_elemBits], rfl⟩

/-- The same in terms of a function of patterns. -/
theorem bitOp_is {x : BitVec t.width → BitVec t.width → BitVec t.width}
    (hk : s.laneReady h.rg h.sw (some h) [(a, t.regs)] [(b, t.regs), (c, t.regs)] = some k)
    (hi : exec i s = bitOp s h t a b c f) (hx : ∀ y z : BitVec t.width, BitVec.ofNat t.width (f t.width y.toNat z.toNat) = x y z) :
    k.writes s i a t.regs fun l v fl => (∀ j < elemCount t, elemBits t.width v j =
      x (elemBits t.width (k.readIntOp t b l) j) (elemBits t.width (k.readIntOp t c l) j)) ∧ fl = 0 :=
  (bitOp_writes hk hi).mono fun _ _ _ hv => ⟨fun j hj => (hv.1 j hj).trans (hx _ _), hv.2⟩

/-- An operand of one register is a 32-bit number. -/
theorem read32_lt (k : Lane) (o : Opnd) (l : Nat) : k.read32 o l < 2 ^ 32 := by
  unfold Lane.read32 Lane.read
  cases o with
  | v r => simpa [spanVal] using (k.g.getV r l).isLt
  | s r => simpa [spanVal] using (k.readS l r).isLt
  | c r => simpa [spanVal] using (k.s.readC k.g r).isLt
  | sp r => simpa [widen, spanVal] using (k.readSp l r).isLt
  | k r => simpa [widen, spanVal] using (k.g.getK r).isLt
  | p r => dsimp only; split <;> decide
  | a r => exact Nat.two_pow_pos 32
  | wa r => exact Nat.two_pow_pos 32
  | imm i => simpa [immInt, packElems] using Nat.mod_lt _ (by decide)
  | none => exact Nat.two_pow_pos 32

/-- A shift of the patterns of an operand by the counts of another. -/
theorem shiftOp_is {x : BitVec t.width → Nat → BitVec t.width}
    (hk : s.laneReady h.rg h.sw (some h) [(a, t.regs)] [(b, t.regs), (c, 1)] = some k)
    (hi : exec i s = shiftOp s h t a b c f) (hx : ∀ (y : BitVec t.width) n, BitVec.ofNat t.width (f t.width y.toNat n) = x y n) :
    k.writes s i a t.regs fun l v fl => (∀ j < elemCount t, elemBits t.width v j = x (elemBits t.width (k.readIntOp t b l) j)
      (if t.is64 then k.read32 c l else (elemBits t.width (k.readIntOp t c l) j).toNat)) ∧ fl = 0 := by
  refine laneInstr_puts hk hi fun l _ => ⟨fun j hj => ?_, rfl⟩
  rw [elemBits_bitMap t f _ _ hj, hx]
  congr 1
  cases h64 : t.is64 with
  | false => exact bits_eq_elemBits ..
  | true =>
    have hlt := read32_lt k c l
    have hj0 : j = 0 := by cases t <;> simp_all [elemCount, ITy.regs, ITy.is64, ITy.width]
    have hw : t.width = 64 := by cases t <;> simp_all [ITy.is64, ITy.width]
    rw [hj0, hw, if_pos rfl, bits, Nat.mul_zero, Nat.pow_zero, Nat.div_one, Nat.mod_eq_of_lt (by omega), if_pos rfl]

/-- Settles O38: each form is the function of patterns that the manual names. -/
theorem laneLogicAndShifts : Obligations.LaneLogicAndShifts := by
  unfold Obligations.LaneLogicAndShifts
  intro s h c t a b d
  refine ⟨fun hc => ⟨?_, ?_, ?_⟩, fun hc => ?_, fun hc => ⟨?_, ?_, ?_, ?_⟩⟩
  · exact bitOp_is (f := fun _ x y => x &&& y) hc rfl ofNat_toNat_and
  · exact bitOp_is (f := fun _ x y => x ||| y) hc rfl ofNat_toNat_or
  · exact bitOp_is (f := fun _ x y => Nat.xor x y) hc rfl ofNat_toNat_xor
  · have hc' := laneReady_none t.regs hc
    refine ⟨?_, ?_, ?_, ?_⟩
    · exact bitOp_is (f := fun w x _ => 2 ^ w - 1 - x) hc' rfl fun y _ => ofNat_toNat_not y
    · exact bitOp_is (f := fun w x _ => popBits w x) hc' rfl fun y _ => congrArg _ (popBits_toNat y)
    · refine (bitOp_writes (i := .clz h t a b) (f := fun w x _ => clzBits w x) hc' rfl).mono fun l v fl hv =>
        ⟨hv.2, fun j hj => ?_⟩
      obtain ⟨hle, hzero, hone⟩ := clzBits_toNat (elemBits t.width (c.readIntOp t b l) j)
      exact ⟨_, hle, hv.1 j hj, hzero, hone⟩
    · refine (bitOp_writes (i := .brev h t a b) (f := fun w x _ => revBits w x) hc' rfl).mono fun l v fl hv =>
        ⟨hv.2, fun j hj m hm => ?_⟩
      rw [hv.1 j hj]
      exact getLsbD_revBits _ hm
  · exact shiftOp_is (f := shlBits) hc rfl ofNat_shlBits
  · exact shiftOp_is (f := shrBits) hc rfl ofNat_shrBits
  · exact shiftOp_is (f := shaBits) hc rfl (ofNat_shaBits (intWidth_pos t))
  · exact shiftOp_is (f := rotBits) hc rfl (ofNat_rotBits (intWidth_pos t))

end Sys2Proof.Machine
end

section
/-! SUPPORT. Bit fields, scaled offsets and conditions (R153 to R155). -/
namespace Sys2Proof.Machine

/-- Registers read as one value. -/
theorem spanVal_lt (f : Nat → Word) (n : Nat) : spanVal f n < 2 ^ (32 * n) := by
  induction n generalizing f with
  | zero => exact Nat.one_pos
  | succ n ih =>
    have hlow := (f 0).isLt
    have hrest := ih fun i => f (i + 1)
    rw [spanVal, show 32 * (n + 1) = 32 + 32 * n by ring, Nat.pow_add]
    calc (f 0).toNat + 2 ^ 32 * spanVal (fun i => f (i + 1)) n
        < 2 ^ 32 * (spanVal (fun i => f (i + 1)) n + 1) := by omega
      _ ≤ 2 ^ 32 * 2 ^ (32 * n) := Nat.mul_le_mul_left _ hrest

/-- Elements packed into a value. -/
theorem packElems_lt (w : Nat) (xs : List Nat) : packElems w xs < 2 ^ (w * xs.length) := by
  induction xs with
  | nil => exact Nat.one_pos
  | cons x r ih =>
    have hx := Nat.mod_lt x (Nat.two_pow_pos w)
    rw [packElems, List.length_cons, show w * (r.length + 1) = w + w * r.length by ring, Nat.pow_add]
    calc x % 2 ^ w + 2 ^ w * packElems w r < 2 ^ w * (packElems w r + 1) := by rw [Nat.mul_add]; omega
      _ ≤ 2 ^ w * 2 ^ (w * r.length) := Nat.mul_le_mul_left _ ih

/-- An unpacked integer type fills its registers. -/
theorem ITy.width_of_unpacked {t : ITy} (ht : t.unpacked = true) : 32 * t.regs = t.width := by
  cases t with
  | i32 | n32 | i64 | n64 => rfl
  | i16x2 | n16x2 | i8x4 | n8x4 => cases ht

/-- An operand of an unpacked integer type is one element. -/
theorem readIntOp_lt {t : ITy} (ht : t.unpacked = true) (k : Lane) (o : Opnd) (l : Nat) : k.readIntOp t o l < 2 ^ t.width := by
  have hw := ITy.width_of_unpacked ht
  unfold Lane.readIntOp Lane.read
  rw [← hw]
  cases o with
  | v r => exact spanVal_lt _ _
  | s r => exact spanVal_lt _ _
  | c r => exact spanVal_lt _ _
  | sp r => exact spanVal_lt _ _
  | k r => exact spanVal_lt _ _
  | p r =>
    have hone : 1 < 2 ^ (32 * t.regs) := Nat.one_lt_two_pow (by have := intWidth_pos t; omega)
    dsimp only
    split
    · exact hone
    · exact Nat.two_pow_pos _
  | a r => exact Nat.two_pow_pos _
  | wa r => exact Nat.two_pow_pos _
  | imm i =>
    have hpack := packElems_lt t.width (List.replicate (32 * t.regs / t.width) (wrapTo t.width i))
    rw [List.length_replicate, hw, Nat.div_self (intWidth_pos t), Nat.mul_one] at hpack
    dsimp only [immInt]
    rw [hw, Nat.div_self (intWidth_pos t)]
    exact hpack
  | none => exact Nat.two_pow_pos _

/-- The only element of a value of one element. -/
theorem elemBits_zero (w v : Nat) : elemBits w v 0 = BitVec.ofNat w v := by simp [elemBits]

/-- The conditions of ICMP, in their order (R155). -/
theorem laneCond_eq (t : ITy) {b c cc : Nat} (hb : b < 2 ^ t.width) (hc : c < 2 ^ t.width) (hcc : cc < 8) :
    laneCond cc t.signed t.width b c = [decide (elemInt t b 0 = elemInt t c 0), decide (elemInt t b 0 ≠ elemInt t c 0),
      decide (elemInt t b 0 < elemInt t c 0), decide (elemInt t b 0 ≤ elemInt t c 0), decide (elemInt t c 0 < elemInt t b 0),
      decide (elemInt t c 0 ≤ elemInt t b 0), decide (elemBits t.width b 0 &&& elemBits t.width c 0 ≠ 0),
      decide (elemBits t.width b 0 &&& elemBits t.width c 0 = 0)].getD cc false := by
  have hread : ∀ v < 2 ^ t.width, readInt t.signed t.width v = elemInt t v 0 := by
    intro v hv
    rw [← readInt_bits, bits, Nat.mul_zero, Nat.pow_zero, Nat.div_one, Nat.mod_eq_of_lt hv]
  have hand : (b &&& c = 0) ↔ elemBits t.width b 0 &&& elemBits t.width c 0 = 0 := by
    rw [elemBits_zero, elemBits_zero, ← BitVec.toNat_inj, BitVec.toNat_and, BitVec.toNat_ofNat, BitVec.toNat_ofNat,
      Nat.mod_eq_of_lt hb, Nat.mod_eq_of_lt hc]
    rfl
  unfold laneCond
  rw [hread b hb, hread c hc]
  interval_cases cc
  · exact Bool.beq_eq_decide_eq ..
  · simp only [bne, Bool.beq_eq_decide_eq]
    exact (decide_not ..).symm
  · rfl
  · rfl
  · rfl
  · rfl
  · simp only [bne, Bool.beq_eq_decide_eq, hand]
    exact (decide_not ..).symm
  · exact (Bool.beq_eq_decide_eq ..).trans (decide_eq_decide.mpr hand)

/-- BFX takes the field at p, of the length that stays in the word (R153). -/
theorem ofNat_bfxBits (a : Word) (sg : Bool) (p n : Nat) {f : Word}
    (hf : f = (a >>> p) &&& BitVec.ofNat 32 (2 ^ min n (32 - p) - 1)) :
    BitVec.ofNat 32 (bfxBits sg a.toNat p n) = if 32 ≤ p ∨ min n (32 - p) = 0 then 0
      else if sg = true ∧ f.getLsbD (min n (32 - p) - 1) = true then f - BitVec.ofNat 32 (2 ^ min n (32 - p)) else f := by
  unfold bfxBits fieldLen
  by_cases h : 32 ≤ p ∨ min n (32 - p) = 0
  · rw [if_pos (by simpa using h), if_pos h]
    rfl
  · rw [if_neg (by simpa using h), if_neg h, ofNat_bitField a sg p _ (by omega) hf]
    simp only [Bool.and_eq_true]

/-- The bits of a number after a field of it has been replaced. -/
theorem testBit_setBits (v lo n x i : Nat) : (setBits v lo n x).testBit i =
    if i < lo then v.testBit i else if i < lo + n then x.testBit (i - lo) else v.testBit i := by
  have hshape : setBits v lo n x = 2 ^ lo * (2 ^ n * (v / 2 ^ (lo + n)) + x % 2 ^ n) + v % 2 ^ lo := by
    rw [setBits, Nat.pow_add]
    ring
  rw [hshape, Nat.testBit_two_pow_mul_add _ (Nat.mod_lt _ (Nat.two_pow_pos lo)), Nat.testBit_mod_two_pow]
  by_cases hlo : i < lo
  · simp [hlo]
  · rw [if_neg hlo, if_neg hlo, Nat.testBit_two_pow_mul_add _ (Nat.mod_lt _ (Nat.two_pow_pos n)), Nat.testBit_mod_two_pow,
      Nat.testBit_div_two_pow]
    by_cases hin : i < lo + n
    · simp [hin, show i - lo < n by omega]
    · rw [if_neg (by omega), if_neg hin, show i - lo - n + (lo + n) = i by omega]

/-- BFI puts the low bits of b into a word at p (R153). -/
theorem ofNat_bfiBits (b c : Word) (p n : Nat) {m : Word} (hm : m = BitVec.ofNat 32 (2 ^ min n (32 - p) - 1) <<< p) :
    BitVec.ofNat 32 (bfiBits b.toNat c.toNat p n) = (c &&& ~~~m) ||| ((b <<< p) &&& m) := by
  have hmask : ∀ i, (BitVec.ofNat 32 (2 ^ min n (32 - p) - 1)).getLsbD i = decide (i < min n (32 - p)) := by
    intro i
    rw [BitVec.getLsbD_ofNat, Nat.testBit_two_pow_sub_one]
    by_cases hi : i < 32
    · simp [hi]
    · simp only [hi, decide_false, Bool.false_and]
      exact (decide_eq_false (by omega)).symm
  apply BitVec.eq_of_getLsbD_eq
  intro i hi
  have hbits : (BitVec.ofNat 32 (bfiBits b.toNat c.toNat p n)).getLsbD i =
      if i < p then c.getLsbD i else if i < p + min n (32 - p) then b.getLsbD (i - p) else c.getLsbD i := by
    rw [BitVec.getLsbD_ofNat, decide_eq_true hi, Bool.true_and]
    unfold bfiBits fieldLen
    split
    · rw [if_pos (by omega), Nat.mod_eq_of_lt c.isLt]
      rfl
    · rw [Nat.testBit_mod_two_pow, decide_eq_true hi, Bool.true_and, testBit_setBits]
      rfl
  rw [hbits, BitVec.getLsbD_or, BitVec.getLsbD_and, BitVec.getLsbD_and, BitVec.getLsbD_not, hm, BitVec.getLsbD_shiftLeft,
    BitVec.getLsbD_shiftLeft, hmask]
  by_cases hlo : i < p
  · simp [hlo, hi]
  · by_cases hin : i - p < min n (32 - p)
    · have hin' : i < p + min n (32 - p) := by omega
      simp only [hi, hlo, hin, hin', if_true, if_false, decide_true, decide_false, Bool.not_false, Bool.true_and, Bool.and_true,
        Bool.not_true, Bool.and_false, Bool.false_or]
    · have hin' : ¬ i < p + min n (32 - p) := by omega
      simp only [hi, hlo, hin, hin', if_false, decide_true, decide_false, Bool.and_false, Bool.not_false, Bool.and_true,
        Bool.or_false]

/-- LEA's sum modulo 2^64 (R154). -/
theorem ofNat_lea (sg : Bool) (base w n : Nat) :
    BitVec.ofNat 64 (wrapTo 64 ((base : Nat) + readInt sg 32 w * ((2 ^ n : Nat) : Int))) = BitVec.ofNat 64 base +
      ((if sg then (BitVec.ofNat 32 w).signExtend 64 else (BitVec.ofNat 32 w).setWidth 64) <<< n) := by
  have hword : (if sg then (BitVec.ofNat 32 w).signExtend 64 else (BitVec.ofNat 32 w).setWidth 64) =
      BitVec.ofInt 64 (readInt sg 32 w) := by
    unfold readInt
    cases sg with
    | true =>
      rw [if_pos rfl, if_pos rfl, toSigned_eq_toInt 32 w (by decide)]
      rfl
    | false =>
      rw [if_neg Bool.false_ne_true, if_neg Bool.false_ne_true]
      apply BitVec.eq_of_toNat_eq
      rw [BitVec.toNat_setWidth, BitVec.toNat_ofNat, BitVec.ofInt_natCast, BitVec.toNat_ofNat]
  rw [hword, ofNat_wrapTo, BitVec.ofInt_add, BitVec.ofInt_natCast, BitVec.ofInt_mul, BitVec.ofInt_natCast]
  congr 1
  apply BitVec.eq_of_toNat_eq
  rw [BitVec.toNat_mul, BitVec.toNat_shiftLeft, Nat.shiftLeft_eq, BitVec.toNat_ofNat, Nat.mul_mod_mod]

end Sys2Proof.Machine
end

section
/-! PROOFS. Lane bit fields, LEA, ICMP and PLOP (R153 to R155, R170). -/
namespace Sys2Proof.Machine

/-- Settles O39: each instruction is its function of the operands that it reads. -/
theorem laneFieldsAndCompares : Obligations.LaneFieldsAndCompares := by
  unfold Obligations.LaneFieldsAndCompares
  intro s h c t a b d e x
  have h32 : ∀ o l, c.read32 o l = (BitVec.ofNat 32 (c.read32 o l)).toNat := fun o l => by
    rw [BitVec.toNat_ofNat, Nat.mod_eq_of_lt (read32_lt c o l)]
  refine ⟨fun hc ht => ?_, fun hc ht => ?_, fun hc => ?_, fun hc ht cc hcc => ?_, fun hc tt => ?_⟩
  · refine laneInstr_puts (f := fun k l => bfxBits (t == .i32) (k.read32 b l) (k.read32 d l) (k.read32 e l)) hc rfl
      fun l _ => ⟨rfl, ?_⟩
    rw [h32 b l, ofNat_bfxBits _ _ _ _ rfl]
    simp only [beq_iff_eq]
  · refine laneInstr_puts (f := fun k l => bfiBits (k.read32 b l) (k.read32 d l) (k.read32 e l) (k.read32 x l)) hc rfl
      fun l _ => ⟨rfl, ?_⟩
    rw [h32 b l, h32 d l, ofNat_bfiBits _ _ _ _ rfl]
  · exact laneInstr_puts (f := fun k l => wrapTo 64 ((k.read 2 (wrapTo 64) b l : Nat) +
      readInt t.signed 32 (k.read32 d l) * ((2 ^ (k.read32 e l % 64) : Nat) : Int))) hc rfl fun l _ => ⟨rfl, ofNat_lea ..⟩
  · refine laneInstr_puts (f := fun k l => if laneCond cc t.signed t.width (k.readIntOp t b l) (k.readIntOp t d l) then 1 else 0)
      hc rfl fun l _ => ⟨rfl, ?_⟩
    rw [laneCond_eq t (readIntOp_lt ht c b l) (readIntOp_lt ht c d l) hcc]
    exact (Bool.cond_eq_ite ..).symm
  · refine laneInstr_puts (f := fun k l => if tableBit tt (k.readP b l) (k.readP d l) then 1 else 0) hc rfl fun l _ => ⟨rfl, ?_⟩
    rw [tableBit_eq_testBit]
    exact (Bool.cond_eq_ite ..).symm

end Sys2Proof.Machine
end

section
/-! SUPPORT. Lane instructions that round elements with the lanes' draws (R55, R146, R157). -/
namespace Sys2Proof.Machine

/-- An instruction that goes on and writes rounded elements, in terms of what each element is. -/
theorem laneInstr_roundsN {s : State} {h : Hdr} {dsts srcs : List (Opnd × Nat)} {c : Lane} {i : Instr} {d : Opnd}
    {regs n w : Nat} {nf : Bool} (F : Lane → Nat → Nat → Nat → Nat × Nat × Bool) {f : Nat → Nat → Nat → Nat × Nat × Bool}
    (hc : s.laneReady h.rg h.sw (some h) dsts srcs = some c)
    (hi : exec i s = laneInstr s h dsts srcs fun x => x.roundedN d regs n w nf (F x)) (hF : ∀ l j st, F c l j st = f l j st) :
    c.rounds s i d regs n w nf f := by
  obtain rfl : F c = f := funext fun l => funext fun j => funext fun st => hF l j st
  intro hm
  exact hi.trans ((laneInstr_ready _ hc).trans (Lane.writeAnd_eq c d regs _ _ hm))

/-- The same for a register of elements of a float format. -/
theorem laneInstr_rounds {s : State} {h : Hdr} {dsts srcs : List (Opnd × Nat)} {c : Lane} {i : Instr} {d : Opnd}
    {g : FFmt} {nf : Bool} (F : Lane → Nat → Nat → Nat → Nat × Nat × Bool) {f : Nat → Nat → Nat → Nat × Nat × Bool}
    (hc : s.laneReady h.rg h.sw (some h) dsts srcs = some c)
    (hi : exec i s = laneInstr s h dsts srcs fun x => x.rounded d 1 g nf (F x)) (hF : ∀ l j st, F c l j st = f l j st) :
    c.rounds s i d 1 (32 / g.width) g.width nf f :=
  laneInstr_roundsN F hc hi hF

/-- What each element is may be said in another way. -/
theorem Lane.rounds.congr {c : Lane} {s : State} {i : Instr} {d : Opnd} {regs n w : Nat} {nf : Bool}
    {f g : Nat → Nat → Nat → Nat × Nat × Bool} (h : c.rounds s i d regs n w nf f) (hfg : ∀ l j st, f l j st = g l j st) :
    c.rounds s i d regs n w nf g := by
  obtain rfl : f = g := funext fun l => funext fun j => funext fun st => hfg l j st
  exact h

/-- Element j of a float operand. -/
def Lane.fltElem (k : Lane) (t : FTy) (o : Opnd) (l j : Nat) : FVal :=
  (fmtOf t).decode (elemBits (fmtOf t).width (k.readFlt t o l) j).toNat

/-- An absent operand is a zero, which is no signalling NaN. -/
theorem fltElem_none (k : Lane) (t : FTy) (l j : Nat) : (k.fltElem t .none l j).isSig = false := by
  have hzero : (elemBits (fmtOf t).width (k.readFlt t .none l) j).toNat = 0 := by simp [elemBits, Lane.readFlt, Lane.read]
  rw [Lane.fltElem, hzero]
  cases t <;> rfl

end Sys2Proof.Machine
end

section
/-! PROOFS. Lane float arithmetic (R157, R160). -/
namespace Sys2Proof.Machine
variable {s : State} {h : Hdr} {k : Lane} {t : FTy} {r : Rnd} {sat : Sat} {nf : Bool} {a b c d : Opnd} {i : Instr}
  {x : Rnd → FVal → FVal → FVal → XVal}

/-- Float arithmetic on three operands rounds the one exact value of each element. -/
theorem fltOp_rounds (hk : s.laneReady h.rg h.sw (some h) [(a, 1)] [(b, 1), (c, 1), (d, 1)] = some k)
    (hi : exec i s = fltOp s h t r sat nf a b c d x) :
    k.rounds s i a 1 (32 / (fmtOf t).width) (fmtOf t).width nf fun l j st =>
      finishX (fmtOf t) (k.mode r) sat st 0
        ((k.fltElem t b l j).isSig || (k.fltElem t c l j).isSig || (k.fltElem t d l j).isSig)
        (x (k.mode r) (k.fltElem t b l j) (k.fltElem t c l j) (k.fltElem t d l j)) := by
  refine laneInstr_rounds (fun k l j st => finishX (fmtOf t) (k.mode r) sat st 0
    (((fmtOf t).decode (bits (k.readFlt t b l) ((fmtOf t).width * j) (fmtOf t).width)).isSig ||
      ((fmtOf t).decode (bits (k.readFlt t c l) ((fmtOf t).width * j) (fmtOf t).width)).isSig ||
      ((fmtOf t).decode (bits (k.readFlt t d l) ((fmtOf t).width * j) (fmtOf t).width)).isSig)
    (x (k.mode r) ((fmtOf t).decode (bits (k.readFlt t b l) ((fmtOf t).width * j) (fmtOf t).width))
      ((fmtOf t).decode (bits (k.readFlt t c l) ((fmtOf t).width * j) (fmtOf t).width))
      ((fmtOf t).decode (bits (k.readFlt t d l) ((fmtOf t).width * j) (fmtOf t).width)))) hk hi fun l j st => ?_
  simp only [bits_eq_elemBits, Lane.fltElem]

/-- The same for two operands. -/
theorem fltOp_rounds₂ (hk : s.laneReady h.rg h.sw (some h) [(a, 1)] [(b, 1), (c, 1)] = some k)
    (hi : exec i s = fltOp s h t r sat nf a b c .none x) :
    k.rounds s i a 1 (32 / (fmtOf t).width) (fmtOf t).width nf fun l j st =>
      finishX (fmtOf t) (k.mode r) sat st 0 ((k.fltElem t b l j).isSig || (k.fltElem t c l j).isSig)
        (x (k.mode r) (k.fltElem t b l j) (k.fltElem t c l j) (k.fltElem t .none l j)) := by
  have hall := fltOp_rounds (laneReady_none 1 hk) hi
  simp only [fltElem_none, Bool.or_false] at hall
  exact hall

/-- Settles O40: each form rounds one exact value of its elements once. -/
theorem laneFloatArithmetic : Obligations.LaneFloatArithmetic := by
  unfold Obligations.LaneFloatArithmetic
  intro s h c t r sat nf a b d e
  refine ⟨fun hc => ?_, fun hc => ?_, fun hc => ?_, fun hc => ?_, fun hc => ?_, fun hc => ?_, fun hc => ?_, fun hc ht => ?_⟩
  · exact (fltOp_rounds₂ (x := fun m x y _ => sumX m false [x, y]) hc rfl).congr fun l j st => by
      simp only [List.map_cons, List.map_nil, List.any_cons, List.any_nil, Bool.or_false]
      rfl
  · exact (fltOp_rounds₂ (x := fun m x y _ => sumX m false [x, y.negate]) hc rfl).congr fun l j st => by
      simp only [List.map_cons, List.map_nil, List.any_cons, List.any_nil, Bool.or_false]
      rfl
  · exact (fltOp_rounds₂ (x := fun m x y _ => sumX m (badProd x y) [prod x y]) hc rfl).congr fun l j st => by
      simp only [List.map_cons, List.map_nil, List.any_cons, List.any_nil, Bool.or_false]
      rfl
  · exact (fltOp_rounds (x := fun m x y z => sumX m (badProd x y) [prod x y, z]) hc rfl).congr fun l j st => by
      simp only [List.map_cons, List.map_nil, List.any_cons, List.any_nil, Bool.or_false, ← Bool.or_assoc]
      rfl
  · exact (fltOp_rounds₂ (r := .rn) (x := fun _ x y _ => XVal.ofVal (fSelect false x y)) hc rfl).congr fun l j st => by
      simp only [List.map_cons, List.map_nil, List.any_cons, List.any_nil, Bool.or_false]
      rfl
  · exact (fltOp_rounds₂ (r := .rn) (x := fun _ x y _ => XVal.ofVal (fSelect true x y)) hc rfl).congr fun l j st => by
      simp only [List.map_cons, List.map_nil, List.any_cons, List.any_nil, Bool.or_false]
      rfl
  · refine laneInstr_rounds (g := fmtOf t) (fun k l j st => finishX (fmtOf t) (k.mode r) sat st 0
        ((fmtOf t).decode (bits (k.readFlt t b l) ((fmtOf t).width * j) (fmtOf t).width)).isSig
        (XVal.ofVal (scaleVal ((fmtOf t).decode (bits (k.readFlt t b l) ((fmtOf t).width * j) (fmtOf t).width))
          (toSigned 32 (k.read32 d l))))) hc rfl fun l j st => ?_
    rw [bits_eq_elemBits, toSigned_eq_toInt 32 _ (by decide)]
  · have hw : (fmtOf t).width = 16 := by rcases ht with rfl | rfl <;> rfl
    refine laneInstr_rounds (g := fp32) (fun k l _ st => finishX fp32 (k.mode r) sat st 0
        ([(fmtOf t).decode (bits (k.readFlt t b l) 0 16), (fmtOf t).decode (bits (k.readFlt t b l) 16 16),
          (fmtOf t).decode (bits (k.readFlt t d l) 0 16), (fmtOf t).decode (bits (k.readFlt t d l) 16 16),
          fp32.decode (k.readFlt .f32 e l)].any FVal.isSig)
        (sumX (k.mode r)
          (badProd ((fmtOf t).decode (bits (k.readFlt t b l) 0 16)) ((fmtOf t).decode (bits (k.readFlt t d l) 0 16)) ||
            badProd ((fmtOf t).decode (bits (k.readFlt t b l) 16 16)) ((fmtOf t).decode (bits (k.readFlt t d l) 16 16)))
          [prod ((fmtOf t).decode (bits (k.readFlt t b l) 0 16)) ((fmtOf t).decode (bits (k.readFlt t d l) 0 16)),
            prod ((fmtOf t).decode (bits (k.readFlt t b l) 16 16)) ((fmtOf t).decode (bits (k.readFlt t d l) 16 16)),
            fp32.decode (k.readFlt .f32 e l)])) hc rfl fun l j st => ?_
    have hlow : ∀ v, bits v 0 16 = (elemBits 16 v 0).toNat := fun v => bits_eq_elemBits 16 v 0
    have hhigh : ∀ v, bits v 16 16 = (elemBits 16 v 1).toNat := fun v => bits_eq_elemBits 16 v 1
    rw [hw]
    simp only [hlow, hhigh, List.any_cons, List.any_nil, Bool.or_false, ← Bool.or_assoc]

end Sys2Proof.Machine
end

section
/-! PROOFS. Lane moves and votes (R148, R166, R167, R171, R172, R199). -/
namespace Sys2Proof.Machine

/-- A lane's bit in the mask of a list of lanes. -/
theorem getLsbD_maskOf {ls : List Nat} {l : Nat} (h : l < 32) : (maskOf ls).getLsbD l = ls.contains l := by
  have hacc : ∀ m : Mask, (ls.foldl (fun m i => m ||| (1#32 <<< i)) m).getLsbD l = (m.getLsbD l || ls.contains l) := by
    induction ls with
    | nil => exact fun m => (Bool.or_false _).symm
    | cons i is ih =>
      intro m
      have hbit : (1#32 <<< i).getLsbD l = (l == i) := by
        rw [BitVec.getLsbD_shiftLeft, BitVec.getLsbD_one]
        by_cases hl : l = i
        · subst hl
          simp [h]
        · rw [beq_false_of_ne hl]
          simp only [h, decide_true, Bool.true_and]
          by_cases hlt : l < i
          · simp [hlt]
          · simp [show l - i ≠ 0 by omega]
      rw [List.foldl_cons, ih, BitVec.getLsbD_or, hbit, List.contains_cons, Bool.or_assoc]
  exact (hacc 0).trans (by simp)

/-- The lanes of a vote: those that are active and hold the predicate. -/
theorem getLsbD_voteMask (c : Lane) (b : Opnd) {l : Nat} (h : l < 32) :
    (c.voteMask b).getLsbD l = (c.act.getLsbD l && c.readP b l) := by
  rw [Lane.voteMask, getLsbD_maskOf h, Bool.eq_iff_iff, List.contains_iff_mem, List.mem_filter, mem_lanesOf, Bool.and_eq_true]
  simp [h]

/-- No active lane holds the predicate. -/
theorem voteMask_eq_zero (c : Lane) (b : Opnd) : c.voteMask b = 0 ↔ ∀ l ∈ lanesOf c.act, c.readP b l = false := by
  constructor
  · intro hz l hl
    obtain ⟨h32, hact⟩ := mem_lanesOf.mp hl
    have hbit := getLsbD_voteMask c b h32
    rw [hz, hact, Bool.true_and] at hbit
    simpa using hbit.symm
  · intro hall
    refine BitVec.eq_of_getLsbD_eq fun l h32 => ?_
    rw [getLsbD_voteMask c b h32]
    cases hact : c.act.getLsbD l with
    | false => simp
    | true => simp [hall l (mem_lanesOf.mpr ⟨h32, hact⟩)]

/-- Every active lane holds the predicate. -/
theorem voteMask_eq_act (c : Lane) (b : Opnd) : c.voteMask b = c.act ↔ ∀ l ∈ lanesOf c.act, c.readP b l = true := by
  constructor
  · intro he l hl
    obtain ⟨h32, hact⟩ := mem_lanesOf.mp hl
    have hbit := getLsbD_voteMask c b h32
    rw [he, hact, Bool.true_and] at hbit
    exact hbit.symm
  · intro hall
    refine BitVec.eq_of_getLsbD_eq fun l h32 => ?_
    rw [getLsbD_voteMask c b h32]
    cases hact : c.act.getLsbD l with
    | false => rfl
    | true => rw [hall l (mem_lanesOf.mpr ⟨h32, hact⟩)]; rfl

/-- A read of another lane delivers where that lane is live in a strand of the gang, inside the group. -/
theorem cross_eq (c : Lane) (n : Nat) (b : Opnd) (l : Nat) : c.cross n b l =
    if l < c.g.info.size ∧ (strandLanes c.gang).getLsbD l = true ∧ c.g.regs.live.getLsbD l = true then
      c.read n (fun _ => 0) b l else 0 := by
  have hiff : c.delivers l = true ↔
      l < c.g.info.size ∧ (strandLanes c.gang).getLsbD l = true ∧ c.g.regs.live.getLsbD l = true := by
    rw [Lane.delivers, Bool.and_eq_true, Bool.and_eq_true, decide_eq_true_eq, and_assoc]
    rfl
  unfold Lane.cross
  simp only [hiff]

/-- A write of an invalid rounding mode traps (R54). -/
theorem exec_mov_badMode {s : State} {h : Hdr} {c : Lane} {w : MTy} {b : Opnd}
    (hc : s.laneReady h.rg h.sw (some h) [(.sp 10, w.regs)] [(b, w.regs)] = some c)
    (hbad : ∃ l ∈ lanesOf c.act, 6 ≤ c.readMem w b l % 8) : exec (.mov h w (.sp 10) b) s = c.trap 0x01 := by
  change execMov h w (.sp 10) b s = _
  refine (laneInstr_ready _ hc).trans ?_
  refine if_pos (List.any_eq_true.mpr ?_)
  obtain ⟨l, hl, hge⟩ := hbad
  exact ⟨l, hl, decide_eq_true hge⟩

/-- Settles O43: each move puts the value that it names, and a vote is what the mask of its lanes says. -/
theorem laneMovesAndVotes : Obligations.LaneMovesAndVotes := by
  unfold Obligations.LaneMovesAndVotes
  intro s h c w a b d e
  refine ⟨fun hc => laneInstr_puts (f := fun k => k.readMem w b) hc rfl fun _ _ => ⟨rfl, rfl⟩, fun hc hbad ha => ?_,
    fun hc => laneInstr_puts (f := fun k l => if k.readP e l then k.readMem w b l else k.readMem w d l) hc rfl
      fun _ _ => ⟨rfl, rfl⟩, fun hc => ⟨?_, ?_, ?_⟩, fun hc => ⟨?_, ?_, ?_, ?_, ?_, ?_, ?_, ?_⟩, fun hc => ?_, fun hc => ?_⟩
  · subst ha
    exact exec_mov_badMode hc hbad
  · exact laneInstr_puts (f := fun k l => k.cross w.regs b (k.read32 d l)) hc rfl fun l _ => ⟨cross_eq .., rfl⟩
  · exact laneInstr_puts (f := fun k l => k.cross w.regs b (k.read32 d l)) hc rfl fun l _ => ⟨cross_eq .., rfl⟩
  · exact laneInstr_puts (f := fun k l => k.cross w.regs b (Nat.xor l (k.read32 d l % 32))) hc rfl fun l _ => ⟨cross_eq .., rfl⟩
  · refine laneInstr_puts (f := fun k _ => (voteValue 0 (k.voteMask b) k.act).toNat) hc rfl fun _ _ => ⟨rfl, fun l hl => ?_⟩
    exact getLsbD_voteMask c b hl
  · refine laneInstr_puts (f := fun k _ => (voteValue 1 (k.voteMask b) k.act).toNat) hc rfl fun _ _ => ⟨?_, rfl⟩
    have hiff : (c.voteMask b != 0) = true ↔ ∃ l ∈ lanesOf c.act, c.readP b l = true := by
      rw [bne_iff_ne, Ne, voteMask_eq_zero]
      simp
    simp only [voteValue, boolWord, hiff]
    split <;> rfl
  · refine laneInstr_puts (f := fun k _ => (voteValue 2 (k.voteMask b) k.act).toNat) hc rfl fun _ _ => ⟨?_, rfl⟩
    simp only [voteValue, boolWord, beq_iff_eq, voteMask_eq_act]
    split <;> rfl
  · refine laneInstr_puts (f := fun k _ => (voteValue 3 (k.voteMask b) k.act).toNat) hc rfl fun _ _ => ⟨?_, rfl⟩
    simp only [voteValue, boolWord, Bool.or_eq_true, beq_iff_eq, voteMask_eq_act, voteMask_eq_zero, or_comm]
    split <;> rfl
  · refine laneInstr_puts (f := fun k l => if true then (if bit (k.read32 b l) l then 1 else 0)
      else (maskOf ((List.range 32).filter fun j => k.delivers j && k.readP b j)).toNat) hc rfl fun l _ => ⟨?_, rfl⟩
    rw [if_pos rfl, bit_eq_testBit]
    exact (Bool.cond_eq_ite ..).symm
  · refine laneInstr_puts (f := fun k l => if false then (if bit (k.read32 b l) l then 1 else 0)
      else (maskOf ((List.range 32).filter fun j => k.delivers j && k.readP b j)).toNat) hc rfl fun l _ => ⟨rfl, fun k hk => ?_⟩
    rw [if_neg Bool.false_ne_true]
    refine (getLsbD_maskOf hk).trans ?_
    rw [Bool.eq_iff_iff, List.contains_iff_mem, List.mem_filter, List.mem_range]
    exact and_iff_right hk
  · exact laneInstr_puts (f := fun k => k.read32 b) hc rfl fun _ _ => ⟨rfl, rfl⟩
  · exact laneInstr_puts (f := fun k => k.read32 b) hc rfl fun _ _ => ⟨rfl, rfl⟩
  · exact laneInstr_puts (f := fun k _ => k.s.ns) hc rfl fun _ _ => ⟨rfl, rfl⟩
  · change execNop h s = _
    exact laneInstr_ready _ hc

end Sys2Proof.Machine
end

section
/-! SUPPORT. Folds over the spans of a tree, for an associative operator with an identity (R68, R69). -/
namespace Sys2Proof.Machine

/-- Neighbours combined. -/
def pairUp {α : Type} (f : α → α → α) : List α → List α
  | a :: b :: r => f a b :: pairUp f r
  | l => l

/-- A level of the tree some levels up. -/
def pairUps {α : Type} (f : α → α → α) : Nat → List α → List α
  | 0, l => l
  | k + 1, l => pairUps f k (pairUp f l)

/-- A lone element is left over. -/
theorem length_pairUp {α : Type} (f : α → α → α) (l : List α) : (pairUp f l).length = (l.length + 1) / 2 := by
  induction l using pairUp.induct with
  | case1 x y r ih =>
    rw [pairUp, List.length_cons, ih, List.length_cons, List.length_cons]
    omega
  | case2 l hl =>
    match l, hl with
    | [], _ => simp [pairUp]
    | [x], _ => simp [pairUp]
    | x :: y :: r, hl => exact absurd rfl (hl x y r)

section Fold
variable {α : Type} {f : α → α → α} {z : α} (hassoc : ∀ x y w, f (f x y) w = f x (f y w)) (hleft : ∀ x, f z x = x)
  (hright : ∀ x, f x z = x)
include hassoc hleft hright

/-- A fold from a value on is that value and the fold from the identity on. -/
theorem foldl_eq_op_foldl (a : α) (l : List α) : l.foldl f a = f a (l.foldl f z) := by
  induction l generalizing a with
  | nil => exact (hright a).symm
  | cons x r ih => rw [List.foldl_cons, List.foldl_cons, ih (f a x), ih (f z x), hleft, hassoc]

/-- A fold over two lists. -/
theorem foldl_append_op (l r : List α) : (l ++ r).foldl f z = f (l.foldl f z) (r.foldl f z) := by
  rw [List.foldl_append]
  exact foldl_eq_op_foldl hassoc hleft hright _ _

/-- A fold over a run of neighbours combined is the fold over the run itself. -/
theorem foldl_pairUp (l : List α) (a b : Nat) (h : 2 * (a + b) ≤ l.length) :
    (((pairUp f l).drop a).take b).foldl f z = ((l.drop (2 * a)).take (2 * b)).foldl f z := by
  induction l using pairUp.induct generalizing a b with
  | case1 x y r ih =>
    rw [List.length_cons, List.length_cons] at h
    cases a with
    | zero =>
      cases b with
      | zero => rfl
      | succ b =>
        have hrest := ih 0 b (by omega)
        rw [List.drop_zero, Nat.mul_zero, List.drop_zero] at hrest
        rw [pairUp, List.drop_zero, List.drop_zero, List.take_succ_cons, List.foldl_cons, foldl_eq_op_foldl hassoc hleft hright,
          hrest, show 2 * (b + 1) = 2 * b + 1 + 1 by ring, List.take_succ_cons, List.take_succ_cons, List.foldl_cons,
          List.foldl_cons, foldl_eq_op_foldl hassoc hleft hright (f (f z x) y), hleft, hleft]
    | succ a =>
      rw [pairUp, List.drop_succ_cons, show 2 * (a + 1) = 2 * a + 1 + 1 by ring, List.drop_succ_cons, List.drop_succ_cons]
      exact ih a b (by omega)
  | case2 l hl =>
    have hshort : l.length ≤ 1 := by
      match l, hl with
      | [], _ => exact Nat.zero_le _
      | [x], _ => exact Nat.le_refl _
      | x :: y :: r, hl => exact absurd rfl (hl x y r)
    obtain rfl : b = 0 := by omega
    simp

/-- An element of a level is the fold over its span of the leaves. -/
theorem getD_pairUps (k : Nat) (l : List α) (i : Nat) (h : 2 ^ k * (i + 1) ≤ l.length) :
    (pairUps f k l).getD i z = ((l.drop (2 ^ k * i)).take (2 ^ k)).foldl f z := by
  induction k generalizing l with
  | zero =>
    rw [Nat.pow_zero, Nat.one_mul] at h
    rw [pairUps, Nat.pow_zero, Nat.one_mul, List.getD_eq_getElem _ _ (by omega), List.take_one_drop_eq_of_lt_length (by omega)]
    exact (hleft _).symm
  | succ k ih =>
    have hspan : 2 ^ (k + 1) * (i + 1) = 2 * (2 ^ k * i + 2 ^ k) := by ring
    rw [pairUps, ih _ (by rw [length_pairUp]; have : 2 ^ k * (i + 1) = 2 ^ k * i + 2 ^ k := by ring
                          omega),
      foldl_pairUp hassoc hleft hright _ _ _ (by omega), show 2 * (2 ^ k * i) = 2 ^ (k + 1) * i by ring,
      show 2 * 2 ^ k = 2 ^ (k + 1) by ring]

/-- The values of the spans of n leaves fold to the fold over the leaves (R69). -/
theorem foldl_scanSpans (k n at' : Nat) (l : List α) (hn : n < 2 ^ (k + 1)) (hat : 2 ^ (k + 1) ∣ at') (hl : at' + n ≤ l.length) :
    ((scanSpans k n at').map fun e => (pairUps f e.1 l).getD e.2 z).foldl f z = ((l.drop at').take n).foldl f z := by
  induction k generalizing n at' with
  | zero =>
    rw [Nat.pow_one] at hn
    unfold scanSpans
    split
    · obtain rfl : n = 1 := by omega
      have hone := getD_pairUps hassoc hleft hright 0 l at' (by omega)
      rw [Nat.pow_zero, Nat.one_mul] at hone
      rw [List.map_cons, List.map_nil, List.foldl_cons, List.foldl_nil, hone, hleft]
    · obtain rfl : n = 0 := by omega
      simp
  | succ k ih =>
    have hpow : 2 ^ (k + 1 + 1) = 2 * 2 ^ (k + 1) := by ring
    have hat' : 2 ^ (k + 1) ∣ at' := Nat.dvd_trans ⟨2, by rw [hpow]; ring⟩ hat
    unfold scanSpans
    split
    · next hge =>
      obtain ⟨i, hi⟩ := hat'
      have hspan := getD_pairUps hassoc hleft hright (k + 1) l i (by rw [Nat.mul_add, ← hi]; omega)
      rw [List.map_cons, List.foldl_cons, hleft, foldl_eq_op_foldl hassoc hleft hright,
        ih (n - 2 ^ (k + 1)) (at' + 2 ^ (k + 1)) (by omega) (Nat.dvd_add ⟨i, hi⟩ (Nat.dvd_refl _)) (by omega)]
      dsimp only
      rw [show at' / 2 ^ (k + 1) = i by rw [hi, Nat.mul_div_cancel_left _ (Nat.two_pow_pos _)], hspan, ← hi,
        ← foldl_append_op hassoc hleft hright, ← List.drop_drop, ← List.take_add,
        show 2 ^ (k + 1) + (n - 2 ^ (k + 1)) = n by omega]
    · next hlt => exact ih n at' (by omega) hat' hl

/-- Places that give the identity may be left out of a fold. -/
theorem foldl_map_ite {β : Type} (p : β → Bool) (g : β → α) (l : List β) :
    (l.map fun x => if p x then g x else z).foldl f z = ((l.filter p).map g).foldl f z := by
  induction l with
  | nil => rfl
  | cons x r ih =>
    rw [List.map_cons, List.foldl_cons, hleft, foldl_eq_op_foldl hassoc hleft hright, ih, List.filter_cons]
    split
    · rw [List.map_cons, List.foldl_cons, hleft, foldl_eq_op_foldl hassoc hleft hright (g x)]
    · exact hleft _

end Fold
end Sys2Proof.Machine
end

section
/-! SUPPORT. Integer reductions as folds of patterns (R168). -/
namespace Sys2Proof.Machine

/-- A tree value that is an integer with the pattern. -/
def RVal.hasBits {w : Nat} (v : RVal) (x : BitVec w) : Prop := ∃ i : Int, v = .int i ∧ BitVec.ofInt w i = x

variable {it : ITy} {op : Nat} {m : Rnd} {f : BitVec it.width → BitVec it.width → BitVec it.width}

/-- A level of the tree in terms of patterns. -/
theorem redLevel_hasBits (hf : ∀ (v u : RVal) (x y : BitVec it.width), v.hasBits x → u.hasBits y →
    (redStep (.int it) op m v u).hasBits (f x y)) {l : List RVal} {xs : List (BitVec it.width)}
    (h : List.Forall₂ RVal.hasBits l xs) : List.Forall₂ RVal.hasBits (redLevel (.int it) op m l) (pairUp f xs) := by
  induction xs using pairUp.induct generalizing l with
  | case1 x y r ih =>
    obtain ⟨v, l, hv, hl, rfl⟩ := List.forall₂_cons_right_iff.mp h
    obtain ⟨u, l', hu, hl', rfl⟩ := List.forall₂_cons_right_iff.mp hl
    rw [redLevel, pairUp]
    exact .cons (hf v u x y hv hu) (ih hl')
  | case2 xs hxs =>
    match xs, hxs with
    | [], _ =>
      rw [List.forall₂_nil_right_iff.mp h]
      simp [redLevel, pairUp]
    | [x], _ =>
      obtain ⟨v, l, hv, hl, rfl⟩ := List.forall₂_cons_right_iff.mp h
      rw [List.forall₂_nil_right_iff.mp hl]
      simpa [redLevel, pairUp] using hv
    | x :: y :: r, hxs => exact absurd rfl (hxs x y r)

/-- Level k of the tree in terms of patterns. -/
theorem redLevels_hasBits (hf : ∀ (v u : RVal) (x y : BitVec it.width), v.hasBits x → u.hasBits y →
    (redStep (.int it) op m v u).hasBits (f x y)) {l : List RVal} {xs : List (BitVec it.width)}
    (h : List.Forall₂ RVal.hasBits l xs) {k n : Nat} (hk : k ≤ n) :
    List.Forall₂ RVal.hasBits ((redLevels (.int it) op m n l).getD k []) (pairUps f k xs) := by
  induction n generalizing k l xs with
  | zero =>
    obtain rfl : k = 0 := by omega
    exact h
  | succ n ih =>
    cases k with
    | zero => exact h
    | succ k => exact ih (redLevel_hasBits hf h) (by omega)

/-- An element of related lists, or the default. -/
theorem getD_hasBits {w : Nat} {l : List RVal} {xs : List (BitVec w)} (h : List.Forall₂ RVal.hasBits l xs) {v : RVal}
    {z : BitVec w} (hz : v.hasBits z) (i : Nat) : (l.getD i v).hasBits (xs.getD i z) := by
  induction h generalizing i with
  | nil => exact hz
  | cons hx _ ih =>
    cases i with
    | zero => exact hx
    | succ i => exact ih i

/-- The spans are on the levels from k down. -/
theorem mem_scanSpans_le {k n at' : Nat} {e : Nat × Nat} (h : e ∈ scanSpans k n at') : e.1 ≤ k := by
  induction k generalizing n at' with
  | zero =>
    unfold scanSpans at h
    split at h
    · rw [List.mem_singleton.mp h]
    · cases h
  | succ k ih =>
    unfold scanSpans at h
    split at h
    · rcases List.mem_cons.mp h with rfl | h
      · exact Nat.le_refl _
      · exact Nat.le_succ_of_le (ih h)
    · exact Nat.le_succ_of_le (ih h)

/-- The fold over all the leaves of a tree has the pattern that the operator folds their patterns to (R69). -/
theorem scanPrefix_hasBits {z : BitVec it.width} (hf : ∀ (v u : RVal) (x y : BitVec it.width), v.hasBits x → u.hasBits y →
    (redStep (.int it) op m v u).hasBits (f x y)) (hz : (redIdentity (.int it) op).hasBits z)
    (hassoc : ∀ x y w, f (f x y) w = f x (f y w)) (hleft : ∀ x, f z x = x) (hright : ∀ x, f x z = x)
    {l : List RVal} {xs : List (BitVec it.width)} (h : List.Forall₂ RVal.hasBits l xs) (hn : xs.length < 64) :
    (scanPrefix (.int it) op m (redLevels (.int it) op m 5 l) xs.length).hasBits (xs.foldl f z) := by
  have hvals : List.Forall₂ RVal.hasBits
      ((scanSpans 5 xs.length 0).map fun (k, i) => ((redLevels (.int it) op m 5 l).getD k []).getD i (redIdentity (.int it) op))
      ((scanSpans 5 xs.length 0).map fun e => (pairUps f e.1 xs).getD e.2 z) := by
    rw [List.forall₂_map_left_iff, List.forall₂_map_right_iff, List.forall₂_same]
    exact fun e he => getD_hasBits (redLevels_hasBits hf h (mem_scanSpans_le he)) hz _
  have hfold : ∀ {vs : List RVal} {ys : List (BitVec it.width)}, List.Forall₂ RVal.hasBits vs ys → ∀ {v x}, RVal.hasBits v x →
      (vs.foldl (redStep (.int it) op m) v).hasBits (ys.foldl f x) := by
    intro vs ys hvy
    induction hvy with
    | nil => exact fun hv => hv
    | cons hy _ ih => exact fun hv => ih (hf _ _ _ _ hv hy)
  have hspans := foldl_scanSpans hassoc hleft hright 5 xs.length 0 xs hn ⟨0, rfl⟩ (by omega)
  rw [List.drop_zero, List.take_length] at hspans
  rw [← hspans]
  unfold scanPrefix
  generalize (scanSpans 5 xs.length 0).map (fun e => (pairUps f e.1 xs).getD e.2 z) = ys at hvals
  generalize (scanSpans 5 xs.length 0).map _ = vs at hvals
  cases hvals with
  | nil => exact hz
  | cons hv hvs =>
    rw [List.foldl_cons, hleft]
    exact hfold hvs hv

end Sys2Proof.Machine
end

section
/-! PROOFS. Lane reductions, scans, transposes and tile moves (R68, R69, R168, R169, R302). -/
namespace Sys2Proof.Machine

/-- The value of element i that a tree over the lanes gives for n positions. -/
def Lane.redVal (c : Lane) (t : Ty) (op : Nat) (r : Rnd) (b : Opnd) (n i : Nat) : RVal :=
  scanPrefix t op (c.mode r)
    (((List.range (32 * tyRegs t / t.width)).map fun i => redLevels t op (c.mode r) 5 (c.redLeaves t op b i)).getD i []) n

/-- The value and the flags that REDL or SCNL gives a lane. -/
def Lane.redOut (c : Lane) (t : Ty) (op : Nat) (r : Rnd) (sat : Sat) (nf : Bool) (b : Opnd) (pre : Nat → Nat → Nat) (l : Nat) :
    Nat × Nat :=
  let els := List.range (32 * tyRegs t / t.width)
  let fins (l : Nat) := els.map fun i => redFinal t op sat (c.redVal t op r b (pre c.g.info.size l) i)
  (packElems t.width ((fins l).map (·.1)), nfFlags nf
    (orAll ((List.range c.g.info.size).flatMap fun l => els.map fun i => (c.redVal t op r b (pre c.g.info.size l) i).flags) |||
      orAll ((lanesOf c.act).flatMap fun l => (fins l).map (·.2))))

/-- What REDL and SCNL give in each element. -/
theorem reduceOp_writes {s : State} {h : Hdr} {c : Lane} {t : Ty} {op : Nat} {r : Rnd} {sat : Sat} {nf : Bool} {a b : Opnd}
    {pre : Nat → Nat → Nat} {i : Instr} (hc : s.laneReady h.rg h.sw (some h) [(a, tyRegs t)] [(b, tyRegs t)] = some c)
    (hi : exec i s = reduceOp s h t op r sat nf a b pre) :
    c.writes s i a (tyRegs t) fun l v _ => ∀ j < 32 * tyRegs t / t.width, (elemBits t.width v j).toNat =
      (redFinal t op sat (scanPrefix t op (c.mode r) (redLevels t op (c.mode r) 5 (c.redLeaves t op b j))
        (pre c.g.info.size l))).1 % 2 ^ t.width := by
  refine laneInstr_writes (f := fun c => c.redOut t op r sat nf b pre) hc hi fun l _ j hj => ?_
  unfold Lane.redOut
  dsimp only
  rw [List.map_map, elemBits_packElems_range _ hj, BitVec.toNat_ofNat]
  simp [Lane.redVal, hj]

/-- A pattern read as an integer, of either signedness, has the pattern. -/
theorem ofInt_readInt (sg : Bool) {w : Nat} (hw : 0 < w) (v : Nat) : BitVec.ofInt w (readInt sg w v) = BitVec.ofNat w v := by
  unfold readInt
  split
  · rw [toSigned_eq_toInt w v hw, BitVec.ofInt_toInt]
  · rw [BitVec.ofInt_natCast]
    apply BitVec.eq_of_toNat_eq
    rw [BitVec.toNat_ofNat, BitVec.toNat_ofNat, Nat.mod_mod]

/-- No flag is the OR of none. -/
theorem orAll_eq_zero {l : List Nat} (h : ∀ x ∈ l, x = 0) : orAll l = 0 := by
  unfold orAll
  induction l with
  | nil => rfl
  | cons x r ih =>
    rw [List.foldl_cons, h x List.mem_cons_self, Nat.or_zero]
    exact ih fun y hy => h y (List.mem_cons_of_mem _ hy)

/-- The leaves of a tree over integers, in terms of patterns. -/
theorem redLeaves_hasBits (c : Lane) {t : ITy} {op : Nat} (b : Opnd) {z : BitVec t.width}
    (hz : (redIdentity (.int t) op).hasBits z) : List.Forall₂ RVal.hasBits (c.redLeaves (.int t) op b 0)
      ((List.range c.g.info.size).map fun l =>
        if c.act.getLsbD l then elemBits t.width (c.read (tyRegs (.int t)) (fun _ => 0) b l) 0 else z) := by
  unfold Lane.redLeaves
  rw [List.forall₂_map_left_iff, List.forall₂_map_right_iff, List.forall₂_same]
  intro l _
  split
  · exact ⟨_, rfl, (ofInt_readInt t.signed (intWidth_pos t) _).trans (ofNat_bits ..)⟩
  · exact hz

/-- An integer REDL of one element gives the fold of the operator over the active lanes, and no flag (R168). -/
theorem redl_int_writes {s : State} {h : Hdr} {c : Lane} {t : ITy} {op : Nat} {nf : Bool} {a b : Opnd} {z : BitVec t.width}
    {f : BitVec t.width → BitVec t.width → BitVec t.width}
    (hc : s.laneReady h.rg h.sw (some h) [(a, t.regs)] [(b, t.regs)] = some c) (ht : t.unpacked = true)
    (hsize : c.g.info.size ≤ 32) (hf : ∀ (v u : RVal) (x y : BitVec t.width), v.hasBits x → u.hasBits y →
      (redStep (.int t) op (c.mode .rn) v u).hasBits (f x y)) (hz : (redIdentity (.int t) op).hasBits z)
    (hassoc : ∀ x y w, f (f x y) w = f x (f y w)) (hleft : ∀ x, f z x = x) (hright : ∀ x, f x z = x) :
    c.writes s (.redl h (.int t) op .rn .wrap nf a b) a t.regs fun _ v fl =>
      elemBits t.width v 0 = (((List.range c.g.info.size).filter c.act.getLsbD).map fun l =>
        elemBits t.width (c.read t.regs (fun _ => 0) b l) 0).foldl f z ∧ fl = 0 := by
  have hregs : tyRegs (.int t) = t.regs := by cases t <;> rfl
  have hone : 32 * tyRegs (.int t) / (Ty.int t).width = 1 := by
    cases t with
    | i32 | n32 | i64 | n64 => rfl
    | i16x2 | n16x2 | i8x4 | n8x4 => cases ht
  have htree := scanPrefix_hasBits hf hz hassoc hleft hright (redLeaves_hasBits c b hz)
    (by rw [List.length_map, List.length_range]; omega)
  rw [List.length_map, List.length_range, foldl_map_ite hassoc hleft hright, hregs] at htree
  obtain ⟨i, hi, hbits⟩ := htree
  have hval : c.redVal (.int t) op .rn b c.g.info.size 0 = .int i := by
    rw [Lane.redVal, hone]
    exact hi
  rw [← hregs] at hc ⊢
  refine laneInstr_writes (f := fun c => c.redOut (.int t) op .rn .wrap nf b fun n _ => n) hc rfl fun l _ => ⟨?_, ?_⟩
  · unfold Lane.redOut
    dsimp only
    rw [hone, hregs, ← hbits]
    simp only [List.range_one, List.map_cons, List.map_nil, hval]
    exact (elemBits_packElems (w := t.width) [_] Nat.zero_lt_one).trans (ofNat_wrapTo ..)
  · unfold Lane.redOut
    dsimp only
    rw [hone, orAll_eq_zero, orAll_eq_zero]
    · cases nf <;> rfl
    · simp only [List.range_one, List.map_cons, List.map_nil, hval, List.mem_flatMap, List.mem_singleton]
      rintro x ⟨_, _, rfl⟩
      rfl
    · simp only [List.range_one, List.map_cons, List.map_nil, hval, List.mem_flatMap, List.mem_singleton]
      rintro x ⟨_, _, rfl⟩
      rfl

/-- A step of an integer tree that gives a pattern by an operator on patterns. -/
theorem redStep_hasBits {t : ITy} {op : Nat} {m : Rnd} {f : BitVec t.width → BitVec t.width → BitVec t.width}
    (h : ∀ i j : Int, (redStep (.int t) op m (.int i) (.int j)).hasBits (f (BitVec.ofInt t.width i) (BitVec.ofInt t.width j)))
    (v u : RVal) (x y : BitVec t.width) (hv : v.hasBits x) (hu : u.hasBits y) : (redStep (.int t) op m v u).hasBits (f x y) := by
  obtain ⟨i, rfl, rfl⟩ := hv
  obtain ⟨j, rfl, rfl⟩ := hu
  exact h i j

/-- The integer operators of REDL, as operators on patterns. -/
theorem redl_int_spec {s : State} {h : Hdr} {c : Lane} {t : ITy} {nf : Bool} {a b : Opnd}
    (hc : s.laneReady h.rg h.sw (some h) [(a, t.regs)] [(b, t.regs)] = some c) (ht : t.unpacked = true)
    (hsize : c.g.info.size ≤ 32) :
    let xs := ((List.range c.g.info.size).filter c.act.getLsbD).map fun l =>
      elemBits t.width (c.read t.regs (fun _ => 0) b l) 0
    let red (op : Nat) (f : BitVec t.width → BitVec t.width → BitVec t.width) (z : BitVec t.width) : Prop :=
      c.writes s (.redl h (.int t) op .rn .wrap nf a b) a t.regs fun _ v fl => elemBits t.width v 0 = xs.foldl f z ∧ fl = 0
    red 0 (· + ·) 0 ∧ red 3 (· &&& ·) (BitVec.allOnes _) ∧ red 4 (· ||| ·) 0 ∧ red 5 (· ^^^ ·) 0 := by
  have hw := intWidth_pos t
  have hzero : ∀ op, redIdentity (.int t) op = .int 0 → (redIdentity (.int t) op).hasBits (0 : BitVec t.width) := by
    intro op hop
    exact ⟨0, hop, by simp⟩
  refine ⟨?_, ?_, ?_, ?_⟩
  · refine redl_int_writes hc ht hsize (redStep_hasBits fun i j => ?_) (hzero 0 rfl) BitVec.add_assoc
      BitVec.zero_add BitVec.add_zero
    exact ⟨i + j, rfl, BitVec.ofInt_add ..⟩
  · refine redl_int_writes hc ht hsize (redStep_hasBits fun i j => ?_) ⟨_, rfl, ?_⟩ BitVec.and_assoc
      (fun x => BitVec.allOnes_and) (fun x => BitVec.and_allOnes)
    · exact ⟨readInt t.signed t.width (wrapTo t.width i &&& wrapTo t.width j), rfl, by
        rw [ofInt_readInt _ hw, BitVec.ofNat_and, ofNat_wrapTo, ofNat_wrapTo]⟩
    · rw [ofInt_readInt _ hw]
      exact BitVec.eq_of_toNat_eq (by rw [BitVec.toNat_ofNat, BitVec.toNat_allOnes, Nat.mod_eq_of_lt (Nat.sub_one_lt (by positivity))])
  · refine redl_int_writes hc ht hsize (redStep_hasBits fun i j => ?_) (hzero 4 rfl) BitVec.or_assoc
      (fun x => BitVec.zero_or) (fun x => BitVec.or_zero)
    exact ⟨readInt t.signed t.width (wrapTo t.width i ||| wrapTo t.width j), rfl, by
      rw [ofInt_readInt _ hw, BitVec.ofNat_or, ofNat_wrapTo, ofNat_wrapTo]⟩
  · refine redl_int_writes hc ht hsize (redStep_hasBits fun i j => ?_) (hzero 5 rfl) BitVec.xor_assoc
      (fun x => BitVec.zero_xor) (fun x => BitVec.xor_zero)
    exact ⟨readInt t.signed t.width (Nat.xor (wrapTo t.width i) (wrapTo t.width j)), rfl, by
      rw [ofInt_readInt _ hw, ← ofNat_wrapTo _ i, ← ofNat_wrapTo _ j, ← BitVec.ofNat_xor]
      rfl⟩

/-- Element i of registers read as one value. -/
theorem elemBits_spanVal (f : Nat → Word) {n i : Nat} (h : i < n) : elemBits 32 (spanVal f n) i = f i := by
  induction n generalizing f i with
  | zero => omega
  | succ n ih =>
    have hlt := (f 0).isLt
    cases i with
    | zero =>
      apply BitVec.eq_of_toNat_eq
      rw [elemBits, spanVal, BitVec.toNat_ofNat]
      omega
    | succ i =>
      have hdiv : spanVal f (n + 1) / 2 ^ (32 * (i + 1)) = spanVal (fun i => f (i + 1)) n / 2 ^ (32 * i) := by
        rw [show 32 * (i + 1) = 32 + 32 * i by ring, Nat.pow_add, ← Nat.div_div_eq_div_mul, spanVal]
        congr 1
        omega
      rw [elemBits, hdiv]
      exact ih _ (by omega)

/-- GTRN in a group that holds a block transposes its elements (R169). -/
theorem gtrn_writes {s : State} {h : Hdr} {c : Lane} {w : MTy} {a : Opnd} {v0 m k : Nat} (hm : m = 4 / w.bytes) (hk : k = 8 / m)
    (hw : w = .b8 ∨ w = .b16 ∨ w = .b32) (hc : s.laneReady h.rg h.sw (some h) [(a, 8)] [(.v v0, 8)] = some c)
    (hsize : k ≤ c.g.info.size) :
    c.writes s (.gtrn h w a (.v v0)) a 8 fun l v fl => fl = 0 ∧ ∀ row < 8, ∀ j < m,
      (elemBits (8 * w.bytes) (elemBits 32 v row).toNat j).toNat =
        if c.act.getLsbD (k * (l / k) + row / m) then
          (elemBits (8 * w.bytes) (c.g.getV (v0 + (l % k * m + j)) (k * (l / k) + row / m)).toNat (row % m)).toNat else 0 := by
  have hm' : 32 / (8 * w.bytes) = m := by rw [hm]; rcases hw with rfl | rfl | rfl <;> rfl
  have hbits : 8 * w.bytes * m = 32 := by rw [hm]; rcases hw with rfl | rfl | rfl <;> rfl
  have hwrites : c.writes s (.gtrn h w a (.v v0)) a 8 fun l v fl => fl = 0 ∧
      v = packElems 32 ((List.range 8).map fun row => packElems (8 * w.bytes) ((List.range m).map fun e =>
        c.gtrnElem (8 * w.bytes) (.v v0) (l / k) (l % k * m + e) row)) := by
    refine ⟨_, noFlags, fun l _ => ⟨rfl, rfl⟩, fun hmode => ?_⟩
    change execGtrn h w a (.v v0) s = _
    refine (laneInstr_ready _ hc).trans ?_
    dsimp only
    rw [hm', ← hk, if_neg (by omega)]
    exact Lane.put_eq c a 8 _ hmode
  refine hwrites.mono fun l v fl hv => ⟨hv.1, fun row hrow j hj => ?_⟩
  have hlt : ∀ xs : List Nat, xs.length = m → packElems (8 * w.bytes) xs < 2 ^ 32 := by
    intro xs hxs
    have hpack := packElems_lt (8 * w.bytes) xs
    rwa [hxs, hbits] at hpack
  rw [hv.2, elemBits_packElems_range _ hrow, BitVec.toNat_ofNat, Nat.mod_eq_of_lt (hlt _ (by simp)),
    elemBits_packElems_range _ hj]
  unfold Lane.gtrnElem
  dsimp only
  rw [hm', ← hk]
  split
  · rw [bits_eq_elemBits, BitVec.ofNat_toNat, BitVec.setWidth_eq]
  · simp

/-- Results of a list that a later one does not write again. -/
theorem mem_of_mem_lastWrites {x : Res} {rs : List Res} (h : x ∈ lastWrites rs) : x ∈ rs := by
  induction rs with
  | nil => exact h
  | cons r rs ih =>
    unfold lastWrites at h
    split at h
    · exact List.mem_cons_of_mem _ (ih h)
    · rcases List.mem_cons.mp h with rfl | h
      · exact List.mem_cons_self
      · exact List.mem_cons_of_mem _ (ih h)

/-- Every destination of a list keeps a result. -/
theorem exists_mem_lastWrites {x : Res} {rs : List Res} (h : x ∈ rs) : ∃ y ∈ lastWrites rs, y.dest = x.dest := by
  induction rs generalizing x with
  | nil => cases h
  | cons r rs ih =>
    unfold lastWrites
    split
    · next hany =>
      rcases List.mem_cons.mp h with rfl | h
      · obtain ⟨y, hy, hd⟩ := List.any_eq_true.mp hany
        obtain ⟨u, hu, hud⟩ := ih hy
        exact ⟨u, hu, hud.trans (beq_iff_eq.mp hd)⟩
      · exact ih h
    · rcases List.mem_cons.mp h with rfl | h
      · exact ⟨_, List.mem_cons_self, rfl⟩
      · obtain ⟨y, hy, hd⟩ := ih h
        exact ⟨y, List.mem_cons_of_mem _ hy, hd⟩

/-- No destination keeps two results. -/
theorem lastWrites_nodup (rs : List Res) : ((lastWrites rs).map (·.dest)).Nodup := by
  induction rs with
  | nil => exact List.nodup_nil
  | cons r rs ih =>
    unfold lastWrites
    split
    · exact ih
    · next hany =>
      rw [List.map_cons, List.nodup_cons]
      refine ⟨fun hmem => ?_, ih⟩
      obtain ⟨y, hy, hd⟩ := List.mem_map.mp hmem
      exact hany (List.any_eq_true.mpr ⟨y, mem_of_mem_lastWrites hy, beq_iff_eq.mpr hd⟩)

/-- A register that lies inside the tile has its spot there. -/
theorem tileSpot_eq (c : Lane) (d e : Opnd) (l i : Nat) : c.tileSpot d e l i =
    if c.read32 d l < 64 ∧ c.read32 e l + l + c.g.info.size * i < 64 then
      some (c.read32 d l, c.read32 e l + l + c.g.info.size * i) else none := by
  unfold Lane.tileSpot
  simp only [Bool.and_eq_true, decide_eq_true_eq]

/-- AMOVR gives the tile's elements, and 0 outside it (R302). -/
theorem amovr_writes {s : State} {h : Hdr} {c : Lane} {w : MTy} {a d e : Opnd} {t : Nat}
    (hc : s.laneReady h.rg h.sw (some h) [(a, w.regs)] [(.a t, 1), (d, 1), (e, 1)] = some c) :
    c.writes s (.amovr h w a (.a t) d e) a w.regs fun l v fl => fl = 0 ∧ ∀ i < w.regs, elemBits 32 v i =
      if c.read32 d l < 64 ∧ c.read32 e l + l + c.g.info.size * i < 64 then
        c.g.getTile t (c.read32 d l) (c.read32 e l + l + c.g.info.size * i) else 0 := by
  refine laneInstr_puts (f := fun k l => spanVal (fun i =>
    match k.tileSpot d e l i with
    | some (r, q) => k.g.getTile (tileOf (.a t)) r q
    | none => 0) w.regs) hc rfl fun l _ => ⟨rfl, fun i hi => ?_⟩
  rw [elemBits_spanVal _ hi, tileSpot_eq]
  by_cases hin : c.read32 d l < 64 ∧ c.read32 e l + l + c.g.info.size * i < 64
  · rw [if_pos hin, if_pos hin]
    rfl
  · rw [if_neg hin, if_neg hin]

/-- The result of AMOVW for a register that has a spot in the tile. -/
def Lane.tileRes (c : Lane) (w : MTy) (t : Nat) (b : Opnd) (l i : Nat) (spot : Nat × Nat) : Res :=
  { own := c.gang, dest := .tile t spot.1 spot.2,
    val := BitVec.ofNat 32 (c.read w.regs (fun _ => 0) b l / 2 ^ (32 * i)), orIn := false }

/-- The results of AMOVW, in order. -/
def Lane.tileResults (c : Lane) (w : MTy) (t : Nat) (b d e : Opnd) : List Res :=
  (lanesOf c.act).flatMap fun l => (List.range w.regs).flatMap fun i => ((c.tileSpot d e l i).map (c.tileRes w t b l i)).toList

/-- AMOVW keeps the last result for each element (R302). -/
theorem exec_amovw {s : State} {h : Hdr} {c : Lane} {w : MTy} {b d e : Opnd} {t : Nat}
    (hc : s.laneReady h.rg h.sw (some h) [(.a t, 1)] [(b, w.regs), (d, 1), (e, 1)] = some c) :
    exec (.amovw h w (.a t) b d e) s = .next (c.done (lastWrites (c.tileResults w t b d e))) := by
  have hlist : (fun l => (List.range w.regs).flatMap fun i =>
      match c.tileSpot d e l i with
      | some (r, q) => [({ own := c.gang, dest := .tile (tileOf (.a t)) r q
                           val := BitVec.ofNat 32 (c.read w.regs (fun _ => 0) b l / 2 ^ (32 * i)), orIn := false } : Res)]
      | none => []) = fun l => (List.range w.regs).flatMap fun i =>
        ((c.tileSpot d e l i).map (c.tileRes w t b l i)).toList := by
    funext l
    congr 1
    funext i
    cases c.tileSpot d e l i <;> rfl
  change execAmovw h w (.a t) b d e s = _
  refine (laneInstr_ready _ hc).trans ?_
  unfold Lane.tileResults
  rw [← hlist]
  rfl

/-- The results of AMOVW are those of the registers that have a spot in the tile. -/
theorem mem_tileResults {c : Lane} {w : MTy} {t : Nat} {b d e : Opnd} {x : Res} : x ∈ c.tileResults w t b d e ↔
    ∃ l ∈ lanesOf c.act, ∃ i < w.regs, (c.read32 d l < 64 ∧ c.read32 e l + l + c.g.info.size * i < 64) ∧
      x = c.tileRes w t b l i (c.read32 d l, c.read32 e l + l + c.g.info.size * i) := by
  simp only [Lane.tileResults, List.mem_flatMap, List.mem_range, Option.mem_toList, Option.map_eq_some_iff, tileSpot_eq,
    Option.ite_none_right_eq_some, Option.some.injEq]
  constructor
  · rintro ⟨l, hl, i, hi, spot, ⟨hin, rfl⟩, rfl⟩
    exact ⟨l, hl, i, hi, hin, rfl⟩
  · rintro ⟨l, hl, i, hi, hin, rfl⟩
    exact ⟨l, hl, i, hi, _, ⟨hin, rfl⟩, rfl⟩

/-- Settles O44: reductions fold over the spans of the tree; transposes and tile moves move the elements that they name. -/
theorem laneReductionsTransposesTiles : Obligations.LaneReductionsTransposesTiles := by
  unfold Obligations.LaneReductionsTransposesTiles
  intro s h c a b d e
  refine ⟨fun t nf ht hsize hc => redl_int_spec hc ht hsize, fun t op excl r sat nf hc => ⟨?_, ?_⟩,
    fun w hw hc v0 hb => ⟨fun hsize => ?_, fun hsize => ?_⟩, fun w hw => ⟨fun t hb hc => ?_, fun t ha hc => ?_⟩⟩
  · exact reduceOp_writes (pre := fun n _ => n) hc rfl
  · exact reduceOp_writes (pre := fun _ l => if excl then l else l + 1) hc rfl
  · subst hb
    exact gtrn_writes rfl rfl hw hc hsize
  · change execGtrn h w a b s = _
    refine (laneInstr_ready _ hc).trans (if_pos ?_)
    rcases hw with rfl | rfl | rfl <;> exact hsize
  · subst hb
    exact amovr_writes hc
  · subst ha
    refine ⟨_, exec_amovw hc, fun x hx => ?_, fun l hl i hi hr hq => ?_, lastWrites_nodup _⟩
    · obtain ⟨l, hl, i, hi, ⟨hr, hq⟩, rfl⟩ := mem_tileResults.mp (mem_of_mem_lastWrites hx)
      exact ⟨l, hl, i, hi, hr, hq, rfl⟩
    · obtain ⟨y, hy, hd⟩ := exists_mem_lastWrites (mem_tileResults.mpr ⟨l, hl, i, hi, ⟨hr, hq⟩, rfl⟩)
      exact ⟨y, hy, hd⟩

end Sys2Proof.Machine
end

section
/-! SUPPORT. Landing results of one gang (R39, R40). -/
namespace Sys2Proof.Machine

/-- A result for a special register lands in `%flg`, `%rmode` or `%lfsr`, and one for another of them nowhere. -/
theorem land_sp (g : Group) (n l : Nat) (w : Word) (o : Bool) : g.land (.sp n l) w o =
    if n = 9 then (if o then g.setFlg l (g.getFlg l ||| w) else g.setFlg l w)
    else if n = 10 then { g with regs := { g.regs with rmode := w.toNat % 8 } }
    else if n = 19 then g.setLfsr l w else g := by
  by_cases h9 : n = 9
  · subst h9
    rfl
  by_cases h10 : n = 10
  · subst h10
    rfl
  by_cases h19 : n = 19
  · subst h19
    rfl
  rw [if_neg h9, if_neg h10, if_neg h19]
  unfold Group.land
  split
  case h_4 h => exact absurd (Dest.sp.inj h).1 h9
  case h_5 h => exact absurd (Dest.sp.inj h).1 h10
  case h_6 h => exact absurd (Dest.sp.inj h).1 h19
  case h_7 => rfl
  all_goals contradiction

/-- A result lands in the registers whatever is pending. -/
theorem land_withPend (g : Group) (rs : List Res) (d : Dest) (w : Word) (o : Bool) :
    ({ g with pend := rs } : Group).land d w o = { g.land d w o with pend := rs } := by
  rw [Group.land_eq ({ g with pend := rs } : Group), Group.land_eq g]
  cases d with
  | v => rfl
  | p r l => simp only [Group.land, Group.setP]; split <;> rfl
  | s => rfl
  | tile => rfl
  | sp n l =>
    simp only [land_sp]
    split_ifs <;> rfl

/-- A list of results lands in the registers whatever is pending. -/
theorem landAll_withPend (g : Group) (rs ps : List Res) :
    ({ g with pend := ps } : Group).landAll rs = { g.landAll rs with pend := ps } := by
  induction rs generalizing g with
  | nil => rfl
  | cons r rs ih => rw [Group.landAll, land_withPend, ih, Group.landAll]

/-- When all that is pending is the gang's, all of it lands. -/
theorem landOf_results {g : Group} {own : BitVec 8} {rs : List Res} (hpend : g.pend = []) (hown : own ≠ 0)
    (hrs : ∀ r ∈ rs, r.own = own) : ({ g with pend := rs } : Group).landOf own = g.landAll rs := by
  have hin : rs.filter (fun r => r.own &&& own != 0) = rs := List.filter_eq_self.mpr fun r hr => by
    rw [hrs r hr, BitVec.and_self]
    exact bne_iff_ne.mpr hown
  have hout : rs.filter (fun r => r.own &&& own == 0) = [] := List.filter_eq_nil_iff.mpr fun r hr => by
    rw [hrs r hr, BitVec.and_self]
    exact fun h => hown (beq_iff_eq.mp h)
  unfold Group.landOf
  rw [hin, hout, landAll_withPend]
  change ({ g.landAll rs with pend := [] } : Group) = g.landAll rs
  rw [Group.landAll_eq, ← hpend]

/-- A single result of the gang lands. -/
theorem landOf_one {g : Group} {own : BitVec 8} (d : Dest) (v : Word) (hpend : g.pend = []) (hown : own ≠ 0) :
    ({ g with pend := [{ own := own, dest := d, val := v, orIn := false }] } : Group).landOf own = g.land d v false :=
  landOf_results hpend hown fun r hr => by rw [List.mem_singleton.mp hr]

theorem landAll_append (g : Group) (rs ps : List Res) : g.landAll (rs ++ ps) = (g.landAll rs).landAll ps := by
  induction rs generalizing g with
  | nil => rfl
  | cons r rs ih => exact ih _

/-- Results of other places leave a vector register's element. -/
theorem getV_land (g : Group) (d : Dest) (w : Word) (o : Bool) {k q : Nat} (hq : q < 32)
    (hd : ∀ n l, d = .v n l → l < 32) : (g.land d w o).getV k q = if d = .v k q then w else g.getV k q := by
  cases d with
  | v n l =>
    refine (Group.getV_setV g n l k q w (hd n l rfl) hq).trans ?_
    simp only [Dest.v.injEq]
  | p r l =>
    rw [if_neg (by simp)]
    simp only [Group.land, Group.setP]
    split <;> rfl
  | s => exact (if_neg (by simp)).symm
  | tile => exact (if_neg (by simp)).symm
  | sp n l =>
    rw [if_neg (by simp)]
    simp only [land_sp]
    split_ifs <;> rfl

/-- What an element of a vector register holds once results have landed that agree on its value. -/
theorem getV_landAll {rs : List Res} {F : Nat → Nat → Word} (hF : ∀ r ∈ rs, ∀ n l, r.dest = .v n l → l < 32 ∧ r.val = F n l)
    (g : Group) {k q : Nat} (hq : q < 32) :
    (g.landAll rs).getV k q = if ∃ r ∈ rs, r.dest = .v k q then F k q else g.getV k q := by
  induction rs generalizing g with
  | nil => exact (if_neg (by simp)).symm
  | cons r rs ih =>
    rw [Group.landAll, ih (fun x hx => hF x (List.mem_cons_of_mem _ hx)),
      getV_land g _ _ _ hq fun n l h => (hF r List.mem_cons_self n l h).1]
    by_cases hin : ∃ x ∈ rs, x.dest = .v k q
    · obtain ⟨x, hx, hd⟩ := hin
      rw [if_pos ⟨x, hx, hd⟩, if_pos ⟨x, List.mem_cons_of_mem _ hx, hd⟩]
    · rw [if_neg hin]
      by_cases hr : r.dest = .v k q
      · rw [if_pos hr, if_pos ⟨r, List.mem_cons_self, hr⟩]
        exact (hF r List.mem_cons_self k q hr).2
      · rw [if_neg hr, if_neg]
        rintro ⟨x, hx, hd⟩
        rcases List.mem_cons.mp hx with rfl | hx
        · exact hr hd
        · exact hin ⟨x, hx, hd⟩

/-- Results of other places leave the flags. -/
theorem getFlg_landAll_ne {rs : List Res} {l : Nat} (h : ∀ r ∈ rs, r.dest ≠ .sp 9 l) (g : Group) :
    (g.landAll rs).getFlg l = g.getFlg l := by
  induction rs generalizing g with
  | nil => rfl
  | cons r rs ih =>
    rw [Group.landAll, ih fun x hx => h x (List.mem_cons_of_mem _ hx)]
    have hne := h r List.mem_cons_self
    cases hd : r.dest with
    | v => rfl
    | p r l => simp only [Group.land, Group.setP]; split <;> rfl
    | s => rfl
    | tile => rfl
    | sp n m =>
      rw [land_sp]
      by_cases h9 : n = 9
      · subst h9
        rw [if_pos rfl]
        have hml : m ≠ l := fun h => hne (h ▸ hd)
        cases r.orIn
        · exact tget_tset_ne _ _ _ hml
        · exact tget_tset_ne _ _ _ hml
      · rw [if_neg h9]
        split_ifs <;> rfl

/-- The flags of the lanes of a list, once their results have landed. -/
theorem getFlg_flagRes (own : BitVec 8) (fl : Nat → Nat) {ls : List Nat} (hls : ls.Nodup) (g : Group) (l : Nat) :
    (g.landAll (ls.flatMap fun l => flagRes own l (fl l))).getFlg l =
      if l ∈ ls ∧ fl l ≠ 0 then (g.getFlg l ||| BitVec.ofNat 32 (fl l)) &&& 63 else g.getFlg l := by
  induction ls generalizing g with
  | nil => exact (if_neg (by simp)).symm
  | cons k ks ih =>
    obtain ⟨hk, hks⟩ := List.nodup_cons.mp hls
    rw [List.flatMap_cons, landAll_append, ih hks]
    have hone : (g.landAll (flagRes own k (fl k))).getFlg l =
        if k = l ∧ fl k ≠ 0 then (g.getFlg k ||| BitVec.ofNat 32 (fl k)) &&& 63 else g.getFlg l := by
      unfold flagRes
      split
      · next hz => exact (if_neg (by simp [hz])).symm
      · next hnz =>
        refine (tget_tset ..).trans ?_
        simp only [hnz, ne_eq, not_false_eq_true, and_true]
        rfl
    rw [hone]
    by_cases hl : k = l
    · subst hl
      by_cases hz : fl k = 0
      · simp [hz]
      · simp [hz, hk]
    · have hl' : ¬ l = k := fun h => hl h.symm
      simp [hl, hl']

/-- Results for vector registers, predicates and flags leave every other part of the group. -/
theorem landAll_frame {rs : List Res} (h : ∀ x ∈ rs, (∃ n l, x.dest = .v n l) ∨ (∃ n l, x.dest = .p n l) ∨ ∃ l, x.dest = .sp 9 l)
    (g : Group) : g.landAll rs =
      { g with regs := { g.regs with v := (g.landAll rs).regs.v, p := (g.landAll rs).regs.p, flg := (g.landAll rs).regs.flg } } := by
  induction rs generalizing g with
  | nil => rfl
  | cons x xs ih =>
    rw [Group.landAll, ih fun y hy => h y (List.mem_cons_of_mem _ hy)]
    rcases h x List.mem_cons_self with ⟨n, l, hd⟩ | ⟨n, l, hd⟩ | ⟨l, hd⟩ <;> rw [hd]
    · rfl
    · simp only [Group.land, Group.setP]
      split <;> rfl
    · rw [land_sp, if_pos rfl]
      cases x.orIn <;> rfl

/-- Results of other places leave the vector registers. -/
theorem landAll_v {rs : List Res} (h : ∀ x ∈ rs, ∀ n l, x.dest ≠ .v n l) (g : Group) : (g.landAll rs).regs.v = g.regs.v := by
  induction rs generalizing g with
  | nil => rfl
  | cons x xs ih =>
    rw [Group.landAll, ih fun y hy => h y (List.mem_cons_of_mem _ hy)]
    cases hd : x.dest with
    | v n l => exact absurd hd (h x List.mem_cons_self n l)
    | p n l =>
      simp only [Group.land, Group.setP]
      split <;> rfl
    | s => rfl
    | tile => rfl
    | sp n l =>
      rw [land_sp]
      split_ifs <;> rfl

/-- Results of other places leave the lane predicates. -/
theorem landAll_p {rs : List Res} (h : ∀ x ∈ rs, ∀ n l, x.dest ≠ .p n l) (g : Group) : (g.landAll rs).regs.p = g.regs.p := by
  induction rs generalizing g with
  | nil => rfl
  | cons x xs ih =>
    rw [Group.landAll, ih fun y hy => h y (List.mem_cons_of_mem _ hy)]
    cases hd : x.dest with
    | v => rfl
    | p n l => exact absurd hd (h x List.mem_cons_self n l)
    | s => rfl
    | tile => rfl
    | sp n l =>
      rw [land_sp]
      split_ifs <;> rfl

/-- The bits of a predicate after one of its bits is written. -/
theorem getLsbD_getP_setP (g : Group) {n l q : Nat} (b : Bool) (hn : n < 7) (hl : l < 32) (hq : q < 32) :
    ((g.setP n l b).getP n).getLsbD q = if q = l then b else (g.getP n).getLsbD q := by
  have hget : (g.setP n l b).getP n = (g.getP n &&& ~~~(1#32 <<< l)) ||| (if b then 1#32 <<< l else 0) := by
    simp only [Group.setP, if_pos hn, Group.getP, tget_tset_same]
  rw [hget]
  have hone : (1#32 <<< l).getLsbD q = decide (q = l) := by
    rw [BitVec.getLsbD_shiftLeft, BitVec.getLsbD_one, decide_eq_true hq, Bool.true_and]
    by_cases hql : q = l
    · subst hql
      simp
    · rw [decide_eq_false hql]
      by_cases hlt : q < l
      · simp [hlt]
      · have hpos : q - l ≠ 0 := by omega
        simp [hpos]
  rw [BitVec.getLsbD_or, BitVec.getLsbD_and, BitVec.getLsbD_not, hone, decide_eq_true hq]
  by_cases hql : q = l
  · rw [if_pos hql, decide_eq_true hql]
    cases b
    · simp
    · simp [hql, hl]
  · rw [if_neg hql, decide_eq_false hql]
    cases b
    · simp
    · simp [hone, hql]

/-- Another predicate is as it was. -/
theorem getP_setP_ne (g : Group) {n k : Nat} (l : Nat) (b : Bool) (h : k ≠ n) : (g.setP n l b).getP k = g.getP k := by
  unfold Group.setP
  split
  · simp only [Group.getP, tget_tset_ne _ _ _ h.symm]
  · rfl

/-- A result leaves a predicate that it is not for. -/
theorem getP_land_ne (g : Group) {d : Dest} (w : Word) (o : Bool) {k : Nat} (h : ∀ l, d ≠ .p k l) :
    (g.land d w o).getP k = g.getP k := by
  cases d with
  | v => rfl
  | p n l => exact getP_setP_ne g l _ fun hk => h l (hk ▸ rfl)
  | s => rfl
  | tile => rfl
  | sp n l =>
    rw [land_sp]
    split_ifs <;> rfl

/-- Results leave a predicate that none of them is for. -/
theorem getP_landAll_ne {rs : List Res} {k : Nat} (h : ∀ x ∈ rs, ∀ l, x.dest ≠ .p k l) (g : Group) :
    (g.landAll rs).getP k = g.getP k := by
  induction rs generalizing g with
  | nil => rfl
  | cons x xs ih =>
    rw [Group.landAll, ih fun y hy => h y (List.mem_cons_of_mem _ hy), getP_land_ne _ _ _ (h x List.mem_cons_self)]

/-- The bits of a predicate once the results of a list of lanes for it have landed. -/
theorem getLsbD_getP_landAll (own : BitVec 8) (val : Nat → Nat) (n : Nat) {r q : Nat} (hr : r < 7) (hq : q < 32) {ls : List Nat}
    (hls : ∀ l ∈ ls, l < 32) (g : Group) :
    ((g.landAll (ls.flatMap fun l => resOf own (.p r) n l (val l))).getP r).getLsbD q =
      if q ∈ ls then decide (BitVec.ofNat 32 (val q) ≠ 0) else (g.getP r).getLsbD q := by
  induction ls generalizing g with
  | nil => exact (if_neg (by simp)).symm
  | cons l ls ih =>
    have hstep := getLsbD_getP_setP g (BitVec.ofNat 32 (val l) != 0) hr (hls l List.mem_cons_self) hq
    rw [List.flatMap_cons, landAll_append, ih fun x hx => hls x (List.mem_cons_of_mem _ hx)]
    by_cases hin : q ∈ ls
    · rw [if_pos hin, if_pos (List.mem_cons_of_mem _ hin)]
    · rw [if_neg hin]
      refine hstep.trans ?_
      by_cases hql : q = l
      · subst hql
        rw [if_pos rfl, if_pos List.mem_cons_self]
        by_cases hz : BitVec.ofNat 32 (val q) = 0
        · simp [hz]
        · rw [decide_eq_true hz]
          exact bne_iff_ne.mpr hz
      · rw [if_neg hql, if_neg (by simp [hql, hin])]

/-- The results of an instruction's values and flags belong to its gang. -/
theorem own_of_mem_resOf {own : BitVec 8} {d : Opnd} {n l v : Nat} {x : Res} (h : x ∈ resOf own d n l v) : x.own = own := by
  unfold resOf at h
  split at h
  · obtain ⟨i, -, rfl⟩ := List.mem_map.mp h
    rfl
  · obtain ⟨i, -, rfl⟩ := List.mem_map.mp h
    rfl
  · rw [List.mem_singleton.mp h]
  · rw [List.mem_singleton.mp h]
  · rw [List.mem_singleton.mp h]
  · rw [List.mem_singleton.mp h]
  · nomatch h

/-- A flag update is the gang's, for the flags of its lane. -/
theorem mem_flagRes {own : BitVec 8} {l f : Nat} {x : Res} (h : x ∈ flagRes own l f) : x.own = own ∧ x.dest = .sp 9 l := by
  unfold flagRes at h
  split at h
  · nomatch h
  · rw [List.mem_singleton.mp h]
    exact ⟨rfl, rfl⟩

/-- The flag updates of the active lanes are the gang's, for flags. -/
theorem mem_flagResults {c : Lane} {fl : Nat → Nat} {x : Res} (h : x ∈ c.flagResults fl) :
    x.own = c.gang ∧ ∃ l, x.dest = .sp 9 l := by
  obtain ⟨l, -, hx⟩ := List.mem_flatMap.mp h
  exact ⟨(mem_flagRes hx).1, l, (mem_flagRes hx).2⟩

theorem own_of_mem_results {c : Lane} {d : Opnd} {n : Nat} {val fl : Nat → Nat} {x : Res} (h : x ∈ c.results d n val fl) :
    x.own = c.gang := by
  rcases List.mem_append.mp h with h | h
  · obtain ⟨l, -, hx⟩ := List.mem_flatMap.mp h
    exact own_of_mem_resOf hx
  · exact (mem_flagResults h).1

theorem lanesOf_nodup (m : Mask) : (lanesOf m).Nodup := List.nodup_range.filter _

/-- The flags once an instruction's values, which are for no flags, and its flags have landed. -/
theorem getFlg_landAll_results {c : Lane} {d : Opnd} (n : Nat) (val fl : Nat → Nat)
    (hd : ∀ l v, ∀ x ∈ resOf c.gang d n l v, ∀ k, x.dest ≠ .sp 9 k) {l : Nat} (hl : l < 32) :
    (c.g.landAll (c.results d n val fl)).getFlg l =
      if c.act.getLsbD l ∧ fl l ≠ 0 then (c.g.getFlg l ||| BitVec.ofNat 32 (fl l)) &&& 63 else c.g.getFlg l := by
  unfold Lane.results Lane.flagResults
  rw [landAll_append, getFlg_flagRes _ _ (lanesOf_nodup _), getFlg_landAll_ne]
  · simp only [mem_lanesOf, hl, true_and]
  · intro x hx
    obtain ⟨k, -, hx⟩ := List.mem_flatMap.mp hx
    exact hd k _ x hx l

/-- The results for a vector register: each for its own register and lane. -/
theorem mem_resOf_v {own : BitVec 8} {r n l v : Nat} {x : Res} (h : x ∈ resOf own (.v r) n l v) :
    ∃ i < n, x.dest = .v (r + i) l ∧ x.val = BitVec.ofNat 32 (v / 2 ^ (32 * i)) := by
  obtain ⟨i, hi, rfl⟩ := List.mem_map.mp h
  exact ⟨i, List.mem_range.mp hi, rfl, rfl⟩

/-- What the vector registers hold once an instruction's results for v(r) to v(r + n − 1) have landed. -/
theorem getV_landAll_results (c : Lane) (r n : Nat) (val fl : Nat → Nat) {q : Nat} (hq : q < 32) (k : Nat) :
    (c.g.landAll (c.results (.v r) n val fl)).getV k q =
      if c.act.getLsbD q ∧ r ≤ k ∧ k < r + n then BitVec.ofNat 32 (val q / 2 ^ (32 * (k - r))) else c.g.getV k q := by
  have hof : ∀ x ∈ c.results (.v r) n val fl, ∀ m l, x.dest = .v m l →
      (l < 32 ∧ c.act.getLsbD l = true) ∧ (∃ i < n, m = r + i) ∧ x.val = BitVec.ofNat 32 (val l / 2 ^ (32 * (m - r))) := by
    intro x hx m l hd
    rcases List.mem_append.mp hx with hx | hx
    · obtain ⟨l', hl', hx⟩ := List.mem_flatMap.mp hx
      obtain ⟨i, hi, hdest, hval⟩ := mem_resOf_v hx
      obtain ⟨rfl, rfl⟩ := Dest.v.inj (hdest.symm.trans hd)
      exact ⟨mem_lanesOf.mp hl', ⟨i, hi, rfl⟩, by rw [Nat.add_sub_cancel_left]; exact hval⟩
    · obtain ⟨-, l', hdest⟩ := mem_flagResults hx
      exact nomatch hdest.symm.trans hd
  rw [getV_landAll (F := fun m l => BitVec.ofNat 32 (val l / 2 ^ (32 * (m - r)))) (fun x hx m l hd =>
    ⟨(hof x hx m l hd).1.1, (hof x hx m l hd).2.2⟩) _ hq]
  refine if_congr ⟨?_, ?_⟩ rfl rfl
  · rintro ⟨x, hx, hd⟩
    obtain ⟨⟨-, hact⟩, ⟨i, hi, rfl⟩, -⟩ := hof x hx k q hd
    exact ⟨hact, Nat.le_add_right _ _, Nat.add_lt_add_left hi r⟩
  · rintro ⟨hact, hle, hlt⟩
    refine ⟨_, List.mem_append_left _ (List.mem_flatMap.mpr ⟨q, mem_lanesOf.mpr ⟨hq, hact⟩,
      List.mem_map.mpr ⟨k - r, List.mem_range.mpr (by omega), rfl⟩⟩), ?_⟩
    rw [Nat.add_sub_cancel' hle]

end Sys2Proof.Machine
end
section
/-! PROOFS. O45: results that land. -/
namespace Sys2Proof.Machine

/-- One result of a gang that has no other lands in its place and nowhere else. -/
theorem oneResult_lands (g : Group) (own : BitVec 8) (v : Word) (l r : Nat) (hpend : g.pend = []) (hown : own ≠ 0) :
    let land (d : Dest) : Group := { g with pend := [{ own := own, dest := d, val := v, orIn := false }] }.landOf own
    (let h := land (.s r)
    h = { g with regs := { g.regs with s := h.regs.s } } ∧ ∀ k, h.getS k = if k = r then v else g.getS k) ∧
    (∀ t row col, row < 64 → col < 64 →
      let h := land (.tile t row col)
      h = { g with regs := { g.regs with tiles := h.regs.tiles } } ∧ ∀ t' row' col', row' < 64 → col' < 64 →
        h.getTile t' row' col' = if t' = t ∧ row' = row ∧ col' = col then v else g.getTile t' row' col') ∧
    (let h := land (.sp 9 l)
    h = { g with regs := { g.regs with flg := h.regs.flg } } ∧ ∀ k, h.getFlg k = if k = l then v &&& 63 else g.getFlg k) ∧
    land (.sp 10 l) = { g with regs := { g.regs with rmode := v.toNat % 8 } } ∧
    (let h := land (.sp 19 l)
    h = { g with regs := { g.regs with lfsr := h.regs.lfsr } } ∧
      ∀ k, h.getLfsr k = if k = l then (if v = 0 then 1 else v) else g.getLfsr k) := by
  intro land
  have hland : ∀ d, land d = g.land d v false := fun d => landOf_one d v hpend hown
  refine ⟨?_, fun t row col hrow hcol => ?_, ?_, hland _, ?_⟩
  · rw [hland]
    exact ⟨rfl, fun k => (tget_tset ..).trans (if_congr eq_comm rfl rfl)⟩
  · rw [hland]
    refine ⟨rfl, fun t' row' col' hrow' hcol' => (tget_tset ..).trans (if_congr ?_ rfl rfl)⟩
    omega
  · rw [hland]
    exact ⟨rfl, fun k => (tget_tset ..).trans (if_congr eq_comm rfl rfl)⟩
  · rw [hland]
    exact ⟨rfl, fun k => (tget_tset ..).trans (if_congr eq_comm rfl rfl)⟩

/-- Proves O45: results land one after another, each in the place that it names. -/
theorem laneResultsLand : Obligations.LaneResultsLand := by
  refine ⟨oneResult_lands, fun c r n val fl hpend hown => ?_⟩
  intro land flags g p
  have hland : ∀ d, land d = c.g.landAll (c.results d n val fl) := fun d =>
    landOf_results hpend hown fun x hx => own_of_mem_results hx
  have hv : ∀ x ∈ c.results (.v r) n val fl, (∃ m l, x.dest = .v m l) ∨ ∃ l, x.dest = .sp 9 l := fun x hx => by
    rcases List.mem_append.mp hx with hx | hx
    · obtain ⟨l, -, hx⟩ := List.mem_flatMap.mp hx
      obtain ⟨i, -, hd, -⟩ := mem_resOf_v hx
      exact .inl ⟨_, _, hd⟩
    · exact .inr (mem_flagResults hx).2
  have hp : ∀ x ∈ c.results (.p r) n val fl, (∃ l, x.dest = .p r l) ∨ ∃ l, x.dest = .sp 9 l := fun x hx => by
    rcases List.mem_append.mp hx with hx | hx
    · obtain ⟨l, -, hx⟩ := List.mem_flatMap.mp hx
      exact .inl ⟨l, by rw [List.mem_singleton.mp hx]⟩
    · exact .inr (mem_flagResults hx).2
  have hvFlags : flags g := fun l hl => by
    change (land (.v r)).getFlg l = _
    rw [hland]
    refine getFlg_landAll_results n val fl (fun l v x hx k hk => ?_) hl
    obtain ⟨i, -, hd, -⟩ := mem_resOf_v hx
    exact nomatch hd.symm.trans hk
  have hpFlags : flags p := fun l hl => by
    change (land (.p r)).getFlg l = _
    rw [hland]
    refine getFlg_landAll_results n val fl (fun l v x hx k hk => ?_) hl
    rw [List.mem_singleton.mp hx] at hk
    exact nomatch hk
  refine ⟨fun q hq k => ?_, hvFlags, ?_, fun hr q hq => ?_, fun k hk => ?_, hpFlags, ?_⟩
  · change (land (.v r)).getV k q = _
    rw [hland]
    exact getV_landAll_results c r n val fl hq k
  · change land (.v r) = { c.g with regs := { c.g.regs with v := (land (.v r)).regs.v, flg := (land (.v r)).regs.flg } }
    rw [hland]
    have hkeep := landAll_p (fun x hx m l hd => by
      rcases hv x hx with ⟨_, _, h⟩ | ⟨_, h⟩ <;> exact nomatch h.symm.trans hd) c.g
    exact (landAll_frame (fun x hx => (hv x hx).imp_right .inr) c.g).trans (by rw [hkeep])
  · change ((land (.p r)).getP r).getLsbD q = _
    rw [hland, Lane.results, landAll_append, getP_landAll_ne fun x hx m hd => by
      obtain ⟨-, _, h⟩ := mem_flagResults hx
      exact nomatch h.symm.trans hd]
    rw [getLsbD_getP_landAll _ _ _ hr hq fun l hl => (mem_lanesOf.mp hl).1]
    exact if_congr (mem_lanesOf.trans (and_iff_right hq)) rfl rfl
  · change (land (.p r)).getP k = _
    rw [hland]
    refine getP_landAll_ne (fun x hx m hd => ?_) c.g
    rcases hp x hx with ⟨_, h⟩ | ⟨_, h⟩
    · exact hk (Dest.p.inj (hd.symm.trans h)).1
    · exact nomatch h.symm.trans hd
  · change land (.p r) = { c.g with regs := { c.g.regs with p := (land (.p r)).regs.p, flg := (land (.p r)).regs.flg } }
    rw [hland]
    have hkeep := landAll_v (fun x hx m l hd => by
      rcases hp x hx with ⟨_, h⟩ | ⟨_, h⟩ <;> exact nomatch h.symm.trans hd) c.g
    exact (landAll_frame (fun x hx => (hp x hx).elim (fun ⟨l, h⟩ => .inr (.inl ⟨r, l, h⟩)) fun h => .inr (.inr h)) c.g).trans
      (by rw [hkeep])

end Sys2Proof.Machine
end

section
/-! SUPPORT. The finite values of a format in the order of their patterns (R47), and where rounding finds its neighbours (R53). -/
namespace Sys2Proof.Machine

/-! ## Formats and patterns -/

/-- What the formats of R47 have in common: a fraction, and a bias in the middle of the exponents. -/
structure FFmt.Std (f : FFmt) : Prop where
  fbits_pos : 1 ≤ f.fbits
  bias_pos : 1 ≤ f.bias
  exps : 2 ^ f.ebits = 2 * f.bias + 2

theorem std_of_mem {f : FFmt} (h : f ∈ [fp32, fp16, bf16, e4m3, e5m2]) : f.Std := by
  simp only [List.mem_cons, List.not_mem_nil, or_false] at h
  rcases h with rfl | rfl | rfl | rfl | rfl <;> exact ⟨by decide, by decide, by decide⟩

/-- A significand n at the exponent q as rounding leaves it: normal, or subnormal at the lowest exponent, or carried to the next
power of two. -/
structure FFmt.Canon (f : FFmt) (n : Nat) (q : Int) : Prop where
  low : f.minE ≤ q
  norm : q = f.minE ∨ 2 ^ f.fbits ≤ n
  high : n ≤ 2 ^ (f.fbits + 1)

/-- The pattern, without its sign, of a significand and an exponent. -/
def FFmt.pat (f : FFmt) (n : Nat) (q : Int) : Nat := (q - f.minE).toNat * 2 ^ f.fbits + n

/-- The significand of a pattern without its sign. -/
def FFmt.sig (f : FFmt) (p : Nat) : Nat := if p < 2 ^ f.fbits then p else 2 ^ f.fbits + p % 2 ^ f.fbits

/-- The exponent of a pattern without its sign. -/
def FFmt.expo (f : FFmt) (p : Nat) : Int := if p < 2 ^ f.fbits then f.minE else f.minE + (p / 2 ^ f.fbits : Nat) - 1

/-- The magnitude of a pattern without its sign. -/
def FFmt.mag (f : FFmt) (p : Nat) : ℚ := f.sig p * 2 ^ f.expo p

/-- The largest finite pattern. -/
def FFmt.patMax (f : FFmt) : Nat := f.pat f.maxM f.maxE

variable {f : FFmt}

theorem FFmt.Canon.succ {n : Nat} {q : Int} (h : f.Canon n q) (hn : n < 2 ^ (f.fbits + 1)) : f.Canon (n + 1) q :=
  ⟨h.low, h.norm.imp_right fun h => h.trans (Nat.le_succ n), hn⟩

theorem sig_lt (f : FFmt) (p : Nat) : f.sig p < 2 ^ (f.fbits + 1) := by
  have hmod := Nat.mod_lt p (Nat.two_pow_pos f.fbits)
  unfold FFmt.sig
  split <;> omega

/-- A pattern's significand and exponent are as rounding leaves them. -/
theorem canon_sig (f : FFmt) (p : Nat) : f.Canon (f.sig p) (f.expo p) := by
  have hlow : f.minE ≤ f.expo p := by
    unfold FFmt.expo
    split
    · exact le_rfl
    · next hp =>
      have hdiv : 1 ≤ p / 2 ^ f.fbits := Nat.div_pos (Nat.le_of_not_lt hp) (Nat.two_pow_pos _)
      omega
  refine ⟨hlow, ?_, (sig_lt f p).le⟩
  by_cases hp : p < 2 ^ f.fbits
  · exact .inl (if_pos hp)
  · refine .inr ?_
    rw [FFmt.sig, if_neg hp]
    exact Nat.le_add_right _ _

/-- A pattern is that of its significand and exponent. -/
theorem pat_sig (f : FFmt) (p : Nat) : f.pat (f.sig p) (f.expo p) = p := by
  have hpos := Nat.two_pow_pos f.fbits
  by_cases hp : p < 2 ^ f.fbits
  · simp [FFmt.pat, FFmt.sig, FFmt.expo, hp]
  · have hdiv : 1 ≤ p / 2 ^ f.fbits := Nat.div_pos (Nat.le_of_not_lt hp) hpos
    have hsplit := Nat.div_add_mod' p (2 ^ f.fbits)
    have hexp : (f.minE + (p / 2 ^ f.fbits : Nat) - 1 - f.minE).toNat = p / 2 ^ f.fbits - 1 := by omega
    rw [FFmt.pat, FFmt.sig, FFmt.expo, if_neg hp, if_neg hp, hexp, Nat.sub_mul, one_mul]
    have hle : 2 ^ f.fbits ≤ p / 2 ^ f.fbits * 2 ^ f.fbits := Nat.le_mul_of_pos_left _ hdiv
    omega

/-- A pattern has one significand below its carry. -/
theorem canon_unique {n m : Nat} {q e : Int} (hn : f.Canon n q) (hm : f.Canon m e) (hn' : n < 2 ^ (f.fbits + 1))
    (hm' : m < 2 ^ (f.fbits + 1)) (h : f.pat n q = f.pat m e) : n = m ∧ q = e := by
  obtain ⟨hnl, hnn, -⟩ := hn
  obtain ⟨hml, hmn, -⟩ := hm
  obtain ⟨i, rfl⟩ : ∃ i : Nat, q = f.minE + i := ⟨(q - f.minE).toNat, by omega⟩
  obtain ⟨j, rfl⟩ : ∃ j : Nat, e = f.minE + j := ⟨(e - f.minE).toNat, by omega⟩
  have hi : (f.minE + (i : Int) - f.minE).toNat = i := by omega
  have hj : (f.minE + (j : Int) - f.minE).toNat = j := by omega
  rw [FFmt.pat, FFmt.pat, hi, hj] at h
  have hpos := Nat.two_pow_pos f.fbits
  have hij : i = j := by
    rcases Nat.lt_trichotomy i j with hlt | heq | hgt
    · have hmul : (i + 1) * 2 ^ f.fbits ≤ j * 2 ^ f.fbits := Nat.mul_le_mul_right _ hlt
      rw [add_mul, one_mul] at hmul
      have hj' : 2 ^ f.fbits ≤ m := hmn.resolve_left (by omega)
      omega
    · exact heq
    · have hmul : (j + 1) * 2 ^ f.fbits ≤ i * 2 ^ f.fbits := Nat.mul_le_mul_right _ hgt
      rw [add_mul, one_mul] at hmul
      have hi' : 2 ^ f.fbits ≤ n := hnn.resolve_left (by omega)
      omega
  subst hij
  exact ⟨by omega, rfl⟩

/-- The significand and the exponent of a pattern made of them. -/
theorem sig_pat {n : Nat} {q : Int} (h : f.Canon n q) (hn : n < 2 ^ (f.fbits + 1)) :
    f.sig (f.pat n q) = n ∧ f.expo (f.pat n q) = q :=
  canon_unique (canon_sig f _) h (sig_lt f _) hn (pat_sig f _)

/-- A carried significand has the pattern of the next power of two. -/
theorem pat_carry {q : Int} (h : f.minE ≤ q) : f.pat (2 ^ (f.fbits + 1)) q = f.pat (2 ^ f.fbits) (q + 1) := by
  have hexp : (q + 1 - f.minE).toNat = (q - f.minE).toNat + 1 := by omega
  rw [FFmt.pat, FFmt.pat, hexp, Nat.pow_succ]
  ring

/-- The magnitude of a significand's pattern. -/
theorem mag_pat {n : Nat} {q : Int} (h : f.Canon n q) : f.mag (f.pat n q) = n * 2 ^ q := by
  rcases Nat.lt_or_eq_of_le h.high with hn | rfl
  · obtain ⟨hsig, hexpo⟩ := sig_pat h hn
    rw [FFmt.mag, hsig, hexpo]
  · have hlow := h.low
    have hnext : f.Canon (2 ^ f.fbits) (q + 1) := ⟨by omega, .inr le_rfl, Nat.pow_le_pow_right (by decide) (Nat.le_succ _)⟩
    obtain ⟨hsig, hexpo⟩ := sig_pat hnext (Nat.pow_lt_pow_right (by decide) (Nat.lt_succ_self _))
    rw [pat_carry hlow, FFmt.mag, hsig, hexpo, zpow_add_one₀ (by norm_num)]
    push_cast
    ring

/-- Patterns without their signs are in the order of their magnitudes. -/
theorem mag_strictMono (f : FFmt) : StrictMono f.mag := by
  refine strictMono_nat_of_lt_succ fun p => ?_
  have hnext : p + 1 = f.pat (f.sig p + 1) (f.expo p) := congrArg (· + 1) (pat_sig f p).symm
  rw [hnext, mag_pat ((canon_sig f p).succ (sig_lt f p)), FFmt.mag]
  have hpos : (0 : ℚ) < 2 ^ f.expo p := by positivity
  push_cast
  linarith

/-! ## The largest finite value -/

theorem maxM_lt (f : FFmt) : f.maxM + 1 ≤ 2 ^ (f.fbits + 1) := by
  have hpos := Nat.two_pow_pos f.fbits
  unfold FFmt.maxM
  split <;> omega

theorem maxM_ge (h : f.Std) : 2 ^ f.fbits ≤ f.maxM := by
  have hle : 2 ^ 1 ≤ 2 ^ f.fbits := Nat.pow_le_pow_right (by decide) h.fbits_pos
  unfold FFmt.maxM
  split <;> omega

theorem maxE_ge (h : f.Std) : f.minE < f.maxE := by
  have hb := h.bias_pos
  unfold FFmt.minE FFmt.maxE
  split <;> omega

theorem canon_max (h : f.Std) : f.Canon f.maxM f.maxE :=
  ⟨(maxE_ge h).le, .inr (maxM_ge h), (Nat.le_succ _).trans (maxM_lt f)⟩

theorem mag_patMax (h : f.Std) : f.mag f.patMax = f.maxM * 2 ^ f.maxE := mag_pat (canon_max h)

/-- The value after the largest finite one, were there no limit to the exponent. -/
theorem mag_patMax_succ (h : f.Std) : f.mag (f.patMax + 1) = f.maxM * 2 ^ f.maxE + 2 ^ f.maxE := by
  have hnext : f.patMax + 1 = f.pat (f.maxM + 1) f.maxE := rfl
  rw [hnext, mag_pat ((canon_max h).succ (maxM_lt f))]
  push_cast
  ring

/-- The largest finite pattern by its fields. -/
theorem patMax_eq (h : f.Std) : f.patMax + 1 = if f.hasInf then (2 ^ f.ebits - 1) * 2 ^ f.fbits else 2 ^ (f.ebits + f.fbits) - 1 := by
  have hexps := h.exps
  have hb := h.bias_pos
  have hpos := Nat.two_pow_pos f.fbits
  cases hinf : f.hasInf with
  | true =>
    have he : (f.maxE - f.minE).toNat = 2 * f.bias - 1 := by
      simp only [FFmt.maxE, FFmt.minE, hinf, if_true]
      omega
    rw [FFmt.patMax, FFmt.pat, he, FFmt.maxM, hinf, if_pos rfl, if_pos rfl, hexps]
    obtain ⟨b, hb⟩ : ∃ b, f.bias = b + 1 := ⟨f.bias - 1, by omega⟩
    rw [hb, show 2 * (b + 1) - 1 = 2 * b + 1 by omega, show 2 * (b + 1) + 2 - 1 = 2 * b + 3 by omega]
    have hpow : 2 ^ (f.fbits + 1) = 2 * 2 ^ f.fbits := by ring
    have hsum : (2 * b + 3) * 2 ^ f.fbits = (2 * b + 1) * 2 ^ f.fbits + 2 * 2 ^ f.fbits := by ring
    omega
  | false =>
    have he : (f.maxE - f.minE).toNat = 2 * f.bias := by
      simp only [FFmt.maxE, FFmt.minE, hinf, Bool.false_eq_true, if_false]
      omega
    rw [FFmt.patMax, FFmt.pat, he, FFmt.maxM, hinf, if_neg Bool.false_ne_true, if_neg Bool.false_ne_true,
      Nat.pow_add 2 f.ebits, hexps]
    have hpow : 2 ^ (f.fbits + 1) = 2 * 2 ^ f.fbits := by ring
    have hsum : (2 * f.bias + 2) * 2 ^ f.fbits = 2 * f.bias * 2 ^ f.fbits + 2 * 2 ^ f.fbits := by ring
    omega

/-! ## Decoding and encoding -/

/-- The sign of a value in its pattern. -/
def FFmt.sign (f : FFmt) (neg : Bool) : Nat := if neg then 2 ^ (f.ebits + f.fbits) else 0

/-- A pattern is a sign and a pattern without one. -/
theorem exists_sign {v : Nat} (hv : v < 2 ^ f.width) : ∃ neg p, p < 2 ^ (f.ebits + f.fbits) ∧ v = f.sign neg + p := by
  have hw : 2 ^ f.width = 2 * 2 ^ (f.ebits + f.fbits) := by rw [FFmt.width, add_assoc, add_comm 1, Nat.pow_succ, Nat.mul_comm]
  by_cases hlt : v < 2 ^ (f.ebits + f.fbits)
  · exact ⟨false, v, hlt, (zero_add v).symm⟩
  · refine ⟨true, v - 2 ^ (f.ebits + f.fbits), by omega, ?_⟩
    simp only [FFmt.sign, if_true]
    omega

theorem bit_sign (f : FFmt) (neg : Bool) {p : Nat} (hp : p < 2 ^ (f.ebits + f.fbits)) :
    bit (f.sign neg + p) (f.ebits + f.fbits) = neg := by
  cases neg
  · simp [bit, FFmt.sign, Nat.div_eq_of_lt hp]
  · have hdiv : (2 ^ (f.ebits + f.fbits) + p) / 2 ^ (f.ebits + f.fbits) = 1 := by
      rw [Nat.add_div_left _ (Nat.two_pow_pos _), Nat.div_eq_of_lt hp]
    simp [bit, FFmt.sign, hdiv]

theorem bits_sign_low (f : FFmt) (neg : Bool) (p : Nat) : bits (f.sign neg + p) 0 f.fbits = p % 2 ^ f.fbits := by
  cases neg
  · simp [bits, FFmt.sign]
  · simp only [bits, FFmt.sign, if_true, pow_zero, Nat.div_one, Nat.pow_add, Nat.mul_add_mod_self_right]

theorem bits_sign_high (f : FFmt) (neg : Bool) {p : Nat} (hp : p < 2 ^ (f.ebits + f.fbits)) :
    bits (f.sign neg + p) f.fbits f.ebits = p / 2 ^ f.fbits := by
  have hlt : p / 2 ^ f.fbits < 2 ^ f.ebits := Nat.div_lt_of_lt_mul (by rw [← Nat.pow_add, add_comm]; exact hp)
  cases neg
  · simp [bits, FFmt.sign, Nat.mod_eq_of_lt hlt]
  · simp only [bits, FFmt.sign, if_true, Nat.pow_add]
    rw [Nat.add_comm, Nat.add_mul_div_right _ _ (Nat.two_pow_pos _), Nat.add_mod_right, Nat.mod_eq_of_lt hlt]

/-- A finite pattern decodes to its significand and exponent. -/
theorem decode_finite (h : f.Std) (neg : Bool) {p : Nat} (hp : p ≤ f.patMax) :
    p < 2 ^ (f.ebits + f.fbits) ∧ f.decode (f.sign neg + p) = .fin neg (f.sig p) (f.expo p) := by
  have hmax := patMax_eq h
  have hpos := Nat.two_pow_pos f.fbits
  have hone : 0 < 2 ^ (f.ebits + f.fbits) := Nat.two_pow_pos _
  have hadd : 2 ^ (f.ebits + f.fbits) = 2 ^ f.ebits * 2 ^ f.fbits := Nat.pow_add ..
  have hsub : (2 ^ f.ebits - 1) * 2 ^ f.fbits ≤ 2 ^ f.ebits * 2 ^ f.fbits := Nat.mul_le_mul_right _ (Nat.sub_le ..)
  have hlt : p < 2 ^ (f.ebits + f.fbits) := by
    split at hmax <;> omega
  refine ⟨hlt, ?_⟩
  have hinf : (f.hasInf && (p / 2 ^ f.fbits == 2 ^ f.ebits - 1)) = false := by
    rw [Bool.and_eq_false_iff]
    by_cases hI : f.hasInf = true
    · refine .inr (beq_eq_false_iff_ne.mpr (Nat.ne_of_lt ?_))
      rw [if_pos hI] at hmax
      exact Nat.div_lt_of_lt_mul (by rw [Nat.mul_comm]; omega)
    · exact .inl (Bool.eq_false_iff.mpr hI)
  have hnan : (!f.hasInf && p / 2 ^ f.fbits == 2 ^ f.ebits - 1 && p % 2 ^ f.fbits == 2 ^ f.fbits - 1) = false := by
    by_cases hI : f.hasInf = true
    · simp [hI]
    · rw [if_neg hI] at hmax
      have hne : ¬ (p / 2 ^ f.fbits = 2 ^ f.ebits - 1 ∧ p % 2 ^ f.fbits = 2 ^ f.fbits - 1) := by
        rintro ⟨he, hm⟩
        have hsplit := Nat.div_add_mod' p (2 ^ f.fbits)
        rw [he, hm, Nat.sub_mul, one_mul, ← hadd] at hsplit
        have hle : 2 ^ f.fbits ≤ 2 ^ (f.ebits + f.fbits) := Nat.pow_le_pow_right (by decide) (Nat.le_add_left ..)
        omega
      simp only [Bool.and_eq_false_iff, beq_eq_false_iff_ne]
      by_cases he : p / 2 ^ f.fbits = 2 ^ f.ebits - 1
      · exact .inr fun hm => hne ⟨he, hm⟩
      · exact .inl (.inr he)
  unfold FFmt.decode
  simp only [bit_sign f neg hlt, bits_sign_low, bits_sign_high f neg hlt, hinf, hnan, Bool.false_eq_true, if_false]
  by_cases hlow : p < 2 ^ f.fbits
  · simp only [FFmt.sig, FFmt.expo, if_pos hlow, Nat.div_eq_of_lt hlow, beq_self_eq_true, if_true, Nat.mod_eq_of_lt hlow]
  · have hdiv : 1 ≤ p / 2 ^ f.fbits := Nat.div_pos (Nat.le_of_not_lt hlow) hpos
    have hz : (p / 2 ^ f.fbits == 0) = false := beq_eq_false_iff_ne.mpr (by omega)
    simp only [FFmt.sig, FFmt.expo, if_neg hlow, hz, Bool.false_eq_true, if_false]

/-- The other patterns are an infinity, where the format has one, and NaNs. -/
theorem decode_special (h : f.Std) (neg : Bool) {p : Nat} (hp : f.patMax < p) (hlt : p < 2 ^ (f.ebits + f.fbits)) :
    (f.hasInf = true ∧ p = (2 ^ f.ebits - 1) * 2 ^ f.fbits ∧ f.decode (f.sign neg + p) = .inf neg) ∨
      (f.decode (f.sign neg + p)).isNan = true := by
  have hmax := patMax_eq h
  have hpos := Nat.two_pow_pos f.fbits
  have hadd : 2 ^ (f.ebits + f.fbits) = 2 ^ f.ebits * 2 ^ f.fbits := Nat.pow_add ..
  have hsplit := Nat.div_add_mod' p (2 ^ f.fbits)
  have hmod := Nat.mod_lt p hpos
  have htop : p / 2 ^ f.fbits < 2 ^ f.ebits := Nat.div_lt_of_lt_mul (by rw [Nat.mul_comm, ← hadd]; exact hlt)
  have hexp : p / 2 ^ f.fbits = 2 ^ f.ebits - 1 := by
    by_contra hne
    have hle : (p / 2 ^ f.fbits + 1) * 2 ^ f.fbits ≤ (2 ^ f.ebits - 1) * 2 ^ f.fbits := Nat.mul_le_mul_right _ (by omega)
    have hsub : (2 ^ f.ebits - 1) * 2 ^ f.fbits = 2 ^ f.ebits * 2 ^ f.fbits - 2 ^ f.fbits := by rw [Nat.sub_mul, one_mul]
    rw [add_mul, one_mul] at hle
    split at hmax <;> omega
  unfold FFmt.decode
  simp only [bit_sign f neg hlt, bits_sign_low, bits_sign_high f neg hlt, hexp, beq_self_eq_true, Bool.and_true]
  cases hI : f.hasInf with
  | true =>
    simp only [if_true]
    by_cases hm : p % 2 ^ f.fbits = 0
    · exact .inl ⟨trivial, by rw [← hexp]; omega, by rw [hm]; rfl⟩
    · exact .inr (by rw [if_neg (by simpa using hm)]; rfl)
  | false =>
    rw [hI, if_neg Bool.false_ne_true] at hmax
    have hm : p % 2 ^ f.fbits = 2 ^ f.fbits - 1 := by
      rw [hexp, Nat.sub_mul, one_mul, ← hadd] at hsplit
      have hle : 2 ^ f.fbits ≤ 2 ^ (f.ebits + f.fbits) := Nat.pow_le_pow_right (by decide) (Nat.le_add_left ..)
      omega
    exact .inr (by rw [hm]; simp [FVal.isNan])

/-- Encoding a rounded significand gives its pattern. -/
theorem encode_canon (neg : Bool) {n : Nat} {q : Int} (h : f.Canon n q) : f.encode (.fin neg n q) = f.sign neg + f.pat n q := by
  obtain ⟨hlow, hnorm, hhigh⟩ := h
  have hpos := Nat.two_pow_pos f.fbits
  unfold FFmt.encode
  by_cases hz : n = 0
  · subst hz
    have hq : q = f.minE := hnorm.resolve_right (by omega)
    simp [FFmt.sign, FFmt.pat, hq]
  · have hz' : (n == 0) = false := beq_eq_false_iff_ne.mpr hz
    simp only [hz', Bool.false_eq_true, if_false]
    by_cases hlt : n < 2 ^ f.fbits
    · have hq : q = f.minE := hnorm.resolve_right (by omega)
      have hlog : Nat.log2 n < f.fbits := (Nat.log2_lt hz).mpr hlt
      have htop : (Nat.log2 n : Int) + q < 1 - (f.bias : Int) := by
        rw [hq, FFmt.minE]
        omega
      rw [if_pos htop, hq]
      simp [FFmt.sign, FFmt.pat, pow2]
    · have hlog : f.fbits ≤ Nat.log2 n := (Nat.le_log2 hz).mpr (Nat.le_of_not_lt hlt)
      have htop : ¬ (Nat.log2 n : Int) + q < 1 - (f.bias : Int) := by
        unfold FFmt.minE at hlow
        omega
      rw [if_neg htop, FFmt.pat, ← FFmt.sign]
      have hexp : ∀ k : Nat, ((f.fbits + k : Nat) + q + (f.bias : Int)).toNat = (q - f.minE).toNat + 1 + k := fun k => by
        unfold FFmt.minE at hlow ⊢
        omega
      rcases Nat.lt_or_eq_of_le hhigh with hn | rfl
      · have hlog' : Nat.log2 n = f.fbits + 0 := by
          have := (Nat.log2_lt hz).mpr hn
          omega
        rw [hlog', hexp]
        simp only [add_zero, le_refl, if_true, Nat.sub_self, pow_zero, mul_one, add_mul, one_mul]
        omega
      · rw [Nat.log2_two_pow, hexp, if_neg (by omega)]
        have hpow : 2 ^ (f.fbits + 1) = 2 * 2 ^ f.fbits := by ring
        have hone : f.fbits + 1 - f.fbits = 1 := by omega
        rw [hone, hpow]
        simp only [pow_one, add_mul, one_mul]
        omega

/-! ## Rounding -/

/-- Comparing two magnitudes. -/
theorem dyLt_iff (a : Nat) (i : Int) (b : Nat) (j : Int) : dyLt a i b j = true ↔ (a : ℚ) * 2 ^ i < b * 2 ^ j := by
  have hcast : dyLt a i b j = true ↔ (a : ℚ) * 2 ^ (i - j).toNat < b * 2 ^ (j - i).toNat := by
    rw [dyLt, decide_eq_true_iff, pow2, pow2]
    exact_mod_cast Iff.rfl
  rw [hcast]
  rcases le_total i j with h | h
  · obtain ⟨d, rfl⟩ : ∃ d : Nat, j = i + d := ⟨(j - i).toNat, by omega⟩
    have hpos : (0 : ℚ) < 2 ^ i := by positivity
    have hi : (i - (i + d)).toNat = 0 := by omega
    have hj : (i + (d : Int) - i).toNat = d := by omega
    rw [hi, hj, pow_zero, mul_one, zpow_add₀ (by norm_num), zpow_natCast, ← mul_assoc, mul_right_comm, mul_lt_mul_iff_left₀ hpos]
  · obtain ⟨d, rfl⟩ : ∃ d : Nat, i = j + d := ⟨(i - j).toNat, by omega⟩
    have hpos : (0 : ℚ) < 2 ^ j := by positivity
    have hi : (j + (d : Int) - j).toNat = d := by omega
    have hj : (j - (j + (d : Int))).toNat = 0 := by omega
    rw [hi, hj, pow_zero, mul_one, zpow_add₀ (by norm_num), zpow_natCast, ← mul_assoc, mul_right_comm, mul_lt_mul_iff_left₀ hpos]

/-- The significand that the mode gives n + rem/2^k. -/
def roundedSig (mode : Rnd) (r : Nat) (neg : Bool) (n rem k : Nat) : Nat :=
  if rem ≠ 0 ∧ roundUp mode r neg n rem k false = true then n + 1 else n

/-- The result of rounding (n + rem/2^k)·2^q to a significand at the exponent q. -/
def roundAt (f : FFmt) (mode : Rnd) (r : Nat) (neg : Bool) (n : Nat) (q : Int) (rem k : Nat) : FOut :=
  let n' := roundedSig mode r neg n rem k
  if dyLt f.maxM f.maxE n' q then ⟨overflowVal f mode neg, fOF ||| fNX, mode == .rs⟩
  else ⟨.fin neg n' q, if rem = 0 then 0 else fNX ||| (if n' ≠ 0 ∧ n' < 2 ^ f.fbits then fUF else 0), mode == .rs && rem != 0⟩

/-- Rounding cuts a value off at the spacing of its neighbourhood and looks at the part that it cuts off. -/
theorem roundTo_eq (f : FFmt) (mode : Rnd) (r : Nat) (neg : Bool) {m : Nat} (e : Int) (hm : m ≠ 0) :
    ∃ (n : Nat) (q : Int) (rem k : Nat), f.Canon n q ∧ n < 2 ^ (f.fbits + 1) ∧ rem < 2 ^ k ∧
      (m : ℚ) * 2 ^ e = (n + rem / 2 ^ k) * 2 ^ q ∧ roundTo f mode r neg m e false = roundAt f mode r neg n q rem k := by
  have hm' : (m == 0) = false := beq_eq_false_iff_ne.mpr hm
  have hlow := Nat.log2_self_le hm
  have hhigh : m < 2 ^ (Nat.log2 m + 1) := Nat.lt_log2_self
  have hround : ∀ n q rem k, (let exact := rem == 0 && !false
      let n' := if !exact && roundUp mode r neg n rem k false then n + 1 else n
      if dyLt f.maxM f.maxE n' q then (⟨overflowVal f mode neg, fOF ||| fNX, mode == .rs⟩ : FOut)
      else ⟨.fin neg n' q, flagIf (!exact) fNX ||| flagIf (!exact && n' != 0 && decide (n' < 2 ^ f.fbits)) fUF,
        mode == .rs && !exact⟩) = roundAt f mode r neg n q rem k := fun n q rem k => by
    by_cases hrem : rem = 0
    · subst hrem
      simp [roundAt, roundedSig, flagIf]
    · have hrem' : (rem == 0) = false := beq_eq_false_iff_ne.mpr hrem
      simp [roundAt, roundedSig, flagIf, hrem, hrem', bne]
  unfold roundTo
  simp only [hm', Bool.false_eq_true, if_false]
  obtain ⟨q, hq⟩ : ∃ q, max ((Nat.log2 m : Int) + e - (f.fbits : Int)) f.minE = q := ⟨_, rfl⟩
  rw [hq]
  by_cases hge : e ≥ q
  · obtain ⟨d, rfl⟩ : ∃ d : Nat, e = q + d := ⟨(e - q).toNat, by omega⟩
    have hd : (q + (d : Int) - q).toNat = d := by omega
    have hlog : Nat.log2 m + d ≤ f.fbits := by omega
    have hlt : m * 2 ^ d < 2 ^ (f.fbits + 1) :=
      calc m * 2 ^ d < 2 ^ (Nat.log2 m + 1) * 2 ^ d := Nat.mul_lt_mul_of_pos_right hhigh (Nat.two_pow_pos d)
        _ = 2 ^ (Nat.log2 m + 1 + d) := (Nat.pow_add ..).symm
        _ ≤ _ := Nat.pow_le_pow_right (by decide) (by omega)
    refine ⟨m * 2 ^ d, q, 0, (q - (q + d)).toNat, ⟨by omega, ?_, hlt.le⟩, hlt, Nat.two_pow_pos _, ?_, ?_⟩
    · by_cases hmin : q = f.minE
      · exact .inl hmin
      · refine .inr ?_
        calc 2 ^ f.fbits = 2 ^ (Nat.log2 m + d) := by congr 1; omega
          _ = 2 ^ Nat.log2 m * 2 ^ d := Nat.pow_add ..
          _ ≤ m * 2 ^ d := Nat.mul_le_mul_right _ hlow
    · rw [zpow_add₀ (by norm_num), zpow_natCast]
      push_cast
      ring
    · rw [← hround]
      simp only [hge, if_true, pow2, hd]
  · obtain ⟨k, rfl⟩ : ∃ k : Nat, e = q - k := ⟨(q - e).toNat, by omega⟩
    have hk : (q - (q - (k : Int))).toNat = k := by omega
    have hlt : m / 2 ^ k < 2 ^ (f.fbits + 1) := Nat.div_lt_of_lt_mul
      (calc m < 2 ^ (Nat.log2 m + 1) := hhigh
        _ ≤ 2 ^ (k + (f.fbits + 1)) := Nat.pow_le_pow_right (by decide) (by omega)
        _ = _ := Nat.pow_add ..)
    refine ⟨m / 2 ^ k, q, m % 2 ^ k, k, ⟨by omega, ?_, hlt.le⟩, hlt, Nat.mod_lt _ (Nat.two_pow_pos k), ?_, ?_⟩
    · by_cases hmin : q = f.minE
      · exact .inl hmin
      · refine .inr ((Nat.le_div_iff_mul_le (Nat.two_pow_pos k)).mpr ?_)
        calc 2 ^ f.fbits * 2 ^ k = 2 ^ Nat.log2 m := by rw [← Nat.pow_add]; congr 1; omega
          _ ≤ m := hlow
    · have hsplit : (m : ℚ) = 2 ^ k * (m / 2 ^ k : Nat) + (m % 2 ^ k : Nat) := by
        exact_mod_cast (Nat.div_add_mod m (2 ^ k)).symm
      have hk0 : (2 : ℚ) ^ k ≠ 0 := by positivity
      rw [zpow_sub₀ (by norm_num), zpow_natCast, hsplit]
      field_simp
    · rw [← hround]
      simp only [hge, if_false, hk]

/-- The rounded significand fits: it is the result. -/
theorem roundAt_fits (h : f.Std) {mode : Rnd} {r : Nat} {neg : Bool} {n : Nat} {q : Int} {rem k : Nat}
    (hle : (roundedSig mode r neg n rem k : ℚ) * 2 ^ q ≤ f.mag f.patMax) :
    roundAt f mode r neg n q rem k = ⟨.fin neg (roundedSig mode r neg n rem k) q,
      if rem = 0 then 0 else fNX ||| (if roundedSig mode r neg n rem k ≠ 0 ∧ roundedSig mode r neg n rem k < 2 ^ f.fbits then fUF else 0),
      mode == .rs && rem != 0⟩ := by
  have hlt : ¬ dyLt f.maxM f.maxE (roundedSig mode r neg n rem k) q = true := by
    rw [dyLt_iff, ← mag_patMax h]
    exact not_lt.mpr hle
  exact if_neg hlt

/-- The rounded significand lies beyond the largest finite value: it overflows. -/
theorem roundAt_overflows (h : f.Std) {mode : Rnd} {r : Nat} {neg : Bool} {n : Nat} {q : Int} {rem k : Nat}
    (hlt : f.mag f.patMax < (roundedSig mode r neg n rem k : ℚ) * 2 ^ q) :
    roundAt f mode r neg n q rem k = ⟨overflowVal f mode neg, fOF ||| fNX, mode == .rs⟩ := by
  rw [mag_patMax h] at hlt
  exact if_pos ((dyLt_iff ..).mpr hlt)

/-- What the mode does with a part that is cut off. -/
theorem roundedSig_eq {mode : Rnd} {r : Nat} {neg : Bool} {n rem k : Nat} (h : rem ≠ 0) :
    roundedSig mode r neg n rem k = if roundUp mode r neg n rem k false = true then n + 1 else n := by
  simp [roundedSig, h]

/-- What a pattern's magnitude is, by decoding it. -/
theorem decode_mag_iff (h : f.Std) {v : Nat} (hv : v < 2 ^ f.width) (y : ℚ) :
    (∃ (k : Nat) (q : Int), f.decode v = .fin false k q ∧ y = k * 2 ^ q) ↔ v ≤ f.patMax ∧ y = f.mag v := by
  obtain ⟨neg, p, hp, rfl⟩ := exists_sign hv
  by_cases hle : p ≤ f.patMax
  · rw [(decode_finite h neg hle).2]
    cases neg with
    | false =>
      have hsign : f.sign false + p = p := zero_add p
      rw [hsign]
      constructor
      · rintro ⟨k, q, hd, rfl⟩
        obtain ⟨-, rfl, rfl⟩ := FVal.fin.inj hd
        exact ⟨hle, rfl⟩
      · rintro ⟨-, rfl⟩
        exact ⟨_, _, rfl, rfl⟩
    | true =>
      refine ⟨fun ⟨k, q, hd, _⟩ => Bool.noConfusion (FVal.fin.inj hd).1, fun ⟨hbig, _⟩ => absurd hbig ?_⟩
      have hmax := (decode_finite h false le_rfl).1
      have hsign : f.sign true = 2 ^ (f.ebits + f.fbits) := rfl
      omega
  · constructor
    · rintro ⟨k, q, hd, -⟩
      rcases decode_special h neg (Nat.lt_of_not_le hle) hp with ⟨-, -, hinf⟩ | hnan
      · exact nomatch hd.symm.trans hinf
      · rw [hd] at hnan
        exact Bool.noConfusion hnan
    · rintro ⟨hbig, -⟩
      omega

/-- The magnitudes that a format represents. -/
theorem has_iff (h : f.Std) (y : ℚ) : (∃ v < 2 ^ f.width, ∃ (k : Nat) (q : Int), f.decode v = .fin false k q ∧ y = k * 2 ^ q) ↔
    ∃ p ≤ f.patMax, y = f.mag p := by
  constructor
  · rintro ⟨v, hv, hd⟩
    exact ⟨v, (decode_mag_iff h hv y).mp hd⟩
  · rintro ⟨p, hp, hy⟩
    have hlt : p < 2 ^ f.width := (decode_finite h false hp).1.trans_le (Nat.pow_le_pow_right (by decide) (by unfold FFmt.width; omega))
    exact ⟨p, hlt, (decode_mag_iff h hlt y).mpr ⟨hp, hy⟩⟩

/-- Those that a pattern with a 0 in its lowest bit represents. -/
theorem hasEven_iff (h : f.Std) (y : ℚ) :
    (∃ v < 2 ^ f.width, v % 2 = 0 ∧ ∃ (k : Nat) (q : Int), f.decode v = .fin false k q ∧ y = k * 2 ^ q) ↔
    ∃ p ≤ f.patMax, p % 2 = 0 ∧ y = f.mag p := by
  constructor
  · rintro ⟨v, hv, heven, hd⟩
    obtain ⟨hle, hy⟩ := (decode_mag_iff h hv y).mp hd
    exact ⟨v, hle, heven, hy⟩
  · rintro ⟨p, hp, heven, hy⟩
    have hlt : p < 2 ^ f.width := (decode_finite h false hp).1.trans_le (Nat.pow_le_pow_right (by decide) (by unfold FFmt.width; omega))
    exact ⟨p, hlt, heven, (decode_mag_iff h hlt y).mpr ⟨hp, hy⟩⟩

/-- A pattern is even when its significand is. -/
theorem pat_mod_two (h : f.Std) (n : Nat) (q : Int) : f.pat n q % 2 = n % 2 := by
  obtain ⟨b, hb⟩ : ∃ b, f.fbits = b + 1 := ⟨f.fbits - 1, by have := h.fbits_pos; omega⟩
  rw [FFmt.pat, hb, Nat.pow_succ, ← mul_assoc, Nat.mul_add_mod_self_right]

end Sys2Proof.Machine
end
section
/-! PROOFS. O42: rounding in the direction of the mode. -/
namespace Sys2Proof.Machine
variable {f : FFmt}

/-- The rounded value has the magnitude y. -/
def Rounded (neg : Bool) (o : FOut) (y : ℚ) : Prop := ∃ (k : Nat) (q : Int), o.v = .fin neg k q ∧ (k : ℚ) * 2 ^ q = y

/-- What the mode asks of the rounding of a value between two neighbours (R53, R55). -/
structure RoundsBetween (f : FFmt) (mode : Rnd) (r : Nat) (neg : Bool) (x lo hi : ℚ) (o : FOut) : Prop where
  down : (mode = .rz ∨ (mode = .ru ∧ neg = true) ∨ (mode = .rd ∧ neg = false)) → Rounded neg o lo
  up : ((mode = .ru ∧ neg = false) ∨ (mode = .rd ∧ neg = true)) → Rounded neg o hi
  nearest : (mode = .rn ∨ mode = .ra) → (x - lo < hi - x → Rounded neg o lo) ∧ (hi - x < x - lo → Rounded neg o hi)
  away : mode = .ra → hi - x = x - lo → Rounded neg o hi
  tie : mode = .rn → lo < hi → hi - x = x - lo →
    ∃ y, (y = lo ∨ y = hi) ∧ (∃ p ≤ f.patMax, p % 2 = 0 ∧ y = f.mag p) ∧ Rounded neg o y
  stoch : mode = .rs → if hi - lo ≤ x - lo + r * (hi - lo) / 2 ^ 32 then Rounded neg o hi else Rounded neg o lo
  flags : ∀ y, Rounded neg o y → (o.flags = if lo = hi then 0 else fNX ||| (if 0 < y ∧ y < 2 ^ (f.minE + f.fbits) then fUF else 0)) ∧
    o.used = (mode == .rs && decide (lo ≠ hi))

/-- A value that the format represents comes out as it is. -/
theorem roundsBetween_exact (f : FFmt) (mode : Rnd) (r : Nat) (neg : Bool) {x : ℚ} {o : FOut} (hx : Rounded neg o x)
    (hflags : o.flags = 0) (hused : o.used = false) : RoundsBetween f mode r neg x x x o where
  down _ := hx
  up _ := hx
  nearest _ := ⟨fun _ => hx, fun _ => hx⟩
  away _ _ := hx
  tie _ h := absurd h (lt_irrefl x)
  stoch _ := by split <;> exact hx
  flags y _ := by simp [hflags, hused]

/-- Another value goes to one of its neighbours n·2^q and (n + 1)·2^q, as the mode says. -/
theorem roundsBetween_inexact (h : f.Std) {mode : Rnd} {r : Nat} (neg : Bool) {n : Nat} {q : Int} {rem k : Nat} (hc : f.Canon n q)
    (hn : n < 2 ^ (f.fbits + 1)) (hrem : rem ≠ 0) (hmax : f.pat n q + 1 ≤ f.patMax) :
    RoundsBetween f mode r neg ((n + rem / 2 ^ k) * 2 ^ q) (n * 2 ^ q) ((n + 1) * 2 ^ q) (roundAt f mode r neg n q rem k) := by
  have hG : (0 : ℚ) < 2 ^ q := by positivity
  have hK : (0 : ℚ) < 2 ^ k := by positivity
  have hlo : f.mag (f.pat n q) = n * 2 ^ q := mag_pat hc
  have hhi : f.mag (f.pat n q + 1) = (n + 1) * 2 ^ q := (mag_pat (hc.succ hn)).trans (by push_cast; rfl)
  have hhimax : ((n : ℚ) + 1) * 2 ^ q ≤ f.mag f.patMax := hhi ▸ (mag_strictMono f).monotone hmax
  have hfits : (roundedSig mode r neg n rem k : ℚ) * 2 ^ q ≤ f.mag f.patMax := by
    refine le_trans (mul_le_mul_of_nonneg_right ?_ hG.le) hhimax
    rw [roundedSig_eq hrem]
    split <;> push_cast <;> linarith
  have hdn : roundUp mode r neg n rem k false = false → Rounded neg (roundAt f mode r neg n q rem k) (n * 2 ^ q) := fun hup => by
    rw [roundAt_fits h hfits, roundedSig_eq hrem, hup]
    exact ⟨n, q, rfl, rfl⟩
  have hupw : roundUp mode r neg n rem k false = true → Rounded neg (roundAt f mode r neg n q rem k) ((n + 1) * 2 ^ q) := fun hup => by
    rw [roundAt_fits h hfits, roundedSig_eq hrem, hup]
    exact ⟨n + 1, q, rfl, by push_cast; rfl⟩
  have hbelow : ((n : ℚ) + rem / 2 ^ k) * 2 ^ q - n * 2 ^ q = rem / 2 ^ k * 2 ^ q := by ring
  have habove : ((n : ℚ) + 1) * 2 ^ q - (n + rem / 2 ^ k) * 2 ^ q = (1 - rem / 2 ^ k) * 2 ^ q := by ring
  have hgap : ((n : ℚ) + 1) * 2 ^ q - n * 2 ^ q = 2 ^ q := by ring
  have hlt : (rem : ℚ) / 2 ^ k * 2 ^ q < (1 - rem / 2 ^ k) * 2 ^ q ↔ 2 * rem < 2 ^ k := by
    rw [mul_lt_mul_iff_left₀ hG, lt_sub_iff_add_lt, ← two_mul, ← mul_div_assoc, div_lt_one hK]
    exact_mod_cast Iff.rfl
  have hgt : (1 - (rem : ℚ) / 2 ^ k) * 2 ^ q < rem / 2 ^ k * 2 ^ q ↔ 2 ^ k < 2 * rem := by
    rw [mul_lt_mul_iff_left₀ hG, sub_lt_iff_lt_add, ← two_mul, ← mul_div_assoc, one_lt_div hK]
    exact_mod_cast Iff.rfl
  have heq : (1 - (rem : ℚ) / 2 ^ k) * 2 ^ q = rem / 2 ^ k * 2 ^ q → 2 * rem = 2 ^ k := fun he =>
    le_antisymm (Nat.le_of_not_lt fun hc => (hgt.mpr hc).ne he) (Nat.le_of_not_lt fun hc => (hlt.mpr hc).ne he.symm)
  constructor
  case down =>
    rintro (rfl | ⟨rfl, rfl⟩ | ⟨rfl, rfl⟩) <;> exact hdn rfl
  case up =>
    rintro (⟨rfl, rfl⟩ | ⟨rfl, rfl⟩) <;> exact hupw rfl
  case nearest =>
    rw [hbelow, habove, hlt, hgt]
    rintro (rfl | rfl)
    · refine ⟨fun hc => hdn ?_, fun hc => hupw ?_⟩
      · simp only [roundUp, Bool.or_eq_false_iff, Bool.and_eq_false_iff, decide_eq_false_iff_not, beq_eq_false_iff_ne]
        omega
      · simp only [roundUp, Bool.or_eq_true, decide_eq_true_eq]
        exact .inl hc
    · refine ⟨fun hc => hdn ?_, fun hc => hupw ?_⟩
      · simp only [roundUp, decide_eq_false_iff_not]
        omega
      · simp only [roundUp, decide_eq_true_eq]
        omega
  case away =>
    rw [hbelow, habove]
    rintro rfl he
    exact hupw (by simp only [roundUp, decide_eq_true_eq]; exact (heq he).ge)
  case tie =>
    rw [hbelow, habove]
    rintro rfl - he
    have htie := heq he
    by_cases hodd : n % 2 = 1
    · refine ⟨_, .inr rfl, ⟨f.pat n q + 1, hmax, ?_, hhi.symm⟩, hupw ?_⟩
      · have := pat_mod_two h n q
        omega
      · simp [roundUp, htie, hodd]
    · refine ⟨_, .inl rfl, ⟨f.pat n q, by omega, ?_, hlo.symm⟩, hdn ?_⟩
      · have := pat_mod_two h n q
        omega
      · simp [roundUp, htie, hodd]
  case stoch =>
    rintro rfl
    rw [hbelow, hgap]
    have hcarry : (2 : ℚ) ^ q ≤ rem / 2 ^ k * 2 ^ q + r * 2 ^ q / 2 ^ 32 ↔ 2 ^ (32 + k) ≤ rem * 2 ^ 32 + r * 2 ^ k := by
      have hscale : rem / 2 ^ k * 2 ^ q + r * 2 ^ q / 2 ^ 32 = ((rem : ℚ) * 2 ^ 32 + r * 2 ^ k) / 2 ^ (32 + k) * 2 ^ q := by
        rw [pow_add]
        field_simp
      rw [hscale, le_mul_iff_one_le_left hG, one_le_div (by positivity)]
      exact_mod_cast Iff.rfl
    simp only [hcarry]
    split
    · next hc => exact hupw (by simp only [roundUp, decide_eq_true_eq]; exact hc)
    · next hc => exact hdn (by simp only [roundUp, decide_eq_false_iff_not]; exact hc)
  case flags =>
    intro y hy
    have hne : (n : ℚ) * 2 ^ q ≠ (n + 1) * 2 ^ q := by
      intro he
      have := mul_right_cancel₀ hG.ne' he
      linarith
    rw [roundAt_fits h hfits] at hy ⊢
    obtain ⟨a, b, hv, rfl⟩ := hy
    obtain ⟨-, rfl, rfl⟩ := FVal.fin.inj hv
    refine ⟨?_, by simp [hne, hrem, bne]⟩
    simp only [if_neg hrem, if_neg hne]
    congr 1
    refine if_congr ?_ rfl rfl
    have hpos : (0 : ℚ) < (roundedSig mode r neg n rem k : ℚ) * 2 ^ q ↔ roundedSig mode r neg n rem k ≠ 0 := by
      rw [mul_pos_iff_of_pos_right hG, Nat.cast_pos, Nat.pos_iff_ne_zero]
    rw [hpos, zpow_add₀ (by norm_num), zpow_natCast]
    refine and_congr_right fun _ => ?_
    rcases hc.norm with rfl | hnorm
    · rw [mul_comm ((2 : ℚ) ^ f.minE), mul_lt_mul_iff_left₀ hG]
      exact_mod_cast Iff.rfl
    · have hge : 2 ^ f.fbits ≤ roundedSig mode r neg n rem k := by
        rw [roundedSig_eq hrem]
        split <;> omega
      have hge' : (2 : ℚ) ^ f.fbits ≤ roundedSig mode r neg n rem k := by exact_mod_cast hge
      have hzp : (2 : ℚ) ^ f.minE ≤ 2 ^ q := zpow_le_zpow_right₀ (by norm_num) hc.low
      refine iff_of_false (by omega) (not_lt.mpr ?_)
      rw [mul_comm]
      exact mul_le_mul hge' hzp (by positivity) (by positivity)

/-- Rounding to the neighbours that the format has (R53): lo is the largest magnitude up to x, hi the smallest from x on. -/
theorem roundX_between (h : f.Std) (mode : Rnd) (r free m : Nat) (neg : Bool) (e : Int) {lo hi : ℚ}
    (hx : (m : ℚ) * 2 ^ e ≤ f.mag f.patMax)
    (hlo : (∃ p ≤ f.patMax, lo = f.mag p) ∧ lo ≤ m * 2 ^ e ∧ ∀ p ≤ f.patMax, f.mag p ≤ m * 2 ^ e → f.mag p ≤ lo)
    (hhi : (∃ p ≤ f.patMax, hi = f.mag p) ∧ m * 2 ^ e ≤ hi ∧ ∀ p ≤ f.patMax, m * 2 ^ e ≤ f.mag p → hi ≤ f.mag p) :
    RoundsBetween f mode r neg (m * 2 ^ e) lo hi (roundX f mode r free (.fin neg m e)) := by
  obtain ⟨⟨pl, hpl, rfl⟩, hlox, hlomax⟩ := hlo
  obtain ⟨⟨ph, hph, rfl⟩, hxhi, hhimin⟩ := hhi
  have hmono := mag_strictMono f
  have hexact : ∀ p ≤ f.patMax, (m : ℚ) * 2 ^ e = f.mag p → f.mag pl = m * 2 ^ e ∧ f.mag ph = m * 2 ^ e := fun p hp he =>
    ⟨le_antisymm hlox (he ▸ hlomax p hp he.ge), le_antisymm (he ▸ hhimin p hp he.le) hxhi⟩
  change RoundsBetween f mode r neg _ _ _ (roundTo f mode r neg m e false)
  by_cases hm : m = 0
  · subst hm
    have hzero : ((0 : Nat) : ℚ) * 2 ^ e = f.mag 0 := by
      have hsig : f.sig 0 = 0 := if_pos (Nat.two_pow_pos _)
      rw [FFmt.mag, hsig, Nat.cast_zero, zero_mul, zero_mul]
    obtain ⟨hl, hh⟩ := hexact 0 (Nat.zero_le _) hzero
    rw [hl, hh]
    exact roundsBetween_exact f mode r neg ⟨0, 0, rfl, by simp⟩ rfl rfl
  · obtain ⟨n, q, rem, k, hc, hn, hrem, hval, hround⟩ := roundTo_eq f mode r neg e hm
    rw [hround]
    have hG : (0 : ℚ) < 2 ^ q := by positivity
    have hp : f.mag (f.pat n q) = n * 2 ^ q := mag_pat hc
    have hp1 : f.mag (f.pat n q + 1) = (n + 1) * 2 ^ q := (mag_pat (hc.succ hn)).trans (by push_cast; rfl)
    by_cases hz : rem = 0
    · subst hz
      have hxn : (m : ℚ) * 2 ^ e = n * 2 ^ q := by rw [hval]; simp
      have hle : f.pat n q ≤ f.patMax := hmono.le_iff_le.mp (by rw [hp, ← hxn]; exact hx)
      obtain ⟨hl, hh⟩ := hexact _ hle (hxn.trans hp.symm)
      have hsig : roundedSig mode r neg n 0 k = n := if_neg (by simp)
      have hfits := roundAt_fits h (f := f) (mode := mode) (r := r) (neg := neg) (n := n) (q := q) (rem := 0) (k := k)
        (by rw [hsig, ← hxn]; exact hx)
      rw [hl, hh, hfits]
      exact roundsBetween_exact f mode r neg ⟨n, q, by rw [hsig], hxn.symm⟩ rfl (by simp)
    · have hfrac0 : (0 : ℚ) < rem / 2 ^ k := div_pos (Nat.cast_pos.mpr (Nat.pos_of_ne_zero hz)) (by positivity)
      have hfrac1 : (rem : ℚ) / 2 ^ k < 1 := (div_lt_one (by positivity)).mpr (by exact_mod_cast hrem)
      have hgtlo : f.mag (f.pat n q) < m * 2 ^ e := by
        rw [hp, hval]
        exact mul_lt_mul_of_pos_right (by linarith) hG
      have hlthi : (m : ℚ) * 2 ^ e < f.mag (f.pat n q + 1) := by
        rw [hp1, hval]
        exact mul_lt_mul_of_pos_right (by linarith) hG
      have hmax : f.pat n q + 1 ≤ f.patMax := hmono.lt_iff_lt.mp (hgtlo.trans_le hx)
      have hl : pl = f.pat n q := le_antisymm (Nat.le_of_lt_succ (hmono.lt_iff_lt.mp (hlox.trans_lt hlthi)))
        (hmono.le_iff_le.mp (hlomax _ (by omega) hgtlo.le))
      have hh : ph = f.pat n q + 1 := le_antisymm (hmono.le_iff_le.mp (hhimin _ hmax hlthi.le))
        (hmono.lt_iff_lt.mp (hgtlo.trans_le hxhi))
      rw [hl, hh, hp, hp1, hval]
      exact roundsBetween_inexact h neg hc hn hz hmax

/-- What the mode asks of the rounding of a value beyond the largest finite one (R398). -/
structure RoundsBeyond (f : FFmt) (mode : Rnd) (r : Nat) (neg : Bool) (x big gap : ℚ) (o : FOut) : Prop where
  down : (mode = .rz ∨ (mode = .ru ∧ neg = true) ∨ (mode = .rd ∧ neg = false)) →
    if big + gap ≤ x then o.v = .fin neg f.maxM f.maxE ∧ o.flags = fOF ||| fNX else Rounded neg o big ∧ o.flags = fNX
  up : ((mode = .ru ∧ neg = false) ∨ (mode = .rd ∧ neg = true)) → o.v = .inf neg ∧ o.flags = fOF ||| fNX
  nearest : (mode = .rn ∨ mode = .ra) → (x < big + gap / 2 → Rounded neg o big ∧ o.flags = fNX) ∧
    (big + gap / 2 < x → o.v = .inf neg ∧ o.flags = fOF ||| fNX) ∧
    (x = big + gap / 2 →
      (mode = .rn ∧ (∃ p ≤ f.patMax, p % 2 = 0 ∧ big = f.mag p) → Rounded neg o big ∧ o.flags = fNX) ∧
      (¬(mode = .rn ∧ ∃ p ≤ f.patMax, p % 2 = 0 ∧ big = f.mag p) → o.v = .inf neg ∧ o.flags = fOF ||| fNX))
  stoch : mode = .rs →
    if big + gap ≤ x + r * gap / 2 ^ 32 then o.v = .fin neg f.maxM f.maxE ∧ o.flags = fOF ||| fNX else Rounded neg o big ∧ o.flags = fNX
  used : o.used = (mode == .rs)

/-- A value from the next one on, were there no limit to the exponent, overflows. -/
theorem roundsBeyond_far (f : FFmt) {mode : Rnd} (r : Nat) (neg : Bool) {x big gap : ℚ} (hgap : 0 < gap) (hx : big + gap ≤ x) :
    RoundsBeyond f mode r neg x big gap ⟨overflowVal f mode neg, fOF ||| fNX, mode == .rs⟩ where
  down := by
    rw [if_pos hx]
    rintro (rfl | ⟨rfl, rfl⟩ | ⟨rfl, rfl⟩) <;> exact ⟨rfl, rfl⟩
  up := by
    rintro (⟨rfl, rfl⟩ | ⟨rfl, rfl⟩) <;> exact ⟨rfl, rfl⟩
  nearest hm := by
    refine ⟨fun hlt => absurd hlt (by linarith), fun _ => ?_, fun heq => absurd heq (by linarith)⟩
    rcases hm with rfl | rfl <;> exact ⟨rfl, rfl⟩
  stoch hm := by
    have hdraw : 0 ≤ (r : ℚ) * gap / 2 ^ 32 := by positivity
    subst hm
    rw [if_pos (by linarith)]
    exact ⟨rfl, rfl⟩
  used := rfl

/-- A value just beyond the largest finite one goes to it or overflows, as the mode says. -/
theorem roundsBeyond_near (h : f.Std) {mode : Rnd} {r : Nat} (neg : Bool) {rem k : Nat} (hmode : mode ≠ .dyn) (hrem : rem ≠ 0)
    (hk : rem < 2 ^ k) :
    RoundsBeyond f mode r neg ((f.maxM + rem / 2 ^ k) * 2 ^ f.maxE) (f.maxM * 2 ^ f.maxE) (2 ^ f.maxE)
      (roundAt f mode r neg f.maxM f.maxE rem k) := by
  have hG : (0 : ℚ) < 2 ^ f.maxE := by positivity
  have hK : (0 : ℚ) < 2 ^ k := by positivity
  have hfrac1 : (rem : ℚ) / 2 ^ k < 1 := (div_lt_one hK).mpr (by exact_mod_cast hk)
  have hnot : ¬ (f.maxM : ℚ) * 2 ^ f.maxE + 2 ^ f.maxE ≤ (f.maxM + rem / 2 ^ k) * 2 ^ f.maxE := by
    rw [not_le, ← add_one_mul]
    exact mul_lt_mul_of_pos_right (by linarith) hG
  have hstay : roundUp mode r neg f.maxM rem k false = false → roundAt f mode r neg f.maxM f.maxE rem k =
      ⟨.fin neg f.maxM f.maxE, fNX, mode == .rs⟩ := fun hup => by
    have hsig : roundedSig mode r neg f.maxM rem k = f.maxM := by rw [roundedSig_eq hrem, hup, if_neg Bool.false_ne_true]
    rw [roundAt_fits h (by rw [hsig, mag_patMax h]), hsig, if_neg hrem, if_neg (fun hlow => by have := maxM_ge h; omega)]
    simp [hrem, bne]
  have hover : roundUp mode r neg f.maxM rem k false = true → roundAt f mode r neg f.maxM f.maxE rem k =
      ⟨overflowVal f mode neg, fOF ||| fNX, mode == .rs⟩ := fun hup => by
    refine roundAt_overflows h ?_
    rw [roundedSig_eq hrem, hup, if_pos rfl, mag_patMax h]
    push_cast
    exact mul_lt_mul_of_pos_right (by linarith) hG
  have hkeeps : roundUp mode r neg f.maxM rem k false = false → Rounded neg (roundAt f mode r neg f.maxM f.maxE rem k)
      (f.maxM * 2 ^ f.maxE) ∧ (roundAt f mode r neg f.maxM f.maxE rem k).flags = fNX := fun hup => by
    rw [hstay hup]
    exact ⟨⟨_, _, rfl, rfl⟩, rfl⟩
  have hleaves : roundUp mode r neg f.maxM rem k false = true → (roundAt f mode r neg f.maxM f.maxE rem k).v =
      overflowVal f mode neg ∧ (roundAt f mode r neg f.maxM f.maxE rem k).flags = fOF ||| fNX := fun hup => by
    rw [hover hup]
    exact ⟨rfl, rfl⟩
  have hhalf : (f.maxM : ℚ) * 2 ^ f.maxE + 2 ^ f.maxE / 2 = (f.maxM + 1 / 2) * 2 ^ f.maxE := by ring
  have hlt : ((f.maxM : ℚ) + rem / 2 ^ k) * 2 ^ f.maxE < f.maxM * 2 ^ f.maxE + 2 ^ f.maxE / 2 ↔ 2 * rem < 2 ^ k := by
    rw [hhalf, mul_lt_mul_iff_left₀ hG, add_lt_add_iff_left, div_lt_div_iff₀ hK two_pos, one_mul, mul_comm]
    exact_mod_cast Iff.rfl
  have hgt : f.maxM * 2 ^ f.maxE + 2 ^ f.maxE / 2 < ((f.maxM : ℚ) + rem / 2 ^ k) * 2 ^ f.maxE ↔ 2 ^ k < 2 * rem := by
    rw [hhalf, mul_lt_mul_iff_left₀ hG, add_lt_add_iff_left, div_lt_div_iff₀ two_pos hK, one_mul, mul_comm (rem : ℚ)]
    exact_mod_cast Iff.rfl
  have heq : ((f.maxM : ℚ) + rem / 2 ^ k) * 2 ^ f.maxE = f.maxM * 2 ^ f.maxE + 2 ^ f.maxE / 2 → 2 * rem = 2 ^ k := fun he =>
    le_antisymm (Nat.le_of_not_lt fun hc => (hgt.mpr hc).ne' he) (Nat.le_of_not_lt fun hc => (hlt.mpr hc).ne he)
  have heven : (∃ p ≤ f.patMax, p % 2 = 0 ∧ (f.maxM : ℚ) * 2 ^ f.maxE = f.mag p) ↔ f.maxM % 2 = 0 := by
    rw [← pat_mod_two h f.maxM f.maxE, ← mag_patMax h]
    constructor
    · rintro ⟨p, -, hp, hmag⟩
      rw [← (mag_strictMono f).injective hmag] at hp
      exact hp
    · exact fun hp => ⟨f.patMax, le_rfl, hp, rfl⟩
  constructor
  case down =>
    rw [if_neg hnot]
    rintro (rfl | ⟨rfl, rfl⟩ | ⟨rfl, rfl⟩) <;> exact hkeeps rfl
  case up =>
    rintro (⟨rfl, rfl⟩ | ⟨rfl, rfl⟩) <;> exact hleaves rfl
  case nearest =>
    rw [hlt, hgt, heven]
    rintro (rfl | rfl)
    · refine ⟨fun hc => hkeeps ?_, fun hc => hleaves ?_, fun he => ⟨fun ⟨_, hev⟩ => hkeeps ?_, fun hodd => hleaves ?_⟩⟩
      · simp only [roundUp, Bool.or_eq_false_iff, Bool.and_eq_false_iff, decide_eq_false_iff_not, beq_eq_false_iff_ne]
        omega
      · simp only [roundUp, Bool.or_eq_true, decide_eq_true_eq]
        exact .inl hc
      · simp [roundUp, heq he, hev]
      · have hone : f.maxM % 2 = 1 := by
          have hne : f.maxM % 2 ≠ 0 := fun hz => hodd ⟨rfl, hz⟩
          omega
        simp [roundUp, heq he, hone]
    · refine ⟨fun hc => hkeeps ?_, fun hc => hleaves ?_, fun he => ⟨fun hm => (nomatch hm.1), fun _ => hleaves ?_⟩⟩
      · simp only [roundUp, decide_eq_false_iff_not]
        omega
      · simp only [roundUp, decide_eq_true_eq]
        omega
      · simp only [roundUp, decide_eq_true_eq]
        exact (heq he).ge
  case stoch =>
    rintro rfl
    have hcarry : (f.maxM : ℚ) * 2 ^ f.maxE + 2 ^ f.maxE ≤ (f.maxM + rem / 2 ^ k) * 2 ^ f.maxE + r * 2 ^ f.maxE / 2 ^ 32 ↔
        2 ^ (32 + k) ≤ rem * 2 ^ 32 + r * 2 ^ k := by
      have hscale : ((f.maxM : ℚ) + rem / 2 ^ k) * 2 ^ f.maxE + r * 2 ^ f.maxE / 2 ^ 32 =
          f.maxM * 2 ^ f.maxE + (rem * 2 ^ 32 + r * 2 ^ k) / 2 ^ (32 + k) * 2 ^ f.maxE := by
        rw [pow_add]
        field_simp
        ring
      rw [hscale, add_le_add_iff_left, le_mul_iff_one_le_left hG, one_le_div (by positivity)]
      exact_mod_cast Iff.rfl
    simp only [hcarry]
    split
    · next hc => exact hleaves (by simp only [roundUp, decide_eq_true_eq]; exact hc)
    · next hc => exact hkeeps (by simp only [roundUp, decide_eq_false_iff_not]; exact hc)
  case used =>
    cases hup : roundUp mode r neg f.maxM rem k false
    · rw [hstay hup]
    · rw [hover hup]

/-- Rounding a value beyond the largest finite one. -/
theorem roundX_beyond (h : f.Std) {mode : Rnd} (r free m : Nat) (neg : Bool) (e : Int) (hmode : mode ≠ .dyn)
    (hx : (f.maxM : ℚ) * 2 ^ f.maxE < m * 2 ^ e) :
    RoundsBeyond f mode r neg (m * 2 ^ e) (f.maxM * 2 ^ f.maxE) (2 ^ f.maxE) (roundX f mode r free (.fin neg m e)) := by
  have hmono := mag_strictMono f
  have hm : m ≠ 0 := by
    rintro rfl
    rw [Nat.cast_zero, zero_mul] at hx
    exact absurd hx (not_lt.mpr (by positivity))
  change RoundsBeyond f mode r neg _ _ _ (roundTo f mode r neg m e false)
  obtain ⟨n, q, rem, k, hc, hn, hrem, hval, hround⟩ := roundTo_eq f mode r neg e hm
  rw [hround]
  have hG : (0 : ℚ) < 2 ^ q := by positivity
  have hp : f.mag (f.pat n q) = n * 2 ^ q := mag_pat hc
  have hp1 : f.mag (f.pat n q + 1) = (n + 1) * 2 ^ q := (mag_pat (hc.succ hn)).trans (by push_cast; rfl)
  have hfrac0 : (0 : ℚ) ≤ rem / 2 ^ k := by positivity
  have hfrac1 : (rem : ℚ) / 2 ^ k < 1 := (div_lt_one (by positivity)).mpr (by exact_mod_cast hrem)
  have hlthi : (m : ℚ) * 2 ^ e < f.mag (f.pat n q + 1) := by
    rw [hp1, hval]
    exact mul_lt_mul_of_pos_right (by linarith) hG
  have hge : f.patMax ≤ f.pat n q := Nat.le_of_lt_succ (hmono.lt_iff_lt.mp (by rw [mag_patMax h]; exact hx.trans hlthi))
  have hxn : (n : ℚ) * 2 ^ q ≤ m * 2 ^ e := by
    rw [hval]
    exact mul_le_mul_of_nonneg_right (by linarith) hG.le
  rcases Nat.eq_or_lt_of_le hge with heq | hgt
  · obtain ⟨rfl, rfl⟩ := canon_unique (canon_max h) hc (maxM_lt f) hn heq
    have hz : rem ≠ 0 := by
      rintro rfl
      rw [hval] at hx
      simp at hx
    rw [hval]
    exact roundsBeyond_near h neg hmode hz hrem
  · have hfar : (f.maxM : ℚ) * 2 ^ f.maxE + 2 ^ f.maxE ≤ n * 2 ^ q := by
      rw [← mag_patMax_succ h, ← hp]
      exact hmono.monotone hgt
    have hE : (0 : ℚ) < 2 ^ f.maxE := by positivity
    have hover : f.mag f.patMax < (roundedSig mode r neg n rem k : ℚ) * 2 ^ q := by
      rw [mag_patMax h]
      have hsig : (n : ℚ) * 2 ^ q ≤ roundedSig mode r neg n rem k * 2 ^ q := by
        refine mul_le_mul_of_nonneg_right ?_ hG.le
        unfold roundedSig
        split <;> push_cast <;> linarith
      linarith
    rw [roundAt_overflows h hover]
    exact roundsBeyond_far f r neg hE (hfar.trans hxn)

/-- A finite pattern's value rounds to itself. -/
theorem roundTo_sig (h : f.Std) (mode : Rnd) (r : Nat) (neg : Bool) {p : Nat} (hp : p ≤ f.patMax) :
    let o := roundTo f mode r neg (f.sig p) (f.expo p) false
    f.encode o.v = f.sign neg + p ∧ o.flags = 0 ∧ o.used = false := by
  have hmono := mag_strictMono f
  by_cases hm : f.sig p = 0
  · have hpz : p = 0 := by
      refine hmono.injective ?_
      have hzero : f.sig 0 = 0 := if_pos (Nat.two_pow_pos _)
      rw [FFmt.mag, FFmt.mag, hm, hzero, Nat.cast_zero, zero_mul, zero_mul]
    rw [hm, hpz]
    exact ⟨by simp [roundTo, FFmt.encode, FFmt.sign], rfl, rfl⟩
  · obtain ⟨n, q, rem, k, hc, hn, hrem, hval, hround⟩ := roundTo_eq f mode r neg (f.expo p) hm
    have hG : (0 : ℚ) < 2 ^ q := by positivity
    have hval' : f.mag p = (n + rem / 2 ^ k) * 2 ^ q := hval
    have hfrac0 : (0 : ℚ) ≤ rem / 2 ^ k := by positivity
    have hfrac1 : (rem : ℚ) / 2 ^ k < 1 := (div_lt_one (by positivity)).mpr (by exact_mod_cast hrem)
    have hle : f.pat n q ≤ p := hmono.le_iff_le.mp (by
      rw [mag_pat hc, hval']
      exact mul_le_mul_of_nonneg_right (by linarith) hG.le)
    have hge : p < f.pat n q + 1 := hmono.lt_iff_lt.mp (by
      have hnext : f.mag (f.pat n q + 1) = (n + 1) * 2 ^ q := (mag_pat (hc.succ hn)).trans (by push_cast; rfl)
      rw [hnext, hval']
      exact mul_lt_mul_of_pos_right (by linarith) hG)
    obtain rfl : p = f.pat n q := by omega
    have hz : rem = 0 := by
      rw [mag_pat hc] at hval'
      have hsame := mul_right_cancel₀ hG.ne' hval'
      have hzero : (rem : ℚ) / 2 ^ k = 0 := by linarith
      rcases div_eq_zero_iff.mp hzero with hz | hz
      · exact_mod_cast hz
      · exact absurd hz (by positivity)
    subst hz
    have hsig : roundedSig mode r neg n 0 k = n := if_neg (by simp)
    simp only [hround]
    rw [roundAt_fits h (by rw [hsig, ← mag_pat hc]; exact hmono.monotone hp), hsig]
    exact ⟨encode_canon neg hc, rfl, by simp⟩

/-- A value that is no NaN is encoded as the pattern that it is decoded from, and rounding leaves it. -/
theorem roundX_decode (h : f.Std) {v : Nat} (hv : v < 2 ^ f.width) (hnan : (f.decode v).isNan = false) :
    f.encode (f.decode v) = v ∧ ∀ mode r free, let o := roundX f mode r free (XVal.ofVal (f.decode v))
      f.encode o.v = v ∧ o.flags = 0 ∧ o.used = false := by
  obtain ⟨neg, p, hp, rfl⟩ := exists_sign hv
  by_cases hle : p ≤ f.patMax
  · rw [(decode_finite h neg hle).2]
    refine ⟨?_, fun mode r _ => roundTo_sig h mode r neg hle⟩
    rw [encode_canon neg (canon_sig f p), pat_sig]
  · rcases decode_special h neg (Nat.lt_of_not_le hle) hp with ⟨hI, rfl, hinf⟩ | hn
    · have henc : f.encode (.inf neg) = f.sign neg + (2 ^ f.ebits - 1) * 2 ^ f.fbits := if_pos hI
      rw [hinf]
      exact ⟨henc, fun mode r free => ⟨henc, rfl, rfl⟩⟩
    · exact absurd (hn.symm.trans hnan) Bool.noConfusion

/-- Settles O42: rounding cuts a value off at the spacing of its neighbourhood, where the format's values follow one another. -/
theorem roundingFollowsTheMode : Obligations.RoundingFollowsTheMode := by
  unfold Obligations.RoundingFollowsTheMode
  refine ⟨fun f hf v hv hnan => roundX_decode (std_of_mem hf) hv hnan, fun f hf mode r free m neg e hmode _ => ?_,
    fun f _ mode r free neg => rfl, fun neg => ⟨rfl, rfl⟩⟩
  have h := std_of_mem hf
  intro mag has even x o is down up nearest big gap overflows stays
  have hhas : ∀ y, has y ↔ ∃ p ≤ f.patMax, y = f.mag p := has_iff h
  have heven : ∀ y, even y ↔ ∃ p ≤ f.patMax, p % 2 = 0 ∧ y = f.mag p := hasEven_iff h
  have hbig : big = f.mag f.patMax := (mag_patMax h).symm
  refine ⟨⟨(hhas big).mpr ⟨f.patMax, le_rfl, hbig⟩, fun y hy => ?_⟩, fun hx lo hi hlo hhi => ?_, fun hx => ?_⟩
  · obtain ⟨p, hp, rfl⟩ := (hhas y).mp hy
    rw [hbig]
    exact (mag_strictMono f).monotone hp
  · obtain ⟨hlo, hlox, hlomax⟩ := hlo
    obtain ⟨hhi, hxhi, hhimin⟩ := hhi
    obtain ⟨hdown, hup, hnear, haway, htie, hstoch, hflags⟩ := roundX_between h mode r free m neg e (hbig ▸ hx)
      ⟨(hhas lo).mp hlo, hlox, fun p hp => hlomax _ ((hhas _).mpr ⟨p, hp, rfl⟩)⟩
      ⟨(hhas hi).mp hhi, hxhi, fun p hp => hhimin _ ((hhas _).mpr ⟨p, hp, rfl⟩)⟩
    refine ⟨hdown, hup, hnear, haway, fun hm hlt he => ?_, hstoch, hflags⟩
    obtain ⟨y, hy, hev, hr⟩ := htie hm hlt he
    exact ⟨y, hy, (heven y).mpr hev, hr⟩
  · obtain ⟨hdown, hup, hnear, hstoch, hused⟩ := roundX_beyond h r free m neg e hmode hx
    refine ⟨hdown, hup, fun hm => ?_, hstoch, hused⟩
    rw [heven]
    exact hnear hm

end Sys2Proof.Machine
end

section
/-! SUPPORT. The patterns of rounded results, and the streams of microscaled blocks (R164, R165). -/
namespace Sys2Proof.Machine

theorem sign_add_lt {f : FFmt} (neg : Bool) {p : Nat} (hp : p < 2 ^ (f.ebits + f.fbits)) : f.sign neg + p < 2 ^ f.width := by
  have hw : 2 ^ f.width = 2 * 2 ^ (f.ebits + f.fbits) := by rw [FFmt.width, add_assoc, add_comm 1, Nat.pow_succ, Nat.mul_comm]
  cases neg
  · have hsign : f.sign false = 0 := rfl
    omega
  · have hsign : f.sign true = 2 ^ (f.ebits + f.fbits) := rfl
    omega

theorem std_fmtOf (t : FTy) : (fmtOf t).Std := std_of_mem (by cases t <;> simp [fmtOf])

/-- The canonical NaN is a pattern of the format. -/
theorem nan_lt (t : FTy) : (fmtOf t).nan < 2 ^ (fmtOf t).width := by cases t <;> decide

/-- An infinity is a pattern of the format. -/
theorem encode_inf_lt (t : FTy) (neg : Bool) : (fmtOf t).encode (.inf neg) < 2 ^ (fmtOf t).width := by
  cases t <;> cases neg <;> decide

/-- Encoding a rounded value gives a pattern of the format. -/
theorem encode_roundX_lt (t : FTy) (mode : Rnd) (r free : Nat) (v : FVal) :
    (fmtOf t).encode (roundX (fmtOf t) mode r free (XVal.ofVal v)).v < 2 ^ (fmtOf t).width := by
  have h := std_fmtOf t
  have hfin : ∀ neg {n : Nat} {q : Int}, (fmtOf t).Canon n q → (n : ℚ) * 2 ^ q ≤ (fmtOf t).mag (fmtOf t).patMax →
      (fmtOf t).encode (.fin neg n q) < 2 ^ (fmtOf t).width := fun neg n q hc hle => by
    rw [encode_canon neg hc]
    rw [← mag_pat hc] at hle
    exact sign_add_lt neg (decode_finite h neg ((mag_strictMono _).le_iff_le.mp hle)).1
  cases v with
  | nan sig => exact nan_lt t
  | inf neg => exact encode_inf_lt t neg
  | fin neg m e =>
    change (fmtOf t).encode (roundTo (fmtOf t) mode r neg m e false).v < _
    by_cases hm : m = 0
    · subst hm
      have hzero : (fmtOf t).encode (.fin neg 0 0) = (fmtOf t).sign neg + 0 := by simp [FFmt.encode, FFmt.sign]
      exact hzero.trans_lt (sign_add_lt neg (Nat.two_pow_pos _))
    · obtain ⟨n, q, rem, k, hc, hn, -, -, hround⟩ := roundTo_eq (fmtOf t) mode r neg e hm
      rw [hround]
      have hc' : (fmtOf t).Canon (roundedSig mode r neg n rem k) q := by
        unfold roundedSig
        split
        · exact hc.succ hn
        · exact hc
      rcases le_or_gt ((roundedSig mode r neg n rem k : ℚ) * 2 ^ q) ((fmtOf t).mag (fmtOf t).patMax) with hle | hgt
      · rw [roundAt_fits h hle]
        exact hfin neg hc' hle
      · rw [roundAt_overflows h hgt]
        have hmax := hfin neg (canon_max h) (mag_patMax h).ge
        have hinf := encode_inf_lt t neg
        cases mode with
        | rn => exact hinf
        | ra => exact hinf
        | rz => exact hmax
        | rs => exact hmax
        | dyn => exact hmax
        | ru =>
          cases neg
          · exact hinf
          · exact hmax
        | rd =>
          cases neg
          · exact hmax
          · exact hinf

/-- A class code fits four bits. -/
theorem fClass_lt (f : FFmt) (v : FVal) : fClass f v < 16 := by
  unfold fClass
  split
  · split <;> decide
  · split <;> decide
  · split
    · split <;> decide
    · split
      · split <;> decide
      · split <;> decide

/-- A number read from n bytes is below 256^n. -/
theorem leNat_lt (l : List Byte) : leNat l < 256 ^ l.length := by
  induction l with
  | nil => exact Nat.one_pos
  | cons b r ih =>
    have hb := b.isLt
    rw [leNat, List.length_cons, Nat.pow_succ]
    omega

theorem leAt_lt (l : List Byte) (o n : Nat) : leAt l o n < 256 ^ n :=
  (leNat_lt _).trans_le (Nat.pow_le_pow_right (by decide) ((List.length_take_le ..)))

/-- A place in a list made of pieces of one length. -/
theorem getElem?_flatMap_pieces {α β : Type} {n : Nat} (F : α → List β) (hF : ∀ k, (F k).length = n) (hn : 0 < n)
    (ks : List α) (j : Nat) : (ks.flatMap F)[j]? = ks[j / n]?.bind fun k => (F k)[j % n]? := by
  induction ks generalizing j with
  | nil => simp
  | cons k ks ih =>
    rw [List.flatMap_cons]
    by_cases hj : j < n
    · rw [List.getElem?_append_left (by rw [hF]; exact hj), Nat.div_eq_of_lt hj, Nat.mod_eq_of_lt hj]
      rfl
    · obtain ⟨i, rfl⟩ : ∃ i, j = n + i := ⟨j - n, by omega⟩
      rw [List.getElem?_append_right (by rw [hF]; omega), hF, Nat.add_sub_cancel_left, ih, Nat.add_div_left _ hn,
        Nat.add_mod_left]
      rfl

theorem getD_flatMap_range {β : Type} {n nb : Nat} (F : Nat → List β) (hF : ∀ k, (F k).length = n) {j : Nat}
    (hj : j < n * nb) (d : β) : ((List.range nb).flatMap F).getD j d = (F (j / n)).getD (j % n) d := by
  have hn : 0 < n := Nat.pos_of_ne_zero fun h => by simp [h] at hj
  rw [List.getD_eq_getElem?_getD, getElem?_flatMap_pieces F hF hn, List.getElem?_range (Nat.div_lt_of_lt_mul hj)]
  exact (List.getD_eq_getElem?_getD ..).symm

theorem length_leBytes (n v : Nat) : (leBytes n v).length = n := by
  induction n generalizing v with
  | zero => rfl
  | succ n ih => rw [leBytes, List.length_cons, ih]

theorem length_nibbleCodes (l : List Byte) :
    (l.foldr (fun b r => b.toNat % 16 :: b.toNat / 16 :: r) []).length = 2 * l.length := by
  induction l with
  | nil => rfl
  | cons b l ih =>
    simp only [List.foldr_cons, List.length_cons, ih]
    omega

/-- A block image of whole words has 32 values. -/
theorem length_mxImageVals (f : MxFmt) {img : List Byte} (h : mxDataBytes f ≤ img.length) : (mxImageVals f img).length = 32 := by
  have hmap : (mxImageVals f img).length = (mxCodes f (img.take (mxDataBytes f))).length := List.length_map ..
  rw [hmap]
  have htake : (img.take (mxDataBytes f)).length = mxDataBytes f := List.length_take_of_le h
  cases f with
  | e4m3 => exact (List.length_map ..).trans htake
  | e5m2 => exact (List.length_map ..).trans htake
  | e2m1x => exact (length_nibbleCodes _).trans (by rw [htake]; rfl)

/-- The words that a lane sees of a block image, as bytes. -/
theorem length_blockWords (s : State) (f : MxFmt) (t : FTy) (F : Nat → Nat) :
    mxDataBytes f ≤ ((List.range (mxShape s f t).words).flatMap fun w => leBytes 4 (F w)).length := by
  have hlen : ((List.range (mxShape s f t).words).flatMap fun w => leBytes 4 (F w)).length = (mxShape s f t).words * 4 := by
    simp [List.length_flatMap, length_leBytes]
  rw [hlen]
  cases f
  · show 32 ≤ 9 * 4
    decide
  · show 32 ≤ 9 * 4
    decide
  · show 16 ≤ 5 * 4
    decide

/-- What MXQ writes in a lane (R164). -/
def Lane.mxqLane (k : Lane) (sh : MxShape) (mf : MxFmt) (t : FTy) (nf : Bool) (b : Opnd) (l : Nat) : Nat × Nat :=
  let blocks := (List.range sh.nb).map fun n => mxQuant mf 0 0xFE ((List.range 32).map fun j => k.mxValue sh t b (32 * n + j))
  let image := blocks.flatMap fun n => (mxImage mf n).take (4 * sh.words)
  let flags := orAll ((blocks.zip (List.range sh.nb)).map fun (n, i) =>
    mxQuantFlags mf ((List.range 32).map fun j => k.mxValue sh t b (32 * i + j)) n)
  (spanVal (fun i => BitVec.ofNat 32 (leAt image (4 * (i * sh.g + l)) 4)) sh.imageRegs, nfFlags nf flags)

/-- The words of MXQ's block images, lane after lane. -/
theorem mxqLane_value (k : Lane) (sh : MxShape) (mf : MxFmt) (t : FTy) (nf : Bool) (b : Opnd) (l : Nat) {i : Nat}
    (hi : i < sh.imageRegs) : (elemBits 32 (k.mxqLane sh mf t nf b l).1 i).toNat =
      leAt ((List.range sh.nb).flatMap fun n => (mxImage mf (mxQuant mf 0 0xFE ((List.range 32).map fun j =>
        k.mxValue sh t b (32 * n + j)))).take (4 * sh.words)) (4 * (i * sh.g + l)) 4 := by
  unfold Lane.mxqLane
  rw [elemBits_spanVal _ hi, List.flatMap_map, BitVec.toNat_ofNat]
  exact Nat.mod_eq_of_lt (leAt_lt _ _ 4)

theorem mxqLane_flags (k : Lane) (sh : MxShape) (mf : MxFmt) (t : FTy) (nf : Bool) (b : Opnd) (l : Nat) :
    (k.mxqLane sh mf t nf b l).2 = if nf then 0 else orAll ((List.range sh.nb).map fun n =>
      mxQuantFlags mf ((List.range 32).map fun j => k.mxValue sh t b (32 * n + j))
        (mxQuant mf 0 0xFE ((List.range 32).map fun j => k.mxValue sh t b (32 * n + j)))) := by
  have hzip := List.zip_map' (f := fun n => mxQuant mf 0 0xFE ((List.range 32).map fun j => k.mxValue sh t b (32 * n + j))) (g := id)
    (l := List.range sh.nb)
  rw [List.map_id] at hzip
  simp only [Lane.mxqLane, hzip, List.map_map]
  rfl

/-- The values of the blocks of a stream, converted (R165). -/
def Lane.mxdValues (k : Lane) (sh : MxShape) (mf : MxFmt) (t : FTy) (b : Opnd) : List (Nat × Nat × Bool) :=
  let blocks := (List.range sh.nb).map fun n => mxImageVals mf ((List.range sh.words).flatMap fun w =>
    leBytes 4 (k.streamWord sh.g b (n * sh.words + w)))
  blocks.flatMap fun n => n.map fun v => finishX (fmtOf t) .rn .wrap 0 0 false (XVal.ofVal v)

/-- What MXD writes in a lane. -/
def Lane.mxdLane (k : Lane) (sh : MxShape) (mf : MxFmt) (t : FTy) (nf : Bool) (b : Opnd) (l : Nat) : Nat × Nat :=
  let mine := (List.range sh.valueRegs).map fun i => (List.range sh.e).map fun j =>
    (k.mxdValues sh mf t b).getD ((i * sh.g + l) * sh.e + j) (0, 0, false)
  (packElems 32 (mine.map fun es => packElems (fmtOf t).width (es.map (·.1))), nfFlags nf (orAll (mine.flatMap fun es => es.map (·.2.1))))

/-- Element e of the word that MXD writes in register i of a lane. -/
theorem mxdLane_value (k : Lane) {sh : MxShape} (mf : MxFmt) {t : FTy} (nf : Bool) (b : Opnd) (l : Nat) {i e : Nat}
    (hi : i < sh.valueRegs) (he : e < sh.e) (hw : (fmtOf t).width * sh.e ≤ 32) :
    (elemBits (fmtOf t).width (elemBits 32 (k.mxdLane sh mf t nf b l).1 i).toNat e).toNat =
      ((k.mxdValues sh mf t b).getD ((i * sh.g + l) * sh.e + e) (0, 0, false)).1 % 2 ^ (fmtOf t).width := by
  have hfit : ∀ g : Nat → Nat, packElems (fmtOf t).width ((List.range sh.e).map g) < 2 ^ 32 := fun g => by
    refine (packElems_lt _ _).trans_le (Nat.pow_le_pow_right (by decide) ?_)
    rw [List.length_map, List.length_range]
    exact hw
  simp only [Lane.mxdLane, List.map_map]
  rw [elemBits_packElems_range _ hi]
  simp only [Function.comp_apply, List.map_map]
  rw [BitVec.toNat_ofNat, Nat.mod_eq_of_lt (hfit _), elemBits_packElems_range _ he, BitVec.toNat_ofNat]
  rfl

/-- A value of the stream by its block. -/
theorem mxdValues_getD (k : Lane) {sh : MxShape} {mf : MxFmt} (t : FTy) (b : Opnd) {j : Nat} (hj : j < 32 * sh.nb)
    (hlen : ∀ F : Nat → Nat, mxDataBytes mf ≤ ((List.range sh.words).flatMap fun w => leBytes 4 (F w)).length) :
    (k.mxdValues sh mf t b).getD j (0, 0, false) = finishX (fmtOf t) .rn .wrap 0 0 false (XVal.ofVal
      ((mxImageVals mf ((List.range sh.words).flatMap fun w =>
        leBytes 4 (k.streamWord sh.g b (j / 32 * sh.words + w)))).getD (j % 32) .zero)) := by
  have hblock : ∀ n, (mxImageVals mf ((List.range sh.words).flatMap fun w =>
      leBytes 4 (k.streamWord sh.g b (n * sh.words + w)))).length = 32 := fun n => length_mxImageVals mf (hlen _)
  simp only [Lane.mxdValues, List.flatMap_map]
  rw [getD_flatMap_range _ (fun n => (List.length_map ..).trans (hblock n)) hj]
  have hlt : j % 32 < (mxImageVals mf ((List.range sh.words).flatMap fun w =>
      leBytes 4 (k.streamWord sh.g b (j / 32 * sh.words + w)))).length := by
    rw [hblock]
    exact Nat.mod_lt _ (by decide)
  rw [List.getD_eq_getElem _ _ (by rwa [List.length_map]), List.getElem_map, List.getD_eq_getElem _ _ hlt]

/-- The elements of a value's word fill it at most. -/
theorem width_mul_mxElems (s : State) (f : MxFmt) (t : FTy) : (fmtOf t).width * (mxShape s f t).e ≤ 32 := by
  cases t
  · exact (by decide : 32 * 1 ≤ 32)
  · exact (by decide : 16 * 2 ≤ 32)
  · exact (by decide : 16 * 2 ≤ 32)
  · exact (by decide : 8 * 2 ≤ 32)
  · exact (by decide : 8 * 2 ≤ 32)

end Sys2Proof.Machine
end
section
/-! PROOFS. O41: functions of one operand, compares, conversions and microscaled blocks. -/
namespace Sys2Proof.Machine
variable {s : State} {h : Hdr} {c : Lane} {t : FTy} {r : Rnd} {sat : Sat} {nf : Bool} {a b d : Opnd}

/-- A function of one operand rounds its enclosure. -/
theorem funOp_rounds (hc : s.laneReady h.rg h.sw (some h) [(a, 1)] [(b, 1)] = some c) {i : Instr} {g : FFun}
    (hi : exec i s = funOp s h t r sat nf a b g) :
    c.rounds s i a 1 (32 / (fmtOf t).width) (fmtOf t).width nf fun l i st =>
      finishX (fmtOf t) (c.mode r) sat st
        (Config.freeFunction g.code (elemBits (fmtOf t).width (c.readFlt t b l) i).toNat t.code)
        (c.fltElem t b l i).isSig (funX g (c.fltElem t b l i)) := by
  refine laneInstr_rounds (fun k l i st => finishX (fmtOf t) (k.mode r) sat st
    (Config.freeFunction g.code (bits (k.readFlt t b l) ((fmtOf t).width * i) (fmtOf t).width) t.code)
    ((fmtOf t).decode (bits (k.readFlt t b l) ((fmtOf t).width * i) (fmtOf t).width)).isSig
    (funX g ((fmtOf t).decode (bits (k.readFlt t b l) ((fmtOf t).width * i) (fmtOf t).width)))) hc hi fun l i st => ?_
  simp only [bits_eq_elemBits, Lane.fltElem]

theorem frnd_rounds (hc : s.laneReady h.rg h.sw (some h) [(a, 1)] [(b, 1)] = some c) :
    c.rounds s (.frnd h t r sat nf a b) a 1 (32 / (fmtOf t).width) (fmtOf t).width nf fun l i st =>
      let o := roundIntegral (c.mode r) st (c.fltElem t b l i)
      ((fmtOf t).encode (satFloat (fmtOf t) sat o.v), o.flags, o.used) := by
  refine laneInstr_rounds (g := fmtOf t) (fun k l i st =>
    let o := roundIntegral (k.mode r) st ((fmtOf t).decode (bits (k.readFlt t b l) ((fmtOf t).width * i) (fmtOf t).width))
    ((fmtOf t).encode (satFloat (fmtOf t) sat o.v), o.flags, o.used)) hc rfl fun l i st => ?_
  simp only [bits_eq_elemBits, Lane.fltElem]

theorem fcls_writes (hc : s.laneReady h.rg h.sw (some h) [(a, 1)] [(b, 1)] = some c) :
    c.writes s (.fcls h t a b) a 1 fun l v fl => fl = 0 ∧
      (∀ i < 32 / (fmtOf t).width, (elemBits 4 v i).toNat = fClass (fmtOf t) (c.fltElem t b l i)) ∧
      v < 2 ^ (4 * (32 / (fmtOf t).width)) := by
  refine laneInstr_puts (f := fun k l => packElems 4 ((elems (fmtOf t).width 1 (k.readFlt t b l)).map fun v =>
    fClass (fmtOf t) ((fmtOf t).decode v))) hc rfl fun l _ => ?_
  rw [elems, mul_one, List.map_map]
  refine ⟨rfl, fun i hi => ?_, ?_⟩
  · rw [elemBits_packElems_range _ hi, Function.comp_apply, bits_eq_elemBits, BitVec.toNat_ofNat]
    exact Nat.mod_eq_of_lt (fClass_lt _ _)
  · have hlt := packElems_lt 4 ((List.range (32 / (fmtOf t).width)).map
      ((fun v => fClass (fmtOf t) ((fmtOf t).decode v)) ∘ fun i =>
        bits (c.readFlt t b l) ((fmtOf t).width * i) (fmtOf t).width))
    rwa [List.length_map, List.length_range] at hlt

theorem fcmp_writes (hc : s.laneReady h.rg h.sw (some h) [(a, 1)] [(b, 1), (d, 1)] = some c) (cc : Nat) :
    c.writes s (.fcmp h nf cc a b d) a 1 fun l v fl =>
      let x := fp32.decode (c.readFlt .f32 b l)
      let y := fp32.decode (c.readFlt .f32 d l)
      v = (fCond cc x y).toNat ∧ fl = if !nf && (x.isSig || y.isSig) then 16 else 0 := by
  refine laneInstr_writes (f := fun k l =>
    (if fCond cc (fp32.decode (k.readFlt .f32 b l)) (fp32.decode (k.readFlt .f32 d l)) then 1 else 0,
      nfFlags nf (flagIf ((fp32.decode (k.readFlt .f32 b l)).isSig || (fp32.decode (k.readFlt .f32 d l)).isSig) fNV)))
    hc rfl fun l _ => ⟨?_, ?_⟩
  · cases fCond cc (fp32.decode (c.readFlt .f32 b l)) (fp32.decode (c.readFlt .f32 d l)) <;> rfl
  · cases nf
    · cases (fp32.decode (c.readFlt .f32 b l)).isSig || (fp32.decode (c.readFlt .f32 d l)).isSig <;> rfl
    · rfl

theorem cvt_rounds (dt sty : Ty)
    (hc : s.laneReady h.rg h.sw (some h) [(a, cvtDst dt sty)] [(b, cvtSrc dt sty)] = some c) :
    c.rounds s (.cvt h dt sty r sat nf a b) a (cvtDst dt sty) (cvtN dt sty) dt.width nf fun l i st =>
      cvtElem dt sty (c.mode r) sat st (elemBits sty.width (c.read (cvtSrc dt sty) (cvtImmVal sty (cvtSrc dt sty)) b l) i).toNat := by
  refine laneInstr_roundsN (fun k l i st => cvtElem dt sty (k.mode r) sat st
    (bits (k.read (cvtSrc dt sty) (cvtImmVal sty (cvtSrc dt sty)) b l) (sty.width * i) sty.width)) hc rfl fun l i st => ?_
  rw [bits_eq_elemBits]

theorem mxq_writes (mf : MxFmt)
    (hc : s.laneReady h.rg h.sw (some h) [(a, (mxShape s mf t).imageRegs)] [(b, (mxShape s mf t).valueRegs)] = some c) :
    let sh := mxShape s mf t
    let block (k : Nat) : List FVal := (List.range 32).map fun j => c.mxValue sh t b (32 * k + j)
    let words : List Byte := (List.range sh.nb).flatMap fun k => (mxImage mf (mxQuant mf 0 0xFE (block k))).take (4 * sh.words)
    c.writes s (.mxq h mf t nf a b) a sh.imageRegs fun l v fl =>
      (∀ i < sh.imageRegs, (elemBits 32 v i).toNat = leAt words (4 * (i * sh.g + l)) 4) ∧
      fl = if nf then 0 else orAll ((List.range sh.nb).map fun k => mxQuantFlags mf (block k) (mxQuant mf 0 0xFE (block k))) := by
  intro sh block words
  exact laneInstr_writes (f := fun k l => k.mxqLane sh mf t nf b l) hc rfl fun l _ =>
    ⟨fun i hi => mxqLane_value c sh mf t nf b l hi, mxqLane_flags c sh mf t nf b l⟩

theorem mxd_writes (mf : MxFmt)
    (hc : s.laneReady h.rg h.sw (some h) [(a, (mxShape s mf t).valueRegs)] [(b, (mxShape s mf t).imageRegs)] = some c) :
    let sh := mxShape s mf t
    let f := fmtOf t
    let value (j : Nat) : FVal := (mxImageVals mf ((List.range sh.words).flatMap fun w =>
      leBytes 4 (c.streamWord sh.g b (j / 32 * sh.words + w)))).getD (j % 32) .zero
    c.writes s (.mxd h mf t nf a b) a sh.valueRegs fun l v _ => ∀ i < sh.valueRegs, ∀ e < sh.e,
      (i * sh.g + l) * sh.e + e < 32 * sh.nb →
      (elemBits f.width (elemBits 32 v i).toNat e).toNat =
        (finishX f .rn .wrap 0 0 false (XVal.ofVal (value ((i * sh.g + l) * sh.e + e)))).1 := by
  intro sh f value
  refine laneInstr_writes (f := fun k l => k.mxdLane sh mf t nf b l) hc rfl fun l _ i hi e he hj => ?_
  rw [mxdLane_value c mf nf b l hi he (width_mul_mxElems s mf t), mxdValues_getD c t b hj (length_blockWords s mf t)]
  exact Nat.mod_eq_of_lt (encode_roundX_lt t .rn 0 0 _)

/-- Settles O41: each form by what its elements are. -/
theorem laneFloatFunctionsAndConversions : Obligations.LaneFloatFunctionsAndConversions := by
  unfold Obligations.LaneFloatFunctionsAndConversions
  intro s h c t r sat nf a b d
  refine ⟨fun hc k hk => ?_, frnd_rounds, fcls_writes, fcmp_writes, cvt_rounds, fun mf => ⟨mxq_writes mf, mxd_writes mf⟩⟩
  simp only [List.mem_cons, List.not_mem_nil, or_false] at hk
  rcases hk with rfl | rfl | rfl | rfl | rfl | rfl | rfl | rfl <;> exact funOp_rounds hc rfl

end Sys2Proof.Machine
end

section
/-! SUPPORT. The long line of the L2 before the turn of a gang. -/
namespace Sys2Proof.Machine

/-- A header without guard conditions: p7 and p7. -/
def openHdr : Hdr := { rg := false, sw := false, gc := false, gp := 7, gq := 7 }

/-- A gang about to execute a lane instruction, with the address 0x1000 of a line of HBM that it may access in v2 and v3 of every
lane; its partition's masks give no way of the L2 to any class, and the L2 holds the long line. -/
def longLineLaneState : State :=
  let s := State.reset.withFetchWord 96 0
  { s with
    turn := .lane 0 0
    groups := s.groups.map fun g => { g with regs := { g.regs with v := (List.range 32).map fun l => (64 + l, 0x1000) } }
    mem := { s.mem with l2 := [longLine] }
    plat := { s.plat with parts := tmod Part.reset s.plat.parts 0 fun p => { p with masks := (List.range 16).map fun i => (i, 0) } } }

/-- What the prefetch of that gang works on. -/
def longLineLane : Lane := (longLineLaneState.laneReady false false (some openHdr) [] [(.v 2, 2)]).getD
  { s := longLineLaneState, g := probeGroup 0 true, gang := 0, pc := 0, act := 0 }

/-- An instruction that goes on without results leaves memory as its state has it. -/
theorem done_nil_mem (c : Lane) (t : State) : ({ c with s := t }.done []).mem = t.mem := by
  unfold Lane.done Lane.spent
  split <;> rfl

end Sys2Proof.Machine
end
section
/-! PROOFS. Lane prefetch (R184, R224). -/
namespace Sys2Proof.Machine

/-- Refutes O46: a lane prefetch of the line at 0x1000 by a class without ways makes the long line leave the L2, and the byte at
address 768, which is in no line that the L2 holds, changes from 0 to 7. -/
theorem not_laneAccessesIssue : ¬ Obligations.LaneAccessesIssue := by
  unfold Obligations.LaneAccessesIssue
  intro h
  have hsome : (longLineLaneState.laneReady false false (some openHdr) [] [(.v 2, 2)]).isSome = true := by decide +kernel
  have hready : longLineLaneState.laneReady false false (some openHdr) [] [(.v 2, 2)] = some longLineLane := by
    obtain ⟨c, hc⟩ := Option.isSome_iff_exists.mp hsome
    rw [longLineLane, hc]
    rfl
  have hholds : ∀ x ∈ longLineLane.g.holds, x.own &&& longLineLane.gang = 0 := by decide +kernel
  obtain ⟨-, -, -, -, -, hpfx, -⟩ := h longLineLaneState longLineLaneState openHdr longLineLane [] .b32 .i32 .add false false
    false .plain .dev .dflt (.v 0) (.v 2) (.v 0) (.v 0) 0 hholds
  obtain ⟨t, ht, -, hsame, -⟩ := hpfx hready
  have hbyte : hbmAfter (exec (.pfx openHdr .dev .dflt (.v 2) 0) longLineLaneState) 768 = some 7 := by decide +kernel
  have hafter : hbmAfter (.next t) 768 = some 7 := by
    rw [ht] at hbyte
    rw [← hbyte]
    exact congrArg (fun m => some (m.hbm.get 768)) (done_nil_mem longLineLane t).symm
  have hpends : longLineLaneState.aliasPends (.hbm 768) = false := by decide +kernel
  have hstale : longLineLaneState.lineStale (.hbm 768) = false := by decide +kernel
  have hbefore : longLineLaneState.mem.hbm.get 768 ≠ 7 := by decide +kernel
  exact not_sameSettled_of_hbmAfter rfl hpends hstale hafter hbefore fun l => hsame l

end Sys2Proof.Machine
end

section
/-! SUPPORT. The checks of the lanes of an access (R174), what issuing their accesses changes, and the trap of a gang (R43, R175). -/
namespace Sys2Proof.Machine

/-! ## The checks -/

/-- A failing step of an access's address, translation, permission or target is one of the first five. -/
theorem place_fail {s t : State} {a : Agent} {w : Want} {va n st code : Nat} (h : s.place a w va n = (t, .fail st code)) :
    1 ≤ st ∧ st ≤ 5 := by
  have hf : (s.place a w va n).2 = .fail st code := by rw [h]
  unfold State.place at hf
  split at hf
  · obtain ⟨rfl, -⟩ := Chk.fail.inj hf
    decide
  · split at hf
    · obtain ⟨rfl, -⟩ := Chk.fail.inj hf
      decide
    · unfold State.placeAt at hf
      split at hf
      · obtain ⟨rfl, -⟩ := Chk.fail.inj hf
        split
        · decide
        · split <;> decide
      · dsimp only at hf
        split at hf
        · obtain ⟨rfl, -⟩ := Chk.fail.inj hf
          decide
        · split at hf
          · obtain ⟨rfl, -⟩ := Chk.fail.inj hf
            decide
          · split at hf
            · obtain ⟨rfl, -⟩ := Chk.fail.inj hf
              decide
            · exact nomatch hf

/-- What the checks of a lane can say: the step of a failure, and the code of those that are a lane access's own. -/
structure LaneChk.Sound (x : LaneChk) : Prop where
  stage : x.stage ≠ 0
  stage_le : ∀ st code, x.chk = .fail st code → st ≤ 8
  watch : ∀ code, x.chk = .fail 6 code → code = 0x10
  hint : ∀ code, x.chk = .fail 7 code → code = 0x0B

/-- The outcomes that are a lane access's own are sound. -/
theorem LaneChk.Sound.of_own {x : LaneChk}
    (h : x.chk = .fail 6 0x10 ∨ x.chk = .fail 7 0x0B ∨ x.chk = .fail 8 0x15 ∨ ∃ loc, x.chk = .ok loc) : x.Sound := by
  obtain ⟨l, chk, hits⟩ := x
  rcases h with rfl | rfl | rfl | ⟨loc, rfl⟩
  · exact ⟨(by decide : 6 ≠ 0), fun _ _ h => (Chk.fail.inj h).1 ▸ (by decide : 6 ≤ 8), fun _ h => (Chk.fail.inj h).2.symm, nofun⟩
  · exact ⟨(by decide : 7 ≠ 0), fun _ _ h => (Chk.fail.inj h).1 ▸ (by decide : 7 ≤ 8), nofun, fun _ h => (Chk.fail.inj h).2.symm⟩
  · exact ⟨(by decide : 8 ≠ 0), fun _ _ h => (Chk.fail.inj h).1 ▸ le_rfl, nofun, nofun⟩
  · exact ⟨(by decide : 9 ≠ 0), nofun, nofun, nofun⟩

/-- The checks of one lane only look up translations. -/
theorem laneCheck_spec (s : State) (g : Group) (noWatch : Bool) (w : Want) (hint : Hint) (ea n l : Nat) :
    s.looksUp (s.laneCheck g noWatch w hint ea n l).1 ∧ (s.laneCheck g noWatch w hint ea n l).2.lane = l ∧
      (s.laneCheck g noWatch w hint ea n l).2.Sound := by
  have hlook := s.place_looksUp g.agent w ea n
  unfold State.laneCheck
  rcases hp : s.place g.agent w ea n with ⟨t, r⟩
  rw [hp] at hlook
  cases r with
  | fail st code =>
    obtain ⟨hlow, hhigh⟩ := place_fail hp
    refine ⟨hlook, rfl, ⟨Nat.ne_of_gt hlow, ?_, ?_, ?_⟩⟩
    · rintro _ _ ⟨⟩
      omega
    · rintro _ ⟨⟩
      omega
    · rintro _ ⟨⟩
      omega
  | ok loc =>
    refine ⟨hlook, rfl, .of_own ?_⟩
    dsimp only
    generalize (if noWatch = true then 0 else t.watchHits g w ea n) = hits
    split
    · exact .inl rfl
    · split
      · exact .inr (.inl rfl)
      · split
        · exact .inr (.inr (.inl rfl))
        · exact .inr (.inr (.inr ⟨loc, rfl⟩))

/-- The checks of a list of lanes only look up translations, and give an outcome for each lane in order. -/
theorem laneChecks_spec {s s' : State} {g : Group} {noWatch : Bool} {w : Want} {hint : Hint} {ea : Nat → Nat} {n : Nat}
    {lanes : List Nat} {ck : List LaneChk} (h : s.laneChecks g noWatch w hint ea n lanes = (s', ck)) :
    s.looksUp s' ∧ ck.map (·.lane) = lanes ∧ ∀ x ∈ ck, x.Sound := by
  induction lanes generalizing s s' ck with
  | nil =>
    obtain ⟨rfl, rfl⟩ := Prod.mk.inj h
    exact ⟨.refl s, rfl, fun x hx => nomatch hx⟩
  | cons l ls ih =>
    obtain ⟨hlook, hlane, hsound⟩ := laneCheck_spec s g noWatch w hint (ea l) n l
    rcases hc : s.laneCheck g noWatch w hint (ea l) n l with ⟨t, r⟩
    rw [hc] at hlook hlane hsound
    rcases hr : t.laneChecks g noWatch w hint ea n ls with ⟨u, rs⟩
    obtain ⟨hlooks, hlanes, hsounds⟩ := ih hr
    have hall : s.laneChecks g noWatch w hint ea n (l :: ls) = (u, r :: rs) := by
      rw [State.laneChecks, hc]
      dsimp only
      rw [hr]
    obtain ⟨rfl, rfl⟩ := Prod.mk.inj (hall.symm.trans h)
    refine ⟨hlook.trans hlooks, by rw [List.map_cons, hlane, hlanes], fun x hx => ?_⟩
    rcases List.mem_cons.mp hx with rfl | hx
    · exact hsound
    · exact hsounds x hx

theorem LaneChk.stage_of_fail {x : LaneChk} {st code : Nat} (h : x.chk = .fail st code) : x.stage = st := by
  unfold LaneChk.stage
  rw [h]

/-- A lane that is at another step than 9 has failed there. -/
theorem LaneChk.fail_of_stage {x : LaneChk} (h : x.stage ≠ 9) : ∃ code, x.chk = .fail x.stage code := by
  cases hx : x.chk with
  | ok l => exact absurd (by unfold LaneChk.stage; rw [hx]) h
  | fail st code => exact ⟨code, by rw [LaneChk.stage_of_fail hx]⟩

/-- A minimum of a list is what folding finds. -/
theorem foldl_min_eq {l : List Nat} {m a : Nat} (hm : m ∈ l) (hle : ∀ x ∈ l, m ≤ x) (ha : m ≤ a) : l.foldl min a = m := by
  have hge : ∀ (l : List Nat) (a : Nat), (∀ x ∈ l, m ≤ x) → m ≤ a → m ≤ l.foldl min a := fun l => by
    induction l with
    | nil => exact fun a _ ha => ha
    | cons x xs ih => exact fun a h ha => ih _ (fun y hy => h y (List.mem_cons_of_mem _ hy)) (Nat.le_min.mpr ⟨ha, h x List.mem_cons_self⟩)
  have hup : ∀ (l : List Nat) (a : Nat), l.foldl min a ≤ a := fun l => by
    induction l with
    | nil => exact fun a => le_rfl
    | cons x xs ih => exact fun a => (ih _).trans (Nat.min_le_left ..)
  refine le_antisymm ?_ (hge l a hle ha)
  clear hle ha hge
  induction l generalizing a with
  | nil => nomatch hm
  | cons x xs ih =>
    rcases List.mem_cons.mp hm with rfl | hm
    · exact (hup xs _).trans (Nat.min_le_right ..)
    · exact ih hm

/-! ## The trap of a gang -/

/-- The handler's state comes from lookups. -/
theorem handlerReady_looksUp {s t : State} {g : Group} (h : s.handlerReady g = some t) : s.looksUp t := by
  have hregs := s.useRegs_looksUp g.place.ctx
  unfold State.handlerReady at h
  split at h
  · exact nomatch h
  · rcases hu : s.useRegs g.place.ctx with ⟨u, r⟩
    rw [hu] at h hregs
    dsimp only at h hregs
    split at h
    · exact nomatch h
    · have hfetch := u.fetch4_looksUp { g.agent with handler := true } r.hbase
      rcases hv : u.fetch4 { g.agent with handler := true } r.hbase with ⟨v, f⟩
      rw [hv] at h hfetch
      cases f with
      | fault => exact nomatch h
      | word => exact Option.some.inj h ▸ hregs.trans hfetch

/-- A trap of a gang at its lane word, whatever lanes its group keeps to execute again. -/
theorem trapAt_takes {c : Lane} {s' : State} (replay : List (BitVec 8 × Mask)) (cause subc : Nat) (flt wm : Mask) :
    let g : Group := { c.g with lanes := { c.g.lanes with replay := replay } }
    let out := ({ c with s := s', g := g } : Lane).trapAt cause subc 0 c.pc flt wm
    (({ c with s := s' } : Lane).trapWaits s'.nextId = true → out = .next s') ∧
    (({ c with s := s' } : Lane).trapWaits s'.nextId = false → ∀ s'', s'.handlerReady (c.g.landOf c.gang) = some s'' →
      out = .next (s''.setGroup ((g.landOf c.gang).enterHandler { c.laneReq cause subc with fltmask := flt, wmask := wm })) ∧
        s''.mem.flight = s'.mem.flight) := by
  intro g out
  refine ⟨fun hw => trapAt_waits _ _ _ _ _ _ hw, fun hw s'' hs => ⟨?_, (handlerReady_looksUp hs).flight⟩⟩
  have hready : s'.handlerReady (g.landOf c.gang) = some s'' := by
    rw [← hs]
    refine handlerReady_congr s' ?_ ?_
    · rw [Group.landOf_eq, Group.landOf_eq c.g]
    · rw [Group.landOf_eq, Group.landOf_eq c.g]
  have hw' : ({ c with s := s', g := g } : Lane).trapWaits s'.nextId = false := hw
  change Host.Outcome.next (if ({ c with s := s', g := g } : Lane).trapWaits s'.nextId = true then s' else _) = _
  rw [hw', if_neg Bool.false_ne_true]
  exact congrArg _ (takeTrap_ready _ hready)

/-! ## Issuing -/

/-- Issuing the accesses of the lanes that passed puts them in flight in order, and counts those that write (R176). -/
theorem issueLanes_spec {mk : Nat → Loc → Nat → Access} {own : BitVec 8} {counts : Bool}
    (hmk : ∀ l loc id, (mk l loc id).lane = l ∧ (mk l loc id).own = own ∧ (mk l loc id).kind.counts = counts)
    (s : State) (g : Group) {rs : List LaneChk} (hrs : ∀ x ∈ rs, x.Sound) : ∃ accs : List Access,
      (s.issueLanes g mk rs).1 = { s with
        mem := { s.mem with flight := s.mem.flight ++ accs }, nextId := (s.issueLanes g mk rs).1.nextId } ∧
      (s.issueLanes g mk rs).2.1 = { g with uas := g.uas + (if counts then (rs.filter fun x => x.stage == 9).length else 0) } ∧
      accs.map (·.lane) = (rs.filter fun x => x.stage == 9).map (·.lane) ∧ ∀ x ∈ accs, x.own = own := by
  induction rs generalizing s g with
  | nil => exact ⟨[], by simp [State.issueLanes], by simp [State.issueLanes], rfl, fun x hx => nomatch hx⟩
  | cons r rs ih =>
    have hrest : ∀ x ∈ rs, x.Sound := fun x hx => hrs x (List.mem_cons_of_mem _ hx)
    rw [State.issueLanes]
    cases hr : r.chk with
    | fail st code =>
      have hst : (r.stage == 9) = false := by
        have hle := (hrs r List.mem_cons_self).stage_le st code hr
        rw [LaneChk.stage_of_fail hr]
        exact beq_eq_false_iff_ne.mpr (by omega)
      obtain ⟨accs, hs, hg, hlanes, hown⟩ := ih s g hrest
      exact ⟨accs, hs, by rw [hg, List.filter_cons, hst]; rfl, by rw [hlanes, List.filter_cons, hst]; rfl, hown⟩
    | ok loc =>
      have hst : (r.stage == 9) = true := by
        unfold LaneChk.stage
        rw [hr]
        rfl
      obtain ⟨hlane, hgang, hcount⟩ := hmk r.lane loc s.nextId
      obtain ⟨accs, hs, hg, hlanes, hown⟩ := ih (s.issueAcc g (mk r.lane loc s.nextId)).1
        (s.issueAcc g (mk r.lane loc s.nextId)).2 hrest
      dsimp only
      refine ⟨mk r.lane loc s.nextId :: accs, ?_, ?_, ?_, ?_⟩
      · rw [hs]
        simp only [State.issueAcc, State.modMem, State.bumpId, List.append_assoc, List.singleton_append]
      · rw [hg, List.filter_cons, hst, if_pos rfl, State.issueAcc, hcount]
        cases counts
        · rfl
        · simp only [if_true, List.length_cons, Nat.add_assoc, Nat.add_comm 1]
      · rw [List.map_cons, hlanes, hlane, List.filter_cons, hst, if_pos rfl, List.map_cons]
      · intro x hx
        rcases List.mem_cons.mp hx with rfl | hx
        · exact hgang
        · exact hown x hx

/-- A lane instruction works in a state that differs from that of its turn in groups alone. -/
theorem laneReady_mem {s : State} {rg sw : Bool} {h : Option Hdr} {dsts srcs : List (Opnd × Nat)} {c : Lane}
    (hc : s.laneReady rg sw h dsts srcs = some c) : c.s.mem = s.mem := by
  obtain ⟨hwork, -⟩ := Option.filter_eq_some_iff.mp hc
  unfold State.laneWork at hwork
  split at hwork
  · exact nomatch hwork
  · exact Option.some.inj hwork ▸ rfl

/-- States with one memory system have the same bytes. -/
theorem State.sameBytes.of_mem {s t : State} (h : t.mem.hbm = s.mem.hbm ∧ t.mem.host = s.mem.host ∧ t.mem.peer = s.mem.peer ∧
    t.mem.sram = s.mem.sram) : s.sameBytes t := by
  obtain ⟨hhbm, hhost, hpeer, hsram⟩ := h
  intro l hl
  cases l with
  | hbm pa => simp only [State.locRead, hhbm]
  | host pa => simp only [State.locRead, hhost]
  | peer k pa => simp only [State.locRead, hpeer]
  | scr k off => simp only [State.locRead, hsram]
  | mx x w pa => cases hl
  | mmio off => cases hl

/-- What issuing changes beside the group (R176, R182). -/
theorem Lane.issue_spec {c : Lane} {op : MemOp} {rs : List LaneChk} {mk : Nat → Access → Access} {counts : Bool}
    (hmk : ∀ l x, x.kind = .load → (mk l x).lane = x.lane ∧ (mk l x).own = x.own ∧ (mk l x).kind.counts = counts)
    (hrs : ∀ x ∈ rs, x.Sound) : ∃ accs : List Access,
      (c.issue op rs mk).s.groups = c.s.groups ∧ c.s.sameBytes (c.issue op rs mk).s ∧
      (c.issue op rs mk).s.mem.flight = c.s.mem.flight ++ accs ∧
      (c.issue op rs mk).g.regs = c.g.regs ∧
      (c.issue op rs mk).g.lanes = { c.g.lanes with wpSkip := c.g.lanes.wpSkip &&& ~~~c.gang } ∧
      (c.issue op rs mk).g.uas = c.g.uas + (if counts then (rs.filter fun x => x.stage == 9).length else 0) ∧
      accs.map (·.lane) = (rs.filter fun x => x.stage == 9).map (·.lane) ∧ ∀ x ∈ accs, x.own = c.gang := by
  unfold Lane.issue
  have hframe := State.ordered_frame c.s c.g op.ord op.sc op.prom
  unfold State.ordered at hframe
  generalize (c.s.setPromotion c.g op.ord op.sc).startDrain c.g.place.ctx (op.prom && ordAcq op.ord) = p at hframe ⊢
  obtain ⟨t, d⟩ := p
  dsimp only at hframe ⊢
  obtain ⟨accs, hs, hg, hlanes, hown⟩ := issueLanes_spec (own := c.gang) (counts := counts)
    (mk := fun l loc id => mk l { c.g.access id .load loc op.size with
      scalar := false, own := c.gang, lane := l, ord := op.ord, sc := op.sc, hint := hintOn loc op.hint
      relWait := if ordRel op.ord then c.s.releaseIds c.g c.gang op.sc else [], drain := d })
    (fun l loc id => hmk l _ rfl) t c.g hrs
  refine ⟨accs, ?_, ?_, ?_, ?_, ?_, ?_, hlanes, hown⟩
  · refine (congrArg State.groups hs).trans ?_
    rw [hframe]
  · refine .of_mem ?_
    have hm := congrArg State.mem hs
    dsimp only at hm ⊢
    rw [hm, hframe]
    exact ⟨rfl, rfl, rfl, rfl⟩
  · refine (congrArg (fun u => u.mem.flight) hs).trans ?_
    rw [hframe]
  · exact (congrArg Group.regs hg :)
  · exact (congrArg (fun u : Group => { u.lanes with wpSkip := u.lanes.wpSkip &&& ~~~c.gang }) hg :)
  · exact (congrArg Group.uas hg :)

end Sys2Proof.Machine
end
section
/-! PROOFS. O47: lane accesses that fail a check. -/
namespace Sys2Proof.Machine

section
variable {c : Lane} {s' : State} {op : MemOp} {lanes : List Nat} {ea : Nat → Nat} {mk : Nat → Access → Access} {ck : List LaneChk}
  (hh : ∀ x ∈ c.g.holds, x.own &&& c.gang = 0)
  (hck : c.s.laneChecks c.g (c.g.lanes.wpSkip &&& c.gang != 0) op.want op.hint ea op.size lanes = (s', ck))
include hh hck

/-- An access that no hold keeps back goes by its checks. -/
theorem Lane.access_checked : c.access op lanes ea mk =
    (if ck.any fun r => stopping r.stage then
      ({ c with s := s', g := { c.g with lanes := { c.g.lanes with replay := (c.gang, c.act) :: c.g.lanes.replay } } } : Lane).trapAt
        (((ck.find? fun r => r.stage == (ck.map (·.stage)).foldl min 9).map (·.code)).getD 0)
        (if (ck.map (·.stage)).foldl min 9 = 6 then (ck.map (·.hits)).foldl (· ||| ·) 0
          else if (ck.map (·.stage)).foldl min 9 = 7 then 0x08 else 0) 0 c.pc 0
        (maskOf ((ck.filter fun (r : LaneChk) => r.hits != 0).map fun (r : LaneChk) => r.lane))
    else if ck.any fun r => r.stalls s' then .next c.s
    else if maskOf ((ck.filter fun r => r.stage != 9).map (·.lane)) = 0 then (({ c with s := s' } : Lane).issue op ck mk).finish []
    else if ck.all fun r => r.stage != 9 then
      ({ c with s := s' } : Lane).trapAt (partCause ck).1 (partCause ck).2 0 c.pc
        (maskOf ((ck.filter fun r => r.stage != 9).map (·.lane))) 0
    else if c.s.mayFault c.g c.s.nextId then .next c.s
    else
      .next ((({ c with s := s' } : Lane).issue op ck mk).s.setGroup { (({ c with s := s' } : Lane).issue op ck mk).g with
        lanes := { (({ c with s := s' } : Lane).issue op ck mk).g.lanes with
          fault := some { own := c.gang, cause := (partCause ck).1, subc := (partCause ck).2, lpc := c.pc
                          lanes := maskOf ((ck.filter fun r => r.stage != 9).map (·.lane)) } } })) := by
  have hheld : c.g.memHeld c.gang = false := List.any_eq_false.mpr fun x hx => by simpa using hh x hx
  unfold Lane.access
  rw [hheld, if_neg Bool.false_ne_true, hck]

/-- A lane that fails a step which stops the instruction: the trap of the earliest step that a lane fails (R174, R192). -/
theorem Lane.access_stops {x y : LaneChk} {st code : Nat} (hx : x ∈ ck) (hfail : x.chk = .fail st code) (hy : y ∈ ck)
    (hstop : y.stage ∈ [1, 2, 4, 5, 6, 7])
    (hfirst : ∀ z ∈ ck, ∀ st' code', z.chk = .fail st' code' → st ≤ st' ∧ (st = st' → code' = code)) :
    (st = 6 → code = 0x10) ∧ (st = 7 → code = 0x0B) ∧ c.access op lanes ea mk =
      ({ c with s := s', g := { c.g with lanes := { c.g.lanes with replay := (c.gang, c.act) :: c.g.lanes.replay } } } : Lane).trapAt
        code (if st = 6 then (ck.map (·.hits)).foldl (· ||| ·) 0 else if st = 7 then 0x08 else 0) 0 c.pc 0
        (maskOf ((ck.filter fun x => x.hits != 0).map (·.lane))) := by
  obtain ⟨-, -, hsound⟩ := laneChecks_spec hck
  have hle := (hsound x hx).stage_le st code hfail
  refine ⟨fun h => (hsound x hx).watch code (h ▸ hfail), fun h => (hsound x hx).hint code (h ▸ hfail), ?_⟩
  have hxs := LaneChk.stage_of_fail hfail
  have hmin : (ck.map (·.stage)).foldl min 9 = st := by
    refine foldl_min_eq (List.mem_map.mpr ⟨x, hx, hxs⟩) (fun z hz => ?_) (by omega)
    obtain ⟨w, hw, rfl⟩ := List.mem_map.mp hz
    by_cases h9 : w.stage = 9
    · omega
    · obtain ⟨k, hk⟩ := LaneChk.fail_of_stage h9
      exact (hfirst w hw _ _ hk).1
  have hfind : ((ck.find? fun r => r.stage == st).map (·.code)).getD 0 = code := by
    cases hf : ck.find? fun r => r.stage == st with
    | none => exact absurd (List.find?_eq_none.mp hf x hx) (by simp [hxs])
    | some z =>
      have hz : z.stage = st := by simpa using List.find?_some hf
      obtain ⟨k, hk⟩ := LaneChk.fail_of_stage (x := z) (by omega)
      have hcode : k = code := (hfirst z (List.mem_of_find?_eq_some hf) _ _ hk).2 hz.symm
      rw [Option.map_some, Option.getD_some, LaneChk.code, hk, hcode]
  have hany : (ck.any fun r => stopping r.stage) = true := by
    refine List.any_eq_true.mpr ⟨y, hy, ?_⟩
    simp only [List.mem_cons, List.not_mem_nil, or_false] at hstop
    rcases hstop with h | h | h | h | h | h <;> rw [h] <;> rfl
  rw [Lane.access_checked hh hck, if_pos hany, hmin, hfind]

omit hh hck in
/-- No lane fails a step that stops the instruction. -/
theorem not_stopping (h : ∀ x ∈ ck, x.stage = 3 ∨ x.stage = 8 ∨ x.stage = 9) :
    ¬ (ck.any fun r => stopping r.stage) = true := by
  rw [List.any_eq_true]
  rintro ⟨x, hx, hs⟩
  rcases h x hx with h | h | h <;> rw [h] at hs <;> exact absurd hs (by decide)

omit hh in
/-- Some lane of the group has failed: its bit is in the mask. -/
theorem maskOf_failed_ne_zero (hl : ∀ l ∈ lanes, l < 32) {x : LaneChk} (hx : x ∈ ck) (h9 : x.stage ≠ 9) :
    maskOf ((ck.filter fun r => r.stage != 9).map (·.lane)) ≠ 0 := by
  obtain ⟨-, hlanes, -⟩ := laneChecks_spec hck
  have hlt : x.lane < 32 := hl _ (hlanes ▸ List.mem_map_of_mem hx)
  intro h
  have hbit := getLsbD_maskOf (ls := (ck.filter fun r => r.stage != 9).map (·.lane)) hlt
  rw [h] at hbit
  have hmem : x.lane ∈ (ck.filter fun r => r.stage != 9).map (·.lane) :=
    List.mem_map_of_mem (List.mem_filter.mpr ⟨hx, by simpa using h9⟩)
  simp [hmem] at hbit

/-- Every lane fails, and at steps that let the others go out: the trap comes at once (R175). -/
theorem Lane.access_allFail (hl : ∀ l ∈ lanes, l < 32) (hall : ∀ x ∈ ck, x.stage = 3 ∨ x.stage = 8) (hne : ck ≠ []) :
    c.access op lanes ea mk = ({ c with s := s' } : Lane).trapAt (if ck.any fun x => x.stage == 8 then 0x15 else 0x04)
      (if (ck.any fun x => x.stage == 8) && (ck.any fun x => x.stage == 3) then 1 else 0) 0 c.pc (maskOf lanes) 0 := by
  obtain ⟨-, hlanes, -⟩ := laneChecks_spec hck
  obtain ⟨x, hx⟩ := List.exists_mem_of_ne_nil ck hne
  have h9 : ∀ y ∈ ck, y.stage ≠ 9 := fun y hy => by rcases hall y hy with h | h <;> omega
  have hfil : ck.filter (fun r => r.stage != 9) = ck := List.filter_eq_self.mpr fun y hy => by simpa using h9 y hy
  have hstall : ¬ (ck.any fun r => r.stalls s') = true := by
    rw [List.any_eq_true]
    rintro ⟨y, hy, hs⟩
    obtain ⟨code, hf⟩ := LaneChk.fail_of_stage (h9 y hy)
    rw [LaneChk.stalls, hf] at hs
    exact Bool.noConfusion hs
  have hbad := maskOf_failed_ne_zero hck hl hx (h9 x hx)
  have hevery : (ck.all fun r => r.stage != 9) = true := List.all_eq_true.mpr fun y hy => by simpa using h9 y hy
  rw [Lane.access_checked hh hck, if_neg (not_stopping fun y hy => (hall y hy).imp_right .inl), if_neg hstall, if_neg hbad,
    if_pos hevery, hfil, hlanes, partCause]
  cases ck.any fun x => x.stage == 8 <;> rfl

/-- Some lanes fail, at steps that let the others go out (R175). -/
theorem Lane.access_someFail (hl : ∀ l ∈ lanes, l < 32) (hall : ∀ x ∈ ck, x.stage = 3 ∨ x.stage = 8 ∨ x.stage = 9)
    (hpass : ∃ x ∈ ck, x.stage = 9) (hsome : (∃ x ∈ ck, x.stage = 3) ∨ ∃ x ∈ ck, x.stage = 8)
    (hst : ∀ x ∈ ck, x.stalls s' = false) : c.access op lanes ea mk =
      if c.s.mayFault c.g c.s.nextId then .next c.s
      else .next ((({ c with s := s' } : Lane).issue op ck mk).s.setGroup { (({ c with s := s' } : Lane).issue op ck mk).g with
        lanes := { (({ c with s := s' } : Lane).issue op ck mk).g.lanes with
          fault := some { own := c.gang, cause := if ck.any fun x => x.stage == 8 then 0x15 else 0x04
                          subc := if (ck.any fun x => x.stage == 8) && (ck.any fun x => x.stage == 3) then 1 else 0, lpc := c.pc
                          lanes := maskOf ((ck.filter fun x => x.stage != 9).map (·.lane)) } } }) := by
  obtain ⟨x, hx, h9⟩ : ∃ x ∈ ck, x.stage ≠ 9 := by
    rcases hsome with ⟨x, hx, h⟩ | ⟨x, hx, h⟩
    · exact ⟨x, hx, by omega⟩
    · exact ⟨x, hx, by omega⟩
  obtain ⟨y, hy, hy9⟩ := hpass
  have hstall : ¬ (ck.any fun r => r.stalls s') = true := by
    rw [List.any_eq_true]
    rintro ⟨z, hz, hs⟩
    rw [hst z hz] at hs
    exact Bool.noConfusion hs
  have hevery : ¬ (ck.all fun r => r.stage != 9) = true := fun h => by
    have := List.all_eq_true.mp h y hy
    simp [hy9] at this
  rw [Lane.access_checked hh hck, if_neg (not_stopping hall), if_neg hstall, if_neg (maskOf_failed_ne_zero hck hl hx h9),
    if_neg hevery, partCause]
  cases ck.any fun x => x.stage == 8 <;> rfl

end

/-- What a lane access does when lanes fail its checks. -/
theorem Lane.access_faults {s s' : State} {c : Lane} {op : MemOp} {lanes : List Nat} {ea : Nat → Nat}
    {mk : Nat → Access → Access} {ck : List LaneChk} {counts : Bool} {out : Out} (s'' : State)
    (hh : ∀ x ∈ c.g.holds, x.own &&& c.gang = 0) (hmem : c.s.mem = s.mem) (hout : out = c.access op lanes ea mk)
    (hl : ∀ l ∈ lanes, l < 32)
    (hmk : ∀ l x, x.kind = .load → (mk l x).lane = x.lane ∧ (mk l x).own = x.own ∧ (mk l x).kind.counts = counts)
    (hck : c.s.laneChecks c.g (c.g.lanes.wpSkip &&& c.gang != 0) op.want op.hint ea op.size lanes = (s', ck)) :
    let fails (st : Nat) : Prop := ∃ x ∈ ck, x.stage = st
    let traps (g : Group) (r : TrapReq) : Prop :=
      ({ c with s := s' }.trapWaits s'.nextId = true → out = .next s') ∧
      ({ c with s := s' }.trapWaits s'.nextId = false → s'.handlerReady (c.g.landOf c.gang) = some s'' →
        out = .next (s''.setGroup ((g.landOf c.gang).enterHandler r)) ∧ s''.mem.flight = s'.mem.flight)
    let cause := if ck.any fun x => x.stage == 8 then 0x15 else 0x04
    let subc := if (ck.any fun x => x.stage == 8) && (ck.any fun x => x.stage == 3) then 1 else 0
    let bad := maskOf ((ck.filter fun x => x.stage != 9).map (·.lane))
    let pass := ck.filter fun x => x.stage == 9
    (∀ x ∈ ck, ∀ st code, x.chk = .fail st code →
      (∃ y ∈ ck, y.stage ∈ [1, 2, 4, 5, 6, 7]) →
      (∀ y ∈ ck, ∀ st' code', y.chk = .fail st' code' → st ≤ st' ∧ (st = st' → code' = code)) →
      (st = 6 → code = 0x10) ∧ (st = 7 → code = 0x0B) ∧
      traps { c.g with lanes := { c.g.lanes with replay := (c.gang, c.act) :: c.g.lanes.replay } }
        { c.laneReq code (if st = 6 then (ck.map (·.hits)).foldl (· ||| ·) 0 else if st = 7 then 0x08 else 0) with
          wmask := maskOf ((ck.filter fun x => x.hits != 0).map (·.lane)) }) ∧
    ((∀ x ∈ ck, x.stage = 3 ∨ x.stage = 8) → ck ≠ [] →
      traps c.g { c.laneReq cause subc with fltmask := maskOf lanes }) ∧
    ((∀ x ∈ ck, x.stage = 3 ∨ x.stage = 8 ∨ x.stage = 9) → fails 9 → fails 3 ∨ fails 8 → (∀ x ∈ ck, x.stalls s' = false) →
      (c.s.mayFault c.g c.s.nextId = true → out = .next c.s) ∧
      (c.s.mayFault c.g c.s.nextId = false → ∃ (t : State) (g : Group) (accs : List Access), out = .next (t.setGroup g) ∧
        t.groups = c.s.groups ∧ s.sameBytes t ∧ g.regs = c.g.regs ∧
        g.lanes = { c.g.lanes with
          wpSkip := c.g.lanes.wpSkip &&& ~~~c.gang
          fault := some { own := c.gang, cause := cause, subc := subc, lpc := c.pc, lanes := bad } } ∧
        g.uas = c.g.uas + (if counts then pass.length else 0) ∧ t.mem.flight = s'.mem.flight ++ accs ∧
        accs.map (·.lane) = pass.map (·.lane) ∧ ∀ x ∈ accs, x.own = c.gang)) := by
  intro fails traps cause subc bad pass
  subst hout
  obtain ⟨hlook, -, hsound⟩ := laneChecks_spec hck
  refine ⟨fun x hx st code hfail ⟨y, hy, hstop⟩ hfirst => ?_, fun hall hne => ?_, fun hall hpass hsome hst => ⟨fun hm => ?_, fun hm => ?_⟩⟩
  · obtain ⟨h6, h7, hacc⟩ := Lane.access_stops (mk := mk) hh hck hx hfail hy hstop hfirst
    obtain ⟨hwait, htake⟩ := trapAt_takes (c := c) (s' := s') ((c.gang, c.act) :: c.g.lanes.replay) code
      (if st = 6 then (ck.map (·.hits)).foldl (· ||| ·) 0 else if st = 7 then 0x08 else 0) 0
      (maskOf ((ck.filter fun x => x.hits != 0).map (·.lane)))
    refine ⟨h6, h7, ?_⟩
    change (_ → c.access op lanes ea mk = _) ∧ (_ → _ → c.access op lanes ea mk = _ ∧ _)
    rw [hacc]
    exact ⟨hwait, fun hw => htake hw s''⟩
  · have hacc := Lane.access_allFail (mk := mk) hh hck hl hall hne
    obtain ⟨hwait, htake⟩ := trapAt_takes (c := c) (s' := s') c.g.lanes.replay cause subc (maskOf lanes) 0
    change (_ → c.access op lanes ea mk = _) ∧ (_ → _ → c.access op lanes ea mk = _ ∧ _)
    rw [hacc]
    exact ⟨hwait, fun hw => htake hw s''⟩
  · rw [Lane.access_someFail (mk := mk) hh hck hl hall hpass hsome hst, if_pos hm]
  · rw [Lane.access_someFail (mk := mk) hh hck hl hall hpass hsome hst, if_neg (by rw [hm]; exact Bool.false_ne_true)]
    obtain ⟨accs, hgroups, hbytes, hflight, hregs, hlanes, huas, hmap, hown⟩ :=
      Lane.issue_spec (c := { c with s := s' }) (op := op) (counts := counts) hmk hsound
    refine ⟨_, _, accs, rfl, hgroups.trans hlook.groups, ?_, hregs, ?_, huas, hflight, hmap, hown⟩
    · have hbase : s.sameBytes c.s := .of_mem (by rw [hmem]; exact ⟨rfl, rfl, rfl, rfl⟩)
      exact (hbase.trans hlook.sameBytes).trans hbytes
    · dsimp only at hlanes ⊢
      rw [hlanes]

section
variable {s : State} {h : Hdr} {c : Lane} {w : MTy} {ty : ATy} {aop : AOp} {sx prom seq : Bool} {o : MOrd} {sc : Scope} {hint : Hint}
  {a b d e : Opnd} {off : Int}

/-- LD (R178, R179). -/
theorem exec_ld (hc : s.laneReady h.rg h.sw (some h) [(a, w.regs)] [(b, 2)] = some c) :
    exec (.ld h w sx o sc prom hint a b off) s = c.access ⟨w.bytes, .load, o, sc, prom, hint, loadStays a⟩
      (if oneLane a then (lanesOf c.act).take 1 else lanesOf c.act) (c.ea b off)
      fun l x => { x with dests := ldDests c.act a w.regs l, signed := sx } := by
  change execLd h w sx o sc prom hint a b off s = _
  exact laneInstr_ready _ hc

/-- ST (R180). -/
theorem exec_st (hc : s.laneReady h.rg h.sw (some h) [(a, 1)] [(b, 2), (d, w.regs)] = some c) :
    exec (.st h w o sc hint seq a b d off) s = c.access ⟨w.bytes, .store, o, sc, false, hint, false⟩ (lanesOf c.act) (c.ea b off)
      fun l x => { x with kind := .store, data := leBytes w.bytes (c.readMem w d l), tagDest := tagDest seq a 0 l } := by
  change execSt h w o sc hint seq a b d off s = _
  exact laneInstr_ready _ hc

/-- ATOM (R187). -/
theorem exec_atom
    (hc : s.laneReady h.rg h.sw (some h) [(a, ty.regs + if seq then 1 else 0)] [(b, 2), (d, ty.regs)] = some c) :
    exec (.atom h aop ty o sc prom hint seq a b d) s =
      c.access ⟨4 * ty.regs, .atomic (aopHost aop ty), o, sc, prom, hint, false⟩ (lanesOf c.act) (c.ea b 0)
      fun l x => { x with kind := .rmwLane aop ty, data := leBytes (4 * ty.regs) (c.readAty ty d l)
                          dests := loadDests a ty.regs l, tagDest := tagDest seq a ty.regs l } := by
  change execAtom h aop ty o sc prom hint seq a b d s = _
  exact laneInstr_ready _ hc

/-- ACAS (R188). -/
theorem exec_acas (hc : s.laneReady h.rg h.sw (some h) [(a, ty.regs + if seq then 1 else 0)]
      [(b, 2), (d, ty.regs), (e, ty.regs)] = some c) :
    exec (.acas h ty o sc prom hint seq a b d e) s =
      c.access ⟨4 * ty.regs, .atomic true, o, sc, prom, hint, false⟩ (lanesOf c.act) (c.ea b 0)
      fun l x => { x with kind := .cas, data := leBytes (4 * ty.regs) (c.readAty ty d l)
                          data2 := leBytes (4 * ty.regs) (c.readAty ty e l), dests := loadDests a ty.regs l
                          tagDest := tagDest seq a ty.regs l } := by
  change execAcas h ty o sc prom hint seq a b d e s = _
  exact laneInstr_ready _ hc

/-- ARED (R189). -/
theorem exec_ared (hc : s.laneReady h.rg h.sw (some h) [(a, 1)] [(b, 2), (d, ty.regs)] = some c) :
    exec (.ared h aop ty o sc hint seq a b d) s =
      c.access ⟨4 * ty.regs, .atomic (aopHost aop ty), o, sc, false, hint, false⟩ (lanesOf c.act) (c.ea b 0)
      fun l x => { x with kind := .rmwLane aop ty, data := leBytes (4 * ty.regs) (c.readAty ty d l)
                          tagDest := tagDest seq a 0 l } := by
  change execAred h aop ty o sc hint seq a b d s = _
  exact laneInstr_ready _ hc

end

/-- Settles O47: each form is the frame of lane accesses, and the fault that an access leaves is taken in the next turn. -/
theorem laneAccessFaults : Obligations.LaneAccessFaults := by
  unfold Obligations.LaneAccessFaults
  refine ⟨fun s s' s'' h c ck w ty aop sx prom seq o sc hint a b d e off hh => ?_, ?_⟩
  · intro faults act
    have hact : ∀ l ∈ act, l < 32 := fun l hl => (mem_lanesOf.mp hl).1
    refine ⟨fun hc hck => ?_, fun hc hck => ?_, fun hc hck => ?_, fun hc hck => ?_, fun hc hck => ?_⟩
    · refine Lane.access_faults (op := ⟨w.bytes, .load, o, sc, prom, hint, loadStays a⟩) s'' hh (laneReady_mem hc) (exec_ld hc)
        (fun l hl => ?_) (fun l x hx => ⟨rfl, rfl, congrArg AccKind.counts hx⟩) hck
      split at hl
      · exact hact l (List.mem_of_mem_take hl)
      · exact hact l hl
    · exact Lane.access_faults s'' hh (laneReady_mem hc) (exec_st hc) hact (fun l x _ => ⟨rfl, rfl, rfl⟩) hck
    · exact Lane.access_faults s'' hh (laneReady_mem hc) (exec_atom hc) hact (fun l x _ => ⟨rfl, rfl, rfl⟩) hck
    · exact Lane.access_faults s'' hh (laneReady_mem hc) (exec_acas hc) hact (fun l x _ => ⟨rfl, rfl, rfl⟩) hck
    · exact Lane.access_faults s'' hh (laneReady_mem hc) (exec_ared hc) hact (fun l x _ => ⟨rfl, rfl, rfl⟩) hck
  · intro s s'' gid st g f hturn hg hrun hgang hsus htok hhold hcl hf c
    have hissue : (s.begin.laneIssue gid st).run = .next (s.begin.takePartFault g f) := by
      unfold State.laneIssue
      rw [hg]
      dsimp only
      rw [hrun, hsus, htok, hhold, hcl, beq_eq_false_iff_ne.mpr hgang, if_neg (by decide), hf]
      rfl
    have hpart : s.begin.takePartFault g f = if c.trapWaits s.begin.nextId then s.begin else c.taken? f.cause f.subc 0 f.lpc f.lanes 0 :=
      rfl
    refine ⟨fun hw hs => ?_, fun hw => ?_⟩
    · rw [step_lane hturn, hissue, hpart, if_neg (by rw [hw]; exact Bool.false_ne_true)]
      exact congrArg _ (takeTrap_ready _ hs)
    · rw [step_lane hturn, hissue, hpart, if_pos hw]

end Sys2Proof.Machine
end

section
/-! PROOFS. O48: branches, joins, calls and ends of lanes. -/
namespace Sys2Proof.Machine
variable {s : State} {h : Hdr} {c : Lane}

/-- The frame of control steps: no strand's stack overflows. -/
theorem not_any_full {P : Strand × Nat → Bool} (hP : ∀ e ∈ c.strands, P e = false) : ¬ c.strands.any P = true := by
  rw [List.any_eq_true]
  rintro ⟨e, he, hp⟩
  rw [hP e he] at hp
  exact Bool.noConfusion hp

theorem inSection_of {target : Int} (h0 : 0 ≤ target) (hlt : target < c.s.laneLen c.g) : c.inSection target = true := by
  simp [Lane.inSection, h0, hlt]

/-- BRL (R34). -/
theorem exec_brl (hc : s.laneReady h.rg h.sw (some h) [] [] = some c) {toff joff : Int} (ht0 : 0 ≤ (c.pc : Int) + toff)
    (ht : (c.pc : Int) + toff < c.s.laneLen c.g) (hj0 : 0 ≤ (c.pc : Int) + joff) (hj : (c.pc : Int) + joff < c.s.laneLen c.g)
    (hroom : ∀ e ∈ c.strands, strandBits c.act e.2 ≠ e.1.active → strandBits c.act e.2 ≠ 0 → e.1.stack.length ≠ 8) :
    exec (.brl h toff joff) s = .next (c.moved fun j x =>
      if strandBits c.act j = x.active then { x with pc := ((c.pc : Int) + toff).toNat }
      else if strandBits c.act j = 0 then { x with pc := c.pc + 1 }
      else
        { x with
          active := strandBits c.act j
          pc := ((c.pc : Int) + toff).toNat
          stack := { jpc := ((c.pc : Int) + joff).toNat, npc := c.pc + 1, pend := x.active &&& ~~~(strandBits c.act j)
                     save := x.active } :: x.stack }) := by
  change execBrl h toff joff s = _
  refine (laneInstr_ready _ hc).trans ?_
  have hin : ¬ (!(c.inSection ((c.pc : Int) + toff) && c.inSection ((c.pc : Int) + joff))) = true := by
    rw [inSection_of ht0 ht, inSection_of hj0 hj]
    decide
  have hfull : ¬ (c.strands.any fun (x, j) => c.taken j != x.active && c.taken j != 0 && x.stack.length == 8) = true := by
    refine not_any_full fun e he => ?_
    have hr := hroom e he
    simp only [Lane.taken, Bool.and_eq_false_iff, bne_eq_false_iff_eq, beq_eq_false_iff_ne]
    tauto
  dsimp only
  rw [if_neg hin, if_neg hfull]
  simp only [Lane.control, Lane.moved, Lane.taken, beq_iff_eq]

/-- LCALL (R195). -/
theorem exec_lcall (hc : s.laneReady h.rg h.sw (some h) [] [] = some c) {toff : Int} (ht0 : 0 ≤ (c.pc : Int) + toff)
    (ht : (c.pc : Int) + toff < c.s.laneLen c.g)
    (hroom : ∀ e ∈ c.strands, strandBits c.act e.2 ≠ 0 → e.1.stack.length ≠ 8) :
    exec (.lcall h toff) s = .next (c.moved fun j x =>
      if strandBits c.act j = 0 then { x with pc := c.pc + 1 }
      else
        { x with
          active := strandBits c.act j
          pc := ((c.pc : Int) + toff).toNat
          stack := { jpc := 0x3FFFFF, npc := c.pc + 1, pend := 0, save := x.active } :: x.stack }) := by
  change execLcall h toff s = _
  refine (laneInstr_ready _ hc).trans ?_
  have hin : ¬ (!c.inSection ((c.pc : Int) + toff)) = true := by
    rw [inSection_of ht0 ht]
    decide
  have hfull : ¬ (c.strands.any fun (x, j) => c.taken j != 0 && x.stack.length == 8) = true := by
    refine not_any_full fun e he => ?_
    have hr := hroom e he
    simp only [Lane.taken, Bool.and_eq_false_iff, bne_eq_false_iff_eq, beq_eq_false_iff_ne]
    tauto
  dsimp only
  rw [if_neg hin, if_neg hfull]
  simp only [Lane.control, Lane.moved, Lane.taken, beq_iff_eq]
  rfl

/-- LRET (R196). -/
theorem exec_lret (hc : s.laneReady h.rg h.sw (some h) [] [] = some c)
    (hcall : ∀ e ∈ c.strands, ∃ k r, e.1.stack = k :: r ∧ k.jpc = 0x3FFFFF) :
    exec (.lret h) s = .next (c.moved fun j x =>
      match x.stack with
      | k :: r => { x with active := k.save &&& strandBits c.g.regs.live j, pc := k.npc, stack := r }
      | [] => x) := by
  change execLret h s = _
  refine (laneInstr_ready _ hc).trans ?_
  have hin : ¬ (c.strands.any fun (x, _) => !x.inCall) = true := by
    refine not_any_full fun e he => ?_
    obtain ⟨k, r, hs, hk⟩ := hcall e he
    simp only [Strand.inCall, hs, hk]
    rfl
  rw [if_neg hin]
  rfl

/-- The group when the active lanes have left LIVE, its strands at the next word (R197). -/
def Lane.exited (c : Lane) : Group :=
  let live := c.g.regs.live &&& ~~~c.act
  let out (j : Nat) (x : Strand) : Strand :=
    { x.dropLanes (strandBits live j) with pc := c.pc + 1, part := x.part && strandBits live j != 0 }
  { c.g with regs := { c.g.regs with live := live } }.modLanes (modStrands c.gang out)

/-- LEXIT outside the bodies of a loop (R36, R197). -/
theorem exec_lexit (hc : s.laneReady h.rg h.sw (some h) [] [] = some c) (hloop : c.g.inLoop = false) :
    exec (.lexit h) s = .next ((c.s.modMem fun m => m.loseLanes c.g.gid c.act).setGroup
      (if c.exited.lanes.strands.all fun x => !x.part then c.exited.endBlock else c.exited)) := by
  change execLexit h s = _
  refine (laneInstr_ready _ hc).trans ?_
  dsimp only
  rw [hloop]
  rfl

/-- JOIN (R35). -/
theorem exec_join {sw rg : Bool} (hc : s.laneReady true sw none [] [] = some c) : exec (.join sw rg) s =
    .next (c.moved fun j x => x.join (strandBits c.g.regs.live j) c.pc) := by
  change execJoin sw rg s = _
  exact laneFrame_ready _ hc

/-- LEND outside the bodies of a loop, with empty stacks (R31, R36). -/
theorem exec_lend {sw rg : Bool} (hc : s.laneReady true sw none [] [] = some c) (hloop : c.g.inLoop = false)
    (hstack : ∀ e ∈ c.strands, e.1.stack = []) : exec (.lend sw rg) s =
    .next (c.s.setGroup (if c.reach.allReached then c.reach.endBlock else c.reach)) := by
  change execLend sw rg s = _
  refine (laneFrame_ready _ hc).trans ?_
  have hempty : ¬ (c.strands.any fun (x, _) => !x.stack.isEmpty) = true := by
    refine not_any_full fun e he => ?_
    simp [hstack e he]
  rw [hloop, if_neg Bool.false_ne_true, if_neg hempty]

/-- Outside an open loop, or in a handler. -/
theorem inLoop_eq_false {g : Group} (h : g.gen = none ∨ g.trap ≠ none) : g.inLoop = false := by
  unfold Group.inLoop Group.inHandler
  rcases h with h | h
  · rw [h]
    rfl
  · rw [Option.isSome_iff_ne_none.mpr h, Bool.not_true, Bool.and_false]

/-- A strand at a JOIN word (R35). -/
theorem join_eq (live : BitVec 4) (pc : Nat) (x : Strand) : x.join live pc =
    match x.stack with
    | e :: r =>
      if e.jpc ≠ pc then { x with pc := pc + 1 }
      else if e.pend ≠ 0 then { x with active := e.pend &&& live, pc := e.npc, stack := { e with pend := 0 } :: r }
      else { x with active := e.save &&& live, pc := pc + 1, stack := r }
    | [] => { x with pc := pc + 1 } := by
  unfold Strand.join
  cases x.stack with
  | nil => rfl
  | cons e r =>
    dsimp only
    by_cases hj : e.jpc = pc
    · by_cases hp : e.pend = 0
      · simp [hj, hp]
      · simp [hj]
    · simp [hj]

/-- Settles O48: each form is a step of the gang's strands. -/
theorem laneControlFlow : Obligations.LaneControlFlow := by
  unfold Obligations.LaneControlFlow
  intro s h c
  refine ⟨fun hc => ⟨fun toff joff ht0 ht hj0 hj hroom => exec_brl hc ht0 ht hj0 hj hroom,
    fun toff ht0 ht hroom => exec_lcall hc ht0 ht hroom, fun hcall => exec_lret hc hcall, fun hg => ?_⟩,
    fun sw rg hc => ⟨?_, fun hg hstack => ?_⟩⟩
  · have hbytes : s.sameBytes (c.s.modMem fun m => m.loseLanes c.g.gid c.act) :=
      .of_mem (by rw [← laneReady_mem hc]; exact ⟨rfl, rfl, rfl, rfl⟩)
    have hexec := exec_lexit hc (inLoop_eq_false hg)
    by_cases hall : (c.exited.lanes.strands.all fun x => !x.part) = true
    · rw [if_pos hall] at hexec
      exact ⟨_, _, hexec, rfl, hbytes, rfl, (if_pos hall).symm⟩
    · rw [if_neg hall] at hexec
      exact ⟨_, _, hexec, rfl, hbytes, rfl, (if_neg hall).symm⟩
  · refine (exec_join hc).trans (congrArg (fun f => Host.Outcome.next (c.moved f)) ?_)
    funext j x
    exact join_eq _ _ x
  · exact exec_lend hc (inLoop_eq_false hg) hstack

end Sys2Proof.Machine
end

section
/-! SUPPORT. Values placed in the fill frame of a generator (R256), and gangs gathered at a lane word (R259). -/
namespace Sys2Proof.Machine

/-! ## Tables -/

/-- Setting entries leaves the others. -/
theorem tget_tsetAll_ne {α : Type} (d : α) {l : List (Nat × α)} {k : Nat} (h : ∀ e ∈ l, e.1 ≠ k) (t : Tbl α) :
    tget d (tsetAll t l) k = tget d t k := by
  induction l generalizing t with
  | nil => rfl
  | cons e l ih =>
    obtain ⟨i, x⟩ := e
    rw [tsetAll, ih (fun e he => h e (List.mem_cons_of_mem _ he)), tget_tset_ne _ _ _ (h (i, x) List.mem_cons_self)]

/-- Entries with different keys are all set. -/
theorem tget_tsetAll_mem {α : Type} (d : α) {l : List (Nat × α)} (hl : (l.map (·.1)).Nodup) {k : Nat} {x : α} (h : (k, x) ∈ l)
    (t : Tbl α) : tget d (tsetAll t l) k = x := by
  induction l generalizing t with
  | nil => nomatch h
  | cons e l ih =>
    obtain ⟨i, y⟩ := e
    obtain ⟨hi, hl⟩ := List.nodup_cons.mp hl
    rcases List.mem_cons.mp h with heq | h
    · obtain ⟨rfl, rfl⟩ := Prod.mk.inj heq
      rw [tsetAll, tget_tsetAll_ne, tget_tset_same]
      rintro e he rfl
      exact hi (List.mem_map.mpr ⟨e, he, rfl⟩)
    · exact ih hl h _

/-! ## The slots of a frame -/

/-- The entries of one slot's words. -/
def slotEntries (f j : Nat) (ws : List Word) : List (Nat × Word) := (ws.zip (List.range ws.length)).map fun (w, i) => (slotKey f j i, w)

theorem mem_slotEntries {f j : Nat} {ws : List Word} {e : Nat × Word} :
    e ∈ slotEntries f j ws ↔ ∃ i, ws[i]? = some e.2 ∧ e.1 = slotKey f j i := by
  constructor
  · intro h
    obtain ⟨⟨w, i⟩, hi, rfl⟩ := List.mem_map.mp h
    obtain ⟨k, hk, hget⟩ := List.mem_iff_getElem.mp hi
    rw [List.getElem_zip, List.getElem_range] at hget
    obtain ⟨rfl, rfl⟩ := Prod.mk.inj hget
    exact ⟨k, List.getElem?_eq_getElem _, rfl⟩
  · rintro ⟨i, hi, hk⟩
    obtain ⟨hlt, hget⟩ := List.getElem?_eq_some_iff.mp hi
    refine List.mem_map.mpr ⟨(e.2, i), List.mem_iff_getElem.mpr ⟨i, by simpa using hlt, ?_⟩, ?_⟩
    · rw [List.getElem_zip, List.getElem_range, hget]
    · exact Prod.ext hk.symm rfl

theorem slotEntries_nodup (f j : Nat) (ws : List Word) : ((slotEntries f j ws).map (·.1)).Nodup := by
  have hkeys : (slotEntries f j ws).map (·.1) = (List.range ws.length).map (slotKey f j) := by
    have hsnd := List.map_snd_zip (l₁ := ws) (l₂ := List.range ws.length) (by simp)
    rw [slotEntries, List.map_map, ← hsnd, List.map_map, hsnd]
    rfl
  rw [hkeys]
  exact List.nodup_range.map fun a b h => by
    unfold slotKey at h
    omega

/-- The slots once the values of lanes stand in slots j, j + 1, … of a frame. -/
def slotsWith (f : Nat) (val : Nat → List Word) : Nat → List Nat → Tbl Word → Tbl Word
  | _, [], t => t
  | j, l :: ls, t => slotsWith f val (j + 1) ls (tsetAll t (slotEntries f j (val l)))

/-- A key of the slots of some values. -/
def slotHolds (f vw j : Nat) (ls : List Nat) (k : Nat) : Prop := ∃ i < ls.length, ∃ w ≤ vw, k = slotKey f (j + i) w

/-- Slots of other keys stay. -/
theorem slotsWith_ne {f vw : Nat} {val : Nat → List Word} (hval : ∀ l, (val l).length = vw + 1) {ls : List Nat} {j k : Nat}
    (hk : ∀ i < ls.length, ∀ w ≤ vw, k ≠ slotKey f (j + i) w) (t : Tbl Word) :
    tget 0 (slotsWith f val j ls t) k = tget 0 t k := by
  induction ls generalizing j t with
  | nil => rfl
  | cons l ls ih =>
    rw [slotsWith, ih, tget_tsetAll_ne]
    · intro e he
      obtain ⟨i, hi, hkey⟩ := mem_slotEntries.mp he
      obtain ⟨hlt, -⟩ := List.getElem?_eq_some_iff.mp hi
      rw [hkey]
      exact (hk 0 (Nat.succ_pos _) i (by rw [hval] at hlt; omega)).symm
    · intro i hi w hw
      rw [Nat.add_right_comm j 1 i]
      exact hk (i + 1) (Nat.succ_lt_succ hi) w hw

/-- Each value stands in its slot. -/
theorem slotsWith_get {f vw : Nat} (hvw : vw < 4) {val : Nat → List Word} (hval : ∀ l, (val l).length = vw + 1) {ls : List Nat}
    {j i w : Nat} (hi : i < ls.length) (hw : w ≤ vw) (t : Tbl Word) :
    tget 0 (slotsWith f val j ls t) (slotKey f (j + i) w) = (val (ls.getD i 0)).getD w 0 := by
  induction ls generalizing j i t with
  | nil => nomatch hi
  | cons l ls ih =>
    rw [slotsWith]
    cases i with
    | zero =>
      rw [slotsWith_ne hval]
      · refine tget_tsetAll_mem 0 (slotEntries_nodup ..) (mem_slotEntries.mpr ⟨w, ?_, rfl⟩) t
        have hlt : w < (val l).length := by rw [hval]; omega
        rw [List.getD_cons_zero, List.getD_eq_getElem _ _ hlt, List.getElem?_eq_getElem hlt]
      · intro i _ v hv h
        unfold slotKey at h
        omega
    | succ i =>
      have hkey : j + (i + 1) = j + 1 + i := by omega
      rw [hkey, List.getD_cons_succ]
      exact ih (Nat.lt_of_succ_lt_succ hi) _

/-! ## Yields -/

/-- Placing a value in a frame that stays open. -/
theorem Gen.place_open {n : Gen} (f : Nat) (ws : List Word) (h : n.fc + 1 ≠ n.size) :
    n.place f ws = { n with slots := tsetAll n.slots (slotEntries f n.fc ws), fc := n.fc + 1 } := if_neg h

/-- A frame that has become full: it is ready, and the other one is filled next if it is free (R256). -/
def Gen.filled (n : Gen) (f : Nat) : Gen :=
  let n := { n.setStatus f .ready with ready := n.ready ++ [f], fc := 0 }
  if n.status (1 - f) == .free then n.setStatus (1 - f) .fill else n

/-- Placing the value that fills a frame. -/
theorem Gen.place_full {n : Gen} (f : Nat) (ws : List Word) (h : n.fc + 1 = n.size) :
    n.place f ws = Gen.filled { n with slots := tsetAll n.slots (slotEntries f n.fc ws), fc := n.fc + 1 } f := if_pos h

theorem Gen.filled_spec {n : Gen} {f k : Nat} (hf : n.fill? = some f) :
    (Gen.filled { n with fc := k } f).slots = n.slots ∧ (Gen.filled { n with fc := k } f).status f = .ready ∧
      (Gen.filled { n with fc := k } f).ready = n.ready ++ [f] ∧ (Gen.filled { n with fc := k } f).fc = 0 ∧
      (Gen.filled { n with fc := k } f).pend = n.pend ∧
      (Gen.filled { n with fc := k } f).status (1 - f) = if n.status (1 - f) = .free then .fill else n.status (1 - f) := by
  have hcase : f = 0 ∨ f = 1 := by
    unfold Gen.fill? at hf
    split at hf
    · exact .inl (Option.some.inj hf).symm
    · split at hf
      · exact .inr (Option.some.inj hf).symm
      · exact nomatch hf
  rcases hcase with rfl | rfl
  · cases h1 : n.st1 <;> simp [Gen.filled, Gen.setStatus, Gen.status, h1]
  · cases h0 : n.st0 <;> simp [Gen.filled, Gen.setStatus, Gen.status, h0]

/-- Values for which the fill frame has room stand in it (R256). -/
theorem Gen.yieldAll_open {n : Gen} {f : Nat} {val : Nat → List Word} {ls : List Nat} (hf : n.fill? = some f)
    (hroom : n.fc + ls.length < n.size) :
    n.yieldAll val ls = ({ n with slots := slotsWith f val n.fc ls n.slots, fc := n.fc + ls.length }, []) := by
  induction ls generalizing n with
  | nil => rfl
  | cons l ls ih =>
    rw [List.length_cons] at hroom
    rw [Gen.yieldAll, hf]
    dsimp only
    rw [Gen.place_open f _ (by omega), ih]
    · simp only [slotsWith, List.length_cons, Nat.add_right_comm n.fc 1, Nat.add_assoc]
    · exact hf
    · dsimp only
      omega

/-- The frame that the last value fills becomes ready, and a free frame is filled next (R256). -/
theorem Gen.yieldAll_full {n : Gen} {f : Nat} {val : Nat → List Word} {ls : List Nat} (hf : n.fill? = some f) (hne : ls ≠ [])
    (hroom : n.fc + ls.length = n.size) : ∃ m : Gen, n.yieldAll val ls = (m, []) ∧ m.slots = slotsWith f val n.fc ls n.slots ∧
      m.status f = .ready ∧ m.ready = n.ready ++ [f] ∧ m.fc = 0 ∧ m.pend = n.pend ∧
      m.status (1 - f) = if n.status (1 - f) = .free then .fill else n.status (1 - f) := by
  induction ls generalizing n with
  | nil => exact absurd rfl hne
  | cons l ls ih =>
    rw [List.length_cons] at hroom
    rw [Gen.yieldAll, hf]
    dsimp only
    by_cases hls : ls = []
    · subst hls
      have hfull : n.fc + 1 = n.size := by simpa using hroom
      refine ⟨n.place f (val l), rfl, ?_⟩
      rw [Gen.place_full f _ hfull]
      exact Gen.filled_spec (n := { n with slots := tsetAll n.slots (slotEntries f n.fc (val l)) }) hf
    · have hlen := List.length_pos_of_ne_nil hls
      rw [Gen.place_open f _ (by omega)]
      obtain ⟨m, hm, hslots, hst, hready, hfc, hpend, hother⟩ := ih
        (n := { n with slots := tsetAll n.slots (slotEntries f n.fc (val l)), fc := n.fc + 1 }) hf hls (by dsimp only; omega)
      exact ⟨m, hm, hslots, hst, hready, hfc, hpend, hother⟩

/-! ## Gangs gathered at a word -/

/-- An element of a list that a list of numbered elements gives. -/
theorem getElem?_zip_range {α β : Type} {l : List α} {n j : Nat} {f : α → Nat → β} {y : β}
    (h : ((l.zip (List.range n)).map fun e => f e.1 e.2)[j]? = some y) : ∃ x, l[j]? = some x ∧ y = f x j := by
  rw [List.getElem?_map] at h
  obtain ⟨e, he, rfl⟩ := Option.map_eq_some_iff.mp h
  obtain ⟨hx, hj⟩ := List.getElem?_zip_eq_some.mp he
  obtain ⟨hlt, hj⟩ := List.getElem?_eq_some_iff.mp hj
  rw [List.getElem_range] at hj
  exact ⟨e.1, hx, by rw [hj]⟩

/-- A strand of a group that has been gathered at a word (R259). -/
theorem converge_strand {g : Group} {pc : Nat} {m : Mask} {j : Nat} {x : Strand} (h : (g.converge pc m).lanes.strands[j]? = some x) :
    x.pc = pc ∧ x.stack = [] ∧ x.gang = 0 ∧ x.active = strandBits (m &&& g.regs.live) j := by
  obtain ⟨y, -, rfl⟩ := getElem?_zip_range (f := fun _ j => ({
    pc := pc, active := strandBits (m &&& g.regs.live) j, stack := [], gang := 0, part := strandBits g.regs.live j != 0
    reached := false } : Strand)) h
  exact ⟨rfl, rfl, rfl, rfl⟩

end Sys2Proof.Machine
end
section
/-! PROOFS. O49: generators. -/
namespace Sys2Proof.Machine

section
variable {s : State} {h : Hdr} {c : Lane} {n : Gen}

/-- An instruction of a generator in its own mode (R252, R265). -/
theorem Lane.inMode_ok {ok : Gen → Bool} {subc : Nat} {k : Gen → Out} (ht : c.g.trap = none) (hg : c.g.info.gen = true)
    (hn : c.g.gen = some n) (hok : ok n = true) : c.inMode ok subc k = k n := by
  unfold Lane.inMode Group.inHandler
  rw [ht, hg, hn]
  dsimp only [Option.isSome_none]
  rw [if_neg Bool.false_ne_true, if_neg (by decide), if_pos hok]

/-- GBEG opens a loop (R255). -/
theorem exec_gbeg {sw rg : Bool} {vw tn : Nat} {poff coff : Int} (hc : s.laneReady rg sw none [] [] = some c)
    (hp : c.inSection ((c.pc : Int) + poff) = true) (hq : c.inSection ((c.pc : Int) + coff) = true) (ht : c.g.trap = none)
    (hg : c.g.info.gen = true) (hn : c.g.gen = none) (hw : c.wholeGroup = true) (he : c.s.holdsGend c.g (c.pc + 1) = true) :
    exec (.gbeg sw rg vw tn poff coff) s = .next (c.spent.setGroup
      { c.g.modLanes fun l => l.map fun x => { x with stack := [], pc := ((c.pc : Int) + poff).toNat } with
        gen := some (c.newGen vw tn ((c.pc : Int) + poff).toNat ((c.pc : Int) + coff).toNat) }) := by
  change execGbeg sw rg vw tn poff coff s = _
  refine (laneFrame_ready _ hc).trans ?_
  unfold Group.inHandler
  dsimp only
  rw [hp, hq, ht, hg, hn, hw, he]
  rfl

/-- What GYLD does in the producer (R256, R257). -/
theorem exec_gyld {b : Opnd} (hc : s.laneReady h.rg h.sw (some h) [] [(b, s.genWords)] = some c) (ht : c.g.trap = none)
    (hg : c.g.info.gen = true) (hn : c.g.gen = some n) (hm : n.mode = .producer) (hp : n.pend = none) :
    exec (.gyld h b) s =
      match n.yieldAll (fun l => (List.range (n.vw + 1)).map fun i =>
        BitVec.ofNat 32 (c.read (n.vw + 1) (fun _ => 0) b l / 2 ^ (32 * i))) (lanesOf c.act) with
      | (m, []) => { c with g := { c.g with gen := some { m with pend := none } } }.finish []
      | (m, l :: ls) =>
        .next (c.spent.setGroup { c.g with
          gen := some { m with pend := some (maskOf (l :: ls)), yielder := c.gang, move := some .toConsumer } }) := by
  change execGyld h b s = _
  refine (laneInstr_ready _ hc).trans ?_
  rw [Lane.inMode_ok ht hg hn (by rw [Gen.producing, hm]; rfl)]
  have hy : c.yielding n = c.act := by
    unfold Lane.yielding
    rw [hp]
  dsimp only
  rw [hy] <;> rfl

/-- GNXT (R257). -/
theorem exec_gnxt (hc : s.laneReady h.rg h.sw (some h) [] [] = some c) (ht : c.g.trap = none)
    (hg : c.g.info.gen = true) (hn : c.g.gen = some n) (hm : n.mode = .producer) :
    exec (.gnxt h) s = .next ({ c with g := { c.g with gen := some { n with
      move := if n.thr + 1 ≤ n.ready.length then some .toConsumer else none } } }.done []) := by
  change execGnxt h s = _
  refine (laneInstr_ready _ hc).trans ?_
  rw [Lane.inMode_ok ht hg hn (by rw [Gen.producing, hm]; rfl)]
  rfl

/-- GDNE (R258). -/
theorem exec_gdne (hc : s.laneReady h.rg h.sw (some h) [] [] = some c) (ht : c.g.trap = none)
    (hg : c.g.info.gen = true) (hn : c.g.gen = some n) (hm : n.mode = .producer) :
    exec (.gdne h) s = .next (c.spent.setGroup { c.g.modLanes (modStrands c.gang fun j x =>
        { x.dropLanes (~~~(strandBits c.act j)) with
          pc := c.pc + 1, part := x.part && strandBits (c.g.regs.live &&& ~~~(n.done ||| c.act)) j != 0 }) with
      gen := some { n with done := n.done ||| c.act
                           move := if c.g.regs.live &&& ~~~(n.done ||| c.act) = 0 then some .toDrain else none } }) := by
  change execGdne h s = _
  refine (laneInstr_ready _ hc).trans ?_
  rw [Lane.inMode_ok ht hg hn (by rw [Gen.producing, hm]; rfl)]
  rfl

/-- GRCV (R260). -/
theorem exec_grcv {a : Opnd} (hc : s.laneReady h.rg h.sw (some h) [(a, s.genWords)] [] = some c) (ht : c.g.trap = none)
    (hg : c.g.info.gen = true) (hn : c.g.gen = some n) (hm : n.mode ≠ .producer) :
    exec (.grcv h a) s = c.finish ((lanesOf c.act).flatMap fun l =>
      match n.slotOf l with
      | none => []
      | some j =>
        if j < n.held then resOf c.gang a (n.vw + 1) l (spanVal (fun i => tget 0 n.slots (slotKey n.cur j i)) (n.vw + 1))
        else []) := by
  change execGrcv h a s = _
  refine (laneInstr_ready _ hc).trans ?_
  rw [Lane.inMode_ok ht hg hn (by simpa [Gen.producing] using hm)] <;> rfl

/-- GRET with empty stacks (R261). -/
theorem exec_gret {sw rg : Bool} (hc : s.laneReady rg sw none [] [] = some c) (ht : c.g.trap = none)
    (hg : c.g.info.gen = true) (hn : c.g.gen = some n) (hm : n.mode ≠ .producer) (hs : ∀ e ∈ c.strands, e.1.stack = []) :
    exec (.gret sw rg) s =
      if !c.reach.allReached then .next (c.s.setGroup c.reach)
      else .next (c.spent.setGroup
        (match (n.freeFrame n.cur).mode, (n.freeFrame n.cur).ready with
          | .consumer, f :: r => c.g.consume { n.freeFrame n.cur with ready := r } f (n.freeFrame n.cur).size
          | .consumer, [] => { c.g with gen := some { n.freeFrame n.cur with move := some .toProducer } }
          | _, _ => c.g.drainNext (n.freeFrame n.cur))) := by
  change execGret sw rg s = _
  refine (laneFrame_ready _ hc).trans ?_
  have hempty : ¬ (c.strands.any fun (x, _) => !x.stack.isEmpty) = true := not_any_full fun e he => by simp [hs e he]
  rw [Lane.inMode_ok ht hg hn (by simpa [Gen.producing] using hm), if_neg hempty] <;> rfl

/-- Freeing a frame leaves the rest of the loop. -/
theorem freeFrame_fields (n : Gen) (f : Nat) :
    (n.freeFrame f).mode = n.mode ∧ (n.freeFrame f).ready = n.ready ∧ (n.freeFrame f).size = n.size := by
  unfold Gen.freeFrame Gen.setStatus
  dsimp only
  split_ifs <;> exact ⟨rfl, rfl, rfl⟩

/-- GEND at the end of a drain (R263). -/
theorem exec_gend {sw rg : Bool} (hc : s.laneReady rg sw none [] [] = some c) (ht : c.g.trap = none)
    (hg : c.g.info.gen = true) (hn : c.g.gen = some n) (ha : n.atEnd = true) (he : n.endPc = c.pc) :
    exec (.gend sw rg) s = .next (c.spent.setGroup
      { ((c.g.converge (c.pc + 1) c.g.regs.live).modLanes fun l => (l.zip n.outer).map fun (x, st) =>
          { x with stack := st }).modLanes (dropDead c.g.regs.live) with gen := none }) := by
  change execGend sw rg s = _
  refine (laneFrame_ready _ hc).trans ?_
  rw [Lane.inMode_ok ht hg hn (by rw [ha, he]; simp)]
  rfl

end

/-- A switch that has been decided on completes once nothing of its side is outstanding (R259). -/
theorem genSwitch_goes {gid : Nat} {m : GenMove} {s : State} {k : Group → Gen → Group} {g : Group} {n : Gen}
    (hg : s.group? gid = some g) (hn : g.gen = some n) (ht : g.trap = none) (hs : g.suspended = false) (hm : n.move = some m)
    (hl : s.gangLoads g 0xFF = []) (hf : g.lanes.fault = none) (hw : s.mayFault g s.nextId = false) :
    genSwitch gid m s k = .next (s.setGroup (k g.landEvery { n with move := none })) := by
  unfold genSwitch Group.inHandler
  rw [hg]
  dsimp only
  rw [hn]
  dsimp only
  rw [hm, ht, hs, hl, hf, hw]
  simp

/-- A switch with something outstanding, or not decided on, waits. -/
theorem genSwitch_waits {gid : Nat} {m : GenMove} {s : State} {k : Group → Gen → Group} {g : Group} {n : Gen}
    (hg : s.group? gid = some g) (hn : g.gen = some n)
    (h : s.gangLoads g 0xFF ≠ [] ∨ g.lanes.fault ≠ none ∨ s.mayFault g s.nextId = true ∨ n.move = none) :
    genSwitch gid m s k = .next s := by
  unfold genSwitch
  rw [hg]
  dsimp only
  rw [hn]
  refine if_neg ?_
  simp only [Bool.and_eq_true, beq_iff_eq, Bool.not_eq_true', List.isEmpty_iff, Option.isNone_iff_eq_none]
  rintro ⟨⟨⟨⟨⟨hmove, -⟩, -⟩, hfault⟩, hloads⟩, hmay⟩
  rcases h with h | h | h | h
  · exact h hloads
  · exact h hfault
  · exact Bool.noConfusion (h.symm.trans hmay)
  · exact nomatch h.symm.trans hmove

/-- Landing results leaves the lanes of a group. -/
theorem landEvery_lanes (g : Group) : g.landEvery.lanes = g.lanes := by
  unfold Group.landEvery
  rw [Group.landAll_eq]

/-- The mask of a mask's lanes is the mask. -/
theorem maskOf_lanesOf (m : Mask) : maskOf (lanesOf m) = m := by
  refine BitVec.eq_of_getLsbD_eq fun l hl => ?_
  rw [getLsbD_maskOf hl]
  cases hm : m.getLsbD l with
  | true => exact List.contains_iff_mem.mpr (mem_lanesOf.mpr ⟨hl, hm⟩)
  | false =>
    refine Bool.eq_false_iff.mpr fun h => ?_
    rw [(mem_lanesOf.mp (List.contains_iff_mem.mp h)).2] at hm
    exact Bool.noConfusion hm

/-- The words of a lane's value. -/
def Lane.yieldWords (c : Lane) (vw : Nat) (b : Opnd) (l : Nat) : List Word :=
  (List.range (vw + 1)).map fun i => BitVec.ofNat 32 (c.read (vw + 1) (fun _ => 0) b l / 2 ^ (32 * i))

theorem length_yieldWords (c : Lane) (vw : Nat) (b : Opnd) (l : Nat) : (c.yieldWords vw b l).length = vw + 1 := by
  simp [Lane.yieldWords]

/-- The slots of a fill frame after a yield. -/
theorem slotsWith_yieldWords {c : Lane} {n : Gen} {f : Nat} {b : Opnd} (hvw : n.vw < 4) {ls : List Nat} {t : Tbl Word}
    (ht : t = slotsWith f (c.yieldWords n.vw b) n.fc ls n.slots) :
    (∀ i < ls.length, ∀ w ≤ n.vw, tget 0 t (slotKey f (n.fc + i) w) =
      BitVec.ofNat 32 (c.read (n.vw + 1) (fun _ => 0) b (ls.getD i 0) / 2 ^ (32 * w))) ∧
    ∀ k, (∀ i < ls.length, ∀ w ≤ n.vw, k ≠ slotKey f (n.fc + i) w) → tget 0 t k = tget 0 n.slots k := by
  subst ht
  refine ⟨fun i hi w hw => ?_, fun k hk => slotsWith_ne (length_yieldWords c n.vw b) hk _⟩
  rw [slotsWith_get hvw (length_yieldWords c n.vw b) hi hw]
  have hlt : w < n.vw + 1 := by omega
  rw [Lane.yieldWords, List.getD_eq_getElem _ _ (by simpa using hlt), List.getElem_map, List.getElem_range]

/-- A strand at the end of a loop has its stack from outside the loop again (R263). -/
theorem gend_strand {g : Group} {pc : Nat} {outer : List (List StackEnt)} {j : Nat} {x : Strand}
    (h : (((g.converge pc g.regs.live).modLanes fun l => (l.zip outer).map fun (x, st) =>
      { x with stack := st }).modLanes (dropDead g.regs.live)).lanes.strands[j]? = some x) :
    x.pc = pc ∧ x.active = strandBits g.regs.live j ∧ x.gang = 0 ∧ ∃ st, outer[j]? = some st ∧
      x.stack = st.map fun e => { e with pend := e.pend &&& strandBits g.regs.live j, save := e.save &&& strandBits g.regs.live j } := by
  obtain ⟨y, hy, rfl⟩ := getElem?_zip_range (f := fun (x : Strand) j => x.dropLanes (strandBits g.regs.live j)) h
  have hy : (((g.converge pc g.regs.live).lanes.strands.zip outer).map fun (x, st) => ({ x with stack := st } : Strand))[j]? = some y := hy
  rw [List.getElem?_map] at hy
  obtain ⟨⟨z, st⟩, he, rfl⟩ := Option.map_eq_some_iff.mp hy
  obtain ⟨hz, hst⟩ := List.getElem?_zip_eq_some.mp he
  obtain ⟨hpc, -, hgang, hact⟩ := converge_strand hz
  rw [BitVec.and_self] at hact
  refine ⟨hpc, ?_, hgang, st, hst, rfl⟩
  change z.active &&& _ = _
  rw [hact, BitVec.and_self]

/-- GYLD in a producer that has no interrupted yield (R256, R257). -/
theorem gyld_spec {s : State} {h : Hdr} {c : Lane} {n : Gen} {b : Opnd}
    (hc : s.laneReady h.rg h.sw (some h) [] [(b, s.genWords)] = some c) (ht : c.g.trap = none)
    (hg : c.g.info.gen = true) (hn : c.g.gen = some n) (hm : n.mode = .producer) (hp : n.pend = none) :
    let ls := lanesOf c.act
    let gone (m : Gen) : Prop :=
      exec (.gyld h b) s = .next ({ c with g := { c.g with gen := some m } }.done [])
    let placed (m : Gen) (f : Nat) : Prop :=
      (∀ i < ls.length, ∀ w ≤ n.vw, tget 0 m.slots (slotKey f (n.fc + i) w) =
        BitVec.ofNat 32 (c.read (n.vw + 1) (fun _ => 0) b (ls.getD i 0) / 2 ^ (32 * w))) ∧
      ∀ k, (∀ i < ls.length, ∀ w ≤ n.vw, k ≠ slotKey f (n.fc + i) w) → tget 0 m.slots k = tget 0 n.slots k
    (∀ f, n.fill? = some f → n.vw < 4 → n.size ≤ 32 → n.fc + ls.length < n.size → ∃ m : Gen, gone m ∧ placed m f ∧
      m = { n with slots := m.slots, fc := n.fc + ls.length }) ∧
    (∀ f, n.fill? = some f → n.vw < 4 → n.size ≤ 32 → ls ≠ [] → n.fc + ls.length = n.size → ∃ m : Gen, gone m ∧
      placed m f ∧ m.status f = .ready ∧ m.ready = n.ready ++ [f] ∧ m.fc = 0 ∧
      m.status (1 - f) = if n.status (1 - f) = .free then .fill else n.status (1 - f)) ∧
    (n.fill? = none → ls ≠ [] → exec (.gyld h b) s = .next (c.spent.setGroup
      { c.g with gen := some { n with pend := some c.act, yielder := c.gang, move := some .toConsumer } })) := by
  intro ls gone placed
  have hexec := exec_gyld (b := b) hc ht hg hn hm hp
  refine ⟨fun f hf hvw _ hroom => ?_, fun f hf hvw _ hne hroom => ?_, fun hf hne => ?_⟩
  · have hy := Gen.yieldAll_open (val := c.yieldWords n.vw b) hf hroom
    refine ⟨{ n with slots := slotsWith f (c.yieldWords n.vw b) n.fc ls n.slots, fc := n.fc + ls.length }, ?_,
      slotsWith_yieldWords hvw rfl, rfl⟩
    refine hexec.trans ?_
    unfold Lane.yieldWords at hy
    rw [hy, ← hp]
    rfl
  · obtain ⟨m, hy, hslots, hst, hready, hfc, hpend, hother⟩ := Gen.yieldAll_full (val := c.yieldWords n.vw b) hf hne hroom
    refine ⟨m, ?_, slotsWith_yieldWords hvw hslots, hst, hready, hfc, hother⟩
    refine hexec.trans ?_
    unfold Lane.yieldWords at hy
    rw [hy, ← hp, ← hpend]
    rfl
  · obtain ⟨l, r, hls⟩ := List.exists_cons_of_ne_nil hne
    have hmask : maskOf (l :: r) = c.act := by rw [← hls, maskOf_lanesOf]
    refine hexec.trans ?_
    have hl : lanesOf c.act = l :: r := hls
    rw [hl, Gen.yieldAll, hf]
    dsimp only
    rw [hmask]

/-- Settles O49: the instructions of each side, and the switches between them. -/
theorem generators : Obligations.Generators := by
  unfold Obligations.Generators
  refine ⟨fun s c sw rg vw tn poff coff hc => ?_, fun s h c n ht hg hn => ⟨fun hm => ⟨fun b hc hp => ?_, fun hc => ?_⟩,
    fun hm a hc => ?_, fun sw rg hc => ⟨fun hm hs => ?_, fun ha he => ?_⟩⟩, fun g n f k => ⟨rfl, fun j x hx => ?_⟩, ?_⟩
  · intro prod cons hp0 hp hq0 hq ht hg hn hw he
    refine ⟨_, _, exec_gbeg hc (inSection_of hp0 hp) (inSection_of hq0 hq) ht hg hn hw he, rfl, rfl, rfl, rfl, rfl, rfl, rfl, rfl,
      rfl, rfl, rfl, rfl, fun x hx => ?_⟩
    obtain ⟨y, -, rfl⟩ := List.mem_map.mp hx
    exact ⟨rfl, rfl⟩
  · exact gyld_spec hc ht hg hn hm hp
  · exact ⟨exec_gnxt hc ht hg hn hm, _, exec_gdne hc ht hg hn hm, rfl, rfl, rfl⟩
  · refine (exec_grcv hc ht hg hn hm).trans ?_
    unfold Gen.held Gen.slotOf
    simp only [beq_iff_eq]
    rfl
  · intro marked all m goes
    have hexec := exec_gret (sw := sw) (rg := rg) hc ht hg hn hm hs
    obtain ⟨hmode, hready, hsize⟩ := freeFrame_fields n n.cur
    have hall : c.reach.allReached = all := rfl
    rw [hall] at hexec
    refine ⟨fun h => ?_, fun h hmc f r hr => ?_, fun h hmc hr => ?_, fun h hmd => ?_⟩
    · rw [h] at hexec
      exact hexec
    · rw [h, hmode, hready, hsize, hmc, hr] at hexec
      exact hexec
    · rw [h, hmode, hready, hmc, hr] at hexec
      exact hexec
    · rw [h, hmode, hmd] at hexec
      exact hexec
  · exact ⟨_, exec_gend hc ht hg hn ha he, rfl, rfl, fun j x hx => gend_strand hx⟩
  · exact converge_strand hx
  · intro s gid g n hg hn ht hs h m
    refine ⟨fun hl hf hw => ⟨fun hm f r hr => ?_, fun hm l hsaved => ?_, fun hm => ?_⟩, fun hout e he => ?_⟩
    · change execGenSwitchToConsumer gid s = _
      refine (genSwitch_goes hg hn ht hs hm hl hf hw).trans ?_
      dsimp only
      rw [hr, landEvery_lanes]
    · change execGenReturnToProducer gid s = _
      refine (genSwitch_goes hg hn ht hs hm hl hf hw).trans ?_
      dsimp only
      rw [hsaved, landEvery_lanes]
      rfl
    · change execGenDrain gid s = _
      exact genSwitch_goes hg hn ht hs hm hl hf hw
    · simp only [List.mem_cons, List.not_mem_nil, or_false] at he
      rcases he with rfl | rfl | rfl
      · change execGenSwitchToConsumer gid s = _
        exact genSwitch_waits hg hn hout
      · change execGenReturnToProducer gid s = _
        exact genSwitch_waits hg hn hout
      · change execGenDrain gid s = _
        exact genSwitch_waits hg hn hout

end Sys2Proof.Machine
end

section
/-! PROOFS. O50: window operations. -/
namespace Sys2Proof.Machine

section
variable {s : State} {h : Hdr} {c : Lane} {dsts srcs : List (Opnd × Nat)}

/-- A window operation goes to the Ratchet of its core (R269, R273). -/
theorem windowOp_ready (mk : Lane → WOp) (hc : s.laneReady h.rg h.sw (some h) dsts srcs = some c) :
    windowOp s h dsts srcs mk =
      if c.act = 0 then .next (c.done [])
      else if c.g.memHeld c.gang = true then .next c.s
      else
        let a : WArr := { id := c.s.nextId, core := c.g.place.core, grp := c.g.gid, own := c.gang, act := c.act, pc := c.pc,
                          handler := c.g.inHandler, begun := false, op := mk c }
        let hold : Hold := { own := c.gang, all := true, values := [], acks := [], sc := .grp, drain := none,
                             acquire := false, ratchet := some c.s.nextId, prom := false }
        .next ({ c with
          s := (c.s.modUnits fun u => { u with ratchet := u.ratchet ++ [a] }).bumpId
          g := { c.g with holds := c.g.holds ++ [hold] } }.done []) :=
  laneInstr_ready _ hc

end

/-! ## The Ratchet -/

section
variable {s : State} {core k : Nat} {a : WArr} {g : Group} {t : Team}
  (ha : (s.units.ratchet.filter fun a => a.core == core)[k]? = some a) (hg : s.group? a.grp = some g)
  (ht : s.team? g.place.launch g.place.blk g.place.team = some t)
include ha hg ht

/-- A step of the Ratchet (R272). -/
theorem exec_ratchetPerform : exec (.ratchetPerform core k) s =
    if (s.waBlocked a || g.suspended) || s.waTaken a then .next s
    else
      match s.waRun g t a.act a.op with
      | .ok s g => .next ((s.modUnits fun u => { u with ratchet := u.ratchet.filter fun w => w.id != a.id }).setGroup g).settle
      | .trap cause subc => .next (s.waTrap g a cause subc).settle := by
  change execRatchetPerform core k s = _
  have hheld : s.waHeld a = (s.waBlocked a || g.suspended) := by
    unfold State.waHeld
    rw [hg]
    rfl
  unfold execRatchetPerform
  rw [ha]
  dsimp only
  rw [hg]
  dsimp only
  rw [ht]
  dsimp only
  rw [hheld] <;> rfl

end

/-- A trap of the Ratchet for a group that is in no handler (R44, R276). -/
theorem waTrap_waits {s : State} {g : Group} {a : WArr} (cause subc : Nat) (hg : g.trap = none)
    (hw : Lane.trapWaits { s := s.modUnits fun u => { u with ratchet := u.ratchet.filter fun w => w.id != a.id }, g := g
                           gang := a.own, pc := a.pc, act := 0 } a.id = true) : s.waTrap g a cause subc = s := by
  unfold State.waTrap State.lateTrap
  rw [hg]
  exact if_pos hw

theorem waTrap_taken {s s' : State} {g : Group} {a : WArr} (cause subc : Nat) (hg : g.trap = none)
    (hw : Lane.trapWaits { s := s.modUnits fun u => { u with ratchet := u.ratchet.filter fun w => w.id != a.id }, g := g
                           gang := a.own, pc := a.pc, act := 0 } a.id = false) :
    let gone := s.modUnits fun u => { u with ratchet := u.ratchet.filter fun w => w.id != a.id }
    let c : Lane := { s := gone, gang := a.own, pc := a.pc, act := 0
                      g := { g with lanes := { g.lanes with strands := rewindStrands a.own a.pc g.lanes.strands, fault := none } } }
    gone.handlerReady (c.g.landOf a.own) = some s' →
      s.waTrap g a cause subc = s'.setGroup ((c.g.landOf a.own).enterHandler (c.laneReq cause subc)) := by
  intro gone c hs
  unfold State.waTrap State.lateTrap
  split
  · next ht => exact nomatch hg.symm.trans ht
  · rw [if_neg (by rw [hw]; exact Bool.false_ne_true)]
    exact takeTrap_ready _ hs

/-- An operation on the object of a bound handle, after its checks (R270). -/
theorem waOn_bound {s : State} {g : Group} {t : Team} {n base : Nat} {d : WaHdr} {k : Wa → WaOut}
    (hb : (g.wa.find? fun e => e.1 == n) = some (n, base)) (hd : s.waHdr t g.place.part base = some d) : s.waOn g t n k =
      if d.invalid then .trap 0x0D 0x04
      else if !s.waInside t g.place.part base (waSize d.op d.cap) then .trap 0x06 0
      else k { s := s, t := t, part := g.place.part, base := base, h := d } := by
  unfold State.waOn
  rw [hb]
  dsimp only
  rw [hd]

/-- An operation on a handle that is not bound traps. -/
theorem waOn_unbound {s : State} {g : Group} {t : Team} {n : Nat} (k : Wa → WaOut) (h : ∀ e ∈ g.wa, e.1 ≠ n) :
    s.waOn g t n k = .trap 0x0D 0x01 := by
  have hnone : g.wa.find? (fun e => e.1 == n) = none := List.find?_eq_none.mpr fun e he => by simpa using h e he
  unfold State.waOn
  rw [hnone]

/-! ## Depths -/

theorem fillFront_h (a : Wa) (i k : Nat) (prev : Option WVal) (cs : List WVal) : (a.fillFront i k prev cs).h = a.h := by
  induction cs generalizing a k prev with
  | nil => rfl
  | cons c cs ih => exact (ih _ _ _).trans rfl

/-- Steps over windows that keep the header leave it. -/
theorem foldl_h {f : Wa → Nat → Wa} (hf : ∀ a i, (f a i).h = a.h) (l : List Nat) (a : Wa) : (l.foldl f a).h = a.h := by
  induction l generalizing a with
  | nil => rfl
  | cons i l ih => rw [List.foldl_cons, ih, hf]

/-- A flip makes the back stack the front stack (R271). -/
theorem flip_h (a : Wa) : a.flip.h = { a.h with fd := a.h.bd, bd := 0 } := by
  have hh : ∀ l : List Nat, (l.foldl (fun (b : Wa) i =>
      b.fillFront i 0 none ((List.range a.h.bd).map fun k => b.contrib i (a.h.cap - a.h.bd + k))) a).h = a.h :=
    fun l => foldl_h (fun b i => fillFront_h ..) l a
  unfold Wa.flip
  dsimp only
  rw [hh]

/-- One expiry takes one contribution away, if there is one. -/
theorem expire1_depth (a : Wa) : a.expire1.h.fd + a.expire1.h.bd = a.h.fd + a.h.bd - 1 ∧ a.expire1.h.w = a.h.w ∧
    a.expire1.h.pushes = a.h.pushes := by
  unfold Wa.expire1
  split
  · next hz => exact ⟨by omega, rfl, rfl⟩
  · next hz =>
    by_cases hf : a.h.fd = 0
    · simp only [hf, if_true, flip_h]
      exact ⟨by omega, trivial, trivial⟩
    · simp only [hf, if_false]
      exact ⟨by omega, trivial, trivial⟩

theorem expire_depth (a : Wa) (n : Nat) : (a.expire n).h.fd + (a.expire n).h.bd = a.h.fd + a.h.bd - n := by
  induction n generalizing a with
  | zero => rfl
  | succ n ih =>
    rw [Wa.expire, ih, (expire1_depth a).1]
    omega

/-- A push adds one contribution and makes room for it (R271). -/
theorem push_depth (a : Wa) (f : Nat → WVal) (hw : a.h.w ≠ 0) (hle : a.h.fd + a.h.bd ≤ a.h.w) :
    (a.push f).h.fd + (a.push f).h.bd = min (a.h.fd + a.h.bd + 1) a.h.w ∧ (a.push f).h.pushes = (a.h.pushes + 1) % 2 ^ 32 := by
  have hh : ∀ (b : Wa), (((List.range 32).foldl (fun (x : Wa) i => x.setEntry i (b.h.cap - (b.h.bd + 1)) (f i)
      (if b.h.bd = 0 then f i else x.step (x.agg i (b.h.cap - b.h.bd)) (f i))) b).h) = b.h :=
    fun b => by
      apply foldl_h
      exact fun _ _ => rfl
  unfold Wa.push
  by_cases hfull : a.h.fd + a.h.bd = a.h.w
  · obtain ⟨hdepth, -, hpushes⟩ := expire1_depth a
    simp only [if_pos hfull, hh, hpushes]
    exact ⟨by omega, trivial⟩
  · simp only [if_neg hfull, hh]
    exact ⟨by omega, trivial⟩

/-- A query of nothing gives the identity (R271). -/
theorem query_nothing (a : Wa) (l : Nat) {n : Nat} (h : n = 0 ∨ a.h.fd + a.h.bd = 0) :
    a.query l n = waIdentity a.h.op (a.h.flt == 1) := if_pos (by omega)

/-- Settles O50: at issue, at the Ratchet, and what an operation does to an object's depths. -/
theorem windowOperations : Obligations.WindowOperations := by
  unfold Obligations.WindowOperations
  refine ⟨fun s h c => ?_, fun s core k a g t ha hg ht => ?_, fun s g t act n hn op hop => ?_,
    fun s g t act n base d hb hd => ⟨fun hi m => ?_, fun hi hin => ⟨?_, fun m => ?_, fun w hw => ?_⟩⟩,
    fun a n l f x y u v => ⟨expire_depth a n, fun hw hle => push_depth a f hw hle, query_nothing a l, ?_, rfl⟩⟩
  · intro goes ready low n op flt b d
    refine ⟨fun hc => ?_, fun hc => ?_, fun r hc => ?_, fun hc => ⟨?_, ?_⟩, fun hc => ?_⟩
    · change execWaini h op flt (.wa n) b d s = _
      exact windowOp_ready _ hc
    · change execWapsh h (.wa n) b d s = _
      exact windowOp_ready _ hc
    · change execWaqry h (.v r) (.wa n) d s = _
      exact windowOp_ready _ hc
    · change execWaexp h (.wa n) b s = _
      exact windowOp_ready _ hc
    · change execWawln h (.wa n) b s = _
      exact windowOp_ready _ hc
    · change execWarst h (.wa n) s = _
      exact windowOp_ready _ hc
  · intro gone
    have hexec := exec_ratchetPerform ha hg ht
    refine ⟨fun hwait => hexec.trans (if_pos ?_), fun hb hs htk => ?_⟩
    · simp only [Bool.or_eq_true]
      tauto
    · rw [hb, hs, htk, if_neg (by decide)] at hexec
      refine ⟨fun s' g' hr => ?_, fun cause subc hr htr => ⟨fun hw => ?_, fun hw => ?_⟩⟩
      · rw [hr] at hexec
        exact hexec
      · rw [hr] at hexec
        rw [hexec]
        dsimp only
        rw [waTrap_waits cause subc htr hw]
      · intro c s' hs'
        rw [hr] at hexec
        rw [hexec]
        dsimp only
        rw [waTrap_taken cause subc htr hw hs']
  · simp only [List.mem_cons, List.not_mem_nil, or_false] at hop
    rcases hop with rfl | rfl | rfl | rfl | rfl <;> unfold State.waRun <;> exact waOn_unbound _ hn
  · unfold State.waRun
    exact (waOn_bound hb hd).trans (if_pos hi)
  · unfold State.waRun
    refine (waOn_bound hb hd).trans ?_
    rw [hi, hin]
    rfl
  · unfold State.waRun
    refine (waOn_bound hb hd).trans ?_
    rw [hi, hin]
    rfl
  · unfold State.waRun
    refine (waOn_bound hb hd).trans ?_
    rw [hi, hin, if_neg Bool.false_ne_true, if_neg (by decide)]
    exact if_pos (by simpa using hw)
  · have hsum : BitVec.ofInt 32 (x.toInt + y.toInt) = x + y := by
      rw [BitVec.ofInt_add, BitVec.ofInt_toInt, BitVec.ofInt_toInt]
    exact Prod.ext hsum rfl

end Sys2Proof.Machine
end

section
/-! SUPPORT. The long line of the L2 while accesses to the line at 0x1000 are in flight. -/
namespace Sys2Proof.Machine

/-- A store of one word at 0x1000 that its core has acknowledged. -/
def longLineStore : Access :=
  { longLineGroup.access 9 .store (.hbm 0x1000) 4 with data := [1, 2, 3, 4], coreAck := true }

/-- A load of the word there that its slice has accepted. -/
def longLineLoad : Access := { longLineGroup.access 9 .load (.hbm 0x1000) 4 with accepted := true }

/-- The state of the long line with an access in flight. -/
def longLineFlying (a : Access) : State := { longLineState with mem := { longLineState.mem with flight := [a] } }

end Sys2Proof.Machine
end
section
/-! PROOFS. O51 and O52: a line that leaves the L2 while another is written or read. -/
namespace Sys2Proof.Machine

/-- Refutes O51: the store is performed at the home slice by a class without ways, the long line leaves the L2, and the byte at
address 768, which is neither written nor in a line that the L2 holds, changes from 0 to 7. -/
theorem not_writesReachMemory : ¬ Obligations.WritesReachMemory := by
  unfold Obligations.WritesReachMemory
  intro h
  have hacc : (longLineFlying longLineStore).acc? 9 = some longLineStore := by decide +kernel
  have hbehind : (longLineFlying longLineStore).writeBehind longLineStore = false := by decide +kernel
  have hfill : (longLineFlying longLineStore).fillPending longLineStore.loc = false := by decide +kernel
  have hheld : (longLineFlying longLineStore).promHeld longLineStore = false := by decide +kernel
  have hmid : ∀ b ∈ (longLineFlying longLineStore).mem.flight, b.midStore longLineStore.loc = true →
      longLineStore.kind = .store ∧ 8 < longLineStore.size ∧ b.id = longLineStore.id := by decide +kernel
  have halias : ∀ i < longLineStore.size, (longLineFlying longLineStore).aliasPends (longLineStore.loc.plus i) = false := by
    decide +kernel
  obtain ⟨-, hperform, -⟩ := h _ 9 longLineStore hacc
  obtain ⟨hstore, -⟩ := hperform rfl rfl rfl rfl hbehind hfill hheld hmid (by decide) halias rfl
  obtain ⟨t, tag, ht, -, hsame, -⟩ := hstore rfl (by decide)
  have hbyte : hbmAfter (exec (.sliceWritePerform 9) (longLineFlying longLineStore)) 768 = some 7 := by decide +kernel
  refine not_sameSettledOutside_of_hbmAfter (q := 768) ht rfl ?_ ?_ hbyte ?_ fun l => hsame l
  · decide +kernel
  · decide +kernel
  · decide +kernel

/-- Refutes O52: the data of the line at 0x1000 leaves its slice for a load by a class without ways, the long line leaves the L2,
and the byte at address 768, which is in no line that the L2 holds, changes from 0 to 7. -/
theorem not_loadsDrainsAndBlockStarts : ¬ Obligations.LoadsDrainsAndBlockStarts := by
  unfold Obligations.LoadsDrainsAndBlockStarts
  intro h
  obtain ⟨-, hleave, -⟩ := h
  obtain ⟨t, ht, hsame, -⟩ := hleave (longLineFlying longLineLoad) 32
  have hbyte : hbmAfter (exec (.lineDataLeave 32) (longLineFlying longLineLoad)) 768 = some 7 := by decide +kernel
  refine not_sameSettled_of_hbmAfter (pa := 768) ht ?_ ?_ hbyte ?_ fun l => hsame l
  · decide +kernel
  · decide +kernel
  · decide +kernel

end Sys2Proof.Machine
end

section
/-! SUPPORT. The long line of the L2 while a bundle fills. -/
namespace Sys2Proof.Machine

/-- A bundle of the line at 0x1000, which is in its way already. -/
def longLineBundle : Bundle :=
  { id := 1, ctx := 0, part := 0, state := .filling, lines := [32], entries := 0, lastLeave := 0, left := false, freed := false }

/-- The line in its bundle way. -/
def longLineBundleLine : L2Line := { line := 32, dirty := false, backing := [], way := some 0, prio := 1 }

/-- An admitted request for it. -/
def longLineReq : BReq :=
  { grp := noGroup, part := 0, ids := [1], prio := 0, age := 0, handled := true, admitted := true, handler := false }

/-- The state of the long line with the bundle and the request. -/
def longLineFilling : State :=
  let s := longLineState.modUnits fun u => { u with bundles := [longLineBundle] }
  (s.modMem fun m => { m with l2 := [longLineBundleLine, longLine] }).modPart 0 fun q => { q with bways := 1, reqs := [longLineReq] }

end Sys2Proof.Machine
end
section
/-! PROOFS. O53: a line that leaves the L2 while a bundle fills. -/
namespace Sys2Proof.Machine

/-- Refutes O53: the fill of the bundle's line settles the lines of the L2 without ways, those of a class without ways leave it,
the long line among them, and the byte at address 768, which is in no line of the bundle, changes from 0 to 7. -/
theorem not_theCarillonAdmitsAndEvicts : ¬ Obligations.TheCarillonAdmitsAndEvicts := by
  unfold Obligations.TheCarillonAdmitsAndEvicts
  intro h
  obtain ⟨-, -, -, -, hfill, -⟩ := h
  have hreq : ((longLineFilling.plat.parts.flatMap fun e => e.2.reqs).find? fun r => r.grp == noGroup && r.admitted) =
      some longLineReq := by decide +kernel
  have hfree : longLineFilling.fillBlocked longLineReq.part (longLineFilling.linesOfIds longLineReq.ids) = false := by
    decide +kernel
  obtain ⟨-, -, hdone⟩ := hfill longLineFilling noGroup longLineReq hreq
  obtain ⟨t, ht, hsame, -⟩ := hdone hfree (.inl rfl)
  have hbyte : hbmAfter (exec (.bundleFillComplete noGroup) longLineFilling) 768 = some 7 := by decide +kernel
  refine not_sameSettled_of_hbmAfter (pa := 768) ht ?_ ?_ hbyte ?_ fun l => hsame l
  · decide +kernel
  · decide +kernel
  · decide +kernel

end Sys2Proof.Machine
end

section
/-! PROOFS. O59: a line that leaves the L2 when the host reads another. -/
namespace Sys2Proof.Machine

/-- The state of the long line in a device that runs. -/
def longLineRunning : State := longLineState.modPlat fun p => { p with boot := .running }

/-- Refutes O59: the host reads the line at 0x1000 through BAR2, the long line leaves the L2, and the byte at address 768, which
the access does not touch, changes from 0 to 7. -/
theorem not_hostRegistersAndOutsideAccesses : ¬ Obligations.HostRegistersAndOutsideAccesses := by
  unfold Obligations.HostRegistersAndOutsideAccesses
  intro h
  obtain ⟨-, -, -, -, -, -, -, hbar2, -⟩ := h
  have hroom : 0x1000 + [(0 : Byte)].length ≤ 2 ^ longLineRunning.plat.bar2 := by decide +kernel
  obtain ⟨⟨t, ht, hsame⟩, -⟩ := hbar2 longLineRunning 0 0x1000 [0] [] rfl hroom (.inl rfl)
  have hbyte : hbmAfter (exec (.hostBar2Access 0 0x1000 .read [0]) longLineRunning) 768 = some 7 := by decide +kernel
  refine not_sameSettled_of_hbmAfter (pa := 768) ht ?_ ?_ hbyte ?_ fun l => hsame l
  · decide +kernel
  · decide +kernel
  · decide +kernel

end Sys2Proof.Machine
end

section
/-! SUPPORT. Bytes that are cleared, tables changed entry by entry, and cores that are powered up. -/
namespace Sys2Proof.Machine

/-- A byte of a memory of which entries at other addresses are dropped. -/
theorem Memory.get_filter_keep {m : Memory} {a : Nat} {keep : Host.Cell → Bool} (h : ∀ b, keep (a, b) = true) :
    Memory.get (m.filter keep) a = m.get a := by
  induction m with
  | nil => rfl
  | cons e r ih =>
    obtain ⟨k, b⟩ := e
    by_cases hk : k = a
    · subst hk; simp [h, Memory.get]
    · by_cases hp : keep (k, b) = true
      · simp [hp, Memory.get, hk, ih]
      · simp [hp, Memory.get, hk, ih]

/-- A byte of a memory of which n bytes are cleared. -/
theorem Memory.get_clear (m : Memory) (a n c : Nat) :
    (m.clear a n).get c = if a ≤ c ∧ c < a + n then Memory.unlisted else m.get c := by
  split
  case isTrue h =>
    refine Memory.get_of_not_mem fun e he hec => ?_
    simp only [Memory.clear, List.mem_filter, Bool.or_eq_true, decide_eq_true_eq] at he
    omega
  case isFalse h =>
    refine Memory.get_filter_keep fun b => ?_
    simp only [Bool.or_eq_true, decide_eq_true_eq]
    omega

/-- An entry of a table whose entries are changed all by one function. -/
theorem tget_map {α : Type} (d : α) (f : α → α) (t : Tbl α) (i : Nat) (hd : f d = d) :
    tget d (t.map fun e => (e.1, f e.2)) i = f (tget d t i) := by
  induction t with
  | nil => simp [tget, hd]
  | cons e r ih =>
    obtain ⟨k, x⟩ := e
    by_cases hk : k = i <;> simp [tget, hk, ih]

/-- An entry of a table of which entries are dropped whose index a test refuses. -/
theorem tget_filter {α : Type} (d : α) (keep : Nat → Bool) (t : Tbl α) (i : Nat) :
    tget d (t.filter fun e => keep e.1) i = if keep i then tget d t i else d := by
  induction t with
  | nil => simp [tget]
  | cons e r ih =>
    obtain ⟨k, x⟩ := e
    by_cases hk : k = i
    · subst hk
      by_cases hp : keep k = true <;> simp [hp, tget, ih]
    · by_cases hp : keep k = true <;> simp [hp, tget, hk, ih]

/-- A byte of a core's scratch, read at its ordering point. -/
theorem State.locRead_scr (s : State) (core off : Nat) : s.locRead (.scr core off) 1 = [s.mem.sram.get (sramKey core off)] := rfl

/-- A core that is powered up (R378). -/
def Core.woken (c : Core) : Core := { c with gated := false, wake := none }

/-- Cores are powered up, one after another. -/
def State.wakeUp (s : State) (up : List Nat) : State := up.foldl (fun s k => s.modCore k Core.woken) s

theorem State.wakeUp_mem (s : State) (up : List Nat) : (s.wakeUp up).mem = s.mem := by
  induction up generalizing s with
  | nil => rfl
  | cons k r ih => exact ih (s.modCore k Core.woken)

theorem State.wakeUp_core_ne (s : State) {up : List Nat} {k : Nat} (h : k ∉ up) : (s.wakeUp up).core k = s.core k := by
  induction up generalizing s with
  | nil => rfl
  | cons j r ih =>
    obtain ⟨hj, hr⟩ : k ≠ j ∧ k ∉ r := by simpa using h
    refine (ih (s.modCore j Core.woken) hr).trans ?_
    rw [State.core_modCore, if_neg fun e => hj e.symm]

theorem State.wakeUp_gated (s : State) {up : List Nat} {k : Nat} (h : k ∈ up) : ((s.wakeUp up).core k).gated = false := by
  induction up generalizing s with
  | nil => exact absurd h List.not_mem_nil
  | cons j r ih =>
    by_cases hr : k ∈ r
    · exact ih (s.modCore j Core.woken) hr
    · have hj : k = j := (List.mem_cons.mp h).resolve_right hr
      change (((s.modCore j Core.woken).wakeUp r).core k).gated = false
      rw [State.wakeUp_core_ne _ hr, State.core_modCore, if_pos hj.symm]
      rfl

/-- Putting a wake request in its place keeps the others. -/
theorem mem_insertWake {a b : Nat × Nat × Nat} {l : List (Nat × Nat × Nat)} : b ∈ insertWake a l ↔ b = a ∨ b ∈ l := by
  induction l with
  | nil => simp [insertWake]
  | cons c r ih =>
    unfold insertWake
    split
    · simp only [List.mem_cons, ih]; tauto
    · simp

theorem mem_foldr_insertWake {b : Nat × Nat × Nat} {l : List (Nat × Nat × Nat)} : b ∈ l.foldr insertWake [] ↔ b ∈ l := by
  induction l with
  | nil => simp
  | cons c r ih => simp [mem_insertWake, ih]

/-- Does a core of a sector wait to be powered up, its hold over (R378)? -/
def State.asksWake (s : State) (sector : Nat) (e : Nat × Core) : Prop :=
  e.2.wake ≠ none ∧ sectorOf e.1 = sector ∧ e.2.gated = true ∧ e.2.holdEnd ≤ s.ns

/-- The wake request of a core, if its sector and hold let it be served. -/
def State.wakeRequest (s : State) (sector : Nat) (e : Nat × Core) : Option (Nat × Nat × Nat) :=
  match e.2.wake with
  | some (prio, at') => if sectorOf e.1 == sector && e.2.gated && e.2.holdEnd ≤ s.ns then some (e.1, prio, at') else none
  | none => none

theorem State.wakeRequest_eq_some {s : State} {sector : Nat} {e : Nat × Core} {r : Nat × Nat × Nat}
    (h : s.wakeRequest sector e = some r) : r.1 = e.1 ∧ s.asksWake sector e := by
  unfold State.wakeRequest at h
  split at h
  case h_1 prio at' hw =>
    split at h
    case isTrue hc =>
      simp only [Bool.and_eq_true, beq_iff_eq, decide_eq_true_eq] at hc
      obtain ⟨⟨hsec, hgated⟩, hhold⟩ := hc
      obtain rfl := Option.some.inj h
      exact ⟨rfl, by simp [hw], hsec, hgated, hhold⟩
    case isFalse => exact absurd h (by simp)
  case h_2 => exact absurd h (by simp)

theorem State.asksWake_request {s : State} {sector : Nat} {e : Nat × Core} (h : s.asksWake sector e) :
    ∃ r, s.wakeRequest sector e = some r := by
  obtain ⟨hw, hsec, hgated, hhold⟩ := h
  unfold State.wakeRequest
  cases hv : e.2.wake with
  | none => exact absurd hv hw
  | some w => exact ⟨(e.1, w.1, w.2), by simp [hsec, hgated, hhold]⟩

end Sys2Proof.Machine
end
section
/-! PROOFS. O58: clocks, power and phases (R4, R339, R376 to R382, R388, R390). -/
namespace Sys2Proof.Machine

theorem exec_aclockChange (s : State) (pair setting : Nat) :
    (pair < 36 → 16 ≤ setting → setting ≤ 64 → s.plat.hot = false → s.clockLocked pair = false → ∃ t : State,
      exec (.aclockChange pair setting) s = .next t ∧ tget 16 t.plat.aclk pair = setting ∧ t.groups = s.groups ∧
      (∀ k, k ≠ pair → tget 16 t.plat.aclk k = tget 16 s.plat.aclk k)) ∧
    (¬(pair < 36 ∧ 16 ≤ setting ∧ setting ≤ 64 ∧ s.plat.hot = false ∧ s.clockLocked pair = false) →
      exec (.aclockChange pair setting) s = .next s) := by
  change (_ → _ → _ → _ → _ → ∃ t, execAclockChange pair setting s = .next t ∧ _) ∧ (_ → execAclockChange pair setting s = _)
  unfold execAclockChange
  refine ⟨fun hp hlo hhi hhot hlock => ⟨_, if_pos ?_, tget_tset_same .., rfl, fun k hk => tget_tset_ne _ _ _ hk.symm⟩,
    fun h => if_neg ?_⟩
  · simp [Config.pairs, hp, hlo, hhi, hhot, hlock]
  · have hp : pair < Config.pairs ↔ pair < 36 := Iff.rfl
    simpa [hp, and_assoc] using h

theorem exec_thermal (s : State) (temp : Nat) :
    (105 < temp → ∃ t : State, exec (.thermalThrottle temp) s = .next t ∧ t.plat.hot = true ∧
      (∀ core, t.aclkOf core = 16) ∧ t.plat.aclk = s.plat.aclk) ∧
    (temp < 95 → ∃ t : State, exec (.thermalRecover temp) s = .next t ∧ t.plat.hot = false ∧ t.plat.aclk = s.plat.aclk) ∧
    (temp ≤ 105 → exec (.thermalThrottle temp) s = .next s) ∧ (95 ≤ temp → exec (.thermalRecover temp) s = .next s) := by
  refine ⟨fun h => ⟨_, congrArg Host.Outcome.next (if_pos h), rfl, fun core => ?_, rfl⟩,
    fun h => ⟨_, congrArg Host.Outcome.next (if_pos h), rfl, rfl⟩,
    fun h => congrArg Host.Outcome.next (if_neg (by omega)), fun h => congrArg Host.Outcome.next (if_neg (by omega))⟩
  exact if_pos rfl

theorem exec_supplyDroop (s : State) (pair : Nat) (h : pair < 36) : ∃ t : State, exec (.supplyDroop pair) s = .next t ∧
    (∀ i, tget 0 t.plat.life i = if i = 17 + pair then (tget 0 s.plat.life i + 1) % 2 ^ 64 else tget 0 s.plat.life i) := by
  refine ⟨_, congrArg Host.Outcome.next (if_pos h), fun i => (tget_tset ..).trans ?_⟩
  by_cases hi : 17 + pair = i
  · rw [if_pos hi, if_pos hi.symm, hi]
  · rw [if_neg hi, if_neg fun e => hi e.symm]

theorem exec_coreGate (s : State) (core : Nat) (hcore : core < 432) (hup : (s.core core).gated = false)
    (hteams : ∀ t ∈ s.units.teams, t.core ≠ core) (hcmds : ∀ c ∈ s.units.cmds, c.core ≠ core) :
    ∃ t : State, exec (.coreGate core) s = .next t ∧ (t.core core).gated = true ∧
      (t.core core).holdEnd = s.ns + 2000 ∧ (∀ off < 0x80000, t.locRead (.scr core off) 1 = [0]) ∧
      (∀ k, k ≠ core → ∀ off < 0x80000, t.locRead (.scr k off) 1 = s.locRead (.scr k off) 1) ∧
      (∀ c ∈ t.mem.l1, c.core ≠ core) ∧ (∀ e ∈ t.mem.tlb, e.core ≠ core) ∧ t.mem.hbm = s.mem.hbm := by
  change ∃ t, execCoreGate core s = .next t ∧ _
  have hmay : ¬ (core ≥ Config.cores || (s.core core).gated || (s.units.teams.any fun t => t.core == core) ||
      (s.units.cmds.any fun c => c.core == core)) = true := by
    simp only [Bool.or_eq_true, List.any_eq_true, beq_iff_eq, decide_eq_true_eq, hup]
    rintro (((h | h) | ⟨t, ht, he⟩) | ⟨c, hc, he⟩)
    · exact absurd h (Nat.not_le.mpr hcore)
    · exact Bool.noConfusion h
    · exact hteams t ht he
    · exact hcmds c hc he
  refine ⟨_, if_neg hmay, ?_, ?_, fun off hoff => ?_, fun k hk off hoff => ?_, fun c hc => ?_, fun e he => ?_, rfl⟩
  · rw [State.core_modCore, if_pos rfl]
  · rw [State.core_modCore, if_pos rfl]; rfl
  · refine congrArg (· :: []) ((Memory.get_clear ..).trans (if_pos ?_))
    simp only [sramKey]; omega
  · refine congrArg (· :: []) ((Memory.get_clear ..).trans (if_neg ?_))
    simp only [sramKey]; omega
  · simpa using (List.mem_filter.mp hc).2
  · simpa using (List.mem_filter.mp he).2

theorem exec_inrushStep (s : State) (sector : Nat) :
    ∃ (t : State) (up : List Nat), exec (.inrushStep sector) s = .next t ∧ up.length ≤ 2 ∧ t.mem = s.mem ∧
      (∀ k ∈ up, (t.core k).gated = false ∧ ∃ e ∈ s.plat.cores, e.1 = k ∧ s.asksWake sector e) ∧
      (∀ k, k ∉ up → t.core k = s.core k) ∧ ((∃ e ∈ s.plat.cores, s.asksWake sector e) → up ≠ []) := by
  let up := (((s.plat.cores.filterMap (s.wakeRequest sector)).foldr insertWake []).take 2).map (·.1)
  refine ⟨s.wakeUp up, up, rfl, ?_, s.wakeUp_mem up, fun k hk => ⟨s.wakeUp_gated hk, ?_⟩, fun k hk => s.wakeUp_core_ne hk, ?_⟩
  · simp only [up, List.length_map, List.length_take]; omega
  · obtain ⟨r, hr, rfl⟩ := List.mem_map.mp hk
    obtain ⟨e, he, hreq⟩ := List.mem_filterMap.mp (mem_foldr_insertWake.mp (List.mem_of_mem_take hr))
    obtain ⟨hk, hasks⟩ := State.wakeRequest_eq_some hreq
    exact ⟨e, he, hk.symm, hasks⟩
  · rintro ⟨e, he, hasks⟩ hnil
    obtain ⟨r, hr⟩ := State.asksWake_request hasks
    have hmem := mem_foldr_insertWake.mpr (List.mem_filterMap.mpr ⟨e, he, hr⟩)
    have hempty : (s.plat.cores.filterMap (s.wakeRequest sector)).foldr insertWake [] = [] := by
      simpa [up] using hnil
    rw [hempty] at hmem
    exact absurd hmem List.not_mem_nil

theorem exec_tokenInterval_over (s : State) (h : s.intervalOver = true) : ∃ t : State, exec .tokenInterval s = .next t ∧
    t.plat.pool = sumOf (s.plat.parts.map (·.2.tokleft)) ∧ ∀ p, (t.part p).tokused = (s.part p).tokspent ∧
      (t.part p).tokspent = 0 ∧ (t.part p).tokleft = (s.part p).tokalloc ∧ (t.part p).tokalloc = (s.part p).tokalloc := by
  refine ⟨_, if_neg (by simp [h]), rfl, fun p => ?_⟩
  have hpart : ∀ t : State, t.plat.parts = s.plat.parts.map (fun e =>
      (e.1, { e.2 with tokused := e.2.tokspent, tokspent := 0, tokleft := e.2.tokalloc })) →
      t.part p = { s.part p with tokused := (s.part p).tokspent, tokspent := 0, tokleft := (s.part p).tokalloc } := by
    intro t ht
    unfold State.part
    rw [ht]
    exact tget_map Part.reset (fun q : Part => { q with tokused := q.tokspent, tokspent := 0, tokleft := q.tokalloc }) _ p rfl
  rw [hpart _ rfl]
  exact ⟨rfl, rfl, rfl, rfl⟩

/-- A lease that is not active has nothing to end. -/
theorem State.endLease_idle {s : State} {x : Nat} (h : (s.ctx x).lease.active = false) : s.endLease x = s :=
  if_neg (by simp [h])

/-- A lease that ends is active no more and sets event LEASE (R377). -/
theorem State.endLease_active {s : State} {x : Nat} (h : (s.ctx x).lease.active = true) :
    ((s.endLease x).ctx x).lease.active = false ∧
      ((s.endLease x).ctx x).evOps = (s.ctx x).evOps ++ [{ src := dispatcherPort, set := true, bit := 252 }] := by
  have hctx : ∀ (t : State) (i n : Nat), (t.lifeAdd i n).ctx x = t.ctx x := fun _ _ _ => rfl
  simp only [State.endLease, if_pos h, hctx, State.raiseEvent, State.ctx_modCtx, if_true]
  exact ⟨trivial, trivial⟩

theorem exec_lease_idle (s : State) (x value : Nat) (h : (s.ctx x).lease.active = false) :
    (∃ t : State, exec (.leaseRequest x value) s = .next t ∧ (t.ctx x).lease =
      { value := value % 2 ^ 29
        active := decide (bits (value % 2 ^ 29) 16 13 ≤ 5000) && decide (s.leases.length < 4)
        endNs := s.ns + 1000 * bits (value % 2 ^ 29) 16 13, drawn := 0 }) ∧ exec (.leaseExpiry x) s = .next s := by
  refine ⟨⟨_, rfl, ?_⟩, congrArg Host.Outcome.next (if_neg (by simp [h]))⟩
  simp only [State.endLease_idle h, State.ctx_modCtx, if_true]

theorem exec_leaseExpiry_active (s : State) (x : Nat) (h : (s.ctx x).lease.active = true) :
    ((s.ctx x).lease.endNs ≤ s.ns → ∃ t : State, exec (.leaseExpiry x) s = .next t ∧ (t.ctx x).lease.active = false ∧
      (t.ctx x).evOps = (s.ctx x).evOps ++ [{ src := dispatcherPort, set := true, bit := 252 }]) ∧
    (s.ns < (s.ctx x).lease.endNs → exec (.leaseExpiry x) s = .next s) := by
  refine ⟨fun hend => ⟨_, congrArg Host.Outcome.next (if_pos ?_), State.endLease_active h⟩, fun hend => congrArg Host.Outcome.next (if_neg ?_)⟩
  · simp [h, hend]
  · simp [hend]

theorem exec_histogramClear (s : State) (core q : Nat) : ∃ t : State, exec (.histogramClear core q) s = .next t ∧
    (∀ i < 64, tget 0 t.plat.hist (histIdx core q i) = 0) ∧
    (∀ j, (j < histIdx core q 0 ∨ histIdx core q 64 ≤ j) → tget 0 t.plat.hist j = tget 0 s.plat.hist j) ∧
    t.groups = s.groups := by
  have hget := tget_filter 0 (fun j => decide (j < histIdx core q 0) || decide (histIdx core q 64 ≤ j)) s.plat.hist
  refine ⟨_, rfl, fun i hi => (hget _).trans (if_neg ?_), fun j hj => (hget _).trans (if_pos ?_), rfl⟩
  · simp only [Bool.or_eq_true, decide_eq_true_eq]
    simp only [histIdx]; omega
  · simpa using hj

theorem exec_links (s : State) (l : Nat) (h : l < 8) :
    (∃ t : State, exec (.linkFlitRetry l) s = .next t ∧ t.link l = { s.link l with again := min 65535 ((s.link l).again + 1) }) ∧
    (∃ t : State, exec (.linkTrained l) s = .next t ∧ t.link l = { s.link l with up := true }) ∧
    (∃ t : State, exec (.linkDown l) s = .next t ∧ t.link l = { s.link l with up := false }) := by
  refine ⟨⟨_, congrArg Host.Outcome.next (if_pos h), ?_⟩, ⟨_, congrArg Host.Outcome.next (if_pos h), ?_⟩,
    ⟨_, congrArg Host.Outcome.next (if_pos h), ?_⟩⟩ <;>
  rw [State.link_modLink, if_pos rfl]

theorem exec_phases (s : State) :
    (∃ t : State, exec .powerDown s = .next t ∧ t.plat.boot = .off ∧ t.plat.rails = s.plat.rails - 1 ∧ t.groups = [] ∧
      t.mem.hbm = [] ∧ t.mem.host = s.mem.host ∧ t.plat.life = s.plat.life) ∧
    (s.plat.boot = .held → s.plat.rails = allRails → s.plat.railNs + 1000000 ≤ s.ns → ∃ t : State,
      exec .resetRelease s = .next t ∧ t.plat.boot = .verifying ∧
      t.groups = [] ∧ t.mem.hbm = [] ∧ t.plat.ctxs = [] ∧ t.plat.life = s.plat.life) ∧
    ((s.plat.boot ≠ .held ∨ s.plat.rails ≠ allRails ∨ s.ns < s.plat.railNs + 1000000) → exec .resetRelease s = .next s) ∧
    (s.plat.boot = .verifying → ∀ ok ok' : Bool, ∃ t : State, exec (.bootVerify ok ok') s = .next t ∧
      t.plat.boot = (if ok then .running else .recovery) ∧ t.groups = s.groups) ∧
    (s.plat.boot ≠ .verifying → ∀ ok ok' : Bool, exec (.bootVerify ok ok') s = .next s) := by
  refine ⟨⟨_, rfl, rfl, rfl, rfl, rfl, rfl, rfl⟩, fun hboot hrails hns => ?_, fun h => congrArg Host.Outcome.next (if_neg ?_),
    fun hboot ok ok' => ?_, fun hboot ok ok' => if_pos ?_⟩
  · have hmay : s.mayRelease = true := by simp [State.mayRelease, hboot, hrails, hns]
    exact ⟨_, congrArg Host.Outcome.next (if_pos hmay), rfl, rfl, rfl, rfl, rfl⟩
  · simp only [State.mayRelease, Bool.and_eq_true, beq_iff_eq, decide_eq_true_eq]
    rintro ⟨⟨hboot, hrails⟩, hns⟩
    obtain h | h | h := h
    · exact h hboot
    · exact h hrails
    · omega
  · change ∃ t, execBootVerify ok ok' s = .next t ∧ _
    unfold execBootVerify
    rw [if_neg (by simp [hboot])]
    cases ok
    · exact ⟨_, rfl, rfl, rfl⟩
    · exact ⟨_, rfl, rfl, rfl⟩
  · simp [hboot]

/-- Settles O58: the steps of clocks, power, tokens, leases, histograms, links and phases, one by one. -/
theorem powerClocksAndPhases : Obligations.PowerClocksAndPhases := by
  unfold Obligations.PowerClocksAndPhases
  exact ⟨exec_aclockChange, exec_thermal, exec_supplyDroop, exec_coreGate, exec_inrushStep, exec_tokenInterval_over,
    fun s h => if_pos (by simp [h]), exec_lease_idle, exec_leaseExpiry_active, exec_histogramClear, exec_links, exec_phases⟩

end Sys2Proof.Machine
end

section
/-! SUPPORT. Anvil's answers (R367): what a completed command leaves unchanged, and the lines that leave the L2 on its behalf. -/
namespace Sys2Proof.Machine

/-- Function fn's command is complete with a status, between the states s and t: the next command is at the head, and only
PROFGRANT may have shown groups their events. -/
def State.answered (s t : State) (fn code status : Nat) : Prop :=
  (t.box fn).busy = false ∧ (t.box fn).status = status ∧ t.plat.mbOrder = s.plat.mbOrder.drop 1 ∧
    (code ≠ 6 → t.groups = s.groups) ∧ t.groups.map (·.gid) = s.groups.map (·.gid)

/-- The completion of a command that changed neither the order of the mailboxes nor the groups. -/
theorem State.answered_mailDone {s u : State} (fn code status : Nat) (ho : u.plat.mbOrder = s.plat.mbOrder)
    (hg : u.groups = s.groups) : s.answered (u.mailDone fn status) fn code status := by
  refine ⟨?_, ?_, congrArg (List.drop 1) ho, fun _ => hg, congrArg (List.map (·.gid)) hg⟩ <;>
    simp [State.mailDone]

/-- A command that Anvil performs for its function completes with the state and the status of what it does. -/
theorem mailCmd_performs {s : State} {fn code : Nat} {a : Nat → Nat} {k : (Nat → Nat) → State × Nat} {u : State} {status : Nat}
    (hargs : s.mailArgs? fn = some (code, a)) (hfn : fn = 0 ∨ code = 7) (hk : k a = (u, status)) :
    mailCmd s fn code k = .next (u.mailDone fn status) := by
  have hmay : ¬ (fn != 0 && code != 7) = true := by
    simp only [Bool.and_eq_true, bne_iff_ne, ne_eq]
    tauto
  simp only [mailCmd, hargs, bne_self_eq_false, Bool.false_eq_true, if_false, if_neg hmay, hk]

/-- A virtual function's command other than ATTEST is refused (R367). -/
theorem mailCmd_refused {s : State} {fn code : Nat} {a : Nat → Nat} (k : (Nat → Nat) → State × Nat)
    (hargs : s.mailArgs? fn = some (code, a)) (hfn : fn ≠ 0) (hcode : code ≠ 7) :
    mailCmd s fn code k = .next (s.mailDone fn 5) := by
  simp [mailCmd, hargs, hfn, hcode]

/-- What a state function changes in memory alone: units, blocks of registers and groups are the same. -/
def State.sameButMem (s t : State) : Prop := t.units = s.units ∧ t.plat = s.plat ∧ t.groups = s.groups

/-- What a state function changes in memory and bundles alone. -/
def State.sameButBundles (s t : State) : Prop := t.plat = s.plat ∧ t.groups = s.groups

theorem State.sameButBundles_foldl {α : Type} {f : State → α → State} (h : ∀ s a, State.sameButBundles s (f s a)) (s : State)
    (l : List α) : s.sameButBundles (l.foldl f s) := by
  induction l generalizing s with
  | nil => exact ⟨rfl, rfl⟩
  | cons a r ih =>
    obtain ⟨hp, hg⟩ := ih (f s a)
    exact ⟨hp.trans (h s a).1, hg.trans (h s a).2⟩

/-- After lines are dropped the L2 holds the lines that it held before, but for those. -/
theorem mem_l2_dropLines {lines : List Nat} {s : State} {e : L2Line}
    (he : e ∈ (lines.foldl (fun s l => s.modMem fun m => m.dropLine l) s).mem.l2) : e ∈ s.mem.l2 ∧ e.line ∉ lines := by
  induction lines generalizing s with
  | nil => exact ⟨he, List.not_mem_nil⟩
  | cons l r ih =>
    obtain ⟨hmem, hr⟩ := ih he
    have hdrop : e ∈ s.mem.l2 ∧ e.line ≠ l := by
      simp only [State.modMem_mem, MemSys.dropLine] at hmem
      split at hmem
      case h_1 => simpa using List.mem_filter.mp hmem
      case h_2 hnone =>
        refine ⟨hmem, fun hl => ?_⟩
        simpa [hl] using List.find?_eq_none.mp hnone e hmem
    exact ⟨hdrop.1, List.not_mem_cons_of_ne_of_not_mem hdrop.2 hr⟩

/-- The lines of copies in a core's L1 go, and no byte of scratch. -/
theorem State.trimL1_frame (core part n : Nat) (s : State) :
    (s.trimL1 core part n).mem.sram = s.mem.sram ∧ s.sameButMem (s.trimL1 core part n) := by
  induction n generalizing s with
  | zero => exact ⟨rfl, rfl, rfl, rfl⟩
  | succ n ih =>
    simp only [State.trimL1]
    split
    · exact ⟨rfl, rfl, rfl, rfl⟩
    · split
      · exact ⟨rfl, rfl, rfl, rfl⟩
      · split
        · exact ih _
        · exact ⟨rfl, rfl, rfl, rfl⟩

theorem State.trimL1s_frame (core : Nat) (ps : List Nat) (s : State) :
    let t := ps.foldl (fun t p => t.trimL1 core p t.mem.l1.length) s
    t.mem.sram = s.mem.sram ∧ s.sameButMem t := by
  induction ps generalizing s with
  | nil => exact ⟨rfl, rfl, rfl, rfl⟩
  | cons p r ih =>
    obtain ⟨hsram, hunits, hplat, hgroups⟩ := State.trimL1_frame core p s.mem.l1.length s
    obtain ⟨hsram', hunits', hplat', hgroups'⟩ := ih (s.trimL1 core p s.mem.l1.length)
    exact ⟨hsram'.trans hsram, hunits'.trans hunits, hplat'.trans hplat, hgroups'.trans hgroups⟩

/-- A change of what a group waits for leaves its identity. -/
theorem Group.mapWait_gid (g : Group) (f : Option Wait → Option Wait) : (g.mapWait f).gid = g.gid := by
  unfold Group.mapWait
  split <;> rfl

/-- What a group has seen of its events changes no other group, and no register. -/
theorem State.showAll_frame (s : State) : s.showAll.plat = s.plat ∧ s.showAll.groups.map (·.gid) = s.groups.map (·.gid) := by
  have hstep : ∀ (s : State) (x : Nat), (s.showEvents x).groups.map (·.gid) = s.groups.map (·.gid) := by
    intro s x
    simp only [State.showEvents, List.map_map]
    refine List.map_congr_left fun g _ => ?_
    simp only [Function.comp]
    split
    · exact Group.mapWait_gid g _
    · rfl
  unfold State.showAll
  generalize s.plat.ctxs.map (·.1) = l
  induction l generalizing s with
  | nil => exact ⟨rfl, rfl⟩
  | cons x r ih => exact ⟨(ih (s.showEvents x)).1, (ih (s.showEvents x)).2.trans (hstep s x)⟩

end Sys2Proof.Machine
end
section
/-! PROOFS. O60: Anvil's commands (R322, R350, R363, R367 to R372, R376, R379, R383, R389). -/
namespace Sys2Proof.Machine

/-- An outcome that answers function fn's command with a status, in a state of which P holds. -/
def State.givesBy (s : State) (fn code : Nat) (o : Out) (status : Nat) (P : State → Prop) : Prop :=
  ∃ t : State, o = .next t ∧ s.answered t fn code status ∧ P t

/-- What a command that Anvil performs gives, when it leaves the order of the mailboxes and the groups alone. -/
theorem State.givesBy_of {s u : State} {fn code status : Nat} {a : Nat → Nat} {k : (Nat → Nat) → State × Nat}
    {P : State → Prop} (hargs : s.mailArgs? fn = some (code, a)) (hfn : fn = 0 ∨ code = 7) (hk : k a = (u, status))
    (ho : u.plat.mbOrder = s.plat.mbOrder) (hg : u.groups = s.groups) (hP : P (u.mailDone fn status)) :
    s.givesBy fn code (mailCmd s fn code k) status P :=
  ⟨_, mailCmd_performs hargs hfn hk, State.answered_mailDone fn code status ho hg, hP⟩

/-- The state of a command that only answers. -/
theorem State.givesBy_same {s : State} {fn code status : Nat} {a : Nat → Nat} {k : (Nat → Nat) → State × Nat}
    (hargs : s.mailArgs? fn = some (code, a)) (hfn : fn = 0 ∨ code = 7) (hk : k a = (s, status)) :
    s.givesBy fn code (mailCmd s fn code k) status fun _ => True :=
  State.givesBy_of hargs hfn hk rfl rfl trivial

/-- What SETOWN does to a unit of kind n: a quadrant, a bank or a slice (R369). -/
def State.ownUnit (s : State) (n i b : Nat) : State × Nat :=
  match n with
  | 0 => s.ownQuad i b
  | 1 => s.ownBank i b
  | 2 => s.ownSlice i b
  | _ => (s, 4)

section
variable {s : State} {a : Nat → Nat}

/-- SETOWN on a unit of kind n, whose ownership byte is legal, gives what the kind's function does. -/
theorem givesBy_setown {n status : Nat} {u : State} {P : State → Prop} (hargs : s.mailArgs? 0 = some (1, a))
    (ha : a 2 < 256 ∧ bits (a 2) 4 3 = 0) (hn : a 0 = n) (hk : s.ownUnit n (a 1) (a 2) = (u, status))
    (ho : u.plat.mbOrder = s.plat.mbOrder) (hg : u.groups = s.groups) (hP : P (u.mailDone 0 status)) :
    s.givesBy 0 1 (exec (.setown 0) s) status P := by
  refine State.givesBy_of hargs (.inl rfl) ?_ ho hg hP
  have hok : (!ownByteOk (a 2)) = false := by simp [ownByteOk, ha]
  rw [← hk, ← hn, hok]
  rfl

theorem givesBy_setown_quad (hargs : s.mailArgs? 0 = some (1, a)) (ha : a 2 < 256 ∧ bits (a 2) 4 3 = 0) (h0 : a 0 = 0)
    (h1 : a 1 < 1728) :
    let t' := s.modPlat fun p => { p with quadOwn := tset p.quadOwn (a 1) (a 2) }
    let busy := (ownerOf (tget 0 s.plat.quadOwn (a 1))).any fun p => s.atWorkOn p (a 1 / 4) (some (a 1 % 4))
    (t'.ownersOk = false → s.givesBy 0 1 (exec (.setown 0) s) 1 fun _ => True) ∧
    (t'.ownersOk = true → busy = true → s.givesBy 0 1 (exec (.setown 0) s) 2 fun _ => True) ∧
    (t'.ownersOk = true → busy = false → s.givesBy 0 1 (exec (.setown 0) s) 0 fun t =>
      tget 0 t.plat.quadOwn (a 1) = a 2 ∧ t.plat.bankOwn = s.plat.bankOwn) := by
  intro t' busy
  have hin : ¬ a 1 ≥ 4 * Config.cores := Nat.not_le.mpr h1
  have hquad : s.ownQuad (a 1) (a 2) = if !t'.ownersOk then (s, 1) else if busy then (s, 2) else (t', 0) := if_neg hin
  refine ⟨fun hno => ?_, fun hok hbusy => ?_, fun hok hfree => ?_⟩
  · exact givesBy_setown hargs ha h0 (hquad.trans (by rw [hno]; rfl)) rfl rfl trivial
  · exact givesBy_setown hargs ha h0 (hquad.trans (by rw [hok, hbusy]; rfl)) rfl rfl trivial
  · exact givesBy_setown (u := t') hargs ha h0 (hquad.trans (by rw [hok, hfree]; rfl)) rfl rfl ⟨tget_tset_same .., rfl⟩

theorem givesBy_setown_bank (hargs : s.mailArgs? 0 = some (1, a)) (ha : a 2 < 256 ∧ bits (a 2) 4 3 = 0) (h0 : a 0 = 1)
    (h1 : a 1 < 6912) (hok : (s.modPlat fun p => { p with bankOwn := tset p.bankOwn (a 1) (a 2) }).ownersOk = true)
    (hfree : ∀ p ∈ ownerOf (tget 0 s.plat.bankOwn (a 1)), s.atWorkOn p (a 1 / 16) none = false) :
    s.givesBy 0 1 (exec (.setown 0) s) 0 fun t => tget 0 t.plat.bankOwn (a 1) = a 2 ∧
      ∀ off < 32768, t.locRead (.scr (a 1 / 16) (32768 * (a 1 % 16) + off)) 1 = [0] := by
  have hin : ¬ a 1 ≥ 16 * Config.cores := Nat.not_le.mpr h1
  have hidle : ¬ ((ownerOf (tget 0 s.plat.bankOwn (a 1))).any fun p => s.atWorkOn p (a 1 / 16) none) = true := by
    simpa using hfree
  have hbank : s.ownBank (a 1) (a 2) = _ := (if_neg hin).trans ((if_neg (by rw [hok]; simp)).trans (if_neg hidle))
  obtain ⟨hsram, -, hplat, hgroups⟩ := State.trimL1s_frame (a 1 / 16) (ownerOf (tget 0 s.plat.bankOwn (a 1)))
    ((s.modPlat fun p => { p with bankOwn := tset p.bankOwn (a 1) (a 2) }).zeroBank (a 1 / 16) (a 1 % 16))
  refine givesBy_setown hargs ha h0 hbank (congrArg Plat.mbOrder hplat :) hgroups ⟨?_, fun off hoff => ?_⟩
  · exact (congrArg (fun p => tget 0 p.bankOwn (a 1)) hplat).trans (tget_tset_same ..)
  · refine congrArg (· :: []) ((congrArg (fun m => Memory.get m _) hsram).trans ((Memory.get_clear ..).trans (if_pos ?_)))
    simp only [sramKey]
    omega

/-- What a flush of partitions' lines leaves unchanged (R370). -/
theorem State.flushParts_frame (s : State) (ps : List Nat) : s.sameButBundles (s.flushParts ps) := by
  unfold State.flushParts
  extract_lets mine u₁ u₂ u₃
  have h₁ : s.sameButBundles u₁ := State.sameButBundles_foldl (f := fun s e => s.mxFlush e) (fun _ _ => ⟨rfl, rfl⟩) _ _
  have h₃ : u₂.sameButBundles u₃ :=
    State.sameButBundles_foldl (f := fun s l => s.modMem fun m => m.dropLine l) (fun _ _ => ⟨rfl, rfl⟩) _ _
  exact ⟨h₃.1.trans h₁.1, h₃.2.trans h₁.2⟩

theorem givesBy_setown_slice (hargs : s.mailArgs? 0 = some (1, a)) (ha : a 2 < 256 ∧ bits (a 2) 4 3 = 0) (h0 : a 0 = 2)
    (h1 : a 1 < 96) (hok : (s.modPlat fun p => { p with sliceOwn := tset p.sliceOwn (a 1) (a 2) }).ownersOk = true)
    (hfree : ∀ p ∈ ownerOf (tget 0 s.plat.sliceOwn (a 1)) ++ ownerOf (a 2), s.atWork p = false) :
    s.givesBy 0 1 (exec (.setown 0) s) 0 fun t => tget 0 t.plat.sliceOwn (a 1) = a 2 := by
  have hin : ¬ a 1 ≥ Config.slices := Nat.not_le.mpr h1
  have hidle : ¬ ((ownerOf (tget 0 s.plat.sliceOwn (a 1)) ++ ownerOf (a 2)).any s.atWork) = true := by
    rw [Bool.not_eq_true, List.any_eq_false]
    simpa using hfree
  have hslice : s.ownSlice (a 1) (a 2) = _ := (if_neg hin).trans ((if_neg (by rw [hok]; simp)).trans (if_neg hidle))
  obtain ⟨hplat, hgroups⟩ := s.flushParts_frame (ownerOf (tget 0 s.plat.sliceOwn (a 1)) ++ ownerOf (a 2))
  exact givesBy_setown hargs ha h0 hslice (congrArg Plat.mbOrder hplat :) hgroups (tget_tset_same ..)

/-- The state of SETMEM before the region changes hands: the lines of the region, and of the bundles that hold one of them, have
left the L2 (R241, R368). -/
def State.losesRegion (s : State) (r : Nat) : State :=
  let lose := ownerOf (tget 0 s.plat.regionOwn r)
  let s := (s.mem.mx.filter fun e => lose.contains (s.ctx e.ctx).part).foldl (fun s e => s.mxFlush e) s
  let s := s.modMem fun m => { m with mx := m.mx.filter fun e => !lose.contains (s.ctx e.ctx).part }
  let here (l : Nat) : Bool := l / 2 ^ 21 == r
  let hit (b : Bundle) : Bool := b.state != .declared && b.lines.any here
  let gone := (s.units.bundles.filter hit).flatMap (·.lines)
  let s := s.modUnits fun u => { u with bundles := u.bundles.map fun b => if hit b then { b with state := .declared } else b }
  let s := s.freeIds
  let lines := (s.mem.l2.map (·.line)).filter fun l => here l || (gone.contains l && !s.inBundleWay l)
  let s := lines.foldl (fun s l => s.modMem fun m => m.dropLine l) s
  s.modMem fun m => { m with rcopy := m.rcopy.filter fun e => e.line / 2 ^ 21 != r }

theorem State.losesRegion_spec (s : State) (r : Nat) :
    s.sameButBundles (s.losesRegion r) ∧ ∀ e ∈ (s.losesRegion r).mem.l2, e.line / 2 ^ 21 ≠ r := by
  unfold State.losesRegion
  extract_lets lose u₁ u₂ here hit gone u₃ u₄ lines u₅
  have h₁ : s.sameButBundles u₁ := State.sameButBundles_foldl (f := fun s e => s.mxFlush e) (fun _ _ => ⟨rfl, rfl⟩) _ _
  have h₅ : u₄.sameButBundles u₅ :=
    State.sameButBundles_foldl (f := fun s l => s.modMem fun m => m.dropLine l) (fun _ _ => ⟨rfl, rfl⟩) _ _
  refine ⟨⟨h₅.1.trans h₁.1, h₅.2.trans h₁.2⟩, fun e he hr => ?_⟩
  obtain ⟨hmem, hnot⟩ := mem_l2_dropLines (s := u₄) (lines := lines) he
  refine hnot (List.mem_filter.mpr ⟨List.mem_map_of_mem hmem, ?_⟩)
  rw [Bool.or_eq_true]
  exact .inl (beq_iff_eq.mpr hr)

theorem givesBy_setmem (hargs : s.mailArgs? 0 = some (2, a)) (h0 : a 0 < 2048) (h1 : a 1 < 256) (hb : bits (a 1) 4 3 = 0) :
    let lose := ownerOf (tget 0 s.plat.regionOwn (a 0))
    let busy := lose.any fun p => (s.groups.any fun g => g.place.part == p) || s.units.cmds.any fun c => c.part == p
    (busy = true → s.givesBy 0 2 (exec (.setmem 0) s) 2 fun _ => True) ∧
    (busy = false → s.givesBy 0 2 (exec (.setmem 0) s) 0 fun t => tget 0 t.plat.regionOwn (a 0) = a 1 ∧
      ∀ e ∈ t.mem.l2, e.line / 2 ^ 21 ≠ a 0) := by
  intro lose busy
  have hlegal : ¬ (decide (a 0 ≥ Config.regions) || !ownByteOk (a 1)) = true := by
    have hr : ¬ a 0 ≥ Config.regions := Nat.not_le.mpr h0
    simp [hr, ownByteOk, h1, hb]
  obtain ⟨⟨hplat, hgroups⟩, hlines⟩ := s.losesRegion_spec (a 0)
  refine ⟨fun hbusy => ?_, fun hfree => ?_⟩
  · exact State.givesBy_same hargs (.inl rfl) ((if_neg hlegal).trans (if_pos hbusy))
  · refine State.givesBy_of (u := (s.losesRegion (a 0)).modPlat fun p => { p with regionOwn := tset p.regionOwn (a 0) (a 1) })
      hargs (.inl rfl) ((if_neg hlegal).trans (if_neg (ne_true_of_eq_false hfree)))
      (congrArg Plat.mbOrder hplat :) hgroups ⟨tget_tset_same .., hlines⟩

/-- SETPART on a partition sets a word by a function of its block. -/
theorem givesBy_setpart_of {k : (Nat → Nat) → State × Nat} {f : Part → Part} {P : Part → Prop}
    (hargs : s.mailArgs? 0 = some (3, a)) (hk : k a = (s.modPart (a 0) f, 0)) (hP : P (f (s.part (a 0)))) :
    s.givesBy 0 3 (mailCmd s 0 3 k) 0 fun t => P (t.part (a 0)) ∧ t.mem = s.mem := by
  refine State.givesBy_of (u := s.modPart (a 0) f) hargs (.inl rfl) hk rfl rfl ⟨?_, rfl⟩
  have hpart : (s.modPart (a 0) f).part (a 0) = f (s.part (a 0)) := (s.part_modPart ..).trans (if_pos rfl)
  exact hpart.symm ▸ hP

/-- A write to a class mask with no removal of ways under way (R372). -/
theorem writeMask_masks {q : Part} (c v : Nat) (h : q.oldMasks = []) : tget 0 (writeMask q c v).masks c = v := by
  simp [writeMask, h]

theorem exec_setpart (fn : Nat) (s : State) : exec (.setpart fn) s = execSetpart fn s := rfl

theorem givesBy_setpart (hargs : s.mailArgs? 0 = some (3, a)) (h0 : a 0 < 16) :
    let v := a 2 % 2 ^ 32
    let sets (P : Part → Prop) : Prop := s.givesBy 0 3 (exec (.setpart 0) s) 0 fun t => P (t.part (a 0)) ∧ t.mem = s.mem
    (a 1 = 0 → sets fun p => p.bways = min 12 (v % 16)) ∧ (a 1 = 4 → sets fun p => p.blim = v % 2 ^ 21) ∧
    (a 1 = 8 → sets fun p => p.bhold = max 1000 v) ∧ (a 1 = 12 → sets fun p => p.bids = min 4096 (v % 2 ^ 13)) ∧
    (a 1 = 0x100 → sets fun p => p.pdeadline = min 10000 (max 1 (v % 2 ^ 24))) ∧
    (a 1 = 0x200 →
      (s.allocOthers (a 0) + v % 65536 + 3000 ≤ 16000 → sets fun p => p.tokalloc = v % 65536 ∧ p.tokwt = bits v 16 8) ∧
      (16000 < s.allocOthers (a 0) + v % 65536 + 3000 → s.givesBy 0 3 (exec (.setpart 0) s) 3 fun _ => True)) ∧
    (∀ c < 8, a 1 = 0x300 + 4 * c → (s.part (a 0)).oldMasks = [] → sets fun p => tget 0 p.masks c = v % 65536) := by
  intro v sets
  have hin : ¬ a 0 ≥ Config.partitions := Nat.not_le.mpr h0
  simp only [exec_setpart] at sets ⊢
  refine ⟨fun h1 => ?_, fun h1 => ?_, fun h1 => ?_, fun h1 => ?_, fun h1 => ?_, fun h1 => ⟨fun hroom => ?_, fun hroom => ?_⟩,
    fun c hc h1 hold => ?_⟩
  · refine givesBy_setpart_of (P := fun p => p.bways = min 12 (v % 16))
      (f := fun q => { q with bways := min 12 (v % 16) }) hargs ?_ rfl
    simp only [if_neg hin, h1]
    rfl
  · refine givesBy_setpart_of (P := fun p => p.blim = v % 2 ^ 21)
      (f := fun q => { q with blim := v % 2 ^ 21 }) hargs ?_ rfl
    simp only [if_neg hin, h1]
    rfl
  · refine givesBy_setpart_of (P := fun p => p.bhold = max 1000 v)
      (f := fun q => { q with bhold := max 1000 v }) hargs ?_ rfl
    simp only [if_neg hin, h1]
    rfl
  · refine givesBy_setpart_of (P := fun p => p.bids = min 4096 (v % 2 ^ 13))
      (f := fun q => { q with bids := min 4096 (v % 2 ^ 13) }) hargs ?_ rfl
    simp only [if_neg hin, h1]
    rfl
  · refine givesBy_setpart_of (P := fun p => p.pdeadline = min 10000 (max 1 (v % 2 ^ 24)))
      (f := fun q => { q with pdeadline := min 10000 (max 1 (v % 2 ^ 24)) }) hargs ?_ rfl
    simp only [if_neg hin, h1]
    rfl
  · refine givesBy_setpart_of (P := fun p => p.tokalloc = v % 65536 ∧ p.tokwt = bits v 16 8)
      (f := fun q => { q with tokalloc := v % 65536, tokwt := bits v 16 8 }) hargs ?_ ⟨rfl, rfl⟩
    simp only [if_neg hin, h1]
    exact (if_neg (by decide)).trans (if_neg (Nat.not_lt.mpr hroom))
  · refine State.givesBy_same hargs (.inl rfl) ?_
    simp only [if_neg hin, h1]
    exact (if_neg (by decide)).trans (if_pos hroom)
  · have hmask : (decide (0x300 ≤ a 1) && decide (a 1 < 0x320) && decide (a 1 % 4 = 0)) = true := by
      simp only [Bool.and_eq_true, decide_eq_true_eq]; omega
    have hclass : (a 1 - 0x300) / 4 = c := by omega
    refine givesBy_setpart_of (P := fun p => tget 0 p.masks c = v % 65536)
      (f := fun q => writeMask q ((a 1 - 0x300) / 4) (v % 65536)) hargs
      ((if_neg hin).trans (if_pos hmask)) ?_
    rw [hclass]
    exact writeMask_masks c _ hold

theorem exec_setctx (fn : Nat) (s : State) : exec (.setctx fn) s = execSetctx fn s := rfl

/-- What SETCTX makes of a context at offset 0x240 (R361, R363). -/
def Ctx.configured (c : Ctx) (v : Nat) : Ctx :=
  let c := { c with part := bits v 0 4, cls := bits v 4 3, prio := bits v 8 5, enabled := bit v 31 }
  if c.dead && c.enabled then { c with dead := false, lrefused := 0, ldiscard := 0, sigdisc := 0, dlmiss := 0 } else c

theorem Ctx.configured_spec (c : Ctx) (v : Nat) :
    (c.configured v).part = bits v 0 4 ∧ (c.configured v).cls = bits v 4 3 ∧ (c.configured v).prio = bits v 8 5 ∧
      (c.configured v).enabled = bit v 31 ∧ (c.configured v).dead = (c.dead && !bit v 31) := by
  unfold Ctx.configured
  cases hd : c.dead <;> cases hv : bit v 31 <;> simp

theorem givesBy_setctx (hargs : s.mailArgs? 0 = some (4, a)) (h0 : a 0 < 256) :
    (a 1 = 0x240 → bits (a 2) 8 5 ≤ 23 → bits (a 2) 7 1 = 0 → bits (a 2) 13 18 = 0 → bits (a 2) 32 32 = 0 →
      s.givesBy 0 4 (exec (.setctx 0) s) 0 fun t =>
        let c := t.ctx (a 0)
        c.part = bits (a 2) 0 4 ∧ c.cls = bits (a 2) 4 3 ∧ c.prio = bits (a 2) 8 5 ∧ c.enabled = bit (a 2) 31 ∧
        c.dead = ((s.ctx (a 0)).dead && !bit (a 2) 31)) ∧
    (a 1 = 0x240 → 23 < bits (a 2) 8 5 → s.givesBy 0 4 (exec (.setctx 0) s) 4 fun t => t.ctx (a 0) = s.ctx (a 0)) ∧
    (a 1 = 0x278 → s.givesBy 0 4 (exec (.setctx 0) s) 0 fun t => (t.ctx (a 0)).quantum = a 2 % 2 ^ 32) := by
  have hin : ¬ a 0 ≥ Config.contexts := Nat.not_le.mpr h0
  simp only [exec_setctx]
  refine ⟨fun h1 hprio h7 h13 h32 => ?_, fun h1 hprio => ?_, fun h1 => ?_⟩
  · refine State.givesBy_of (u := s.modCtx (a 0) fun c => c.configured (a 2)) hargs (.inl rfl) ?_ rfl rfl ?_
    · simp only [if_neg hin, h1, h7, h13, h32]
      exact if_neg (by simpa using hprio)
    · have hctx : (s.modCtx (a 0) fun c => c.configured (a 2)).ctx (a 0) = (s.ctx (a 0)).configured (a 2) :=
        (s.ctx_modCtx ..).trans (if_pos rfl)
      exact hctx.symm ▸ Ctx.configured_spec (s.ctx (a 0)) (a 2)
  · refine State.givesBy_of (u := s) hargs (.inl rfl) ?_ rfl rfl rfl
    simp only [if_neg hin, h1]
    exact if_pos (by simp [hprio])
  · refine State.givesBy_of (u := s.modCtx (a 0) fun c => { c with quantum := a 2 % 2 ^ 32 }) hargs (.inl rfl) ?_ rfl rfl ?_
    · simp only [if_neg hin, h1]
    · have hctx : (s.modCtx (a 0) fun c => { c with quantum := a 2 % 2 ^ 32 }).ctx (a 0) =
          { s.ctx (a 0) with quantum := a 2 % 2 ^ 32 } := (s.ctx_modCtx ..).trans (if_pos rfl)
      exact congrArg Ctx.quantum hctx

theorem givesBy_setslew (hargs : s.mailArgs? 0 = some (5, a)) :
    (a 0 < 72 → s.givesBy 0 5 (exec (.setslew 0) s) 0 fun t =>
      (t.cluster (a 0)).wave = bits (a 1) 0 4 ∧ (t.cluster (a 0)).gap = bits (a 1) 8 10) ∧
    (72 ≤ a 0 → s.givesBy 0 5 (exec (.setslew 0) s) 4 fun _ => True) := by
  refine ⟨fun h => ?_, fun h => State.givesBy_same hargs (.inl rfl) (if_pos h)⟩
  refine State.givesBy_of (u := s.modCluster (a 0) fun c => { c with wave := bits (a 1) 0 4, gap := bits (a 1) 8 10 }) hargs
    (.inl rfl) (if_neg (Nat.not_le.mpr h)) rfl rfl ?_
  have hcluster : (s.modCluster (a 0) fun c => { c with wave := bits (a 1) 0 4, gap := bits (a 1) 8 10 }).cluster (a 0) =
      { s.cluster (a 0) with wave := bits (a 1) 0 4, gap := bits (a 1) 8 10 } := (s.cluster_modCluster ..).trans (if_pos rfl)
  exact ⟨(congrArg Cluster.wave hcluster :), (congrArg Cluster.gap hcluster :)⟩

/-- A grant of the profiler shows groups their events, and keeps the order of the mailboxes (R328, R379). -/
theorem State.answered_showAll {s u : State} (fn status : Nat) (ho : u.plat.mbOrder = s.plat.mbOrder)
    (hg : u.groups = s.groups) : s.answered (u.showAll.mailDone fn status) fn 6 status := by
  obtain ⟨hplat, hgids⟩ := u.showAll_frame
  refine ⟨?_, ?_, congrArg (List.drop 1) ((congrArg Plat.mbOrder hplat).trans ho), fun h => absurd rfl h,
    hgids.trans (congrArg (List.map (·.gid)) hg)⟩ <;>
    simp [State.mailDone]

theorem givesBy_profgrant (hargs : s.mailArgs? 0 = some (6, a)) (h0 : a 0 < 1024) (hb : bits (a 0) 1 3 = 0) :
    (bit (a 0) 0 = true → s.plat.prof.active = false → s.givesBy 0 6 (exec (.profgrant 0) s) 0 fun t => t.plat.prof =
      { clklock := bit (a 0) 8, sched := bit (a 0) 9, part := bits (a 0) 4 4, active := true }) ∧
    (bit (a 0) 0 = true → s.plat.prof.active = true → s.givesBy 0 6 (exec (.profgrant 0) s) 1 fun _ => True) ∧
    (bit (a 0) 0 = false → s.givesBy 0 6 (exec (.profgrant 0) s) 0 fun t => t.plat.prof.active = false) := by
  have hlegal : ¬ (decide (a 0 ≥ 1024) || bits (a 0) 1 3 != 0) = true := by simp [h0, hb]
  refine ⟨fun hbit hfree => ?_, fun hbit hheld => ?_, fun hbit => ?_⟩
  · let u := s.modPlat fun p => { p with
      prof := { clklock := bit (a 0) 8, sched := bit (a 0) 9, part := bits (a 0) 4 4, active := true } }
    refine ⟨_, mailCmd_performs (u := u.showAll) hargs (.inl rfl) ((if_neg hlegal).trans ?_),
      State.answered_showAll 0 0 rfl rfl, congrArg Plat.prof u.showAll_frame.1⟩
    rw [hbit, hfree]
    rfl
  · exact State.givesBy_same hargs (.inl rfl) ((if_neg hlegal).trans (by rw [hbit, hheld]; rfl))
  · refine ⟨_, mailCmd_performs (u := s.revoke) hargs (.inl rfl) ((if_neg hlegal).trans (by rw [hbit]; rfl)),
      State.answered_showAll 0 0 rfl rfl, ?_⟩
    exact congrArg (·.prof.active) (State.showAll_frame _).1

theorem givesBy_setpeer (hargs : s.mailArgs? 0 = some (8, a)) (h0 : a 0 < 256) :
    s.givesBy 0 8 (exec (.setpeer 0) s) 0 fun t => tget 0 t.plat.peers (a 0) = bits (a 1) 0 3 + 128 * bits (a 1) 7 1 :=
  State.givesBy_of (u := s.modPlat fun p => { p with peers := tset p.peers (a 0) (bits (a 1) 0 3 + 128 * bits (a 1) 7 1) })
    hargs (.inl rfl) (if_neg (Nat.not_le.mpr h0)) rfl rfl (tget_tset_same ..)

theorem givesBy_setwin (hargs : s.mailArgs? 0 = some (9, a)) (h0 : a 0 < 16) :
    let w : InWin := { en := bit (a 1) 0, links := bits (a 1) 8 8, part := bits (a 1) 16 4,
                       wbase := bits (a 2) 12 40 * 4096, lbase := bits (a 3) 12 40 * 4096, wlen := bits (a 4) 0 28 }
    ((w.en = false ∨ s.ownsRange w.part w.lbase (4096 * w.wlen) = true) →
      s.givesBy 0 9 (exec (.setwin 0) s) 0 fun t => tget InWin.reset t.plat.wins (a 0) = w) ∧
    (w.en = true → s.ownsRange w.part w.lbase (4096 * w.wlen) = false →
      s.givesBy 0 9 (exec (.setwin 0) s) 1 fun _ => True) := by
  intro w
  have hin : ¬ a 0 ≥ 16 := Nat.not_le.mpr h0
  refine ⟨fun hok => ?_, fun hen hno => ?_⟩
  · have hmay : ¬ (w.en && !s.ownsRange w.part w.lbase (4096 * w.wlen)) = true := by
      obtain h | h := hok <;> rw [h] <;> simp
    exact State.givesBy_of (u := s.modPlat fun p => { p with wins := tset p.wins (a 0) w }) hargs (.inl rfl)
      ((if_neg hin).trans (if_neg hmay)) rfl rfl (tget_tset_same ..)
  · exact State.givesBy_same hargs (.inl rfl) ((if_neg hin).trans (if_pos (by rw [hen, hno]; rfl)))

end

theorem givesBy_attest {s : State} {fn : Nat} {a : Nat → Nat} (hargs : s.mailArgs? fn = some (7, a)) :
    s.givesBy fn 7 (exec (.attest fn) s) 0 fun t => ∀ i < 0x60, tget 0 (t.box fn).data i =
      if i < 0x20 then tget 0 (s.box fn).data i else BitVec.ofNat 8 (tget 0 s.plat.measures (i - 0x20)) := by
  let f (b : Mailbox) : Mailbox := { b with
    data := tsetAll b.data ((List.range 208).map fun i => (i, s.reportByte b i)) }
  let report : List (Nat × Byte) := (List.range 208).map fun i => (i, s.reportByte (s.box fn) i)
  let u := (s.modBox fn f).drawn
  change s.givesBy fn 7 (execAttest fn s) 0 _
  unfold execAttest
  refine State.givesBy_of (u := u) hargs (.inr rfl) ?_ rfl rfl fun i hi => ?_
  · rfl
  have hdata : ((u.mailDone fn 0).box fn).data = tsetAll (s.box fn).data report := by
    have hbox : u.box fn = f (s.box fn) := (s.box_modBox fn fn f).trans (if_pos rfl)
    have hdone : (u.mailDone fn 0).box fn = { u.box fn with busy := false, status := 0 } :=
      (State.box_modBox ..).trans (if_pos rfl)
    simp only [hdone, hbox, f, report]
  have hkeys : (report.map (·.1)).Nodup := by
    have : report.map (·.1) = List.range 208 := by simp [report, Function.comp_def]
    rw [this]
    exact List.nodup_range
  have hmem : (i, s.reportByte (s.box fn) i) ∈ report := List.mem_map.mpr ⟨i, List.mem_range.mpr (by omega), rfl⟩
  rw [hdata, tget_tsetAll_mem 0 hkeys hmem]
  simp only [State.reportByte, if_pos hi]

theorem givesBy_mbcmdUnknown {s : State} {fn code : Nat} {a : Nat → Nat} (hargs : s.mailArgs? fn = some (code, a))
    (h : code = 0 ∨ 9 < code) : s.givesBy fn code (exec (.mbcmdUnknown fn) s) (if fn = 0 then 4 else 5) fun _ => True := by
  have hcode : ¬ (decide (1 ≤ code) && decide (code ≤ 9)) = true := by
    simp only [Bool.and_eq_true, decide_eq_true_eq]
    omega
  have hstatus : (if fn != 0 then 5 else 4) = if fn = 0 then 4 else 5 := by
    by_cases hfn : fn = 0 <;> simp [hfn]
  refine ⟨_, ?_, State.answered_mailDone fn code _ rfl rfl, trivial⟩
  change execMbcmdUnknown fn s = _
  simp only [execMbcmdUnknown, hargs, if_neg hcode, hstatus]

/-- A virtual function may ask for ATTEST only (R367). -/
theorem givesBy_refused {s : State} {fn code : Nat} {a : Nat → Nat} (hargs : s.mailArgs? fn = some (code, a)) (hfn : fn ≠ 0) :
    ∀ e ∈ [(1, Instr.setown fn), (2, .setmem fn), (3, .setpart fn), (4, .setctx fn), (5, .setslew fn),
      (6, .profgrant fn), (8, .setpeer fn), (9, .setwin fn)], code = e.1 → s.givesBy fn code (exec e.2 s) 5 fun _ => True := by
  have hdone := State.answered_mailDone (s := s) (u := s) fn code 5 rfl rfl
  simp only [List.mem_cons, List.not_mem_nil, or_false]
  rintro e (rfl | rfl | rfl | rfl | rfl | rfl | rfl | rfl) rfl <;>
    exact ⟨_, mailCmd_refused _ hargs hfn (by decide), hdone, trivial⟩

/-- Settles O60, command by command: each answer is the completion of the state that the command makes. -/
theorem mailboxCommands : Obligations.MailboxCommands := by
  unfold Obligations.MailboxCommands
  intro s fn code a hargs done gives any
  refine ⟨?_, givesBy_refused hargs, givesBy_mbcmdUnknown hargs, ?_⟩
  · rintro rfl
    exact givesBy_attest hargs
  rintro rfl
  refine ⟨?_, ?_, ?_, ?_, ?_, ?_, ?_, ?_⟩
  · rintro rfl ha
    exact ⟨givesBy_setown_quad hargs ha, givesBy_setown_bank hargs ha, givesBy_setown_slice hargs ha⟩
  · rintro rfl
    exact givesBy_setmem hargs
  · rintro rfl
    exact givesBy_setpart hargs
  · rintro rfl
    exact givesBy_setctx hargs
  · rintro rfl
    exact givesBy_setslew hargs
  · rintro rfl
    exact givesBy_profgrant hargs
  · rintro rfl
    exact givesBy_setpeer hargs
  · rintro rfl
    exact givesBy_setwin hargs

end Sys2Proof.Machine
end

section
/-! SUPPORT. Byte-count barriers (R324), and the changes of an event vector by the port that sent them (R315, R329). -/
namespace Sys2Proof.Machine

/-- A count below half the range is its own value; from there on it is negative. -/
theorem toSigned_32 {c : Nat} (h : c < 2 ^ 32) : toSigned 32 c = if c < 2 ^ 31 then (c : Int) else (c : Int) - 2 ^ 32 := by
  unfold toSigned
  rw [Nat.mod_eq_of_lt h]
  rfl

theorem wrapTo_32_nonneg {x : Int} {n : Nat} (h : x = n) (hn : n < 2 ^ 32) : wrapTo 32 x = n := by
  unfold wrapTo
  omega

theorem wrapTo_32_neg {x : Int} {n : Nat} (h : x = (n : Int) - 2 ^ 32) (hn : n < 2 ^ 32) : wrapTo 32 x = n := by
  unfold wrapTo
  omega

/-- A barrier with a positive count, or without a post, goes on in its phase. -/
theorem ByteBar.complete_open {b : ByteBar} (h : b.posted = true → 0 < b.count ∧ b.count < 2 ^ 31) : b.complete = b := by
  refine if_neg fun hc => ?_
  simp only [Bool.and_eq_true, decide_eq_true_eq] at hc
  obtain ⟨hp, hle⟩ := hc
  obtain ⟨hpos, hlt⟩ := h hp
  rw [toSigned_32 (by omega), if_pos hlt] at hle
  omega

/-- A posted barrier whose count is 0 completes its phase. -/
theorem ByteBar.complete_zero {b : ByteBar} (hp : b.posted = true) (hc : b.count = 0) : b.complete =
    { b with ovr := false, phase := (b.phase + 1) % 65536, posted := false, last := 0 } := by
  simp [ByteBar.complete, hp, hc, toSigned]

/-- A posted barrier whose count is negative completes its phase and has run over. -/
theorem ByteBar.complete_negative {b : ByteBar} (hp : b.posted = true) (hlo : 2 ^ 31 ≤ b.count) (hhi : b.count < 2 ^ 32) :
    b.complete = { b with ovr := true, phase := (b.phase + 1) % 65536, posted := false, last := 0 } := by
  have hs : toSigned 32 b.count < 0 := by
    rw [toSigned_32 hhi, if_neg (by omega)]
    omega
  have hcond : (b.posted && decide (toSigned 32 b.count ≤ 0)) = true := by
    rw [hp, Bool.true_and, decide_eq_true_eq]
    omega
  rw [ByteBar.complete, if_pos hcond, decide_eq_true hs]

theorem ByteBar.arrive_cases {b : ByteBar} {n : Nat} (hn : n ≤ 2 ^ 30) (hb : b.count ≤ 2 ^ 30) :
    (b.posted = true → n < b.count → b.arrive n = { b with count := b.count - n }) ∧
    (b.posted = true → n = b.count → b.arrive n =
      { b with count := 0, ovr := false, phase := (b.phase + 1) % 65536, posted := false, last := 0 }) ∧
    (b.posted = false → n ≤ b.count → b.arrive n = { b with count := b.count - n }) ∧
    (b.posted = false → b.count < n → b.arrive n = { b with count := 2 ^ 32 + b.count - n }) ∧
    (b.posted = true → b.count < n → b.arrive n =
      { b with count := 2 ^ 32 + b.count - n, ovr := true, phase := (b.phase + 1) % 65536, posted := false, last := 0 }) := by
  have hle (h : n ≤ b.count) : wrapTo 32 ((b.count : Int) - n) = b.count - n := wrapTo_32_nonneg (by omega) (by omega)
  have hlt (h : b.count < n) : wrapTo 32 ((b.count : Int) - n) = 2 ^ 32 + b.count - n := wrapTo_32_neg (by omega) (by omega)
  refine ⟨fun hp h => ?_, fun hp h => ?_, fun hp h => ?_, fun hp h => ?_, fun hp h => ?_⟩
  · rw [ByteBar.arrive, hle (by omega)]
    exact ByteBar.complete_open fun _ => by dsimp only; omega
  · rw [ByteBar.arrive, hle (by omega), h, Nat.sub_self]
    exact ByteBar.complete_zero hp rfl
  · rw [ByteBar.arrive, hle h]
    exact ByteBar.complete_open fun h => Bool.noConfusion (hp.symm.trans h)
  · rw [ByteBar.arrive, hlt h]
    exact ByteBar.complete_open fun h => Bool.noConfusion (hp.symm.trans h)
  · rw [ByteBar.arrive, hlt h]
    exact ByteBar.complete_negative hp (by dsimp only; omega) (by dsimp only; omega)

theorem ByteBar.post_open {b : ByteBar} {n : Nat} (hn : 1 ≤ n) (hc : b.count + n < 2 ^ 31) (hl : b.last < 2 ^ 31) :
    b.post n = { b with count := b.count + n, last := b.last + n, posted := true } := by
  rw [ByteBar.post, Nat.mod_eq_of_lt (by omega), Nat.mod_eq_of_lt (by omega)]
  exact ByteBar.complete_open fun _ => by dsimp only; omega

/-- A post of n bytes at a barrier at which k bytes have arrived early. -/
theorem ByteBar.post_early {b : ByteBar} {n k : Nat} (hn : n ≤ 2 ^ 30) (hk : 1 ≤ k) (hk' : k ≤ 2 ^ 30) :
    let e : ByteBar := { b with count := 2 ^ 32 - k, posted := false, last := 0 }
    let next : ByteBar := { b with phase := (b.phase + 1) % 65536, posted := false, last := 0 }
    (n = k → e.post n = { next with count := 0, ovr := false }) ∧
    (n < k → e.post n = { next with count := 2 ^ 32 + n - k, ovr := true }) ∧
    (k < n → e.post n = { e with count := n - k, last := n, posted := true }) := by
  intro e next
  have hlast : (0 + n) % 2 ^ 32 = n := by omega
  refine ⟨fun h => ?_, fun h => ?_, fun h => ?_⟩
  · have hcount : (2 ^ 32 - k + n) % 2 ^ 32 = 0 := by omega
    simp only [ByteBar.post, e, hcount]
    exact ByteBar.complete_zero rfl rfl
  · have hcount : (2 ^ 32 - k + n) % 2 ^ 32 = 2 ^ 32 + n - k := by omega
    simp only [ByteBar.post, e, hcount]
    exact ByteBar.complete_negative rfl (by dsimp only; omega) (by dsimp only; omega)
  · have hcount : (2 ^ 32 - k + n) % 2 ^ 32 = n - k := by omega
    simp only [ByteBar.post, e, hcount, hlast]
    exact ByteBar.complete_open fun _ => by dsimp only; omega

/-- The changes of a list that have passed, where of each port the first `quota` have: the model's `State.evSplit` from an index
on, with the numbers of changes that each port sent before. -/
def evPassed (quota : Nat → Nat) (here : Bool) : (Nat → Nat) → List EvOp → List EvOp
  | _, [] => []
  | sent, o :: r =>
    let later := evPassed quota here (fun p => if p = o.src then sent p + 1 else sent p) r
    if decide (sent o.src < quota o.src) == here then o :: later else later

/-- How many changes of a list a port sent. -/
def sentBy (ops : List EvOp) (p : Nat) : Nat := (ops.filter fun o => o.src == p).length

theorem sentBy_append_singleton (ops : List EvOp) (o : EvOp) :
    (fun p => if p = o.src then sentBy ops p + 1 else sentBy ops p) = sentBy (ops ++ [o]) := by
  funext p
  by_cases h : p = o.src
  · simp [sentBy, h, List.filter_append]
  · have h' : ¬ o.src = p := fun e => h e.symm
    simp [sentBy, h, h', List.filter_append]

/-- The model's split of the changes, from an index on. -/
theorem evSplit_tail (s : State) (all before ops : List EvOp) (here : Bool) (h : all = before ++ ops) :
    ((ops.zip ((List.range all.length).drop before.length)).filterMap fun (o, i) =>
      if s.evHere all o i == here then some o else none) = evPassed (s.evQuota all) here (sentBy before) ops := by
  induction ops generalizing before with
  | nil => rfl
  | cons o r ih =>
    have hlen : before.length < all.length := by rw [h]; simp
    have hdrop : (List.range all.length).drop before.length =
        before.length :: (List.range all.length).drop (before.length + 1) := by
      rw [List.drop_eq_getElem_cons (by simpa using hlen)]
      simp
    have hhere : s.evHere all o before.length = decide (sentBy before o.src < s.evQuota all o.src) := by
      have htake : all.take before.length = before := by rw [h, List.take_left]
      simp only [State.evHere, htake]
      rfl
    have hr := ih (before ++ [o]) (by rw [h, List.append_assoc]; rfl)
    rw [List.length_append, List.length_singleton] at hr
    rw [hdrop, List.zip_cons_cons, List.filterMap_cons]
    simp only [hhere, evPassed, sentBy_append_singleton, hr]
    cases decide (sentBy before o.src < s.evQuota all o.src) == here <;> rfl

theorem evSplit_eq (s : State) (ops : List EvOp) (here : Bool) :
    s.evSplit ops here = evPassed (s.evQuota ops) here (sentBy []) ops :=
  evSplit_tail s ops [] ops here rfl

/-- Of each port's changes those that have passed come first. -/
theorem evPassed_split (quota sent : Nat → Nat) (ops : List EvOp) (p : Nat) :
    ((evPassed quota true sent ops).filter fun o => o.src == p) ++ ((evPassed quota false sent ops).filter fun o => o.src == p) =
        (ops.filter fun o => o.src == p) ∧
      (quota p ≤ sent p → ((evPassed quota true sent ops).filter fun o => o.src == p) = []) := by
  induction ops generalizing sent with
  | nil => exact ⟨rfl, fun _ => rfl⟩
  | cons o r ih =>
    obtain ⟨hsplit, hnone⟩ := ih fun q => if q = o.src then sent q + 1 else sent q
    by_cases hq : sent o.src < quota o.src
    · have ht : evPassed quota true sent (o :: r) = o :: evPassed quota true (fun q => if q = o.src then sent q + 1 else sent q) r := by
        simp [evPassed, hq]
      have hf : evPassed quota false sent (o :: r) = evPassed quota false (fun q => if q = o.src then sent q + 1 else sent q) r := by
        simp [evPassed, hq]
      rw [ht, hf]
      by_cases hp : o.src = p
      · subst hp
        simp only [List.filter_cons, beq_self_eq_true, if_true, List.cons_append, hsplit, true_and]
        omega
      · have hp' : (o.src == p) = false := beq_false_of_ne hp
        have hp'' : ¬ p = o.src := fun e => hp e.symm
        simp only [List.filter_cons, hp', Bool.false_eq_true, if_false, hsplit, true_and]
        intro hle
        exact hnone (by simpa [hp''] using hle)
    · have ht : evPassed quota true sent (o :: r) = evPassed quota true (fun q => if q = o.src then sent q + 1 else sent q) r := by
        simp [evPassed, hq]
      have hf : evPassed quota false sent (o :: r) = o :: evPassed quota false (fun q => if q = o.src then sent q + 1 else sent q) r := by
        simp [evPassed, hq]
      rw [ht, hf]
      by_cases hp : o.src = p
      · subst hp
        have hnil := hnone (by simp; omega)
        simp only [List.filter_cons, beq_self_eq_true, if_true] at hsplit ⊢
        rw [hnil, List.nil_append] at hsplit ⊢
        exact ⟨by rw [hsplit], fun _ => rfl⟩
      · have hp' : (o.src == p) = false := beq_false_of_ne hp
        have hp'' : ¬ p = o.src := fun e => hp e.symm
        simp only [List.filter_cons, hp', Bool.false_eq_true, if_false, hsplit, true_and]
        intro hle
        exact hnone (by simpa [hp''] using hle)

/-- A bit of a vector to which clears are applied. -/
theorem getLsbD_foldl_clears {l : List EvOp} (h : ∀ o ∈ l, o.set = false) (v : BitVec 256) {n : Nat} (hn : n < 256) :
    (l.foldl evApply v).getLsbD n = (v.getLsbD n && !(l.any fun o => o.bit == n)) := by
  induction l generalizing v with
  | nil => simp
  | cons o r ih =>
    have ho : o.set = false := h o List.mem_cons_self
    have hbit : (evApply v o).getLsbD n = (v.getLsbD n && !(o.bit == n)) := by
      by_cases hb : o.bit = n
      · subst hb; simp [evApply, ho, hn]
      · rcases Nat.lt_or_gt_of_ne hb with hlt | hgt
        · have hsub : n - o.bit ≠ 0 := by omega
          simp [evApply, ho, hn, hb, hsub]
        · simp [evApply, ho, hn, hb, hgt]
    rw [List.foldl_cons, ih fun x hx => h x (List.mem_cons_of_mem _ hx), hbit, List.any_cons, Bool.not_or, Bool.and_assoc]

/-- A bit of a vector to which sets are applied. -/
theorem getLsbD_foldl_sets {l : List EvOp} (h : ∀ o ∈ l, o.set = true) (v : BitVec 256) {n : Nat} (hn : n < 256) :
    (l.foldl evApply v).getLsbD n = (v.getLsbD n || (l.any fun o => o.bit == n)) := by
  induction l generalizing v with
  | nil => simp
  | cons o r ih =>
    have ho : o.set = true := h o List.mem_cons_self
    have hbit : (evApply v o).getLsbD n = (v.getLsbD n || (o.bit == n)) := by
      by_cases hb : o.bit = n
      · subst hb; simp [evApply, ho, hn]
      · rcases Nat.lt_or_gt_of_ne hb with hlt | hgt
        · have hsub : n - o.bit ≠ 0 := by omega
          simp [evApply, ho, hn, hb, hsub]
        · simp [evApply, ho, hn, hb, hgt]
    rw [List.foldl_cons, ih fun x hx => h x (List.mem_cons_of_mem _ hx), hbit, List.any_cons, Bool.or_assoc]

/-- A bit of the vector after clears and then sets: a set wins (R329). -/
theorem getLsbD_evApply (ops : List EvOp) (v : BitVec 256) {n : Nat} (hn : n < 256) :
    (((ops.filter fun o => !o.set) ++ ops.filter (·.set)).foldl evApply v).getLsbD n =
      ((ops.any fun o => o.set && o.bit == n) || (v.getLsbD n && !(ops.any fun o => !o.set && o.bit == n))) := by
  have hclear : ∀ o ∈ ops.filter (fun o => !o.set), o.set = false := fun o ho => by simpa using (List.mem_filter.mp ho).2
  have hset : ∀ o ∈ ops.filter (·.set), o.set = true := fun o ho => (List.mem_filter.mp ho).2
  rw [List.foldl_append, getLsbD_foldl_sets hset _ hn, getLsbD_foldl_clears hclear _ hn, List.any_filter, List.any_filter,
    Bool.or_comm]

/-- What a group waits for after a change that leaves a wait unless a test makes it another. -/
theorem Group.mapWait_wait (g : Group) (f : Option Wait → Option Wait) : (g.mapWait f).wait = f g.wait := by
  unfold Group.mapWait
  split <;> rfl

theorem Group.mapWait_place (g : Group) (f : Option Wait → Option Wait) : (g.mapWait f).place = g.place := by
  unfold Group.mapWait
  split <;> rfl

theorem Group.mapWait_suspended (g : Group) (f : Option Wait → Option Wait) : (g.mapWait f).suspended = g.suspended := by
  unfold Group.mapWait
  split <;> rfl

/-- No group that is not suspended goes on waiting for an event bit that is 1 (R328). -/
theorem State.showEvents_waits {s : State} {x n : Nat} {g : Group} (hg : g ∈ (s.showEvents x).groups) (hctx : g.place.ctx = x)
    (hrun : g.suspended = false) (hwait : g.wait = some (.event n)) : (s.eventVector x).getLsbD n = false := by
  obtain ⟨g₀, -, rfl⟩ := List.mem_map.mp hg
  split at hwait
  case isTrue hc =>
    rw [Group.mapWait_wait] at hwait
    split at hwait
    · split at hwait
      · exact absurd hwait (by simp)
      · next m hm hbit =>
        obtain rfl : m = n := by simpa using hm.symm.trans hwait
        exact Bool.eq_false_iff.mpr hbit
    · next hno => exact absurd hwait (hno n)
  case isFalse hc =>
    rw [if_neg hc] at hctx hrun
    exact absurd (by rw [hctx, hrun]; simp) hc

end Sys2Proof.Machine
end
section
/-! PROOFS. O55: barriers, events, tasks and timed waits step on (R321 to R324, R328, R329, R333, R338, R347). -/
namespace Sys2Proof.Machine

theorem exec_byteBarrierArrive (s : State) (k : Nat) (a : BArr) (tm : Team) (l : Loc) (ha : s.units.arrivals[k]? = some a)
    (htm : (s.units.teams.find? fun t => t.launch == a.launch && t.blk == a.blk && t.core == a.core) = some tm) :
    let part := ((s.launch? a.launch).map fun l => (s.ctx l.ctx).part).getD 0
    s.barInside (some tm) part a.addr = true → s.teamScratch tm part a.addr = some l →
    let b := ByteBar.ofBytes (s.locRead l 16)
    let first := s.banksChange a.core = false ∧ (a.cls = 0 ∨ ∀ b ∈ s.units.arrivals.take k, b.cls = 0 ∨ b.core ≠ a.core)
    (¬ first → exec (.byteBarrierArrive k) s = .next s) ∧
    (first → exec (.byteBarrierArrive k) s = .next ((s.modUnits fun u => { u with arrivals := removeNth k u.arrivals }).locWrite l
      (if a.cls = 2 then b.post a.bytes else b.arrive a.bytes).bytes)) := by
  intro part hin hl b first
  change (_ → execByteBarrierArrive k s = _) ∧ (_ → execByteBarrierArrive k s = _)
  have hfirst : first ↔ ¬ (s.banksChange a.core ||
      (a.cls != 0 && (s.units.arrivals.take k).any (fun b => b.cls != 0 && b.core == a.core))) = true := by
    simp only [first, Bool.or_eq_true, Bool.and_eq_true, List.any_eq_true, bne_iff_ne, beq_iff_eq, not_or, not_and, not_exists,
      Bool.not_eq_true, ne_eq]
    refine and_congr_right fun _ => ⟨fun h hcls b hb hbc => ?_, fun h => ?_⟩
    · exact (h.resolve_left hcls b hb).resolve_left hbc
    · by_cases hcls : a.cls = 0
      · exact .inl hcls
      · exact .inr fun b hb => Decidable.or_iff_not_imp_left.mpr fun hbc => h hcls b hb hbc
  unfold execByteBarrierArrive
  simp only [ha]
  refine ⟨fun h => if_pos (Decidable.of_not_not fun hc => h (hfirst.mpr hc)), fun h => (if_neg (hfirst.mp h)).trans ?_⟩
  have hteam : ((s.modUnits fun u => { u with arrivals := removeNth k u.arrivals }).units.teams.find? fun t =>
      t.launch == a.launch && t.blk == a.blk && t.core == a.core) = some tm := htm
  rw [hteam]
  have hplace : (if (s.modUnits fun u => { u with arrivals := removeNth k u.arrivals }).barInside (some tm) part a.addr then
      (some tm).bind fun t => (s.modUnits fun u => { u with arrivals := removeNth k u.arrivals }).teamScratch t part a.addr
      else none) = some l := (if_pos hin).trans hl
  split
  case h_1 l' hl' =>
    obtain rfl : l = l' := Option.some.inj (hplace.symm.trans hl')
    rfl
  case h_2 hnone => exact absurd (hplace.symm.trans hnone :) (by simp)

theorem exec_barrierReleaseWave (s : State) (cluster k : Nat) (b : Barrier) (hb : s.units.barriers[k]? = some b) :
    let here (gid : Nat) : Bool := (s.group? gid).any fun g => clusterOf g.place.core == cluster && !g.suspended &&
      g.place.launch == b.launch && g.place.blk == b.blk
    let out := (b.leaving.filter here).take ((s.cluster cluster).wave + 1)
    ∃ t : State, exec (.barrierReleaseWave cluster k) s = .next t ∧ t.mem = s.mem ∧ out.length ≤ (s.cluster cluster).wave + 1 ∧
      t.groups = s.groups.map fun g =>
        if g.gid ∈ out then
          g.mapWait fun w => if w = some (.barrier b.team.isNone b.n) then some .released else w
        else g := by
  intro here out
  change ∃ t, execBarrierReleaseWave cluster k s = .next t ∧ _
  simp only [execBarrierReleaseWave, hb]
  refine ⟨_, rfl, rfl, List.length_take_le .., ?_⟩
  simp only [List.contains_iff_mem, beq_iff_eq]
  rfl

theorem exec_eventVectorUpdate (s : State) (x : Nat) :
    ∃ t : State, exec (.eventVectorUpdate x) s = .next t ∧ t.mem = s.mem ∧
    let now := s.evSplit (s.ctx x).evOps true
    (∀ p, (now.filter fun o => o.src == p) ++ ((t.ctx x).evOps.filter fun o => o.src == p) =
      (s.ctx x).evOps.filter fun o => o.src == p) ∧
    (∀ n < 256, (t.ctx x).ev.getLsbD n =
      ((now.any fun o => o.set && o.bit == n) || ((s.ctx x).ev.getLsbD n && !(now.any fun o => !o.set && o.bit == n)))) ∧
    ∀ g ∈ t.groups, g.place.ctx = x → g.suspended = false → ∀ n, g.wait = some (.event n) →
      (t.eventVector x).getLsbD n = false := by
  let now := s.evSplit (s.ctx x).evOps true
  let c : Ctx := { s.ctx x with
    ev := ((now.filter fun o => !o.set) ++ now.filter (·.set)).foldl evApply (s.ctx x).ev
    evOps := s.evSplit (s.ctx x).evOps false }
  let u := { s with draws := s.draws + (s.ctx x).evOps.length }.modCtx x fun _ => c
  have hctx : u.ctx x = c := (State.ctx_modCtx ..).trans (if_pos rfl)
  have hshown : (u.showEvents x).ctx x = c := hctx
  refine ⟨u.showEvents x, ?_, rfl, fun p => ?_, fun n hn => ?_, fun g hg hgx hrun n hwait => ?_⟩
  · change execEventVectorUpdate x s = _
    rfl
  · rw [hshown]
    simp only [c, evSplit_eq]
    exact (evPassed_split _ _ _ p).1
  · rw [hshown]
    exact getLsbD_evApply now (s.ctx x).ev hn
  · exact State.showEvents_waits (s := u) hg hgx hrun hwait

/-- The packet of a task that starts goes to a device queue with room for it (R347). -/
theorem startTask_room {c : Ctx} (id : Nat) (hroom : c.dq.length < 64) (hwait : c.waiting = []) : ∃ packet,
    startTask c id = { c with tasks := tdel c.tasks id, dq := c.dq ++ [packet] } :=
  ⟨_, if_pos (by simp [hroom, hwait])⟩

theorem exec_taskDecrement (s : State) (k src x id : Nat) (hk : s.units.decrements[k]? = some (src, x, id))
    (hfirst : ∀ e ∈ s.units.decrements.take k, e.1 ≠ src) :
    let c := s.ctx x
    let e := tget Task.reset c.tasks id
    ∃ t : State, exec (.taskDecrement k) s = .next t ∧ t.groups = s.groups ∧ t.mem = s.mem ∧
      t.units.decrements = removeNth k s.units.decrements ∧
      (e.armed = false → t.ctx x = { c with sigdisc := c.sigdisc + 1 }) ∧
      (e.armed = true → 1 < e.counter → t.ctx x = { c with tasks := tset c.tasks id { e with counter := e.counter - 1 } }) ∧
      (e.armed = true → e.counter = 1 → c.dq.length < 64 → c.waiting = [] → ∃ packet,
        t.ctx x = { c with tasks := tdel c.tasks id, dq := c.dq ++ [packet] }) := by
  intro c e
  change ∃ t, execTaskDecrement k s = .next t ∧ _
  have hmine : ¬ ((s.units.decrements.take k).any fun e => e.1 == src) = true := by
    simp only [List.any_eq_true, beq_iff_eq, not_exists, not_and]
    exact hfirst
  simp only [execTaskDecrement, hk, if_neg hmine]
  refine ⟨_, rfl, rfl, rfl, rfl, fun ha => ?_, fun ha hc => ?_, fun ha hc hroom hwait => ?_⟩
  · refine (State.ctx_modCtx ..).trans ((if_pos rfl).trans (if_pos ?_))
    have ha' : (tget Task.reset (s.ctx x).tasks id).armed = false := ha
    simp [ha']
  · have ha' : (tget Task.reset (s.ctx x).tasks id).armed = true := ha
    have hc' : 1 < (tget Task.reset (s.ctx x).tasks id).counter := hc
    refine (State.ctx_modCtx ..).trans ((if_pos rfl).trans ((if_neg ?_).trans (if_neg ?_)))
    · simp [ha']; omega
    · exact Nat.ne_of_gt hc'
  · obtain ⟨packet, hstart⟩ := startTask_room id hroom hwait
    have ha' : (tget Task.reset (s.ctx x).tasks id).armed = true := ha
    have hc' : (tget Task.reset (s.ctx x).tasks id).counter = 1 := hc
    refine ⟨packet, (State.ctx_modCtx ..).trans ((if_pos rfl).trans ((if_neg ?_).trans ((if_pos hc').trans hstart)))⟩
    simp [ha', hc']

/-- The group that a change of one group's state finds under its identity. -/
theorem State.group?_modGroup {s : State} {gid : Nat} {f : Group → Group} (hf : ∀ g, (f g).gid = g.gid) :
    (s.modGroup gid f).group? gid = (s.group? gid).map f := by
  unfold State.group? State.modGroup
  rw [List.find?_map]
  have hsame : (fun g : Group => g.gid == gid) ∘ (fun h => if h.gid == gid then f h else h) = fun g => g.gid == gid := by
    funext h
    simp only [Function.comp]
    split
    · rw [hf]
    · rfl
  rw [hsame]
  cases hg : s.groups.find? fun g => g.gid == gid with
  | none => rfl
  | some g => exact congrArg some (if_pos (List.find?_some hg))

theorem exec_timedWaitExpiry (s : State) (gid d : Nat) (g : Group) (hg : s.group? gid = some g) (hw : g.wait = some (.timed d))
    (hrun : g.suspended = false) (_htrap : g.trap = none) :
    ∃ t : State, exec (.timedWaitExpiry gid) s = .next t ∧ t.mem = s.mem ∧
      (t.group? gid).map (·.wait) = some (some (if d * s.aclkOf g.place.core ≤ (s.ns + 2) * s.aclkOf g.place.core + 16
        then .expired d else .timed d)) := by
  refine ⟨_, rfl, rfl, ?_⟩
  rw [State.group?_modGroup (fun g => g.mapWait_gid _), hg]
  simp only [Option.map_some, Group.mapWait_wait, hw, hrun, State.timeUp]
  simp only [Bool.not_false, Bool.true_and, decide_eq_true_eq]
  split <;> rfl

/-- Settles O55: each step of a barrier, a vector, a task counter and a timed wait by itself. -/
theorem synchronisationStepsOn : Obligations.SynchronisationStepsOn := by
  unfold Obligations.SynchronisationStepsOn
  refine ⟨exec_byteBarrierArrive, fun b n hn hb => ?_, exec_barrierReleaseWave, exec_eventVectorUpdate, exec_taskDecrement,
    exec_timedWaitExpiry⟩
  obtain ⟨h₁, h₂, h₃, h₄, h₅⟩ := ByteBar.arrive_cases hn hb
  exact ⟨h₁, h₂, h₃, h₄, h₅, ByteBar.post_open, fun k hk hk' => ByteBar.post_early hn hk hk'⟩

end Sys2Proof.Machine
end

section
/-! PROOFS. O56: the dispatcher serves a queue (R343 to R347, R399). -/
namespace Sys2Proof.Machine

/-- What a packet that leaves its queue keeps of the context. -/
theorem popQueue_keeps (q : Nat) (c : Ctx) : (popQueue q c).ev = c.ev ∧ (popQueue q c).evOps = c.evOps ∧
    (popQueue q c).lrefused = c.lrefused ∧ (popQueue q c).tasks = c.tasks := by
  unfold popQueue
  split
  · split <;> exact ⟨rfl, rfl, rfl, rfl⟩
  · exact ⟨rfl, rfl, rfl, rfl⟩

/-- A packet that is refused counts, and sets event bit 248 (R344). -/
theorem State.refuse_spec (s : State) (x q : Nat) : (s.refuse x q).units = s.units ∧
    ((s.refuse x q).ctx x).lrefused = (s.ctx x).lrefused + 1 ∧
    ((s.refuse x q).ctx x).evOps = (s.ctx x).evOps ++ [{ src := dispatcherPort, set := true, bit := 248 }] := by
  obtain ⟨-, hops, -, -⟩ := popQueue_keeps q (s.ctx x)
  refine ⟨rfl, ?_, ?_⟩
  · simp [State.refuse, State.raiseEvent]
  · simp [State.refuse, State.raiseEvent, hops]

/-- The outcome of a dispatch that serves queue q of a context. -/
theorem exec_dispatch_chosen {s : State} {x q : Nat} (hq : q < 5) (hk : s.chosenQueue = some (5 * x + q)) :
    exec .dispatch s = .next ((s.dispatchFrom x q).modUnits fun u => { u with
      rr := tset u.rr (s.ctx ((5 * x + q) / 5)).prio (5 * x + q + 1) }) := by
  have hx : (5 * x + q) / 5 = x := by omega
  have hq' : (5 * x + q) % 5 = q := by omega
  change execDispatch s = _
  simp only [execDispatch, hk]
  rw [hx, hq']

/-- The context after the packet at the head of its queue has taken its event bits, if it takes them (R331). -/
def State.consumed (s : State) (x : Nat) (p : Packet) : State :=
  if p.consume then s.modCtx x fun c => { c with ev := c.ev &&& ~~~p.waitmask } else s

theorem State.consumed_keeps (s : State) (x : Nat) (p : Packet) : (s.consumed x p).units = s.units ∧
    (s.consumed x p).groups = s.groups ∧ (s.consumed x p).mem = s.mem ∧
    ((s.consumed x p).ctx x).lrefused = (s.ctx x).lrefused ∧ ((s.consumed x p).ctx x).evOps = (s.ctx x).evOps ∧
    ((s.consumed x p).ctx x).ev = if p.consume then (s.ctx x).ev &&& ~~~p.waitmask else (s.ctx x).ev := by
  unfold State.consumed
  split
  · simp
  · exact ⟨rfl, rfl, rfl, rfl, rfl, rfl⟩

/-- What the dispatcher does with a packet that arms no task. -/
theorem State.dispatchFrom_launch {s : State} {x q : Nat} {raw : List Byte} (hraw : s.headPacket x q = some raw)
    (harm : (Packet.ofBytes raw).arm = false) :
    s.dispatchFrom x q = match (s.consumed x (Packet.ofBytes raw)).launchOf x q raw with
      | none => (s.consumed x (Packet.ofBytes raw)).refuse x q
      | some l =>
        if (s.consumed x (Packet.ofBytes raw)).placeable l then
          ((s.consumed x (Packet.ofBytes raw)).modUnits fun u => { u with launches := u.launches ++ [l] }).bumpId
        else (s.consumed x (Packet.ofBytes raw)).refuse x q := by
  simp only [State.dispatchFrom, hraw, harm, Bool.false_eq_true, if_false]
  rfl

/-- A packet whose launch is refused. -/
theorem exec_dispatch_refused {s u : State} {x q : Nat} (hq : q < 5) (hk : s.chosenQueue = some (5 * x + q))
    (hd : s.dispatchFrom x q = u.refuse x q) (hu : u.units.launches = s.units.launches)
    (hr : (u.ctx x).lrefused = (s.ctx x).lrefused) (ho : (u.ctx x).evOps = (s.ctx x).evOps) :
    ∃ t : State, exec .dispatch s = .next t ∧ t.units.launches = s.units.launches ∧
      (t.ctx x).lrefused = (s.ctx x).lrefused + 1 ∧
      (t.ctx x).evOps = (s.ctx x).evOps ++ [{ src := dispatcherPort, set := true, bit := 248 }] := by
  obtain ⟨hunits, hcount, hops⟩ := u.refuse_spec x q
  refine ⟨_, exec_dispatch_chosen hq hk, ?_, ?_, ?_⟩
  · rw [hd]; exact (congrArg Units.launches hunits).trans hu
  · rw [hd]; exact hcount.trans (congrArg (· + 1) hr)
  · rw [hd]; exact hops.trans (congrArg (· ++ _) ho)

theorem exec_dispatch (s : State) (x q : Nat) (raw : List Byte) (hq : q < 5) (hk : s.chosenQueue = some (5 * x + q))
    (hraw : s.headPacket x q = some raw) :
    let p := Packet.ofBytes raw
    let c := s.ctx x
    let s' := if p.consume then s.modCtx x fun c => { c with ev := c.ev &&& ~~~p.waitmask } else s
    let refused (t : State) : Prop := exec .dispatch s = .next t ∧ t.units.launches = s.units.launches ∧
      (t.ctx x).lrefused = c.lrefused + 1 ∧ (t.ctx x).evOps = c.evOps ++ [{ src := dispatcherPort, set := true, bit := 248 }]
    (p.arm = false → ∀ l, s'.launchOf x q raw = some l →
      (s'.placeable l = true → ∃ t : State, exec .dispatch s = .next t ∧ t.units.launches = s.units.launches ++ [l] ∧
        t.groups = s.groups ∧ t.mem = s.mem ∧ (t.ctx x).ev = if p.consume then c.ev &&& ~~~p.waitmask else c.ev) ∧
      (s'.placeable l = false → ∃ t : State, refused t)) ∧
    (p.arm = false → s'.launchOf x q raw = none → ∃ t : State, refused t) ∧
    (p.arm = true → p.clean = true → 1 ≤ p.tcount → p.tcount ≤ 65535 → (tget Task.reset c.tasks p.taskid).armed = false →
      ∃ t : State, exec .dispatch s = .next t ∧ t.units.launches = s.units.launches ∧ (t.ctx x).ev = c.ev ∧
        tget Task.reset (t.ctx x).tasks p.taskid = { armed := true, counter := p.tcount, packet := raw }) ∧
    (p.arm = true → ¬(p.clean = true ∧ 1 ≤ p.tcount ∧ p.tcount ≤ 65535 ∧ (tget Task.reset c.tasks p.taskid).armed = false) →
      ∃ t : State, refused t) := by
  intro p c s' refused
  obtain ⟨hunits, hgroups, hmem, hrefused, hops, hev⟩ := s.consumed_keeps x p
  refine ⟨fun harm l hl => ⟨fun hplace => ?_, fun hplace => ?_⟩, fun harm hnone => ?_, fun harm hclean hlo hhi hfree => ?_,
    fun harm hbad => ?_⟩
  · have hd := State.dispatchFrom_launch hraw harm
    rw [show (s.consumed x p).launchOf x q raw = some l from hl] at hd
    refine ⟨_, exec_dispatch_chosen hq hk, ?_⟩
    rw [hd.trans (if_pos hplace)]
    exact ⟨congrArg (fun u : Units => u.launches ++ [l]) hunits, hgroups, hmem, hev⟩
  · have hd := State.dispatchFrom_launch hraw harm
    rw [show (s.consumed x p).launchOf x q raw = some l from hl] at hd
    exact exec_dispatch_refused hq hk (hd.trans (if_neg (ne_true_of_eq_false hplace))) (congrArg Units.launches hunits) hrefused hops
  · have hd := State.dispatchFrom_launch hraw harm
    rw [show (s.consumed x p).launchOf x q raw = none from hnone] at hd
    exact exec_dispatch_refused hq hk hd (congrArg Units.launches hunits) hrefused hops
  · have hlegal : ¬ (!p.clean || decide (p.tcount = 0) || decide (p.tcount > 65535) ||
        (tget Task.reset (s.ctx x).tasks p.taskid).armed) = true := by
      have h0 : p.tcount ≠ 0 := by omega
      have hf : (tget Task.reset (s.ctx x).tasks p.taskid).armed = false := hfree
      simp [hclean, h0, hhi, hf]
    have hd : s.dispatchFrom x q = s.modCtx x fun c =>
        { popQueue q c with tasks := tset c.tasks p.taskid { armed := true, counter := p.tcount, packet := raw } } := by
      simp only [State.dispatchFrom, hraw]
      exact (if_pos harm).trans (if_neg hlegal)
    refine ⟨_, exec_dispatch_chosen hq hk, ?_⟩
    rw [hd]
    have hctx := (s.ctx_modCtx x x fun c =>
      { popQueue q c with tasks := tset c.tasks p.taskid { armed := true, counter := p.tcount, packet := raw } }).trans (if_pos rfl)
    exact ⟨rfl, (congrArg Ctx.ev hctx).trans (popQueue_keeps q (s.ctx x)).1,
      (congrArg (fun c : Ctx => tget Task.reset c.tasks p.taskid) hctx).trans (tget_tset_same ..)⟩
  · have hillegal : (!p.clean || decide (p.tcount = 0) || decide (p.tcount > 65535) ||
        (tget Task.reset (s.ctx x).tasks p.taskid).armed) = true := by
      by_contra hno
      refine hbad ?_
      simp only [Bool.or_eq_true, not_or, decide_eq_true_eq, Bool.not_eq_true, Bool.not_eq_false'] at hno
      obtain ⟨⟨⟨hclean, hlo⟩, hhi⟩, hfree⟩ := hno
      exact ⟨hclean, by omega, by omega, hfree⟩
    have hd : s.dispatchFrom x q = s.refuse x q := by
      simp only [State.dispatchFrom, hraw]
      exact (if_pos harm).trans (if_pos hillegal)
    exact exec_dispatch_refused hq hk hd rfl rfl rfl

end Sys2Proof.Machine
end
section
/-! PROOFS. O56: balance actions (R348). -/
namespace Sys2Proof.Machine

/-- The lighter cluster of a pair, and that the other carries more. -/
theorem State.lighter_spec {s : State} {pair n : Nat} (h : s.lighter pair = some n) :
    (n = 2 * pair ∧ (s.cluster (2 * pair)).load < (s.cluster (2 * pair + 1)).load) ∨
      (n = 2 * pair + 1 ∧ (s.cluster (2 * pair + 1)).load < (s.cluster (2 * pair)).load) := by
  simp only [State.lighter] at h
  split at h
  case isTrue hmore =>
    split at h
    case isTrue hlt => exact .inl ⟨(Option.some.inj h).symm, hlt⟩
    case isFalse hge => exact .inr ⟨(Option.some.inj h).symm, by omega⟩
  case isFalse => exact absurd h (by simp)

theorem exec_balanceAction (s : State) (pair kind n : Nat) (hn : s.lighter pair = some n) :
    ∃ t : State, exec (.balanceAction pair kind) s = .next t ∧
    t.mem = s.mem ∧ t.groups = s.groups ∧
    let a := s.cluster (2 * pair)
    let b := t.cluster (2 * pair)
    (a.balance < kind → t = s) ∧
    (kind = 0 → b = { a with steer := true, balance := max 1 a.balance }) ∧
    (kind = 1 → 1 ≤ a.balance → b.balance = 2 ∧ b.bthrot = (a.bthrot + 1) % 2 ^ 48 ∧ ∃ m, (m = 2 * pair ∨ m = 2 * pair + 1) ∧ m ≠ n ∧
      (s.cluster n).load < (s.cluster m).load ∧ (t.cluster m).withhold = true) ∧
    (kind = 2 → 2 ≤ a.balance → b = { a with bfill := (a.bfill + 1) % 2 ^ 48 }) := by
  change ∃ t, execBalanceAction pair kind s = .next t ∧ _
  simp only [execBalanceAction, hn]
  by_cases hlate : kind > (s.cluster (2 * pair)).balance
  · refine ⟨s, congrArg Host.Outcome.next (if_pos hlate), rfl, rfl, fun _ => rfl, ?_, ?_, ?_⟩ <;> omega
  rw [if_neg hlate]
  match kind, hlate with
  | 0, hlate =>
    refine ⟨_, rfl, rfl, rfl, fun h => absurd h hlate, fun _ => ?_, by omega, by omega⟩
    exact (State.cluster_modCluster ..).trans (if_pos rfl)
  | 1, hlate =>
    refine ⟨_, rfl, rfl, rfl, fun h => absurd h hlate, by omega, fun _ _ => ?_, by omega⟩
    have hthis (f g : Cluster → Cluster) (k : Nat) : ((s.modCluster k f).modCluster (2 * pair) g).cluster (2 * pair) =
        g (if k = 2 * pair then f (s.cluster k) else s.cluster (2 * pair)) := by
      rw [State.cluster_modCluster, if_pos rfl, State.cluster_modCluster]
    rcases State.lighter_spec hn with ⟨rfl, hload⟩ | ⟨rfl, hload⟩
    · have hother : 4 * pair + 1 - 2 * pair = 2 * pair + 1 := by omega
      simp only [hother]
      refine ⟨?_, ?_, 2 * pair + 1, .inr rfl, by omega, hload, ?_⟩
      · rw [hthis]
      · rw [hthis, if_neg (by omega)]
      · rw [State.cluster_modCluster, if_neg (by omega), State.cluster_modCluster, if_pos rfl]
    · have hother : 4 * pair + 1 - (2 * pair + 1) = 2 * pair := by omega
      simp only [hother]
      refine ⟨?_, ?_, 2 * pair, .inl rfl, by omega, hload, ?_⟩
      · rw [hthis]
      · rw [hthis, if_pos rfl]
      · rw [hthis, if_pos rfl]
  | k + 2, hlate =>
    refine ⟨_, rfl, rfl, rfl, fun h => absurd h hlate, by omega, by omega, fun _ _ => ?_⟩
    exact (State.cluster_modCluster ..).trans (if_pos rfl)

end Sys2Proof.Machine
end
section
/-! PROOFS. O56: blocks are placed (R344 to R346). -/
namespace Sys2Proof.Machine

/-- Is a group a new one of a block of a launch, with a number from lo on and below hi (R21)? -/
def Launch.hasNew (l : Launch) (lo hi : Nat) (g : Group) : Prop :=
  ∃ p : Place, g = Group.fresh l.info p ∧ p.launch = l.id ∧ p.ctx = l.ctx ∧ lo ≤ p.blk ∧ p.blk < hi

/-- Between two states groups of a launch are placed, and no group goes. -/
def State.placed (s t : State) (l : Launch) (lo hi : Nat) : Prop :=
  (∀ g ∈ s.groups, g ∈ t.groups) ∧ ∀ g ∈ t.groups, g ∈ s.groups ∨ l.hasNew lo hi g

theorem State.placed.of_groups {s t : State} (l : Launch) (lo hi : Nat) (h : t.groups = s.groups) : s.placed t l lo hi :=
  ⟨fun _ hg => h ▸ hg, fun _ hg => .inl (h ▸ hg)⟩

theorem State.placed.trans {s t u : State} {l : Launch} {lo hi : Nat} (h : s.placed t l lo hi) (k : t.placed u l lo hi) :
    s.placed u l lo hi :=
  ⟨fun g hg => k.1 g (h.1 g hg), fun g hg => (k.2 g hg).elim (h.2 g) .inr⟩

theorem State.placed.mono {s t : State} {l : Launch} {lo hi lo' hi' : Nat} (h : s.placed t l lo hi) (hlo : lo' ≤ lo)
    (hhi : hi ≤ hi') : s.placed t l lo' hi' := by
  refine ⟨h.1, fun g hg => (h.2 g hg).imp_right ?_⟩
  rintro ⟨p, rfl, hp, hc, hb, hb'⟩
  exact ⟨p, rfl, hp, hc, hlo.trans hb, hb'.trans_le hhi⟩

theorem State.startQuantum_frame (s : State) (x core : Nat) :
    (s.startQuantum x core).groups = s.groups ∧ (s.startQuantum x core).units = s.units := by
  simp only [State.startQuantum]
  split <;> exact ⟨rfl, rfl⟩

/-- A team that is placed brings new groups of its block alone. -/
theorem State.placeTeam_placed (s : State) (l : Launch) (b t : Nat) (k : Seat) :
    s.placed (s.placeTeam l b t k) l b (b + 1) ∧ (s.placeTeam l b t k).units.launches = s.units.launches := by
  obtain ⟨hgroups, hunits⟩ := s.startQuantum_frame l.ctx k.core
  have hnew : (s.placeTeam l b t k).groups = s.groups ++ (k.at'.zip (List.range 64)).map fun e => Group.fresh l.info
      { core := k.core, quad := e.1.1, slot := e.1.2, ctx := l.ctx, part := (s.ctx l.ctx).part, launch := l.id, blk := b, team := t,
        grp := e.2, flat := (b * l.teams + t) * l.groups + e.2, bx := b % l.gx, byy := b / l.gx % l.gy,
        bz := b / (l.gx * l.gy), ngrp := l.groups } := congrArg (· ++ _) hgroups
  have hlaunches : (s.placeTeam l b t k).units.launches = (s.startQuantum l.ctx k.core).units.launches := rfl
  refine ⟨⟨fun g hg => hnew ▸ List.mem_append_left _ hg, fun g hg => ?_⟩, hlaunches.trans (congrArg Units.launches hunits)⟩
  rcases List.mem_append.mp (hnew ▸ hg) with h | h
  · exact .inl h
  · obtain ⟨e, -, rfl⟩ := List.mem_map.mp h
    exact .inr ⟨_, rfl, rfl, rfl, le_refl b, Nat.lt_succ_self b⟩

theorem State.placeTeams_placed (s : State) (l : Launch) (b t : Nat) (ks : List Seat) :
    s.placed (s.placeTeams l b t ks) l b (b + 1) ∧ (s.placeTeams l b t ks).units.launches = s.units.launches := by
  induction ks generalizing s t with
  | nil => exact ⟨.of_groups l b (b + 1) rfl, rfl⟩
  | cons k ks ih =>
    obtain ⟨hone, hlaunches⟩ := s.placeTeam_placed l b t k
    obtain ⟨hrest, hrest'⟩ := ih (s.placeTeam l b t k) (t + 1)
    exact ⟨hone.trans hrest, hrest'.trans hlaunches⟩

theorem State.steerDone_frame (s : State) (seats : List Seat) :
    (s.steerDone seats).groups = s.groups ∧ (s.steerDone seats).units = s.units := by
  unfold State.steerDone
  split
  · exact ⟨rfl, rfl⟩
  · next k hk =>
    generalize (List.range 6).map (6 * sectorOf k.core + ·) = ps
    induction ps generalizing s with
    | nil => exact ⟨rfl, rfl⟩
    | cons p r ih =>
      rw [List.foldl_cons]
      split
      · exact ih _
      · exact ih s

/-- The launch that a change of it leaves under its identity. -/
theorem State.launch?_modLaunch {s : State} {id : Nat} {f : Launch → Launch} (hf : ∀ l, (f l).id = l.id) :
    (s.modLaunch id f).launch? id = (s.launch? id).map f := by
  unfold State.launch? State.modLaunch
  simp only [State.modUnits_units, List.find?_map]
  have hsame : (fun l : Launch => l.id == id) ∘ (fun l => if l.id == id then f l else l) = fun l => l.id == id := by
    funext l
    simp only [Function.comp]
    split
    · rw [hf]
    · rfl
  rw [hsame]
  cases hl : s.units.launches.find? fun l => l.id == id with
  | none => rfl
  | some l => exact congrArg some (if_pos (List.find?_some hl))

theorem State.launch?_congr {s t : State} (h : t.units.launches = s.units.launches) (id : Nat) : t.launch? id = s.launch? id :=
  congrArg (List.find? fun l : Launch => l.id == id) h

/-- The next block of a launch is placed. -/
theorem State.placeNext_placed {s t : State} {c : Chooser} {id : Nat} {l : Launch} (hl : s.launch? id = some l)
    (h : s.placeNext c id = some t) :
    s.placed t l l.nextBlk (l.nextBlk + 1) ∧ t.launch? id = some { l with nextBlk := l.nextBlk + 1 } := by
  simp only [State.placeNext, hl] at h
  split at h
  · exact absurd h (by simp)
  next seats hseats =>
    obtain rfl := Option.some.inj h
    obtain ⟨hg, hu⟩ := s.steerDone_frame seats
    obtain ⟨hplaced, hlaunches⟩ := (s.steerDone seats).placeTeams_placed l l.nextBlk 0 seats
    refine ⟨(State.placed.of_groups l _ _ hg).trans (hplaced.trans (.of_groups l _ _ rfl)), ?_⟩
    refine (State.launch?_modLaunch (f := fun l => { l with nextBlk := l.nextBlk + 1 }) fun _ => rfl).trans ?_
    rw [State.launch?_congr (hlaunches.trans (congrArg Units.launches hu)), hl]
    rfl

/-- Several blocks of a launch are placed in one step. -/
theorem State.placeMany_placed {s t : State} {c : Chooser} {id n : Nat} {l : Launch} (hl : s.launch? id = some l)
    (h : s.placeMany c id n = some t) :
    s.placed t l l.nextBlk (l.nextBlk + n) ∧ t.launch? id = some { l with nextBlk := l.nextBlk + n } := by
  induction n generalizing s l with
  | zero =>
    obtain rfl := Option.some.inj h
    exact ⟨.of_groups l _ _ rfl, hl⟩
  | succ n ih =>
    obtain ⟨u, hu, ht⟩ := Option.bind_eq_some_iff.mp h
    obtain ⟨hone, hl'⟩ := State.placeNext_placed hl hu
    obtain ⟨hrest, hl''⟩ := ih hl' ht
    have hsum : l.nextBlk + 1 + n = l.nextBlk + (n + 1) := by omega
    rw [hsum] at hrest hl''
    have hrest' : u.placed t l l.nextBlk (l.nextBlk + (n + 1)) :=
      State.placed.mono (l := l) (lo := l.nextBlk + 1) ⟨hrest.1, hrest.2⟩ (by omega) (le_refl _)
    exact ⟨(hone.mono (le_refl _) (by omega)).trans hrest', hl''⟩

/-- A launch leaves its queue: its groups and the numbers of its blocks stay. -/
theorem State.leaveQueue_keeps {s : State} {id : Nat} {l : Launch} (hl : s.launch? id = some l) :
    (s.leaveQueue id).groups = s.groups ∧ ((s.leaveQueue id).launch? id).map (·.nextBlk) = some l.nextBlk := by
  simp only [State.leaveQueue, hl]
  split
  · exact ⟨rfl, congrArg (Option.map (·.nextBlk)) hl⟩
  · refine ⟨rfl, ?_⟩
    have hsame : (s.modCtx l.ctx (popQueue l.queue)).launch? id = some l := hl
    rw [State.launch?_modLaunch (f := fun l => { l with left := true }) fun _ => rfl, hsame]
    rfl

theorem exec_blockPlace (s : State) (id : Nat) (l : Launch) (hl : s.launch? id = some l) (hnext : l.nextBlk < l.blocks)
    (hlive : (s.ctx l.ctx).dead = false) (hfirst : s.behind l = false) (hresume : s.resumeFirst l = false)
    (hover : l.nextBlk = 0 → s.lastRunOver id = true) :
    let n := if l.coop then l.blocks - l.nextBlk else 1
    let fits := (s.placeMany (.free s.draws) id n).isSome || (s.placeMany .widest id n).isSome
    (fits = false → exec (.blockPlace id) s = .next (s.waitOrRefuse l)) ∧
    (fits = true → ∃ t : State, exec (.blockPlace id) s = .next t ∧
      (t.launch? id).map (·.nextBlk) = some (l.nextBlk + n) ∧ (∀ g ∈ s.groups, g ∈ t.groups) ∧
      ∀ g ∈ t.groups, g ∈ s.groups ∨ ∃ p : Place, g = Group.fresh l.info p ∧ p.launch = id ∧ p.ctx = l.ctx ∧
        l.nextBlk ≤ p.blk ∧ p.blk < l.nextBlk + n) := by
  intro n fits
  change (_ → execBlockPlace id s = _) ∧ (_ → ∃ t, execBlockPlace id s = .next t ∧ _)
  have hmay : ¬ (!l.placing || (s.ctx l.ctx).dead || s.behind l || s.resumeFirst l ||
      (l.nextBlk == 0 && !s.lastRunOver id)) = true := by
    have hzero : (l.nextBlk == 0 && !s.lastRunOver id) = false := by
      by_cases h0 : l.nextBlk = 0
      · simp [hover h0]
      · simp [h0]
    simp [Launch.placing, hnext, hlive, hfirst, hresume, hzero]
  have hid : l.id = id := by simpa using List.find?_some hl
  simp only [execBlockPlace, hl, if_neg hmay]
  have hdone : ∀ t u : State, s.placed t l l.nextBlk (l.nextBlk + n) → t.launch? id = some { l with nextBlk := l.nextBlk + n } →
      u.groups = (t.leaveQueue id).groups → u.units = (t.leaveQueue id).units →
      (u.launch? id).map (·.nextBlk) = some (l.nextBlk + n) ∧ (∀ g ∈ s.groups, g ∈ u.groups) ∧
      ∀ g ∈ u.groups, g ∈ s.groups ∨ ∃ p : Place, g = Group.fresh l.info p ∧ p.launch = id ∧ p.ctx = l.ctx ∧
        l.nextBlk ≤ p.blk ∧ p.blk < l.nextBlk + n := by
    intro t u hplaced hlaunch hgroups hunits
    obtain ⟨hleave, hnum⟩ := State.leaveQueue_keeps hlaunch
    have hall := hplaced.trans (.of_groups l _ _ (hgroups.trans hleave))
    refine ⟨?_, hall.1, fun g hg => ?_⟩
    · rw [State.launch?_congr (congrArg Units.launches hunits)]
      exact hnum
    · have hnew := hall.2 g hg
      simp only [Launch.hasNew, hid] at hnew
      exact hnew
  cases hfree : s.placeMany (.free s.draws) id n with
  | some t =>
    obtain ⟨hplaced, hlaunch⟩ := State.placeMany_placed hl hfree
    refine ⟨fun h => ?_, fun _ => ⟨_, rfl, hdone t _ hplaced hlaunch rfl rfl⟩⟩
    simp [fits, hfree] at h
  | none =>
    cases hwide : s.placeMany .widest id n with
    | some t =>
      obtain ⟨hplaced, hlaunch⟩ := State.placeMany_placed hl hwide
      refine ⟨fun h => ?_, fun _ => ⟨_, rfl, hdone t _ hplaced hlaunch rfl rfl⟩⟩
      simp [fits, hwide] at h
    | none =>
      refine ⟨fun _ => rfl, fun h => ?_⟩
      simp [fits, hfree, hwide] at h

/-- Settles O56: the dispatcher, the placement of blocks, and the balance actions. -/
theorem launchesAreDispatchedAndPlaced : Obligations.LaunchesAreDispatchedAndPlaced := by
  unfold Obligations.LaunchesAreDispatchedAndPlaced
  refine ⟨fun s h => ?_, exec_dispatch, exec_blockPlace, fun s pair kind h => ?_, exec_balanceAction⟩
  · change execDispatch s = _
    simp only [execDispatch, h]
  · change execBalanceAction pair kind s = _
    simp only [execBalanceAction, h]

end Sys2Proof.Machine
end

section
/-! SUPPORT. What accesses do to memory leaves everything else of the machine, and keeps the memories in canonical form. -/
namespace Sys2Proof.Machine

/-! ## Memory systems -/

/-- The memories of a memory system are in canonical form. -/
def MemSys.canonical (m : MemSys) : Bool := m.hbm.wf && m.host.wf && m.peer.wf && m.sram.wf

theorem State.memCanonical_eq (s : State) : s.memCanonical = s.mem.canonical := rfl

/-- A change of a memory system that keeps the canonical form. -/
def MemSys.keepsForm (m m' : MemSys) : Prop := m.canonical = true → m'.canonical = true

namespace MemSys.keepsForm
variable {m n k : MemSys}

theorem refl (m : MemSys) : m.keepsForm m := fun h => h
theorem trans (h : m.keepsForm n) (h' : n.keepsForm k) : m.keepsForm k := fun hm => h' (h hm)

/-- A change that leaves the bytes keeps the form. -/
theorem of_eq (h1 : n.hbm = m.hbm) (h2 : n.host = m.host) (h3 : n.peer = m.peer) (h4 : n.sram = m.sram) :
    m.keepsForm n := by
  intro h
  simpa only [MemSys.canonical, h1, h2, h3, h4] using h

theorem foldl {α : Type} {f : MemSys → α → MemSys} (h : ∀ m a, MemSys.keepsForm m (f m a)) :
    ∀ (l : List α) (m : MemSys), m.keepsForm (l.foldl f m)
  | [], m => .refl m
  | a :: l, m => (h m a).trans (foldl h l (f m a))

/-- A change of device HBM that keeps its form, and leaves the other memories. -/
theorem of_hbm (h1 : m.hbm.wf = true → n.hbm.wf = true) (h2 : n.host = m.host) (h3 : n.peer = m.peer)
    (h4 : n.sram = m.sram) : m.keepsForm n := by
  intro h
  simp only [MemSys.canonical, Bool.and_eq_true, h2, h3, h4] at h ⊢
  obtain ⟨⟨⟨a, b⟩, c⟩, d⟩ := h
  exact ⟨⟨⟨h1 a, b⟩, c⟩, d⟩

end MemSys.keepsForm

theorem MemSys.setL2_keepsForm (m : MemSys) (e : L2Line) : m.keepsForm (m.setL2 e) := .of_eq rfl rfl rfl rfl

theorem MemSys.setMxLine_keepsForm (m : MemSys) (e : MxLine) : m.keepsForm (m.setMxLine e) := .of_eq rfl rfl rfl rfl

theorem MemSys.touch_keepsForm (m : MemSys) (l : Nat) : m.keepsForm (m.touch l) := by
  obtain ⟨h1, h2, h3, h4, -⟩ := m.touch_frame l
  exact .of_eq h1 h2 h3 h4

theorem MemSys.dirtyLine_keepsForm (m : MemSys) (l : Nat) : m.keepsForm (m.dirtyLine l) := by
  obtain ⟨h1, h2, h3, h4, -⟩ := m.dirtyLine_frame l
  exact .of_eq h1 h2 h3 h4

theorem MemSys.cleanLine_keepsForm (m : MemSys) (l : Nat) : m.keepsForm (m.cleanLine l) := by
  unfold MemSys.cleanLine
  split
  · split
    · exact m.setL2_keepsForm _
    · exact .refl m
  · exact .refl m

theorem MemSys.dropLine_keepsForm (m : MemSys) (l : Nat) : m.keepsForm (m.dropLine l) := by
  unfold MemSys.dropLine
  split
  · refine .of_hbm ?_ rfl rfl rfl
    intro h
    dsimp only
    split
    · exact h
    · exact Memory.wf_write _ _ h
  · exact .refl m

theorem MemSys.dramSet_keepsForm (m : MemSys) (pa : Nat) (b : Byte) : m.keepsForm (m.dramSet pa b) := by
  unfold MemSys.dramSet
  split
  · exact m.setL2_keepsForm _
  · exact .of_hbm (Memory.wf_set pa b) rfl rfl rfl

theorem MemSys.dramWrite_keepsForm (bs : List Byte) : ∀ (m : MemSys) (pa : Nat), m.keepsForm (m.dramWrite pa bs) := by
  induction bs with
  | nil => exact fun m _ => .refl m
  | cons b r ih => exact fun m pa => (m.dramSet_keepsForm pa b).trans (ih _ _)

theorem MemSys.mxStore_keepsForm (m : MemSys) (w : MxWin) (b : Nat) (k : MxBlock) : m.keepsForm (m.mxStore w b k) :=
  (MemSys.dramWrite_keepsForm _ m _).trans (MemSys.dramWrite_keepsForm _ _ _)

theorem MemSys.mxConvert_keepsForm (m : MemSys) (w : MxWin) (line o : Nat) (bs : List Byte) :
    m.keepsForm (m.mxConvert w line o bs) := by
  refine MemSys.keepsForm.foldl (fun m h => ?_) _ m
  dsimp only
  split
  · exact .refl m
  · exact m.mxStore_keepsForm _ _ _

/-! ## States -/

/-- From one state to the next only the memory system changes, in canonical form where it was, and free values are drawn. -/
def State.memTurn (s t : State) : Prop :=
  t = { s with mem := t.mem, draws := t.draws } ∧ s.mem.keepsForm t.mem

namespace State.memTurn
variable {s t u : State}

theorem refl (s : State) : s.memTurn s := ⟨rfl, .refl _⟩
theorem drawn (s : State) : s.memTurn s.drawn := ⟨rfl, .refl _⟩
theorem trans (h : s.memTurn t) (k : t.memTurn u) : s.memTurn u := by
  refine ⟨?_, h.2.trans k.2⟩
  rw [k.1, h.1]
theorem groups (h : s.memTurn t) : t.groups = s.groups := (congrArg State.groups h.1 :)
theorem units (h : s.memTurn t) : t.units = s.units := (congrArg State.units h.1 :)
theorem plat (h : s.memTurn t) : t.plat = s.plat := (congrArg State.plat h.1 :)
theorem ns (h : s.memTurn t) : t.ns = s.ns := (congrArg State.ns h.1 :)
theorem turn (h : s.memTurn t) : t.turn = s.turn := (congrArg State.turn h.1 :)
theorem nextId (h : s.memTurn t) : t.nextId = s.nextId := (congrArg State.nextId h.1 :)
theorem group? (h : s.memTurn t) (gid : Nat) : t.group? gid = s.group? gid := by
  unfold State.group?
  rw [h.groups]

theorem memCanonical (h : s.memTurn t) (hs : s.memCanonical = true) : t.memCanonical = true := h.2 hs

/-- Lookups change the memory system alone. -/
theorem of_looksUp (h : s.looksUp t) : s.memTurn t := by
  refine ⟨?_, .of_eq h.hbm h.host h.peer h.sram⟩
  unfold State.looksUp at h
  rw [h]

/-- A change of the memory system that keeps the form. -/
theorem modMem {f : MemSys → MemSys} (h : s.mem.keepsForm (f s.mem)) : s.memTurn (s.modMem f) := ⟨rfl, h⟩

/-- A change of the memory system that leaves the bytes. -/
theorem modMem_of_eq {f : MemSys → MemSys} (h1 : (f s.mem).hbm = s.mem.hbm) (h2 : (f s.mem).host = s.mem.host)
    (h3 : (f s.mem).peer = s.mem.peer) (h4 : (f s.mem).sram = s.mem.sram) : s.memTurn (s.modMem f) :=
  modMem (.of_eq h1 h2 h3 h4)

theorem foldl {α : Type} {f : State → α → State} (h : ∀ s a, State.memTurn s (f s a)) :
    ∀ (l : List α) (s : State), s.memTurn (l.foldl f s)
  | [], s => .refl s
  | a :: l, s => (h s a).trans (foldl h l (f s a))

theorem ite {c : Prop} [Decidable c] (h : s.memTurn t) (k : s.memTurn u) : s.memTurn (if c then t else u) := by
  split
  · exact h
  · exact k

end State.memTurn

/-- What a state may become where a choice leaves nothing to do. -/
theorem State.memTurn_getD {s t : State} {o : Option State} (ho : ∀ u, o = some u → s.memTurn u) (ht : s.memTurn t) :
    s.memTurn (o.getD t) := by
  cases o with
  | none => exact ht
  | some u => exact ho u rfl

/-! ## The L2 -/

theorem State.mxFlush_memTurn (s : State) (e : MxLine) : s.memTurn (s.mxFlush e) :=
  .modMem (.foldl (fun m _ => m.mxConvert_keepsForm _ _ _ _) _ _)

theorem State.dropKey_memTurn (s : State) (k : L2Key) : s.memTurn (s.dropKey k) := by
  unfold State.dropKey
  split
  · exact .modMem (s.mem.dropLine_keepsForm _)
  · split
    · exact (s.mxFlush_memTurn _).trans (.modMem_of_eq rfl rfl rfl rfl)
    · exact .refl s
  · exact .modMem_of_eq rfl rfl rfl rfl

theorem State.putKey_memTurn (s : State) (k : L2Key) (way : Option Nat) (prio : Nat) : s.memTurn (s.putKey k way prio) := by
  unfold State.putKey
  split
  · split
    · exact .modMem (MemSys.setL2_keepsForm _ _)
    · exact .refl s
  · split
    · exact .modMem (MemSys.setMxLine_keepsForm _ _)
    · exact .refl s
  · split
    · exact (s.dropKey_memTurn _).trans (.modMem_of_eq rfl rfl rfl rfl)
    · exact s.dropKey_memTurn _

theorem State.takeWay_memTurn {s t : State} {k : L2Key} {prio : Nat} {ways : List Nat}
    (h : s.takeWay k prio ways = some t) : s.memTurn t := by
  unfold State.takeWay at h
  dsimp only at h
  split at h
  · obtain rfl := Option.some.inj h
    exact (State.memTurn.drawn s).trans (State.putKey_memTurn ..)
  · obtain ⟨r, -, rfl⟩ := Option.map_eq_some_iff.mp h
    exact ((State.memTurn.drawn s).trans (State.dropKey_memTurn ..)).trans (State.putKey_memTurn ..)

theorem State.allot_memTurn (s : State) (cls : Nat) (h : Hint) (k : L2Key) : s.memTurn (s.allot cls h k) := by
  unfold State.allot
  dsimp only
  split
  · refine State.memTurn_getD (fun u hu => ?_) (.refl s)
    cases hw : s.takeWay k (hintRank h) (List.range (s.part (s.keyPart k)).bways) with
    | some v =>
      rw [hw] at hu
      obtain rfl := Option.some.inj hu
      exact State.takeWay_memTurn hw
    | none =>
      rw [hw] at hu
      exact State.takeWay_memTurn hu
  · split
    · exact s.dropKey_memTurn k
    · exact State.memTurn_getD (fun u hu => State.takeWay_memTurn hu) (s.dropKey_memTurn k)

theorem State.settleL2_memTurn (s : State) (cls : Nat) (h : Hint) : s.memTurn (s.settleL2 cls h) :=
  .foldl (fun s k => s.allot_memTurn cls h k) _ s

/-! ## Reads and writes -/

theorem State.locWrite_memTurn (s : State) (l : Loc) (bs : List Byte) : s.memTurn (s.locWrite l bs) := by
  refine ⟨?_, fun h => memCanonical_locWrite h l bs⟩
  cases l <;> rfl

theorem State.locTouch_memTurn (s : State) (l : Loc) : s.memTurn (s.locTouch l) := by
  unfold State.locTouch
  split
  · exact .modMem (s.mem.touch_keepsForm _)
  · exact .modMem (s.mem.setMxLine_keepsForm _)
  · exact .refl s

theorem State.touchBy_memTurn (s : State) (x : Nat) (h : Hint) (l : Loc) : s.memTurn (s.touchBy x h l) :=
  (s.locTouch_memTurn l).trans (State.settleL2_memTurn ..)

theorem State.endStore_memTurn (s : State) (a : Access) : s.memTurn (s.endStore a) := by
  unfold State.endStore
  dsimp only
  exact ((s.locWrite_memTurn a.loc a.data).trans (State.settleL2_memTurn _ (s.clsOf a.ctx) a.hint)).trans
    (.modMem_of_eq rfl rfl rfl rfl)

theorem State.finishWide_memTurn (s : State) (l : Loc) : s.memTurn (s.finishWide l) :=
  .foldl (fun s a => s.endStore_memTurn a) _ s

theorem State.writeBy_memTurn (s : State) (x : Nat) (h : Hint) (l : Loc) (bs : List Byte) :
    s.memTurn (s.writeBy x h l bs) :=
  ((s.finishWide_memTurn l).trans (State.locWrite_memTurn ..)).trans (State.settleL2_memTurn ..)

theorem State.lineWriteBack_memTurn (s : State) (l : Loc) : s.memTurn (s.lineWriteBack l) := by
  unfold State.lineWriteBack
  split
  · exact .modMem (s.mem.cleanLine_keepsForm _)
  · split
    · exact (s.mxFlush_memTurn _).trans (.modMem (MemSys.setMxLine_keepsForm _ _))
    · exact .refl s
  · exact .refl s

theorem State.lineInvalidate_memTurn (s : State) (part : Nat) (l : Loc) : s.memTurn (s.lineInvalidate part l) := by
  unfold State.lineInvalidate
  dsimp only
  refine ((s.lineWriteBack_memTurn l).trans ?_).trans (.modMem_of_eq rfl rfl rfl rfl)
  split
  · split
    · exact .refl _
    · exact .modMem ((MemSys.dropLine_keepsForm _ _).trans (.of_eq rfl rfl rfl rfl))
  · exact .modMem_of_eq rfl rfl rfl rfl
  · exact .refl _

/-! ## Copies -/

theorem State.addCopy_memTurn (s : State) (c : L1Line) : s.memTurn (s.addCopy c) := by
  unfold State.addCopy
  dsimp only
  split
  · exact .modMem_of_eq rfl rfl rfl rfl
  · split
    · exact (State.memTurn.drawn s).trans (.modMem_of_eq rfl rfl rfl rfl)
    · exact .modMem_of_eq rfl rfl rfl rfl

theorem State.trimL1_memTurn (core part : Nat) : ∀ (n : Nat) (s : State), s.memTurn (s.trimL1 core part n)
  | 0, s => .refl s
  | n + 1, s => by
    unfold State.trimL1
    dsimp only
    split
    · exact .refl s
    · split
      · exact .refl s
      · split
        · exact ((State.memTurn.drawn s).trans (.modMem_of_eq rfl rfl rfl rfl)).trans (trimL1_memTurn core part n _)
        · exact .refl s

theorem State.dropCopies_memTurn (s : State) (core : Nat) (l : Loc) : s.memTurn (s.dropCopies core l) :=
  .modMem_of_eq rfl rfl rfl rfl

theorem State.acquireCore_memTurn (s : State) (core part : Nat) : s.memTurn (s.acquireCore core part) :=
  .modMem_of_eq rfl rfl rfl rfl

theorem State.fillRemote_memTurn (s : State) (a : Access) : s.memTurn (s.fillRemote a) := by
  unfold State.fillRemote
  split
  · split
    · split
      · exact (State.memTurn.drawn s).trans (State.allot_memTurn ..)
      · exact .refl s
    · exact .refl s
  · exact .refl s

theorem State.passCopy_memTurn (s : State) (a : Access) : s.memTurn (s.passCopy a) := .modMem_of_eq rfl rfl rfl rfl

theorem State.fill_memTurn (s : State) (a : Access) : s.memTurn (s.fill a) := by
  unfold State.fill
  dsimp only
  refine ((s.touchBy_memTurn a.ctx a.hint a.loc).trans (State.fillRemote_memTurn _ a)).trans ?_
  split
  · exact .refl _
  · split
    · exact .ite (State.passCopy_memTurn _ a) (State.dropCopies_memTurn ..)
    · exact State.addCopy_memTurn _ _

theorem State.fillWrite_memTurn (s : State) (a : Access) : s.memTurn (s.fillWrite a) :=
  .ite (s.addCopy_memTurn _) (.refl s)

theorem State.modAcc_memTurn (s : State) (i : Nat) (f : Access → Access) : s.memTurn (s.modAcc i f) :=
  .modMem_of_eq rfl rfl rfl rfl

theorem State.dropAcc_memTurn (s : State) (i : Nat) : s.memTurn (s.dropAcc i) := .modMem_of_eq rfl rfl rfl rfl

theorem State.serve_memTurn (s : State) (a : Access) : s.memTurn (s.serve a) :=
  (s.fill_memTurn a).trans (State.modAcc_memTurn ..)

/-! ## Engine accesses -/

/-- From one state to the next the memory system changes, in canonical form where it was, and what the engines hold of
commands in flight, of records and of arrivals; the commands in flight keep their identities, and free values are drawn. -/
def State.engTurn (s t : State) : Prop :=
  t = { s with mem := t.mem, draws := t.draws, units :=
      { s.units with cmds := t.units.cmds, recs := t.units.recs, arrivals := t.units.arrivals } } ∧
    s.mem.keepsForm t.mem ∧ t.units.cmds.map (·.id) = s.units.cmds.map (·.id)

namespace State.engTurn
variable {s t u : State}

theorem refl (s : State) : s.engTurn s := ⟨rfl, .refl _, rfl⟩
theorem of_memTurn (h : s.memTurn t) : s.engTurn t := by
  refine ⟨?_, h.2, by rw [h.units]⟩
  rw [h.1]
theorem of_looksUp (h : s.looksUp t) : s.engTurn t := .of_memTurn (.of_looksUp h)
theorem trans (h : s.engTurn t) (k : t.engTurn u) : s.engTurn u := by
  refine ⟨?_, h.2.1.trans k.2.1, k.2.2.trans h.2.2⟩
  rw [k.1, h.1]
theorem groups (h : s.engTurn t) : t.groups = s.groups := (congrArg State.groups h.1 :)
theorem plat (h : s.engTurn t) : t.plat = s.plat := (congrArg State.plat h.1 :)
theorem ns (h : s.engTurn t) : t.ns = s.ns := (congrArg State.ns h.1 :)
theorem units (h : s.engTurn t) : t.units =
    { s.units with cmds := t.units.cmds, recs := t.units.recs, arrivals := t.units.arrivals } :=
  (congrArg State.units h.1 :)
theorem saved (h : s.engTurn t) : t.units.saved = s.units.saved := (congrArg Units.saved h.units :)
/-- What the record caches hold. -/
theorem setRecs (s : State) (r : List RecEnt) : s.engTurn (s.modUnits fun u => { u with recs := r }) := ⟨rfl, .refl _, rfl⟩
theorem memCanonical (h : s.engTurn t) (hs : s.memCanonical = true) : t.memCanonical = true := h.2.1 hs

end State.engTurn

theorem State.answerCmd_id (s : State) (line : Nat) (c : Cmd) : (s.answerCmd line c).id = c.id := rfl

theorem State.lineLeaves_engTurn (s : State) (line : Nat) : s.engTurn (s.lineLeaves line) := by
  unfold State.lineLeaves
  dsimp only
  refine (State.engTurn.of_memTurn ((State.memTurn.foldl (fun s a => s.serve_memTurn a) _ s).trans
    (State.memTurn.foldl (f := fun s (e : Nat × Loc) => s.touchBy e.1 .dflt e.2)
      (fun s e => s.touchBy_memTurn _ _ _) _ _))).trans ⟨rfl, .refl _, ?_⟩
  simp [State.modUnits, Function.comp_def, State.answerCmd_id]

theorem State.engPlace_looksUp (s : State) (a : Agent) (w : Want) (va n size : Nat) :
    s.looksUp (s.engPlace a w va n size).1 := by
  unfold State.engPlace
  dsimp only
  split
  · exact .refl s
  · have h := s.placeAt_looksUp { a with handler := false } w (va % 2 ^ 64) size
    split <;> (rename_i he; rw [he] at h; exact h)

theorem State.engRead_engTurn (s : State) (a : Agent) (va n : Nat) : s.engTurn (s.engRead a va n).1 := by
  unfold State.engRead
  have h := s.engPlace_looksUp a .load va n n
  split
  · rename_i he
    rw [he] at h
    exact .of_looksUp h
  · rename_i he
    rw [he] at h
    exact ((State.engTurn.of_looksUp h).trans (.of_memTurn (State.touchBy_memTurn ..))).trans (State.lineLeaves_engTurn ..)

theorem State.engBytes_engTurn (a : Agent) (n : Nat) : ∀ (s : State) (va : Nat), s.engTurn (s.engBytes a va n).1 := by
  induction n with
  | zero => exact fun s va => .refl s
  | succ n ih =>
    intro s va
    unfold State.engBytes
    have h := s.engRead_engTurn a va 1
    split
    · rename_i he
      rw [he] at h
      exact h
    · rename_i t b he
      rw [he] at h
      have h' := ih t (va + 1)
      split <;> (rename_i he'; rw [he'] at h'; exact h.trans h')

theorem State.elemBytes_engTurn (s : State) (a : Agent) (r : TRec) (o : Nat) : s.engTurn (s.elemBytes a r o).1 := by
  unfold State.elemBytes
  dsimp only
  have h := s.engRead_engTurn a ((r.base + o / r.perCell * r.cell) % 2 ^ 64) r.cell
  split
  · rename_i he
    rw [he] at h
    exact h
  · rename_i t d he
    rw [he] at h
    split
    · exact h
    · have h' := State.engBytes_engTurn a (if r.fmt = 5 then 2 else 1) t
        ((r.scale + (if r.fmt = 5 then 2 else 1) * (o / r.blkLen)) % 2 ^ 64)
      split <;> (rename_i he'; rw [he'] at h'; exact h.trans h')

theorem State.readElem_engTurn (s : State) (a : Agent) (r : TRec) (ds : List Nat) : s.engTurn (s.readElem a r ds).1 := by
  unfold State.readElem
  split
  · exact .refl s
  · have h := s.elemBytes_engTurn a r (r.elemOff ds)
    split <;> (rename_i he; rw [he] at h; exact h)

theorem State.readPairs_engTurn (a : Agent) (x y : TRec) (l : List (List Nat × List Nat)) :
    ∀ s : State, s.engTurn (s.readPairs a x y l).1 := by
  induction l with
  | nil => exact fun s => .refl s
  | cons e r ih =>
    intro s
    obtain ⟨dx, dy⟩ := e
    unfold State.readPairs
    have h := s.readElem_engTurn a x dx
    split
    · rename_i he
      rw [he] at h
      exact h
    · rename_i t ex _ he
      have h1 : s.engTurn t := by
        rw [he] at h
        exact h
      have h2 := t.readElem_engTurn a y dy
      split
      · rename_i he'
        rw [he'] at h2
        exact h1.trans h2
      · rename_i u ey _ he'
        have h3 : t.engTurn u := by
          rw [he'] at h2
          exact h2
        exact (h1.trans h3).trans (ih u)

theorem State.readRecord_engTurn (s : State) (a : Agent) (va : Nat) : s.engTurn (s.readRecord a va).1 := by
  unfold State.readRecord
  split
  · exact .refl s
  · split
    · exact .refl s
    · have h := s.translate_looksUp a.core a.ctx a.part (va % 2 ^ 57)
      split
      · rename_i he
        rw [he] at h
        exact .of_looksUp h
      · rename_i t pte size he
        replace h : s.engTurn t := by
          rw [he] at h
          exact .of_looksUp h
        split
        · exact h
        · dsimp only
          split
          · exact h
          · split
            · exact h
            · split
              · exact h
              · split
                · exact h
                · exact (((h.trans (.of_memTurn (State.touchBy_memTurn ..))).trans (State.lineLeaves_engTurn ..)).trans
                    (.of_memTurn (.drawn _))).trans (.setRecs _ _)

end Sys2Proof.Machine
end

section
/-! SUPPORT. Units of work: what one access of an engine changes (R206, R285 to R300). -/
namespace Sys2Proof.Machine

/-- A command that is put back keeps the identities of the commands in flight. -/
theorem State.setCmd_engTurn (s : State) (c : Cmd) : s.engTurn (s.setCmd c) := by
  refine ⟨rfl, .refl _, ?_⟩
  change List.map (·.id) (s.units.cmds.map fun x => if x.id == c.id then c else x) = _
  rw [List.map_map]
  refine List.map_congr_left fun x _ => ?_
  simp only [Function.comp]
  split
  · rename_i h
    exact (beq_iff_eq.mp h).symm
  · rfl

/-- Bytes that arrive are arrivals. -/
theorem State.arriveBytes_arrivals (s : State) (c : Cmd) (core n : Nat) : s.arriveBytes c core n =
    s.modUnits fun u => { u with arrivals := (s.arriveBytes c core n).units.arrivals } := by
  unfold State.arriveBytes
  split
  · dsimp only
    split <;> rfl
  · rfl

/-- Units that are done: their bytes arrive, and the command counts them. -/
theorem State.unitsDone_eq (ks : List Nat) : ∀ (s : State) (c : Cmd), ∃ a d, s.unitsDone c ks =
    (s.modUnits fun u => { u with arrivals := a }).setCmd { c with done := d } ∧
      ∀ j, j ∈ ks ∨ j ∈ c.done → j ∈ d := by
  induction ks with
  | nil => exact fun s c => ⟨s.units.arrivals, c.done, rfl, fun j hj => hj.resolve_left (by simp)⟩
  | cons k ks ih =>
    intro s c
    unfold State.unitsDone
    split
    · rename_i hk
      obtain ⟨a, d, he, hd⟩ := ih s c
      refine ⟨a, d, he, fun j hj => hd j ?_⟩
      have hk' : k ∈ c.done := by simpa [Cmd.isDone] using hk
      rcases hj with hj | hj
      · rcases List.mem_cons.mp hj with rfl | hj
        · exact .inr hk'
        · exact .inl hj
      · exact .inr hj
    · obtain ⟨a, d, he, hd⟩ := ih (s.arriveUnit c k) { c with done := k :: c.done }
      refine ⟨a, d, he.trans ?_, fun j hj => hd j ?_⟩
      · unfold State.arriveUnit
        rw [State.arriveBytes_arrivals]
        rfl
      · rcases hj with hj | hj
        · rcases List.mem_cons.mp hj with rfl | hj
          · exact .inr (List.mem_cons_self ..)
          · exact .inl hj
        · exact .inr (List.mem_cons_of_mem _ hj)

theorem State.unitsDone_engTurn (s : State) (c : Cmd) (ks : List Nat) : s.engTurn (s.unitsDone c ks) := by
  obtain ⟨a, d, he, -⟩ := State.unitsDone_eq ks s c
  rw [he]
  exact State.engTurn.trans (t := s.modUnits fun u => { u with arrivals := a }) ⟨rfl, .refl _, rfl⟩
    (State.setCmd_engTurn _ _)

/-! ## Units that move cells -/

/-- What a unit does is an engine's access. -/
def UOut.reads (s : State) : UOut → Prop
  | .step t => s.engTurn t
  | .fault t _ _ _ _ => s.engTurn t
  | .idle => True

theorem UOut.reads_ite {s : State} {c : Prop} [Decidable c] {o p : UOut} (ho : o.reads s) (hp : p.reads s) :
    UOut.reads s (if c then o else p) := by
  split
  · exact ho
  · exact hp

theorem State.readPart_reads (s : State) (c : Cmd) (unit va cell pos : Nat) :
    (s.readPart c unit va cell pos).reads s := by
  unfold State.readPart
  split
  · trivial
  · rename_i q _
    dsimp only
    have h := s.engPlace_looksUp c.agent .load (max va (4 * q)) (min (va + cell) (4 * q + 4) - max va (4 * q)) cell
    split <;> (rename_i he; rw [he] at h)
    · exact .of_looksUp h
    · exact (State.engTurn.of_looksUp h).trans (State.setCmd_engTurn _ _)

theorem State.indexUnit_reads (s : State) (c : Cmd) (scatter : Bool) (list n cc j : Nat) :
    (s.indexUnit c scatter list n cc j).reads s := by
  unfold State.indexUnit
  dsimp only
  have h := s.engRead_engTurn c.agent ((list + 4 * j) % 2 ^ 64) 4
  split <;> (rename_i he; rw [he] at h)
  · exact h
  · refine UOut.reads_ite ?_ (UOut.reads_ite ?_ (UOut.reads_ite ?_ ?_))
    · exact h.trans (State.unitsDone_engTurn ..)
    · exact h.trans (State.unitsDone_engTurn ..)
    · exact h
    · exact h.trans (State.unitsDone_engTurn ..)

/-- A move finds its destinations by lookups, and its reads are accesses. -/
def Move.plain (m : Move) (s : State) : Prop :=
  (∀ (t : State) (a n : Nat), t.looksUp (m.place t a n).1) ∧ ∀ j, (m.read j).reads s

theorem State.writeRuns_reads (c : Cmd) (m : Move) (k : Nat) (hm : ∀ (t : State) (a n : Nat), t.looksUp (m.place t a n).1)
    (l : List (Nat × List Byte)) : ∀ s : State, (s.writeRuns c m k l).reads s := by
  induction l with
  | nil => exact fun s => .refl s
  | cons e r ih =>
    intro s
    obtain ⟨a, bs⟩ := e
    unfold State.writeRuns
    have h := hm s a bs.length
    split <;> (rename_i he; rw [he] at h)
    · exact .of_looksUp h
    · rename_i t l
      split
      · trivial
      · have h1 := (State.engTurn.of_looksUp h).trans (.of_memTurn (t.writeBy_memTurn c.ctx .dflt l bs))
        have h2 := ih (t.writeBy c.ctx .dflt l bs)
        revert h2
        cases State.writeRuns (t.writeBy c.ctx .dflt l bs) c m k r with
        | step u => exact h1.trans
        | fault u => exact h1.trans
        | idle => exact id

theorem State.moveUnit_reads (s : State) (c : Cmd) (m : Move) (n k : Nat) (hm : m.plain s) :
    (s.moveUnit c m n k).reads s := by
  obtain ⟨hplace, hread⟩ := hm
  unfold State.moveUnit
  split
  · trivial
  · dsimp only
    split
    · exact hread _
    · split
      · exact .refl s
      · have h := State.writeRuns_reads c m k hplace
          (runsOf (m.bytes n ‹Nat› (m.sharing c n ‹Nat›))) s
        split
        · rename_i he
          rw [he] at h
          exact h.trans (State.unitsDone_engTurn ..)
        · exact h

theorem Cmd.storePlace_looksUp (c : Cmd) (cell : Nat) (t : State) (a n : Nat) :
    t.looksUp (c.storePlace cell t a n).1 := t.engPlace_looksUp ..

theorem Cmd.castPlace_looksUp (c : Cmd) (core : Nat) (t : State) (a n : Nat) : t.looksUp (c.castPlace core t a n).1 := by
  unfold Cmd.castPlace
  split <;> exact .refl t

theorem State.copyUnit_reads (s : State) (c : Cmd) (dst : Nat) (starts counts : List Nat) (k : Nat) :
    (s.copyUnit c dst starts counts k).reads s :=
  s.moveUnit_reads c _ _ k ⟨c.storePlace_looksUp _, fun _ => s.readPart_reads ..⟩

theorem State.mcastUnit_reads (s : State) (c : Cmd) (off : Nat) (starts counts cores : List Nat) (k : Nat) :
    (s.mcastUnit c off starts counts cores k).reads s :=
  s.moveUnit_reads c _ _ k ⟨c.castPlace_looksUp _, fun _ => s.readPart_reads ..⟩

theorem State.gathUnit_reads (s : State) (c : Cmd) (dense list n start cc k : Nat) :
    (s.gathUnit c dense list n start cc k).reads s := by
  refine s.moveUnit_reads c _ _ k ⟨c.storePlace_looksUp _, fun j => ?_⟩
  dsimp only
  split
  · exact s.indexUnit_reads ..
  · trivial
  · exact s.readPart_reads ..

theorem State.scatUnit_reads (s : State) (c : Cmd) (dense n start cc k : Nat) :
    (s.scatUnit c dense n start cc k).reads s := by
  unfold State.scatUnit
  dsimp only
  split
  · trivial
  · exact s.unitsDone_engTurn ..
  · exact s.moveUnit_reads c _ _ k ⟨c.storePlace_looksUp _, fun _ => s.readPart_reads ..⟩

theorem State.sendUnit_reads (s : State) (c : Cmd) (src k : Nat) : (s.sendUnit c src k).reads s :=
  UOut.reads_ite (s.unitsDone_engTurn ..) (s.readPart_reads ..)

theorem State.recvUnit_reads (s : State) (c : Cmd) (buf len status : Nat) (m : Msg) (k : Nat) :
    (s.recvUnit c buf len status m k).reads s := by
  refine UOut.reads_ite (UOut.reads_ite (s.unitsDone_engTurn ..) ?_) (UOut.reads_ite ?_ trivial)
  · exact s.moveUnit_reads c _ _ k ⟨c.storePlace_looksUp _, fun _ => trivial⟩
  · exact s.moveUnit_reads c _ _ k ⟨c.storePlace_looksUp _, fun _ => trivial⟩

/-! ## Units that compute -/

/-- From one state to the next the engines work: memory stays in canonical form, the saved blocks stay, and the masks of the
resident groups stay well formed. -/
def State.unitTurn (s t : State) : Prop :=
  s.mem.keepsForm t.mem ∧ t.units.saved = s.units.saved ∧
    (s.groups.all Group.masksOk = true → t.groups.all Group.masksOk = true)

namespace State.unitTurn
variable {s t u : State}

theorem trans (h : s.unitTurn t) (k : t.unitTurn u) : s.unitTurn u :=
  ⟨h.1.trans k.1, k.2.1.trans h.2.1, fun hs => k.2.2 (h.2.2 hs)⟩
theorem of_engTurn (h : s.engTurn t) : s.unitTurn t := ⟨h.2.1, h.saved, fun hs => by rw [h.groups]; exact hs⟩

/-- A group whose masks are those of a resident one may be put back. -/
theorem setGroup {g h : Group} {i : Nat} (hg : s.group? i = some h) (hm : g.masksOk = h.masksOk) :
    s.unitTurn (s.setGroup g) := by
  refine ⟨.refl _, rfl, fun hs => ?_⟩
  rw [List.all_eq_true] at hs ⊢
  intro x hx
  obtain ⟨y, hy, rfl⟩ := List.mem_map.mp hx
  split
  · exact hm.trans (hs h (List.mem_of_find?_eq_some hg))
  · exact hs y hy

/-- An element of a tile of a resident group is written. -/
theorem setTile {g : Group} {i : Nat} (hg : s.group? i = some g) (t row col : Nat) (w : Word) :
    s.unitTurn (s.setGroup (g.setTile t row col w)) := setGroup hg rfl

end State.unitTurn

/-- What a unit does: it works on, or its access faults. -/
def UOut.turns (s : State) : UOut → Prop
  | .step t => s.unitTurn t
  | .fault t _ _ _ _ => s.engTurn t
  | .idle => True

theorem UOut.reads.turns {s : State} {o : UOut} (h : o.reads s) : o.turns s := by
  cases o with
  | step t => exact .of_engTurn h
  | fault t => exact h
  | idle => trivial

theorem UOut.turns_ite {s : State} {c : Prop} [Decidable c] {o p : UOut} (ho : o.turns s) (hp : p.turns s) :
    UOut.turns s (if c then o else p) := by
  split
  · exact ho
  · exact hp

theorem State.mmacUnit_turns (s : State) (c : Cmd) (b : List Word) (segs : List Nat) (k : Nat) :
    (s.mmacUnit c b segs k).turns s := by
  unfold State.mmacUnit
  dsimp only
  split
  · exact State.unitTurn.of_engTurn (s.unitsDone_engTurn ..)
  · exact State.unitTurn.of_engTurn (s.unitsDone_engTurn ..)
  · trivial
  · rename_i g y hg _
    have h := fun l => State.readPairs_engTurn c.agent (c.record 0) y l s
    split <;> (rename_i he; replace h := (congrArg (fun p => s.engTurn p.1) he).mp (h _))
    · exact h
    · rename_i t l
      have hg' : t.group? c.grp = some g := by
        unfold State.group? at hg ⊢
        rw [h.groups]
        exact hg
      have h' := State.unitTurn.of_engTurn h
      exact UOut.turns_ite ((h'.trans (.setTile hg' _ _ _ _)).trans (.of_engTurn (State.unitsDone_engTurn ..)))
        ((h'.trans (.setTile hg' _ _ _ _)).trans (.of_engTurn (State.setCmd_engTurn ..)))

theorem State.mzroUnit_turns (s : State) (c : Cmd) (mask k : Nat) : (s.mzroUnit c mask k).turns s := by
  unfold State.mzroUnit
  split
  · exact State.unitTurn.of_engTurn (s.unitsDone_engTurn ..)
  · rename_i g hg
    exact (State.unitTurn.setTile hg _ _ _ _).trans (.of_engTurn (State.unitsDone_engTurn ..))

theorem State.maccUnit_turns (s : State) (c : Cmd) (d e : Nat) (int sati : Bool) (k : Nat) :
    (s.maccUnit c d e int sati k).turns s := by
  unfold State.maccUnit
  split
  · exact State.unitTurn.of_engTurn (s.unitsDone_engTurn ..)
  · rename_i g hg
    exact (State.unitTurn.setTile hg _ _ _ _).trans (.of_engTurn (State.unitsDone_engTurn ..))

theorem State.unitStep_turns (s : State) (c : Cmd) (k : Nat) : (s.unitStep c k).turns s := by
  unfold State.unitStep
  refine UOut.turns_ite trivial ?_
  split
  · exact (s.copyUnit_reads ..).turns
  · exact (s.mcastUnit_reads ..).turns
  · exact UOut.turns_ite (s.indexUnit_reads ..).turns (s.gathUnit_reads ..).turns
  · exact UOut.turns_ite (s.indexUnit_reads ..).turns (s.scatUnit_reads ..).turns
  · exact s.mmacUnit_turns ..
  · exact s.mzroUnit_turns ..
  · exact s.maccUnit_turns ..
  · exact (s.sendUnit_reads ..).turns
  · split
    · exact (s.recvUnit_reads ..).turns
    · trivial

end Sys2Proof.Machine
end

section
/-! PROOFS. O54: the engines step on (R285 to R308). -/
namespace Sys2Proof.Machine

/-! ## Commands in flight -/

theorem State.cmd?_id {s : State} {i : Nat} {c : Cmd} (h : s.cmd? i = some c) : c.id = i :=
  beq_iff_eq.mp (List.find?_some (p := fun x : Cmd => x.id == i) h)

/-- A command that is put back is found, where one of its identity was. -/
theorem State.cmd?_setCmd {s : State} {c y : Cmd} (h : s.cmd? c.id = some y) : (s.setCmd c).cmd? c.id = some c := by
  unfold State.cmd? at h ⊢
  change List.find? (fun x : Cmd => x.id == c.id) (s.units.cmds.map fun x => if x.id == c.id then c else x) = _
  rw [List.find?_map]
  have hsame : (fun x : Cmd => x.id == c.id) ∘ (fun x => if x.id == c.id then c else x) = fun x => x.id == c.id := by
    funext x
    simp only [Function.comp]
    split
    · rename_i hx
      rw [hx]
      exact beq_self_eq_true _
    · rfl
  rw [hsame, h]
  exact congrArg some (if_pos (List.find?_some h))

/-- Putting a command back leaves the commands of other identities. -/
theorem State.cmd?_setCmd_ne {s : State} {c : Cmd} {i : Nat} (h : i ≠ c.id) : (s.setCmd c).cmd? i = s.cmd? i := by
  unfold State.cmd?
  change List.find? (fun x : Cmd => x.id == i) (s.units.cmds.map fun x => if x.id == c.id then c else x) = _
  generalize s.units.cmds = l
  induction l with
  | nil => rfl
  | cons a r ih =>
    simp only [List.map_cons, List.find?_cons, ih]
    cases ha : a.id == c.id with
    | true =>
      have hc : (c.id == i) = false := beq_eq_false_iff_ne.mpr fun e => h e.symm
      have ha' : (a.id == i) = false := by
        rw [beq_iff_eq.mp ha]
        exact hc
      simp only [if_true, hc, ha']
    | false => simp only [Bool.false_eq_true, if_false]

/-- Where the identities stay, a command in flight is found again. -/
theorem State.cmd?_of_ids {s t : State} {i : Nat} {c : Cmd} (h : t.units.cmds.map (·.id) = s.units.cmds.map (·.id))
    (hc : s.cmd? i = some c) : ∃ y, t.cmd? i = some y := by
  have hi : i ∈ t.units.cmds.map (·.id) := by
    rw [h]
    exact List.mem_map.mpr ⟨c, List.mem_of_find?_eq_some hc, State.cmd?_id hc⟩
  obtain ⟨y, hy, hyi⟩ := List.mem_map.mp hi
  rw [← Option.isSome_iff_exists]
  exact List.find?_isSome.mpr ⟨y, hy, beq_iff_eq.mpr hyi⟩

/-! ## The end of launches -/

theorem State.finishLaunches_frame (s : State) : s.finishLaunches = { s with
    units := { s.units with launches := s.finishLaunches.units.launches }
    mem := { s.mem with code := s.finishLaunches.mem.code }
    plat := { s.plat with ctxs := s.finishLaunches.plat.ctxs } } := by
  unfold State.finishLaunches
  generalize s.units.launches = l
  induction l generalizing s with
  | nil => rfl
  | cons a r ih =>
    rw [List.foldl_cons]
    have h := s.launchDone_frame a.id
    exact (ih (s.launchDone a.id)).trans (by rw [h])

/-! ## Commands start, go on and complete -/

/-- A command that is done leaves its engine (R285). -/
theorem exec_engineCommandComplete {s : State} {id : Nat} {c : Cmd} (hc : s.cmd? id = some c) (hf : c.finished = true) :
    ∃ t : State, exec (.engineCommandComplete id) s = .next t ∧ t.cmd? id = none ∧
      t.groups = s.groups ∧ t.mem = { s.mem with code := t.mem.code } ∧
      t.units.decrements = s.units.decrements ++ (match c.compl with
        | .task k => [(clusterOf c.core, c.ctx, k)]
        | _ => []) := by
  have hstep : exec (.engineCommandComplete id) s = .next (((s.arriveBytes c c.core c.lastBytes).modUnits fun u => { u with
      cmds := u.cmds.filter fun y => y.id != id
      decrements := match c.compl with
        | .task k => u.decrements ++ [(clusterOf c.core, c.ctx, k)]
        | _ => u.decrements }).finishLaunches) := by
    change execEngineCommandComplete id s = _
    unfold execEngineCommandComplete
    simp only [hc, hf, if_true] <;> rfl
  refine ⟨_, hstep, ?_⟩
  rw [State.finishLaunches_frame, State.arriveBytes_arrivals]
  refine ⟨List.find?_eq_none.mpr fun x hx => ?_, rfl, rfl, ?_⟩
  · have hne := (List.mem_filter.mp hx).2
    simpa using hne
  · dsimp only [State.modUnits]
    split <;> simp

/-- The sub-record of a segment is read once and checked (R300). -/
theorem exec_segmentSubrecordRead {s s' : State} {id seg : Nat} {c : Cmd} {b : List Word} {segs : List Nat}
    {bs : List Byte} (hc : s.cmd? id = some c) (hk : c.kind = .mmac b segs) (hr : c.state = .running)
    (ht : (s.part c.part).tokleft ≠ 0) (hi : (c.record 1).indexed = true) (he : segs.getD seg 0xFFFF ≠ 0xFFFF)
    (hm : seg * (c.record 1).segrows < mnSize (bits (blkWord b 4) 2 2)) (hq : ∀ q ∈ c.subRecs, q.1 ≠ seg)
    (hn : segs.getD seg 0xFFFF < (c.record 1).nsub)
    (hread : s.readRecord c.agent (((c.record 1).scale + 64 * segs.getD seg 0xFFFF) % 2 ^ 64) = (s', .ok bs))
    (hkey : (TRec.ofBytes bs).keyOk c.ring false = true) (hplain : (TRec.ofBytes bs).plainOk = true)
    (hfmt : (TRec.ofBytes bs).fmt = (c.record 1).fmt) (hblk : (TRec.ofBytes bs).blk = (c.record 1).blk)
    (hbox : if bit (blkWord b 4) 7 then boxOk (TRec.ofBytes bs) [blkWord b 6 % 65536, blkWord b 6 / 65536]
        [bits (blkWord b 4) 16 16, mnSize (bits (blkWord b 4) 4 2)] = true
      else boxOk (TRec.ofBytes bs) [blkWord b 6 / 65536, blkWord b 6 % 65536]
        [mnSize (bits (blkWord b 4) 4 2), bits (blkWord b 4) 16 16] = true) :
    exec (.segmentSubrecordRead id seg) s = .next (s'.setCmd { c with subRecs := (seg, bs) :: c.subRecs }) := by
  change execSegmentSubrecordRead id seg s = _
  have hany : (c.subRecs.any fun q => q.1 == seg) = false := by
    rw [List.any_eq_false]
    exact fun q hqm => by simpa using hq q hqm
  have hbox' : boxOk (TRec.ofBytes bs)
      (if bit (blkWord b 4) 7 then [blkWord b 6 % 65536, blkWord b 6 / 65536]
        else [blkWord b 6 / 65536, blkWord b 6 % 65536])
      (if bit (blkWord b 4) 7 then [bits (blkWord b 4) 16 16, mnSize (bits (blkWord b 4) 4 2)]
        else [mnSize (bits (blkWord b 4) 4 2), bits (blkWord b 4) 16 16]) = true := by
    split at hbox
    · rename_i h
      simp only [h, if_true]
      exact hbox
    · rename_i h
      simp only [h]
      exact hbox
  have he' : ¬ segs[seg]?.getD 0xFFFF = 0xFFFF := by simpa using he
  have hstate : (c.state != .running) = false := by
    rw [hr]
    rfl
  unfold execSegmentSubrecordRead
  simp only [hc, hk]
  rw [if_neg (by simp [hstate, ht, hi, he', hany, Nat.not_le.mpr hm] : ¬ _), if_neg (Nat.not_le.mpr hn)]
  simp only [hread]
  rw [if_neg (by simp [hkey] : ¬ _), if_neg (by simp [hplain, hfmt, hblk] : ¬ _), if_neg (by rw [hbox']; decide : ¬ _)]

/-! ## Faults -/

/-- An output that keeps its old value is an element of a tile of the group. -/
theorem State.restoreOut_cases (s : State) (c : Cmd) (k : Nat) : s.restoreOut c k = s ∨ ∃ g t i j w,
    s.group? c.grp = some g ∧ s.restoreOut c k = s.setGroup (g.setTile t i j w) := by
  unfold State.restoreOut
  split
  · rename_i hg _
    exact .inr ⟨_, _, _, _, _, hg, rfl⟩
  · exact .inl rfl

/-- A group that is put back is found, where one of its identity was. -/
theorem State.group?_setGroup_of {s : State} {g h : Group} {i : Nat} (hi : g.gid = i) (hg : s.group? i = some h) :
    (s.setGroup g).group? i = some g := by
  subst hi
  exact State.group?_setGroup hg

/-- A fault of an engine becomes the group's pending fault, or is counted beside the one that is pending (R286). -/
theorem State.asyncFault_spec {s : State} {gid : Nat} {g : Group} (hg : s.group? gid = some g)
    (cause subc pos pc va : Nat) : ∃ (t : State) (a : AsyncFault),
      s.asyncFault gid cause subc pos pc va = t.setGroup { g with async := some a } ∧
      t.groups = s.groups ∧ t.units = s.units ∧ (cause ≠ 0x0F → t.plat = s.plat) ∧
      s.mem.keepsForm t.mem ∧
      (∀ f, g.async = some f → a = { f with lost := f.lost + 1 }) ∧
      (g.async = none → a.cause = cause ∧ a.subc = subc ∧ a.pos = pos ∧ a.cmdpc = pc ∧ a.vaddr = va ∧ a.lost = 0) := by
  unfold State.asyncFault
  simp only [hg]
  have hu := State.memTurn.of_looksUp (s.useRegs_looksUp g.place.ctx)
  generalize s.useRegs g.place.ctx = r at hu
  obtain ⟨u, r⟩ := r
  dsimp only at hu ⊢
  have hw : ∀ (v : State) (o b n : Nat), v.memTurn (if u.ownsRange g.place.part (r.fltlog + 32 * gid) 32 then
      v.writeBy g.place.ctx .dflt (.hbm (r.fltlog + 32 * gid + o)) (leBytes n b) else v) :=
    fun v o b n => .ite (v.writeBy_memTurn ..) (.refl v)
  split
  · rename_i f hf
    have h := hu.trans (hw u 0x18 (f.lost + 1) 4)
    refine ⟨_, _, rfl, h.groups, h.units, fun _ => h.plat, h.2, ?_, fun hn => absurd (hf.symm.trans hn) (by simp)⟩
    intro f' hf'
    obtain rfl := Option.some.inj (hf.symm.trans hf')
    rfl
  · rename_i hn
    have h := hu.trans (State.memTurn.foldl (f := fun (v : State) (e : Nat × Nat × Nat) =>
      if u.ownsRange g.place.part (r.fltlog + 32 * gid) 32 then
        v.writeBy g.place.ctx .dflt (.hbm (r.fltlog + 32 * gid + e.1)) (leBytes e.2.2 e.2.1) else v)
      (fun v e => hw v e.1 e.2.1 e.2.2)
      [(0x00, gid, 4), (0x04, pc, 4), (0x08, subc, 4), (0x0C, pos, 4), (0x10, va, 8), (0x18, 0, 4), (0x1C, 0, 4)] u)
    by_cases hcause : cause = 0x0F
    · rw [if_pos hcause]
      exact ⟨_, _, rfl, h.groups, h.units, fun hne => absurd hcause hne, h.2, fun f hf => absurd (hn.symm.trans hf) (by simp),
        fun _ => ⟨rfl, rfl, rfl, rfl, rfl, rfl⟩⟩
    · rw [if_neg hcause]
      exact ⟨_, _, rfl, h.groups, h.units, fun _ => h.plat, h.2, fun f hf => absurd (hn.symm.trans hf) (by simp),
        fun _ => ⟨rfl, rfl, rfl, rfl, rfl, rfl⟩⟩

/-- A fault for a group that is gone is lost. -/
theorem State.asyncFault_none {s : State} {gid : Nat} (hg : s.group? gid = none) (cause subc pos pc va : Nat) :
    s.asyncFault gid cause subc pos pc va = s := by
  unfold State.asyncFault
  rw [hg]

/-- The units that a fault leaves unwritten count as done, and the group has a pending fault (R286). -/
theorem exec_engineFault {s s' : State} {id k u subc pos va : Nat} {c : Cmd} (hc : s.cmd? id = some c)
    (ht : (s.part c.part).tokleft ≠ 0) (ha : s.awaited c = true ∨ s.cmdStalls c = false)
    (hu : s.unitStep c k = .fault s' u subc pos va) :
    ∃ t : State, exec (.engineFault id k) s = .next t ∧
      (∃ x : Cmd, t.cmd? id = some x ∧ ∀ j ∈ c.lostUnits u, j ∈ x.done ∧ j ∈ x.faulted) ∧
      ∀ g, s'.group? c.grp = some g → ∃ h : Group, t.group? c.grp = some h ∧ h.spc = g.spc ∧ h.trap = g.trap ∧
        (∀ f, g.async = some f → h.async = some { f with lost := f.lost + 1 }) ∧
        (g.async = none → ∃ f : AsyncFault, h.async = some f ∧ f.cause = 0x0F ∧ f.subc = subc ∧ f.pos = pos ∧
          f.cmdpc = c.pc ∧ f.vaddr = va ∧ f.lost = 0) := by
  have hstep : exec (.engineFault id k) s = .next (((s'.restoreOut c u).unitsDone
      { c with faulted := c.lostUnits u ++ c.faulted, prog := c.prog.filter fun p => p.out != u }
      (c.lostUnits u)).asyncFault c.grp 0x0F subc pos c.pc va) := by
    change execEngineFault id k s = _
    unfold execEngineFault
    have hgo : ¬ ((s.part c.part).tokleft = 0 ∨ (s.awaited c = false ∧ s.cmdStalls c = true)) := by
      rcases ha with ha | ha <;> simp [ht, ha]
    simp only [hc, hu, Bool.or_eq_true, Bool.and_eq_true, decide_eq_true_eq, Bool.not_eq_true', if_neg hgo]
  refine ⟨_, hstep, ?_⟩
  have hturn : s.engTurn s' := by
    have h := s.unitStep_turns c k
    rw [hu] at h
    exact h
  have hcid := State.cmd?_id hc
  obtain ⟨a, d, hdone, hd⟩ := State.unitsDone_eq (c.lostUnits u) (s'.restoreOut c u)
    { c with faulted := c.lostUnits u ++ c.faulted, prog := c.prog.filter fun p => p.out != u }
  have hcmds : (s'.restoreOut c u).units = s'.units := by
    rcases s'.restoreOut_cases c u with h | ⟨_, _, _, _, _, -, h⟩ <;> rw [h]; rfl
  have hgroup : ∀ g, s'.group? c.grp = some g → ∃ h, (s'.restoreOut c u).group? c.grp = some h ∧ h.spc = g.spc ∧
      h.trap = g.trap ∧ h.async = g.async := by
    intro g hg
    rcases s'.restoreOut_cases c u with h | ⟨g', t, i, j, w, hg', h⟩ <;> rw [h]
    · exact ⟨g, hg, rfl, rfl, rfl⟩
    · obtain rfl := Option.some.inj (hg.symm.trans hg')
      exact ⟨_, State.group?_setGroup_of (g := g.setTile t i j w) (State.group?_gid hg :) hg, rfl, rfl, rfl⟩
  rw [hdone]
  generalize hv : ((s'.restoreOut c u).modUnits fun u => { u with arrivals := a }) = v
  have hvu : v.units.cmds = s'.units.cmds := by
    rw [← hv]
    exact (congrArg Units.cmds hcmds :)
  have hvg : v.groups = (s'.restoreOut c u).groups := by rw [← hv]; rfl
  generalize hx : ({ c with
    faulted := c.lostUnits u ++ c.faulted
    prog := c.prog.filter fun p => p.out != u
    done := d } : Cmd) = x
  have hxid : x.id = id := by
    rw [← hx]
    exact hcid
  have hfound : (v.setCmd x).cmd? id = some x := by
    obtain ⟨y, hy⟩ := State.cmd?_of_ids (t := v) (by rw [hvu]; exact hturn.2.2) hc
    rw [← hxid] at hy ⊢
    exact State.cmd?_setCmd hy
  have hlost : ∀ j ∈ c.lostUnits u, j ∈ x.done ∧ j ∈ x.faulted := by
    rw [← hx]
    exact fun j hj => ⟨hd j (.inl hj), List.mem_append_left _ hj⟩
  have hsame : ∀ i, (v.setCmd x).group? i = (s'.restoreOut c u).group? i := by
    intro i
    change List.find? _ v.groups = _
    rw [hvg]
    rfl
  cases hg : (v.setCmd x).group? c.grp with
  | none =>
    rw [State.asyncFault_none hg]
    refine ⟨⟨x, hfound, hlost⟩, fun g hg' => ?_⟩
    obtain ⟨h, hh, -⟩ := hgroup g hg'
    rw [← hsame, hg] at hh
    exact absurd hh (by simp)
  | some g0 =>
    obtain ⟨t, b, ht', htg, htu, -, -, hsome, hnone⟩ := State.asyncFault_spec hg 0x0F subc pos c.pc va
    rw [ht']
    refine ⟨⟨x, ?_, hlost⟩, fun g hg' => ?_⟩
    · change List.find? _ t.units.cmds = _
      rw [htu]
      exact hfound
    · obtain ⟨h, hh, hspc, htrap, hasync⟩ := hgroup g hg'
      obtain rfl : g0 = h := Option.some.inj (hg.symm.trans ((hsame _).trans hh))
      have hgid := State.group?_gid hg
      refine ⟨{ g0 with async := some b }, ?_, hspc, htrap, fun f hf => ?_, fun hf => ?_⟩
      · refine State.group?_setGroup_of (g := { g0 with async := some b }) (h := g0) hgid ?_
        change List.find? _ t.groups = _
        rw [htg]
        exact hg
      · exact congrArg some (hsome f (hasync.trans hf))
      · exact ⟨b, rfl, hnone (hasync.trans hf)⟩

/-! ## Messages -/

/-- The sender's register reads the status, and the command has been answered (R304). -/
theorem State.tellSender_spec {s : State} {c y : Cmd} {src len dst tag reg : Nat} {b : Bool}
    (hk : c.kind = .send src len dst tag reg b) (hc : s.cmd? c.id = some y) (status : Nat) :
    (s.tellSender c status).cmd? c.id = some { c with kind := .send src len dst tag reg true } ∧
    (s.tellSender c status).units = (s.setCmd { c with kind := .send src len dst tag reg true }).units ∧
    (s.tellSender c status).plat = s.plat ∧
    (∀ g, s.group? c.grp = some g →
      ((s.tellSender c status).group? c.grp).map (·.getS reg) = some (BitVec.ofNat 32 status)) ∧
    ∀ h ∈ (s.tellSender c status).groups, ∃ g ∈ s.groups, h.async = g.async ∧ h.place = g.place := by
  generalize hc' : ({ c with kind := .send src len dst tag reg true } : Cmd) = c'
  have hid : c'.id = c.id := by rw [← hc']
  have hfound : (s.setCmd c').cmd? c.id = some c' := by
    rw [← hid] at hc ⊢
    exact State.cmd?_setCmd hc
  unfold State.tellSender
  simp only [hk]
  rw [hc']
  have hgs : ∀ i, (s.setCmd c').group? i = s.group? i := fun _ => rfl
  rw [hgs]
  cases hg : s.group? c.grp with
  | none => exact ⟨hfound, rfl, rfl, fun g hg' => absurd hg' (by simp), fun h hh => ⟨h, hh, rfl, rfl⟩⟩
  | some g =>
    have hgid := State.group?_gid hg
    refine ⟨hfound, rfl, rfl, fun g' _ => ?_, fun h hh => ?_⟩
    · rw [State.group?_setGroup_of (s := s.setCmd c') (g := g.setS reg _) hgid hg]
      simp [Group.getS, Group.setS, tget_tset_same]
    · obtain ⟨x, hx, rfl⟩ := List.mem_map.mp hh
      split
      · exact ⟨g, List.mem_of_find?_eq_some hg, rfl, rfl⟩
      · exact ⟨x, hx, rfl, rfl⟩

/-- What a fault for each of some groups leaves: who they are, the commands, and the registers of the platform; each of them
has a pending fault. -/
theorem State.asyncFaults_spec (gs : List Group) (pos : Nat) : ∀ s : State,
    let t := gs.foldl (fun s g => s.asyncFault g.gid 0x0E 0 pos 0 0) s
    t.units = s.units ∧ t.plat = s.plat ∧ (∀ i, (t.group? i).isSome = (s.group? i).isSome) ∧
      ∀ h ∈ t.groups, h.async ≠ none ∨ (h ∈ s.groups ∧ ∀ g ∈ gs, g.gid ≠ h.gid) := by
  induction gs with
  | nil => exact fun s => ⟨rfl, rfl, fun _ => rfl, fun h hh => .inr ⟨hh, by simp⟩⟩
  | cons g gs ih =>
    intro s
    rw [List.foldl_cons]
    obtain ⟨hu, hp, hi, ha⟩ := ih (s.asyncFault g.gid 0x0E 0 pos 0 0)
    cases hg : s.group? g.gid with
    | none =>
      rw [State.asyncFault_none hg] at hu hp hi ha ⊢
      refine ⟨hu, hp, hi, fun h hh => (ha h hh).imp_right fun ⟨hm, hne⟩ => ⟨hm, ?_⟩⟩
      intro x hx
      rcases List.mem_cons.mp hx with rfl | hx
      · intro he
        have hnone := List.find?_eq_none.mp hg h hm
        exact hnone (beq_iff_eq.mpr he.symm)
      · exact hne x hx
    | some g0 =>
      obtain ⟨t, b, ht, htg, htu, htp, -, -, -⟩ := State.asyncFault_spec hg 0x0E 0 pos 0 0
      have hgid := State.group?_gid hg
      rw [ht] at hu hp hi ha ⊢
      refine ⟨hu.trans htu, hp.trans (htp (by decide)), fun i => (hi i).trans ?_, fun h hh => ?_⟩
      · by_cases he : i = g0.gid
        · have h0 : t.group? g0.gid = some g0 := by
            unfold State.group? at hg ⊢
            rw [htg, hgid]
            exact hg
          rw [he, State.group?_setGroup_of (g := { g0 with async := some b }) rfl h0, hgid, hg]
          rfl
        · rw [State.group?_setGroup_ne (g := { g0 with async := some b }) he]
          unfold State.group?
          rw [htg]
      · rcases ha h hh with ha | ⟨hm, hne⟩
        · exact .inl ha
        · obtain ⟨x, hx, rfl⟩ := List.mem_map.mp hm
          rw [htg] at hx
          split
          · exact .inl (by simp)
          · rename_i hxg
            refine .inr ⟨hx, fun y hy => ?_⟩
            rcases List.mem_cons.mp hy with rfl | hy
            · intro he
              exact hxg (beq_iff_eq.mpr (he.symm.trans hgid.symm))
            · have := hne y hy
              simpa [hxg] using this

/-- A command that may be the posted receive of a message gets it (R305). -/
def giveMsg (p : Posted) (m : Msg) (y : Cmd) : Cmd :=
  match y.kind with
  | .recv buf blen src t status _ =>
    if y.id == p.cmd then { y with kind := .recv buf blen src t status (some m), total := min m.len blen + 4 } else y
  | _ => y

theorem giveMsg_id (p : Posted) (m : Msg) (y : Cmd) : (giveMsg p m y).id = y.id := by
  unfold giveMsg
  split
  · split <;> rfl
  · rfl

/-- A command found by its identity among commands that keep theirs. -/
theorem find?_map_of_id {f : Cmd → Cmd} (hf : ∀ y, (f y).id = y.id) (i : Nat) (l : List Cmd) :
    (l.map f).find? (fun y => y.id == i) = (l.find? fun y => y.id == i).map f := by
  rw [List.find?_map]
  congr 1
  refine congrArg (fun p => List.find? p l) ?_
  funext y
  simp only [Function.comp, hf]

/-- The message that a command sends, as it arrives (R304). -/
def Cmd.message (c : Cmd) (src len tag : Nat) : Msg :=
  { src := clusterOf c.core, tag := tag, len := len, fromQ := false, holes := c.faulted,
    data := (List.range len).map fun k => ((c.cellAt? ((src + k) % 2 ^ 64) 1).getD []).getD 0 0 }

/-- A posted receive takes a message. -/
def State.givesMsg (s : State) (p : Posted) (m : Msg) : State :=
  s.modUnits fun u => { u with
    posted := u.posted.erase p
    cmds := u.cmds.map (giveMsg p m)
    saved := u.saved.map fun k => { k with cmds := k.cmds.map (giveMsg p m) } }

/-- The overflow queue takes a message. -/
def State.keepsMsg (s : State) (o : Overflow) : State := s.modUnits fun u => { u with overflow := u.overflow ++ [o] }

section
variable {s : State} {id : Nat} {c : Cmd} {src len dst tag reg : Nat} (hc : s.cmd? id = some c)
  (hk : c.kind = .send src len dst tag reg false) (hr : c.state = .running) (hd : c.done.length = len)
  (hb : s.sendsBefore c dst tag = false)
include hc hk hr hd hb

/-- A message whose bytes have all been read, with no earlier one before it, arrives (R304). -/
theorem exec_messageArrival : exec (.messageArrival id) s =
    if !(s.groups.any fun g => g.place.ctx == c.ctx && clusterOf g.place.core == dst) then .next (s.tellSender c 3)
    else
      match s.units.posted.find? fun p => p.cluster == dst && p.ctx == c.ctx && msgMatches p.src p.tag (c.message src len tag) with
      | some p => .next ((s.givesMsg p (c.message src len tag)).tellSender c 0)
      | none =>
        if (s.units.overflow.filter fun o => o.cluster == dst && o.part == c.part).length < s.recvShare dst c.part then
          .next (((s.keepsMsg { cluster := dst, ctx := c.ctx, part := c.part, msg := c.message src len tag }).raiseEvent
            dst c.ctx 250).tellSender c 1)
        else
          .next (((s.refuseFaults dst c.ctx (65536 * clusterOf c.core + tag)).raiseEvent dst c.ctx 251).tellSender c 2) := by
  change execMessageArrival id s = _
  unfold execMessageArrival
  have hgo : ¬ (false || c.state != .running || c.done.length != len || s.sendsBefore c dst tag) = true := by
    rw [hr, hd, hb]
    simp
  simp only [hc, hk]
  rw [if_neg hgo]
  rfl

/-- What the sender of a message learns of it. -/
def toldOf (s : State) (id : Nat) (c : Cmd) (src len dst tag reg status : Nat) (t : State) : Prop :=
  exec (.messageArrival id) s = .next t ∧ t.cmd? id = some { c with kind := .send src len dst tag reg true } ∧
    ∀ g, s.group? c.grp = some g → (t.group? c.grp).map (·.getS reg) = some (BitVec.ofNat 32 status)

omit hr hd hb in
theorem toldOf_tellSender {u : State} {status : Nat} (hstep : exec (.messageArrival id) s = .next (u.tellSender c status))
    (hids : u.units.cmds.map (·.id) = s.units.cmds.map (·.id))
    (hgs : ∀ g, s.group? c.grp = some g → ∃ h, u.group? c.grp = some h) :
    toldOf s id c src len dst tag reg status (u.tellSender c status) := by
  obtain ⟨y, hy⟩ := State.cmd?_of_ids hids hc
  obtain rfl := State.cmd?_id hc
  obtain ⟨hfound, -, -, hreg, -⟩ := State.tellSender_spec hk hy status
  exact ⟨hstep, hfound, fun g hg => (hgs g hg).elim fun h hh => hreg h hh⟩

omit hb hr hd in
theorem tellSender_units {u : State} (hids : u.units.cmds.map (·.id) = s.units.cmds.map (·.id)) (status : Nat) :
    (u.tellSender c status).units = (u.setCmd { c with kind := .send src len dst tag reg true }).units ∧
      (u.tellSender c status).plat = u.plat ∧
      ∀ h ∈ (u.tellSender c status).groups, ∃ g ∈ u.groups, h.async = g.async ∧ h.place = g.place := by
  obtain ⟨y, hy⟩ := State.cmd?_of_ids hids hc
  rw [← State.cmd?_id hc] at hy
  obtain ⟨-, hunits, hplat, -, hgroups⟩ := State.tellSender_spec hk hy status
  exact ⟨hunits, hplat, hgroups⟩

/-- With no group of the context on the cluster, the message is answered with 3 (R306). -/
theorem messageArrival_nobody
    (hh : (s.groups.any fun g => g.place.ctx == c.ctx && clusterOf g.place.core == dst) = false) :
    ∃ t : State, toldOf s id c src len dst tag reg 3 t ∧ t.units.posted = s.units.posted ∧
      t.units.overflow = s.units.overflow := by
  obtain ⟨hunits, -, -⟩ := tellSender_units hc hk rfl 3
  refine ⟨_, toldOf_tellSender hc hk ?_ rfl (fun g hg => ⟨g, hg⟩), ?_, ?_⟩
  · rw [exec_messageArrival hc hk hr hd hb, hh]
    rfl
  · rw [hunits]
    rfl
  · rw [hunits]
    rfl

/-- A posted receive takes the message (R305). -/
theorem messageArrival_taken {p : Posted}
    (hh : (s.groups.any fun g => g.place.ctx == c.ctx && clusterOf g.place.core == dst) = true)
    (hp : (s.units.posted.find? fun p => p.cluster == dst && p.ctx == c.ctx && msgMatches p.src p.tag (c.message src len tag)) =
      some p) :
    ∃ t : State, toldOf s id c src len dst tag reg 0 t ∧ t.units.posted = s.units.posted.erase p ∧
      ∀ y buf blen rs rt st m', s.cmd? p.cmd = some y → y.kind = .recv buf blen rs rt st m' →
        t.cmd? p.cmd = some { y with
          kind := .recv buf blen rs rt st (some (c.message src len tag))
          total := min len blen + 4 } := by
  have hstep := exec_messageArrival hc hk hr hd hb
  rw [hh, hp] at hstep
  have hcmds : (s.givesMsg p (c.message src len tag)).units.cmds = s.units.cmds.map (giveMsg p (c.message src len tag)) :=
    rfl
  have hids : (s.givesMsg p (c.message src len tag)).units.cmds.map (·.id) = s.units.cmds.map (·.id) := by
    rw [hcmds, List.map_map]
    exact List.map_congr_left fun y _ => giveMsg_id ..
  obtain ⟨hunits, -, -⟩ := tellSender_units hc hk hids 0
  refine ⟨_, toldOf_tellSender hc hk hstep hids (fun g hg => ⟨g, hg⟩), ?_, ?_⟩
  · rw [hunits]
    rfl
  · intro y buf blen rs rt st m' hy hyk
    have hne : p.cmd ≠ c.id := by
      intro he
      rw [he, State.cmd?_id hc, hc] at hy
      obtain rfl := Option.some.inj hy
      exact absurd (hk.symm.trans hyk) (by simp)
    calc ((s.givesMsg p (c.message src len tag)).tellSender c 0).cmd? p.cmd
        = ((s.givesMsg p (c.message src len tag)).setCmd { c with kind := .send src len dst tag reg true }).cmd? p.cmd := by
          unfold State.cmd?
          rw [hunits]
      _ = (s.givesMsg p (c.message src len tag)).cmd? p.cmd := State.cmd?_setCmd_ne hne
      _ = (s.cmd? p.cmd).map (giveMsg p (c.message src len tag)) := by
          unfold State.cmd?
          rw [hcmds]
          exact find?_map_of_id (giveMsg_id _ _) _ _
      _ = some (giveMsg p (c.message src len tag) y) := by rw [hy]; rfl
      _ = _ := by
          unfold giveMsg
          have hyid := beq_iff_eq.mpr (State.cmd?_id hy)
          simp only [hyk, hyid, if_true]
          rfl

/-- The overflow queue takes the message, and event 250 is set (R304, R306). -/
theorem messageArrival_kept
    (hh : (s.groups.any fun g => g.place.ctx == c.ctx && clusterOf g.place.core == dst) = true)
    (hp : (s.units.posted.find? fun p => p.cluster == dst && p.ctx == c.ctx && msgMatches p.src p.tag (c.message src len tag)) =
      none)
    (hroom : (s.units.overflow.filter fun o => o.cluster == dst && o.part == c.part).length < s.recvShare dst c.part) :
    ∃ t : State, toldOf s id c src len dst tag reg 1 t ∧
      t.units.overflow = s.units.overflow ++ [{ cluster := dst, ctx := c.ctx, part := c.part, msg := c.message src len tag }] ∧
      (t.ctx c.ctx).evOps = (s.ctx c.ctx).evOps ++ [{ src := dst, set := true, bit := 250 }] := by
  have hstep := exec_messageArrival hc hk hr hd hb
  rw [hh, hp] at hstep
  simp only [if_pos hroom] at hstep
  generalize hu : s.keepsMsg { cluster := dst, ctx := c.ctx, part := c.part, msg := c.message src len tag } = u at hstep
  have hids : (u.raiseEvent dst c.ctx 250).units.cmds.map (·.id) = s.units.cmds.map (·.id) := by
    rw [← hu]
    rfl
  have hgs : ∀ i, (u.raiseEvent dst c.ctx 250).group? i = s.group? i := by
    intro i
    rw [← hu]
    rfl
  obtain ⟨hunits, hplat, -⟩ := tellSender_units hc hk hids 1
  refine ⟨(u.raiseEvent dst c.ctx 250).tellSender c 1, toldOf_tellSender hc hk hstep hids (fun g hg => ⟨g, (hgs _).trans hg⟩), ?_, ?_⟩
  · rw [hunits, ← hu]
    rfl
  · have hctx : ((u.raiseEvent dst c.ctx 250).tellSender c 1).ctx c.ctx = (u.raiseEvent dst c.ctx 250).ctx c.ctx := by
      unfold State.ctx
      rw [hplat]
    have hsame : u.ctx c.ctx = s.ctx c.ctx := by
      rw [← hu]
      rfl
    rw [hctx, ← hsame]
    exact (modCtx_evOps u c.ctx _).1

/-- With no room the message is refused: event 251, and a pending fault for each group of the context on the cluster (R306). -/
theorem messageArrival_refused
    (hh : (s.groups.any fun g => g.place.ctx == c.ctx && clusterOf g.place.core == dst) = true)
    (hp : (s.units.posted.find? fun p => p.cluster == dst && p.ctx == c.ctx && msgMatches p.src p.tag (c.message src len tag)) =
      none)
    (hroom : s.recvShare dst c.part ≤ (s.units.overflow.filter fun o => o.cluster == dst && o.part == c.part).length) :
    ∃ t : State, toldOf s id c src len dst tag reg 2 t ∧ t.units.overflow = s.units.overflow ∧
      (t.ctx c.ctx).evOps = (s.ctx c.ctx).evOps ++ [{ src := dst, set := true, bit := 251 }] ∧
      ∀ g ∈ t.groups, g.place.ctx = c.ctx → clusterOf g.place.core = dst → g.async ≠ none := by
  have hstep := exec_messageArrival hc hk hr hd hb
  rw [hh, hp] at hstep
  simp only [if_neg (Nat.not_lt.mpr hroom)] at hstep
  obtain ⟨huu, hup, hui, hua⟩ := State.asyncFaults_spec
    (s.groups.filter fun g => g.place.ctx == c.ctx && clusterOf g.place.core == dst) (65536 * clusterOf c.core + tag) s
  change (s.refuseFaults dst c.ctx (65536 * clusterOf c.core + tag)).units = _ at huu
  change (s.refuseFaults dst c.ctx (65536 * clusterOf c.core + tag)).plat = _ at hup
  change ∀ i, ((s.refuseFaults dst c.ctx (65536 * clusterOf c.core + tag)).group? i).isSome = _ at hui
  change ∀ h ∈ (s.refuseFaults dst c.ctx (65536 * clusterOf c.core + tag)).groups, _ at hua
  generalize s.refuseFaults dst c.ctx (65536 * clusterOf c.core + tag) = u at hstep huu hup hui hua
  have hids : (u.raiseEvent dst c.ctx 251).units.cmds.map (·.id) = s.units.cmds.map (·.id) := by
    change u.units.cmds.map _ = _
    rw [huu]
  obtain ⟨hunits, hplat, hgroups⟩ := tellSender_units hc hk hids 2
  refine ⟨(u.raiseEvent dst c.ctx 251).tellSender c 2, toldOf_tellSender hc hk hstep hids (fun g hg => ?_), ?_, ?_, ?_⟩
  · refine Option.isSome_iff_exists.mp ((hui c.grp).trans ?_)
    rw [hg]
    rfl
  · rw [hunits]
    change u.units.overflow = _
    rw [huu]
  · have hctx : ((u.raiseEvent dst c.ctx 251).tellSender c 2).ctx c.ctx = (u.raiseEvent dst c.ctx 251).ctx c.ctx := by
      unfold State.ctx
      rw [hplat]
    have hsame : u.ctx c.ctx = s.ctx c.ctx := by
      unfold State.ctx
      rw [hup]
    rw [hctx, ← hsame]
    exact (modCtx_evOps u c.ctx _).1
  · intro g hg hctx hcl
    obtain ⟨x, hx, hasync, hplace⟩ := hgroups g hg
    rw [hasync]
    rw [hplace] at hctx hcl
    rcases hua x hx with h | ⟨hm, hne⟩
    · exact h
    · exact absurd rfl (hne x (List.mem_filter.mpr ⟨hm, by simp [hctx, hcl]⟩))

end

/-- Settles O54: the units of a command's work change memory and commands alone and keep identities, so that a fault finds its
command and its group. -/
theorem enginesStepOn : Obligations.EnginesStepOn := by
  unfold Obligations.EnginesStepOn
  refine ⟨fun s id c hc => ⟨?_, ?_, ?_, ?_, ?_⟩, fun s gid g hg => ⟨?_, ?_⟩, ?_, ?_⟩
  · intro hq
    change execEngineCommandStart id s = _
    unfold execEngineCommandStart
    simp only [hc, hq]
    cases s.cmdHeld c <;> rfl
  · exact fun hf => exec_engineCommandComplete hc hf
  · exact fun k u s' subc pos va ht ha hu => exec_engineFault hc ht ha hu
  · intro i hi
    change execCpymFollowOnHandoff id s = _
    unfold execCpymFollowOnHandoff
    simp only [hc, hi]
    split <;> rfl
  · intro b segs seg s' bs hk hr ht _ _ _ hi he hm hq hn hread _ hkey hplain hfmt hblk hbox
    exact exec_segmentSubrecordRead hc hk hr ht hi he hm hq hn hread hkey hplain hfmt hblk hbox
  · intro hlt hnone
    change execBatchComplete gid s = _
    unfold execBatchComplete
    simp only [hg]
    rw [if_neg]
    simp only [Bool.or_eq_true, decide_eq_true_eq, List.any_eq_true, Bool.and_eq_true, beq_iff_eq]
    rintro (h | ⟨c, hc, hgrp, hb⟩)
    · omega
    · exact hnone c hc hgrp hb
  · intro h
    change execBatchComplete gid s = _
    unfold execBatchComplete
    simp only [hg]
    rw [if_pos]
    simp only [Bool.or_eq_true, decide_eq_true_eq, List.any_eq_true, Bool.and_eq_true, beq_iff_eq]
    rcases h with h | ⟨c, hc, hgrp, hb⟩
    · exact .inl (by omega)
    · exact .inr ⟨c, hc, hgrp, hb⟩
  · intro s cluster k e he
    change execRecordCacheEvict cluster k s = _
    unfold execRecordCacheEvict
    simp only [he]
  · intro s id c src len dst tag reg hc hk hr hd hb
    exact ⟨fun hh => messageArrival_nobody hc hk hr hd hb hh, fun hh p hp => messageArrival_taken hc hk hr hd hb hh hp,
      fun hh hp hroom => messageArrival_kept hc hk hr hd hb hh hp hroom,
      fun hh hp hroom => messageArrival_refused hc hk hr hd hb hh hp hroom⟩

end Sys2Proof.Machine
end

section
/-! SUPPORT. Pre-emption and saves: what they change (R349 to R355). -/
namespace Sys2Proof.Machine

/-! ## Pre-emption -/

/-- Of several copies of one thing one is left. -/
theorem eraseDups_of_all_eq {α : Type} [BEq α] [LawfulBEq α] {l : List α} {a : α} (hl : l ≠ []) (h : ∀ x ∈ l, x = a) :
    l.eraseDups = [a] := by
  cases l with
  | nil => exact absurd rfl hl
  | cons x r =>
    obtain rfl := h x (List.mem_cons_self ..)
    have hr : r.filter (fun b => !b == x) = [] := by
      refine List.filter_eq_nil_iff.mpr fun y hy => ?_
      simp [h y (List.mem_cons_of_mem _ hy)]
    rw [List.eraseDups_cons, hr]
    rfl

/-- Blocks whose first cluster is one and the same have one choice (R349). -/
theorem State.preempt_one {s : State} {n m x : Nat}
    (hne : ((s.heldBlocks n x).filter fun k => !s.blockGoing x k) ≠ [])
    (hm : ∀ k ∈ (s.heldBlocks n x).filter fun k => !s.blockGoing x k, s.firstCluster k = some m) :
    s.preempt n x = s.preemptFrom m x ((s.heldBlocks n x).filter fun k => !s.blockGoing x k) := by
  unfold State.preempt
  dsimp only
  generalize (s.heldBlocks n x).filter (fun k => !s.blockGoing x k) = blocks at hne hm
  have hfirst : (blocks.filterMap s.firstCluster).eraseDups = [m] := by
    obtain ⟨k, r, rfl⟩ := List.exists_cons_of_ne_nil hne
    refine eraseDups_of_all_eq ?_ fun y hy => ?_
    · rw [List.filterMap_cons_some (hm k (List.mem_cons_self ..))]
      exact List.cons_ne_nil _ _
    · obtain ⟨k', hk', hy'⟩ := List.mem_filterMap.mp hy
      exact (Option.some.inj ((hm k' hk').symm.trans hy')).symm
  have hall : blocks.filter (fun k => s.firstCluster k == some m) = blocks :=
    List.filter_eq_self.mpr fun k hk => by simp [hm k hk]
  rw [hfirst, List.foldl_cons, List.foldl_nil, hall]

/-- A pre-emption of some blocks with a choice (R349). -/
def State.startPreempt (s : State) (m x choice : Nat) (blocks : List (Nat × Nat)) : State :=
  s.modCluster m fun c => { c with
    preempt := (c.preempt.filter fun p => p.blocks.any fun k => !(s.blockGroups k).isEmpty) ++
      [{ ctx := x, start := s.ns, deadline := s.ns + (s.part (s.ctx x).part).pdeadline * 1000, choice := choice
         blocks := blocks }] }

section
variable {s : State} {m x : Nat} {blocks : List (Nat × Nat)}

/-- A drain that is in time is chosen (R351). -/
theorem State.preemptFrom_drain (h : s.drainInTime blocks ((s.part (s.ctx x).part).pdeadline * 1000) = true) :
    s.preemptFrom m x blocks = s.startPreempt m x 0 blocks := by
  unfold State.preemptFrom
  exact if_pos h

/-- Else a save that is in time (R351). -/
theorem State.preemptFrom_save (h : s.drainInTime blocks ((s.part (s.ctx x).part).pdeadline * 1000) = false)
    (h' : s.saveInTime blocks ((s.part (s.ctx x).part).pdeadline * 1000) = true) :
    s.preemptFrom m x blocks = s.startPreempt m x 1 blocks := by
  unfold State.preemptFrom
  exact (if_neg (by simp [h])).trans (if_pos h')

/-- Else a block that may restart is discarded (R351, R356). -/
theorem State.preemptFrom_discard {k : Nat × Nat} (h : s.drainInTime [k] ((s.part (s.ctx x).part).pdeadline * 1000) = false)
    (h' : s.saveInTime [k] ((s.part (s.ctx x).part).pdeadline * 1000) = false)
    (hk : (s.launch? k.1).any (·.info.restart) = true) : s.preemptFrom m x [k] = s.discard k.1 := by
  unfold State.preemptFrom
  dsimp only
  rw [if_neg (by simp [h] : ¬ _), if_neg (by simp [h'] : ¬ _)]
  have hkeep : [k].filter (fun k => !(s.launch? k.1).any (·.info.restart)) = [] :=
    List.filter_eq_nil_iff.mpr fun y hy => by
      obtain rfl := List.mem_singleton.mp hy
      simp [hk]
  have hgo : [k].filter (fun k => (s.launch? k.1).any (·.info.restart)) = [k] :=
    List.filter_eq_self.mpr fun y hy => by
      obtain rfl := List.mem_singleton.mp hy
      exact hk
  rw [hkeep, hgo]
  rfl

/-- Else blocks that may not restart are saved, and the deadline is missed (R351). -/
theorem State.preemptFrom_late (hne : blocks ≠ [])
    (h : s.drainInTime blocks ((s.part (s.ctx x).part).pdeadline * 1000) = false)
    (h' : s.saveInTime blocks ((s.part (s.ctx x).part).pdeadline * 1000) = false)
    (hk : ∀ k ∈ blocks, (s.launch? k.1).any (·.info.restart) = false) :
    s.preemptFrom m x blocks = (s.startPreempt m x 1 blocks).modCtx x fun c => { c with dlmiss := c.dlmiss + 1 } := by
  unfold State.preemptFrom
  dsimp only
  rw [if_neg (by simp [h] : ¬ _), if_neg (by simp [h'] : ¬ _)]
  have hkeep : blocks.filter (fun k => !(s.launch? k.1).any (·.info.restart)) = blocks :=
    List.filter_eq_self.mpr fun k hk' => by simp [hk k hk']
  have hgo : blocks.filter (fun k => (s.launch? k.1).any (·.info.restart)) = [] :=
    List.filter_eq_nil_iff.mpr fun k hk' => by simp [hk k hk']
  rw [hkeep, hgo]
  exact if_neg (by simp [hne])

end

/-! ## Records of saves -/

/-- From one state to the next the records of saves take other pages, and headers are written. -/
def State.repages (s t : State) : Prop :=
  t = { s with mem := t.mem, draws := t.draws, units := { s.units with saved := t.units.saved } } ∧
    s.mem.keepsForm t.mem ∧
    t.units.saved.map (fun k => { k with pages := [] }) = s.units.saved.map fun k => { k with pages := [] }

namespace State.repages
variable {s t u : State}

theorem of_memTurn (h : s.memTurn t) : s.repages t := by
  refine ⟨?_, h.2, by rw [h.units]⟩
  rw [h.1]
theorem refl (s : State) : s.repages s := .of_memTurn (.refl s)
theorem trans (h : s.repages t) (k : t.repages u) : s.repages u := by
  refine ⟨?_, h.2.1.trans k.2.1, k.2.2.trans h.2.2⟩
  rw [k.1, h.1]
theorem groups (h : s.repages t) : t.groups = s.groups := (congrArg State.groups h.1 :)
theorem plat (h : s.repages t) : t.plat = s.plat := (congrArg State.plat h.1 :)
theorem ns (h : s.repages t) : t.ns = s.ns := (congrArg State.ns h.1 :)

/-- A saved block is there still, in what pages it may be. -/
theorem mem (h : s.repages t) {b : SavedBlock} (hb : b ∈ s.units.saved) :
    ∃ b' ∈ t.units.saved, b'.launch = b.launch ∧ b'.blk = b.blk ∧ b'.groups = b.groups := by
  have hm : ({ b with pages := [] } : SavedBlock) ∈ t.units.saved.map fun k => { k with pages := [] } := by
    rw [h.2.2]
    exact List.mem_map_of_mem hb
  obtain ⟨b', hb', he⟩ := List.mem_map.mp hm
  exact ⟨b', hb', (congrArg SavedBlock.launch he :), (congrArg SavedBlock.blk he :), (congrArg SavedBlock.groups he :)⟩

end State.repages

theorem State.saveBase_looksUp (s : State) (x : Nat) : s.looksUp (s.saveBase x).1 := s.useRegs_looksUp x

theorem State.saveCap_looksUp (s : State) (x : Nat) : s.looksUp (s.saveCap x).1 := s.useRegs_looksUp x

theorem State.writeHeader_memTurn (s : State) (x : Nat) (page : Nat × Nat) (kind blk flat time : Nat) :
    s.memTurn (s.writeHeader x page kind blk flat time) := by
  unfold State.writeHeader
  have h := State.memTurn.of_looksUp (s.saveBase_looksUp x)
  generalize s.saveBase x = r at h
  obtain ⟨t, base⟩ := r
  dsimp only at h ⊢
  split
  · exact h.trans (State.writeBy_memTurn ..)
  · exact h

theorem State.fitRecord_repages (s : State) (launch blk key n : Nat) : s.repages (s.fitRecord launch blk key n).1 := by
  unfold State.fitRecord
  split
  · exact .refl s
  · rename_i k _
    split
    · exact .refl s
    · have h := State.repages.of_memTurn (.of_looksUp (s.saveCap_looksUp k.ctx))
      generalize s.saveCap k.ctx = r at h
      obtain ⟨t, cap⟩ := r
      dsimp only at h ⊢
      split
      · exact h
      · refine (h.trans ?_).trans (.of_memTurn (State.writeHeader_memTurn ..))
        refine ⟨rfl, .refl _, ?_⟩
        change List.map _ (List.map _ t.units.saved) = _
        rw [List.map_map]
        refine List.map_congr_left fun b _ => ?_
        simp only [Function.comp]
        split <;> rfl

/-! ## A group that is saved -/

theorem Group.landEvery_eq (g : Group) : g.landEvery = { g with regs := g.landEvery.regs, pend := [] } := by
  unfold Group.landEvery
  rw [Group.landAll_eq]

/-- The group as it is saved: its results have landed (R354). -/
theorem Group.toSave_spec (g : Group) (tiles : List Nat) : (g.toSave tiles).place = g.place ∧
    (g.toSave tiles).spc = g.spc ∧ (g.toSave tiles).lanes = g.lanes ∧ (g.toSave tiles).yielded = false ∧
    (g.toSave tiles).wait = (if waitHasPa g.wait g.words then none else g.wait) ∧
    (g.toSave tiles).trap = (g.trap.map fun t => { t with wait := if waitHasPa t.wait t.words then none else t.wait }) ∧
    (g.toSave tiles).gen = g.gen ∧ (g.toSave tiles).pend = [] ∧ (g.toSave tiles).regs.s = g.landEvery.regs.s ∧
    (g.toSave tiles).regs.v = g.landEvery.regs.v := by
  unfold Group.toSave
  rw [g.landEvery_eq]
  exact ⟨rfl, rfl, rfl, rfl, rfl, rfl, rfl, rfl, rfl, rfl⟩

/-- What a saved block's record gains with a group: the group, its commands and its requests (R247, R354). -/
def State.withSaved (s : State) (g : Group) (k : SavedBlock) : SavedBlock :=
  { k with
    groups := k.groups ++ [g.toSave (s.savedTiles g)]
    cmds := k.cmds ++ (s.units.cmds.filter fun c => c.grp == g.gid).map Cmd.stop
    reqs := k.reqs ++ ((s.part g.place.part).reqs.filter fun r => r.grp == g.gid && !g.saved.any r.asksFor).map fun r =>
      { r with handled := false, admitted := false } }

/-- A group goes into its block's record, before the record has found its room. -/
def State.takeOff (s : State) (g : Group) : State :=
  let t := (((s.modSaved g.place.launch g.place.blk (s.withSaved g)).modUnits fun u =>
    { u with cmds := u.cmds.filter fun c => c.grp != g.gid }).leaveSet g).withdraw g
  { t with groups := t.groups.filter fun h => h.gid != g.gid }

theorem State.takeOff_spec (s : State) (g : Group) : (s.takeOff g).mem = s.mem ∧
    (s.takeOff g).groups = s.groups.filter (fun h => h.gid != g.gid) ∧
    (s.takeOff g).units.saved = s.units.saved.map fun k =>
      if k.launch == g.place.launch && k.blk == g.place.blk then s.withSaved g k else k := by
  unfold State.takeOff State.withdraw State.withdrawIf
  rw [State.leaveSet_frame]
  exact ⟨rfl, rfl, rfl⟩

theorem State.moveToSave_eq (s : State) (g : Group) : s.moveToSave g =
    match (s.takeOff g).fitRecord g.place.launch g.place.blk g.place.flat (s.groupPages g) with
    | (t, false) => (t, false)
    | (t, true) => if ((s.units.cmds.filter fun c => c.grp == g.gid).map Cmd.stop).isEmpty then (t, true)
      else t.fitRecord g.place.launch g.place.blk noFlat 1 := by
  rfl

/-- The room that records take changes nothing of a group that is saved. -/
theorem State.moveToSave_repages (s : State) (g : Group) : (s.takeOff g).repages (s.moveToSave g).1 := by
  rw [State.moveToSave_eq]
  have h := (s.takeOff g).fitRecord_repages g.place.launch g.place.blk g.place.flat (s.groupPages g)
  split
  · rename_i he
    rw [he] at h
    exact h
  · rename_i u he
    rw [he] at h
    split
    · exact h
    · exact h.trans (u.fitRecord_repages ..)

/-- A group that is saved is in its block's record, and the other groups stay where they are (R354). -/
theorem State.moveToSave_spec (s : State) (g : Group) {b : SavedBlock} (hb : b ∈ s.units.saved)
    (hl : b.launch = g.place.launch) (hk : b.blk = g.place.blk) :
    (s.moveToSave g).1.groups = s.groups.filter (fun h => h.gid != g.gid) ∧
      ∃ b ∈ (s.moveToSave g).1.units.saved, b.launch = g.place.launch ∧ b.blk = g.place.blk ∧
        ∃ tiles, g.toSave tiles ∈ b.groups := by
  obtain ⟨-, hgroups, hsaved⟩ := s.takeOff_spec g
  have h := s.moveToSave_repages g
  have hm : s.withSaved g b ∈ (s.takeOff g).units.saved := by
    rw [hsaved]
    exact List.mem_map.mpr ⟨b, hb, if_pos (by simp [hl, hk])⟩
  obtain ⟨b', hb', hl', hk', hg'⟩ := h.mem hm
  exact ⟨h.groups.trans hgroups, b', hb', hl'.trans hl, hk'.trans hk, s.savedTiles g,
    hg' ▸ List.mem_append_right b.groups (List.mem_singleton.mpr rfl)⟩

end Sys2Proof.Machine
end

section
/-! SUPPORT. Saved blocks resume, clusters switch contexts, and contexts are torn down (R356 to R360). -/
namespace Sys2Proof.Machine

/-! ## Resume -/

theorem State.startQuantum_mem (s : State) (x core : Nat) : (s.startQuantum x core).mem = s.mem := by
  simp only [State.startQuantum]
  split <;> rfl

theorem State.steerDone_mem (s : State) (seats : List Seat) : (s.steerDone seats).mem = s.mem := by
  unfold State.steerDone
  split
  · rfl
  · next k hk =>
    generalize (List.range 6).map (6 * sectorOf k.core + ·) = ps
    induction ps generalizing s with
    | nil => rfl
    | cons p r ih =>
      rw [List.foldl_cons]
      split
      · exact ih _
      · exact ih s

/-- A saved team's scratch is written where the team is seated. -/
theorem State.scratchBack_memTurn (s : State) (t : Team) (part : Nat) (m : Memory) : s.memTurn ((List.range t.size).foldl
    (fun s i => match s.teamScratch t part i with
      | some l => s.locWrite l [m.get i]
      | none => s) s) := by
  refine State.memTurn.foldl (fun s i => ?_) _ s
  split
  · exact s.locWrite_memTurn _ _
  · exact .refl s

/-- A group in its new place has its masks. -/
theorem Group.restored_masksOk (s : State) (g : Group) (ends : Bool) (n seed core quad slot : Nat) (saved : List Nat) :
    (s.lateGroup ends n (g.restored seed core quad slot saved)).masksOk = g.masksOk := rfl

/-- A team that is seated brings its groups back, and leaves the others. -/
theorem State.seatTeam_spec (s : State) (k : SavedBlock) (t : Team) (seat : Seat) :
    (s.seatTeam k t seat).units.saved = s.units.saved ∧ s.mem.keepsForm (s.seatTeam k t seat).mem ∧
      (∀ g ∈ s.groups, g ∈ (s.seatTeam k t seat).groups) ∧
      ∀ h ∈ (s.seatTeam k t seat).groups, h ∈ s.groups ∨ ∃ g ∈ k.groups, h.masksOk = g.masksOk := by
  unfold State.seatTeam
  dsimp only
  obtain ⟨hgroups, hunits⟩ := s.startQuantum_frame k.ctx seat.core
  have hmem := s.startQuantum_mem k.ctx seat.core
  generalize s.startQuantum k.ctx seat.core = s1 at hgroups hunits hmem
  have hback := (s1.modUnits fun u => { u with teams := u.teams ++ [{ t with core := seat.core, tb := seat.tb }] }).scratchBack_memTurn
    { t with core := seat.core, tb := seat.tb } (s.ctx k.ctx).part
    (((k.scratch.find? fun e => e.1 == t.team).map (·.2)).getD [])
  generalize List.foldl _ (s1.modUnits _) _ = s2 at hback ⊢
  generalize hw : State.modPart _ _ _ = w
  have hsaved : w.units.saved = s2.units.saved := by
    rw [← hw]
    rfl
  have hwmem : w.mem = s2.mem := by
    rw [← hw]
    rfl
  obtain ⟨f, hwg, hf⟩ : ∃ f : Group × Nat × Nat → Group,
      w.groups = s2.groups ++ ((k.groups.filter fun g => g.place.team == t.team).zip seat.at').map f ∧
        ∀ e, (f e).masksOk = e.1.masksOk := by
    subst hw
    exact ⟨_, rfl, fun e => Group.restored_masksOk s2 e.1 ..⟩
  have hlast : w.memTurn (if seat.core == t.core then w else w.acquireCore seat.core (s.ctx k.ctx).part) :=
    .ite (.refl w) (w.acquireCore_memTurn ..)
  generalize (if seat.core == t.core then w else w.acquireCore seat.core (s.ctx k.ctx).part) = v at hlast
  have hvg : v.groups = s.groups ++ ((k.groups.filter fun g => g.place.team == t.team).zip seat.at').map f := by
    rw [hlast.groups, hwg, hback.groups]
    exact congrArg (· ++ _) hgroups
  refine ⟨?_, ?_, fun g hg => hvg ▸ List.mem_append_left _ hg, fun h hh => ?_⟩
  · rw [hlast.units, hsaved, hback.units]
    exact (congrArg Units.saved hunits :)
  · refine MemSys.keepsForm.trans ?_ hlast.2
    rw [hwmem, ← hmem]
    exact hback.2
  · rcases List.mem_append.mp (hvg ▸ hh) with hh | hh
    · exact .inl hh
    · obtain ⟨⟨g, q, sl⟩, he, rfl⟩ := List.mem_map.mp hh
      exact .inr ⟨g, (List.mem_filter.mp (List.of_mem_zip he).1).1, hf _⟩

theorem State.seatTeams_spec (k : SavedBlock) (l : List (Team × Seat)) : ∀ s : State,
    (s.seatTeams k l).units.saved = s.units.saved ∧ s.mem.keepsForm (s.seatTeams k l).mem ∧
      (∀ g ∈ s.groups, g ∈ (s.seatTeams k l).groups) ∧
      ∀ h ∈ (s.seatTeams k l).groups, h ∈ s.groups ∨ ∃ g ∈ k.groups, h.masksOk = g.masksOk := by
  induction l with
  | nil => exact fun s => ⟨rfl, .refl _, fun g hg => hg, fun h hh => .inl hh⟩
  | cons e r ih =>
    intro s
    obtain ⟨t, seat⟩ := e
    obtain ⟨hs, hm, hg, hk⟩ := s.seatTeam_spec k t seat
    obtain ⟨hs', hm', hg', hk'⟩ := ih (s.seatTeam k t seat)
    exact ⟨hs'.trans hs, hm.trans hm', fun g h => hg' g (hg g h), fun h hh => (hk' h hh).elim (hk h) .inr⟩

/-- What a change of waits leaves of a group. -/
theorem Group.mapWait_keeps (g : Group) (f : Option Wait → Option Wait) : (g.mapWait f).gid = g.gid ∧
    (g.mapWait f).place = g.place ∧ (g.mapWait f).regs = g.regs ∧ (g.mapWait f).spc = g.spc ∧
    (g.mapWait f).masksOk = g.masksOk := by
  unfold Group.mapWait
  split <;> exact ⟨rfl, rfl, rfl, rfl, rfl⟩

/-- The groups after an update that changes what they wait in. -/
def State.rewaits (s t : State) : Prop :=
  (∀ g ∈ s.groups, ∃ h ∈ t.groups, h.gid = g.gid ∧ h.place = g.place ∧ h.regs = g.regs ∧ h.spc = g.spc) ∧
    ∀ h ∈ t.groups, ∃ g ∈ s.groups, h.masksOk = g.masksOk

theorem State.rewaits.trans {s t u : State} (h : s.rewaits t) (k : t.rewaits u) : s.rewaits u := by
  refine ⟨fun g hg => ?_, fun z hz => ?_⟩
  · obtain ⟨x, hx, h1, h2, h3, h4⟩ := h.1 g hg
    obtain ⟨y, hy, k1, k2, k3, k4⟩ := k.1 x hx
    exact ⟨y, hy, k1.trans h1, k2.trans h2, k3.trans h3, k4.trans h4⟩
  · obtain ⟨y, hy, k1⟩ := k.2 z hz
    obtain ⟨x, hx, h1⟩ := h.2 y hy
    exact ⟨x, hx, k1.trans h1⟩

/-- Groups whose waits change where a test holds. -/
theorem State.rewaits_of_map {s t : State} {c : Group → Bool} {f : Group → Option Wait → Option Wait}
    (h : t.groups = s.groups.map fun g => if c g then g.mapWait (f g) else g) : s.rewaits t := by
  have hone : ∀ g : Group, (if c g then g.mapWait (f g) else g).gid = g.gid ∧
      (if c g then g.mapWait (f g) else g).place = g.place ∧ (if c g then g.mapWait (f g) else g).regs = g.regs ∧
      (if c g then g.mapWait (f g) else g).spc = g.spc ∧ (if c g then g.mapWait (f g) else g).masksOk = g.masksOk := by
    intro g
    split
    · exact g.mapWait_keeps _
    · exact ⟨rfl, rfl, rfl, rfl, rfl⟩
  refine ⟨fun g hg => ⟨_, h ▸ List.mem_map_of_mem hg, ?_⟩, fun y hy => ?_⟩
  · obtain ⟨h1, h2, h3, h4, -⟩ := hone g
    exact ⟨h1, h2, h3, h4⟩
  · obtain ⟨g, hg, rfl⟩ := List.mem_map.mp (h ▸ hy)
    exact ⟨g, hg, (hone g).2.2.2.2⟩

theorem State.showEvents_rewaits (s : State) (x : Nat) : s.rewaits (s.showEvents x) := State.rewaits_of_map rfl

theorem State.lookAgain_rewaits (s : State) (x : Nat) : s.rewaits (s.lookAgain x) :=
  (s.showEvents_rewaits x).trans (State.rewaits_of_map rfl)

/-- A block that resumes (R358): it is saved no more, event RSUM is set, and the groups that are there stay. -/
theorem State.resume_spec (s : State) (k : SavedBlock) (l : List (Team × Seat)) :
    (s.resume k l).units.saved = s.units.saved.erase k ∧ ((s.resume k l).ctx k.ctx).ev.getLsbD 253 = true ∧
      s.mem.keepsForm (s.resume k l).mem ∧
      (∀ g ∈ s.groups, ∃ h ∈ (s.resume k l).groups, h.gid = g.gid ∧ h.place = g.place ∧ h.regs = g.regs ∧ h.spc = g.spc) ∧
      ∀ h ∈ (s.resume k l).groups, ∃ g, (g ∈ s.groups ∨ g ∈ k.groups) ∧ h.masksOk = g.masksOk := by
  unfold State.resume
  dsimp only
  generalize hs1 : (s.endPreempt fun b => b == (k.launch, k.blk)).modUnits _ = s1
  have h1 : s1.units.saved = s.units.saved.erase k ∧ s1.groups = s.groups ∧ s1.mem = s.mem := by
    rw [← hs1]
    exact ⟨rfl, rfl, rfl⟩
  have h2 : (if k.stays then s1 else s1.steerDone (l.map (·.2))).groups = s.groups ∧
      (if k.stays then s1 else s1.steerDone (l.map (·.2))).units.saved = s.units.saved.erase k ∧
      (if k.stays then s1 else s1.steerDone (l.map (·.2))).mem = s.mem := by
    obtain ⟨hsaved, hgroups, hmem⟩ := h1
    split
    · exact ⟨hgroups, hsaved, hmem⟩
    · obtain ⟨hg, hu⟩ := s1.steerDone_frame (l.map (·.2))
      exact ⟨hg.trans hgroups, (congrArg Units.saved hu).trans hsaved, (s1.steerDone_mem _).trans hmem⟩
  generalize (if k.stays then s1 else s1.steerDone (l.map (·.2))) = s2 at h2 ⊢
  obtain ⟨hgroups, hsaved, hmem⟩ := h2
  obtain ⟨hts, htm, htg, htk⟩ := State.seatTeams_spec k l (s2.renameBarriers k l)
  change _ = s2.units.saved at hts
  change s2.mem.keepsForm _ at htm
  change ∀ g ∈ s2.groups, _ at htg
  change ∀ h ∈ _, h ∈ s2.groups ∨ _ at htk
  generalize (s2.renameBarriers k l).seatTeams k l = s3 at hts htm htg htk ⊢
  have hlook := (s3.modCtx k.ctx fun c => { c with
    ev := evApply c.ev { src := dispatcherPort, set := true, bit := 253 } }).lookAgain_rewaits k.ctx
  refine ⟨hts.trans hsaved, ?_, hmem ▸ htm, fun g hg => ?_, fun h hh => ?_⟩
  · change (State.ctx (State.modCtx s3 k.ctx _) k.ctx).ev.getLsbD 253 = true
    rw [State.ctx_modCtx, if_pos rfl]
    simp [evApply]
  · exact hlook.1 g (htg g (hgroups ▸ hg))
  · obtain ⟨g, hg, hm⟩ := hlook.2 h hh
    rcases htk g hg with hg | ⟨g', hg', hm'⟩
    · exact ⟨g, .inl (hgroups ▸ hg), hm⟩
    · exact ⟨g', .inr hg', hm.trans hm'⟩

end Sys2Proof.Machine
end

section
/-! SUPPORT. What goes with a launch, and what a change of contexts moves (R356, R359, R360). -/
namespace Sys2Proof.Machine

/-! ## Groups that retire -/

theorem State.waUnbind_memTurn (s : State) (g : Group) (t : Team) (h : Nat) : s.memTurn (s.waUnbind g t h).1 := by
  unfold State.waUnbind
  split
  · exact .refl s
  · dsimp only
    split
    · unfold State.setTeamWord
      split
      · exact s.locWrite_memTurn _ _
      · exact .refl s
    · exact .refl s

theorem State.unbindAll_memTurn (s : State) (g : Group) : s.memTurn (s.unbindAll g) := by
  unfold State.unbindAll
  split
  · exact .refl s
  · rename_i t _
    have key : ∀ (l : List Nat) (e : State × Group),
        e.1.memTurn (l.foldl (fun (e : State × Group) h => e.1.waUnbind e.2 t h) e).1 := by
      intro l
      induction l with
      | nil => exact fun e => .refl e.1
      | cons h r ih => exact fun e => (e.1.waUnbind_memTurn e.2 t h).trans (ih _)
    exact key _ (s, g)

/-- The lease of a context and its count of discarded launches stay. -/
def State.sameTallies (s t : State) : Prop :=
  ∀ x, (t.ctx x).lease = (s.ctx x).lease ∧ (t.ctx x).ldiscard = (s.ctx x).ldiscard

namespace State.sameTallies
variable {s t u : State}

theorem of_ctxs (h : t.plat.ctxs = s.plat.ctxs) : s.sameTallies t := fun x => by
  unfold State.ctx
  rw [h]
  exact ⟨rfl, rfl⟩
theorem refl (s : State) : s.sameTallies s := .of_ctxs rfl
theorem trans (h : s.sameTallies t) (k : t.sameTallies u) : s.sameTallies u :=
  fun x => ⟨(k x).1.trans (h x).1, (k x).2.trans (h x).2⟩

/-- A change of a context that leaves its lease and its count. -/
theorem modCtx {y : Nat} {f : Ctx → Ctx} (hl : (f (s.ctx y)).lease = (s.ctx y).lease)
    (hd : (f (s.ctx y)).ldiscard = (s.ctx y).ldiscard) : s.sameTallies (s.modCtx y f) := fun x => by
  rw [State.ctx_modCtx]
  split
  · rename_i h
    subst h
    exact ⟨hl, hd⟩
  · exact ⟨rfl, rfl⟩

end State.sameTallies

theorem State.launchDone_keeps (s : State) (id : Nat) : s.sameTallies (s.launchDone id) ∧
    ((∀ l ∈ s.units.launches, l.id ≠ id) → (s.launchDone id).units = s.units) := by
  unfold State.launchDone
  split
  · exact ⟨.refl s, fun _ => rfl⟩
  · rename_i l hl
    split
    · refine ⟨State.sameTallies.trans (.of_ctxs rfl) (.modCtx rfl rfl), fun hn => ?_⟩
      exact absurd (beq_iff_eq.mp (List.find?_some (p := fun l : Launch => l.id == id) hl)) (hn l (List.mem_of_find?_eq_some hl))
    · exact ⟨.refl s, fun _ => rfl⟩

theorem State.settleRegs_keeps (s : State) (x : Nat) : s.sameTallies (s.settleRegs x) := by
  unfold State.settleRegs
  split
  · exact .refl s
  · exact .modCtx rfl rfl

theorem State.settleRegs_same (s : State) (x : Nat) : (s.settleRegs x).units = s.units ∧ (s.settleRegs x).mem = s.mem ∧
    (s.settleRegs x).groups = s.groups := by
  rw [State.settleRegs_frame]
  exact ⟨rfl, rfl, rfl⟩

/-- What a group that retires leaves: the saved blocks, memory in canonical form, the contexts' counts, and the launches, where
its own is gone already. -/
theorem State.retire_keeps (s : State) (g : Group) : (s.retire g).units.saved = s.units.saved ∧
    s.mem.keepsForm (s.retire g).mem ∧ s.sameTallies (s.retire g) ∧
    ((∀ l ∈ s.units.launches, l.id ≠ g.place.launch) → (s.retire g).units.launches = s.units.launches) := by
  unfold State.retire
  dsimp only
  have hu := s.unbindAll_memTurn g
  generalize s.unbindAll g = s1 at hu
  have h2 : (s1.leaveSet g).units.saved = s1.units.saved ∧ (s1.leaveSet g).mem = s1.mem ∧
      (s1.leaveSet g).plat = s1.plat ∧ (s1.leaveSet g).units.launches = s1.units.launches := by
    rw [State.leaveSet_frame]
    exact ⟨rfl, rfl, rfl, rfl⟩
  generalize s1.leaveSet g = s2 at h2
  generalize hs3 : State.modLaunch _ g.place.launch _ = s3
  have h3 : s3.units.saved = s2.units.saved ∧ s3.mem = s2.mem.orphan g.gid ∧ s3.plat.ctxs = s2.plat.ctxs ∧
      s3.units.launches = s2.units.launches.map fun l =>
        if l.id == g.place.launch then { l with retired := l.retired + 1 } else l := by
    rw [← hs3]
    exact ⟨rfl, rfl, rfl, rfl⟩
  obtain ⟨hsaved2, hmem2, hplat2, hl2⟩ := h2
  obtain ⟨hsaved3, hmem3, hplat3, hl3⟩ := h3
  obtain ⟨htal, hdone⟩ := s3.launchDone_keeps g.place.launch
  have hsettle := (s3.launchDone g.place.launch).settleRegs_keeps g.place.ctx
  have hunits : ((s3.launchDone g.place.launch).settleRegs g.place.ctx).units = (s3.launchDone g.place.launch).units := by
    rw [State.settleRegs_frame]
  refine ⟨?_, ?_, ?_, fun hn => ?_⟩
  · rw [hunits, State.launchDone_frame]
    exact (hsaved3.trans hsaved2).trans (congrArg Units.saved hu.units)
  · refine hu.2.trans ?_
    rw [State.settleRegs_frame, State.launchDone_frame, hmem3, hmem2]
    exact .of_eq rfl rfl rfl rfl
  · refine State.sameTallies.trans (.of_ctxs ?_) (htal.trans hsettle)
    rw [hplat3, hplat2, hu.plat]
  · have hl : s3.units.launches = s.units.launches := by
      rw [hl3, hl2, hu.units]
      refine (List.map_congr_left fun l hl => ?_).trans (List.map_id _)
      rw [if_neg (by simpa using hn l hl)]
      rfl
    rw [hunits, hdone (hl ▸ hn), hl]

/-- Groups of a launch that is gone retire one after another. -/
theorem State.retireAll_keeps (id : Nat) (gs : List Group) (hgs : ∀ g ∈ gs, g.place.launch = id) : ∀ s : State,
    (∀ l ∈ s.units.launches, l.id ≠ id) →
    let t := gs.foldl (fun s g => s.retire g) s
    t.units.launches = s.units.launches ∧ t.units.saved = s.units.saved ∧ s.mem.keepsForm t.mem ∧ s.sameTallies t ∧
      ∀ h ∈ t.groups, h ∈ s.groups ∧ ∀ g ∈ gs, g.gid ≠ h.gid := by
  induction gs with
  | nil => exact fun s _ => ⟨rfl, rfl, .refl _, .refl s, fun h hh => ⟨hh, by simp⟩⟩
  | cons g gs ih =>
    intro s hs
    rw [List.foldl_cons]
    obtain ⟨hsaved, hmem, htal, hl⟩ := s.retire_keeps g
    have hl := hl (hgs g (List.mem_cons_self ..) ▸ hs)
    obtain ⟨hl', hsaved', hmem', htal', hg'⟩ :=
      ih (fun g hg => hgs g (List.mem_cons_of_mem _ hg)) (s.retire g) (hl ▸ hs)
    refine ⟨hl'.trans hl, hsaved'.trans hsaved, hmem.trans hmem', htal.trans htal', fun h hh => ?_⟩
    obtain ⟨hm, hne⟩ := hg' h hh
    rw [State.retire_frame] at hm
    obtain ⟨hm, hgid⟩ := List.mem_filter.mp hm
    refine ⟨hm, fun x hx => ?_⟩
    rcases List.mem_cons.mp hx with rfl | hx
    · intro he
      simp [he] at hgid
    · exact hne x hx

/-! ## Launches that are dropped -/

/-- What is left once a launch is dropped (R356). -/
theorem State.dropLaunch_spec (s : State) (id : Nat) :
    (s.dropLaunch id).units.launches = s.units.launches.filter (fun l => l.id != id) ∧
    (∀ k ∈ (s.dropLaunch id).units.saved, k ∈ s.units.saved) ∧ s.mem.keepsForm (s.dropLaunch id).mem ∧
    s.sameTallies (s.dropLaunch id) ∧
    ∀ g ∈ (s.dropLaunch id).groups, g ∈ s.groups ∧ ((∃ l ∈ s.units.launches, l.id = id) → g.place.launch ≠ id) := by
  unfold State.dropLaunch
  split
  · rename_i hn
    have hn' : ∀ l ∈ s.units.launches, l.id ≠ id := fun l hl => by simpa using List.find?_eq_none.mp hn l hl
    refine ⟨?_, fun k hk => hk, .refl _, .refl s, fun g hg => ⟨hg, ?_⟩⟩
    · exact (List.filter_eq_self.mpr fun l hl => by simpa using hn' l hl).symm
    · rintro ⟨l, hl, he⟩
      exact absurd he (hn' l hl)
  · rename_i l _
    dsimp only
    generalize hs1 : State.modUnits (s.endPreempt fun k => k.1 == id) _ = s1
    have h1 : s1.groups = s.groups ∧ s1.mem = s.mem ∧ s1.units.launches = s.units.launches.filter (fun l => l.id != id) ∧
        s1.units.saved = s.units.saved.filter (fun k => k.launch != id) ∧ s1.plat.ctxs = s.plat.ctxs := by
      rw [← hs1]
      exact ⟨rfl, rfl, rfl, rfl, rfl⟩
    obtain ⟨hg1, hm1, hl1, hsv1, hc1⟩ := h1
    obtain ⟨hl2, hsv2, hm2, ht2, hg2⟩ := State.retireAll_keeps id (s1.groups.filter fun g => g.place.launch == id)
      (fun g hg => by simpa using (List.mem_filter.mp hg).2) s1
      (fun l hl => by
        rw [hl1] at hl
        simpa using (List.mem_filter.mp hl).2)
    generalize (s1.groups.filter fun g => g.place.launch == id).foldl (fun s g => s.retire g) s1 = s2 at hl2 hsv2 hm2 ht2 hg2
    generalize hs3 : s2.modUnits _ = s3
    have h3 : s3.units.launches = s2.units.launches ∧ s3.units.saved = s2.units.saved ∧ s3.mem = s2.mem ∧
        s3.plat = s2.plat ∧ s3.groups = s2.groups := by
      rw [← hs3]
      exact ⟨rfl, rfl, rfl, rfl, rfl⟩
    obtain ⟨hl3, hsv3, hm3, hp3, hg3⟩ := h3
    obtain ⟨hu4, hm4, hg4⟩ := s3.settleRegs_same l.ctx
    rw [hu4, hm4, hg4, hl3, hsv3, hm3, hg3]
    refine ⟨hl2.trans hl1, fun k hk => ?_, hm1 ▸ hm2, ?_, fun g hg => ?_⟩
    · rw [hsv2, hsv1] at hk
      exact (List.mem_filter.mp hk).1
    · exact (State.sameTallies.of_ctxs hc1).trans
        (ht2.trans ((State.sameTallies.of_ctxs (congrArg Plat.ctxs hp3)).trans (s3.settleRegs_keeps l.ctx)))
    · obtain ⟨hm, hne⟩ := hg2 g hg
      refine ⟨hg1 ▸ hm, fun _ he => ?_⟩
      exact hne g (List.mem_filter.mpr ⟨hm, by simpa using he⟩) rfl

/-- What is left once several launches are dropped. -/
theorem State.dropLaunches_spec (ids : List Nat) : ∀ s : State,
    let t := ids.foldl (fun s id => s.dropLaunch id) s
    (∀ l ∈ t.units.launches, l ∈ s.units.launches ∧ l.id ∉ ids) ∧
    (∀ k ∈ t.units.saved, k ∈ s.units.saved) ∧ s.mem.keepsForm t.mem ∧ s.sameTallies t ∧
    ∀ g ∈ t.groups, g ∈ s.groups ∧ ∀ l ∈ s.units.launches, l.id ∈ ids → g.place.launch ≠ l.id := by
  induction ids with
  | nil => exact fun s => ⟨fun l hl => ⟨hl, by simp⟩, fun k hk => hk, .refl _, .refl s, fun g hg => ⟨hg, by simp⟩⟩
  | cons a r ih =>
    intro s
    rw [List.foldl_cons]
    obtain ⟨hl, hsv, hm, ht, hg⟩ := s.dropLaunch_spec a
    obtain ⟨hl', hsv', hm', ht', hg'⟩ := ih (s.dropLaunch a)
    refine ⟨fun l h => ?_, fun k h => hsv k (hsv' k h), hm.trans hm', ht.trans ht', fun g h => ?_⟩
    · obtain ⟨h1, h2⟩ := hl' l h
      rw [hl] at h1
      obtain ⟨h1, h3⟩ := List.mem_filter.mp h1
      exact ⟨h1, by simpa [h2] using h3⟩
    · obtain ⟨h1, h2⟩ := hg' g h
      obtain ⟨h3, h4⟩ := hg g h1
      refine ⟨h3, fun l hlm hli => ?_⟩
      by_cases he : l.id = a
      · rw [he]
        exact h4 ⟨l, hlm, he⟩
      · refine h2 l ?_ ((List.mem_cons.mp hli).resolve_left he)
        rw [hl]
        exact List.mem_filter.mpr ⟨hlm, by simpa using he⟩

/-! ## Bundles that are freed -/

/-- Bundles keep their identities and contexts, and one that is freed stays so. -/
def State.freesOnly (s t : State) : Prop :=
  ∀ b ∈ t.units.bundles, ∃ a ∈ s.units.bundles, b.id = a.id ∧ b.ctx = a.ctx ∧ (a.freed = true → b.freed = true)

theorem State.freesOnly.refl (s : State) : s.freesOnly s := fun b hb => ⟨b, hb, rfl, rfl, id⟩

theorem State.freesOnly.trans {s t u : State} (h : s.freesOnly t) (k : t.freesOnly u) : s.freesOnly u := by
  intro c hc
  obtain ⟨b, hb, hi, hx, hf⟩ := k c hc
  obtain ⟨a, ha, hi', hx', hf'⟩ := h b hb
  exact ⟨a, ha, hi.trans hi', hx.trans hx', fun h => hf (hf' h)⟩

/-- A change of a bundle that keeps what it is. -/
theorem State.freesOnly_modBundle {s : State} {id : Nat} {f : Bundle → Bundle} (hi : ∀ b, (f b).id = b.id)
    (hx : ∀ b, (f b).ctx = b.ctx) (hf : ∀ b, b.freed = true → (f b).freed = true) : s.freesOnly (s.modBundle id f) := by
  intro b hb
  obtain ⟨a, ha, rfl⟩ := List.mem_map.mp hb
  split
  · exact ⟨a, ha, hi a, hx a, hf a⟩
  · exact ⟨a, ha, rfl, rfl, fun h => h⟩

theorem State.freesOnly_freeIds (s : State) : s.freesOnly s.freeIds :=
  fun b hb => ⟨b, (List.mem_filter.mp hb).1, rfl, rfl, fun h => h⟩

/-- Bundles and the memory system alone change. -/
def State.bundleTurn (s t : State) : Prop :=
  t = { s with mem := t.mem, draws := t.draws, units := { s.units with bundles := t.units.bundles } } ∧
    s.mem.keepsForm t.mem ∧ s.freesOnly t

namespace State.bundleTurn
variable {s t u : State}

theorem of_memTurn (h : s.memTurn t) : s.bundleTurn t := by
  refine ⟨?_, h.2, ?_⟩
  · rw [h.1]
  · unfold State.freesOnly
    rw [h.units]
    exact State.freesOnly.refl s
theorem trans (h : s.bundleTurn t) (k : t.bundleTurn u) : s.bundleTurn u := by
  refine ⟨?_, h.2.1.trans k.2.1, h.2.2.trans k.2.2⟩
  rw [k.1, h.1]
theorem modBundle {id : Nat} {f : Bundle → Bundle} (hi : ∀ b, (f b).id = b.id) (hx : ∀ b, (f b).ctx = b.ctx)
    (hf : ∀ b, b.freed = true → (f b).freed = true) : s.bundleTurn (s.modBundle id f) :=
  ⟨rfl, .refl _, State.freesOnly_modBundle hi hx hf⟩
theorem setState (s : State) (id : Nat) (st : BState) : s.bundleTurn (s.modBundle id fun b => { b with state := st }) :=
  modBundle (fun _ => rfl) (fun _ => rfl) fun _ h => h
theorem freeIds (s : State) : s.bundleTurn s.freeIds := ⟨rfl, .refl _, s.freesOnly_freeIds⟩
theorem groups (h : s.bundleTurn t) : t.groups = s.groups := (congrArg State.groups h.1 :)
theorem plat (h : s.bundleTurn t) : t.plat = s.plat := (congrArg State.plat h.1 :)
theorem units (h : s.bundleTurn t) : t.units = { s.units with bundles := t.units.bundles } := (congrArg State.units h.1 :)

theorem foldl {α : Type} {f : State → α → State} (h : ∀ s a, State.bundleTurn s (f s a)) :
    ∀ (l : List α) (s : State), s.bundleTurn (l.foldl f s)
  | [], s => .of_memTurn (.refl s)
  | a :: l, s => (h s a).trans (foldl h l (f s a))

end State.bundleTurn

theorem State.evictBundle_bundleTurn (s : State) (id : Nat) : s.bundleTurn (s.evictBundle id) := by
  unfold State.evictBundle
  dsimp only
  have h1 := State.bundleTurn.setState s id .evicting
  split
  · exact h1
  · have h2 : ∀ (t : State) (l : List Nat), t.memTurn (l.foldl (fun s x => s.modMem fun m => m.dropLine x) t) :=
      fun t l => .foldl (fun s x => .modMem (s.mem.dropLine_keepsForm x)) l t
    split
    · exact h1.trans (.of_memTurn (h2 _ _))
    · exact ((h1.trans (.of_memTurn (h2 _ _))).trans (.setState _ id .declared)).trans (.freeIds _)

theorem State.freeBundle_bundleTurn (s : State) (id : Nat) : s.bundleTurn (s.freeBundle id) := by
  unfold State.freeBundle
  dsimp only
  have h1 : s.bundleTurn (s.modBundle id fun b => { b with freed := true }) :=
    .modBundle (fun _ => rfl) (fun _ => rfl) fun _ _ => rfl
  split
  · exact h1.trans (State.evictBundle_bundleTurn ..)
  · exact h1.trans (.freeIds _)

/-- A bundle that is freed is so from then on. -/
theorem State.freeBundle_freed (s : State) (id : Nat) {b : Bundle} (hb : b ∈ (s.freeBundle id).units.bundles) (hi : b.id = id) :
    b.freed = true := by
  have hmod : ∀ a ∈ (s.modBundle id fun b => { b with freed := true }).units.bundles, a.id = id → a.freed = true := by
    intro a ha hai
    obtain ⟨c, -, rfl⟩ := List.mem_map.mp ha
    split
    · rfl
    · rename_i hne
      rw [if_neg hne] at hai
      exact absurd (beq_iff_eq.mpr hai) hne
  have hrest : (s.modBundle id fun b => { b with freed := true }).bundleTurn (s.freeBundle id) := by
    unfold State.freeBundle
    dsimp only
    split
    · exact State.evictBundle_bundleTurn ..
    · exact .freeIds _
  obtain ⟨a, ha, hai, -, hf⟩ := hrest.2.2 b hb
  exact hf (hmod a ha (hai.symm.trans hi))

/-- Several bundles that are freed. -/
theorem State.freeBundles_freed (ids : List Nat) : ∀ (s : State) (b : Bundle),
    b ∈ (ids.foldl (fun s i => s.freeBundle i) s).units.bundles → b.id ∈ ids → b.freed = true := by
  induction ids with
  | nil => exact fun s b _ hi => absurd hi (by simp)
  | cons a r ih =>
    intro s b hb hi
    rw [List.foldl_cons] at hb
    by_cases hr : b.id ∈ r
    · exact ih _ b hb hr
    · obtain ⟨c, hc, hci, -, hf⟩ := (State.bundleTurn.foldl (fun s i => s.freeBundle_bundleTurn i) r (s.freeBundle a)).2.2 b hb
      exact hf (s.freeBundle_freed a hc (hci.symm.trans ((List.mem_cons.mp hi).resolve_right hr)))

/-! ## Contexts of a cluster -/

/-- What stands in posting order is what was to be put so. -/
theorem mem_inPostingOrder {p : Posted} {l : List Posted} (h : p ∈ inPostingOrder l) : p ∈ l := by
  induction l with
  | nil => exact absurd h (by simp [inPostingOrder])
  | cons q r ih =>
    have h' : p ∈ q.into (inPostingOrder r) := h
    unfold Posted.into at h'
    rcases List.mem_append.mp h' with h' | h'
    · exact List.mem_cons_of_mem _ (ih ((List.takeWhile_sublist _).mem h'))
    · rcases List.mem_cons.mp h' with rfl | h'
      · exact List.mem_cons_self ..
      · exact List.mem_cons_of_mem _ (ih ((List.dropWhile_sublist _).mem h'))

/-- What an outgoing context leaves on a cluster (R359). -/
theorem State.park_spec (s : State) (n x : Nat) : (s.park n x).groups = s.groups ∧
    (s.park n x).units.saved = s.units.saved ∧ s.mem.keepsForm (s.park n x).mem ∧ (s.park n x).plat = s.plat ∧
    (∀ p ∈ (s.park n x).units.posted, p ∈ s.units.posted ∧ (p.cluster = n → p.ctx ≠ x)) ∧
    ∀ k ∈ (s.park n x).units.parked, k ∈ s.units.parked ∨ k.ctx = x := by
  unfold State.park
  dsimp only
  split
  · rename_i h
    simp only [Bool.and_eq_true, List.isEmpty_iff] at h
    refine ⟨rfl, rfl, .refl _, rfl, fun p hp => ⟨hp, fun hn hx => ?_⟩, fun k hk => .inl hk⟩
    exact List.filter_eq_nil_iff.mp h.1 p hp (by simp [hn, hx])
  · have hcap := State.memTurn.of_looksUp (s.saveCap_looksUp x)
    generalize s.saveCap x = r at hcap
    obtain ⟨t, cap⟩ := r
    dsimp only at hcap ⊢
    generalize hu : t.modUnits _ = u
    have h1 : u.groups = s.groups ∧ u.units.saved = s.units.saved ∧ s.mem.keepsForm u.mem ∧ u.plat = s.plat ∧
        (∀ p ∈ u.units.posted, p ∈ s.units.posted ∧ (p.cluster = n → p.ctx ≠ x)) ∧
        ∀ k ∈ u.units.parked, k ∈ s.units.parked ∨ k.ctx = x := by
      subst hu
      refine ⟨hcap.groups, (congrArg Units.saved hcap.units :), hcap.2, hcap.plat, fun p hp => ?_, fun k hk => ?_⟩
      · obtain ⟨hp, hne⟩ := List.mem_filter.mp hp
        rw [hcap.units] at hp
        refine ⟨hp, fun hn hx => ?_⟩
        simp [hn, hx] at hne
      · rcases List.mem_append.mp hk with hk | hk
        · rw [hcap.units] at hk
          exact .inl hk
        · obtain rfl := List.mem_singleton.mp hk
          exact .inr rfl
    obtain ⟨hg, hs, hm, hp, hposted, hparked⟩ := h1
    split
    · rename_i e _
      have hw := u.writeHeader_memTurn x e 3 0 noFlat u.ns
      exact ⟨hw.groups.trans hg, (congrArg Units.saved hw.units).trans hs, hm.trans hw.2, hw.plat.trans hp,
        fun p h => hposted p (hw.units ▸ h), fun k h => hparked k (hw.units ▸ h)⟩
    · exact ⟨hg, hs, hm, hp, hposted, hparked⟩

end Sys2Proof.Machine
end

section
/-! PROOFS. O57: pre-emption and contexts (R349 to R360). -/
namespace Sys2Proof.Machine

/-! ## Saves -/

section
variable {s : State} {gid : Nat} {g : Group} (hg : s.group? gid = some g)
include hg

/-- A group that is not to be saved, or not quiet, stays (R354). -/
theorem exec_groupSave_waits (h : s.toBeSaved g = false ∨ s.quiet g = false) : exec (.groupSave gid) s = .next s := by
  change execGroupSave gid s = _
  unfold execGroupSave
  simp only [hg]
  exact if_pos (by rcases h with h | h <;> simp [h])

variable (hs : s.toBeSaved g = true) (hq : s.quiet g = true)
include hs hq

/-- A group whose block is being saved follows (R354). -/
theorem exec_groupSave_follows (h : (s.units.saved.any fun b => b.launch == g.place.launch && b.blk == g.place.blk) = true) :
    exec (.groupSave gid) s = .next (s.saveGroup g) := by
  change execGroupSave gid s = _
  unfold execGroupSave
  simp only [hg]
  rw [if_neg (by simp [hs, hq]), if_pos h]

/-- The first group of a block finds the room for all, or the save fails (R355). -/
theorem exec_groupSave_first (h : (s.units.saved.any fun b => b.launch == g.place.launch && b.blk == g.place.blk) = false) :
    exec (.groupSave gid) s =
      match takePages ((s.saveCap g.place.ctx).1.usedPages g.place.ctx) (s.saveCap g.place.ctx).2
        (((s.saveCap g.place.ctx).1.recordsOf (g.place.launch, g.place.blk)).map (·.2)) with
      | none => .next ((s.saveCap g.place.ctx).1.saveFails (g.place.launch, g.place.blk) g.place.ctx)
      | some ps => .next (((s.saveCap g.place.ctx).1.openSave (g.place.launch, g.place.blk) g.place.ctx
          ((((s.saveCap g.place.ctx).1.recordsOf (g.place.launch, g.place.blk)).map (·.1)).zip ps)).saveGroup g) := by
  change execGroupSave gid s = _
  unfold execGroupSave
  simp only [hg]
  rw [if_neg (by simp [hs, hq]), if_neg (by simp [h])] <;> rfl

end

/-- A group that goes to the save area is in its block's record (R354, R355). -/
theorem State.saveGroup_spec {v : State} {g : Group} {gs : List Group} (hv : v.groups = gs)
    (hb : (v.units.saved.any fun b => b.launch == g.place.launch && b.blk == g.place.blk) = true) :
    ∃ (t : State) (room : Bool), v.moveToSave g = (t, room) ∧
      v.saveGroup g = (if room then t.stowTeams else t.saveFails (g.place.launch, g.place.blk) g.place.ctx) ∧
      (∀ h ∈ t.groups, h.gid ≠ g.gid) ∧ (∀ h ∈ gs, h.gid ≠ g.gid → h ∈ t.groups) ∧
      ∃ b ∈ t.units.saved, b.launch = g.place.launch ∧ b.blk = g.place.blk ∧
        ∃ h ∈ b.groups, h.place = g.place ∧ h.spc = g.spc ∧ h.lanes = g.lanes ∧ h.yielded = false ∧
          h.wait = (if waitHasPa g.wait g.words then none else g.wait) ∧
          h.trap = (g.trap.map fun t => { t with wait := if waitHasPa t.wait t.words then none else t.wait }) ∧
          h.gen = g.gen ∧ h.pend = [] ∧ h.regs.s = g.landEvery.regs.s ∧ h.regs.v = g.landEvery.regs.v := by
  obtain ⟨b, hbm, hbk⟩ := List.any_eq_true.mp hb
  simp only [Bool.and_eq_true, beq_iff_eq] at hbk
  obtain ⟨hgroups, b', hb', hl', hk', tiles, ht⟩ := v.moveToSave_spec g hbm hbk.1 hbk.2
  refine ⟨(v.moveToSave g).1, (v.moveToSave g).2, rfl, ?_, fun h hh => ?_, fun h hh hne => ?_, b', hb', hl', hk', g.toSave tiles, ht, g.toSave_spec tiles⟩
  · unfold State.saveGroup
    generalize v.moveToSave g = r
    obtain ⟨t, room⟩ := r
    cases room <;> rfl
  · rw [hgroups] at hh
    simpa using (List.mem_filter.mp hh).2
  · rw [hgroups, hv]
    exact List.mem_filter.mpr ⟨hh, by simpa using hne⟩

/-! ## Contexts of a cluster -/

/-- The incoming context's receives come back, and the record cache is flushed (R359). -/
def State.switchTo (s : State) (n x part : Nat) : State :=
  (((s.unpark n x).modUnits fun u => { u with recs := u.recs.filter fun e => e.cluster != n }).modCluster
    n fun c => { c with serves := tset c.serves part x, charge := tset c.charge x (s.freeNat % 8001) }).drawn

theorem State.switchTo_spec (s : State) (n x part : Nat) : tget 0 ((s.switchTo n x part).cluster n).serves part = x ∧
    (∀ e ∈ (s.switchTo n x part).units.recs, e.cluster ≠ n) ∧ (s.switchTo n x part).groups = s.groups ∧
    (s.switchTo n x part).mem = s.mem ∧ tget 0 ((s.switchTo n x part).cluster n).charge x ≤ 8000 ∧
    ∀ p ∈ (s.switchTo n x part).units.posted, p ∈ s.units.posted ∨
      ∃ k ∈ s.units.parked, k.cluster = n ∧ k.ctx = x ∧ p ∈ k.posted := by
  have hcluster : (s.switchTo n x part).cluster n = { s.cluster n with
      serves := tset (s.cluster n).serves part x, charge := tset (s.cluster n).charge x (s.freeNat % 8001) } := by
    change (State.modCluster _ n _).cluster n = _
    rw [State.cluster_modCluster, if_pos rfl]
    rfl
  rw [hcluster]
  refine ⟨tget_tset_same .., fun e he => ?_, rfl, rfl, ?_, fun p hp => ?_⟩
  · simpa using (List.mem_filter.mp he).2
  · rw [tget_tset_same]
    omega
  · rcases List.mem_append.mp (mem_inPostingOrder hp) with hp | hp
    · exact .inl hp
    · obtain ⟨k, hk, hpk⟩ := List.mem_flatMap.mp hp
      obtain ⟨hk, hmine⟩ := List.mem_filter.mp hk
      simp only [Bool.and_eq_true, beq_iff_eq] at hmine
      exact .inr ⟨k, hk, hmine.1, hmine.2, hpk⟩

/-- A cluster switches contexts once the outgoing one is gone from it (R359). -/
theorem exec_clusterContextSwitch (s : State) (n x : Nat)
    (h : ∀ e, ((s.cluster n).serves.find? fun e => e.1 == (s.ctx x).part) = some e → e.2 ≠ x ∧
      (∀ g ∈ s.groups, g.place.ctx = e.2 → clusterOf g.place.core ≠ n) ∧
        ∀ c ∈ s.units.cmds, c.ctx = e.2 → clusterOf c.core ≠ n ∨ (c.dropped = true ∧ c.openRecv = true)) :
    exec (.clusterContextSwitch n x) s =
      .next (match (s.cluster n).serves.find? fun e => e.1 == (s.ctx x).part with
        | none => s.switchTo n x (s.ctx x).part
        | some e => (s.park n e.2).switchTo n x (s.ctx x).part) := by
  change execClusterContextSwitch n x s = _
  unfold execClusterContextSwitch
  dsimp only
  cases hold : (s.cluster n).serves.find? fun e => e.1 == (s.ctx x).part with
  | none => rfl
  | some e =>
    obtain ⟨p, y⟩ := e
    obtain ⟨hne, hgroups, hcmds⟩ := h (p, y) hold
    have h1 : (s.groups.any fun g => g.place.ctx == y && clusterOf g.place.core == n) = false := by
      rw [List.any_eq_false]
      intro g hg
      simp only [Bool.and_eq_true, beq_iff_eq, not_and]
      exact hgroups g hg
    have h2 : (s.units.cmds.any fun c => c.ctx == y && clusterOf c.core == n && !(c.dropped && c.openRecv)) = false := by
      rw [List.any_eq_false]
      intro c hc
      simp only [Bool.and_eq_true, beq_iff_eq, Bool.not_eq_true', Bool.and_eq_false_iff, not_and, not_or, and_imp]
      intro hy hn
      obtain ⟨hd, ho⟩ := (hcmds c hc hy).resolve_left (fun hne => hne hn)
      simp [hd, ho]
    have h3 : (y == x) = false := by simpa using hne
    dsimp only
    rw [h1, h2, h3]
    rfl

/-! ## Tear-down -/

theorem State.endLease_same (s : State) (x : Nat) : (s.endLease x).units = s.units ∧ (s.endLease x).groups = s.groups ∧
    (s.endLease x).mem = s.mem ∧ ((s.endLease x).ctx x).lease.active = false ∧
    ((s.endLease x).ctx x).ldiscard = (s.ctx x).ldiscard := by
  cases ha : (s.ctx x).lease.active with
  | false =>
    rw [State.endLease_idle ha]
    exact ⟨rfl, rfl, rfl, ha, rfl⟩
  | true =>
    refine ⟨?_, ?_, ?_, (State.endLease_active ha).1, ?_⟩
    all_goals simp only [State.endLease, if_pos ha]
    · rfl
    · rfl
    · rfl
    · have hctx : ∀ (t : State) (i n : Nat), (t.lifeAdd i n).ctx x = t.ctx x := fun _ _ _ => rfl
      simp only [hctx, State.raiseEvent, State.ctx_modCtx, if_true]

/-- A queue whose tail is its head holds nothing. -/
theorem HQueue.count_empty (q : HQueue) (h : q.tail = q.head) : q.count = 0 := by
  unfold HQueue.count
  dsimp only
  split
  · rfl
  · rw [h]
    omega

/-- The state of a tear-down once its launches are dropped and its bundles freed. -/
def State.stripped (s : State) (x : Nat) : State :=
  let t := ((s.units.launches.filter fun l => l.ctx == x).map (·.id)).foldl (fun s id => s.dropLaunch id) (s.endLease x)
  ((t.units.bundles.filter fun b => b.ctx == x && !b.freed).map (·.id)).foldl (fun s i => s.freeBundle i) t

theorem State.stripped_spec (s : State) (x : Nat) :
    ((s.stripped x).ctx x).lease.active = false ∧ ((s.stripped x).ctx x).ldiscard = (s.ctx x).ldiscard ∧
    (∀ l ∈ (s.stripped x).units.launches, l.ctx ≠ x) ∧ (∀ k ∈ (s.stripped x).units.saved, k ∈ s.units.saved) ∧
    s.mem.keepsForm (s.stripped x).mem ∧
    (∀ g ∈ (s.stripped x).groups, g ∈ s.groups ∧ ∀ l ∈ s.units.launches, l.ctx = x → g.place.launch ≠ l.id) ∧
    ∀ b ∈ (s.stripped x).units.bundles, b.ctx = x → b.freed = true := by
  unfold State.stripped
  dsimp only
  obtain ⟨hu, hg, hm, hactive, hcount⟩ := s.endLease_same x
  obtain ⟨hl1, hs1, hm1, ht1, hg1⟩ :=
    State.dropLaunches_spec ((s.units.launches.filter fun l => l.ctx == x).map (·.id)) (s.endLease x)
  generalize hid : (s.units.launches.filter fun l => l.ctx == x).map (·.id) = ids at hl1 hs1 hm1 ht1 hg1
  generalize ids.foldl (fun s id => s.dropLaunch id) (s.endLease x) = t at hl1 hs1 hm1 ht1 hg1
  have hturn := State.bundleTurn.foldl (fun s i => s.freeBundle_bundleTurn i)
    ((t.units.bundles.filter fun b => b.ctx == x && !b.freed).map (·.id)) t
  have hfreed := State.freeBundles_freed ((t.units.bundles.filter fun b => b.ctx == x && !b.freed).map (·.id)) t
  generalize ((t.units.bundles.filter fun b => b.ctx == x && !b.freed).map (·.id)).foldl (fun s i => s.freeBundle i) t = w
    at hturn hfreed
  have hctx : w.ctx x = t.ctx x := by
    unfold State.ctx
    rw [hturn.plat]
  have hmem : ∀ l ∈ s.units.launches, l.ctx = x → l.id ∈ ids := by
    intro l hl hlx
    rw [← hid]
    exact List.mem_map.mpr ⟨l, List.mem_filter.mpr ⟨hl, by simpa using hlx⟩, rfl⟩
  rw [hctx]
  refine ⟨(congrArg Lease.active (ht1 x).1).trans hactive, (ht1 x).2.trans hcount, fun l hl hlx => ?_, fun k hk => ?_, ?_,
    fun g hgm => ?_, fun b hb hbx => ?_⟩
  · have hl : l ∈ t.units.launches := by
      rw [hturn.units] at hl
      exact hl
    obtain ⟨hl, hn⟩ := hl1 l hl
    exact hn (hmem l (hu ▸ hl) hlx)
  · have hk : k ∈ t.units.saved := by
      rw [hturn.units] at hk
      exact hk
    exact hu ▸ hs1 k hk
  · exact (hm ▸ hm1).trans hturn.2.1
  · obtain ⟨h1, h2⟩ := hg1 g (hturn.groups ▸ hgm)
    exact ⟨hg ▸ h1, fun l hl hlx => h2 l (hu.symm ▸ hl) (hmem l hl hlx)⟩
  · obtain ⟨a, ha, hi, hx, hf⟩ := hturn.2.2 b hb
    cases haf : a.freed with
    | true => exact hf haf
    | false =>
      refine hfreed b hb (List.mem_map.mpr ⟨a, List.mem_filter.mpr ⟨ha, ?_⟩, hi.symm⟩)
      simp [hx.symm.trans hbx, haf]

/-- A tear-down leaves nothing of a context (R360). -/
theorem exec_contextTeardown (s : State) (x : Nat) : ∃ t : State, exec (.contextTeardown x) s = .next t ∧
    let c := t.ctx x
    c.dead = true ∧ c.dq = [] ∧ c.waiting = [] ∧ c.tasks = [] ∧ c.lease.active = false ∧
    c.ldiscard = (s.ctx x).ldiscard + BitVec.ofNat 32 (s.packetsOf x) ∧ (∀ l ∈ t.units.launches, l.ctx ≠ x) ∧
    (∀ g ∈ t.groups, ∀ l ∈ s.units.launches, l.ctx = x → g.place.launch ≠ l.id) ∧
    (∀ q, (tget HQueue.reset c.hq q).count = 0) ∧ (∀ p ∈ t.units.posted, p.ctx ≠ x) ∧ (∀ o ∈ t.units.overflow, o.ctx ≠ x) ∧
    (∀ c ∈ t.units.cmds, c.ctx = x → c.openRecv = false) ∧ ∀ b ∈ t.units.bundles, b.ctx = x → b.freed = true := by
  obtain ⟨hactive, hcount, hlaunches, -, -, hgroups, hbundles⟩ := s.stripped_spec x
  have hstep : exec (.contextTeardown x) s = .next (((s.stripped x).modUnits fun u => { u with
      cmds := u.cmds.filter fun c => !(c.ctx == x && c.openRecv)
      posted := u.posted.filter fun p => p.ctx != x
      overflow := u.overflow.filter fun o => o.ctx != x
      parked := u.parked.filter fun p => p.ctx != x }).modCtx x fun c => { c with
        dead := true, dq := [], waiting := [], tasks := [], ldiscard := c.ldiscard + BitVec.ofNat 32 (s.packetsOf x)
        hq := c.hq.map fun e => (e.1, { e.2 with tail := e.2.head }) }) := by
    change execContextTeardown x s = _
    unfold execContextTeardown State.stripped
    dsimp only
    rw [(s.endLease_same x).1]
  generalize s.stripped x = w at hactive hcount hlaunches hgroups hbundles hstep
  refine ⟨_, hstep, ?_⟩
  dsimp only
  rw [State.ctx_modCtx, if_pos rfl]
  refine ⟨rfl, rfl, rfl, rfl, hactive, congrArg (· + _) hcount, hlaunches, fun g hg => (hgroups g hg).2, fun q => ?_,
    fun p hp => ?_, fun o ho => ?_, fun c hc hcx => ?_, hbundles⟩
  · refine HQueue.count_empty _ ?_
    rw [tget_map HQueue.reset (fun h => { h with tail := h.head }) _ q rfl]
  · simpa using (List.mem_filter.mp hp).2
  · simpa using (List.mem_filter.mp ho).2
  · have := (List.mem_filter.mp hc).2
    simpa [hcx] using this

/-- Settles O57: pre-emption makes the choice of the blocks' first cluster; a group that is saved goes into its block's record
and comes back from it; the rest follows what a launch, a cluster and a context lose. -/
theorem preemptionAndContexts : Obligations.PreemptionAndContexts := by
  unfold Obligations.PreemptionAndContexts
  refine ⟨?_, ?_, ?_, ?_, fun s gid g hg h => exec_groupSave_waits hg h, ?_, ?_, exec_contextTeardown⟩
  · intro s n m x blocks hne hm d live start
    have hstep : exec (.preemptionBegin n x) s = .next (s.preemptFrom m x blocks) :=
      congrArg Host.Outcome.next (State.preempt_one hne hm)
    rw [hstep]
    refine ⟨fun h => congrArg _ (State.preemptFrom_drain h), fun h h' => congrArg _ (State.preemptFrom_save h h'),
      fun h h' => ⟨?_, fun hk => congrArg _ (State.preemptFrom_late hne h h' fun k hkb => ?_)⟩⟩
    · rintro k hk ⟨l, hl, hr⟩
      rw [hk] at h h' ⊢
      exact congrArg _ (State.preemptFrom_discard h h' (by rw [hl]; exact hr))
    · cases hl : s.launch? k.1 with
      | none => rfl
      | some l => exact hk k hkb l hl
  · intro s n x q
    change execQuantumExpiry n x s = _
    unfold execQuantumExpiry
    have hiff : (q != 0 && decide (s.ns ≥ tget s.ns (s.cluster n).qstart x + 1000 * q) &&
        (s.plat.ctxs.any fun e => s.waitsFor x e.1)) = true ↔
        (q ≠ 0 ∧ tget s.ns (s.cluster n).qstart x + 1000 * q ≤ s.ns ∧ ∃ e ∈ s.plat.ctxs, s.waitsFor x e.1 = true) := by
      simp only [Bool.and_eq_true, bne_iff_ne, decide_eq_true_eq, List.any_eq_true, and_assoc, ge_iff_le]
    exact if_congr hiff rfl rfl
  · intro s n
    refine ⟨_, rfl, rfl, ?_, fun p hp => ?_⟩
    · rw [State.cluster_modCluster, if_pos rfl]
      simp
    · rw [State.cluster_modCluster, if_pos rfl]
      refine List.mem_map.mpr ⟨p, hp, ?_⟩
      by_cases h : p.choice = 0 ∧ p.deadline ≤ s.ns
      · simp [h]
      · simp [h]
  · intro s gid g hg hs hq open' a recs pages saves
    have hgid := State.group?_gid hg
    have hsaves : ∀ v : State, v.groups = s.groups → exec (.groupSave gid) s = .next (v.saveGroup g) →
        (v.units.saved.any fun b => b.launch == g.place.launch && b.blk == g.place.blk) = true → saves v := by
      intro v hv hstep hb
      obtain ⟨t, room, hmove, hsave, hgone, hrest, hrec⟩ := State.saveGroup_spec hv hb
      rw [hgid] at hgone hrest
      exact ⟨t, room, hmove, hstep.trans (congrArg _ hsave), hgone, hrest, hrec⟩
    refine ⟨fun ho => hsaves s rfl (exec_groupSave_follows hg hs hq ho) ho, fun ho ps hps => ?_, fun ho hps => ?_⟩
    · refine hsaves _ (s.saveCap_looksUp g.place.ctx).groups ?_ ?_
      · rw [exec_groupSave_first hg hs hq ho]
        change (match pages with | none => _ | some ps => _) = _
        rw [hps]
      · refine List.any_eq_true.mpr ⟨_, List.mem_append_right _ (List.mem_singleton.mpr rfl), ?_⟩
        simp
    · rw [exec_groupSave_first hg hs hq ho]
      change (match pages with | none => _ | some ps => _) = _
      rw [hps]
  · intro s k b hb hw u plan
    have hstep : exec (.blockResume k) s = if !u.wholeSaved b || u.resumeLater b then .next u
        else match plan with
        | some l => if l.any fun e => u.banksChange e.2.core then .next u else .next (u.resume b l)
        | none => .next (u.askWake b.ctx) := by
      change execBlockResume k s = _
      unfold execBlockResume
      simp only [hb]
      rfl
    have hwhole : u.wholeSaved b = true := hw
    rw [hstep, hwhole]
    refine ⟨fun h => ?_, fun h l hl hbk => ?_, fun h l hl hbk => ?_, fun h hl => ?_⟩
    · rw [h]
      rfl
    · rw [h, hl]
      refine if_pos (List.any_eq_true.mpr ?_)
      exact hbk
    · rw [h, hl]
      obtain ⟨hsaved, hev, -, hgroups, -⟩ := u.resume_spec b l
      have hbanks : (l.any fun e => u.banksChange e.2.core) = false := by
        rw [List.any_eq_false]
        exact fun e he => by simp [hbk e he]
      refine ⟨u.resume b l, ?_, hsaved, hev, hgroups⟩
      change (if (l.any fun e => u.banksChange e.2.core) = true then Host.Outcome.next u else .next (u.resume b l)) = _
      rw [hbanks]
      rfl
    · rw [h, hl]
      rfl
  · intro s n x part old h
    rw [exec_clusterContextSwitch s n x h]
    cases hold : old with
    | none =>
      rw [show ((s.cluster n).serves.find? fun e => e.1 == (s.ctx x).part) = none from hold]
      obtain ⟨hserves, hrecs, hgroups, hmem, hcharge, hposted⟩ := s.switchTo_spec n x part
      exact ⟨_, rfl, hserves, hrecs, hgroups, fun _ => hmem, hcharge, fun p hp => (hposted p hp).imp_left
        fun hp => ⟨hp, fun e he => absurd he (by simp)⟩⟩
    | some e =>
      rw [show ((s.cluster n).serves.find? fun e => e.1 == (s.ctx x).part) = some e from hold]
      obtain ⟨hg, -, -, hplat, hp, hk⟩ := s.park_spec n e.2
      obtain ⟨hserves, hrecs, hgroups, hmem, hcharge, hposted⟩ := (s.park n e.2).switchTo_spec n x part
      refine ⟨_, rfl, hserves, hrecs, hgroups.trans hg, fun hn => absurd hn (by simp), hcharge, fun p hpm => ?_⟩
      rcases hposted p hpm with hpm | ⟨k, hkm, hkn, hkx, hpk⟩
      · refine .inl ⟨(hp p hpm).1, fun e' he' => ?_⟩
        obtain rfl := Option.some.inj he'
        exact (hp p hpm).2
      · rcases hk k hkm with hkm | hky
        · exact .inr ⟨k, hkm, hkn, hkx, hpk⟩
        · exact absurd (hky.symm.trans hkx) (h e hold).1

end Sys2Proof.Machine
end

section
/-! SUPPORT. The masks of a group (R25): a list of strands lies in LIVE when every strand's active lanes are live, and what the
operations of the lane side do to that. -/
namespace Sys2Proof.Machine

/-! ## Strands in LIVE -/

/-- The active lanes of the strands, of which a group has at most 8, are live. -/
def strandsIn (l : List Strand) (live : Mask) : Prop :=
  ∀ j < 8, ∀ x, l[j]? = some x → ∀ k < 4, x.active.getLsbD k = true → live.getLsbD (4 * j + k) = true

theorem getLsbD_strandBits_at (m : Mask) (j : Nat) {k : Nat} (hk : k < 4) :
    (strandBits m j).getLsbD k = m.getLsbD (4 * j + k) := by
  have h := getLsbD_strandBits m (4 * j + k)
  rwa [show (4 * j + k) / 4 = j by omega, show (4 * j + k) % 4 = k by omega] at h

/-- A bit of a mask that the elements of a list add to. -/
theorem getLsbD_foldl_iff {α : Type} {n i : Nat} {f : BitVec n → α → BitVec n} {P : α → Prop}
    (h : ∀ m e, (f m e).getLsbD i = true ↔ m.getLsbD i = true ∨ P e) (l : List α) : ∀ m : BitVec n,
    (l.foldl f m).getLsbD i = true ↔ m.getLsbD i = true ∨ ∃ e ∈ l, P e := by
  induction l with
  | nil => simp
  | cons e r ih =>
    intro m
    rw [List.foldl_cons, ih, h, List.exists_mem_cons_iff, or_assoc]

/-- The lanes of a set of strands (R23). -/
theorem inGang_of_strandLanes {b : BitVec 8} {l : Nat} (h : (strandLanes b).getLsbD l = true) : inGang b (l / 4) = true := by
  unfold strandLanes at h
  rw [getLsbD_foldl_iff (P := fun j => b.getLsbD j = true ∧ (15#32 <<< (4 * j)).getLsbD l = true)] at h
  · obtain h | ⟨j, -, hb, hj⟩ := h
    · simp at h
    · rw [BitVec.getLsbD_shiftLeft] at hj
      simp only [Bool.and_eq_true, Bool.not_eq_true', decide_eq_false_iff_not, not_lt] at hj
      obtain ⟨⟨-, hle⟩, h15⟩ := hj
      have h4 : l - 4 * j < 4 := by
        by_contra hge
        have : (15#32).getLsbD (l - 4 * j) = false := by
          rw [BitVec.getLsbD_ofNat, Nat.testBit_lt_two_pow (x := 15), Bool.and_false]
          exact Nat.lt_of_lt_of_le (by decide : 15 < 2 ^ 4) (Nat.pow_le_pow_right (by decide) (by omega))
        rw [this] at h15
        exact absurd h15 (by decide)
      rw [show l / 4 = j by omega]
      exact hb
  · intro m j
    split
    · next hb => rw [BitVec.getLsbD_or, Bool.or_eq_true]; simp [hb]
    · next hb => simp [hb]

/-- The lanes of EXEC: each strand's active lanes stand at its place (R23). -/
theorem getLsbD_activeOf {l : List Strand} {i : Nat} : (activeOf l).getLsbD i = true ↔
    i < 32 ∧ ∃ x, l[i / 4]? = some x ∧ x.active.getLsbD (i % 4) = true := by
  unfold activeOf
  rw [getLsbD_foldl_iff (P := fun e : Strand × Nat => (e.1.active.setWidth 32 <<< (4 * e.2)).getLsbD i = true)
    fun m e => by rw [BitVec.getLsbD_or, Bool.or_eq_true]]
  have hbit : ∀ (x : Strand) (j : Nat), (x.active.setWidth 32 <<< (4 * j)).getLsbD i = true ↔
      i < 32 ∧ 4 * j ≤ i ∧ x.active.getLsbD (i - 4 * j) = true := by
    intro x j
    rw [BitVec.getLsbD_shiftLeft, BitVec.getLsbD_setWidth]
    simp only [Bool.and_eq_true, Bool.not_eq_true', decide_eq_true_eq, decide_eq_false_iff_not, not_lt]
    exact ⟨fun ⟨⟨h1, h2⟩, _, h3⟩ => ⟨h1, h2, h3⟩, fun ⟨h1, h2, h3⟩ => ⟨⟨h1, h2⟩, by omega, h3⟩⟩
  constructor
  · rintro (h | ⟨⟨x, j⟩, he, h⟩)
    · simp at h
    · obtain ⟨h1, h2, h3⟩ := (hbit x j).mp h
      obtain ⟨n, hn⟩ := List.mem_iff_getElem?.mp he
      obtain ⟨hx, hj⟩ := List.getElem?_zip_eq_some.mp hn
      obtain ⟨hlt, hj⟩ := List.getElem?_eq_some_iff.mp hj
      rw [List.getElem_range] at hj
      have hk : i - 4 * j < 4 := BitVec.lt_of_getLsbD h3
      dsimp only at hj hx
      subst hj
      refine ⟨h1, x, ?_, ?_⟩
      · rw [show i / 4 = n by omega]
        exact hx
      · rw [show i % 4 = i - 4 * n by omega]
        exact h3
  · rintro ⟨hi, x, hx, ha⟩
    refine .inr ⟨(x, i / 4), List.mem_iff_getElem?.mpr ⟨i / 4, List.getElem?_zip_eq_some.mpr ⟨hx, ?_⟩⟩,
      (hbit x (i / 4)).mpr ⟨hi, by omega, ?_⟩⟩
    · exact List.getElem?_range (by omega)
    · rw [show i - 4 * (i / 4) = i % 4 by omega]
      exact ha

/-- A mask lies in another. -/
theorem and_not_eq_zero_iff {n : Nat} (a b : BitVec n) : a &&& ~~~b = 0 ↔ ∀ i, a.getLsbD i = true → b.getLsbD i = true := by
  constructor
  · intro h i ha
    have hi : i < n := BitVec.lt_of_getLsbD ha
    have hz := congrArg (fun m => BitVec.getLsbD m i) h
    simpa [ha, hi] using hz
  · intro h
    refine BitVec.eq_of_getLsbD_eq fun i hi => ?_
    rw [BitVec.getLsbD_and, BitVec.getLsbD_not]
    have := h i
    cases ha : a.getLsbD i <;> simp_all

/-- EXEC of strands is a part of LIVE when their active lanes are live. -/
theorem activeOf_in {l : List Strand} {live : Mask} : activeOf l &&& ~~~live = 0 ↔ strandsIn l live := by
  rw [and_not_eq_zero_iff]
  constructor
  · intro h j hj x hx k hk ha
    refine h (4 * j + k) (getLsbD_activeOf.mpr ⟨by omega, x, ?_, ?_⟩)
    · rw [show (4 * j + k) / 4 = j by omega]
      exact hx
    · rw [show (4 * j + k) % 4 = k by omega]
      exact ha
  · intro h i hi
    obtain ⟨h32, x, hx, ha⟩ := getLsbD_activeOf.mp hi
    have := h (i / 4) (by omega) x hx (i % 4) (by omega) ha
    rwa [show 4 * (i / 4) + i % 4 = i by omega] at this

/-- The masks of a group are well formed when its strands are in LIVE while a block runs, and LIVE is in the group. -/
theorem Group.masksOk_iff {g : Group} : g.masksOk = true ↔
    (g.lanes.running = true → strandsIn g.lanes.strands g.regs.live) ∧ g.regs.live &&& ~~~(lowLanes g.info.size) = 0 := by
  unfold Group.masksOk Group.exec
  rw [Bool.and_eq_true, beq_iff_eq, beq_iff_eq]
  refine and_congr_left fun _ => ?_
  cases hr : g.lanes.running
  · simp
  · simp only [if_true, forall_const]
    exact activeOf_in

namespace strandsIn
variable {l : List Strand} {live live' : Mask}

theorem nil : strandsIn [] live := fun j _ x hx => by simp at hx

/-- Numbered strands, each of which stays in LIVE. -/
theorem numbered {f : Strand → Nat → Strand}
    (hf : ∀ j < 8, ∀ x, l[j]? = some x → ∀ k < 4, (f x j).active.getLsbD k = true → live'.getLsbD (4 * j + k) = true) :
    strandsIn ((l.zip (List.range 8)).map fun e => f e.1 e.2) live' := by
  intro j hj y hy k hk ha
  obtain ⟨x, hx, rfl⟩ := getElem?_zip_range (f := f) hy
  exact hf j hj x hx k hk ha

/-- Strands of a set that change, each within LIVE. -/
theorem modStrands {b : BitVec 8} {f : Nat → Strand → Strand} (h : strandsIn l live)
    (hf : ∀ j < 8, ∀ x, l[j]? = some x → inGang b j = true → ∀ k < 4, (f j x).active.getLsbD k = true →
      live.getLsbD (4 * j + k) = true) : strandsIn (modStrands b f l) live := by
  refine numbered (f := fun s j => if inGang b j then f j s else s) fun j hj x hx k hk ha => ?_
  split at ha
  · next hb => exact hf j hj x hx hb k hk ha
  · exact h j hj x hx k hk ha

/-- Strands of a set of which no active lane is new. -/
theorem modStrands_less {b : BitVec 8} {f : Nat → Strand → Strand} (h : strandsIn l live)
    (hf : ∀ j x k, (f j x).active.getLsbD k = true → x.active.getLsbD k = true) :
    strandsIn (Machine.modStrands b f l) live :=
  h.modStrands fun j hj x hx _ k hk ha => h j hj x hx k hk (hf j x k ha)

theorem regangNumbers {b : BitVec 8} (h : strandsIn l live) : strandsIn (regangNumbers b l) live :=
  h.modStrands_less fun _ _ _ ha => ha

theorem rewindStrands {own : BitVec 8} {pc : Nat} (h : strandsIn l live) : strandsIn (rewindStrands own pc l) live :=
  regangNumbers (h.modStrands_less fun _ _ _ ha => ha)

/-- The strands of which the lanes outside LIVE are taken off. -/
theorem dropDead : strandsIn (dropDead live l) live :=
  numbered (f := fun x j => x.dropLanes (strandBits live j)) fun j _ x _ k hk ha => by
    rw [Strand.dropLanes, BitVec.getLsbD_and, getLsbD_strandBits_at live j hk, Bool.and_eq_true] at ha
    exact ha.2

/-- Strands that are active in lanes of a mask within LIVE. -/
theorem of_active (h : ∀ j < 8, ∀ x, l[j]? = some x → ∃ m : Mask, x.active = strandBits (m &&& live) j) : strandsIn l live := by
  intro j hj x hx k hk ha
  obtain ⟨m, hm⟩ := h j hj x hx
  rw [hm, getLsbD_strandBits_at _ j hk, BitVec.getLsbD_and, Bool.and_eq_true] at ha
  exact ha.2

end strandsIn

end Sys2Proof.Machine
end

section
/-! SUPPORT. The two invariants of a step, canonical memories and well-formed masks (R25), as one predicate with a part for
each, and what the shared operations of the model do to it. -/
namespace Sys2Proof.Machine

/-! ## The predicate -/

/-- The masks of a group are well formed, where m asks for it. -/
def Group.sound (m : Prop) (g : Group) : Prop := m → g.masksOk = true

/-- The memories of a state are canonical, where c asks for it, and the masks of its resident and saved groups are well formed,
where m does. -/
def State.sound (c m : Prop) (s : State) : Prop :=
  (c → s.mem.canonical = true) ∧ (∀ g ∈ s.groups, g.sound m) ∧ ∀ k ∈ s.units.saved, ∀ g ∈ k.groups, g.sound m

/-- An answer with a next state has a sound one. -/
def Out.sound (c m : Prop) : Out → Prop
  | .next t => t.sound c m
  | _ => True

theorem State.sound_memCanonical {s : State} : s.sound True False ↔ s.memCanonical = true :=
  ⟨fun h => h.1 trivial, fun h => ⟨fun _ => h, fun _ _ => False.elim, fun _ _ _ _ => False.elim⟩⟩

theorem State.sound_masksOk {s : State} : s.sound False True ↔ s.masksOk = true := by
  unfold State.masksOk
  rw [Bool.and_eq_true, List.all_eq_true, List.all_eq_true]
  refine ⟨fun ⟨_, hg, hk⟩ => ⟨fun g h => hg g h trivial, fun k h => List.all_eq_true.mpr fun g h' => hk k h g h' trivial⟩,
    fun ⟨hg, hk⟩ => ⟨False.elim, fun g h _ => hg g h, fun k h g h' _ => List.all_eq_true.mp (hk k h) g h'⟩⟩

section
variable {c m : Prop} {s t : State} {g g' : Group}

/-! ## Groups -/

theorem Group.sound.of_eq (h : g.sound m) (he : g'.masksOk = g.masksOk) : g'.sound m := fun hm => he ▸ h hm

/-- A group with other strands within LIVE. -/
theorem Group.sound.withLanes {x : Lanes} (h : g.sound m)
    (hx : x.running = true → (g.lanes.running = true → strandsIn g.lanes.strands g.regs.live) →
      strandsIn x.strands g.regs.live) : ({ g with lanes := x } : Group).sound m := fun hm =>
  Group.masksOk_iff.mpr ⟨fun hr => hx hr (Group.masksOk_iff.mp (h hm)).1, (Group.masksOk_iff.mp (h hm)).2⟩

theorem Group.sound.idle (h : g.sound m) : ({ g with lanes := Lanes.idle } : Group).sound m :=
  h.withLanes fun hr => absurd hr (by decide)

/-- The strands of a running block change. -/
theorem Group.sound.withStrands {l : List Strand} (h : g.sound m)
    (hl : strandsIn g.lanes.strands g.regs.live → strandsIn l g.regs.live) :
    ({ g with lanes := { g.lanes with strands := l } } : Group).sound m :=
  h.withLanes fun hr hs => hl (hs hr)

theorem Group.land_masksOk (g : Group) (d : Dest) (w : Word) (b : Bool) : (g.land d w b).masksOk = g.masksOk := by
  unfold Group.land
  split
  · rfl
  · unfold Group.setP
    split <;> rfl
  · rfl
  · split <;> rfl
  all_goals rfl

theorem Group.landAll_masksOk (l : List Res) : ∀ g : Group, (g.landAll l).masksOk = g.masksOk := by
  induction l with
  | nil => exact fun _ => rfl
  | cons r l ih => exact fun g => (ih _).trans (g.land_masksOk ..)

theorem Group.landOf_masksOk (g : Group) (b : BitVec 8) : (g.landOf b).masksOk = g.masksOk := g.landAll_masksOk _
theorem Group.landEvery_masksOk (g : Group) : g.landEvery.masksOk = g.masksOk := g.landAll_masksOk _

theorem Group.setQ_masksOk (g : Group) (n : Nat) (b : Bool) : (g.setQ n b).masksOk = g.masksOk := by
  unfold Group.setQ
  split <;> rfl

theorem Group.mapWait_masksOk (g : Group) (f : Option Wait → Option Wait) : (g.mapWait f).masksOk = g.masksOk := by
  unfold Group.mapWait
  split <;> rfl

/-- What is pruned and still runs lies in LIVE. -/
theorem Lanes.prune_strandsIn {x : Lanes} {live left : Mask} (h : (x.prune live left).running = true) :
    strandsIn (x.prune live left).strands live := by
  unfold Lanes.prune at h ⊢
  dsimp only at h ⊢
  split at h
  · exact absurd h (by decide)
  · next hn =>
    rw [if_neg hn]
    exact strandsIn.numbered (f := fun s j => { s with part := s.part && strandBits left j != 0 })
      fun j hj y hy k hk ha => strandsIn.dropDead j hj y hy k hk ha

theorem Group.sound.enterHandler (h : g.sound m) (t : TrapReq) : (g.enterHandler t).sound m := Group.sound.idle h

/-! ## States -/

namespace State.sound

/-- A state with the memory's form, the groups and the saved blocks of another. -/
theorem of_parts (h : s.sound c m) (hm : s.mem.keepsForm t.mem) (hg : ∀ g ∈ t.groups, g.sound m)
    (hk : ∀ k ∈ t.units.saved, ∀ g ∈ k.groups, g.sound m) : t.sound c m := ⟨fun hc => hm (h.1 hc), hg, hk⟩

/-- A state that keeps the memory's form, with groups and saved blocks of the old one alone. -/
theorem of_subset (h : s.sound c m) (hm : s.mem.keepsForm t.mem) (hg : ∀ g ∈ t.groups, g ∈ s.groups)
    (hk : ∀ k ∈ t.units.saved, k ∈ s.units.saved) : t.sound c m :=
  h.of_parts hm (fun g h' => h.2.1 g (hg g h')) fun k h' => h.2.2 k (hk k h')

theorem of_eq (h : s.sound c m) (hm : s.mem.keepsForm t.mem) (hg : t.groups = s.groups) (hk : t.units.saved = s.units.saved) :
    t.sound c m := h.of_subset hm (fun _ h' => hg ▸ h') fun _ h' => hk ▸ h'

theorem of_memTurn (h : s.sound c m) (ht : s.memTurn t) : t.sound c m := h.of_eq ht.2 ht.groups (by rw [ht.units])
theorem of_looksUp (h : s.sound c m) (ht : s.looksUp t) : t.sound c m := h.of_memTurn (.of_looksUp ht)
theorem of_engTurn (h : s.sound c m) (ht : s.engTurn t) : t.sound c m := h.of_eq ht.2.1 ht.groups ht.saved
theorem of_unitTurn (h : s.sound c m) (ht : s.unitTurn t) : t.sound c m := by
  obtain ⟨hm, hk, hg⟩ := ht
  refine h.of_parts hm (fun g hg' ha => ?_) fun k hk' => h.2.2 k (hk ▸ hk')
  exact List.all_eq_true.mp (hg (List.all_eq_true.mpr fun x hx => h.2.1 x hx ha)) g hg'

theorem drawn (h : s.sound c m) : s.drawn.sound c m := h
theorem bumpId (h : s.sound c m) : s.bumpId.sound c m := h
theorem modPlat (h : s.sound c m) (f : Plat → Plat) : (s.modPlat f).sound c m := h
theorem modCtx (h : s.sound c m) (x : Nat) (f : Ctx → Ctx) : (s.modCtx x f).sound c m := h
theorem modPart (h : s.sound c m) (x : Nat) (f : Part → Part) : (s.modPart x f).sound c m := h
theorem modCluster (h : s.sound c m) (x : Nat) (f : Cluster → Cluster) : (s.modCluster x f).sound c m := h
theorem modCore (h : s.sound c m) (x : Nat) (f : Core → Core) : (s.modCore x f).sound c m := h
theorem modBox (h : s.sound c m) (x : Nat) (f : Mailbox → Mailbox) : (s.modBox x f).sound c m := h
theorem modLink (h : s.sound c m) (x : Nat) (f : Link → Link) : (s.modLink x f).sound c m := h
theorem modMem (h : s.sound c m) {f : MemSys → MemSys} (hf : s.mem.keepsForm (f s.mem)) : (s.modMem f).sound c m :=
  h.of_memTurn (.modMem hf)
/-- A change of the memory system beside its memories. -/
theorem modMem_beside (h : s.sound c m) {f : MemSys → MemSys}
    (hf : { f s.mem with hbm := s.mem.hbm, host := s.mem.host, peer := s.mem.peer, sram := s.mem.sram } = f s.mem) :
    (s.modMem f).sound c m := by
  refine h.modMem (.of_eq ?_ ?_ ?_ ?_) <;> rw [← hf]
theorem modUnits (h : s.sound c m) {f : Units → Units} (hf : (f s.units).saved = s.units.saved) : (s.modUnits f).sound c m :=
  h.of_eq (.refl _) rfl hf
theorem modLaunch (h : s.sound c m) (i : Nat) (f : Launch → Launch) : (s.modLaunch i f).sound c m := h.modUnits rfl

theorem ite (p : Prop) [Decidable p] (hs : s.sound c m) (ht : t.sound c m) : (if p then s else t).sound c m := by
  split
  · exact hs
  · exact ht

theorem foldl {α : Type} {f : State → α → State} (hf : ∀ (s : State) (a : α), s.sound c m → (f s a).sound c m) :
    ∀ (l : List α) (s : State), s.sound c m → (l.foldl f s).sound c m
  | [], _, h => h
  | a :: r, s, h => foldl hf r (f s a) (hf s a h)

/-- A group that is found is sound. -/
theorem group? (h : s.sound c m) {i : Nat} (hg : s.group? i = some g) : g.sound m := h.2.1 g (List.mem_of_find?_eq_some hg)

theorem mapGroups (h : s.sound c m) {f : Group → Group} (hf : ∀ g, g.sound m → (f g).sound m) :
    ({ s with groups := s.groups.map f } : State).sound c m := by
  refine h.of_parts (.refl _) (fun g hg => ?_) h.2.2
  obtain ⟨x, hx, rfl⟩ := List.mem_map.mp hg
  exact hf x (h.2.1 x hx)

theorem setGroup (h : s.sound c m) (hg : g.sound m) : (s.setGroup g).sound c m :=
  h.mapGroups fun x hx => by
    split
    · exact hg
    · exact hx

theorem modGroup (h : s.sound c m) {i : Nat} {f : Group → Group} (hf : ∀ g, g.sound m → (f g).sound m) :
    (s.modGroup i f).sound c m :=
  h.mapGroups fun x hx => by
    split
    · exact hf x hx
    · exact hx

theorem filterGroups (h : s.sound c m) (p : Group → Bool) : ({ s with groups := s.groups.filter p } : State).sound c m :=
  h.of_subset (.refl _) (fun _ hg => (List.mem_filter.mp hg).1) fun _ hk => hk

theorem mapSaved (h : s.sound c m) {f : SavedBlock → SavedBlock}
    (hf : ∀ k, (∀ g ∈ k.groups, g.sound m) → ∀ g ∈ (f k).groups, g.sound m) :
    (s.modUnits fun u => { u with saved := u.saved.map f }).sound c m := by
  refine h.of_parts (.refl _) h.2.1 fun k hk => ?_
  obtain ⟨x, hx, rfl⟩ := List.mem_map.mp hk
  exact hf x (h.2.2 x hx)

/-! ### Traps and the end of groups -/

theorem recordErr (h : s.sound c m) (x kind cause subc gid : Nat) : (s.recordErr x kind cause subc gid).sound c m := by
  unfold State.recordErr
  split <;> exact h

theorem withdrawIf (h : s.sound c m) (g : Group) (f : BReq → Bool) : (s.withdrawIf g f).sound c m := h
theorem withdraw (h : s.sound c m) (g : Group) : (s.withdraw g).sound c m := h

theorem leaveIds (h : s.sound c m) (ids : List Nat) : (s.leaveIds ids).sound c m := h.modUnits rfl

theorem leaveSet (h : s.sound c m) (g : Group) : (s.leaveSet g).sound c m := by
  unfold State.leaveSet
  split
  · exact h
  · exact h.leaveIds _

theorem retire (h : s.sound c m) (g : Group) : (s.retire g).sound c m := by
  obtain ⟨hk, hm, -, -⟩ := s.retire_keeps g
  refine h.of_subset hm (fun x hx => ?_) fun k hk' => hk ▸ hk'
  rw [State.retire_frame] at hx
  exact (List.mem_filter.mp hx).1

theorem terminate (h : s.sound c m) (g : Group) (kind cause subc : Nat) : (s.terminate g kind cause subc).sound c m :=
  (h.recordErr ..).retire g

theorem finishLaunches (h : s.sound c m) : s.finishLaunches.sound c m := by
  refine foldl (fun s l h => ?_) _ s h
  unfold State.launchDone
  split
  · exact h
  · split
    · exact (h.of_eq (t := s.modUnits fun u => { u with launches := u.launches.filter fun m => m.id != l.id }) (.refl _) rfl rfl)
    · exact h

theorem takeTrap (h : s.sound c m) (hg : g.sound m) (t : TrapReq) : (s.takeTrap g t).sound c m := by
  unfold State.takeTrap
  split
  · exact h.terminate ..
  · have hr := h.of_looksUp (s.useRegs_looksUp g.place.ctx)
    generalize s.useRegs g.place.ctx = r at hr
    obtain ⟨s1, r⟩ := r
    dsimp only at hr ⊢
    split
    · exact hr.terminate ..
    · have hf := hr.of_looksUp (s1.fetch4_looksUp { g.agent with handler := true } r.hbase)
      generalize s1.fetch4 { g.agent with handler := true } r.hbase = f at hf
      obtain ⟨s2, f⟩ := f
      cases f with
      | fault x => exact hf.terminate ..
      | word x => exact hf.setGroup (hg.enterHandler t)

theorem scalarTrap (h : s.sound c m) (hg : g.sound m) (cause subc : Nat) : (s.scalarTrap g cause subc).sound c m :=
  h.takeTrap (g := { g with wait := none, words := none }) hg _

theorem waitIn (h : s.sound c m) (hg : g.sound m) (w : Wait) : (s.waitIn g w).sound c m :=
  h.setGroup (g := { g with wait := some w }) hg

theorem scalarLen (h : s.sound c m) (g : Group) : (s.scalarLen g).1.sound c m := by
  unfold State.scalarLen
  split
  · exact h.of_looksUp (s.useRegs_looksUp g.place.ctx)
  · exact h

theorem scalarJump (h : s.sound c m) (hg : g.sound m) (target : Int) : (s.scalarJump g target).sound c m := by
  unfold State.scalarJump
  have hl := h.scalarLen g
  generalize s.scalarLen g = r at hl
  obtain ⟨t, n⟩ := r
  exact ite _ (hl.scalarTrap hg ..) (hl.setGroup (g := g.goTo target.toNat) hg)

/-- TRET takes off the lanes that have ended in the handler. -/
theorem trapReturn (h : s.sound c m) (hg : g.sound m) (t : Trap) : (s.trapReturn g t).sound c m := by
  have hw : (if t.spcWritten then s.withdraw g else s).sound c m := ite _ (h.withdraw g) h
  refine hw.setGroup (Group.sound.withLanes (g := { g with
    trap := none
    gen := if t.frame.running && !(t.lanes.prune g.regs.live g.lanesLeft).running then none
      else g.gen.map fun n => n.afterLoss g.regs.live
    dq := t.dq
    oldS := if (t.lanes.prune g.regs.live g.lanesLeft).running then t.oldS else []
    spc := t.spc
    holdFirst := g.holdTrap
    wait := if t.spcWritten then none else t.wait
    words := if !t.spcWritten && waitsOn t.wait t.words then t.words else none }) hg ?_)
  exact fun hr _ => Lanes.prune_strandsIn hr

end State.sound
end

end Sys2Proof.Machine
end

section
/-! SUPPORT. The frame of a scalar instruction, and what the shared operations on accesses do, keep the invariants. -/
namespace Sys2Proof.Machine

section
variable {c m : Prop} {s : State} {g : Group}

/-! ## Answers -/

theorem Out.sound_ite {p : Prop} [Decidable p] {o q : Out} (ho : p → Out.sound c m o) (hq : ¬p → Out.sound c m q) :
    Out.sound c m (if p then o else q) := by
  split
  · next h => exact ho h
  · next h => exact hq h

/-! ## The frames of scalar instructions -/

theorem scalarTurn?_sound (hs : s.sound c m) (hg : s.scalarTurn? = some g) : g.sound m := by
  unfold State.scalarTurn? at hg
  split at hg
  · exact hs.group? hg
  · exact absurd hg (by simp)

theorem scalarInstr_sound {regs : List Nat} {k : Group → Out} (hs : s.sound c m)
    (hk : ∀ g : Group, g.sound m → Out.sound c m (k g)) : Out.sound c m (scalarInstr s regs k) := by
  unfold scalarInstr
  split
  · trivial
  · next g hg =>
    have hg := scalarTurn?_sound hs hg
    exact Out.sound_ite (fun _ => hs.scalarTrap hg ..) fun _ => Out.sound_ite (fun _ => hs) fun _ => hk g hg

theorem scalarOp_sound {regs : List Nat} {n : Nat} {f : Group → Group} (hs : s.sound c m)
    (hf : ∀ g : Group, (f g).masksOk = g.masksOk) : Out.sound c m (scalarOp s regs n f) :=
  scalarInstr_sound hs fun g hg => hs.setGroup (g := (f g).advance n) (hg.of_eq (hf g))

theorem privileged_sound {regs : List Nat} {k : Group → Trap → Out} (hs : s.sound c m)
    (hk : ∀ g t, Group.sound m g → Out.sound c m (k g t)) : Out.sound c m (privileged s regs k) := by
  unfold privileged
  split
  · trivial
  · next g hg =>
    split
    · exact hs.scalarTrap (scalarTurn?_sound hs hg) ..
    · next t _ => exact scalarInstr_sound hs fun g hg => hk g t hg

theorem takeAsync_sound {spc : Nat} {k : Out} (hs : s.sound c m) (hg : g.sound m) (hk : Out.sound c m k) :
    Out.sound c m (takeAsync s g spc k) := by
  unfold takeAsync
  split
  · next a _ => exact Out.sound_ite (fun _ => hk) fun _ => hs.takeTrap (g := { g with async := none }) hg _
  · exact hk

/-! ## Accesses -/

namespace State.sound

theorem issueAcc (hs : s.sound c m) (hg : g.sound m) (a : Access) :
    (s.issueAcc g a).1.sound c m ∧ (s.issueAcc g a).2.sound m := by
  refine ⟨hs.modMem (f := fun x => { x with flight := x.flight ++ [a] }) (.of_eq rfl rfl rfl rfl), ?_⟩
  unfold State.issueAcc
  dsimp only
  split <;> exact hg

theorem modAcc (hs : s.sound c m) (i : Nat) (f : Access → Access) : (s.modAcc i f).sound c m := hs.of_memTurn (s.modAcc_memTurn i f)
theorem dropAcc (hs : s.sound c m) (i : Nat) : (s.dropAcc i).sound c m := hs.of_memTurn (s.dropAcc_memTurn i)
theorem acquireCore (hs : s.sound c m) (core part : Nat) : (s.acquireCore core part).sound c m :=
  hs.of_memTurn (s.acquireCore_memTurn core part)

theorem setPromotion (hs : s.sound c m) (g : Group) (o : MOrd) (sc : Scope) : (s.setPromotion g o sc).sound c m := by
  unfold State.setPromotion
  split
  · exact hs.modMem (.of_eq rfl rfl rfl rfl)
  · exact hs

theorem startDrain (hs : s.sound c m) (x : Nat) (prom : Bool) : (s.startDrain x prom).1.sound c m := by
  unfold State.startDrain
  split
  · dsimp only
    split
    · exact hs
    · exact hs.of_eq (.of_eq rfl rfl rfl rfl) rfl rfl
  · exact hs

theorem startDrains (hs : s.sound c m) (g : Group) : (s.startDrains g).sound c m := by
  unfold State.startDrains
  split
  · exact (hs.startDrain g.place.ctx true).modGroup fun _ h => h
  · exact hs

theorem settleGroup (hs : s.sound c m) (g : Group) : (s.settleGroup g).sound c m := by
  unfold State.settleGroup
  dsimp only
  have hd := hs.startDrains g
  generalize s.startDrains g = t at hd
  split
  · exact hd
  · have he : (t.modGroup (((t.group? g.gid).getD g).gid) fun g => { g with
        holds := g.holds.filter fun h => !t.holdOver h }).sound c m := hd.modGroup fun _ h => h
    split
    · exact (he.acquireCore ..).modGroup fun _ h => h
    · exact he

theorem settle (hs : s.sound c m) : s.settle.sound c m := by
  refine finishLaunches (foldl (fun s g h => h.settleGroup g) _ _ ?_)
  exact hs.modMem (.of_eq rfl rfl rfl rfl)

end State.sound

/-! ## Synchronisation -/

theorem syncWith_sound {o : MOrd} {sc : Scope} {prom : Bool} {arg : Nat} {k : State → Group → Out} (hs : s.sound c m)
    (hg : g.sound m) (hk : ∀ t g', State.sound c m t → Group.sound m g' → Out.sound c m (k t g')) :
    Out.sound c m (s.syncWith g o sc prom arg k) := by
  unfold State.syncWith
  extract_lets r s1 ready n s2
  have hr : s1.sound c m := by
    dsimp only [s1, r]
    split
    · exact hs
    · exact hs.setPromotion ..
  have hn : s2.sound c m := by
    dsimp only [s2, n]
    split
    · exact hr.startDrain ..
    · exact hr
  clear_value s2 n ready s1 r
  refine Out.sound_ite (fun _ => Out.sound_ite (fun _ => hk _ _ (hn.acquireCore ..) hg) fun _ => hk _ _ hn hg) fun _ => ?_
  exact hn.waitIn hg _

theorem syncThen_sound {o : MOrd} {sc : Scope} {prom : Bool} {k : State → Group → Out} (hs : s.sound c m) (hg : g.sound m)
    (hk : ∀ t g', State.sound c m t → Group.sound m g' → Out.sound c m (k t g')) :
    Out.sound c m (s.syncThen g o sc prom k) := syncWith_sound hs hg hk

end

end Sys2Proof.Machine
end

section
/-! SUPPORT. Scalar arithmetic, branches, dispatches, special registers and traps keep the invariants. -/
namespace Sys2Proof.Machine

section
variable {c m : Prop} {s : State}

theorem s3_sound {d a b : Nat} {f : Group → Word} (hs : s.sound c m) : Out.sound c m (s3 s d a b f) :=
  scalarOp_sound hs fun _ => rfl

theorem execSmvxf_sound (hs : s.sound c m) (d a off : Nat) : Out.sound c m (execSmvxf d a off s) :=
  scalarInstr_sound hs fun _ hg => Out.sound_ite (fun _ => hs.scalarTrap hg ..) fun _ => scalarOp_sound hs fun _ => rfl

theorem execSmvxt_sound (hs : s.sound c m) (d a off : Nat) : Out.sound c m (execSmvxt d a off s) :=
  scalarInstr_sound hs fun _ hg => Out.sound_ite (fun _ => hs.scalarTrap hg ..) fun _ => scalarOp_sound hs fun _ => rfl

theorem execSldi_sound (hs : s.sound c m) (d : Nat) (pair : Bool) (imm : Nat) : Out.sound c m (execSldi d pair imm s) :=
  Out.sound_ite (fun _ => scalarOp_sound hs fun _ => rfl) fun _ => scalarOp_sound hs fun _ => rfl

/-! ## Branches -/

theorem execSbr_sound (hs : s.sound c m) (cond : Nat) (off : Int) : Out.sound c m (execSbr cond off s) :=
  scalarInstr_sound hs fun g hg => Out.sound_ite (fun _ => hs.scalarJump hg _) fun _ => hs.setGroup (g := g.advance 1) hg

theorem execSjmpr_sound (hs : s.sound c m) (a : Nat) : Out.sound c m (execSjmpr a s) :=
  scalarInstr_sound hs fun _ hg => hs.scalarJump hg _

theorem execSret_sound (hs : s.sound c m) : Out.sound c m (execSret s) :=
  scalarInstr_sound hs fun _ hg => hs.scalarJump hg _

theorem execScall_sound (hs : s.sound c m) (cond : Nat) (off : Int) : Out.sound c m (execScall cond off s) :=
  scalarInstr_sound hs fun g hg => Out.sound_ite
    (fun _ => Out.sound_ite (fun _ => (hs.scalarLen g).scalarTrap hg ..) fun _ =>
      (hs.scalarLen g).setGroup (g := (g.setS 63 (BitVec.ofNat 32 (g.spc + 1))).goTo _) hg)
    fun _ => hs.setGroup (g := g.advance 1) hg

theorem execSloop_sound (hs : s.sound c m) (d : Nat) (off : Int) : Out.sound c m (execSloop d off s) :=
  scalarInstr_sound hs fun g hg => Out.sound_ite (fun _ => hs.setGroup (g := (g.setS d _).advance 1) hg) fun _ =>
    Out.sound_ite (fun _ => (hs.scalarLen g).scalarTrap hg ..) fun _ =>
      (hs.scalarLen g).setGroup (g := (g.setS d _).goTo _) hg

/-! ## Lane blocks -/

/-- The strands of a block that starts on lanes of a mask are active in those lanes alone. -/
theorem startStrands_in {n start : Nat} {mask live : Mask} (h : ∀ i, mask.getLsbD i = true → live.getLsbD i = true) :
    strandsIn (startStrands n start mask) live := by
  intro j _ x hx k hk ha
  rw [getElem?_startStrands] at hx
  split at hx
  · obtain rfl := Option.some.inj hx
    rw [getLsbD_strandBits_at mask j hk] at ha
    exact h _ ha
  · exact absurd hx (by simp)

/-- A block starts on lanes that live. -/
theorem Group.sound.start {g : Group} (hg : g.sound m) {n start : Nat} {mask : Mask} {k : List Word}
    (h : ∀ i, mask.getLsbD i = true → g.regs.live.getLsbD i = true) :
    ({ g with lanes := Lanes.start n start mask k } : Group).sound m :=
  hg.withLanes fun _ _ => startStrands_in h

theorem execLgo_sound (hs : s.sound c m) (a n start : Nat) : Out.sound c m (execLgo a n start s) := by
  unfold execLgo
  split
  · trivial
  · next g hg =>
    refine Out.sound_ite (fun _ => hs.scalarTrap (scalarTurn?_sound hs hg) ..) fun _ => scalarInstr_sound hs fun g hg => ?_
    refine Out.sound_ite (fun _ => hs.scalarTrap hg ..) fun _ => Out.sound_ite (fun _ => hs) fun _ => ?_
    exact hs.setGroup (g := ({ g with dq := g.dq ++ [QBlock.mk start (lgoCopies g a n) []] } : Group).advance 2) hg

theorem execLgot_sound (hs : s.sound c m) (a n start : Nat) : Out.sound c m (execLgot a n start s) :=
  privileged_sound hs fun g t hg => Out.sound_ite (fun _ => hs.scalarTrap hg ..) fun _ =>
    Out.sound_ite (fun _ => hs) fun _ => hs.setGroup
      (g := ({ g with lanes := Lanes.start g.strandCount start (g.regs.live &&& strandLanes t.gang) (lgoCopies g a n) } :
        Group).advance 2) (hg.start fun i hi => by
          rw [BitVec.getLsbD_and, Bool.and_eq_true] at hi
          exact hi.1)

theorem Group.landScalar_masksOk (g : Group) : g.landScalar.masksOk = g.masksOk := g.landAll_masksOk _

theorem execLwait_sound (hs : s.sound c m) : Out.sound c m (execLwait s) :=
  scalarInstr_sound hs fun g hg => takeAsync_sound hs hg <| Out.sound_ite
    (fun _ => hs.setGroup (g := g.landScalar.advance 1) (hg.of_eq g.landScalar_masksOk)) fun _ => hs

/-! ## Special registers -/

theorem execSrds_sound (hs : s.sound c m) (d r : Nat) : Out.sound c m (execSrds d r s) :=
  scalarInstr_sound hs fun g hg => by
    split
    · exact hs.scalarTrap hg ..
    · next w _ =>
      refine scalarInstr_sound hs fun g hg => State.sound.setGroup ?_ ?_
      · exact State.sound.ite _ hs.drawn hs
      · exact hg

theorem Group.setFlgs_masksOk (w : Word) (l : List Nat) : ∀ g : Group, (l.foldl (fun g l => g.setFlg l w) g).masksOk = g.masksOk := by
  induction l with
  | nil => exact fun _ => rfl
  | cons a r ih => exact fun g => ih (g.setFlg a w)

theorem execSwrs_sound (hs : s.sound c m) (r b : Nat) : Out.sound c m (execSwrs r b s) :=
  scalarInstr_sound hs fun g hg => Out.sound_ite (fun _ => hs.scalarTrap hg ..) fun _ => scalarInstr_sound hs fun g hg => by
    have hin : ∀ f : Trap → Trap, Out.sound c m (match g.trap with
        | none => .next (s.scalarTrap g 0x01 0)
        | some t => .next (s.setGroup (({ g with trap := some (f t) } : Group).advance 1))) := by
      intro f
      split
      · exact hs.scalarTrap hg ..
      · next t _ => exact hs.setGroup (g := ({ g with trap := some (f t) } : Group).advance 1) hg
    dsimp only
    split
    · exact hs.setGroup (g := Group.advance _ 1) (hg.of_eq (Group.setFlgs_masksOk ..))
    · exact Out.sound_ite (fun _ => hs.scalarTrap hg ..) fun _ => hs.setGroup (g := (g.setRmode _).advance 1) hg
    · exact hin _
    · exact hin _
    · exact hin _
    · exact hs.scalarTrap hg ..

/-! ## Traps and EXIT -/

theorem execTrap_sound (hs : s.sound c m) (imm : Nat) : Out.sound c m (execTrap imm s) :=
  scalarInstr_sound hs fun _ hg => hs.takeTrap hg _

theorem execBkpt_sound (hs : s.sound c m) : Out.sound c m (execBkpt s) := scalarInstr_sound hs fun _ hg => hs.takeTrap hg _

theorem execTret_sound (hs : s.sound c m) : Out.sound c m (execTret s) :=
  privileged_sound hs fun _ _ hg => Out.sound_ite (fun _ => hs) fun _ =>
    Out.sound_ite (fun _ => hs.scalarTrap hg ..) fun _ => hs.trapReturn hg _

theorem execExit_sound (hs : s.sound c m) : Out.sound c m (execExit s) :=
  scalarInstr_sound hs fun g hg => takeAsync_sound hs hg <| Out.sound_ite (fun _ => hs.retire g) fun _ => hs

end

end Sys2Proof.Machine
end

section
/-! SUPPORT. Scalar memory instructions keep the invariants. -/
namespace Sys2Proof.Machine

section
variable {c m : Prop} {s : State}

theorem State.sound.check (hs : s.sound c m) (a : Agent) (w : Want) (va n : Nat) : (s.check a w va n).1.sound c m :=
  hs.of_looksUp (s.check_looksUp a w va n)

/-- An access issues, and the stream goes on. -/
theorem issueAdvance_sound {g : Group} (hs : s.sound c m) (hg : g.sound m) (a : Access) (n : Nat) :
    Out.sound c m (.next ((s.issueAcc g a).1.setGroup ((s.issueAcc g a).2.advance n))) :=
  (hs.issueAcc hg a).1.setGroup (g := Group.advance _ n) (hs.issueAcc hg a).2

theorem scalarAccess_sound {regs : List Nat} {a : Nat} {off : Int} {w : Want} {size : Nat} {o : MOrd} {sc : Scope} {prom : Bool}
    {mk : Group → Access → Access} (hs : s.sound c m) : Out.sound c m (scalarAccess s regs a off w size o sc prom mk) :=
  scalarInstr_sound hs fun g hg => Out.sound_ite (fun _ => hs) fun _ => by
    have hc := hs.check g.agent w (scalarEa g a off) size
    generalize s.check g.agent w (scalarEa g a off) size = r at hc
    obtain ⟨t, ck⟩ := r
    cases ck with
    | fail n code => exact hc.scalarTrap hg ..
    | ok l =>
      refine Out.sound_ite (fun _ => hs) fun _ => ?_
      have hd := (hc.setPromotion g o sc).startDrain g.place.ctx (prom && ordAcq o)
      generalize (t.setPromotion g o sc).startDrain g.place.ctx (prom && ordAcq o) = r at hd
      obtain ⟨u, d⟩ := r
      have hg' : ∀ l, (if ordAcq o then { g with holds := l } else g).sound m := fun l => by split <;> exact hg
      exact issueAdvance_sound hd (hg' _) _ 2

/-! ## Ranges -/

theorem State.lineLoc_looksUp (s : State) (a : Agent) (va : Nat) : s.looksUp (s.lineLoc a va).1 := by
  unfold State.lineLoc
  split
  · exact .refl s
  · have ht := s.translate_looksUp a.core a.ctx a.part (va % 2 ^ 57)
    generalize s.translate a.core a.ctx a.part (va % 2 ^ 57) = r at ht
    obtain ⟨t, w⟩ := r
    cases w with
    | fault n => exact ht
    | leaf pte size =>
      have hd : s.looksUp (if bits pte 4 3 = 2 then t.drawn else t) := by
        split
        · exact ht.trans (.drawn t)
        · exact ht
      dsimp only
      split
      · exact hd
      · split <;> exact hd

theorem State.lineLocs_looksUp (a : Agent) (l : List Nat) : ∀ s : State, s.looksUp (s.lineLocs a l).1 := by
  induction l with
  | nil => exact fun s => .refl s
  | cons va r ih =>
    intro s
    unfold State.lineLocs
    have hl := s.lineLoc_looksUp a va
    generalize s.lineLoc a va = x at hl
    obtain ⟨t, ck⟩ := x
    cases ck with
    | fail n code => exact hl.trans (ih t)
    | ok l => exact hl.trans (ih t)

theorem rangeOp_sound {d a : Nat} {off : Int} {kind : AccKind} (hs : s.sound c m) : Out.sound c m (rangeOp s d a off kind) :=
  scalarInstr_sound hs fun g hg => Out.sound_ite (fun _ => hs) fun _ => by
    extract_lets ea
    split
    · exact hs.setGroup (g := g.advance 2) hg
    · next v vs _ =>
      have hl := hs.of_looksUp (s.lineLoc_looksUp g.agent ea)
      generalize s.lineLoc g.agent ea = r at hl
      obtain ⟨t, ck⟩ := r
      cases ck with
      | fail n code => exact hl.scalarTrap hg ..
      | ok l =>
        exact issueAdvance_sound (hl.of_looksUp (t.lineLocs_looksUp g.agent (v :: vs))) hg _ 2

theorem State.prefetch_memTurn (s : State) (a : Agent) (scalar : Bool) (sc : Scope) (va : Nat) :
    s.memTurn (s.prefetch a scalar sc va) := by
  unfold State.prefetch
  have hc := State.memTurn.of_looksUp (s.check_looksUp a .load va 1)
  generalize s.check a .load va 1 = r at hc
  obtain ⟨t, ck⟩ := r
  cases ck with
  | fail n code => exact hc
  | ok l =>
    dsimp only
    split
    · have ht := hc.trans (t.touchBy_memTurn a.ctx .dflt l)
      split
      · exact ht.trans (State.addCopy_memTurn ..)
      · exact ht
    · exact hc

theorem execSpfxPf_sound (hs : s.sound c m) (d a : Nat) (sc : Scope) (off : Int) : Out.sound c m (execSpfxPf d a sc off s) :=
  scalarInstr_sound hs fun g hg => Out.sound_ite (fun _ => hs) fun _ =>
    (hs.of_memTurn (State.memTurn.foldl (fun s _ => s.prefetch_memTurn ..) _ s)).setGroup (g := g.advance 2) hg

theorem execSfnc_sound (hs : s.sound c m) (o : MOrd) (sc : Scope) (prom : Bool) : Out.sound c m (execSfnc o sc prom s) :=
  scalarInstr_sound hs fun _ hg => syncThen_sound hs hg fun _ g ht hg => ht.setGroup (g := g.advance 2) hg

theorem State.coreRead_memTurn (s : State) (g : Group) (l : Loc) (n : Nat) : s.memTurn (s.coreRead g l n).1 := by
  unfold State.coreRead
  dsimp only
  split
  · exact .refl s
  · split
    · exact .drawn s
    · exact s.touchBy_memTurn ..

end

end Sys2Proof.Machine
end

section
/-! SUPPORT. Engine instructions at issue keep the invariants. -/
namespace Sys2Proof.Machine

section
variable {c m : Prop} {s : State} {g : Group}

namespace State.sound

theorem asyncFault (hs : s.sound c m) (gid cause subc pos pc va : Nat) : (s.asyncFault gid cause subc pos pc va).sound c m := by
  cases hg : s.group? gid with
  | none => rwa [State.asyncFault_none hg]
  | some g =>
    obtain ⟨t, a, he, hgr, hun, -, hk, -⟩ := State.asyncFault_spec hg cause subc pos pc va
    have h0 := hs.group? hg
    rw [he]
    exact (hs.of_eq hk hgr (by rw [hun])).setGroup (g := { g with async := some a }) h0

theorem readRecord (hs : s.sound c m) (a : Agent) (va : Nat) : (s.readRecord a va).1.sound c m :=
  hs.of_engTurn (s.readRecord_engTurn a va)

theorem addCmd (hs : s.sound c m) (x : Cmd) : (s.addCmd x).sound c m := hs.of_eq (.refl _) rfl rfl

theorem yieldTarget (hs : s.sound c m) (g : Group) (cm : Compl) : (yieldTarget s g cm).1.sound c m := by
  unfold Machine.yieldTarget
  split
  · exact hs.scalarLen g
  · exact hs

theorem copyChecks (hs : s.sound c m) (g : Group) (b : List Word) (cm : Compl) (gran : Nat) :
    (s.copyChecks g b cm gran).1.sound c m := hs.readRecord g.engineAgent (blkAddr b 0)

theorem mmacChecks (hs : s.sound c m) (g : Group) (b : List Word) : (s.mmacChecks g b).1.sound c m :=
  (hs.readRecord g.engineAgent (blkAddr b 0)).readRecord g.engineAgent (blkAddr b 2)

end State.sound

theorem Group.issued_masksOk (g : Group) (cm : Compl) (x target : Nat) : (g.issued cm x target).masksOk = g.masksOk := by
  unfold Group.issued
  split <;> rfl

theorem continueAt_sound (hs : s.sound c m) (hg : g.sound m) (target : Nat) : Out.sound c m (s.continueAt g target) :=
  takeAsync_sound (g := { g.acquires _ with wait := none }) (hs.acquireCore ..) hg
    ((hs.acquireCore ..).setGroup (g := Group.goTo _ target) hg)

theorem engineInstr_sound {regs : List Nat} {a : Nat} {k : Group → List Word → Out} (hs : s.sound c m)
    (hk : ∀ g b, Group.sound m g → Out.sound c m (k g b)) : Out.sound c m (engineInstr s regs a k) := by
  unfold engineInstr
  split
  · exact scalarInstr_sound hs fun g hg => Out.sound_ite (fun _ => hs) fun _ => continueAt_sound hs hg _
  · exact scalarInstr_sound hs fun g hg => hk g _ hg

theorem engineIssue_sound {target : Option Nat} {checks : List (Option Nat)} {cm : Compl} {x : Cmd} {entries : Nat}
    (hs : s.sound c m) (hg : g.sound m) : Out.sound c m (s.engineIssue g target checks cm x entries) := by
  unfold State.engineIssue
  split
  · exact hs.scalarTrap hg ..
  · exact State.sound.ite _ hs (hs.scalarTrap hg ..)
  · exact Out.sound_ite (fun _ => hs) fun _ => (hs.addCmd x).setGroup (hg.of_eq (g.issued_masksOk ..))

/-! ## Copies and matrix commands -/

theorem execCpy_sound (hs : s.sound c m) (a : Nat) (cm : Compl) (gran : Nat) : Out.sound c m (execCpy a cm gran s) :=
  engineInstr_sound hs fun g b hg => engineIssue_sound ((hs.yieldTarget g cm).copyChecks g b cm gran) hg

theorem execMmac_sound (hs : s.sound c m) (a : Nat) : Out.sound c m (execMmac a s) :=
  engineInstr_sound hs fun g b hg => engineIssue_sound (hs.mmacChecks g b) hg

theorem execMzro_sound (hs : s.sound c m) (a : Nat) : Out.sound c m (execMzro a s) :=
  engineInstr_sound hs fun _ _ hg => engineIssue_sound hs hg

theorem execMacc_sound (hs : s.sound c m) (a : Nat) : Out.sound c m (execMacc a s) :=
  engineInstr_sound hs fun _ _ hg => engineIssue_sound hs hg

theorem execCpym_sound (hs : s.sound c m) (a gran k : Nat) : Out.sound c m (execCpym a gran k s) :=
  engineInstr_sound hs fun g b hg => by
    have h := (hs.copyChecks g b .none gran).mmacChecks g ((List.range 8).map fun i => g.getS (k + i))
    dsimp only
    split
    · exact State.sound.ite _ h (h.scalarTrap hg ..)
    · exact Out.sound_ite (fun _ => h) fun _ => ((h.addCmd _).addCmd _).setGroup (g := g.advance 2) hg

theorem execMfnc_sound (hs : s.sound c m) (d : Nat) : Out.sound c m (execMfnc d s) := scalarOp_sound hs fun _ => rfl

theorem matrixWait_sound {regs : List Nat} {n : Group → Nat} (hs : s.sound c m) : Out.sound c m (matrixWait s regs n) :=
  scalarInstr_sound hs fun g hg => takeAsync_sound hs hg <| Out.sound_ite
    (fun _ => hs.setGroup (g := g.advance 2) hg) fun _ => hs.waitIn hg _

theorem execMcast_sound (hs : s.sound c m) (a : Nat) (cm : Compl) (gran : Nat) : Out.sound c m (execMcast a cm gran s) :=
  engineInstr_sound hs fun g _ hg => engineIssue_sound ((hs.yieldTarget g cm).readRecord ..) hg

theorem indexedCopy_sound {a : Nat} {cm : Compl} {gran : Nat} {scatter : Bool} (hs : s.sound c m) :
    Out.sound c m (indexedCopy s a cm gran scatter) :=
  engineInstr_sound hs fun g _ hg => engineIssue_sound ((hs.yieldTarget g cm).readRecord ..) hg

/-! ## Messages and the record fence -/

theorem execMsnd_sound (hs : s.sound c m) (d a : Nat) (cm : Compl) : Out.sound c m (execMsnd d a cm s) :=
  engineInstr_sound hs fun g _ hg => engineIssue_sound (hs.yieldTarget g cm) hg

theorem execMpst_sound (hs : s.sound c m) (d a : Nat) (cm : Compl) : Out.sound c m (execMpst d a cm s) :=
  engineInstr_sound hs fun g b hg => by
    have h := hs.yieldTarget g cm
    dsimp only
    split
    · exact h.scalarTrap hg ..
    · refine Out.sound_ite (fun _ => h) fun _ => ?_
      split
      · exact ((h.modUnits rfl).addCmd _).setGroup (hg.of_eq (Group.issued_masksOk _ cm _ _))
      · refine Out.sound_ite (fun _ => h.setGroup (g := (g.setS d _).advance 2) hg) fun _ => ?_
        exact ((h.modUnits rfl).addCmd _).setGroup (hg.of_eq (Group.issued_masksOk _ cm _ _))

theorem execMprb_sound (hs : s.sound c m) (d a : Nat) : Out.sound c m (execMprb d a s) :=
  engineInstr_sound hs fun g _ hg => Out.sound_ite (fun _ => hs.setGroup (g := (g.setS d _).advance 2) hg)
    fun _ => hs.scalarTrap hg ..

theorem execRcfnc_sound (hs : s.sound c m) : Out.sound c m (execRcfnc s) :=
  scalarInstr_sound hs fun _ hg => syncThen_sound hs hg fun _ g ht hg => (ht.modUnits rfl).setGroup (g := g.advance 2) hg

end

end Sys2Proof.Machine
end

section
/-! SUPPORT. Synchronisation keeps the invariants: barriers, events, launches, tasks, jobs and timed waits. -/
namespace Sys2Proof.Machine

section
variable {c m : Prop} {s : State} {g : Group}

/-- The waits of groups change. -/
theorem State.sound.mapWaits (hs : s.sound c m) (p : Group → Bool) (f : Group → Option Wait → Option Wait) :
    ({ s with groups := s.groups.map fun g => if p g then g.mapWait (f g) else g } : State).sound c m :=
  hs.mapGroups fun g hg => by
    split
    · exact hg.of_eq (g.mapWait_masksOk _)
    · exact hg

/-! ## Barriers -/

theorem State.sound.arriveAt (hs : s.sound c m) (g : Group) (block : Bool) (n : Nat) : (s.arriveAt g block n).sound c m :=
  hs.modUnits rfl

theorem State.sound.openBarriers (hs : s.sound c m) : s.openBarriers.sound c m := hs.modUnits rfl

theorem State.sound.sendBar (hs : s.sound c m) (g : Group) (off cls n : Nat) : (s.sendBar g off cls n).sound c m :=
  hs.modUnits rfl

theorem execBar_sound (hs : s.sound c m) (block : Bool) (n : Nat) : Out.sound c m (execBar block n s) :=
  scalarInstr_sound hs fun g hg => by
    split
    · exact hs
    · exact Out.sound_ite (fun _ => (hs.acquireCore ..).setGroup (g := Group.advance _ 2) hg) fun _ => hs
    · exact syncThen_sound hs hg fun t g ht hg => ((ht.arriveAt g block n).openBarriers).setGroup (g := { g with
        wait := some (.barrier block n) }) hg

theorem execBarrierReleaseWave_sound (hs : s.sound c m) (cluster k : Nat) :
    Out.sound c m (execBarrierReleaseWave cluster k s) := by
  unfold execBarrierReleaseWave
  split
  · exact hs
  · next b _ =>
    refine State.sound.mapWaits (s := s.modUnits _) ?_ (fun g => List.contains _ g.gid)
      fun _ w => if w == some (.barrier b.team.isNone b.n) then some .released else w
    exact hs.modUnits rfl

theorem execBarp_sound (hs : s.sound c m) (a off : Nat) : Out.sound c m (execBarp a off s) :=
  scalarInstr_sound hs fun g hg => by
    dsimp only
    split
    · exact hs.scalarTrap hg ..
    · exact (hs.sendBar ..).setGroup (g := g.advance 2) hg

theorem execBara_sound (hs : s.sound c m) (a off : Nat) : Out.sound c m (execBara a off s) :=
  scalarInstr_sound hs fun g hg => by
    dsimp only
    split
    · exact hs.scalarTrap hg ..
    · exact syncWith_sound hs hg fun t g ht hg => (State.sound.ite _ ht (ht.sendBar ..)).setGroup (g := g.advance 2) hg

theorem execBarw_sound (hs : s.sound c m) (d a off : Nat) : Out.sound c m (execBarw d a off s) :=
  scalarInstr_sound hs fun g hg => takeAsync_sound hs hg <| by
    split
    · exact hs.scalarTrap hg ..
    · exact Out.sound_ite (fun _ => (hs.acquireCore ..).setGroup (g := Group.advance _ 2) hg) fun _ => hs.waitIn hg _

theorem execByteBarrierArrive_sound (hs : s.sound c m) (k : Nat) : Out.sound c m (execByteBarrierArrive k s) := by
  unfold execByteBarrierArrive
  split
  · exact hs
  · refine Out.sound_ite (fun _ => hs) fun _ => ?_
    have ht : (s.modUnits fun u => { u with arrivals := removeNth k u.arrivals }).sound c m := hs.modUnits rfl
    dsimp only
    split
    · exact ht.of_memTurn (State.locWrite_memTurn ..)
    · exact State.sound.ite _ (ht.asyncFault ..) ht

/-! ## Events -/

theorem execEvset_sound (hs : s.sound c m) (n : Nat) : Out.sound c m (execEvset n s) :=
  scalarInstr_sound hs fun _ hg => Out.sound_ite (fun _ => hs.scalarTrap hg ..) fun _ =>
    syncThen_sound hs hg fun t g ht hg => State.sound.setGroup (s := t.raiseEvent _ _ n) (g := g.advance 1) ht hg

theorem execEvclr_sound (hs : s.sound c m) (n : Nat) : Out.sound c m (execEvclr n s) :=
  scalarInstr_sound hs fun g hg => (hs.modCtx _ _).setGroup (g := g.advance 1) hg

theorem execEvwait_sound (hs : s.sound c m) (n : Nat) : Out.sound c m (execEvwait n s) :=
  scalarInstr_sound hs fun _ hg => takeAsync_sound hs hg <| Out.sound_ite
    (fun _ => (hs.acquireCore ..).setGroup (g := Group.advance _ 1) hg) fun _ => hs.waitIn hg _

theorem State.sound.showEvents (hs : s.sound c m) (x : Nat) : (s.showEvents x).sound c m :=
  hs.mapWaits (fun g => g.place.ctx == x && !g.suspended) _

theorem execEventVectorUpdate_sound (hs : s.sound c m) (x : Nat) : Out.sound c m (execEventVectorUpdate x s) :=
  State.sound.showEvents (s := ({ s with draws := s.draws + (s.ctx x).evOps.length } : State).modCtx x _) hs x

/-! ## Launches and tasks -/

theorem execLaunch_sound (hs : s.sound c m) (d a : Nat) (off : Int) : Out.sound c m (execLaunch d a off s) :=
  scalarInstr_sound hs fun g hg => Out.sound_ite (fun _ => hs) fun _ => syncWith_sound hs hg fun s g' hs hg => by
    generalize g.operand (scalarEa g a off) = ea
    have hc := hs.check g'.agent .load ea 256
    generalize s.check g'.agent .load ea 256 = r at hc
    obtain ⟨t, ck⟩ := r
    cases ck with
    | fail n code => exact hc.scalarTrap hg ..
    | ok l =>
      refine Out.sound_ite (fun _ => hs) fun _ => ?_
      have hr := hc.of_memTurn ((t.coreRead_memTurn g' l 128).trans (State.coreRead_memTurn _ g' (l.plus 128) 128))
      generalize t.coreRead g' l 128 = r at hr
      obtain ⟨u, lo⟩ := r
      dsimp only at hr ⊢
      generalize u.coreRead g' (l.plus 128) 128 = r at hr
      obtain ⟨v, hi⟩ := r
      have hput : ∀ (w : State) (x : Word), w.sound c m → (w.setGroup ((g'.setS d x).advance 2)).sound c m :=
        fun w x hw => hw.setGroup (g := (g'.setS d x).advance 2) hg
      exact Out.sound_ite (fun _ => hput _ _ hr) fun _ => Out.sound_ite (fun _ => hput _ _ (hr.modCtx _ _)) fun _ =>
        Out.sound_ite (fun _ => hput _ _ hr) fun _ => hput _ _ (hr.modCtx _ _)

theorem execTsig_sound (hs : s.sound c m) (id : Nat) : Out.sound c m (execTsig id s) :=
  scalarInstr_sound hs fun _ hg => Out.sound_ite (fun _ => hs.scalarTrap hg ..) fun _ =>
    syncThen_sound hs hg fun _ g ht hg => (ht.modUnits rfl).setGroup (g := g.advance 2) hg

theorem execTaskDecrement_sound (hs : s.sound c m) (k : Nat) : Out.sound c m (execTaskDecrement k s) := by
  unfold execTaskDecrement
  split
  · exact hs
  · exact Out.sound_ite (fun _ => hs) fun _ => (hs.modUnits rfl).modCtx _ _

/-! ## Job control blocks -/

theorem jobAt_sound {ea : Nat} {k : State → Nat → Out} (hs : s.sound c m) (hg : g.sound m)
    (hk : ∀ t pa, State.sound c m t → Out.sound c m (k t pa)) : Out.sound c m (jobAt s g ea k) := by
  unfold jobAt
  have hc := hs.check g.agent (.atomic true) ea 64
  generalize s.check g.agent (.atomic true) ea 64 = r at hc
  split
  · exact State.sound.scalarTrap hc hg ..
  · exact hk _ _ hc
  · exact State.sound.scalarTrap hc hg ..

theorem State.sound.putJob (hs : s.sound c m) (x core pa : Nat) (j : Job) : (s.putJob x core pa j).sound c m :=
  hs.of_memTurn ((s.writeBy_memTurn ..).trans (State.dropCopies_memTurn ..))

theorem atJob_sound {pa : Nat} {k : State → Job → Out} (hs : s.sound c m)
    (hk : ∀ t j, State.sound c m t → Out.sound c m (k t j)) : Out.sound c m (s.atJob pa k) :=
  hk _ _ (hs.of_memTurn (s.finishWide_memTurn _))

theorem raiseJob_sound (hs : s.sound c m) (hg : g.sound m) (pa n : Nat) : Out.sound c m (s.raiseJob g pa n) :=
  Out.sound_ite (fun _ => hs.waitIn hg _) fun _ => atJob_sound hs fun _ _ ht =>
    Out.sound_ite (fun _ => ht.scalarTrap hg ..) fun _ => Out.sound_ite (fun _ => ht.scalarTrap hg ..) fun _ =>
      (ht.putJob ..).setGroup (g := g.advance 2) hg

theorem execJraise_sound (hs : s.sound c m) (d a : Nat) (off : Int) : Out.sound c m (execJraise d a off s) :=
  scalarInstr_sound hs fun g hg => by
    split
    · exact raiseJob_sound hs hg ..
    · exact Out.sound_ite (fun _ => hs) fun _ => jobAt_sound hs hg fun _ pa ht =>
        Out.sound_ite (fun _ => ht.scalarTrap hg ..) fun _ => raiseJob_sound ht hg ..

theorem State.sound.jobDone (hs : s.sound c m) (x core pa : Nat) (j : Job) : (s.jobDone x core pa j).sound c m :=
  State.sound.ite _ (hs.putJob ..) (hs.putJob ..)

theorem completeJob_sound (hs : s.sound c m) (hg : g.sound m) (pa : Nat) : Out.sound c m (s.completeJob g pa) :=
  Out.sound_ite (fun _ => hs.waitIn hg _) fun _ => atJob_sound hs fun _ _ ht =>
    Out.sound_ite (fun _ => ht.scalarTrap hg ..) fun _ => Out.sound_ite (fun _ => ht.scalarTrap hg ..) fun _ =>
      Out.sound_ite (fun _ => ht.scalarTrap hg ..) fun _ =>
        (ht.jobDone ..).setGroup (g := ({ g with doneList := g.doneList ++ [pa] } : Group).advance 2) hg

theorem execJdone_sound (hs : s.sound c m) (a : Nat) (off : Int) : Out.sound c m (execJdone a off s) :=
  scalarInstr_sound hs fun g hg => by
    have hrel : ∀ t pa, State.sound c m t →
        Out.sound c m (t.syncWith g .rel .dev false pa fun s g => s.completeJob g pa) :=
      fun t pa ht => syncWith_sound ht hg fun _ _ hu hg => completeJob_sound hu hg pa
    dsimp only
    split
    · exact completeJob_sound hs hg _
    · exact hrel _ _ hs
    · exact Out.sound_ite (fun _ => hs) fun _ => jobAt_sound hs hg fun _ pa ht =>
        Out.sound_ite (fun _ => ht.scalarTrap hg ..) fun _ => Out.sound_ite (fun _ => ht.scalarTrap hg ..) fun _ => hrel _ pa ht

/-! ## Yield, timed waits, tiles -/

theorem execYield_sound (hs : s.sound c m) : Out.sound c m (execYield s) :=
  scalarInstr_sound hs fun g hg => Out.sound_ite (fun _ => hs) fun _ =>
    hs.setGroup (g := ({ g with yielded := true } : Group).advance 1) hg

theorem State.sound.timedEnd (hs : s.sound c m) (hg : g.sound m) (t : Nat) : (s.timedEnd g t).sound c m :=
  hs.setGroup (g := ({ g with due := some (s.lateBy g.place.core t) } : Group).advance 1) hg

theorem timedWait_sound {regs : List Nat} {deadline : Group → Nat} (hs : s.sound c m) :
    Out.sound c m (timedWait s regs deadline) :=
  scalarInstr_sound hs fun g hg => by
    split
    · exact hs.timedEnd hg _
    · exact hs
    · exact Out.sound_ite (fun _ => hs.timedEnd hg _) fun _ => hs.waitIn hg _

theorem execTimedWaitExpiry_sound (hs : s.sound c m) (gid : Nat) : Out.sound c m (execTimedWaitExpiry gid s) :=
  hs.modGroup fun g hg => hg.of_eq (g.mapWait_masksOk _)

theorem State.sound.lookAgain (hs : s.sound c m) (x : Nat) : (s.lookAgain x).sound c m :=
  (hs.showEvents x).mapWaits (fun g => g.place.ctx == x && !g.suspended) _

theorem execPpt_sound (hs : s.sound c m) (k : Nat) : Out.sound c m (execPpt k s) :=
  scalarInstr_sound hs fun g hg => Out.sound_ite (fun _ => hs.scalarTrap hg ..) fun _ =>
    hs.setGroup (g := ({ g with liveTiles := k } : Group).advance 1) hg

end

end Sys2Proof.Machine
end

section
/-! SUPPORT. Bundles and the Carillon keep the invariants. -/
namespace Sys2Proof.Machine

section
variable {c m : Prop} {s : State} {g : Group}

namespace State.sound

theorem of_bundleTurn {t : State} (hs : s.sound c m) (ht : s.bundleTurn t) : t.sound c m := by
  obtain ⟨he, hm, -⟩ := ht
  exact hs.of_eq hm (congrArg State.groups he :) (congrArg (fun t => State.units t |>.saved) he :)

theorem declare (hs : s.sound c m) (g : Group) (rec : List Byte) : (s.declare g rec).1.sound c m := by
  unfold State.declare
  dsimp only
  split
  · exact hs
  · split
    · exact hs
    · split
      · exact hs
      · split
        · exact hs
        · split
          · exact hs
          · exact hs.modUnits rfl

end State.sound

theorem execBdecl_sound (hs : s.sound c m) (d a : Nat) (off : Int) : Out.sound c m (execBdecl d a off s) :=
  scalarInstr_sound hs fun g hg => Out.sound_ite (fun _ => hs) fun _ => by
    have hc := hs.check g.agent .load (scalarEa g a off) 128
    generalize s.check g.agent .load (scalarEa g a off) 128 = r at hc
    obtain ⟨t, ck⟩ := r
    cases ck with
    | fail n code => exact hc.scalarTrap hg ..
    | ok l =>
      refine Out.sound_ite (fun _ => hc) fun _ => ?_
      have hr := hc.of_memTurn (t.coreRead_memTurn g l 128)
      generalize t.coreRead g l 128 = r at hr
      obtain ⟨u, rec⟩ := r
      have hd := State.sound.declare hr g rec
      dsimp only
      generalize u.declare g rec = r at hd
      exact State.sound.setGroup hd (g := (g.setS d r.2).advance 2) hg

/-! ## Entering and leaving -/

theorem Group.entersBy_masksOk (g : Group) (r : BReq) : (g.entersBy r).masksOk = g.masksOk := by
  unfold Group.entersBy
  dsimp only
  split <;> rfl

theorem State.sound.enterSet (hs : s.sound c m) (r : BReq) : (s.enterSet r).sound c m := by
  unfold State.enterSet
  split
  · exact hs
  · next g hg =>
    have hg := hs.group? hg
    dsimp only
    split
    · refine State.sound.lookAgain (State.sound.setGroup ?_ ?_) _
      · exact hs.modUnits rfl
      · exact hg
    · refine State.sound.setGroup ?_ (hg.of_eq (Group.entersBy_masksOk _ r))
      exact hs.modUnits rfl

theorem State.sound.strays (hs : s.sound c m) (g : Group) (off : Option Int) : (s.strays g off).1.sound c m := by
  unfold State.strays
  split
  · exact hs
  · exact hs.scalarLen g

theorem enterBundles_sound {a : Nat} {off : Option Int} (hs : s.sound c m) : Out.sound c m (enterBundles s a off) :=
  scalarInstr_sound hs fun g hg => by
    dsimp only
    split
    · exact hs.setGroup (g := g.goTo _) hg
    · split
      · exact hs
      · exact Out.sound_ite (fun _ => hs) fun _ => (hs.withdraw g).scalarTrap hg ..
    · have ht := hs.strays g off
      generalize s.strays g off = r at ht
      obtain ⟨t, b⟩ := r
      cases b with
      | true => exact ht.scalarTrap hg ..
      | false =>
        refine Out.sound_ite (fun _ => ht.scalarTrap hg ..) fun _ => ?_
        split
        · exact ht.scalarTrap hg ..
        · exact (ht.modPart _ _).setGroup (g := { g with wait := some .bundle }) hg

theorem execBleave_sound (hs : s.sound c m) : Out.sound c m (execBleave s) :=
  scalarInstr_sound hs fun g hg => (hs.leaveSet g).setGroup
    (g := ({ g with entered := none, holdTimer := none } : Group).advance 1) hg

theorem execBqry_sound (hs : s.sound c m) (d a : Nat) : Out.sound c m (execBqry d a s) :=
  scalarInstr_sound hs fun _ hg => hs.setGroup (g := Group.advance _ 1) hg

theorem execBfree_sound (hs : s.sound c m) (d a : Nat) : Out.sound c m (execBfree d a s) :=
  scalarInstr_sound hs fun g hg => by
    have hput : ∀ (t : State) (w : Word), t.sound c m → (t.setGroup ((g.setS d w).advance 1)).sound c m :=
      fun t w ht => ht.setGroup (g := (g.setS d w).advance 1) hg
    dsimp only
    split
    · exact hput _ _ hs
    · exact Out.sound_ite (fun _ => hput _ _ hs) fun _ => Out.sound_ite (fun _ => hput _ _ hs) fun _ =>
        Out.sound_ite (fun _ => hput _ _ hs) fun _ => Out.sound_ite (fun _ => hput _ _ hs) fun _ =>
          hput _ _ (hs.of_bundleTurn (s.freeBundle_bundleTurn _))

/-! ## The Carillon -/

theorem State.sound.handleRequests (p : Nat) : ∀ (l : List BReq) (s : State), s.sound c m → (s.handleRequests p l).sound c m
  | [], _, hs => hs
  | r :: rs, s, hs => by
    unfold State.handleRequests
    dsimp only
    split
    · exact State.sound.handleRequests p rs s hs
    · split
      · exact State.sound.handleRequests p rs _ (State.sound.enterSet (hs.modPart _ _) r)
      · exact State.sound.handleRequests p rs _ (hs.modPart _ _)

theorem State.sound.holdTimers (hs : s.sound c m) (p : Nat) : (s.holdTimers p).sound c m := by
  have hf : ∀ g : Group, g.sound m → (if g.place.part == p then { g with holdTimer := s.timerOf p g } else g).sound m := by
    intro g hg
    split <;> exact hg
  refine State.sound.mapGroups (s := s.modUnits _) (hs.mapSaved (f := fun k => { k with groups := k.groups.map _ })
    fun k hk g hg => ?_) hf
  obtain ⟨x, hx, rfl⟩ := List.mem_map.mp hg
  exact hf x (hk x hx)

theorem State.moveLines_memTurn (s : State) (l : List Nat) : s.memTurn (s.moveLines l) := by
  refine State.memTurn.foldl (fun s l => ?_) _ s
  split
  · split
    · exact .refl s
    · exact (s.putKey_memTurn ..).trans (State.allot_memTurn ..)
  · exact .refl s

theorem State.sound.startFill (hs : s.sound c m) (ids : List Nat) : (s.startFill ids).sound c m :=
  State.sound.of_memTurn (s := s.modUnits _) (hs.of_eq (.refl _) rfl rfl) (State.moveLines_memTurn _ _)

theorem State.sound.evictBundles (hs : s.sound c m) (l : List Nat) : (l.foldl (fun s i => s.evictBundle i) s).sound c m :=
  State.sound.foldl (fun s _ h => h.of_bundleTurn (s.evictBundle_bundleTurn _)) l s hs

theorem execBundleLeaveHandle_sound (hs : s.sound c m) (p : Nat) : Out.sound c m (execBundleLeaveHandle p s) :=
  State.sound.handleRequests p _ s hs

theorem execBundleAdmissionTest_sound (hs : s.sound c m) (p : Nat) : Out.sound c m (execBundleAdmissionTest p s) := by
  unfold execBundleAdmissionTest
  have ht := State.sound.handleRequests p (s.part p).reqs s hs
  generalize s.handleRequests p (s.part p).reqs = t at ht
  dsimp only
  split
  · exact ht.holdTimers p
  · refine Out.sound_ite (fun _ => ht.holdTimers p) fun _ => ?_
    split
    · exact (((ht.evictBundles _).startFill _).modPart _ _).holdTimers p
    · exact ht.holdTimers p

theorem execBundleEvictComplete_sound (hs : s.sound c m) (id : Nat) : Out.sound c m (execBundleEvictComplete id s) := by
  unfold execBundleEvictComplete
  split
  · exact hs
  · next b _ =>
    refine Out.sound_ite (fun _ => hs) fun _ => ?_
    have ht : (s.evictLines b).sound c m :=
      hs.of_memTurn (State.memTurn.foldl (fun s l => .modMem (MemSys.dropLine_keepsForm _ _)) _ s)
    exact ht.of_eq (.refl _) rfl rfl

theorem State.sound.fillLines (hs : s.sound c m) (l : List Nat) : (s.fillLines l).sound c m :=
  hs.of_memTurn <| State.memTurn.foldl (fun _ _ => (State.memTurn.modMem (MemSys.touch_keepsForm _ _)).trans
    ((State.settleL2_memTurn ..).trans (State.moveLines_memTurn ..))) _ s

theorem State.sound.endFill (hs : s.sound c m) (ids : List Nat) : (s.endFill ids).sound c m :=
  State.sound.evictBundles (s := s.modUnits _) (hs.of_eq (.refl _) rfl rfl) _

theorem execBundleFillComplete_sound (hs : s.sound c m) (gid : Nat) : Out.sound c m (execBundleFillComplete gid s) := by
  unfold execBundleFillComplete
  split
  · exact hs
  · next r _ =>
    refine Out.sound_ite (fun _ => hs) fun _ => Out.sound_ite (fun _ => hs.modPart _ _) fun _ => ?_
    exact (((hs.fillLines _).endFill _).modPart _ _).enterSet r

/-! ## The hold limit -/

theorem execHoldLimitExpiry_sound (hs : s.sound c m) (gid : Nat) : Out.sound c m (execHoldLimitExpiry gid s) := by
  unfold execHoldLimitExpiry
  have ht := State.sound.foldl (fun s (e : Nat × Part) h => State.sound.holdTimers h e.1) s.plat.parts s hs
  generalize s.plat.parts.foldl (fun s e => s.holdTimers e.1) s = t at ht
  dsimp only
  split
  · next g hg =>
    have hg := ht.2.1 g (List.mem_of_find?_eq_some hg)
    have hu : ∀ u : State, u.sound c m → ((u.leaveSet g).setGroup { g with
        entered := none, saved := none, holdTimer := none, holdTrap := true
        suspended := g.suspended && g.saved.isNone }).sound c m :=
      fun u hu => (hu.leaveSet g).setGroup hg
    have hw : (match g.saved with
        | some b => t.withdrawIf g fun r => r.asksFor b
        | none => t).sound c m := by
      split <;> exact ht
    exact State.sound.ite _ ((hu _ hw).lookAgain _) (hu _ hw)
  · refine ht.mapSaved (f := fun k => { k with groups := k.groups.map _ }) fun k hk g hg => ?_
    obtain ⟨x, hx, rfl⟩ := List.mem_map.mp hg
    split <;> exact hk x hx

theorem execHoldLimitTrap_sound (hs : s.sound c m) (gid : Nat) : Out.sound c m (execHoldLimitTrap gid s) := by
  unfold execHoldLimitTrap
  split
  · exact hs
  · next g hg =>
    have hg := hs.group? hg
    exact Out.sound_ite (fun _ => hs.takeTrap (g := { g with holdTrap := false, holdFirst := false }) hg _) fun _ => hs

end

end Sys2Proof.Machine
end

section
/-! SUPPORT. The steps of the engines keep the invariants. -/
namespace Sys2Proof.Machine

section
variable {c m : Prop} {s : State}

namespace State.sound

theorem setCmd (hs : s.sound c m) (x : Cmd) : (s.setCmd x).sound c m := hs.of_eq (.refl _) rfl rfl

theorem unitsDone (hs : s.sound c m) (x : Cmd) (ks : List Nat) : (s.unitsDone x ks).sound c m :=
  hs.of_engTurn (s.unitsDone_engTurn x ks)

theorem arriveBytes (hs : s.sound c m) (x : Cmd) (core n : Nat) : (s.arriveBytes x core n).sound c m := by
  rw [State.arriveBytes_arrivals]
  exact hs.of_eq (.refl _) rfl rfl

theorem restoreOut (hs : s.sound c m) (x : Cmd) (k : Nat) : (s.restoreOut x k).sound c m := by
  unfold State.restoreOut
  split
  · next hg _ =>
    have hg := hs.group? hg
    exact hs.setGroup hg
  · exact hs

theorem tellSender (hs : s.sound c m) (x : Cmd) (status : Nat) : (s.tellSender x status).sound c m := by
  unfold State.tellSender
  split
  · next src len dst tag sreg told _ =>
    have ht := hs.setCmd { x with kind := .send src len dst tag sreg true }
    dsimp only
    split
    · next g hg =>
      have hg := ht.group? hg
      exact ht.setGroup (g := g.setS sreg _) hg
    · exact ht
  · exact hs

theorem refuseFaults (hs : s.sound c m) (cl x pos : Nat) : (s.refuseFaults cl x pos).sound c m :=
  State.sound.foldl (fun _ _ h => h.asyncFault ..) _ s hs

theorem dropAtBoundary (hs : s.sound c m) (i : Nat) : (s.dropAtBoundary i).sound c m :=
  State.sound.ite _ (State.sound.finishLaunches (hs.of_eq (.refl _) rfl rfl)) hs

theorem work (hs : s.sound c m) (i k : Nat) : (s.work i k).sound c m := by
  unfold State.work
  split
  · exact hs
  · next x _ =>
    refine State.sound.ite _ hs ?_
    have hu := s.unitStep_turns x k
    generalize s.unitStep x k = u at hu
    cases u with
    | step t => exact hs.of_unitTurn hu
    | fault t => exact hs
    | idle => exact hs

theorem workTurn (hs : s.sound c m) (i k : Nat) : (s.workTurn i k).sound c m := by
  unfold State.workTurn
  split
  · exact State.sound.ite _ hs ((hs.work i k).dropAtBoundary i)
  · exact hs

end State.sound

theorem execEngineCommandStart_sound (hs : s.sound c m) (i : Nat) : Out.sound c m (execEngineCommandStart i s) := by
  unfold execEngineCommandStart
  split
  · exact hs
  · exact Out.sound_ite (fun _ => hs.setCmd _) fun _ => hs

theorem execEngineCommandComplete_sound (hs : s.sound c m) (i : Nat) : Out.sound c m (execEngineCommandComplete i s) := by
  unfold execEngineCommandComplete
  split
  · exact hs
  · next x _ =>
    refine Out.sound_ite (fun _ => State.sound.finishLaunches ?_) fun _ => hs
    exact (hs.arriveBytes x x.core x.lastBytes).of_eq (.refl _) rfl rfl

theorem execEngineFault_sound (hs : s.sound c m) (i k : Nat) : Out.sound c m (execEngineFault i k s) := by
  unfold execEngineFault
  split
  · exact hs
  · next x _ =>
    refine Out.sound_ite (fun _ => hs) fun _ => ?_
    have hu := s.unitStep_turns x k
    generalize s.unitStep x k = u at hu
    cases u with
    | step t => exact hs
    | fault t u subc pos va => exact (((hs.of_engTurn hu).restoreOut x u).unitsDone _ _).asyncFault ..
    | idle => exact hs

theorem execCpymFollowOnHandoff_sound (hs : s.sound c m) (i : Nat) : Out.sound c m (execCpymFollowOnHandoff i s) := by
  unfold execCpymFollowOnHandoff
  split
  · exact hs
  · split
    · exact hs
    · exact Out.sound_ite (fun _ => hs) fun _ => hs.setCmd _

theorem execSegmentSubrecordRead_sound (hs : s.sound c m) (i seg : Nat) :
    Out.sound c m (execSegmentSubrecordRead i seg s) := by
  unfold execSegmentSubrecordRead
  split
  · exact hs
  · next x _ =>
    split
    · next b segs _ =>
      dsimp only
      refine Out.sound_ite (fun _ => hs) fun _ => Out.sound_ite (fun _ => (hs.unitsDone _ _).asyncFault ..) fun _ => ?_
      generalize ((x.record 1).scale + 64 * segs.getD seg 0xFFFF) % 2 ^ 64 = va
      have hr := hs.readRecord x.agent va
      generalize s.readRecord x.agent va = r at hr
      obtain ⟨t, rr⟩ := r
      cases rr with
      | wait => exact hr
      | trap code => exact (hr.unitsDone _ _).asyncFault ..
      | ok bs =>
        exact Out.sound_ite (fun _ => (hr.unitsDone _ _).asyncFault ..) fun _ =>
          Out.sound_ite (fun _ => (hr.unitsDone _ _).asyncFault ..) fun _ =>
            Out.sound_ite (fun _ => (hr.unitsDone _ _).asyncFault ..) fun _ => hr.setCmd _
    · exact hs

theorem execBatchComplete_sound (hs : s.sound c m) (gid : Nat) : Out.sound c m (execBatchComplete gid s) := by
  unfold execBatchComplete
  split
  · exact hs
  · next g hg =>
    have hg := hs.group? hg
    exact Out.sound_ite (fun _ => hs) fun _ => hs.setGroup (g := { g with doneBatch := g.doneBatch + 1 }) hg

theorem execRecordCacheEvict_sound (hs : s.sound c m) (cluster k : Nat) : Out.sound c m (execRecordCacheEvict cluster k s) := by
  unfold execRecordCacheEvict
  split
  · exact hs
  · exact hs.modUnits rfl

theorem execMessageArrival_sound (hs : s.sound c m) (i : Nat) : Out.sound c m (execMessageArrival i s) := by
  unfold execMessageArrival
  split
  · exact hs
  · next x _ =>
    split
    · refine Out.sound_ite (fun _ => hs) fun _ => ?_
      dsimp only
      refine Out.sound_ite (fun _ => hs.tellSender x 3) fun _ => ?_
      split
      · refine State.sound.tellSender ?_ x 0
        refine hs.of_parts (.refl _) hs.2.1 fun k hk g hg => ?_
        obtain ⟨y, hy, rfl⟩ := List.mem_map.mp hk
        exact hs.2.2 y hy g hg
      · refine Out.sound_ite (fun _ => State.sound.tellSender ?_ x 1) fun _ =>
          State.sound.tellSender ((hs.refuseFaults ..).modCtx _ _) x 2
        exact hs.of_eq (.refl _) rfl rfl
    · exact hs

end

end Sys2Proof.Machine
end

section
/-! SUPPORT. The frame of a lane instruction and the ends that lane instructions share keep the invariants. -/
namespace Sys2Proof.Machine

/-- What a lane instruction works on is sound: its active lanes are the gang's, and live while a block runs. -/
structure Lane.sound (c m : Prop) (x : Lane) : Prop where
  state : x.s.sound c m
  group : x.g.sound m
  live : m → x.g.lanes.running = true → ∀ i, x.act.getLsbD i = true → x.g.regs.live.getLsbD i = true
  own : ∀ i, x.act.getLsbD i = true → inGang x.gang (i / 4) = true

section
variable {c m : Prop} {s : State} {g : Group} {x : Lane}

theorem Group.sound.strands (hg : g.sound m) (hm : m) (hr : g.lanes.running = true) :
    strandsIn g.lanes.strands g.regs.live := (Group.masksOk_iff.mp (hg hm)).1 hr

/-- Strands that change within LIVE. -/
theorem Group.sound.modLanes {f : List Strand → List Strand} (hg : g.sound m)
    (hf : m → g.lanes.running = true → strandsIn g.lanes.strands g.regs.live → strandsIn (f g.lanes.strands) g.regs.live) :
    (g.modLanes f).sound m := fun hm =>
  Group.masksOk_iff.mpr ⟨fun hr => hf hm hr (hg.strands hm hr), (Group.masksOk_iff.mp (hg hm)).2⟩

/-- Strands that change with no new active lane. -/
theorem Group.sound.modStrands_less {b : BitVec 8} {f : Nat → Strand → Strand} (hg : g.sound m)
    (hf : ∀ j y k, (f j y).active.getLsbD k = true → y.active.getLsbD k = true) :
    (g.modLanes (modStrands b f)).sound m := hg.modLanes fun _ _ h => h.modStrands_less hf

theorem Group.sound.regang (hg : g.sound m) (b : BitVec 8) : (g.regang b).1.sound m :=
  hg.modStrands_less (f := fun _ t => { t with gang := _ }) fun _ _ _ h => h

theorem Group.sound.laneNext (hg : g.sound m) (b : BitVec 8) : (g.laneNext b).sound m :=
  hg.modStrands_less (f := fun _ t => { t with pc := t.pc + 1 }) fun _ _ _ h => h

theorem Group.sound.landOf (hg : g.sound m) (b : BitVec 8) : (g.landOf b).sound m := hg.of_eq (g.landOf_masksOk b)

theorem Group.sound.writeExec (hg : g.sound m) (b : BitVec 8) (w : Mask) : (g.writeExec b w).sound m :=
  hg.modLanes (f := modStrands b fun j t => { t with active := strandBits (w &&& g.regs.live) j }) fun _ _ h =>
    h.modStrands fun j _ _ _ _ k hk ha => by
      rw [getLsbD_strandBits_at _ j hk, BitVec.getLsbD_and, Bool.and_eq_true] at ha
      exact ha.2

/-! ## The active lanes of a gang -/

/-- ACT lies in any mask that holds the gang's active lanes, and in LIVE (R175). -/
theorem Group.actOf_sub {P : Nat → Prop} (g : Group) (b : BitVec 8) (guard : Mask)
    (h0 : ∀ i, (activeOf g.lanes.strands).getLsbD i = true → inGang b (i / 4) = true → P i)
    (h1 : ∀ i, g.regs.live.getLsbD i = true → inGang b (i / 4) = true → P i) :
    ∀ i, (g.actOf b guard).getLsbD i = true → P i := by
  have key : ∀ (l : List (BitVec 8 × Mask)) (act : Mask), (∀ i, act.getLsbD i = true → P i) → ∀ i,
      (l.foldl (fun act (o, m) => (act &&& ~~~(strandLanes (o &&& b))) ||| (m &&& g.regs.live &&& strandLanes (o &&& b)))
        act).getLsbD i = true → P i := by
    intro l
    induction l with
    | nil => exact fun _ h => h
    | cons e r ih =>
      intro act h
      refine ih _ fun i hi => ?_
      rw [BitVec.getLsbD_or, Bool.or_eq_true, BitVec.getLsbD_and, BitVec.getLsbD_and, BitVec.getLsbD_and] at hi
      simp only [Bool.and_eq_true] at hi
      obtain ⟨ha, -⟩ | ⟨⟨-, hl⟩, hs⟩ := hi
      · exact h i ha
      · refine h1 i hl ?_
        have hg := inGang_of_strandLanes hs
        unfold inGang at hg ⊢
        rw [BitVec.getLsbD_and, Bool.and_eq_true] at hg
        exact hg.2
  refine key _ _ fun i hi => ?_
  rw [BitVec.getLsbD_and, BitVec.getLsbD_and] at hi
  simp only [Bool.and_eq_true] at hi
  exact h0 i hi.1.1 (inGang_of_strandLanes hi.1.2)

/-- A lane of EXEC lives while a block runs. -/
theorem Group.sound.active (hg : g.sound m) (hm : m) (hr : g.lanes.running = true) (i : Nat)
    (hi : (activeOf g.lanes.strands).getLsbD i = true) : g.regs.live.getLsbD i = true :=
  (and_not_eq_zero_iff _ _).mp (activeOf_in.mpr (hg.strands hm hr)) i hi

/-- A gang at issue. -/
theorem Lane.sound.atIssue (hs : s.sound c m) (hg : g.sound m) (b : BitVec 8) (guard : Mask) :
    ({ s := s, g := g, gang := b, pc := g.pcOf b, act := g.actOf b guard } : Lane).sound c m where
  state := hs
  group := hg
  live := fun hm hr => g.actOf_sub b guard (fun i hi _ => hg.active hm hr i hi) fun _ h _ => h
  own := g.actOf_sub b guard (fun _ _ h => h) fun _ _ h => h

/-! ## Traps -/

theorem Lane.sound.taken (hs : x.s.sound c m) (hg : x.g.sound m) (cause subc swc lpc : Nat) (flt wm : Mask) :
    (x.taken? cause subc swc lpc flt wm).sound c m := hs.takeTrap (hg.landOf x.gang) _

theorem Lane.trapAt_sound (hs : x.s.sound c m) (hg : x.g.sound m) {cause subc swc lpc : Nat} {flt wm : Mask} :
    Out.sound c m (x.trapAt cause subc swc lpc flt wm) := State.sound.ite _ hs (Lane.sound.taken hs hg ..)

theorem Lane.sound.trapAt (hx : x.sound c m) (cause subc swc lpc : Nat) (flt wm : Mask) :
    Out.sound c m (x.trapAt cause subc swc lpc flt wm) := Lane.trapAt_sound hx.state hx.group

theorem Lane.sound.trap (hx : x.sound c m) (cause : Nat) : Out.sound c m (x.trap cause) := hx.trapAt ..

/-! ## The frame -/

theorem laneTurn?_sound {b : BitVec 8} (hs : s.sound c m) (hg : s.laneTurn? = some (g, b)) : g.sound m := by
  unfold State.laneTurn? at hg
  split at hg
  · split at hg
    · next h =>
      obtain ⟨rfl, -⟩ := Prod.mk.inj (Option.some.inj hg)
      exact hs.group? h
    · exact absurd hg (by simp)
  · exact absurd hg (by simp)

theorem laneFrame_sound {rg sw : Bool} {h : Option Hdr} {dsts srcs : List (Opnd × Nat)} {k : Lane → Out} (hs : s.sound c m)
    (hk : ∀ x : Lane, x.sound c m → Out.sound c m (k x)) : Out.sound c m (laneFrame s rg sw h dsts srcs k) := by
  unfold laneFrame
  split
  · trivial
  · next g b hg =>
    have hg := laneTurn?_sound hs hg
    have hr : (if rg then g.regang b else (g, b)).1.sound m := by
      split
      · exact hg.regang b
      · exact hg
    generalize (if rg then g.regang b else (g, b)) = r at hr
    obtain ⟨g, b⟩ := r
    dsimp only at hr ⊢
    have ht := hs.setGroup hr
    refine Out.sound_ite (fun _ => ht) fun _ => ?_
    have hl : (if sw then g.landOf b else g).sound m := by
      split
      · exact hr.landOf b
      · exact hr
    generalize (if sw then g.landOf b else g) = g' at hl
    have hx := fun guard => Lane.sound.atIssue ht hl b guard
    refine Out.sound_ite (fun _ => (hx _).trap _) fun _ => Out.sound_ite (fun _ => (hx _).trap _) fun _ => hk _ ?_
    exact ⟨ht, hl, (hx _).live, (hx _).own⟩

theorem laneInstr_sound {h : Hdr} {dsts srcs : List (Opnd × Nat)} {k : Lane → Out} (hs : s.sound c m)
    (hk : ∀ x : Lane, x.sound c m → Out.sound c m (k x)) : Out.sound c m (laneInstr s h dsts srcs k) :=
  laneFrame_sound hs hk

/-! ## Ends of instructions -/

theorem Lane.sound.spent (hx : x.sound c m) : x.spent.sound c m := State.sound.ite _ hx.state hx.state

theorem Lane.finish_sound (hs : x.s.sound c m) (hg : x.g.sound m) (rs : List Res) : Out.sound c m (x.finish rs) :=
  State.sound.setGroup (State.sound.ite _ hs hs) (Group.sound.laneNext (g := { x.g with pend := x.g.pend ++ rs }) hg x.gang)

theorem Lane.sound.finish (hx : x.sound c m) (rs : List Res) : Out.sound c m (x.finish rs) :=
  Lane.finish_sound hx.state hx.group rs

theorem Lane.sound.writeAnd (hx : x.sound c m) (d : Opnd) (n : Nat) (f : Nat → Nat × Nat) (more : List Res) :
    Out.sound c m (x.writeAnd d n f more) := by
  unfold Lane.writeAnd
  dsimp only
  split
  · split
    · exact hx.finish []
    · exact Lane.finish_sound (x := { x with g := x.g.writeExec x.gang _ }) hx.state (hx.group.writeExec _ _) _
  · exact Out.sound_ite (fun _ => hx.trap _) fun _ => hx.finish _
  · exact hx.finish _

theorem Lane.sound.write (hx : x.sound c m) (d : Opnd) (n : Nat) (f : Nat → Nat × Nat) : Out.sound c m (x.write d n f) :=
  hx.writeAnd ..

theorem Lane.sound.put (hx : x.sound c m) (d : Opnd) (n : Nat) (f : Nat → Nat) : Out.sound c m (x.put d n f) := hx.write ..

end

end Sys2Proof.Machine
end

section
/-! SUPPORT. Lane memory instructions and lane control flow keep the invariants. -/
namespace Sys2Proof.Machine

section
variable {c m : Prop} {s : State} {g : Group} {x : Lane}

/-! ## Lane accesses -/

theorem State.laneCheck_looksUp (s : State) (g : Group) (noWatch : Bool) (w : Want) (hint : Hint) (ea n l : Nat) :
    s.looksUp (s.laneCheck g noWatch w hint ea n l).1 := by
  unfold State.laneCheck
  have hp := s.place_looksUp g.agent w ea n
  generalize s.place g.agent w ea n = r at hp
  obtain ⟨t, ck⟩ := r
  cases ck <;> exact hp

theorem State.laneChecks_looksUp (g : Group) (noWatch : Bool) (w : Want) (hint : Hint) (ea : Nat → Nat) (n : Nat)
    (l : List Nat) : ∀ s : State, s.looksUp (s.laneChecks g noWatch w hint ea n l).1 := by
  induction l with
  | nil => exact fun s => .refl s
  | cons a r ih => exact fun s => (s.laneCheck_looksUp ..).trans (ih _)

theorem State.sound.issueLanes {mk : Nat → Loc → Nat → Access} (rs : List LaneChk) : ∀ (s : State) (g : Group),
    s.sound c m → g.sound m → (s.issueLanes g mk rs).1.sound c m ∧ (s.issueLanes g mk rs).2.1.sound m := by
  induction rs with
  | nil => exact fun s g hs hg => ⟨hs, hg⟩
  | cons r rs ih =>
    intro s g hs hg
    unfold State.issueLanes
    split
    · next l _ =>
      obtain ⟨h1, h2⟩ := hs.issueAcc hg (mk r.lane l s.nextId)
      exact ih _ _ h1 h2
    · exact ih s g hs hg

theorem Lane.issue_sound (hs : x.s.sound c m) (hg : x.g.sound m) (op : MemOp) (rs : List LaneChk)
    (mk : Nat → Access → Access) : (x.issue op rs mk).s.sound c m ∧ (x.issue op rs mk).g.sound m := by
  unfold Lane.issue
  have hd := (hs.setPromotion x.g op.ord op.sc).startDrain x.g.place.ctx (op.prom && ordAcq op.ord)
  generalize (x.s.setPromotion x.g op.ord op.sc).startDrain x.g.place.ctx (op.prom && ordAcq op.ord) = r at hd
  obtain ⟨t, d⟩ := r
  obtain ⟨h1, h2⟩ := State.sound.issueLanes (mk := fun l loc id => mk l { x.g.access id .load loc op.size with
    scalar := false, own := x.gang, lane := l, ord := op.ord, sc := op.sc, hint := hintOn loc op.hint
    relWait := if ordRel op.ord then x.s.releaseIds x.g x.gang op.sc else [], drain := d }) rs t x.g hd hg
  exact ⟨h1, h2⟩

theorem Lane.sound.access (hx : x.sound c m) (op : MemOp) (lanes : List Nat) (ea : Nat → Nat) (mk : Nat → Access → Access) :
    Out.sound c m (x.access op lanes ea mk) := by
  unfold Lane.access
  refine Out.sound_ite (fun _ => hx.state) fun _ => ?_
  generalize (x.g.lanes.wpSkip &&& x.gang != 0) = noWatch
  have hc := hx.state.of_looksUp (State.laneChecks_looksUp x.g noWatch op.want op.hint ea op.size lanes x.s)
  generalize x.s.laneChecks x.g noWatch op.want op.hint ea op.size lanes = r at hc
  obtain ⟨t, rs⟩ := r
  have hi := Lane.issue_sound (x := { x with s := t }) hc hx.group op rs mk
  refine Out.sound_ite (fun _ => ?_) fun _ => Out.sound_ite (fun _ => hx.state) fun _ =>
    Out.sound_ite (fun _ => Lane.finish_sound hi.1 hi.2 []) fun _ => Out.sound_ite (fun _ => ?_) fun _ =>
      Out.sound_ite (fun _ => hx.state) fun _ => ?_
  · exact Lane.trapAt_sound (x := { x with
      s := t, g := { x.g with lanes := { x.g.lanes with replay := (x.gang, x.act) :: x.g.lanes.replay } } }) hc hx.group
  · exact Lane.trapAt_sound (x := { x with s := t }) hc hx.group
  · exact hi.1.setGroup hi.2

theorem execLd_sound (hs : s.sound c m) (h : Hdr) (w : MTy) (sx : Bool) (o : MOrd) (sc : Scope) (prom : Bool) (ch : Hint)
    (a b : Opnd) (off : Int) : Out.sound c m (execLd h w sx o sc prom ch a b off s) :=
  laneInstr_sound hs fun _ hx => hx.access ..

theorem execSt_sound (hs : s.sound c m) (h : Hdr) (w : MTy) (o : MOrd) (sc : Scope) (ch : Hint) (seq : Bool)
    (a b d : Opnd) (off : Int) : Out.sound c m (execSt h w o sc ch seq a b d off s) :=
  laneInstr_sound hs fun _ hx => hx.access ..

theorem execAtom_sound (hs : s.sound c m) (h : Hdr) (op : AOp) (t : ATy) (o : MOrd) (sc : Scope) (prom : Bool) (ch : Hint)
    (seq : Bool) (a b d : Opnd) : Out.sound c m (execAtom h op t o sc prom ch seq a b d s) :=
  laneInstr_sound hs fun _ hx => hx.access ..

theorem execAcas_sound (hs : s.sound c m) (h : Hdr) (t : ATy) (o : MOrd) (sc : Scope) (prom : Bool) (ch : Hint)
    (seq : Bool) (a b d e : Opnd) : Out.sound c m (execAcas h t o sc prom ch seq a b d e s) :=
  laneInstr_sound hs fun _ hx => hx.access ..

theorem execAred_sound (hs : s.sound c m) (h : Hdr) (op : AOp) (t : ATy) (o : MOrd) (sc : Scope) (ch : Hint)
    (seq : Bool) (a b d : Opnd) : Out.sound c m (execAred h op t o sc ch seq a b d s) :=
  laneInstr_sound hs fun _ hx => hx.access ..

theorem execPfx_sound (hs : s.sound c m) (h : Hdr) (sc : Scope) (ch : Hint) (b : Opnd) (off : Int) :
    Out.sound c m (execPfx h sc ch b off s) :=
  laneInstr_sound hs fun x hx => Out.sound_ite (fun _ => hx.state) fun _ =>
    Lane.finish_sound (x := { x with s := _ })
      (hx.state.of_memTurn (State.memTurn.foldl (fun s _ => s.prefetch_memTurn ..) _ x.s)) hx.group []

theorem execFence_sound (hs : s.sound c m) (h : Hdr) (o : MOrd) (sc : Scope) (prom : Bool) :
    Out.sound c m (execFence h o sc prom s) :=
  laneInstr_sound hs fun x hx => Out.sound_ite (fun _ => hx.state) fun _ =>
    State.sound.settle (Lane.finish_sound (x := { x with
      s := x.s.setPromotion x.g o sc
      g := { x.g with holds := x.g.holds ++ [{ own := x.gang, all := false, values := if ordAcq o then x.s.gangValues x.g x.gang else []
                                               acks := if ordRel o then x.s.releaseIds x.g x.gang sc else [], sc := sc, drain := none
                                               acquire := ordAcq o && sc != .grp, ratchet := none, prom := prom && ordAcq o }] } })
      (hx.state.setPromotion ..) hx.group [])

/-! ## Control flow -/

/-- A control step after which each strand's active lanes are some that it had, or live ones. -/
theorem Lane.sound.control (hx : x.sound c m) {f : Nat → Strand → Strand}
    (hf : m → x.g.lanes.running = true → ∀ j y, (∀ k < 4, y.active.getLsbD k = true → x.g.regs.live.getLsbD (4 * j + k) = true) →
      ∀ k < 4, (f j y).active.getLsbD k = true → x.g.regs.live.getLsbD (4 * j + k) = true) :
    Out.sound c m (x.control f) :=
  hx.spent.setGroup <| hx.group.modLanes fun hm hr h => strandsIn.regangNumbers <|
    h.modStrands fun j hj y hy _ => hf hm hr j y (h j hj y hy)

/-- The lanes of a strand that an instruction acts in live. -/
theorem Lane.sound.taken_live (hx : x.sound c m) (hm : m) (hr : x.g.lanes.running = true) {j k : Nat} (hk : k < 4)
    (ha : (x.taken j).getLsbD k = true) : x.g.regs.live.getLsbD (4 * j + k) = true := by
  rw [Lane.taken, getLsbD_strandBits_at _ j hk] at ha
  exact hx.live hm hr _ ha

theorem execBrl_sound (hs : s.sound c m) (h : Hdr) (toff joff : Int) : Out.sound c m (execBrl h toff joff s) :=
  laneInstr_sound hs fun x hx => Out.sound_ite (fun _ => hx.trap _) fun _ => Out.sound_ite (fun _ => hx.trap _) fun _ =>
    hx.control fun hm hr j y hy k hk ha => by
      dsimp only at ha
      split at ha
      · exact hy k hk ha
      · split at ha
        · exact hy k hk ha
        · exact hx.taken_live hm hr hk ha

theorem execJoin_sound (hs : s.sound c m) (sw rg : Bool) : Out.sound c m (execJoin sw rg s) :=
  laneFrame_sound hs fun x hx => hx.control fun _ _ j y hy k hk ha => by
    unfold Strand.join at ha
    split at ha
    · split at ha
      · split at ha <;>
        · rw [BitVec.getLsbD_and, getLsbD_strandBits_at _ j hk, Bool.and_eq_true] at ha
          exact ha.2
      · exact hy k hk ha
    · exact hy k hk ha

theorem Group.sound.endBlock (hg : g.sound m) : g.endBlock.sound m := Group.sound.idle hg

theorem Lane.sound.reach (hx : x.sound c m) : x.reach.sound m := hx.group.modStrands_less fun _ _ _ h => h

theorem execLend_sound (hs : s.sound c m) (sw rg : Bool) : Out.sound c m (execLend sw rg s) :=
  laneFrame_sound hs fun x hx => Out.sound_ite (fun _ => hx.trapAt ..) fun _ => Out.sound_ite (fun _ => hx.trap _) fun _ =>
    hx.state.setGroup <| by
      split
      · exact hx.reach.endBlock
      · exact hx.reach

theorem execLcall_sound (hs : s.sound c m) (h : Hdr) (toff : Int) : Out.sound c m (execLcall h toff s) :=
  laneInstr_sound hs fun x hx => Out.sound_ite (fun _ => hx.trap _) fun _ => Out.sound_ite (fun _ => hx.trap _) fun _ =>
    hx.control fun hm hr j y hy k hk ha => by
      split at ha
      · exact hy k hk ha
      · exact hx.taken_live hm hr hk ha

theorem execLret_sound (hs : s.sound c m) (h : Hdr) : Out.sound c m (execLret h s) :=
  laneInstr_sound hs fun x hx => Out.sound_ite (fun _ => hx.trap _) fun _ => hx.control fun _ _ j y hy k hk ha => by
    unfold Strand.callReturn at ha
    split at ha
    · rw [BitVec.getLsbD_and, getLsbD_strandBits_at _ j hk, Bool.and_eq_true] at ha
      exact ha.2
    · exact hy k hk ha

/-- Lanes that leave LIVE with their gang's strands leave the masks well formed: they are in no other strand. -/
theorem Lane.sound.exits (hx : x.sound c m) (f : Nat → Strand → Strand)
    (hf : ∀ j y, (f j y).active = y.active &&& strandBits (x.g.regs.live &&& ~~~x.act) j) :
    (({ x.g with regs := { x.g.regs with live := x.g.regs.live &&& ~~~x.act } } : Group).modLanes
      (modStrands x.gang f)).sound m := fun hm => by
  refine Group.masksOk_iff.mpr ⟨fun hr => ?_, ?_⟩
  · have h0 := hx.group.strands hm hr
    refine strandsIn.numbered (f := fun y j => if inGang x.gang j then f j y else y) fun j hj y hy k hk ha => ?_
    split at ha
    · rw [hf, BitVec.getLsbD_and, getLsbD_strandBits_at _ j hk, Bool.and_eq_true] at ha
      exact ha.2
    · next hn =>
      have hl := h0 j hj y hy k hk ha
      change (x.g.regs.live &&& ~~~x.act).getLsbD (4 * j + k) = true
      rw [BitVec.getLsbD_and, BitVec.getLsbD_not, hl, Bool.true_and]
      have hout : x.act.getLsbD (4 * j + k) = false := by
        rw [← Bool.not_eq_true]
        intro hact
        have := hx.own _ hact
        rw [show (4 * j + k) / 4 = j by omega] at this
        exact hn this
      rw [hout]
      simp
      omega
  · have h1 := (and_not_eq_zero_iff _ _).mp (Group.masksOk_iff.mp (hx.group hm)).2
    refine (and_not_eq_zero_iff _ _).mpr fun i hi => h1 i ?_
    change (x.g.regs.live &&& ~~~x.act).getLsbD i = true at hi
    rw [BitVec.getLsbD_and, Bool.and_eq_true] at hi
    exact hi.1

theorem execLexit_sound (hs : s.sound c m) (h : Hdr) : Out.sound c m (execLexit h s) :=
  laneInstr_sound hs fun x hx => Out.sound_ite (fun _ => hx.trapAt ..) fun _ => by
    have hg := hx.exits (fun j y => { y.dropLanes (strandBits (x.g.regs.live &&& ~~~x.act) j) with
      pc := x.pc + 1, part := y.part && strandBits (x.g.regs.live &&& ~~~x.act) j != 0 }) fun _ _ => rfl
    have ht : (x.s.modMem fun m => m.loseLanes x.g.gid x.act).sound c m := hx.state.modMem (.of_eq rfl rfl rfl rfl)
    refine ht.setGroup ?_
    split
    · exact hg.endBlock
    · exact hg

theorem execLtrap_sound (hs : s.sound c m) (h : Hdr) (code : Nat) : Out.sound c m (execLtrap h code s) :=
  laneInstr_sound hs fun _ hx => Out.sound_ite (fun _ => hx.finish _) fun _ => hx.trapAt ..

theorem execLbkpt_sound (hs : s.sound c m) (h : Hdr) : Out.sound c m (execLbkpt h s) :=
  laneInstr_sound hs fun _ hx => Out.sound_ite (fun _ => hx.finish _) fun _ => hx.trapAt ..

end

end Sys2Proof.Machine
end

section
/-! SUPPORT. Generators, and the fetch of an instruction, keep the invariants. -/
namespace Sys2Proof.Machine

section
variable {c m : Prop} {s : State} {g : Group} {x : Lane}

/-! ## Generators -/

theorem Group.sound.converge (hg : g.sound m) (pc : Nat) (w : Mask) : (g.converge pc w).sound m :=
  hg.withLanes fun _ _ => strandsIn.of_active fun j _ _ hy =>
    ⟨w, (converge_strand (g := g) (pc := pc) (m := w) (j := j) hy).2.2.2⟩

theorem Group.sound.consume (hg : g.sound m) (n : Gen) (f k : Nat) : (g.consume n f k).sound m :=
  hg.converge n.consPc (maskOf (n.owner.take k))

theorem Group.sound.toEnd (hg : g.sound m) (n : Gen) : (g.toEnd n).sound m := hg.converge n.endPc g.regs.live

theorem Group.sound.drainNext (hg : g.sound m) (n : Gen) : (g.drainNext n).sound m := by
  unfold Group.drainNext
  split
  · exact hg.consume _ _ _
  · split
    · split
      · exact hg.consume _ _ _
      · exact hg.toEnd n
    · exact hg.toEnd n

theorem Lane.sound.inMode (hx : x.sound c m) {ok : Gen → Bool} {subc : Nat} {k : Gen → Out}
    (hk : ∀ n, Out.sound c m (k n)) : Out.sound c m (x.inMode ok subc k) :=
  Out.sound_ite (fun _ => hx.trapAt ..) fun _ => Out.sound_ite (fun _ => hx.trapAt ..) fun _ => by
    split
    · exact Out.sound_ite (fun _ => hk _) fun _ => hx.trapAt ..
    · exact hx.trapAt ..

theorem Group.sound.withGen (hg : g.sound m) (n : Option Gen) : ({ g with gen := n } : Group).sound m := hg

/-- An instruction ends that changes the loop's state alone. -/
theorem Lane.sound.finishGen (hx : x.sound c m) (n : Option Gen) (rs : List Res) :
    Out.sound c m ({ x with g := { x.g with gen := n } }.finish rs) :=
  Lane.finish_sound (x := { x with g := { x.g with gen := n } }) hx.state hx.group rs

theorem strandsIn.map {l : List Strand} {live : Mask} {f : Strand → Strand} (h : strandsIn l live)
    (hf : ∀ y, (f y).active = y.active) : strandsIn (l.map f) live := by
  intro j hj y hy k hk ha
  rw [List.getElem?_map] at hy
  obtain ⟨z, hz, rfl⟩ := Option.map_eq_some_iff.mp hy
  rw [hf] at ha
  exact h j hj z hz k hk ha

theorem execGbeg_sound (hs : s.sound c m) (sw rg : Bool) (vw tn : Nat) (poff coff : Int) :
    Out.sound c m (execGbeg sw rg vw tn poff coff s) :=
  laneFrame_sound hs fun _ hx => Out.sound_ite (fun _ => hx.trap _) fun _ => Out.sound_ite (fun _ => hx.trapAt ..) fun _ =>
    Out.sound_ite (fun _ => hx.trapAt ..) fun _ => Out.sound_ite (fun _ => hx.trapAt ..) fun _ =>
      Out.sound_ite (fun _ => hx.trapAt ..) fun _ => Out.sound_ite (fun _ => hx.trapAt ..) fun _ =>
        hx.spent.setGroup (hx.group.modLanes fun _ _ h => h.map fun _ => rfl)

theorem execGyld_sound (hs : s.sound c m) (h : Hdr) (b : Opnd) : Out.sound c m (execGyld h b s) :=
  laneInstr_sound hs fun x hx => hx.inMode fun n => by
    dsimp only
    split
    · exact hx.finishGen _ _
    · exact hx.spent.setGroup hx.group

theorem execGnxt_sound (hs : s.sound c m) (h : Hdr) : Out.sound c m (execGnxt h s) :=
  laneInstr_sound hs fun _ hx => hx.inMode fun _ => hx.finishGen _ _

theorem execGdne_sound (hs : s.sound c m) (h : Hdr) : Out.sound c m (execGdne h s) :=
  laneInstr_sound hs fun _ hx => hx.inMode fun _ => hx.spent.setGroup (hx.group.modStrands_less fun _ _ _ ha => by
    rw [Strand.dropLanes, BitVec.getLsbD_and, Bool.and_eq_true] at ha
    exact ha.1)

theorem execGrcv_sound (hs : s.sound c m) (h : Hdr) (a : Opnd) : Out.sound c m (execGrcv h a s) :=
  laneInstr_sound hs fun _ hx => hx.inMode fun _ => hx.finish _

theorem execGret_sound (hs : s.sound c m) (sw rg : Bool) : Out.sound c m (execGret sw rg s) :=
  laneFrame_sound hs fun x hx => hx.inMode fun n => Out.sound_ite (fun _ => hx.trapAt ..) fun _ =>
    Out.sound_ite (fun _ => hx.state.setGroup hx.reach) fun _ => hx.spent.setGroup <| by
      split
      · exact hx.group.consume _ _ _
      · exact hx.group
      · exact hx.group.drainNext _

theorem execGend_sound (hs : s.sound c m) (sw rg : Bool) : Out.sound c m (execGend sw rg s) :=
  laneFrame_sound hs fun x hx => hx.inMode fun _ => hx.spent.setGroup <|
    ((hx.group.converge (x.pc + 1) x.g.regs.live).withGen none).withStrands fun _ => strandsIn.dropDead

theorem genSwitch_sound {gid : Nat} {mv : GenMove} {k : Group → Gen → Group} (hs : s.sound c m)
    (hk : ∀ g n, Group.sound m g → (k g n).sound m) : Out.sound c m (genSwitch gid mv s k) := by
  unfold genSwitch
  split
  · exact hs
  · next g hg =>
    split
    · exact hs
    · exact Out.sound_ite (fun _ => hs.setGroup (hk _ _ ((hs.group? hg).of_eq g.landEvery_masksOk))) fun _ => hs

theorem execGenSwitchToConsumer_sound (hs : s.sound c m) (gid : Nat) : Out.sound c m (execGenSwitchToConsumer gid s) :=
  genSwitch_sound hs fun g n hg => by
    split
    · exact hg.consume _ _ _
    · exact hg

theorem execGenReturnToProducer_sound (hs : s.sound c m) (gid : Nat) : Out.sound c m (execGenReturnToProducer gid s) :=
  genSwitch_sound hs fun _ _ hg => (hg.withGen _).withLanes fun hr _ => Lanes.prune_strandsIn hr

theorem execGenDrain_sound (hs : s.sound c m) (gid : Nat) : Out.sound c m (execGenDrain gid s) :=
  genSwitch_sound hs fun _ _ hg => hg.drainNext _

/-! ## The issue of an instruction -/

/-- What a stream is about to issue stands in a sound state. -/
def Issue.sound (c m : Prop) : Issue → Prop
  | .instr s _ => s.sound c m
  | .other s => s.sound c m

theorem Issue.sound_ite {p : Prop} [Decidable p] {i j : Issue} (hi : i.sound c m) (hj : j.sound c m) :
    (if p then i else j).sound c m := by
  split
  · exact hi
  · exact hj

theorem scalarDecoded_sound (hs : s.sound c m) (hg : g.sound m) (w0 w1 : Nat) : (s.scalarDecoded g w0 w1).sound c m := by
  unfold State.scalarDecoded
  split
  · exact hs.setGroup (g := { g with words := some (w0, w1) }) hg
  · exact hs.scalarTrap hg ..

theorem State.sound.chosen (hs : s.sound c m) (g : Group) : (s.chosen g).sound c m :=
  State.sound.ite _ (hs.mapGroups fun h hh => by split <;> exact hh) hs

theorem State.sound.scalarBase (hs : s.sound c m) (g : Group) : (s.scalarBase g).1.sound c m := by
  unfold State.scalarBase
  split
  · exact hs.of_looksUp (s.useRegs_looksUp g.place.ctx)
  · exact hs

theorem State.sound.fetch4 (hs : s.sound c m) (a : Agent) (va : Nat) : (s.fetch4 a va).1.sound c m :=
  hs.of_looksUp (s.fetch4_looksUp a va)

theorem scalarIssue_sound (hs : s.sound c m) (gid : Nat) : (s.scalarIssue gid).sound c m := by
  unfold State.scalarIssue
  split
  · exact hs
  · next g hg =>
    have hfound := hs.group? hg
    have hg : ({ g with due := none } : Group).sound m := hfound
    refine Issue.sound_ite hs ?_
    have hs := hs.chosen g
    generalize s.chosen g = s at hs
    generalize ({ g with due := none } : Group) = g at hg
    dsimp only
    split
    · exact scalarDecoded_sound hs hg _ _
    · have hl := hs.scalarLen g
      generalize s.scalarLen g = r at hl
      obtain ⟨t, len⟩ := r
      refine Issue.sound_ite (State.sound.scalarTrap hl hg ..) ?_
      have hb := State.sound.scalarBase hl g
      dsimp only
      generalize t.scalarBase g = r at hb
      obtain ⟨u, base⟩ := r
      refine Issue.sound_ite hb ?_
      have hf := State.sound.fetch4 hb g.agent (base + 4 * g.spc)
      dsimp only
      generalize u.fetch4 g.agent (base + 4 * g.spc) = r at hf
      obtain ⟨v, f⟩ := r
      cases f with
      | fault code => exact State.sound.scalarTrap hf hg ..
      | word w0 =>
        refine Issue.sound_ite (scalarDecoded_sound hf hg _ _) (Issue.sound_ite (State.sound.scalarTrap hf hg ..)
          (Issue.sound_ite hf ?_))
        have hf := State.sound.fetch4 hf g.agent (base + 4 * g.spc + 4)
        generalize v.fetch4 g.agent (base + 4 * g.spc + 4) = r at hf
        obtain ⟨w, f⟩ := r
        cases f with
        | fault code => exact State.sound.scalarTrap hf hg ..
        | word w1 => exact scalarDecoded_sound hf hg _ _

theorem State.fetchParts_looksUp (a : Agent) (n : Nat) : ∀ (s : State) (va : Nat), s.looksUp (s.fetchParts a va n).1 := by
  induction n with
  | zero => exact fun s _ => .refl s
  | succ n ih =>
    intro s va
    unfold State.fetchParts
    have hf := s.fetch4_looksUp a va
    generalize s.fetch4 a va = r at hf
    obtain ⟨t, f⟩ := r
    cases f with
    | fault code => exact hf
    | word w =>
      have hp := ih t (va + 4)
      dsimp only
      generalize t.fetchParts a (va + 4) n = r at hp
      obtain ⟨u, f⟩ := r
      cases f with
      | fault code => exact hf.trans hp
      | word w => exact hf.trans hp

theorem State.sound.laneFault (hs : s.sound c m) (hg : g.sound m) (b : BitVec 8) (cause : Nat) :
    (s.laneFault g b cause).sound c m := by
  have ht := Lane.trapAt_sound (x := { s := s, g := g, gang := b, pc := g.pcOf b, act := 0 }) hs hg
    (cause := cause) (subc := 0) (swc := 0) (lpc := g.pcOf b) (flt := 0) (wm := 0)
  exact ht

theorem State.sound.takePartFault (hs : s.sound c m) (hg : g.sound m) (f : PartFault) : (s.takePartFault g f).sound c m :=
  State.sound.ite _ hs (Lane.sound.taken (x := { s := s, g := { g with lanes := { g.lanes with fault := none } }
                                                 gang := f.own, pc := f.lpc, act := f.lanes }) hs hg ..)

theorem laneIssue_sound (hs : s.sound c m) (gid st : Nat) : (s.laneIssue gid st).sound c m := by
  unfold State.laneIssue
  split
  · exact hs
  · next g hg =>
    have hg := hs.group? hg
    dsimp only
    refine Issue.sound_ite hs ?_
    split
    · exact hs.takePartFault hg _
    · refine Issue.sound_ite hs (Issue.sound_ite (hs.laneFault hg ..) (Issue.sound_ite hs ?_))
      have hf := fun va => hs.of_looksUp (s.fetchParts_looksUp g.agent 3 va)
      generalize ((s.launch? g.place.launch).map (·.laneVa)).getD 0 + 12 * g.pcOf (gangOf g.lanes.strands st) = va
      replace hf := hf va
      generalize s.fetchParts g.agent va 3 = r at hf
      obtain ⟨t, f⟩ := r
      cases f with
      | fault code => exact State.sound.laneFault hf hg ..
      | word w =>
        dsimp only
        split
        · exact hf
        · exact State.sound.laneFault hf hg ..

end

end Sys2Proof.Machine
end

section
/-! SUPPORT. Lane computations keep the invariants: each ends in the frame's write of its results. -/
namespace Sys2Proof.Machine

section
variable {c m : Prop} {s : State} {h : Hdr}

theorem laneWrite_sound {dsts srcs : List (Opnd × Nat)} {d : Lane → Opnd} {n : Lane → Nat} {f : Lane → Nat → Nat × Nat}
    {more : Lane → List Res} (hs : s.sound c m) :
    Out.sound c m (laneInstr s h dsts srcs fun x => x.writeAnd (d x) (n x) (f x) (more x)) :=
  laneInstr_sound hs fun _ hx => hx.writeAnd ..

theorem fltOp_sound {t : FTy} {r : Rnd} {sat : Sat} {nf : Bool} {a b e d : Opnd} {x : Rnd → FVal → FVal → FVal → XVal}
    (hs : s.sound c m) : Out.sound c m (fltOp s h t r sat nf a b e d x) := laneInstr_sound hs fun _ hx => hx.writeAnd ..

theorem funOp_sound {t : FTy} {r : Rnd} {sat : Sat} {nf : Bool} {a b : Opnd} {g : FFun} (hs : s.sound c m) :
    Out.sound c m (funOp s h t r sat nf a b g) := laneInstr_sound hs fun _ hx => hx.writeAnd ..

theorem intOp_sound {t : ITy} {sat nf : Bool} {a b e d : Opnd} {f : Int → Int → Int → Int} (hs : s.sound c m) :
    Out.sound c m (intOp s h t sat nf a b e d f) := laneInstr_sound hs fun _ hx => hx.writeAnd ..

theorem bitOp_sound {t : ITy} {a b e : Opnd} {f : Nat → Nat → Nat → Nat} (hs : s.sound c m) :
    Out.sound c m (bitOp s h t a b e f) := laneInstr_sound hs fun _ hx => hx.writeAnd ..

theorem shiftOp_sound {t : ITy} {a b e : Opnd} {f : Nat → Nat → Nat → Nat} (hs : s.sound c m) :
    Out.sound c m (shiftOp s h t a b e f) := laneInstr_sound hs fun _ hx => hx.writeAnd ..

theorem reduceOp_sound {t : Ty} {op : Nat} {r : Rnd} {sat : Sat} {nf : Bool} {a b : Opnd} {pre : Nat → Nat → Nat}
    (hs : s.sound c m) : Out.sound c m (reduceOp s h t op r sat nf a b pre) := laneInstr_sound hs fun _ hx => hx.writeAnd ..

theorem execGtrn_sound (hs : s.sound c m) (h : Hdr) (w : MTy) (a b : Opnd) : Out.sound c m (execGtrn h w a b s) :=
  laneInstr_sound hs fun _ hx => Out.sound_ite (fun _ => hx.trap _) fun _ => hx.put ..

theorem execLrds_sound (hs : s.sound c m) (h : Hdr) (w64 : Bool) (a b : Opnd) : Out.sound c m (execLrds h w64 a b s) :=
  Out.sound_ite (fun _ => laneWrite_sound hs) fun _ => laneWrite_sound hs

theorem execAmovw_sound (hs : s.sound c m) (h : Hdr) (w : MTy) (a b d e : Opnd) :
    Out.sound c m (execAmovw h w a b d e s) := laneInstr_sound hs fun _ hx => hx.finish _

end

end Sys2Proof.Machine
end

section
/-! SUPPORT. Launches, their placement, and the beginning of a pre-emption keep the invariants. -/
namespace Sys2Proof.Machine

section
variable {c m : Prop} {s : State}

/-! ## New groups -/

theorem Group.fresh_sound (info : Meta) (p : Place) : (Group.fresh info p).sound m := fun _ =>
  Group.masksOk_iff.mpr ⟨fun h => absurd h (by simp [Group.fresh, Lanes.idle]),
    (and_not_eq_zero_iff _ _).mpr fun _ h => h⟩

namespace State.sound

theorem appendGroups (hs : s.sound c m) {l : List Group} (hl : ∀ g ∈ l, Group.sound m g) :
    ({ s with groups := s.groups ++ l } : State).sound c m :=
  hs.of_parts (.refl _) (fun g hg => (List.mem_append.mp hg).elim (hs.2.1 g) (hl g)) hs.2.2

theorem startQuantum (hs : s.sound c m) (x core : Nat) : (s.startQuantum x core).sound c m := ite _ hs (hs.modCluster _ _)

theorem steerDone (hs : s.sound c m) (l : List Seat) : (s.steerDone l).sound c m := by
  unfold State.steerDone
  split
  · exact hs
  · exact foldl (fun s _ h => ite _ (State.sound.modCluster h _ _) h) _ s hs

theorem placeTeam (hs : s.sound c m) (l : Launch) (b t : Nat) (k : Seat) : (s.placeTeam l b t k).sound c m := by
  refine acquireCore (appendGroups (s := State.modUnits _ _) ((hs.startQuantum l.ctx k.core).of_eq (.refl _) rfl rfl) ?_) _ _
  intro g hg
  obtain ⟨e, -, rfl⟩ := List.mem_map.mp hg
  exact Group.fresh_sound _ _

theorem placeTeams (l : Launch) (b : Nat) (ks : List Seat) : ∀ (t : Nat) (s : State), s.sound c m →
    (s.placeTeams l b t ks).sound c m := by
  induction ks with
  | nil => exact fun _ _ hs => hs
  | cons k ks ih => exact fun t s hs => ih (t + 1) _ (hs.placeTeam l b t k)

theorem placeNext (hs : s.sound c m) {ch : Chooser} {id : Nat} {t : State} (ht : s.placeNext ch id = some t) :
    t.sound c m := by
  unfold State.placeNext at ht
  split at ht
  · exact absurd ht (by simp)
  · next l _ =>
    split at ht
    · exact absurd ht (by simp)
    · next seats _ =>
      obtain rfl := Option.some.inj ht
      exact (placeTeams l _ seats 0 _ (hs.steerDone seats)).modLaunch _ _

theorem placeMany (ch : Chooser) (id n : Nat) : ∀ s t : State, s.sound c m → s.placeMany ch id n = some t → t.sound c m := by
  induction n with
  | zero =>
    intro s t hs ht
    obtain rfl := Option.some.inj ht
    exact hs
  | succ n ih =>
    intro s t hs ht
    unfold State.placeMany at ht
    obtain ⟨u, hu, ht⟩ := Option.bind_eq_some_iff.mp ht
    exact ih u t (hs.placeNext hu) ht

/-! ## Queues -/

theorem refuse (hs : s.sound c m) (x q : Nat) : (s.refuse x q).sound c m := hs

theorem armTask (hs : s.sound c m) (x q : Nat) (raw : List Byte) (p : Packet) : (s.armTask x q raw p).sound c m :=
  ite _ (hs.refuse x q) (hs.modCtx _ _)

theorem dispatchFrom (hs : s.sound c m) (x q : Nat) : (s.dispatchFrom x q).sound c m := by
  unfold State.dispatchFrom
  split
  · exact hs
  · next raw _ =>
    dsimp only
    refine ite _ (hs.armTask ..) ?_
    have ht : (if (Packet.ofBytes raw).consume then s.modCtx x fun c => { c with
        ev := c.ev &&& ~~~(Packet.ofBytes raw).waitmask } else s).sound c m := ite _ hs hs
    split
    · exact ht.refuse x q
    · exact ite _ (ht.of_eq (.refl _) rfl rfl) (ht.refuse x q)

theorem leaveQueue (hs : s.sound c m) (id : Nat) : (s.leaveQueue id).sound c m := by
  unfold State.leaveQueue
  split
  · exact hs
  · exact ite _ hs (hs.of_eq (.refl _) rfl rfl)

theorem waitOrRefuse (hs : s.sound c m) (l : Launch) : (s.waitOrRefuse l).sound c m := by
  refine ite _ (refuse (s := State.modUnits _ _) ?_ _ _) hs
  exact hs.modUnits rfl

/-! ## Discard and pre-emption -/

theorem dropLaunch (hs : s.sound c m) (id : Nat) : (s.dropLaunch id).sound c m := by
  obtain ⟨-, hk, hm, -, hg⟩ := s.dropLaunch_spec id
  exact hs.of_subset hm (fun g h => (hg g h).1) hk

theorem discard (hs : s.sound c m) (id : Nat) : (s.discard id).sound c m := by
  unfold State.discard
  split
  · exact hs
  · exact (hs.dropLaunch id).of_eq (.refl _) rfl rfl

theorem preemptFrom (hs : s.sound c m) (n x : Nat) (blocks : List (Nat × Nat)) : (s.preemptFrom n x blocks).sound c m := by
  refine ite _ (hs.modCluster _ _) (ite _ (hs.modCluster _ _) ?_)
  have hd := foldl (fun s id h => State.sound.discard h id)
    ((blocks.filter fun k => (s.launch? k.1).any (·.info.restart)).map (·.1)).eraseDups s hs
  exact ite _ hd hd

theorem preempt (hs : s.sound c m) (n x : Nat) : (s.preempt n x).sound c m :=
  foldl (fun _ _ h => State.sound.preemptFrom h ..) _ s hs

end State.sound

theorem execDispatch_sound (hs : s.sound c m) : Out.sound c m (execDispatch s) := by
  unfold execDispatch
  split
  · exact hs
  · exact (hs.dispatchFrom _ _).of_eq (.refl _) rfl rfl

theorem execBlockPlace_sound (hs : s.sound c m) (id : Nat) : Out.sound c m (execBlockPlace id s) := by
  unfold execBlockPlace
  split
  · exact hs
  · next l _ =>
    refine Out.sound_ite (fun _ => hs) fun _ => ?_
    dsimp only
    split
    · next t ht => exact (State.sound.placeMany _ _ _ s t hs ht).leaveQueue id
    · split
      · next t ht => exact (State.sound.placeMany _ _ _ s t hs ht).leaveQueue id
      · exact hs.waitOrRefuse l

theorem execBalanceAction_sound (hs : s.sound c m) (pair kind : Nat) : Out.sound c m (execBalanceAction pair kind s) := by
  unfold execBalanceAction
  split
  · exact hs
  · refine State.sound.ite _ hs ?_
    split <;> exact hs

theorem execQuantumExpiry_sound (hs : s.sound c m) (cluster x : Nat) : Out.sound c m (execQuantumExpiry cluster x s) :=
  Out.sound_ite (fun _ => hs.preempt cluster x) fun _ => hs

theorem execPreemptionBegin_sound (hs : s.sound c m) (cluster x : Nat) : Out.sound c m (execPreemptionBegin cluster x s) :=
  hs.preempt cluster x

theorem execDrainDeadlineExpiry_sound (hs : s.sound c m) (cluster : Nat) :
    Out.sound c m (execDrainDeadlineExpiry cluster s) := hs.modCluster _ _

end

end Sys2Proof.Machine
end

section
/-! SUPPORT. Saves, resumption, context switches and tear-down keep the invariants. -/
namespace Sys2Proof.Machine

section
variable {c m : Prop} {s t : State} {g : Group}

namespace State.sound

/-! ## Saves -/

/-- Records that take other pages hold the groups that they held. -/
theorem of_repages (hs : s.sound c m) (h : s.repages t) : t.sound c m := by
  refine hs.of_parts h.2.1 (fun g hg => hs.2.1 g (h.groups ▸ hg)) fun k hk => ?_
  have hm : ({ k with pages := [] } : SavedBlock) ∈ s.units.saved.map fun k => { k with pages := [] } := by
    rw [← h.2.2]
    exact List.mem_map_of_mem hk
  obtain ⟨b, hb, he⟩ := List.mem_map.mp hm
  have hgs : b.groups = k.groups := (congrArg SavedBlock.groups he :)
  exact hgs ▸ hs.2.2 b hb

theorem launchDone (hs : s.sound c m) (id : Nat) : (s.launchDone id).sound c m := by
  unfold State.launchDone
  split
  · exact hs
  · refine ite _ (modCtx ?_ _ _) hs
    exact hs.modUnits rfl

theorem settleRegs (hs : s.sound c m) (x : Nat) : (s.settleRegs x).sound c m := by
  obtain ⟨hu, hm, hg⟩ := s.settleRegs_same x
  exact hs.of_eq (hm ▸ .refl _) hg (congrArg Units.saved hu)

theorem saveFails (hs : s.sound c m) (k : Nat × Nat) (x : Nat) : (s.saveFails k x).sound c m := by
  refine ite _ (hs.discard _) (settleRegs (launchDone (modLaunch ?_ _ _) _) _)
  refine modUnits (foldl (fun s g h => State.sound.retire h g) _ _ ?_) rfl
  exact (hs.recordErr ..).of_subset (.refl _) (fun _ h => h) fun _ h => (List.mem_filter.mp h).1

theorem toSave (hg : g.sound m) (tiles : List Nat) : (g.toSave tiles).sound m :=
  hg.of_eq ((rfl : (g.toSave tiles).masksOk = g.landEvery.masksOk).trans g.landEvery_masksOk)

theorem takeOff (hs : s.sound c m) (hg : g.sound m) : (s.takeOff g).sound c m := by
  obtain ⟨hm, hgs, hk⟩ := s.takeOff_spec g
  refine hs.of_parts (hm ▸ .refl _) (fun h hh => hs.2.1 h (List.mem_filter.mp (hgs ▸ hh)).1) fun k hk' => ?_
  obtain ⟨b, hb, rfl⟩ := List.mem_map.mp (hk ▸ hk')
  split
  · intro h hh
    rcases List.mem_append.mp hh with hh | hh
    · exact hs.2.2 b hb h hh
    · obtain rfl := List.mem_singleton.mp hh
      exact toSave hg _
  · exact hs.2.2 b hb

theorem moveToSave (hs : s.sound c m) (hg : g.sound m) : (s.moveToSave g).1.sound c m :=
  (hs.takeOff hg).of_repages (s.moveToSave_repages g)

theorem stowTeam (hs : s.sound c m) (t : Team) : (s.stowTeam t).sound c m := by
  unfold State.stowTeam
  split
  · exact hs
  · dsimp only
    generalize hu : State.modUnits _ _ = u
    have h : u.sound c m := by
      subst hu
      refine modUnits (mapSaved hs fun k hk => ?_) rfl
      split <;> exact hk
    have hf := fun x n => h.of_repages (u.fitRecord_repages t.launch t.blk x n)
    split
    · next v he =>
      have hv : _ = v := congrArg Prod.fst he
      exact hv ▸ hf _ _
    · next v he =>
      have hv : _ = v := congrArg Prod.fst he
      exact saveFails (hv ▸ hf _ _) ..

theorem stowTeams (hs : s.sound c m) : s.stowTeams.sound c m := foldl (fun _ t h => State.sound.stowTeam h t) _ s hs

theorem saveGroup (hs : s.sound c m) (hg : g.sound m) : (s.saveGroup g).sound c m := by
  unfold State.saveGroup
  have h := hs.moveToSave hg
  generalize s.moveToSave g = r at h
  obtain ⟨t, room⟩ := r
  cases room with
  | true => exact stowTeams h
  | false => exact saveFails h ..

theorem openSave (hs : s.sound c m) (k : Nat × Nat) (x : Nat) (l : List (Nat × Nat × Nat)) :
    (s.openSave k x l).sound c m := by
  refine hs.of_parts (.refl _) hs.2.1 fun b hb => ?_
  rcases List.mem_append.mp hb with hb | hb
  · exact hs.2.2 b hb
  · obtain rfl := List.mem_singleton.mp hb
    exact fun g hg => absurd hg (List.not_mem_nil)

/-! ## Resume and context switches -/

theorem resume (hs : s.sound c m) {k : SavedBlock} (hk : k ∈ s.units.saved) (l : List (Team × Seat)) :
    (s.resume k l).sound c m := by
  obtain ⟨hsaved, -, hm, -, hg⟩ := s.resume_spec k l
  refine hs.of_parts hm (fun h hh => ?_) fun b hb => hs.2.2 b (List.mem_of_mem_erase (hsaved ▸ hb))
  obtain ⟨g, hgm, he⟩ := hg h hh
  exact (hgm.elim (hs.2.1 g) (hs.2.2 k hk g)).of_eq he

theorem park (hs : s.sound c m) (n x : Nat) : (s.park n x).sound c m := by
  obtain ⟨hg, hk, hm, -, -, -⟩ := s.park_spec n x
  exact hs.of_eq hm hg hk

theorem switchTo (hs : s.sound c m) (n x part : Nat) : (s.switchTo n x part).sound c m := hs.of_eq (.refl _) rfl rfl

theorem endLease (hs : s.sound c m) (x : Nat) : (s.endLease x).sound c m := by
  obtain ⟨hu, hg, hm, -, -⟩ := s.endLease_same x
  exact hs.of_eq (hm ▸ .refl _) hg (congrArg Units.saved hu)

end State.sound

theorem execGroupSave_sound (hs : s.sound c m) (gid : Nat) : Out.sound c m (execGroupSave gid s) := by
  unfold execGroupSave
  split
  · exact hs
  · next g hg =>
    have hg := hs.group? hg
    refine Out.sound_ite (fun _ => hs) fun _ => Out.sound_ite (fun _ => hs.saveGroup hg) fun _ => ?_
    have h := hs.of_looksUp (s.saveCap_looksUp g.place.ctx)
    generalize s.saveCap g.place.ctx = r at h
    obtain ⟨t, cap⟩ := r
    dsimp only at h ⊢
    split
    · exact h.saveFails ..
    · exact (h.openSave ..).saveGroup hg

theorem execBlockResume_sound (hs : s.sound c m) (k : Nat) : Out.sound c m (execBlockResume k s) := by
  unfold execBlockResume
  have h := hs.stowTeams
  dsimp only
  split
  · exact h
  · next b hb =>
    refine Out.sound_ite (fun _ => h) fun _ => ?_
    split
    · exact Out.sound_ite (fun _ => h) fun _ => h.resume (List.mem_of_getElem? hb) _
    · exact h

theorem execClusterContextSwitch_sound (hs : s.sound c m) (n x : Nat) : Out.sound c m (execClusterContextSwitch n x s) := by
  unfold execClusterContextSwitch
  dsimp only
  split
  · exact hs.switchTo ..
  · exact Out.sound_ite (fun _ => hs) fun _ => (hs.park ..).switchTo ..

theorem execContextTeardown_sound (hs : s.sound c m) (x : Nat) : Out.sound c m (execContextTeardown x s) := by
  unfold execContextTeardown
  extract_lets n s1 s2 ids s3
  have h2 : s2.sound c m := .foldl (fun s i h => State.sound.dropLaunch h i) _ _ (hs.endLease x)
  have h3 : s3.sound c m := .foldl (fun s i h => State.sound.of_bundleTurn h (s.freeBundle_bundleTurn i)) _ _ h2
  exact h3.of_eq (.refl _) rfl rfl

end

end Sys2Proof.Machine
end

section
/-! SUPPORT. The window operations and the Ratchet keep the invariants. -/
namespace Sys2Proof.Machine

/-! ## Objects -/

theorem State.setTeamWord_memTurn (s : State) (t : Team) (part off v : Nat) : s.memTurn (s.setTeamWord t part off v) := by
  unfold State.setTeamWord
  split
  · exact s.locWrite_memTurn _ _
  · exact .refl s

theorem Wa.putHdr_memTurn (a : Wa) (whole : Bool) : a.s.memTurn (a.putHdr whole) :=
  .foldl (fun s (e : Nat × Nat) => s.setTeamWord_memTurn a.t a.part (a.base + 4 * e.1) e.2) _ _

theorem Wa.setVal_memTurn (a : Wa) (off : Nat) (v : WVal) : a.s.memTurn (a.setVal off v).s := by
  have h := a.s.setTeamWord_memTurn a.t a.part off v.1.toNat
  exact .ite (h.trans (State.setTeamWord_memTurn ..)) h

theorem Wa.setEntry_memTurn (a : Wa) (i k : Nat) (c g : WVal) : a.s.memTurn (a.setEntry i k c g).s :=
  (a.setVal_memTurn _ c).trans (Wa.setVal_memTurn ..)

theorem Wa.foldl_memTurn {f : Wa → Nat → Wa} (hf : ∀ (a : Wa) i, a.s.memTurn (f a i).s) :
    ∀ (l : List Nat) (a : Wa), a.s.memTurn (l.foldl f a).s
  | [], a => .refl a.s
  | i :: l, a => (hf a i).trans (Wa.foldl_memTurn hf l _)

theorem Wa.fillFront_memTurn (i : Nat) (cs : List WVal) : ∀ (a : Wa) (k : Nat) (prev : Option WVal),
    a.s.memTurn (a.fillFront i k prev cs).s := by
  induction cs with
  | nil => exact fun a _ _ => .refl a.s
  | cons c cs ih => exact fun a k prev => (a.setEntry_memTurn ..).trans (ih _ _ _)

theorem Wa.flip_memTurn (a : Wa) : a.s.memTurn a.flip.s :=
  Wa.foldl_memTurn (fun b i => Wa.fillFront_memTurn i _ b 0 none) _ a

theorem Wa.expire1_memTurn (a : Wa) : a.s.memTurn a.expire1.s := by
  unfold Wa.expire1
  split
  · exact .refl a.s
  · dsimp only
    split
    · exact a.flip_memTurn
    · exact .refl a.s

theorem Wa.expire_memTurn (n : Nat) : ∀ a : Wa, a.s.memTurn (a.expire n).s := by
  induction n with
  | zero => exact fun a => .refl a.s
  | succ n ih => exact fun a => a.expire1_memTurn.trans (ih _)

theorem Wa.push_memTurn (a : Wa) (c : Nat → WVal) : a.s.memTurn (a.push c).s := by
  unfold Wa.push
  extract_lets b d
  have hb : a.s.memTurn b.s := by
    unfold b
    split
    · exact a.expire1_memTurn
    · exact .refl a.s
  exact hb.trans (Wa.foldl_memTurn (fun d i => d.setEntry_memTurn ..) _ b)

/-! ## Operations -/

/-- What an operation changes of the state and of its group, where it does not trap. -/
def WaOut.keeps (s : State) (g : Group) : WaOut → Prop
  | .ok t h => s.memTurn t ∧ h.masksOk = g.masksOk
  | .trap _ _ => True

section
variable {s : State} {g : Group}

theorem WaOut.keeps_ite {p : Prop} [Decidable p] {o q : WaOut} (ho : o.keeps s g) (hq : q.keeps s g) :
    (if p then o else q).keeps s g := by
  split
  · exact ho
  · exact hq

theorem State.waUnbind_masksOk (s : State) (g : Group) (t : Team) (h : Nat) : (s.waUnbind g t h).2.masksOk = g.masksOk := by
  unfold State.waUnbind
  split <;> rfl

theorem State.waOn_keeps {t : Team} {h : Nat} {k : Wa → WaOut} (hk : ∀ a : Wa, a.s = s → (k a).keeps s g) :
    (s.waOn g t h k).keeps s g := by
  unfold State.waOn
  split
  · trivial
  · split
    · trivial
    · exact WaOut.keeps_ite trivial (WaOut.keeps_ite trivial (hk _ rfl))

theorem State.waInit_keeps (s : State) (g : Group) (t : Team) (h op flt base cap : Nat) :
    (s.waInit g t h op flt base cap).keeps s g := by
  unfold State.waInit
  refine WaOut.keeps_ite trivial (WaOut.keeps_ite trivial (WaOut.keeps_ite trivial ?_))
  split
  · trivial
  · refine WaOut.keeps_ite trivial (WaOut.keeps_ite trivial (WaOut.keeps_ite ⟨.refl s, rfl⟩ ?_))
    have hu := s.waUnbind_memTurn g t h
    have hm := s.waUnbind_masksOk g t h
    generalize s.waUnbind g t h = r at hu hm
    obtain ⟨u, g'⟩ := r
    exact ⟨hu.trans (.ite (Wa.putHdr_memTurn ..) (State.setTeamWord_memTurn ..)), hm⟩

theorem Group.setV_masksOk (g : Group) (r l : Nat) (w : Word) : (g.setV r l w).masksOk = g.masksOk := rfl

/-- A query writes vector registers alone. -/
theorem Group.answers_masksOk (f : Nat → WVal) (pair : Bool) (reg : Nat) (ls : List Nat) : ∀ g : Group,
    (ls.foldl (fun g l => let r := f l
      let g := g.setV reg l r.1
      if pair then g.setV (reg + 1) l r.2 else g) g).masksOk = g.masksOk := by
  induction ls with
  | nil => exact fun _ => rfl
  | cons l ls ih =>
    intro g
    refine (ih _).trans ?_
    dsimp only
    split <;> rfl

theorem State.waRun_keeps (s : State) (g : Group) (t : Team) (act : Mask) (op : WOp) : (s.waRun g t act op).keeps s g := by
  unfold State.waRun
  cases op with
  | init => exact s.waInit_keeps ..
  | unbind h => exact ⟨s.waUnbind_memTurn g t h, s.waUnbind_masksOk g t h⟩
  | push =>
    refine State.waOn_keeps fun a ha => WaOut.keeps_ite trivial ⟨?_, rfl⟩
    exact ha ▸ (a.push_memTurn _).trans (Wa.putHdr_memTurn ..)
  | query h n reg => exact State.waOn_keeps fun a _ => WaOut.keeps_ite trivial ⟨.refl s, Group.answers_masksOk ..⟩
  | expire => exact State.waOn_keeps fun a ha => ⟨ha ▸ (Wa.expire_memTurn _ a).trans (Wa.putHdr_memTurn ..), rfl⟩
  | wlen h w =>
    refine State.waOn_keeps fun a ha => WaOut.keeps_ite trivial ⟨?_, rfl⟩
    exact ha ▸ (Wa.expire_memTurn _ { a with h := { a.h with w := w } }).trans (Wa.putHdr_memTurn ..)
  | reset => exact State.waOn_keeps fun a ha => ⟨ha ▸ Wa.putHdr_memTurn .., rfl⟩

end

/-! ## The Ratchet -/

section
variable {c m : Prop} {s gone : State} {g : Group}

/-- A trap that an operation raises after its issue (R176). -/
theorem State.sound.lateTrap (hs : s.sound c m) (hn : gone.sound c m) (hg : g.sound m) (own : BitVec 8) (pc id : Nat)
    (handler : Bool) (cause subc : Nat) : (s.lateTrap gone g own pc id handler cause subc).sound c m := by
  unfold State.lateTrap
  dsimp only
  split
  · split
    · refine State.sound.ite _ hs (Lane.sound.taken hn hg ..)
    · exact hn.setGroup (g := { g with trap := _ }) hg
  · refine State.sound.ite _ hs (Lane.sound.taken (x := { s := gone, g := _, gang := own, pc := pc, act := 0 }) hn ?_ ..)
    exact hg.withLanes (x := { g.lanes with strands := rewindStrands own pc g.lanes.strands, fault := none })
      fun hr h => (h hr).rewindStrands

theorem State.sound.waTrap (hs : s.sound c m) (hg : g.sound m) (a : WArr) (cause subc : Nat) :
    (s.waTrap g a cause subc).sound c m := by
  refine hs.lateTrap ?_ hg ..
  exact hs.modUnits rfl

theorem execRatchetPerform_sound (hs : s.sound c m) (core k : Nat) : Out.sound c m (execRatchetPerform core k s) := by
  unfold execRatchetPerform
  split
  · exact hs
  · next a _ =>
    split
    · exact hs
    · next g hg =>
      have hg := hs.group? hg
      split
      · exact hs
      · next t _ =>
        refine Out.sound_ite (fun _ => hs) fun _ => ?_
        have hr := s.waRun_keeps g t a.act a.op
        generalize s.waRun g t a.act a.op = r at hr
        cases r with
        | ok u g' =>
          obtain ⟨hu, hm⟩ := hr
          refine State.sound.settle (State.sound.setGroup ?_ (hg.of_eq hm))
          exact (hs.of_memTurn hu).modUnits rfl
        | trap cause subc => exact (hs.waTrap hg ..).settle

theorem windowOp_sound {h : Hdr} {dsts srcs : List (Opnd × Nat)} {mk : Lane → WOp} (hs : s.sound c m) :
    Out.sound c m (windowOp s h dsts srcs mk) :=
  laneInstr_sound hs fun x hx => Out.sound_ite (fun _ => hx.finish []) fun _ => Out.sound_ite (fun _ => hx.state) fun _ => by
    extract_lets id a hold
    refine Lane.finish_sound ?_ ?_ []
    · exact hx.state.of_eq (.refl _) rfl rfl
    · exact hx.group

end

end Sys2Proof.Machine
end

section
/-! SUPPORT. Clocks, power, tokens, links and the phases of the device keep the invariants. -/
namespace Sys2Proof.Machine

section
variable {c m : Prop} {s : State}

namespace State.sound

theorem lifeAdd (hs : s.sound c m) (i n : Nat) : (s.lifeAdd i n).sound c m := hs
theorem corrected (hs : s.sound c m) (pa : Nat) : (s.corrected pa).sound c m := hs
theorem clearHistogram (hs : s.sound c m) (core q : Nat) : (s.clearHistogram core q).sound c m := hs

theorem setLoad (hs : s.sound c m) (cluster n : Nat) : (s.setLoad cluster n).sound c m := by
  unfold State.setLoad
  dsimp only
  refine ite _ hs (ite _ (ite _ (hs.modCluster _ _) (lifeAdd (hs.modCluster _ _) ..)) ?_)
  exact modCluster (modCluster (hs.modCluster _ _) _ _) _ _

theorem drawLease (hs : s.sound c m) (x : Nat) : (s.drawLease x).sound c m :=
  ite _ hs (modCtx (modPart (hs.modPlat _) _ _) _ _)

theorem drawPool (hs : s.sound c m) : s.drawPool.sound c m := by
  unfold State.drawPool
  extract_lets t short weight pool
  have ht : t.sound c m := foldl (fun s x h => State.sound.drawLease h x) _ s hs
  exact ite _ ht (foldl (fun s p h => modPart (State.sound.modPlat h _) p _) _ t ht)

theorem beginFlip (hs : s.sound c m) (g : Group) : (s.beginFlip g).sound c m := by
  unfold State.beginFlip
  split
  · exact hs.modUnits rfl
  · exact hs

theorem countClock (hs : s.sound c m) (core : Nat) (quads : List (Nat × Nat)) : (s.countClock core quads).sound c m := by
  unfold State.countClock
  extract_lets qs flips t
  have ht : t.sound c m := foldl (fun s e h => by
    cases s.oldestOn core e.2 with
    | none => exact h
    | some g => exact State.sound.beginFlip h g) _ s hs
  exact ite _ hs (modCore (ht.modPlat _) _ _)

/-- Reset keeps the memories outside the device alone (R390). -/
theorem afterReset (hs : s.sound c m) (b : Boot) : (s.afterReset b).sound c m := by
  refine hs.of_parts (fun h => ?_) (fun _ h => absurd h List.not_mem_nil) fun _ h => absurd h List.not_mem_nil
  unfold MemSys.canonical at h ⊢
  simp only [Bool.and_eq_true] at h ⊢
  obtain ⟨⟨⟨-, hhost⟩, hpeer⟩, -⟩ := h
  exact ⟨⟨⟨rfl, hhost⟩, hpeer⟩, rfl⟩

theorem railUp (hs : s.sound c m) : s.railUp.sound c m := ite _ (hs.modPlat _) hs

end State.sound

/-- The SRAM of a part is cleared. -/
theorem MemSys.keepsForm.of_sram {a b : MemSys} (h1 : b.hbm = a.hbm) (h2 : b.host = a.host) (h3 : b.peer = a.peer)
    (h4 : a.sram.wf = true → b.sram.wf = true) : a.keepsForm b := by
  intro h
  simp only [MemSys.canonical, Bool.and_eq_true, h1, h2, h3] at h ⊢
  exact ⟨h.1, h4 h.2⟩

theorem execSupplyDroop_sound (hs : s.sound c m) (pair : Nat) : Out.sound c m (execSupplyDroop pair s) :=
  State.sound.ite _ (hs.lifeAdd _ _) hs

theorem execAclockChange_sound (hs : s.sound c m) (pair setting : Nat) : Out.sound c m (execAclockChange pair setting s) :=
  Out.sound_ite (fun _ => hs.modPlat _) fun _ => hs

theorem execThermalThrottle_sound (hs : s.sound c m) (temp : Nat) : Out.sound c m (execThermalThrottle temp s) :=
  State.sound.ite _ (hs.modPlat _) hs

theorem execThermalRecover_sound (hs : s.sound c m) (temp : Nat) : Out.sound c m (execThermalRecover temp s) :=
  State.sound.ite _ (hs.modPlat _) hs

theorem execCoreGate_sound (hs : s.sound c m) (core : Nat) : Out.sound c m (execCoreGate core s) :=
  Out.sound_ite (fun _ => hs) fun _ =>
    State.sound.modCore (hs.modMem (.of_sram rfl rfl rfl fun h => Memory.wf_clear _ _ h)) core _

theorem execInrushStep_sound (hs : s.sound c m) (sector : Nat) : Out.sound c m (execInrushStep sector s) :=
  State.sound.foldl (fun _ k h => State.sound.modCore h k _) _ s hs

theorem execTokenInterval_sound (hs : s.sound c m) : Out.sound c m (execTokenInterval s) :=
  Out.sound_ite (fun _ => hs) fun _ => hs.modPlat _

theorem execLeaseRequest_sound (hs : s.sound c m) (x value : Nat) : Out.sound c m (execLeaseRequest x value s) :=
  (hs.endLease x).modCtx _ _

theorem execLeaseExpiry_sound (hs : s.sound c m) (x : Nat) : Out.sound c m (execLeaseExpiry x s) :=
  State.sound.ite _ (hs.endLease x) hs

theorem execLinkFlitRetry_sound (hs : s.sound c m) (l : Nat) : Out.sound c m (execLinkFlitRetry l s) :=
  State.sound.ite _ (hs.modLink _ _) hs

theorem execLinkTrained_sound (hs : s.sound c m) (l : Nat) : Out.sound c m (execLinkTrained l s) :=
  State.sound.ite _ (hs.modLink _ _) hs

theorem execLinkDown_sound (hs : s.sound c m) (l : Nat) : Out.sound c m (execLinkDown l s) :=
  State.sound.ite _ (hs.modLink _ _) hs

theorem execPowerDown_sound (hs : s.sound c m) : Out.sound c m (execPowerDown s) := (hs.afterReset .off).modPlat _

theorem execResetRelease_sound (hs : s.sound c m) : Out.sound c m (execResetRelease s) :=
  State.sound.ite _ (hs.afterReset .verifying) hs

theorem execBootVerify_sound (hs : s.sound c m) (a b : Bool) : Out.sound c m (execBootVerify a b s) :=
  Out.sound_ite (fun _ => hs) fun _ => Out.sound_ite (fun _ => hs.modPlat _) fun _ => hs

end

end Sys2Proof.Machine
end

section
/-! SUPPORT. The control BAR, Anvil's commands and accesses from outside keep the invariants. -/
namespace Sys2Proof.Machine

/-! ## Memory turns -/

theorem State.dropLines_memTurn (s : State) (l : List Nat) : s.memTurn (l.foldl (fun s x => s.modMem fun m => m.dropLine x) s) :=
  .foldl (fun s x => .modMem (s.mem.dropLine_keepsForm x)) l s

theorem State.mxFlushes_memTurn (s : State) (l : List MxLine) : s.memTurn (l.foldl (fun s e => s.mxFlush e) s) :=
  .foldl (fun s e => s.mxFlush_memTurn e) l s

theorem State.zeroBank_memTurn (s : State) (core b : Nat) : s.memTurn (s.zeroBank core b) :=
  .modMem (.of_sram rfl rfl rfl fun h => Memory.wf_clear _ _ h)

theorem MemSys.homeWrite_keepsForm (m : MemSys) (pa : Nat) (bs : List Byte) : m.keepsForm (m.homeWrite pa bs) :=
  (m.dirtyLine_keepsForm (pa / 128)).trans (.of_hbm (fun h => Memory.wf_write pa bs h) rfl rfl rfl)

theorem State.cleanWays_memTurn (s : State) (p : Nat) (ways : List Nat) : s.memTurn (s.cleanWays p ways) := by
  unfold State.cleanWays
  extract_lets there plain views t
  have ht : s.memTurn t := .foldl (fun s n => .modMem (s.mem.cleanLine_keepsForm n)) plain s
  exact ht.trans (.foldl (fun s e => (s.mxFlush_memTurn e).trans (.modMem (MemSys.setMxLine_keepsForm _ _))) views t)

theorem State.outside_memTurn (s : State) (pa : Nat) (op : ExtOp) (data : List Byte) : s.memTurn (s.outside pa op data) := by
  unfold State.outside
  extract_lets n t old put done
  have ht : s.memTurn t := .ite (.refl s) (.foldl (fun s (e : Nat × List Byte) => s.finishWide_memTurn (.hbm e.1)) _ s)
  have hput : ∀ v, t.memTurn (put v) := fun v => .modMem (MemSys.homeWrite_keepsForm _ _ _)
  have hdone : t.memTurn done := by
    unfold done
    cases op with
    | read => exact .foldl (fun s e => .modMem (s.mem.touch_keepsForm _)) _ t
    | write => exact .foldl (fun s e => .modMem (s.mem.homeWrite_keepsForm e.1 e.2)) _ t
    | fetchAdd => exact hput _
    | swap => exact hput _
    | cas expected => exact .ite (hput _) (.refl t)
  exact (ht.trans hdone).trans (State.settleL2_memTurn ..)

section
variable {c m : Prop} {s : State}

/-! ## Registers -/

theorem execTailDoorbell_sound (hs : s.sound c m) (x q tail : Nat) : Out.sound c m (execTailDoorbell x q tail s) :=
  State.sound.ite _ (State.sound.modCtx (hs.modCtx _ _) _ _) (hs.modCtx _ _)

theorem execQueueDescriptorWrite_sound (hs : s.sound c m) (x q value : Nat) :
    Out.sound c m (execQueueDescriptorWrite x q value s) := hs.modCtx _ _

theorem execHostdb_sound (hs : s.sound c m) (x : Nat) : Out.sound c m (execHostdb x s) := hs.modCtx _ _

theorem execCtxerrClear_sound (hs : s.sound c m) (x : Nat) : Out.sound c m (execCtxerrClear x s) := hs.modCtx _ _

theorem execTlbinv_sound (hs : s.sound c m) (x value : Nat) : Out.sound c m (execTlbinv x value s) :=
  State.sound.modCtx (hs.modMem_beside (f := fun m => { m with tlb := m.tlb.filter _ }) rfl) x _

theorem execTlbinvComplete_sound (hs : s.sound c m) (x : Nat) : Out.sound c m (execTlbinvComplete x s) := by
  unfold execTlbinvComplete
  split <;> exact hs

theorem execCwmaskWrite_sound (hs : s.sound c m) (core p value : Nat) : Out.sound c m (execCwmaskWrite core p value s) :=
  hs.modCore _ _

theorem execCwmaskApply_sound (hs : s.sound c m) (core p : Nat) : Out.sound c m (execCwmaskApply core p s) := by
  unfold execCwmaskApply
  split
  · exact hs
  · refine Out.sound_ite (fun _ => hs) fun _ => ?_
    refine State.sound.of_memTurn (State.sound.modCore ?_ _ _) (State.trimL1_memTurn ..)
    exact hs.of_memTurn (.foldl (fun s i => s.zeroBank_memTurn core i) _ s)

/-! ## Anvil -/

theorem State.sound.mailDone (hs : s.sound c m) (fn status : Nat) : (s.mailDone fn status).sound c m := hs

theorem mailCmd_sound {fn code : Nat} {k : (Nat → Nat) → State × Nat} (hs : s.sound c m)
    (hk : ∀ a, (k a).1.sound c m) : Out.sound c m (mailCmd s fn code k) := by
  unfold mailCmd
  split
  · exact hs
  · exact Out.sound_ite (fun _ => hs) fun _ => Out.sound_ite (fun _ => hs.mailDone ..) fun _ => (hk _).mailDone ..

/-- One of two answers of Anvil. -/
theorem State.sound.ite_fst {p : Prop} [Decidable p] {a b : State × Nat} (ha : a.1.sound c m) (hb : b.1.sound c m) :
    (if p then a else b).1.sound c m := by
  split
  · exact ha
  · exact hb

theorem State.sound.flushParts (hs : s.sound c m) (ps : List Nat) : (s.flushParts ps).sound c m := by
  unfold State.flushParts
  extract_lets mine t1 t2 t3 down
  have h1 : t1.sound c m := hs.of_memTurn (s.mxFlushes_memTurn _)
  have h2 : t2.sound c m := h1.of_eq (.of_eq rfl rfl rfl rfl) rfl rfl
  have h3 : t3.sound c m := h2.of_memTurn (t2.dropLines_memTurn _)
  exact h3.of_eq (.of_eq rfl rfl rfl rfl) rfl rfl

theorem State.sound.ownQuad (hs : s.sound c m) (i b : Nat) : (s.ownQuad i b).1.sound c m :=
  .ite_fst hs (.ite_fst hs (.ite_fst hs (hs.modPlat _)))

theorem State.sound.ownBank (hs : s.sound c m) (i b : Nat) : (s.ownBank i b).1.sound c m := by
  refine .ite_fst hs (.ite_fst hs (.ite_fst hs ?_))
  exact State.sound.of_memTurn (State.sound.of_memTurn (hs.modPlat _) (State.zeroBank_memTurn ..))
    (.foldl (fun t p => State.trimL1_memTurn ..) _ _)

theorem State.sound.ownSlice (hs : s.sound c m) (i b : Nat) : (s.ownSlice i b).1.sound c m :=
  .ite_fst hs (.ite_fst hs (.ite_fst hs (State.sound.modPlat (hs.flushParts _) _)))

theorem execSetown_sound (hs : s.sound c m) (fn : Nat) : Out.sound c m (execSetown fn s) :=
  mailCmd_sound hs fun a => .ite_fst hs (by
    split
    · exact hs.ownQuad ..
    · exact hs.ownBank ..
    · exact hs.ownSlice ..
    · exact hs)

theorem execSetmem_sound (hs : s.sound c m) (fn : Nat) : Out.sound c m (execSetmem fn s) :=
  mailCmd_sound hs fun a => by
    refine .ite_fst hs (.ite_fst hs ?_)
    extract_lets t1 t2 here hit gone t3 t4 lines t5 t6
    have h1 : t1.sound c m := hs.of_memTurn (s.mxFlushes_memTurn _)
    have h3 : t3.sound c m := h1.of_eq (.of_eq rfl rfl rfl rfl) rfl rfl
    have h5 : t5.sound c m := (h3.of_bundleTurn (.freeIds t3)).of_memTurn (t4.dropLines_memTurn lines)
    exact h5.of_eq (.of_eq rfl rfl rfl rfl) rfl rfl

theorem execSetpart_sound (hs : s.sound c m) (fn : Nat) : Out.sound c m (execSetpart fn s) :=
  mailCmd_sound hs fun a => .ite_fst hs (.ite_fst hs (by
    split
    · exact hs
    · exact hs
    · exact hs
    · exact hs
    · exact hs
    · exact .ite_fst hs hs
    · exact hs))

theorem execClassWayWriteback_sound (hs : s.sound c m) (p k : Nat) : Out.sound c m (execClassWayWriteback p k s) :=
  (hs.of_memTurn (s.cleanWays_memTurn p _)).modPart _ _

theorem execSetctx_sound (hs : s.sound c m) (fn : Nat) : Out.sound c m (execSetctx fn s) :=
  mailCmd_sound hs fun a => .ite_fst hs (by
    split
    · exact .ite_fst hs hs
    · exact hs
    · exact hs)

theorem execSetslew_sound (hs : s.sound c m) (fn : Nat) : Out.sound c m (execSetslew fn s) :=
  mailCmd_sound hs fun _ => .ite_fst hs hs

theorem State.sound.showAll (hs : s.sound c m) : s.showAll.sound c m :=
  State.sound.foldl (fun _ x h => State.sound.showEvents h x) _ s hs

theorem State.sound.revoke (hs : s.sound c m) : s.revoke.sound c m := State.sound.showAll (s := (s.modPlat _).drawn) hs

theorem execProfgrant_sound (hs : s.sound c m) (fn : Nat) : Out.sound c m (execProfgrant fn s) :=
  mailCmd_sound hs fun _ => .ite_fst hs (.ite_fst hs.revoke (.ite_fst hs (State.sound.showAll (s := s.modPlat _) hs)))

theorem execAttest_sound (hs : s.sound c m) (fn : Nat) : Out.sound c m (execAttest fn s) := mailCmd_sound hs fun _ => hs

theorem execSetpeer_sound (hs : s.sound c m) (fn : Nat) : Out.sound c m (execSetpeer fn s) :=
  mailCmd_sound hs fun _ => .ite_fst hs hs

theorem execSetwin_sound (hs : s.sound c m) (fn : Nat) : Out.sound c m (execSetwin fn s) :=
  mailCmd_sound hs fun _ => .ite_fst hs (.ite_fst hs hs)

theorem execMbcmdUnknown_sound (hs : s.sound c m) (fn : Nat) : Out.sound c m (execMbcmdUnknown fn s) := by
  unfold execMbcmdUnknown
  split
  · exact hs
  · exact Out.sound_ite (fun _ => hs) fun _ => hs.mailDone ..

/-! ## Writes of the control BAR -/

theorem Out.sound.outState {o : Out} (ho : Out.sound c m o) (hs : s.sound c m) : (outState s o).sound c m := by
  unfold Machine.outState
  split
  · exact ho
  · exact hs

namespace State.sound

theorem writeBox (hs : s.sound c m) (fn off v : Nat) (lo : Bool) : (s.writeBox fn off v lo).sound c m :=
  ite _ (ite _ hs hs) (ite _ hs (ite _ hs hs))

theorem writeCtx (hs : s.sound c m) (x off v : Nat) (lo hi : Bool) : (s.writeCtx x off v lo hi).sound c m := by
  refine ite _ hs (ite _ hs (ite _ ?_ ?_))
  · exact ite _ ((execQueueDescriptorWrite_sound hs ..).outState hs) (ite _ ((execTailDoorbell_sound hs ..).outState hs) hs)
  · split
    · exact hs
    · exact hs
    · exact hs
    · exact hs
    · exact (execTlbinv_sound hs ..).outState hs
    · exact hs
    · exact ite _ ((execCtxerrClear_sound hs ..).outState hs) hs
    · exact hs
    · exact (execHostdb_sound hs ..).outState hs
    · exact ite _ ((execLeaseRequest_sound hs ..).outState hs) hs
    · exact hs

theorem writeCore (hs : s.sound c m) (k off v : Nat) (lo hi : Bool) : (s.writeCore k off v lo hi).sound c m := by
  refine ite _ hs (ite _ ?_ (ite _ (hs.clearHistogram ..) hs))
  dsimp only
  have hlo : (if lo = true then outState s (execCwmaskWrite k ((off - 256) / 4) v s) else s).sound c m :=
    ite _ ((execCwmaskWrite_sound hs ..).outState hs) hs
  exact ite _ ((execCwmaskWrite_sound hlo ..).outState hlo) hlo

theorem writeWord (hs : s.sound c m) (fn off v : Nat) (lo hi : Bool) : (s.writeWord fn off v lo hi).sound c m :=
  ite _ hs (ite _ (hs.writeBox ..) (ite _ (hs.writeCtx ..) (ite _ (hs.writeCore ..) hs)))

end State.sound

theorem execRegisterWrite_sound (hs : s.sound c m) (fn off size value : Nat) :
    Out.sound c m (execRegisterWrite fn off size value s) := State.sound.ite _ (hs.writeWord ..) hs

/-! ## Accesses from outside -/

theorem execHostBar2Access_sound (hs : s.sound c m) (fn addr : Nat) (op : ExtOp) (data : List Byte) :
    Out.sound c m (execHostBar2Access fn addr op data s) := State.sound.ite _ (hs.of_memTurn (s.outside_memTurn ..)) hs

theorem execPeerAccessInbound_sound (hs : s.sound c m) (link addr : Nat) (op : ExtOp) (data : List Byte) :
    Out.sound c m (execPeerAccessInbound link addr op data s) := by
  unfold execPeerAccessInbound
  split
  · exact hs
  · exact State.sound.ite _ (hs.of_memTurn (s.outside_memTurn ..)) hs

end

end Sys2Proof.Machine
end

section
/-! SUPPORT. The steps of accesses and promotion drains, and the start of lane blocks, keep the invariants. -/
namespace Sys2Proof.Machine

section
variable {c m : Prop} {s : State} {g : Group}

/-! ## Values that arrive -/

theorem Group.sound.execArrives (hg : g.sound m) (a : Access) (w : Word) : (g.execArrives a w).sound m := by
  unfold Group.execArrives
  split
  · split
    · exact hg.writeExec _ _
    · exact hg
  · exact hg.writeExec _ _

theorem Group.sound.land (hg : g.sound m) (d : Dest) (w : Word) (b : Bool) : (g.land d w b).sound m :=
  hg.of_eq (g.land_masksOk d w b)

theorem Group.sound.deliver (hg : g.sound m) (a : Access) (d : Dest) (w : Word) : (g.deliver a d w).sound m := by
  unfold Group.deliver
  split
  · split
    · exact hg
    · exact hg.land _ _ _
  · exact hg.execArrives _ _
  · exact hg.land _ _ _

theorem Group.sound.deliverAll (a : Access) (l : List (Dest × Word)) : ∀ g : Group, g.sound m →
    (l.foldl (fun g (d, w) => g.deliver a d w) g).sound m := by
  induction l with
  | nil => exact fun _ hg => hg
  | cons e l ih => exact fun g hg => ih _ (hg.deliver a e.1 e.2)

namespace State.sound

theorem deliver (hs : s.sound c m) (a : Access) (bs : List Byte) : (s.deliver a bs).sound c m :=
  hs.modGroup fun g hg => Group.sound.deliverAll a _ g hg

theorem arriveMode (hs : s.sound c m) (a : Access) (bs : List Byte) : (s.arriveMode a bs).sound c m := by
  unfold State.arriveMode
  extract_lets t ms
  have ht : t.sound c m := hs.modAcc ..
  split
  · exact ht.dropAcc _
  · next g hg =>
    have hg := ht.group? hg
    refine ite _ ht ?_
    have hn : (ms.foldl (fun s b => s.dropAcc b.id) t).sound c m :=
      foldl (fun _ (b : Access) h => State.sound.dropAcc h b.id) ms t ht
    exact ite _ (ht.lateTrap hn hg ..) (hn.setGroup (g := { g with pend := _ }) hg)

theorem arrive (hs : s.sound c m) (a : Access) (bs : List Byte) : (s.arrive a bs).sound c m :=
  ite _ (hs.arriveMode a bs) ((hs.deliver a bs).dropAcc a.id)

end State.sound

theorem execLoadValueArrival_sound (hs : s.sound c m) (id : Nat) (fromL1 : Bool) :
    Out.sound c m (execLoadValueArrival id fromL1 s) := by
  unfold execLoadValueArrival
  split
  · exact hs
  · next a _ =>
    have harrive : ∀ o : Option (List Byte), ∀ t, o.map (s.arrive a) = some t → t.sound c m := by
      intro o t ht
      obtain ⟨bs, -, rfl⟩ := Option.map_eq_some_iff.mp ht
      exact hs.arrive a bs
    extract_lets s'
    have hs' : ∀ t, s' = some t → t.sound c m := by
      intro t ht
      unfold s' at ht
      split at ht
      · split at ht
        · split at ht
          · exact harrive _ t ht
          · exact absurd ht (by simp)
        · exact harrive _ t ht
      · split at ht
        · exact absurd ht (by simp)
        · obtain ⟨bs, -, rfl⟩ := Option.map_eq_some_iff.mp ht
          exact .ite _ ((hs.deliver a bs).dropAcc id) ((hs.deliver a bs).modAcc id _)
    clear_value s'
    cases s' with
    | none => exact hs
    | some t => exact (hs' t rfl).settle

theorem execSliceReadAccept_sound (hs : s.sound c m) (id : Nat) : Out.sound c m (execSliceReadAccept id s) := by
  unfold execSliceReadAccept
  split
  · exact hs
  · exact State.sound.ite _ (hs.modAcc ..) hs

theorem execLineDataLeave_sound (hs : s.sound c m) (line : Nat) : Out.sound c m (execLineDataLeave line s) :=
  hs.of_engTurn (s.lineLeaves_engTurn line)

/-! ## Writes -/

theorem execCoreAcknowledgement_sound (hs : s.sound c m) (id : Nat) : Out.sound c m (execCoreAcknowledgement id s) := by
  unfold execCoreAcknowledgement
  split
  · exact hs
  · next a _ =>
    refine Out.sound_ite (fun _ => hs) fun _ => ?_
    extract_lets b t
    have ht : t.sound c m := hs.of_eq (.of_eq rfl rfl rfl rfl) rfl rfl
    exact State.sound.settle (.ite _ (ht.of_memTurn (t.fillWrite_memTurn b)) (ht.of_memTurn (t.dropCopies_memTurn ..)))

theorem State.performed_memTurn (s : State) (a : Access) (value : Option (List Byte)) : s.memTurn (s.performed a value) := by
  unfold State.performed
  dsimp only
  split
  · exact (State.memTurn.drawn s).trans (State.modAcc_memTurn ..)
  · exact s.modAcc_memTurn ..

theorem State.writePart_memTurn (s : State) (a : Access) (l : Loc) (bs : List Byte) : s.memTurn (s.writePart a l bs) := by
  unfold State.writePart
  split
  · next pa =>
    extract_lets t u
    have ht : s.memTurn t := .foldl (fun s b => s.endStore_memTurn b) _ s
    have hu : t.memTurn u := .modMem ((t.mem.dirtyLine_keepsForm (pa / 128)).trans
      (.of_hbm (fun h => Memory.wf_write pa bs h) rfl rfl rfl))
    exact (ht.trans hu).trans (State.settleL2_memTurn ..)
  · exact State.writeBy_memTurn ..

theorem State.performLine_memTurn (s : State) (a : Access) : s.memTurn (s.performLine a) := by
  unfold State.performLine
  split
  · exact State.performed_memTurn ..
  · exact State.memTurn.trans (.ite (State.lineInvalidate_memTurn ..) (State.lineWriteBack_memTurn ..)) (State.modAcc_memTurn ..)

theorem State.sound.performStore (hs : s.sound c m) (a : Access) : (s.performStore a).sound c m := by
  unfold State.performStore
  split
  · exact (hs.writeWord ..).of_memTurn (State.performed_memTurn ..)
  · split
    · exact hs
    · exact State.sound.ite _ (hs.of_memTurn (s.endStore_memTurn a))
        (hs.of_memTurn ((State.writeBy_memTurn ..).trans (State.performed_memTurn ..)))
    · exact hs.of_memTurn (((State.memTurn.drawn s).trans (State.writePart_memTurn ..)).trans (State.modAcc_memTurn ..))

theorem execSliceWritePerform_sound (hs : s.sound c m) (id : Nat) : Out.sound c m (execSliceWritePerform id s) := by
  unfold execSliceWritePerform
  split
  · exact hs
  · next a _ =>
    refine Out.sound_ite (fun _ => hs) fun _ => ?_
    have hline : Out.sound c m (.next (if s.lineBehind a then s else s.performLine a)) :=
      State.sound.ite _ hs (hs.of_memTurn (s.performLine_memTurn a))
    split
    · exact hs
    · exact hline
    · exact hline
    · refine Out.sound_ite (fun _ => hs) fun _ => Out.sound_ite (fun _ => hs.performStore a) fun _ => ?_
      extract_lets t old u
      have ht : s.memTurn t := s.finishWide_memTurn a.loc
      have hu : t.memTurn u := by
        unfold u
        split
        · exact State.writeBy_memTurn ..
        · exact State.touchBy_memTurn ..
      exact (hs.of_memTurn ((((ht.trans hu).trans (State.dropCopies_memTurn ..)).trans (State.fillWrite_memTurn ..)).trans
        (State.performed_memTurn ..))).settle

theorem execHomeAcknowledgement_sound (hs : s.sound c m) (id : Nat) : Out.sound c m (execHomeAcknowledgement id s) := by
  unfold execHomeAcknowledgement
  split
  · exact hs
  · next a _ =>
    refine Out.sound_ite (fun _ => hs) fun _ => ?_
    extract_lets t u
    have ht : t.sound c m := hs.modGroup fun g hg => by
      cases a.tagDest with
      | none => exact hg
      | some d => exact hg.land d (BitVec.ofNat 32 a.tag) false
    exact State.sound.settle (.ite _ (ht.modAcc ..) (ht.dropAcc id))

/-! ## Promotion drains and lane blocks -/

theorem execPromotionDrainRequest_sound (hs : s.sound c m) (d core : Nat) :
    Out.sound c m (execPromotionDrainRequest d core s) := State.sound.settle (hs.of_eq (.of_eq rfl rfl rfl rfl) rfl rfl)

theorem execPromotionDrainReport_sound (hs : s.sound c m) (d core : Nat) :
    Out.sound c m (execPromotionDrainReport d core s) := State.sound.settle (hs.of_eq (.of_eq rfl rfl rfl rfl) rfl rfl)

theorem execLaneBlockStart_sound (hs : s.sound c m) (gid : Nat) : Out.sound c m (execLaneBlockStart gid s) := by
  unfold execLaneBlockStart
  split
  · exact hs
  · next g hg =>
    have hg := hs.group? hg
    split
    · exact hs
    · next b r _ =>
      refine Out.sound_ite (fun _ => hs) fun _ => hs.setGroup ?_
      have hb := Group.sound.start (g := { g with dq := r, oldS := b.oldS }) hg (n := g.strandCount) (start := b.start)
        (k := b.k) fun i h => h
      split
      · exact hb.endBlock
      · exact hb

end

end Sys2Proof.Machine
end

section
/-! PROOFS. O6 and O7: every step keeps the memories canonical and the masks of the groups well formed (R25, log 3). -/
namespace Sys2Proof.Machine

section
variable {c m : Prop} {s : State}

/-! ## Instructions and unit steps -/

/-- Every instruction and every step of a unit keeps the invariants. -/
theorem exec_sound (hs : s.sound c m) (i : Instr) : Out.sound c m (exec i s) := by
  cases i with unfold exec
  | snop => exact scalarOp_sound hs fun _ => rfl
  | sadd | ssub | smul | smulh | smulhn | sand | sor | sxor | sshl | sshr | ssha | smin | smax | sminn | smaxn =>
    exact s3_sound hs ..
  | saddi | smovi | slui | sandi | sori | sshli | sshri | sshai | sadd64 | ssub64 | smov =>
    exact scalarOp_sound hs fun _ => rfl
  | smvxf => exact execSmvxf_sound hs ..
  | smvxt => exact execSmvxt_sound hs ..
  | sbfx | spopc | sclz => exact scalarOp_sound hs fun _ => rfl
  | scmp | scmpi => exact scalarOp_sound hs fun g => g.setQ_masksOk ..
  | ssel => exact scalarOp_sound hs fun _ => rfl
  | qlop => exact scalarOp_sound hs fun g => g.setQ_masksOk ..
  | sldi => exact execSldi_sound hs ..
  | sld | sld64 | sst | sst64 | satom | scas => exact scalarAccess_sound hs
  | spfxPf => exact execSpfxPf_sound hs ..
  | spfxWb | spfxInv => exact rangeOp_sound hs
  | sfnc => exact execSfnc_sound hs ..
  | sbr => exact execSbr_sound hs ..
  | scall => exact execScall_sound hs ..
  | sret => exact execSret_sound hs ..
  | sjmpr => exact execSjmpr_sound hs ..
  | sloop => exact execSloop_sound hs ..
  | lgo => exact execLgo_sound hs ..
  | lwait => exact execLwait_sound hs ..
  | lgot => exact execLgot_sound hs ..
  | cpy => exact execCpy_sound hs ..
  | cpym => exact execCpym_sound hs ..
  | gath | scat => exact indexedCopy_sound hs
  | mcast => exact execMcast_sound hs ..
  | mmac => exact execMmac_sound hs ..
  | mzro => exact execMzro_sound hs ..
  | macc => exact execMacc_sound hs ..
  | mfnc => exact execMfnc_sound hs ..
  | mwait | mwaitR => exact matrixWait_sound hs
  | msnd => exact execMsnd_sound hs ..
  | mpst => exact execMpst_sound hs ..
  | mprb => exact execMprb_sound hs ..
  | rcfnc => exact execRcfnc_sound hs ..
  | bdecl => exact execBdecl_sound hs ..
  | benter | benterYield => exact enterBundles_sound hs
  | bleave => exact execBleave_sound hs ..
  | bqry => exact execBqry_sound hs ..
  | bfree => exact execBfree_sound hs ..
  | bar => exact execBar_sound hs ..
  | barp => exact execBarp_sound hs ..
  | bara => exact execBara_sound hs ..
  | barw => exact execBarw_sound hs ..
  | evset => exact execEvset_sound hs ..
  | evclr => exact execEvclr_sound hs ..
  | evwait => exact execEvwait_sound hs ..
  | launch => exact execLaunch_sound hs ..
  | tsig => exact execTsig_sound hs ..
  | jraise => exact execJraise_sound hs ..
  | jdone => exact execJdone_sound hs ..
  | yield => exact execYield_sound hs ..
  | sleepns | waitns => exact timedWait_sound hs
  | ppt => exact execPpt_sound hs ..
  | srds => exact execSrds_sound hs ..
  | swrs => exact execSwrs_sound hs ..
  | trap => exact execTrap_sound hs ..
  | tret => exact execTret_sound hs ..
  | bkpt => exact execBkpt_sound hs ..
  | exit => exact execExit_sound hs ..
  | nop => exact laneInstr_sound hs fun _ hx => hx.finish _
  | iadd | isub | imul | imulh | imad | imin | imax | iabs | ineg => exact intOp_sound hs
  | idot4 => exact laneWrite_sound hs
  | and | or | xor | not => exact bitOp_sound hs
  | shl | shr | sha | rot => exact shiftOp_sound hs
  | bfx | bfi => exact laneWrite_sound hs
  | popc | clz | brev => exact bitOp_sound hs
  | lea | icmp => exact laneWrite_sound hs
  | fadd | fsub | fmul | ffma | fmin | fmax => exact fltOp_sound hs
  | frcp | frsq | fsqrt | fexp2 | flog2 | fsin | fcos | ftanh => exact funOp_sound hs
  | frnd | fscl | fcls | fcmp | fdot2 | cvt | mxq | mxd | mov | sel | shfl | shflx | bcst | vote =>
    exact laneWrite_sound hs
  | redl | scnl => exact reduceOp_sound hs
  | gtrn => exact execGtrn_sound hs ..
  | plop | pmov => exact laneWrite_sound hs
  | ld => exact execLd_sound hs ..
  | st => exact execSt_sound hs ..
  | pfx => exact execPfx_sound hs ..
  | fence => exact execFence_sound hs ..
  | atom => exact execAtom_sound hs ..
  | acas => exact execAcas_sound hs ..
  | ared => exact execAred_sound hs ..
  | brl => exact execBrl_sound hs ..
  | join => exact execJoin_sound hs ..
  | lend => exact execLend_sound hs ..
  | lcall => exact execLcall_sound hs ..
  | lret => exact execLret_sound hs ..
  | lexit => exact execLexit_sound hs ..
  | gbeg => exact execGbeg_sound hs ..
  | gyld => exact execGyld_sound hs ..
  | gnxt => exact execGnxt_sound hs ..
  | gdne => exact execGdne_sound hs ..
  | grcv => exact execGrcv_sound hs ..
  | gret => exact execGret_sound hs ..
  | gend => exact execGend_sound hs ..
  | waini | wapsh | waqry | waexp | wawln | warst => exact windowOp_sound hs
  | amovr => exact laneWrite_sound hs
  | amovw => exact execAmovw_sound hs ..
  | ltrap => exact execLtrap_sound hs ..
  | lbkpt => exact execLbkpt_sound hs ..
  | lrds => exact execLrds_sound hs ..
  | lwrs => exact laneWrite_sound hs
  | laneBlockStart => exact execLaneBlockStart_sound hs ..
  | loadValueArrival => exact execLoadValueArrival_sound hs ..
  | coreAcknowledgement => exact execCoreAcknowledgement_sound hs ..
  | homeAcknowledgement => exact execHomeAcknowledgement_sound hs ..
  | sliceWritePerform => exact execSliceWritePerform_sound hs ..
  | sliceReadAccept => exact execSliceReadAccept_sound hs ..
  | lineDataLeave => exact execLineDataLeave_sound hs ..
  | promotionDrainRequest => exact execPromotionDrainRequest_sound hs ..
  | promotionDrainReport => exact execPromotionDrainReport_sound hs ..
  | genSwitchToConsumer => exact execGenSwitchToConsumer_sound hs ..
  | genReturnToProducer => exact execGenReturnToProducer_sound hs ..
  | genDrain => exact execGenDrain_sound hs ..
  | ratchetPerform => exact execRatchetPerform_sound hs ..
  | bundleLeaveHandle => exact execBundleLeaveHandle_sound hs ..
  | bundleAdmissionTest => exact execBundleAdmissionTest_sound hs ..
  | bundleEvictComplete => exact execBundleEvictComplete_sound hs ..
  | bundleFillComplete => exact execBundleFillComplete_sound hs ..
  | holdLimitExpiry => exact execHoldLimitExpiry_sound hs ..
  | holdLimitTrap => exact execHoldLimitTrap_sound hs ..
  | engineCommandStart => exact execEngineCommandStart_sound hs ..
  | engineCommandComplete => exact execEngineCommandComplete_sound hs ..
  | engineFault => exact execEngineFault_sound hs ..
  | cpymFollowOnHandoff => exact execCpymFollowOnHandoff_sound hs ..
  | segmentSubrecordRead => exact execSegmentSubrecordRead_sound hs ..
  | batchComplete => exact execBatchComplete_sound hs ..
  | recordCacheEvict => exact execRecordCacheEvict_sound hs ..
  | messageArrival => exact execMessageArrival_sound hs ..
  | byteBarrierArrive => exact execByteBarrierArrive_sound hs ..
  | barrierReleaseWave => exact execBarrierReleaseWave_sound hs ..
  | eventVectorUpdate => exact execEventVectorUpdate_sound hs ..
  | taskDecrement => exact execTaskDecrement_sound hs ..
  | timedWaitExpiry => exact execTimedWaitExpiry_sound hs ..
  | aclockChange => exact execAclockChange_sound hs ..
  | dispatch => exact execDispatch_sound hs ..
  | blockPlace => exact execBlockPlace_sound hs ..
  | balanceAction => exact execBalanceAction_sound hs ..
  | quantumExpiry => exact execQuantumExpiry_sound hs ..
  | preemptionBegin => exact execPreemptionBegin_sound hs ..
  | drainDeadlineExpiry => exact execDrainDeadlineExpiry_sound hs ..
  | groupSave => exact execGroupSave_sound hs ..
  | blockResume => exact execBlockResume_sound hs ..
  | clusterContextSwitch => exact execClusterContextSwitch_sound hs ..
  | contextTeardown => exact execContextTeardown_sound hs ..
  | coreGate => exact execCoreGate_sound hs ..
  | inrushStep => exact execInrushStep_sound hs ..
  | tokenInterval => exact execTokenInterval_sound hs ..
  | leaseRequest => exact execLeaseRequest_sound hs ..
  | leaseExpiry => exact execLeaseExpiry_sound hs ..
  | tailDoorbell => exact execTailDoorbell_sound hs ..
  | queueDescriptorWrite => exact execQueueDescriptorWrite_sound hs ..
  | hostdb => exact execHostdb_sound hs ..
  | ctxerrClear => exact execCtxerrClear_sound hs ..
  | tlbinv => exact execTlbinv_sound hs ..
  | tlbinvComplete => exact execTlbinvComplete_sound hs ..
  | cwmaskWrite => exact execCwmaskWrite_sound hs ..
  | cwmaskApply => exact execCwmaskApply_sound hs ..
  | histogramClear => exact hs.clearHistogram ..
  | setown => exact execSetown_sound hs ..
  | setmem => exact execSetmem_sound hs ..
  | setpart => exact execSetpart_sound hs ..
  | setctx => exact execSetctx_sound hs ..
  | setslew => exact execSetslew_sound hs ..
  | profgrant => exact execProfgrant_sound hs ..
  | attest => exact execAttest_sound hs ..
  | setpeer => exact execSetpeer_sound hs ..
  | setwin => exact execSetwin_sound hs ..
  | mbcmdUnknown => exact execMbcmdUnknown_sound hs ..
  | classWayWriteback => exact execClassWayWriteback_sound hs ..
  | peerAccessInbound => exact execPeerAccessInbound_sound hs ..
  | linkFlitRetry => exact execLinkFlitRetry_sound hs ..
  | thermalThrottle => exact execThermalThrottle_sound hs ..
  | thermalRecover => exact execThermalRecover_sound hs ..
  | resetRelease => exact execResetRelease_sound hs ..
  | bootVerify => exact execBootVerify_sound hs ..
  | registerWrite => exact execRegisterWrite_sound hs ..
  | hostBar2Access => exact execHostBar2Access_sound hs ..
  | linkTrained => exact execLinkTrained_sound hs ..
  | linkDown => exact execLinkDown_sound hs ..
  | powerDown => exact execPowerDown_sound hs ..
  | supplyDroop => exact execSupplyDroop_sound hs ..

/-! ## Other turns -/

theorem State.waitsTo_masksOk (s : State) (n : Nat) (g : Group) : (s.waitsTo n g).masksOk = g.masksOk := by
  unfold State.waitsTo
  dsimp only
  split <;> rfl

namespace State.sound

theorem elapse (hs : s.sound c m) (n : Nat) : (s.elapse n).sound c m := by
  have hg := hs.mapGroups fun g hg => Group.sound.of_eq hg (s.waitsTo_masksOk (((s.groups.filterMap s.waitBound).foldl min
    (s.ns + n)) % 2 ^ 64) g)
  exact hg

theorem landOne (hs : s.sound c m) (gid k : Nat) : (s.landOne gid k).sound c m :=
  hs.modGroup fun g hg => by
    split
    · next r _ => exact Group.sound.land (g := g) hg r.dest r.val r.orIn
    · exact hg

theorem evictKey (hs : s.sound c m) (k : L2Key) (prio : Nat) : (s.evictKey k prio).sound c m :=
  ite _ hs (hs.of_memTurn (s.dropKey_memTurn k))

theorem evictL2 (hs : s.sound c m) (k : Nat) : (s.evictL2 k).sound c m := by
  unfold State.evictL2
  split
  · exact ite _ hs (hs.evictKey ..)
  · split
    · exact hs.evictKey ..
    · split
      · exact hs.evictKey ..
      · exact hs

theorem evictL1 (hs : s.sound c m) (k : Nat) : (s.evictL1 k).sound c m := by
  unfold State.evictL1
  split
  · exact hs
  · refine ite _ hs ?_
    exact hs.of_eq (.of_eq rfl rfl rfl rfl) rfl rfl

theorem keepCode (hs : s.sound c m) (core launch pa : Nat) : (s.keepCode core launch pa).sound c m := by
  refine ite _ hs ?_
  exact hs.of_eq (.of_eq rfl rfl rfl rfl) rfl rfl

theorem dataError (hs : s.sound c m) (space part : Nat) (on : Bool) : (s.dataError space part on).sound c m := by
  refine ite _ hs ?_
  exact hs.of_eq (.of_eq rfl rfl rfl rfl) rfl rfl

theorem spend (hs : s.sound c m) (p n : Nat) : (s.spend p n).sound c m := ite _ hs (hs.modPart _ _)

end State.sound

/-- A store of the host or of a peer device to its own memory. -/
theorem MemSys.outside_keepsForm (x : MemSys) (host : Bool) (addr : Nat) (data : List Byte) :
    x.keepsForm (x.outside host addr data) := by
  intro h
  unfold MemSys.canonical at h ⊢
  simp only [Bool.and_eq_true] at h ⊢
  obtain ⟨⟨⟨hhbm, hhost⟩, hpeer⟩, hsram⟩ := h
  cases host with
  | true => exact ⟨⟨⟨hhbm, Memory.wf_write addr data hhost⟩, hpeer⟩, hsram⟩
  | false => exact ⟨⟨⟨hhbm, hhost⟩, Memory.wf_write addr data hpeer⟩, hsram⟩

theorem State.sound.other (hs : s.sound c m) (t : Turn) : (s.other t).sound c m := by
  cases t with
  | idle | scalar | lane | event | sriov => exact hs
  | elapse => exact hs.elapse _
  | land => exact hs.landOne ..
  | work => exact hs.workTurn ..
  | evictL1 => exact hs.evictL1 _
  | evictL2 => exact hs.evictL2 _
  | evictTlb | dropCode => exact hs.of_eq (.of_eq rfl rfl rfl rfl) rfl rfl
  | keepCode => exact hs.keepCode ..
  | hostStore | peerStore => exact hs.modMem (MemSys.outside_keepsForm _ _ _ _)
  | dataError => exact hs.dataError ..
  | count => exact .ite _ (hs.lifeAdd ..) hs
  | aclock => exact hs.countClock ..
  | corrected => exact hs.corrected _
  | load => exact hs.setLoad ..
  | spend => exact hs.spend ..
  | draw => exact hs.drawPool
  | resize => exact .ite _ (hs.modPlat _) hs
  | rail => exact hs.railUp

/-! ## The step -/

theorem Issue.sound.run {i : Issue} (hi : i.sound c m) : Out.sound c m i.run := by
  cases i with
  | instr s i => exact exec_sound hi i
  | other s => exact hi

theorem State.sound.take (hs : s.sound c m) (t : Turn) : Out.sound c m (s.take t) := by
  cases t with
  | scalar g => exact (scalarIssue_sound hs g).run
  | lane g st => exact (laneIssue_sound hs g st).run
  | event e =>
    unfold State.take
    dsimp only
    split
    · exact exec_sound hs e
    · exact hs
  | _ => exact hs.other _

theorem State.sound.begin (hs : s.sound c m) : s.begin.sound c m := by
  unfold State.begin
  split <;> exact hs

theorem step_sound {t : State} (hs : s.sound c m) (ht : step s = .next t) : t.sound c m := by
  have h : Out.sound c m (step s) := hs.begin.take s.nextTurn
  rw [ht] at h
  exact h

end

/-- Settles O6: the memories' part of the invariant that `step_sound` keeps. -/
theorem everyStepKeepsMemoryCanonical : Obligations.EveryStepKeepsMemoryCanonical := by
  unfold Obligations.EveryStepKeepsMemoryCanonical
  exact fun _ _ hs ht => State.sound_memCanonical.mp (step_sound (State.sound_memCanonical.mpr hs) ht)

/-- Settles O7: the groups' part of the invariant that `step_sound` keeps. -/
theorem everyStepKeepsExecWithinLive : Obligations.EveryStepKeepsExecWithinLive := by
  unfold Obligations.EveryStepKeepsExecWithinLive
  exact fun _ _ hs ht => State.sound_masksOk.mp (step_sound (State.sound_masksOk.mpr hs) ht)

end Sys2Proof.Machine
end
